-- ==== Sys2Proof/Word.lean ====
section
/-! DEFINITION. The word types of the machine and its plainest names (R4, R35). -/

namespace Sys2Proof

/-- Eight bits: one cell of memory (R4). -/
abbrev Byte := BitVec 8
/-- A lane register, an address, a control register of 64 bits (R35). -/
abbrev W64 := BitVec 64
/-- A 32-bit half of a lane register, a norm entry, FPCTL, FPSTAT. -/
abbrev W32 := BitVec 32
/-- A page generation (R358). -/
abbrev W16 := BitVec 16
/-- An operand field (R13). -/
abbrev W12 := BitVec 12
/-- An instruction word (R8). -/
abbrev W96 := BitVec 96
/-- A set of lanes of one gang, bit l for lane l. -/
abbrev LaneMask := BitVec 64

end Sys2Proof
end

