-- ==== Sys2Proof/Config.lean ====
section
/-! DEFINITION. What the spec leaves open, as constants with no body: nothing can evaluate them. -/

namespace Sys2Proof

/-- R11: whether a fetch of a word stored to during the task returns the old bytes. Free value, log entry 6. -/
opaque Config.fetchOld : Nat → Bool

/-- R136: which of the results within the stated bound an approximate form gives, as a fixed function of the form,
the source bits, the type code and FPCTL.FTZ. Free value, log entry 7. -/
opaque Config.sfuChoice : Nat → Nat → Nat → Bool → Nat

/-- R443: the start-up pattern of the dedicated SRAM, corrected, from which the module's identity key pair is derived. Free value, log
entry 8. -/
opaque Config.identitySeed : Nat

/-- R439: the vendor certificate of the identity key. Free value, log entry 8. -/
opaque Config.identityCert : List Byte

/-- R444: the random number of the signature of a message. Free value, log entry 8. -/
opaque Config.signNonce : List Byte → Nat

/-- R439: the module's ephemeral secret for its next session. Free value, log entry 8. -/
opaque Config.ephemeral : Nat → Nat

/-- R439: the challenge the module sends for its next session. Free value, log entry 8. -/
opaque Config.challenge : Nat → List Byte

/-- R411: the INFO of a FORCED-RESET or FATAL entry for which the spec gives no code: 0 a context-fatal error, 1 three failed
retrains, 2 a failed sensor. Free value, log entry 12. -/
opaque Config.openInfo : Nat → Nat

/-- R226: the 32-bit word that a ROWADD leaves where its version word lies inside its own row. Free value, log entry 13. -/
opaque Config.rowOverlap : Nat → W32

/-- R355, R445: the bytes of a die's near range that the module reserves for itself beside the die-level cache. Free value,
log entry 9. -/
opaque Config.ownReserve : Nat → Nat

end Sys2Proof
end

