-- ==== Sys2Proof/Syntax.lean ====
section
/-! DEFINITION. The syntax: the fields of the instruction word (R8), the payloads of the happenings and commands, and
`Instr`, one constructor per row of the opcode table. -/

namespace Sys2Proof

/-- The fields of an instruction word other than CLASS and OP, as R8 places them. -/
structure Fields where
  /-- Guard negate, bit 85. -/
  gn : Bool
  /-- Guard predicate, bits 84:82. -/
  gp : BitVec 3
  /-- Destination field, bits 81:70. -/
  d : W12
  /-- First source field, bits 69:58. -/
  a : W12
  /-- Second source field, bits 57:46. -/
  b : W12
  /-- Immediate, bits 45:14; the third source C sits in its bits 11:0 (R15). -/
  imm : W32
  /-- Transient destination, bit 13 (R17). -/
  t : Bool
  /-- Full/empty hints, bits 12, 11, 10 (R18). -/
  fa : Bool
  fb : Bool
  fc : Bool
  /-- Uniformity assertion, bit 9 (R19). -/
  u : Bool
  /-- Yield, bit 8 (R20). -/
  y : Bool
  /-- Operand-reuse hint, bits 7:6 (R21). -/
  hold : BitVec 2
  /-- Modifier, bits 5:0 (R22). -/
  mod : BitVec 6
  deriving DecidableEq, Repr

/-- The third source field C (R15). -/
def Fields.c (f : Fields) : W12 := f.imm.extractLsb' 0 12
/-- MOD 3:0, the type code of a typed class (R22). -/
def Fields.tcode (f : Fields) : Nat := f.mod.toNat % 16
/-- MOD 5:4, the variant of a typed class (R22). -/
def Fields.variant (f : Fields) : Nat := f.mod.toNat / 16

/-- A gang slot: core, partition of the core, slot of the partition (R2). -/
structure GangRef where
  core : Nat
  part : Nat
  slot : Nat
  deriving DecidableEq, Repr

/-- An incoming RoCEv2 request (R395): port, queue pair, remote key, virtual address and operands. -/
structure NetReq where
  port : Nat
  qp : Nat
  key : W32
  va : Nat
  /-- Bytes of a READ. -/
  len : Nat
  /-- Bytes of a WRITE. -/
  data : List Byte
  /-- Addend of a fetch-and-add; swap value of a compare-and-swap. -/
  value : W64
  /-- Comparand of a compare-and-swap. -/
  compare : W64
  deriving DecidableEq, Repr

/-- What a patrol scrubber finds in the word it reads (R413). -/
inductive ScrubFinding where
  | clean
  | corrected
  | uncorrectable
  deriving DecidableEq, Repr

/-- The word a patrol scrubber reads (R413): a V half-register or scratchpad word of a core array, or a memory word. -/
inductive ScrubWord where
  /-- A 32-bit word of the window of a resident gang: half-register index 2(k·width + l) + h. -/
  | window (g : GangRef) (half : Nat)
  /-- A 32-bit word of a team's scratchpad half. -/
  | scratch (slot team half word : Nat)
  /-- A 32-bit word, by physical word number, of a line that a core holds for a task slot. -/
  | l1 (core slot word : Nat)
  /-- The 32-bit word at physical address 4·word; die is the home of a far word. -/
  | memory (die word : Nat)
  /-- A 32-bit word, by physical word number, of a line in a die's die-level cache. -/
  | dieCache (die word : Nat)
  deriving DecidableEq, Repr

/-- The comparison operands of a WAITV or COND packet (R388). -/
structure CmpPacket where
  addr : W64
  value : W64
  mask : W64
  op : Nat
  deriving DecidableEq, Repr

/-- The operands of a COPY packet (R388, R391). -/
structure CopyPacket where
  src : W64
  dst : W64
  len : Nat
  sig : W64
  dest : Nat
  deriving DecidableEq, Repr

/-- The M fields a CTXSET carries (R373, R374). -/
structure CtxFields where
  secure : Bool
  prio : Nat
  share : Nat
  troot : W64
  coremask : LaneMask
  slice : Nat
  stall : Nat
  deadline : Nat
  saverec : W64
  errlog : W64
  deriving DecidableEq, Repr

/-- The M fields of a queue descriptor (R386). -/
structure QueueFields where
  ring : W64
  log2n : Nat
  tailAddr : W64
  headAddr : W64
  deriving DecidableEq, Repr

/-- A remote-key table entry (R395). -/
structure KeyEntry where
  ctx : Nat
  base : Nat
  length : Nat
  canRead : Bool
  canWrite : Bool
  canAtomic : Bool
  secure : Bool
  deriving DecidableEq, Repr

/-- What the host sends to open a session beside its signature: its challenge and its ephemeral public key (R439). -/
structure HostHello where
  challenge : List Byte
  key : List Byte
  deriving DecidableEq, Repr

/-- A peer-window table entry (R397). -/
structure WindowEntry where
  ctx : Nat
  port : Nat
  qp : Nat
  key : W32
  base : W64
  length : Nat
  deriving DecidableEq, Repr

/-- How a peer answers a request: a negative acknowledgement or a transport failure, a response or acknowledgement, or a response that says
that the word is poisoned (R225, R395, R398). -/
inductive PeerAnswer where
  | refused
  | ok
  | poisoned
  deriving DecidableEq, Repr

/-- A secure range of physical memory (R400). -/
structure SecRange where
  base : Nat
  size : Nat
  deriving DecidableEq, Repr

/-- A debug register word (R426). -/
inductive DebugItem where
  | bp (k word : Nat)
  | dw (k word : Nat)
  | sw (k word : Nat)
  deriving DecidableEq, Repr

/-- A piece of a stopped gang that GSTATE reads or GSET writes (R430). -/
inductive GangItem where
  | v (k lane : Nat)
  | s (k : Nat)
  | p (k lane : Nat)
  | n (k : Nat)
  | w (k : Nat)
  | lent (k : Nat)
  | creg (k : Nat)
  | pc (lane : Nat)
  | wait (lane : Nat)
  deriving DecidableEq, Repr

/-- A remote checkpoint target (R449). -/
structure CkptTarget where
  port : Nat
  qp : Nat
  key : W32
  base : W64
  deriving DecidableEq, Repr

/-- The instructions, happenings and commands: one constructor per row of the opcode table. The first 148 are the forms of
the 96-bit word in the order of the opcode map (R87 to R95). -/
inductive Instr where
  | nop (f : Fields)
  | bra (f : Fields)
  | bri (f : Fields)
  | call (f : Fields)
  | calli (f : Fields)
  | ret (f : Fields)
  | exit (f : Fields)
  | yield (f : Fields)
  | elect (f : Fields)
  | vote (f : Fields)
  | pset (f : Fields)
  | pmov (f : Fields)
  | iadd (f : Fields)
  | isub (f : Fields)
  | iaddc (f : Fields)
  | imul (f : Fields)
  | imulh (f : Fields)
  | imad (f : Fields)
  | imin (f : Fields)
  | imax (f : Fields)
  | iabs (f : Fields)
  | ineg (f : Fields)
  | icmp (f : Fields)
  | isel (f : Fields)
  | lea (f : Fields)
  | idiv (f : Fields)
  | irem (f : Fields)
  | mov (f : Fields)
  | movi (f : Fields)
  | idot4 (f : Fields)
  | and (f : Fields)
  | or (f : Fields)
  | xor (f : Fields)
  | not (f : Fields)
  | andn (f : Fields)
  | shl (f : Fields)
  | shr (f : Fields)
  | sar (f : Fields)
  | rot (f : Fields)
  | popc (f : Fields)
  | clz (f : Fields)
  | ctz (f : Fields)
  | brev (f : Fields)
  | bfx (f : Fields)
  | bfi (f : Fields)
  | lop3 (f : Fields)
  | fadd (f : Fields)
  | fsub (f : Fields)
  | fmul (f : Fields)
  | ffma (f : Fields)
  | fmin (f : Fields)
  | fmax (f : Fields)
  | fabs (f : Fields)
  | fneg (f : Fields)
  | fcmp (f : Fields)
  | fsel (f : Fields)
  | fclass (f : Fields)
  | fscale (f : Fields)
  | fround (f : Fields)
  | fdot2 (f : Fields)
  | frcp (f : Fields)
  | frsq (f : Fields)
  | fsqrt (f : Fields)
  | fexp2 (f : Fields)
  | flog2 (f : Fields)
  | fsin (f : Fields)
  | fcos (f : Fields)
  | ftanh (f : Fields)
  | fdiv (f : Fields)
  | cvt (f : Fields)
  | shfl (f : Fields)
  | swz (f : Fields)
  | bcast (f : Fields)
  | reda (f : Fields)
  | redm (f : Fields)
  | scan (f : Fields)
  | pack (f : Fields)
  | unpack (f : Fields)
  | sxpack (f : Fields)
  | sxunp (f : Fields)
  | matchLanes (f : Fields)
  | dvmk (f : Fields)
  | dvflat (f : Fields)
  | dvdot (f : Fields)
  | dvscl (f : Fields)
  | dvadd (f : Fields)
  | dvaxpy (f : Fields)
  | dvneg (f : Fields)
  | dvnrm (f : Fields)
  | dvsetn (f : Fields)
  | dvren (f : Fields)
  | dvproj (f : Fields)
  | dvcmp (f : Fields)
  | dvld (f : Fields)
  | dvst (f : Fields)
  | dvmul (f : Fields)
  | tvset (f : Fields)
  | tvget (f : Fields)
  | mxop (f : Fields)
  | mxwait (f : Fields)
  | tokgive (f : Fields)
  | toktake (f : Fields)
  | tzero (f : Fields)
  | tcvt (f : Fields)
  | chld (f : Fields)
  | chrun (f : Fields)
  | chqry (f : Fields)
  | chinv (f : Fields)
  | ld (f : Fields)
  | st (f : Fields)
  | lds (f : Fields)
  | sts (f : Fields)
  | ldx (f : Fields)
  | stx (f : Fields)
  | ldp (f : Fields)
  | stp (f : Fields)
  | ldk (f : Fields)
  | pfch (f : Fields)
  | stash (f : Fields)
  | unstash (f : Fields)
  | atom (f : Fields)
  | acas (f : Fields)
  | rowadd (f : Fields)
  | rowld (f : Fields)
  | atoms (f : Fields)
  | cpy (f : Fields)
  | cpym (f : Fields)
  | gather (f : Fields)
  | scata (f : Fields)
  | sigw (f : Fields)
  | sigt (f : Fields)
  | sigs (f : Fields)
  | bars (f : Fields)
  | bara (f : Fields)
  | barw (f : Fields)
  | boa (f : Fields)
  | bow (f : Fields)
  | carve (f : Fields)
  | trap (f : Fields)
  | rte (f : Fields)
  | mfc (f : Fields)
  | mtc (f : Fields)
  | rdcnt (f : Fields)
  | rdtime (f : Fields)
  | haltdbg (f : Fields)
  | rddig (f : Fields)
  | regq (f : Fields)
  | sleep (f : Fields)
  | chldCommit (g : GangRef)
  | sigwComplete (g : GangRef)
  | bowComplete (g : GangRef)
  | sleepWake (g : GangRef)
  | fetch (g : GangRef)
  | secdedReplay (g : GangRef)
  | fillLand (g : GangRef) (ix : Nat)
  | teamPlace (slot : Nat)
  | gangRetire (g : GangRef)
  | mxopRun (core part : Nat)
  | engineElement (id : Nat)
  | engineSignalUpdate (id : Nat)
  | unclassifiedIssueComplete (g : GangRef)
  | pageReclassify (slot page : Nat)
  | readonlyToShared (slot page : Nat)
  | peerAccessComplete (id : Nat) (a : PeerAnswer) (data : List Byte)
  | walkComplete (cluster ix : Nat)
  | pageMigration (id : Nat)
  | netRdmaWrite (r : NetReq)
  | netRdmaRead (r : NetReq)
  | netAtomicFetchAdd (r : NetReq)
  | netAtomicCmpSwap (r : NetReq)
  | deferredRequestPerform (ix : Nat)
  | frameDrop (port : Nat)
  | congestionNotification (port : Nat)
  | pfcPause (port prio ticks : Nat)
  | qpTransportFailure (qp : Nat)
  | viaductFlitReceive (die : Nat) (crcOk : Bool)
  | retrainComplete (ok : Bool)
  | moduleFatal (structureCode : Nat)
  | contextFatalError (slot : Nat)
  | patrolScrub (w : ScrubWord) (found : ScrubFinding)
  | bucketRefill (core : Nat)
  | telemetryLatch (energy tempMax : Nat)
  | traceSample (core ctx : Nat)
  | sliceExpiry (ctx : Nat)
  | stallExpiry (ctx : Nat)
  | deadlineExpiry (ctx : Nat)
  | drainEnd (ctx : Nat)
  | clockStep (die powerMilliW tempMilliC : Nat)
  | thermalStop (die tempMilliC : Nat)
  | thermalRestart (die tempMilliC : Nat)
  | sensorFailure (die : Nat)
  | queueWake (q : Nat)
  | task (q : Nat) (after : Bool) (record : W64)
  | taskAccept (q : Nat)
  | waitv (q : Nat) (after : Bool) (p : CmpPacket) (timeout : W64)
  | waitvSatisfied (q : Nat)
  | waitvTimeout (q : Nat)
  | signal (q : Nat) (after : Bool) (addr value : W64) (set : Bool)
  | cond (q : Nat) (after : Bool) (p : CmpPacket) (nThen nElse : Nat)
  | copy (q : Nat) (after : Bool) (p : CopyPacket)
  | copyTransfer (id count : Nat)
  | copyMigrate (q : Nat) (after : Bool) (p : CopyPacket)
  | markTrace (q : Nat) (after : Bool) (tag : W32) (sig : W64)
  | markInvalidate (q : Nat) (after : Bool) (tag : W32) (sig : W64)
  | dependenceRead (slot dep : Nat)
  | startEdge (slot : Nat)
  | flushLine (slot : Nat)
  | endEdgeFinish (slot : Nat)
  | ctxset (session ctx : Nat) (p : Option CtxFields)
  | ctxreset (session ctx : Nat)
  | ctxclear (session ctx : Nat)
  | ctxquery (session ctx : Nat)
  | qmap (session q ctx : Nat) (p : QueueFields)
  | qunmap (session q : Nat)
  | qresume (session q : Nat) (skip : Bool)
  | keyset (session : Nat) (key : W32) (entry : Option KeyEntry)
  | winset (session window : Nat) (entry : Option WindowEntry)
  | secset (session : Nat) (ranges : List SecRange) (cores : LaneMask)
  | telset (session k ctx : Nat) (ring : W64) (mods : Bool)
  | traceset (session ctx die : Nat) (ring : W64) (en : BitVec 4) (s : Nat)
  | dbgattach (session ctx : Nat)
  | dbgdetach (session ctx : Nat)
  | dbgset (session ctx : Nat) (item : DebugItem) (value : W64)
  | gstate (session ctx : Nat) (g : GangRef) (item : GangItem)
  | gset (session ctx : Nat) (g : GangRef) (item : GangItem) (value : W64)
  | grelease (session ctx : Nat) (g : GangRef) (step : Bool)
  | dump (session ctx : Nat) (area : W64) (hold : Bool)
  | dumpDieCut (ctx die : Nat)
  | logread (session n : Nat)
  | sessionOpen (session ownerKey : Nat) (challengeSig : List Byte) (hello : HostHello)
  | slotwrite (session : Nat) (slotB : Bool) (offset : Nat) (bytes : List Byte)
  | activate (session : Nat) (slotB force : Bool)
  | commit (session : Nat)
  | reset (session : Nat)
  | ident (session : Nat)
  | status (session : Nat)
  | attest (session : Nat) (nonce : List Byte)
  | cfgwrite (session : Nat) (copy1 : Bool) (bytes : List Byte)
  | ckptLocal (session : Nat)
  | ckptRemote (session : Nat) (targets : List CkptTarget)
  | ckptChunkResponse (ok : Bool)
  | ckrestoreLocal (session : Nat)
  | ckrestoreRemote (session : Nat) (targets : List CkptTarget)
  | undefinedEncoding (w : W96)
  | linkRetrain
  | contextAdmit
  | powerLoss
  | moduleReset
  | activateSwitch
  deriving DecidableEq, Repr

end Sys2Proof
end

