-- ==== Sys2Proof/Machine/OpcodeMap.lean ====
section
/-! DEFINITION. The opcode map (R81 to R95) as data, and the decode checks of R22, R23, R24 and R97 over it. -/

namespace Sys2Proof

/-- The Types column of the opcode map (R82, R88 to R94). -/
inductive TypesCol where
  | untyped
  | int
  | fp
  | all
  | signed
  /-- Codes 0 to 3 ("32/64"). -/
  | word3264
  /-- Codes 2 and 3. -/
  | word64
  /-- Codes 6 and 7. -/
  | bytes
  /-- Codes 10 and 11. -/
  | half16
  /-- Codes 8, 10 and 11. -/
  | approx
  /-- Codes 0 to 3 and 8. -/
  | atomic
  deriving DecidableEq, Repr

/-- The Lat column (R82). -/
inductive LatCol where
  | fixed
  | long
  | nothing
  deriving DecidableEq, Repr

/-- The Fetch column (R82). -/
inductive FetchCol where
  | suspends
  | unclassified
  | free
  deriving DecidableEq, Repr

/-- What the form's description allows in MOD 5:4 of a typed form, or in MOD of an untyped one. -/
inductive ModRule where
  | only (l : List Nat)
  /-- R119: `.HI` on I64 and N64 alone. -/
  | movi
  /-- R140: rounding variants when a type is floating, `.SAT` otherwise. -/
  | cvt
  /-- R147. -/
  | reda
  /-- R148. -/
  | redm
  /-- R211: the size, `.E` reserved for 64-bit types. -/
  | size
  deriving DecidableEq, Repr

/-- What the form's description allows in IMM (R97). -/
inductive ImmRule where
  /-- No use of its own: reserved unless C or the special source IMM uses it (R15, R16). -/
  | unused
  /-- All 32 bits are a displacement or an offset. -/
  | any
  | below (n : Nat)
  /-- R119. -/
  | moviValue
  /-- R122. -/
  | bitField
  /-- R139. -/
  | cvtSource
  /-- R146. -/
  | swizzle
  /-- R145; the bound by the gang's width is `bcastLaneOk`. -/
  | bcastLane
  /-- R157. -/
  | chainCount
  /-- R204. -/
  | mxwaitId
  /-- R223. -/
  | atomOp
  /-- R250. -/
  | trapCode
  deriving DecidableEq, Repr

/-- A row of the opcode map. -/
structure Form where
  cls : Nat
  op : Nat
  useD : Bool
  useA : Bool
  useB : Bool
  useC : Bool
  types : TypesCol
  lat : LatCol
  fetch : FetchCol
  mods : ModRule
  immRule : ImmRule
  deriving DecidableEq, Repr

/-- Why a word is not an instruction (R23). -/
inductive BadOpcode where
  | unassigned
  | negatedP7
  | transientHint
  | uniformityHint
  | emptyHint
  | unusedField
  | badType
  | badModifier
  | badImmediate
  /-- Fewer than twelve bytes. -/
  | truncated
  deriving DecidableEq, Repr

/-- R87 to R95: the row of the opcode map and the fields of an instruction form; none for a happening or a command. -/
def Instr.form : Instr → Option (Form × Fields)
  -- class 0x0, ctrl (R87)
  | .nop f => some (⟨0, 0, false, false, false, false, .untyped, .nothing, .free, .only [0], .unused⟩, f)
  | .bra f => some (⟨0, 1, false, false, false, false, .untyped, .nothing, .free, .only [0], .any⟩, f)
  | .bri f => some (⟨0, 2, false, true, false, false, .untyped, .nothing, .free, .only [0], .unused⟩, f)
  | .call f => some (⟨0, 3, true, false, false, false, .untyped, .fixed, .free, .only [0], .any⟩, f)
  | .calli f => some (⟨0, 4, true, true, false, false, .untyped, .fixed, .free, .only [0], .unused⟩, f)
  | .ret f => some (⟨0, 5, false, true, false, false, .untyped, .nothing, .free, .only [0], .unused⟩, f)
  | .exit f => some (⟨0, 6, false, false, false, false, .untyped, .nothing, .free, .only [0], .unused⟩, f)
  | .yield f => some (⟨0, 7, false, false, false, false, .untyped, .nothing, .free, .only [0], .unused⟩, f)
  | .elect f => some (⟨0, 8, true, false, false, false, .untyped, .fixed, .free, .only [0], .unused⟩, f)
  | .vote f => some (⟨0, 9, true, true, false, false, .untyped, .fixed, .free, .only [0, 1, 2, 3, 4, 5], .unused⟩, f)
  | .pset f => some (⟨0, 10, true, true, true, false, .untyped, .fixed, .free, .only [0, 1, 2, 3, 4, 5, 6, 7], .unused⟩, f)
  | .pmov f => some (⟨0, 11, true, true, false, false, .untyped, .fixed, .free, .only [0, 1, 2], .unused⟩, f)
  -- class 0x1, int (R88)
  | .iadd f => some (⟨1, 0, true, true, true, false, .int, .fixed, .free, .only [0, 1], .unused⟩, f)
  | .isub f => some (⟨1, 1, true, true, true, false, .int, .fixed, .free, .only [0, 1], .unused⟩, f)
  | .iaddc f => some (⟨1, 2, true, true, true, true, .word3264, .fixed, .free, .only [0], .unused⟩, f)
  | .imul f => some (⟨1, 3, true, true, true, false, .int, .fixed, .free, .only [0, 1], .unused⟩, f)
  | .imulh f => some (⟨1, 4, true, true, true, false, .int, .fixed, .free, .only [0], .unused⟩, f)
  | .imad f => some (⟨1, 5, true, true, true, true, .int, .fixed, .free, .only [0, 1], .unused⟩, f)
  | .imin f => some (⟨1, 6, true, true, true, false, .int, .fixed, .free, .only [0], .unused⟩, f)
  | .imax f => some (⟨1, 7, true, true, true, false, .int, .fixed, .free, .only [0], .unused⟩, f)
  | .iabs f => some (⟨1, 8, true, true, false, false, .signed, .fixed, .free, .only [0, 1], .unused⟩, f)
  | .ineg f => some (⟨1, 9, true, true, false, false, .signed, .fixed, .free, .only [0, 1], .unused⟩, f)
  | .icmp f => some (⟨1, 10, true, true, true, false, .int, .fixed, .free, .only [0, 1, 2], (.below 6)⟩, f)
  | .isel f => some (⟨1, 11, true, true, true, true, .all, .fixed, .free, .only [0], .unused⟩, f)
  | .lea f => some (⟨1, 12, true, true, true, false, .word64, .fixed, .free, .only [0], (.below 8)⟩, f)
  | .idiv f => some (⟨1, 13, true, true, true, false, .word3264, .long, .free, .only [0], .unused⟩, f)
  | .irem f => some (⟨1, 14, true, true, true, false, .word3264, .long, .free, .only [0], .unused⟩, f)
  | .mov f => some (⟨1, 15, true, true, false, false, .all, .fixed, .free, .only [0], .unused⟩, f)
  | .movi f => some (⟨1, 16, true, false, false, false, .all, .fixed, .free, .movi, .moviValue⟩, f)
  | .idot4 f => some (⟨1, 17, true, true, true, true, .bytes, .fixed, .free, .only [0, 1], .unused⟩, f)
  -- class 0x2, bit (R89)
  | .and f => some (⟨2, 0, true, true, true, false, .int, .fixed, .free, .only [0], .unused⟩, f)
  | .or f => some (⟨2, 1, true, true, true, false, .int, .fixed, .free, .only [0], .unused⟩, f)
  | .xor f => some (⟨2, 2, true, true, true, false, .int, .fixed, .free, .only [0], .unused⟩, f)
  | .not f => some (⟨2, 3, true, true, false, false, .int, .fixed, .free, .only [0], .unused⟩, f)
  | .andn f => some (⟨2, 4, true, true, true, false, .int, .fixed, .free, .only [0], .unused⟩, f)
  | .shl f => some (⟨2, 5, true, true, true, false, .int, .fixed, .free, .only [0], .unused⟩, f)
  | .shr f => some (⟨2, 6, true, true, true, false, .int, .fixed, .free, .only [0], .unused⟩, f)
  | .sar f => some (⟨2, 7, true, true, true, false, .int, .fixed, .free, .only [0], .unused⟩, f)
  | .rot f => some (⟨2, 8, true, true, true, false, .int, .fixed, .free, .only [0], .unused⟩, f)
  | .popc f => some (⟨2, 9, true, true, false, false, .int, .fixed, .free, .only [0], .unused⟩, f)
  | .clz f => some (⟨2, 10, true, true, false, false, .int, .fixed, .free, .only [0], .unused⟩, f)
  | .ctz f => some (⟨2, 11, true, true, false, false, .int, .fixed, .free, .only [0], .unused⟩, f)
  | .brev f => some (⟨2, 12, true, true, false, false, .int, .fixed, .free, .only [0], .unused⟩, f)
  | .bfx f => some (⟨2, 13, true, true, false, false, .int, .fixed, .free, .only [0], .bitField⟩, f)
  | .bfi f => some (⟨2, 14, true, true, true, false, .int, .fixed, .free, .only [0], .bitField⟩, f)
  | .lop3 f => some (⟨2, 15, true, true, true, false, .int, .fixed, .free, .only [0], (.below 256)⟩, f)
  -- class 0x3, fp (R90)
  | .fadd f => some (⟨3, 0, true, true, true, false, .fp, .fixed, .free, .only [0, 1, 2], .unused⟩, f)
  | .fsub f => some (⟨3, 1, true, true, true, false, .fp, .fixed, .free, .only [0, 1, 2], .unused⟩, f)
  | .fmul f => some (⟨3, 2, true, true, true, false, .fp, .fixed, .free, .only [0, 1, 2], .unused⟩, f)
  | .ffma f => some (⟨3, 3, true, true, true, true, .fp, .fixed, .free, .only [0, 1, 2], .unused⟩, f)
  | .fmin f => some (⟨3, 4, true, true, true, false, .fp, .fixed, .free, .only [0, 1], .unused⟩, f)
  | .fmax f => some (⟨3, 5, true, true, true, false, .fp, .fixed, .free, .only [0, 1], .unused⟩, f)
  | .fabs f => some (⟨3, 6, true, true, false, false, .fp, .fixed, .free, .only [0], .unused⟩, f)
  | .fneg f => some (⟨3, 7, true, true, false, false, .fp, .fixed, .free, .only [0], .unused⟩, f)
  | .fcmp f => some (⟨3, 8, true, true, true, false, .fp, .fixed, .free, .only [0, 1, 2], (.below 8)⟩, f)
  | .fsel f => some (⟨3, 9, true, true, true, true, .fp, .fixed, .free, .only [0], .unused⟩, f)
  | .fclass f => some (⟨3, 10, true, true, false, false, .fp, .fixed, .free, .only [0], .unused⟩, f)
  | .fscale f => some (⟨3, 11, true, true, true, false, .fp, .fixed, .free, .only [0, 1, 2], .unused⟩, f)
  | .fround f => some (⟨3, 12, true, true, false, false, .fp, .fixed, .free, .only [0, 1, 2, 3], .unused⟩, f)
  | .fdot2 f => some (⟨3, 13, true, true, true, true, .half16, .fixed, .free, .only [0, 1, 2], .unused⟩, f)
  -- class 0x4, sfu (R90)
  | .frcp f => some (⟨4, 0, true, true, false, false, .fp, .long, .free, .only [0, 1, 2], .unused⟩, f)
  | .frsq f => some (⟨4, 1, true, true, false, false, .fp, .long, .free, .only [0], .unused⟩, f)
  | .fsqrt f => some (⟨4, 2, true, true, false, false, .fp, .long, .free, .only [0, 1, 2], .unused⟩, f)
  | .fexp2 f => some (⟨4, 3, true, true, false, false, .approx, .long, .free, .only [0], .unused⟩, f)
  | .flog2 f => some (⟨4, 4, true, true, false, false, .approx, .long, .free, .only [0], .unused⟩, f)
  | .fsin f => some (⟨4, 5, true, true, false, false, .approx, .long, .free, .only [0], .unused⟩, f)
  | .fcos f => some (⟨4, 6, true, true, false, false, .approx, .long, .free, .only [0], .unused⟩, f)
  | .ftanh f => some (⟨4, 7, true, true, false, false, .approx, .long, .free, .only [0], .unused⟩, f)
  | .fdiv f => some (⟨4, 8, true, true, true, false, .fp, .long, .free, .only [0, 1, 2], .unused⟩, f)
  | .cvt f => some (⟨4, 9, true, true, false, false, .all, .long, .free, .cvt, .cvtSource⟩, f)
  -- class 0x5, xlane (R91)
  | .shfl f => some (⟨5, 0, true, true, true, false, .all, .fixed, .free, .only [0, 1, 2, 3], .unused⟩, f)
  | .swz f => some (⟨5, 1, true, true, false, false, .all, .fixed, .free, .only [0], .swizzle⟩, f)
  | .bcast f => some (⟨5, 2, true, true, false, false, .all, .fixed, .free, .only [0, 1], .bcastLane⟩, f)
  | .reda f => some (⟨5, 3, true, true, false, false, .all, .long, .free, .reda, .unused⟩, f)
  | .redm f => some (⟨5, 4, true, true, false, false, .all, .long, .free, .redm, .unused⟩, f)
  | .scan f => some (⟨5, 5, true, true, false, false, .all, .long, .free, .only [0, 1], .unused⟩, f)
  | .pack f => some (⟨5, 6, true, true, true, false, .all, .fixed, .free, .only [0, 1], .unused⟩, f)
  | .unpack f => some (⟨5, 7, true, true, false, false, .all, .fixed, .free, .only [0], .unused⟩, f)
  | .sxpack f => some (⟨5, 8, true, true, false, false, .untyped, .long, .free, .only [0], .unused⟩, f)
  | .sxunp f => some (⟨5, 9, true, true, false, false, .untyped, .long, .free, .only [0], .unused⟩, f)
  | .matchLanes f => some (⟨5, 10, true, true, false, false, .all, .long, .free, .only [0, 1, 2, 3], .unused⟩, f)
  -- class 0x6, dir (R92)
  | .dvmk f => some (⟨6, 0, true, true, false, false, .untyped, .long, .free, .only [0], .unused⟩, f)
  | .dvflat f => some (⟨6, 1, true, true, false, false, .untyped, .fixed, .free, .only [0], .unused⟩, f)
  | .dvdot f => some (⟨6, 2, true, true, true, false, .untyped, .long, .free, .only [0, 1, 2], .unused⟩, f)
  | .dvscl f => some (⟨6, 3, true, true, true, false, .untyped, .long, .free, .only [0, 1], .unused⟩, f)
  | .dvadd f => some (⟨6, 4, true, true, true, false, .untyped, .long, .free, .only [0], .unused⟩, f)
  | .dvaxpy f => some (⟨6, 5, true, true, true, true, .untyped, .long, .free, .only [0], .unused⟩, f)
  | .dvneg f => some (⟨6, 6, true, true, false, false, .untyped, .long, .free, .only [0], .unused⟩, f)
  | .dvnrm f => some (⟨6, 7, true, true, false, false, .untyped, .fixed, .free, .only [0, 1, 2], .unused⟩, f)
  | .dvsetn f => some (⟨6, 8, true, true, false, false, .untyped, .long, .free, .only [0, 1], .unused⟩, f)
  | .dvren f => some (⟨6, 9, true, true, false, false, .untyped, .long, .free, .only [0], .unused⟩, f)
  | .dvproj f => some (⟨6, 10, true, true, true, false, .untyped, .long, .free, .only [0, 1], .unused⟩, f)
  | .dvcmp f => some (⟨6, 11, true, true, true, true, .untyped, .long, .free, .only [0, 1, 2, 3], .unused⟩, f)
  | .dvld f => some (⟨6, 12, true, true, false, false, .untyped, .long, .suspends, .only [0], .any⟩, f)
  | .dvst f => some (⟨6, 13, false, true, true, false, .untyped, .nothing, .suspends, .only [0], .any⟩, f)
  | .dvmul f => some (⟨6, 14, true, true, true, false, .untyped, .long, .free, .only [0], .unused⟩, f)
  -- class 0x7, mx (R93)
  | .tvset f => some (⟨7, 0, true, true, false, false, .untyped, .fixed, .free, .only [0], .unused⟩, f)
  | .tvget f => some (⟨7, 1, true, true, false, false, .untyped, .fixed, .free, .only [0, 1], .unused⟩, f)
  | .mxop f => some (⟨7, 2, false, true, false, false, .untyped, .nothing, .suspends, .only [0], .unused⟩, f)
  | .mxwait f => some (⟨7, 3, false, false, false, false, .untyped, .nothing, .free, .only [0], .mxwaitId⟩, f)
  | .tokgive f => some (⟨7, 4, false, true, false, false, .untyped, .nothing, .free, .only [0], .unused⟩, f)
  | .toktake f => some (⟨7, 5, false, true, false, false, .untyped, .nothing, .free, .only [0], .unused⟩, f)
  | .tzero f => some (⟨7, 6, true, false, false, false, .untyped, .fixed, .free, .only [0], .unused⟩, f)
  | .tcvt f => some (⟨7, 7, true, true, false, false, .untyped, .long, .free, .only [0], .unused⟩, f)
  -- class 0x8, chain (R91)
  | .chld f => some (⟨8, 0, false, true, false, false, .untyped, .nothing, .suspends, .only [0, 1], .chainCount⟩, f)
  | .chrun f => some (⟨8, 1, true, true, true, true, .untyped, .long, .free, .only [0, 1], .unused⟩, f)
  | .chqry f => some (⟨8, 2, true, false, false, false, .untyped, .fixed, .free, .only [0, 1], .unused⟩, f)
  | .chinv f => some (⟨8, 3, false, false, false, false, .untyped, .nothing, .free, .only [0, 1], .unused⟩, f)
  -- class 0x9, mem (R94)
  | .ld f => some (⟨9, 0, true, true, false, false, .all, .long, .suspends, .size, .any⟩, f)
  | .st f => some (⟨9, 1, false, true, true, false, .all, .nothing, .suspends, .size, .any⟩, f)
  | .lds f => some (⟨9, 2, true, true, false, false, .all, .long, .suspends, .size, .any⟩, f)
  | .sts f => some (⟨9, 3, false, true, true, false, .all, .nothing, .suspends, .size, .any⟩, f)
  | .ldx f => some (⟨9, 4, true, true, false, false, .all, .long, .suspends, .size, .any⟩, f)
  | .stx f => some (⟨9, 5, false, true, true, false, .all, .nothing, .suspends, .size, .any⟩, f)
  | .ldp f => some (⟨9, 6, true, true, false, false, .all, .long, .suspends, .only [0, 1], .any⟩, f)
  | .stp f => some (⟨9, 7, false, true, true, false, .all, .nothing, .suspends, .only [0, 1], .any⟩, f)
  | .ldk f => some (⟨9, 8, true, true, false, false, .all, .long, .suspends, .size, .any⟩, f)
  | .pfch f => some (⟨9, 9, false, true, false, false, .untyped, .nothing, .free, .only [0, 16], .any⟩, f)
  | .stash f => some (⟨9, 10, false, true, true, false, .untyped, .nothing, .suspends, .only [0], .unused⟩, f)
  | .unstash f => some (⟨9, 11, false, true, false, false, .untyped, .nothing, .suspends, .only [0], .unused⟩, f)
  -- class 0xA, atom (R94)
  | .atom f => some (⟨10, 0, true, true, true, false, .atomic, .long, .unclassified, .only [0], .atomOp⟩, f)
  | .acas f => some (⟨10, 1, true, true, true, true, .word3264, .long, .unclassified, .only [0], .unused⟩, f)
  | .rowadd f => some (⟨10, 2, false, true, true, true, .untyped, .nothing, .unclassified, .only [0], .unused⟩, f)
  | .rowld f => some (⟨10, 3, true, true, true, true, .untyped, .long, .unclassified, .only [0], .unused⟩, f)
  | .atoms f => some (⟨10, 4, true, true, true, false, .atomic, .long, .suspends, .only [0], .atomOp⟩, f)
  -- class 0xB, eng (R95)
  | .cpy f => some (⟨11, 0, false, true, true, false, .untyped, .nothing, .suspends, .only [0], .unused⟩, f)
  | .cpym f => some (⟨11, 1, false, true, true, false, .untyped, .nothing, .suspends, .only [0], .unused⟩, f)
  | .gather f => some (⟨11, 2, false, true, true, false, .untyped, .nothing, .suspends, .only [0], .unused⟩, f)
  | .scata f => some (⟨11, 3, false, true, true, false, .untyped, .nothing, .suspends, .only [0], .unused⟩, f)
  | .sigw f => some (⟨11, 4, false, true, true, false, .untyped, .nothing, .unclassified, .only [0], .unused⟩, f)
  | .sigt f => some (⟨11, 5, true, true, true, false, .untyped, .long, .unclassified, .only [0], .unused⟩, f)
  | .sigs f => some (⟨11, 6, false, true, true, false, .untyped, .nothing, .unclassified, .only [0, 1], .unused⟩, f)
  | .bars f => some (⟨11, 7, false, false, false, false, .untyped, .nothing, .free, .only [0], (.below 16)⟩, f)
  | .bara f => some (⟨11, 8, false, false, false, false, .untyped, .nothing, .free, .only [0], (.below 16)⟩, f)
  | .barw f => some (⟨11, 9, false, false, false, false, .untyped, .nothing, .free, .only [0], (.below 16)⟩, f)
  | .boa f => some (⟨11, 10, false, true, false, false, .untyped, .nothing, .unclassified, .only [0], .unused⟩, f)
  | .bow f => some (⟨11, 11, false, true, false, false, .untyped, .nothing, .unclassified, .only [0], .unused⟩, f)
  | .carve f => some (⟨11, 12, true, true, false, false, .untyped, .long, .free, .only [0], .unused⟩, f)
  -- class 0xC, sys (R95)
  | .trap f => some (⟨12, 0, false, false, false, false, .untyped, .nothing, .free, .only [0], .trapCode⟩, f)
  | .rte f => some (⟨12, 1, false, false, false, false, .untyped, .nothing, .free, .only [0], .unused⟩, f)
  | .mfc f => some (⟨12, 2, true, false, false, false, .untyped, .fixed, .free, .only [0], (.below 12)⟩, f)
  | .mtc f => some (⟨12, 3, false, true, false, false, .untyped, .nothing, .free, .only [0], (.below 12)⟩, f)
  | .rdcnt f => some (⟨12, 4, true, false, false, false, .untyped, .fixed, .free, .only [0], (.below 9)⟩, f)
  | .rdtime f => some (⟨12, 5, true, false, false, false, .untyped, .fixed, .free, .only [0], .unused⟩, f)
  | .haltdbg f => some (⟨12, 6, false, false, false, false, .untyped, .nothing, .free, .only [0], .unused⟩, f)
  | .rddig f => some (⟨12, 7, true, false, false, false, .untyped, .fixed, .free, .only [0], .unused⟩, f)
  | .regq f => some (⟨12, 8, true, true, false, false, .untyped, .fixed, .free, .only [0], .unused⟩, f)
  | .sleep f => some (⟨12, 9, false, true, false, false, .untyped, .nothing, .free, .only [0], .unused⟩, f)
  -- happenings and commands
  | .chldCommit _ => none
  | .sigwComplete _ => none
  | .bowComplete _ => none
  | .sleepWake _ => none
  | .fetch _ => none
  | .secdedReplay _ => none
  | .fillLand _ _ => none
  | .teamPlace _ => none
  | .gangRetire _ => none
  | .mxopRun _ _ => none
  | .engineElement _ => none
  | .engineSignalUpdate _ => none
  | .unclassifiedIssueComplete _ => none
  | .pageReclassify _ _ => none
  | .readonlyToShared _ _ => none
  | .peerAccessComplete _ _ _ => none
  | .walkComplete _ _ => none
  | .pageMigration _ => none
  | .netRdmaWrite _ => none
  | .netRdmaRead _ => none
  | .netAtomicFetchAdd _ => none
  | .netAtomicCmpSwap _ => none
  | .deferredRequestPerform _ => none
  | .frameDrop _ => none
  | .congestionNotification _ => none
  | .pfcPause _ _ _ => none
  | .qpTransportFailure _ => none
  | .viaductFlitReceive _ _ => none
  | .linkRetrain => none
  | .retrainComplete _ => none
  | .moduleFatal _ => none
  | .contextFatalError _ => none
  | .patrolScrub _ _ => none
  | .bucketRefill _ => none
  | .telemetryLatch _ _ => none
  | .traceSample _ _ => none
  | .sliceExpiry _ => none
  | .stallExpiry _ => none
  | .deadlineExpiry _ => none
  | .drainEnd _ => none
  | .contextAdmit => none
  | .clockStep _ _ _ => none
  | .thermalStop _ _ => none
  | .thermalRestart _ _ => none
  | .sensorFailure _ => none
  | .powerLoss => none
  | .moduleReset => none
  | .queueWake _ => none
  | .task _ _ _ => none
  | .taskAccept _ => none
  | .waitv _ _ _ _ => none
  | .waitvSatisfied _ => none
  | .waitvTimeout _ => none
  | .signal _ _ _ _ _ => none
  | .cond _ _ _ _ _ => none
  | .copy _ _ _ => none
  | .copyTransfer _ _ => none
  | .copyMigrate _ _ _ => none
  | .markTrace _ _ _ _ => none
  | .markInvalidate _ _ _ _ => none
  | .dependenceRead _ _ => none
  | .startEdge _ => none
  | .flushLine _ => none
  | .endEdgeFinish _ => none
  | .ctxset _ _ _ => none
  | .ctxreset _ _ => none
  | .ctxclear _ _ => none
  | .ctxquery _ _ => none
  | .qmap _ _ _ _ => none
  | .qunmap _ _ => none
  | .qresume _ _ _ => none
  | .keyset _ _ _ => none
  | .winset _ _ _ => none
  | .secset _ _ _ => none
  | .telset _ _ _ _ _ => none
  | .traceset _ _ _ _ _ _ => none
  | .dbgattach _ _ => none
  | .dbgdetach _ _ => none
  | .dbgset _ _ _ _ => none
  | .gstate _ _ _ _ => none
  | .gset _ _ _ _ _ => none
  | .grelease _ _ _ _ => none
  | .dump _ _ _ _ => none
  | .dumpDieCut _ _ => none
  | .logread _ _ => none
  | .sessionOpen _ _ _ _ => none
  | .slotwrite _ _ _ _ => none
  | .activate _ _ _ => none
  | .activateSwitch => none
  | .commit _ => none
  | .reset _ => none
  | .ident _ => none
  | .status _ => none
  | .attest _ _ => none
  | .cfgwrite _ _ _ => none
  | .ckptLocal _ => none
  | .ckptRemote _ _ => none
  | .ckptChunkResponse _ => none
  | .ckrestoreLocal _ => none
  | .ckrestoreRemote _ _ => none
  | .undefinedEncoding _ => none

/-- The operand value of the special source IMM (R41). -/
def immSource : W12 := 0x679#12

/-- R22, R82: the type codes a Types column accepts. -/
def TypesCol.accepts : TypesCol → Nat → Bool
  | .untyped, _ => true
  | .int, t => t < 8
  | .fp, t => 8 ≤ t && t < 12
  | .all, t => t < 12
  | .signed, t => t == 0 || t == 2 || t == 4 || t == 6
  | .word3264, t => t < 4
  | .word64, t => t == 2 || t == 3
  | .bytes, t => t == 6 || t == 7
  | .half16, t => t == 10 || t == 11
  | .approx, t => t == 8 || t == 10 || t == 11
  | .atomic, t => t < 4 || t == 8

/-- R66: the sub-element width of a type code. -/
def typeWidth (t : Nat) : Nat :=
  if t < 2 || t == 8 then 32 else if t < 4 || t == 9 then 64 else if t < 6 || t == 10 || t == 11 then 16 else 8

/-- Whether a type code is floating (codes 8 to 11). -/
def typeIsFloat (t : Nat) : Bool := 8 ≤ t && t < 12
/-- Whether a type code is a two's-complement one (I types). -/
def typeIsSigned (t : Nat) : Bool := t == 0 || t == 2 || t == 4 || t == 6

/-- R139: the source type code, part and ratio of a CVT. -/
def cvtRatio (dt st : Nat) : Nat :=
  let cs := 64 / typeWidth st
  let cd := 64 / typeWidth dt
  max cs cd / min cs cd

/-- MOD as the form's description allows it. -/
def ModRule.accepts (r : ModRule) (ty : TypesCol) (f : Fields) : Bool :=
  let v := if ty = .untyped then f.mod.toNat else f.variant
  match r with
  | .only l => l.contains v
  | .movi => v == 0 || (v == 1 && (f.tcode == 2 || f.tcode == 3))
  | .cvt => if typeIsFloat f.tcode || typeIsFloat (f.imm.toNat % 16) then v < 3 else v < 2
  | .reda => if typeIsFloat f.tcode then v < 3 else v < 2
  | .redm => if typeIsFloat f.tcode then true else v < 2
  | .size => v == 0 || (v == 1 && typeWidth f.tcode != 64) || v == 2

/-- R16: the IMM bits a literal of a type leaves reserved are zero. -/
def immLiteralOk (ty : TypesCol) (f : Fields) : Bool :=
  if ty = .untyped then true
  else match typeWidth f.tcode with
    | 16 => f.imm.toNat < 2 ^ 16
    | 8 => f.imm.toNat < 2 ^ 8
    | _ => true

/-- R146: every selector below c and every IMM bit above them zero. -/
def swizzleOk (t imm : Nat) : Bool :=
  let c := 64 / typeWidth t
  imm < 2 ^ (3 * c) && (List.range c).all fun j => imm / 2 ^ (3 * j) % 8 < c

/-- R167, R188 to R194, R206, R221, R222, R231: whether the description of a form reserves IMM whatever A (true) or B (false) names:
DIR forms but the scalars of DVSCL and DVSETN, TILE forms, STASH and UNSTASH, and A of the ENG and SYNC forms. Elsewhere a field
that names IMM gives IMM a use, be it one that R14 refuses (R16). -/
def Form.immReserved (m : Form) (isA : Bool) : Bool :=
  if m.cls == 6 then !((m.op == 3 && !isA) || (m.op == 8 && isA))
  else if m.cls == 11 || m.cls == 12 then isA
  else (m.cls == 7 && m.op != 1) || m.cls == 9

/-- IMM as the form's description allows it (R15, R16, R97). -/
def ImmRule.accepts (m : Form) (f : Fields) : Bool :=
  let n := f.imm.toNat
  match m.immRule with
  | .unused =>
    if m.useC then n < 2 ^ 12
    else if (m.useA && f.a = immSource && !m.immReserved true) || (m.useB && f.b = immSource && !m.immReserved false) then
      -- SHFL reads its literal whole whatever the type (R144)
      (m.cls == 5 && m.op == 0) || immLiteralOk m.types f
    else n == 0
  | .any => true
  | .below k => n < k
  | .moviValue => if f.variant == 0 then immLiteralOk m.types f else true
  | .bitField =>
    let pos := n % 64
    let len := n / 64
    n < 2 ^ 13 && 1 ≤ len && pos + len ≤ typeWidth f.tcode
  | .cvtSource => n < 2 ^ 7 && n % 16 < 12 && n / 16 < cvtRatio f.tcode (n % 16)
  | .swizzle => swizzleOk f.tcode n
  | .bcastLane => if f.variant == 0 then n < 64 else n == 0
  | .chainCount => 1 ≤ n && n ≤ 16
  | .mxwaitId => n ≤ 256
  | .atomOp => n ≤ 6 && (f.tcode != 8 || n ≤ 2 || n == 6)
  | .trapCode => 0x40 ≤ n && n ≤ 0x7F

/-- Whether an operand field names a V or an S register (R13). -/
def isVOrS (x : W12) : Bool := x.toNat < 0x640

/-- R83: the forms of Lat F that write V or S registers through D: not those that write a predicate (ELECT, VOTE 0 to 3, PSET,
PMOV.TEST, ICMP, FCMP) or a view (DVFLAT, TVSET, TZERO). -/
def Form.writesVOrS (m : Form) (f : Fields) : Bool :=
  m.useD && !((m.cls == 0 && (m.op == 8 || (m.op == 9 && f.mod.toNat % 8 < 4) || m.op == 10 || (m.op == 11 && f.mod == 0#6))) ||
    (m.cls == 1 && m.op == 10) || (m.cls == 3 && m.op == 8) || (m.cls == 6 && m.op == 1) || (m.cls == 7 && (m.op == 0 || m.op == 6)))

/-- R19: the forms on which U has a meaning. -/
def Form.hasU (m : Form) : Bool := m.cls == 0 && (1 ≤ m.op && m.op ≤ 5)

/-- R89: LOP3 reads D under the FC hint. -/
def Form.readsD (m : Form) : Bool := m.cls == 2 && m.op == 15

/-- R23: the first reason, if any, for which the fields are not an instruction of the row. Order within the list has no
effect on the outcome, which is ILLEGAL-OPCODE for each. -/
def Form.refuse (m : Form) (f : Fields) : Option BadOpcode :=
  if f.gn && f.gp = 7#3 then some .negatedP7
  else if f.t && !(m.lat = .fixed && m.writesVOrS f && isVOrS f.d) then some .transientHint
  else if f.u && !m.hasU then some .uniformityHint
  else if (f.fa && !m.useA) || (f.fb && !m.useB) || (f.fc && !(m.useC || m.readsD)) then some .emptyHint
  else if (!m.useD && f.d ≠ 0#12) || (!m.useA && f.a ≠ 0#12) || (!m.useB && f.b ≠ 0#12) then some .unusedField
  else if !m.types.accepts f.tcode then some .badType
  else if !m.mods.accepts m.types f then some .badModifier
  else if !ImmRule.accepts m f then some .badImmediate
  else none

end Sys2Proof
end

