-- ==== Sys2Proof/WellFormed.lean ====
section
/-! DEFINITION. Which terms of `Instr` are instructions: the decode checks of R23 for the forms of the 96-bit word, and the
ranges of numbers (R2, R373, R386, R395, R397) for happenings and commands. -/

namespace Sys2Proof

/-- R2: cores 0 to 63, partitions 0 to 31, slots 0 to 15. -/
def GangRef.wf (g : GangRef) : Bool := g.core < 64 && g.part < 32 && g.slot < 16

/-- R81: the opcode of a word, CLASS × 64 + OP, is assigned when some row of the map has it. -/
def opsInClass : List Nat := [12, 18, 16, 14, 10, 11, 15, 8, 4, 12, 5, 13, 10]

/-- R23, R81: the CLASS and OP of a word that no row assigns. -/
def wordUnassigned (w : W96) : Bool :=
  let cls := (w.extractLsb' 92 4).toNat
  let op := (w.extractLsb' 86 6).toNat
  !(op < opsInClass.getD cls 0)

/-- Well-formedness of an instruction: a form breaks no decode check; a happening or command names parts that exist. -/
def Instr.wf (i : Instr) : Bool :=
  match i.form with
  | some (m, f) => (m.refuse f).isNone
  | none =>
    match i with
    | .undefinedEncoding w => wordUnassigned w
    | .chldCommit g | .sigwComplete g | .bowComplete g | .sleepWake g | .fetch g | .secdedReplay g | .fillLand g _
    | .gangRetire g | .unclassifiedIssueComplete g | .gstate _ _ g _ | .gset _ _ g _ _ | .grelease _ _ g _ => g.wf
    | .teamPlace t | .startEdge t | .flushLine t | .endEdgeFinish t | .dependenceRead t _ | .contextFatalError t
    | .pageReclassify t _ | .readonlyToShared t _ => t < 128
    | .mxopRun c p => c < 64 && p < 32
    | .walkComplete c _ => c < 8
    | .queueWake q | .task q _ _ | .taskAccept q | .waitv q _ _ _ | .waitvSatisfied q | .waitvTimeout q
    | .signal q _ _ _ _ | .cond q _ _ _ _ | .copy q _ _ | .copyMigrate q _ _ | .markTrace q _ _ _
    | .markInvalidate q _ _ _ | .qmap _ q _ _ | .qunmap _ q | .qresume _ q _ => q < 32
    | .ctxset _ c _ | .ctxreset _ c | .ctxclear _ c | .ctxquery _ c | .sliceExpiry c | .stallExpiry c | .deadlineExpiry c
    | .drainEnd c | .dbgattach _ c | .dbgdetach _ c | .dbgset _ c _ _ | .dump _ c _ _ | .telset _ _ c _ _ => c < 64
    | .traceset _ c d _ _ _ => c < 64 && d < 2
    | .dumpDieCut c d => c < 64 && d < 2
    | .traceSample core c => core < 64 && c < 64
    | .bucketRefill core => core < 64
    | .clockStep d _ _ | .thermalStop d _ | .thermalRestart d _ | .sensorFailure d | .viaductFlitReceive d _ => d < 2
    | .frameDrop p | .congestionNotification p => p < 8
    | .pfcPause p prio _ => p < 8 && prio < 8
    | .winset _ w _ => w < 256
    | _ => true

end Sys2Proof
end

