-- ==== Sys2Proof/Decode.lean ====
section
/-! DEFINITION. The decoder and the encoder of the 96-bit word (R4, R8, R23, R81 to R95). -/

namespace Sys2Proof

/-- R8: the fields of a word other than CLASS and OP. -/
def fieldsOf (w : W96) : Fields :=
  { gn := w.getLsbD 85, gp := w.extractLsb' 82 3, d := w.extractLsb' 70 12, a := w.extractLsb' 58 12,
    b := w.extractLsb' 46 12, imm := w.extractLsb' 14 32, t := w.getLsbD 13, fa := w.getLsbD 12, fb := w.getLsbD 11,
    fc := w.getLsbD 10, u := w.getLsbD 9, y := w.getLsbD 8, hold := w.extractLsb' 6 2, mod := w.extractLsb' 0 6 }

/-- R8: CLASS. -/
def classOf (w : W96) : Nat := (w.extractLsb' 92 4).toNat
/-- R8: OP. -/
def opOf (w : W96) : Nat := (w.extractLsb' 86 6).toNat

/-- R8: the word of CLASS, OP and the fields. -/
def wordOf (cls op : Nat) (f : Fields) : W96 :=
  BitVec.ofNat 4 cls ++ BitVec.ofNat 6 op ++ BitVec.ofBool f.gn ++ f.gp ++ f.d ++ f.a ++ f.b ++ f.imm ++ BitVec.ofBool f.t ++
    BitVec.ofBool f.fa ++ BitVec.ofBool f.fb ++ BitVec.ofBool f.fc ++ BitVec.ofBool f.u ++ BitVec.ofBool f.y ++ f.hold ++ f.mod

/-- The forms of class 0x0 by OP. -/
def formsOfClass0 : Nat → Option (Fields → Instr)
  | 0 => some .nop
  | 1 => some .bra
  | 2 => some .bri
  | 3 => some .call
  | 4 => some .calli
  | 5 => some .ret
  | 6 => some .exit
  | 7 => some .yield
  | 8 => some .elect
  | 9 => some .vote
  | 10 => some .pset
  | 11 => some .pmov
  | _ => none

/-- The forms of class 0x1 by OP. -/
def formsOfClass1 : Nat → Option (Fields → Instr)
  | 0 => some .iadd
  | 1 => some .isub
  | 2 => some .iaddc
  | 3 => some .imul
  | 4 => some .imulh
  | 5 => some .imad
  | 6 => some .imin
  | 7 => some .imax
  | 8 => some .iabs
  | 9 => some .ineg
  | 10 => some .icmp
  | 11 => some .isel
  | 12 => some .lea
  | 13 => some .idiv
  | 14 => some .irem
  | 15 => some .mov
  | 16 => some .movi
  | 17 => some .idot4
  | _ => none

/-- The forms of class 0x2 by OP. -/
def formsOfClass2 : Nat → Option (Fields → Instr)
  | 0 => some .and
  | 1 => some .or
  | 2 => some .xor
  | 3 => some .not
  | 4 => some .andn
  | 5 => some .shl
  | 6 => some .shr
  | 7 => some .sar
  | 8 => some .rot
  | 9 => some .popc
  | 10 => some .clz
  | 11 => some .ctz
  | 12 => some .brev
  | 13 => some .bfx
  | 14 => some .bfi
  | 15 => some .lop3
  | _ => none

/-- The forms of class 0x3 by OP. -/
def formsOfClass3 : Nat → Option (Fields → Instr)
  | 0 => some .fadd
  | 1 => some .fsub
  | 2 => some .fmul
  | 3 => some .ffma
  | 4 => some .fmin
  | 5 => some .fmax
  | 6 => some .fabs
  | 7 => some .fneg
  | 8 => some .fcmp
  | 9 => some .fsel
  | 10 => some .fclass
  | 11 => some .fscale
  | 12 => some .fround
  | 13 => some .fdot2
  | _ => none

/-- The forms of class 0x4 by OP. -/
def formsOfClass4 : Nat → Option (Fields → Instr)
  | 0 => some .frcp
  | 1 => some .frsq
  | 2 => some .fsqrt
  | 3 => some .fexp2
  | 4 => some .flog2
  | 5 => some .fsin
  | 6 => some .fcos
  | 7 => some .ftanh
  | 8 => some .fdiv
  | 9 => some .cvt
  | _ => none

/-- The forms of class 0x5 by OP. -/
def formsOfClass5 : Nat → Option (Fields → Instr)
  | 0 => some .shfl
  | 1 => some .swz
  | 2 => some .bcast
  | 3 => some .reda
  | 4 => some .redm
  | 5 => some .scan
  | 6 => some .pack
  | 7 => some .unpack
  | 8 => some .sxpack
  | 9 => some .sxunp
  | 10 => some .matchLanes
  | _ => none

/-- The forms of class 0x6 by OP. -/
def formsOfClass6 : Nat → Option (Fields → Instr)
  | 0 => some .dvmk
  | 1 => some .dvflat
  | 2 => some .dvdot
  | 3 => some .dvscl
  | 4 => some .dvadd
  | 5 => some .dvaxpy
  | 6 => some .dvneg
  | 7 => some .dvnrm
  | 8 => some .dvsetn
  | 9 => some .dvren
  | 10 => some .dvproj
  | 11 => some .dvcmp
  | 12 => some .dvld
  | 13 => some .dvst
  | 14 => some .dvmul
  | _ => none

/-- The forms of class 0x7 by OP. -/
def formsOfClass7 : Nat → Option (Fields → Instr)
  | 0 => some .tvset
  | 1 => some .tvget
  | 2 => some .mxop
  | 3 => some .mxwait
  | 4 => some .tokgive
  | 5 => some .toktake
  | 6 => some .tzero
  | 7 => some .tcvt
  | _ => none

/-- The forms of class 0x8 by OP. -/
def formsOfClass8 : Nat → Option (Fields → Instr)
  | 0 => some .chld
  | 1 => some .chrun
  | 2 => some .chqry
  | 3 => some .chinv
  | _ => none

/-- The forms of class 0x9 by OP. -/
def formsOfClass9 : Nat → Option (Fields → Instr)
  | 0 => some .ld
  | 1 => some .st
  | 2 => some .lds
  | 3 => some .sts
  | 4 => some .ldx
  | 5 => some .stx
  | 6 => some .ldp
  | 7 => some .stp
  | 8 => some .ldk
  | 9 => some .pfch
  | 10 => some .stash
  | 11 => some .unstash
  | _ => none

/-- The forms of class 0xa by OP. -/
def formsOfClass10 : Nat → Option (Fields → Instr)
  | 0 => some .atom
  | 1 => some .acas
  | 2 => some .rowadd
  | 3 => some .rowld
  | 4 => some .atoms
  | _ => none

/-- The forms of class 0xb by OP. -/
def formsOfClass11 : Nat → Option (Fields → Instr)
  | 0 => some .cpy
  | 1 => some .cpym
  | 2 => some .gather
  | 3 => some .scata
  | 4 => some .sigw
  | 5 => some .sigt
  | 6 => some .sigs
  | 7 => some .bars
  | 8 => some .bara
  | 9 => some .barw
  | 10 => some .boa
  | 11 => some .bow
  | 12 => some .carve
  | _ => none

/-- The forms of class 0xc by OP. -/
def formsOfClass12 : Nat → Option (Fields → Instr)
  | 0 => some .trap
  | 1 => some .rte
  | 2 => some .mfc
  | 3 => some .mtc
  | 4 => some .rdcnt
  | 5 => some .rdtime
  | 6 => some .haltdbg
  | 7 => some .rddig
  | 8 => some .regq
  | 9 => some .sleep
  | _ => none

/-- R81: the form of a CLASS and OP, none where unassigned. -/
def formOfOpcode (cls op : Nat) : Option (Fields → Instr) :=
  match cls with
  | 0 => formsOfClass0 op
  | 1 => formsOfClass1 op
  | 2 => formsOfClass2 op
  | 3 => formsOfClass3 op
  | 4 => formsOfClass4 op
  | 5 => formsOfClass5 op
  | 6 => formsOfClass6 op
  | 7 => formsOfClass7 op
  | 8 => formsOfClass8 op
  | 9 => formsOfClass9 op
  | 10 => formsOfClass10 op
  | 11 => formsOfClass11 op
  | 12 => formsOfClass12 op
  | _ => none

/-- The instruction of a word, or why it is none (R23). A word of an unassigned CLASS or OP is the row UNDEFINED_ENCODING,
which executes as the trap it raises. -/
def decode (w : W96) : Except BadOpcode Instr :=
  match formOfOpcode (classOf w) (opOf w) with
  | none => .ok (.undefinedEncoding w)
  | some k =>
    let i := k (fieldsOf w)
    match i.form with
    | none => .error .unassigned
    | some (m, f) =>
      match m.refuse f with
      | some why => .error why
      | none => .ok i

/-- R4: twelve bytes, lowest address first, as a word. -/
def wordOfBytes : List Byte → Option W96
  | [b0, b1, b2, b3, b4, b5, b6, b7, b8, b9, b10, b11] =>
    some (b11 ++ b10 ++ b9 ++ b8 ++ b7 ++ b6 ++ b5 ++ b4 ++ b3 ++ b2 ++ b1 ++ b0)
  | _ => none

/-- R4: the twelve bytes of a word, lowest address first. -/
def bytesOfWord (w : W96) : List Byte :=
  [w.extractLsb' 0 8, w.extractLsb' 8 8, w.extractLsb' 16 8, w.extractLsb' 24 8, w.extractLsb' 32 8, w.extractLsb' 40 8,
   w.extractLsb' 48 8, w.extractLsb' 56 8, w.extractLsb' 64 8, w.extractLsb' 72 8, w.extractLsb' 80 8, w.extractLsb' 88 8]

/-- The instruction at the head of a list of bytes and the bytes after it. -/
def decodeBytes (l : List Byte) : Except BadOpcode (Instr × List Byte) :=
  match wordOfBytes (l.take 12) with
  | none => .error .truncated
  | some w =>
    match decode w with
    | .error why => .error why
    | .ok i => .ok (i, l.drop 12)

/-- The word of a form, or of an unassigned encoding; a happening or a command has none. -/
def encode (i : Instr) : Option W96 :=
  match i.form with
  | some (m, f) => some (wordOf m.cls m.op f)
  | none => match i with
    | .undefinedEncoding w => some w
    | _ => none

/-- The instruction my decoder reads from the bits of an opcode-table row, bits above nbits being zero. -/
def decodeTableWord (nbits w : Nat) : Option Instr :=
  if nbits ≤ 96 then
    match decodeBytes (bytesOfWord (BitVec.ofNat 96 w)) with
    | .ok (i, _) => some i
    | .error _ => none
  else none

end Sys2Proof
end

