-- ==== Sys2Proof/Machine/State.lean ====
section
/-! DEFINITION. The state of the module: every register, array, table, queue and log the spec names, as plain data, with
the reasons a step can stop and the state after module reset. -/

namespace Sys2Proof.Machine

/-- A finite map by number: keys strictly rising, no entry equal to the default its reader names. -/
abbrev KMap (α : Type) := List (Nat × α)
/-- A set of numbers: the listed ones map to true. -/
abbrev BitSet := KMap Bool

/-- A value on its way to a register, with a poison bit for each 32-bit word (R47, R217). -/
inductive RegWrite where
  | v (k lane : Nat) (val : W64) (poison : BitVec 2)
  | s (k : Nat) (val : W64) (poison : BitVec 2)
  | p (k lane : Nat) (val : Bool)
  | n (k : Nat) (val : W32) (poison : Bool)
  /-- The bits of a V register lane that a mask names; the others stay as they are (R44, R47, R179). -/
  | part (k lane : Nat) (mask val : W64) (poison : BitVec 2)
  deriving DecidableEq, Repr

/-- Where the bytes of an access lie (R208, R283). -/
inductive Space where
  | global
  | priv
  /-- The scratchpad of a half (0 or 1) of a resident team. -/
  | scratch (half : Nat)
  deriving DecidableEq, Repr

/-- One access of one lane (R286), its translation and the operand bytes it carries. -/
structure LaneAcc where
  lane : Nat
  space : Space
  /-- Virtual address or scratchpad offset. -/
  va : Nat
  /-- Physical address of the first byte; unused for scratchpad and peer windows. -/
  pa : Nat
  size : Nat
  /-- The peer window and the offset in it (R397). -/
  peer : Option (Nat × Nat)
  data : List Byte
  data2 : List Byte
  /-- The leaf of the translation used: its generation and home die (R352, R358). -/
  leaf : W64
  /-- A peer has answered that the word is poisoned (R225). -/
  bad : Bool := false
  deriving DecidableEq, Repr

/-- An issue that has memory accesses to make: the instruction, its Active lanes and its accesses in lane order (R215). -/
structure PendOp where
  i : Instr
  active : LaneMask
  accs : List LaneAcc
  /-- What came back so far for its peer accesses (R398), in order: bytes, and whether poisoned (R225). -/
  got : List (List Byte × Bool)
  /-- The descriptor of the view it fills, as it stood at issue. -/
  desc : W64
  /-- Its number among the gang's issues with accesses and fills, in issue order; the identifier of its fill. -/
  fill : Nat
  /-- The untouched pages that it claimed, whose lines the directory tracks (R361). -/
  claims : List Nat := []
  /-- The number of its issue in the module: the order in which accesses were sent (R433, R434). -/
  stamp : Nat := 0
  /-- Its lanes are performed one by one (R287, log entry 31). -/
  split : Bool := false
  deriving DecidableEq, Repr

/-- What a fill in flight waits for (R47). -/
inductive FillKind where
  | ready
  /-- Its value comes from the gang's unclassified issue, a carve decision or a peer response. -/
  | awaits
  /-- A classified load made while an unclassified issue is in flight: read again when the line has changed (R289). -/
  | revalidate (op : PendOp)
  /-- A chain run on a slot of the partition (R158). -/
  | chain (slot : Nat)
  deriving DecidableEq, Repr

/-- A fill in flight (R47 to R50). -/
structure Fill where
  id : Nat
  kind : FillKind
  writes : List RegWrite
  flags : BitVec 5
  /-- The producer is one that can set flags (R64). -/
  setsFlags : Bool
  deriving DecidableEq, Repr

/-- A transient result in the bypass (R51): register, lane (64 for an S register), value, issue that made it. -/
structure Transient where
  reg : W12
  lane : Nat
  val : W64
  age : Nat
  set : LaneMask
  deriving DecidableEq, Repr

/-- Entries of the latch files, each with a parity bit (R54): registers, the full/empty bits of a register, and the two entries
of the operand-reuse latch. -/
inductive Latch where
  | s (k : Nat)
  | p (k : Nat)
  | n (k : Nat)
  | w (k : Nat)
  | fullV (k : Nat)
  | fullS (k : Nat)
  | fullP (k : Nat)
  | fullN (k : Nat)
  | hold (j : Nat)
  deriving DecidableEq, Repr

/-- Why an issue was found waiting (R270). -/
inductive Wait where
  | empty
  | view
  | chain
  | engineFull
  | matrixFull
  | unclassified
  | walk
  | reclassify
  | barrier
  | token
  | mxwait
  | lowerTeam
  | replay
  /-- The replayed FPSTAT reader (R64) and other waits on fills. -/
  | fills
  deriving DecidableEq, Repr

/-- What holds a gang after its issue (R270). -/
inductive Block where
  | signal (op : PendOp)
  | object (op : PendOp)
  | barrier (id : Nat)
  | sleep (until_ : Nat)
  | peer
  /-- A chain load that waits for runs (R158). -/
  | chain (slot : Nat)
  deriving DecidableEq, Repr

/-- A store held behind an unclassified issue (R289). -/
structure HeldStore where
  op : PendOp
  deriving DecidableEq, Repr

/-- A resident gang (R35, R252, R264, R271). -/
structure Gang where
  /-- Key of the resident team. -/
  team : Nat
  /-- Index in the team, 0 to 127. -/
  index : Nat
  /-- Half of the team: 0, or 1 for the second core of a span. -/
  half : Nat
  width : Nat
  /-- Window size n (R36) and its first 4 KiB granule in the partition share (R260). -/
  regs : Nat
  granule : Nat
  live : LaneMask
  pc : KMap W64
  wait : KMap Nat
  v : KMap W64
  vEmpty : BitSet
  vPoison : BitSet
  vCorr : BitSet
  s : KMap W64
  sEmpty : BitSet
  sPoison : BitSet
  p : KMap LaneMask
  pEmpty : KMap LaneMask
  n : KMap W32
  nEmpty : BitSet
  nPoison : BitSet
  w : KMap W64
  lent : BitSet
  parity : List Latch
  fpctl : W32
  fpstat : W32
  cause : BitVec 8
  tpc : W64
  tmask : W64
  taddr : W64
  thit : W64
  thnd : W64
  inh : Bool
  stklim : W32
  rowlag : W32
  privbase : W64
  /-- Lanes held while INH is 1 (R304). -/
  held : LaneMask
  /-- Lanes whose next issue at TPC ignores watchpoints and breakpoints (R307, R431). -/
  exempt : LaneMask
  transients : List Transient
  /-- What the operand-reuse latch holds, by its entry: 0 for A, 1 for B (R21). -/
  holdLatch : List (Nat × W12)
  fills : List Fill
  nextFill : Nat
  unclass : Option PendOp
  /-- A classified issue whose lanes are performed one by one: the accesses still to make (R287). -/
  late : Option PendOp
  heldStores : List HeldStore
  /-- Arrival records, oldest first: object address and phase (R246). -/
  arrivals : List (W64 × Bool)
  /-- What the agent has written to empty registers: the fill that each waits for, and the write (R430). -/
  agentWrites : List (Nat × RegWrite)
  waits : Option Wait
  block : Option Block
  /-- Stopped by the debug agent, or held after a dump (R309, R429, R433). -/
  stopped : Bool
  yielded : Bool
  /-- Number of the last issue in the module, none before the first (R269). -/
  lastIssue : Option Nat
  issues : W64
  unclassCount : W64
  seq : KMap Nat
  /-- A single step armed by the agent (R430). -/
  stepArmed : Bool
  stepDue : Bool
  lastSet : LaneMask
  lastRet : Bool
  /-- A synchronisation watchpoint hit by the release of a barrier: TADDR, TPC, Active lanes (R249, R428). -/
  syncDue : Option (W64 × W64 × LaneMask)
  /-- Active lanes of the last issue. -/
  lastActive : LaneMask
  deriving DecidableEq, Repr

/-- A stash mapping (R221): global base, scratchpad offset, length, filled and dirty lines by line number in the range. -/
structure Stash where
  half : Nat
  base : Nat
  off : Nat
  len : Nat
  filled : BitSet
  dirty : BitSet
  /-- The number of the STASH among the issues of the module: only later issues meet the mapping. -/
  since : Nat := 0
  deriving DecidableEq, Repr

/-- A pending carve request (R244). -/
structure CarveReq where
  g : GangRef
  fill : Nat
  spu : Nat
  l1u : Nat
  deriving DecidableEq, Repr

/-- One half of a team: its core, scratchpad and the 64 KiB units it holds as (partition, unit) pairs (R260). -/
structure Half where
  core : Nat
  scratchUnits : List (Nat × Nat)
  l1Units : List (Nat × Nat)
  bytes : KMap Byte
  poison : BitSet
  corr : BitSet
  deriving DecidableEq, Repr

/-- A gang slot and window of a team: partition, slot, first granule and granules of the window (R260). -/
structure TeamSpot where
  core : Nat
  part : Nat
  slot : Nat
  granule : Nat
  granules : Nat
  deriving DecidableEq, Repr

/-- A resident team (R260 to R267). -/
structure Team where
  slot : Nat
  index : Nat
  ctx : Nat
  order : Nat
  placedAt : Nat
  gangs : List GangRef
  /-- The slots and windows of its gangs, held until the team retires (R266). -/
  spots : List TeamSpot
  retired : BitSet
  halves : List Half
  /-- ARR bits: barrier number to the set of gang indices (R241). -/
  arr : KMap (BitVec 128)
  carve : Option CarveReq
  stashes : List Stash
  digest : W64
  /-- Killed or stopped; its scratchpad is kept until its engine operations have reached their element boundaries (R314 step 4). -/
  dying : Bool
  deriving DecidableEq, Repr

/-- A chain slot of a partition (R154) with the loads and invalidations that wait on it, in issue order (R158). -/
structure ChainSlot where
  valid : Bool
  owner : Nat
  version : W16
  count : Nat
  uops : List W32
  waiting : List (GangRef × Option (List W32))
  deriving DecidableEq, Repr

/-- A queued matrix operation (R187). -/
structure MxEntry where
  g : GangRef
  params : List W64
  wa : W64
  wb : W64
  wc : W64
  opid : Nat
  /-- The matrix unit has read WA and WB, whose values are those at the issue (R200). -/
  readDone : Bool
  /-- The unclassified issue of the gang that its streamed reads follow (R201), by its number. -/
  behind : Option W64
  /-- Bytes of A and B, each with the poison of its word: those of a view as they were at the issue, those of a stream read so far. -/
  aBytes : List (Byte × Bool)
  bBytes : List (Byte × Bool)
  /-- Its block was read behind the gang's unclassified issue and is read again at its completion (R289): the number of that read among
  the gang's issues, the scratchpad offset, and the gang as the issue read it. -/
  again : Option (Nat × Nat × Gang)
  /-- The number of the MXOP among the issues of the module. -/
  stamp : Nat
  /-- The words read again differ: they are checked, against the gang as the issue read it, before the operation is served; with them
  the cause of a poisoned word, else 0, and the offset (log entry 74). -/
  recheck : Option (Nat × Nat × Gang)
  deriving DecidableEq, Repr

/-- Which engine form an operation runs (R233). -/
inductive EngineKind where
  | cpy | cpym | gather | scata
  deriving DecidableEq, Repr

/-- A copy-engine operation in flight (R232 to R236). -/
structure EngineOp where
  kind : EngineKind
  core : Nat
  team : Nat
  /-- Index of its team, and the team's half. -/
  index : Nat
  half : Nat
  g : GangRef
  ctx : Nat
  slot : Nat
  desc : List W64
  /-- The signal object; none when B is ZERO (R232). -/
  sig : Option Nat
  /-- The unclassified issue of the gang that its accesses follow (R235), by its number. -/
  behind : Option W64
  elem : Nat
  fault : Nat
  faultAddr : Nat
  /-- Identity of its digest terms (R369). -/
  thr : Nat
  seq : Nat
  /-- Stopped, about to signal (R314 step 4, R382). -/
  stopped : Bool
  /-- A peer transfer of the element is in flight. -/
  peerWait : Bool
  /-- What the element has read, kept between its accesses (R286), each byte with the poison of its word: the index as eight bytes
  for the indexed forms, then the element's bytes. -/
  buf : Option (List (Byte × Bool))
  /-- An access of the operation was performed (R314 step 4). -/
  touched : Bool
  /-- The untouched pages that the element's write claimed (R361). -/
  claims : List Nat
  /-- The number of the form, and then of the access that the element has sent, in the order of the issues (R433, R434). -/
  stamp : Nat
  /-- Its descriptor was read behind the gang's unclassified issue and is read again at its completion (R289): the number of that read
  among the gang's issues, and the scratchpad offset. -/
  again : Option (Nat × Nat)
  /-- The words read again, at this offset, differ: they are checked before the first element (log entry 74). -/
  recheck : Option Nat
  deriving DecidableEq, Repr

/-- A line held in a core's L1 (R283, R284, R342, R343). -/
structure L1Line where
  core : Nat
  slot : Nat
  /-- The teams whose private pages or private areas lie in it (R283, R320). -/
  teams : List Nat
  /-- Line address: physical address divided by 128. -/
  line : Nat
  /-- The generation it was filled with (R358). -/
  gen : W16
  owned : Bool
  /-- Tracked by the directory (shared pages). -/
  tracked : Bool
  dirty : KMap Byte
  /-- 32-bit words of the copy that hold a correctable error, or are poisoned, by word number (R54, R407). -/
  corr : BitSet
  poison : BitSet
  deriving DecidableEq, Repr

/-- A cached leaf translation (R356): context, virtual page of 4 KiB, leaf entry as read, and page size in 4 KiB pages. -/
structure TlbEntry where
  core : Nat
  ctx : Nat
  vpage : Nat
  pages : Nat
  leaf : W64
  deriving DecidableEq, Repr

/-- A cached non-leaf entry of a cluster's walker (R356): the level of its table, the number of the entry in the address space at
that level, and the entry. -/
structure WalkEntry where
  cluster : Nat
  ctx : Nat
  level : Nat
  index : Nat
  entry : W64
  deriving DecidableEq, Repr

/-- An instruction word in a core's instruction cache (R11): the task that fetched it, the physical addresses of its first and last
byte, and the word. -/
structure ICacheEntry where
  core : Nat
  order : Nat
  first : Nat
  last : Nat
  word : W96
  deriving DecidableEq, Repr

/-- A directory entry of a die (R361): the 512-byte region by number, the clusters that hold copies and the one that owns a line. -/
structure DirEntry where
  die : Nat
  region : Nat
  clusters : BitSet
  owner : Option Nat
  deriving DecidableEq, Repr

/-- A filter entry of a cluster (R361): a line and the cores of the cluster that hold copies of it. -/
structure FilterEntry where
  cluster : Nat
  line : Nat
  cores : BitSet
  deriving DecidableEq, Repr

/-- A walk outstanding at a cluster walker (R356). -/
structure Walk where
  cluster : Nat
  core : Nat
  ctx : Nat
  vpage : Nat
  done : Bool
  deriving DecidableEq, Repr

/-- Class of a page (R294, R295); the owner is team index × 2 + half. -/
inductive PageClass where
  | untouched
  | priv (owner : Nat)
  | readOnly
  | shared
  deriving DecidableEq, Repr

/-- A dependence entry (R336). -/
structure Dep where
  sigaddr : W64
  need : Nat
  stoperr : Bool
  deriving DecidableEq, Repr

/-- A region record (R332). -/
structure Region where
  base : Nat
  extent : Nat
  read : Bool
  write : Bool
  concurrent : Bool
  stash : Bool
  forward : Bool
  fwddie : Nat
  deriving DecidableEq, Repr

/-- The task slot's copy of a task record (R328, R331). -/
structure TaskRec where
  addr : Nat
  taskid : W32
  deterministic : Bool
  digest : Bool
  restartable : Bool
  coresident : Bool
  span : Bool
  boused : Bool
  refset : Bool
  code : W64
  arg : W64
  width : Nat
  regs : Nat
  gangs : Nat
  regu : Nat
  spu : Nat
  l1u : Nat
  nx : Nat
  ny : Nat
  nz : Nat
  curve : Nat
  privBase : W64
  privw : Nat
  fpctl : W32
  rowlag : W32
  hndoff : Nat
  donesig : W64
  digref : W64
  teamtime : W64
  deps : List Dep
  regions : List Region
  deriving DecidableEq, Repr

/-- A task that has ended, as those that depend on it name it (R11, R336): its DONESIG object and where that lay, and the tasks that it
depended on itself. -/
structure EndedTask where
  order : Nat
  ctx : Nat
  donesig : W64
  place : Option Nat
  follows : List Nat
  deriving DecidableEq, Repr

/-- The stage of a task (R334 to R350). -/
inductive Stage where
  | waiting
  | running
  /-- Flushing at region, line (R346). -/
  | flushing (region line : Nat)
  | flushed
  deriving DecidableEq, Repr

/-- A held task slot (R335). -/
structure Task where
  rec_ : TaskRec
  ctx : Nat
  queue : Nat
  order : Nat
  stage : Stage
  depsMet : BitSet
  classes : KMap PageClass
  /-- Pages whose reclassification is in progress (R299). -/
  reclassing : List Nat
  reclass : W64
  relaunches : KMap Nat
  /-- Teams of the dispatch order placed so far, and relaunches waiting, lowest first (R315). -/
  placed : Nat
  relaunch : List Nat
  retired : BitSet
  digest : W64
  /-- Memory as instruction fetch finds it at the task's start edge: the stores of ended tasks that it depends on, and of no other (R11). -/
  codeBase : List Host.Cell
  /-- The acceptance orders of the ended tasks that it depends on, directly or through others (R11, R336). -/
  follows : List Nat
  fault : Option (Nat × Nat)
  estat : Nat
  errCode : Nat
  /-- Runs to its end without stopping (R382, R441). -/
  forced : Bool
  /-- The second run of R372. -/
  rerun : Bool
  longest : Nat
  sumUnclass : W64
  sumIssues : W64
  teamsRetired : W64
  flushStopped : Bool
  deriving DecidableEq, Repr

/-- STATE of a context (R373). -/
inductive CtxState where
  | free | idle | waiting | scheduled | draining | preempted | resetting
  deriving DecidableEq, Repr

/-- A record ring (R404): header address, units written, records dropped, whether it is disabled. -/
structure Ring where
  header : Nat
  log2n : Nat
  written : Nat
  dropped : Nat
  disabled : Bool
  /-- Trace only: drops not yet reported, stamp of the previous record if any (R422, R423). -/
  pendingDrops : Nat
  stamp : Option Nat
  deriving DecidableEq, Repr

/-- A trace stream of a context on a die (R420). -/
structure TraceStream where
  ring : Ring
  en : BitVec 4
  s : Nat
  deriving DecidableEq, Repr

/-- The fields of a trace record beyond its delta (R421). -/
structure TraceRec where
  type : Nat
  core : Nat
  part : Nat
  slot : Nat
  gang : Nat
  ret : Bool
  inh : Bool
  w1 : W64
  more : List W64
  deriving DecidableEq, Repr

/-- Debug registers (R426): items as (number, word) keyed 4·k + word. -/
structure DebugRegs where
  session : Nat
  bp : KMap W64
  dw : KMap W64
  sw : KMap W64
  deriving DecidableEq, Repr

/-- A context (R373 to R381). -/
structure Ctx where
  state : CtxState
  m : CtxFields
  sliceStart : Nat
  drainStart : Nat
  drainReason : Nat
  drainDeadline : Nat
  progress : Nat
  stallDrained : Bool
  saved : Option (Nat × Nat)
  waitSince : Nat
  errRing : Option Ring
  telRing : Option Ring
  telMods : Bool
  trace : KMap TraceStream
  debug : Option DebugRegs
  /-- Held by a checkpoint (R448). -/
  frozen : Bool
  /-- Tick at which a team of the context last retired (R379). -/
  retiredAt : Option Nat
  deriving DecidableEq, Repr

/-- What a queue thread is doing (R387 to R393). -/
inductive QAct where
  | blocked
  | acting
  | waitv (p : CmpPacket) (expires : Option Nat)
  /-- The tick at which it reached the packet (R392). -/
  | task (rec_ : W64) (since : Nat)
  | error (code : Nat)
  deriving DecidableEq, Repr

/-- The COND whose arm a queue is acting on (R390): then or else, next position 1 to 8, NTHEN, NELSE, and the packets of both arms as
they were prefetched, eight words each. -/
structure CondArm where
  isElse : Bool
  pos : Nat
  nThen : Nat
  nElse : Nat
  packets : List (List Nat)
  deriving DecidableEq, Repr

/-- A mapped queue (R386). -/
structure Queue where
  ctx : Nat
  d : QueueFields
  head : Nat
  act : QAct
  arm : Option CondArm
  armFail : Option (Nat × Bool)
  /-- QUNMAP waits until the thread blocks (R374). -/
  unmapping : Bool
  /-- The tail word as the thread read it when it blocked: its place and value (R387). -/
  seen : Option (Nat × Nat) := none
  deriving DecidableEq, Repr

/-- A COPY on the I/O die's copy unit (R391). -/
structure CopyOp where
  ctx : Nat
  p : CopyPacket
  done : Nat
  fault : Nat
  stopped : Bool
  deriving DecidableEq, Repr

/-- A migration requested by COPY, or by firmware for repair (R360). -/
structure Migration where
  ctx : Nat
  p : CopyPacket
  repair : Bool
  deriving DecidableEq, Repr

/-- The kinds of a RoCEv2 request. -/
inductive NetKind where
  | write | read | fetchAdd | cmpSwap
  deriving DecidableEq, Repr

/-- A request in the deferral buffer (R293). -/
structure Deferred where
  kind : NetKind
  req : NetReq
  ctx : Nat
  deriving DecidableEq, Repr

/-- A dump in progress (R432): its area, whether it holds, its first tick, which dies have stopped and which have cut, the records
of R434 made so far in order, the requests deferred at the ports, and whether it is over with its context held (R433). -/
structure Dump where
  area : W64
  hold : Bool
  t0 : Nat
  stop0 : Bool
  stop1 : Bool
  cut0 : Bool
  cut1 : Bool
  records : List Byte
  held : List Deferred
  ended : Bool
  deriving DecidableEq, Repr

/-- An outgoing peer request in flight (R398). -/
structure PeerReq where
  window : Nat
  /-- Remote base plus offset, and the remote key (R398). -/
  addr : Nat
  key : W32
  kind : NetKind
  size : Nat
  data : List Byte
  compare : List Byte
  /-- The gang or the engine operation that waits. -/
  gang : Option GangRef
  engine : Option Nat
  deriving DecidableEq, Repr

/-- A management session (R439): whether it is secure, its owner key, and the session keys both sides have agreed on. -/
structure Session where
  secure : Bool
  ownerKey : Nat
  keys : List Byte
  deriving DecidableEq, Repr

/-- A structure that an error strikes (R54, R407). -/
inductive Upset where
  /-- A 32-bit word of a window, by half-register index. -/
  | window (g : GangRef) (half : Nat)
  /-- A 32-bit word of a team's scratchpad half. -/
  | scratch (team half word : Nat)
  /-- A 32-bit word, by physical word number, of a line that a core holds. -/
  | l1 (core slot word : Nat)
  | memory (word : Nat)
  /-- A word of a line in a die's die-level cache. -/
  | dieCache (die word : Nat)
  /-- A word of a class map, of a task slot's copy of its record, or of the command processor's memory. -/
  | classMap (slot : Nat)
  | slotCopy (slot : Nat)
  | cmdMemory
  | latch (g : GangRef) (e : Latch)
  | directory (ix : Nat)
  | filter (ix : Nat)
  | translation (ix : Nat)
  | walker (ix : Nat)
  deriving DecidableEq, Repr

/-- A cached entry whose room is needed (R283, R356, R363). -/
inductive Evict where
  | translation (ix : Nat)
  | walker (ix : Nat)
  | line (ix : Nat)
  | dieCache (ix : Nat)
  /-- The least recently granted directory entry of a die, or filter entry of a cluster, is recalled for an access of a context. -/
  | directory (die ctx : Nat)
  | filter (cluster ctx : Nat)
  deriving DecidableEq, Repr

/-- A queue pair (R394): the port and context it is bound to. -/
structure QueuePair where
  port : Nat
  ctx : Nat
  deriving DecidableEq, Repr

/-- A port (R394): pause end tick per priority, sending rate step, deferral for a dump. -/
structure Port where
  pausedUntil : KMap Nat
  rateCuts : Nat
  deriving DecidableEq, Repr

/-- A die (R408, R451, R452). -/
structure Die where
  mhz : Nat
  stopped : Bool
  stoppedAt : Nat
  nrsv : Nat
  flitReplays : Nat
  deriving DecidableEq, Repr

/-- A telemetry latch (R415): its interval as a power of 2, its tick, and the counters and the dies at the start of that tick. -/
structure TelLatch where
  log2 : Nat
  tick : Nat
  counters : KMap W64
  dies : KMap Die
  deriving DecidableEq, Repr

/-- A module-log or error-log entry (R410) as its fields. -/
structure LogEntry where
  type : Nat
  cause : Nat
  ctx : Nat
  taskid : W32
  addr : Nat
  tick : Nat
  core : Nat
  phys : Bool
  die : Nat
  info : Nat
  deriving DecidableEq, Repr

/-- Facts of an image header (R436). -/
structure ImageHeader where
  version : W32
  layouts : List Nat
  deriving DecidableEq, Repr

/-- The parts of the configuration block in use (R445). -/
structure ConfigBlock where
  vendorKey : List Byte
  owners : List (List Byte × Bool)
  digest : List Byte
  deriving DecidableEq, Repr

/-- R449, R450: an RDMA WRITE of a remote checkpoint to a target, of the bytes listed at their offsets (the others are 0), or an RDMA READ. -/
structure RdmaOp where
  write : Bool
  port : Nat
  qp : Nat
  key : W32
  addr : W64
  size : Nat
  bytes : List Host.Cell
  deriving DecidableEq, Repr

/-- What the module has answered to the host and the network. -/
inductive Reply where
  /-- An operation of a remote checkpoint on a target (R449, R450). -/
  | rdma (op : RdmaOp)
  | ok
  | refused (status : String)
  | members (ctxs : List Nat)
  | bytes (l : List Byte)
  | words (l : List W64)
  | naked (kind : NetKind)
  | rnr
  | ack
  | poisoned (l : List Byte)
  /-- The report of a stop to the agent of a context: gang, CAUSE and TPC (R309). -/
  | stopped (ctx : Nat) (g : GangRef) (cause : Nat) (tpc : W64)
  deriving DecidableEq, Repr

/-- Which party acts next. The order of parties is the outside's (log entry 1). -/
inductive Turn where
  | partition (core part : Nat)
  /-- An issue of a partition whose lanes, where it is classified, are performed one by one (R287). -/
  | split (core part : Nat)
  /-- A lane of such an issue makes its access (R287). -/
  | lane (g : GangRef) (l : Nat)
  | event (i : Instr)
  | queue (q : Nat)
  | ticks (n : Nat)
  | clocks (die n : Nat)
  /-- An error strikes: correctable, or not (R406, R407). -/
  | upset (x : Upset) (correctable : Bool)
  /-- A cache, a directory or a filter makes room (R356, R363). -/
  | evict (x : Evict)
  /-- The telemetry thread offers the next record of the latch (R415). -/
  | telemetry
  /-- Firmware asks for a page of a context to move, for repair (R360). -/
  | repair (ctx : Nat) (p : CopyPacket)
  deriving DecidableEq, Repr

/-- What a checkpoint saves (R448). -/
structure CkptImage where
  valid : Bool
  layout : Nat
  t0 : Nat
  t1 : Nat
  gangs : KMap Gang
  teams : KMap Team
  chains : KMap ChainSlot
  engine : KMap EngineOp
  mxq : KMap (List MxEntry)
  near : KMap Byte
  poison : BitSet
  gens : KMap W16
  absent : BitSet
  deferral : List Deferred
  ctxs : KMap Ctx
  tasks : KMap Task
  queues : KMap Queue
  keys : KMap KeyEntry
  windows : KMap WindowEntry
  copies : KMap CopyOp
  migrations : KMap Migration
  peers : KMap PeerReq
  /-- Incoming requests that the cut found on their way (R432). -/
  channel : List Deferred
  /-- The next numbers of teams, engine operations, acceptance, copies and peer requests. -/
  nexts : List Nat
  /-- What fetch keeps of the stores of tasks, and the tasks that have ended (R11). -/
  codeBy : KMap (List (Nat × Byte))
  ended : List EndedTask
  deriving DecidableEq, Repr

/-- A remote checkpoint or restore in progress (R449, R450): targets, next chunk, whether it restores. -/
structure CkptRun where
  targets : List CkptTarget
  chunk : Nat
  restore : Bool
  /-- Requests deferred at the ports meanwhile (R432, R450). -/
  held : List Deferred
  t0 : Nat
  /-- Far memory as the cut found it, which the chunks carry (R449). -/
  far : List Host.Cell
  deriving DecidableEq, Repr

/-- What a checkpoint has left at remote targets (R449): the header and the far memory. -/
structure RemoteImage where
  targets : List CkptTarget
  image : CkptImage
  far : List Host.Cell
  deriving DecidableEq, Repr

/-- Flash (R435) and what boot made of it (R437). -/
structure Firmware where
  flash : KMap Byte
  selector : W64
  floor : W32
  running : Bool
  header : ImageHeader
  config : ConfigBlock
  /-- The digest of the vendor root key in the boot ROM (R436). -/
  romDigest : List Byte
  recovery : Bool
  /-- Slot being activated, with force (R440). -/
  activating : Option (Bool × Bool)
  deriving DecidableEq, Repr

/-- The state of the module. -/
structure State where
  /-- Which party acts next; empty: the oldest eligible gang, else a tick (log entry 1). -/
  agenda : List Turn
  /-- The gang whose issue the instruction forms act on. -/
  cur : Option GangRef
  /-- Whether the lanes of the next classified issue are performed one by one (R287, log entry 31). -/
  split : Bool
  /-- Argument of the free values of Config (log entries 6, 7). -/
  freeCtr : Nat
  replies : List Reply
  tick : Nat
  /-- Issues of the module, and accesses of engine elements: the order in which accesses are sent (R433). -/
  issueCtr : Nat
  gangs : KMap Gang
  teams : KMap Team
  nextTeam : Nat
  chains : KMap ChainSlot
  mxq : KMap (List MxEntry)
  engine : KMap EngineOp
  nextEngine : Nat
  /-- Instruction words that cores have fetched (R11). -/
  icache : List ICacheEntry
  /-- Bytes that tasks have stored: the acceptance orders of the storing tasks, oldest first, each with the byte before its store (R11). -/
  codeBy : KMap (List (Nat × Byte))
  /-- The tasks that have ended (R11). -/
  ended : List EndedTask
  tlb : List TlbEntry
  /-- Cached non-leaf entries of the cluster walkers (R356). -/
  walkCache : List WalkEntry
  walks : List Walk
  l1 : List L1Line
  /-- Directory and filter entries, least recently granted first (R361, R363). -/
  directory : List DirEntry
  filters : List FilterEntry
  mem : List Host.Cell
  memPoison : BitSet
  memCorr : BitSet
  /-- Generation of each frame at its home; for a far frame key 2·frame + die (R358). -/
  gens : KMap W16
  absent : BitSet
  /-- Clean lines installed in a die-level cache: key 2·line + die (R345). -/
  dieCache : BitSet
  /-- 32-bit words of a die-level cache that hold a correctable error: key 2·word + die (R407). -/
  dieCorr : BitSet
  tasks : KMap Task
  nextOrder : Nat
  ctxs : KMap Ctx
  queues : KMap Queue
  copies : KMap CopyOp
  nextCopy : Nat
  migrations : KMap Migration
  keys : KMap KeyEntry
  windows : KMap WindowEntry
  qps : KMap QueuePair
  peers : KMap PeerReq
  nextPeer : Nat
  deferral : List Deferred
  ports : KMap Port
  secure : List SecRange
  /-- Cores of the secure world (R399). -/
  secureCores : LaneMask
  /-- Token buckets: core × 64 + context (R383). -/
  buckets : KMap Nat
  /-- The window of 1,024 clocks for which a core's buckets were last set (R383). -/
  bucketWindow : KMap Nat
  counters : KMap W64
  /-- Partitions (core × 32 + partition) to clocks of an issue not yet passed (R417). -/
  issueClocks : KMap Nat
  dies : KMap Die
  /-- The die whose link retrains (R408). -/
  retraining : Option Nat
  failedRetrains : Nat
  telInterval : Option Nat
  /-- Context that receives module records (R414). -/
  telModule : Option Nat
  /-- A latch whose records are not made yet. -/
  telLatch : Option TelLatch
  /-- Records of the last latch not offered yet: context and record, in order (R415). -/
  telPending : List (Nat × List Byte)
  /-- The tick at which a core (core × 64 + context) was last sampled (R424). -/
  sampledAt : KMap Nat
  /-- Trace records of events that are not written yet: context, die, record, in the order they arose (R420). -/
  traceBuf : List (Nat × Nat × TraceRec)
  modLog : List LogEntry
  modLogCount : Nat
  /-- Dumps in progress, by context (R432). -/
  dumps : KMap Dump
  sessions : KMap Session
  /-- Agents of FREE contexts (R414, R425). -/
  agents : KMap DebugRegs
  challenge : List Byte
  fw : Firmware
  image : Option CkptImage
  ckptStatus : Nat
  ckptRun : Option CkptRun
  /-- What remote targets hold (R449). -/
  remote : List RemoteImage
  halted : Bool
  deriving DecidableEq, Repr

/-- Why the machine stops. -/
inductive Fault where
  /-- Raised by every form of the 96-bit word when no gang is the issuing gang: no such issue exists. Safe. -/
  | noGang
  deriving DecidableEq, Repr

/-- Why an instruction has no meaning here. -/
inductive Refusal where
  /-- Raised by an arm of `exec` for an instruction that has no meaning yet. Safe. -/
  | notModelled (mnemonic : String)
  deriving DecidableEq, Repr

/-- R3, R451: 600 MHz; NRSV is log entry 4. -/
def Die.reset (nrsv : Nat) : Die :=
  { mhz := 600, stopped := false, stoppedAt := 0, nrsv := nrsv, flitReplays := 0 }

/-- A module that has booted slot A, with flash otherwise unwritten (log entry 4). -/
def Firmware.reset : Firmware :=
  { flash := [], selector := 0#64, floor := 0#32, running := false, header := ⟨0#32, [0]⟩,
    config := ⟨[], [], []⟩, romDigest := [], recovery := false, activating := none }

/-- The module right after reset (R437 step 5): no context exists, every array is zero, every counter is 0. -/
def State.reset : State :=
  { agenda := [], cur := none, split := false, freeCtr := 0, replies := [], tick := 0, issueCtr := 0, gangs := [], teams := [],
    nextTeam := 0, chains := [], mxq := [], engine := [], nextEngine := 0, icache := [], codeBy := [], ended := [], tlb := [], walkCache := [], walks := [], l1 := [], directory := [], filters := [],
    mem := [], memPoison := [], memCorr := [], gens := [], absent := [], dieCache := [], dieCorr := [], tasks := [], nextOrder := 0,
    ctxs := [], queues := [], copies := [], nextCopy := 0, migrations := [], keys := [], windows := [], qps := [],
    peers := [], nextPeer := 0, deferral := [], ports := [], secure := [], secureCores := 0#64, buckets := [],
    bucketWindow := [], counters := [], issueClocks := [], dies := [(0, Die.reset 0xE0000000), (1, Die.reset 0x1E0000000)], retraining := none,
    failedRetrains := 0, telInterval := none, telModule := none, telLatch := none, telPending := [], sampledAt := [], traceBuf := [], modLog := [], modLogCount := 0, dumps := [],
    sessions := [], agents := [], challenge := [], fw := Firmware.reset, image := none, ckptStatus := 0, ckptRun := none,
    remote := [], halted := false }

end Sys2Proof.Machine
end

