-- ==== Sys2Proof/Machine/Maps.lean ====
section
/-! DEFINITION. Operations on finite maps, byte strings and small words. -/

namespace Sys2Proof.Machine

/-- The value at a number, if listed. -/
def KMap.get? {α : Type} : KMap α → Nat → Option α
  | [], _ => none
  | (k, v) :: t, a => if a = k then some v else KMap.get? t a

/-- The value at a number, d where it is not listed. -/
def KMap.get {α : Type} (m : KMap α) (d : α) (a : Nat) : α := (KMap.get? m a).getD d

/-- The map without a number. -/
def KMap.del {α : Type} (m : KMap α) (a : Nat) : KMap α := m.filter fun e => e.1 != a

/-- A number and its value put in order into a map that does not list it. -/
def KMap.insert {α : Type} (a : Nat) (v : α) : KMap α → KMap α
  | [] => [(a, v)]
  | (k, w) :: t => if a < k then (a, v) :: (k, w) :: t else (k, w) :: KMap.insert a v t

/-- The map with a number set to a value. -/
def KMap.put {α : Type} (m : KMap α) (a : Nat) (v : α) : KMap α := KMap.insert a v (KMap.del m a)

/-- The map with a number set to a value, not listed when the value is the default d. -/
def KMap.set {α : Type} [DecidableEq α] (m : KMap α) (d : α) (a : Nat) (v : α) : KMap α :=
  if v = d then KMap.del m a else KMap.put m a v

/-- The map with an entry changed where listed. -/
def KMap.modify {α : Type} (m : KMap α) (a : Nat) (f : α → α) : KMap α :=
  m.map fun e => if e.1 = a then (e.1, f e.2) else e

/-- Strictly rising numbers. -/
def KMap.rising {α : Type} : KMap α → Bool
  | [] => true
  | [_] => true
  | (k, _) :: (k', v') :: t => k < k' && KMap.rising ((k', v') :: t)

/-- The canonical form of a map with default d. -/
def KMap.wf {α : Type} [DecidableEq α] (m : KMap α) (d : α) : Bool :=
  KMap.rising m && m.all fun e => e.2 != d

/-- Membership of a set of numbers. -/
def BitSet.has (m : BitSet) (a : Nat) : Bool := KMap.get m false a
/-- A set of numbers with one put in or taken out. -/
def BitSet.put (m : BitSet) (a : Nat) (b : Bool) : BitSet := KMap.set m false a b

/-- Little-endian value of a byte string (R4). -/
def leVal : List Byte → Nat
  | [] => 0
  | b :: t => b.toNat + 256 * leVal t

/-- The n little-endian bytes of a number (R4). -/
def leBytes : Nat → Nat → List Byte
  | 0, _ => []
  | n + 1, x => BitVec.ofNat 8 x :: leBytes n (x / 256)

/-- `x<h:l>` on a number, as width bits from lo (R7). -/
def bits (x lo width : Nat) : Nat := x / 2 ^ lo % 2 ^ width

/-- R7: SignExt(x, w) as an integer. -/
def signExt (x w : Nat) : Int :=
  let y := x % 2 ^ w
  if y ≥ 2 ^ (w - 1) then (y : Int) - (2 ^ w : Nat) else (y : Int)

/-- The low w bits of an integer in two's complement (R7). -/
def wrapInt (x : Int) (w : Nat) : Nat := (x % ((2 ^ w : Nat) : Int)).toNat

/-- The listed members of a lane mask in increasing order. -/
def lanesOf (m : LaneMask) : List Nat := (List.range 64).filter fun l => m.getLsbD l

/-- The lane mask of the lanes that meet a test. -/
def maskOf (f : Nat → Bool) : LaneMask :=
  BitVec.ofNat 64 ((List.range 64).foldl (fun acc l => if f l then acc + 2 ^ l else acc) 0)

/-- The lowest lane of a mask. -/
def lowestLane (m : LaneMask) : Option Nat := (List.range 64).find? fun l => m.getLsbD l

/-- A number as a 64-bit word. -/
def w64 (n : Nat) : W64 := BitVec.ofNat 64 n

/-- Sub-element j of width w of a lane value (R4). -/
def subElem (x : W64) (w j : Nat) : Nat := x.toNat / 2 ^ (j * w) % 2 ^ w

/-- A lane value from its sub-elements of width w, lowest first (R4). -/
def ofSubs (w : Nat) : List Nat → Nat
  | [] => 0
  | x :: t => x % 2 ^ w + 2 ^ w * ofSubs w t

/-- A lane value formed sub-element by sub-element (R4). -/
def mapSubs (w : Nat) (f : Nat → Nat) : W64 := w64 (ofSubs w ((List.range (64 / w)).map f))

end Sys2Proof.Machine
end

