-- ==== Sys2Proof/Machine/Float.lean ====
section
/-! DEFINITION. The IEEE formats (R58 to R61), exact values and their one rounding, and the arithmetic of the FP and SFU
classes that is correctly rounded (R126 to R140). -/

namespace Sys2Proof.Machine

/-- R58: exponent and fraction bits of a format. -/
structure Fmt where
  ebits : Nat
  fbits : Nat
  deriving DecidableEq, Repr

/-- binary64 (R58). -/
def f64 : Fmt := ⟨11, 52⟩
/-- binary32 (R58). -/
def f32 : Fmt := ⟨8, 23⟩
/-- binary16 (R58). -/
def f16 : Fmt := ⟨5, 10⟩
/-- BF16 (R58). -/
def bf16 : Fmt := ⟨8, 7⟩

/-- The format of a floating type code (R22). -/
def fmtOf (t : Nat) : Fmt := if t = 9 then f64 else if t = 10 then f16 else if t = 11 then bf16 else f32

/-- Width in bits. -/
def Fmt.width (F : Fmt) : Nat := F.ebits + F.fbits + 1
/-- Exponent bias. -/
def Fmt.bias (F : Fmt) : Nat := 2 ^ (F.ebits - 1) - 1
/-- Exponent of the smallest normal. -/
def Fmt.emin (F : Fmt) : Int := 1 - (F.bias : Int)

/-- A value of a format: a NaN (signalling or not), an infinity, or (-1)^neg × m × 2^e. -/
inductive FVal where
  | nan (sig : Bool)
  | inf (neg : Bool)
  | fin (neg : Bool) (m : Nat) (e : Int)
  deriving DecidableEq, Repr

/-- Flags in FPSTAT order: NV, DZ, OF, UF, NX (R63). -/
abbrev Flags := BitVec 5
def flagNV : Flags := 1#5
def flagDZ : Flags := 2#5
def flagOF : Flags := 4#5
def flagUF : Flags := 8#5
def flagNX : Flags := 16#5

/-- R58: the value of a bit pattern. -/
def Fmt.unpack (F : Fmt) (x : Nat) : FVal :=
  let frac := x % 2 ^ F.fbits
  let ex := x / 2 ^ F.fbits % 2 ^ F.ebits
  let neg := x / 2 ^ (F.width - 1) % 2 == 1
  if ex = 2 ^ F.ebits - 1 then
    if frac = 0 then .inf neg else .nan (frac < 2 ^ (F.fbits - 1))
  else if ex = 0 then .fin neg frac (F.emin - F.fbits)
  else .fin neg (2 ^ F.fbits + frac) ((ex : Int) - F.bias - F.fbits)

/-- The sign bit in place. -/
def Fmt.signBit (F : Fmt) (neg : Bool) : Nat := if neg then 2 ^ (F.width - 1) else 0
/-- R58: the canonical quiet NaN. -/
def Fmt.qnan (F : Fmt) : Nat := (2 ^ F.ebits - 1) * 2 ^ F.fbits + 2 ^ (F.fbits - 1)
/-- ±∞. -/
def Fmt.inf (F : Fmt) (neg : Bool) : Nat := F.signBit neg + (2 ^ F.ebits - 1) * 2 ^ F.fbits
/-- The largest finite value of a sign. -/
def Fmt.maxFin (F : Fmt) (neg : Bool) : Nat := F.signBit neg + (2 ^ F.ebits - 1) * 2 ^ F.fbits - 1

/-- Whether a pattern is a subnormal. -/
def Fmt.isSub (F : Fmt) (x : Nat) : Bool := x / 2 ^ F.fbits % 2 ^ F.ebits == 0 && x % 2 ^ F.fbits != 0

/-- Whether to round a magnitude up (R60): quotient k, remainder against half, sticky tail. -/
def roundsUp (mode : Nat) (neg : Bool) (k rem half : Nat) (sticky : Bool) : Bool :=
  match mode with
  | 0 => rem > half || (rem == half && (sticky || k % 2 == 1))
  | 1 => false
  | 2 => !neg && (rem != 0 || sticky)
  | _ => neg && (rem != 0 || sticky)

/-- The multiple of 2^q nearest m × 2^e under a mode, with whether it is inexact; a sticky tail lies above m and below m + 1. -/
def roundTo (mode : Nat) (neg : Bool) (m : Nat) (e q : Int) (sticky : Bool) : Nat × Bool :=
  let t := (e - q + 2).toNat
  let m' := m * 2 ^ t
  let s := (q - (e - t)).toNat
  let k := m' / 2 ^ s
  let rem := m' % 2 ^ s
  (if roundsUp mode neg k rem (2 ^ (s - 1)) sticky then k + 1 else k, rem != 0 || sticky)

/-- R59, R60: RoundF of a magnitude with a sign, and the flags OF, UF, NX. -/
def Fmt.roundMag (F : Fmt) (mode : Nat) (neg : Bool) (m : Nat) (e : Int) (sticky : Bool) : Nat × Flags :=
  if m = 0 && !sticky then (F.signBit neg, 0#5) else
  let p : Int := F.fbits
  let E : Int := (Nat.log2 m : Int) + e
  let q : Int := max (E - p) (F.emin - p)
  let (r, inexact) := roundTo mode neg m e q sticky
  let nx := if inexact then flagNX else 0#5
  let top : Int := (Nat.log2 r : Int) + q
  if r ≠ 0 && top > (F.bias : Int) then
    let toInf := match mode with | 0 => true | 1 => false | 2 => !neg | _ => neg
    (if toInf then F.inf neg else F.maxFin neg, flagOF ||| flagNX)
  else
    let tiny : Bool :=
      if m = 0 then true
      else if E ≥ F.emin then false
      else if E < F.emin - 1 then true
      else (roundTo mode neg m e (E - p) sticky).1 < 2 ^ (F.fbits + 1)
    let uf := if tiny && inexact then flagUF else 0#5
    let body :=
      if r < 2 ^ F.fbits then r
      else if r = 2 ^ (F.fbits + 1) then ((q + 1 + p + F.bias).toNat) * 2 ^ F.fbits
      else ((q + p + F.bias).toNat) * 2 ^ F.fbits + (r - 2 ^ F.fbits)
    (F.signBit neg + body, nx ||| uf)

/-- R61: FpOut's flush of a rounded result. -/
def Fmt.flush (F : Fmt) (ftz : Bool) (r : Nat × Flags) : Nat × Flags :=
  if ftz && F.isSub r.1 then (r.1 / 2 ^ (F.width - 1) * 2 ^ (F.width - 1), r.2 ||| flagUF ||| flagNX) else r

/-- R61, R125: FpIn: the value read and NV for a signalling NaN. -/
def Fmt.fpIn (F : Fmt) (ftz : Bool) (x : Nat) : FVal × Flags :=
  match F.unpack x with
  | .nan sig => (.nan sig, if sig then flagNV else 0#5)
  | .fin neg m e => if ftz && F.isSub x then (.fin neg 0 e, 0#5) else (.fin neg m e, 0#5)
  | v => (v, 0#5)

/-- An exact dyadic number: n × 2^e. -/
structure Dyadic where
  n : Int
  e : Int
  deriving DecidableEq, Repr

/-- Exact sum. -/
def Dyadic.add (x y : Dyadic) : Dyadic :=
  let e := min x.e y.e
  ⟨x.n * 2 ^ (x.e - e).toNat + y.n * 2 ^ (y.e - e).toNat, e⟩
/-- Exact product. -/
def Dyadic.mul (x y : Dyadic) : Dyadic := ⟨x.n * y.n, x.e + y.e⟩
/-- Three-way comparison: negative, zero or positive difference. -/
def Dyadic.cmp (x y : Dyadic) : Int := (x.add ⟨-y.n, y.e⟩).n

/-- A finite value as a dyadic; zero for the others. -/
def FVal.dyadic : FVal → Dyadic
  | .fin neg m e => ⟨if neg then -(m : Int) else m, e⟩
  | _ => ⟨0, 0⟩

/-- RoundF of an exact dyadic (R59), a zero taking the sign given. -/
def Fmt.roundDy (F : Fmt) (mode : Nat) (zneg : Bool) (x : Dyadic) (sticky : Bool := false) : Nat × Flags :=
  if x.n = 0 then (F.signBit zneg, 0#5) else F.roundMag mode (x.n < 0) x.n.natAbs x.e sticky

/-- The sign of a value. -/
def FVal.neg? : FVal → Bool
  | .nan _ => false
  | .inf n => n
  | .fin n _ _ => n

def FVal.isZero : FVal → Bool
  | .fin _ m _ => m == 0
  | _ => false
def FVal.isNan : FVal → Bool
  | .nan _ => true
  | _ => false
def FVal.isInf : FVal → Bool
  | .inf _ => true
  | _ => false

/-- The value with its sign complemented. -/
def FVal.negate : FVal → FVal
  | .nan s => .nan s
  | .inf n => .inf (!n)
  | .fin n m e => .fin (!n) m e

/-- R130: an exact product, with NV for ∞ × 0. -/
def FVal.mul (x y : FVal) : FVal × Flags :=
  match x, y with
  | .nan _, _ => (.nan false, 0#5)
  | _, .nan _ => (.nan false, 0#5)
  | .inf s, .inf t => (.inf (s != t), 0#5)
  | .inf s, .fin t m _ => if m = 0 then (.nan false, flagNV) else (.inf (s != t), 0#5)
  | .fin s m _, .inf t => if m = 0 then (.nan false, flagNV) else (.inf (s != t), 0#5)
  | .fin s m e, .fin t k g => (.fin (s != t) (m * k) (e + g), 0#5)

/-- R128, R130: the sum of terms formed exactly and rounded once. -/
def Fmt.sum (F : Fmt) (ftz : Bool) (mode : Nat) (terms : List FVal) : Nat × Flags :=
  let pinf := terms.any (fun t => t == .inf false)
  let ninf := terms.any (fun t => t == .inf true)
  let nv := if pinf && ninf then flagNV else 0#5
  if terms.any FVal.isNan || (pinf && ninf) then (F.qnan, nv)
  else if pinf then (F.inf false, 0#5)
  else if ninf then (F.inf true, 0#5)
  else
    let s : Dyadic := terms.foldl (fun (acc : Dyadic) t => acc.add t.dyadic) ⟨0, 0⟩
    if s.n = 0 then
      let allNeg := terms.all fun t => t.isZero && t.neg?
      let allPos := terms.all fun t => t.isZero && !t.neg?
      (F.signBit (if allNeg then true else if allPos then false else mode == 3), 0#5)
    else F.flush ftz (F.roundDy mode false s)

/-- Integer square root by bits, from bit i downwards. -/
def isqrtFrom (n : Nat) : Nat → Nat → Nat
  | 0, r => if (r + 1) * (r + 1) ≤ n then r + 1 else r
  | i + 1, r => isqrtFrom n i (if (r + 2 ^ (i + 1)) * (r + 2 ^ (i + 1)) ≤ n then r + 2 ^ (i + 1) else r)

/-- The integer square root. -/
def isqrt (n : Nat) : Nat := isqrtFrom n (Nat.log2 n / 2 + 1) 0

/-- RoundF of the quotient of two positive integers times 2^e (R136, R138). -/
def Fmt.roundQuot (F : Fmt) (mode : Nat) (neg : Bool) (a b : Nat) (e : Int) : Nat × Flags :=
  let k := F.fbits + 4 + Nat.log2 b
  let m := a * 2 ^ k
  F.roundMag mode neg (m / b) (e - k) (m % b != 0)

/-- R138: FDIV of two values as read. -/
def Fmt.div (F : Fmt) (ftz : Bool) (mode : Nat) (x y : FVal) : Nat × Flags :=
  let neg := x.neg? != y.neg?
  match x, y with
  | .nan _, _ => (F.qnan, 0#5)
  | _, .nan _ => (F.qnan, 0#5)
  | .inf _, .inf _ => (F.qnan, flagNV)
  | .inf _, .fin _ _ _ => (F.inf neg, 0#5)
  | .fin _ _ _, .inf _ => (F.signBit neg, 0#5)
  | .fin _ m e, .fin _ k g =>
    if k = 0 then if m = 0 then (F.qnan, flagNV) else (F.inf neg, flagDZ)
    else if m = 0 then (F.signBit neg, 0#5)
    else F.flush ftz (F.roundQuot mode neg m k (e - g))

/-- R136, R137: FSQRT. -/
def Fmt.sqrt (F : Fmt) (ftz : Bool) (mode : Nat) (x : FVal) : Nat × Flags :=
  match x with
  | .nan _ => (F.qnan, 0#5)
  | .inf neg => if neg then (F.qnan, flagNV) else (F.inf false, 0#5)
  | .fin neg m e =>
    if m = 0 then (F.signBit neg, 0#5)
    else if neg then (F.qnan, flagNV)
    else
      let m' := if e % 2 = 0 then m else 2 * m
      let e' := if e % 2 = 0 then e else e - 1
      let k := F.fbits + 4
      let n := m' * 2 ^ (2 * k)
      let r := isqrt n
      F.flush ftz (F.roundMag mode false r (e' / 2 - k) (r * r != n))

/-- R131: FMIN (or FMAX) of two patterns as read: −0 orders below +0; nanRule is `.NAN`. -/
def Fmt.minMax (F : Fmt) (ftz isMax nanRule : Bool) (x y : Nat) : Nat × Flags :=
  let (a, fa) := F.fpIn ftz x
  let (b, fb) := F.fpIn ftz y
  let fl := fa ||| fb
  let img (v : FVal) (x : Nat) : Nat := if v.isZero then F.signBit v.neg? else x
  let less : Bool :=
    match a, b with
    | .inf s, .inf t => s && !t
    | .inf s, _ => s
    | _, .inf t => !t
    | _, _ =>
      let c := a.dyadic.cmp b.dyadic
      c < 0 || (c == 0 && a.neg? && !b.neg?)
  if a.isNan && b.isNan then (F.qnan, fl)
  else if a.isNan then (if nanRule then F.qnan else img b y, fl)
  else if b.isNan then (if nanRule then F.qnan else img a x, fl)
  else (if less != isMax then img a x else img b y, fl)

/-- R133: the ordering of two values: none when unordered. -/
def FVal.cmp (a b : FVal) : Option Int :=
  match a, b with
  | .nan _, _ => none
  | _, .nan _ => none
  | .inf s, .inf t => some (if s = t then 0 else if s then -1 else 1)
  | .inf s, _ => some (if s then -1 else 1)
  | _, .inf t => some (if t then 1 else -1)
  | x, y => some (x.dyadic.cmp y.dyadic)

/-- R133: the truth of a comparison and its NV. -/
def fcmpElem (cond : Nat) (a b : FVal × Flags) : Bool × Flags :=
  let o := a.1.cmp b.1
  let sig := a.2 ||| b.2
  let anyNan := if o.isNone then flagNV else 0#5
  match cond with
  | 0 => (o == some 0, sig)
  | 1 => (o != some 0, sig)
  | 2 => (match o with | some c => c < 0 | none => false, sig ||| anyNan)
  | 3 => (match o with | some c => c ≤ 0 | none => false, sig ||| anyNan)
  | 4 => (match o with | some c => c > 0 | none => false, sig ||| anyNan)
  | 5 => (match o with | some c => c ≥ 0 | none => false, sig ||| anyNan)
  | 6 => (o.isNone, sig)
  | _ => (o.isSome, sig)

/-- R134: the class bit of a pattern. -/
def Fmt.classBit (F : Fmt) (x : Nat) : Nat :=
  match F.unpack x with
  | .nan sig => if sig then 8 else 9
  | .inf neg => if neg then 0 else 7
  | .fin neg m _ =>
    if m = 0 then if neg then 3 else 4
    else if F.isSub x then if neg then 2 else 5
    else if neg then 1 else 6

/-- R135: an integral value in the same format. -/
def Fmt.roundInt (F : Fmt) (ftz : Bool) (mode x : Nat) : Nat × Flags :=
  let (v, fl) := F.fpIn ftz x
  match v with
  | .nan _ => (F.qnan, fl)
  | .inf neg => (F.inf neg, fl)
  | .fin neg m e =>
    if m = 0 then (F.signBit neg, fl)
    else if e ≥ 0 then (x, fl)
    else
      let r := (roundTo mode neg m e 0 false).1
      (if r = 0 then F.signBit neg else (F.roundMag 0 neg r 0 false).1, fl)

/-- R128, R130: FSCALE of a pattern by 2^k. -/
def Fmt.scale (F : Fmt) (ftz : Bool) (mode x : Nat) (k : Int) : Nat × Flags :=
  let (v, fl) := F.fpIn ftz x
  match v with
  | .nan _ => (F.qnan, fl)
  | .inf neg => (F.inf neg, fl)
  | .fin neg m e =>
    if m = 0 then (F.signBit neg, fl)
    else
      -- beyond ±2^13 every exponent overflows or underflows alike
      let k' : Int := max (-8192) (min 8192 k)
      let r := F.flush ftz (F.roundMag mode neg m (e + k') false)
      (r.1, r.2 ||| fl)

/-- The value of an integer element (R66). -/
def intElem (t x : Nat) : Int := if typeIsSigned t then signExt x (typeWidth t) else ((x % 2 ^ typeWidth t : Nat) : Int)

/-- The range of an integer type (R66). -/
def intMin (t : Nat) : Int := if typeIsSigned t then -((2 ^ (typeWidth t - 1) : Nat) : Int) else 0
def intMax (t : Nat) : Int :=
  if typeIsSigned t then ((2 ^ (typeWidth t - 1) : Nat) : Int) - 1 else ((2 ^ typeWidth t : Nat) : Int) - 1

/-- Sat(x, T): the nearest value of the type's range. -/
def satInt (t : Nat) (x : Int) : Int := max (intMin t) (min (intMax t) x)

/-- R140: Conv of one element from type st to type dt; mode is the rounding mode, sat the `.SAT` of integer to integer. -/
def convElem (ftz : Bool) (mode : Nat) (sat : Bool) (dt st x : Nat) : Nat × Flags :=
  if typeIsFloat st then
    let (v, fl) := (fmtOf st).fpIn ftz x
    if typeIsFloat dt then
      let F := fmtOf dt
      match v with
      | .nan _ => (F.qnan, fl)
      | .inf neg => (F.inf neg, fl)
      | .fin neg m e =>
        let r := F.flush ftz (F.roundMag mode neg m e false)
        (r.1, r.2 ||| fl)
    else
      match v with
      | .nan _ => (0, fl ||| flagNV)
      | .inf neg => (wrapInt (if neg then intMin dt else intMax dt) (typeWidth dt), flagNV)
      | .fin neg m e =>
        let (r, nx) := if m = 0 then (0, false) else roundTo mode neg m e 0 false
        let y : Int := if neg then -(r : Int) else r
        if y < intMin dt || y > intMax dt then (wrapInt (satInt dt y) (typeWidth dt), flagNV)
        else (wrapInt y (typeWidth dt), if nx then flagNX else 0#5)
  else if typeIsFloat dt then
    let y := intElem st x
    let r := (fmtOf dt).roundDy mode false ⟨y, 0⟩
    (r.1, r.2 &&& (flagOF ||| flagNX))
  else
    let y := intElem st x
    (wrapInt (if sat then satInt dt y else y) (typeWidth dt), 0#5)

end Sys2Proof.Machine
end

