-- ==== Sys2Proof/Machine/Mem.lean ====
section
/-! DEFINITION. Physical memory, the lines that cores hold, translation (R351 to R359), counters, record rings and logs
(R404 to R412, R417). -/

namespace Sys2Proof.Machine

/-- Update of one entry of the gang table. -/
def State.setGang (s : State) (g : GangRef) (x : Gang) : State :=
  { s with gangs := KMap.put s.gangs (g.core * 512 + g.part * 16 + g.slot) x }
/-- R2: the number of a gang slot. -/
def gangNum (g : GangRef) : Nat := g.core * 512 + g.part * 16 + g.slot
/-- The gang slot of a number. -/
def gangOfNum (n : Nat) : GangRef := ⟨n / 512, n / 16 % 32, n % 16⟩
/-- The gang of a slot. -/
def State.gang? (s : State) (g : GangRef) : Option Gang := KMap.get? s.gangs (g.core * 512 + g.part * 16 + g.slot)

/-- The counters of R253 and R417 beyond those a gang or a task holds. -/
inductive Counter where
  | issue | dep | memHeld | sync | idle | clocks | mxbusy | sfubusy | englines | portlines | ecccorr | genrefuse
  | viaflits | viareplay | viaretrain | diecorr | poisonnew | recalls
  | txbytes | rxbytes | cnprx | pfcticks | naktx | retrans
  | stalecnt | boerr | engflt | deferred | refused | netrefuse | migrations | digmis | reexec | preempts | resets | relaunch
  | logdrop | teldrop | tracedrop | energy | tempmax | loglost
  deriving DecidableEq, Repr

/-- The key of a counter of one core, die, port or context: no two counters share one. -/
def Counter.key (c : Counter) (ix : Nat) : Nat := ix * 64 + c.ctorIdx

/-- A counter's value. -/
def State.count (s : State) (c : Counter) (ix : Nat) : W64 := KMap.get s.counters 0#64 (c.key ix)
/-- R253: a counter raised, modulo 2^64. -/
def State.bump (s : State) (c : Counter) (ix : Nat) (n : Nat := 1) : State :=
  { s with counters := KMap.set s.counters 0#64 (c.key ix) (s.count c ix + w64 n) }

/-- What a byte that nothing has written reads as (log entry 5). -/
def memDefault : Byte := 0#8
/-- The canonical form of memory. -/
def Memory.wf (m : List Host.Cell) : Bool := KMap.wf m memDefault
/-- A byte as it stands at its home. -/
def homeByte (s : State) (pa : Nat) : Byte := KMap.get s.mem memDefault pa

/-- A dirty byte of a line that some core holds. -/
def dirtyByte : List L1Line → Nat → Option Byte
  | [], _ => none
  | l :: t, pa => match KMap.get? l.dirty pa with
    | some b => some b
    | none => dirtyByte t pa

/-- R285: the byte of the last store in the single order. -/
def memByte (s : State) (pa : Nat) : Byte := (dirtyByte s.l1 pa).getD (homeByte s pa)
/-- Bytes at increasing physical addresses. -/
def memBytes (s : State) (pa n : Nat) : List Byte := (List.range n).map fun i => memByte s (pa + i)
/-- A little-endian number in memory. -/
def memNat (s : State) (pa n : Nat) : Nat := leVal (memBytes s pa n)

/-- Bytes put at increasing addresses of a byte map. -/
def putBytes (m : KMap Byte) : Nat → List Byte → KMap Byte
  | _, [] => m
  | pa, b :: t => putBytes (KMap.set m memDefault pa b) (pa + 1) t

/-- Dirty bytes of a line written to their home. -/
def writeDirty (m : List Host.Cell) : KMap Byte → List Host.Cell
  | [] => m
  | (pa, b) :: t => writeDirty (KMap.set m memDefault pa b) t

/-- R311: poison of the words that a store of n bytes at an address covers whole is cleared; a poisoned source word
(its offset in the string, in words) poisons the word it lands in. -/
def storePoison (p : BitSet) (pa n : Nat) (src : Nat → Bool) : BitSet :=
  (List.range (n / 4 + 2)).foldl (fun acc i =>
    let w := pa / 4 + i
    if 4 * w ≥ pa + n then acc
    else if 4 * w ≥ pa && 4 * w + 4 ≤ pa + n then BitSet.put acc w (src ((4 * w - pa) / 4))
    else acc) p

/-- R311, R407: whether a word of memory is poisoned, at its home or in the copy that holds it dirty. -/
def wordPoisoned (s : State) (word : Nat) : Bool :=
  BitSet.has s.memPoison word || s.l1.any fun l => BitSet.has l.poison word && l.dirty.any fun b => b.1 / 4 == word

/-- Whether any of n bytes at an address lies in a poisoned word. -/
def memPoisoned (s : State) (pa n : Nat) : Bool :=
  (List.range (n / 4 + 2)).any fun i => 4 * (pa / 4 + i) < pa + n && wordPoisoned s (pa / 4 + i)

/-- R383, R384: a line of a context crosses a core's port. -/
def portCross (s : State) (core ctx : Nat) : State :=
  let s := s.bump .portlines core
  { s with buckets := KMap.set s.buckets 0 (core * 64 + ctx) (KMap.get s.buckets 0 (core * 64 + ctx) - 1) }

/-- R384: on whose behalf a copy is written back: of the task that holds it, of the context whose access recalls it, or of a network
agent, which spends nothing. -/
inductive Charge where
  | own
  | of (ctx : Nat)
  | agent
  deriving DecidableEq, Repr

/-- R384: a line held for a task slot crosses its core's port, on behalf of the slot's context or of the context that recalls it. -/
def crossLine (pay : Charge) (s : State) (l : L1Line) : State :=
  match pay with
  | .of c => portCross s l.core c
  | .agent => s.bump .portlines l.core
  | .own => match KMap.get? s.tasks l.slot with
    | some t => portCross s l.core t.ctx
    | none => s.bump .portlines l.core

/-- R361: the filter entries that lines still held by cores keep. -/
def keepFilters (l1 : List L1Line) (fs : List FilterEntry) : List FilterEntry :=
  fs.filterMap fun f =>
    let cores := f.cores.filter fun e => l1.any fun l => l.line == f.line && l.core == e.1 && l.tracked
    if cores.isEmpty then none else some { f with cores }

/-- R361: the directory entries that the filters still bear out. -/
def keepDirectory (l1 : List L1Line) (fs : List FilterEntry) (ds : List DirEntry) : List DirEntry :=
  ds.filterMap fun d =>
    let clusters := d.clusters.filter fun e => fs.any fun f => f.cluster == e.1 && f.line / 4 == d.region
    let owner := d.owner.filter fun c => l1.any fun l => l.owned && l.tracked && l.core / 8 == c && l.line / 4 == d.region
    if clusters.isEmpty then none else some { d with clusters, owner }

/-- R311: the poison marks of a copy's dirty words reach their home with them. -/
def writePoison (p : BitSet) (l : L1Line) : BitSet :=
  l.poison.foldl (fun p e => if BitSet.has l.poison e.1 && l.dirty.any fun b => b.1 / 4 == e.1 then BitSet.put p e.1 true else p) p

/-- Lines written back to their homes and dropped (R284, R297, R343, R363); each written back crosses its core's port (R384), and
the directory and the filters forget the copies. -/
def dropLines (s : State) (which : L1Line → Bool) (pay : Charge := .own) : State :=
  let out := s.l1.filter which
  let l1 := s.l1.filter fun l => !which l
  let filters := keepFilters l1 s.filters
  let c := (out.filter fun l => !l.dirty.isEmpty).foldl (crossLine pay) s
  { s with mem := out.foldl (fun m l => writeDirty m l.dirty) s.mem, l1, filters, directory := keepDirectory l1 filters s.directory,
           memPoison := out.foldl writePoison s.memPoison, counters := c.counters, buckets := c.buckets }

/-- The lines that bytes at an address lie in are recalled from every core. -/
def recallLines (s : State) (pa n : Nat) (pay : Charge := .own) : State :=
  dropLines s (fun l => pa / 128 ≤ l.line && l.line ≤ (pa + n - 1) / 128) pay

/-- R284: bytes stored at their home, every copy of their lines written back first. -/
def homeStore (s : State) (pa : Nat) (bs : List Byte) (src : Nat → Bool := fun _ => false) (pay : Charge := .own) : State :=
  let s := recallLines s pa bs.length pay
  { s with mem := putBytes s.mem pa bs, memPoison := storePoison s.memPoison pa bs.length src,
           memCorr := storePoison s.memCorr pa bs.length fun _ => false }

/-- Whether a core holds a line for a task slot. -/
def holdsLine (s : State) (core slot line : Nat) : Bool := s.l1.any fun l => l.core == core && l.slot == slot && l.line == line

/-- A line of a core is held for a task slot, without dirty bytes if it is new (R342). -/
def fillLine (s : State) (core slot : Nat) (team : Option Nat) (line : Nat) (gen : W16) (tracked : Bool) : State :=
  if holdsLine s core slot line then s
  else { s with l1 := s.l1 ++ [{ core, slot, teams := team.toList, line, gen, owned := false, tracked, dirty := [], corr := [], poison := [] }] }

/-- R358: a line that a core holds serves only accesses that carry the generation it was filled with: one with another is written
back and dropped. -/
def staleLine (s : State) (core slot line : Nat) (gen : W16) : State :=
  if s.l1.any fun l => l.core == core && l.slot == slot && l.line == line && l.gen != gen then
    dropLines s fun l => l.core == core && l.slot == slot && l.line == line && l.gen != gen
  else s

/-- R283, R320: a team's private bytes lie in a line that its core holds. -/
def tagLine (s : State) (core slot line : Nat) (team : Option Nat) : State :=
  match team with
  | none => s
  | some t => { s with l1 := s.l1.map fun l =>
      if l.core == core && l.slot == slot && l.line == line && !l.teams.contains t then { l with teams := l.teams ++ [t] } else l }

/-- R361: the home of a line grants a core a tracked copy, owned or not: its directory entry names the core's cluster, the
cluster's filter entry the core; both become the most recently granted. -/
def grantLine (s : State) (core die line : Nat) (own : Bool) : State :=
  let cl := core / 8
  let d := (s.directory.find? fun d => d.die == die && d.region == line / 4).getD ⟨die, line / 4, [], none⟩
  let f := (s.filters.find? fun f => f.cluster == cl && f.line == line).getD ⟨cl, line, []⟩
  { s with
    directory := (s.directory.filter fun d => !(d.die == die && d.region == line / 4)) ++
      [{ d with clusters := BitSet.put d.clusters cl true, owner := if own then some cl else d.owner }]
    filters := (s.filters.filter fun f => !(f.cluster == cl && f.line == line)) ++ [{ f with cores := BitSet.put f.cores core true }] }

/-- Bytes stored into a line held by a core: owned for a shared page, private otherwise. Bytes of one line only. -/
def lineStore (s : State) (core slot : Nat) (team : Option Nat) (gen : W16) (tracked : Bool) (pa : Nat) (bs : List Byte)
    (src : Nat → Bool := fun _ => false) (pay : Charge := .own) : State :=
  let line := pa / 128
  let s := dropLines s (fun l => l.line == line && !(l.core == core && l.slot == slot)) pay
  let s := fillLine s core slot team line gen tracked
  { s with
    l1 := s.l1.map fun l =>
      if l.core == core && l.slot == slot && l.line == line then
        { l with owned := true,
                 dirty := (List.range bs.length).foldl (fun d i => KMap.put d (pa + i) (bs.getD i 0#8)) l.dirty,
                 corr := storePoison l.corr pa bs.length (fun _ => false), poison := storePoison l.poison pa bs.length (fun _ => false) }
      else l
    memPoison := storePoison s.memPoison pa bs.length src
    memCorr := storePoison s.memCorr pa bs.length fun _ => false }

/-! ### The memory map and translation -/

/-- R355: near memory of a die below its reserved base, or far memory below the checkpoint range. -/
def inMap (s : State) (pa n : Nat) : Bool :=
  let nrsv (d dflt : Nat) : Nat := ((KMap.get? s.dies d).map Die.nrsv).getD dflt
  pa + n ≤ nrsv 0 0x100000000 ||
    (0x100000000 ≤ pa && pa + n ≤ nrsv 1 0x200000000) ||
    (0x10000000000 ≤ pa && pa + n ≤ 0x1FC00000000)

/-- Whether an address is far memory (R355). -/
def isFar (pa : Nat) : Bool := 0x10000000000 ≤ pa && pa < 0x20000000000
/-- R284, R355: the home die of an address, given HDIE. -/
def homeDie (pa : Nat) (hdie : Bool) : Nat :=
  if isFar pa then (if hdie then 1 else 0) else if pa ≥ 0x100000000 then 1 else 0

/-- R358: the key of a frame's generation at a home. -/
def frameKey (pa die : Nat) : Nat := 2 * (pa / 4096) + die

/-- R395: the home of a byte of far memory that some context's page maps is die 1 only where die 0 holds no copy of its frame. -/
def homeOf (s : State) (pa : Nat) : Nat :=
  homeDie pa (BitSet.has s.absent (frameKey pa 0) && !BitSet.has s.absent (frameKey pa 1))

/-- R406: the words that n bytes at an address lie in lose their correctable errors: the marks left, and how many there were. -/
def correctWords (m : BitSet) (lo n : Nat) : BitSet × Nat :=
  let ws := (List.range (n / 4 + 2)).filterMap fun i =>
    if 4 * (lo / 4 + i) < lo + n && BitSet.has m (lo / 4 + i) then some (lo / 4 + i) else none
  (ws.foldl (fun m w => BitSet.put m w false) m, ws.length)

/-- R406: memory words read are corrected, written back and counted in DIECORR of their home. -/
def correctMem (s : State) (die pa n : Nat) : State :=
  let r := correctWords s.memCorr pa n
  if r.2 = 0 then s else ({ s with memCorr := r.1 } : State).bump .diecorr die r.2

/-- R406: memory words that an agent reads are corrected. -/
def correctBytes (s : State) (pas : List Nat) : State := pas.foldl (fun s pa => correctMem s (homeOf s pa) pa 1) s

/-- R400: whether a byte is owned by the secure world. -/
def isSecure (s : State) (pa : Nat) : Bool := s.secure.any fun r => r.base ≤ pa && pa < r.base + r.size

/-- What an access does (R353). -/
inductive Access where
  | read | write | exec
  deriving DecidableEq, Repr

/-- A translation's outcome: a physical address with its leaf, a peer window with an offset and its leaf, or a cause. -/
inductive Xlat where
  | ok (pa : Nat) (leaf : W64)
  | peer (window off : Nat) (leaf : W64)
  | fail (cause : Nat)
  deriving DecidableEq, Repr

/-- Field of a table entry. -/
def pteBit (e : W64) (k : Nat) : Bool := e.getLsbD k
/-- R352: FRAME as an address. -/
def pteFrame (e : W64) : Nat := (e.extractLsb' 12 36).toNat * 4096
/-- R352: GEN. -/
def pteGen (e : W64) : W16 := e.extractLsb' 48 16

/-- R354: the sixteen entries of a 64 KiB group agree with each other. -/
def groupOk (s : State) (table idx : Nat) : Bool :=
  let entry (j : Nat) : W64 := w64 (memNat s (table + 8 * (idx / 16 * 16 + j)) 8)
  let e0 := entry 0
  pteFrame e0 % 65536 == 0 &&
    (List.range 16).all fun j =>
      let e := entry j
      pteFrame e == pteFrame e0 + 4096 * j && pteGen e == pteGen e0 &&
        e.extractLsb' 0 12 == e0.extractLsb' 0 12 && pteBit e 6

/-- R353: the checks on a leaf at a level whose pages are `size` bytes. -/
def leafOk (s : State) (e : W64) (level size : Nat) : Bool :=
  let fr := pteFrame e
  let peer := pteBit e 7
  e.extractLsb' 9 3 == 0#3 &&
    (level == 3 || !pteBit e 6) &&
    (peer || !pteBit e 8 || isFar fr) &&
    (!(peer && pteBit e 8)) &&
    fr % size == 0 &&
    (peer || inMap s fr size)

/-- R353: the checks on a non-leaf entry. -/
def tableOk (s : State) (e : W64) (bytes : Nat) : Bool :=
  e.extractLsb' 48 16 == 0#16 && e.extractLsb' 2 10 == 0#10 && pteFrame e % bytes == 0 && inMap s (pteFrame e) bytes

/-- A walk from a level's table: the leaf with the bytes its page maps. -/
def walkFrom (s : State) (va : Nat) : Nat → Nat → Nat → Option (W64 × Nat)
  | 0, _, _ => none
  | fuel + 1, level, table =>
    let shift := 39 - 9 * level
    let idx := if level = 0 then va / 2 ^ 39 % 8192 else va / 2 ^ shift % 512
    let e := w64 (memNat s (table + 8 * idx) 8)
    if !pteBit e 0 then none
    else if pteBit e 1 then
      let size := 2 ^ shift
      if level = 0 || !leafOk s e level size || (level == 3 && pteBit e 6 && !groupOk s table idx) then none
      else some (e, size)
    else if level ≥ 3 || !tableOk s e 4096 then none
    else walkFrom s va fuel (level + 1) (pteFrame e)

/-- R351 to R353: the walk of a virtual address through a context's tables. -/
def walk (s : State) (ctx va : Nat) : Option (W64 × Nat) :=
  if va ≥ 2 ^ 52 then none
  else match KMap.get? s.ctxs ctx with
    | none => none
    | some c => walkFrom s va 4 0 c.m.troot.toNat

/-- R356: a walk by a cluster's walker, which takes non-leaf entries from its cache where they are there: the leaf with the bytes its
page maps, and the non-leaf entries that the walk read, as level, number and entry. -/
def walkVia (s : State) (cached : Nat → Nat → Option W64) (va : Nat) : Nat → Nat → Nat → Option (W64 × Nat) × List (Nat × Nat × W64)
  | 0, _, _ => (none, [])
  | fuel + 1, level, table =>
    let shift := 39 - 9 * level
    let idx := if level = 0 then va / 2 ^ 39 % 8192 else va / 2 ^ shift % 512
    let e := (cached level (va / 2 ^ shift)).getD (w64 (memNat s (table + 8 * idx) 8))
    if !pteBit e 0 then (none, [])
    else if pteBit e 1 then
      let size := 2 ^ shift
      if level = 0 || !leafOk s e level size || (level == 3 && pteBit e 6 && !groupOk s table idx) then (none, [])
      else (some (e, size), [])
    else if level ≥ 3 || !tableOk s e 4096 then (none, [])
    else
      let r := walkVia s cached va fuel (level + 1) (pteFrame e)
      (r.1, (level, va / 2 ^ shift, e) :: r.2)

/-- R356: the addresses of the table entries that a walk reads in memory: those it takes from a cache are none of them. -/
def walkReads (s : State) (cached : Nat → Nat → Option W64) (va : Nat) : Nat → Nat → Nat → List Nat
  | 0, _, _ => []
  | fuel + 1, level, table =>
    let shift := 39 - 9 * level
    let a := table + 8 * (if level = 0 then va / 2 ^ 39 % 8192 else va / 2 ^ shift % 512)
    let read := (cached level (va / 2 ^ shift)).isNone
    let e := (cached level (va / 2 ^ shift)).getD (w64 (memNat s a 8))
    (if read then [a] else []) ++
      if !pteBit e 0 || pteBit e 1 || level ≥ 3 || !tableOk s e 4096 then [] else walkReads s cached va fuel (level + 1) (pteFrame e)

/-- R406: the words of the table entries that a walk for a context reads are corrected. -/
def correctWalk (s : State) (cached : Nat → Nat → Option W64) (ctx va : Nat) : State :=
  match KMap.get? s.ctxs ctx with
  | none => s
  | some c => (walkReads s cached va 4 0 c.m.troot.toNat).foldl (fun s a => correctMem s (homeOf s a) a 8) s

/-- R356, R406: a walk for a core, with the non-leaf entries it read put into the cache of its cluster's walker. -/
def clusterWalk (s : State) (cluster ctx va : Nat) : Option (W64 × Nat) × State :=
  if va ≥ 2 ^ 52 then (none, s)
  else match KMap.get? s.ctxs ctx with
    | none => (none, s)
    | some c =>
      let cached (level index : Nat) : Option W64 :=
        (s.walkCache.find? fun e => e.cluster == cluster && e.ctx == ctx && e.level == level && e.index == index).map WalkEntry.entry
      let r := walkVia s cached va 4 0 c.m.troot.toNat
      (r.1, { correctWalk s cached ctx va with
        walkCache := s.walkCache ++ (r.2.map fun e => (⟨cluster, ctx, e.1, e.2.1, e.2.2⟩ : WalkEntry)).filter fun e => !s.walkCache.contains e })

/-- R353, R397, R398, R400: what a leaf of `size` bytes gives an access of a context. -/
def applyLeaf (s : State) (ctx va : Nat) (acc : Access) (leaf : W64) (size : Nat) : Xlat :=
  let secureCtx := ((KMap.get? s.ctxs ctx).map fun c => c.m.secure).getD false
  let sec := pteBit leaf 5
  let perm := match acc with
    | .read => pteBit leaf 2
    | .write => pteBit leaf 3
    | .exec => pteBit leaf 4
  if pteBit leaf 7 then
    let fr := pteFrame leaf
    let win := fr / 2 ^ 40 % 256
    let off := fr % 2 ^ 40 + va % size
    match KMap.get? s.windows win with
    | none => .fail 0x20
    | some w =>
      if w.ctx ≠ ctx || off ≥ w.length then .fail 0x20
      else if sec || secureCtx || !perm then .fail 0x21
      else .peer win off leaf
  else
    let pa := pteFrame leaf + va % size
    if isSecure s (pteFrame leaf) ≠ sec || isSecure s pa ≠ sec then .fail 0x20
    else if sec ≠ secureCtx || !perm then .fail 0x21
    else .ok pa leaf

/-- A translation straight from the tables: the command processor, the copy unit, network agents. -/
def translate (s : State) (ctx va : Nat) (acc : Access) : Xlat :=
  match walk s ctx va with
  | none => .fail 0x20
  | some (leaf, size) => applyLeaf s ctx va acc leaf size

/-- A translation for what an owner writes back or fills by itself: any permission serves (R221, R297). -/
def ownXlat (s : State) (ctx va : Nat) : Xlat :=
  match translate s ctx va .read with
  | .ok pa leaf => .ok pa leaf
  | _ => match translate s ctx va .write with
    | .ok pa leaf => .ok pa leaf
    | _ => translate s ctx va .exec

/-- R358: whether the home refuses an access that carries the leaf's generation. -/
def genRefused (s : State) (pa : Nat) (leaf : W64) : Bool :=
  let k := frameKey pa (homeDie pa (pteBit leaf 8))
  BitSet.has s.absent k || KMap.get s.gens 0#16 k ≠ pteGen leaf

/-- What an owner writes back or finds by itself at a virtual address: any permission serves, a frame that is absent or of another
generation does not (R221, R297, R345, R350, R358). -/
def ownPlace (s : State) (ctx va : Nat) : Option (Nat × W64) :=
  match ownXlat s ctx va with
  | .ok pa leaf => if genRefused s pa leaf then none else some (pa, leaf)
  | _ => none

/-- R358, R359: the same for an access of a core: a refusal is counted in GENREFUSE. -/
def corePlace (s : State) (core ctx va : Nat) : Option (Nat × W64) × State :=
  match ownXlat s ctx va with
  | .ok pa leaf => if genRefused s pa leaf then (none, s.bump .genrefuse core) else (some (pa, leaf), s)
  | _ => (none, s)

/-- The cached translation of a page (R356). -/
def tlbFind (s : State) (core ctx va : Nat) : Option TlbEntry :=
  s.tlb.find? fun e => e.core == core && e.ctx == ctx && e.vpage ≤ va / 4096 && va / 4096 < e.vpage + e.pages

/-- R356: a leaf put into a core's translation cache. -/
def tlbPut (s : State) (core ctx va : Nat) (leaf : W64) (size : Nat) : State :=
  let keep := s.tlb.filter fun e => !(e.core == core && e.ctx == ctx && e.vpage ≤ va / 4096 && va / 4096 < e.vpage + e.pages)
  { s with tlb := { core, ctx, vpage := va / size * (size / 4096), pages := size / 4096, leaf } :: keep }

/-- The outcome of a core's translation: waiting for a walk, or an outcome with the state after it. -/
inductive CoreXlat where
  | miss (s : State)
  | done (x : Xlat) (s : State)

/-- R356: a walk is asked for once. -/
def askWalk (s : State) (core ctx va : Nat) : State :=
  let w : Walk := { cluster := core / 8, core, ctx, vpage := va / 4096, done := false }
  if s.walks.contains w then s else { s with walks := s.walks ++ [w] }

/-- R356 to R359: an access of a core: from its translation cache, refused generations walked again. -/
def coreXlat (s : State) (core ctx va : Nat) (acc : Access) : CoreXlat :=
  if va ≥ 2 ^ 52 then .done (.fail 0x20) s else
  let failed := s.walks.any fun w => w.done && w.core == core && w.ctx == ctx && w.vpage == va / 4096
  match tlbFind s core ctx va with
  | none =>
    if failed then
      -- R357: a table changed since that walk is walked again
      match walk s ctx va with
      | none => .done (.fail 0x20) s
      | some _ =>
        let s := { s with walks := s.walks.filter fun w => !(w.done && w.core == core && w.ctx == ctx && w.vpage == va / 4096) }
        .miss (askWalk s core ctx va)
    else .miss (askWalk s core ctx va)
  | some e =>
    match applyLeaf s ctx va acc e.leaf (e.pages * 4096) with
    | .ok pa leaf =>
      if acc ≠ .exec && genRefused s pa leaf then
        let s := s.bump .genrefuse core
        let s := { s with tlb := s.tlb.filter fun x => x ≠ e }
        match walk s ctx va with
        | none => .done (.fail 0x20) s
        | some (leaf', size') =>
          if pteFrame leaf' = pteFrame leaf && pteGen leaf' = pteGen leaf then .done (.fail 0x20) s
          else
            match applyLeaf s ctx va acc leaf' size' with
            | .ok pa' l' => if genRefused s pa' l' then .done (.fail 0x20) s else .done (.ok pa' l') (tlbPut s core ctx va leaf' size')
            | x => .done x (tlbPut s core ctx va leaf' size')
      else .done (.ok pa leaf) s
    | x => .done x s

/-- An access of the command processor, the copy unit or a network agent: refused generations are walked again, which reads
the current leaf (R359). -/
def agentXlat (s : State) (ctx va : Nat) (acc : Access) : Xlat :=
  match translate s ctx va acc with
  | .ok pa leaf => if genRefused s pa leaf then .fail 0x20 else .ok pa leaf
  | x => x

/-- The pieces of n bytes at an address, cut at 4 KiB pages. -/
def pagePieces (va n : Nat) : List (Nat × Nat) :=
  let first := min n (4096 - va % 4096)
  if n = 0 then [] else
  (va, first) :: (List.range ((n - first + 4095) / 4096)).map fun i =>
    (va + first + 4096 * i, min 4096 (n - first - 4096 * i))

/-- The physical address of each byte of an agent's access, or the cause it fails with. Peer windows fail with PROTECTION. -/
def agentBytes (s : State) (ctx va n : Nat) (acc : Access) : Except Nat (List Nat) :=
  (pagePieces va n).foldl (fun r p => match r with
    | .error c => .error c
    | .ok l => match agentXlat s ctx p.1 acc with
      | .ok pa _ => .ok (l ++ (List.range p.2).map (pa + ·))
      | .peer _ _ _ => .error 0x21
      | .fail c => .error c) (.ok [])

/-- An agent's read of n bytes. -/
def agentRead (s : State) (ctx va n : Nat) : Except Nat (List Byte) :=
  match agentBytes s ctx va n .read with
  | .error c => .error c
  | .ok l => .ok (l.map (memByte s))

/-- R406: the correctable words of the tables that an agent's access walks are corrected. -/
def walkCorrect (s : State) (ctx va : Nat) : State := correctWalk s (fun _ _ => none) ctx va

/-- R406: so are those of its memory that an access of n bytes reads at its home. -/
def correctAt (s : State) (ctx va pa : Nat) (leaf : W64) (n : Nat) : State := correctMem (walkCorrect s ctx va) (homeDie pa (pteBit leaf 8)) pa n

/-- An agent's store at the home; it is no store of a task (R11). -/
def agentWrite (s : State) (ctx va : Nat) (bs : List Byte) (pay : Charge := .of ctx) : Except Nat State :=
  match agentBytes s ctx va bs.length .write with
  | .error c => .error c
  | .ok l => match l with
    | [] => .ok s
    | _ =>
      let s' := ((pagePieces va bs.length).foldl (fun (a : State × Nat) p =>
        (homeStore (walkCorrect a.1 ctx p.1) (l.getD a.2 0) ((bs.drop a.2).take p.2) (pay := pay), a.2 + p.2)) (s, 0)).1
      .ok { s' with codeBy := s'.codeBy.filter fun e => !l.contains e.1 }

/-! ### Record rings and logs -/

/-- The outcome of offering a record: the ring and the state after it, whether it was written, whether it was dropped for want of room, and whether the ring
failed. -/
structure RingOut where
  ring : Ring
  s : State
  written : Bool
  dropped : Bool
  fault : Bool

/-- R405: the units of a record written in order; those written before one that fails stand. -/
def putUnits (s : State) (ctx : Nat) : List (Nat × List Byte) → State × Bool
  | [] => (s, true)
  | (a, bs) :: t => match agentWrite s ctx a bs with
    | .ok s' => putUnits s' ctx t
    | .error _ => (s, false)

/-- R405: a record that a ring drops. -/
def ringDrop (s : State) (ctx : Nat) (r : Ring) : RingOut :=
  let r := { r with dropped := r.dropped + 1 }
  match agentWrite s ctx (r.header + 24) (leBytes 8 r.dropped) with
  | .ok s => ⟨r, s, false, true, false⟩
  | .error _ => ⟨{ r with disabled := true }, s, false, true, true⟩

/-- R404, R405: a record of whole units offered to a ring of a context; z is the unit size. -/
def ringOffer (s : State) (ctx z : Nat) (r : Ring) (rec_ : List Byte) : RingOut :=
  if r.disabled then ⟨r, s, false, false, false⟩ else
  let u := rec_.length / z
  match agentRead s ctx (r.header + 16) 8 with
  | .error _ => ⟨{ r with disabled := true }, s, false, false, true⟩
  | .ok rd =>
    let read := leVal rd
    if read > r.written then ⟨{ r with disabled := true }, s, false, false, true⟩
    else if r.written + u - read > 2 ^ r.log2n then ringDrop s ctx r
    else
      match putUnits s ctx ((List.range u).map fun i =>
          (r.header + 64 + z * ((r.written + i) % 2 ^ r.log2n), (rec_.drop (z * i)).take z)) with
      | (s', false) => ⟨{ r with disabled := true }, s', false, false, true⟩
      | (s', true) => match agentWrite s' ctx (r.header + 8) (leBytes 8 (r.written + u)) with
        | .error _ => ⟨{ r with disabled := true }, s', false, false, true⟩
        | .ok s'' => ⟨{ r with written := r.written + u }, s'', true, false, false⟩

/-- R410: the 32 bytes of an entry. -/
def LogEntry.bytes (e : LogEntry) : List Byte :=
  leBytes 8 (e.type + 256 * e.cause + 2 ^ 16 * e.ctx + 2 ^ 32 * e.taskid.toNat) ++ leBytes 8 e.addr ++ leBytes 8 e.tick ++
    leBytes 8 (e.core + (if e.phys then 64 else 0) + 128 * e.die + 256 * (e.info % 2 ^ 32))

/-- R412: an entry of the module log, which keeps the last 4,096. -/
def logModule (s : State) (e : LogEntry) : State :=
  let l := s.modLog ++ [e]
  let s := { s with modLogCount := s.modLogCount + 1 }
  if l.length > 4096 then ({ s with modLog := l.drop 1 } : State).bump .loglost 0 else { s with modLog := l }

/-- An empty entry at a tick. -/
def LogEntry.at (tick type : Nat) : LogEntry :=
  { type, cause := 0, ctx := 0, taskid := 0#32, addr := 0, tick, core := 0, phys := false, die := 0, info := 0 }

/-- An empty entry of an event on a core, with the core's die. -/
def LogEntry.onCore (tick type core : Nat) : LogEntry := { LogEntry.at tick type with core, die := core / 32 }

/-- R405, R410: a ring of a context that fails is disabled and said so in the module log; a trace ring's entry names its die. -/
def ringFault (s : State) (ctx header kind : Nat) (die : Nat := 0) : State :=
  logModule s { LogEntry.at s.tick 0x0B with ctx, addr := header, die, info := kind }

/-- R410, R411: an entry (or two, as one record) offered to a context's error log. -/
def logCtx (s : State) (ctx : Nat) (es : List LogEntry) : State :=
  match KMap.get? s.ctxs ctx with
  | none => s
  | some c => match c.errRing with
    | none => s
    | some r =>
      let out := ringOffer s ctx 32 r (es.flatMap LogEntry.bytes)
      let s := { out.s with ctxs := KMap.modify out.s.ctxs ctx fun c => { c with errRing := some out.ring } }
      let s := if out.dropped then s.bump .logdrop ctx else s
      if out.fault then ringFault s ctx r.header 0 else s

/-- R311, R406, R411: a memory word becomes poisoned, is counted and logged in the module log. -/
def poisonNew (s : State) (word structureCode die : Nat) : State :=
  let s := { s with memPoison := BitSet.put s.memPoison word true }
  let s := s.bump .poisonnew die
  logModule s { LogEntry.at s.tick 0x01 with addr := 4 * word, phys := true, die, info := structureCode }

end Sys2Proof.Machine
end

