-- ==== Sys2Proof/Machine/Access.lean ====
section
/-! DEFINITION. Regions and page classes (R294 to R299, R332), the accesses of gangs at their coherence points (R283 to R290),
atomics, row operations, signal and barrier objects (R223 to R227, R237 to R247), and the completion of an unclassified issue
with its held stores and revalidated loads (R289). -/

namespace Sys2Proof.Machine

/-- The task of a slot. -/
def State.task? (s : State) (slot : Nat) : Option Task := KMap.get? s.tasks slot
/-- The resident team of a key. -/
def State.team? (s : State) (t : Nat) : Option Team := KMap.get? s.teams t
/-- Update of a task slot. -/
def State.setTask (s : State) (slot : Nat) (t : Task) : State := { s with tasks := KMap.put s.tasks slot t }
/-- Update of a team. -/
def State.setTeam (s : State) (k : Nat) (t : Team) : State := { s with teams := KMap.put s.teams k t }

/-- A half of a team. -/
def Team.half? (t : Team) (h : Nat) : Option Half := t.halves[h]?
/-- Update of a half. -/
def Team.setHalf (t : Team) (h : Nat) (x : Half) : Team :=
  { t with halves := t.halves.set h x }

/-- R294: the owner number of a team or half. -/
def ownerOf (index half : Nat) : Nat := 2 * index + half

/-! ### Region records -/

/-- Whether a record covers a byte. -/
def Region.covers (r : Region) (va : Nat) : Bool := r.base ≤ va && va < r.base + r.extent
/-- Whether a record covers a byte of a page. -/
def Region.onPage (r : Region) (p : Nat) : Bool := r.base < (p + 1) * 4096 && p * 4096 < r.base + r.extent

/-- The 128-byte blocks of n bytes at an address; records are whole blocks (R332). -/
def blocksOf (va n : Nat) : List Nat := (List.range ((va + n - 1) / 128 + 1 - va / 128)).map (va / 128 + ·)

/-- R264, R329: the private areas of a task. -/
def TaskRec.privBytes (r : TaskRec) : Nat := r.nx * r.ny * r.nz * r.gangs * r.width * r.privw * 4
/-- Whether a byte lies in a private area of the task. -/
def TaskRec.isPriv (r : TaskRec) (va : Nat) : Bool :=
  r.privBase.toNat ≤ va && va < r.privBase.toNat + r.privBytes

/-- R333: every byte declared for reading, and outside private areas (R213). -/
def TaskRec.declRead (r : TaskRec) (va n : Nat) : Bool :=
  (blocksOf va n).all (fun b => r.regions.any fun g => (g.read || g.write) && g.covers (b * 128)) &&
    !(n ≠ 0 && r.privBytes ≠ 0 && va < r.privBase.toNat + r.privBytes && r.privBase.toNat < va + n)
/-- R333: every byte declared for writing, and outside private areas (R213). -/
def TaskRec.declWrite (r : TaskRec) (va n : Nat) : Bool :=
  (blocksOf va n).all (fun b => r.regions.any fun g => g.write && g.covers (b * 128)) &&
    !(n ≠ 0 && r.privBytes ≠ 0 && va < r.privBase.toNat + r.privBytes && r.privBase.toNat < va + n)

/-- R213, R329: whether n bytes touch a private area of the task. -/
def TaskRec.meetsPriv (r : TaskRec) (va n : Nat) : Bool :=
  n ≠ 0 && r.privBytes ≠ 0 && va < r.privBase.toNat + r.privBytes && r.privBase.toNat < va + n

/-- R213, R256, R329: whether n bytes touch a private area of a gang: of the task, or of another task of the context that runs (log
entry 92). -/
def meetsPriv (s : State) (ctx : Nat) (r : TaskRec) (va n : Nat) : Bool :=
  r.meetsPriv va n || s.tasks.any fun e => e.2.ctx == ctx && e.2.stage == .running && e.2.rec_.meetsPriv va n

/-- R213, R329, R333: whether a task of a context may read n bytes, or write them, as declared. -/
def mayRead (s : State) (ctx : Nat) (r : TaskRec) (va n : Nat) : Bool := r.declRead va n && !meetsPriv s ctx r va n
def mayWrite (s : State) (ctx : Nat) (r : TaskRec) (va n : Nat) : Bool := r.declWrite va n && !meetsPriv s ctx r va n

/-- R294: the initial class of a page. -/
def TaskRec.initialClass (r : TaskRec) (p : Nat) : PageClass :=
  let here := r.regions.filter fun g => g.onPage p
  if here.any (·.concurrent) then .shared
  else if (List.range 32).all (fun b =>
      let va := p * 4096 + 128 * b
      let cov := here.filter fun g => g.covers va
      cov.isEmpty || cov.any (·.write)) then .untouched
  else .readOnly

/-- The class of a page in a task's class map (R294, R295). -/
def Task.classOf (t : Task) (p : Nat) : PageClass := (KMap.get? t.classes p).getD (t.rec_.initialClass p)

/-- R295: a page's class recorded, a transition to shared counted. -/
def Task.setClass (t : Task) (p : Nat) (c : PageClass) : Task :=
  { t with classes := KMap.put t.classes p c,
           reclass := if c = .shared && t.classOf p ≠ .shared then t.reclass + 1#64 else t.reclass }

/-! ### Who makes an access -/

/-- A party of a task: its core, context, slot, team, half and the gang. -/
structure Who where
  g : GangRef
  core : Nat
  ctx : Nat
  slot : Nat
  team : Nat
  index : Nat
  half : Nat
  deriving DecidableEq, Repr

/-- The party of a resident gang. -/
def State.who (s : State) (g : GangRef) : Option Who :=
  match s.gang? g with
  | none => none
  | some x => match s.team? x.team with
    | none => none
    | some t => some { g, core := g.core, ctx := t.ctx, slot := t.slot, team := x.team, index := t.index, half := x.half }

/-- Whether an address of an access is private to the party's own team (R294). -/
def Who.owner (w : Who) : Nat := ownerOf w.index w.half

/-! ### Bytes of accesses -/

/-- A byte of a team's scratchpad (R264: 0 where nothing was written). -/
def scratchByte (s : State) (team half off : Nat) : Byte :=
  match s.team? team with
  | none => 0#8
  | some t => match t.half? half with
    | none => 0#8
    | some h => KMap.get h.bytes 0#8 off

/-- Bytes of scratchpad. -/
def scratchBytes (s : State) (team half off n : Nat) : List Byte :=
  (List.range n).map fun i => scratchByte s team half (off + i)

/-- Whether a byte of scratchpad lies in a poisoned word. -/
def scratchPoisoned (s : State) (team half off : Nat) : Bool :=
  match (s.team? team).bind (·.half? half) with
  | none => false
  | some h => BitSet.has h.poison (off / 4)

/-- Bytes stored into scratchpad, as far as it reaches (R279), with the poison of their source words (R311). -/
def scratchStore (s : State) (team half off : Nat) (bs : List Byte) (src : Nat → Bool := fun _ => false) : State :=
  match s.team? team with
  | none => s
  | some t => match t.half? half with
    | none => s
    | some h =>
      let bs := bs.take (65536 * h.scratchUnits.length - off)
      s.setTeam team (t.setHalf half
        { h with bytes := (List.range bs.length).foldl (fun m i => KMap.set m 0#8 (off + i) (bs.getD i 0#8)) h.bytes,
                 poison := storePoison h.poison off bs.length src, corr := storePoison h.corr off bs.length fun _ => false })

/-- Whether two accesses reach the same space. -/
def Space.sameAs (a b : Space) : Bool := match a, b with
  | .scratch h, .scratch k => h == k
  | .scratch _, _ => false
  | _, .scratch _ => false
  | _, _ => true

/-- The place of an access's byte 0: a scratchpad offset or a physical address. -/
def LaneAcc.place (a : LaneAcc) : Nat := match a.space with
  | .scratch _ => a.va
  | _ => a.pa

/-- R288, R289: the held stores of a gang that are older than its issue of a number. -/
def olderStores (hs : List HeldStore) (n : Nat) : List HeldStore := hs.filter fun h => h.op.fill < n

/-- R289: the byte of a gang's own latest held store. -/
def heldByte : List HeldStore → Space → Nat → Option Byte
  | [], _, _ => none
  | h :: t, sp, at_ => match heldByte t sp at_ with
    | some b => some b
    | none => h.op.accs.foldl (fun r a =>
        if a.space.sameAs sp && a.place ≤ at_ && at_ < a.place + a.size then some (a.data.getD (at_ - a.place) 0#8) else r) none

/-- R311, R407: whether the copy of a word that a core holds for a task slot is poisoned. -/
def copyPoisoned (s : State) (core slot pa : Nat) : Bool :=
  s.l1.any fun l => l.core == core && l.slot == slot && l.line == pa / 128 && BitSet.has l.poison (pa / 4)

/-- The bytes an access of the gang's issue of number n reads at its coherence point, and whether each lies in a poisoned word (R217,
R311): its own older held stores come first (R288, R289); for a peer access the bytes that came back. -/
def readAcc (s : State) (w : Who) (n : Nat) (a : LaneAcc) : List (Byte × Bool) :=
  let held := olderStores (((s.gang? w.g).map Gang.heldStores).getD []) n
  if a.peer.isSome then a.data2.map (·, a.bad) else
  (List.range a.size).map fun i =>
    match heldByte held a.space (a.place + i) with
    | some b => (b, false)
    | none => match a.space with
      | .scratch h => (scratchByte s w.team h (a.va + i), scratchPoisoned s w.team h (a.va + i))
      | _ => (memByte s (a.pa + i), wordPoisoned s ((a.pa + i) / 4) || copyPoisoned s w.core w.slot (a.pa + i))

/-- R55, R406: words of a copy that a core holds are corrected and counted in ECCCORR. -/
def correctCopy (s : State) (core slot pa n : Nat) : State :=
  let mine (l : L1Line) : Bool := l.core == core && l.slot == slot && pa / 128 ≤ l.line && l.line ≤ (pa + n - 1) / 128
  let k := ((s.l1.filter mine).map fun l => (correctWords l.corr pa n).2).foldl (· + ·) 0
  if k = 0 then s
  else ({ s with l1 := s.l1.map fun l => if mine l then { l with corr := (correctWords l.corr pa n).1 } else l } : State).bump .ecccorr core k

/-- R55, R406: words of a scratchpad are corrected and counted in ECCCORR of the core. -/
def correctScratch (s : State) (core team half off n : Nat) : State :=
  match s.team? team with
  | none => s
  | some t => match t.half? half with
    | none => s
    | some h =>
      let r := correctWords h.corr off n
      if r.2 = 0 then s else (s.setTeam team (t.setHalf half { h with corr := r.1 })).bump .ecccorr core r.2

/-- R406: words of the die-level cache of a core's die are corrected and counted in DIECORR where the core, which holds no copy of its own,
reads them there. -/
def correctDie (s : State) (core slot pa n : Nat) : State :=
  let die := core / 32
  let ws := (List.range (n / 4 + 2)).filterMap fun i =>
    let w := pa / 4 + i
    if 4 * w < pa + n && BitSet.has s.dieCache (2 * (w / 32) + die) && BitSet.has s.dieCorr (2 * w + die) && !holdsLine s core slot (w / 32) then
      some (2 * w + die)
    else none
  if ws.isEmpty then s
  else ({ s with dieCorr := ws.foldl (fun m k => BitSet.put m k false) s.dieCorr } : State).bump .diecorr die ws.length

/-- R220, R345: a line put into the die-level cache of a die; a new copy has no error of an earlier one. -/
def putDieLine (s : State) (die line : Nat) : State :=
  if BitSet.has s.dieCache (2 * line + die) then s
  else { s with dieCache := BitSet.put s.dieCache (2 * line + die) true,
                dieCorr := s.dieCorr.filter fun e => !(e.1 / 64 == line && e.1 % 2 == die) }

/-- R406: the words that an access reads are corrected where they hold a correctable error. -/
def correctAcc (s : State) (w : Who) (a : LaneAcc) : State :=
  if a.peer.isSome then s
  else match a.space with
    | .scratch h => correctScratch s w.core w.team h a.va a.size
    | _ => correctMem (correctDie (correctCopy s w.core w.slot a.pa a.size) w.core w.slot a.pa a.size) (homeDie a.pa (pteBit a.leaf 8)) a.pa a.size

/-- R11: a task of an acceptance order stores a byte, which was b before; one that stored it last is named already. -/
def noteByte (m : KMap (List (Nat × Byte))) (order pa : Nat) (b : Byte) : KMap (List (Nat × Byte)) :=
  let l := KMap.get m [] pa
  if (l.getLast?.map Prod.fst) == some order then m else KMap.put m pa (l ++ [(order, b)])

/-- R11: bytes that a task is about to store, kept as they were before its store. -/
def noteStore (s : State) (slot pa n : Nat) : State :=
  match s.task? slot with
  | none => s
  | some t => { s with codeBy := (List.range n).foldl (fun m i => noteByte m t.order (pa + i) (memByte s (pa + i))) s.codeBy }

/-- R11: a byte as fetches of a task find it that see the stores of some tasks: what follows the last of those stores; cur is what was
there before the listed ones, now what is there after them. -/
def seenFrom (sees : Nat → Bool) (now : Byte) : Byte → List (Nat × Byte) → Byte
  | cur, [] => cur
  | cur, [e] => if sees e.1 then now else cur
  | cur, e :: x :: t => seenFrom sees now (if sees e.1 then x.2 else cur) (x :: t)

/-- R11: a byte of memory as fetches find it that see the stores of some tasks. -/
def codeByte (s : State) (sees : Nat → Bool) (pa : Nat) : Byte :=
  match KMap.get s.codeBy [] pa with
  | [] => memByte s pa
  | e :: t => seenFrom sees (memByte s pa) e.2 (e :: t)

/-- The part of an access's bytes that lies in line k: its first address and its bytes. -/
def linePart (pa size : Nat) (data : List Byte) (k : Nat) : Nat × List Byte :=
  let lo := max pa (k * 128)
  let hi := min (pa + size) ((k + 1) * 128)
  (lo, (data.drop (lo - pa)).take (hi - lo))
/-- R283, R361: the team whose private bytes an access reaches, and whether the directory tracks its lines: those of shared pages,
and those of untouched pages that an unclassified access claims. -/
def lineTag (s : State) (w : Who) (claims : List Nat) (a : LaneAcc) : Option Nat × Bool :=
  match a.space with
  | .global =>
    let shared := match s.task? w.slot with
      | some t => t.classOf (a.va / 4096) == .shared
      | none => true
    (if shared then none else some w.team, shared || claims.contains (a.va / 4096))
  | _ => (some w.team, false)

/-- R384: a line that a core does not hold yet crosses its port to be filled. -/
def crossFill (s : State) (w : Who) (line : Nat) : State :=
  if holdsLine s w.core w.slot line then s else portCross s w.core w.ctx

/-- R283, R284, R343, R358, R361: the part of an access's bytes that lies in one line stored into the core's copy. -/
def storeLine (s : State) (w : Who) (tag : Option Nat × Bool) (unc : Bool) (leaf : W64) (pa : Nat) (bs : List Byte) : State :=
  let s := staleLine s w.core w.slot (pa / 128) (pteGen leaf)
  let s := if unc then s else crossFill s w (pa / 128)
  let s := lineStore s w.core w.slot tag.1 (pteGen leaf) tag.2 pa bs (pay := .of w.ctx)
  let s := tagLine s w.core w.slot (pa / 128) tag.1
  if tag.2 then grantLine s w.core (homeDie pa (pteBit leaf 8)) (pa / 128) true else s

/-- R283, R284, R343: the bytes of an access stored at its coherence point, one line at a time; unc is an access of an unclassified
issue, which has claimed pages. -/
def storeAcc (s : State) (w : Who) (unc : Bool) (claims : List Nat) (a : LaneAcc) : State :=
  if a.peer.isSome then s else
  match a.space with
  | .scratch h => scratchStore s w.team h a.va a.data
  | _ =>
    let tag := lineTag s w claims a
    (List.range ((a.pa + a.size - 1) / 128 + 1 - a.pa / 128)).foldl (fun s j =>
      let p := linePart a.pa a.size a.data (a.pa / 128 + j)
      storeLine s w tag unc a.leaf p.1 p.2) s

/-! ### Atomic events -/

/-- R223: the new word of a binary32 atomic. -/
def atomFloat (op old b : Nat) : Nat :=
  match op with
  | 0 => (f32.sum false 0 [f32.unpack old, f32.unpack b]).1
  | 1 => (f32.minMax false false false old b).1
  | 2 => (f32.minMax false true false old b).1
  | _ => b
/-- R223: the new word of an integer atomic of type code t. -/
def atomInt (t op old b : Nat) : Nat :=
  match op with
  | 0 => (old + b) % 2 ^ typeWidth t
  | 1 => if intElem t old ≤ intElem t b then old else b
  | 2 => if intElem t old ≥ intElem t b then old else b
  | 3 => old &&& b
  | 4 => old ||| b
  | 5 => old ^^^ b
  | _ => b
/-- R223: the new word of an atomic of type code t; op 0 ADD, 1 MIN, 2 MAX, 3 AND, 4 OR, 5 XOR, 6 XCHG. -/
def atomNew (t op old b : Nat) : Nat := if t = 8 then atomFloat op old b else atomInt t op old b

/-- R223, R225, R285: a read-modify-write event at the home: the old bytes, whether poisoned, and the state after it. A
poisoned word is left unchanged. -/
def homeEvent (s : State) (pa n : Nat) (f : Nat → Nat) (pay : Charge := .own) : Nat × Bool × State :=
  let s := recallLines s pa n pay
  let old := memNat s pa n
  if memPoisoned s pa n then (old, true, s) else (old, false, homeStore s pa (leBytes n (f old)))

/-- R223: the same at the issuing core's scratchpad. -/
def scratchEvent (s : State) (team half off n : Nat) (f : Nat → Nat) : Nat × Bool × State :=
  let old := leVal (scratchBytes s team half off n)
  if (List.range n).any fun i => scratchPoisoned s team half (off + i) then (old, true, s)
  else (old, false, scratchStore s team half off (leBytes n (f old)))

/-- R226: one BF16 element of a row plus x. -/
def rowSum (old x : Nat) : Nat := (bf16.sum false 0 [bf16.unpack old, bf16.unpack x]).1

/-- R226: ROWADD at the home: each word not poisoned is updated; whether a row word and whether the version word is poisoned. -/
def rowAddEvent (s : State) (pa : Nat) (xs : List Nat) (vpa : Nat) (pay : Charge) : Bool × Bool × State :=
  let n := 2 * xs.length
  let s := recallLines (recallLines s pa n pay) vpa 4 pay
  let bad (a : Nat) : Bool := BitSet.has s.memPoison (a / 4)
  let anyBad := (List.range xs.length).any fun i => bad (pa + 2 * i)
  let s' := (List.range xs.length).foldl (fun (m : State) i =>
    if bad (pa + 2 * i) then m
    else { m with mem := putBytes m.mem (pa + 2 * i) (leBytes 2 (rowSum (memNat s (pa + 2 * i) 2) (xs.getD i 0))) }) s
  let s'' := if bad vpa then s'
    else if pa ≤ vpa && vpa < pa + n then
      -- no rule says which of the two new values a version word inside its own row takes (log entry 13)
      { s' with mem := putBytes s'.mem vpa (leBytes 4 (Config.rowOverlap s.freeCtr).toNat), freeCtr := s.freeCtr + 1 }
    else { s' with mem := putBytes s'.mem vpa (leBytes 4 (memNat s vpa 4 + 1)) }
  (anyBad, bad vpa, s'')

/-- R237: COUNT and ERR of a signal object. -/
def sigCount (x : Nat) : Nat := x % 2 ^ 48
def sigErr (x : Nat) : Nat := x / 2 ^ 48 % 256

/-- R236, R349: a signal update: COUNT + 1, and ERR when an error is given and ERR is 0, or whatever ERR holds when the update sets
it unconditionally (R334, R337, R348). -/
def sigUpdate (err x : Nat) (set : Bool := false) : Nat :=
  let c := (sigCount x + 1) % 2 ^ 48
  let e := if err ≠ 0 && (set || sigErr x = 0) then err else sigErr x
  c + 2 ^ 48 * e + 2 ^ 56 * (x / 2 ^ 56)

/-- R239: SIGT's new word. -/
def sigtNew (b x : Nat) : Nat :=
  if sigErr x = 0 && sigCount x ≥ b then x - b else x

/-- R240: SIGS's new word: ADD or SET. -/
def sigsNew (set : Bool) (b x : Nat) : Nat :=
  if set then b else (sigCount x + b % 2 ^ 48) % 2 ^ 48 + 2 ^ 48 * (x / 2 ^ 48)

/-- R245, R246: BOA's new word, none when malformed. -/
def boaNew (x : Nat) : Option Nat :=
  let phase := x / 2 ^ 63
  let expect := x / 2 ^ 32 % 2 ^ 31
  let pending := x % 2 ^ 32
  if expect = 0 || pending = 0 then none
  else if pending = 1 then some (expect + 2 ^ 32 * expect + 2 ^ 63 * (1 - phase))
  else some (pending - 1 + 2 ^ 32 * expect + 2 ^ 63 * phase)

/-! ### Results of loads -/

/-- R211, R216, R223: the register image of the bytes of one lane, with a poison bit per word: two registers for `.X2`. -/
def loadImage (i : Instr) (f : Fields) (bs : List (Byte × Bool)) : List (W64 × BitVec 2) :=
  let word (o : Nat) : W64 × BitVec 2 :=
    let b := (bs.drop o).take 8
    let p (k : Nat) : Bool := ((b.drop (4 * k)).take 4).any Prod.snd
    (w64 (leVal (b.map Prod.fst)), BitVec.ofBool (p 1) ++ BitVec.ofBool (p 0))
  let sized : Bool := match i with
    | .ld _ | .lds _ | .ldx _ | .ldk _ => true
    | _ => false
  if sized && f.variant = 2 then [word 0, word 8]
  else if sized && f.variant = 1 then
    let x := leVal (bs.map Prod.fst)
    let w := typeWidth f.tcode
    let img := if typeIsSigned f.tcode then BitVec.ofInt 64 (signExt x w) else w64 x
    [(img, if bs.any Prod.snd then 1#2 else 0#2)]
  else [word 0]

/-- R210, R217: the writes of a load's destination for the bytes of a lane. -/
def destWrites (i : Instr) (f : Fields) (lane : Nat) (bs : List (Byte × Bool)) : List RegWrite :=
  let imgs := loadImage i f bs
  let d := f.d.toNat
  (List.range imgs.length).map fun j =>
    let v := imgs.getD j (0#64, 0#2)
    if d < 0x600 then RegWrite.v (d + j) lane v.1 v.2 else RegWrite.s (d - 0x600 + j) v.1 v.2

/-- The bytes of the accesses of each lane, in lane order, joined (R216). -/
def byLane (accs : List LaneAcc) (r : LaneAcc → List (Byte × Bool)) : List (Nat × List (Byte × Bool)) :=
  accs.foldl (fun l a => match l.getLast? with
    | some (k, b) => if k = a.lane then l.dropLast ++ [(k, b ++ r a)] else l ++ [(a.lane, r a)]
    | none => [(a.lane, r a)]) []

/-- Number and poison as bytes. -/
def tagBytes (n x : Nat) (p : Bool) : List (Byte × Bool) := (leBytes n x).map (·, p)

/-! ### A pending issue performed -/

/-- R43: fields of a view descriptor. -/
def viewBase (d : W64) : Nat := (d.extractLsb' 9 11).toNat
def viewRows (d : W64) : Nat := (d.extractLsb' 20 8).toNat
def viewCols (d : W64) : Nat := (d.extractLsb' 28 8).toNat
def viewFmt (d : W64) : Nat := (d.extractLsb' 4 5).toNat
def viewKind (d : W64) : Nat := (d.extractLsb' 0 4).toNat
def viewLayout (d : W64) : Nat := (d.extractLsb' 44 4).toNat
def viewNidx (d : W64) : Nat := (d.extractLsb' 36 4).toNat
def viewSoff (d : W64) : Int := signExt (d.extractLsb' 36 8).toNat 8

/-- R44: bytes of a view's string. -/
def viewBytes (d : W64) : Nat :=
  if viewKind d = 3 then 32 * viewCols d else fmtBytesOf (viewFmt d) (viewRows d * viewCols d)
where
  /-- Bytes of n elements of a FMT. -/
  fmtBytesOf (fmt n : Nat) : Nat :=
    if fmt = 5 then n / 16 * 18 else if fmt = 6 then n / 16 * 12 else if fmt = 7 then n / 16 * 8
    else if fmt = 0 || fmt = 4 then 4 * n else if fmt = 3 then n else 2 * n
/-- R44: registers a view covers. -/
def viewRegs (d : W64) (width : Nat) : Nat := (viewBytes d + 8 * width - 1) / (8 * width)

/-- Value of a V register lane in the file. -/
def Gang.vReg (g : Gang) (k l : Nat) : W64 := KMap.get g.v 0#64 (k * g.width + l)

/-- R44, R47: the writes of a view from its byte string: every register it covers in every lane, of which only the bytes of the
string are written. -/
def viewWrites (g : Gang) (d : W64) (bytes : List (Byte × Bool)) : List RegWrite :=
  (List.range (viewRegs d g.width * g.width)).map fun c =>
    let part := (bytes.drop (8 * c)).take 8
    let val := w64 (leVal (part.map Prod.fst))
    let bad (h : Nat) : Bool := ((part.drop (4 * h)).take 4).any Prod.snd
    let p : BitVec 2 := BitVec.ofBool (bad 1) ++ BitVec.ofBool (bad 0)
    if part.length = 8 then .v (viewBase d + c / g.width) (c % g.width) val p
    else .part (viewBase d + c / g.width) (c % g.width) (w64 (2 ^ (8 * part.length) - 1)) val p

/-- R186: the writes of a DVLD from its record bytes. Under a zero norm code every component is written 0, without the poison of a component
word of the record (log entry 97). -/
def dvldWrites (g : Gang) (d : W64) (bs : List (Byte × Bool)) : List RegWrite :=
  let L := 16 * viewCols d
  let comps := bs.take (2 * L)
  let nb := (bs.drop (2 * L)).take 4
  let n := leVal (nb.map Prod.fst)
  let bad := nb.any Prod.snd
  let clear := bad || n = 2 ^ 31
  let comps' := if clear then comps.map fun _ => (0#8, false) else comps
  viewWrites g d comps' ++
    [RegWrite.n (viewNidx d) (if clear then 0x80000000#32 else BitVec.ofNat 32 n) bad]

/-- R227: whether a version makes a read stale. -/
def staleTest (rowlag : W32) (version expected : Nat) (poisoned : Bool) : Bool :=
  let lag := rowlag.toNat
  let d := signExt (version + 2 ^ 32 - expected % 2 ^ 32) 32
  if lag = 0 || lag ≥ 2 ^ 31 then false else poisoned || d ≥ lag

/-- R227: the writes of a ROWLD: the row's bytes, the version and its poison. -/
def rowldWrites (g : Gang) (d : W64) (f : Fields) (active : LaneMask) (row : List (Byte × Bool)) (stale : Bool) : List RegWrite :=
  viewWrites g d row ++
    (if f.d.toNat = 0x647 then [] else (lanesOf active).map fun l => RegWrite.p (f.d.toNat - 0x640) l stale)

/-- An arrival record made (R246): replaces one of the same address; the oldest of four is dropped. -/
def addArrival (l : List (W64 × Bool)) (a : W64) (p : Bool) : List (W64 × Bool) :=
  let l := l.filter fun r => r.1 ≠ a
  (if l.length ≥ 4 then l.drop 1 else l) ++ [(a, p)]

/-- R226, R411, R453: a poisoned word met by an event of a core is counted and logged as ROW-POISON; slot is the task's, if any. -/
def rowPoison (s : State) (ctx slot : Nat) (addr : Nat) (core : Nat) : State :=
  logCtx s ctx [{ LogEntry.onCore s.tick 0x0A core with
    ctx, addr, taskid := ((s.task? slot).map fun t => t.rec_.taskid).getD 0#32 }]

/-- The outcome of an issue's accesses: the writes of its destinations and the state after them. -/
structure Performed where
  writes : List RegWrite
  s : State

/-- R283, R342, R358, R361: a line that a load reads is held by the core, tagged with the task slot. -/
def fillOne (s : State) (w : Who) (tag : Option Nat × Bool) (unc : Bool) (leaf : W64) (pa line : Nat) : State :=
  let s := staleLine s w.core w.slot line (pteGen leaf)
  let s := if unc then s else crossFill s w line
  let s := fillLine s w.core w.slot tag.1 line (pteGen leaf) tag.2
  let s := tagLine s w.core w.slot line tag.1
  if tag.2 then grantLine s w.core (homeDie pa (pteBit leaf 8)) line false else s

/-- R283, R342: the lines that loads read are held by the core, tagged with the task slot. -/
def fillAccs (s : State) (w : Who) (unc : Bool) (claims : List Nat) (accs : List LaneAcc) : State :=
  accs.foldl (fun s a => if a.peer.isSome then s else match a.space with
    | .scratch _ => s
    | _ => (List.range ((a.pa + a.size - 1) / 128 + 1 - a.pa / 128)).foldl (fun s j =>
        fillOne s w (lineTag s w claims a) unc a.leaf a.pa (a.pa / 128 + j)) s) s

/-- Whether a form's accesses only read, or only write; the others do both. -/
def onlyReads (i : Instr) : Bool :=
  match i with
  | .ld _ | .lds _ | .ldx _ | .ldp _ | .ldk _ | .dvld _ | .rowld _ => true
  | _ => false
def onlyWrites (i : Instr) : Bool :=
  match i with
  | .st _ | .sts _ | .stx _ | .stp _ | .dvst _ => true
  | _ => false

/-- R11, R406: what an issue's accesses find before they are performed: words that they read are corrected, and bytes of memory that
they write are kept for fetch. -/
def meetAccs (s : State) (w : Who) (op : PendOp) : State :=
  op.accs.foldl (fun s a =>
    let s := if onlyWrites op.i then s else correctAcc s w a
    if onlyReads op.i || a.peer.isSome then s
    else match a.space with
      | .scratch _ => s
      | _ => noteStore s w.slot a.pa a.size) s

/-- R215, R287, R290: the accesses of an issue, performed in lane order at their coherence points; unc is an unclassified issue. -/
def performOp (s0 : State) (w : Who) (op : PendOp) (unc : Bool := false) : Performed :=
  let s := meetAccs s0 w op
  let gang := s.gang? w.g
  let loads (f : Fields) : Performed :=
    ⟨(byLane op.accs (readAcc s w op.fill)).flatMap fun p => destWrites op.i f p.1 p.2, fillAccs s w unc op.claims op.accs⟩
  let stores : Performed := ⟨[], op.accs.foldl (fun s a => storeAcc s w unc op.claims a) s⟩
  let atoms (f : Fields) (new : LaneAcc → Nat → Nat) : Performed :=
    op.accs.foldl (fun (r : Performed) a =>
      let ev := if a.peer.isSome then (leVal a.data2, a.bad, r.s) else match a.space with
        | .scratch h => scratchEvent r.s w.team h a.va a.size (new a)
        | _ => homeEvent r.s a.pa a.size (new a) (.of w.ctx)
      let keep := f.d.toNat < 0x600 || some a.lane = lowestLane op.active
      ⟨if keep then r.writes ++ destWrites op.i f a.lane (tagBytes a.size ev.1 ev.2.1) else r.writes, ev.2.2⟩) ⟨[], s⟩
  match op.i with
  | .ld f | .lds f | .ldx f | .ldp f => loads f
  | .ldk f =>
    -- one access, its result in every Active lane (R218)
    match op.accs with
    | a :: _ =>
      let bs := op.accs.flatMap (readAcc s w op.fill)
      ⟨if f.d.toNat < 0x600 then (lanesOf op.active).flatMap fun l => destWrites op.i f l bs
       else destWrites op.i f a.lane bs, fillAccs s w unc op.claims op.accs⟩
    | [] => ⟨[], s⟩
  | .st _ | .sts _ | .stx _ | .stp _ | .dvst _ => stores
  | .dvld _ =>
    match gang with
    | none => ⟨[], s⟩
    | some g =>
      ⟨dvldWrites g op.desc (op.accs.flatMap (readAcc s w op.fill)), fillAccs s w unc op.claims op.accs⟩
  | .atom f | .atoms f => atoms f fun a old => atomNew f.tcode (f.imm.toNat % 16) old (leVal a.data)
  | .acas f => atoms f fun a old => if old = leVal a.data then leVal a.data2 else old
  | .rowadd _ =>
    match op.accs with
    | [row, ver] =>
      let xs := (List.range (row.size / 2)).map fun i => leVal ((row.data.drop (2 * i)).take 2)
      let (badRow, badVer, s') := rowAddEvent s row.pa xs ver.pa (.of w.ctx)
      let s' := if badRow then rowPoison s' w.ctx w.slot row.va w.core else s'
      ⟨[], if badVer then rowPoison s' w.ctx w.slot ver.va w.core else s'⟩
    | _ => ⟨[], s⟩
  | .rowld f =>
    match gang, op.accs with
    | some g, [row, ver] =>
      let s := recallLines (recallLines s row.pa row.size (.of w.ctx)) ver.pa 4 (.of w.ctx)
      let vp := memPoisoned s ver.pa 4
      let stale := staleTest (BitVec.ofNat 32 (leVal ver.data2)) (memNat s ver.pa 4) (leVal ver.data) vp
      let s' := if stale then s.bump .stalecnt w.ctx else s
      ⟨rowldWrites g op.desc f op.active (readAcc s w op.fill row) stale, s'⟩
    | _, _ => ⟨[], s⟩
  | .sigt f =>
    match op.accs with
    | a :: _ =>
      let ev := homeEvent s a.pa 8 (sigtNew (leVal a.data % 2 ^ 48)) (.of w.ctx)
      let lanes := if f.d.toNat < 0x600 then lanesOf op.active else (lowestLane op.active).toList
      ⟨lanes.flatMap fun l => destWrites op.i f l (tagBytes 8 ev.1 ev.2.1), ev.2.2⟩
    | [] => ⟨[], s⟩
  | .sigs f =>
    match op.accs with
    | a :: _ =>
      let ev := homeEvent s a.pa 8 (sigsNew (f.mod.toNat % 4 = 1) (leVal a.data)) (.of w.ctx)
      ⟨[], if ev.2.1 then rowPoison ev.2.2 w.ctx w.slot a.va w.core else ev.2.2⟩
    | [] => ⟨[], s⟩
  | .boa _ =>
    match op.accs with
    | a :: _ =>
      let ev := homeEvent s a.pa 8 (fun x => (boaNew x).getD x) (.of w.ctx)
      if ev.2.1 then ⟨[], rowPoison ev.2.2 w.ctx w.slot a.va w.core⟩
      else match boaNew ev.1 with
        | none => ⟨[], ev.2.2.bump .boerr w.ctx⟩
        | some _ => match ev.2.2.gang? w.g with
          | none => ⟨[], ev.2.2⟩
          | some g => ⟨[], ev.2.2.setGang w.g { g with arrivals := addArrival g.arrivals (w64 a.va) (ev.1 / 2 ^ 63 == 1) }⟩
    | [] => ⟨[], s⟩
  | _ => ⟨[], s⟩

/-- The register lane that a write goes to: its file, number and lane. -/
def RegWrite.cell : RegWrite → Nat × Nat × Nat
  | .v k l _ _ | .part k l _ _ _ => (0, k, l)
  | .s k _ _ => (1, k, 0)
  | .p k l _ => (2, k, l)
  | .n k _ _ => (3, k, 0)
/-- Whether two writes go to one register lane. -/
def RegWrite.meets (a b : RegWrite) : Bool := a.cell == b.cell

/-! ### Accesses that a cut holds -/

/-- R423: whether a die's core clocks stand still: no record of its streams is stamped meanwhile. -/
def dieStopped (s : State) (die : Nat) : Bool := ((KMap.get? s.dies die).map Die.stopped).getD false

/-- Whether a context is held by a checkpoint (R448, R449). -/
def ctxFrozen (s : State) (ctx : Nat) : Bool := ((KMap.get? s.ctxs ctx).map Ctx.frozen).getD false
/-- Whether the parties of a context on a core stand still: the die is stopped, its cut of the context is made, the context is
held by a checkpoint, or the module is halted (R409, R432, R448, R452). -/
def standsStill (s : State) (core ctx : Nat) : Bool :=
  s.halted || dieStopped s (core / 32) || ctxFrozen s ctx ||
  match KMap.get? s.dumps ctx with
  | some d => if core < 32 then d.cut0 else d.cut1
  | none => false
/-- R432: whether the gangs of a context on a core issue nothing: also from the moment its die has received the marker; after a dump that
holds the context, the agent's stops hold its gangs (R433). -/
def issueStops (s : State) (core ctx : Nat) : Bool :=
  standsStill s core ctx || match KMap.get? s.dumps ctx with
  | some d => !d.ended && if core < 32 then d.stop0 else d.stop1
  | none => false
/-- R432: whether some die has stopped for a dump of a context: engine operations and copies of it pause. -/
def anyStop (s : State) (ctx : Nat) : Bool :=
  ctxFrozen s ctx || match KMap.get? s.dumps ctx with
  | some d => d.stop0 || d.stop1
  | none => false
/-- R432, R433: whether a cut of a context is made on some die: what it holds stays as it is. -/
def anyCut (s : State) (ctx : Nat) : Bool :=
  ctxFrozen s ctx || match KMap.get? s.dumps ctx with
  | some d => d.cut0 || d.cut1
  | none => false
/-- R432 step 3: an access in flight that reaches memory of a die that has cut is held there. -/
def crossHeld (s : State) (ctx : Nat) (op : PendOp) : Bool :=
  match KMap.get? s.dumps ctx with
  | some d => op.accs.any fun a => a.space == .global && a.peer.isNone &&
      if homeDie a.pa (pteBit a.leaf 8) = 0 then d.cut0 else d.cut1
  | none => false

/-- A fill in flight given its value. -/
def readyFill (g : Gang) (id : Nat) (ws : List RegWrite) : Gang :=
  { g with fills := g.fills.map fun x => if x.id = id then { x with kind := .ready, writes := ws } else x }

/-! ### Stash lines -/

/-- R221: the mapping that covers a scratchpad offset of a half. -/
def stashAt (t : Team) (half off : Nat) : Option (Nat × Stash) :=
  ((List.range t.stashes.length).find? fun i => match t.stashes[i]? with
    | some m => m.half == half && m.off ≤ off && off < m.off + m.len
    | none => false).bind fun i => (t.stashes[i]?).map fun m => (i, m)

/-- R221, R282: whether a store makes the stash line at a global address dirty: only where the task declares it with WRITE. -/
def stashDirties (s : State) (slot va : Nat) : Bool := ((s.task? slot).map fun t => t.rec_.declWrite va 1).getD false

/-- R221: where a scratchpad access falls in a stash mapping: the mapping's number and record, and the global address. -/
def stashPlace (s : State) (w : Who) (a : LaneAcc) : Option (Nat × Stash × Nat) :=
  match a.space with
  | .scratch half => ((s.team? w.team).bind fun t => stashAt t half a.va).map fun m => (m.1, m.2, m.2.base + (a.va - m.2.off))
  | _ => none

/-- Whether a page of a task has become shared. -/
def pageShared (s : State) (slot page : Nat) : Bool := ((s.task? slot).map fun k => k.classOf page == .shared).getD false

/-- R221: a mapped line filled from its global line, poison with its words (R311), unless it is filled already; one whose home refuses
the read stays as it is (log entry 84). -/
def stashFill (s : State) (w : Who) (half : Nat) (m : Stash) (line : Nat) : Bool × State :=
  if BitSet.has m.filled line then (true, s)
  else match corePlace s w.core w.ctx (m.base + 128 * line) with
    | (none, s) => (false, s)
    | (some (pa, leaf), s) =>
      let s := correctMem s (homeDie pa (pteBit leaf 8)) (pa / 128 * 128) 128
      (true, scratchStore (portCross s w.core w.ctx) w.team half (m.off + 128 * line) (memBytes s (pa / 128 * 128) 128)
        fun i => wordPoisoned s (pa / 128 * 32 + i))

/-- R221: a scratchpad access meets the stash as it is performed: its line is filled, and marked dirty by a store that may be written
back; a line of a page that became shared is reached as global bytes. The access of an issue older than the mapping, whose number is
given, is of plain scratchpad, but a store of it lies before the fill of a line that is filled already. -/
def stashAccess (s : State) (w : Who) (write : Bool) (a : LaneAcc) (issue : Option Nat := none) : LaneAcc × State :=
  match a.space, stashPlace s w a with
  | .scratch half, some (i, m, va) =>
    if issue.any fun n => n < m.since then
      if write && BitSet.has m.filled ((a.va - m.off) / 128) then ({ a with size := 0, data := [] }, s) else (a, s)
    else if pageShared s w.slot (va / 4096) then
      match corePlace s w.core w.ctx va with
      | (some (pa, leaf), s) => ({ a with space := .global, va, pa, leaf }, s)
      | (none, s) => (a, s)
    else
      let line := (a.va - m.off) / 128
      let r := stashFill s w half m line
      let m' := { m with filled := if r.1 then BitSet.put m.filled line true else m.filled,
                         dirty := if write && stashDirties s w.slot va then BitSet.put m.dirty line true else m.dirty }
      match r.2.team? w.team with
      | some t => (a, r.2.setTeam w.team { t with stashes := t.stashes.set i m' })
      | none => (a, r.2)
  | _, _ => (a, s)

/-- R221: all accesses of an issue meet the stash. -/
def stashAll (s : State) (w : Who) (write : Bool) (accs : List LaneAcc) (issue : Option Nat := none) : List LaneAcc × State :=
  accs.foldl (fun (r : List LaneAcc × State) a =>
    let p := stashAccess r.2 w write a issue
    (r.1 ++ [p.1], p.2)) ([], s)

/-! ### Peer accesses -/

/-- R397, R398: a request on a peer window: remote base plus offset, under the remote key. -/
def peerReqAt (s : State) (window off : Nat) (kind : NetKind) (size : Nat) (data compare : List Byte) : PeerReq :=
  let e := KMap.get? s.windows window
  { window, addr := ((e.map WindowEntry.base).getD 0#64).toNat + off, key := (e.map WindowEntry.key).getD 0#32, kind, size, data, compare,
    gang := none, engine := none }

/-- R225, R398: an access of a form to a peer window as one request. -/
def peerReqOf (s : State) (i : Instr) (a : LaneAcc) : Option PeerReq :=
  a.peer.map fun wo =>
    let kind : NetKind := match i with
      | .ld _ | .dvld _ => .read
      | .atom _ => .fetchAdd
      | .acas _ => .cmpSwap
      | _ => .write
    peerReqAt s wo.1 wo.2 kind a.size (if kind = .cmpSwap then a.data2 else a.data) (if kind = .cmpSwap then a.data else [])

/-- R398: the request of the first of an issue's peer accesses that has no answer yet. -/
def peerRequest (s : State) (op : PendOp) (g : GangRef) : Option PeerReq :=
  match (op.accs.filter fun a => a.peer.isSome).drop op.got.length with
  | [] => none
  | a :: _ => (peerReqOf s op.i a).map fun r => { r with gang := some g }

/-- A peer request put in flight. -/
def sendPeer (s : State) (r : PeerReq) : State :=
  { s with peers := KMap.put s.peers s.nextPeer r, nextPeer := s.nextPeer + 1 }

/-! ### The end of an unclassified issue -/

/-- R221, R299: an issue's accesses to stash lines, found again: those of pages that became shared are accesses of global bytes. -/
def restash (s : State) (w : Who) (op : PendOp) : PendOp × State :=
  let r := stashAll s w (!onlyReads op.i) op.accs (some op.stamp)
  ({ op with accs := r.1 }, r.2)

/-- R289: an issue that waited for the gang's unclassified issue is performed: a held store, or a load read again, its fill ready; or its
lanes begin to be performed one by one (R287). -/
def settleOp (w : Who) (s : State) (op : PendOp) : State :=
  match s.gang? w.g with
  | none => s
  | some g =>
    let g := { g with heldStores := g.heldStores.filter fun h => h.op.fill != op.fill }
    if op.split then
      s.setGang w.g { g with late := some op, fills := g.fills.map fun x => if x.id = op.fill then { x with kind := .awaits } else x }
    else
      let p := restash (s.setGang w.g g) w op
      let r := performOp p.2 w p.1
      match r.s.gang? w.g with
      | none => r.s
      | some g => r.s.setGang w.g (readyFill g op.fill r.writes)

/-- R289: the issues of a gang that wait for its unclassified issue, in issue order: held stores and loads to be read again. -/
def waitingOps (g : Gang) : List PendOp :=
  let loads := g.fills.filterMap fun x => match x.kind with
    | .revalidate op => some op
    | _ => none
  ((g.heldStores.map HeldStore.op ++ loads).foldl (fun (m : KMap PendOp) op => KMap.put m op.fill op) []).map Prod.snd

/-- R194, R234: the 64 bytes of scratchpad at an offset of a party's half. -/
def blockAccess (w : Who) (lane off : Nat) : LaneAcc :=
  { lane, space := .scratch w.half, va := off, pa := 0, size := 64, peer := none, data := [], data2 := [], leaf := 0#64 }

/-- The eight words of a block. -/
def blockWords (bs : List (Byte × Bool)) : List W64 := (List.range 8).map fun k => w64 (leVal (((bs.drop (8 * k)).take 8).map Prod.fst))

/-- R289: the blocks that engine operations and MXOPs of a gang have read behind its unclassified issue, by the number of the read, with
their offsets and the numbers of the issues in the module. -/
def blocksAgain (s : State) (ref : GangRef) : List (Nat × Nat × Nat) :=
  (s.engine.filterMap fun e => if e.2.g = ref then e.2.again.map fun a => (a.1, a.2, e.2.stamp) else none) ++
  s.mxq.flatMap fun q => q.2.filterMap fun e => if e.g = ref then e.again.map fun a => (a.1, a.2.1, e.stamp) else none

/-- R289: a block read again: an operation whose words differ takes those it finds now, and is checked anew (log entry 74). -/
def rereadBlock (w : Who) (s : State) (n off stamp : Nat) : State :=
  let r := stashAll s w false [blockAccess w 0 off] (some stamp)
  let s := r.1.foldl (fun s a => correctAcc s w a) r.2
  let bs := r.1.flatMap (readAcc s w n)
  let ws := blockWords bs
  let bad := bs.any Prod.snd
  { s with
    engine := s.engine.map fun e =>
      if e.2.g = w.g && e.2.again == some (n, off) then
        (e.1, if bad then { e.2 with again := none, fault := 0x02, faultAddr := off }
          else if ws = e.2.desc then { e.2 with again := none } else { e.2 with again := none, desc := ws, recheck := some off })
      else e
    mxq := s.mxq.map fun q => (q.1, q.2.map fun e => match e.again with
      | some (k, o, g) =>
        if e.g = w.g && k = n && o = off then
          if ws = e.params && !bad then { e with again := none }
          else { e with again := none, params := ws, recheck := some (if bad then 0x02 else 0, off, g) }
        else e
      | none => e) }

/-- R194, R289: what waits for a gang's unclassified issue, in issue order: an issue, or the offset and number of a block to be read
again. -/
def settleList (s : State) (ref : GangRef) (g : Gang) : KMap (Except (Nat × Nat) PendOp) :=
  ((waitingOps g).map fun op => (op.fill, .ok op)).foldl (fun (m : KMap (Except (Nat × Nat) PendOp)) e => KMap.put m e.1 e.2)
    ((blocksAgain s ref).foldl (fun (m : KMap (Except (Nat × Nat) PendOp)) e => KMap.put m e.1 (.error e.2)) [])

/-- R288, R289: held stores are performed and loads read again in issue order, so that a load sees the gang's older stores and no
younger one; an issue whose lanes are performed one by one is over before the next. -/
def settleBehind (s : State) (w : Who) : State :=
  match s.gang? w.g with
  | none => s
  | some g => (settleList s w.g g).foldl (fun s e =>
      if (s.gang? w.g).any fun g => g.late.isSome then s
      else match e.2 with
        | .ok op => settleOp w s op
        | .error b => rereadBlock w s e.1 b.1 b.2) s

/-- R384: the lines that an unclassified issue reaches cross its core's port. -/
def crossAccs (s : State) (w : Who) (accs : List LaneAcc) : State :=
  accs.foldl (fun s a => if a.peer.isSome then portCross s w.core w.ctx else match a.space with
    | .scratch _ => s
    | _ => (List.range ((a.pa + a.size - 1) / 128 + 1 - a.pa / 128)).foldl (fun s _ => portCross s w.core w.ctx) s) s

/-- R277, R289: the gang's unclassified issue performed as one block, its loads' fills ready, then the issues that waited for it. -/
def completeUnclass (s : State) (g : GangRef) : State :=
  match s.gang? g, s.who g with
  | some x, some w => match x.unclass with
    | none => s
    | some op0 =>
      let (op, s) := restash s w op0
      let r := performOp (crossAccs s w op.accs) w op true
      let s := match r.s.gang? g with
        | none => r.s
        | some y => r.s.setGang g (readyFill { y with unclass := none } op.fill r.writes)
      settleBehind s w
  | _, _ => s

/-! ### Lanes of a classified issue performed one by one -/

/-- R290: whether a form is an atomic of the scratchpad, which falls after every earlier access of its threads. -/
def isAtoms (i : Instr) : Bool :=
  match i with
  | .atoms _ => true
  | _ => false

/-- R217, R223, R287: whether a lane may make its accesses of an issue now: a store follows those of lower lanes to the same bytes, and the
lanes of an atomic act in lane order. -/
def lateFree (op : PendOp) (l : Nat) : Bool :=
  if isAtoms op.i then op.accs.all fun b => l ≤ b.lane
  else onlyReads op.i || (op.accs.filter fun a => a.lane == l).all fun a => op.accs.all fun b =>
    !(b.lane < l && b.space.sameAs a.space && a.place < b.place + b.size && b.place < a.place + a.size)

/-- R47: values of some lanes put into an issue's fill, which may land once the last of them is there. -/
def lateFill (g : Gang) (id : Nat) (ws : List RegWrite) (last : Bool) : Gang :=
  { g with fills := g.fills.map fun x => if x.id = id then
      { x with kind := if last then .ready else x.kind, writes := x.writes.map fun w => (ws.find? (·.meets w)).getD w }
    else x }

/-- R287: a lane of a gang's classified issue makes its accesses; those of the other lanes are still to be made. -/
def lateLane (ref : GangRef) (s : State) (l : Nat) : State :=
  match (s.gang? ref).bind Gang.late, s.who ref with
  | some op, some w =>
    let mine := op.accs.filter fun a => a.lane == l
    let rest := op.accs.filter fun a => a.lane != l
    if mine.isEmpty || !lateFree op l then s
    else
      let p := restash s w { op with accs := mine }
      let r := performOp p.2 w p.1
      match r.s.gang? ref with
      | none => r.s
      | some g =>
        let s := r.s.setGang ref (lateFill { g with late := if rest.isEmpty then none else some { op with accs := rest } } op.fill r.writes
          rest.isEmpty)
        if rest.isEmpty then settleBehind s w else s
  | _, _ => s

/-- R287: the lanes whose accesses of a gang's classified issue are still to be made, made in lane order. -/
def finishOne (s : State) (ref : GangRef) : State :=
  match (s.gang? ref).bind Gang.late with
  | none => s
  | some op => ((op.accs.map LaneAcc.lane).eraseDups).foldl (lateLane ref) s

/-- R287, R289: the same for that issue and for each that then follows it lane by lane. -/
def finishLate (s : State) (ref : GangRef) : State :=
  match s.gang? ref with
  | none => s
  | some g => (List.range ((waitingOps g).length + 1)).foldl (fun s _ => finishOne s ref) s

end Sys2Proof.Machine
end

