-- ==== Sys2Proof/Machine/Trace.lean ====
section
/-! DEFINITION. Trace streams (R420 to R424), telemetry records (R414 to R419) and sync watchpoints (R426, R428). -/

namespace Sys2Proof.Machine

/-- A record of a type with a second word and nothing else. -/
def TraceRec.plain (type : Nat) (w1 : W64) : TraceRec := ⟨type, 0, 0, 0, 0, false, false, w1, []⟩

/-- R421: the bytes of a record with its DELTA. -/
def TraceRec.bytes (r : TraceRec) (delta : Nat) : List Byte :=
  let units := 1 + r.more.length / 2
  leBytes 8 (r.type + 2 ^ 8 * units + 2 ^ 16 * (delta % 2 ^ 24) + 2 ^ 40 * r.core + 2 ^ 46 * r.part + 2 ^ 51 * r.slot +
    2 ^ 55 * r.gang + (if r.ret then 2 ^ 62 else 0) + (if r.inh then 2 ^ 63 else 0)) ++
    leBytes 8 r.w1.toNat ++ r.more.flatMap fun x => leBytes 8 x.toNat

/-- The stream of a context on a die. -/
def traceStream (s : State) (ctx die : Nat) : Option TraceStream :=
  (KMap.get? s.ctxs ctx).bind fun c => KMap.get? c.trace die

/-- Update of a stream's ring. -/
def setTraceRing (s : State) (ctx die : Nat) (r : Ring) : State :=
  { s with ctxs := KMap.modify s.ctxs ctx fun c => { c with trace := KMap.modify c.trace die fun t => { t with ring := r } } }

/-- One record offered to a stream as its bytes, the stamp it leaves when written (R405, R422); a TIME record leaves the drops still to
be reported. -/
def traceOffer (s : State) (ctx die : Nat) (bs : List Byte) (stamp : Nat) (time : Bool := false) : State :=
  match traceStream s ctx die with
  | none => s
  | some t =>
    let out := ringOffer s ctx 16 t.ring bs
    let r := if out.written then { out.ring with stamp := some stamp, pendingDrops := if time then out.ring.pendingDrops else 0 }
      else if out.dropped then { out.ring with pendingDrops := out.ring.pendingDrops + 1 } else out.ring
    let s := setTraceRing out.s ctx die r
    let s := if out.dropped then s.bump .tracedrop ctx else s
    if out.fault then ringFault s ctx t.ring.header 2 die else s

/-- R423: a TIME record of a stamp where the stream has none or the delta would reach 2^24. -/
def traceTimeAt (s : State) (ctx die stamp : Nat) : State :=
  match traceStream s ctx die with
  | none => s
  | some t =>
    let needs := match t.ring.stamp with
      | none => true
      | some p => stamp - p ≥ 2 ^ 24
    if needs then traceOffer s ctx die ((TraceRec.plain 1 (w64 stamp)).bytes 0) stamp true else s

/-- R423: the TIME record with which a stream begins. -/
def traceTime (s : State) (ctx die : Nat) : State := if dieStopped s die then s else traceTimeAt s ctx die s.tick

/-- R422: a DROP record of a stamp before the next record after any drop. -/
def traceDrops (s : State) (ctx die stamp : Nat) : State :=
  match traceStream s ctx die with
  | none => s
  | some t =>
    if t.ring.pendingDrops = 0 then s
    else traceOffer s ctx die ((TraceRec.plain 8 (w64 t.ring.pendingDrops)).bytes (stamp - t.ring.stamp.getD stamp)) stamp

/-- R421 to R423: a delta record of this tick written to a stream. -/
def traceWrite (s : State) (ctx die : Nat) (r : TraceRec) : State :=
  let s := traceDrops (traceTimeAt s ctx die s.tick) ctx die s.tick
  let prev := ((traceStream s ctx die).bind (·.ring.stamp)).getD s.tick
  traceOffer s ctx die (r.bytes (s.tick - prev)) s.tick

/-- R420: an event for a stream when one of the enables of mask is set (mask 0: whatever the enables); its record is written at the end
of the tick. -/
def trace (s : State) (ctx die : Nat) (mask : BitVec 4) (r : TraceRec) : State :=
  match traceStream s ctx die with
  | none => s
  | some t => if mask ≠ 0#4 && t.en &&& mask = 0#4 then s else { s with traceBuf := s.traceBuf ++ [(ctx, die, r)] }

/-- R420: a record's place among those of its stamp: core, then partition. -/
def tracePlace (e : Nat × Nat × TraceRec) : Nat := e.2.2.core * 32 + e.2.2.part

/-- R420: a record put after those of its stamp that are not beyond its place. -/
def traceInsert (e : Nat × Nat × TraceRec) : List (Nat × Nat × TraceRec) → List (Nat × Nat × TraceRec)
  | [] => [e]
  | x :: t => if tracePlace x ≤ tracePlace e then x :: traceInsert e t else e :: x :: t

/-- R420, R423: the records of a tick's events for some streams written, in the order of their places; a die whose clocks stand still
keeps its own until they start. -/
def flushStreams (s : State) (which : Nat → Nat → Bool) : State :=
  let due := s.traceBuf.filter fun e => which e.1 e.2.1 && !dieStopped s e.2.1
  let rest := s.traceBuf.filter fun e => !(which e.1 e.2.1 && !dieStopped s e.2.1)
  (due.foldl (fun l e => traceInsert e l) []).foldl (fun s e => traceWrite s e.1 e.2.1 e.2.2) { s with traceBuf := rest }

/-- R420, R424: the same before the tick is over: a sample is of the tick's end, and none is left of a tick that does not come to it. -/
def flushEarly (s : State) (which : Nat → Nat → Bool) : State :=
  flushStreams { s with traceBuf := s.traceBuf.filter fun e => !(which e.1 e.2.1 && e.2.2.type == 5) } which

/-- R420: the same for every stream, at the end of a tick. -/
def flushTraces (s : State) : State := flushStreams s fun _ _ => true

/-- R423: an absolute record (FREQ or GAP) and the stamp it leaves. -/
def traceAbs (s : State) (ctx die : Nat) (r : TraceRec) (stamp : Nat) : State := traceOffer s ctx die (r.bytes 0) stamp

/-- A record into every context's stream of a die. -/
def traceAll (s : State) (die : Nat) (f : State → Nat → State) : State :=
  s.ctxs.foldl (fun s e => if (KMap.get? e.2.trace die).isSome then f s e.1 else s) s

/-- R421, R422: TASKEV of a task: 0 start edge, 1 end edge, 2 kill, with the core of a killed team. -/
def traceTask (s : State) (ctx die : Nat) (taskid : W32) (event index : Nat) (core : Nat := 0) : State :=
  trace s ctx die 4#4 { TraceRec.plain 7 (w64 (taskid.toNat + 2 ^ 32 * event + 2 ^ 40 * index)) with core }

/-- R416: the 64 bytes of a telemetry record. -/
def telRecord (type src seq tick : Nat) (cs : List W64) : List Byte :=
  leBytes 8 (type + 2 ^ 16 * src + 2 ^ 32 * (seq % 2 ^ 32)) ++ leBytes 8 tick ++
    (List.range 6).flatMap fun i => leBytes 8 (cs.getD i 0#64).toNat

/-- R405: what the telemetry ring of a context has become: kept, with a drop counted and a failure said. -/
def telKeep (ctx header : Nat) (out : RingOut) : State :=
  let s := { out.s with ctxs := KMap.modify out.s.ctxs ctx fun c => { c with telRing := some out.ring } }
  let s := if out.dropped then s.bump .teldrop ctx else s
  if out.fault then ringFault s ctx header 1 else s

/-- R405, R418: a telemetry record offered to a context's ring. -/
def telOffer (s : State) (ctx : Nat) (bs : List Byte) : State :=
  match (KMap.get? s.ctxs ctx).bind Ctx.telRing with
  | none => s
  | some r => telKeep ctx r.header (ringOffer s ctx 64 r bs)

/-- R415: a telemetry record of a latch that another overtakes is dropped. -/
def telDrop (s : State) (ctx : Nat) : State :=
  match (KMap.get? s.ctxs ctx).bind Ctx.telRing with
  | none => s
  | some r => if r.disabled then s else telKeep ctx r.header (ringDrop s ctx r)

/-- R426, R428: whether an armed sync watchpoint of a context watches an object: kind 1 team barrier, 2 barrier object,
3 signal object; cond 0 ARRIVE, 1 LAST, 2 FLIP; last tests LAST's threshold. -/
def syncWatch (s : State) (ctx okind cond : Nat) (obj : W64) (last : Nat → Bool) : Bool :=
  match (KMap.get? s.ctxs ctx).bind Ctx.debug with
  | none => false
  | some d => (List.range 4).any fun k =>
      let o := KMap.get d.sw 0#64 (4 * k)
      let w := (KMap.get d.sw 0#64 (4 * k + 1)).toNat
      w % 4 == okind && w / 4 % 4 == cond &&
        (if okind = 1 then o.toNat % 16 == obj.toNat % 16 && o.toNat / 2 ^ 32 == obj.toNat / 2 ^ 32 else o == obj) &&
        (okind ≠ 3 || cond ≠ 1 || last (w / 2 ^ 16))

/-- R422, R423: an absolute record in every stream of a die, after the TIME record of a stream that has none yet and the drops not yet
reported. -/
def dieRecord (s : State) (die : Nat) (r : TraceRec) (stamp : Nat) : State :=
  traceAll s die fun s c =>
    let at_ := r.w1.toNat
    let before : Bool := ((traceStream s c die).map fun t => t.ring.pendingDrops != 0 || t.ring.stamp.isNone).getD false
    let s := if before then traceDrops (traceTimeAt s c die at_) c die at_ else s
    traceAbs s c die r stamp

end Sys2Proof.Machine
end

