-- ==== Sys2Proof/Machine/Team.lean ====
section
/-! DEFINITION. Teams and tasks: placement (R260 to R265), dispatch order (R364, R365), barriers and carve-out decisions
(R241 to R244, R278), retirement (R266, R267), engine signal updates (R236), the beginning of the end edge (R344 to R347), and
killing a team (R313 to R315). -/

namespace Sys2Proof.Machine

/-! ### Occupancy and placement -/

/-- R260: 4 KiB granules of a window. -/
def windowGranules (regs width : Nat) : Nat := (regs * width * 8 + 4095) / 4096

/-- The ranges of granules in use in a partition share, as first granule and length: windows and units stay a team's until it retires
(R266). -/
def usedRanges (s : State) (core part : Nat) : List (Nat × Nat) :=
  (s.teams.flatMap fun e => (e.2.spots.filter fun x => x.core = core && x.part = part).map fun x => (x.granule, x.granules)) ++
  (s.teams.flatMap fun e => e.2.halves.flatMap fun h =>
    if h.core = core then ((h.scratchUnits ++ h.l1Units).filter fun u => u.1 = part).map fun u => (u.2 * 16, 16) else [])

/-- Whether n granules from lo are free of the ranges. -/
def rangeFree (used : List (Nat × Nat)) (lo n : Nat) : Bool :=
  lo + n ≤ 128 && used.all fun u => u.1 + u.2 ≤ lo || lo + n ≤ u.1

/-- The highest free range of n granules. -/
def highestFree (used : List (Nat × Nat)) (n : Nat) : Option Nat :=
  (List.range (129 - n)).foldl (fun r lo => if rangeFree used lo n then some lo else r) none

/-- A gang placed tentatively: partition, slot, granule. -/
structure GangSpot where
  part : Nat
  slot : Nat
  granule : Nat
  deriving DecidableEq, Repr

/-- Slots in use in a partition: a gang slot stays its team's until the team retires (R266). -/
def usedSlots (s : State) (core part : Nat) : List Nat :=
  s.teams.flatMap fun e => (e.2.spots.filter fun x => x.core = core && x.part = part).map fun x => x.slot

/-- R260 step 1: gangs in index order, each to the partition with a free slot and room that has the fewest resident gangs. -/
def placeGangs (s : State) (core ngran : Nat) : Nat → List GangSpot → Option (List GangSpot)
  | 0, acc => some acc
  | n + 1, acc =>
    let mine (p : Nat) := acc.filter fun x => x.part = p
    let cands := (List.range 32).filterMap fun p =>
      let slots := usedSlots s core p ++ (mine p).map (·.slot)
      let used := usedRanges s core p ++ (mine p).map fun x => (x.granule, ngran)
      match highestFree used ngran, (List.range 16).find? fun k => !slots.contains k with
      | some gr, some sl => some (slots.length, (⟨p, sl, gr⟩ : GangSpot))
      | _, _ => none
    match cands with
    | [] => none
    | c :: cs =>
      let best := cs.foldl (fun b x => if x.1 < b.1 then x else b) c
      placeGangs s core ngran n (acc ++ [best.2])

/-- Free 64 KiB units of a core, given further ranges in use by partition. -/
def freeUnits (s : State) (core : Nat) (extra : List (Nat × Nat × Nat)) : List (Nat × Nat) :=
  (List.range 32).flatMap fun p =>
    let used := usedRanges s core p ++ (extra.filter fun x => x.1 = p).map fun x => x.2
    (List.range 8).filterMap fun u => if rangeFree used (u * 16) 16 then some (p, u) else none

/-- R260: units taken one at a time, each the lowest free unit of the share with the most free units. -/
def takeUnits : Nat → List (Nat × Nat) → Option (List (Nat × Nat))
  | 0, _ => some []
  | n + 1, free =>
    let count (p : Nat) := (free.filter fun u => u.1 = p).length
    match free with
    | [] => none
    | f :: fs =>
      let best := fs.foldl (fun b u => if count u.1 > count b.1 then u else b) f
      match takeUnits n (free.filter fun u => u ≠ best) with
      | none => none
      | some l => some (best :: l)

/-- Where a half of a team goes on a core: its gangs and its scratchpad and L1 units. -/
structure HalfPlan where
  core : Nat
  spots : List GangSpot
  scratch : List (Nat × Nat)
  l1 : List (Nat × Nat)
  deriving DecidableEq, Repr

/-- R260: a half placed on a core, if it can be. -/
def planHalf (s : State) (r : TaskRec) (core gangs : Nat) : Option HalfPlan :=
  let ng := windowGranules r.regs r.width
  match placeGangs s core ng gangs [] with
  | none => none
  | some spots =>
    let free := freeUnits s core (spots.map fun x => (x.part, x.granule, ng))
    match takeUnits (r.spu + r.l1u) free with
    | none => none
    | some us => some { core, spots, scratch := us.take r.spu, l1 := us.drop r.spu }

/-- Free units of a core, for the dispatcher's choice (R261). -/
def coreFree (s : State) (core : Nat) : Nat := (freeUnits s core []).length

/-- R261, R399: whether a core may hold teams of a context. -/
def coreAllowed (s : State) (ctx core : Nat) : Bool :=
  match KMap.get? s.ctxs ctx with
  | none => false
  | some c => c.m.coremask.getLsbD core && s.secureCores.getLsbD core == c.m.secure

/-- R261: the plan of the next team, on the core or span chosen. -/
def planTeam (s : State) (ctx : Nat) (r : TaskRec) : Option (List HalfPlan) :=
  let best (l : List (Nat × List HalfPlan)) : Option (List HalfPlan) := match l with
    | [] => none
    | x :: t => some (t.foldl (fun b y => if y.1 > b.1 then y else b) x).2
  if r.span then
    best ((List.range 32).filterMap fun k =>
      if coreAllowed s ctx (2 * k) && coreAllowed s ctx (2 * k + 1) then
        match planHalf s r (2 * k) (r.gangs / 2), planHalf s r (2 * k + 1) (r.gangs / 2) with
        | some a, some b => some (coreFree s (2 * k) + coreFree s (2 * k + 1), [a, b])
        | _, _ => none
      else none)
  else
    best ((List.range 64).filterMap fun k =>
      if coreAllowed s ctx k then (planHalf s r k r.gangs).map fun a => (coreFree s k, [a]) else none)

/-- R35, R252, R264: a gang as it is created. -/
def newGang (r : TaskRec) (team index half teamIx granule : Nat) : Gang :=
  let all : LaneMask := maskOf fun l => l < r.width
  { team, index, half, width := r.width, regs := r.regs, granule, live := all,
    pc := (List.range r.width).foldl (fun m l => KMap.set m 0#64 l r.code) [],
    wait := [], v := [], vEmpty := [], vPoison := [], vCorr := [], s := [], sEmpty := [], sPoison := [], p := [],
    pEmpty := [], n := [], nEmpty := [], nPoison := [], w := [], lent := [], parity := [], fpctl := r.fpctl, fpstat := 0#32,
    cause := 0#8, tpc := 0#64, tmask := 0#64, taddr := 0#64, thit := 0#64,
    thnd := if r.hndoff = 0 then 0#64 else r.code + w64 r.hndoff,
    inh := false, stklim := BitVec.ofNat 32 r.privw, rowlag := r.rowlag,
    privbase := r.privBase + w64 ((teamIx * r.gangs + index) * r.width * r.privw * 4),
    held := 0#64, exempt := 0#64, transients := [], holdLatch := [], fills := [], nextFill := 0, unclass := none, late := none,
    heldStores := [], arrivals := [], agentWrites := [], waits := none, block := none, stopped := false, yielded := false, lastIssue := none, issues := 0#64,
    unclassCount := 0#64, seq := [], stepArmed := false, stepDue := false, lastSet := 0#64,
    lastRet := false, syncDue := none, lastActive := 0#64 }

/-- The gangs of a half created. -/
def createHalf (s : State) (r : TaskRec) (team teamIx half first : Nat) (p : HalfPlan) : State × List GangRef :=
  (List.range p.spots.length).foldl (fun (a : State × List GangRef) j =>
    let sp := p.spots.getD j ⟨0, 0, 0⟩
    let g : GangRef := ⟨p.core, sp.part, sp.slot⟩
    (a.1.setGang g (newGang r team (first + j) half teamIx sp.granule), a.2 ++ [g])) (s, [])

/-- R264: a team created at its places, in one step. -/
def createTeam (s : State) (slot index : Nat) (t : Task) (plans : List HalfPlan) : State :=
  let k := s.nextTeam
  let r := t.rec_
  let (s, gangs) := (List.range plans.length).foldl (fun (a : State × List GangRef) h =>
    let p := plans.getD h ⟨0, [], [], []⟩
    let (s, gs) := createHalf a.1 r k index h a.2.length p
    (s, a.2 ++ gs)) (s, [])
  let halves := plans.map fun p =>
    { core := p.core, scratchUnits := p.scratch, l1Units := p.l1, bytes := [], poison := [], corr := [] : Half }
  let spots := plans.flatMap fun p => p.spots.map fun x => (⟨p.core, x.part, x.slot, x.granule, windowGranules r.regs r.width⟩ : TeamSpot)
  { s with
    nextTeam := k + 1
    teams := KMap.put s.teams k
      { slot, index, ctx := t.ctx, order := k, placedAt := s.tick, gangs, spots, retired := [], halves, arr := [], carve := none,
        stashes := [], digest := 0#64, dying := false } }

/-! ### Dispatch order -/

/-- R364: Morton key of a point. -/
def mortonKey (x y z : Nat) : Nat :=
  (List.range 32).foldl (fun k b =>
    k + (x / 2 ^ b % 2) * 2 ^ (3 * b) + (y / 2 ^ b % 2) * 2 ^ (3 * b + 1) + (z / 2 ^ b % 2) * 2 ^ (3 * b + 2)) 0

/-- R364: HilbertXY from bit j for the remaining bits. -/
def hilbertFrom : Nat → Nat → Nat → Nat → Nat → Nat × Nat
  | 0, _, x, y, _ => (x, y)
  | n + 1, j, x, y, t =>
    let sz := 2 ^ j
    let rx := t / 2 % 2
    let ry := (t ^^^ rx) % 2
    let (x, y) := if ry = 0 then
        let (x, y) := if rx = 1 then (sz - 1 - x, sz - 1 - y) else (x, y)
        (y, x)
      else (x, y)
    hilbertFrom n (j + 1) (x + sz * rx) (y + sz * ry) (t / 4)

/-- The smallest k with 2^k ≥ n. -/
def ceilLog2 (n : Nat) : Nat := if n ≤ 1 then 0 else Nat.log2 (n - 1) + 1

/-- R364, R365: the team indices in dispatch order. -/
def dispatchOrder (r : TaskRec) : List Nat :=
  let index (x y z : Nat) := x + r.nx * (y + r.ny * z)
  let total := r.nx * r.ny * r.nz
  if r.deterministic || r.curve = 0 then List.range total
  else if r.curve = 1 then
    let pts := (List.range total).map fun i => (mortonKey (i % r.nx) (i / r.nx % r.ny) (i / (r.nx * r.ny)), i)
    let sorted := pts.foldl (fun (m : KMap Nat) p => KMap.put m p.1 p.2) []
    sorted.map Prod.snd
  else
    let k := ceilLog2 (max r.nx r.ny)
    (List.range r.nz).flatMap fun z => (List.range (4 ^ k)).filterMap fun d =>
      let (x, y) := hilbertFrom k 0 0 0 d
      if x < r.nx && y < r.ny then some (index x y z) else none

/-! ### Task records -/

/-- R331: a device write into a task record; one that fails is not made and is logged. -/
def recordWrite (s : State) (slot ctx : Nat) (taskid : W32) (addr : Nat) (bs : List Byte) : State :=
  match agentWrite s ctx addr bs with
  | .ok s' => s'
  | .error _ => logCtx s ctx [{ LogEntry.at s.tick 0x0F with ctx, taskid, addr, info := slot }]

/-- R330: the status word. -/
def statusWord (lstat estat : Nat) (fault : Option (Nat × Nat)) : Nat :=
  lstat + 2 ^ 8 * estat + match fault with
    | some (c, t) => 2 ^ 16 * c + 2 ^ 32 * t
    | none => 0

/-- R346: CURSOR written into the record. -/
def writeCursor (s : State) (slot : Nat) (t : Task) (phase region line : Nat) : State :=
  recordWrite s slot t.ctx t.rec_.taskid (t.rec_.addr + 0x70) (leBytes 8 (line + 2 ^ 33 * region + 2 ^ 40 * phase))

/-- R345: the regions the flush walks: those with WRITE. -/
def nextWalked (r : TaskRec) (k : Nat) : Option Nat :=
  (List.range r.regions.length).find? fun j => k ≤ j && ((r.regions[j]?).map (·.write)).getD false

/-- R344 step 1: the flush begins. -/
def beginFlush (s : State) (slot : Nat) (t : Task) : State :=
  match nextWalked t.rec_ 0 with
  | some k => writeCursor (s.setTask slot { t with stage := .flushing k 0 }) slot t 1 k 0
  | none => writeCursor (s.setTask slot { t with stage := .flushed }) slot t 2 0 0

/-- Whether a team of a slot is resident. -/
def slotResident (s : State) (slot : Nat) : Bool := s.teams.any fun e => e.2.slot = slot

/-- Whether a team of a slot is resident, or an engine operation of one finishes (R314 step 4, R348). -/
def slotBusy (s : State) (slot : Nat) : Bool := slotResident s slot || s.engine.any fun e => e.2.slot = slot

/-- R344: the end edge begins when no team is resident and none will be placed. -/
def tryEnd (s : State) (slot : Nat) : State :=
  match s.task? slot with
  | none => s
  | some t =>
    let total := t.rec_.nx * t.rec_.ny * t.rec_.nz
    if t.stage = .running && !slotBusy s slot && ((t.placed ≥ total && t.relaunch.isEmpty) || t.fault.isSome || t.estat ≠ 0) then
      beginFlush s slot t
    else s

/-! ### Barriers and the carve-out -/

/-- R244: the status word of a CARVE. -/
def carveStatus (l1u spu st : Nat) : W64 := w64 (st + 2 ^ 8 * spu + 2 ^ 24 * l1u)

/-- The value of a pending fill set in all of its writes. -/
def setFill (g : Gang) (id : Nat) (x : W64) : Gang :=
  { g with fills := g.fills.map fun f => if f.id = id then
      { f with kind := .ready, writes := f.writes.map fun w => match w with
          | .v k l _ _ => .v k l x 0#2
          | .s k _ _ => .s k x 0#2
          | w => w }
    else f }

/-- R244, R260: one half's units after a split, none where the core lacks room; units taken last are given up first. -/
def splitHalf (s : State) (h : Half) (spu l1u : Nat) : Option Half :=
  let keepS := h.scratchUnits.take spu
  let keepL := h.l1Units.take l1u
  let given := h.scratchUnits.drop spu ++ h.l1Units.drop l1u
  let free := (List.range 32).flatMap fun p => (List.range 8).filterMap fun u =>
    if (freeUnits s h.core []).contains (p, u) || given.contains (p, u) then some (p, u) else none
  match takeUnits ((spu - keepS.length) + (l1u - keepL.length)) free with
  | none => none
  | some us =>
    some { h with scratchUnits := keepS ++ us.take (spu - keepS.length), l1Units := keepL ++ us.drop (spu - keepS.length),
                  bytes := h.bytes.filter fun e => e.1 < spu * 65536,
                  poison := h.poison.filter fun e => e.1 < spu * 16384,
                  corr := h.corr.filter fun e => e.1 < spu * 16384 }

/-- R244, R278: the pending request of a team decided at a completion. -/
def decideCarve (s : State) (k : Nat) : State :=
  match s.team? k with
  | none => s
  | some t => match t.carve with
    | none => s
    | some c =>
      let fits := t.stashes.all fun m => m.off + m.len ≤ c.spu * 65536
      let halves := t.halves.map fun h => splitHalf s h c.spu c.l1u
      let cur := t.halves.headD ⟨0, [], [], [], [], []⟩
      let granted := fits && halves.all Option.isSome
      let t' := { t with carve := none, halves := if granted then halves.filterMap id else t.halves }
      let st := if granted then carveStatus c.l1u c.spu 0 else carveStatus cur.l1Units.length cur.scratchUnits.length 1
      let s := s.setTeam k t'
      match s.gang? c.g with
      | none => s
      | some g => if g.team = k then s.setGang c.g (setFill g c.fill st) else s

/-- The object of a team barrier for a sync watchpoint (R426). -/
def barrierObj (taskid : W32) (b : Nat) : W64 := w64 (b + 2 ^ 32 * taskid.toNat)

/-- R241, R278, R428: the gangs that wait on a completed barrier go on; each released under a FLIP watch is due WATCH-SYNC. -/
def releaseBarrier (s : State) (k : Nat) (t : Team) (b : Nat) : State :=
  let taskid := ((s.task? t.slot).map fun t => t.rec_.taskid).getD 0#32
  let flip := syncWatch s t.ctx 1 2 (barrierObj taskid b) fun _ => true
  t.gangs.foldl (fun s r => match s.gang? r with
    | none => s
    | some g =>
      if g.team = k && g.block = some (.barrier b) then
        let next := KMap.get g.pc 0#64 ((lowestLane g.lastActive).getD 0)
        s.setGang r { g with block := none, syncDue := if flip && !g.inh then some (w64 b, next, g.lastActive) else g.syncDue }
      else s) s

/-- R241: whether every gang still resident has arrived. -/
def barrierComplete (t : Team) (b : Nat) : Bool :=
  let live := (List.range t.gangs.length).filter fun j => !BitSet.has t.retired j
  !live.isEmpty && live.all fun j => (KMap.get t.arr 0#128 b).getLsbD j

/-- R241, R278: a barrier that is complete is cleared, a carve request decided and the waiters released. -/
def checkBarrier (s : State) (k b : Nat) : State :=
  match s.team? k with
  | none => s
  | some t =>
    if barrierComplete t b then
      let s := decideCarve (s.setTeam k { t with arr := KMap.del t.arr b }) k
      releaseBarrier s k t b
    else s

/-! ### Retirement -/

/-- R221, R311, R358: a line of a stash mapping stored at its home, poison with its words; one that its home refuses is not made
(log entry 84). -/
def stashPut (s : State) (k : Nat) (t : Team) (m : Stash) (line : Nat) : State :=
  let off := m.off + 128 * line
  let core := ((t.half? m.half).map Half.core).getD 0
  match corePlace s core t.ctx (m.base + 128 * line) with
  | (some (pa, _), s) =>
    homeStore (portCross (noteStore s t.slot pa 128) core t.ctx) pa (scratchBytes s k m.half off 128)
      (fun i => scratchPoisoned s k m.half (off + 4 * i)) (.of t.ctx)
  | (none, s) => s

/-- R221, R297 step 4: the stash lines of a page of a team: dirty ones written back, all dropped. -/
def dropStashPage (s : State) (k page : Nat) : State :=
  match s.team? k with
  | none => s
  | some t => (List.range t.stashes.length).foldl (fun s i => match (s.team? k).bind fun t => t.stashes[i]? with
    | none => s
    | some m =>
      let mine (e : Nat × Bool) : Bool := (m.base + 128 * e.1) / 4096 == page
      let s := (m.dirty.filter mine).foldl (fun s e => stashPut s k t m e.1) s
      let m' : Stash := { m with filled := m.filled.filter (fun e => !mine e), dirty := m.dirty.filter (fun e => !mine e) }
      match s.team? k with
      | none => s
      | some t' => s.setTeam k { t' with stashes := t'.stashes.set i m' }) s

/-- R297 step 4, R298: every line of a page that parties of a task slot hold is written back where dirty, and dropped. -/
def collectPage (s : State) (slot ctx page : Nat) : State :=
  let s := s.teams.foldl (fun s e => if e.2.slot = slot then dropStashPage s e.1 page else s) s
  match ownXlat s ctx (page * 4096) with
  | .ok pa _ => dropLines s fun l => l.slot == slot && pa / 128 ≤ l.line && l.line < pa / 128 + 32
  | _ => s

/-- R221, R297 step 3: the accesses of an issue to a page, by virtual address or through a stash line. -/
def opOnPage (s : State) (w : Who) (op : PendOp) (page : Nat) : Bool := op.accs.any fun a =>
  (a.space == .global && a.va / 4096 == page) || (stashPlace s w a).any fun m => m.2.2 / 4096 == page

/-- R238, R247, R292: whether a gang's unclassified issue completes with its own event: a wait at an object, or a peer access. -/
def Gang.ownEnd (g : Gang) : Bool := match g.block with
  | some (.signal _) | some (.object _) | some .peer => true
  | _ => false

/-- R297 step 3: the accesses in flight to a page, of the gangs of a task, complete, whatever else the gangs wait for; a wait at an object
has no access in flight between its reads. -/
def drainPage (s : State) (slot page : Nat) : State :=
  s.gangs.foldl (fun s e =>
    let ref := gangOfNum e.1
    match s.who ref, s.gang? ref with
    | some w, some g =>
      if w.slot ≠ slot then s
      else
        let s := if g.late.any (opOnPage s w · page) then finishLate s ref else s
        if !g.ownEnd && g.unclass.any (opOnPage s w · page) then completeUnclass s ref else s
    | _, _ => s) s

/-- R292, R398: whether some peer access of an issue has no answer yet. -/
def peerOpen (op : PendOp) : Bool := op.got.length < (op.accs.filter fun a => a.peer.isSome).length

/-- R297 step 3, R317: whether an access in flight to a page is not over: an element of an engine operation whose source is read, or is
read at a peer, and whose write goes there, or a gang's issue with an access to the page that waits for a peer. dst gives the virtual
address that an element writes. -/
def pageBusy (s : State) (dst : EngineOp → Option Nat) (slot page : Nat) : Bool :=
  (s.engine.any fun e => e.2.slot == slot && (dst e.2).any fun a => a / 4096 == page) ||
  s.gangs.any fun e => e.2.block == some .peer && match s.who (gangOfNum e.1) with
    | some w => w.slot == slot && e.2.unclass.any fun op => peerOpen op && opOnPage s w op page
    | none => false

/-- R297, R298: a reclassification is carried out: drain, write back, shared. -/
def makeShared (s : State) (slot page : Nat) : State :=
  match s.task? slot with
  | none => s
  | some t =>
    let s := collectPage (drainPage s slot page) slot t.ctx page
    match s.task? slot with
    | none => s
    | some t =>
      let t := t.setClass page .shared
      s.setTask slot { t with reclassing := t.reclassing.filter (· ≠ page) }

/-! ### Touches of pages -/

/-- R295: what a touch of a page does. -/
inductive Touch where
  | plain | claim | shared | drain | unread
  deriving DecidableEq, Repr

/-- R295: the touch of a page by a party of an owner. -/
def touchOf (t : Task) (owner : Nat) (write : Bool) (p : Nat) : Touch :=
  match t.classOf p with
  | .untouched => .claim
  | .priv o => if o = owner then .plain else .drain
  | .readOnly => if write then .unread else .plain
  | .shared => .shared

/-- The outcome of the touches of an access: a wait, or whether it is unclassified, and the pages that it claimed. -/
inductive Touched where
  | wait (why : Wait) (s : State)
  | go (unclass : Bool) (claims : List Nat) (s : State)

/-- R366: whether a team of a DETERMINISTIC task must wait for lower indices: those that have not retired, or, in a task that ends with
fault status or by force, whose teams retire no more, those still resident (R314, R315, R382). -/
def lowerLive (s : State) (slot : Nat) (t : Task) (index : Nat) : Bool :=
  t.rec_.deterministic &&
    if t.fault.isSome || t.estat ≠ 0 then s.teams.any fun e => e.2.slot == slot && e.2.index < index
    else (List.range index).any fun i => !BitSet.has t.retired i

/-- R276, R295 to R299, R366: the pages of an access are touched: reclassifications are asked for and waited for, once the gang's earlier
unclassified issue is over; force is a form that is unclassified whatever it touches; busy is the gang's unclassified issue in flight. -/
def touchPages (s : State) (slot index owner : Nat) (write force busy : Bool) (pages : List Nat) : Touched :=
  match s.task? slot with
  | none => .go force [] s
  | some t =>
    let kinds := pages.map fun p => (p, touchOf t owner write p)
    let drains := (kinds.filter fun k => k.2 == .drain || k.2 == .unread).map Prod.fst
    let unclass := force || kinds.any fun k => k.2 != .plain
    if pages.any t.reclassing.contains then .wait .reclassify s
    else if unclass && lowerLive s slot t index then .wait .lowerTeam s
    else if unclass && busy then .wait .unclassified s
    else if !drains.isEmpty then
      .wait .reclassify (s.setTask slot { t with reclassing := t.reclassing ++ drains.filter fun p => !t.reclassing.contains p })
    else
      let claims := (kinds.filter fun k => k.2 == .claim).map Prod.fst
      .go unclass claims (s.setTask slot (claims.foldl (fun t p => t.setClass p (.priv owner)) t))

/-- R296: what an issue with peer accesses waits for before its first request: it may still trap, and touches nothing yet. -/
def peerWaits (s : State) (slot index : Nat) (busy : Bool) (pages : List Nat) : Option Wait :=
  match s.task? slot with
  | none => none
  | some t =>
    if pages.any t.reclassing.contains then some .reclassify
    else if lowerLive s slot t index then some .lowerTeam
    else if busy then some .unclassified
    else none

/-- R221, R298: the read-only pages in which a stash mapping has dirty lines: their write-back is a store that makes the pages shared
first. -/
def stashPages (s : State) (slot : Nat) (m : Stash) : List Nat :=
  ((m.dirty.map fun e => (m.base + 128 * e.1) / 4096).filter fun p =>
    ((s.task? slot).map fun t => t.classOf p == .readOnly).getD false).eraseDups

/-- R221: the dirty lines of a stash mapping written to their home, as stores of the team. -/
def stashWriteBack (s : State) (k : Nat) (t : Team) (m : Stash) : State := m.dirty.foldl (fun s e => stashPut s k t m e.1) s

/-! ### Gangs that leave -/

/-- R154: chain slots whose owner has no gang left in the partition become invalid. -/
def dropChains (s : State) (core part slot : Nat) : State :=
  let still := s.gangs.any fun e =>
    let g := gangOfNum e.1
    g.core = core && g.part = part && ((s.team? e.2.team).map fun t => t.slot) == some slot
  if still then s
  else { s with chains := s.chains.map fun e =>
    if e.1 / 2 = core * 32 + part && e.2.owner = slot then (e.1, { e.2 with valid := false }) else e }

/-- A gang leaves its slot: its chain run or load no longer holds others up. -/
def removeGang (s : State) (g : GangRef) (slot : Nat) : State :=
  let s := { s with gangs := KMap.del s.gangs (gangNum g),
                    mxq := s.mxq.map fun e => (e.1, e.2.filter fun m => m.g ≠ g),
                    chains := s.chains.map fun e => (e.1, { e.2 with waiting := e.2.waiting.filter fun w => w.1 ≠ g }) }
  dropChains s g.core g.part slot

/-! ### Engine signal updates -/

/-- R236: where an engine operation's signal update goes, or the cause it fails with. -/
def signalPlace (s : State) (op : EngineOp) (sig : Nat) : Except Nat (Nat × W64) :=
  match agentXlat s op.ctx sig .write with
  | .ok pa leaf => if ((s.task? op.slot).map fun t => mayWrite s op.ctx t.rec_ sig 8).getD true then .ok (pa, leaf) else .error 0x22
  | .peer _ _ _ => .error 0x21
  | .fail c => .error c

/-- R236: an engine operation ends: its fault is logged and counted, and its signal object updated unless that fails. The update is an
access of its team (R235), which has touched its page. -/
def engineFinish (s : State) (op : EngineOp) (fault addr : Nat) : State :=
  let taskid := ((s.task? op.slot).map fun t => t.rec_.taskid).getD 0#32
  let entry (cause a : Nat) : LogEntry :=
    { LogEntry.onCore s.tick 0x04 op.core with cause, ctx := op.ctx, taskid, addr := a }
  let own (s : State) : State := if fault = 0 then s else logCtx s op.ctx [entry fault addr]
  match op.sig with
  | none => own (if fault = 0 then s else s.bump .engflt op.ctx)
  | some sig =>
    match signalPlace s op sig with
    | .error cause => logCtx (own (s.bump .engflt op.ctx)) op.ctx [entry cause sig]
    | .ok (pa, leaf) =>
      let s := if op.slot = 128 then s else portCross s op.core op.ctx
      let (_, bad, s') := homeEvent (noteStore (correctAt s op.ctx sig pa leaf 8) op.slot pa 8) pa 8 (sigUpdate fault) (.of op.ctx)
      if bad then
        let s' := rowPoison (own (s'.bump .engflt op.ctx)) op.ctx op.slot sig op.core
        -- R391: a COPY's failure is logged with the signal address as well
        if op.slot = 128 then logCtx s' op.ctx [entry 0x02 sig] else s'
      else own (if fault = 0 then s' else s'.bump .engflt op.ctx)

/-! ### The end of a team -/

/-- The engine operations of a team. -/
def teamOps (s : State) (k : Nat) : List (Nat × EngineOp) := s.engine.filter fun e => e.2.team = k

/-- R375, R380: progress of a context. -/
def noteProgress (s : State) (ctx : Nat) : State :=
  { s with ctxs := KMap.modify s.ctxs ctx fun c => { c with progress := s.tick, stallDrained := false } }

/-- R314 steps 5 and 6, R266, R320: a team's dirty lines reach their homes, its lines are dropped, and its resources are free. -/
def dropTeam (s : State) (k : Nat) (t : Team) : State :=
  let s := t.stashes.foldl (fun s m => stashWriteBack s k t m) s
  let s := dropLines s fun l => l.teams.contains k
  { s with teams := KMap.del s.teams k }

/-- R266, R314: whether a gang or an engine operation of a team is left. -/
def teamBusy (s : State) (k : Nat) (t : Team) : Bool := t.gangs.any (fun g => (s.gang? g).any fun x => x.team = k) || !(teamOps s k).isEmpty

/-- R221, R295, R298, R366: the touches that the write-backs of a team's stash lines make: read-only pages among theirs become shared
first. -/
def stashTouch (s : State) (t : Team) : Touched :=
  touchPages s t.slot t.index (ownerOf t.index 0) true false false (t.stashes.flatMap (stashPages s t.slot))

/-- R314 steps 4 to 6: a team that was stopped is gone once nothing of it is left in flight and its stash lines may be written back. -/
def retireStopped (s : State) (k : Nat) : State :=
  match s.team? k with
  | none => s
  | some t =>
    if !t.dying || teamBusy s k t then s
    else match stashTouch s t with
      | .wait _ s => s
      | .go _ _ s => dropTeam s k t

/-- R266, R320, R325: a team whose gangs and engine operations are gone retires; one that was stopped is dropped (R314). -/
def tryRetireTeam (s : State) (k : Nat) : State :=
  match s.team? k with
  | none => s
  | some t =>
    if t.dying then tryEnd (retireStopped s k) t.slot
    else if teamBusy s k t then s
    else match stashTouch s t with
      | .wait _ s => s
      | .go _ _ s =>
        let s := dropTeam s k t
        let s := match s.task? t.slot with
          | none => s
          | some task => s.setTask t.slot { task with
              retired := BitSet.put task.retired t.index true,
              digest := if task.rec_.digest then task.digest + t.digest else task.digest,
              longest := max task.longest (s.tick - t.placedAt),
              teamsRetired := task.teamsRetired + 1#64 }
        let s := noteProgress s t.ctx
        tryEnd { s with ctxs := KMap.modify s.ctxs t.ctx fun c => { c with retiredAt := some s.tick } } t.slot

/-- R266, R298, R314, R366: the teams of a task slot that have only waited retire, lower indices first. -/
def retireReady (s : State) (slot : Nat) : State :=
  let mine := (s.teams.filter fun e => e.2.slot = slot).foldl (fun (m : KMap Nat) e => KMap.put m e.2.index e.1) []
  mine.foldl (fun s e => tryRetireTeam s e.2) s

/-! ### Killing a team -/

/-- R419: a gang leaves: its counts join the task's. -/
def leaveGang (s : State) (slot : Nat) (g : GangRef) : State :=
  match s.gang? g, s.task? slot with
  | some x, some t =>
    removeGang (s.setTask slot { t with sumIssues := t.sumIssues + x.issues, sumUnclass := t.sumUnclass + x.unclassCount }) g slot
  | _, _ => removeGang s g slot

/-- R314 steps 2, 3 and 6 for one gang: its fills, held stores and queued MXOPs are discarded, the accesses in flight are performed, and it
is removed with its registers. One whose issue waits for a peer stays until that issue is over; a wait for a condition ends without its
read (log entry 102). -/
def killGang (s : State) (slot : Nat) (g : GangRef) : State :=
  match s.gang? g with
  | none => s
  | some x =>
    let s := { s.setGang g { x with heldStores := [], fills := [], stopped := false } with
      mxq := s.mxq.map fun e => (e.1, e.2.filter fun m => m.g ≠ g) }
    match x.block with
    | some .peer => s
    | some (.signal _) | some (.object _) => leaveGang s slot g
    | _ => leaveGang (completeUnclass (finishLate s g) g) slot g

/-- R314: the steps of a kill that a forced reset shares; err is the code its engine operations signal. Engine operations that have made
no access are removed; one that has begun goes on to its element's end and signals, and what is in flight to a peer comes to its
end: until then the team's scratchpad and lines are kept. -/
def stopTeam (s : State) (k err : Nat) : State :=
  match s.team? k with
  | none => s
  | some t =>
    if t.dying then s
    else
      let stop (o : EngineOp) : EngineOp := { o with stopped := true, fault := if o.fault ≠ 0 then o.fault else err }
      let left := s.engine.filter fun e => e.2.team ≠ k || e.2.touched
      let s := { s with engine := left.map fun (e : Nat × EngineOp) => if e.2.team = k then (e.1, stop e.2) else e }
      let s := s.setTeam k { t with carve := none, arr := [], dying := true }
      let mine := t.gangs.filter fun g => (s.gang? g).any fun x => x.team = k
      retireStopped (mine.foldl (fun s g => killGang s t.slot g) s) k

/-- The first core of a team. -/
def Team.core (t : Team) : Nat := (t.halves.headD ⟨0, [], [], [], [], []⟩).core

/-- R411, R422: what the kill of a team leaves in the error log and the trace. -/
def reportKill (s : State) (t : Team) (taskid : W32) (cause addr : Nat) (again : Bool) : State :=
  traceTask (logCtx s t.ctx [{ LogEntry.onCore s.tick 0x03 t.core with
    cause, ctx := t.ctx, taskid, addr, info := t.index + if again then 2 ^ 31 else 0 }]) t.ctx (t.core / 32) taskid 2 t.index t.core

/-- R313 to R315, R411: a team is killed with a cause: relaunched in a RESTARTABLE task, at most three times for an index;
otherwise its task ends with fault status, and its other resident teams are killed with it. -/
def killTeam (s : State) (k cause addr : Nat) : State :=
  match s.team? k with
  | none => s
  | some t =>
    if t.dying then s
    else match s.task? t.slot with
    | none => stopTeam s k cause
    | some task =>
      let used := KMap.get task.relaunches 0 t.index
      let again := task.rec_.restartable && used < 3 && task.fault.isNone
      let s := stopTeam s k cause
      let s := reportKill (if again then s.bump .relaunch t.ctx else s) t task.rec_.taskid cause addr again
      match s.task? t.slot with
      | none => s
      | some task =>
        if again then
          s.setTask t.slot { task with relaunches := KMap.set task.relaunches 0 t.index (used + 1),
                                       relaunch := task.relaunch ++ [t.index],
                                       teamsRetired := task.teamsRetired + 1#64 }
        else
          let s := s.setTask t.slot { task with fault := some (cause, t.index) }
          let rest := s.teams.filter fun e => e.2.slot = t.slot && !e.2.dying
          let s := rest.foldl (fun s e => reportKill (stopTeam s e.1 cause) e.2 task.rec_.taskid cause 0 false) s
          tryEnd (retireReady s t.slot) t.slot

end Sys2Proof.Machine
end

