-- ==== Sys2Proof/Machine/Operands.lean ====
section
/-! DEFINITION. Operand fields: their classes (R13), the classes each position accepts (R14 and the operand tables of the
instruction chapters), special sources (R41, R42), IMM (R16), and the values sources supply (R38, R52). -/

namespace Sys2Proof.Machine

/-- R13: what a 12-bit operand value names. -/
inductive Opnd where
  | v (k : Nat)
  | s (k : Nat)
  | p (k : Nat)
  | n (k : Nat)
  | w (k : Nat)
  | special (x : Nat)
  | reserved
  deriving DecidableEq, Repr

/-- R13, R41: the meaning of an operand value. -/
def opnd (x : W12) : Opnd :=
  let n := x.toNat
  if n < 0x600 then .v n
  else if n < 0x640 then .s (n - 0x600)
  else if n < 0x648 then .p (n - 0x640)
  else if n < 0x658 then .n (n - 0x648)
  else if n < 0x678 then .w (n - 0x658)
  else if n ≤ 0x684 || (0x690 ≤ n && n ≤ 0x69B) then .special n
  else .reserved

/-- The classes a position accepts. -/
inductive Cls where
  | v | s | p | n | w
  | zero
  /-- The constants of R42. -/
  | const
  /-- IMM, where the form has no C field and no use of IMM of its own (R15, R16). -/
  | imm
  /-- Any special source R41 allows for the type, but IMM. -/
  | special
  deriving DecidableEq, Repr

/-- The classes of the four positions of a form. -/
structure OpSpec where
  d : List Cls := []
  a : List Cls := []
  b : List Cls := []
  c : List Cls := []
  deriving DecidableEq, Repr

/-- V or S. -/
def clsVS : List Cls := [.v, .s]
/-- R96: a source of an INT or BIT form. -/
def clsInt : List Cls := [.v, .s, .zero, .const, .special, .imm]
/-- R124: a source of an FP or SFU form. -/
def clsFp : List Cls := [.v, .s, .zero, .const, .imm]
/-- R209: a data source of a MEM or ATOM form. -/
def clsData : List Cls := [.v, .s, .zero, .const]

/-- R96, R109, R111, R124, R142, R157 to R161, R164, R188 to R194, R204 to R209, R231: the classes of each form's positions; A and B of
FCMP are log entry 88's. -/
def operandSpec (i : Instr) (m : Form) (f : Fields) : OpSpec :=
  match m.cls with
  | 0 => match i with
    | .bri _ | .ret _ => { a := clsVS }
    | .call _ => { d := clsVS }
    | .calli _ => { d := clsVS, a := clsVS }
    | .elect _ => { d := [.p] }
    | .vote _ => { d := if f.mod.toNat % 8 < 4 then [.p] else clsVS, a := [.p] }
    | .pset _ => { d := [.p], a := [.p], b := [.p] }
    | .pmov _ => if f.mod.toNat = 0 then { d := [.p], a := [.v, .s, .p, .zero, .imm] } else { d := clsVS, a := [.p] }
    | _ => {}
  | 1 => match i with
    | .icmp _ => { d := [.p], a := clsInt, b := clsInt }
    | .iaddc _ | .isel _ => { d := clsVS, a := clsInt, b := clsInt, c := [.p] }
    | _ => { d := clsVS, a := clsInt, b := clsInt, c := clsInt }
  | 2 => { d := clsVS, a := clsInt, b := clsInt }
  | 3 => match i with
    | .fcmp _ => { d := [.p], a := clsFp, b := clsFp }
    | _ => { d := clsVS, a := clsFp, b := clsFp, c := clsFp }
  | 4 => match i with
    | .cvt _ => { d := clsVS, a := [.v, .s, .zero, .const, .special] }
    | _ => { d := clsVS, a := clsFp, b := clsFp }
  | 5 => match i with
    | .shfl _ => { d := clsVS, a := [.v], b := [.v, .s, .zero, .imm] }
    | .pack _ => { d := clsVS, a := [.v], b := [.v, .s, .zero] }
    | .swz _ | .bcast _ | .unpack _ => { d := clsVS, a := [.v] }
    | .sxpack _ | .sxunp _ => { d := [.w], a := [.w] }
    | _ => { d := clsVS, a := clsVS }
  | 6 => match i with
    | .dvdot _ => { d := clsVS, a := [.w], b := [.w] }
    | .dvscl _ => { d := [.w], a := [.w], b := clsFp }
    | .dvaxpy _ => { d := [.w], a := [.w], b := [.w], c := clsFp }
    | .dvnrm _ => { d := clsVS, a := [.w, .n] }
    | .dvsetn _ => { d := [.w], a := clsFp }
    | .dvcmp _ => { d := [.p], a := [.w], b := [.w], c := clsFp }
    | .dvld _ => { d := [.w], a := clsVS }
    | .dvst _ => { a := clsVS, b := [.w] }
    | _ => { d := [.w], a := [.w], b := [.w] }
  | 7 => match i with
    | .tvset _ => { d := [.w], a := [.v, .s, .zero] }
    | .tvget _ => { d := clsVS, a := [.w] }
    | .mxop _ => { a := [.v, .s, .zero] }
    | .tokgive _ | .toktake _ => { a := [.w] }
    | .tzero _ => { d := [.w] }
    | .tcvt _ => { d := [.w], a := [.w] }
    | _ => {}
  | 8 => match i with
    | .chld _ => { a := clsVS }
    | .chrun _ => { d := clsVS, a := [.v, .s, .zero], b := [.v, .s, .zero], c := [.v, .s, .zero] }
    | .chqry _ => { d := clsVS }
    | _ => {}
  | 9 => match i with
    | .stash _ => { a := clsVS, b := clsVS }
    | _ => { d := clsVS, a := clsVS, b := clsData }
  | 10 => match i with
    | .rowadd _ => { a := clsVS, b := [.w], c := [.s] }
    | .rowld _ => { d := [.p], a := clsVS, b := [.w], c := [.s] }
    | _ => { d := clsVS, a := clsVS, b := clsData, c := clsData }
  | 11 => { d := clsVS, a := clsVS, b := [.v, .s, .zero, .const, .imm] }
  | _ => { d := clsVS, a := clsVS }

/-- R42: the image of a constant in one sub-element of a type; none where the table has a dash. -/
def constImage (x t : Nat) : Option Nat :=
  let w := typeWidth t
  if x = 0x69B then some (2 ^ w - 1)
  else if typeIsFloat t then
    let F := fmtOf t
    let pick (d s h b : Nat) : Nat := if t = 9 then d else if t = 8 then s else if t = 10 then h else b
    match x with
    | 0x690 => some (F.roundMag 0 false 1 0 false).1
    | 0x691 => some (F.roundMag 0 true 1 0 false).1
    | 0x692 => some (F.roundMag 0 false 1 1 false).1
    | 0x693 => some (F.roundMag 0 false 1 (-1) false).1
    | 0x694 => some (F.inf false)
    | 0x695 => some F.qnan
    | 0x696 => some (pick 0x400921FB54442D18 0x40490FDB 0x4248 0x4049)
    | 0x697 => some (pick 0x3FE62E42FEFA39EF 0x3F317218 0x398C 0x3F31)
    | 0x698 => some (pick 0x3FF71547652B82FE 0x3FB8AA3B 0x3DC5 0x3FB9)
    | 0x699 => some (F.maxFin false)
    | 0x69A => some (2 ^ F.fbits)
    | _ => none
  else match x with
    | 0x690 => some 1
    | 0x691 => if typeIsSigned t then some (2 ^ w - 1) else none
    | 0x692 => some 2
    | _ => none

/-- R41: whether a special source is allowed for a type code. -/
def specialAllowed (x t : Nat) : Bool :=
  if x = 0x678 || x = 0x679 then true
  else if x = 0x67C || x = 0x67D then t < 4
  else if 0x67A ≤ x && x ≤ 0x681 then t < 8
  else if 0x682 ≤ x && x ≤ 0x684 then t = 2 || t = 3
  else (constImage x t).isSome

/-- The type code by which a form reads a source: its own; the source type of CVT (R139); F32x2 or the 32-bit integer type for
C of FDOT2 and IDOT4 (R120, R129); N64 for untyped forms (log entry 11); binary32 or I32 for DIR scalars (R166). -/
def srcType (i : Instr) (m : Form) (f : Fields) (isC : Bool) : Nat :=
  match i with
  | .cvt _ => f.imm.toNat % 16
  | .fdot2 _ => if isC then 8 else f.tcode
  | .idot4 _ => if isC then (if f.tcode = 6 then 0 else 1) else f.tcode
  | .dvscl _ => if f.mod.toNat % 4 = 1 then 8 else 0
  | .dvsetn _ => if f.mod.toNat % 4 = 1 then 8 else 0
  | .dvaxpy _ | .dvcmp _ => 8
  | _ => if m.types = .untyped then 3 else f.tcode

/-- Whether a position's field is of a class it accepts, lies in the window (R14), and is allowed for the type (R41). -/
def operandOk (cs : List Cls) (immOk : Bool) (window t : Nat) (x : W12) : Bool :=
  match opnd x with
  | .v k => cs.contains .v && k < window
  | .s _ => cs.contains .s
  | .p _ => cs.contains .p
  | .n _ => cs.contains .n
  | .w _ => cs.contains .w
  | .special y =>
    if y = 0x678 then cs.contains .zero
    else if y = 0x679 then cs.contains .imm && immOk
    else if y ≥ 0x690 then cs.contains .const && specialAllowed y t
    else cs.contains .special && specialAllowed y t
  | .reserved => false

/-- R211: a form whose register operand is a pair. -/
def isPair (i : Instr) (f : Fields) : Bool :=
  match i with
  | .ld _ | .lds _ | .ldx _ | .ldk _ | .st _ | .sts _ | .stx _ => f.variant == 2
  | _ => false

/-- R211: a pair lies in the window or in the S file. -/
def pairOk (window : Nat) (x : W12) : Bool :=
  match opnd x with
  | .v k => k + 1 < window
  | .s k => k < 63
  | _ => true

/-- R14, R15, R16: whether every used operand field is acceptable. -/
def operandsOk (i : Instr) (m : Form) (f : Fields) (window : Nat) : Bool :=
  let sp := operandSpec i m f
  let immOk := !m.useC && m.immRule == .unused
  let t := srcType i m f false
  (!m.useD || operandOk sp.d false window t f.d) &&
  (!m.useA || operandOk sp.a immOk window t f.a) &&
  (!m.useB || operandOk sp.b immOk window t f.b) &&
  (!m.useC || operandOk sp.c false window (srcType i m f true) f.c) &&
  (!isPair i f || ((!m.useD || pairOk window f.d) && (m.useD || pairOk window f.b))) &&
  (match i with
    | .rowld _ => f.c.toNat < 0x63F
    | _ => true)

/-- R16: the lane value of IMM under a type code; ZeroExt(IMM, 32) in an untyped form. -/
def immValue (untyped : Bool) (t : Nat) (imm : W32) : W64 :=
  if untyped then imm.zeroExtend 64
  else match t with
    | 2 => BitVec.ofInt 64 (signExt imm.toNat 32)
    | 3 => imm.zeroExtend 64
    | 9 =>
      match f32.unpack imm.toNat with
      | .nan _ => w64 ((imm.toNat / 2 ^ 31) * 2 ^ 63 + 0x7FF * 2 ^ 52 + imm.toNat % 2 ^ 23 * 2 ^ 29)
      | .inf neg => w64 (f64.inf neg)
      | .fin neg m e => w64 (f64.roundMag 0 neg m e false).1
    | _ => mapSubs (typeWidth t) fun _ => imm.toNat % 2 ^ typeWidth t

end Sys2Proof.Machine
end

