-- ==== Sys2Proof/Machine/Flags.lean ====
section
/-! DEFINITION. FPCTL and FPSTAT (R62 to R65): rounding modes, enables and the sticky flags. -/

namespace Sys2Proof.Machine

/-- R62: RM. -/
def fpRM (fpctl : W32) : Nat := fpctl.toNat % 4
/-- R62: FTZ. -/
def fpFTZ (fpctl : W32) : Bool := fpctl.getLsbD 2
/-- R62: the enables in FPSTAT order: NV, DZ, OF, UF, NX. -/
def fpEnables (fpctl : W32) : Flags := fpctl.extractLsb' 8 5

/-- R62: the bits FPCTL holds; the others read 0. -/
def fpctlMask : W32 := 0x1F07#32
/-- R63: the bits FPSTAT holds. -/
def fpstatMask : W32 := 0x1F#32

/-- R63: flags ORed into FPSTAT. -/
def orFlags (fpstat : W32) (fl : Flags) : W32 := fpstat ||| fl.zeroExtend 32

/-- R127: the rounding mode of a variant: 0 FPCTL.RM, 1 nearest even, 2 toward zero. -/
def variantMode (fpctl : W32) (v : Nat) : Nat := if v = 1 then 0 else if v = 2 then 1 else fpRM fpctl

/-- R135: the direction of FROUND. -/
def froundMode (fpctl : W32) (v : Nat) : Nat := if v = 1 then 1 else if v = 2 then 3 else if v = 3 then 2 else fpRM fpctl

/-- R64: the flags of all lanes together. -/
def allFlags (l : List (Nat × Flags)) : Flags := l.foldl (fun a x => a ||| x.2) 0#5

/-- R64: the lanes that raised an enabled flag. -/
def enabledLanes (en : Flags) (l : List (Nat × Flags)) : LaneMask :=
  maskOf fun k => l.any fun x => x.1 == k && x.2 &&& en != 0#5

end Sys2Proof.Machine
end

