-- ==== Sys2Proof/Machine/Ops.lean ====
section
/-! DEFINITION. The issue of one instruction by a gang: what an instruction finds before it acts (decode checks, guard, views,
tokens, waits, poison), how it reads its sources and writes its destinations, how it commits, how a trap is taken and how RTE
returns from it (R12 to R24, R38 to R56, R99, R190, R200, R268 to R275, R300 to R313). -/

namespace Sys2Proof.Machine

/-- A cause with what the trap registers receive (R300); TPC is the issue's address where none is given. -/
structure TrapInfo where
  cause : Nat
  tmask : LaneMask
  taddr : W64
  thit : LaneMask
  tpc : Option W64
  deriving DecidableEq, Repr

/-- An issue about to act: the gang as its instruction reads it, the party, its task, the instruction, its lane set and its
Active lanes (R51). -/
structure Iss where
  ref : GangRef
  g : Gang
  who : Who
  task : Task
  i : Instr
  m : Form
  f : Fields
  pc : W64
  set : LaneMask
  active : LaneMask

/-- What a commit does beyond the registers and memory: next PCs of lanes that do not fall through, lanes that end, a cause
taken after the effect, whether the issue is a taken branch, call or return, and whether it is an RTE. -/
structure Post where
  next : List (Nat × W64) := []
  ended : LaneMask := 0#64
  after : Option TrapInfo := none
  branch : Bool := false
  /-- RTE: the return is made once the issue is counted (R307). -/
  rte : Bool := false
  /-- SLEEP 0: the issue yields (R257). -/
  yields : Bool := false

/-- The outcome of an instruction's own part of its issue. -/
inductive Res where
  | wait (why : Wait) (s : State)
  | trap (t : TrapInfo) (s : State)
  | done (s : State) (p : Post)

/-! ### Lanes -/

/-- The lanes that take part in issues: live, and not held by a handler (R305). -/
def Gang.runners (g : Gang) : LaneMask := g.live &&& ~~~g.held
/-- The PC of a lane. -/
def Gang.pcOf (g : Gang) (l : Nat) : W64 := KMap.get g.pc 0#64 l
/-- WAIT of a lane (R271). -/
def Gang.waitOf (g : Gang) (l : Nat) : Nat := KMap.get g.wait 0 l

/-- The lanes among m at a PC. -/
def Gang.lanesAt (g : Gang) (m : LaneMask) (pc : W64) : LaneMask := maskOf fun l => m.getLsbD l && g.pcOf l == pc

/-- R271: the runs, as PC, lanes and WAIT, by increasing PC. -/
def Gang.runs (g : Gang) : List (Nat × LaneMask × Nat) :=
  let m := g.runners
  let pcs := (lanesOf m).foldl (fun (k : KMap Unit) l => KMap.put k (g.pcOf l).toNat ()) []
  pcs.map fun e =>
    let set := g.lanesAt m (w64 e.1)
    (e.1, set, (lanesOf set).foldl (fun w l => max w (g.waitOf l)) 0)

/-- R271: the lane set of the next issue: minimum PC, or the oldest run when it is due. -/
def Gang.chooseSet (g : Gang) : Option (W64 × LaneMask) :=
  match g.runs with
  | [] => none
  | r :: rs =>
    let d := (r :: rs).length
    let oldest := rs.foldl (fun b x => if x.2.2 > b.2.2 then x else b) r
    let pick := if oldest.2.2 ≥ 65 - d then oldest else r
    some (w64 pick.1, pick.2.1)

/-! ### Register reads -/

/-- R21, R51: the transient results an issue of a lane set can see, one issue older; an issue of another lane set than the last one's
finds nothing in the operand-reuse latch. -/
def Gang.seen (g : Gang) (set : LaneMask) : Gang :=
  { g with transients := (g.transients.filter fun t => t.set == set && t.age < 3).map fun t => { t with age := t.age + 1 },
           holdLatch := if g.lastSet = set then g.holdLatch else [] }

/-- A visible transient result of a register in a lane; 64 is the lane of an S register. -/
def Gang.transient? (g : Gang) (x : W12) (lane : Nat) : Option W64 :=
  (g.transients.find? fun t => t.reg == x && t.lane == lane).map fun t => t.val

/-- R39: a predicate bit; P7 reads 1. -/
def Gang.predBit (g : Gang) (k l : Nat) : Bool := k == 7 || (KMap.get g.p 0#64 k).getLsbD l

/-- R38, R52: the 64 bits of a register read in a lane. -/
def Gang.regVal (g : Gang) (x : W12) (lane : Nat) : W64 :=
  match opnd x with
  | .v k => (g.transient? x lane).getD (g.vReg k lane)
  | .s k => (g.transient? x 64).getD (KMap.get g.s 0#64 k)
  | .p k => if g.predBit k lane then 1#64 else 0#64
  | .n k => (KMap.get g.n 0x80000000#32 k).zeroExtend 64
  | .w k => KMap.get g.w 0#64 k
  | _ => 0#64

/-- R18: whether the register named is empty in a lane. A transient result hides an empty register. -/
def Gang.regEmpty (g : Gang) (x : W12) (lane : Nat) : Bool :=
  match opnd x with
  | .v k => (g.transient? x lane).isNone && BitSet.has g.vEmpty (k * g.width + lane)
  | .s k => (g.transient? x 64).isNone && BitSet.has g.sEmpty k
  | .p k => k != 7 && (KMap.get g.pEmpty 0#64 k).getLsbD lane
  | .n k => BitSet.has g.nEmpty k
  | _ => false

/-- R56, R171, R217: whether one of the 32-bit words asked for (lower, upper) of the register named is poisoned in a lane. -/
def Gang.regPoison (g : Gang) (x : W12) (lane : Nat) (halves : BitVec 2 := 3#2) : Bool :=
  match opnd x with
  | .v k => (g.transient? x lane).isNone &&
      ((halves.getLsbD 0 && BitSet.has g.vPoison (2 * (k * g.width + lane))) ||
        (halves.getLsbD 1 && BitSet.has g.vPoison (2 * (k * g.width + lane) + 1)))
  | .s k => (g.transient? x 64).isNone &&
      ((halves.getLsbD 0 && BitSet.has g.sPoison (2 * k)) || (halves.getLsbD 1 && BitSet.has g.sPoison (2 * k + 1)))
  | .n k => BitSet.has g.nPoison k
  | _ => false

/-- R55: whether the V register named holds a correctable error in a lane. -/
def Gang.regCorr (g : Gang) (x : W12) (lane : Nat) : Bool :=
  match opnd x with
  | .v k => (g.transient? x lane).isNone &&
      (BitSet.has g.vCorr (2 * (k * g.width + lane)) || BitSet.has g.vCorr (2 * (k * g.width + lane) + 1))
  | _ => false

/-- R54: whether the latch-file entry of the full/empty bits of the register named has a parity error. -/
def Gang.fullParity (g : Gang) (x : W12) : Bool :=
  match opnd x with
  | .v k => g.parity.contains (.fullV k)
  | .s k => g.parity.contains (.fullS k)
  | .p k => g.parity.contains (.fullP k)
  | .n k => g.parity.contains (.fullN k)
  | _ => false

/-- R21, R54: whether a source is taken from an entry of the operand-reuse latch that has a parity error. -/
def Gang.holdParity (g : Gang) (x : W12) : Bool :=
  g.holdLatch.any fun e => e.2 == x && g.parity.contains (.hold e.1)

/-- R54: whether an entry of the latch files that a read of the register named looks at has a parity error. -/
def Gang.regParity (g : Gang) (x : W12) : Bool :=
  (match opnd x with
    | .s k => g.parity.contains (.s k)
    | .p k => g.parity.contains (.p k)
    | .n k => g.parity.contains (.n k)
    | .w k => g.parity.contains (.w k)
    | _ => false) || g.fullParity x || g.holdParity x

/-- A register operand value of a class from its base (R13). -/
def opndV (k : Nat) : W12 := BitVec.ofNat 12 k
def opndP (k : Nat) : W12 := BitVec.ofNat 12 (0x640 + k)
def opndN (k : Nat) : W12 := BitVec.ofNat 12 (0x648 + k)

/-! ### Views -/

/-- A view field of a form: its W number, the kinds allowed, the hint of its field, whether it is read and written, whether
the form may touch it while it is lent (R190). -/
structure ViewUse where
  w : Nat
  kinds : List Nat
  hint : Bool
  src : Bool
  dst : Bool
  lentOk : Bool := false
  deriving DecidableEq, Repr

/-- The operand code of W0 (R13). -/
def wFirst : Nat := 0x658
/-- The W number of an operand field. -/
def wNum (x : W12) : Nat := x.toNat - wFirst
/-- Whether a field names a W register. -/
def isW (x : W12) : Bool := 0x658 ≤ x.toNat && x.toNat < 0x678

/-- R152, R164, R191, R205, R206, R226, R227: the views of a form that are checked under R46. MXOP's are in its block. -/
def viewUses (i : Instr) (f : Fields) : List ViewUse :=
  let d (kinds : List Nat) : ViewUse := ⟨wNum f.d, kinds, false, false, true, false⟩
  let a (kinds : List Nat) : ViewUse := ⟨wNum f.a, kinds, f.fa, true, false, false⟩
  let b (kinds : List Nat) : ViewUse := ⟨wNum f.b, kinds, f.fb, true, false, false⟩
  match i with
  | .sxpack _ | .sxunp _ => [d [1], a [1]]
  | .dvmk _ => [d [3], a [1]]
  | .dvflat _ => [d [1], a [3]]
  | .dvdot _ | .dvcmp _ => [a [3], b [3]]
  | .dvscl _ | .dvneg _ | .dvren _ => [d [3], a [3]]
  | .dvadd _ | .dvaxpy _ | .dvproj _ | .dvmul _ => [d [3], a [3], b [3]]
  | .dvnrm _ => if isW f.a then [a [3]] else []
  | .dvsetn _ | .dvld _ => [d [3]]
  | .dvst _ => [b [3]]
  | .tokgive _ => [{ a [2] with lentOk := true, src := false }]
  | .tzero _ => [d [1, 2]]
  | .tcvt _ => [d [1, 2], a [1, 2]]
  | .rowadd _ => [b [1]]
  | .rowld _ => [{ b [1] with src := false, dst := true, hint := f.fb }]
  | _ => []

/-- R46: the checks of one view descriptor in a window of n registers. -/
def viewBad (kinds : List Nat) (width n : Nat) (d : W64) : Bool :=
  let k := viewKind d
  let fm := viewFmt d
  !kinds.contains k ||
  !(if k = 1 then fm ≤ 7 else if k = 2 then fm = 0 || fm = 4 else fm = 8) ||
  2 ≤ viewLayout d || d.extractLsb' 48 16 ≠ 0#16 ||
  viewRows d = 0 || viewCols d = 0 ||
  (if k = 1 then !(5 ≤ fm && fm ≤ 7) && d.extractLsb' 36 8 ≠ 0#8
   else if k = 3 then d.extractLsb' 40 4 ≠ 0#4
   else d.extractLsb' 36 8 ≠ 0#8) ||
  (k = 1 && 5 ≤ fm && fm ≤ 7 && (if viewLayout d = 0 then viewCols d else viewRows d) % 16 ≠ 0) ||
  (k = 3 && (viewRows d ≠ 1 || !([4, 8, 16, 32].contains (viewCols d)) || viewLayout d ≠ 0)) ||
  n < viewBase d + viewRegs d width

/-- The descriptor in a W register. -/
def Gang.wReg (g : Gang) (k : Nat) : W64 := KMap.get g.w 0#64 k

/-- R152, R164, R165, R206, R226, R227: a form's own checks of its views. -/
def viewExtraBad (i : Instr) (f : Fields) (g : Gang) : Bool :=
  let D := g.wReg (wNum f.d)
  let A := g.wReg (wNum f.a)
  let B := g.wReg (wNum f.b)
  let shape (x y : W64) : Bool := viewRows x == viewRows y && viewCols x == viewCols y
  let ieee (x : W64) : Bool := viewFmt x ≤ 2
  let sx (x : W64) : Bool := 5 ≤ viewFmt x && viewFmt x ≤ 7
  let len (x : W64) : Nat := 16 * viewCols x
  let tileOf (t v : W64) : Bool := viewRows t * viewCols t == len v && t.extractLsb' 36 8 == 0#8
  match i with
  | .sxpack _ => !(shape D A && ieee A && sx D)
  | .sxunp _ => !(shape D A && sx A && ieee D)
  | .dvmk _ => !(ieee A && tileOf A D)
  | .dvflat _ => !((viewFmt D == 0 || viewFmt D == 2) && tileOf D A)
  | .dvdot _ | .dvcmp _ => viewCols A != viewCols B
  | .dvscl _ | .dvneg _ | .dvren _ => viewCols D != viewCols A
  | .dvadd _ | .dvaxpy _ | .dvproj _ | .dvmul _ => viewCols D != viewCols A || viewCols D != viewCols B
  | .tcvt _ =>
    let fa := viewFmt A
    let fd := viewFmt D
    !(shape D A && ((ieee A && (ieee D || sx D)) || (sx A && (ieee D || sx D)) || (fa == 4 && fd == 3) || (fa == 3 && fd == 4)))
  | .rowadd _ | .rowld _ =>
    let n := viewRows B * viewCols B
    !(viewFmt B == 2 && n % 32 == 0 && n ≤ 512)
  | _ => false

/-- Whether two views share a register. -/
def viewsMeet (width : Nat) (x y : W64) : Bool :=
  viewBase x < viewBase y + viewRegs y width && viewBase y < viewBase x + viewRegs x width

/-- R48: whether a view's registers, and a DIR view's norm entry, are full in every lane. -/
def Gang.viewReady (g : Gang) (d : W64) : Bool :=
  ((List.range (viewRegs d g.width * g.width)).all fun c =>
    !g.regEmpty (opndV (viewBase d + c / g.width)) (c % g.width)) &&
  !(viewKind d == 3 && BitSet.has g.nEmpty (viewNidx d))

/-- R44, R56: the lanes in which a poisoned word of a view's own bytes lies. -/
def Gang.viewPoisonLanes (g : Gang) (d : W64) : LaneMask :=
  let hs := (List.range ((viewBytes d + 3) / 4)).filter fun h =>
    (g.transient? (opndV (viewBase d + h / 2 / g.width)) (h / 2 % g.width)).isNone &&
      BitSet.has g.vPoison (2 * (viewBase d * g.width) + h)
  maskOf fun l => hs.any fun h => h / 2 % g.width == l

/-- R171: whether a DIR view's norm entry is marked. -/
def Gang.normPoison (g : Gang) (d : W64) : Bool := viewKind d == 3 && BitSet.has g.nPoison (viewNidx d)

/-- R171, R203: whether a view's own bytes hold a poisoned word, or a DIR view's norm entry is marked. -/
def Gang.viewPoison (g : Gang) (d : W64) : Bool := g.viewPoisonLanes d != 0#64 || g.normPoison d

/-- R51, R52, R55: the 32-bit words, by number, of a view's own bytes that are read from the array: those that no transient result
hides. -/
def Gang.viewWords (g : Gang) (d : W64) : List Nat :=
  ((List.range ((viewBytes d + 3) / 4)).filter fun h =>
    (g.transient? (opndV (viewBase d + h / 2 / g.width)) (h / 2 % g.width)).isNone).map (2 * (viewBase d * g.width) + ·)

/-- R55: whether a view's bytes hold a correctable error. -/
def Gang.viewCorr (g : Gang) (d : W64) : Bool := (g.viewWords d).any (BitSet.has g.vCorr)

/-- R44: the byte string of a view, as a little-endian number. -/
def Gang.viewVal (g : Gang) (d : W64) : Nat :=
  let n := viewRegs d g.width * g.width
  (ofSubs 64 ((List.range n).map fun c => (g.regVal (opndV (viewBase d + c / g.width)) (c % g.width)).toNat)) % 2 ^ (8 * viewBytes d)

/-- R190: the lent W numbers, lowest first. -/
def Gang.lentList (g : Gang) : List Nat := (List.range 32).filter fun k => BitSet.has g.lent k

/-- R190: whether an operand field names a V register of a lent range. -/
def Gang.fieldLent (g : Gang) (k : Nat) (x : W12) : Bool :=
  match opnd x with
  | .v r => viewBase (g.wReg k) ≤ r && r < viewBase (g.wReg k) + viewRegs (g.wReg k) g.width
  | _ => false

/-! ### What an issue names -/

/-- A source field of an issue: its operand value, its hint, whether it is read in another lane (R141). -/
structure SrcUse where
  reg : W12
  hint : Bool
  across : Bool
  deriving DecidableEq, Repr

/-- R141: whether the form reads A in another lane. -/
def readsAcross (i : Instr) : Bool :=
  match i with
  | .shfl _ | .bcast _ => true
  | _ => false

/-- The source fields of an issue that name registers. -/
def srcFields (i : Instr) (m : Form) (f : Fields) : List SrcUse :=
  (if m.useA then [⟨f.a, f.fa, readsAcross i⟩] else []) ++
  (if m.useB then ⟨f.b, f.fb, false⟩ :: (if isPair i f && !m.useD then [⟨f.b + 1#12, f.fb, false⟩] else []) else []) ++
  (if m.useC then ⟨f.c, f.fc, false⟩ :: (match i with
    | .rowld _ => [⟨f.c + 1#12, f.fc, false⟩]
    | _ => []) else []) ++
  (if m.readsD then [⟨f.d, f.fc, false⟩] else [])

/-- The register fields an issue writes. -/
def dstFields (i : Instr) (m : Form) (f : Fields) : List W12 :=
  (if m.useD && !isW f.d then f.d :: (if isPair i f then [f.d + 1#12] else []) else []) ++
  (match i with
    | .iaddc _ => [f.c]
    | _ => [])

/-- Forms that read a V source in the lowest Active lane alone (R157, R163, R188, R194, R218, R221, R222, R226, R227, R231). -/
def onlyLowest (i : Instr) (m : Form) : Bool :=
  m.cls == 6 || m.cls == 11 ||
  match i with
  | .tvset _ | .mxop _ | .chld _ | .ldk _ | .stash _ | .unstash _ | .rowadd _ | .rowld _ | .mtc _ | .sleep _ => true
  | _ => false

/-- R208, R210: forms that act, and read A, in the lowest Active lane alone: a load to an S register among them. -/
def loadLowest (i : Instr) (f : Fields) : Bool :=
  match i with
  | .ld _ | .lds _ | .ldx _ | .ldp _ => 0x600 ≤ f.d.toNat
  | _ => false

/-- R144, R145: the lane whose A a lane reads. -/
def srcLane (i : Instr) (f : Fields) (g : Gang) (active : LaneMask) (l : Nat) : Nat :=
  match i with
  | .shfl _ =>
    let b := match opnd f.b with
      | .special 0x679 => f.imm.toNat
      | _ => (g.regVal f.b l).toNat
    let W := g.width
    match f.variant with
    | 0 => if b < W then b else l
    | 1 => (l + b) % W
    | 2 => if b = 0 || l - l % b + b > W then l else l - l % b + (b - 1 - l % b)
    | _ => if l ^^^ b < W then l ^^^ b else l
  | .bcast _ => if f.variant = 0 then f.imm.toNat % 64 else (lowestLane active).getD l
  | _ => l

/-- R190: whether a field is in a lent range, so that it is not read. -/
def lentField (g : Gang) (x : W12) : Bool := g.lentList.any fun k => g.fieldLent k x

/-- R18, R144, R190: whether the lane whose A a lane reads is known: SHFL takes it from B, which is read only where it is full and not
lent. -/
def laneKnown (i : Instr) (f : Fields) (g : Gang) (l : Nat) : Bool :=
  match i with
  | .shfl _ => !lentField g f.b && !g.regEmpty f.b l
  | _ => true

/-- The lane in which a source is read on behalf of a lane. -/
def fieldLane (i : Instr) (f : Fields) (g : Gang) (active : LaneMask) (e : SrcUse) (l : Nat) : Nat :=
  if e.across then srcLane i f g active l else l

/-- The Active lanes that read a source. -/
def readers (i : Instr) (m : Form) (f : Fields) (active : LaneMask) : LaneMask :=
  if onlyLowest i m || loadLowest i f then
    match lowestLane active with
    | some l => maskOf (· == l)
    | none => 0#64
  else active

/-! ### Source values -/

/-- R41, R42: the lane value of a special source other than IMM under a type code. -/
def specialVal (ref : GangRef) (g : Gang) (who : Who) (task : Task) (active : LaneMask) (y t lane : Nat) : W64 :=
  let w := typeWidth t
  let rep (n : Nat) : W64 := mapSubs w fun _ => n
  match y with
  | 0x67A => rep lane
  | 0x67B => rep g.index
  | 0x67C => rep who.index
  | 0x67D => rep task.rec_.taskid.toNat
  | 0x67E => rep ref.core
  | 0x67F => rep ref.part
  | 0x680 => rep g.width
  | 0x681 => mapSubs w fun j => lane * (64 / w) + j
  | 0x682 => active
  | 0x683 => task.rec_.code
  | 0x684 => task.rec_.arg
  | 0x678 => 0#64
  | _ => rep ((constImage y t).getD 0)

/-- R16, R38, R41, R52: the value a source field supplies in a lane under a type code. -/
def Iss.srcT (x : Iss) (field : W12) (t lane : Nat) : W64 :=
  match opnd field with
  | .special 0x679 => immValue (x.m.types == .untyped) t x.f.imm
  | .special y => specialVal x.ref x.g x.who x.task x.active y t lane
  | _ => x.g.regVal field lane

/-- Sources A, B and C in a lane under the form's own type code. -/
def Iss.a (x : Iss) (lane : Nat) : W64 :=
  x.srcT x.f.a (srcType x.i x.m x.f false) (if readsAcross x.i then srcLane x.i x.f x.g x.active lane else lane)
def Iss.b (x : Iss) (lane : Nat) : W64 := x.srcT x.f.b (srcType x.i x.m x.f false) lane
def Iss.c (x : Iss) (lane : Nat) : W64 := x.srcT x.f.c (srcType x.i x.m x.f true) lane
/-- The lowest Active lane, 0 when there is none. -/
def Iss.low (x : Iss) : Nat := (lowestLane x.active).getD 0
/-- The Active lanes in order. -/
def Iss.lanes (x : Iss) : List Nat := lanesOf x.active

/-! ### Register writes -/

/-- Poison bits of two words set from a pair. -/
def putPoison (m : BitSet) (key : Nat) (p : BitVec 2) : BitSet :=
  BitSet.put (BitSet.put m key (p.getLsbD 0)) (key + 1) (p.getLsbD 1)

/-- A word of a write mask. -/
def maskWord (m : W64) (h : Nat) : W32 := m.extractLsb' (32 * h) 32
/-- R56: the poison of a lane's words after a write of part of them: a word written whole takes the write's, one written in part
keeps its own as well, one not written keeps its own. -/
def partPoison (old : BitSet) (key : Nat) (m : W64) (p : BitVec 2) : BitVec 2 :=
  let bit (h : Nat) : Bool :=
    if maskWord m h = BitVec.allOnes 32 then p.getLsbD h else BitSet.has old (key + h) || (maskWord m h != 0#32 && p.getLsbD h)
  BitVec.ofBool (bit 1) ++ BitVec.ofBool (bit 0)
/-- R55: the correctable marks left on a lane's words after a write of part of them. -/
def partCorr (old : BitSet) (key : Nat) (m : W64) : BitVec 2 :=
  let bit (h : Nat) : Bool := maskWord m h != BitVec.allOnes 32 && BitSet.has old (key + h)
  BitVec.ofBool (bit 1) ++ BitVec.ofBool (bit 0)

/-- R21, R39, R52, R56: a write made to the register file, which hides transient results, leaves the register full, writes the
latch-file entries of the register and of its full/empty bits anew (log entry 73), and ends the register's stay in the
operand-reuse latch. -/
def Gang.write (g : Gang) : RegWrite → Gang
  | .part k l m x p =>
    let c := k * g.width + l
    { g with v := KMap.set g.v 0#64 c ((KMap.get g.v 0#64 c &&& ~~~m) ||| (x &&& m)),
             vEmpty := BitSet.put g.vEmpty c false,
             vPoison := putPoison g.vPoison (2 * c) (partPoison g.vPoison (2 * c) m p),
             vCorr := putPoison g.vCorr (2 * c) (partCorr g.vCorr (2 * c) m),
             parity := g.parity.filter fun e => e ≠ .fullV k,
             holdLatch := g.holdLatch.filter fun r => m == 0#64 || r.2 ≠ opndV k,
             transients := g.transients.filter fun t => m == 0#64 || !(t.reg == opndV k && t.lane == l) }
  | .v k l x p => { g with v := KMap.set g.v 0#64 (k * g.width + l) x,
                           vEmpty := BitSet.put g.vEmpty (k * g.width + l) false,
                           vPoison := putPoison g.vPoison (2 * (k * g.width + l)) p,
                           vCorr := putPoison g.vCorr (2 * (k * g.width + l)) 0#2,
                           parity := g.parity.filter fun e => e ≠ .fullV k,
                           holdLatch := g.holdLatch.filter fun r => r.2 ≠ opndV k,
                           transients := g.transients.filter fun t => !(t.reg == opndV k && t.lane == l) }
  | .s k x p => { g with s := KMap.set g.s 0#64 k x,
                         sEmpty := BitSet.put g.sEmpty k false,
                         sPoison := putPoison g.sPoison (2 * k) p,
                         parity := g.parity.filter fun e => e ≠ .s k && e ≠ .fullS k,
                         holdLatch := g.holdLatch.filter fun r => r.2 ≠ BitVec.ofNat 12 (0x600 + k),
                         transients := g.transients.filter fun t => !(t.reg == BitVec.ofNat 12 (0x600 + k)) }
  | .p k l b =>
    if k = 7 then g
    else { g with p := KMap.set g.p 0#64 k (if b then KMap.get g.p 0#64 k ||| maskOf (· == l) else KMap.get g.p 0#64 k &&& ~~~maskOf (· == l)),
                  pEmpty := KMap.set g.pEmpty 0#64 k (KMap.get g.pEmpty 0#64 k &&& ~~~maskOf (· == l)),
                  parity := g.parity.filter fun e => e ≠ .p k && e ≠ .fullP k,
                  holdLatch := g.holdLatch.filter fun r => r.2 ≠ opndP k }
  | .n k x p => { g with n := KMap.set g.n 0x80000000#32 k x,
                         nEmpty := BitSet.put g.nEmpty k false,
                         nPoison := BitSet.put g.nPoison k p,
                         parity := g.parity.filter fun e => e ≠ .n k && e ≠ .fullN k,
                         holdLatch := g.holdLatch.filter fun r => r.2 ≠ opndN k }

/-- R21, R54: a view descriptor is written to a W register, whose latch-file entry is written anew. -/
def Gang.putW (g : Gang) (k : Nat) (x : W64) : Gang :=
  { g with w := KMap.set g.w 0#64 k x, parity := g.parity.filter fun e => e ≠ .w k,
           holdLatch := g.holdLatch.filter fun r => r.2 ≠ BitVec.ofNat 12 (wFirst + k) }

/-- Writes made in order. -/
def Gang.writes (g : Gang) (ws : List RegWrite) : Gang := ws.foldl Gang.write g

/-- R93: writes to V registers that leave the full/empty bits, and the latch-file entries that hold them, as they are. -/
def Gang.rewrite (g : Gang) (ws : List RegWrite) : Gang := { g.writes ws with vEmpty := g.vEmpty, parity := g.parity }

/-- R47: a destination made empty; a later producer hides transient results (R52). -/
def Gang.empty (g : Gang) : RegWrite → Gang
  | .part k l _ _ _ | .v k l _ _ =>
    { g with vEmpty := BitSet.put g.vEmpty (k * g.width + l) true,
             transients := g.transients.filter fun t => !(t.reg == opndV k && t.lane == l) }
  | .s k _ _ => { g with sEmpty := BitSet.put g.sEmpty k true,
                         transients := g.transients.filter fun t => !(t.reg == BitVec.ofNat 12 (0x600 + k)) }
  | .p k l _ => if k = 7 then g else { g with pEmpty := KMap.set g.pEmpty 0#64 k (KMap.get g.pEmpty 0#64 k ||| maskOf (· == l)) }
  | .n k _ _ => { g with nEmpty := BitSet.put g.nEmpty k true }

/-- R38, R39: the writes of destination D: one per Active lane for V, the lowest Active lane's value for S. -/
def Iss.dWrites (x : Iss) (vals : Nat → W64) : List RegWrite :=
  match opnd x.f.d with
  | .v k => x.lanes.map fun l => .v k l (vals l) 0#2
  | .s k => match lowestLane x.active with
    | some l => [.s k (vals l) 0#2]
    | none => []
  | _ => []

/-- R39: the writes of a predicate destination. -/
def Iss.pWrites (x : Iss) (vals : Nat → Bool) : List RegWrite :=
  match opnd x.f.d with
  | .p k => if k = 7 then [] else x.lanes.map fun l => .p k l (vals l)
  | _ => []

/-- R51: a transient result of D. -/
def Gang.putTransients (g : Gang) (x : Iss) (vals : Nat → W64) : Gang :=
  let new : List Transient := match opnd x.f.d with
    | .v _ => x.lanes.map fun l => { reg := x.f.d, lane := l, val := vals l, age := 0, set := x.set }
    | _ => match lowestLane x.active with
      | some l => [{ reg := x.f.d, lane := 64, val := vals l, age := 0, set := x.set }]
      | none => []
  { g with transients := new ++ g.transients, holdLatch := g.holdLatch.filter fun r => new.isEmpty || r.2 ≠ x.f.d }

/-- A change of the issuing gang's record. -/
def Iss.mapGang (x : Iss) (s : State) (h : Gang → Gang) : State :=
  match s.gang? x.ref with
  | some g => s.setGang x.ref (h g)
  | none => s

/-- A fixed-latency result in D (R17, R38). -/
def Iss.putD (x : Iss) (s : State) (vals : Nat → W64) : State :=
  x.mapGang s fun g => if x.f.t then g.putTransients x vals else g.writes (x.dWrites vals)

/-- A fixed-latency predicate result in D (R39). -/
def Iss.putP (x : Iss) (s : State) (vals : Nat → Bool) : State := x.mapGang s fun g => g.writes (x.pWrites vals)

/-- R47, R64: a fill begins: its destinations become empty. -/
def Gang.startFill (g : Gang) (kind : FillKind) (ws : List RegWrite) (fl : Flags) (setsFlags : Bool) : Gang :=
  let g' := ws.foldl Gang.empty g
  { g' with fills := g'.fills ++ [{ id := g.nextFill, kind, writes := ws, flags := fl, setsFlags }], nextFill := g.nextFill + 1 }

/-- A long-latency result (R47). -/
def Iss.fill (x : Iss) (s : State) (ws : List RegWrite) (fl : Flags := 0#5) (setsFlags : Bool := false) : State :=
  if ws.isEmpty && fl == 0#5 then s else x.mapGang s fun g => g.startFill .ready ws fl setsFlags

/-- R47, R64, R430: a fill lands: its writes are made and its flags taken, and what the agent has written meanwhile takes their place. -/
def landFill (g : Gang) (ix : Nat) : Gang :=
  match g.fills[ix]? with
  | some x =>
    let g' := (g.writes x.writes).writes ((g.agentWrites.filter fun e => e.1 == x.id).map Prod.snd)
    { g' with fills := g.fills.eraseIdx ix, fpstat := orFlags g.fpstat x.flags,
              agentWrites := g.agentWrites.filter fun e => e.1 != x.id }
  | none => g

/-- R50: whether a fill may land: its value is there, and no earlier fill goes to one of its registers (R49, R430). -/
def fillReady (g : Gang) (ix : Nat) : Bool :=
  match g.fills[ix]? with
  | some x =>
    (match x.kind with
      | .ready | .chain _ => true
      | _ => false) &&
    (g.fills.take ix).all fun y => y.writes.all fun w => x.writes.all fun v => !w.meets v
  | none => false

/-! ### Flags -/

/-- R64: a cause FP-EXC, with the flags taken, when a raised flag is enabled; whole forms name every Active lane. -/
def Iss.fpTrap (x : Iss) (s : State) (fl : List (Nat × Flags)) (whole : Bool) : Option Res :=
  let en := fpEnables x.g.fpctl
  let all := allFlags fl
  if all &&& en = 0#5 then none
  else
    let s := x.mapGang s fun g => { g with fpstat := orFlags g.fpstat all }
    some (.trap { cause := 0x30, tmask := x.active, taddr := 0#64, thit := if whole then x.active else enabledLanes en fl, tpc := none } s)

/-- R64: flags taken at commit. -/
def Iss.orStat (x : Iss) (s : State) (fl : Flags) : State := x.mapGang s fun g => { g with fpstat := orFlags g.fpstat fl }

/-! ### The beginning of an issue -/

/-- How an issue begins. -/
inductive Begin where
  | wait (why : Wait)
  | trap (t : TrapInfo)
  | go (x : Iss)

/-- A cause whose TMASK and THIT are one set of lanes. -/
def TrapInfo.plain (cause : Nat) (m : LaneMask) (taddr : W64 := 0#64) : TrapInfo := ⟨cause, m, taddr, m, none⟩

/-- R23, R24, R145: ILLEGAL-OPCODE. -/
def badWord (i : Instr) (m : Form) (f : Fields) (g : Gang) : Bool :=
  (m.refuse f).isSome ||
  match i with
  | .bcast _ => f.variant == 0 && g.width ≤ f.imm.toNat
  | _ => false

/-- R46: ILLEGAL-VIEW of the views a form names. -/
def badViews (i : Instr) (f : Fields) (g : Gang) : Bool :=
  let vs := viewUses i f
  vs.any (fun v => viewBad v.kinds g.width g.regs (g.wReg v.w)) || (!vs.isEmpty && viewExtraBad i f g)

/-- R54: parity of a W register that a form reads to check or take a view. -/
def viewParity (i : Instr) (f : Fields) (g : Gang) : Bool :=
  (viewUses i f).any fun v => g.parity.contains (.w v.w)

/-- R12: the Active lanes of a lane set. -/
def activeOf (g : Gang) (f : Fields) (set : LaneMask) : LaneMask :=
  maskOf fun l => set.getLsbD l && (g.predBit f.gp.toNat l != f.gn)

/-- R99: the guard is empty in a live lane of the issue group. -/
def guardEmpty (g : Gang) (f : Fields) (set : LaneMask) : Bool :=
  f.gp.toNat ≠ 7 && KMap.get g.pEmpty 0#64 f.gp.toNat &&& set != 0#64

/-- R190: the lowest lent W number that the form touches (log entry 34). -/
def lentTouched (i : Instr) (m : Form) (f : Fields) (g : Gang) : Option Nat :=
  match i with
  | .tvget _ | .toktake _ => none
  | .tvset _ => g.lentList.find? fun k => k == wNum f.d || g.fieldLent k f.a
  | _ =>
    let fields := (srcFields i m f).map SrcUse.reg ++ dstFields i m f
    g.lentList.find? fun k =>
      fields.any (g.fieldLent k) ||
      (viewUses i f).any fun v => !(v.lentOk && v.w == k) && viewsMeet g.width (g.wReg k) (g.wReg v.w)

/-- R18, R141: whether a source is found empty on behalf of a lane: one read across is looked at only where its lane is known. -/
def sourceEmpty (i : Instr) (f : Fields) (g : Gang) (active : LaneMask) (e : SrcUse) (l : Nat) : Bool :=
  (!e.across || laneKnown i f g l) && g.regEmpty e.reg (fieldLane i f g active e l)

/-- R18, R48: some source or view is empty with the given hint; a view that is written is waited for later (R49). -/
def emptySource (i : Instr) (m : Form) (f : Fields) (g : Gang) (active : LaneMask) (hint : Bool) : Bool :=
  ((srcFields i m f).any fun e => e.hint == hint && (lanesOf active).any (sourceEmpty i f g active e)) ||
  (viewUses i f).any fun v => v.hint == hint && (hint || !v.dst) && !g.viewReady (g.wReg v.w)

/-- R18, R141: the lanes FE-EMPTY names: the Active lanes; those whose source lane was empty for a form that reads across and finds no
other source empty. -/
def emptyLanes (i : Instr) (f : Fields) (g : Gang) (active : LaneMask) : LaneMask :=
  if readsAcross i then
    let m := maskOf fun l => active.getLsbD l && sourceEmpty i f g active ⟨f.a, f.fa, true⟩ l
    if f.fa && m ≠ 0#64 && (lanesOf active).all (laneKnown i f g) then m else active
  else active

/-- R49: some destination register is empty where the form writes it. -/
def emptyDest (i : Instr) (m : Form) (f : Fields) (g : Gang) (active : LaneMask) : Bool :=
  (dstFields i m f).any fun d => (lanesOf active).any fun l =>
    match opnd d with
    | .v k => BitSet.has g.vEmpty (k * g.width + l)
    | .s k => BitSet.has g.sEmpty k
    | .p k => k != 7 && (KMap.get g.pEmpty 0#64 k).getLsbD l
    | _ => false

/-- R200: the form writes a register of WA or WB of a queued MXOP of the gang that the matrix unit has not read. -/
def heldByMxop (s : State) (ref : GangRef) (i : Instr) (m : Form) (f : Fields) (g : Gang) : Bool :=
  (KMap.get s.mxq [] (ref.core * 32 + ref.part)).any fun e =>
    e.g == ref && !e.readDone && [e.wa, e.wb].any fun d =>
      viewKind d != 0 &&
      ((dstFields i m f).any (fun x => match opnd x with
        | .v k => viewBase d ≤ k && k < viewBase d + viewRegs d g.width
        | _ => false) ||
       (viewUses i f).any fun v => v.dst && viewsMeet g.width d (g.wReg v.w))

/-- R54: parity of the full/empty bits of a view's registers and norm entry. -/
def Gang.viewFullParity (g : Gang) (d : W64) : Bool :=
  ((List.range (viewRegs d g.width)).any fun j => g.parity.contains (.fullV (viewBase d + j))) ||
    (viewKind d == 3 && g.parity.contains (.fullN (viewNidx d)))

/-- R54: parity of the latch-file entries that an issue reads: its sources, and the full/empty bits of its sources, its
destinations (R49) and its views (R48). -/
def sourceParity (i : Instr) (m : Form) (f : Fields) (g : Gang) : Bool :=
  ((srcFields i m f).any fun e => g.regParity e.reg) || (dstFields i m f).any g.fullParity ||
  (viewUses i f).any fun v => g.viewFullParity (g.wReg v.w) ||
    (v.src && viewKind (g.wReg v.w) == 3 && g.parity.contains (.n (viewNidx (g.wReg v.w))))

/-- R56: the 32-bit words (lower, upper) that a form reads of a V or S source: the lower alone for `.LOW` of a comparison (R113,
R133), a DIR scalar (R166), an operand of a 32-bit atomic (R223), a store of one element (R211) and STP.W (R216); those of the
elements that a narrowing CVT (R139), SWZ (R146) and PACK (R151) take. -/
def halvesRead (i : Instr) (f : Fields) (x : W12) : BitVec 2 :=
  let w := typeWidth f.tcode
  let narrow := w ≤ 32
  let word (lo : Nat) : BitVec 2 := if lo % 64 < 32 then 1#2 else 2#2
  match i with
  | .cvt _ =>
    let ws := typeWidth (f.imm.toNat % 16)
    let part := f.imm.toNat / 16 % 8
    if w ≤ ws || ws = 64 then 3#2
    else (List.range (64 / w)).foldl (fun h j => h ||| word ((part * (64 / w) + j) * ws)) 0#2
  | .swz _ => if w = 64 then 3#2 else (List.range (64 / w)).foldl (fun h j => h ||| word (f.imm.toNat / 2 ^ (3 * j) % 8 * w)) 0#2
  | .pack _ =>
    if w = 64 then (if x = (if f.variant = 1 then f.b else f.a) then 3#2 else 0#2) else if f.variant = 1 then 2#2 else 1#2
  | .icmp _ | .fcmp _ => if f.variant == 2 && narrow then 1#2 else 3#2
  | .dvscl _ | .dvsetn _ | .dvaxpy _ | .dvcmp _ => 1#2
  | .atom _ | .atoms _ => if narrow && x ≠ f.a then 1#2 else 3#2
  | .acas _ => if narrow && x ≠ f.a then 1#2 else 3#2
  | .st _ | .sts _ | .stx _ => if f.variant == 1 && narrow && x ≠ f.a then 1#2 else 3#2
  | .stp _ => if f.variant == 1 && x ≠ f.a then 1#2 else 3#2
  | _ => 3#2

/-- R18, R141: whether a source is read: it is full in every lane that the issue examines, which a source read across knows. -/
def srcRead (i : Instr) (f : Fields) (g : Gang) (active : LaneMask) (e : SrcUse) : Bool :=
  !lentField g e.reg &&
    (lanesOf active).all fun l => (!e.across || laneKnown i f g l) && !g.regEmpty e.reg (fieldLane i f g active e l)

/-- R56, R141: the lanes that read a poisoned word of a source field. -/
def fieldPoison (i : Instr) (m : Form) (f : Fields) (g : Gang) (active : LaneMask) : LaneMask :=
  maskOf fun l => (readers i m f active).getLsbD l && (srcFields i m f).any fun e =>
    srcRead i f g active e && g.regPoison e.reg (fieldLane i f g active e l) (halvesRead i f e.reg)

/-- R18, R48, R190: the views an issue reads: sources that are ready and not lent. -/
def viewsRead (i : Instr) (f : Fields) (g : Gang) : List W64 :=
  ((viewUses i f).filter fun v => v.src && g.viewReady (g.wReg v.w) &&
    !(g.lentList.any fun k => viewsMeet g.width (g.wReg k) (g.wReg v.w) && !v.lentOk)).map fun v => g.wReg v.w

/-- R56, R141, R171, R300: POISON-CONSUMED of an issue: a poisoned word read in an Active lane, TMASK and THIT naming the lanes that
read poison; a poisoned word of a view, or a norm entry, that a DIR form reads names every Active lane in TMASK, and the lanes it
lies in in THIT; a norm entry lies in no lane, and THIT names the Active lanes for it (log entry 91). -/
def poisonTrap (i : Instr) (m : Form) (f : Fields) (g : Gang) (active : LaneMask) : Option TrapInfo :=
  let direct := fieldPoison i m f g active
  let views := viewsRead i f g
  let dir (d : W64) : Bool := viewKind d == 3 || m.cls == 6
  let tiles := (views.filter fun d => !dir d).foldl (fun a d => a ||| (g.viewPoisonLanes d &&& active)) 0#64
  let dirs := (views.filter dir).foldl (fun a d => a ||| g.viewPoisonLanes d) 0#64
  let norm := views.any g.normPoison ||
    (srcFields i m f).any fun e => 0x648 ≤ e.reg.toNat && e.reg.toNat < 0x658 && srcRead i f g active e && g.regPoison e.reg 0
  if norm || dirs ≠ 0#64 then
    some { cause := 0x02, tmask := active, taddr := 0#64, thit := (if norm then active else 0#64) ||| dirs ||| direct, tpc := none }
  else if direct ||| tiles ≠ 0#64 then some (.plain 0x02 (direct ||| tiles))
  else none

/-- R55: a source word holds a correctable error. -/
def correctable (i : Instr) (m : Form) (f : Fields) (g : Gang) (active : LaneMask) : Bool :=
  ((lanesOf (readers i m f active)).any fun l => (srcFields i m f).any fun e => g.regCorr e.reg (fieldLane i f g active e l)) ||
  (viewUses i f).any fun v => v.src && g.viewCorr (g.wReg v.w)

/-- R101: the next PC of a lane of the issue group. -/
def branchNext (x : Iss) (target : Nat → W64) (l : Nat) : W64 := if x.active.getLsbD l then target l else x.pc + 12#64

/-- R101: the lanes whose next PC differs from that of the lowest live lane. -/
def branchDiffer (x : Iss) (target : Nat → W64) : LaneMask :=
  match lowestLane x.set with
  | none => 0#64
  | some k => maskOf fun l => x.set.getLsbD l && branchNext x target l != branchNext x target k

/-- R101: UNIFORMITY of a branch with U whose next PCs are not all equal. -/
def uniformity (x : Iss) (target : Nat → W64) : Option TrapInfo :=
  if x.f.u && branchDiffer x target ≠ 0#64 then
    some { cause := 0x18, tmask := x.set, taddr := 0#64, thit := branchDiffer x target, tpc := none }
  else none

/-- R100: PC + 12 × SignExt(IMM, 32). -/
def dispTarget (x : Iss) (_ : Nat) : W64 := x.pc + BitVec.ofInt 64 (12 * signExt x.f.imm.toNat 32)
/-- R100: all 64 bits of A. -/
def regTarget (x : Iss) (l : Nat) : W64 := x.a l

/-- R101, R190, R301: UNIFORMITY where the targets are known: those in A only where A is not lent. -/
def earlyUniformity (x : Iss) : Option TrapInfo :=
  match x.i with
  | .bra _ | .call _ => uniformity x (dispTarget x)
  | .bri _ | .calli _ | .ret _ => if lentField x.g x.f.a then none else uniformity x (regTarget x)
  | _ => none

/-- What a form itself puts before the reads of its sources: a wait (R158), a cause that nothing is read for (R159), or a cause lower
than FE-EMPTY that it raises whatever its sources hold (R251, R252). -/
inductive Early where
  | go
  | blocked (why : Wait)
  | unread (cause : Nat)
  | cause (cause : Nat)

/-- Whether an operand value names a register. -/
def isReg (x : W12) : Bool :=
  match opnd x with
  | .special _ | .reserved => false
  | _ => true

/-- R21: what the operand-reuse latch takes at an issue: the sources named that the issue reads from a register. -/
def holdOf (m : Form) (f : Fields) (active : LaneMask) : List (Nat × W12) :=
  if active = 0#64 then []
  else (if f.hold.getLsbD 0 && m.useA && isReg f.a then [(0, f.a)] else []) ++
    (if f.hold.getLsbD 1 && m.useB && isReg f.b then [(1, f.b)] else [])

/-- R21: the gang with what an issue keeps in its operand-reuse latch. -/
def Gang.holding (g : Gang) (kept : List (Nat × W12)) : Gang := { g with holdLatch := kept }

/-- Everything the spec puts before an instruction's own effect, in the order of R24, R46, R99, R18, R190, R49, R301. -/
def beginIssue (s : State) (i : Instr) (m : Form) (f : Fields) (ref : GangRef) (g0 : Gang) (who : Who) (task : Task)
    (early : Fields → Gang → Early) : Begin :=
  match g0.chooseSet with
  | none => .wait .fills
  | some (pc, set) =>
    let g := g0.seen set
    if badWord i m f g then .trap (.plain 0x10 set)
    else if !operandsOk i m f g.regs then .trap (.plain 0x11 set)
    else if viewParity i f g && !guardEmpty g f set then .trap (.plain 0x01 (if activeOf g f set = 0#64 then set else activeOf g f set))
    else if badViews i f g && !viewParity i f g then .trap (.plain 0x12 set)
    else if guardEmpty g f set then .wait .empty
    else if f.gp.toNat ≠ 7 && g.regParity (opndP f.gp.toNat) then .trap (.plain 0x01 set)
    else
      let active := activeOf g f set
      let x : Iss := ⟨ref, g.holding (holdOf m f active), who, task, i, m, f, pc, set, active⟩
      if active = 0#64 then
        match lentTouched i m f g with
        | some k => .trap (.plain 0x1A set (w64 k))
        | none => .go x
      else match early f g with
      | .blocked why => .wait why
      | .unread c => match lentTouched i m f g with
        | some k => .trap (.plain 0x1A set (w64 k))
        | none => .trap (.plain c active)
      | .cause c =>
        if sourceParity i m f g then .trap (.plain 0x01 active)
        else .trap ((poisonTrap i m f g active).getD (.plain c active))
      | .go =>
        if emptySource i m f g active false then .wait .empty
        else if sourceParity i m f g then .trap (.plain 0x01 active)
        else match poisonTrap i m f g active with
        | some t => .trap t
        | none =>
        if emptySource i m f g active true then .trap (.plain 0x19 (emptyLanes i f g active))
        else match lentTouched i m f g with
        | some k => .trap ((earlyUniformity x).getD (.plain 0x1A set (w64 k)))
        | none =>
          if emptyDest i m f g active || (viewUses i f).any (fun v => v.dst && !g.viewReady (g.wReg v.w)) then .wait .empty
          else if heldByMxop s ref i m f g then .wait .view
          else if correctable i m f g active then .wait .replay
          else .go x

/-! ### The end of an issue -/

/-- R271: WAIT after an issue of a lane set; held lanes keep theirs (R305). -/
def Gang.ageWaits (g : Gang) (set : LaneMask) : KMap Nat :=
  (lanesOf g.runners).foldl (fun m l => KMap.set m 0 l (if set.getLsbD l then 0 else KMap.get m 0 l + 1)) g.wait

/-- R253, R269, R271: what every issue of a gang does, whether or not it commits. -/
def Gang.account (g : Gang) (i : Instr) (f : Fields) (set active : LaneMask) (n : Nat) : Gang :=
  { g with wait := g.ageWaits set, issues := g.issues + 1#64, lastIssue := some n, lastSet := set, lastActive := active,
           lastRet := (match i with
             | .ret _ => true
             | _ => false),
           yielded := f.y || (match i with
             | .yield _ => true
             | _ => false),
           exempt := g.exempt &&& ~~~set, parity := g.parity.filter fun e => e ≠ .hold 0 && e ≠ .hold 1, stepDue := g.stepDue || g.stepArmed, stepArmed := false,
           waits := none }

/-- R303: the PCs after a commit: given ones, the next instruction for the other lanes of the set. -/
def Gang.advance (g : Gang) (set : LaneMask) (pc : W64) (next : List (Nat × W64)) : KMap W64 :=
  (lanesOf set).foldl (fun m l => KMap.set m 0#64 l (((next.find? fun e => e.1 == l).map Prod.snd).getD (pc + 12#64))) g.pc

/-- R251, R307: lanes resume at TPC, held lanes are released, INH is cleared, WAIT is 0 in every live lane; the lanes keep exempt
from watchpoints are those given, and those not resumed that were so before. -/
def Gang.resume (g : Gang) (back exempt : LaneMask) : Gang :=
  { g with pc := (lanesOf back).foldl (fun m l => KMap.set m 0#64 l g.tpc) g.pc,
           wait := [], held := 0#64, inh := false, transients := [], exempt := (g.exempt &&& ~~~back) ||| exempt }

/-- R308: a handler whose lanes have all ended is left, as by an RTE with an empty TMASK. -/
def Gang.leaveHandler (g : Gang) (ended : LaneMask) : Gang :=
  if g.inh && ended != 0#64 && g.tmask &&& g.live == 0#64 then g.resume 0#64 0#64 else g

/-- R309: whether an agent is attached to a context. -/
def agentAttached (s : State) (ctx : Nat) : Bool := ((KMap.get? s.ctxs ctx).bind Ctx.debug).isSome

/-- R304: the gang enters its handler. -/
def Gang.enterHandler (g : Gang) (t : TrapInfo) (tpc : W64) : Gang :=
  let into := g.live &&& t.tmask
  { g with cause := BitVec.ofNat 8 t.cause, tpc, tmask := t.tmask, taddr := t.taddr, thit := t.thit, inh := true,
           pc := (lanesOf into).foldl (fun m l => KMap.set m 0#64 l g.thnd) g.pc,
           wait := (lanesOf into).foldl (fun m l => KMap.set m 0 l 0) g.wait,
           held := g.live &&& ~~~t.tmask }

/-- R309: the gang stops for the agent. -/
def Gang.stopFor (g : Gang) (t : TrapInfo) (tpc : W64) : Gang :=
  { g with cause := BitVec.ofNat 8 t.cause, tpc, tmask := t.tmask, thit := t.thit, stopped := true }

/-- R309: the stop is reported to the agent. -/
def reportStop (s : State) (ctx : Nat) (ref : GangRef) (cause : Nat) (tpc : W64) : State :=
  { s with replies := s.replies ++ [.stopped ctx ref cause tpc] }

/-- R411, R312: the entry that a consumed poison or a parity error leaves. -/
def logTrap (s : State) (ref : GangRef) (who : Who) (task : Task) (t : TrapInfo) : State :=
  let e : LogEntry := { LogEntry.onCore s.tick 0 ref.core with cause := t.cause, ctx := who.ctx, taskid := task.rec_.taskid }
  if t.cause = 0x02 then logCtx s who.ctx [{ e with type := 0x02, addr := t.taddr.toNat, info := who.index }]
  else if t.cause = 0x01 then logCtx s who.ctx [{ e with type := 0x09, info := ref.part }]
  else s

/-- Taking an exception (R301 to R313): the agent's stop, a kill, or entry into the handler; pc is the issue's address. -/
def takeTrap (s : State) (ref : GangRef) (who : Who) (task : Task) (pc : W64) (t : TrapInfo) : State :=
  match s.gang? ref with
  | none => s
  | some g0 =>
    let g := { g0 with transients := [], holdLatch := [] }
    let tpc := t.tpc.getD pc
    let s := logTrap (s.setGang ref g) ref who task t
    if (t.cause = 0xF0 || t.cause = 0xF1) && agentAttached s who.ctx then
      reportStop (s.setGang ref (g.stopFor t tpc)) who.ctx ref t.cause tpc
    else if g.inh || (task.rec_.restartable && (t.cause = 1 || t.cause = 2)) || g.thnd = 0#64 then
      killTeam s who.team t.cause t.taddr.toNat
    else s.setGang ref (g.enterHandler t tpc)

/-- The return from an exception (R251, R307): the lanes TMASK names resume at TPC, held lanes are released, INH is cleared,
WAIT is 0 in every live lane; after WATCH-DATA or BREAKPOINT the replay is exempt. -/
def Gang.returnFromTrap (g : Gang) : Gang :=
  let back := g.live &&& g.tmask
  g.resume back (if g.cause = 0x28#8 || g.cause = 0xF1#8 then back else 0#64)

/-- R90: whether a form runs on the special-function unit. -/
def isSfu (i : Instr) : Bool := (i.form.map fun m => m.1.cls == 4).getD false

/-- R268, R417: an issue counts in ISSUE of its core, twice for width 64, and takes as many clocks of its partition; one of the
special-function unit counts them in SFUBUSY (log entry 78). -/
def countIssue (s : State) (ref : GangRef) (width : Nat) (sfu : Bool) : State :=
  let n := if width = 64 then 2 else 1
  let p := ref.core * 32 + ref.part
  (({ s with issueCtr := s.issueCtr + 1, issueClocks := KMap.set s.issueClocks 0 p (KMap.get s.issueClocks 0 p + n) } : State).bump
    .issue ref.core n).bump .sfubusy ref.core (if sfu then n else 0)

/-- R420 to R422: the record of a taken branch, call or return. -/
def traceBranch (s : State) (x : Iss) (g : Gang) : State :=
  let nx := g.pcOf x.low
  let off (p : W64) : Nat := (p - x.task.rec_.code).toNat % 2 ^ 32
  let differ := maskOf fun l => x.set.getLsbD l && g.pcOf l != nx
  trace s x.who.ctx (x.ref.core / 32) 2#4
    { type := 6, core := x.ref.core, part := x.ref.part, slot := x.ref.slot, gang := g.index,
      ret := g.lastRet, inh := false, w1 := w64 (off x.pc + 2 ^ 32 * off nx), more := [x.set, differ] }

/-- R303: an issue commits. -/
def commitIssue (x : Iss) (s : State) (p : Post) : State :=
  match s.gang? x.ref with
  | none => s
  | some g =>
    let g1 := g.account x.i x.f x.set x.active s.issueCtr
    let g2 := { g1 with pc := g1.advance x.set x.pc p.next, live := g1.live &&& ~~~p.ended, yielded := g1.yielded || p.yields }
    let g3 := if p.rte then g2.returnFromTrap else g2.leaveHandler p.ended
    let s := countIssue (s.setGang x.ref g3) x.ref g.width (isSfu x.i)
    let s := if p.branch then traceBranch s x g3 else s
    match p.after with
    | none => s
    | some t => takeTrap s x.ref x.who x.task x.pc t

/-- R271, R303: an issue that a cause stops: it counts as an issue, and the trap is taken. -/
def trapIssue (s : State) (i : Instr) (f : Fields) (ref : GangRef) (who : Who) (task : Task) (pc : W64) (set active : LaneMask)
    (t : TrapInfo) : State :=
  match s.gang? ref with
  | none => s
  | some g =>
    let g1 := g.account i f set active s.issueCtr
    takeTrap (countIssue (s.setGang ref g1) ref g.width false) ref who task pc t

/-- R270: an issue that waits leaves its mark on the gang and nothing else. -/
def waitIssue (s : State) (ref : GangRef) (why : Wait) : State :=
  match s.gang? ref with
  | none => s
  | some g => s.setGang ref { g with waits := some why }

/-- R427: the Active lanes an armed breakpoint hits. -/
def breakLanes (s : State) (x : Iss) : LaneMask :=
  if x.g.inh then 0#64
  else match (KMap.get? s.ctxs x.who.ctx).bind Ctx.debug with
    | none => 0#64
    | some d => (List.range 8).foldl (fun m k =>
        let a := KMap.get d.bp 0#64 (4 * k)
        if a ≠ 0#64 && a == x.pc then m ||| (x.active &&& KMap.get d.bp 0#64 (4 * k + 1) &&& ~~~x.g.exempt) else m) 0#64

/-- What the issue of an instruction does with the outcome of its own part: an armed breakpoint stops it before it commits, and before a
page is reclassified for it (R296, R427). -/
def finishIssue (s : State) (x : Iss) (r : Res) : State :=
  let hit := breakLanes s x
  let breaks := trapIssue s x.i x.f x.ref x.who x.task x.pc x.set x.active
    { cause := 0xF1, tmask := x.active, taddr := 0#64, thit := hit, tpc := none }
  match r with
  | .wait why s' =>
    if why = .reclassify && hit ≠ 0#64 then breaks
    else
      let kept := ((s.gang? x.ref).map Gang.transients).getD []
      let latch := ((s.gang? x.ref).map Gang.holdLatch).getD []
      waitIssue (x.mapGang s' fun g => { g with transients := kept, holdLatch := latch }) x.ref why
  | .trap t s' => trapIssue s' x.i x.f x.ref x.who x.task x.pc x.set x.active t
  | .done s' p => if hit ≠ 0#64 then breaks else commitIssue x s' p

/-- No cause of the form's own before its sources are read. -/
def noEarly : Fields → Gang → Early := fun _ _ => .go

/-- The issue of an instruction form by the current gang: body is the form's own part. -/
def runIssueWith (i : Instr) (early : Fields → Gang → Early) (s : State) (body : Iss → State → Res) :
    Host.Outcome State Fault Refusal :=
  match i.form, s.cur with
  | some (m, f), some ref =>
    match s.gang? ref, s.who ref with
    | some g, some who =>
      match s.task? who.slot with
      | some task =>
        match beginIssue s i m f ref g who task early with
        | .wait why => .next (waitIssue s ref why)
        | .trap t =>
          match g.chooseSet with
          | some (pc, set) => .next (trapIssue s i f ref who task pc set t.tmask t)
          | none => .next s
        | .go x => .next (finishIssue s x (body x (s.setGang ref x.g)))
      | none => .fault .noGang
    | _, _ => .fault .noGang
  | _, _ => .fault .noGang

/-- The issue of a form without a cause of its own before its sources are read. -/
def runIssue (i : Instr) (s : State) (body : Iss → State → Res) : Host.Outcome State Fault Refusal :=
  runIssueWith i noEarly s body

/-- R238, R292: the issue that a blocked gang makes, found again: its run and its Active lanes have not changed. -/
def againIss (s : State) (ref : GangRef) (i : Instr) (active : LaneMask) : Option Iss :=
  match i.form, s.gang? ref, s.who ref with
  | some (m, f), some g, some who =>
    match s.task? who.slot, g.chooseSet with
    | some task, some (pc, set) => some ⟨ref, (g.seen set).holding (holdOf m f active), who, task, i, m, f, pc, set, active⟩
    | _, _ => none
  | _, _, _ => none

/-- An outcome with nothing beyond the state. -/
def Res.ok (s : State) : Res := .done s {}

end Sys2Proof.Machine
end

