-- ==== Sys2Proof/Machine/Fetch.lean ====
section
/-! DEFINITION. Fetch of an instruction (R10, R11), what a gang takes at an issue boundary (R53, R249), and the records that a
context, a task and a queue start from. -/

namespace Sys2Proof.Machine

/-! ### Fetch -/

/-- The outcome of a fetch: a walk is needed, FETCH-FAULT, or the word. -/
inductive Fetched where
  | miss (s : State)
  | fail (s : State)
  | word (w : W96) (s : State)

/-- R10: the physical address of each page a fetch of n bytes touches: the first piece, and the second when the bytes straddle. -/
def fetchBytes (s : State) (core ctx va n : Nat) : Except (Option Nat) (List Nat) × State :=
  (pagePieces va n).foldl (fun (r : Except (Option Nat) (List Nat) × State) p =>
    match r.1 with
    | .error e => (.error e, r.2)
    | .ok l => match coreXlat r.2 core ctx p.1 .exec with
      | .miss s => (.error none, s)
      | .done (.ok pa _) s => (.ok (l ++ (List.range p.2).map (pa + ·)), s)
      | .done (.peer _ _ _) s => (.error (some 0x21), s)
      | .done (.fail c) s => (.error (some c), s)) (.ok [], s)

/-- R336: whether a used dependence of a task of a context names the DONESIG object of an ended task. -/
def dependsOn (s : State) (ctx : Nat) (deps : List Dep) (e : EndedTask) : Bool :=
  e.donesig != 0#64 && deps.any fun d => d.sigaddr != 0#64 &&
    ((e.ctx == ctx && d.sigaddr == e.donesig) || (e.place.isSome && (ownPlace s ctx d.sigaddr.toNat).map Prod.fst == e.place))

/-- R11, R336: the ended tasks that a task depends on, directly or through others (log entry 82). -/
def followsOf (s : State) (t : Task) : List Nat :=
  ((s.ended.filter (dependsOn s t.ctx t.rec_.deps)).flatMap fun e => e.order :: e.follows).eraseDups

/-- R11: whether the fetches of a task may find what another has stored: its own stores, and those of ended tasks that it depends on. -/
def Task.sees (t : Task) (order : Nat) : Bool := order == t.order || t.follows.contains order

/-- R11: memory as the fetches of a task that starts now find it: with the stores of the ended tasks that it depends on, and of no other
(log entry 82). -/
def codeBaseOf (s : State) (follows : List Nat) : List Host.Cell :=
  let now := s.l1.foldl (fun m l => writeDirty m l.dirty) s.mem
  s.codeBy.foldl (fun m e => KMap.set m memDefault e.1 (codeByte s follows.contains e.1)) now

/-- R384: a line that a core fetches for a task and does not hold in its instruction cache yet crosses the core's port. -/
def crossFetch (s : State) (core : Nat) (task : Task) (pas : List Nat) : State :=
  ((pas.map (· / 128)).eraseDups).foldl (fun s line =>
    if s.icache.any fun e => e.core == core && e.order == task.order && (e.first / 128 == line || e.last / 128 == line) then s
    else portCross s core task.ctx) s

/-- R11, R406: the word that a core receives: old is what it fetched there in the task before, else what the task's start edge found, now
what memory holds but for the stores of tasks that it does not depend on. A word that the task itself, or an agent, has changed since is
old or new, as a whole (log entry 6). -/
def fetchWordOf (s : State) (core : Nat) (task : Task) (pas : List Nat) (old now : W96) : W96 × State :=
  let entry (w : W96) : ICacheEntry := ⟨core, task.order, pas.headD 0, pas.getLastD 0, w⟩
  let keep (s : State) (w : W96) : State :=
    if s.icache.contains (entry w) then s
    else { crossFetch (correctBytes s pas) core task pas with
      icache := (s.icache.filter fun e => !(e.core == core && e.order == task.order && e.first == pas.headD 0 && e.last == pas.getLastD 0)) ++
        [entry w] }
  if old = now then (now, keep s now)
  else
    let w := if Config.fetchOld s.freeCtr then old else now
    (w, keep { s with freeCtr := s.freeCtr + 1 } w)

/-- R11: the word at physical addresses that a core has fetched in a task. -/
def cachedWord (s : State) (core : Nat) (task : Task) (pas : List Nat) : Option W96 :=
  (s.icache.find? fun e => e.core == core && e.order == task.order && e.first == pas.headD 0 && e.last == pas.getLastD 0).map ICacheEntry.word

/-- R10, R11: fetch of the word at a PC by a core for a task. -/
def fetchAt (s : State) (core : Nat) (task : Task) (pc : W64) : Fetched :=
  if pc.toNat % 4 ≠ 0 then .fail s
  else match fetchBytes s core task.ctx pc.toNat 12 with
    | (.error none, s) => .miss s
    | (.error (some _), s) => .fail s
    | (.ok pas, s) =>
      match wordOfBytes (pas.map (codeByte s task.sees)), wordOfBytes (pas.map (KMap.get task.codeBase memDefault)) with
      | some now, some base =>
        let r := fetchWordOf s core task pas ((cachedWord s core task pas).getD base) now
        .word r.1 r.2
      | _, _ => .fail s

/-- The fields of a word that has none. -/
def noFields : Fields :=
  ⟨false, 7#3, 0#12, 0#12, 0#12, 0#32, false, false, false, false, false, false, 0#2, 0#6⟩

/-- R10: FETCH-FAULT at a PC. -/
def fetchFault (s : State) (ref : GangRef) (who : Who) (task : Task) (pc : W64) (set : LaneMask) : State :=
  trapIssue s (.nop noFields) noFields ref who task pc set set { cause := 0x08, tmask := set, taddr := pc, thit := set, tpc := none }

/-- R24: ILLEGAL-OPCODE of a word that is no instruction. -/
def illegalWord (s : State) (ref : GangRef) (who : Who) (task : Task) (pc : W64) (set : LaneMask) : State :=
  trapIssue s (.nop noFields) noFields ref who task pc set set (.plain 0x10 set)

/-! ### Issue boundaries -/

/-- R53, R249, R430: the cause a gang takes before its next issue. -/
def boundaryTrap (g : Gang) : Option TrapInfo :=
  match g.syncDue with
  | some (obj, next, lanes) => some { cause := 0x29, tmask := lanes, taddr := obj, thit := lanes, tpc := some next }
  | none =>
    if g.stepDue && !g.inh && !(g.transients.any fun t => t.age < 3) then
      let next := match lowestLane (g.lastSet &&& g.live) with
        | some l => g.pcOf l
        | none => (g.chooseSet.map Prod.fst).getD 0#64
      some { cause := 0xF0, tmask := g.lastActive &&& g.live, taddr := 0#64, thit := g.lastSet, tpc := some next }
    else none

/-- The boundary cause taken. -/
def takeBoundary (s : State) (ref : GangRef) (who : Who) (task : Task) (t : TrapInfo) : State :=
  match s.gang? ref with
  | none => s
  | some g =>
    let s := s.setGang ref { g with syncDue := none, stepDue := if t.cause = 0xF0 then false else g.stepDue }
    takeTrap s ref who task 0#64 t

/-! ### Records at their beginning -/

/-- R373: a context as CTXSET makes it. -/
def Ctx.fresh (state : CtxState) (m : CtxFields) (tick : Nat) : Ctx :=
  { state, m, sliceStart := tick, drainStart := 0, drainReason := 0, drainDeadline := 0, progress := tick, stallDrained := false,
    saved := none, waitSince := tick, errRing := none, telRing := none, telMods := false, trace := [], debug := none,
    frozen := false, retiredAt := none }

/-- R334: a task as its slot takes it. -/
def Task.fresh (r : TaskRec) (ctx queue order : Nat) (stage : Stage) : Task :=
  { rec_ := r, ctx, queue, order, stage, depsMet := [], classes := [], reclassing := [], reclass := 0#64, relaunches := [],
    placed := 0, relaunch := [], retired := [], digest := 0#64, codeBase := [], follows := [], fault := none, estat := 0, errCode := 0, forced := false,
    rerun := false, longest := 0, sumUnclass := 0#64, sumIssues := 0#64, teamsRetired := 0#64, flushStopped := false }

end Sys2Proof.Machine
end

