-- ==== Sys2Proof/Machine/Transcend.lean ====
section
/-! DEFINITION. The SFU forms whose exact result is irrational (R136, R137), through fixed-point values of 448 fraction bits
whose error lies far below any rounding decision: an exact case is found exactly, and any other exact result is irrational,
so that it is no tie (log entry 10). -/

namespace Sys2Proof.Machine

/-- Fraction bits of the fixed-point values. -/
def fxBits : Nat := 448
def fxOne : Nat := 2 ^ 448
/-- ln 2 × 2^448, cut. -/
def fxLn2 : Nat := 0xb17217f7d1cf79abc9e3b39803f2f6af40f343267298b62d8a0d175b8baafa2be7b876206debac98559552fb4afa1b10ed2eae35c1382144
/-- π × 2^448, cut. -/
def fxPi : Nat := 0x3243f6a8885a308d313198a2e03707344a4093822299f31d0082efa98ec4e6c89452821e638d01377be5466cf34e90c6cc0ac29b7c97c50dd

/-- Product of fixed-point values. -/
def fxMul (x y : Nat) : Nat := x * y / 2 ^ 448

/-- Σ term_n with term_(n+1) = term_n × t / n, from term. -/
def fxExpLoop (t : Nat) : Nat → Nat → Nat → Nat → Nat
  | 0, _, _, acc => acc
  | fuel + 1, n, term, acc =>
    let term' := fxMul term t / n
    fxExpLoop t fuel (n + 1) term' (acc + term')

/-- e^t for 0 ≤ t < 1. -/
def fxExp (t : Nat) : Nat := fxExpLoop t 110 1 fxOne fxOne

/-- 2^(f / 2^448) for 0 ≤ f < 2^448. -/
def fxExp2 (f : Nat) : Nat := fxExp (fxMul f fxLn2)

/-- Σ z^(2k+1) / (2k+1). -/
def fxAtanhLoop (z2 : Nat) : Nat → Nat → Nat → Nat → Nat
  | 0, _, _, acc => acc
  | fuel + 1, k, p, acc =>
    let p' := fxMul p z2
    fxAtanhLoop z2 fuel (k + 2) p' (acc + p' / (k + 2))

/-- log2(x) for a fixed-point x with 1 ≤ x < 2, as a fixed-point value. -/
def fxLog2 (x : Nat) : Nat :=
  let z := (x - fxOne) * 2 ^ 448 / (x + fxOne)
  let ln := 2 * fxAtanhLoop (fxMul z z) 145 1 z z
  ln * 2 ^ 448 / fxLn2

/-- Σ of the alternating series with ratio x2 / (n (n + 1)). -/
def fxAltLoop (x2 : Nat) : Nat → Nat → Nat → Int → Int → Int
  | 0, _, _, _, acc => acc
  | fuel + 1, n, term, sg, acc =>
    let term' := fxMul term x2 / (n * (n + 1))
    fxAltLoop x2 fuel (n + 2) term' (-sg) (acc + sg * (term' : Int))

/-- sin(x) for 0 ≤ x ≤ 2. -/
def fxSin (x : Nat) : Nat := (fxAltLoop (fxMul x x) 60 2 x (-1) x).toNat
/-- cos(x) for 0 ≤ x ≤ 2. -/
def fxCos (x : Nat) : Nat := (fxAltLoop (fxMul x x) 60 1 fxOne (-1) fxOne).toNat

/-- An approximation of a positive irrational: m × 2^e ≤ value < (m + 1) × 2^e, up to an error far below the last bit
any rounding here looks at. -/
structure Approx where
  m : Nat
  e : Int
  deriving DecidableEq, Repr

/-- 2^(n / 2^k) for an integer n (R78, R79, R176, R182). -/
def approxExp2 (n : Int) (k : Nat) : Approx :=
  let q := Int.ediv n (2 ^ k)
  let r := (Int.emod n (2 ^ k)).toNat
  ⟨fxExp2 (r * 2 ^ (448 - k)), q - 448⟩

/-- 2^448 × log2(m / d) as an integer cut down, with whether it is exact, for positive m and d. -/
def log2Fixed (m d : Nat) : Int × Bool :=
  -- bring m / d into [1, 2)
  let k : Int := (Nat.log2 m : Int) - (Nat.log2 d : Int)
  let a := if k ≥ 0 then m else m * 2 ^ (-k).toNat
  let b := if k ≥ 0 then d * 2 ^ k.toNat else d
  let (a, k) := if a < b then (2 * a, k - 1) else (a, k)
  if a = b then (k * 2 ^ 448, true)
  else (k * 2 ^ 448 + (fxLog2 (a * 2 ^ 448 / b) : Int), false)

/-- Whether 2^s × log2(m / d) lies above t − ½, for positive m and d: the powers (m / d)^(2^(s+1)) and 2^(2t − 1) compared. -/
def log2Above (s m d : Nat) (t : Int) : Bool :=
  let k := 2 * t - 1
  decide (d ^ 2 ^ (s + 1) * 2 ^ k.toNat < m ^ 2 ^ (s + 1) * 2 ^ (-k).toNat)

/-- RoundNE(2^s × log2(m / d)): exact powers of two are integers, any other value is irrational and no tie (R76, R179, R180). Where
the fixed-point value lies so close to a tie that its error could matter, the exact values are compared. -/
def roundLog2 (s m d : Nat) : Int :=
  let (v, exact) := log2Fixed m d
  let y := v * 2 ^ (s + 1) + 2 ^ 448
  let n := Int.ediv y (2 ^ 449)
  let r := Int.emod y (2 ^ 449)
  if exact || (2 ^ 100 ≤ r && r ≤ 2 ^ 449 - 2 ^ 100) then n
  else
    let t := if r < 2 ^ 100 then n else n + 1
    if log2Above s m d t then t else t - 1

/-- The exact result of an approximate form: a special result with its flags, or a sign and an irrational magnitude. -/
inductive SfuExact where
  | special (bits : Nat) (flags : Flags)
  | irr (neg : Bool) (a : Approx)
  deriving DecidableEq, Repr

/-- 4.01 FRSQ (R137). -/
def exactFrsq (F : Fmt) (v : FVal) : SfuExact :=
  match v with
  | .nan s => .special F.qnan (if s then flagNV else 0#5)
  | .inf neg => if neg then .special F.qnan flagNV else .special 0 0#5
  | .fin neg m e =>
    if m = 0 then .special (F.inf neg) flagDZ
    else if neg then .special F.qnan flagNV
    else
      let m' := if e % 2 = 0 then m else 2 * m
      let e' := if e % 2 = 0 then e else e - 1
      -- 1 / sqrt(m' 2^e') = sqrt(2^800 / m') 2^(-400 - e'/2)
      let r := isqrt (2 ^ 800 / m')
      if r * r * m' = 2 ^ 800 then .special (F.roundMag 0 false r (-400 - e' / 2) false).1 0#5
      else .irr false ⟨r, -400 - e' / 2⟩

/-- 4.03 FEXP2 (R137). -/
def exactExp2 (F : Fmt) (v : FVal) : SfuExact :=
  match v with
  | .nan s => .special F.qnan (if s then flagNV else 0#5)
  | .inf neg => .special (if neg then 0 else F.inf false) 0#5
  | .fin neg m e =>
    if m = 0 then .special (F.roundMag 0 false 1 0 false).1 0#5
    else
      -- beyond ±2^13 every result overflows or underflows alike
      if (Nat.log2 m : Int) + e ≥ 13 then .irr false (if neg then ⟨fxOne, -448 - 8192⟩ else ⟨fxOne, -448 + 8192⟩)
      else
        let n : Int := if neg then -(m : Int) else m
        if e ≥ 0 then
          let r := F.roundMag 0 false 1 (n * 2 ^ e.toNat) false
          .special r.1 r.2
        else
          let k := (-e).toNat
          if n % (2 ^ k : Nat) = 0 then
            let r := F.roundMag 0 false 1 (Int.ediv n (2 ^ k)) false
            .special r.1 r.2
          else .irr false (approxExp2 n k)

/-- 4.04 FLOG2 (R137). -/
def exactLog2 (F : Fmt) (v : FVal) : SfuExact :=
  match v with
  | .nan s => .special F.qnan (if s then flagNV else 0#5)
  | .inf neg => if neg then .special F.qnan flagNV else .special (F.inf false) 0#5
  | .fin neg m e =>
    if m = 0 then .special (F.inf true) flagDZ
    else if neg then .special F.qnan flagNV
    else
      let (x, exact) := log2Fixed m 1
      let y := x + e * 2 ^ 448
      if exact then .special (F.roundDy 0 false ⟨y, -448⟩).1 0#5
      else .irr (y < 0) ⟨y.natAbs, -448⟩

/-- sin(π r / 2^k) for 0 < r < 2^(k-1), that is an angle in (0, π/2). -/
def approxSinPi (r k : Nat) : Approx :=
  let x := if k ≤ 448 then r * 2 ^ (448 - k) else r / 2 ^ (k - 448)
  if Nat.log2 r + 100 < k then
    -- a tiny angle: π r / 2^k less a part below 2^-190 of it
    ⟨r * fxPi - (r * fxPi / 2 ^ 190 + 1), -(448 + (k : Int))⟩
  else if 4 * x ≤ fxOne then ⟨fxSin (fxMul x fxPi), -448⟩
  else ⟨fxCos (fxMul (fxOne / 2 - x) fxPi), -448⟩

/-- 4.05, 4.06 FSIN and FCOS in half-turns (R136, R137). -/
def exactSinCos (F : Fmt) (cos : Bool) (v : FVal) : SfuExact :=
  let one (neg : Bool) : SfuExact := .special (F.roundMag 0 neg 1 0 false).1 0#5
  match v with
  | .nan s => .special F.qnan (if s then flagNV else 0#5)
  | .inf _ => .special F.qnan flagNV
  | .fin neg m e =>
    if m = 0 then if cos then one false else .special (F.signBit neg) 0#5
    else if e ≥ 0 then
      if cos then one (m * 2 ^ (min e 1).toNat % 2 = 1) else .special (F.signBit neg) 0#5
    else
      let k := (-e).toNat
      -- |a| mod 2 in units of 2^-k
      let r := m % 2 ^ (k + 1)
      let half := 2 ^ (k - 1)
      if r % 2 ^ k = 0 then
        if cos then one (r != 0) else .special (F.signBit neg) 0#5
      else if k ≥ 1 && r % 2 ^ k = half && 2 * half = 2 ^ k then
        if cos then .special 0 0#5 else one (neg != (r != half))
      else
        let upper := r > 2 ^ k
        let r' := r % 2 ^ k
        -- sin(π r') with r' in (0, 1), cos(π r') positive below one half
        let ref := if 2 * r' > 2 ^ k then 2 ^ k - r' else r'
        if cos then
          let neg' := (2 * r' > 2 ^ k) != upper
          -- cos(π ref) = sin(π (1/2 - ref))
          .irr neg' (if Nat.log2 ref + 100 < k then ⟨2 ^ 400 - 1, -400⟩ else approxSinPi (2 ^ k - 2 * ref) (k + 1))
        else .irr (neg != upper) (approxSinPi ref k)

/-- 4.07 FTANH (R137). -/
def exactTanh (F : Fmt) (v : FVal) : SfuExact :=
  match v with
  | .nan s => .special F.qnan (if s then flagNV else 0#5)
  | .inf neg => .special (F.roundMag 0 neg 1 0 false).1 0#5
  | .fin neg m e =>
    let E : Int := (Nat.log2 m : Int) + e
    if m = 0 then .special (F.signBit neg) 0#5
    else if E < -60 then .irr neg ⟨m * 2 ^ 110 - 1, e - 110⟩
    else if E ≥ 6 then .irr neg ⟨2 ^ 150 - 1, -150⟩
    else
      -- e^(2a) = 2^q e^t with 0 ≤ t < ln 2
      let x : Nat := if e + 449 ≥ 0 then m * 2 ^ (e + 449).toNat else m / 2 ^ (-(e + 449)).toNat
      let q := x / fxLn2
      let ex := fxExp (x % fxLn2) * 2 ^ q
      .irr neg ⟨(ex - fxOne) * 2 ^ 448 / (ex + fxOne), -448⟩

/-- A pattern as an integer in the order of its values: −0 is −1 − 0 shifted below +0. -/
def Fmt.ordered (F : Fmt) (x : Nat) : Int :=
  if x ≥ 2 ^ (F.width - 1) then -((x - 2 ^ (F.width - 1) : Nat) : Int) else x
/-- The pattern of an integer of `ordered`. -/
def Fmt.ofOrdered (F : Fmt) (x : Int) : Nat := if x < 0 then 2 ^ (F.width - 1) + x.natAbs else x.toNat

/-- The exact dyadic value of a finite pattern. -/
def Fmt.value (F : Fmt) (x : Nat) : Dyadic := (F.unpack x).dyadic

/-- R136: the patterns within the stated bound of an irrational result, as an interval of `ordered`: ulps is the bound in
units of the spacing at the exact result, and absLog the alternative of FLOG2. -/
def sfuBounds (F : Fmt) (ulps : Nat) (absLog neg : Bool) (a : Approx) : Int × Int :=
  let E : Int := (Nat.log2 a.m : Int) + a.e
  let u : Int := max (E - F.fbits) (F.emin - F.fbits)
  let y : Dyadic := ⟨if neg then -(a.m : Int) else a.m, a.e⟩
  let small := absLog && E < 0
  let bound : Dyadic := if small && u < -22 then ⟨1, -22⟩ else ⟨ulps, u⟩
  -- the patterns of the two ends, rounded inwards
  let lo := y.add ⟨-bound.n, bound.e⟩
  let hi := y.add bound
  let maxOrd : Int := F.ordered (F.maxFin false)
  let loP := F.ordered (F.roundDy 2 false lo).1
  let hiP := F.ordered (F.roundDy 3 false hi).1
  (max (-maxOrd) loP, min maxOrd hiP)

/-- R136: the result and the flags of an approximate form. Types F16 and BF16 are correctly rounded to nearest even; F32 and
F64 give one of the results within the bound, a free value, with UF when that result is tiny; OF and the overflow to infinity are
taken where the correctly rounded result overflows (log entry 7). -/
def sfuResult (form t : Nat) (src : Nat) (ftz : Bool) (x : SfuExact) : Nat × Flags :=
  let F := fmtOf t
  match x with
  | .special b fl => F.flush ftz (b, fl)
  | .irr neg a =>
    let near := F.roundMag 0 neg a.m a.e true
    if t = 10 || t = 11 then F.flush ftz (near.1, near.2 ||| flagNX)
    else if near.2 &&& flagOF ≠ 0#5 then (near.1, near.2 ||| flagNX)
    else if form = 7 && near.1 % 2 ^ (F.width - 1) = (F.roundMag 0 false 1 0 false).1 then (near.1, flagNX)
    else
      let ulps := if form = 5 || form = 6 || form = 7 then 2 else 1
      let (lo, hi) := sfuBounds F ulps (form = 4) neg a
      let n := (hi - lo + 1).toNat
      let pick := lo + ((Config.sfuChoice form src t ftz) % (max n 1) : Nat)
      let b := F.ofOrdered pick
      F.flush ftz (b, if b % 2 ^ (F.width - 1) < 2 ^ F.fbits then flagUF ||| flagNX else flagNX)

/-- R136, R137: an element of an approximate one-source form, by its OP: 1 FRSQ, 3 FEXP2, 4 FLOG2, 5 FSIN, 6 FCOS, 7 FTANH. -/
def sfuElem (form t : Nat) (ftz : Bool) (x : Nat) : Nat × Flags :=
  let F := fmtOf t
  let (v, fl) := F.fpIn ftz x
  let ex := match form with
    | 1 => exactFrsq F v
    | 3 => exactExp2 F v
    | 4 => exactLog2 F v
    | 5 => exactSinCos F false v
    | 6 => exactSinCos F true v
    | _ => exactTanh F v
  let r := sfuResult form t x ftz ex
  (r.1, r.2 ||| fl)

end Sys2Proof.Machine
end

