-- ==== Sys2Proof/Machine/Fp.lean ====
section
/-! DEFINITION. Classes 0x3 and 0x4: floating point and special functions (R124 to R140). -/

namespace Sys2Proof.Machine

/-- A lane value formed from w-bit sub-elements with the flags of all of them. -/
def fpLanes (w : Nat) (h : Nat → Nat × Flags) : W64 × Flags :=
  let r := (List.range (64 / w)).map h
  (w64 (ofSubs w (r.map Prod.fst)), r.foldl (fun fl e => fl ||| e.2) 0#5)

/-- R125: FpIn(x, j, F) for the form's type and FPCTL. -/
def Iss.fpElt (x : Iss) (t : Nat) (v : W64) (j : Nat) : FVal × Flags :=
  (fmtOf t).fpIn (fpFTZ x.g.fpctl) (subElem v (typeWidth t) j)
/-- R127: the mode of the form's variant. -/
def Iss.mode (x : Iss) : Nat := variantMode x.g.fpctl x.f.variant
/-- FPCTL.FTZ. -/
def Iss.ftz (x : Iss) : Bool := fpFTZ x.g.fpctl

/-- R64: the flags of each Active lane. -/
def laneFlags (x : Iss) (h : Nat → Flags) : List (Nat × Flags) := x.lanes.map fun l => (l, h l)

/-- R64: a fixed-latency form with flags: FP-EXC, or the result and its flags at commit. -/
def fpForm (i : Instr) (s : State) (h : Iss → Nat → W64 × Flags) : Host.Outcome State Fault Refusal :=
  runIssue i s fun x s =>
    let fl := laneFlags x fun l => (h x l).2
    match x.fpTrap s fl false with
    | some r => r
    | none => .ok (x.orStat (x.putD s fun l => (h x l).1) (allFlags fl))

/-- R64, R138: a long-latency form with flags: FP-EXC, or a fill that carries them. -/
def sfuForm (i : Instr) (s : State) (h : Iss → Nat → W64 × Flags) : Host.Outcome State Fault Refusal :=
  runIssue i s fun x s =>
    let fl := laneFlags x fun l => (h x l).2
    match x.fpTrap s fl false with
    | some r => r
    | none => .ok (x.fill s (x.dWrites fun l => (h x l).1) (allFlags fl) true)

/-- R128: a sum of terms, each with its flags. -/
def sumLanes (x : Iss) (terms : Nat → List (FVal × Flags)) : W64 × Flags :=
  fpLanes (typeWidth x.f.tcode) fun j =>
    let ts := terms j
    let r := (fmtOf x.f.tcode).sum x.ftz x.mode (ts.map Prod.fst)
    (r.1, ts.foldl (fun fl e => fl ||| e.2) r.2)

/-- R130: a product of two values as read. -/
def mulTerm (a b : FVal × Flags) : FVal × Flags :=
  let p := a.1.mul b.1
  (p.1, p.2 ||| a.2 ||| b.2)

/-- R128: a product rounded once. -/
def mulLanes (x : Iss) (a b : W64) : W64 × Flags := sumLanes x fun j => [mulTerm (x.fpElt x.f.tcode a j) (x.fpElt x.f.tcode b j)]

/-- R128: FADD. -/
def execFadd (f : Fields) (s : State) : Host.Outcome State Fault Refusal :=
  fpForm (.fadd f) s fun x l => sumLanes x fun j => [x.fpElt f.tcode (x.a l) j, x.fpElt f.tcode (x.b l) j]
/-- R128: FSUB. -/
def execFsub (f : Fields) (s : State) : Host.Outcome State Fault Refusal :=
  fpForm (.fsub f) s fun x l => sumLanes x fun j =>
    let b := x.fpElt f.tcode (x.b l) j
    [x.fpElt f.tcode (x.a l) j, (b.1.negate, b.2)]
/-- R128: FMUL. -/
def execFmul (f : Fields) (s : State) : Host.Outcome State Fault Refusal :=
  fpForm (.fmul f) s fun x l => mulLanes x (x.a l) (x.b l)
/-- R128: FFMA, one exact value rounded once. -/
def execFfma (f : Fields) (s : State) : Host.Outcome State Fault Refusal :=
  fpForm (.ffma f) s fun x l => sumLanes x fun j =>
    [mulTerm (x.fpElt f.tcode (x.a l) j) (x.fpElt f.tcode (x.b l) j), x.fpElt f.tcode (x.c l) j]

/-- R131: a minimum or maximum per sub-element. -/
def minMaxLanes (t : Nat) (ftz isMax nanRule : Bool) (a b : W64) : W64 × Flags :=
  fpLanes (typeWidth t) fun j => (fmtOf t).minMax ftz isMax nanRule (subElem a (typeWidth t) j) (subElem b (typeWidth t) j)
/-- R131: FMIN. -/
def execFmin (f : Fields) (s : State) : Host.Outcome State Fault Refusal :=
  fpForm (.fmin f) s fun x l => minMaxLanes f.tcode x.ftz false (f.variant == 1) (x.a l) (x.b l)
/-- R131: FMAX. -/
def execFmax (f : Fields) (s : State) : Host.Outcome State Fault Refusal :=
  fpForm (.fmax f) s fun x l => minMaxLanes f.tcode x.ftz true (f.variant == 1) (x.a l) (x.b l)

/-- R132: sign bits cleared or complemented. -/
def absElem (w u : Nat) : Nat := u % 2 ^ (w - 1)
def negElem (w u : Nat) : Nat := u % 2 ^ (w - 1) + (1 - u / 2 ^ (w - 1)) * 2 ^ (w - 1)
/-- R132: FABS. -/
def execFabs (f : Fields) (s : State) : Host.Outcome State Fault Refusal :=
  runIssue (.fabs f) s fun x s => .ok (x.putD s fun l =>
    mapSubs (typeWidth f.tcode) fun j => absElem (typeWidth f.tcode) (subElem (x.a l) (typeWidth f.tcode) j))
/-- R132: FNEG. -/
def execFneg (f : Fields) (s : State) : Host.Outcome State Fault Refusal :=
  runIssue (.fneg f) s fun x s => .ok (x.putD s fun l =>
    mapSubs (typeWidth f.tcode) fun j => negElem (typeWidth f.tcode) (subElem (x.a l) (typeWidth f.tcode) j))

/-- R133: a comparison combined over sub-elements; `.LOW` reads sub-element 0 alone. -/
def fcmpLane (x : Iss) (a b : W64) : Bool × Flags :=
  let t := x.f.tcode
  let n := if x.f.variant = 2 then 1 else 64 / typeWidth t
  let r := (List.range n).map fun j => fcmpElem (x.f.imm.toNat % 8) (x.fpElt t a j) (x.fpElt t b j)
  (combineBits x.f.variant (r.map Prod.fst), r.foldl (fun fl e => fl ||| e.2) 0#5)
where
  /-- R115: all, any, or the only one. -/
  combineBits (v : Nat) (l : List Bool) : Bool := if v = 0 then l.all id else l.any id
/-- R133: FCMP. -/
def execFcmp (f : Fields) (s : State) : Host.Outcome State Fault Refusal :=
  runIssue (.fcmp f) s fun x s =>
    let r (l : Nat) := fcmpLane x (x.a l) (x.b l)
    let fl := laneFlags x fun l => (r l).2
    match x.fpTrap s fl false with
    | some t => t
    | none => .ok (x.orStat (x.putP s fun l => (r l).1) (allFlags fl))

/-- R132: whether a sub-element is not a NaN and ≥ 0. -/
def geZero (F : Fmt) (c : Nat) : Bool :=
  match F.unpack c with
  | .nan _ => false
  | .inf neg => !neg
  | .fin neg m _ => !neg || m == 0
/-- R132: the choice of FSEL per sub-element. -/
def fselLane (t : Nat) (a b c : W64) : W64 :=
  mapSubs (typeWidth t) fun j =>
    if geZero (fmtOf t) (subElem c (typeWidth t) j) then subElem a (typeWidth t) j else subElem b (typeWidth t) j
/-- R132: FSEL. -/
def execFsel (f : Fields) (s : State) : Host.Outcome State Fault Refusal :=
  runIssue (.fsel f) s fun x s => .ok (x.putD s fun l => fselLane f.tcode (x.a l) (x.b l) (x.c l))
/-- R134: FCLASS. -/
def execFclass (f : Fields) (s : State) : Host.Outcome State Fault Refusal :=
  runIssue (.fclass f) s fun x s => .ok (x.putD s fun l =>
    mapSubs (typeWidth f.tcode) fun j => 2 ^ (fmtOf f.tcode).classBit (subElem (x.a l) (typeWidth f.tcode) j))
/-- R128: FSCALE by a power of two read as an integer. -/
def execFscale (f : Fields) (s : State) : Host.Outcome State Fault Refusal :=
  fpForm (.fscale f) s fun x l => fpLanes (typeWidth f.tcode) fun j =>
    let w := typeWidth f.tcode
    (fmtOf f.tcode).scale x.ftz x.mode (subElem (x.a l) w j) (signExt (subElem (x.b l) w j) w)
/-- R135: FROUND. -/
def execFround (f : Fields) (s : State) : Host.Outcome State Fault Refusal :=
  fpForm (.fround f) s fun x l => fpLanes (typeWidth f.tcode) fun j =>
    (fmtOf f.tcode).roundInt x.ftz (froundMode x.g.fpctl f.variant) (subElem (x.a l) (typeWidth f.tcode) j)
/-- R129: two products and one addend summed at once, into binary32. -/
def fdot2Lane (x : Iss) (a b c : W64) : W64 × Flags :=
  let t := x.f.tcode
  fpLanes 32 fun h =>
    let p0 := mulTerm (x.fpElt t a (2 * h)) (x.fpElt t b (2 * h))
    let p1 := mulTerm (x.fpElt t a (2 * h + 1)) (x.fpElt t b (2 * h + 1))
    let k := x.fpElt 8 c h
    let r := f32.sum x.ftz x.mode [p0.1, p1.1, k.1]
    (r.1, r.2 ||| p0.2 ||| p1.2 ||| k.2)
/-- R129: FDOT2. -/
def execFdot2 (f : Fields) (s : State) : Host.Outcome State Fault Refusal :=
  fpForm (.fdot2 f) s fun x l => fdot2Lane x (x.a l) (x.b l) (x.c l)

/-! ### Class 0x4 -/

/-- R138: a quotient of two values as read. -/
def divElem (x : Iss) (a b : FVal × Flags) : Nat × Flags :=
  let r := (fmtOf x.f.tcode).div x.ftz x.mode a.1 b.1
  (r.1, r.2 ||| a.2 ||| b.2)
/-- R138: FRCP is FDIV with a = 1.0. -/
def execFrcp (f : Fields) (s : State) : Host.Outcome State Fault Refusal :=
  sfuForm (.frcp f) s fun x l => fpLanes (typeWidth f.tcode) fun j => divElem x (.fin false 1 0, 0#5) (x.fpElt f.tcode (x.a l) j)
/-- R136, R137: FSQRT. -/
def execFsqrt (f : Fields) (s : State) : Host.Outcome State Fault Refusal :=
  sfuForm (.fsqrt f) s fun x l => fpLanes (typeWidth f.tcode) fun j =>
    let a := x.fpElt f.tcode (x.a l) j
    let r := (fmtOf f.tcode).sqrt x.ftz x.mode a.1
    (r.1, r.2 ||| a.2)
/-- R138: FDIV. -/
def execFdiv (f : Fields) (s : State) : Host.Outcome State Fault Refusal :=
  sfuForm (.fdiv f) s fun x l => fpLanes (typeWidth f.tcode) fun j => divElem x (x.fpElt f.tcode (x.a l) j) (x.fpElt f.tcode (x.b l) j)

/-- R136, R137: an approximate form; its number is that of `sfuElem`. -/
def approxForm (form : Nat) (x : Iss) (a : W64) : W64 × Flags :=
  fpLanes (typeWidth x.f.tcode) fun j =>
    sfuElem form x.f.tcode x.ftz (subElem a (typeWidth x.f.tcode) j)
/-- R136: FRSQ. -/
def execFrsq (f : Fields) (s : State) : Host.Outcome State Fault Refusal := sfuForm (.frsq f) s fun x l => approxForm 1 x (x.a l)
/-- R136: FEXP2. -/
def execFexp2 (f : Fields) (s : State) : Host.Outcome State Fault Refusal := sfuForm (.fexp2 f) s fun x l => approxForm 3 x (x.a l)
/-- R136: FLOG2. -/
def execFlog2 (f : Fields) (s : State) : Host.Outcome State Fault Refusal := sfuForm (.flog2 f) s fun x l => approxForm 4 x (x.a l)
/-- R136: FSIN. -/
def execFsin (f : Fields) (s : State) : Host.Outcome State Fault Refusal := sfuForm (.fsin f) s fun x l => approxForm 5 x (x.a l)
/-- R136: FCOS. -/
def execFcos (f : Fields) (s : State) : Host.Outcome State Fault Refusal := sfuForm (.fcos f) s fun x l => approxForm 6 x (x.a l)
/-- R136: FTANH. -/
def execFtanh (f : Fields) (s : State) : Host.Outcome State Fault Refusal := sfuForm (.ftanh f) s fun x l => approxForm 7 x (x.a l)

/-- R139, R140: the elements of a conversion and where they land; unselected destination elements are zero. -/
def cvtLane (ftz : Bool) (mode : Nat) (sat : Bool) (dt st part : Nat) (a : W64) : W64 × Flags :=
  let ws := typeWidth st
  let wd := typeWidth dt
  let cs := 64 / ws
  let cd := 64 / wd
  if cs ≤ cd then
    fpLanes wd fun k =>
      if part * cs ≤ k && k < part * cs + cs then convElem ftz mode sat dt st (subElem a ws (k - part * cs)) else (0, 0#5)
  else fpLanes wd fun j => convElem ftz mode sat dt st (subElem a ws (part * cd + j))
/-- R139: CVT. -/
def execCvt (f : Fields) (s : State) : Host.Outcome State Fault Refusal :=
  sfuForm (.cvt f) s fun x l =>
    cvtLane x.ftz x.mode (f.variant == 1) f.tcode (f.imm.toNat % 16) (f.imm.toNat / 16 % 8) (x.a l)

end Sys2Proof.Machine
end

