-- ==== Sys2Proof/Machine/Int.lean ====
section
/-! DEFINITION. Classes 0x1 and 0x2: integer arithmetic and bits (R112 to R123). -/

namespace Sys2Proof.Machine

/-- R99: Elt(x, j, T). -/
def elt (t : Nat) (x : W64) (j : Nat) : Int := intElem t (subElem x (typeWidth t) j)

/-- R112: a result formed sub-element by sub-element from the exact value, wrapped, or saturated first. -/
def intLanes (t : Nat) (sat : Bool) (h : Nat → Int) : W64 :=
  mapSubs (typeWidth t) fun j => wrapInt (if sat then satInt t (h j) else h j) (typeWidth t)

/-- R112: the operations f(a, b, c). -/
def intOp1 (t : Nat) (sat : Bool) (h : Int → Int) (a : W64) : W64 := intLanes t sat fun j => h (elt t a j)
def intOp2 (t : Nat) (sat : Bool) (h : Int → Int → Int) (a b : W64) : W64 := intLanes t sat fun j => h (elt t a j) (elt t b j)
def intOp3 (t : Nat) (sat : Bool) (h : Int → Int → Int → Int) (a b c : W64) : W64 :=
  intLanes t sat fun j => h (elt t a j) (elt t b j) (elt t c j)

/-- The issue of a fixed-latency form whose result in a lane is a function of A, B and C there. -/
def laneForm (i : Instr) (s : State) (h : Iss → Nat → W64) : Host.Outcome State Fault Refusal :=
  runIssue i s fun x s => .ok (x.putD s (h x))

/-- R112: IADD. -/
def execIadd (f : Fields) (s : State) : Host.Outcome State Fault Refusal :=
  laneForm (.iadd f) s fun x l => intOp2 f.tcode (f.variant == 1) (· + ·) (x.a l) (x.b l)
/-- R112: ISUB. -/
def execIsub (f : Fields) (s : State) : Host.Outcome State Fault Refusal :=
  laneForm (.isub f) s fun x l => intOp2 f.tcode (f.variant == 1) (· - ·) (x.a l) (x.b l)
/-- R112: IMUL. -/
def execImul (f : Fields) (s : State) : Host.Outcome State Fault Refusal :=
  laneForm (.imul f) s fun x l => intOp2 f.tcode (f.variant == 1) (· * ·) (x.a l) (x.b l)
/-- R112: IMULH, the high half of the product. -/
def execImulh (f : Fields) (s : State) : Host.Outcome State Fault Refusal :=
  laneForm (.imulh f) s fun x l =>
    intOp2 f.tcode false (fun a b => Int.fdiv (a * b) ((2 ^ typeWidth f.tcode : Nat) : Int)) (x.a l) (x.b l)
/-- R112: IMAD. -/
def execImad (f : Fields) (s : State) : Host.Outcome State Fault Refusal :=
  laneForm (.imad f) s fun x l => intOp3 f.tcode (f.variant == 1) (fun a b c => a * b + c) (x.a l) (x.b l) (x.c l)
/-- R112: IMIN. -/
def execImin (f : Fields) (s : State) : Host.Outcome State Fault Refusal :=
  laneForm (.imin f) s fun x l => intOp2 f.tcode false min (x.a l) (x.b l)
/-- R112: IMAX. -/
def execImax (f : Fields) (s : State) : Host.Outcome State Fault Refusal :=
  laneForm (.imax f) s fun x l => intOp2 f.tcode false max (x.a l) (x.b l)
/-- R112: IABS. -/
def execIabs (f : Fields) (s : State) : Host.Outcome State Fault Refusal :=
  laneForm (.iabs f) s fun x l => intOp1 f.tcode (f.variant == 1) (fun a => (a.natAbs : Int)) (x.a l)
/-- R112: INEG. -/
def execIneg (f : Fields) (s : State) : Host.Outcome State Fault Refusal :=
  laneForm (.ineg f) s fun x l => intOp1 f.tcode (f.variant == 1) (fun a => -a) (x.a l)

/-- R115: the condition of ICMP. -/
def icmpCond (c : Nat) (a b : Int) : Bool :=
  match c with
  | 0 => a == b
  | 1 => a != b
  | 2 => a < b
  | 3 => a ≤ b
  | 4 => a > b
  | _ => a ≥ b
/-- R115: how sub-elements combine: 0 all, 1 any, 2 the lowest. -/
def combine (v n : Nat) (h : Nat → Bool) : Bool :=
  match v with
  | 0 => (List.range n).all h
  | 1 => (List.range n).any h
  | _ => h 0
/-- R115: ICMP. -/
def execIcmp (f : Fields) (s : State) : Host.Outcome State Fault Refusal :=
  runIssue (.icmp f) s fun x s => .ok (x.putP s fun l =>
    combine f.variant (64 / typeWidth f.tcode) fun j => icmpCond (f.imm.toNat % 8) (elt f.tcode (x.a l) j) (elt f.tcode (x.b l) j))

/-- R116: ISEL. -/
def execIsel (f : Fields) (s : State) : Host.Outcome State Fault Refusal :=
  laneForm (.isel f) s fun x l => if x.c l != 0#64 then x.a l else x.b l

/-- R117: the sum of two words and a carry, and the carry out: one chain through the sub-elements. -/
def addCarry (a b : W64) (c : Bool) : W64 × Bool :=
  let n := a.toNat + b.toNat + (if c then 1 else 0)
  (w64 n, 2 ^ 64 ≤ n)
/-- R117: IADDC writes D and the carry predicate C together. -/
def execIaddc (f : Fields) (s : State) : Host.Outcome State Fault Refusal :=
  runIssue (.iaddc f) s fun x s =>
    let r (l : Nat) := addCarry (x.a l) (x.b l) (x.c l != 0#64)
    let s := x.putD s fun l => (r l).1
    .ok (x.mapGang s fun g => match opnd f.c with
      | .p k => g.writes (x.lanes.map fun l => .p k l (r l).2)
      | _ => g)

/-- R118: LEA. -/
def execLea (f : Fields) (s : State) : Host.Outcome State Fault Refusal :=
  laneForm (.lea f) s fun x l => x.a l + x.b l * w64 (2 ^ (f.imm.toNat % 8))

/-- R114: the Active lanes that hold a zero divisor. -/
def zeroDivisors (x : Iss) : LaneMask :=
  maskOf fun l => x.active.getLsbD l && (List.range (64 / typeWidth x.f.tcode)).any fun j => elt x.f.tcode (x.b l) j == 0
/-- R114: a division: DIV-ZERO at issue, or a fill. -/
def divForm (i : Instr) (s : State) (h : Int → Int → Int) : Host.Outcome State Fault Refusal :=
  runIssue i s fun x s =>
    if zeroDivisors x ≠ 0#64 then
      .trap { cause := 0x31, tmask := x.active, taddr := 0#64, thit := zeroDivisors x, tpc := none } s
    else .ok (x.fill s (x.dWrites fun l => intOp2 x.f.tcode false h (x.a l) (x.b l)))
/-- R112, R114: IDIV truncates. -/
def execIdiv (f : Fields) (s : State) : Host.Outcome State Fault Refusal := divForm (.idiv f) s Int.tdiv
/-- R112, R114: IREM takes the sign of the dividend. -/
def execIrem (f : Fields) (s : State) : Host.Outcome State Fault Refusal := divForm (.irem f) s Int.tmod

/-- R119: MOV. -/
def execMov (f : Fields) (s : State) : Host.Outcome State Fault Refusal := laneForm (.mov f) s fun x l => x.a l
/-- R119: MOVI and MOVI.HI. -/
def execMovi (f : Fields) (s : State) : Host.Outcome State Fault Refusal :=
  laneForm (.movi f) s fun _ _ =>
    if f.variant = 1 then f.imm.zeroExtend 64 <<< 32 else immValue false f.tcode f.imm

/-- R120: IDOT4, two four-term byte sums onto 32-bit C. -/
def idot4 (t : Nat) (sat : Bool) (a b c : W64) : W64 :=
  let u := if t = 6 then 0 else 1
  intLanes u sat fun h => elt u c h + ((List.range 4).map fun j => elt t a (4 * h + j) * elt t b (4 * h + j)).sum
/-- R120: IDOT4. -/
def execIdot4 (f : Fields) (s : State) : Host.Outcome State Fault Refusal :=
  laneForm (.idot4 f) s fun x l => idot4 f.tcode (f.variant == 1) (x.a l) (x.b l) (x.c l)

/-! ### Class 0x2 -/

/-- R121: a result formed sub-element by sub-element from u and v. -/
def bitOp (t : Nat) (h : Nat → Nat → Nat) (a b : W64) : W64 :=
  mapSubs (typeWidth t) fun j => h (subElem a (typeWidth t) j) (subElem b (typeWidth t) j)

/-- R121: shifts by the whole count; ROT by the count modulo w. -/
def shlElem (w u v : Nat) : Nat := if v ≥ w then 0 else u * 2 ^ v % 2 ^ w
def shrElem (w u v : Nat) : Nat := if v ≥ w then 0 else u / 2 ^ v
def sarElem (w u v : Nat) : Nat := wrapInt (Int.fdiv (signExt u w) ((2 ^ min v w : Nat) : Int)) w
def rotElem (w u v : Nat) : Nat := (u * 2 ^ (v % w) + u / 2 ^ (w - v % w)) % 2 ^ w
/-- R121: population count, leading and trailing zeros, bit reversal. -/
def popcElem (w u : Nat) : Nat := ((List.range w).filter fun k => u / 2 ^ k % 2 = 1).length
def clzElem (w u : Nat) : Nat := if u = 0 then w else w - (Nat.log2 u + 1)
def ctzElem (w u : Nat) : Nat := ((List.range w).find? fun k => u / 2 ^ k % 2 = 1).getD w
def brevElem (w u : Nat) : Nat := ((List.range w).map fun k => u / 2 ^ k % 2 * 2 ^ (w - 1 - k)).sum

/-- R121: AND. -/
def execAnd (f : Fields) (s : State) : Host.Outcome State Fault Refusal := laneForm (.and f) s fun x l => x.a l &&& x.b l
/-- R121: OR. -/
def execOr (f : Fields) (s : State) : Host.Outcome State Fault Refusal := laneForm (.or f) s fun x l => x.a l ||| x.b l
/-- R121: XOR. -/
def execXor (f : Fields) (s : State) : Host.Outcome State Fault Refusal := laneForm (.xor f) s fun x l => x.a l ^^^ x.b l
/-- R121: NOT. -/
def execNot (f : Fields) (s : State) : Host.Outcome State Fault Refusal := laneForm (.not f) s fun x l => ~~~x.a l
/-- R121: ANDN. -/
def execAndn (f : Fields) (s : State) : Host.Outcome State Fault Refusal := laneForm (.andn f) s fun x l => x.a l &&& ~~~x.b l
/-- R121: SHL. -/
def execShl (f : Fields) (s : State) : Host.Outcome State Fault Refusal :=
  laneForm (.shl f) s fun x l => bitOp f.tcode (shlElem (typeWidth f.tcode)) (x.a l) (x.b l)
/-- R121: SHR. -/
def execShr (f : Fields) (s : State) : Host.Outcome State Fault Refusal :=
  laneForm (.shr f) s fun x l => bitOp f.tcode (shrElem (typeWidth f.tcode)) (x.a l) (x.b l)
/-- R121: SAR. -/
def execSar (f : Fields) (s : State) : Host.Outcome State Fault Refusal :=
  laneForm (.sar f) s fun x l => bitOp f.tcode (sarElem (typeWidth f.tcode)) (x.a l) (x.b l)
/-- R121: ROT. -/
def execRot (f : Fields) (s : State) : Host.Outcome State Fault Refusal :=
  laneForm (.rot f) s fun x l => bitOp f.tcode (rotElem (typeWidth f.tcode)) (x.a l) (x.b l)
/-- R121: POPC. -/
def execPopc (f : Fields) (s : State) : Host.Outcome State Fault Refusal :=
  laneForm (.popc f) s fun x l => bitOp f.tcode (fun u _ => popcElem (typeWidth f.tcode) u) (x.a l) 0#64
/-- R121: CLZ. -/
def execClz (f : Fields) (s : State) : Host.Outcome State Fault Refusal :=
  laneForm (.clz f) s fun x l => bitOp f.tcode (fun u _ => clzElem (typeWidth f.tcode) u) (x.a l) 0#64
/-- R121: CTZ. -/
def execCtz (f : Fields) (s : State) : Host.Outcome State Fault Refusal :=
  laneForm (.ctz f) s fun x l => bitOp f.tcode (fun u _ => ctzElem (typeWidth f.tcode) u) (x.a l) 0#64
/-- R121: BREV. -/
def execBrev (f : Fields) (s : State) : Host.Outcome State Fault Refusal :=
  laneForm (.brev f) s fun x l => bitOp f.tcode (fun u _ => brevElem (typeWidth f.tcode) u) (x.a l) 0#64

/-- R122: position and length of a bit field. -/
def fieldPos (f : Fields) : Nat := f.imm.toNat % 64
def fieldLen (f : Fields) : Nat := f.imm.toNat / 64 % 128
/-- R122: the field extracted, sign-extended for I types. -/
def bfxElem (t pos len u : Nat) : Nat :=
  let v := u / 2 ^ pos % 2 ^ len
  if typeIsSigned t then wrapInt (signExt v len) (typeWidth t) else v
/-- R122: BFX. -/
def execBfx (f : Fields) (s : State) : Host.Outcome State Fault Refusal :=
  laneForm (.bfx f) s fun x l => bitOp f.tcode (fun u _ => bfxElem f.tcode (fieldPos f) (fieldLen f) u) (x.a l) 0#64
/-- R122: u with bits pos+len−1 : pos replaced by the low bits of v. -/
def bfiElem (pos len u v : Nat) : Nat :=
  u - u / 2 ^ pos % 2 ^ len * 2 ^ pos + v % 2 ^ len * 2 ^ pos
/-- R122: BFI. -/
def execBfi (f : Fields) (s : State) : Host.Outcome State Fault Refusal :=
  laneForm (.bfi f) s fun x l => bitOp f.tcode (bfiElem (fieldPos f) (fieldLen f)) (x.a l) (x.b l)

/-- R123: the bitwise function a truth table gives: A the least selector, the old D the most. -/
def lop3 (lut : Nat) (a b d : W64) : W64 :=
  maskOf fun i =>
    let k := (if a.getLsbD i then 1 else 0) + (if b.getLsbD i then 2 else 0) + (if d.getLsbD i then 4 else 0)
    lut / 2 ^ k % 2 == 1
/-- R123: LOP3. -/
def execLop3 (f : Fields) (s : State) : Host.Outcome State Fault Refusal :=
  laneForm (.lop3 f) s fun x l => lop3 (f.imm.toNat % 256) (x.a l) (x.b l) (x.srcT f.d 3 l)

end Sys2Proof.Machine
end

