-- ==== Sys2Proof/Machine/Thread.lean ====
section
/-! DEFINITION. The accesses of an issue before they are made: lane checks (R213, R214, R310), touches of pages (R215, R276,
R294 to R299, R366), stash lines (R221), digest terms (R368, R369), and the issue of the accesses (R289, R292). -/

namespace Sys2Proof.Machine

/-! ### Checks -/

/-- R427: the kinds of access a data watchpoint watches. -/
inductive WatchKind where
  | read | write | atomic
  deriving DecidableEq, Repr

/-- R310, R427: whether a lane's bytes meet an armed data watchpoint. -/
def watchHit (s : State) (g : Gang) (ctx lane va n : Nat) (k : WatchKind) : Bool :=
  if g.inh || g.exempt.getLsbD lane then false
  else match (KMap.get? s.ctxs ctx).bind Ctx.debug with
    | none => false
    | some d => (List.range 4).any fun j =>
        let base := (KMap.get d.dw 0#64 (4 * j)).toNat
        let w := KMap.get d.dw 0#64 (4 * j + 1)
        let len := 2 ^ (w.toNat % 64)
        let kind := match k with
          | .read => w.getLsbD 6
          | .write => w.getLsbD 7
          | .atomic => w.getLsbD 8
        kind && (KMap.get d.dw 0#64 (4 * j + 2)).getLsbD lane && va < base + len && base < va + n

/-- What a lane asks for. -/
structure AccReq where
  lane : Nat
  va : Nat
  size : Nat
  kind : WatchKind
  align : Nat
  peerOk : Bool
  data : List Byte := []
  data2 : List Byte := []
  deriving DecidableEq, Repr

/-- The outcome of a lane's checks. -/
inductive LaneChk where
  | miss (s : State)
  | fail (cause : Nat) (taddr : W64) (s : State)
  | ok (accs : List LaneAcc) (s : State)

/-- Two checks of a lane made one after the other: the lane fails with the lower of their causes (R301), the first's where they are
equal. -/
def joinChk (r : LaneChk) (next : State → LaneChk) : LaneChk :=
  match r with
  | .miss s => .miss s
  | .ok accs s => match next s with
    | .ok more s => .ok (accs ++ more) s
    | x => x
  | .fail c a s => match next s with
    | .miss s => .miss s
    | .ok _ s => .fail c a s
    | .fail c' a' s => if c' < c then .fail c' a' s else .fail c a s

/-- The translation of the part of an access that lies in one page. -/
def xlatPiece (core ctx : Nat) (acc : Access) (sp : Space) (lane va : Nat) (data data2 : List Byte) (p : Nat × Nat) (s : State) : LaneChk :=
  let part (l : List Byte) : List Byte := (l.drop (p.1 - va)).take p.2
  let one (pa : Nat) (peer : Option (Nat × Nat)) (leaf : W64) : LaneAcc :=
    { lane, space := sp, va := p.1, pa, size := p.2, peer, data := part data, data2 := part data2, leaf }
  match coreXlat s core ctx p.1 acc with
  | .miss s => .miss s
  | .done (.fail c) s => .fail c (w64 p.1) s
  | .done (.ok pa leaf) s => .ok [one pa none leaf] s
  | .done (.peer w off leaf) s => .ok [one 0 (some (w, off)) leaf] s

/-- The translation of an access, cut at pages: every page is tried, and the lowest cause stands (R301). -/
def xlatPieces (s : State) (core ctx : Nat) (acc : Access) (sp : Space) (lane va : Nat) (data data2 : List Byte)
    (pieces : List (Nat × Nat)) : LaneChk :=
  pieces.foldl (fun r p => joinChk r (xlatPiece core ctx acc sp lane va data data2 p)) (.ok [] s)

/-- R213: the checks of a lane's global access; byteAddr asks for the lowest faulting byte's address in place of the lane's
(R185). -/
def globalCheck (s : State) (g : Gang) (w : Who) (r : TaskRec) (q : AccReq) (byteAddr : Bool := false) : LaneChk :=
  let acc : Access := if q.kind = .read then .read else .write
  match xlatPieces s w.core w.ctx acc .global q.lane q.va q.data q.data2 (pagePieces q.va q.size) with
  | .miss s => .miss s
  | .fail c a s => .fail c (if byteAddr then a else w64 q.va) s
  | .ok accs s =>
    let decl (a n : Nat) : Bool := if q.kind = .read then mayRead s w.ctx r a n else mayWrite s w.ctx r a n
    let firstBad (p : Nat → Bool) : Nat := if byteAddr then q.va + ((List.range q.size).find? fun i => p (q.va + i)).getD 0 else q.va
    if !q.peerOk && accs.any (·.peer.isSome) then .fail 0x21 (w64 q.va) s
    else if !decl q.va q.size then .fail 0x22 (w64 (firstBad fun a => !decl a 1)) s
    else if q.va % q.align ≠ 0 then .fail 0x23 (w64 q.va) s
    else if watchHit s g w.ctx q.lane q.va q.size q.kind then
      .fail 0x28 (w64 (firstBad fun a => watchHit s g w.ctx q.lane a 1 q.kind)) s
    else .ok accs s

/-- Bytes of scratchpad that a half holds (R260, R279). -/
def scratchSize (s : State) (team half : Nat) : Nat :=
  (((s.team? team).bind (·.half? half)).map fun h => h.scratchUnits.length * 65536).getD 0

/-- R213: a lane's scratchpad access lies within the half's scratchpad, in a team that may make it. -/
def scratchCheck (s : State) (w : Who) (half : Nat) (allowed : Bool) (q : AccReq) : LaneChk :=
  if !allowed || q.va + q.size > scratchSize s w.team half then .fail 0x21 (w64 q.va) s
  else .ok [{ lane := q.lane, space := .scratch half, va := q.va, pa := 0, size := q.size, peer := none, data := q.data, data2 := q.data2,
              leaf := 0#64 }] s

/-- R213: an access that is as the form asks, or MISALIGNED. -/
def alignCheck (q : AccReq) (a : LaneAcc) (taddr : Nat) (s : State) : LaneChk :=
  if q.va % q.align ≠ 0 then .fail 0x23 (w64 taddr) s else .ok [a] s

/-- R213, R221, R358, R427: a scratchpad access, checked where it meets a mapped line: the fill of the line must translate, and a line of a
page that became shared is an access of global bytes, with the declaration and the data watchpoints of those; g is the issuing gang, if
any. TADDR is the address of the bytes that are reached; no watchpoint is met by an access of a line that is not shared, or by its fill
(log entry 84). -/
def stashLane (s : State) (w : Who) (r : TaskRec) (g : Option Gang) (q : AccReq) (a : LaneAcc) : LaneChk :=
  match a.space, stashPlace s w a with
  | .scratch _, some (_, m, va) =>
    let shared := pageShared s w.slot (va / 4096)
    let taddr := if shared then va else a.va
    if !shared && BitSet.has m.filled ((a.va - m.off) / 128) then alignCheck q a taddr s
    else match coreXlat s w.core w.ctx va (if shared && q.kind != .read then .write else .read) with
      | .miss s => .miss s
      | .done (.fail c) s => .fail c (w64 taddr) s
      | .done (.peer _ _ _) s => .fail 0x21 (w64 taddr) s
      | .done (.ok pa leaf) s =>
        if !shared then alignCheck q a taddr s
        else if !(if q.kind = .read then mayRead s w.ctx r va a.size else mayWrite s w.ctx r va a.size) then .fail 0x22 (w64 taddr) s
        else if q.va % q.align = 0 && g.any fun g => watchHit s g w.ctx a.lane va a.size q.kind then .fail 0x28 (w64 taddr) s
        else alignCheck q { a with space := .global, va, pa, leaf } taddr s
  | _, _ => alignCheck q a a.va s

/-- R213: the checks of a lane's scratchpad access, those of a stash line among them. -/
def localCheck (s : State) (w : Who) (r : TaskRec) (g : Option Gang) (half : Nat) (allowed : Bool) (q : AccReq) : LaneChk :=
  match scratchCheck s w half allowed q with
  | .ok (a :: _) s => stashLane s w r g q a
  | x => x

/-- R213, R216: the checks of one private word of a lane at its virtual address. -/
def privWord (g : Gang) (w : Who) (q : AccReq) (va : Nat) (data : List Byte) (s : State) : LaneChk :=
  let acc : Access := if q.kind = .read then .read else .write
  match xlatPieces s w.core w.ctx acc .priv q.lane va data [] (pagePieces va 4) with
  | .miss s => .miss s
  | .fail c _ s => .fail c (w64 va) s
  | .ok a s =>
    if a.any (·.peer.isSome) then .fail 0x21 (w64 va) s
    else if watchHit s g w.ctx q.lane va 4 q.kind then .fail 0x28 (w64 va) s
    else .ok a s

/-- R213, R216: the checks of a lane's private words: a word index as a signed number, and k words. -/
def privCheck (s : State) (g : Gang) (w : Who) (q : AccReq) (word : Int) (k : Nat) : LaneChk :=
  if word < 0 || word + k > g.stklim.toNat then .fail 0x24 (BitVec.ofInt 64 word) s
  else
    (List.range k).foldl (fun r j => joinChk r
      (privWord g w q (g.privbase + w64 (((word.toNat + j) * g.width + q.lane) * 4)).toNat ((q.data.drop (4 * j)).take 4))) (.ok [] s)

/-- The checks of all lanes: a walk to wait for, one trap for the issue (R214), or the accesses in lane order. -/
inductive Checked where
  | wait (s : State)
  | trap (t : TrapInfo) (s : State)
  | ok (accs : List LaneAcc) (s : State)

/-- The lowest cause of R214 with its lanes and the lowest lane's address. -/
def chooseFail (active : LaneMask) : List (Nat × Nat × W64) → Option TrapInfo
  | [] => none
  | f :: fs =>
    let all := f :: fs
    let c := fs.foldl (fun m x => min m x.2.1) f.2.1
    let mine := all.filter fun x => x.2.1 == c
    some { cause := c, tmask := active, taddr := ((mine.head?).map fun x => x.2.2).getD 0#64,
           thit := maskOf fun l => mine.any fun x => x.1 == l, tpc := none }

/-- R213, R214: every lane is checked before any access. -/
def checkLanes (s : State) (active : LaneMask) (lanes : List Nat) (chk : State → Nat → LaneChk) : Checked :=
  let r := lanes.foldl (fun (r : State × List LaneAcc × List (Nat × Nat × W64) × Bool) l =>
    match chk r.1 l with
    | .miss s => (s, r.2.1, r.2.2.1, true)
    | .fail c a s => (s, r.2.1, r.2.2.1 ++ [(l, c, a)], r.2.2.2)
    | .ok accs s => (s, r.2.1 ++ accs, r.2.2.1, r.2.2.2)) (s, [], [], false)
  if r.2.2.2 then .wait r.1
  else match chooseFail active r.2.2.1 with
    | some t => .trap t r.1
    | none => .ok r.2.1 r.1

/-! ### Digests -/

/-- R368: the global address of a scratchpad access of a mapped line. -/
def stashGlobal (s : State) (w : Who) (a : LaneAcc) : Option Nat :=
  match a.space with
  | .scratch half => ((s.team? w.team).bind fun t => stashAt t half a.va).map fun m => m.2.base + (a.va - m.2.off)
  | _ => none

/-- R369: Mix64. -/
def mix64 (x : W64) : W64 :=
  let x := x ^^^ (x >>> 31)
  let x := x * 0x9E6C63D0676A9A99#64
  let x := x ^^^ (x >>> 29)
  let x := x * 0xD3B5A8E13C59F7C5#64
  x ^^^ (x >>> 32)

/-- R369: Term. -/
def digestTerm (team thr seq addr size kind : Nat) (val : W64) : W64 :=
  let h := mix64 (w64 (team * 2 ^ 32 + thr))
  let h := mix64 (h ^^^ w64 seq)
  let h := mix64 (h ^^^ w64 (addr + size * 2 ^ 52 + kind * 2 ^ 56))
  mix64 (h ^^^ val)

/-- R368: the pieces of a store within naturally aligned 8-byte words: offset and length. -/
def wordPieces (va n : Nat) : List (Nat × Nat) :=
  (List.range (n / 8 + 2)).filterMap fun i =>
    let lo := max va ((va / 8 + i) * 8)
    let hi := min (va + n) ((va / 8 + i + 1) * 8)
    if lo < hi then some (lo - va, hi - lo) else none

/-- R368: the terms of one lane's access, as address, size, kind and value. -/
def accTerms (i : Instr) (a : LaneAcc) (va : Nat) : List (Nat × Nat × Nat × W64) :=
  match i with
  | .st _ | .sts _ | .dvst _ =>
    (wordPieces va a.size).map fun p => (va + p.1, p.2, 0, w64 (leVal ((a.data.drop p.1).take p.2)))
  | .atom f => [(va, a.size, 1 + f.imm.toNat % 16, w64 (leVal a.data))]
  | .acas _ => [(va, a.size, 8, w64 (leVal a.data)), (va, a.size, 9, w64 (leVal a.data2))]
  | .rowadd _ =>
    if a.data.isEmpty then [(va, 4, 11, 1#64)]
    else (List.range (a.size / 2)).map fun k => (va + 2 * k, 2, 10, w64 (leVal ((a.data.drop (2 * k)).take 2)))
  | _ => []

/-- R369, R370: terms folded into a team's digest. -/
def foldTerms (s : State) (w : Who) (thr seq : Nat) (terms : List (Nat × Nat × Nat × W64)) : State :=
  match s.team? w.team with
  | none => s
  | some t => s.setTeam w.team { t with digest := terms.foldl (fun d e => d + digestTerm w.index thr seq e.1 e.2.1 e.2.2.1 e.2.2.2) t.digest }

/-- R368, R369: the terms of an issue's accesses, folded at its commit; each folding lane's sequence number rises. -/
def foldIssue (s : State) (x : Iss) (accs : List LaneAcc) : State :=
  if !x.task.rec_.digest then s
  else
    let addr (a : LaneAcc) : Option Nat := match a.space with
      | .global => some a.va
      | .priv => none
      | .scratch _ => stashGlobal s x.who a
    let perLane := x.lanes.filterMap fun l =>
      let ts := (accs.filter fun a => a.lane == l).flatMap fun a => match addr a with
        | some va => accTerms x.i a va
        | none => []
      if ts.isEmpty then none else some (l, ts)
    perLane.foldl (fun s e =>
      let seq := ((s.gang? x.ref).map fun g => KMap.get g.seq 0 e.1).getD 0
      let s := foldTerms s x.who (x.g.index * x.g.width + e.1) seq e.2
      x.mapGang s fun g => { g with seq := KMap.set g.seq 0 e.1 (seq + 1) }) s

/-! ### Issuing accesses -/

/-- The gang's unclassified issue is counted (R253, R299). -/
def countUnclass (g : Gang) : Gang := { g with unclassCount := g.unclassCount + 1#64 }

/-- The pages of an issue's global accesses. -/
def globalPages (accs : List LaneAcc) : List Nat :=
  ((accs.filter fun a => a.space == .global && a.peer.isNone).map fun a => a.va / 4096).eraseDups

/-- The view that a DVLD or a ROWLD fills. -/
def opDesc (x : Iss) : W64 :=
  match x.i with
  | .dvld f => x.g.wReg (wNum f.d)
  | .rowld f => x.g.wReg (wNum f.b)
  | _ => 0#64

/-- An issue's number taken by one that starts no fill. -/
def Gang.takeNumber (g : Gang) : Gang := { g with nextFill := g.nextFill + 1 }

/-- R47: an issue with accesses begins its fill; one without destinations takes its number alone. -/
def Gang.startOp (g : Gang) (kind : FillKind) (ws : List RegWrite) : Gang :=
  if ws.isEmpty then g.takeNumber else g.startFill kind ws 0#5 false

/-- R289: whether a load made behind an unclassified issue is read again at its completion: all but those of read-only pages. -/
def readAgain (s : State) (slot : Nat) (accs : List LaneAcc) : Bool :=
  accs.any fun a => a.space != .global || match s.task? slot with
    | some t => t.classOf (a.va / 4096) != .readOnly
    | none => true

/-- R292, R398: the peer accesses of an issue begin: its first request is sent, and the gang is held until the last is answered. -/
def beginPeer (x : Iss) (s : State) (op : PendOp) : Res :=
  let s := x.mapGang s fun g => countUnclass { g with unclass := some op, block := some .peer }
  match peerRequest s op x.ref with
  | some r => .wait .fills (sendPeer s r)
  | none => .wait .fills s

/-- R287, R289: a classified issue: performed at once, lane after lane, or begun with each lane's accesses still to be made, as where a
die that has cut holds them (R432); behind an unclassified issue, held where it writes and read again where it reads. A stash line is
filled as it is performed (R221). -/
def classified (x : Iss) (s : State) (op : PendOp) (busy write : Bool) (ws : List RegWrite) : State :=
  let op := { op with split := s.split }
  if busy && (write || isAtoms x.i) then
    x.mapGang s fun g => { g.startOp .awaits ws with heldStores := g.heldStores ++ [⟨op⟩] }
  else if busy then
    let r := performOp s x.who op
    x.mapGang r.s fun g => g.startOp (if readAgain s x.who.slot op.accs then .revalidate op else .ready) r.writes
  else if s.split || crossHeld s x.who.ctx op then x.mapGang s fun g => { g.startOp .awaits ws with late := some op }
  else
    let p := restash s x.who op
    let r := performOp p.2 x.who p.1
    x.mapGang r.s fun g => g.startOp .ready r.writes

/-- Whether a form's accesses are of the scratchpad, so that a global one is of a stash line whose page became shared (R221). -/
def isLocal (i : Instr) : Bool :=
  match i with
  | .lds _ | .sts _ | .ldx _ | .stx _ | .atoms _ => true
  | _ => false

/-- R215, R276, R287, R289, R292: the accesses of an issue that has passed its checks. ws are the destinations that become empty;
write says whether it writes; force is a form unclassified on every issue. -/
def issueAccs (x : Iss) (s : State) (force write : Bool) (accs : List LaneAcc) (ws : List RegWrite) : Res :=
  let busy := ((s.gang? x.ref).bind Gang.unclass).isSome
  let op (claims : List Nat) : PendOp :=
    { i := x.i, active := x.active, accs, got := [], desc := opDesc x, fill := x.g.nextFill, claims, stamp := s.issueCtr }
  if accs.any (·.peer.isSome) then
    match peerWaits s x.who.slot x.who.index busy (globalPages accs) with
    | some why => .wait why s
    | none => if breakLanes s x ≠ 0#64 then .ok s else beginPeer x s (op [])
  else if busy && crossHeld s x.who.ctx (op []) then .wait .unclassified s
  else
    let became := isLocal x.i && accs.any fun a => a.space == .global
    match touchPages s x.who.slot x.who.index x.who.owner write (force || became) busy (globalPages accs) with
    | .wait why s => .wait why s
    | .go unclass claims s =>
      let s := foldIssue s x accs
      if unclass then .ok (x.mapGang s fun g => countUnclass { g.startOp .awaits ws with unclass := some (op claims) })
      else .ok (classified x s (op claims) busy write ws)

/-- R213 to R215: the accesses of a form: checks of its lanes, then the issue of its accesses. -/
def memForm (x : Iss) (s : State) (force write : Bool) (lanes : List Nat) (chk : State → Nat → LaneChk)
    (ws : List LaneAcc → List RegWrite) : Res :=
  if x.active = 0#64 then .ok s
  else if force && ((s.gang? x.ref).bind Gang.unclass).isSome then .wait .unclassified s
  else match checkLanes s x.active lanes chk with
    | .wait s => .wait .walk s
    | .trap t s => .trap t s
    | .ok accs s => issueAccs x s force write accs (ws accs)

/-! ### Accesses of the parties that are no lanes -/

/-- R213 without watchpoints: the checks of n bytes at a virtual address, with the permission and the declaration asked for. -/
def plainCheck (s : State) (w : Who) (r : TaskRec) (lane va n align : Nat) (perm decl : Access) (peerOk : Bool) : LaneChk :=
  match xlatPieces s w.core w.ctx perm .global lane va [] [] (pagePieces va n) with
  | .miss s => .miss s
  | .fail c _ s => .fail c (w64 va) s
  | .ok accs s =>
    if !peerOk && accs.any (·.peer.isSome) then .fail 0x21 (w64 va) s
    else if !(if decl = .read then mayRead s w.ctx r va n else mayWrite s w.ctx r va n) then .fail 0x22 (w64 va) s
    else if va % align ≠ 0 then .fail 0x23 (w64 va) s
    else .ok accs s

/-- The outcome of a read of a 64-byte block of scratchpad at issue: its words, and the number of the read where it is made again. -/
inductive BlockRead where
  | wait (why : Wait) (s : State)
  | trap (t : TrapInfo) (s : State)
  | ok (ws : List W64) (again : Option Nat) (s : State)

/-- R276: a block load that reaches a stash line of a page that became shared counts as an unclassified issue; one made behind the gang's
unclassified issue takes a number among its issues, at which it is read again (R289). -/
def countBlock (x : Iss) (s : State) (off : Nat) (again : Option Nat) : State :=
  let s := if again.isSome then x.mapGang s Gang.takeNumber else s
  if (stashPlace s x.who (blockAccess x.who x.low off)).any fun m => pageShared s x.who.slot (m.2.2 / 4096) then x.mapGang s countUnclass else s

/-- R194, R234: a 64-byte scratchpad load by the lowest Active lane: eight words. It is a classified load that waits for no unclassified
issue (R276): behind one its words are those that stand there now, and it is read again at that issue's completion (R289, log entry 74);
a cause that rests on words read so waits for that. It meets no data watchpoint (R207, R259, log entry 84); the lanes of its
POISON-CONSUMED are log entry 35's. -/
def readBlock (x : Iss) (s : State) (off : Nat) : BlockRead :=
  let low := maskOf (· == x.low)
  let busy := ((s.gang? x.ref).bind Gang.unclass).isSome
  let q : AccReq := { lane := x.low, va := off, size := 64, kind := .read, align := 64, peerOk := false }
  match localCheck s x.who x.task.rec_ none x.who.half true q with
  | .miss s => .wait .walk s
  | .fail c a s => .trap { cause := c, tmask := x.active, taddr := a, thit := low, tpc := none } s
  | .ok accs s =>
    let became := accs.any fun a => a.space == .global
    match touchPages s x.who.slot x.who.index x.who.owner false became (became && busy) (globalPages accs) with
    | .wait why s => .wait why s
    | .go _ _ s =>
      let r := stashAll s x.who false accs
      let read := r.1.foldl (fun s a => correctAcc s x.who a) r.2
      let bs := r.1.flatMap (readAcc read x.who x.g.nextFill)
      let bad := bs.any Prod.snd
      if busy then if bad then .wait .unclassified s else .ok (blockWords bs) (some x.g.nextFill) s
      else if bad then .trap { cause := 0x02, tmask := x.active, taddr := 0#64, thit := low, tpc := none } read
      else .ok (blockWords bs) none read

/-- R289: a cause that rests on words that are read again waits until they stand (log entry 74). -/
def settledTrap (again : Option Nat) (t : TrapInfo) (s : State) : Res := if again.isSome then .wait .unclassified s else .trap t s

/-- R201, R235: the gang's unclassified issue that a new thread's accesses follow. -/
def behindOf (s : State) (ref : GangRef) : Option W64 :=
  (s.gang? ref).bind fun g => if g.unclass.isSome then some g.unclassCount else none
/-- Whether that issue is still in flight. -/
def stillBehind (s : State) (ref : GangRef) (n : Option W64) : Bool :=
  match n, s.gang? ref with
  | some k, some g => g.unclass.isSome && g.unclassCount == k
  | _, _ => false

/-- A thread of a team that is none of its gangs (R201, R235): it sees no gang's held stores. -/
def sideWho (core ctx slot team index half : Nat) : Who := { g := ⟨64, 0, 0⟩, core, ctx, slot, team, index, half }

end Sys2Proof.Machine
end

