-- ==== Sys2Proof/Machine/Chain.lean ====
section
/-! DEFINITION. Class 0x8: the chain store (R154 to R162). -/

namespace Sys2Proof.Machine

/-- Fields of a micro-operation (R155). -/
def uopOp (u : W32) : Nat := (u.extractLsb' 26 6).toNat
def uopTy (u : W32) : Nat := (u.extractLsb' 22 4).toNat
def uopKd (u : W32) : Nat := (u.extractLsb' 20 2).toNat
def uopX (u : W32) : Nat := (u.extractLsb' 17 3).toNat
def uopY (u : W32) : Nat := (u.extractLsb' 14 3).toNat
def uopZ (u : W32) : Nat := (u.extractLsb' 11 3).toNat
def uopAux (u : W32) : Nat := (u.extractLsb' 0 11).toNat

/-- R155, R156: how many operands an operation uses. -/
def uopArity (op : Nat) : Nat :=
  if op = 0 || op = 7 || op = 8 || (13 ≤ op && op ≤ 16) then 1 else if op = 4 || op = 9 then 3 else 2

/-- R156: whether a micro-operation is valid. -/
def uopValid (u : W32) : Bool :=
  let op := uopOp u
  let t := uopTy u
  let aux := uopAux u
  op ≤ 0x10 && t < 12 &&
  (if op = 7 || op = 8 then typeIsSigned t || typeIsFloat t else if 0xA ≤ op && op ≤ 0xF then t < 8 else true) &&
  (uopArity op ≥ 2 || uopY u == 0) && (uopArity op ≥ 3 || uopZ u == 0) &&
  (if 0xD ≤ op && op ≤ 0xF then aux < 128 else if op = 0x10 then aux < 12 else aux == 0)

/-- R156: floating results round to nearest even, keep subnormals and set no flag. -/
def chainFp (t : Nat) (h : Nat → List FVal) : W64 := mapSubs (typeWidth t) fun j => ((fmtOf t).sum false 0 (h j)).1

/-- R156: a NaN result is canonical. -/
def chainNan (t u : Nat) : Nat := if ((fmtOf t).unpack u).isNan then (fmtOf t).qnan else u

/-- R156: the result of an operation under a type; CVT to an integer rounds to nearest even (log entry 75). -/
def chainOp (op t aux : Nat) (x y z : W64) : W64 :=
  let w := typeWidth t
  let F := fmtOf t
  let e (v : W64) (j : Nat) : FVal := F.unpack (subElem v w j)
  let fp := typeIsFloat t
  match op with
  | 0 => x
  | 1 => if fp then chainFp t fun j => [e x j, e y j] else intOp2 t false (· + ·) x y
  | 2 => if fp then chainFp t fun j => [e x j, (e y j).negate] else intOp2 t false (· - ·) x y
  | 3 => if fp then chainFp t fun j => [((e x j).mul (e y j)).1] else intOp2 t false (· * ·) x y
  | 4 => if fp then chainFp t fun j => [((e x j).mul (e y j)).1, e z j] else intOp3 t false (fun a b c => a * b + c) x y z
  | 5 => if fp then (minMaxLanes t false false false x y).1 else intOp2 t false min x y
  | 6 => if fp then (minMaxLanes t false true false x y).1 else intOp2 t false max x y
  | 7 => if fp then mapSubs w fun j => chainNan t (absElem w (subElem x w j)) else intOp1 t false (fun a => (a.natAbs : Int)) x
  | 8 => if fp then mapSubs w fun j => chainNan t (negElem w (subElem x w j)) else intOp1 t false (fun a => -a) x
  | 9 => if fp then mapSubs w fun j => chainNan t (subElem (fselLane t x y z) w j) else mapSubs w fun j => if subElem z w j ≠ 0 then subElem x w j else subElem y w j
  | 10 => x &&& y
  | 11 => x ||| y
  | 12 => x ^^^ y
  | 13 => bitOp t (fun u _ => shlElem w u (aux % 128)) x 0#64
  | 14 => bitOp t (fun u _ => shrElem w u (aux % 128)) x 0#64
  | 15 => bitOp t (fun u _ => sarElem w u (aux % 128)) x 0#64
  | _ => (cvtLane false 0 false (aux % 16) t 0 x).1

/-- R159: a chain run in a lane: the four temporaries after the micro-operations. -/
def chainRun (a b c : W64) : List W32 → List W64 → List W64
  | [], k => k
  | u :: us, k =>
    let sel (n : Nat) : W64 := match n with
      | 0 => a
      | 1 => b
      | 2 => c
      | 3 => 0#64
      | n => k.getD (n - 4) 0#64
    chainRun a b c us (k.set (uopKd u) (chainOp (uopOp u) (uopTy u) (uopAux u) (sel (uopX u)) (sel (uopY u)) (sel (uopZ u))))

/-- R154: a slot at partition reset; its OWNER, which no rule gives, is no task slot's number (log entry 25). -/
def ChainSlot.fresh : ChainSlot := { valid := false, owner := 128, version := 0#16, count := 0, uops := [], waiting := [] }
/-- The key of a slot of the issuing partition. -/
def chainKey (ref : GangRef) (k : Nat) : Nat := 2 * (ref.core * 32 + ref.part) + k
/-- A slot. -/
def chainSlot (s : State) (key : Nat) : ChainSlot := (KMap.get? s.chains key).getD ChainSlot.fresh

/-- R158: whether a run on a slot has not finished. -/
def chainBusy (s : State) (key : Nat) : Bool :=
  s.gangs.any fun e => e.1 / 16 == key / 2 && e.2.fills.any fun x => x.kind == .chain (key % 2)

/-- R157, R161: a load or an invalidation takes effect on a slot. -/
def chainCommit (s : State) (key owner : Nat) (load : Option (List W32)) : State :=
  let c := chainSlot s key
  let c' := match load with
    | some us => { c with valid := true, owner, version := c.version + 1#16, count := us.length, uops := us }
    | none => { c with valid := false }
  { s with chains := KMap.put s.chains key c' }

/-- R158: a load or an invalidation waits behind the runs and the other loads of the slot, or takes effect now. -/
def chainChange (x : Iss) (s : State) (load : Option (List W32)) : Res :=
  let k := x.f.mod.toNat % 2
  let key := chainKey x.ref k
  let c := chainSlot s key
  if chainBusy s key || !c.waiting.isEmpty then
    let s := { s with chains := KMap.put s.chains key { c with waiting := c.waiting ++ [(x.ref, load)] } }
    .ok (x.mapGang s fun g => { g with block := some (.chain k) })
  else .ok (chainCommit s key x.who.slot load)

/-- R11, R157, R217: one 32-bit word through the fetch path for a task, and whether it is poisoned. -/
def fetchWord32 (s : State) (core : Nat) (task : Task) (pas : List Nat) : W32 × Bool × State :=
  let now := BitVec.ofNat 96 (leVal (pas.map (codeByte s task.sees)))
  let base := BitVec.ofNat 96 (leVal (pas.map (KMap.get task.codeBase memDefault)))
  let old := (cachedWord s core task pas).getD base
  let r := fetchWordOf s core task pas old now
  (r.1.truncate 32, wordPoisoned s (pas.headD 0 / 4), r.2)

/-- R157: the micro-operations at an address, or a cause with its address, or a walk to wait for. -/
inductive UopLoad where
  | miss (s : State)
  | fail (cause addr : Nat) (s : State)
  | ok (us : List W32) (s : State)

/-- R157 steps 1 and 2, the lowest of the causes of the address (R301), then of the micro-operations read (log entry 89). -/
def loadUops (s : State) (core : Nat) (task : Task) (va count : Nat) : UopLoad :=
  match xlatPieces s core task.ctx .exec .global 0 va [] [] (pagePieces va (4 * count)) with
  | .miss s => .miss s
  | .fail c a s => .fail c a.toNat s
  | .ok accs s =>
    match accs.find? fun a => a.peer.isSome with
    | some a => .fail 0x21 a.va s
    | none =>
      if va % 4 ≠ 0 then .fail 0x23 va s
      else
        let pas := accs.flatMap fun a => (List.range a.size).map (a.pa + ·)
        let ws := (List.range count).foldl (fun (acc : List W32 × State) k =>
          let w := fetchWord32 acc.2 core task ((pas.drop (4 * k)).take 4)
          (acc.1 ++ [w.1], w.2.2)) ([], s)
        match (List.range count).find? fun k => !uopValid (ws.1.getD k 0#32) with
        | some k => .fail 0x1B (va + 4 * k) ws.2
        | none => .ok ws.1 ws.2

/-- R157: CHLD. MISALIGNED, TRANSLATION and PROTECTION name the lowest Active lane, whose address it is; CHAIN-SLOT every Active lane
(log entry 33). -/
def execChld (f : Fields) (s : State) : Host.Outcome State Fault Refusal :=
  runIssue (.chld f) s fun x s =>
    if x.active = 0#64 then .ok s
    else match loadUops s x.ref.core x.task (x.a x.low).toNat (f.imm.toNat % 32) with
    | .miss s => .wait .walk s
    | .fail c a s =>
      .trap { cause := c, tmask := x.active, taddr := w64 a, thit := if c = 0x1B then x.active else maskOf (· == x.low), tpc := none } s
    | .ok us s => chainChange x s (some us)

/-- R158, R159: a CHRUN waits for the slot's loads and invalidations before it reads anything, and raises CHAIN-SLOT on a slot that is
invalid to its gang. -/
def chrunEarly (s : State) (f : Fields) (_ : Gang) : Early :=
  match s.cur with
  | none => .go
  | some ref =>
    let c := chainSlot s (chainKey ref (f.mod.toNat % 2))
    if !c.waiting.isEmpty then .blocked .chain
    else if c.valid && (s.who ref).any fun w => c.owner == w.slot then .go
    else .unread 0x1B

/-- R159: the value of a run in a lane. -/
def chrunVal (x : Iss) (c : ChainSlot) (l : Nat) : W64 :=
  (chainRun (x.a l) (x.b l) (x.c l) (c.uops.take c.count) [0#64, 0#64, 0#64, 0#64]).headD 0#64
/-- R159: CHRUN. -/
def execChrun (f : Fields) (s : State) : Host.Outcome State Fault Refusal :=
  runIssueWith (.chrun f) (chrunEarly s) s fun x s =>
    if x.active = 0#64 then .ok s
    else
      let k := f.mod.toNat % 2
      .ok (x.mapGang s fun g => g.startFill (.chain k) (x.dWrites (chrunVal x (chainSlot s (chainKey x.ref k)))) 0#5 false)

/-- R160: the value of CHQRY. -/
def chqryVal (s : State) (key slot : Nat) : W64 :=
  let c := chainSlot s key
  let own := c.owner == slot
  let valid := c.valid && own
  let busy := chainBusy s key || c.waiting.any fun w => w.2.isSome
  w64 ((if busy then 2 ^ 23 else 0) + (if own then 2 ^ 22 else 0) + (if valid then 2 ^ 21 + c.count % 32 * 2 ^ 16 else 0) + c.version.toNat)
/-- R160: CHQRY. -/
def execChqry (f : Fields) (s : State) : Host.Outcome State Fault Refusal :=
  runIssue (.chqry f) s fun x s => .ok (x.putD s fun _ => chqryVal s (chainKey x.ref (f.mod.toNat % 2)) x.who.slot)

/-- R161: CHINV. -/
def execChinv (f : Fields) (s : State) : Host.Outcome State Fault Refusal :=
  runIssue (.chinv f) s fun x s => if x.active = 0#64 then .ok s else chainChange x s none

end Sys2Proof.Machine
end

