-- ==== Sys2Proof/Machine/Crypto.lean ====
section
/-! DEFINITION. SHA-384 and the verification of ECDSA on brainpoolP384r1 (R436, R439, R444). -/

namespace Sys2Proof.Machine

/-! ### SHA-384 -/

/-- The round constants. -/
def shaK : List Nat :=
  [
   0x428A2F98D728AE22, 0x7137449123EF65CD, 0xB5C0FBCFEC4D3B2F, 0xE9B5DBA58189DBBC,
   0x3956C25BF348B538, 0x59F111F1B605D019, 0x923F82A4AF194F9B, 0xAB1C5ED5DA6D8118,
   0xD807AA98A3030242, 0x12835B0145706FBE, 0x243185BE4EE4B28C, 0x550C7DC3D5FFB4E2,
   0x72BE5D74F27B896F, 0x80DEB1FE3B1696B1, 0x9BDC06A725C71235, 0xC19BF174CF692694] ++
  [
   0xE49B69C19EF14AD2, 0xEFBE4786384F25E3, 0x0FC19DC68B8CD5B5, 0x240CA1CC77AC9C65,
   0x2DE92C6F592B0275, 0x4A7484AA6EA6E483, 0x5CB0A9DCBD41FBD4, 0x76F988DA831153B5,
   0x983E5152EE66DFAB, 0xA831C66D2DB43210, 0xB00327C898FB213F, 0xBF597FC7BEEF0EE4,
   0xC6E00BF33DA88FC2, 0xD5A79147930AA725, 0x06CA6351E003826F, 0x142929670A0E6E70] ++
  [
   0x27B70A8546D22FFC, 0x2E1B21385C26C926, 0x4D2C6DFC5AC42AED, 0x53380D139D95B3DF,
   0x650A73548BAF63DE, 0x766A0ABB3C77B2A8, 0x81C2C92E47EDAEE6, 0x92722C851482353B,
   0xA2BFE8A14CF10364, 0xA81A664BBC423001, 0xC24B8B70D0F89791, 0xC76C51A30654BE30,
   0xD192E819D6EF5218, 0xD69906245565A910, 0xF40E35855771202A, 0x106AA07032BBD1B8] ++
  [
   0x19A4C116B8D2D0C8, 0x1E376C085141AB53, 0x2748774CDF8EEB99, 0x34B0BCB5E19B48A8,
   0x391C0CB3C5C95A63, 0x4ED8AA4AE3418ACB, 0x5B9CCA4F7763E373, 0x682E6FF3D6B2B8A3,
   0x748F82EE5DEFB2FC, 0x78A5636F43172F60, 0x84C87814A1F0AB72, 0x8CC702081A6439EC,
   0x90BEFFFA23631E28, 0xA4506CEBDE82BDE9, 0xBEF9A3F7B2C67915, 0xC67178F2E372532B] ++
  [
   0xCA273ECEEA26619C, 0xD186B8C721C0C207, 0xEADA7DD6CDE0EB1E, 0xF57D4F7FEE6ED178,
   0x06F067AA72176FBA, 0x0A637DC5A2C898A6, 0x113F9804BEF90DAE, 0x1B710B35131C471B,
   0x28DB77F523047D84, 0x32CAAB7B40C72493, 0x3C9EBE0A15C9BEBC, 0x431D67C49C100D4C,
   0x4CC5D4BECB3E42B6, 0x597F299CFC657E2A, 0x5FCB6FAB3AD6FAEC, 0x6C44198C4A475817]

/-- The initial hash value. -/
def shaInit : List W64 :=
  ([
   0xCBBB9D5DC1059ED8, 0x629A292A367CD507, 0x9159015A3070DD17, 0x152FECD8F70E5939,
   0x67332667FFC00B31, 0x8EB44A8768581511, 0xDB0C2E0D64F98FA7, 0x47B5481DBEFA4FA4] : List Nat).map w64

/-- Rotation to the right. -/
def rotr (x : W64) (n : Nat) : W64 := (x >>> n) ||| (x <<< (64 - n))

/-- A big-endian number. -/
def beVal (l : List Byte) : Nat := l.foldl (fun a b => 256 * a + b.toNat) 0
/-- The n big-endian bytes of a number. -/
def beBytes (n x : Nat) : List Byte := (leBytes n x).reverse

/-- The padded message. -/
def shaPad (m : List Byte) : List Byte :=
  let n := m.length
  m ++ [0x80#8] ++ List.replicate ((111 + 128 - n % 128) % 128) 0#8 ++ beBytes 16 (8 * n)

/-- The message schedule: the last sixteen words first to last, n more words. -/
def shaSchedule : Nat → List W64 → List W64
  | 0, _ => []
  | n + 1, w =>
    let g (k : Nat) : W64 := w.getD k 0#64
    let s0 := rotr (g 1) 1 ^^^ rotr (g 1) 8 ^^^ (g 1 >>> 7)
    let s1 := rotr (g 14) 19 ^^^ rotr (g 14) 61 ^^^ (g 14 >>> 6)
    g 0 :: shaSchedule n (w.drop 1 ++ [g 0 + s0 + g 9 + s1])

/-- One round on the eight working variables. -/
def shaRound (v : List W64) (kw : W64) : List W64 :=
  let g (k : Nat) : W64 := v.getD k 0#64
  let e := g 4
  let a := g 0
  let t1 := g 7 + (rotr e 14 ^^^ rotr e 18 ^^^ rotr e 41) + ((e &&& g 5) ^^^ (~~~e &&& g 6)) + kw
  let t2 := (rotr a 28 ^^^ rotr a 34 ^^^ rotr a 39) + ((a &&& g 1) ^^^ (a &&& g 2) ^^^ (g 1 &&& g 2))
  [t1 + t2, a, g 1, g 2, g 3 + t1, e, g 5, g 6]

/-- One block. -/
def shaBlock (h : List W64) (block : List Byte) : List W64 :=
  let w := (List.range 16).map fun k => w64 (beVal ((block.drop (8 * k)).take 8))
  let v := (List.zipWith (fun (x : W64) k => x + w64 k) (shaSchedule 80 w) shaK).foldl shaRound h
  List.zipWith (· + ·) h v

/-- The blocks of a padded message. -/
def shaBlocks : Nat → List W64 → List Byte → List W64
  | 0, h, _ => h
  | n + 1, h, m => shaBlocks n (shaBlock h (m.take 128)) (m.drop 128)

/-- SHA-384 of a byte string, as its 48 bytes. -/
def sha384 (m : List Byte) : List Byte :=
  let p := shaPad m
  ((shaBlocks (p.length / 128) shaInit p).take 6).flatMap fun x => beBytes 8 x.toNat

/-! ### brainpoolP384r1 (RFC 5639) -/

/-- The field prime. -/
def bpP : Nat := 0x8CB91E82A3386D280F5D6F7E50E641DF152F7109ED5456B412B1DA197FB71123ACD3A729901D1A71874700133107EC53
/-- The coefficient A. -/
def bpA : Nat := 0x7BC382C63D8C150C3C72080ACE05AFA0C2BEA28E4FB22787139165EFBA91F90F8AA5814A503AD4EB04A8C7DD22CE2826
/-- The coefficient B. -/
def bpB : Nat := 0x04A8C7DD22CE28268B39B55416F0447C2FB77DE107DCD2A62E880EA53EEB62D57CB4390295DBC9943AB78696FA504C11
/-- The base point. -/
def bpG : Nat × Nat :=
  (0x1D1C64F068CF45FFA2A63A81B7C13F6B8847A3E77EF14FE3DB7FCAFE0CBD10E8E826E03436D646AAEF87B2E247D4AF1E,
   0x8ABE1D7520F9C2A45CB1EB8E95CFD55262B70B29FEEC5864E19C054FF99129280E4646217791811142820341263C5315)
/-- The order of the base point. -/
def bpN : Nat := 0x8CB91E82A3386D280F5D6F7E50E641DF152F7109ED5456B31F166E6CAC0425A7CF3AB6AF6B7FC3103B883202E9046565

/-- b^e mod m, e of at most n bits. -/
def powMod (m : Nat) : Nat → Nat → Nat → Nat
  | 0, _, _ => 1 % m
  | n + 1, b, e =>
    let r := powMod m n (b * b % m) (e / 2)
    if e % 2 = 1 then r * b % m else r
/-- The inverse modulo a prime below 2^384. -/
def invMod (m x : Nat) : Nat := powMod m 384 (x % m) (m - 2)

/-- The sum of two points; none is the point at infinity. -/
def ecAdd (a b : Option (Nat × Nat)) : Option (Nat × Nat) :=
  match a, b with
  | none, q => q
  | p, none => p
  | some (x1, y1), some (x2, y2) =>
    if x1 = x2 && (y1 + y2) % bpP = 0 then none
    else
      let l := if x1 = x2 then (3 * x1 * x1 + bpA) * invMod bpP (2 * y1) % bpP
        else (y2 + bpP - y1) * invMod bpP (x2 + bpP - x1) % bpP
      let x := (l * l + 2 * bpP - x1 - x2) % bpP
      some (x, (l * (x1 + bpP - x) + bpP - y1) % bpP)

/-- A multiple of a point, by a factor of at most n bits. -/
def ecMul : Nat → Nat → Option (Nat × Nat) → Option (Nat × Nat)
  | 0, _, _ => none
  | n + 1, k, p =>
    let r := ecMul n (k / 2) (ecAdd p p)
    if k % 2 = 1 then ecAdd r p else r

/-- R436: a public key as x then y, each a 48-byte little-endian number. -/
def ecKey (k : List Byte) : Nat × Nat := (leVal (k.take 48), leVal ((k.drop 48).take 48))

/-- R436: whether a 96-byte signature, r then s, verifies for a message under a key. -/
def ecVerify (key msg sig : List Byte) : Bool :=
  let q := ecKey key
  let r := leVal (sig.take 48)
  let v := leVal ((sig.drop 48).take 48)
  let e := beVal (sha384 msg)
  let w := invMod bpN v
  key.length == 96 && sig.length == 96 && 1 ≤ r && r < bpN && 1 ≤ v && v < bpN && q.1 < bpP && q.2 < bpP &&
  (q.2 * q.2) % bpP == (q.1 * q.1 * q.1 + bpA * q.1 + bpB) % bpP &&
  match ecAdd (ecMul 384 (e * w % bpN) (some bpG)) (ecMul 384 (r * w % bpN) (some q)) with
  | some (x, _) => x % bpN == r
  | none => false

/-! ### Keys of the module -/

/-- R436: the 96 bytes of a point, none being all zero. -/
def ecBytes (p : Option (Nat × Nat)) : List Byte := leBytes 48 ((p.map Prod.fst).getD 0) ++ leBytes 48 ((p.map Prod.snd).getD 0)

/-- A secret from 1 to the order less 1. -/
def ecSecret (seed : Nat) : Nat := 1 + seed % (bpN - 1)
/-- The public key of a secret. -/
def ecPublic (d : Nat) : List Byte := ecBytes (ecMul 384 d (some bpG))

/-- Whether 96 bytes are a point of the curve. -/
def ecOnCurve (k : List Byte) : Bool :=
  let q := ecKey k
  k.length == 96 && q.1 < bpP && q.2 < bpP && (q.2 * q.2) % bpP == (q.1 * q.1 * q.1 + bpA * q.1 + bpB) % bpP

/-- R436: the signature r, s of a message under a secret, with a random number k. -/
def ecSign (d k : Nat) (msg : List Byte) : List Byte :=
  let r := ((ecMul 384 k (some bpG)).map Prod.fst).getD 0 % bpN
  leBytes 48 r ++ leBytes 48 (invMod bpN k * (beVal (sha384 msg) + r * d) % bpN)

/-- R443: the identity public key of the module. -/
def identityKey : List Byte := ecPublic (ecSecret Config.identitySeed)
/-- R439, R444: the signature of the identity key over a message, in the form of SIG. -/
def identitySign (msg : List Byte) : List Byte := ecSign (ecSecret Config.identitySeed) (ecSecret (Config.signNonce msg)) msg

/-- R439: the session keys that a secret and the other side's ephemeral key give. -/
def sessionKeys (d : Nat) (peer : List Byte) : List Byte :=
  sha384 (leBytes 48 (((ecMul 384 d (some (ecKey peer))).map Prod.fst).getD 0))

end Sys2Proof.Machine
end

