-- ==== Sys2Proof/Machine/Sys.lean ====
section
/-! DEFINITION. Class 0xC: traps and returns, control registers, counters, time, page queries, sleep and the debug halt
(R250 to R258), the end of a sleep, and the issue of a word that is no instruction (R23). -/

namespace Sys2Proof.Machine

/-- R250: TRAP. -/
def execTrap (f : Fields) (s : State) : Host.Outcome State Fault Refusal :=
  runIssue (.trap f) s fun x s =>
    if x.active = 0#64 then .ok s
    else .done s { after := some { cause := f.imm.toNat % 256, tmask := x.active, taddr := 0#64, thit := x.active, tpc := some (x.pc + 12#64) } }

/-- R251: RTE raises PRIVILEGE outside a handler. -/
def rteEarly (_ : Fields) (g : Gang) : Early := if g.inh then .go else .cause 0x13
/-- R251, R307: RTE. -/
def execRte (f : Fields) (s : State) : Host.Outcome State Fault Refusal :=
  runIssueWith (.rte f) rteEarly s fun x s => if x.active = 0#64 then .ok s else .done s { rte := true }

/-- R252: a control register as MFC reads it. -/
def cregVal (g : Gang) (c : Nat) : W64 :=
  match c with
  | 0x00 => g.cause.zeroExtend 64
  | 0x01 => g.tpc
  | 0x02 => g.tmask
  | 0x03 => g.taddr
  | 0x04 => g.thit
  | 0x05 => g.thnd
  | 0x06 => g.fpctl.zeroExtend 64
  | 0x07 => g.fpstat.zeroExtend 64
  | 0x08 => g.stklim.zeroExtend 64
  | 0x09 => g.rowlag.zeroExtend 64
  | 0x0A => g.privbase
  | _ => if g.inh then 1#64 else 0#64
/-- R252: MFC; FPSTAT waits for the flags still to land (R64). -/
def execMfc (f : Fields) (s : State) : Host.Outcome State Fault Refusal :=
  runIssue (.mfc f) s fun x s =>
    if x.active ≠ 0#64 && f.imm.toNat = 0x07 && x.g.fills.any Fill.setsFlags then .wait .fills s
    else .ok (x.putD s fun _ => cregVal x.g f.imm.toNat)

/-- R252: a write of a control register; P is the task's private words. -/
def putCreg (g : Gang) (P c : Nat) (a : W64) : Gang :=
  match c with
  | 0x00 => { g with cause := a.truncate 8 }
  | 0x01 => { g with tpc := a }
  | 0x02 => { g with tmask := a }
  | 0x03 => { g with taddr := a }
  | 0x04 => { g with thit := a }
  | 0x05 => { g with thnd := a }
  | 0x06 => { g with fpctl := a.truncate 32 &&& fpctlMask }
  | 0x07 => { g with fpstat := a.truncate 32 &&& fpstatMask }
  | 0x08 => { g with stklim := BitVec.ofNat 32 (min (a.toNat % 2 ^ 32) P) }
  | 0x09 => { g with rowlag := a.truncate 32 }
  | _ => g
/-- R252: the MTC column: PRIVILEGE of a write it forbids. -/
def mtcEarly (f : Fields) (g : Gang) : Early :=
  let c := f.imm.toNat
  if c < 5 then (if g.inh then .go else .cause 0x13) else if c < 0x0A then .go else .cause 0x13
/-- R252: MTC. -/
def execMtc (f : Fields) (s : State) : Host.Outcome State Fault Refusal :=
  runIssueWith (.mtc f) mtcEarly s fun x s =>
    if x.active = 0#64 then .ok s
    else .ok (x.mapGang s fun g => putCreg g x.task.rec_.privw f.imm.toNat (x.a x.low))

/-- R253: a counter as RDCNT reads it. -/
def counterVal (x : Iss) (s : State) (c : Nat) : W64 :=
  match c with
  | 0 => x.g.issues
  | 1 => x.g.unclassCount
  | 2 => x.task.reclass
  | 3 => s.count .stalecnt x.who.ctx
  | 4 => s.count .boerr x.who.ctx
  | 5 => s.count .ecccorr x.ref.core
  | 6 => s.count .engflt x.who.ctx
  | 7 => w64 (s.engine.filter fun e => e.2.core == x.ref.core).length
  | _ => s.count .clocks x.ref.core
/-- R253: RDCNT. -/
def execRdcnt (f : Fields) (s : State) : Host.Outcome State Fault Refusal :=
  runIssue (.rdcnt f) s fun x s => .ok (x.putD s fun _ => counterVal x s f.imm.toNat)

/-- R254: RDTIME. -/
def execRdtime (f : Fields) (s : State) : Host.Outcome State Fault Refusal :=
  runIssue (.rdtime f) s fun x s => .ok (x.putD s fun _ => w64 s.tick)

/-- R258, R307, R431: HALTDBG. -/
def execHaltdbg (f : Fields) (s : State) : Host.Outcome State Fault Refusal :=
  runIssue (.haltdbg f) s fun x s =>
    if x.active &&& ~~~x.g.exempt = 0#64 then .ok s else .trap (.plain 0xF1 x.active) s

/-- R255: RDDIG. -/
def execRddig (f : Fields) (s : State) : Host.Outcome State Fault Refusal :=
  runIssue (.rddig f) s fun x s =>
    .ok (x.putD s fun _ => if x.task.rec_.digest then ((s.team? x.who.team).map fun t => t.digest).getD 0#64 else 0#64)

/-- R256: the CLASS of a page as a party sees it. -/
def classCode (t : Task) (owner p : Nat) : Nat :=
  match t.classOf p with
  | .untouched => 1
  | .priv o => if o = owner then 2 else 3
  | .readOnly => 4
  | .shared => 5
/-- R256: the description of the page that holds an address. -/
def regqVal (s : State) (x : Iss) (va : Nat) : W64 :=
  let r := x.task.rec_
  let here := r.regions.filter fun g => g.covers va
  let own := x.g.privbase.toNat ≤ va && va < x.g.privbase.toNat + r.privw * x.g.width * 4
  let isOther := !own && meetsPriv s x.who.ctx r va 1
  let peer := match walk s x.who.ctx va with
    | some (leaf, _) => pteBit leaf 7
    | none => false
  if isOther then 0#64
  else
    let decl := !here.isEmpty
    let cls := if own then 6 else if peer then 7 else if decl then classCode x.task x.who.owner (va / 4096) else 0
    let region := if cls = 0 || cls = 6 || cls = 7 then 0
      else ((List.range r.regions.length).find? fun k => ((r.regions[k]?).map fun g => g.covers va).getD false).getD 0
    let bit (b : Bool) (k : Nat) : Nat := if b then 2 ^ k else 0
    w64 (bit decl 0 + bit (here.any (·.read)) 1 + bit (here.any (·.write)) 2 + bit (here.any (·.concurrent)) 3 +
      bit (here.any (·.stash)) 4 + bit (here.any (·.forward)) 5 + region * 2 ^ 6 + cls * 2 ^ 12)
/-- R256: REGQ. -/
def execRegq (f : Fields) (s : State) : Host.Outcome State Fault Refusal :=
  runIssue (.regq f) s fun x s => .ok (x.putD s fun l => regqVal s x (x.a l).toNat)

/-- R257: SLEEP; SLEEP 0 yields. -/
def execSleep (f : Fields) (s : State) : Host.Outcome State Fault Refusal :=
  runIssue (.sleep f) s fun x s =>
    if x.active = 0#64 then .ok s
    else
      let n := (x.a x.low).toNat % 2 ^ 32
      if n = 0 then .done s { yields := true }
      else .ok (x.mapGang s fun g => { g with block := some (.sleep (s.tick + n)) })

/-- R257: the sleep time is over. -/
def execSleepWake (ref : GangRef) (s : State) : Host.Outcome State Fault Refusal :=
  match s.gang? ref with
  | some g => match g.block with
    | some (.sleep t) => .next (if t ≤ s.tick then s.setGang ref { g with block := none } else s)
    | _ => .next s
  | none => .next s

/-- R23, R24: the current gang issues a word that is no instruction: ILLEGAL-OPCODE in the lanes of its issue group. -/
def execUndefinedEncoding (_w : W96) (s : State) : Host.Outcome State Fault Refusal :=
  match s.cur with
  | none => .fault .noGang
  | some ref => match s.gang? ref, s.who ref with
    | some g, some who => match s.task? who.slot, g.chooseSet with
      | some task, some (pc, set) => .next (illegalWord s ref who task pc set)
      | _, _ => .fault .noGang
    | _, _ => .fault .noGang

end Sys2Proof.Machine
end

