-- ==== Sys2Proof/Machine/Flash.lean ====
section
/-! DEFINITION. Flash (R435): its bytes, the image header of a slot (R436) and the save layouts an image lists. -/

namespace Sys2Proof.Machine

/-- R435: a byte of flash; unused bytes read 0xFF. -/
def flashByte (fw : Firmware) (a : Nat) : Byte := KMap.get fw.flash 0xFF#8 a
/-- Bytes of flash. -/
def flashBytes (fw : Firmware) (a n : Nat) : List Byte := (List.range n).map fun i => flashByte fw (a + i)
/-- A little-endian field of flash. -/
def flashNat (fw : Firmware) (a n : Nat) : Nat := leVal (flashBytes fw a n)
/-- Bytes put into flash. -/
def flashPut (fw : Firmware) (a : Nat) (bs : List Byte) : Firmware :=
  { fw with flash := (List.range bs.length).foldl (fun m i => KMap.set m 0xFF#8 (a + i) (bs.getD i 0xFF#8)) fw.flash }
/-- R435: the base of a slot. -/
def slotBase (slotB : Bool) : Nat := if slotB then 0x04000000 else 0
/-- R435: the base of a configuration copy. -/
def configBase (copy1 : Bool) : Nat := if copy1 then 0x08100000 else 0x08000000

/-- R436: the save layouts that a slot's image lists. -/
def slotLayouts (fw : Firmware) (slotB : Bool) : List Nat :=
  let b := slotBase slotB
  (List.range (flashNat fw (b + 12) 1 % 16 + 1)).map fun k => flashNat fw (b + 0x10 + 2 * k) 2
/-- R436: the version of a slot's image. -/
def slotVersion (fw : Firmware) (slotB : Bool) : W32 := BitVec.ofNat 32 (flashNat fw (slotBase slotB + 4) 4)

/-- R436, R440: the layout written now: the first of the image being activated, or of the running image. -/
def writeLayout (s : State) : Nat :=
  match s.fw.activating with
  | some (b, _) => (slotLayouts s.fw b).headD 0
  | none => s.fw.header.layouts.headD 0

end Sys2Proof.Machine
end

