-- ==== Sys2Proof/Machine/Sx.lean ====
section
/-! DEFINITION. Shared-exponent blocks (R67 to R70), the order of matrix sums (R71 to R73) and the elements of a view's
byte string (R44). -/

namespace Sys2Proof.Machine

/-- R43: FMT codes of tiles; mantissa bits of an SX format. -/
def sxBits (fmt : Nat) : Nat := if fmt = 5 then 7 else if fmt = 6 then 4 else 2
/-- Whether FMT is SX7, SX4 or SX2. -/
def fmtIsSx (fmt : Nat) : Bool := 5 ≤ fmt && fmt ≤ 7
/-- R67: bytes of an SX block. -/
def sxBytes (fmt : Nat) : Nat := if fmt = 5 then 18 else if fmt = 6 then 12 else 8
/-- R44: bits of an element of a plain FMT. -/
def plainBits (fmt : Nat) : Nat := if fmt = 0 || fmt = 4 then 32 else if fmt = 3 then 8 else 16
/-- R44: bytes of n elements in storage order. -/
def fmtBytes (fmt n : Nat) : Nat := if fmtIsSx fmt then n / 16 * sxBytes fmt else n * plainBits fmt / 8

/-- R68: element j of an SX block, read with SOFF. -/
def sxElem (fmt : Nat) (soff : Int) (block j : Nat) : FVal :=
  let k := sxBits fmt
  let E := block % 256
  if E = 255 then .nan false
  else
    let d := block / 2 ^ (8 + 2 * (j / 4)) % 4
    let fld := block / 2 ^ (16 + j * (k + 1)) % 2 ^ (k + 1)
    .fin (fld / 2 ^ k = 1) (fld % 2 ^ k) ((E : Int) + soff - 127 - d - ((k : Int) - 1))

/-- Whether element j's block is a NaN block or whether a plain integer format is read; the exact value of element e in
storage order of a byte string (R58, R68). -/
def fmtElem (fmt : Nat) (soff : Int) (str e : Nat) : FVal :=
  if fmtIsSx fmt then sxElem fmt soff (str / 2 ^ (e / 16 * sxBytes fmt * 8) % 2 ^ (sxBytes fmt * 8)) (e % 16)
  else
    let w := plainBits fmt
    let x := str / 2 ^ (e * w) % 2 ^ w
    match fmt with
    | 0 => f32.unpack x
    | 1 => f16.unpack x
    | 2 => bf16.unpack x
    | _ => let i := signExt x w; .fin (i < 0) i.natAbs 0

/-- |x| / 2^f rounded to nearest even; none for an infinity. -/
def rneOver (x : FVal) (f : Int) : Option Nat :=
  match x with
  | .fin _ m e => some (roundTo 0 false m e f false).1
  | _ => none

/-- Comparison of magnitudes. -/
def FVal.absLt (x y : FVal) : Bool := x.dyadic.n.natAbs = 0 && y.dyadic.n.natAbs ≠ 0 ||
  (Dyadic.cmp ⟨x.dyadic.n.natAbs, x.dyadic.e⟩ ⟨y.dyadic.n.natAbs, y.dyadic.e⟩ < 0)

/-- R69: SxEncode of sixteen exact values: the block and its flags NV, OF, NX. -/
def sxEncode (fmt : Nat) (xs : List FVal) : Nat × Flags :=
  let k := sxBits fmt
  if xs.any FVal.isNan then (255, flagNV) else
  let sat := xs.any FVal.isInf
  let a := (xs.filter fun x => !x.isInf).foldl (fun acc x => if acc.absLt x then x else acc) (.fin false 0 0)
  let E : Nat :=
    if sat then 254
    else match a with
      | .fin _ m e =>
        if m = 0 then 0
        else
          let E0 := (min (max ((Nat.log2 m : Int) + e + 127) 0) 254).toNat
          if E0 < 254 && rneOver a ((E0 : Int) - 127 - ((k : Int) - 1)) == some (2 ^ k) then E0 + 1 else E0
      | _ => 0
  let scale (t : Nat) : Int := (E : Int) - 127 - t - ((k : Int) - 1)
  let fits (p t : Nat) : Bool :=
    ((xs.drop (4 * p)).take 4).all fun x => match rneOver x (scale t) with
      | some r => r ≤ 2 ^ k - 1
      | none => false
  let shift (p : Nat) : Nat := if fits p 1 then if fits p 2 then if fits p 3 then 3 else 2 else 1 else 0
  let ds := (List.range 4).map shift
  let elem (j : Nat) : Nat × Flags :=
    let d := ds.getD (j / 4) 0
    match xs.getD j (.fin false 0 0) with
    | .fin neg m e =>
      let (r, inexact) := roundTo 0 false m e (scale d) false
      let M := min r (2 ^ k - 1)
      let fl := (if r > 2 ^ k - 1 then flagOF else 0#5) ||| (if inexact || r > 2 ^ k - 1 then flagNX else 0#5)
      (M + (if neg && m ≠ 0 && M > 0 then 2 ^ k else 0), fl)
    | v => (2 ^ k - 1 + (if v.neg? then 2 ^ k else 0), flagOF ||| flagNX)
  let els := (List.range 16).map elem
  (E + 256 * (ofSubs 2 ds) + 2 ^ 16 * ofSubs (k + 1) (els.map Prod.fst), els.foldl (fun acc e => acc ||| e.2) 0#5)

/-- R70, R206: an exact value written into a plain floating FMT by nearest even, with the flags of its row. -/
def plainEncode (fmt : Nat) (v : FVal) : Nat × Flags :=
  let F := if fmt = 0 then f32 else if fmt = 1 then f16 else bf16
  match v with
  | .nan _ => (F.qnan, 0#5)
  | .inf neg => (F.inf neg, 0#5)
  | .fin neg m e => F.roundMag 0 neg m e false

/-- R72, R71: GroupSum over seventeen terms, as a binary32 pattern. -/
def groupSum (t : List FVal) : Nat :=
  let pinf := t.any (fun x => x == .inf false)
  let ninf := t.any (fun x => x == .inf true)
  if t.any FVal.isNan || (pinf && ninf) then f32.qnan
  else if pinf then f32.inf false
  else if ninf then f32.inf true
  else if t.all FVal.isZero then f32.signBit (t.all FVal.neg?)
  else
    let ilog (x : FVal) : Option Int := match x with
      | .fin _ m e => if m = 0 then none else some ((Nat.log2 m : Int) + e)
      | _ => none
    let ls := t.filterMap ilog
    let lead := ls.foldl max (ls.headD 0)
    let unit := lead - 47
    let cut (x : FVal) : Int := match x with
      | .fin neg m e =>
        let k := if e ≥ unit then m * 2 ^ (e - unit).toNat else m / 2 ^ (unit - e).toNat
        if neg then -(k : Int) else k
      | _ => 0
    let s := t.foldl (fun (acc : Int) x => acc + cut x) 0
    if s = 0 then 0 else (f32.roundDy 0 false ⟨s, unit⟩).1

/-- R71: one result element over K terms, K a multiple of 16, from the incoming accumulator. -/
def mxGroups (a b : Nat → FVal) : Nat → Nat → Nat → Nat
  | 0, _, run => run
  | n + 1, g, run =>
    let t := (List.range 16).map fun q => ((a (16 * g + q)).mul (b (16 * g + q))).1
    mxGroups a b n (g + 1) (groupSum (t ++ [f32.unpack run]))

/-- R73: the integer sum modulo 2^32. -/
def mxInt (a b : Nat → Int) (K : Nat) (acc : Int) : Nat :=
  wrapInt ((List.range K).foldl (fun (s : Int) q => s + a q * b q) acc) 32

end Sys2Proof.Machine
end

