-- ==== Sys2Proof/Machine/Xlane.lean ====
section
/-! DEFINITION. Class 0x5: lanes exchanged, combined and packed (R141 to R153), and the writes of a view from its elements. -/

namespace Sys2Proof.Machine

/-- R144: SHFL; A is read in the source lane. -/
def execShfl (f : Fields) (s : State) : Host.Outcome State Fault Refusal := runIssue (.shfl f) s fun x s => .ok (x.putD s x.a)
/-- R145: BCAST. -/
def execBcast (f : Fields) (s : State) : Host.Outcome State Fault Refusal := runIssue (.bcast f) s fun x s => .ok (x.putD s x.a)
/-- R146: SWZ. -/
def execSwz (f : Fields) (s : State) : Host.Outcome State Fault Refusal :=
  runIssue (.swz f) s fun x s => .ok (x.putD s fun l =>
    mapSubs (typeWidth f.tcode) fun j => subElem (x.a l) (typeWidth f.tcode) (f.imm.toNat / 2 ^ (3 * j) % 8))

/-! ### Reductions -/

/-- The image of a value of a format; every NaN is the canonical one (R59). -/
def Fmt.image (F : Fmt) (v : FVal) : Nat :=
  match v with
  | .nan _ => F.qnan
  | .inf neg => F.inf neg
  | .fin neg m e => if m = 0 then F.signBit neg else (F.roundMag 0 neg m e false).1

/-- R147: one node of the tree from its two halves. -/
def treeNode (F : Fmt) (ftz : Bool) (mode : Nat) (x y : Option (FVal × Flags)) : Option (FVal × Flags) :=
  match x, y with
  | some a, some b =>
    let r := F.sum ftz mode [a.1, b.1]
    some (F.unpack r.1, a.2 ||| b.2 ||| r.2)
  | none, some b => some b
  | a, none => a

/-- R147: one level of the tree. -/
def treeLevel (F : Fmt) (ftz : Bool) (mode : Nat) : List (Option (FVal × Flags)) → List (Option (FVal × Flags))
  | x :: y :: t => treeNode F ftz mode x y :: treeLevel F ftz mode t
  | l => l

/-- R147: the levels of the tree down to one node. -/
def treeSum (F : Fmt) (ftz : Bool) (mode : Nat) : Nat → List (Option (FVal × Flags)) → Option (FVal × Flags)
  | 0, l => (l.head?).join
  | n + 1, l => treeSum F ftz mode n (treeLevel F ftz mode l)

/-- R147: the sum of sub-element j over the Active lanes. -/
def redaElem (x : Iss) (j : Nat) : Nat × Flags :=
  let t := x.f.tcode
  if typeIsFloat t then
    let F := fmtOf t
    let leaves := (List.range x.g.width).map fun l => if x.active.getLsbD l then some (x.fpElt t (x.a l) j) else none
    match treeSum F x.ftz x.mode (Nat.log2 x.g.width) leaves with
    | some r => (F.image r.1, r.2)
    | none => (0, 0#5)
  else
    let v := (x.lanes.map fun l => elt t (x.a l) j).sum
    (wrapInt (if x.f.variant = 1 then satInt t v else v) (typeWidth t), 0#5)

/-- R148: the minimum or maximum of sub-element j over the Active lanes. -/
def redmElem (x : Iss) (j : Nat) : Nat × Flags :=
  let t := x.f.tcode
  let isMax := x.f.variant % 2 == 1
  match x.lanes.map fun l => subElem (x.a l) (typeWidth t) j with
  | [] => (0, 0#5)
  | e :: es =>
    if typeIsFloat t then
      let mm (a b : Nat) : Nat × Flags := (fmtOf t).minMax x.ftz isMax (x.f.variant / 2 == 1) a b
      es.foldl (fun r b => ((mm r.1 b).1, r.2 ||| (mm r.1 b).2)) (mm e e)
    else (es.foldl (fun r b => if isMax == decide (intElem t r < intElem t b) then b else r) e, 0#5)

/-- R149: the prefix sums of sub-element j in lane order: per Active lane the value written. -/
def scanElem (x : Iss) (j : Nat) : List (Nat × Nat) × Flags :=
  let t := x.f.tcode
  let F := fmtOf t
  let w := typeWidth t
  let r := x.lanes.foldl (fun (acc : List (Nat × Nat) × Option Nat × Flags) l =>
    let (a, fa) := if typeIsFloat t then (fun v => (F.image v.1, v.2)) (x.fpElt t (x.a l) j) else (subElem (x.a l) w j, 0#5)
    let (run', fl) := match acc.2.1 with
      | none => (a, 0#5)
      | some r =>
        if typeIsFloat t then F.sum x.ftz (fpRM x.g.fpctl) [F.unpack r, F.unpack a]
        else ((r + a) % 2 ^ w, 0#5)
    let out := if x.f.variant = 1 then acc.2.1.getD 0 else run'
    (acc.1 ++ [(l, out)], some run', acc.2.2 ||| fa ||| fl)) ([], none, 0#5)
  (r.1, r.2.2)

/-- R64: a long-latency form whose flags belong to the issue as a whole. -/
def wholeForm (i : Instr) (s : State) (h : Iss → (Nat → W64) × Flags) : Host.Outcome State Fault Refusal :=
  runIssue i s fun x s =>
    if x.active = 0#64 then .ok s
    else
      let r := h x
      match x.fpTrap s [(x.low, r.2)] true with
      | some t => t
      | none => .ok (x.fill s (x.dWrites r.1) r.2 true)

/-- The result of a reduction: one lane value for every Active lane. -/
def reduceForm (x : Iss) (h : Iss → Nat → Nat × Flags) : (Nat → W64) × Flags :=
  let r := fpLanes (typeWidth x.f.tcode) (h x)
  (fun _ => r.1, r.2)

/-- R147: REDA. -/
def execReda (f : Fields) (s : State) : Host.Outcome State Fault Refusal := wholeForm (.reda f) s fun x => reduceForm x redaElem
/-- R148: REDM. -/
def execRedm (f : Fields) (s : State) : Host.Outcome State Fault Refusal := wholeForm (.redm f) s fun x => reduceForm x redmElem
/-- R149: the lane values and flags of a scan. -/
def scanLanes (x : Iss) : (Nat → W64) × Flags :=
  let w := typeWidth x.f.tcode
  let r := (List.range (64 / w)).map (scanElem x)
  (fun l => w64 (ofSubs w (r.map fun e => ((e.1.find? fun p => p.1 == l).map Prod.snd).getD 0)),
   r.foldl (fun fl e => fl ||| e.2) 0#5)
/-- R149: SCAN. -/
def execScan (f : Fields) (s : State) : Host.Outcome State Fault Refusal := wholeForm (.scan f) s scanLanes

/-- R150: the value MATCH writes in a lane. -/
def matchVal (x : Iss) (l : Nat) : W64 :=
  let same := x.lanes.filter fun k => x.a k == x.a l
  match x.f.variant with
  | 0 => maskOf fun k => same.contains k
  | 1 => w64 (same.headD 0)
  | 2 => w64 (same.filter fun k => k < l).length
  | _ => w64 same.length
/-- R150: MATCH. -/
def execMatchLanes (f : Fields) (s : State) : Host.Outcome State Fault Refusal :=
  runIssue (.matchLanes f) s fun x s => if x.active = 0#64 then .ok s else .ok (x.fill s (x.dWrites (matchVal x)))

/-! ### Packing -/

/-- R151: PACK and PACK.HI. -/
def packLane (t : Nat) (hi : Bool) (a b : W64) : W64 :=
  let w := typeWidth t
  let c := 64 / w
  if c = 1 then (if hi then b else a)
  else mapSubs w fun k => subElem (if k % 2 = 0 then a else b) w (k / 2 + if hi then c / 2 else 0)
/-- R151: UNPACK. -/
def unpackLane (t : Nat) (a : W64) : W64 :=
  let w := typeWidth t
  let c := 64 / w
  if c = 1 then a else mapSubs w fun k => if k < c / 2 then subElem a w (2 * k) else subElem a w (2 * (k - c / 2) + 1)
/-- R151: PACK. -/
def execPack (f : Fields) (s : State) : Host.Outcome State Fault Refusal :=
  runIssue (.pack f) s fun x s => .ok (x.putD s fun l => packLane f.tcode (f.variant == 1) (x.a l) (x.b l))
/-- R151: UNPACK. -/
def execUnpack (f : Fields) (s : State) : Host.Outcome State Fault Refusal :=
  runIssue (.unpack f) s fun x s => .ok (x.putD s fun l => unpackLane f.tcode (x.a l))

/-! ### Views converted -/

/-- R44: the index in storage order of element (r, c) of a view. -/
def elemIndex (d : W64) (r c : Nat) : Nat := if viewLayout d = 0 then r * viewCols d + c else c * viewRows d + r
/-- R44: the row and column of an element index. -/
def elemRow (d : W64) (e : Nat) : Nat := if viewLayout d = 0 then e / viewCols d else e % viewRows d
def elemCol (d : W64) (e : Nat) : Nat := if viewLayout d = 0 then e % viewCols d else e / viewRows d

/-- R45, R68: the element of the source view that lands at storage index e of the destination view. -/
def convSource (D A : W64) (str e : Nat) : FVal :=
  fmtElem (viewFmt A) (if fmtIsSx (viewFmt A) then viewSoff A else 0) str (elemIndex A (elemRow D e) (elemCol D e))

/-- R152, R206: the byte string of the destination view and the flags of its elements. -/
def convView (D A : W64) (str : Nat) : Nat × Flags :=
  let n := viewRows D * viewCols D
  let fd := viewFmt D
  if fmtIsSx fd then
    let bl := (List.range (n / 16)).map fun q => sxEncode fd ((List.range 16).map fun j => convSource D A str (16 * q + j))
    (ofSubs (8 * sxBytes fd) (bl.map Prod.fst), bl.foldl (fun fl e => fl ||| e.2) 0#5)
  else if fd = 3 then
    -- R206: I32 to I8 saturates
    (ofSubs 8 ((List.range n).map fun e => wrapInt (satInt 6 (convSource D A str e).dyadic.n) 8), 0#5)
  else if fd = 4 then (ofSubs 32 ((List.range n).map fun e => wrapInt (convSource D A str e).dyadic.n 32), 0#5)
  else
    let el := (List.range n).map fun e =>
      let v := convSource D A str e
      let r := plainEncode fd v
      (r.1, r.2 ||| if v = .nan true then flagNV else 0#5)
    (ofSubs (plainBits fd) (el.map Prod.fst), el.foldl (fun fl e => fl ||| e.2) 0#5)

/-- The writes of a whole view from the little-endian number of its byte string. -/
def viewNumWrites (g : Gang) (d : W64) (n : Nat) : List RegWrite := viewWrites g d ((leBytes (viewBytes d) n).map (·, false))

/-- R152, R206: a view converted into another, as one long-latency result. -/
def convForm (i : Instr) (s : State) : Host.Outcome State Fault Refusal :=
  runIssue i s fun x s =>
    if x.active = 0#64 then .ok s
    else
      let D := x.g.wReg (wNum x.f.d)
      let A := x.g.wReg (wNum x.f.a)
      let r := convView D A (x.g.viewVal A)
      match x.fpTrap s [(x.low, r.2)] true with
      | some t => t
      | none => .ok (x.fill s (viewNumWrites x.g D r.1) r.2 true)
/-- R152: SXPACK. -/
def execSxpack (f : Fields) (s : State) : Host.Outcome State Fault Refusal := convForm (.sxpack f) s
/-- R152: SXUNP. -/
def execSxunp (f : Fields) (s : State) : Host.Outcome State Fault Refusal := convForm (.sxunp f) s

end Sys2Proof.Machine
end

