-- ==== Sys2Proof/Machine/Mx.lean ====
section
/-! DEFINITION. Class 0x7: views, accumulator tokens, MXOP and its queue, and the service of a queued MXOP by the matrix unit
(R187 to R207, R71 to R73). -/

namespace Sys2Proof.Machine

/-! ### Views and tokens -/

/-- R188: TVSET. -/
def execTvset (f : Fields) (s : State) : Host.Outcome State Fault Refusal :=
  runIssue (.tvset f) s fun x s =>
    if x.active = 0#64 then .ok s
    else .ok (x.mapGang s fun g => g.putW (wNum f.d) (x.a x.low))

/-- The key of a partition's matrix queue. -/
def mxKey (ref : GangRef) : Nat := ref.core * 32 + ref.part
/-- The MXOPs that a gang has queued. -/
def mxOf (s : State) (ref : GangRef) : List MxEntry := (KMap.get s.mxq [] (mxKey ref)).filter fun e => e.g == ref
/-- R195: the W number of WC. -/
def mxWC (p : List W64) : Nat := ((p.headD 0#64).extractLsb' 16 5).toNat
/-- R189: the value of TVGET. -/
def tvgetVal (x : Iss) (s : State) : W64 :=
  let k := wNum x.f.a
  if x.f.mod.toNat % 4 = 1 then
    w64 ((if BitSet.has x.g.lent k then 1 else 0) + 2 ^ 8 * ((mxOf s x.ref).filter fun e => mxWC e.params == k).length)
  else x.g.wReg k
/-- R189: TVGET. -/
def execTvget (f : Fields) (s : State) : Host.Outcome State Fault Refusal :=
  runIssue (.tvget f) s fun x s => .ok (x.putD s fun _ => tvgetVal x s)

/-- R191: TOKGIVE. -/
def execTokgive (f : Fields) (s : State) : Host.Outcome State Fault Refusal :=
  runIssue (.tokgive f) s fun x s =>
    if x.active = 0#64 then .ok s
    else .ok (x.mapGang s fun g => { g with lent := BitSet.put g.lent (wNum f.a) true })
/-- R192: TOKTAKE. -/
def execToktake (f : Fields) (s : State) : Host.Outcome State Fault Refusal :=
  runIssue (.toktake f) s fun x s =>
    if x.active = 0#64 || !BitSet.has x.g.lent (wNum f.a) then .ok s
    else if (mxOf s x.ref).any fun e => mxWC e.params == wNum f.a then .wait .token s
    else .ok (x.mapGang s fun g => { g with lent := BitSet.put g.lent (wNum f.a) false })
/-- R204: whether MXWAIT waits for a queued MXOP. -/
def mxWaits (f : Fields) (e : MxEntry) : Bool := f.imm.getLsbD 8 || e.opid == f.imm.toNat % 256
/-- R204: MXWAIT. -/
def execMxwait (f : Fields) (s : State) : Host.Outcome State Fault Refusal :=
  runIssue (.mxwait f) s fun x s =>
    if x.active ≠ 0#64 && (mxOf s x.ref).any (mxWaits f) then .wait .mxwait s else .ok s
/-- R205: TZERO. -/
def execTzero (f : Fields) (s : State) : Host.Outcome State Fault Refusal :=
  runIssue (.tzero f) s fun x s =>
    if x.active = 0#64 then .ok s
    else .ok (x.mapGang s fun g => g.writes (viewNumWrites x.g (x.g.wReg (wNum f.d)) 0))
/-- R206: TCVT. -/
def execTcvt (f : Fields) (s : State) : Host.Outcome State Fault Refusal := convForm (.tcvt f) s

/-! ### The parameter block -/

/-- A field of word k of the block. -/
def mxField (p : List W64) (k lo width : Nat) : Nat := bits (p.getD k 0#64).toNat lo width
def mxWA (p : List W64) : Nat := mxField p 0 0 5
def mxWB (p : List W64) : Nat := mxField p 0 8 5
def mxASrc (p : List W64) : Bool := mxField p 0 24 1 == 1
def mxBSrc (p : List W64) : Bool := mxField p 0 25 1 == 1
def mxAccIn (p : List W64) : Bool := mxField p 0 26 1 == 1
def mxM (p : List W64) : Nat := mxField p 1 0 16
def mxN (p : List W64) : Nat := mxField p 1 16 16
def mxK (p : List W64) : Nat := mxField p 1 32 16

/-- R195: reserved fields, and fields that must be 0. -/
def mxReserved (p : List W64) : Bool :=
  mxField p 0 5 3 ≠ 0 || mxField p 0 13 3 ≠ 0 || mxField p 0 21 3 ≠ 0 || mxField p 0 27 5 ≠ 0 || mxField p 0 40 24 ≠ 0 ||
  mxField p 1 48 16 ≠ 0 || mxField p 6 0 64 ≠ 0 || mxField p 7 0 64 ≠ 0 ||
  (if mxASrc p then mxWA p ≠ 0 else mxField p 2 0 64 ≠ 0 || mxField p 3 0 64 ≠ 0) ||
  (if mxBSrc p then mxWB p ≠ 0 else mxField p 4 0 64 ≠ 0 || mxField p 5 0 64 ≠ 0)

/-- An operand of the matrix unit: format, layout, scale offset, rows and columns, and, when streamed, address and stride. -/
structure MxOperand where
  fmt : Nat
  colMajor : Bool
  soff : Int
  rows : Nat
  cols : Nat
  stream : Option (Nat × Nat)
  deriving DecidableEq, Repr

/-- Lines of an operand and the bytes of one (R196). -/
def mxLines (o : MxOperand) : Nat := if o.colMajor then o.cols else o.rows
def mxLineBytes (o : MxOperand) : Nat := fmtBytes o.fmt (if o.colMajor then o.rows else o.cols)
/-- The operand of a view descriptor. -/
def mxOfView (d : W64) : MxOperand :=
  { fmt := viewFmt d, colMajor := viewLayout d == 1, soff := viewSoff d, rows := viewRows d, cols := viewCols d, stream := none }
/-- R196: the operand of a stream descriptor. -/
def mxOfStream (addr desc : W64) (rows cols : Nat) : MxOperand :=
  { fmt := (desc.extractLsb' 32 5).toNat, colMajor := desc.getLsbD 40, soff := signExt (desc.extractLsb' 48 8).toNat 8, rows, cols,
    stream := some (addr.toNat, (desc.extractLsb' 0 32).toNat) }
/-- Operand A and operand B, views by the descriptors captured. -/
def mxA (p : List W64) (wa : W64) : MxOperand :=
  if mxASrc p then mxOfStream (p.getD 2 0#64) (p.getD 3 0#64) (mxM p) (mxK p) else mxOfView wa
def mxB (p : List W64) (wb : W64) : MxOperand :=
  if mxBSrc p then mxOfStream (p.getD 4 0#64) (p.getD 5 0#64) (mxK p) (mxN p) else mxOfView wb

/-- R196: a stream descriptor that breaks its rules. -/
def streamBad (desc : W64) (o : MxOperand) : Bool :=
  let stride := (desc.extractLsb' 0 32).toNat
  desc.extractLsb' 37 3 ≠ 0#3 || desc.extractLsb' 41 7 ≠ 0#7 || desc.extractLsb' 56 8 ≠ 0#8 ||
  (!fmtIsSx o.fmt && desc.extractLsb' 48 8 ≠ 0#8) || stride % 16 ≠ 0 || stride < mxLineBytes o

/-- R198: the accumulator format for a pair of operand formats. -/
def mxAccFmt (a b : Nat) : Option Nat :=
  let fl (x : Nat) : Bool := x == 1 || x == 2 || fmtIsSx x
  if fl a && fl b then some 0 else if a = 3 && b = 3 then some 4 else none
/-- R198: MAC per clock. -/
def mxRate (a b : Nat) : Nat :=
  if a = 3 then 4096 else if a < 3 || b < 3 then 2048 else if a = 5 || b = 5 then 4096 else if a = 6 || b = 6 then 8192 else 16384

/-- R195 to R198: ILLEGAL-VIEW of a block, in a gang. -/
def mxBad (g : Gang) (p : List W64) : Bool :=
  let wa := g.wReg (mxWA p)
  let wb := g.wReg (mxWB p)
  let wc := g.wReg (mxWC p)
  let M := mxM p
  let N := mxN p
  let K := mxK p
  let A := mxA p wa
  let B := mxB p wb
  mxReserved p || M % 16 ≠ 0 || M < 16 || 240 < M || N % 16 ≠ 0 || N < 16 || 240 < N || K % 16 ≠ 0 || K < 16 ||
  (if mxASrc p then streamBad (p.getD 3 0#64) A
   else viewBad [1] g.width g.regs wa || viewRows wa ≠ M || viewCols wa ≠ K || viewsMeet g.width wa wc) ||
  (if mxBSrc p then streamBad (p.getD 5 0#64) B
   else viewBad [1] g.width g.regs wb || viewRows wb ≠ K || viewCols wb ≠ N || viewsMeet g.width wb wc) ||
  viewBad [2] g.width g.regs wc || viewRows wc ≠ M || viewCols wc ≠ N ||
  (fmtIsSx A.fmt && A.colMajor) || (fmtIsSx B.fmt && !B.colMajor) ||
  mxAccFmt A.fmt B.fmt ≠ some (viewFmt wc)

/-- R54: parity of the full/empty bits of the views that the block names as WA and WB. -/
def mxFullParity (g : Gang) (p : List W64) : Bool :=
  (!mxASrc p && g.viewFullParity (g.wReg (mxWA p))) || (!mxBSrc p && g.viewFullParity (g.wReg (mxWB p)))

/-- R54: parity of the W entries that the block names. -/
def mxParity (g : Gang) (p : List W64) : Bool :=
  g.parity.contains (.w (mxWC p)) || (!mxASrc p && g.parity.contains (.w (mxWA p))) || (!mxBSrc p && g.parity.contains (.w (mxWB p)))

/-- R190: the lowest lent W number that the block touches otherwise than as its WC. -/
def mxLent (g : Gang) (p : List W64) : Option Nat :=
  g.lentList.find? fun k =>
    let d := g.wReg k
    (!mxASrc p && viewsMeet g.width d (g.wReg (mxWA p))) || (!mxBSrc p && viewsMeet g.width d (g.wReg (mxWB p))) ||
    (k != mxWC p && viewsMeet g.width d (g.wReg (mxWC p)))

/-- R202: the check of a streamed operand's first page: a walk, or a cause (0 for none). -/
def streamCheck (s : State) (x : Iss) (va : Nat) : Option Nat × State :=
  match coreXlat s x.who.core x.who.ctx va .read with
  | .miss s => (none, s)
  | .done (.fail c) s => (some c, s)
  | .done (.peer _ _ _) s => (some 0x21, s)
  | .done (.ok _ _) s =>
    (some (if !(x.task.rec_.regions.any fun r => r.read && r.onPage (va / 4096)) then 0x22 else if va % 16 ≠ 0 then 0x23 else 0), s)

/-- R202: the checks of the streamed operands: the lowest cause with its tile's address, A before B. -/
def streamChecks (s : State) (x : Iss) (p : List W64) : Option (Option (Nat × Nat)) × State :=
  let tiles := (if mxASrc p then [(p.getD 2 0#64).toNat] else []) ++ (if mxBSrc p then [(p.getD 4 0#64).toNat] else [])
  tiles.foldl (fun (r : Option (Option (Nat × Nat)) × State) va =>
    match r.1, streamCheck r.2 x va with
    | none, (_, s) => (none, s)
    | _, (none, s) => (none, s)
    | some best, (some c, s) =>
      (some (if c = 0 then best else match best with
        | some b => if c < b.1 then some (c, va) else some b
        | none => some (c, va)), s)) (some none, s)

/-- R44, R200: the bytes of a view as a reader of the gang sees them, each with its word's poison. -/
def viewRead (g : Gang) (d : W64) : List (Byte × Bool) :=
  let p := g.viewPoison d
  (leBytes (viewBytes d) (g.viewVal d)).map (·, p)

/-- R195, R200: an entry of the matrix queue with the words of its block, and its views as a gang shows them. -/
def MxEntry.withBlock (e : MxEntry) (g : Gang) (p : List W64) : MxEntry :=
  let wa := if mxASrc p then 0#64 else g.wReg (mxWA p)
  let wb := if mxBSrc p then 0#64 else g.wReg (mxWB p)
  { e with params := p, wa, wb, wc := g.wReg (mxWC p), opid := mxField p 0 32 8,
           aBytes := if mxASrc p then [] else viewRead g wa, bBytes := if mxBSrc p then [] else viewRead g wb }

/-- Whether some view of a block's operands is not full in a gang (R48, R194). -/
def mxUnready (g : Gang) (p : List W64) : Bool :=
  (!mxASrc p && !g.viewReady (g.wReg (mxWA p))) || (!mxBSrc p && !g.viewReady (g.wReg (mxWB p)))

/-- R194: an MXOP whose block has been read; again is the number of a read that is made again. No register of WC is waited for, lent or
not (log entry 87). R202 and R300 name no lane for the causes of a streamed tile's first page: THIT is the lowest Active lane (log entry
93). -/
def mxIssue (x : Iss) (s : State) (p : List W64) (again : Option Nat) : Res :=
  let off := (x.a x.low).toNat
  let low := maskOf (· == x.low)
  let trap := settledTrap again
  if mxParity x.g p then trap (.plain 0x01 x.active) s
  else if mxBad x.g p then trap (.plain 0x12 x.set) s
  else if mxFullParity x.g p then trap (.plain 0x01 x.active) s
  else match mxLent x.g p with
  | some k => trap (.plain 0x1A x.set (w64 k)) s
  | none =>
    match streamChecks s x p with
    | (none, s) => .wait .walk s
    | (some (some (c, va)), s) => trap { cause := c, tmask := x.active, taddr := w64 va, thit := low, tpc := none } s
    | (some none, s) =>
      let q := KMap.get s.mxq [] (mxKey x.ref)
      if mxUnready x.g p then .wait .empty s
      else if 16 ≤ q.length then .wait .matrixFull s
      else
        let e : MxEntry :=
          { g := x.ref, params := [], wa := 0#64, wb := 0#64, wc := 0#64, opid := 0, readDone := false, behind := behindOf s x.ref,
            aBytes := [], bBytes := [], again := again.map fun n => (n, off, x.g), stamp := s.issueCtr,
            recheck := none }
        .ok (countBlock x { s with mxq := KMap.put s.mxq (mxKey x.ref) (q ++ [e.withBlock x.g p]) } off again)

/-- R194: MXOP. -/
def execMxop (f : Fields) (s : State) : Host.Outcome State Fault Refusal :=
  runIssue (.mxop f) s fun x s =>
    if x.active = 0#64 then .ok s
    else match readBlock x s (x.a x.low).toNat with
      | .wait why s => .wait why s
      | .trap t s => .trap t s
      | .ok p again s => mxIssue x s p again

/-! ### Service -/

/-- R199: element (r, c) of an operand, from its bytes as a number. -/
def mxElem (o : MxOperand) (str r c : Nat) : FVal := fmtElem o.fmt o.soff str (if o.colMajor then c * o.rows + r else r * o.cols + c)

/-- The little-endian number of a long byte string, halved to keep its evaluation shallow. -/
def bigVal (bs : List Byte) : Nat := bs.foldr (fun b acc => b.toNat + 256 * acc) 0

/-- R199: the result's element (i, j) as a 32-bit pattern, from the incoming accumulator's. -/
def mxResult (A B : MxOperand) (sa sb K acc i j : Nat) : Nat :=
  if A.fmt = 3 then
    mxInt (fun q => signExt (sa / 2 ^ (8 * (if A.colMajor then q * A.rows + i else i * A.cols + q)) % 256) 8)
      (fun q => signExt (sb / 2 ^ (8 * (if B.colMajor then j * B.rows + q else q * B.cols + j)) % 256) 8) K (signExt acc 32)
  else mxGroups (fun q => mxElem A sa i q) (fun q => mxElem B sb q j) (K / 16) 0 acc

/-- R199: the byte string of WC after the operation, as a number, from the string it held. -/
def mxRun (e : MxEntry) (wcOld : Nat) : Nat :=
  let A := mxA e.params e.wa
  let B := mxB e.params e.wb
  let sa := bigVal (e.aBytes.map Prod.fst)
  let sb := bigVal (e.bBytes.map Prod.fst)
  let M := mxM e.params
  let N := mxN e.params
  ofSubs 32 ((List.range (M * N)).map fun n =>
    let i := elemRow e.wc n
    let j := elemCol e.wc n
    mxResult A B sa sb (mxK e.params) (if mxAccIn e.params then wcOld / 2 ^ (32 * n) % 2 ^ 32 else 0) i j)

/-- R55, R203: the correctable words of a view corrected and written back, and how many there were. -/
def correctView (g : Gang) (d : W64) : Gang × Nat :=
  let hs := (List.range ((viewBytes d + 3) / 4)).filter fun h => BitSet.has g.vCorr (2 * (viewBase d * g.width) + h)
  ({ g with vCorr := hs.foldl (fun m h => BitSet.put m (2 * (viewBase d * g.width) + h) false) g.vCorr }, hs.length)

/-- R55, R203: the views that the matrix unit reads of a gang, corrected; every corrected word counts in ECCCORR (log entry 73). -/
def correctViews (s : State) (ref : GangRef) (ds : List W64) : State :=
  match s.gang? ref with
  | none => s
  | some g =>
    let r := ds.foldl (fun (r : Gang × Nat) d =>
      let c := correctView r.1 d
      (c.1, r.2 + c.2)) (g, 0)
    if r.2 = 0 then s else (s.setGang ref r.1).bump .ecccorr ref.core r.2

/-- R199, R200, R203: the operation's result written: poisoned throughout when an operand or the incoming accumulator was. The incoming
accumulator is the register file's when the MXOP is served: no transient result is seen. WC is written whether or not it is lent
(log entry 87), and its full/empty bits stay as they are (R93). -/
def mxFinish (s0 : State) (e : MxEntry) : State :=
  let s := if mxAccIn e.params then correctViews s0 e.g [e.wc] else s0
  match s.gang? e.g with
  | none => s
  | some g0 =>
    let g := { g0 with transients := [] }
    let bad := (e.aBytes.any Prod.snd) || (e.bBytes.any Prod.snd) || (mxAccIn e.params && g.viewPoison e.wc)
    let n := mxRun e (g.viewVal e.wc)
    let s := s.setGang e.g (g0.rewrite (viewWrites g e.wc ((leBytes (viewBytes e.wc) n).map (·, bad))))
    let A := mxA e.params e.wa
    let B := mxB e.params e.wb
    let r := mxRate A.fmt B.fmt
    s.bump .mxbusy e.g.core ((mxM e.params * mxN e.params * mxK e.params + r - 1) / r)

/-- The outcome of a streamed line: a wait, a cause that kills the team with its address, or the bytes. -/
inductive LineRead where
  | wait (s : State)
  | kill (cause addr : Nat) (s : State)
  | ok (bs : List (Byte × Bool)) (s : State)

/-- R201, R202: one line of a streamed operand read by the gang's stream thread; bytes in no READ record fail as undeclared on the first
page too (log entry 36). -/
def streamLine (s : State) (w : Who) (r : TaskRec) (va n : Nat) : LineRead :=
  match plainCheck s w r 0 va n 1 .read .read false with
  | .miss s => .wait s
  | .fail c a s => .kill c a.toNat s
  | .ok accs s =>
    match touchPages s w.slot w.index w.owner false false false (globalPages accs) with
    | .wait _ s => .wait s
    | .go unc claims s =>
      let s := accs.foldl (fun s a => correctAcc s w a) (if unc then crossAccs s w accs else s)
      let bs := accs.flatMap (readAcc s w 0)
      if bs.any Prod.snd then .kill 0x02 va s else .ok bs (fillAccs s w unc claims accs)

/-- R200, R203: the matrix unit reads the view operands of its MXOP, as they were at the issue, correctable words corrected. -/
def mxReadViews (s : State) (e : MxEntry) : MxEntry × State :=
  if e.readDone || (s.gang? e.g).isNone then (e, s)
  else ({ e with readDone := true },
    correctViews s e.g ((if mxASrc e.params then [] else [e.wa]) ++ (if mxBSrc e.params then [] else [e.wb])))

/-- The address of the next line to stream, A before B, lines in order (R201): whether it is of A, its address and bytes. -/
def mxNextLine (e : MxEntry) : Option (Bool × Nat × Nat) :=
  let next (o : MxOperand) (got : Nat) : Option (Nat × Nat) := match o.stream with
    | none => none
    | some (addr, stride) =>
      let L := mxLineBytes o
      if got < mxLines o * L then some ((addr + got / L * stride) % 2 ^ 64, L) else none
  match next (mxA e.params e.wa) e.aBytes.length with
  | some (a, n) => some (true, a, n)
  | none => (next (mxB e.params e.wb) e.bBytes.length).map fun p => (false, p.1, p.2)

/-- The head entry of a matrix queue replaced, or removed. -/
def mxSetHead (s : State) (key : Nat) (e : Option MxEntry) : State :=
  let rest := (KMap.get s.mxq [] key).drop 1
  { s with mxq := KMap.set s.mxq [] key (match e with
    | some e => e :: rest
    | none => rest) }

/-- The end of an MXOP that needs no further line. -/
def mxDone (s : State) (key : Nat) (e : MxEntry) : State :=
  match mxNextLine e with
  | some _ => mxSetHead s key (some e)
  | none => mxSetHead (mxFinish s e) key none

/-- R194 to R198, R289: the cause of a block that was read again, in the gang as the issue read it: c is that of a poisoned word, or 0
(log entry 74). -/
def mxAgainCause (g : Gang) (p : List W64) (c : Nat) : Option Nat :=
  if c ≠ 0 then some c
  else if mxBad g p then some 0x12
  else if (mxLent g p).isSome then some 0x1A
  else if mxUnready g p then some 0x19 else none

/-- R289, R313: an MXOP whose block, read again, differs takes the words it finds, or kills its team where they are at fault (log entry
74). -/
def mxRecheck (s : State) (key : Nat) (e : MxEntry) (w : Who) (c off : Nat) (g : Gang) : State :=
  match mxAgainCause g e.params c with
  | some c => killTeam s w.team c off
  | none => mxSetHead s key (some { e.withBlock g e.params with recheck := none })

/-- R199 to R203: the matrix unit serves an MXOP whose block stands: the views, then one streamed line at a time, then the result. -/
def mxServeReady (s : State) (key : Nat) (e0 : MxEntry) (w : Who) (r : TaskRec) : State :=
  let (e, s) := mxReadViews s e0
  match mxNextLine e with
  | none => mxSetHead (mxFinish s e) key none
  | some (isA, va, n) =>
    let s := mxSetHead s key (some e)
    if stillBehind s e.g e.behind then s
    else match streamLine s (sideWho w.core w.ctx w.slot w.team w.index w.half) r va n with
      | .wait s => s
      | .kill c a s => killTeam s w.team c a
      | .ok bs s => mxDone s key (if isA then { e with aBytes := e.aBytes ++ bs } else { e with bBytes := e.bBytes ++ bs })

/-- R199 to R203: the matrix unit serves the MXOP at the head of its queue, once its block is no longer to be read again (R289). -/
def mxServe (s : State) (key : Nat) (e : MxEntry) (w : Who) (r : TaskRec) : State :=
  if e.again.isSome then s
  else match e.recheck with
    | some (c, off, g) => mxRecheck s key e w c off g
    | none => mxServeReady s key e w r

/-- R199: the matrix unit of a partition advances. -/
def execMxopRun (core part : Nat) (s : State) : Host.Outcome State Fault Refusal :=
  match KMap.get s.mxq [] (core * 32 + part) with
  | [] => .next s
  | e :: _ =>
    match s.who e.g with
    | none => .next (mxSetHead s (core * 32 + part) none)
    | some w => match s.task? w.slot with
      | none => .next s
      | some t => .next (if standsStill s core w.ctx then s else mxServe s (core * 32 + part) e w t.rec_)

end Sys2Proof.Machine
end

