-- ==== Sys2Proof/Machine/Issue.lean ====
section
/-! DEFINITION. The happenings of gangs and teams: fetch returning, the SECDED replay, fills landing, waiting chain loads,
placement and retirement (R10, R47 to R55, R158, R260 to R267, R315). -/

namespace Sys2Proof.Machine

/-- The gang, its party and its task, where the gang is free to act. -/
def State.acting? (s : State) (ref : GangRef) : Option (Gang × Who × Task) :=
  match s.gang? ref, s.who ref with
  | some g, some w =>
    if standsStill s ref.core w.ctx then none else (s.task? w.slot).map fun t => (g, w, t)
  | _, _ => none

/-- R10: the fetch at the PC of the gang's next issue returns, or FETCH-FAULT is raised. -/
def execFetch (ref : GangRef) (s : State) : Host.Outcome State Fault Refusal :=
  match s.acting? ref with
  | none => .next s
  | some (g, w, t) =>
    if g.block.isSome || g.stopped || issueStops s ref.core w.ctx || (boundaryTrap g).isSome then .next s
    else match g.chooseSet with
      | none => .next s
      | some (pc, set) =>
        match fetchAt s ref.core t pc with
        | .miss s => .next s
        | .fail s => .next (fetchFault s ref w t pc set)
        | .word _ s => .next s

/-- R55: the keys of the 32-bit words of V registers that an issue reads. -/
def wordsRead (i : Instr) (m : Form) (f : Fields) (g : Gang) (active : LaneMask) : List Nat :=
  (lanesOf (readers i m f active)).flatMap (fun l => (srcFields i m f).flatMap fun e => match opnd e.reg with
    | .v k =>
      let c := k * g.width + fieldLane i f g active e l
      if (g.transient? e.reg (fieldLane i f g active e l)).isSome then [] else [2 * c, 2 * c + 1]
    | _ => []) ++
  (viewUses i f).flatMap fun v => if v.src then g.viewWords (g.wReg v.w) else []

/-- R55: the correctable words of the issue that waits are corrected and written back, in one replay; each word counts in ECCCORR (log
entry 73). -/
def execSecdedReplay (ref : GangRef) (s : State) : Host.Outcome State Fault Refusal :=
  match s.acting? ref with
  | none => .next s
  | some (g, w, t) =>
    if g.waits ≠ some .replay || issueStops s ref.core w.ctx then .next s
    else match g.chooseSet with
      | none => .next s
      | some (pc, set) =>
        match fetchAt s ref.core t pc with
        | .word word s =>
          match decode word with
          | .ok i => match i.form with
            | some (m, f) =>
              let x := g.seen set
              let keys := ((wordsRead i m f x (activeOf x f set)).filter (BitSet.has g.vCorr)).eraseDups
              let g' := { g with vCorr := keys.foldl (fun b k => BitSet.put b k false) g.vCorr, holdLatch := [], waits := none }
              .next ((s.setGang ref g').bump .ecccorr ref.core keys.length)
            | none => .next s
          | .error _ => .next s
        | .miss s => .next s
        | .fail s => .next s

/-- R47, R50, R64: a fill in flight lands. -/
def execFillLand (ref : GangRef) (ix : Nat) (s : State) : Host.Outcome State Fault Refusal :=
  match s.acting? ref with
  | none => .next s
  | some (g, _, _) => .next (if fillReady g ix then s.setGang ref (landFill g ix) else s)

/-- R158: the first waiting load or invalidation of a chain slot takes effect once no run on the slot is left. -/
def execChldCommit (ref : GangRef) (s : State) : Host.Outcome State Fault Refusal :=
  match s.acting? ref with
  | some (g, w, _) => match g.block with
    | some (.chain k) =>
      let key := chainKey ref k
      let c := chainSlot s key
      match c.waiting with
      | (r, load) :: rest =>
        if r = ref && !chainBusy s key then
          let s := { s with chains := KMap.put s.chains key { c with waiting := rest } }
          .next ((chainCommit s key w.slot load).setGang ref { g with block := none })
        else .next s
      | [] => .next s
    | _ => .next s
  | none => .next s

/-! ### Placement -/

/-- R364: the team at a position of the dispatch order. -/
def nthTeam (r : TaskRec) (n : Nat) : Nat :=
  if r.deterministic || r.curve = 0 then n else (dispatchOrder r).getD n 0

/-- The teams of a task's grid. -/
def TaskRec.total (r : TaskRec) : Nat := r.nx * r.ny * r.nz

/-- R261, R281, R375: whether a task's teams may be placed now. -/
def mayPlace (s : State) (t : Task) : Bool :=
  t.stage = .running && t.fault.isNone && t.estat = 0 && !s.halted && !anyStop s t.ctx &&
  match KMap.get? s.ctxs t.ctx with
  | some c => c.state = .scheduled
  | none => false

/-- R263: every team of a CORESIDENT task placed together, or none. -/
def placeAll (s : State) (slot : Nat) (t : Task) : List Nat → Option State
  | [] => some s
  | i :: rest => match planTeam s t.ctx t.rec_ with
    | none => none
    | some p => placeAll (createTeam s slot i t p) slot t rest

/-- R261, R263, R314, R315, R365, R372: the dispatcher places the task's next team, relaunches first, in dispatch order; the relaunch of a
team that was killed waits until nothing of that is left. -/
def placeNext (s : State) (slot : Nat) (t : Task) : State :=
  let r := t.rec_
  if r.coresident && t.placed = 0 then
    match placeAll s slot t ((List.range r.total).map (nthTeam r)) with
    | none => s
    | some s' => noteProgress (s'.setTask slot { t with placed := r.total }) t.ctx
  else
    let again := if t.relaunch.isEmpty then none
      else ((List.range t.placed).map fun n => if t.rerun then n else nthTeam r n).find? t.relaunch.contains
    let next : Option (Nat × Task) := match again with
      | some i => some (i, { t with relaunch := t.relaunch.erase i })
      | none => if t.placed < r.total then some (if t.rerun then t.placed else nthTeam r t.placed, { t with placed := t.placed + 1 }) else none
    match next with
    | none => s
    | some (i, t') =>
      if (t.rerun && slotResident s slot) || s.teams.any fun e => e.2.slot == slot && e.2.index == i then s
      else match planTeam s t.ctx r with
        | none => s
        | some p => noteProgress ((createTeam s slot i t p).setTask slot t') t.ctx

/-- R261: the dispatcher's turn for a task. -/
def execTeamPlace (slot : Nat) (s : State) : Host.Outcome State Fault Refusal :=
  match s.task? slot with
  | none => .next s
  | some t => .next (if mayPlace s t then placeNext s slot t else s)

/-! ### Retirement -/

/-- R244, R266: whether the fills due to a gang have landed; that of a carve request that nothing has decided is due to none. -/
def fillsLanded (s : State) (ref : GangRef) (g : Gang) : Bool :=
  g.fills.all fun x => match (s.team? g.team).bind Team.carve with
    | some c => c.g == ref && c.fill == x.id
    | none => false

/-- R107, R266: whether a gang is ready to retire: its accesses are performed as well (log entry 76). -/
def retirable (s : State) (ref : GangRef) (g : Gang) : Bool :=
  g.live = 0#64 && fillsLanded s ref g && g.unclass.isNone && g.late.isNone && g.heldStores.isEmpty && (mxOf s ref).isEmpty && g.syncDue.isNone

/-- R241, R266, R267, R419: a gang retires: it leaves the barriers, and its team may retire. -/
def execGangRetire (ref : GangRef) (s : State) : Host.Outcome State Fault Refusal :=
  match s.acting? ref with
  | none => .next s
  | some (g, w, t) =>
    if !retirable s ref g || anyStop s w.ctx then .next s
    else
      let s := s.setTask w.slot { t with sumIssues := t.sumIssues + g.issues, sumUnclass := t.sumUnclass + g.unclassCount }
      let s := removeGang s ref w.slot
      let s := match s.team? w.team with
        | some m => s.setTeam w.team { m with retired := BitSet.put m.retired g.index true }
        | none => s
      let s := (List.range 16).foldl (fun s b => checkBarrier s w.team b) s
      .next (retireReady (tryRetireTeam s w.team) w.slot)

end Sys2Proof.Machine
end

