-- ==== Sys2Proof/Machine/Eng.lean ====
section
/-! DEFINITION. Class 0xB: copy-engine forms and the engine's elements, signal objects, team barriers, barrier objects and the
carve-out (R230 to R249, R278, R316, R317, R453). -/

namespace Sys2Proof.Machine

/-! ### Copy-engine forms -/

/-- A field of word k of a copy descriptor (R232). -/
def cpyField (d : List W64) (k lo width : Nat) : Nat := bits (d.getD k 0#64).toNat lo width
def cpyLen (d : List W64) : Nat := cpyField d 3 0 41
def cpyRows (d : List W64) : Nat := cpyField d 4 0 32
def cpySsp (d : List W64) : Nat := cpyField d 7 0 2
def cpyDsp (d : List W64) : Nat := cpyField d 7 2 2
def cpyEsz (d : List W64) : Nat := 2 ^ cpyField d 7 4 2
def cpyIdx (d : List W64) : Nat := if cpyField d 7 6 1 = 1 then 8 else 4
def cpyAop (d : List W64) : Nat := cpyField d 7 7 3

/-- R234: ILLEGAL-OPERAND of a descriptor. -/
def cpyBad (k : EngineKind) (d : List W64) : Bool :=
  let idxa := cpyField d 2 0 64 ≠ 0
  let rows := cpyRows d ≠ 0
  let strides := cpyField d 5 0 64 ≠ 0 || cpyField d 6 0 64 ≠ 0
  let esz := cpyField d 7 4 2 ≠ 0
  let idx64 := cpyField d 7 6 1 ≠ 0
  let aop := cpyAop d ≠ 0
  cpyField d 3 41 23 ≠ 0 || cpyField d 4 32 32 ≠ 0 || cpyField d 7 10 54 ≠ 0 || 2 ^ 40 < cpyLen d || 2 ≤ cpySsp d || 2 ≤ cpyDsp d ||
  match k with
  | .cpy => idxa || rows || strides || esz || idx64 || aop
  | .cpym => idxa || esz || idx64 || aop
  | .gather => rows || strides || aop
  | .scata => rows || strides || 4 ≤ cpyAop d || cpyEsz d ≠ (if cpyAop d = 1 then 8 else if cpyAop d = 3 then 2 else 4)

/-- The lowest cause of two failures (R301). -/
def lowerTrap (a b : TrapInfo) : TrapInfo := if b.cause < a.cause then b else a

/-- R232, R234: an engine form: descriptor and signal checks, a free entry, and the operation queued. Where both addresses fail with one
cause, TADDR is the signal's (log entry 33). -/
def engForm (i : Instr) (k : EngineKind) (s : State) : Host.Outcome State Fault Refusal :=
  runIssue i s fun x s =>
    if x.active = 0#64 then .ok s
    else
      let off := (x.a x.low).toNat
      let low := maskOf (· == x.low)
      let sig : Option Nat := if x.f.b.toNat = 0x678 then none else some (x.b x.low).toNat
      let chk : LaneChk := match sig with
        | none => .ok [] s
        | some a => plainCheck s x.who x.task.rec_ x.low a 8 8 .write .write false
      match chk with
      | .miss s => .wait .walk s
      | .fail c a s =>
        let t : TrapInfo := { cause := c, tmask := x.active, taddr := a, thit := low, tpc := none }
        match readBlock x s off with
        | .wait why s => .wait why s
        | .trap u s => .trap (lowerTrap t u) s
        | .ok d again s => settledTrap again (if cpyBad k d then .plain 0x11 x.set (w64 off) else t) s
      | .ok _ s =>
        match readBlock x s off with
        | .wait why s => .wait why s
        | .trap u s => .trap u s
        | .ok d again s =>
          if cpyBad k d then settledTrap again (.plain 0x11 x.set (w64 off)) s
          else if 1024 ≤ (s.engine.filter fun e => e.2.core == x.ref.core).length then .wait .engineFull s
          else
            let op : EngineOp :=
              { kind := k, core := x.ref.core, team := x.who.team, half := x.who.half, g := x.ref, ctx := x.who.ctx,
                slot := x.who.slot, index := x.who.index, desc := d, sig, behind := behindOf s x.ref, elem := 0, fault := 0, faultAddr := 0,
                thr := 2 ^ 31 + x.g.index * x.g.width + x.low, seq := KMap.get x.g.seq 0 x.low, stopped := false,
                peerWait := false, buf := none, touched := false, claims := [], stamp := s.issueCtr, again := again.map fun n => (n, off),
                recheck := none }
            let s := { s with engine := KMap.put s.engine s.nextEngine op, nextEngine := s.nextEngine + 1 }
            -- R369: an issue of an engine form counts in the sequence of every thread that issued it
            .ok (countBlock x (x.mapGang s fun g =>
              { g with seq := x.lanes.foldl (fun m l => KMap.set m 0 l (KMap.get m 0 l + 1)) g.seq }) off again)
/-- R233: CPY. -/
def execCpy (f : Fields) (s : State) : Host.Outcome State Fault Refusal := engForm (.cpy f) .cpy s
/-- R233: CPYM. -/
def execCpym (f : Fields) (s : State) : Host.Outcome State Fault Refusal := engForm (.cpym f) .cpym s
/-- R233: GATHER. -/
def execGather (f : Fields) (s : State) : Host.Outcome State Fault Refusal := engForm (.gather f) .gather s
/-- R233: SCATA. -/
def execScata (f : Fields) (s : State) : Host.Outcome State Fault Refusal := engForm (.scata f) .scata s

/-! ### Elements -/

/-- R233: the elements of an operation. -/
def engTotal (op : EngineOp) : Nat := if op.kind = .cpym then cpyRows op.desc * cpyLen op.desc else cpyLen op.desc
/-- The engine thread as a party of its team (R235). -/
def engWho (op : EngineOp) : Who :=
  sideWho op.core op.ctx op.slot op.team op.index op.half
/-- R236, R279: the checks of n bytes of an element in scratchpad or at a virtual address. -/
def engCheck (s : State) (w : Who) (r : TaskRec) (scratch : Bool) (va n align : Nat) (acc : Access) (peerOk : Bool) : LaneChk :=
  if scratch then
    localCheck s w r none w.half true { lane := 0, va, size := n, kind := if acc = .read then .read else .write, align, peerOk := false }
  else plainCheck s w r 0 va n align acc acc peerOk
/-- An address in an element's array, modulo 2^64. -/
def engAddr (d : List W64) (k off : Nat) : Nat := ((d.getD k 0#64).toNat + off) % 2 ^ 64

/-- The outcome of the checks of all accesses of an element. -/
inductive ElemChk where
  | wait (s : State)
  | fail (cause addr : Nat) (s : State)
  | ok (src dst : List LaneAcc) (s : State)

/-- Source and destination of an element checked, before any access of it. -/
def elemCheck (s : State) (op : EngineOp) (w : Who) (r : TaskRec) (src dst n : Nat) (peerOk : Bool) : ElemChk :=
  match engCheck s w r (cpySsp op.desc == 1) src n n .read peerOk with
  | .miss s => .wait s
  | .fail c a s => .fail c a.toNat s
  | .ok sa s => match engCheck s w r (cpyDsp op.desc == 1) dst n n .write peerOk with
    | .miss s => .wait s
    | .fail c a s => .fail c a.toNat s
    | .ok da s => .ok sa da s

/-- R291, R295, R366: the accesses of one side of an element touch their pages: whether they are unclassified (those to a peer window, and
of a scratchpad side those to a stash line of a page that became shared, among them), and the pages they claim; none while some touch
waits. -/
def elemTouch (s : State) (w : Who) (write force scratch : Bool) (accs : List LaneAcc) : Option (Bool × List Nat) × State :=
  let became := scratch && accs.any fun a => a.space == .global
  match touchPages s w.slot w.index w.owner write (force || became || accs.any (·.peer.isSome)) false (globalPages accs) with
  | .wait _ s => (none, s)
  | .go unc claims s => (some (unc, claims), s)

/-- Words that bytes cover become poisoned, by their place (R236). -/
def taintAcc (s : State) (w : Who) (a : LaneAcc) (bad : Nat → Bool) : State :=
  (List.range a.size).foldl (fun s i =>
    if !bad i then s
    else match a.space with
      | .scratch h => match s.team? w.team with
        | some t => match t.half? h with
          | some x => s.setTeam w.team (t.setHalf h { x with poison := BitSet.put x.poison ((a.va + i) / 4) true })
          | none => s
        | none => s
      | _ => if a.peer.isSome then s else { s with memPoison := BitSet.put s.memPoison ((a.pa + i) / 4) true }) s

/-- R368: the global address of an access of an element, for its digest term. -/
def digestAddr (s : State) (w : Who) (a : LaneAcc) : Option Nat := match a.space with
  | .scratch _ => stashGlobal s w a
  | _ => some a.va

/-- R368, R369: the term of an element's write or add. -/
def foldElem (s : State) (op : EngineOp) (w : Who) (r : TaskRec) (a : LaneAcc) (size kind : Nat) (val : Nat) : State :=
  if !r.digest then s
  else match digestAddr s w a with
    | some va => foldTerms s w op.thr op.seq [(va, size, kind, w64 val)]
    | none => s

/-- R433, R434: the number of an access that an element sends, in the order of the module's issues. -/
def State.nextStamp (s : State) : State := { s with issueCtr := s.issueCtr + 1 }

/-- An engine operation's record changed. -/
def setEngine (s : State) (id : Nat) (op : EngineOp) : State := { s with engine := KMap.put s.engine id op }
/-- R417: a line moved by the engine. -/
def engLines (s : State) (op : EngineOp) (dst : Nat) : State :=
  if op.elem = 0 || dst % 128 = 0 || op.kind = .gather || op.kind = .scata then s.bump .englines op.core else s

/-- R233: source, destination and size of the element of an operation, given its index. -/
def elemPlan (op : EngineOp) (x : Nat) : Nat × Nat × Nat :=
  let d := op.desc
  let k := op.elem
  let n := cpyEsz d
  match op.kind with
  | .cpy => (engAddr d 0 k, engAddr d 1 k, 1)
  | .cpym =>
    let t := k / cpyLen d
    let u := k % cpyLen d
    (engAddr d 0 (t * (d.getD 5 0#64).toNat + u), engAddr d 1 (t * (d.getD 6 0#64).toNat + u), 1)
  | .gather => (engAddr d 0 (x * n), engAddr d 1 (k * n), n)
  | .scata => (engAddr d 0 (k * n), engAddr d 1 (x * n), n)

/-- R233: forms whose elements read an index. -/
def engIndexed (k : EngineKind) : Bool := k == .gather || k == .scata
/-- The index that an element has read, and the bytes it has read after it. -/
def engIndex (op : EngineOp) (b : List (Byte × Bool)) : Nat × List (Byte × Bool) :=
  if engIndexed op.kind then (leVal ((b.take 8).map Prod.fst), b.drop 8) else (0, b)

/-- R236: an operation ends at its element with a cause; one that already ends with another keeps that. -/
def elemFail (s : State) (id : Nat) (op : EngineOp) (c a : Nat) : State :=
  setEngine s id { op with buf := none, claims := [], fault := if op.fault ≠ 0 then op.fault else c, faultAddr := if op.fault ≠ 0 then op.faultAddr else a }

/-- The next element of an operation. -/
def elemNext (s : State) (id : Nat) (op : EngineOp) : State :=
  setEngine s id { op with elem := op.elem + 1, buf := none, peerWait := false, touched := true, claims := [] }

/-- R384: what an element's accesses cost its core's port: unclassified ones cross it. -/
def elemCross (s : State) (w : Who) (unc : Bool) (accs : List LaneAcc) : State := if unc then crossAccs s w accs else s

/-- R236: a source word read by an element, its stash line filled (R221), correctable errors corrected, its line held (R283). -/
def elemRead (s : State) (w : Who) (unc : Bool) (claims : List Nat) (accs0 : List LaneAcc) : List (Byte × Bool) × State :=
  let r := stashAll s w false accs0
  let s := r.1.foldl (fun s a => correctAcc s w a) (elemCross r.2 w unc r.1)
  (r.1.flatMap (readAcc s w 0), fillAccs s w unc claims r.1)

/-- R233: the read of an element's index. -/
def elemReadIndex (s : State) (id : Nat) (op : EngineOp) (r : TaskRec) : State :=
  let w := engWho op
  let ia := engAddr op.desc 2 (op.elem * cpyIdx op.desc)
  match plainCheck s w r 0 ia (cpyIdx op.desc) (cpyIdx op.desc) .read .read false with
  | .miss s => s
  | .fail c a s => elemFail s id op c a.toNat
  | .ok xs s =>
    match elemTouch s w false false false xs with
    | (none, s) => s
    | (some t, s) =>
      let b := elemRead s w t.1 t.2 xs
      let op := { op with touched := true }
      -- R236: a poisoned index names no address
      if b.1.any Prod.snd then elemFail b.2 id op 0x02 ia
      else setEngine b.2.nextStamp id
        { op with buf := some ((leBytes 8 (leVal (b.1.map Prod.fst))).map (·, false)), stamp := s.issueCtr }

/-- R233, R236: the checks of an element, the touches of its pages, and the read of its source, locally or at a peer; pre is the index
that it has read. -/
def elemReadSrc (s : State) (id : Nat) (op : EngineOp) (r : TaskRec) (pre : List (Byte × Bool)) : State :=
  let w := engWho op
  let p := elemPlan op (engIndex op pre).1
  match elemCheck s op w r p.1 p.2.1 p.2.2 (!engIndexed op.kind) with
  | .wait s => s
  | .fail c a s => elemFail s id op c a
  | .ok sa da s =>
    match elemTouch s w false false (cpySsp op.desc == 1) sa with
    | (none, s) => s
    | (some src, s) => match elemTouch s w true (op.kind == .scata) (cpyDsp op.desc == 1) da with
      | (none, s) => s
      | (some dst, s) =>
        let op := { op with touched := true, claims := dst.2 }
        match (sa.head?).bind LaneAcc.peer with
        | some (win, off) =>
          sendPeer (setEngine (elemCross s w true sa) id { op with peerWait := true }) { peerReqAt s win off .read p.2.2 [] [] with engine := some id }
        | none =>
          let b := elemRead s w src.1 src.2 sa
          setEngine b.2.nextStamp id { op with buf := some (pre ++ b.1), stamp := s.issueCtr }

/-- R233, R236: a copied element written to its destination, locally or at a peer. -/
def elemPut (s : State) (id : Nat) (op : EngineOp) (w : Who) (r : TaskRec) (unc : Bool) (a : LaneAcc) (bs : List (Byte × Bool)) : State :=
  let s := elemCross s w unc [a]
  match a.peer with
  | some (win, off) =>
    sendPeer (setEngine s id { op with peerWait := true }) { peerReqAt s win off .write a.size (bs.map Prod.fst) [] with engine := some id }
  | none =>
    let s := engLines s op a.va
    let s := match a.space with
      | .scratch _ => s
      | _ => noteStore s op.slot a.pa a.size
    let s := storeAcc s w unc op.claims { a with data := bs.map Prod.fst }
    let s := taintAcc s w a fun i => (bs.getD i (0#8, false)).2
    elemNext (foldElem s op w r a a.size 0 (leVal (bs.map Prod.fst))) id op

/-- R233: the new word of a SCATA add. -/
def scataNew (aop n old x : Nat) : Nat :=
  if aop = 2 then atomNew 8 0 old x else if aop = 3 then rowSum old x else (old + x) % 2 ^ (8 * n)

/-- R233, R236: the add of a SCATA element, one event at its home. -/
def elemAdd (s : State) (id : Nat) (op : EngineOp) (w : Who) (r : TaskRec) (a : LaneAcc) (bs : List (Byte × Bool)) : State :=
  let n := a.size
  let x := leVal (bs.map Prod.fst)
  let s := correctAcc (engLines (elemCross s w true [a]) op a.va) w a
  let s :=
    if bs.any Prod.snd then taintAcc (recallLines s a.pa (if a.space == .global then n else 0) (.of op.ctx)) w a fun _ => true
    else
      let ev := match a.space with
        | .scratch h => scratchEvent s op.team h a.va n fun old => scataNew (cpyAop op.desc) n old x
        | _ => homeEvent (noteStore s op.slot a.pa n) a.pa n (fun old => scataNew (cpyAop op.desc) n old x) (.of op.ctx)
      if ev.2.1 then rowPoison ev.2.2 op.ctx op.slot a.va op.core else ev.2.2
  elemNext (foldElem s op w r a n (12 + cpyAop op.desc) x) id op

/-- R233, R286: the write, or the add, of an element whose reads are made: its destination is translated again, as it stands now; its
page's class was settled before the element's first access (R317). -/
def elemWrite (s : State) (id : Nat) (op : EngineOp) (r : TaskRec) (b : List (Byte × Bool)) : State :=
  let w := engWho op
  let p := elemPlan op (engIndex op b).1
  match engCheck s w r (cpyDsp op.desc == 1) p.2.1 p.2.2 p.2.2 .write (!engIndexed op.kind) with
  | .miss s => s
  | .fail c a s => elemFail s id op c a.toNat
  | .ok da s =>
    let t := stashAll s w true da
    match t.1 with
    | [] => s
    | a :: _ =>
      let shared : Bool := a.space == .global && (op.claims.contains (a.va / 4096) || match s.task? op.slot with
        | some k => k.classOf (a.va / 4096) == .shared
        | none => true)
      if op.kind = .scata then elemAdd t.2 id op w r a (engIndex op b).2
      else elemPut t.2 id op w r (a.peer.isSome || shared) a (engIndex op b).2

/-- R233, R286: the next access of an operation's element: the index, the source, the destination; a descriptor whose words, read again,
differ is checked first, and ends the operation where it is at fault (log entry 74). -/
def engStep (s : State) (id : Nat) (op : EngineOp) (r : TaskRec) : State :=
  match op.recheck, op.buf with
  | some off, _ =>
    if cpyBad op.kind op.desc then elemFail s id { op with recheck := none } 0x11 off else setEngine s id { op with recheck := none }
  | none, none => if engIndexed op.kind then elemReadIndex s id op r else elemReadSrc s id op r []
  | none, some b => if (engIndex op b).2.isEmpty then elemReadSrc s id op r b else elemWrite s id op r b

/-- R297 step 3, R317: the virtual address that an element whose source is read, or is read at a peer, still has to write. -/
def engDest (op : EngineOp) : Option Nat :=
  let full : Bool := match op.buf with
    | some b => !(engIndex op b).2.isEmpty
    | none => op.peerWait
  if full && cpyDsp op.desc ≠ 1 then some (elemPlan op (engIndex op (op.buf.getD [])).1).2.1 else none

/-- R236: whether an operation has no element left to perform; one whose descriptor is read again has not begun. -/
def engEnded (op : EngineOp) : Bool :=
  !op.peerWait && op.buf.isNone && op.again.isNone && op.recheck.isNone && (op.fault ≠ 0 || op.stopped || engTotal op ≤ op.elem)

/-- R432 step 3: whether the next access of an element that has begun goes to a die that has cut, where it is held: its source, or where it
writes once it is read. -/
def elemHeld (s : State) (op : EngineOp) : Bool :=
  let p := elemPlan op (engIndex op (op.buf.getD [])).1
  let writes := (engDest op).isSome
  match KMap.get? s.dumps op.ctx with
  | some d => (writes || cpySsp op.desc ≠ 1) && (ownPlace s op.ctx (if writes then p.2.1 else p.1)).any fun x =>
      if homeDie x.1 (pteBit x.2 8) = 0 then d.cut0 else d.cut1
  | none => false

/-- R233: the copy engine performs the next element of an operation. -/
def execEngineElement (id : Nat) (s : State) : Host.Outcome State Fault Refusal :=
  match KMap.get? s.engine id with
  | none => .next s
  | some op => match s.task? op.slot with
    | none => .next s
    | some t =>
      -- an element that has begun is finished: operations stop at its boundary (R432)
      let stops := (standsStill s op.core op.ctx && !(s.halted && op.stopped)) ||
        (if op.buf.isNone then issueStops s op.core op.ctx || anyStop s op.ctx else elemHeld s op)
      .next (if stops || op.peerWait || op.again.isSome || engEnded op || stillBehind s op.g op.behind then s
        else engStep s id op t.rec_)

/-- R235, R236, R295, R366: the touch of its page that an operation's signal update makes; one that fails touches nothing. -/
def signalTouch (s : State) (op : EngineOp) : Touched :=
  match op.sig with
  | none => .go false [] s
  | some sig => match signalPlace s op sig with
    | .ok _ => touchPages s op.slot op.index (ownerOf op.index op.half) true true false [sig / 4096]
    | .error _ => if (s.task? op.slot).any fun t => lowerLive s op.slot t op.index then .wait .lowerTeam s else .go true [] s

/-- R235, R236, R366: an ended operation makes its signal update and leaves the queue. -/
def execEngineSignalUpdate (id : Nat) (s : State) : Host.Outcome State Fault Refusal :=
  match KMap.get? s.engine id with
  | none => .next s
  | some op =>
    let holds := issueStops s op.core op.ctx && !(s.halted && op.stopped)
    if holds || anyStop s op.ctx || !engEnded op || stillBehind s op.g op.behind then .next s
    else
      match signalTouch s op with
      | .wait _ s => .next s
      | .go _ _ s =>
        let s := engineFinish s op op.fault op.faultAddr
        .next (tryEnd (retireReady { s with engine := KMap.del s.engine id } op.slot) op.slot)

/-! ### Signal and barrier objects -/

/-- R249, R428: the cause WATCH-SYNC of an issue. -/
def watchSync (x : Iss) (obj : W64) : TrapInfo :=
  { cause := 0x29, tmask := x.active, taddr := obj, thit := x.active, tpc := some (x.pc + 12#64) }

/-- Whether some condition of an armed watchpoint names an object. -/
def watched (s : State) (ctx okind : Nat) (obj : W64) : Bool :=
  (List.range 3).any fun c => syncWatch s ctx okind c obj fun _ => true

/-- R428: whether an event that changed a word from old to new meets a condition. -/
def eventHit (s : State) (x : Iss) (obj : W64) (old new : Nat) : Bool :=
  let hit (okind cond : Nat) (last : Nat → Bool) : Bool := syncWatch s x.who.ctx okind cond obj last
  let crosses (t : Nat) : Bool := sigCount old < t && t ≤ sigCount new
  match x.i with
  | .sigs _ => hit 3 0 (fun _ => true) || hit 3 1 crosses
  | .sigt _ => (sigCount old ≠ sigCount new && hit 3 0 fun _ => true) || hit 3 1 crosses
  | .boa _ => hit 2 0 (fun _ => true) || (boaNew old).any fun n => n / 2 ^ 63 ≠ old / 2 ^ 63 && hit 2 1 fun _ => true
  | _ => false

/-- R238, R248: the checks of an object's address. -/
def objCheck (x : Iss) (s : State) (perm decl : Access) (barrier : Bool) : LaneChk :=
  let a := (x.a x.low).toNat
  match plainCheck s x.who x.task.rec_ x.low a 8 8 perm decl false with
  | .miss s => .miss s
  | .fail c t s => if barrier && !x.task.rec_.coresident && c > 0x21 then .fail 0x21 (w64 a) s else .fail c t s
  | .ok accs s => if barrier && !x.task.rec_.coresident then .fail 0x21 (w64 a) s else .ok accs s

/-- R239, R240, R246: a form that makes one event at an object's home. An event on a watched object is made before the gang goes
on, so that its cause is taken at the next instruction (R249). -/
def eventForm (i : Instr) (s : State) (barrier : Bool) (okind : Nat) (data : Iss → W64) (ws : Iss → List RegWrite) :
    Host.Outcome State Fault Refusal :=
  runIssue i s fun x s =>
    if x.active = 0#64 then .ok s
    else if ((s.gang? x.ref).bind Gang.unclass).isSome then .wait .unclassified s
    else match objCheck x s .write .write barrier with
    | .miss s => .wait .walk s
    | .fail c a s => .trap { cause := c, tmask := x.active, taddr := a, thit := maskOf (· == x.low), tpc := none } s
    | .ok accs0 s =>
      let accs := accs0.map fun a => { a with data := leBytes 8 (data x).toNat }
      let obj := x.a x.low
      if watched s x.who.ctx okind obj && !x.g.inh then
        if crossHeld s x.who.ctx { i, active := x.active, accs, got := [], desc := 0#64, fill := 0 } then .wait .unclassified s else
        match touchPages s x.who.slot x.who.index x.who.owner true true false (globalPages accs) with
        | .wait why s => .wait why s
        | .go _ claims s =>
          let pa := (accs.headD { lane := 0, space := .global, va := 0, pa := 0, size := 8, peer := none, data := [], data2 := [], leaf := 0#64 }).pa
          let old := memNat s pa 8
          let op : PendOp := { i, active := x.active, accs, got := [], desc := 0#64, fill := x.g.nextFill, claims, stamp := s.issueCtr }
          let r := performOp (crossAccs s x.who accs) x.who op true
          let new := memNat r.s pa 8
          let s' := x.mapGang r.s fun g => countUnclass (g.startOp .ready r.writes)
          .done s' { after := if !memPoisoned s pa 8 && eventHit s x obj old new then some (watchSync x obj) else none }
      else issueAccs x s true true accs (ws x)
/-- R239: SIGT. -/
def execSigt (f : Fields) (s : State) : Host.Outcome State Fault Refusal :=
  eventForm (.sigt f) s false 3 (fun x => x.b x.low) fun x => x.dWrites fun _ => 0#64
/-- R240: SIGS. -/
def execSigs (f : Fields) (s : State) : Host.Outcome State Fault Refusal :=
  eventForm (.sigs f) s false 3 (fun x => x.b x.low) fun _ => []
/-- R246: BOA. -/
def execBoa (f : Fields) (s : State) : Host.Outcome State Fault Refusal :=
  eventForm (.boa f) s true 2 (fun _ => 0#64) fun _ => []

/-- R238, R247: a form that waits at an object: its unclassified issue is in flight until the completing read. -/
def waitForm (i : Instr) (s : State) (decl : Access) (barrier : Bool) (data : Iss → W64) (block : PendOp → Block) :
    Host.Outcome State Fault Refusal :=
  runIssue i s fun x s =>
    if x.active = 0#64 then .ok s
    else if ((s.gang? x.ref).bind Gang.unclass).isSome then .wait .unclassified s
    else match objCheck x s .read decl barrier with
    | .miss s => .wait .walk s
    | .fail c a s => .trap { cause := c, tmask := x.active, taddr := a, thit := maskOf (· == x.low), tpc := none } s
    | .ok accs0 s =>
      let accs := accs0.map fun a => { a with data := leBytes 8 (data x).toNat }
      match touchPages s x.who.slot x.who.index x.who.owner false true false (globalPages accs) with
      | .wait why s => .wait why s
      | .go _ _ s =>
        if breakLanes s x ≠ 0#64 then .ok s
        else
          let op : PendOp := { i, active := x.active, accs, got := [], desc := 0#64, fill := x.g.nextFill, stamp := s.issueCtr }
          .wait .fills (x.mapGang s fun g => countUnclass { g with unclass := some op, block := some (block op) })
/-- R238: SIGW. -/
def execSigw (f : Fields) (s : State) : Host.Outcome State Fault Refusal :=
  waitForm (.sigw f) s .read false (fun x => x.b x.low) .signal
/-- R247: BOW. -/
def execBow (f : Fields) (s : State) : Host.Outcome State Fault Refusal :=
  waitForm (.bow f) s .write true (fun _ => 0#64) .object

/-- R238, R247, R453: the read of a waiting form at the home. done says whether a word completes it, flip whether that meets a
FLIP watchpoint, and keep what the gang keeps of it. -/
def objectRead (s : State) (ref : GangRef) (op : PendOp) (okind : Nat) (done flip : Nat → Bool) (keep : Gang → Gang) : State :=
  match op.accs, s.gang? ref, s.who ref with
  | a :: _, some g, some w =>
    if issueStops s ref.core w.ctx || crossHeld s w.ctx op then s
    else
      let s1 := correctMem (recallLines (crossAccs s w op.accs) a.pa 8 (.of w.ctx)) (homeDie a.pa (pteBit a.leaf 8)) a.pa 8
      let g0 := { g with block := none, unclass := none }
      match againIss (s1.setGang ref g0) ref op.i op.active with
      | none => s
      | some x =>
        let free := s1.setGang ref x.g
        if memPoisoned s1 a.pa 8 then
          trapIssue free x.i x.f ref x.who x.task x.pc x.set x.active
            { cause := 0x02, tmask := x.active, taddr := w64 a.va, thit := x.active, tpc := none }
        else
          let v := memNat s1 a.pa 8
          if done v then
            let hit := !g.inh && flip v && syncWatch s1 w.ctx okind 2 (w64 a.va) fun _ => true
            commitIssue x (x.mapGang free keep) { after := if hit then some (watchSync x (w64 a.va)) else none }
          else s
  | _, _, _ => s

/-- R238: a waiting SIGW reads its signal object. -/
def execSigwComplete (ref : GangRef) (s : State) : Host.Outcome State Fault Refusal :=
  match (s.gang? ref).bind Gang.block with
  | some (.signal op) =>
    let b := ((op.accs.head?).map fun a => leVal a.data % 2 ^ 48).getD 0
    .next (objectRead s ref op 3 (fun v => sigErr v ≠ 0 || b ≤ sigCount v) (fun _ => true) id)
  | _ => .next s

/-- R247: a waiting BOW reads its barrier object. -/
def execBowComplete (ref : GangRef) (s : State) : Host.Outcome State Fault Refusal :=
  match (s.gang? ref).bind Gang.block, s.gang? ref with
  | some (.object op), some g =>
    let a := w64 (((op.accs.head?).map LaneAcc.va).getD 0)
    let rec_ := g.arrivals.find? fun r => r.1 == a
    let changed (v : Nat) : Bool := match rec_ with
      | some r => (v / 2 ^ 63 == 1) != r.2
      | none => false
    .next (objectRead s ref op 2 (fun v => rec_.isNone || changed v) changed fun g => { g with arrivals := g.arrivals.filter fun r => r.1 ≠ a })
  | _, _ => .next s

/-! ### Team barriers -/

/-- The ARR bit of the issuing gang (R241). -/
def arrived (s : State) (x : Iss) (b : Nat) : Bool :=
  match s.team? x.who.team with
  | some t => (KMap.get t.arr 0#128 b).getLsbD x.g.index
  | none => false
/-- R241: the gang's ARR bit set. -/
def setArr (s : State) (x : Iss) (b : Nat) : State :=
  match s.team? x.who.team with
  | some t => s.setTeam x.who.team { t with arr := KMap.set t.arr 0#128 b (KMap.get t.arr 0#128 b ||| BitVec.ofNat 128 (2 ^ x.g.index)) }
  | none => s

/-- R241 to R243: an arrival, and for BARS the wait that follows; WATCH-SYNC is taken once the form has had its effect. -/
def arriveForm (i : Instr) (b : Nat) (waits : Bool) (s : State) : Host.Outcome State Fault Refusal :=
  runIssue i s fun x s =>
    if x.active = 0#64 then .ok s
    else if arrived s x b then .wait .barrier s
    else if ((s.gang? x.ref).bind Gang.unclass).isSome then .wait .unclassified s
    else
      let s := setArr s x b
      let full : Bool := match s.team? x.who.team with
        | some t => barrierComplete t b
        | none => false
      let obj := barrierObj x.task.rec_.taskid b
      let hit (cond : Nat) : Bool := !x.g.inh && syncWatch s x.who.ctx 1 cond obj fun _ => true
      let t := watchSync x (w64 b)
      if full then
        .done (checkBarrier s x.who.team b) { after := if hit 0 || hit 1 || (waits && hit 2) then some t else none }
      else if waits then
        .ok (x.mapGang s fun g => { g with block := some (.barrier b),
                                           syncDue := if hit 0 then some (w64 b, x.pc + 12#64, x.active) else none })
      else .done s { after := if hit 0 then some t else none }
/-- R242: BARS. -/
def execBars (f : Fields) (s : State) : Host.Outcome State Fault Refusal := arriveForm (.bars f) (f.imm.toNat % 16) true s
/-- R242: BARA. -/
def execBara (f : Fields) (s : State) : Host.Outcome State Fault Refusal := arriveForm (.bara f) (f.imm.toNat % 16) false s
/-- R242: BARW. -/
def execBarw (f : Fields) (s : State) : Host.Outcome State Fault Refusal :=
  runIssue (.barw f) s fun x s =>
    if x.active ≠ 0#64 && arrived s x (f.imm.toNat % 16) then
      .ok (x.mapGang s fun g => { g with block := some (.barrier (f.imm.toNat % 16)) })
    else .ok s

/-! ### The carve-out -/

/-- R244: CARVE. -/
def execCarve (f : Fields) (s : State) : Host.Outcome State Fault Refusal :=
  runIssue (.carve f) s fun x s =>
    if x.active = 0#64 then .ok s
    else match s.team? x.who.team with
    | none => .ok s
    | some t =>
      let a := (x.a x.low).toNat
      let spu := bits a 0 16
      let l1u := bits a 16 16
      let h := t.halves.headD ⟨0, [], [], [], [], []⟩
      let now (st : Nat) : Res := .ok (x.fill s (x.dWrites fun _ => carveStatus h.l1Units.length h.scratchUnits.length st))
      if t.carve.isSome then now 2
      else if bits a 32 32 ≠ 0 || l1u = 0 || x.task.rec_.regu + spu + l1u > 256 then now 3
      else
        let id := ((s.gang? x.ref).map Gang.nextFill).getD 0
        let s := s.setTeam x.who.team { t with carve := some { g := x.ref, fill := id, spu, l1u } }
        .ok (x.mapGang s fun g => g.startFill .awaits (x.dWrites fun _ => 0#64) 0#5 false)

end Sys2Proof.Machine
end

