-- ==== Sys2Proof/Machine/MemEvents.lean ====
section
/-! DEFINITION. The happenings of memory: unclassified issues completing, pages changing class, peer accesses completing, walks
returning and pages migrating (R277, R289, R292, R296 to R299, R356 to R360, R391, R398). -/

namespace Sys2Proof.Machine

/-! ### Page classes -/

/-- R297: the reclassification of a page private to a team. -/
def execPageReclassify (slot page : Nat) (s : State) : Host.Outcome State Fault Refusal :=
  match s.task? slot with
  | none => .next s
  | some t =>
    let priv : Bool := match t.classOf page with
      | .priv _ => true
      | _ => false
    .next (if priv && t.reclassing.contains page && !pageBusy s engDest slot page && !anyCut s t.ctx then makeShared s slot page else s)

/-- R298: the reclassification of a read-only page; teams that have waited for it to write their stash lines back retire. -/
def execReadonlyToShared (slot page : Nat) (s : State) : Host.Outcome State Fault Refusal :=
  match s.task? slot with
  | none => .next s
  | some t =>
    .next (if t.classOf page = .readOnly && t.reclassing.contains page && !pageBusy s engDest slot page && !anyCut s t.ctx then
        retireReady (makeShared s slot page) slot
      else s)

/-! ### Peer accesses -/

/-- The bytes of an answer at the size asked for. -/
def fitBytes (n : Nat) (bs : List Byte) : List Byte := (bs ++ List.replicate n 0#8).take n

/-- R225, R292: the accesses of an issue with the answers put in. -/
def putAnswers : List LaneAcc → List (List Byte × Bool) → List LaneAcc
  | [], _ => []
  | a :: t, got =>
    if a.peer.isSome then { a with data2 := (got.headD ([], false)).1, bad := (got.headD ([], false)).2 } :: putAnswers t (got.drop 1)
    else a :: putAnswers t got

/-- Whether a party's team was killed or stopped (R314). -/
def partyDying (s : State) (w : Who) : Bool := ((s.team? w.team).map Team.dying).getD false

/-- R314 step 3: an issue of a killed team whose peer accesses are answered: its own accesses are performed, and its gang leaves. -/
def peerLeave (s : State) (ref : GangRef) (w : Who) (op : PendOp) : State :=
  let mine := op.accs.filter fun a => a.peer.isNone
  leaveGang (performOp (crossAccs s w mine) w { op with accs := mine } true).s w.slot ref

/-- R292, R398: a gang's issue whose peer accesses are all answered and whose pages are touched is performed and commits. -/
def peerCommit (s : State) (ref : GangRef) (g : Gang) (w : Who) (op : PendOp) : State :=
  if partyDying s w then peerLeave s ref w op
  else
    let g0 := { g with block := none, unclass := none }
    match againIss (s.setGang ref g0) ref op.i op.active with
    | none => s.setGang ref g0
    | some x =>
      let s := crossAccs (foldIssue (s.setGang ref x.g) x op.accs) w op.accs
      let r := performOp s w { op with accs := putAnswers op.accs op.got } true
      commitIssue x (x.mapGang r.s fun g => g.startOp .ready r.writes) {}

/-- R409, R432: whether a gang that waits for a peer stands still; one of a killed team goes on after a module-fatal error. -/
def peerStill (s : State) (ref : GangRef) (w : Who) : Bool :=
  if s.halted && partyDying s w then false else standsStill s ref.core w.ctx

/-- R292, R296, R398: what an issue that waits for a peer does next: it sends the request of its next access; once all are answered it no
longer traps: it touches its pages, waits while any of them is reclassified, and commits. -/
def peerFinish (s : State) (ref : GangRef) : State :=
  match s.gang? ref, s.who ref with
  | some g, some w => match g.block, g.unclass with
    | some .peer, some op =>
      if peerStill s ref w then s
      else if peerOpen op then
        if s.peers.any fun e => e.2.gang == some ref then s
        else match peerRequest s op ref with
          | some q => sendPeer s q
          | none => s
      else if crossHeld s w.ctx op then s
      else match touchPages s w.slot w.index w.owner (!onlyReads op.i) true false (globalPages op.accs) with
        | .wait _ s => s
        | .go _ claims s => peerCommit s ref g w { op with claims }
    | _, _ => s
  | _, _ => s

/-- R398: an issue that holds its gang traps at one of its accesses; in a killed team its gang leaves (R314). -/
def accTrap (s : State) (ref : GangRef) (g : Gang) (op : PendOp) (cause : Nat) (a : LaneAcc) : State :=
  let free := s.setGang ref { g with block := none, unclass := none }
  match s.who ref with
  | some w =>
    if partyDying s w then leaveGang free w.slot ref
    else match againIss free ref op.i op.active with
      | some x =>
        trapIssue (s.setGang ref x.g) x.i x.f ref x.who x.task x.pc x.set x.active
          { cause, tmask := x.active, taddr := w64 a.va, thit := maskOf (· == a.lane), tpc := none }
      | none => free
  | none => free

/-- R398: a negative acknowledgement of a gang's access: PROTECTION at the access. -/
def peerTrap (s : State) (ref : GangRef) (g : Gang) (op : PendOp) : State :=
  match (op.accs.filter fun a => a.peer.isSome).drop op.got.length with
  | a :: _ => accTrap s ref g op 0x21 a
  | [] => s.setGang ref { g with block := none, unclass := none }

/-- R225, R398: the answer to a gang's request. -/
def peerGang (s : State) (ref : GangRef) (r : PeerReq) (ans : PeerAnswer) (data : List Byte) : State :=
  match s.gang? ref with
  | some g => match g.block, g.unclass with
    | some .peer, some op =>
      if ans = .refused then peerTrap s ref g op
      else
        let op := { op with got := op.got ++ [if r.kind = .write then ([], false) else (fitBytes r.size data, ans == .poisoned)] }
        peerFinish (s.setGang ref { g with unclass := some op }) ref
    | _, _ => s
  | none => s

/-- R236, R398: the answer to an engine element's request; a poisoned source byte stays poisoned. -/
def peerEngine (s : State) (id : Nat) (r : PeerReq) (ans : PeerAnswer) (data : List Byte) : State :=
  match KMap.get? s.engine id with
  | none => s
  | some op =>
    let p := elemPlan op 0
    if ans = .refused then elemFail s id { op with peerWait := false } 0x21 (if r.kind = .read then p.1 else p.2.1)
    else if r.kind = .read then
      setEngine s.nextStamp id { op with peerWait := false, buf := some ((fitBytes 1 data).map (·, ans == .poisoned)), stamp := s.issueCtr }
    else
      let s := engLines s op p.2.1
      let s := match s.task? op.slot with
        | some t => if t.rec_.digest then foldTerms s (engWho op) op.thr op.seq [(p.2.1, 1, 0, w64 (leVal r.data))] else s
        | none => s
      elemNext s id op

/-- R277: a gang's unclassified issue completes; one with peer accesses, once all of them are answered (R292). -/
def execUnclassifiedIssueComplete (ref : GangRef) (s : State) : Host.Outcome State Fault Refusal :=
  match s.gang? ref, s.who ref with
  | some g, some w =>
    if peerStill s ref w || g.unclass.any (crossHeld s w.ctx) then .next s
    else .next (if g.block == some .peer then retireReady (peerFinish s ref) w.slot
      else if g.unclass.isNone || g.ownEnd then s else completeUnclass s ref)
  | _, _ => .next s

/-- R409, R432, R448: whether the party that a peer answers stands still: the answer then waits. -/
def answerWaits (s : State) (r : PeerReq) : Bool :=
  match r.gang, r.engine with
  | some g, _ => (s.who g).any (peerStill s g)
  | none, some e => (KMap.get? s.engine e).any fun op => standsStill s op.core op.ctx && !(s.halted && op.stopped)
  | none, none => false

/-- R292, R398: the response, acknowledgement or negative acknowledgement of a peer access. -/
def execPeerAccessComplete (id : Nat) (ans : PeerAnswer) (data : List Byte) (s : State) : Host.Outcome State Fault Refusal :=
  match KMap.get? s.peers id with
  | none => .next s
  | some r =>
    if answerWaits s r then .next s
    else
      let s := { s with peers := KMap.del s.peers id }
      match r.gang, r.engine with
      | some g, _ => match s.who g with
        | some w => .next (retireReady (peerGang s g r ans data) w.slot)
        | none => .next s
      | none, some e => .next (peerEngine s e r ans data)
      | none, none => .next s

/-! ### Walks -/

/-- R356: the outstanding walks of a cluster, in the order they were asked for. -/
def clusterWalks (s : State) (cluster : Nat) : List Walk := s.walks.filter fun w => w.cluster == cluster && !w.done

/-- R356: a walk of a cluster's walker returns: the leaf is cached, or the waiting access will fail. -/
def execWalkComplete (cluster ix : Nat) (s : State) : Host.Outcome State Fault Refusal :=
  match (clusterWalks s cluster)[ix]? with
  | none => .next s
  | some w =>
    match clusterWalk s cluster w.ctx (w.vpage * 4096) with
    | (some (leaf, size), s) => .next (tlbPut { s with walks := s.walks.filter (· ≠ w) } w.core w.ctx (w.vpage * 4096) leaf size)
    | (none, s) => .next { s with walks := s.walks.map fun x => if x = w then { x with done := true } else x }

/-! ### Migration -/

/-- The physical address of the leaf entry that maps an address. -/
def leafAddr (s : State) (va : Nat) : Nat → Nat → Nat → Option Nat
  | 0, _, _ => none
  | fuel + 1, level, table =>
    let idx := if level = 0 then va / 2 ^ 39 % 8192 else va / 2 ^ (39 - 9 * level) % 512
    let e := w64 (memNat s (table + 8 * idx) 8)
    if pteBit e 1 then some (table + 8 * idx) else leafAddr s va fuel (level + 1) (pteFrame e)

/-- R391, R453: the end of a COPY: the cause, if any, is logged and counted, and its signal updated unless that fails; address 0 is no
signal (log entry 100). -/
def copyFinish (s : State) (ctx : Nat) (sig : W64) (fault addr : Nat) : State :=
  engineFinish s { kind := .cpy, core := 0, team := 0, index := 0, half := 0, g := ⟨64, 0, 0⟩, ctx, slot := 128, desc := [],
                   sig := if sig = 0#64 then none else some sig.toNat, behind := none, elem := 0, fault, faultAddr := addr, thr := 0,
                   seq := 0, stopped := true, peerWait := false, buf := none, touched := true, claims := [], stamp := 0, again := none,
                   recheck := none } fault addr

/-- The entries of a range of numbers put in place of another's. -/
def moveMap {α : Type} (m : KMap α) (src dst n : Nat) : KMap α :=
  (List.filter (fun (e : Nat × α) => src ≤ e.1 && e.1 < src + n) m).foldl (fun (r : KMap α) e => KMap.put r (e.1 - src + dst) e.2)
    (List.filter (fun (e : Nat × α) => !(dst ≤ e.1 && e.1 < dst + n)) m)
/-- The bytes, poison and correctable marks of one range put in place of another's, and what fetch keeps of them (R11). -/
def moveFrames (s : State) (src dst n : Nat) : State :=
  { s with mem := moveMap s.mem src dst n, memPoison := moveMap s.memPoison (src / 4) (dst / 4) (n / 4),
           memCorr := moveMap s.memCorr (src / 4) (dst / 4) (n / 4), codeBy := moveMap s.codeBy src dst n,
           tasks := s.tasks.map fun e => (e.1, { e.2 with codeBase := moveMap e.2.codeBase src dst n }) }

/-- R360 steps 5 and 6: generations and presence of the frames of a page. -/
def newGens (s : State) (old new n : Nat) (oldDie newDie : Nat) (gen : W16) : State :=
  (List.range (n / 4096)).foldl (fun s j =>
    let o := frameKey (old + 4096 * j) oldDie
    let k := frameKey (new + 4096 * j) newDie
    let s := if isFar old then { s with absent := BitSet.put s.absent o true } else { s with gens := KMap.set s.gens 0#16 o gen }
    let s := { s with gens := KMap.set s.gens 0#16 k gen, absent := BitSet.put s.absent k false }
    if isFar new then { s with absent := BitSet.put s.absent (frameKey (new + 4096 * j) (1 - newDie)) true } else s) s

/-- R360 step 5: a leaf entry with its new FRAME, HDIE and GEN. -/
def newLeaf (leaf : W64) (new : Nat) (hdie : Bool) (gen : W16) : W64 :=
  w64 (leaf.toNat % 2 ^ 12 - (if pteBit leaf 8 then 256 else 0) + (if hdie then 256 else 0) + new + gen.toNat * 2 ^ 48)

/-- R360 step 5: the leaf entries of a page rewritten. -/
def newLeaves (s : State) (entry : Nat) (leaf : W64) (count new : Nat) (hdie : Bool) (gen : W16) : State :=
  (List.range count).foldl (fun s j =>
    homeStore s (entry + 8 * j) (leBytes 8 (newLeaf leaf (new + 4096 * j) hdie gen).toNat)) s

/-- Whether an access is of a range of memory. -/
def LaneAcc.inRange (a : LaneAcc) (old n : Nat) : Bool := a.peer.isNone && a.space.sameAs .global && old ≤ a.pa && a.pa < old + n

/-- R358, R359: the accesses in flight to a page that has moved are refused at its old home; their parties translate them again. -/
def followPage (old new n : Nat) (leaf : W64) (op : PendOp) : PendOp :=
  { op with accs := op.accs.map fun a =>
      if a.inRange old n then { a with pa := a.pa - old + new, leaf } else a }

/-- Every issue in flight of a gang follows the page. -/
def followGang (old new n : Nat) (leaf : W64) (g : Gang) : Gang :=
  let h := followPage old new n leaf
  { g with unclass := g.unclass.map h, late := g.late.map h,
           heldStores := g.heldStores.map fun x => ⟨h x.op⟩,
           block := g.block.map fun b => match b with
             | .signal op => .signal (h op)
             | .object op => .object (h op)
             | b => b,
           fills := g.fills.map fun f => { f with kind := match f.kind with
             | .revalidate op => .revalidate (h op)
             | k => k } }

/-- The issues of a gang with accesses still to be made. -/
def Gang.opsInFlight (g : Gang) : List PendOp :=
  g.unclass.toList ++ g.late.toList ++ waitingOps g

/-- Whether an issue has an access to a range of memory. -/
def PendOp.inRange (op : PendOp) (old n : Nat) : Bool := op.accs.any fun a => a.inRange old n
/-- Whether a gang is of a context. -/
def gangIn (s : State) (ctx : Nat) (ref : GangRef) : Bool := ((s.who ref).map Who.ctx) == some ctx

/-- R359: a retry of each issue of a gang of a context that the old home of a page refuses, counted in GENREFUSE of its core. -/
def countRefused (s : State) (ctx old n : Nat) : State :=
  s.gangs.foldl (fun s e => if gangIn s ctx (gangOfNum e.1) then
      s.bump .genrefuse (gangOfNum e.1).core (e.2.opsInFlight.filter (·.inRange old n)).length
    else s) s

/-- R360 step 2: the accesses in flight of other contexts to the frames of a page are made, where they wait for no condition and no peer. -/
def drainOthers (s : State) (ctx old n : Nat) : State :=
  s.gangs.foldl (fun s e =>
    let ref := gangOfNum e.1
    if !gangIn s ctx ref && !e.2.ownEnd && e.2.opsInFlight.any (·.inRange old n) then completeUnclass (finishLate s ref) ref else s) s

/-- R358, R359: an issue of another context that goes on holding its gang has a translation of the old frames, which its own tables give
again: its next access is refused twice and fails with TRANSLATION. -/
def refuseOthers (s : State) (ctx old n : Nat) : State :=
  s.gangs.foldl (fun s e =>
    let ref := gangOfNum e.1
    match e.2.unclass with
    | some op => match op.accs.find? fun a => a.inRange old n with
      | some a =>
        if gangIn s ctx ref || !e.2.ownEnd then s
        else
          let s := { s with peers := s.peers.map fun (p : Nat × PeerReq) => if p.2.gang == some ref then (p.1, { p.2 with gang := none }) else p }
          accTrap (s.bump .genrefuse ref.core) ref e.2 op 0x20 a
      | none => s
    | none => s) s

/-- R360 step 2, R432: whether a cut holds an access of another context to the frames of a page. -/
def othersHeld (s : State) (ctx old n : Nat) : Bool :=
  s.gangs.any fun e => e.2.opsInFlight.any (·.inRange old n) && match s.who (gangOfNum e.1) with
    | some w => w.ctx != ctx && anyCut s w.ctx
    | none => false

/-- R360 step 3: the stash lines of every team, on every core, whose global lines lie in a range of memory. -/
def collectStash (s : State) (old size : Nat) : State :=
  s.teams.foldl (fun s e =>
    let pages := (e.2.stashes.flatMap fun m => (pagePieces m.base m.len).map fun p => p.1 / 4096).eraseDups
    pages.foldl (fun s p => match ownXlat s e.2.ctx (p * 4096) with
      | .ok pa _ => if old ≤ pa && pa < old + size then dropStashPage s e.1 p else s
      | _ => s) s) s

/-- R360 steps 5 to 7: the leaf entries and the generations of a page's frames are rewritten, its context's translations of it are dropped,
and its accesses in flight, refused at the old home, follow it. -/
def migrateLeaf (s : State) (ctx va old new size entry : Nat) (leaf : W64) (hdie : Bool) : State :=
  let gen := pteGen leaf + 1#16
  let s := newGens s old new size (homeDie old (pteBit leaf 8)) (homeDie new hdie) gen
  let s := countRefused (newLeaves s entry leaf (if pteBit leaf 6 then 16 else 1) new hdie gen) ctx old size
  { s with
    tlb := s.tlb.filter fun e => !(e.ctx == ctx && e.vpage < va / 4096 + size / 4096 && va / 4096 < e.vpage + e.pages),
    gangs := s.gangs.map fun (e : Nat × Gang) =>
      (e.1, if gangIn s ctx (gangOfNum e.1) then followGang old new size (newLeaf leaf new hdie gen) e.2 else e.2) }

/-- R360: the page at a virtual address moved to new frames. -/
def migrate (s : State) (m : Migration) (va old size entry : Nat) (leaf : W64) : State :=
  let new := m.p.dst.toNat
  let hdie := m.p.dest == 3
  let pages := (List.range (size / 4096)).map (va / 4096 + ·)
  -- steps 1 to 3
  let s := s.tasks.foldl (fun s e => if e.2.ctx = m.ctx then pages.foldl (fun s p => drainPage s e.1 p) s else s) s
  let s := drainOthers s m.ctx old size
  let s := recallLines (collectStash s old size) old size
  -- step 4
  let s := if old = new then s else moveFrames (recallLines s new size) old new size
  (refuseOthers (migrateLeaf s m.ctx va old new size entry leaf hdie) m.ctx old size).bump .migrations m.ctx

/-- R360, R391: a migration ends: a COPY's is signalled, one of firmware's is over. -/
def migrationEnd (s : State) (m : Migration) (fault addr : Nat) : State :=
  if m.repair then s else copyFinish s m.ctx m.p.sig fault addr

/-- R400: whether every byte of a page's frames belongs to a world; secure ranges are whole multiples of 2 MiB. -/
def ofWorld (s : State) (pa n : Nat) (secure : Bool) : Bool :=
  (List.range ((n + 2 ^ 21 - 1) / 2 ^ 21)).all fun k => isSecure s (pa + k * 2 ^ 21) == secure

/-- R360, R391, R400: the command processor performs a requested migration, of a page of the context's world to frames of that world. -/
def execPageMigration (id : Nat) (s : State) : Host.Outcome State Fault Refusal :=
  match KMap.get? s.migrations id with
  | none => .next s
  | some m =>
    if s.halted then .next s
    else
      let src := m.p.src.toNat
      let dst := m.p.dst.toNat
      let done := { s with migrations := KMap.del s.migrations id }
      let die := homeDie dst (m.p.dest == 3)
      match walk s m.ctx src, KMap.get? s.ctxs m.ctx with
      | some (leaf, size0), some c =>
        let size := if pteBit leaf 6 then 65536 else size0
        let bad := pteBit leaf 7 || pteBit leaf 5 ≠ c.m.secure || src % size ≠ 0 || m.p.len ≠ size || dst % size ≠ 0 || !inMap s dst size ||
          (if 2 ≤ m.p.dest then !isFar dst else isFar dst || die ≠ m.p.dest) || !ofWorld s dst size c.m.secure
        if !pteBit leaf 7 && !ofWorld s (pteFrame leaf) size (pteBit leaf 5) then .next (migrationEnd done m 0x20 src)
        else if bad then .next (migrationEnd done m 0x21 src)
        else if anyCut s m.ctx || othersHeld s m.ctx (pteFrame leaf) size || s.tasks.any fun t => t.2.ctx == m.ctx && t.2.reclassing.any fun p => src / 4096 ≤ p && p < (src + size) / 4096 then .next s
        else match leafAddr s src 4 0 c.m.troot.toNat with
          | none => .next (migrationEnd done m 0x20 src)
          | some entry =>
            .next (migrationEnd (migrate done m src (pteFrame leaf) size entry leaf) m 0 0)
      | _, _ => .next (migrationEnd done m 0x20 src)

end Sys2Proof.Machine
end

