-- ==== Sys2Proof/Machine/Net.lean ====
section
/-! DEFINITION. Incoming network requests: keys, deferral behind tasks that hold the bytes, and their events at the home
(R293, R350, R394 to R396), and the happenings of a port (R394, R408). -/

namespace Sys2Proof.Machine

/-! ### Bytes a task holds -/

/-- R293, R350: whether a task holds its declared bytes: from its start edge to its release step. -/
def Task.holds (t : Task) : Bool := t.stage != .waiting

/-- The memory page that a context's page names: its frame, none where it does not translate or is a peer's. -/
def frameOf (s : State) (ctx page : Nat) : Option Nat :=
  match walk s ctx (page * 4096) with
  | some (leaf, size) => if pteBit leaf 7 then none else some ((pteFrame leaf + page * 4096 % size) / 4096)
  | none => none

/-- The pages that a record covers. -/
def Region.pages (g : Region) : List Nat := (List.range ((g.base + g.extent - 1) / 4096 + 1 - g.base / 4096)).map (g.base / 4096 + ·)

/-- Whether a record of a context covers one of n bytes within a page of memory, given by physical address. -/
def regionAt (s : State) (ctx : Nat) (g : Region) (pa n : Nat) : Bool :=
  g.pages.any fun p =>
    let lo := max g.base (p * 4096) - p * 4096
    let hi := min (g.base + g.extent) ((p + 1) * 4096) - p * 4096
    pa % 4096 < hi && lo < pa % 4096 + n && frameOf s ctx p == some (pa / 4096)

/-- The pieces of an access of a context, as virtual address, physical address and length, whatever the page's permissions (R352). -/
def paPieces (s : State) (ctx va n : Nat) : List (Nat × Nat × Nat) :=
  (pagePieces va n).filterMap fun p => (ownPlace s ctx p.1).map fun q => (p.1, q.1, p.2)

/-- Whether a task declares a byte of an access of a context in a record that passes a test. -/
def declares (s : State) (t : Task) (mode : Region → Bool) (ctx va n : Nat) : Bool :=
  t.rec_.regions.any fun g => mode g &&
    ((t.ctx == ctx && g.base < va + n && va < g.base + g.extent) || (paPieces s ctx va n).any fun p => regionAt s t.ctx g p.2.1 p.2.2)

/-- R293: the records a request conflicts with. -/
def conflictMode (write : Bool) (g : Region) : Bool := !g.concurrent && (g.write || (write && g.read))

/-- R293: whether an access of a network agent or of the copy unit conflicts with a task that holds the bytes. -/
def heldConflict (s : State) (ctx va n : Nat) (write : Bool) : Bool :=
  s.tasks.any fun e => e.2.holds && declares s e.2 (conflictMode write) ctx va n

/-! ### Requests -/

/-- Bytes that a request reaches. -/
def reqLen (k : NetKind) (r : NetReq) : Nat := match k with
  | .write => r.data.length
  | .read => r.len
  | _ => 8
/-- Whether a request writes. -/
def reqWrites (k : NetKind) : Bool := k != .read

/-- An answer to the network. -/
def answer (s : State) (a : Reply) : State := { s with replies := s.replies ++ [a] }

/-- R395: a refusal with a remote-access-error negative acknowledgement. -/
def netRefuse (s : State) (port : Nat) (ctx : Option Nat) (k : NetKind) : State :=
  let s := s.bump .naktx port
  answer (match ctx with
    | some c => s.bump .netrefuse c
    | none => s) (.naked k)

/-- R406: the words that an agent's read of n bytes meets, in the tables and at their homes, are corrected. -/
def agentCorrect (s : State) (ctx va n : Nat) : State :=
  let s := (pagePieces va n).foldl (fun s p => walkCorrect s ctx p.1) s
  match agentBytes s ctx va n .read with
  | .ok pas => correctBytes s pas
  | .error _ => s

/-- An agent's read in which poison counts as unreadable (log entry 48). -/
def cleanRead (s : State) (ctx va n : Nat) : Option (List Byte) :=
  match agentBytes s ctx va n .read with
  | .error _ => none
  | .ok l => if l.any fun a => wordPoisoned s (a / 4) then none else some (l.map (memByte s))

/-- R11: bytes that another party than a task has stored. -/
def forgetStores (s : State) (pa n : Nat) : State :=
  { s with codeBy := s.codeBy.filter fun e => !(pa ≤ e.1 && e.1 < pa + n) }

/-- R395: a read-modify-write event of a network atomic on the eight bytes at an address. -/
def netAtomic (s : State) (pa : Nat) (f : Nat → Nat) : State :=
  let ev := homeEvent (correctMem s (homeOf s pa) pa 8) pa 8 f .agent
  answer (if ev.2.1 then ev.2.2 else forgetStores ev.2.2 pa 8) (if ev.2.1 then .poisoned (leBytes 8 ev.1) else .words [w64 ev.1])

/-- R293, R395: an accepted request performed at the home, in one event when it is an atomic. -/
def netPerform (s : State) (k : NetKind) (r : NetReq) (ctx : Nat) : State :=
  let n := reqLen k r
  let acc : Access := if reqWrites k then .write else .read
  match agentBytes s ctx r.va n acc with
  | .error _ => netRefuse s r.port (some ctx) k
  | .ok pas =>
    let pa := pas.headD 0
    match k with
    | .write => match agentWrite s ctx r.va r.data .agent with
      | .ok s => answer (s.bump .rxbytes r.port n) .ack
      | .error _ => netRefuse s r.port (some ctx) k
    | .read =>
      let bs := pas.map (memByte s)
      let bad := pas.any fun a => wordPoisoned s (a / 4)
      answer ((correctBytes s pas).bump .txbytes r.port n) (if bad then .poisoned bs else .bytes bs)
    | .fetchAdd => netAtomic s pa fun old => (old + r.value.toNat) % 2 ^ 64
    | .cmpSwap => netAtomic s pa fun old => if old = r.compare.toNat then r.value.toNat else old

/-- R395: the context of a request's key when the request is allowed by it; an atomic whose address is no multiple of 8 is refused (log
entry 101). -/
def keyAllows (s : State) (k : NetKind) (r : NetReq) : Except (Option Nat) Nat :=
  match KMap.get? s.keys r.key.toNat with
  | none => .error ((KMap.get? s.qps r.qp).map QueuePair.ctx)
  | some e =>
    let q := KMap.get s.qps ⟨r.port, e.ctx⟩ r.qp
    let n := reqLen k r
    let ok : Bool := match k with
      | .write => e.canWrite
      | .read => e.canRead
      | _ => e.canAtomic
    let secureCtx := ((KMap.get? s.ctxs e.ctx).map fun c => c.m.secure).getD true
    let aligned := k == .write || k == .read || r.va % 8 == 0
    if q.ctx ≠ e.ctx || q.port ≠ r.port || e.secure || secureCtx || !ok || !aligned || r.va < e.base || e.base + e.length < r.va + n then
      .error (some e.ctx)
    else match agentBytes s e.ctx r.va n (if reqWrites k then .write else .read) with
      | .ok _ => .ok e.ctx
      | .error _ => .error (some e.ctx)

/-- Payload bytes in the deferral buffer (R293). -/
def deferredBytes (s : State) : Nat := s.deferral.foldl (fun n d => n + d.req.data.length) 0

/-- R293: a request put into the deferral buffer, or refused as receiver not ready when it is full. -/
def defer (s : State) (k : NetKind) (r : NetReq) (ctx : Nat) : State :=
  if 2048 ≤ s.deferral.length || 2 ^ 24 < deferredBytes s + r.data.length then answer ((s.bump .refused ctx).bump .naktx r.port) .rnr
  else ({ s with deferral := s.deferral ++ [{ kind := k, req := r, ctx := ctx }] } : State).bump .deferred ctx

/-- R432, R448: a request on a context that a cut holds waits at its port. -/
def portHeld (s : State) (d : Deferred) : Option State :=
  match KMap.get? s.dumps d.ctx, s.ckptRun with
  | some m, _ => some { s with dumps := KMap.put s.dumps d.ctx { m with held := m.held ++ [d] } }
  | none, some c => some { s with ckptRun := some { c with held := c.held ++ [d] } }
  | none, none => none

/-- R394: the module's ports and queue pairs; nothing arrives on another. -/
def portExists (r : NetReq) : Bool := r.port < 8 && r.qp < 4096

/-- R293, R395: an incoming request: refused, held, deferred or performed. -/
def netRequest (s : State) (k : NetKind) (r : NetReq) : State :=
  if s.halted || s.fw.recovery || !portExists r then s
  else match keyAllows s k r with
    | .error c => netRefuse s r.port c k
    | .ok ctx =>
      -- a queue pair not bound yet is bound to the port and the context of its first request (log entry 60)
      let s := if (KMap.get? s.qps r.qp).isNone then { s with qps := KMap.put s.qps r.qp ⟨r.port, ctx⟩ } else s
      match portHeld s ⟨k, r, ctx⟩ with
      | some s => s
      | none =>
        if (s.deferral.any fun d => d.req.qp == r.qp) || heldConflict s ctx r.va (reqLen k r) (reqWrites k) then defer s k r ctx
        else netPerform s k r ctx

/-- R293: an incoming RDMA WRITE. -/
def execNetRdmaWrite (r : NetReq) (s : State) : Host.Outcome State Fault Refusal := .next (netRequest s .write r)
/-- R293: an incoming RDMA READ. -/
def execNetRdmaRead (r : NetReq) (s : State) : Host.Outcome State Fault Refusal := .next (netRequest s .read r)
/-- R395: an incoming fetch-and-add. -/
def execNetAtomicFetchAdd (r : NetReq) (s : State) : Host.Outcome State Fault Refusal := .next (netRequest s .fetchAdd r)
/-- R395: an incoming compare-and-swap. -/
def execNetAtomicCmpSwap (r : NetReq) (s : State) : Host.Outcome State Fault Refusal := .next (netRequest s .cmpSwap r)

/-! ### Release of deferred requests -/

/-- R293: whether a deferred request is free: none of its queue pair before it, no conflict, and its context held by no cut (R432, R449). -/
def released (s : State) (ix : Nat) : Bool :=
  match s.deferral[ix]? with
  | none => false
  | some d =>
    (portHeld s d).isNone && !((s.deferral.take ix).any fun e => e.req.qp == d.req.qp) && !heldConflict s d.ctx d.req.va (reqLen d.kind d.req) (reqWrites d.kind)

/-- R293: a free deferred request performed. -/
def performDeferred (s : State) (ix : Nat) : State :=
  match s.deferral[ix]? with
  | none => s
  | some d => if released s ix then netPerform { s with deferral := s.deferral.eraseIdx ix } d.kind d.req d.ctx else s

/-- R293: a released request performed at its home. -/
def execDeferredRequestPerform (ix : Nat) (s : State) : Host.Outcome State Fault Refusal :=
  .next (if s.halted then s else performDeferred s ix)

/-- R344 step 4: every request that is free is performed, in order. -/
def performReleased (s : State) : Nat → State
  | 0 => s
  | n + 1 => match (List.range s.deferral.length).find? (released s) with
    | none => s
    | some ix => performReleased (performDeferred s ix) n

/-- R340 step 1: whether some deferred request reaches a task's declared bytes. -/
def deferredInto (s : State) (t : Task) : Bool :=
  s.deferral.any fun d => declares s t (fun _ => true) d.ctx d.req.va (reqLen d.kind d.req)

/-! ### Ports -/

/-- The state of a port. -/
def portOf (s : State) (p : Nat) : Port := KMap.get s.ports ⟨[], 0⟩ p

/-- R408: a port drops a frame that fails its check; the transport sends it again. -/
def execFrameDrop (port : Nat) (s : State) : Host.Outcome State Fault Refusal :=
  .next (if port < 8 then s.bump .retrans port else s)

/-- R394: a congestion notification cuts the sending rate. -/
def execCongestionNotification (port : Nat) (s : State) : Host.Outcome State Fault Refusal :=
  let p := portOf s port
  .next (if port < 8 then ({ s with ports := KMap.put s.ports port { p with rateCuts := p.rateCuts + 1 } } : State).bump .cnprx port else s)

/-- R394: a priority of a port pauses for a time; PFCTICKS counts the ticks it is paused. -/
def execPfcPause (port prio ticks : Nat) (s : State) : Host.Outcome State Fault Refusal :=
  if port ≥ 8 || prio ≥ 8 then .next s else
  let p := portOf s port
  let old := max s.tick (KMap.get p.pausedUntil 0 prio)
  let new := s.tick + ticks
  let s := { s with ports := KMap.put s.ports port { p with pausedUntil := KMap.set p.pausedUntil 0 prio (if ticks = 0 then 0 else new) } }
  .next { s with counters := KMap.set s.counters 0#64 (Counter.pfcticks.key port) (s.count .pfcticks port + w64 new - w64 old) }

end Sys2Proof.Machine
end

