-- ==== Sys2Proof/Machine/Queues.lean ====
section
/-! DEFINITION. Queue threads and their packets (R385 to R393), and the copy unit (R391). -/

namespace Sys2Proof.Machine

/-! ### Queue state -/

/-- A mapped queue. -/
def State.queue? (s : State) (q : Nat) : Option Queue := KMap.get? s.queues q
/-- Update of a queue. -/
def State.setQueue (s : State) (q : Nat) (x : Queue) : State := { s with queues := KMap.put s.queues q x }

/-- R390: the number of the packet a queue acts on. -/
def Queue.packet (x : Queue) : Nat :=
  match x.arm with
  | none => x.head
  | some a => x.head + a.pos + if a.isElse then a.nThen else 0
/-- R390: the words of the arm's packet that a queue acts on, as they were prefetched. -/
def CondArm.current (a : CondArm) : List Nat := a.packets.getD (a.pos - 1 + if a.isElse then a.nThen else 0) []
/-- R387: the address of packet j. -/
def Queue.packetAddr (x : Queue) (j : Nat) : Nat := x.d.ring.toNat + 64 * (j % 2 ^ x.d.log2n)

/-- R374: a queue whose unmapping waits is unmapped when its thread is blocked or in error. -/
def settle (s : State) (q : Nat) : State :=
  match s.queue? q with
  | some x => if x.unmapping then { s with queues := KMap.del s.queues q } else s
  | none => s

/-- R393: a queue enters an error state. -/
def queueError (s : State) (q code : Nat) : State :=
  match s.queue? q with
  | none => s
  | some x =>
    let s := s.setQueue q { x with act := .error code, armFail := x.arm.map fun a => (a.pos, a.isElse) }
    let s := logCtx s x.ctx [{ LogEntry.at s.tick 0x07 with cause := code, ctx := x.ctx, addr := x.packetAddr x.packet, info := q }]
    settle s q

/-- R387, R389: the head advanced by n packets and written; a head word that cannot be written is FAULT. -/
def advanceHead (s : State) (q n : Nat) : State :=
  match s.queue? q with
  | none => s
  | some x =>
    let x' := { x with head := x.head + n, arm := none, armFail := none, act := .acting }
    match agentWrite s x.ctx x.d.headAddr.toNat (leBytes 8 (x.head + n)) with
    | .ok s => s.setQueue q x'
    | .error _ => queueError (s.setQueue q x') q 0x04

/-- R387, R390: the packet a queue acts on is done. -/
def packetDone (s : State) (q : Nat) : State :=
  match s.queue? q with
  | none => s
  | some x => match x.arm with
    | none => advanceHead s q 1
    | some a =>
      if a.pos ≥ (if a.isElse then a.nElse else a.nThen) then advanceHead s q (1 + a.nThen + a.nElse)
      else s.setQueue q { x with act := .acting, arm := some { a with pos := a.pos + 1 }, armFail := none }

/-! ### Packets -/

/-- R388: the reserved bits of the eight words of a packet type. -/
def packetReserved (w : List Nat) : Bool :=
  let word (k : Nat) : Nat := w.getD k 0
  let allow (ms : List Nat) : Bool := (List.range 7).all fun k => word (k + 1) &&& (2 ^ 64 - 1 - ms.getD k 0) == 0
  let all := 2 ^ 64 - 1
  word 0 &&& (2 ^ 64 - 1 - 0x1FF) ≠ 0 ||
  !(match word 0 % 256 with
    | 1 => allow [all]
    | 2 => allow [all, all, all, 3, all]
    | 3 => allow [all, all, 1]
    | 4 => allow [all, all, all, 0xFF03]
    | 5 => allow [all, all, 2 ^ 40 - 1, all, 7]
    | 6 => allow [1, 2 ^ 32 - 1, all]
    | _ => false)

/-- R388: the packet of a queue from its eight words; none for BADPACKET. -/
def decodePacket (q : Nat) (w : List Nat) : Option Instr :=
  let word (k : Nat) : Nat := w.getD k 0
  let after := word 0 / 256 % 2 == 1
  let cmp : CmpPacket := { addr := w64 (word 1), value := w64 (word 2), mask := w64 (word 3), op := word 4 % 4 }
  if packetReserved w then none
  else match word 0 % 256 with
    | 1 => if word 1 % 8 ≠ 0 then none else some (.task q after (w64 (word 1)))
    | 2 => if word 1 % 8 ≠ 0 then none else some (.waitv q after cmp (w64 (word 5)))
    | 3 => if word 1 % 8 ≠ 0 then none else some (.signal q after (w64 (word 1)) (w64 (word 2)) (word 3 % 2 == 1))
    | 4 => if word 1 % 8 ≠ 0 then none else some (.cond q after cmp (word 4 / 256 % 16) (word 4 / 4096 % 16))
    | 5 =>
      let p : CopyPacket := { src := w64 (word 1), dst := w64 (word 2), len := word 3, sig := w64 (word 4), dest := word 5 / 2 % 4 }
      if word 4 % 8 ≠ 0 then none else if word 5 % 2 = 1 then some (.copyMigrate q after p) else some (.copy q after p)
    | _ =>
      if word 3 % 8 ≠ 0 then none
      else if word 1 % 2 = 1 then some (.markInvalidate q after (BitVec.ofNat 32 (word 2)) (w64 (word 3)))
      else some (.markTrace q after (BitVec.ofNat 32 (word 2)) (w64 (word 3)))

/-- The eight words of a packet as the thread reads them; one with a poisoned word is unreadable (log entry 48). -/
def readPacket (s : State) (x : Queue) (j : Nat) : Option (List Nat) :=
  (cleanRead s x.ctx (x.packetAddr j) 64).map fun bs => (List.range 8).map fun k => leVal ((bs.drop (8 * k)).take 8)

/-- R387: the tail word as the thread reads it; a poisoned one is unreadable (log entry 48). -/
def readTail (s : State) (x : Queue) : Option Nat := (cleanRead s x.ctx x.d.tailAddr.toNat 8).map leVal

/-- R406: the words of the tail and of n packets, corrected as the thread reads them. -/
def queueCorrect (s : State) (x : Queue) (j n : Nat) : State :=
  (List.range n).foldl (fun s k => agentCorrect s x.ctx (x.packetAddr (j + k)) 64) (agentCorrect s x.ctx x.d.tailAddr.toNat 8)

/-- R387: where the thread finds its tail word, and what stands there. -/
def tailSeen (s : State) (x : Queue) : Option (Nat × Nat) :=
  (ownPlace s x.ctx x.d.tailAddr.toNat).map fun p => (p.1, memNat s p.1 8)

/-- R387: a thread blocks on its tail word. -/
def blockQueue (s : State) (q : Nat) (x : Queue) : State := settle (s.setQueue q { x with act := .blocked, seen := tailSeen s x }) q

/-- R387: whether the tail word has been written since a thread blocked on it: a write of the value that it held shows nowhere. -/
def tailWritten (s : State) (x : Queue) : Bool :=
  match x.seen with
  | none => false
  | some (pa, v) => memNat s (((ownPlace s x.ctx x.d.tailAddr.toNat).map Prod.fst).getD pa) 8 != v

/-- R388: whether AFTER still holds a packet back. -/
def afterWaits (s : State) (q : Nat) (after : Bool) : Bool := after && s.tasks.any fun e => e.2.queue == q

/-- A queue that acts on a packet now. -/
def actingOn (s : State) (q : Nat) (after : Bool) : Option Queue :=
  if s.halted || afterWaits s q after then none
  else (s.queue? q).bind fun x => if x.act = .acting && !ctxFrozen s x.ctx then some x else none

/-- A queue thread's turn: it blocks, fails, or has a packet to act on. -/
inductive QueueTurn where
  | to (s : State)
  | act (i : Instr) (s : State)

/-- R387, R388, R390: the turn of a queue thread that is acting: on the next packet of its ring, or of the arm it has prefetched. -/
def queueTurn (s : State) (q : Nat) : QueueTurn :=
  match s.queue? q with
  | none => .to s
  | some x =>
    if x.act ≠ .acting || s.halted || ctxFrozen s x.ctx then .to s
    else
      let go (words : Option (List Nat)) (s : State) : QueueTurn := match words with
        | none => .to (queueError s q 0x04)
        | some w => match decodePacket q w with
          | none => .to (queueError s q 0x01)
          | some i => .act i s
      match x.arm with
      | some a => go (some a.current) s
      | none => match readTail s x with
        | none => .to (queueError s q 0x04)
        | some t =>
          if t < x.head || t - x.head > 2 ^ x.d.log2n then .to (queueError (queueCorrect s x 0 0) q 0x02)
          else if t = x.head then .to (blockQueue (queueCorrect s x 0 0) q x)
          else if s.fw.activating.isSome then .to s
          else go (readPacket s x x.head) (queueCorrect s x x.head 1)

/-- R387: a write to the tail word wakes a blocked thread, which reads it afresh; one of the value it held shows nowhere (log entry 96). -/
def execQueueWake (q : Nat) (s : State) : Host.Outcome State Fault Refusal :=
  match s.queue? q with
  | some x => .next (if x.act = .blocked && tailWritten s x then s.setQueue q { x with act := .acting } else s)
  | none => .next s

/-- R388: TASK: the packet waits for acceptance. -/
def execTask (q : Nat) (after : Bool) (record : W64) (s : State) : Host.Outcome State Fault Refusal :=
  match actingOn s q after with
  | none => .next s
  | some x => .next (if record.toNat % 8 ≠ 0 then queueError s q 0x01 else s.setQueue q { x with act := .task record s.tick })

/-- R388: the comparison of WAITV and COND. -/
def cmpHolds (p : CmpPacket) (word : Nat) : Bool :=
  let x := word &&& p.mask.toNat
  match p.op % 4 with
  | 0 => x == p.value.toNat
  | 1 => x != p.value.toNat
  | 2 => p.value.toNat ≤ x
  | _ => x < p.value.toNat

/-- R389, R453: one read of a compared word at its home; none for FAULT. -/
def readWord (s : State) (ctx : Nat) (addr : W64) : Option Nat :=
  match agentXlat s ctx addr.toNat .read with
  | .ok pa _ => if memPoisoned s pa 8 then none else some (memNat s pa 8)
  | _ => none

/-- R389: WAITV: the thread waits. -/
def execWaitv (q : Nat) (after : Bool) (p : CmpPacket) (timeout : W64) (s : State) : Host.Outcome State Fault Refusal :=
  match actingOn s q after with
  | none => .next s
  | some x =>
    .next (if p.addr.toNat % 8 ≠ 0 then queueError s q 0x01
      else s.setQueue q { x with act := .waitv p (if timeout = 0#64 then none else some (s.tick + timeout.toNat)) })

/-- R389: a read of a WAITV's word finds the comparison true, or fails. -/
def execWaitvSatisfied (q : Nat) (s : State) : Host.Outcome State Fault Refusal :=
  match s.queue? q with
  | some x => match x.act with
    | .waitv p _ =>
      if ctxFrozen s x.ctx then .next s
      else match readWord s x.ctx p.addr with
        | none => .next (queueError s q 0x04)
        | some v =>
          let s := agentCorrect s x.ctx p.addr.toNat 8
          .next (if cmpHolds p v then packetDone s q else s)
    | _ => .next s
  | none => .next s

/-- R389: a WAITV's TIMEOUT expires. -/
def execWaitvTimeout (q : Nat) (s : State) : Host.Outcome State Fault Refusal :=
  match s.queue? q with
  | some x => match x.act with
    | .waitv _ (some t) => .next (if t ≤ s.tick && !ctxFrozen s x.ctx then queueError s q 0x03 else s)
    | _ => .next s
  | none => .next s

/-- R389, R453: one event at a signal object for a packet; none for FAULT. -/
def packetSignal (s : State) (ctx : Nat) (addr : W64) (set : Bool) (value : W64) : Option State :=
  match agentXlat s ctx addr.toNat .write with
  | .ok pa leaf =>
    let ev := homeEvent (correctAt s ctx addr.toNat pa leaf 8) pa 8 (sigsNew set value.toNat) (.of ctx)
    some (if ev.2.1 then rowPoison ev.2.2 ctx 128 addr.toNat 0 else ev.2.2)
  | _ => none

/-- R389: SIGNAL. -/
def execSignal (q : Nat) (after : Bool) (addr value : W64) (set : Bool) (s : State) : Host.Outcome State Fault Refusal :=
  match actingOn s q after with
  | none => .next s
  | some x =>
    .next (if addr.toNat % 8 ≠ 0 then queueError s q 0x01
      else match packetSignal s x.ctx addr set value with
        | none => queueError s q 0x04
        | some s => packetDone s q)

/-- R390: whether a packet may stand in an arm: it decodes, and is no COND. -/
def armPacketOk (q : Nat) (w : List Nat) : Bool :=
  match decodePacket q w with
  | none => false
  | some (.cond _ _ _ _ _) => false
  | some _ => true

/-- R390: the arms' packets prefetched and looked at, or an error code. -/
def armsFetch (s : State) (q : Nat) (x : Queue) (n : Nat) : Except Nat (List (List Nat)) :=
  (List.range n).foldl (fun r j => match r with
    | .error c => .error c
    | .ok l => match readPacket s x (x.head + 1 + j) with
      | none => .error 0x04
      | some w => if armPacketOk q w then .ok (l ++ [w]) else .error 0x01) (.ok [])

/-- R390: COND. -/
def execCond (q : Nat) (after : Bool) (p : CmpPacket) (nThen nElse : Nat) (s : State) : Host.Outcome State Fault Refusal :=
  match actingOn s q after with
  | none => .next s
  | some x =>
    if p.addr.toNat % 8 ≠ 0 || 8 < nThen || 8 < nElse || x.arm.isSome then .next (queueError s q 0x01)
    else match readTail s x with
      | none => .next (queueError s q 0x04)
      | some t =>
        if t < x.head + 1 + nThen + nElse then .next (blockQueue s q x)
        else match armsFetch s q x (nThen + nElse) with
          | .error c => .next (queueError s q c)
          | .ok packets => match readWord s x.ctx p.addr with
            | none => .next (queueError s q 0x04)
            | some v =>
              let s := agentCorrect (queueCorrect s x (x.head + 1) (nThen + nElse)) x.ctx p.addr.toNat 8
              let isElse := !cmpHolds p v
              .next (if (if isElse then nElse else nThen) = 0 then advanceHead s q (1 + nThen + nElse)
                else s.setQueue q { x with arm := some { isElse, pos := 1, nThen, nElse, packets } })

/-- R389: a MARK's signal address receives an addition of 1; one that fails is FAULT. -/
def markSignal (s : State) (q ctx : Nat) (sig : W64) : State :=
  if sig = 0#64 then packetDone s q
  else match packetSignal s ctx sig false 1#64 with
    | none => queueError s q 0x04
    | some s => packetDone s q

/-- R389, R420, R422: MARK with OP 0: a marker record in the stream of die 0. -/
def execMarkTrace (q : Nat) (after : Bool) (tag : W32) (sig : W64) (s : State) : Host.Outcome State Fault Refusal :=
  match actingOn s q after with
  | none => .next s
  | some x =>
    .next (if sig.toNat % 8 ≠ 0 then queueError s q 0x01
      else markSignal (trace s x.ctx 0 8#4 (TraceRec.plain 4 (w64 (tag.toNat + 2 ^ 32 * q)))) q x.ctx sig)

/-- R357: every cached translation of a context is dropped. -/
def purgeCtx (s : State) (ctx : Nat) : State :=
  { s with tlb := s.tlb.filter fun e => e.ctx != ctx, walks := s.walks.filter fun w => !(w.done && w.ctx == ctx),
           walkCache := s.walkCache.filter fun e => e.ctx != ctx }

/-- R357: the memory accesses of an issue in flight translated again, or the access that fails and its cause. -/
def renewOp (s : State) (ctx : Nat) (op : PendOp) : Except (Nat × LaneAcc) PendOp :=
  (op.accs.foldl (fun (r : Except (Nat × LaneAcc) (List LaneAcc)) a => match r with
    | .error e => .error e
    | .ok l =>
      if a.peer.isSome || !a.space.sameAs .global then .ok (l ++ [a])
      else match agentXlat s ctx a.va (if onlyReads op.i || op.i matches .sigw _ | .bow _ then .read else .write) with
        | .ok pa leaf => .ok (l ++ [{ a with pa, leaf }])
        | .peer _ _ _ => .error (0x21, a)
        | .fail c => .error (c, a)) (.ok [])).map fun accs => { op with accs }

/-- R357: an issue in flight of a gang when the context's translations are invalidated: one that can complete completes, a wait at an
object goes on under a new translation, or traps where that fails. -/
def renewGang (s0 : State) (ctx : Nat) (ref : GangRef) : State :=
  let s := finishLate s0 ref
  match s.gang? ref with
  | none => s
  | some g => match g.block, g.unclass with
    | some (.signal op), _ => match renewOp s ctx op with
      | .ok op => s.setGang ref { g with block := some (.signal op), unclass := some op }
      | .error e => accTrap s ref g op e.1 e.2
    | some (.object op), _ => match renewOp s ctx op with
      | .ok op => s.setGang ref { g with block := some (.object op), unclass := some op }
      | .error e => accTrap s ref g op e.1 e.2
    | some .peer, _ => s
    | _, _ => completeUnclass s ref

/-- The resident gangs of a context. -/
def gangsOf (s : State) (ctx : Nat) : List GangRef :=
  (s.gangs.map fun e => gangOfNum e.1).filter fun g => ((s.who g).map Who.ctx) == some ctx

/-- R357, R389: whether an access in flight cannot complete now, so that the invalidation is not done yet: one that a cut holds, or an
issue that waits for a peer and then for its pages. -/
def purgeHeld (s : State) (ctx : Nat) : Bool :=
  ((gangsOf s ctx).any fun ref => match s.gang? ref with
    | none => false
    | some g => (g.unclass.toList ++ g.late.toList).any fun op =>
        standsStill s ref.core ctx || crossHeld s ctx op || g.block == some .peer) ||
  s.engine.any fun e => e.2.ctx == ctx && e.2.peerWait

/-- R357: the invalidation: the caches dropped, and every issue in flight done with what it read before. -/
def invalidate (s : State) (ctx : Nat) : State := (gangsOf s ctx).foldl (fun s g => renewGang s ctx g) (purgeCtx s ctx)

/-- R389: MARK with OP 1: invalidation, done when every core and walker has purged. -/
def execMarkInvalidate (q : Nat) (after : Bool) (_tag : W32) (sig : W64) (s : State) : Host.Outcome State Fault Refusal :=
  match actingOn s q after with
  | none => .next s
  | some x => .next (if sig.toNat % 8 ≠ 0 then queueError s q 0x01
      else if purgeHeld s x.ctx then s else markSignal (invalidate s x.ctx) q x.ctx sig)

/-! ### The copy unit -/

/-- R389, R391: COPY: queued. -/
def execCopy (q : Nat) (after : Bool) (p : CopyPacket) (s : State) : Host.Outcome State Fault Refusal :=
  match actingOn s q after with
  | none => .next s
  | some x =>
    .next (if p.sig.toNat % 8 ≠ 0 then queueError s q 0x01
      else packetDone { s with copies := KMap.put s.copies s.nextCopy { ctx := x.ctx, p, done := 0, fault := 0, stopped := false },
                               nextCopy := s.nextCopy + 1 } q)

/-- R391: COPY with MIGRATE: the migration is requested. -/
def execCopyMigrate (q : Nat) (after : Bool) (p : CopyPacket) (s : State) : Host.Outcome State Fault Refusal :=
  match actingOn s q after with
  | none => .next s
  | some x =>
    .next (if p.sig.toNat % 8 ≠ 0 then queueError s q 0x01
      else packetDone { s with migrations := KMap.put s.migrations s.nextCopy ⟨x.ctx, p, false⟩, nextCopy := s.nextCopy + 1 } q)

/-- One byte of a copy: a cause, a wait for a task's release (R293), or the state after it. -/
inductive CopyByte where
  | fail (cause addr : Nat)
  | wait
  | ok (s : State)

/-- R391, R311: byte k of a copy: its read and its write in one step, which waits while a task holds either byte (log entry 100). -/
def copyByte (s : State) (ctx : Nat) (p : CopyPacket) (k : Nat) : CopyByte :=
  let src := (p.src.toNat + k) % 2 ^ 64
  let dst := (p.dst.toNat + k) % 2 ^ 64
  match agentXlat s ctx src .read, agentXlat s ctx dst .write with
  | .fail c, _ => .fail c src
  | .peer _ _ _, _ => .fail 0x21 src
  | _, .fail c => .fail c dst
  | _, .peer _ _ _ => .fail 0x21 dst
  | .ok a leaf, .ok b _ =>
    if heldConflict s ctx src 1 false || heldConflict s ctx dst 1 true then .wait
    else
      let bad := wordPoisoned s (a / 4)
      let s := correctAt (walkCorrect s ctx dst) ctx src a leaf 1
      let s := forgetStores (homeStore s b [memByte s a] (pay := .of ctx)) b 1
      .ok (if bad then { s with memPoison := BitSet.put s.memPoison (b / 4) true } else s)

/-- R391: up to n bytes of a copy from its byte done, in increasing order: the state, bytes done and the fault. -/
def copyBytes (s : State) (ctx : Nat) (p : CopyPacket) : Nat → Nat → State × Nat × Option (Nat × Nat)
  | 0, k => (s, k, none)
  | n + 1, k =>
    if p.len ≤ k then (s, k, none)
    else match copyByte s ctx p k with
      | .fail c a => (s, k, some (c, a))
      | .wait => (s, k, none)
      | .ok s => copyBytes s ctx p n (k + 1)

/-- R391: the copy unit moves up to count bytes of a copy, and makes its signal update at its end or at a fault. -/
def execCopyTransfer (id count : Nat) (s : State) : Host.Outcome State Fault Refusal :=
  match KMap.get? s.copies id with
  | none => .next s
  | some c =>
    if s.halted || anyStop s c.ctx then .next s
    else
      let r := copyBytes s c.ctx c.p count c.done
      let gone := { r.1 with copies := KMap.del r.1.copies id }
      match r.2.2 with
      | some (cause, addr) => .next (copyFinish gone c.ctx c.p.sig cause addr)
      | none =>
        if c.p.len ≤ r.2.1 then .next (copyFinish gone c.ctx c.p.sig 0 0)
        else .next { r.1 with copies := KMap.put r.1.copies id { c with done := r.2.1 } }

end Sys2Proof.Machine
end

