-- ==== Sys2Proof/Machine/Ctxs.lean ====
section
/-! DEFINITION. Contexts: task ends without edges (R348, R349), the flush walk (R345, R346), forced resets (R382, R406, R441),
admission, slices, drains, stalls and deadlines (R375 to R381). -/

namespace Sys2Proof.Machine

/-! ### Contexts -/

/-- A context's descriptor. -/
def State.ctx? (s : State) (n : Nat) : Option Ctx := KMap.get? s.ctxs n
/-- Update of a context. -/
def State.setCtx (s : State) (n : Nat) (c : Ctx) : State := { s with ctxs := KMap.put s.ctxs n c }
/-- R375: whether a context holds an accepted task that has not ended. -/
def runnable (s : State) (n : Nat) : Bool := s.tasks.any fun e => e.2.ctx == n
/-- R432, R448: whether a context's timers are paused. -/
def paused (s : State) (n : Nat) : Bool :=
  (KMap.get? s.dumps n).isSome || ctxFrozen s n
/-- Whether a team of a context is resident. -/
def ctxResident (s : State) (n : Nat) : Bool := s.teams.any fun e => e.2.ctx == n

/-- R348, R349, R453: the DONESIG update of a task; one that fails is logged. set says that ERR takes the code whatever it holds: every
end but a fault status. -/
def doneSignal (s : State) (ctx : Nat) (r : TaskRec) (info err : Nat) (set : Bool) : State :=
  let sig := r.donesig.toNat
  let fault (s : State) : State := logCtx s ctx [{ LogEntry.at s.tick 0x0E with ctx, taskid := r.taskid, addr := sig, info }]
  if sig = 0 then s
  else if sig % 8 ≠ 0 then fault s
  else match agentXlat s ctx sig .write with
    | .ok pa leaf =>
      let ev := homeEvent (correctAt s ctx sig pa leaf 8) pa 8 (fun x => sigUpdate err x set) (.of ctx)
      if ev.2.1 then fault ev.2.2 else ev.2.2
    | _ => fault s

/-- R382, R441: whether some task that a forced reset met after its start edge has not ended yet. -/
def forcedLeft (s : State) (n : Nat) : Bool := s.tasks.any fun e => e.2.ctx == n && e.2.forced

/-- R375, R382 step 5, R411: a forced reset ends; a context that has accepted a task since waits for it. -/
def finishReset (s : State) (n : Nat) : State :=
  match s.ctx? n with
  | none => s
  | some c =>
    let s := (purgeCtx s n).setCtx n
      { c with state := if runnable s n then .waiting else .idle, saved := none, stallDrained := false, waitSince := s.tick }
    logCtx (s.bump .resets n) n [{ LogEntry.at s.tick 0x08 with ctx := n, info := c.drainReason }]

/-- R375, R376: a context that is no longer runnable is IDLE; one that is resetting ends its reset when no task that the reset met is
left. -/
def settleCtx (s : State) (n : Nat) : State :=
  match s.ctx? n with
  | none => s
  | some c =>
    if c.state = .resetting then (if forcedLeft s n then s else finishReset s n)
    else if runnable s n then s
    else s.setCtx n { c with state := .idle }

/-- R335, R344 step 7: a task slot is freed. -/
def freeSlot (s : State) (slot : Nat) : State :=
  match s.task? slot with
  | none => s
  | some t => settleCtx (noteProgress { s with tasks := KMap.del s.tasks slot } t.ctx) t.ctx

/-- R337, R348, R382: a task that has not started ends without edges. -/
def endWithoutEdges (s : State) (slot estat err : Nat) : State :=
  match s.task? slot with
  | none => s
  | some t =>
    let s := recordWrite s slot t.ctx t.rec_.taskid (t.rec_.addr + 0x68) (leBytes 8 (statusWord 1 estat none))
    freeSlot (doneSignal s t.ctx t.rec_ slot err true) slot

/-! ### The flush walk -/

/-- R345: whether the flush acts on the lines of a page of a region. -/
def flushActs (g : Region) (c : PageClass) : Bool :=
  match c with
  | .shared => true
  | .priv _ => g.forward
  | _ => false

/-- R345, R346: the first line of a region from line l on which the flush acts. -/
def lineFrom (t : Task) (g : Region) (l : Nat) : Option Nat :=
  let page := (g.base + 128 * l) / 4096
  let last := (g.base + g.extent - 1) / 4096
  if g.extent / 128 ≤ l then none
  else if flushActs g (t.classOf page) then some l
  else ((List.range (last - page)).find? fun j => flushActs g (t.classOf (page + 1 + j))).map fun j =>
    ((page + 1 + j) * 4096 - g.base) / 128

/-- R345: the first line the walk acts on from a cursor. -/
def cursorFrom (t : Task) : Nat → Nat → Nat → Option (Nat × Nat)
  | 0, _, _ => none
  | n + 1, k, l => match nextWalked t.rec_ k with
    | none => none
    | some j => match (t.rec_.regions[j]?).bind fun g => lineFrom t g (if j = k then l else 0) with
      | some m => some (j, m)
      | none => cursorFrom t n (j + 1) 0

/-- R346: the flush is complete. -/
def flushDone (s : State) (slot : Nat) (t : Task) : State :=
  writeCursor (s.setTask slot { t with stage := .flushed, flushStopped := false }) slot t 2 0 0

/-- R347: the flush of a task stops at its next line. -/
def stopFlush (s : State) (slot : Nat) (t : Task) : State :=
  match t.stage with
  | .flushing k l =>
    if t.forced then s
    else match cursorFrom t 65 k l with
      | some (j, m) => writeCursor (s.setTask slot { t with stage := .flushing j m, flushStopped := true }) slot t 1 j m
      | none => flushDone s slot t
  | _ => s

/-! ### What a dump holds -/

/-- The timers of a context moved on by a pause (R432, R448). -/
def Ctx.shifted (c : Ctx) (n : Nat) : Ctx :=
  { c with sliceStart := c.sliceStart + n, drainStart := c.drainStart + n, progress := c.progress + n }
/-- A pause over (R433, R448). -/
def Ctx.resumed (c : Ctx) (n : Nat) : Ctx := { c.shifted n with frozen := false }

/-- A numbered thing put behind those whose numbers are not greater. -/
def putStamp {α : Type} (x : Nat × α) : List (Nat × α) → List (Nat × α)
  | [] => [x]
  | y :: t => if y.1 ≤ x.1 then y :: putStamp x t else x :: y :: t

/-- A party with an access that a cut holds on its way: a gang, or an engine operation. -/
inductive HeldParty where
  | gang (g : GangRef)
  | engine (id : Nat)
  deriving DecidableEq, Repr

/-- R432 step 3: the parties of a context with an access that a cut holds on its way, each with the number of that access, in the order of
those. -/
def heldParties (s : State) (ctx : Nat) : List (Nat × HeldParty) :=
  let gangs := s.gangs.flatMap fun e =>
    let ref := gangOfNum e.1
    if (s.who ref).any fun w => w.ctx == ctx then
      ((e.2.unclass.toList ++ e.2.late.toList).filter (crossHeld s ctx)).map fun op => (op.stamp, HeldParty.gang ref)
    else []
  let elements := (s.engine.filter fun e => e.2.ctx == ctx && e.2.buf.isSome && elemHeld s e.2).map fun e => (e.2.stamp, HeldParty.engine e.1)
  (gangs ++ elements).foldl (fun l x => putStamp x l) []

/-- What a happening leaves. -/
def leftBy (s : State) (r : Host.Outcome State Fault Refusal) : State :=
  match r with
  | .next t => t
  | _ => s

/-- R433: the access of a party that a cut has held is performed. -/
def performHeld (s : State) (p : HeldParty) : State :=
  match p with
  | .engine id => leftBy s (execEngineElement id s)
  | .gang ref => match (s.gang? ref).bind Gang.block, s.who ref with
    | some (.signal _), _ => leftBy s (execSigwComplete ref s)
    | some (.object _), _ => leftBy s (execBowComplete ref s)
    | some .peer, some w => retireReady (peerFinish s ref) w.slot
    | _, _ => completeUnclass (finishLate s ref) ref

/-- R433: what a cut has held on its way goes on in its order, in a state in which it holds nothing more. -/
def letGo (s : State) (held : List (Nat × HeldParty)) : State := held.foldl (fun s x => performHeld s x.2) s

/-- R433: the hold of a dump ends: timers go on, unless a checkpoint holds them, what is held on its way is performed in its order, and the
requests held at the ports are taken in theirs, checked anew against the keys as they then stand (log entry 85). -/
def endHold (s : State) (ctx : Nat) (d : Dump) : State :=
  let s' := { s with dumps := KMap.del s.dumps ctx,
                     ctxs := KMap.modify s.ctxs ctx fun c => if c.frozen then c else c.resumed (s.tick - d.t0) }
  d.held.foldl (fun s h => netRequest s h.kind h.req) (letGo s' (heldParties s ctx))

/-- R433: whether a gang of a context is stopped for the agent. -/
def anyStopped (s : State) (ctx : Nat) : Bool := (gangsOf s ctx).any fun r => (s.gang? r).any Gang.stopped

/-- R433, R429: a dump's hold once the agent has released a gang: what it held on its way is performed, and with the last gang the context
resumes (log entry 85). -/
def dumpRelease (s : State) (ctx : Nat) : State :=
  match KMap.get? s.dumps ctx with
  | some d =>
    if !d.ended then s
    else if anyStopped s ctx then
      letGo { s with dumps := KMap.put s.dumps ctx { d with cut0 := false, cut1 := false } } (heldParties s ctx)
    else endHold s ctx d
  | none => s

/-- A context that is reset or lost is held by no dump that is over. -/
def dropHold (s : State) (ctx : Nat) : State :=
  match KMap.get? s.dumps ctx with
  | some d => if d.ended then endHold s ctx d else s
  | none => s

/-! ### Forced resets -/

/-- The queues of a context. -/
def ctxQueues (s : State) (n : Nat) : List Nat := (s.queues.filter fun e => e.2.ctx == n).map Prod.fst
/-- The task slots of a context. -/
def ctxSlots (s : State) (n : Nat) : List Nat := (s.tasks.filter fun e => e.2.ctx == n).map Prod.fst

/-- R382 step 2: COPY packets and migrations of a context stop and signal; a migration of firmware's own goes on. -/
def stopCopies (s : State) (n : Nat) : State :=
  let cs := s.copies.filter fun e => e.2.ctx == n
  let ms := s.migrations.filter fun e => e.2.ctx == n && !e.2.repair
  let s := { s with copies := s.copies.filter (fun e => e.2.ctx != n), migrations := s.migrations.filter (fun e => e.2.ctx != n || e.2.repair) }
  let s := cs.foldl (fun s e => copyFinish s n e.2.p.sig 0xFB 0) s
  ms.foldl (fun s e => copyFinish s n e.2.p.sig 0xFB 0) s

/-- R382 step 3, R441: a task of a context that ends by force: one that runs takes estat and err, one in its end edge only where the
context is lost. -/
def Task.force (t : Task) (estat err : Nat) (lost : Bool) : Task :=
  match t.stage with
  | .waiting => t
  | .running => { t with estat, errCode := err, fault := none, relaunch := [], forced := true }
  | _ => if lost then { t with estat, errCode := err, fault := none, forced := true, flushStopped := false }
         else { t with forced := true, flushStopped := false }

/-- R382 step 3, R441: the tasks of a context end: those that run begin their end edge, those that wait end without edges. -/
def endTasks (s : State) (n estat err : Nat) (lost : Bool) : State :=
  let slots := ctxSlots s n
  let s := { s with tasks := s.tasks.map fun e => (e.1, if e.2.ctx == n then e.2.force estat err lost else e.2) }
  slots.foldl (fun s slot => match s.task? slot with
    | none => s
    | some t => match t.stage with
      | .waiting => endWithoutEdges s slot estat err
      | .running => tryEnd s slot
      | _ => s) s

/-- R382: a forced reset of a context: reason 1 deadline, 2 stall, 3 management, 4 module-fatal (R411). -/
def forceReset (s : State) (n reason : Nat) : State :=
  match s.ctx? n with
  | none => s
  | some c =>
    if c.state = .resetting then s
    else
      let s := s.setCtx n { c with state := .resetting, drainReason := reason }
      let s := (ctxQueues s n).foldl (fun s q => queueError s q 0x06) s
      let s := (s.teams.filter fun e => e.2.ctx == n).foldl (fun s e => stopTeam s e.1 0xFB) s
      let s := endTasks (stopCopies s n) n 4 0xFB false
      let s := (ctxSlots s n).foldl (fun s k => retireReady s k) (dropHold s n)
      match s.ctx? n with
      | some c' => if c'.state = .resetting && !forcedLeft s n then finishReset s n else s
      | none => s

/-- R441: a context is lost at firmware activation. -/
def loseContext (s : State) (n : Nat) : State :=
  let s := (ctxQueues s n).foldl (fun s q => queueError s q 0x07) s
  let s := dropHold (endTasks s n 5 0xFE true) n
  match s.ctx? n with
  | none => s
  | some c => logCtx (s.setCtx n { c with state := .idle, saved := none }) n [{ LogEntry.at s.tick 0x08 with ctx := n, info := 3 }]

/-! ### Scheduling -/

/-- R375: members of the scheduled set. -/
def ctxMember (c : Ctx) : Bool := c.state == .scheduled || c.state == .draining
/-- R375: contexts outside the set that wait. -/
def ctxWaiter (c : Ctx) : Bool := c.state == .waiting || c.state == .preempted

/-- R376: the waiting context to admit: highest PRIO, longest wait, lowest number. -/
def admitChoice (s : State) : Option (Nat × Ctx) :=
  match s.ctxs.filter fun e => ctxWaiter e.2 && !paused s e.1 with
  | [] => none
  | x :: xs => some (xs.foldl (fun b y =>
      if y.2.m.prio > b.2.m.prio || (y.2.m.prio = b.2.m.prio && y.2.waitSince < b.2.waitSince) then y else b) x)

/-- R377, R381: a drain starts. -/
def startDrain (s : State) (n reason : Nat) : State :=
  match s.ctx? n with
  | none => s
  | some c =>
    let limit := s.teams.foldl (fun (d : Nat) e => match s.task? e.2.slot with
      | some t => if e.2.ctx = n && t.rec_.deterministic then max d t.rec_.teamtime.toNat else d
      | none => d) c.m.deadline
    let again := if reason = 3 && c.stallDrained then 256 else 0
    let s := s.setCtx n { c with state := .draining, drainStart := s.tick, drainReason := reason + again, drainDeadline := limit }
    (ctxSlots s n).foldl (fun s slot => match s.task? slot with
      | some t => stopFlush s slot t
      | none => s) s

/-- R377: the member to drain for a waiter of higher PRIO: lowest PRIO, earliest slice start; of equal ones the lowest number (log entry
99). -/
def drainChoice (s : State) : Option (Nat × Ctx) :=
  match s.ctxs.filter fun e => ctxMember e.2 && !paused s e.1 with
  | [] => none
  | x :: xs => some (xs.foldl (fun b y =>
      if y.2.m.prio < b.2.m.prio || (y.2.m.prio = b.2.m.prio && y.2.sliceStart < b.2.sliceStart) then y else b) x)

/-- R376, R377: a waiting context is admitted, or a member drains for it. -/
def execContextAdmit (s : State) : Host.Outcome State Fault Refusal :=
  match admitChoice s with
  | none => .next s
  | some (n, c) =>
    if s.halted || s.fw.activating.isSome then .next s
    else if (s.ctxs.filter fun e => ctxMember e.2).length < 16 then
      .next (s.setCtx n { c with state := .scheduled, sliceStart := s.tick, progress := s.tick, saved := none })
    else match drainChoice s with
      | some (m, d) => .next (if d.m.prio < c.m.prio && !(s.ctxs.any fun e => e.2.state == .draining) then startDrain s m 2 else s)
      | none => .next s

/-- Whether a flush of a context runs. -/
def ctxFlushing (s : State) (ctx : Nat) : Bool :=
  s.tasks.any fun e => e.2.ctx == ctx && match e.2.stage with
    | .flushing _ _ => true
    | _ => false

/-- R379: a context leaves the scheduled set without a drain. -/
def leaveSet (s : State) (ctx : Nat) (c : Ctx) : State :=
  s.setCtx ctx { c with state := if runnable s ctx then .waiting else .idle, waitSince := s.tick }

/-- R377, R379: a slice expires. -/
def execSliceExpiry (ctx : Nat) (s : State) : Host.Outcome State Fault Refusal :=
  match s.ctx? ctx with
  | none => .next s
  | some c =>
    if c.state ≠ .scheduled || paused s ctx || s.tick < c.sliceStart + c.m.slice || s.halted then .next s
    else
      if c.retiredAt = some s.tick && !ctxResident s ctx && !ctxFlushing s ctx then .next (leaveSet s ctx c)
      else if s.ctxs.any fun e => e.1 != ctx && ctxWaiter e.2 && c.m.prio ≤ e.2.m.prio then .next (startDrain s ctx 1)
      else .next (s.setCtx ctx { c with sliceStart := s.tick })

/-- R380: STALL ticks pass with no progress. -/
def execStallExpiry (ctx : Nat) (s : State) : Host.Outcome State Fault Refusal :=
  match s.ctx? ctx with
  | none => .next s
  | some c =>
    .next (if c.state ≠ .scheduled || paused s ctx || c.m.stall = 0 || s.tick < c.progress + c.m.stall || s.halted then s
      else startDrain s ctx 3)

/-- R381: a drain has not ended by its deadline. -/
def execDeadlineExpiry (ctx : Nat) (s : State) : Host.Outcome State Fault Refusal :=
  match s.ctx? ctx with
  | none => .next s
  | some c =>
    .next (if c.state ≠ .draining || paused s ctx || s.tick < c.drainStart + c.drainDeadline || !ctxResident s ctx then s
      else forceReset s ctx 1)

/-- R378: the 64 bytes of a pre-emption record. -/
def saveBytes (s : State) (n layout reason start : Nat) : List Byte :=
  let mine := s.tasks.filter fun e => e.2.ctx == n
  let flushes := mine.filter fun e => match e.2.stage with
    | .flushing _ _ => true
    | _ => false
  leBytes 8 (layout + 2 ^ 16 * reason) ++ leBytes 8 start ++ leBytes 8 s.tick ++ leBytes 8 (mine.length + 2 ^ 8 * flushes.length) ++
    List.replicate 32 0#8

/-- R379: whether the slice of a draining context expired in the tick in which its last resident team retired, with no flush of it
running. -/
def retiredFirst (s : State) (ctx : Nat) (c : Ctx) : Bool :=
  c.drainReason == 1 && c.retiredAt == some c.drainStart && !ctxFlushing s ctx

/-- R377 to R380: a drain ends: the context is saved, and then force-reset at a second stall. -/
def execDrainEnd (ctx : Nat) (s : State) : Host.Outcome State Fault Refusal :=
  match s.ctx? ctx with
  | none => .next s
  | some c =>
    if c.state ≠ .draining || paused s ctx || ctxResident s ctx then .next s
    else if retiredFirst s ctx c then .next (leaveSet s ctx c)
    else
      let layout := writeLayout s
      let again := 256 ≤ c.drainReason
      let reason := c.drainReason % 256
      let s := match agentWrite s ctx c.m.saverec.toNat (saveBytes s ctx layout reason c.drainStart) with
        | .ok s => s
        | .error _ => logCtx s ctx [{ LogEntry.at s.tick 0x0F with ctx, addr := c.m.saverec.toNat }]
      match s.ctx? ctx with
      | none => .next s
      | some c =>
        let s := (s.setCtx ctx { c with state := .preempted, saved := some (layout, reason), waitSince := s.tick,
                                        stallDrained := c.stallDrained || reason == 3 }).bump .preempts ctx
        .next (if again then forceReset s ctx 2 else s)

/-- R406: an uncorrectable error in a task slot's copy of a record or class map force-resets the owning context. -/
def execContextFatalError (slot : Nat) (s : State) : Host.Outcome State Fault Refusal :=
  match s.task? slot with
  | none => .next s
  | some t => .next (forceReset s t.ctx (Config.openInfo 0))

end Sys2Proof.Machine
end

