-- ==== Sys2Proof/Machine/Tasks.lean ====
section
/-! DEFINITION. Tasks from acceptance to the end of the end edge (R328 to R350, R262, R282, R371, R372, R419). -/

namespace Sys2Proof.Machine

/-! ### Records -/

/-- A field of a record: bits lo and up of the 64-bit word at an offset. -/
def recField (bs : List Byte) (off lo width : Nat) : Nat := bits (leVal ((bs.drop off).take 8)) lo width

/-- R336: a dependence entry. -/
def depOf (bs : List Byte) (k : Nat) : Dep :=
  { sigaddr := w64 (recField bs (0x80 + 16 * k) 0 64), need := recField bs (0x88 + 16 * k) 0 48,
    stoperr := recField bs (0x88 + 16 * k) 63 1 == 1 }

/-- R328: the task slot's copy of a record, but for its regions. -/
def recordOf (addr : Nat) (bs : List Byte) : TaskRec :=
  let f := recField bs
  let flag (k : Nat) : Bool := f 0 k 1 == 1
  let code := f 8 0 64
  { addr, taskid := BitVec.ofNat 32 (f 0 0 32), deterministic := flag 32, digest := flag 33, restartable := flag 34,
    coresident := flag 35, span := flag 36, boused := flag 37, refset := flag 38, code := w64 code, arg := w64 (f 0x10 0 64),
    width := 16 * 2 ^ f 0x18 0 2, regs := f 0x18 8 11, gangs := f 0x18 24 8, regu := f 0x18 32 8, spu := f 0x18 40 8,
    l1u := f 0x18 48 8, nx := f 0x20 0 16, ny := f 0x20 16 16, nz := f 0x20 32 16, curve := f 0x20 48 4,
    privBase := w64 (f 0x28 0 64), privw := f 0x30 0 32, fpctl := BitVec.ofNat 32 (f 0x30 32 32),
    rowlag := BitVec.ofNat 32 (f 0x38 0 32), hndoff := f 0x38 32 32, donesig := w64 (f 0x50 0 64), digref := w64 (f 0x58 0 64),
    teamtime := w64 (f 0x60 0 64), deps := (List.range 8).map (depOf bs), regions := [] }

/-- R328, R329, R336: whether a reserved field of a record is not 0. -/
def recordReserved (bs : List Byte) : Bool :=
  let f := recField bs
  f 0 39 25 ≠ 0 || f 0x18 2 6 ≠ 0 || f 0x18 19 5 ≠ 0 || f 0x18 56 8 ≠ 0 || f 0x20 52 12 ≠ 0 || f 0x48 7 1 ≠ 0 ||
  f 0x48 15 49 ≠ 0 || f 0x78 0 64 ≠ 0 || f 0x30 (32 + 13) 19 ≠ 0 || f 0x30 (32 + 3) 5 ≠ 0 ||
  (List.range 8).any fun k =>
    f (0x88 + 16 * k) 48 15 ≠ 0 || (f (0x80 + 16 * k) 0 64 = 0 && f (0x88 + 16 * k) 0 64 ≠ 0)

/-- R329: whether a record fails with RECORD. -/
def recordBad (bs : List Byte) (r : TaskRec) : Bool :=
  let f := recField bs
  let half := if r.span then r.gangs / 2 else r.gangs
  recordReserved bs || f 0x18 0 2 = 3 ||
  r.code = 0#64 || r.code.toNat % 16 ≠ 0 ||
  r.regs = 0 || r.regs % 8 ≠ 0 || 1536 < r.regs || (r.width = 64 && 1024 < r.regs) ||
  r.gangs = 0 || (!r.span && 64 < r.gangs) || (r.span && (128 < r.gangs || r.gangs % 2 ≠ 0)) ||
  r.total = 0 || 2 ^ 32 ≤ r.total || 2 < r.curve ||
  65536 < r.privw || (r.privw ≠ 0 && r.privBase.toNat % 128 ≠ 0) ||
  r.hndoff % 4 ≠ 0 || 64 < f 0x48 0 7 || f 0x40 0 64 % 32 ≠ 0 || r.donesig.toNat % 8 ≠ 0 ||
  (r.deps.any fun d => d.sigaddr.toNat % 8 ≠ 0) ||
  r.l1u = 0 || 256 < r.regu + r.spu + r.l1u || r.regu * 65536 < half * r.regs * r.width * 8

/-- R332: region record k of an array. -/
def regionOf (bs : List Byte) (k : Nat) : Region :=
  let f (off lo width : Nat) : Nat := recField bs (32 * k + off) lo width
  { base := f 0 0 64, extent := f 8 0 41, read := f 0x10 0 1 == 1, write := f 0x10 1 1 == 1, concurrent := f 0x10 2 1 == 1,
    stash := f 0x10 3 1 == 1, forward := f 0x10 4 1 == 1, fwddie := f 0x10 8 2 }

/-- R333: whether region record k of an array has a fault. -/
def regionBad (bs : List Byte) (k : Nat) : Bool :=
  let f (off lo width : Nat) : Nat := recField bs (32 * k + off) lo width
  let g := regionOf bs k
  g.base = 0 || g.extent = 0 || g.base % 128 ≠ 0 || 2 ^ 52 ≤ g.base || g.extent % 128 ≠ 0 || 2 ^ 40 < g.extent ||
  2 ^ 52 < g.base + g.extent || (!g.read && !g.write) || g.fwddie = 3 || (g.fwddie ≠ 0 && !g.forward) ||
  f 8 41 23 ≠ 0 || f 0x10 5 3 ≠ 0 || f 0x10 10 54 ≠ 0 || f 0x18 0 64 ≠ 0

/-- Whether two records share a byte. -/
def Region.meets (a b : Region) : Bool := a.base < b.base + b.extent && b.base < a.base + a.extent

/-- R282: whether a task's modes fail launch. -/
def modesBad (r : TaskRec) : Bool :=
  (r.digest && !r.restartable) ||
  (r.restartable && r.regions.any fun a => a.read && r.regions.any fun b => b.write && a.meets b) ||
  (r.restartable && r.coresident) || (r.deterministic && r.coresident) ||
  ((r.deterministic || r.digest) && r.regions.any Region.concurrent) ||
  (r.boused && !r.coresident) ||
  r.regions.any fun g => g.stash && g.concurrent

/-! ### Acceptance -/

/-- The module with no team resident (R262). -/
def emptied (s : State) : State := { s with gangs := [], teams := [] }

/-- R334: the outcome of the checks: the record with its regions, or a launch status. -/
def launchCheck (s : State) (ctx addr : Nat) (bs : List Byte) : Except Nat TaskRec :=
  let r := recordOf addr bs
  if recordBad bs r then .error 0x10
  else
    let n := recField bs 0x48 0 7
    match cleanRead s ctx (recField bs 0x40 0 64) (32 * n) with
    | none => .error 0x11
    | some arr =>
      if (List.range n).any (regionBad arr) then .error 0x11
      else
        let r := { r with regions := (List.range n).map (regionOf arr) }
        let e := emptied s
        if modesBad r then .error 0x12
        else if (planHalf e r 0 (if r.span then r.gangs / 2 else r.gangs)).isNone then .error 0x13
        else if r.coresident && (placeAll e 0 (Task.fresh r ctx 0 0 .waiting) ((List.range r.total).map (nthTeam r))).isNone then .error 0x14
        else .ok r

/-- R406: the words of a record and of its region records are corrected as they are read. -/
def recordCorrect (s : State) (ctx addr : Nat) (bs : List Byte) : State :=
  let s := agentCorrect s ctx addr 256
  if recordBad bs (recordOf addr bs) then s else agentCorrect s ctx (recField bs 0x40 0 64) (32 * recField bs 0x48 0 7)

/-- R335: a free task slot. -/
def freeTaskSlot (s : State) : Option Nat := (List.range 128).find? fun k => (s.task? k).isNone

/-- R334, R392: a task enters acceptance order in a slot. SLOT is the byte of its number; a failed write of it is logged at that byte (log
entry 98). -/
def accept (s : State) (q slot ctx : Nat) (r : TaskRec) : State :=
  let s := recordWrite s slot ctx r.taskid (r.addr + 0x49) [BitVec.ofNat 8 slot]
  let s := recordWrite s slot ctx r.taskid (r.addr + 0x68) (leBytes 8 (statusWord 1 0 none))
  let s := { s.setTask slot (Task.fresh r ctx q s.nextOrder .waiting) with nextOrder := s.nextOrder + 1 }
  let s := noteProgress s ctx
  { s with ctxs := KMap.modify s.ctxs ctx fun c => if c.state = .idle then { c with state := .waiting, waitSince := s.tick } else c }

/-- R392: whether a queue's TASK packet has its turn: the tick it was reached in is over, and no lower queue reached one in that tick. -/
def acceptTurn (s : State) (q since : Nat) : Bool :=
  since < s.tick && !s.queues.any fun e => e.1 < q && match e.2.act with
    | .task _ t => t == since
    | _ => false

/-- R331, R334, R375, R392: the command processor accepts the task of a queue that waits with a TASK packet, or fails its launch. -/
def execTaskAccept (q : Nat) (s : State) : Host.Outcome State Fault Refusal :=
  match s.queue? q with
  | none => .next s
  | some x =>
    let held := s.halted || s.fw.activating.isSome || s.ckptRun.isSome || (s.ctx? x.ctx).isNone
    match x.act, freeTaskSlot s with
    | .task addr since, some slot =>
      if held || !acceptTurn s q since then .next s
      else match cleanRead s x.ctx addr.toNat 256 with
        | none => .next (queueError s q 0x05)
        | some bs =>
          let s := recordCorrect s x.ctx addr.toNat bs
          match launchCheck s x.ctx addr.toNat bs with
          | .ok r => .next (packetDone (accept s q slot x.ctx r) q)
          | .error st =>
            let r := recordOf addr.toNat bs
            let s := recordWrite s 0 x.ctx r.taskid (addr.toNat + 0x68) (leBytes 8 (statusWord st 0 none))
            .next (packetDone (doneSignal s x.ctx r 0 0xFC true) q)
    | _, _ => .next s

/-! ### Dependences and the start edge -/

/-- R336: one read of a dependence's signal object. -/
def execDependenceRead (slot dep : Nat) (s : State) : Host.Outcome State Fault Refusal :=
  match s.task? slot with
  | none => .next s
  | some t => match t.rec_.deps[dep]? with
    | none => .next s
    | some d =>
      if t.stage ≠ .waiting || d.sigaddr = 0#64 || BitSet.has t.depsMet dep || paused s t.ctx then .next s
      else match readWord s t.ctx d.sigaddr with
        | none => .next (endWithoutEdges s slot 3 0xFD)
        | some x =>
          let s := agentCorrect s t.ctx d.sigaddr.toNat 8
          .next (if d.stoperr && sigErr x ≠ 0 then endWithoutEdges s slot 3 0xFD
            else if d.need ≤ sigCount x then s.setTask slot { t with depsMet := BitSet.put t.depsMet dep true }
            else s)

/-- R337: whether every dependence is met. -/
def depsDone (t : Task) : Bool :=
  (List.range t.rec_.deps.length).all fun k => BitSet.has t.depsMet k || ((t.rec_.deps[k]?).map fun d => d.sigaddr == 0#64).getD true

/-- The pages that a task's records cover. -/
def Task.pages (t : Task) : List Nat := (t.rec_.regions.flatMap Region.pages).eraseDups

/-- R338: the pages of a task, each with the page of memory it names. -/
def Task.names (s : State) (t : Task) : List (Nat × Option Nat) := t.pages.map fun p => (p, frameOf s t.ctx p)

/-- R338: the records of a task that cover a page of memory, under any of the names the task has for it. -/
def coverOf (t : Task) (names : List (Nat × Option Nat)) (n : Nat × Option Nat) : List Region :=
  t.rec_.regions.filter fun g => names.any fun m => (m.1 == n.1 || (n.2.isSome && m.2 == n.2)) && g.onPage m.1

/-- R338: whether two tasks conflict on a page of memory. -/
def tasksConflict (s : State) (a b : Task) : Bool :=
  let as := a.names s
  let bs := b.names s
  as.any fun p => bs.any fun q =>
    ((a.ctx == b.ctx && p.1 == q.1) || (p.2.isSome && p.2 == q.2)) &&
      (let rs := coverOf a as p ++ coverOf b bs q
       rs.any Region.write && rs.any fun g => !g.concurrent)

/-- R339: whether a task accepted earlier still holds a task back. -/
def arbitrated (s : State) (t : Task) : Bool := s.tasks.any fun e => e.2.order < t.order && tasksConflict s e.2 t

/-- R340: the start edge. -/
def execStartEdge (slot : Nat) (s : State) : Host.Outcome State Fault Refusal :=
  match s.task? slot with
  | none => .next s
  | some t =>
    if t.stage ≠ .waiting || !depsDone t || s.halted || paused s t.ctx || arbitrated s t || deferredInto s t then .next s
    else
      let follows := followsOf s t
      let s := { s.setTask slot { t with stage := .running, classes := [], follows, codeBase := codeBaseOf s follows } with icache := [] }
      .next (traceTask s t.ctx 0 t.rec_.taskid 0 0)

/-! ### The end edge -/

/-- R344, R347, R432: whether a task's flush runs now. -/
def flushRuns (s : State) (t : Task) : Bool :=
  match s.ctx? t.ctx with
  | none => t.forced
  | some c => (t.forced || c.state == .scheduled) && !anyStop s t.ctx

/-- R345: the owned copies of a line are written back to the home, and stay clean. -/
def writeBackOwned (s : State) (ctx line : Nat) : State :=
  let mine (l : L1Line) : Bool := l.line == line && l.owned
  let out := s.l1.filter mine
  let s := out.foldl (fun s l => portCross s l.core ctx) s
  let l1 := s.l1.map fun l => if mine l then { l with owned := false, dirty := [] } else l
  let s := { s with mem := out.foldl (fun m l => writeDirty m l.dirty) s.mem, memPoison := out.foldl writePoison s.memPoison, l1,
                    directory := keepDirectory l1 s.filters s.directory }
  if out.isEmpty then s else noteProgress s ctx

/-- R345: the flush acts on one line. -/
def flushAct (s : State) (t : Task) (g : Region) (line : Nat) : State :=
  let va := g.base + 128 * line
  match ownPlace s t.ctx va with
  | some (pa, _) =>
    let s := if t.classOf (va / 4096) = .shared then writeBackOwned s t.ctx (pa / 128) else s
    if !g.forward then s
    else
      match g.fwddie with
      | 0 => putDieLine s 0 (pa / 128)
      | 1 => putDieLine s 1 (pa / 128)
      | _ => putDieLine (putDieLine s 0 (pa / 128)) 1 (pa / 128)
  | none => s

/-- R345, R346: one line of the flush. -/
def execFlushLine (slot : Nat) (s : State) : Host.Outcome State Fault Refusal :=
  match s.task? slot with
  | none => .next s
  | some t => match t.stage with
    | .flushing k l =>
      if !flushRuns s t then .next s
      else match cursorFrom t 65 k l with
        | none => .next (flushDone s slot t)
        | some (j, m) => match t.rec_.regions[j]? with
          | none => .next s
          | some g =>
            let s := flushAct s t g m
            match cursorFrom t 65 j (m + 1) with
            | none => .next (flushDone s slot t)
            | some (j', m') => .next (s.setTask slot { t with stage := .flushing j' m', flushStopped := false })
    | _ => .next s

/-- R372: a digest mismatch is logged and counted. -/
def logMismatch (s : State) (slot : Nat) (t : Task) : State :=
  let e (type addr info : Nat) : LogEntry := { LogEntry.at s.tick type with ctx := t.ctx, taskid := t.rec_.taskid, addr, info }
  logCtx (s.bump .digmis t.ctx) t.ctx [e 0x05 t.rec_.digref.toNat slot, e 0x06 t.digest.toNat 0]

/-- R372: the task runs again in place of the rest of its end edge. -/
def rerunTask (s : State) (slot : Nat) (t : Task) : State :=
  (logMismatch s slot t).setTask slot
    { t with stage := .running, rerun := true, classes := [], reclassing := [], reclass := 0#64, relaunches := [],
             digest := 0#64, placed := 0, relaunch := [], retired := [], longest := 0, sumUnclass := 0#64,
             sumIssues := 0#64, teamsRetired := 0#64, flushStopped := false }

/-- R328: the word at 0x00 of a record, from the slot's copy, with REFSET set. -/
def TaskRec.refWord (r : TaskRec) : Nat :=
  let flag (b : Bool) (k : Nat) : Nat := if b then 2 ^ k else 0
  r.taskid.toNat + flag r.deterministic 32 + flag r.digest 33 + flag r.restartable 34 + flag r.coresident 35 + flag r.span 36 +
    flag r.boused 37 + 2 ^ 38

/-- R331, R371: DIGREF, and REFSET in the word at 0x00, written. -/
def writeDigref (s : State) (slot : Nat) (t : Task) : State :=
  let s := recordWrite s slot t.ctx t.rec_.taskid (t.rec_.addr + 0x58) (leBytes 8 t.digest.toNat)
  if t.rec_.refset then s
  else recordWrite s slot t.ctx t.rec_.taskid t.rec_.addr (leBytes 8 t.rec_.refWord)

/-- R419: the TASKEND record. -/
def taskEnd (s : State) (slot estat : Nat) (t : Task) : State :=
  match s.telInterval with
  | none => s
  | some k =>
    telOffer s t.ctx (telRecord 0x60 0 (s.tick / 2 ^ k + 1) s.tick
      [w64 (t.rec_.taskid.toNat + 2 ^ 32 * slot + 2 ^ 40 * estat), t.reclass, t.sumUnclass, t.sumIssues, t.teamsRetired])

/-- R348: ESTAT and ERR of a task whose end edge ends. -/
def Task.outcome (t : Task) : Nat × Nat :=
  match t.fault with
  | some (c, _) => (2, c)
  | none => if t.estat ≠ 0 then (t.estat, t.errCode) else (1, 0)

/-- R11, R336, R337: a task that ends its end edge, as those that depend on it name it. -/
def noteEnded (s : State) (t : Task) : State :=
  let place := match agentXlat s t.ctx t.rec_.donesig.toNat .write with
    | .ok pa _ => some pa
    | _ => none
  { s with ended := s.ended ++ [⟨t.order, t.ctx, t.rec_.donesig, place, t.follows⟩] }

/-- R344 steps 4 to 7. -/
def release (s : State) (slot : Nat) (t : Task) : State :=
  let o := t.outcome
  let s := { s with tasks := KMap.del s.tasks slot }
  let s := performReleased s s.deferral.length
  let w := recordWrite s slot t.ctx t.rec_.taskid
  let s := w (t.rec_.addr + 0x68) (leBytes 8 (statusWord 1 o.1 t.fault))
  let s := if t.rec_.deterministic then
      recordWrite s slot t.ctx t.rec_.taskid (t.rec_.addr + 0x60) (leBytes 8 (max t.rec_.teamtime.toNat t.longest))
    else s
  let s := traceTask (taskEnd s slot o.1 t) t.ctx 0 t.rec_.taskid 1 0
  let s := doneSignal (noteEnded s t) t.ctx t.rec_ slot o.2 t.fault.isNone
  settleCtx (noteProgress s t.ctx) t.ctx

/-- R344 steps 2 to 7, R371, R372. -/
def execEndEdgeFinish (slot : Nat) (s : State) : Host.Outcome State Fault Refusal :=
  match s.task? slot with
  | none => .next s
  | some t =>
    if t.stage ≠ .flushed || anyStop s t.ctx then .next s
    else
      let s := dropLines s fun l => l.slot == slot
      if t.rec_.digest && t.outcome.1 = 1 then
        if t.rerun then .next (release ((writeDigref s slot t).bump .reexec t.ctx) slot t)
        else if !t.rec_.refset then .next (release (writeDigref s slot t) slot t)
        else if t.digest = t.rec_.digref then .next (release s slot t)
        -- a forced reset has no place for a second run: its task keeps its outcome (R382, log entry 77)
        else if t.forced then .next (release (logMismatch s slot t) slot t)
        else .next (rerunTask s slot t)
      else .next (release s slot t)

end Sys2Proof.Machine
end

