-- ==== Sys2Proof/Machine/Manage.lean ====
section
/-! DEFINITION. The management commands on contexts, queues, keys, windows and worlds (R373, R374, R386, R393, R396, R397, R399,
R400), and what all commands share: sessions, refusals and replies (R374, R414, R438, R439). -/

namespace Sys2Proof.Machine

/-! ### Commands -/

/-- R374: a command carried out. -/
def accepted (s : State) : Host.Outcome State Fault Refusal := .next (answer s .ok)
/-- R374: a command refused with a status: nothing changes. -/
def refusedWith (s : State) (why : String) : Host.Outcome State Fault Refusal := .next (answer s (.refused why))

/-- R414: whether a session may name a context. -/
def mayName (s : State) (x : Session) (ctx : Nat) : Bool :=
  x.secure || !((s.ctx? ctx).map fun c => c.m.secure).getD false

/-- R438, R439: a command of an open session, refused in recovery and after a module-fatal error. -/
def command (s : State) (session : Nat) (f : Session → Host.Outcome State Fault Refusal) : Host.Outcome State Fault Refusal :=
  match KMap.get? s.sessions session with
  | none => refusedWith s "SESSION"
  | some x => if s.halted || s.fw.recovery then refusedWith s "RECOVERY" else f x

/-- R438, R439: a command that recovery accepts too. -/
def anyCommand (s : State) (session : Nat) (f : Session → Host.Outcome State Fault Refusal) : Host.Outcome State Fault Refusal :=
  match KMap.get? s.sessions session with
  | none => refusedWith s "SESSION"
  | some x => f x

/-- A command that names a context. -/
def ctxCommand (s : State) (session ctx : Nat) (f : Option Ctx → Host.Outcome State Fault Refusal) : Host.Outcome State Fault Refusal :=
  command s session fun x => if mayName s x ctx then f (s.ctx? ctx) else refusedWith s "WORLD"

/-! ### Rings -/

/-- R405: a ring set: its header read, WRITTEN and DROPPED written 0; kind is that of RING-FAULT, die that of a trace ring. -/
def setRing (s : State) (ctx header kind : Nat) (die : Nat := 0) : Ring × State :=
  let r : Ring := { header, log2n := 0, written := 0, dropped := 0, disabled := false, pendingDrops := 0, stamp := none }
  let bad : Ring × State := ({ r with disabled := true }, ringFault s ctx header kind die)
  match agentRead s ctx header 8 with
  | .error _ => bad
  | .ok bs =>
    let n := leVal bs % 32
    if n < 4 || 20 < n then bad
    else match agentWrite s ctx (header + 8) (leBytes 8 0) with
      | .error _ => bad
      | .ok s1 => match agentWrite s1 ctx (header + 24) (leBytes 8 0) with
        | .error _ => ({ r with disabled := true }, ringFault s1 ctx header kind die)
        | .ok s2 => ({ r with log2n := n }, s2)

/-- The error-log ring of a context set. -/
def setErrRing (s : State) (ctx : Nat) (header : Nat) : State :=
  let r := setRing s ctx header 0
  { r.2 with ctxs := KMap.modify r.2.ctxs ctx fun c => { c with errRing := some r.1 } }

/-! ### Contexts -/

/-- R373, R374: the limits of the M fields of a context. -/
def fieldsOk (s : State) (ctx : Nat) (p : CtxFields) : Bool :=
  let others := s.ctxs.foldl (fun n e => if e.1 = ctx then n else n + e.2.m.share) 0
  ctx < 64 && p.prio ≤ 7 && p.share ≤ 64 && others + p.share ≤ 64 && p.troot.toNat % 65536 == 0 &&
  1 ≤ p.slice && p.slice < 2 ^ 32 && p.stall < 2 ^ 32 && 1 ≤ p.deadline && p.deadline < 2 ^ 64 &&
  p.saverec.toNat % 64 == 0 && p.errlog.toNat % 64 == 0 &&
  (List.range 64).all fun k => !p.coremask.getLsbD k || s.secureCores.getLsbD k == p.secure

/-- The counters of a context. -/
def ctxCounters : List Counter :=
  [.stalecnt, .boerr, .engflt, .deferred, .refused, .netrefuse, .migrations, .digmis, .reexec, .preempts, .resets, .relaunch,
   .logdrop, .teldrop, .tracedrop]

/-- R374: CTXSET; none is a command that omits an M field. -/
def execCtxset (session ctx : Nat) (fields : Option CtxFields) (s : State) : Host.Outcome State Fault Refusal :=
  command s session fun x => match fields with
  | none => refusedWith s "FIELDS"
  | some p =>
    if !mayName s x ctx || (p.secure && !x.secure) then refusedWith s "WORLD"
    else if !fieldsOk s ctx p then refusedWith s "LIMIT"
    else match s.ctx? ctx with
      | none =>
        let s := { s with counters := ctxCounters.foldl (fun m (c : Counter) => KMap.del m (c.key ctx)) s.counters }
        let c := { Ctx.fresh .idle p s.tick with debug := KMap.get? s.agents ctx }
        accepted (setErrRing ({ s with agents := KMap.del s.agents ctx }.setCtx ctx c) ctx p.errlog.toNat)
      | some c =>
        if c.state ≠ .idle && (p.secure ≠ c.m.secure || p.coremask ≠ c.m.coremask) then refusedWith s "STATE"
        else
          let s := s.setCtx ctx { c with m := p }
          accepted (if p.errlog = c.m.errlog then s else setErrRing s ctx p.errlog.toNat)

/-- R374: CTXRESET. -/
def execCtxreset (session ctx : Nat) (s : State) : Host.Outcome State Fault Refusal :=
  ctxCommand s session ctx fun c => if c.isNone then refusedWith s "FREE" else accepted (forceReset s ctx 3)

/-- R374: CTXCLEAR. -/
def execCtxclear (session ctx : Nat) (s : State) : Host.Outcome State Fault Refusal :=
  ctxCommand s session ctx fun c => match c with
    | none => refusedWith s "STATE"
    | some c =>
      if c.state ≠ .idle || !(ctxQueues s ctx).isEmpty then refusedWith s "STATE"
      else accepted { s with
        ctxs := KMap.del s.ctxs ctx
        agents := match c.debug with
          | some d => KMap.put s.agents ctx d
          | none => s.agents
        keys := s.keys.filter fun e => e.2.ctx != ctx
        windows := s.windows.filter fun e => e.2.ctx != ctx
        qps := s.qps.filter fun e => e.2.ctx != ctx
        telModule := if s.telModule = some ctx then none else s.telModule }

/-- R373: STATE as a number. -/
def CtxState.code : CtxState → Nat
  | .free => 0
  | .idle => 1
  | .waiting => 2
  | .scheduled => 3
  | .draining => 4
  | .preempted => 5
  | .resetting => 6

/-- R373: the words of a descriptor. -/
def ctxWords : Option Ctx → List W64
  | none => List.replicate 7 0#64
  | some c =>
    [w64 (c.state.code + (if c.m.secure then 8 else 0) + 2 ^ 4 * c.m.prio + 2 ^ 7 * c.m.share), c.m.troot, c.m.coremask,
     w64 (c.m.slice + 2 ^ 32 * c.m.stall), w64 c.m.deadline, c.m.saverec, c.m.errlog]

/-- R374: CTXQUERY. -/
def execCtxquery (session ctx : Nat) (s : State) : Host.Outcome State Fault Refusal :=
  command s session fun _ => .next (answer s (.words (ctxWords (s.ctx? ctx))))

/-! ### Queues -/

/-- R386: whether a descriptor keeps its limits. -/
def descriptorOk (p : QueueFields) : Bool :=
  4 ≤ p.log2n && p.log2n ≤ 16 && p.ring.toNat % (64 * 2 ^ p.log2n) == 0 && p.tailAddr.toNat % 8 == 0 && p.headAddr.toNat % 8 == 0

/-- R374, R387: QMAP. -/
def execQmap (session q ctx : Nat) (p : QueueFields) (s : State) : Host.Outcome State Fault Refusal :=
  ctxCommand s session ctx fun c =>
    if c.isNone then refusedWith s "FREE"
    else if 32 ≤ q || (s.queue? q).isSome then refusedWith s "MAPPED"
    else if !descriptorOk p then refusedWith s "LIMIT"
    else match agentRead s ctx p.headAddr.toNat 8 with
      | .error _ => refusedWith s "HEAD"
      | .ok bs =>
        accepted (s.setQueue q { ctx, d := p, head := leVal bs, act := .acting, arm := none, armFail := none, unmapping := false })

/-- R374: QUNMAP. -/
def execQunmap (session q : Nat) (s : State) : Host.Outcome State Fault Refusal :=
  command s session fun x => match s.queue? q with
    | none => refusedWith s "UNMAPPED"
    | some d =>
      if !mayName s x d.ctx then refusedWith s "WORLD"
      else
        let now : Bool := match d.act with
          | .blocked | .error _ => true
          | _ => false
        accepted (if now then { s with queues := KMap.del s.queues q } else s.setQueue q { d with unmapping := true })

/-- R374, R390, R393: QRESUME. -/
def execQresume (session q : Nat) (skip : Bool) (s : State) : Host.Outcome State Fault Refusal :=
  command s session fun x => match s.queue? q with
    | none => refusedWith s "UNMAPPED"
    | some d =>
      if !mayName s x d.ctx then refusedWith s "WORLD"
      else match d.act with
        | .error _ =>
          let s := s.setQueue q { d with act := .acting, armFail := none }
          accepted (if skip then packetDone s q else s)
        | _ => refusedWith s "STATE"

/-! ### Keys and windows -/

/-- R396: KEYSET. -/
def execKeyset (session : Nat) (key : W32) (entry : Option KeyEntry) (s : State) : Host.Outcome State Fault Refusal :=
  command s session fun x =>
    let old := KMap.get? s.keys key.toNat
    if !((old.map fun o => mayName s x o.ctx).getD true) then refusedWith s "WORLD"
    else match entry with
      | none => accepted { s with keys := KMap.del s.keys key.toNat }
      | some e => match s.ctx? e.ctx with
        | none => refusedWith s "FREE"
        | some c =>
          if !mayName s x e.ctx || e.secure ≠ c.m.secure then refusedWith s "WORLD"
          else if old.isSome || 4096 ≤ s.keys.length then refusedWith s "BOUND"
          else accepted { s with keys := KMap.put s.keys key.toNat e }

/-- R397: the limits of a window entry. -/
def windowOk (window : Nat) (e : WindowEntry) : Bool :=
  window < 256 && e.ctx < 64 && e.port < 8 && e.qp < 4096 && e.length % 4096 == 0 && e.length ≤ 2 ^ 40

/-- R394: whether a queue pair may serve a port and a context: it is bound to no other. -/
def qpFree (s : State) (qp port ctx : Nat) : Bool := ((KMap.get? s.qps qp).map fun q => q == ⟨port, ctx⟩).getD true

/-- R394, R397: WINSET; the window's queue pair is bound to its port and context. -/
def execWinset (session window : Nat) (entry : Option WindowEntry) (s : State) : Host.Outcome State Fault Refusal :=
  command s session fun x =>
    let named (e : Option WindowEntry) : Bool := (e.map fun e => mayName s x e.ctx).getD true
    if !named (KMap.get? s.windows window) || !named entry then refusedWith s "WORLD"
    else if s.peers.any fun e => e.2.window == window then refusedWith s "INFLIGHT"
    else match entry with
      | none => accepted { s with windows := KMap.del s.windows window }
      | some e =>
        if !windowOk window e then refusedWith s "LIMIT"
        else if !qpFree s e.qp e.port e.ctx then refusedWith s "BOUND"
        else accepted { s with windows := KMap.put s.windows window e, qps := KMap.put s.qps e.qp ⟨e.port, e.ctx⟩ }

/-! ### Worlds -/

/-- R400: a secure range: whole 2 MiB units of near or far memory. -/
def rangeOk (r : SecRange) : Bool :=
  r.base % 2 ^ 21 == 0 && r.size % 2 ^ 21 == 0 &&
  (r.base + r.size ≤ 2 ^ 33 || (2 ^ 40 ≤ r.base && r.base + r.size ≤ 2 ^ 41))

/-- R399, R400: SECSET. -/
def execSecset (session : Nat) (ranges : List SecRange) (cores : LaneMask) (s : State) : Host.Outcome State Fault Refusal :=
  command s session fun x =>
    let moved := s.secureCores ^^^ cores
    if !x.secure then refusedWith s "WORLD"
    else if 16 < ranges.length || !ranges.all rangeOk then refusedWith s "LIMIT"
    else if s.teams.any fun e => e.2.halves.any fun h => moved.getLsbD h.core then refusedWith s "RESIDENT"
    else accepted { s with secure := ranges, secureCores := cores }

end Sys2Proof.Machine
end

