-- ==== Sys2Proof/Machine/Telem.lean ====
section
/-! DEFINITION. Telemetry (R414 to R418), samples (R424), the token buckets (R383), and the commands that set rings. -/

namespace Sys2Proof.Machine

/-- R414, R415: TELSET. -/
def execTelset (session k ctx : Nat) (ring : W64) (mods : Bool) (s : State) : Host.Outcome State Fault Refusal :=
  ctxCommand s session ctx fun c =>
    if c.isNone then refusedWith s "FREE"
    else if k < 10 || 24 < k || ring.toNat % 64 ≠ 0 then refusedWith s "LIMIT"
    else if mods && s.telModule.isSome && s.telModule ≠ some ctx then refusedWith s "MODULE"
    else
      let r := setRing s ctx ring.toNat 1
      let s := r.2
      accepted { s with
        ctxs := KMap.modify s.ctxs ctx fun c => { c with telRing := some r.1, telMods := mods }
        telInterval := some k
        telModule := if mods then some ctx else if s.telModule = some ctx then none else s.telModule }

/-- R414: what a stream has before another takes its place is written, and what a stopped die keeps for it ends with it. -/
def traceReady (s : State) (ctx die : Nat) : State :=
  let s := flushEarly s fun c d => c == ctx && d == die
  { s with traceBuf := s.traceBuf.filter fun e => !(e.1 == ctx && e.2.1 == die) }

/-- R414, R420, R423: TRACESET. -/
def execTraceset (session ctx die : Nat) (ring : W64) (en : BitVec 4) (iv : Nat) (s : State) : Host.Outcome State Fault Refusal :=
  ctxCommand s session ctx fun c =>
    if c.isNone then refusedWith s "FREE"
    else if iv < 10 || 24 < iv || 2 ≤ die || ring.toNat % 64 ≠ 0 then refusedWith s "LIMIT"
    else
      let r := setRing (traceReady s ctx die) ctx ring.toNat 2 die
      let s := { r.2 with ctxs := KMap.modify r.2.ctxs ctx fun c => { c with trace := KMap.put c.trace die ⟨r.1, en, iv⟩ } }
      accepted (traceTime s ctx die)

/-! ### The latch -/

/-- R417: the records of the module, the dies, the cores and the ports at a tick, in the order of R418. -/
def moduleRecords (s : State) (seq tick : Nat) : List (List Byte) :=
  let rec_ (type src : Nat) (cs : List W64) : List Byte := telRecord type src seq tick cs
  let mhz (d : Nat) : W64 := w64 (((KMap.get? s.dies d).map Die.mhz).getD 0)
  let cores := List.range 64
  [rec_ 0x50 0 [s.count .energy 0, s.count .tempmax 0, mhz 0, mhz 1, s.count .loglost 0, 0#64]] ++
  (List.range 2).map (fun d => rec_ 0x20 d
    [s.count .viaflits d, s.count .viareplay d, s.count .viaretrain d, s.count .diecorr d, s.count .poisonnew d, s.count .recalls d]) ++
  cores.map (fun c => rec_ 0x10 c
    [s.count .issue c, s.count .dep c, s.count .memHeld c, s.count .sync c, s.count .idle c, s.count .clocks c]) ++
  cores.map (fun c => rec_ 0x11 c
    [s.count .mxbusy c, s.count .sfubusy c, s.count .englines c, s.count .portlines c, s.count .ecccorr c, s.count .genrefuse c]) ++
  (List.range 8).map (fun p => rec_ 0x30 p
    [s.count .txbytes p, s.count .rxbytes p, s.count .cnprx p, s.count .pfcticks p, s.count .naktx p, s.count .retrans p])

/-- R417: the records of a context. -/
def ctxRecords (s : State) (seq tick n : Nat) : List (List Byte) :=
  let rec_ (type : Nat) (cs : List W64) : List Byte := telRecord type n seq tick cs
  [rec_ 0x40 [s.count .stalecnt n, s.count .boerr n, s.count .engflt n, s.count .deferred n, s.count .refused n, s.count .netrefuse n],
   rec_ 0x41 [s.count .migrations n, s.count .digmis n, s.count .reexec n, s.count .preempts n, s.count .resets n, s.count .relaunch n],
   rec_ 0x42 [s.count .logdrop n, s.count .teldrop n, s.count .tracedrop n]]

/-- R418: the records of a latch with the contexts whose rings take them, in order: of the counters and the dies as the latch holds
them. -/
def latchRecords (s : State) (l : TelLatch) : List (Nat × List Byte) :=
  let at_ : State := { s with counters := l.counters, dies := l.dies }
  let seq := l.tick / 2 ^ l.log2
  (match s.telModule with
    | some c => (moduleRecords at_ seq l.tick).map fun r => (c, r)
    | none => []) ++
  (s.ctxs.filter fun e => e.2.telRing.isSome).flatMap fun e => (ctxRecords at_ seq l.tick e.1).map fun r => (e.1, r)

/-- The module's sensors as counters (R417). -/
def putSensors (m : KMap W64) (energy tempMax : Nat) : KMap W64 :=
  KMap.set (KMap.set m 0#64 (Counter.key .energy 0) (w64 energy)) 0#64 (Counter.key .tempmax 0) (w64 tempMax)

/-- R415, R418: the records of the latch that the last tick of the interval took are made, with the sensors' values at it. -/
def execTelemetryLatch (energy tempMax : Nat) (s : State) : Host.Outcome State Fault Refusal :=
  match s.telLatch with
  | some l =>
    .next { s with counters := putSensors s.counters energy tempMax, telLatch := none,
                   telPending := latchRecords s { l with counters := putSensors l.counters energy tempMax } }
  | none => .next s

/-- R415: the telemetry thread offers the next record of the latch. -/
def offerNext (s : State) : State :=
  match s.telPending with
  | [] => s
  | (c, r) :: rest => telOffer { s with telPending := rest } c r

/-- R415: at a tick of the interval every counter latches, and what an earlier latch has left is dropped. -/
def latchTick (s : State) : State :=
  match s.telInterval with
  | none => s
  | some k =>
    if s.tick % 2 ^ k ≠ 0 then s
    else
      let left := s.telPending ++ match s.telLatch with
        | some l => latchRecords s l
        | none => []
      left.foldl (fun s e => telDrop s e.1) { s with telPending := [], telLatch := some ⟨k, s.tick, s.counters, s.dies⟩ }

/-! ### Samples -/

/-- R424: the resident gang of a context in a partition whose last issue is the most recent. -/
def sampleGang (s : State) (core part ctx : Nat) : Option (GangRef × Gang × Who) :=
  let c := s.gangs.filterMap fun e =>
    let r := gangOfNum e.1
    match s.who r with
    | some w => if r.core = core && r.part = part && w.ctx = ctx then some (r, e.2, w) else none
    | none => none
  let key (x : GangRef × Gang × Who) : Nat := match x.2.1.lastIssue with
    | some n => n + 1
    | none => 0
  match c with
  | [] => none
  | x :: xs => some (xs.foldl (fun b y => if key y > key b then y else b) x)

/-- 32-bit values packed two to a word. -/
def pairWords : List Nat → List W64
  | [] => []
  | [a] => [w64 (a % 2 ^ 32)]
  | a :: b :: t => w64 (a % 2 ^ 32 + 2 ^ 32 * (b % 2 ^ 32)) :: pairWords t

/-- R422: the SAMPLE record of a gang. -/
def sampleRec (r : GangRef) (g : Gang) (index taskid : Nat) (code : W64) : TraceRec :=
  let pcs := (List.range g.width).map fun l => if g.live.getLsbD l then (KMap.get g.pc 0#64 l - code).toNat else 0
  { type := 5, core := r.core, part := r.part, slot := r.slot, gang := g.index, ret := g.lastRet, inh := g.inh,
    w1 := w64 (taskid + 2 ^ 32 * index), more := [g.live, g.lastSet] ++ pairWords pcs }

/-- R424: an earlier sample of a core in a tick is none: that at the tick's end stands. -/
def dropSample (s : State) (core ctx : Nat) : State :=
  if KMap.get? s.sampledAt (core * 64 + ctx) == some s.tick then
    { s with traceBuf := s.traceBuf.filter fun e => !(e.1 == ctx && e.2.2.type == 5 && e.2.2.core == core) }
  else s

/-- R424: a sample of a core that its context's stream takes in a tick. -/
def putSample (s : State) (core ctx : Nat) (r : TraceRec) : State :=
  trace { s with sampledAt := KMap.put s.sampledAt (core * 64 + ctx) s.tick } ctx (core / 32) 1#4 r

/-- R424: the sample of a core for a context in a tick of the stream's interval. -/
def sampleCore (s : State) (core ctx : Nat) : State :=
  match traceStream s ctx (core / 32) with
  | none => s
  | some t =>
    if !t.en.getLsbD 0 || s.tick % 2 ^ t.s ≠ 0 || dieStopped s (core / 32) then s
    else
      let s := dropSample s core ctx
      match sampleGang s core (s.tick / 2 ^ t.s % 32) ctx with
      | none => s
      | some (r, g, w) => match s.task? w.slot with
        | none => s
        | some k => putSample s core ctx (sampleRec r g w.index k.rec_.taskid.toNat k.rec_.code)
/-- R424: TRACE_SAMPLE. -/
def execTraceSample (core ctx : Nat) (s : State) : Host.Outcome State Fault Refusal := .next (sampleCore s core ctx)
/-- R424: the samples due at the end of a tick. -/
def sampleAll (s : State) : State :=
  (s.ctxs.filter fun e => !e.2.trace.isEmpty).foldl (fun s e => (List.range 64).foldl (fun s core => sampleCore s core e.1) s) s

/-- Whether a tick has more to do than to pass: a latch may fall in it, or samples. -/
def tickBusy (s : State) : Bool := s.telInterval.isSome || s.ctxs.any fun e => !e.2.trace.isEmpty

/-- R415, R424: n ticks pass: at the end of each the samples due are taken and the records of its events written, at the start of
each the latch. -/
def passTick : Nat → State → State
  | 0, s => s
  | n + 1, s =>
    let s := flushTraces (sampleAll s)
    passTick n (latchTick { s with tick := s.tick + 1 })

/-! ### Buckets -/

/-- R383: the window of 1,024 clocks that a core is in. -/
def windowOf (s : State) (core : Nat) : Nat := (s.count .clocks core).toNat / 1024
/-- R383: the buckets of a core's port set to 64 times SHARE, for its window. -/
def refill (s : State) (core : Nat) : State :=
  let share (c : Nat) : Nat := ((s.ctx? c).map fun x => x.m.share).getD 0
  { s with buckets := (List.range 64).foldl (fun m c => KMap.set m 0 (core * 64 + c) (64 * share c)) s.buckets,
           bucketWindow := KMap.put s.bucketWindow core (windowOf s core) }
/-- R383: whether a core's window has begun without its refill. -/
def refillDue (s : State) (core : Nat) : Bool := KMap.get? s.bucketWindow core != some (windowOf s core)
/-- R383: BUCKET_REFILL, once in a window. -/
def execBucketRefill (core : Nat) (s : State) : Host.Outcome State Fault Refusal := .next (if refillDue s core then refill s core else s)

end Sys2Proof.Machine
end

