-- ==== Sys2Proof/Machine/Debug.lean ====
section
/-! DEFINITION. The debug agent (R425 to R431), dumps (R432 to R434) and LOGREAD (R412). -/

namespace Sys2Proof.Machine

/-! ### The agent -/

/-- R425: the agent of a context, FREE or not. -/
def agentOf (s : State) (ctx : Nat) : Option DebugRegs :=
  match s.ctx? ctx with
  | some c => Ctx.debug c
  | none => KMap.get? s.agents ctx

/-- R425: a context's agent set or cleared. -/
def setAgent (s : State) (ctx : Nat) (d : Option DebugRegs) : State :=
  match s.ctx? ctx with
  | some c => s.setCtx ctx { c with debug := d }
  | none => { s with agents := match d with
      | some d => KMap.put s.agents ctx d
      | none => KMap.del s.agents ctx }

/-- Whether a session is a context's agent. -/
def isAgent (s : State) (ctx session : Nat) : Bool := ((agentOf s ctx).map fun d => d.session == session).getD false

/-- R414, R425: DBGATTACH. -/
def execDbgattach (session ctx : Nat) (s : State) : Host.Outcome State Fault Refusal :=
  ctxCommand s session ctx fun _ =>
    if 64 ≤ ctx then refusedWith s "LIMIT"
    else if (agentOf s ctx).isSome then refusedWith s "AGENT"
    else accepted (setAgent s ctx (some { session, bp := [], dw := [], sw := [] }))

/-- R429 to R431: a stopped gang released: lanes stopped at a breakpoint or a HALTDBG are exempt there once. -/
def Gang.released (g : Gang) (step : Bool) : Gang :=
  let here := maskOf fun l => g.live.getLsbD l && g.tmask.getLsbD l && KMap.get g.pc 0#64 l == g.tpc
  { g with stopped := false, waits := none, stepArmed := step, stepDue := false,
           exempt := if g.cause = 0xF1#8 then g.exempt ||| here else g.exempt }

/-- R425: every stopped gang of a context released. -/
def releaseAll (s : State) (ctx : Nat) : State :=
  { s with gangs := s.gangs.map fun (e : Nat × Gang) =>
      match s.team? e.2.team with
      | some t => if t.ctx = ctx && e.2.stopped then (e.1, e.2.released false) else e
      | none => e }

/-- R414, R425: DBGDETACH; a dump's hold ends with the last stopped gang (log entry 85). -/
def execDbgdetach (session ctx : Nat) (s : State) : Host.Outcome State Fault Refusal :=
  ctxCommand s session ctx fun _ =>
    if isAgent s ctx session then accepted (dumpRelease (releaseAll (setAgent s ctx none) ctx) ctx) else refusedWith s "AGENT"

/-- R426: whether a value keeps the limits of a debug register word. -/
def debugOk (d : DebugRegs) (item : DebugItem) (value : W64) : Bool :=
  let v := value.toNat
  match item with
  | .bp k w => k < 8 && w < 2 && (w ≠ 0 || v % 4 == 0)
  | .dw k 0 => k < 4 && v % 2 ^ ((KMap.get d.dw 0#64 (4 * k + 1)).toNat % 64) == 0
  | .dw k 1 => k < 4 && 2 ≤ v % 64 && v % 64 ≤ 40 && v < 2 ^ 9 && (KMap.get d.dw 0#64 (4 * k)).toNat % 2 ^ (v % 64) == 0
  | .dw k w => k < 4 && w == 2
  | .sw k 0 => k < 4
  | .sw k w => k < 4 && w == 1 && v / 4 % 4 ≠ 3 && v / 16 % 2 ^ 12 == 0

/-- R426: a debug register word written. -/
def setDebug (d : DebugRegs) (item : DebugItem) (value : W64) : DebugRegs :=
  match item with
  | .bp k w => { d with bp := KMap.set d.bp 0#64 (4 * k + w) value }
  | .dw k w => { d with dw := KMap.set d.dw 0#64 (4 * k + w) value }
  | .sw k w => { d with sw := KMap.set d.sw 0#64 (4 * k + w) value }

/-- R414, R426: DBGSET. -/
def execDbgset (session ctx : Nat) (item : DebugItem) (value : W64) (s : State) : Host.Outcome State Fault Refusal :=
  ctxCommand s session ctx fun _ => match agentOf s ctx with
    | none => refusedWith s "AGENT"
    | some d =>
      if d.session ≠ session then refusedWith s "AGENT"
      else if !debugOk d item value then refusedWith s "LIMIT"
      else accepted (setAgent s ctx (some (setDebug d item value)))

/-! ### A stopped gang -/

/-- A stopped gang of a context, with its task's private words. -/
def stoppedGang (s : State) (ctx : Nat) (ref : GangRef) : Option (Gang × Nat) :=
  match s.gang? ref, s.who ref with
  | some g, some w =>
    if g.stopped && w.ctx = ctx then some (g, ((s.task? w.slot).map fun t => t.rec_.privw).getD 0) else none
  | _, _ => none

/-- R430: whether an item names a piece of a gang. -/
def itemOk (g : Gang) (item : GangItem) : Bool :=
  match item with
  | .v k l => k < g.regs && l < g.width
  | .s k => k < 64
  | .p k l => k < 7 && l < g.width
  | .n k => k < 16
  | .w k => k < 32
  | .lent k => k < 32
  | .creg k => k < 12
  | .pc l => l < g.width
  | .wait l => l < g.width

/-- R430: what GSTATE reads: the value, whether it is empty, and its poison. -/
def itemRead (g : Gang) (item : GangItem) : List W64 :=
  let b (x : Bool) : W64 := if x then 1#64 else 0#64
  match item with
  | .v k l =>
    let c := k * g.width + l
    [g.vReg k l, b (BitSet.has g.vEmpty c), b (BitSet.has g.vPoison (2 * c)) ||| (b (BitSet.has g.vPoison (2 * c + 1)) <<< 1)]
  | .s k => [KMap.get g.s 0#64 k, b (BitSet.has g.sEmpty k), b (BitSet.has g.sPoison (2 * k)) ||| (b (BitSet.has g.sPoison (2 * k + 1)) <<< 1)]
  | .p k l => [b ((KMap.get g.p 0#64 k).getLsbD l), b ((KMap.get g.pEmpty 0#64 k).getLsbD l), 0#64]
  | .n k => [(KMap.get g.n 0x80000000#32 k).zeroExtend 64, b (BitSet.has g.nEmpty k), b (BitSet.has g.nPoison k)]
  | .w k => [g.wReg k, 0#64, 0#64]
  | .lent k => [b (BitSet.has g.lent k), 0#64, 0#64]
  | .creg k => [cregVal g k, 0#64, 0#64]
  | .pc l => [KMap.get g.pc 0#64 l, 0#64, 0#64]
  | .wait l => [w64 (KMap.get g.wait 0 l), 0#64, 0#64]

/-- R414, R430: GSTATE. -/
def execGstate (session ctx : Nat) (ref : GangRef) (item : GangItem) (s : State) : Host.Outcome State Fault Refusal :=
  ctxCommand s session ctx fun _ => match stoppedGang s ctx ref with
    | none => refusedWith s "RUNNING"
    | some (g, _) => if itemOk g item then .next (answer s (.words (itemRead g item))) else refusedWith s "LIMIT"

/-- R430: the register write of an item that is a register. -/
def itemWrite (item : GangItem) (x : W64) : Option RegWrite :=
  match item with
  | .v k l => some (.v k l x 0#2)
  | .s k => some (.s k x 0#2)
  | .p k l => some (.p k l (x.getLsbD 0))
  | .n k => some (.n k (x.truncate 32) false)
  | _ => none

/-- R430: whether GSET may write an item with a value. -/
def itemSettable (g : Gang) (item : GangItem) (x : W64) : Bool :=
  itemOk g item && match item with
  | .lent _ => false
  | .creg k => k ≠ 0x0B
  | .pc _ => x.toNat % 4 == 0
  | _ => true

/-- R430: an item that is no register written. -/
def Gang.setItem (g : Gang) (P : Nat) (item : GangItem) (x : W64) : Gang :=
  match item with
  | .w k => g.putW k x
  | .creg k => if k = 0x0A then { g with privbase := x } else putCreg g P k x
  | .pc l => { g with pc := KMap.set g.pc 0#64 l x }
  | .wait l => { g with wait := KMap.set g.wait 0 l x.toNat }
  | _ => g

/-- R430: a GSET: a register that is empty takes the value right after the landing of its fill, and is empty until then. -/
def Gang.agentSet (g : Gang) (P : Nat) (item : GangItem) (x : W64) : Gang :=
  match itemWrite item x with
  | none => g.setItem P item x
  | some w =>
    match (g.fills.filter fun f => f.writes.any (·.meets w)).getLast? with
    | some f => { g with agentWrites := (g.agentWrites.filter fun e => !(e.1 == f.id && e.2.meets w)) ++ [(f.id, w)] }
    | none => g.write w

/-- R414, R430: GSET. -/
def execGset (session ctx : Nat) (ref : GangRef) (item : GangItem) (value : W64) (s : State) : Host.Outcome State Fault Refusal :=
  ctxCommand s session ctx fun _ => match stoppedGang s ctx ref with
    | none => refusedWith s "RUNNING"
    | some (g, P) =>
      if itemSettable g item value then accepted (s.setGang ref (g.agentSet P item value)) else refusedWith s "LIMIT"

/-- R414, R430, R431, R433: GRELEASE. -/
def execGrelease (session ctx : Nat) (ref : GangRef) (step : Bool) (s : State) : Host.Outcome State Fault Refusal :=
  ctxCommand s session ctx fun _ => match stoppedGang s ctx ref with
    | none => refusedWith s "RUNNING"
    | some (g, _) => accepted (dumpRelease (s.setGang ref (g.released step)) ctx)

/-! ### Dumps -/

/-- R414, R432: a dump that begins: where one that is over holds the context, the pause goes on, as does what it holds; the timers have
moved on by the pause so far, of which a checkpoint counts its own part. -/
def beginDump (s : State) (ctx : Nat) (d : Dump) : State :=
  match KMap.get? s.dumps ctx with
  | none => { s with dumps := KMap.put s.dumps ctx d }
  | some e =>
    let until_ := if ctxFrozen s ctx then (s.ckptRun.map CkptRun.t0).getD s.tick else s.tick
    { s with dumps := KMap.put s.dumps ctx { d with stop0 := true, stop1 := true, held := e.held },
             ctxs := KMap.modify s.ctxs ctx fun c => c.shifted (until_ - e.t0) }

/-- R414, R432: DUMP: the slice and the deadlines pause, the ports defer, and each die is sent a marker. -/
def execDump (session ctx : Nat) (area : W64) (hold : Bool) (s : State) : Host.Outcome State Fault Refusal :=
  ctxCommand s session ctx fun c => match c with
    | none => refusedWith s "STATE"
    | some c =>
      let ok := c.state == .scheduled || c.state == .draining || c.state == .preempted
      if !ok || (KMap.get? s.dumps ctx).any (!·.ended) || s.fw.activating.isSome then refusedWith s "STATE"
      else
        accepted (beginDump s ctx { area, hold, t0 := s.tick, stop0 := false, stop1 := false, cut0 := false, cut1 := false, records := [],
                                    held := [], ended := false })

/-- Bytes of a set of n bits. -/
def bitBytes (n : Nat) (f : Nat → Bool) : List Byte :=
  (List.range ((n + 7) / 8)).map fun j => BitVec.ofNat 8 ((List.range 8).foldl (fun a b => if f (8 * j + b) then a + 2 ^ b else a) 0)

/-- R434: a record of a dump. -/
def dumpRecord (kind : Nat) (payload : List Byte) : List Byte := leBytes 8 kind ++ leBytes 8 payload.length ++ payload

/-- R434: the GANG record. -/
def gangRecord (r : GangRef) (g : Gang) : List Byte :=
  let b8 (x : W64) : List Byte := leBytes 8 x.toNat
  let cells := g.regs * g.width
  dumpRecord 1 (
    leBytes 8 (r.core + 2 ^ 8 * r.part + 2 ^ 16 * r.slot + 2 ^ 24 * g.index) ++
    (List.range 12).flatMap (fun k => b8 (cregVal g k)) ++
    (List.range g.width).flatMap (fun l => b8 (KMap.get g.pc 0#64 l) ++
      leBytes 8 (2 * KMap.get g.wait 0 l + if g.live.getLsbD l then 1 else 0)) ++
    (List.range 64).flatMap (fun k => b8 (KMap.get g.s 0#64 k)) ++ (List.range 7).flatMap (fun k => b8 (KMap.get g.p 0#64 k)) ++
    (List.range 16).flatMap (fun k => leBytes 4 (KMap.get g.n 0x80000000#32 k).toNat) ++
    (List.range 32).flatMap (fun k => b8 (g.wReg k)) ++ bitBytes 32 (BitSet.has g.lent) ++
    (List.range cells).flatMap (fun c => b8 (KMap.get g.v 0#64 c)) ++
    bitBytes cells (BitSet.has g.vEmpty) ++ bitBytes 64 (BitSet.has g.sEmpty) ++
    (List.range 7).flatMap (fun k => b8 (KMap.get g.pEmpty 0#64 k)) ++ bitBytes 16 (BitSet.has g.nEmpty) ++
    bitBytes (2 * cells) (BitSet.has g.vPoison) ++ bitBytes 128 (BitSet.has g.sPoison) ++ bitBytes 16 (BitSet.has g.nPoison))

/-- R434: the TEAM record. -/
def teamRecord (t : Team) : List Byte :=
  dumpRecord 2 (
    leBytes 8 t.index ++ (List.range 16).flatMap (fun b => leBytes 16 (KMap.get t.arr 0#128 b).toNat) ++
    (match t.carve with
      | some c => leBytes 8 (1 + 2 ^ 8 * c.spu + 2 ^ 24 * c.l1u)
      | none => leBytes 8 0) ++
    t.halves.flatMap fun h => leBytes 8 (h.scratchUnits.length + 2 ^ 16 * h.l1Units.length) ++
      (List.range (h.scratchUnits.length * 65536)).map fun a => KMap.get h.bytes 0#8 a)

/-- R434: the ENGINE record. -/
def engineRecord (op : EngineOp) : List Byte :=
  dumpRecord 3 ((List.range 8).flatMap (fun k => leBytes 8 (op.desc.getD k 0#64).toNat) ++ leBytes 8 op.elem ++ leBytes 8 (op.sig.getD 0))

/-- R434: a CHANNEL record: party, kind of access, address, size, data. -/
def channelRecord (party kind addr size : Nat) (data : List Byte) : List Byte :=
  dumpRecord 4 (leBytes 8 party ++ leBytes 8 kind ++ leBytes 8 addr ++ leBytes 8 size ++ data)

/-- Whether a core lies on a die. -/
def onDie (die core : Nat) : Bool := core / 32 == die

/-- R432 step 2: the gangs of a context on a die. -/
def dieGangs (s : State) (ctx die : Nat) : List (GangRef × Gang) :=
  s.gangs.filterMap fun e =>
    let r := gangOfNum e.1
    match s.team? e.2.team with
    | some t => if t.ctx = ctx && onDie die r.core then some (r, e.2) else none
    | none => none

/-- R432 step 2: whether a die's parties of a context have come to rest: no queued MXOP, no element under way, and no issued access that
can complete. -/
def dieQuiet (s : State) (ctx die : Nat) : Bool :=
  (s.engine.all fun e => e.2.ctx != ctx || !onDie die e.2.core || e.2.buf.isNone || e.2.peerWait || elemHeld s e.2) &&
  (dieGangs s ctx die).all fun x =>
    (mxOf s x.1).isEmpty && x.2.late.all (crossHeld s ctx) && (x.2.ownEnd || x.2.unclass.all (crossHeld s ctx))

/-- R432 step 2: the records of a die's state of a context. -/
def dieRecords (s : State) (ctx die : Nat) : List Byte :=
  (dieGangs s ctx die).flatMap (fun x => gangRecord x.1 x.2) ++
  ((s.teams.filter fun e => e.2.ctx == ctx && onDie die ((e.2.halves.head?.map Half.core).getD 0)).flatMap fun e => teamRecord e.2) ++
  ((s.engine.filter fun e => e.2.ctx == ctx && onDie die e.2.core).flatMap fun e => engineRecord e.2)

/-- The kind of a request of a channel. -/
def NetKind.code : NetKind → Nat
  | .write => 0
  | .read => 1
  | .fetchAdd => 2
  | .cmpSwap => 3

/-- The kind of the accesses of an issue in a channel: a store 0, a read 1, an atomic of one operand 2, ACAS 3. -/
def accKind (i : Instr) : Nat :=
  match i with
  | .acas _ => 3
  | .sigw _ | .bow _ => 1
  | _ => if onlyWrites i then 0 else if onlyReads i then 1 else 2

/-- The operands that a request carries. -/
def reqData (k : NetKind) (r : NetReq) : List Byte :=
  match k with
  | .write => r.data
  | .read => []
  | .fetchAdd => leBytes 8 r.value.toNat
  | .cmpSwap => leBytes 8 r.value.toNat ++ leBytes 8 r.compare.toNat

/-- R434: the records of the accesses of an issue that are still to be made at a home; those of the scratchpad have kind 16 and up. -/
def opRecords (party : Nat) (op : PendOp) : List Byte :=
  (op.accs.filter fun a => a.peer.isNone).flatMap fun a =>
    channelRecord party (accKind op.i + if a.space.sameAs .global then 0 else 16) a.va a.size (a.data ++ a.data2)

/-- R432 step 3: the access of an engine element that is held on its way to a die that has cut: its write, or the read of its source. -/
def elementRecord (s : State) (id : Nat) (op : EngineOp) : List Byte :=
  let b := op.buf.getD []
  let p := elemPlan op (engIndex op b).1
  match engDest op with
  | some a => channelRecord (2 ^ 18 + id) (if op.kind = .scata then 2 else 0) a p.2.2 ((engIndex op b).2.map Prod.fst)
  | none => channelRecord (2 ^ 18 + id) 1 p.1 p.2.2 []

/-- R432 step 3: the accesses of a context on their way to a die that has cut, by party, in the order they were sent: the issues of its
gangs, behind each the gang's own that wait for it (R289), and the elements of its engine operations. -/
def viaductRecords (s : State) (ctx : Nat) : List Byte :=
  (heldParties s ctx).flatMap fun x => match x.2 with
    | .engine id => ((KMap.get? s.engine id).map (elementRecord s id)).getD []
    | .gang r => match s.gang? r with
      | some g => (g.unclass.toList ++ g.late.toList ++ waitingOps g).flatMap (opRecords (gangNum r))
      | none => []

/-- R432 steps 3 and 4: the channel state of a context: accesses held on their way to another die, requests deferred at the ports,
peer requests not yet answered, each channel in its order. -/
def channelRecords (s : State) (ctx : Nat) (held : List Deferred) : List Byte :=
  viaductRecords s ctx ++
  (held.flatMap fun d => channelRecord (2 ^ 16 + d.req.qp) d.kind.code d.req.va (reqLen d.kind d.req) (reqData d.kind d.req)) ++
  (s.peers.flatMap fun e =>
    if ((KMap.get? s.windows e.2.window).map fun w => w.ctx == ctx).getD false then
      channelRecord (2 ^ 17 + e.2.window) e.2.kind.code e.2.addr e.2.size (e.2.data ++ e.2.compare) else [])

/-- R434: the records that lie wholly below a number of bytes. -/
def fitRecords : Nat → List Byte → Nat → List Byte
  | 0, _, _ => []
  | n + 1, bs, room =>
    let len := 16 + leVal ((bs.drop 8).take 8)
    if bs.isEmpty || room < len then [] else bs.take len ++ fitRecords n (bs.drop len) (room - len)

/-- An agent's store where it succeeds. -/
def tryWrite (s : State) (ctx va : Nat) (bs : List Byte) : State :=
  match agentWrite s ctx va bs with
  | .ok s' => s'
  | .error _ => s

/-- R434, R436: the dump area written; LAYOUT is the first of the running image's. -/
def writeDump (s : State) (ctx : Nat) (d : Dump) : State :=
  let recs := d.records ++ channelRecords s ctx d.held
  let area := d.area.toNat
  let room := match agentRead s ctx area 8 with
    | .ok bs => leVal bs
    | .error _ => 0
  let s := tryWrite s ctx (area + 64) (fitRecords recs.length recs (room - 64))
  tryWrite s ctx (area + 8)
    (leBytes 8 (64 + recs.length) ++ leBytes 8 d.t0 ++ leBytes 8 s.tick ++ leBytes 8 (s.fw.header.layouts.headD 0 % 2 ^ 16) ++ List.replicate 24 0#8)

/-- R433: a dump ends: with hold 0 the context resumes; with hold 1 it stays as it is, each of its gangs stopped for the agent, unless it
has been reset meanwhile. -/
def endDump (s : State) (ctx : Nat) (d : Dump) : State :=
  let s := writeDump s ctx d
  let kept := (s.ctx? ctx).any fun c => c.state == .scheduled || c.state == .draining || c.state == .preempted
  if d.hold && kept then
    { s with dumps := KMap.put s.dumps ctx { d with ended := true },
             gangs := s.gangs.map fun (e : Nat × Gang) => match s.team? e.2.team with
               | some t => if t.ctx = ctx then (e.1, { e.2 with stopped := true }) else e
               | none => e }
  else endHold s ctx d

/-- R432: a die stops at the marker; then, when its parties rest, it records its state; when both have, the dump ends. -/
def execDumpDieCut (ctx die : Nat) (s : State) : Host.Outcome State Fault Refusal :=
  match KMap.get? s.dumps ctx with
  | none => .next s
  | some d =>
    let put (d : Dump) : State := { s with dumps := KMap.put s.dumps ctx d }
    let stopped := if die = 0 then d.stop0 else d.stop1
    let cut := if die = 0 then d.cut0 else d.cut1
    if 2 ≤ die then .next s
    else if !stopped then .next (put (if die = 0 then { d with stop0 := true } else { d with stop1 := true }))
    else if cut || !dieQuiet s ctx die then .next s
    else
      let d := { d with records := d.records ++ dieRecords s ctx die }
      let d := if die = 0 then { d with cut0 := true } else { d with cut1 := true }
      .next (if d.cut0 && d.cut1 then endDump (put d) ctx d else put d)

/-! ### The module log -/

/-- R412: LOGREAD: the entries from a number onward. -/
def execLogread (session n : Nat) (s : State) : Host.Outcome State Fault Refusal :=
  anyCommand s session fun _ =>
    let first := s.modLogCount - s.modLog.length
    .next (answer s (.bytes ((s.modLog.drop (n - first)).flatMap LogEntry.bytes)))

end Sys2Proof.Machine
end

