-- ==== Sys2Proof/Machine/Firm.lean ====
section
/-! DEFINITION. Firmware: authentication and boot (R435 to R438, R445), sessions and the commands on slots, activation, identity,
status and attestation (R439 to R444), module reset and loss of power (R437, R442). -/

namespace Sys2Proof.Machine

/-! ### Authentication -/

/-- R436: a block with the header of R436 at a base, but for its signature: MAGIC, reserved fields, LENGTH, HASH. -/
def headerOk (fw : Firmware) (base room magic : Nat) (config : Bool) : Bool :=
  let f (off n : Nat) : Nat := flashNat fw (base + off) n
  let nlay := f 12 1 % 16
  let len := f 8 4
  f 0 4 == magic && f 12 4 / 16 == 0 && 1 ≤ len && len ≤ room - 512 &&
  (flashBytes fw (base + 0x60) 0xA0).all (· == 0#8) && (flashBytes fw (base + 0x160) 0xA0).all (· == 0#8) &&
  ((List.range 16).all fun k => k ≤ nlay && !config || f (0x10 + 2 * k) 2 == 0) && (!config || nlay == 0) &&
  flashBytes fw (base + 0x30) 48 == sha384 (flashBytes fw (base + 0x200) len)

/-- R436: whether SIG verifies under a key. -/
def sigOk (fw : Firmware) (base : Nat) (key : List Byte) : Bool :=
  ecVerify key (flashBytes fw base 0x100) (flashBytes fw (base + 0x100) 96)

/-- R445 (log entry 9): the vendor root public key in a configuration copy. -/
def configKey (fw : Firmware) (copy1 : Bool) : List Byte := flashBytes fw (configBase copy1 + 0x200) 96

/-- R436, R445: whether a configuration copy authenticates. -/
def configAuth (fw : Firmware) (copy1 : Bool) : Bool :=
  let b := configBase copy1
  headerOk fw b 0x100000 0x47464C53 true && sha384 (configKey fw copy1) == fw.romDigest && sigOk fw b (configKey fw copy1)

/-- R436: whether a slot's image authenticates. -/
def slotAuth (fw : Firmware) (slotB : Bool) : Bool :=
  let b := slotBase slotB
  headerOk fw b 0x4000000 0x44584C53 false && sigOk fw b fw.config.vendorKey && fw.floor.toNat ≤ (slotVersion fw slotB).toNat

/-- R445 (log entry 9): the parts of a configuration copy in use. -/
def readConfig (fw : Firmware) (copy1 : Bool) : ConfigBlock :=
  let b := configBase copy1
  let body := b + 0x200
  let owner (k : Nat) : Option (List Byte × Bool) :=
    let a := body + 0xA0 + 104 * k
    let flags := flashNat fw (a + 96) 8
    if flags % 2 = 1 then some (flashBytes fw a 96, flags / 2 % 2 == 1) else none
  { vendorKey := configKey fw copy1, owners := (List.range 4).filterMap owner,
    digest := sha384 (flashBytes fw b (512 + flashNat fw (b + 8) 4)) }

/-- R355, R445 (log entry 9): NRSV of a die from its die-level cache size and the module's own reservations. -/
def configNrsv (fw : Firmware) (copy1 : Bool) (die : Nat) : Nat :=
  let cache := flashNat fw (configBase copy1 + 0x200 + 0x240 + 24 * die + 16) 8
  ((die + 1) * 0x100000000 - min (cache + Config.ownReserve die) 0x100000000) / 0x200000 * 0x200000

/-! ### Boot -/

/-- R435: the slot selector's bits. -/
def selPref (w : W64) : Bool := w.getLsbD 0
def selTrial (w : W64) : Bool := w.getLsbD 1
def selTried (w : W64) : Bool := w.getLsbD 2
/-- R435: a selector with its three fields, reserved bits as they were. -/
def selWith (w : W64) (pref trial tried : Bool) : W64 :=
  (w &&& ~~~7#64) ||| (if pref then 1#64 else 0#64) ||| (if trial then 2#64 else 0#64) ||| (if tried then 4#64 else 0#64)

/-- R437 step 3: the selector after the choice; its PREF is the chosen slot. -/
def chooseSlot (w : W64) : W64 :=
  if selTrial w && !selTried w then selWith w (selPref w) true true
  else if selTrial w && selTried w then selWith w (!selPref w) false false
  else w

/-- The header facts of a slot. -/
def readHeader (fw : Firmware) (slotB : Bool) : ImageHeader := ⟨slotVersion fw slotB, slotLayouts fw slotB⟩

/-- R437: what the boot ROM makes of flash. -/
def boot (fw : Firmware) : Firmware :=
  let fw := { fw with recovery := false, activating := none }
  let start (copy1 : Bool) : Firmware :=
    let fw := { fw with config := readConfig fw copy1, selector := chooseSlot fw.selector }
    let slot := selPref fw.selector
    if slotAuth fw slot then { fw with running := slot, header := readHeader fw slot }
    else if slotAuth fw (!slot) then { fw with running := !slot, header := readHeader fw (!slot) }
    else { fw with recovery := true }
  if configAuth fw false then start false
  else if configAuth fw true then start true
  else { fw with recovery := true, config := ⟨[], [], []⟩ }

/-- What outlives a module reset: flash, far memory with the local image, what remote targets hold; and the model's own fields. -/
def resetKeep (s : State) (fw : Firmware) : State :=
  { State.reset with
    agenda := s.agenda, freeCtr := s.freeCtr + 1, replies := s.replies, challenge := Config.challenge s.freeCtr, fw,
    mem := s.mem.filter (fun e => isFar e.1), memPoison := s.memPoison.filter (fun e => isFar (4 * e.1)),
    memCorr := s.memCorr.filter (fun e => isFar (4 * e.1)), image := s.image, remote := s.remote }

/-- R355, R437, R445: module reset; NRSV is that of the configuration in use, in recovery too. -/
def moduleReset (s : State) : State :=
  let fw := boot s.fw
  let s' := resetKeep s fw
  let copy1 := !configAuth s.fw false
  if !configAuth s.fw false && !configAuth s.fw true then s'
  else { s' with dies := [(0, Die.reset (configNrsv fw copy1 0)), (1, Die.reset (configNrsv fw copy1 1))] }

/-- R437: module reset. -/
def execModuleReset (s : State) : Host.Outcome State Fault Refusal := .next (moduleReset s)

/-- R442: power is lost: all state but flash and what remote targets hold ends, and nothing answers until a module reset. -/
def execPowerLoss (s : State) : Host.Outcome State Fault Refusal :=
  let fw := { s.fw with config := ⟨[], [], []⟩, activating := none }
  let s' := resetKeep s fw
  .next { s' with mem := [], memPoison := [], memCorr := [], image := none, halted := true }

/-! ### Sessions -/

/-- R439: a session opens when the host has signed the device's challenge with an owner key; the device signs the host's, and both sides
agree on session keys by their ephemeral keys (log entry 68). -/
def execSessionOpen (session ownerKey : Nat) (challengeSig : List Byte) (hello : HostHello) (s : State) : Host.Outcome State Fault Refusal :=
  let c := s.challenge
  let d := ecSecret (Config.ephemeral s.freeCtr)
  let s := { s with challenge := Config.challenge s.freeCtr, freeCtr := s.freeCtr + 1 }
  match s.fw.config.owners[ownerKey]? with
  | none => refusedWith s "OWNER"
  | some (key, secure) =>
    if session < 16 && (KMap.get? s.sessions session).isNone && ecVerify key c challengeSig && ecOnCurve hello.key then
      .next (answer { s with sessions := KMap.put s.sessions session { secure, ownerKey, keys := sessionKeys d hello.key } }
        (.bytes (identitySign hello.challenge ++ ecPublic d)))
    else refusedWith s "OWNER"

/-- R439: a command for secure sessions. -/
def secureCommand (s : State) (session : Nat) (f : Host.Outcome State Fault Refusal) : Host.Outcome State Fault Refusal :=
  command s session fun x => if x.secure then f else refusedWith s "WORLD"

/-! ### Slots -/

/-- R439: SLOTWRITE; recovery accepts it. -/
def execSlotwrite (session : Nat) (slotB : Bool) (offset : Nat) (bytes : List Byte) (s : State) : Host.Outcome State Fault Refusal :=
  anyCommand s session fun x =>
    if !x.secure then refusedWith s "WORLD"
    else if (s.fw.running == slotB && !s.fw.recovery) || s.ckptRun.isSome || s.fw.activating.isSome then refusedWith s "STATE"
    else if offset % 4096 ≠ 0 || 0x4000000 < offset + bytes.length then refusedWith s "LIMIT"
    else
      let b := slotBase slotB
      let fw := if offset = 0 then { s.fw with flash := s.fw.flash.filter fun e => !(b ≤ e.1 && e.1 < b + 0x4000000) } else s.fw
      accepted { s with fw := flashPut fw (b + offset) bytes }

/-- R439: COMMIT. -/
def execCommit (session : Nat) (s : State) : Host.Outcome State Fault Refusal :=
  secureCommand s session (
    if !selTrial s.fw.selector then refusedWith s "TRIAL"
    else
      let v := s.fw.header.version
      accepted { s with fw := { s.fw with
        selector := selWith s.fw.selector (selPref s.fw.selector) false false
        floor := if s.fw.floor.toNat < v.toNat then v else s.fw.floor } })

/-- R439: RESET. -/
def execReset (session : Nat) (s : State) : Host.Outcome State Fault Refusal :=
  anyCommand s session fun x => if x.secure then .next (moduleReset (answer s .ok)) else refusedWith s "WORLD"

/-- R439: CFGWRITE. -/
def execCfgwrite (session : Nat) (copy1 : Bool) (bytes : List Byte) (s : State) : Host.Outcome State Fault Refusal :=
  secureCommand s session (
    if !configAuth s.fw (!copy1) then refusedWith s "AUTH"
    else if 0x100000 < bytes.length then refusedWith s "LIMIT"
    else
      let b := configBase copy1
      accepted { s with fw := flashPut { s.fw with flash := s.fw.flash.filter fun e => !(b ≤ e.1 && e.1 < b + 0x100000) } b bytes })

/-! ### Identity, status, attestation -/

/-- R439: IDENT. -/
def execIdent (session : Nat) (s : State) : Host.Outcome State Fault Refusal :=
  anyCommand s session fun _ => .next (answer s (.bytes (identityKey ++ Config.identityCert)))

/-- R439, R449: STATUS. -/
def execStatus (session : Nat) (s : State) : Host.Outcome State Fault Refusal :=
  anyCommand s session fun _ =>
    let b (x : Bool) : W64 := if x then 1#64 else 0#64
    let nrsv (d : Nat) : W64 := w64 (((KMap.get? s.dies d).map Die.nrsv).getD 0)
    let t (f : CkptImage → Nat) : W64 := w64 ((s.image.map f).getD 0)
    .next (answer s (.words [b s.fw.running, s.fw.header.version.zeroExtend 64, s.fw.floor.zeroExtend 64, s.fw.selector,
      b (s.fw.recovery || s.halted), w64 s.ckptStatus, nrsv 0, nrsv 1, t CkptImage.t0, t CkptImage.t1]))

/-- R444 (log entry 9): the secure ranges and core worlds as bytes. -/
def secBytes (s : State) : List Byte :=
  (s.secure.flatMap fun r => leBytes 8 r.base ++ leBytes 8 r.size) ++ leBytes 8 s.secureCores.toNat

/-- R444: the report. -/
def attestReport (s : State) (nonce : List Byte) : List Byte :=
  let b := slotBase s.fw.running
  leBytes 4 (1 + if s.fw.running then 2 ^ 16 else 0) ++ leBytes 4 s.fw.header.version.toNat ++ leBytes 8 s.tick ++ nonce ++
    sha384 (flashBytes s.fw b (512 + flashNat s.fw (b + 8) 4)) ++ s.fw.config.digest ++ leBytes 4 s.fw.floor.toNat ++
    leBytes 4 (if selTrial s.fw.selector then 1 else 0) ++ sha384 (secBytes s) ++ List.replicate 56 0#8

/-- R444: ATTEST. -/
def execAttest (session : Nat) (nonce : List Byte) (s : State) : Host.Outcome State Fault Refusal :=
  command s session fun _ =>
    if nonce.length ≠ 32 then refusedWith s "NONCE"
    else
      let r := attestReport s nonce
      .next (answer s (.bytes (r ++ identitySign r)))

/-! ### Activation -/

/-- R440 steps 1 and 2, R442: the members of the saved set with a layout that is not listed; 64 names the local image. A context that is
being reset counts as saved no more. -/
def unlisted (s : State) (layouts : List Nat) : List Nat :=
  ((s.ctxs.filter fun e => e.2.state != .resetting && match e.2.saved with
    | some (l, _) => !layouts.contains l
    | none => false).map Prod.fst) ++
  match s.image with
  | some i => if i.valid && !layouts.contains i.layout then [64] else []
  | none => []

/-- R440 step 3: every scheduled context drains with reason MANAGEMENT. -/
def drainAll (s : State) : State := (s.ctxs.filter fun e => e.2.state == .scheduled).foldl (fun s e => startDrain s e.1 4) s

/-- R440 steps 1 to 3: ACTIVATE. -/
def execActivate (session : Nat) (slotB force : Bool) (s : State) : Host.Outcome State Fault Refusal :=
  secureCommand s session (
    if !slotAuth s.fw slotB then refusedWith s "AUTH"
    else if s.fw.running == slotB || s.ckptRun.isSome then refusedWith s "STATE"
    else
      let bad := unlisted s (slotLayouts s.fw slotB)
      if !force && !bad.isEmpty then .next (answer s (.members bad))
      else
        let s := { s with fw := { s.fw with activating := some (slotB, force) } }
        accepted (drainAll s))

/-- R440 step 3: whether the drain is over: no member left in the scheduled set, no packet in progress. -/
def activationReady (s : State) : Bool :=
  (s.ctxs.all fun e => !ctxMember e.2) && s.teams.isEmpty &&
  s.queues.all fun e => match e.2.act with
    | .waitv _ _ => false
    | .acting => e.2.arm.isNone
    | _ => true

/-- R440 steps 4 and 5. -/
def execActivateSwitch (s : State) : Host.Outcome State Fault Refusal :=
  match s.fw.activating with
  | none => .next s
  | some (slotB, force) =>
    if !activationReady s || s.halted then .next s
    else
      let layouts := slotLayouts s.fw slotB
      let s := if force then ((unlisted s layouts).filter (· < 64)).foldl loseContext s else s
      let image := s.image.map fun i => if force && !layouts.contains i.layout then { i with valid := false } else i
      .next { s with
        image
        fw := { s.fw with activating := none, running := slotB, header := readHeader s.fw slotB,
                          selector := selWith s.fw.selector slotB true true } }

end Sys2Proof.Machine
end

