-- ==== Sys2Proof/Machine/Ckpt.lean ====
section
/-! DEFINITION. Checkpoints and restores (R447 to R450), and a queue pair whose transport gives up (R398, R408). -/

namespace Sys2Proof.Machine

/-! ### Taking a checkpoint -/

/-- Lines still to be streamed for the queued MXOPs, and one more for each. -/
def mxLeft (s : State) : Nat :=
  (s.mxq.flatMap fun e => e.2.map fun m => mxLines (mxA m.params m.wa) + mxLines (mxB m.params m.wb) + 1).foldl (· + ·) 0

/-- R432 step 2: what queued MXOPs need is done: a line or a result of each queue, the walks they ask for, the pages they touch. -/
def mxTurn (s : State) : State :=
  let s := s.mxq.foldl (fun s e => leftBy s (execMxopRun (e.1 / 32) (e.1 % 32) s)) s
  let s := (List.range 8).foldl (fun s c =>
    (clusterWalks s c).foldl (fun s _ => leftBy s (execWalkComplete c 0 s)) s) s
  s.tasks.foldl (fun s e => e.2.reclassing.foldl (fun s p =>
    let s := leftBy s (execPageReclassify e.1 p s)
    leftBy s (execReadonlyToShared e.1 p s)) s) s

/-- Turns of the queued MXOPs. -/
def mxTurns : Nat → State → State
  | 0, s => s
  | n + 1, s => if s.mxq.all (·.2.isEmpty) then s else mxTurns n (mxTurn s)

/-- R432 step 2, R448 step 1: the module's parties come to rest: issued accesses complete, but for waits at an object, accesses under way
to a peer and what a dump holds; begun elements and queued MXOPs with their streamed reads are finished. -/
def ckptCut (s : State) : State :=
  let s := (s.gangs.map fun e => gangOfNum e.1).foldl (fun s ref => match s.gang? ref, s.who ref with
    | some g, some w =>
      if g.ownEnd || (g.unclass.toList ++ g.late.toList).any (crossHeld s w.ctx) then s else completeUnclass (finishLate s ref) ref
    | _, _ => s) s
  let s := s.engine.foldl (fun s e => (List.range 2).foldl (fun s _ =>
    if (KMap.get? s.engine e.1).any fun op => op.buf.isSome && op.elem == e.2.elem then leftBy s (execEngineElement e.1 s) else s) s) s
  mxTurns (3 * mxLeft s) s

/-- R448 step 2: every line written back and dropped. -/
def collect (s : State) : State := { dropLines s (fun _ => true) with dieCache := [], dieCorr := [] }

/-- R448 step 3: an engine operation in an image: its next element from the beginning. -/
def EngineOp.saved (op : EngineOp) : EngineOp := if op.peerWait then op else { op with buf := none }

/-- R448 step 3: the image of a collected state. -/
def imageOf (s : State) (t0 : Nat) : CkptImage :=
  { valid := true, layout := writeLayout s, t0, t1 := s.tick, gangs := s.gangs, teams := s.teams, chains := s.chains, engine := s.engine.map fun e => (e.1, e.2.saved),
    mxq := s.mxq, near := s.mem.filter (fun e => e.1 < 0x10000000000), poison := s.memPoison, gens := s.gens, absent := s.absent,
    deferral := s.deferral, ctxs := s.ctxs.map fun e => (e.1, match KMap.get? s.dumps e.1 with
      | some d => e.2.shifted (t0 - d.t0)
      | none => e.2), tasks := s.tasks, queues := s.queues, keys := s.keys, windows := s.windows,
    copies := s.copies, migrations := s.migrations, peers := s.peers, channel := s.dumps.flatMap (·.2.held),
    nexts := [s.nextTeam, s.nextEngine, s.nextOrder, s.nextCopy, s.nextPeer], codeBy := s.codeBy, ended := s.ended }

/-- R448: the marks of the trace streams. -/
def ckptMarks (s : State) : State :=
  (List.range 2).foldl (fun s d => traceAll s d fun s c => trace s c d 0#4 (TraceRec.plain 4 0xC0DE0001#64)) s

/-- R439: whether a checkpoint may be taken; a dump that is over and holds its context is in progress no more. -/
def ckptOk (s : State) : Bool :=
  s.ckptRun.isNone && s.fw.activating.isNone && s.dumps.all (·.2.ended) && s.ctxs.all fun e => e.2.state ≠ .resetting

/-- R448: CKPT LOCAL: cut, collection, image and resumption in one step. -/
def execCkptLocal (session : Nat) (s : State) : Host.Outcome State Fault Refusal :=
  secureCommand s session (
    if !ckptOk s then refusedWith s "STATE"
    else
      let s := collect (ckptCut (ckptMarks s))
      accepted { s with image := some (imageOf s s.tick), ckptStatus := 2 })

/-- R449: limits of the targets of a remote checkpoint. -/
def targetsOk (ts : List CkptTarget) : Bool := 1 ≤ ts.length && ts.length ≤ 8 && ts.all fun t => t.port < 8

/-- R449: the chunks of far memory. -/
def ckptChunks : Nat := 16384
/-- R449: the target of a chunk, and of the header after the last. -/
def chunkTarget (r : CkptRun) : Option CkptTarget := r.targets[if r.chunk = ckptChunks then 0 else r.chunk % r.targets.length]?
/-- The port of that target. -/
def chunkPort (r : CkptRun) : Nat := ((chunkTarget r).map CkptTarget.port).getD 0
/-- R449: where a chunk, or the header, lies at its target. -/
def chunkAddr (r : CkptRun) (t : CkptTarget) : W64 :=
  if r.chunk = ckptChunks then t.base - 4096#64 else t.base + w64 (66 * 2 ^ 20 * (r.chunk / r.targets.length))

/-- R449: the bytes of a chunk of far memory, at their offsets. -/
def chunkBytes (far : List Host.Cell) (j : Nat) : List Host.Cell :=
  (far.filter fun e => e.1 / 2 ^ 26 == 2 ^ 14 + j).map fun e => (e.1 % 2 ^ 26, e.2)
/-- R449: the poison map of a chunk: a bit for each of its words in address order. -/
def chunkPoison (poison : BitSet) (j : Nat) : List Host.Cell :=
  (poison.filter fun e => BitSet.has poison e.1 && e.1 / 2 ^ 24 == 2 ^ 14 + j).foldl (fun m e =>
    let k := e.1 % 2 ^ 24
    KMap.set m 0#8 (k / 8) (KMap.get m 0#8 (k / 8) ||| BitVec.ofNat 8 (2 ^ (k % 8)))) []

/-- R449, R450: the operations of a chunk on its target: 64 MiB of far memory and its poison map, or the header, whose fields have no
places in the spec (log entry 95). -/
def chunkOps (r : CkptRun) (poison : BitSet) : List RdmaOp :=
  match chunkTarget r with
  | none => []
  | some t =>
    let op (off size : Nat) (bytes : List Host.Cell) : RdmaOp :=
      { write := !r.restore, port := t.port, qp := t.qp, key := t.key, addr := chunkAddr r t + w64 off, size,
        bytes := if r.restore then [] else bytes }
    if r.chunk = ckptChunks then [op 0 4096 []]
    else [op 0 (2 ^ 26) (chunkBytes r.far r.chunk), op (2 ^ 26) (2 ^ 21) (chunkPoison poison r.chunk)]

/-- R449, R450: the operations of the chunk that a remote checkpoint or restore has come to are sent. -/
def sendChunk (s : State) : State :=
  match s.ckptRun with
  | none => s
  | some r => (chunkOps r ((s.image.map CkptImage.poison).getD [])).foldl (fun s o => answer s (.rdma o)) s

/-- R449: CKPT REMOTE: the local image, then the contexts stay held while far memory is sent; what stood at the targets is gone. -/
def execCkptRemote (session : Nat) (targets : List CkptTarget) (s : State) : Host.Outcome State Fault Refusal :=
  secureCommand s session (
    if !targetsOk targets then refusedWith s "LIMIT"
    else if !ckptOk s then refusedWith s "STATE"
    else
      let s := collect (ckptCut (ckptMarks s))
      let image := imageOf s s.tick
      accepted <| sendChunk { s with
        image := some image
        ckptStatus := 1
        remote := s.remote.filter fun r => !r.targets.any targets.contains
        ctxs := s.ctxs.map fun e => (e.1, { e.2 with frozen := true })
        ckptRun := some { targets, chunk := 0, restore := false, held := [], t0 := s.tick, far := s.mem.filter fun e => isFar e.1 } })

/-- R448 step 5: timers resume, those of a context under a dump once that ends, and the requests deferred at the ports are taken in their
order. -/
def ckptResume (s : State) (r : CkptRun) (status : Nat) : State :=
  let until_ (n : Nat) : Nat := ((KMap.get? s.dumps n).map Dump.t0).getD s.tick
  let s := { s with ckptRun := none, ckptStatus := status,
                    ctxs := s.ctxs.map fun e => (e.1, if e.2.frozen then e.2.resumed (until_ e.1 - r.t0) else e.2) }
  r.held.foldl (fun s h => netRequest s h.kind h.req) s

/-- R411: a LINK entry of a port, or of the viaduct of a die. -/
def linkEntry (s : State) (info : Nat) (die : Nat := 0) : State := logModule s { LogEntry.at s.tick 0x0C with info, die }

/-- R449: a remote checkpoint or restore is abandoned. -/
def ckptAbandon (s : State) (r : CkptRun) (port : Nat) : State := ckptResume (linkEntry s port) r 3

/-! ### Restoring -/

/-- A tick of the image's time counted from now (R448, R450). -/
def reTick (t0 tick old : Nat) : Nat := old + tick - t0

/-- R450: a context as it is restored. -/
def Ctx.restored (c : Ctx) (t0 tick : Nat) : Ctx :=
  { c with sliceStart := reTick t0 tick c.sliceStart, drainStart := reTick t0 tick c.drainStart, progress := reTick t0 tick c.progress,
           waitSince := reTick t0 tick c.waitSince, frozen := false }

/-- R450: a gang as it is restored. -/
def Gang.restored (g : Gang) (t0 tick : Nat) : Gang :=
  { g with waits := none, block := g.block.map fun b => match b with
      | .sleep t => .sleep (reTick t0 tick t)
      | b => b }

/-- R450: a queue as it is restored. -/
def Queue.restored (q : Queue) (t0 tick : Nat) : Queue :=
  { q with act := match q.act with
      | .waitv p (some t) => .waitv p (some (reTick t0 tick t))
      | .task r t => .task r (reTick t0 tick t)
      | a => a }

/-- R398: a peer request ends with a negative acknowledgement. -/
def failPeer (s : State) (id : Nat) : State :=
  match KMap.get? s.peers id with
  | none => s
  | some r =>
    let s := { s with peers := KMap.del s.peers id }
    match r.gang, r.engine with
    | some g, _ => match s.who g with
      | some w => retireReady (peerGang s g r .refused []) w.slot
      | none => s
    | none, some e => peerEngine s e r .refused []
    | none, none => s

/-- R450: whether an image may be restored. -/
def restorable (s : State) (i : CkptImage) : Bool := s.ctxs.isEmpty && i.valid && s.fw.header.layouts.contains i.layout

/-- R450: the state of an image loaded, far memory given; queue pairs start reset, bound as the windows name them (R396). -/
def loadCkpt (s : State) (i : CkptImage) (far : List Host.Cell) (farPoison : BitSet) : State :=
  let n (k : Nat) : Nat := i.nexts.getD k 0
  let s := { s with
    gangs := i.gangs.map fun e => (e.1, e.2.restored i.t0 s.tick)
    teams := i.teams.map fun e => (e.1, { e.2 with placedAt := reTick i.t0 s.tick e.2.placedAt })
    chains := i.chains, engine := i.engine, mxq := i.mxq,
    mem := i.near.filter (fun e => e.1 < 0x10000000000) ++ far.filter (fun e => isFar e.1),
    memPoison := i.poison.filter (fun e => !isFar (4 * e.1)) ++ farPoison, gens := i.gens,
    absent := i.absent, deferral := i.deferral, ctxs := i.ctxs.map fun e => (e.1, e.2.restored i.t0 s.tick), tasks := i.tasks,
    queues := i.queues.map fun e => (e.1, e.2.restored i.t0 s.tick), keys := i.keys, windows := i.windows, copies := i.copies,
    migrations := i.migrations, peers := i.peers, qps := i.windows.foldl (fun m e => KMap.put m e.2.qp ⟨e.2.port, e.2.ctx⟩) [], nextTeam := max s.nextTeam (n 0), nextEngine := max s.nextEngine (n 1),
    nextOrder := max s.nextOrder (n 2), nextCopy := max s.nextCopy (n 3), nextPeer := max s.nextPeer (n 4), icache := [], codeBy := i.codeBy, ended := i.ended, tlb := [],
    walkCache := [], walks := [], l1 := [], directory := [], filters := [], dieCache := [], dieCorr := [],
    agents := s.agents.filter fun e => (KMap.get? i.ctxs e.1).isNone, traceBuf := [] }
  let gap : TraceRec := { TraceRec.plain 3 (w64 i.t0) with more := [w64 s.tick, 0#64] }
  let s := (List.range 2).foldl (fun s d => dieRecord s d gap s.tick) s
  let s := (i.peers.map Prod.fst).foldl failPeer s
  let s := i.channel.foldl (fun s h => netRequest s h.kind h.req) s
  if s.fw.activating.isSome then drainAll s else s

/-- R450: CKRESTORE LOCAL. -/
def execCkrestoreLocal (session : Nat) (s : State) : Host.Outcome State Fault Refusal :=
  secureCommand s session (
    match s.image with
    | none => refusedWith s "IMAGE"
    | some i =>
      if !restorable s i then refusedWith s "STATE"
      else accepted (loadCkpt s i (s.mem.filter fun e => isFar e.1) (s.memPoison.filter fun e => isFar (4 * e.1))))

/-- R450: CKRESTORE REMOTE: the image is read back in its chunks, its header first judged. -/
def execCkrestoreRemote (session : Nat) (targets : List CkptTarget) (s : State) : Host.Outcome State Fault Refusal :=
  secureCommand s session (
    match s.remote.find? fun r => r.targets == targets with
    | none => refusedWith s "IMAGE"
    | some r =>
      if !targetsOk targets then refusedWith s "LIMIT"
      else if !restorable s r.image then refusedWith s "STATE"
      else accepted <| sendChunk { s with
        ckptStatus := 1
        ckptRun := some { targets, chunk := 0, restore := true, held := (s.ckptRun.map CkptRun.held).getD [], t0 := s.tick, far := [] } })

/-- R449, R450: the last chunk and the header are answered: the remote header is written, or the remote image loaded, and with it the
local image that lies in far memory. -/
def ckptEnd (s : State) (r : CkptRun) : State :=
  if r.restore then
    match s.remote.find? fun m => m.targets == r.targets with
    | some m =>
      if restorable s m.image then
        loadCkpt { ckptResume s r 2 with image := some m.image } m.image m.far (m.image.poison.filter fun e => isFar (4 * e.1))
      else ckptResume s r 3
    | none => ckptResume s r 3
  else
    let image := s.image.map fun i => { i with t1 := s.tick }
    ckptResume { s with image, remote := s.remote ++ (image.map fun i => ⟨r.targets, i, r.far⟩).toList } r 2

/-- R449: a chunk, or the header, is acknowledged or refused. -/
def execCkptChunkResponse (ok : Bool) (s : State) : Host.Outcome State Fault Refusal :=
  match s.ckptRun with
  | none => .next s
  | some r =>
    if !ok then .next (ckptAbandon s r (chunkPort r))
    else
      let n := if r.chunk = ckptChunks then 4096 else 66 * 2 ^ 20
      let s := if r.restore then s.bump .rxbytes (chunkPort r) n else s.bump .txbytes (chunkPort r) n
      if r.chunk < ckptChunks then .next (sendChunk { s with ckptRun := some { r with chunk := r.chunk + 1 } })
      else .next (ckptEnd s r)

/-- R398, R408, R449: a queue pair's transport gives up: every access in flight on it ends. -/
def execQpTransportFailure (qp : Nat) (s : State) : Host.Outcome State Fault Refusal :=
  let mine := s.peers.filter fun e => ((KMap.get? s.windows e.2.window).map fun w => w.qp == qp).getD false
  let port := match KMap.get? s.qps qp with
    | some q => some q.port
    | none => ((s.windows.find? fun e => e.2.qp == qp).map fun e => e.2.port)
  let s := match port with
    | some p => linkEntry s p
    | none => s
  let s := (mine.map Prod.fst).foldl failPeer s
  match s.ckptRun with
  | some r => match r.targets.find? fun t => t.qp == qp with
    | some t => .next (ckptAbandon s r t.port)
    | none => .next s
  | none => .next s

end Sys2Proof.Machine
end

