-- ==== Sys2Proof/Machine/Ctrl.lean ====
section
/-! DEFINITION. Class 0x0: control flow and predicates (R100 to R111). -/

namespace Sys2Proof.Machine

/-- R100 to R103: a branch to a target per lane; link writes the return address. -/
def branchTo (link : Bool) (target : Iss → Nat → W64) (x : Iss) (s : State) : Res :=
  match uniformity x (target x) with
  | some t => .trap t s
  | none =>
    .done (if link then x.putD s fun _ => x.pc + 12#64 else s)
      { next := x.lanes.map fun l => (l, target x l), branch := x.active != 0#64 }

/-- R105. -/
def execNop (f : Fields) (s : State) : Host.Outcome State Fault Refusal := runIssue (.nop f) s fun _ s => .ok s
/-- R100: BRA. -/
def execBra (f : Fields) (s : State) : Host.Outcome State Fault Refusal := runIssue (.bra f) s (branchTo false dispTarget)
/-- R100, R104: BRI. -/
def execBri (f : Fields) (s : State) : Host.Outcome State Fault Refusal := runIssue (.bri f) s (branchTo false regTarget)
/-- R100, R103: CALL. -/
def execCall (f : Fields) (s : State) : Host.Outcome State Fault Refusal := runIssue (.call f) s (branchTo true dispTarget)
/-- R100, R103: CALLI. -/
def execCalli (f : Fields) (s : State) : Host.Outcome State Fault Refusal := runIssue (.calli f) s (branchTo true regTarget)
/-- R100, R104: RET. -/
def execRet (f : Fields) (s : State) : Host.Outcome State Fault Refusal := runIssue (.ret f) s (branchTo false regTarget)
/-- R107: EXIT ends every Active lane. -/
def execExit (f : Fields) (s : State) : Host.Outcome State Fault Refusal :=
  runIssue (.exit f) s fun x s => .done s { ended := x.active }
/-- R106: YIELD. -/
def execYield (f : Fields) (s : State) : Host.Outcome State Fault Refusal := runIssue (.yield f) s fun _ s => .ok s
/-- R108: ELECT. -/
def execElect (f : Fields) (s : State) : Host.Outcome State Fault Refusal :=
  runIssue (.elect f) s fun x s => .ok (x.putP s fun l => l == x.low)

/-- R109: the Active lanes in which predicate A is true. -/
def voteMask (x : Iss) : LaneMask := maskOf fun l => x.active.getLsbD l && x.a l != 0#64
/-- R109: the value of a vote: a truth for variants 0 to 3. -/
def votePred (v : Nat) (active m : LaneMask) : Bool :=
  match v with
  | 0 => m == active
  | 1 => m != 0#64
  | 2 => m == active || m == 0#64
  | _ => (lanesOf m).length % 2 == 1
/-- R109: a number or a mask for variants 4 and 5. -/
def voteVal (v : Nat) (m : LaneMask) : W64 := if v = 4 then w64 (lanesOf m).length else m
/-- R109: VOTE. -/
def execVote (f : Fields) (s : State) : Host.Outcome State Fault Refusal :=
  runIssue (.vote f) s fun x s =>
    let v := f.mod.toNat % 8
    if v < 4 then .ok (x.putP s fun _ => votePred v x.active (voteMask x))
    else .ok (x.putD s fun _ => voteVal v (voteMask x))

/-- R110: the operations of PSET. -/
def psetOp (op : Nat) (a b : Bool) : Bool :=
  match op with
  | 0 => a && b
  | 1 => a || b
  | 2 => a != b
  | 3 => a && !b
  | 4 => a || !b
  | 5 => !(a && b)
  | 6 => !(a || b)
  | _ => a == b
/-- R110: PSET. -/
def execPset (f : Fields) (s : State) : Host.Outcome State Fault Refusal :=
  runIssue (.pset f) s fun x s => .ok (x.putP s fun l => psetOp (f.mod.toNat % 8) (x.a l != 0#64) (x.b l != 0#64))

/-- R111: PMOV. -/
def execPmov (f : Fields) (s : State) : Host.Outcome State Fault Refusal :=
  runIssue (.pmov f) s fun x s =>
    match f.mod.toNat % 4 with
    | 0 => .ok (x.putP s fun l => x.a l != 0#64)
    | 1 => .ok (x.putD s fun l => x.a l)
    | _ => .ok (x.putD s fun l => if x.a l != 0#64 then BitVec.allOnes 64 else 0#64)

end Sys2Proof.Machine
end

