-- ==== Sys2Proof/Machine/DirMath.lean ====
section
/-! DEFINITION. Directional vectors as lists of components and a norm (R74 to R80, R173 to R183). -/

namespace Sys2Proof.Machine

/-- A directional vector: components and norm; a norm of −2^31 is the zero code (R74, R75). -/
structure DVec where
  c : List Int
  n : Int
  deriving DecidableEq, Repr

/-- The zero code. -/
def normZero : Int := -(2 ^ 31 : Nat)

/-- R173: IsZero. -/
def DVec.isZero (x : DVec) : Bool := x.n == normZero || x.c.all (· == 0)

/-- R173: WriteZero for L components. -/
def DVec.zero (L : Nat) : DVec := ⟨List.replicate L 0, normZero⟩

/-- R173: Neg16, with OF. -/
def neg16 (c : Int) : Int × Flags := if c = -32768 then (32767, flagOF) else (-c, 0#5)

/-- Σ a_i b_i (R80). -/
def dotInt (a b : List Int) : Int := (a.zip b).foldl (fun (s : Int) p => s + p.1 * p.2) 0

/-- R78: a norm saturated: the vector with components c, or the zero code. -/
def normWrite (c : List Int) (n : Int) (fl : Flags) : DVec × Flags :=
  if n > 2 ^ 31 - 1 then (⟨c, 2 ^ 31 - 1⟩, fl ||| flagOF)
  else if n ≤ normZero then (DVec.zero c.length, fl ||| flagUF)
  else (⟨c, n⟩, fl)

/-- R76 with the base of R173's WriteDir folded in before the second saturation: y are binary32 or exact values. -/
def writeDir (y : List FVal) (base : Int) : DVec × Flags :=
  let L := y.length
  if y.any fun v => v.isNan || v.isInf then (DVec.zero L, flagNV) else
  let ds := y.map FVal.dyadic
  let e := ds.foldl (fun (acc : Int) d => if d.n = 0 then acc else min acc d.e) 100000
  let ns := ds.map fun d => if d.n = 0 then 0 else d.n * 2 ^ (d.e - e).toNat
  let s2 := ns.foldl (fun (acc : Nat) n => acc + n.natAbs * n.natAbs) 0
  if s2 = 0 then (DVec.zero L, 0#5) else
  let comp (n : Int) : Int :=
    let a := n.natAbs
    let k := isqrt (2 ^ 28 * a * a / s2)
    -- 2^15 a / sqrt(s2) against 2k + 1
    let l := 2 ^ 30 * a * a
    let r := (2 * k + 1) * (2 * k + 1) * s2
    let m := if l > r || (l == r && k % 2 == 1) then k + 1 else k
    if n < 0 then -(m : Int) else m
  let c := ns.map comp
  let S := c.foldl (fun (acc : Nat) n => acc + n.natAbs * n.natAbs) 0
  -- ½ log2(s2 2^(2e)) − ½ log2(S / 2^28)
  let n0 := roundLog2 23 (s2 * 2 ^ 28) S + e * 2 ^ 24
  if n0 > 2 ^ 31 - 1 then
    let (d, fl) := normWrite c (2 ^ 31 - 1 + base) flagOF
    (d, fl)
  else if n0 ≤ normZero then (DVec.zero L, flagUF)
  else normWrite c (n0 + base) 0#5

/-- An exact real of the form Σ n × 2^e × 2^(f / 2^24) cut to 448 fraction bits of its power, as a dyadic, with whether it
is exact. -/
def scaled (n e : Int) (num : Int) : Dyadic × Bool :=
  let a := approxExp2 num 24
  if num % (2 ^ 24 : Nat) = 0 then (⟨n, e + num / (2 ^ 24 : Nat)⟩, true) else (⟨n * a.m, e + a.e⟩, false)

/-- RoundF into binary32 of a dyadic that is exact or the cut of an irrational, as a value (R182). -/
def round32 (x : Dyadic) (exact : Bool) : FVal :=
  f32.unpack (f32.roundDy 0 false x (!exact)).1

/-- R182: y_i of DVADD and DVAXPY from two terms n × 2^e × 2^(p / 2^24), each taking part or not. -/
def twoTerm (a b : Option (Int × Int × Int)) : FVal :=
  let t (x : Option (Int × Int × Int)) : Dyadic × Bool := match x with
    | some (n, e, p) => if n = 0 then (⟨0, 0⟩, true) else scaled n e p
    | none => (⟨0, 0⟩, true)
  let (x, ex) := t a
  let (y, ey) := t b
  round32 (x.add y) (ex && ey)

/-- RoundF into binary32 of the quotient of integers times 2^e, as a value (R182). -/
def quot32 (a : Int) (b : Nat) (e : Int) : FVal :=
  if a = 0 then .fin false 0 0 else f32.unpack (f32.roundQuot 0 (a < 0) a.natAbs b e).1

/-- R174: DVMK. -/
def dvmk (x : List FVal) : DVec × Flags := writeDir x 0

/-- R79, R175: an element flattened into binary32 or BF16, with OF and UF. -/
def flatten (F : Fmt) (c n : Int) : Nat × Flags :=
  if c = 0 then (0, 0#5) else
  let (x, exact) := scaled c (-14) n
  let r := F.roundDy 0 false x (!exact)
  (r.1, r.2 &&& (flagOF ||| flagUF))

/-- R176: the exact dot product, 0 when either vector is zero. -/
def dvDot (a b : DVec) : Int := if a.isZero || b.isZero then 0 else dotInt a.c b.c

/-- R176: the lane value of DVDOT by variant, and its flags. -/
def dvdotVal (v : Nat) (a b : DVec) : W64 × Flags :=
  let D := dvDot a b
  match v with
  | 0 => (w64 (f32.roundDy 0 false ⟨D, -28⟩).1, 0#5)
  | 1 =>
    if D = 0 then (0#64, 0#5)
    else
      let (x, exact) := scaled D (-28) (a.n + b.n)
      let r := f32.roundDy 0 false x (!exact)
      (w64 r.1, r.2 &&& (flagOF ||| flagUF))
  | _ => (BitVec.ofInt 64 D, 0#5)

/-- R177: the comparison of the exact cosine with a binary32 threshold, by variant. -/
def dvcmpVal (v : Nat) (a b : DVec) (t : Nat) : Bool × Flags :=
  match (FVal.fin (dvDot a b < 0) (dvDot a b).natAbs (-28)).cmp (f32.unpack t) with
  | none => (false, flagNV)
  | some c => (match v with | 0 => c ≥ 0 | 1 => c > 0 | 2 => c ≤ 0 | _ => c < 0, 0#5)

/-- R178: the lane value of DVNRM by variant. -/
def dvnrmVal (v : Nat) (n : Int) : W64 × Flags :=
  match v with
  | 0 => (BitVec.ofInt 64 n, 0#5)
  | 1 => if n = normZero then (w64 (f32.inf true), 0#5) else (w64 (f32.roundDy 0 false ⟨n, -24⟩).1, 0#5)
  | _ =>
    if n = normZero then (0#64, 0#5)
    else
      let (x, exact) := scaled 1 0 n
      let r := f32.roundDy 0 false x (!exact)
      (w64 r.1, r.2 &&& (flagOF ||| flagUF))

/-- R179: the norm of DVSETN by variant from s. -/
def dvsetnVal (v : Nat) (s : Nat) : Int × Flags :=
  if v = 0 then (signExt s 32, 0#5)
  else match f32.unpack s with
    | .nan _ => (normZero, flagNV)
    | .inf neg => if neg then (normZero, flagNV) else (2 ^ 31 - 1, flagOF)
    | .fin neg m e =>
      if m = 0 then (normZero, 0#5)
      else if neg then (normZero, flagNV)
      else
        let n := roundLog2 24 m 1 + e * 2 ^ 24
        if n > 2 ^ 31 - 1 then (2 ^ 31 - 1, flagOF)
        else if n ≤ normZero then (normZero, flagUF)
        else (n, 0#5)

/-- Each component through Neg16. -/
def negAll (c : List Int) : List Int × Flags :=
  (c.map fun x => (neg16 x).1, c.foldl (fun fl x => fl ||| (neg16 x).2) 0#5)

/-- R180: DVSCL by variant. -/
def dvscl (v : Nat) (a : DVec) (s : Nat) : DVec × Flags :=
  if v = 0 then
    if a.isZero then (DVec.zero a.c.length, 0#5) else normWrite a.c (a.n + signExt s 32) 0#5
  else match f32.unpack s with
    | .nan _ => (DVec.zero a.c.length, flagNV)
    | .inf _ => (DVec.zero a.c.length, flagNV)
    | .fin neg m e =>
      if m = 0 || a.isZero then (DVec.zero a.c.length, 0#5)
      else
        let d := roundLog2 24 m 1 + e * 2 ^ 24
        let (c, fl) := if neg then negAll a.c else (a.c, 0#5)
        normWrite c (a.n + d) fl

/-- R181: DVNEG. -/
def dvneg (a : DVec) : DVec × Flags :=
  if a.n = normZero then (DVec.zero a.c.length, 0#5)
  else let (c, fl) := negAll a.c; (⟨c, a.n⟩, fl)

/-- R182, R183: DVREN. -/
def dvren (a : DVec) : DVec × Flags :=
  if a.isZero then (DVec.zero a.c.length, 0#5) else writeDir (a.c.map fun c => .fin (c < 0) c.natAbs (-14)) a.n

/-- R182, R183: the sum of two scaled vectors, a with factor α′ (its integer and exponent) and norm na. -/
def dvSum (L : Nat) (a : Option (DVec × Int × Int × Int)) (b : Option DVec) : DVec × Flags :=
  match a, b with
  | none, none => (DVec.zero L, 0#5)
  | some (x, f, fe, na), none => writeDir (x.c.map fun c => twoTerm (some (f * c, fe - 14, 0)) none) na
  | none, some y => writeDir (y.c.map fun c => twoTerm none (some (c, -14, 0))) y.n
  | some (x, f, fe, na), some y =>
    let M := max na y.n
    writeDir ((x.c.zip y.c).map fun p => twoTerm (some (f * p.1, fe - 14, na - M)) (some (p.2, -14, y.n - M))) M

/-- DVADD (R182, R183). -/
def dvadd (a b : DVec) : DVec × Flags :=
  dvSum a.c.length (if a.isZero then none else some (a, 1, 0, a.n)) (if b.isZero then none else some b)

/-- DVAXPY with α a binary32 pattern (R182, R183). -/
def dvaxpy (a b : DVec) (alpha : Nat) : DVec × Flags :=
  match f32.unpack alpha with
  | .nan _ => (DVec.zero a.c.length, flagNV)
  | .inf _ => (DVec.zero a.c.length, flagNV)
  | .fin neg m e =>
    let il : Int := (Nat.log2 m : Int) + e
    let f : Int := if neg then -(m : Int) else m
    dvSum a.c.length (if m = 0 || a.isZero then none else some (a, f, e - il, a.n + il * 2 ^ 24))
      (if b.isZero then none else some b)

/-- DVMUL (R182, R183). -/
def dvmul (a b : DVec) : DVec × Flags :=
  if a.isZero || b.isZero then (DVec.zero a.c.length, 0#5)
  else writeDir ((a.c.zip b.c).map fun p => round32 ⟨p.1 * p.2, -28⟩ true) (a.n + b.n)

/-- DVPROJ by variant (R182, R183). -/
def dvproj (v : Nat) (a b : DVec) : DVec × Flags :=
  if a.isZero then (DVec.zero a.c.length, 0#5)
  else if b.isZero then if v = 0 then (DVec.zero a.c.length, 0#5) else dvren a
  else
    let P := dotInt a.c b.c
    let Sb := (dotInt b.c b.c).natAbs
    if v = 0 then writeDir (b.c.map fun c => quot32 (P * c) Sb (-14)) a.n
    else writeDir ((a.c.zip b.c).map fun p => quot32 (p.1 * Sb - P * p.2) Sb (-14)) a.n

end Sys2Proof.Machine
end

