-- ==== Sys2Proof/Machine/Dir.lean ====
section
/-! DEFINITION. Class 0x6: directional vectors in registers (R163 to R183). DVLD and DVST stand with the memory forms. -/

namespace Sys2Proof.Machine

/-- R44, R173: the vector a DIR view holds: components and norm. -/
def dirVec (g : Gang) (d : W64) : DVec :=
  let str := g.viewVal d
  ⟨(List.range (16 * viewCols d)).map fun i => signExt (str / 2 ^ (16 * i)) 16,
   signExt (KMap.get g.n 0x80000000#32 (viewNidx d)).toNat 32⟩

/-- R163, R169: the writes of a DIR view: every register it covers, and its norm entry. -/
def dirWrites (g : Gang) (d : W64) (v : DVec) : List RegWrite :=
  viewNumWrites g d (ofSubs 16 (v.c.map fun c => wrapInt c 16)) ++ [.n (viewNidx d) (BitVec.ofInt 32 v.n) false]

/-- The vectors that A and B name. -/
def Iss.dirA (x : Iss) : DVec := dirVec x.g (x.g.wReg (wNum x.f.a))
def Iss.dirB (x : Iss) : DVec := dirVec x.g (x.g.wReg (wNum x.f.b))
/-- R166: the 32 bits of a scalar source. -/
def scalar32 (v : W64) : Nat := v.toNat % 2 ^ 32
/-- The exact elements of the tile that A names, in storage order. -/
def Iss.tileA (x : Iss) : List FVal :=
  let A := x.g.wReg (wNum x.f.a)
  let str := x.g.viewVal A
  (List.range (viewRows A * viewCols A)).map fun i => fmtElem (viewFmt A) 0 str i

/-- R163, R170: a form of Lat L that writes the DIR view D. -/
def dirForm (i : Instr) (s : State) (h : Iss → DVec × Flags) : Host.Outcome State Fault Refusal :=
  runIssue i s fun x s =>
    if x.active = 0#64 then .ok s
    else
      let r := h x
      match x.fpTrap s [(x.low, r.2)] true with
      | some t => t
      | none => .ok (x.fill s (dirWrites x.g (x.g.wReg (wNum x.f.d)) r.1) r.2 true)

/-- R163, R169, R170: a form of Lat L that writes V, S or P destinations in every Active lane. -/
def dirLong (i : Instr) (s : State) (h : Iss → List RegWrite × Flags) : Host.Outcome State Fault Refusal :=
  runIssue i s fun x s =>
    if x.active = 0#64 then .ok s
    else
      let r := h x
      match x.fpTrap s [(x.low, r.2)] true with
      | some t => t
      | none => .ok (x.fill s r.1 r.2 true)

/-- R163, R170: a fixed-latency form that writes one lane value into every Active lane. -/
def dirValue (i : Instr) (s : State) (h : Iss → W64 × Flags) : Host.Outcome State Fault Refusal :=
  runIssue i s fun x s =>
    if x.active = 0#64 then .ok s
    else
      let r := h x
      match x.fpTrap s [(x.low, r.2)] true with
      | some t => t
      | none => .ok (x.orStat (x.putD s fun _ => r.1) r.2)

/-- R174: DVMK. -/
def execDvmk (f : Fields) (s : State) : Host.Outcome State Fault Refusal := dirForm (.dvmk f) s fun x => dvmk x.tileA
/-- R175: the image of every component in a tile's format. -/
def flatImages (fmt : Nat) (v : DVec) : List (Nat × Flags) :=
  v.c.map fun c => if v.isZero then (0, 0#5) else flatten (if fmt = 0 then f32 else bf16) c v.n
/-- R175: DVFLAT writes the tile at once. -/
def execDvflat (f : Fields) (s : State) : Host.Outcome State Fault Refusal :=
  runIssue (.dvflat f) s fun x s =>
    if x.active = 0#64 then .ok s
    else
      let D := x.g.wReg (wNum f.d)
      let r := flatImages (viewFmt D) x.dirA
      let fl := r.foldl (fun fl e => fl ||| e.2) 0#5
      match x.fpTrap s [(x.low, fl)] true with
      | some t => t
      | none => .ok (x.orStat (x.mapGang s fun g =>
          g.writes (viewNumWrites x.g D (ofSubs (plainBits (viewFmt D)) (r.map Prod.fst)))) fl)
/-- R176: DVDOT. -/
def execDvdot (f : Fields) (s : State) : Host.Outcome State Fault Refusal :=
  dirLong (.dvdot f) s fun x =>
    let r := dvdotVal (f.mod.toNat % 4) x.dirA x.dirB
    (x.dWrites fun _ => r.1, r.2)
/-- R180: DVSCL. -/
def execDvscl (f : Fields) (s : State) : Host.Outcome State Fault Refusal :=
  dirForm (.dvscl f) s fun x => dvscl (f.mod.toNat % 4) x.dirA (scalar32 (x.b x.low))
/-- R182: DVADD. -/
def execDvadd (f : Fields) (s : State) : Host.Outcome State Fault Refusal := dirForm (.dvadd f) s fun x => dvadd x.dirA x.dirB
/-- R182: DVAXPY. -/
def execDvaxpy (f : Fields) (s : State) : Host.Outcome State Fault Refusal :=
  dirForm (.dvaxpy f) s fun x => dvaxpy x.dirA x.dirB (scalar32 (x.c x.low))
/-- R181: DVNEG. -/
def execDvneg (f : Fields) (s : State) : Host.Outcome State Fault Refusal := dirForm (.dvneg f) s fun x => dvneg x.dirA
/-- R178: the norm that A names: an entry, or the one a DIR view names. -/
def normOf (g : Gang) (a : W12) : Int :=
  match opnd a with
  | .n k => signExt (KMap.get g.n 0x80000000#32 k).toNat 32
  | _ => signExt (KMap.get g.n 0x80000000#32 (viewNidx (g.wReg (wNum a)))).toNat 32
/-- R178: DVNRM. -/
def execDvnrm (f : Fields) (s : State) : Host.Outcome State Fault Refusal :=
  dirValue (.dvnrm f) s fun x => dvnrmVal (f.mod.toNat % 4) (normOf x.g f.a)
/-- R179: the writes of a norm into a DIR view: the direction is left as it is, but for the zero code, which clears it (R75). -/
def setNorm (g : Gang) (d : W64) (n : Int) : List RegWrite :=
  if n = normZero then dirWrites g d (DVec.zero (16 * viewCols d))
  else
    (List.range (viewRegs d g.width * g.width)).map (fun c => RegWrite.part (viewBase d + c / g.width) (c % g.width) 0#64 0#64 0#2) ++
      [.n (viewNidx d) (BitVec.ofInt 32 n) false]
/-- R179: DVSETN. -/
def execDvsetn (f : Fields) (s : State) : Host.Outcome State Fault Refusal :=
  dirLong (.dvsetn f) s fun x =>
    let r := dvsetnVal (f.mod.toNat % 4) (scalar32 (x.a x.low))
    (setNorm x.g (x.g.wReg (wNum f.d)) r.1, r.2)
/-- R182: DVREN. -/
def execDvren (f : Fields) (s : State) : Host.Outcome State Fault Refusal := dirForm (.dvren f) s fun x => dvren x.dirA
/-- R182: DVPROJ. -/
def execDvproj (f : Fields) (s : State) : Host.Outcome State Fault Refusal :=
  dirForm (.dvproj f) s fun x => dvproj (f.mod.toNat % 4) x.dirA x.dirB
/-- R177: DVCMP. -/
def execDvcmp (f : Fields) (s : State) : Host.Outcome State Fault Refusal :=
  dirLong (.dvcmp f) s fun x =>
    let r := dvcmpVal (f.mod.toNat % 4) x.dirA x.dirB (scalar32 (x.c x.low))
    (x.pWrites fun _ => r.1, r.2)
/-- R182: DVMUL. -/
def execDvmul (f : Fields) (s : State) : Host.Outcome State Fault Refusal := dirForm (.dvmul f) s fun x => dvmul x.dirA x.dirB

end Sys2Proof.Machine
end

