-- ==== Sys2Proof/Machine/MemForms.lean ====
section
/-! DEFINITION. Classes 0x9 and 0xA, and DVLD and DVST: the forms that reach memory (R184 to R186, R208 to R229). -/

namespace Sys2Proof.Machine

/-- R211: the bytes of a sized access. -/
def accSize (f : Fields) : Nat := if f.variant = 1 then typeWidth f.tcode / 8 else if f.variant = 2 then 16 else 8
/-- R208: A plus the signed offset. -/
def Iss.addr (x : Iss) (l : Nat) : Nat := (x.a l + BitVec.ofInt 64 (signExt x.f.imm.toNat 32)).toNat
/-- R211, R217: the bytes of B that a lane stores. -/
def Iss.storeBytes (x : Iss) (l : Nat) : List Byte :=
  if x.f.variant = 2 then
    let second := match opnd x.f.b with
      | .special _ => x.b l
      | _ => x.srcT (x.f.b + 1#12) 3 l
    leBytes 8 (x.b l).toNat ++ leBytes 8 second.toNat
  else leBytes (accSize x.f) (x.b l).toNat
/-- R210: the lanes of a load: the lowest alone for an S destination. -/
def loadLanes (x : Iss) : List Nat := if x.f.d.toNat < 0x600 then x.lanes else [x.low]
/-- R47, R210: the destinations of a load or an atomic, before their values are known. -/
def loadWrites (x : Iss) (accs : List LaneAcc) : List RegWrite :=
  (byLane accs fun a => tagBytes a.size 0 false).flatMap fun p =>
    if x.f.d.toNat < 0x600 || p.1 == x.low then destWrites x.i x.f p.1 p.2 else []
/-- No destination. -/
def noWrites (_ : List LaneAcc) : List RegWrite := []

/-- R208, R213: LD. -/
def execLd (f : Fields) (s : State) : Host.Outcome State Fault Refusal :=
  runIssue (.ld f) s fun x s =>
    memForm x s false false (loadLanes x) (fun s l => globalCheck s x.g x.who x.task.rec_
      { lane := l, va := x.addr l, size := accSize f, kind := .read, align := accSize f, peerOk := true }) (loadWrites x)
/-- R208, R213, R217: ST. -/
def execSt (f : Fields) (s : State) : Host.Outcome State Fault Refusal :=
  runIssue (.st f) s fun x s =>
    memForm x s false true x.lanes (fun s l => globalCheck s x.g x.who x.task.rec_
      { lane := l, va := x.addr l, size := accSize f, kind := .write, align := accSize f, peerOk := true, data := x.storeBytes l }) noWrites

/-- R208, R219: the half a scratchpad form reaches, and whether it may. -/
def ownHalf (x : Iss) : Nat := x.who.half
def otherHalf (x : Iss) : Nat := 1 - x.who.half
/-- R213: a scratchpad request of a lane. -/
def scratchReq (x : Iss) (l : Nat) (kind : WatchKind) (data : List Byte) : AccReq :=
  { lane := l, va := x.addr l, size := accSize x.f, kind, align := accSize x.f, peerOk := false, data }
/-- R219: LDS. -/
def execLds (f : Fields) (s : State) : Host.Outcome State Fault Refusal :=
  runIssue (.lds f) s fun x s =>
    memForm x s false false (loadLanes x) (fun s l => localCheck s x.who x.task.rec_ (some x.g) (ownHalf x) true (scratchReq x l .read [])) (loadWrites x)
/-- R219: STS. -/
def execSts (f : Fields) (s : State) : Host.Outcome State Fault Refusal :=
  runIssue (.sts f) s fun x s =>
    memForm x s false true x.lanes (fun s l => localCheck s x.who x.task.rec_ (some x.g) (ownHalf x) true (scratchReq x l .write (x.storeBytes l))) noWrites
/-- R219: LDX reaches the other half of a spanning team. -/
def execLdx (f : Fields) (s : State) : Host.Outcome State Fault Refusal :=
  runIssue (.ldx f) s fun x s =>
    memForm x s false false (loadLanes x)
      (fun s l => localCheck s x.who x.task.rec_ (some x.g) (otherHalf x) x.task.rec_.span (scratchReq x l .read [])) (loadWrites x)
/-- R219: STX. -/
def execStx (f : Fields) (s : State) : Host.Outcome State Fault Refusal :=
  runIssue (.stx f) s fun x s =>
    memForm x s false true x.lanes
      (fun s l => localCheck s x.who x.task.rec_ (some x.g) (otherHalf x) x.task.rec_.span (scratchReq x l .write (x.storeBytes l))) noWrites

/-- R216: words moved, and the first word's index as a signed number. -/
def privWords (f : Fields) : Nat := if f.variant = 1 then 1 else 2
def privIndex (x : Iss) (l : Nat) : Int := (BitVec.ofNat 64 (x.addr l)).toInt
/-- R216: LDP. -/
def execLdp (f : Fields) (s : State) : Host.Outcome State Fault Refusal :=
  runIssue (.ldp f) s fun x s =>
    memForm x s false false (loadLanes x) (fun s l => privCheck s x.g x.who
      { lane := l, va := 0, size := 4, kind := .read, align := 4, peerOk := false } (privIndex x l) (privWords f)) (loadWrites x)
/-- R216: STP. -/
def execStp (f : Fields) (s : State) : Host.Outcome State Fault Refusal :=
  runIssue (.stp f) s fun x s =>
    memForm x s false true x.lanes (fun s l => privCheck s x.g x.who
      { lane := l, va := 0, size := 4, kind := .write, align := 4, peerOk := false, data := leBytes 8 (x.b l).toNat }
      (privIndex x l) (privWords f)) noWrites

/-- R218: every byte lies in a record with READ and without WRITE or CONCURRENT. -/
def declConst (r : TaskRec) (va n : Nat) : Bool :=
  (blocksOf va n).all fun b => r.regions.any fun g => g.covers (b * 128) && g.read && !g.write && !g.concurrent
/-- R218: the result of one access in every Active lane. -/
def ldkWrites (x : Iss) (bs : List (Byte × Bool)) : List RegWrite :=
  if x.f.d.toNat < 0x600 then x.lanes.flatMap fun l => destWrites x.i x.f l bs else destWrites x.i x.f x.low bs
/-- R218: the check of an LDK outside executable pages. -/
def ldkCheck (x : Iss) (s : State) (l : Nat) : LaneChk :=
  let va := x.addr l
  let n := accSize x.f
  match xlatPieces s x.who.core x.who.ctx .read .global l va [] [] (pagePieces va n) with
  | .ok accs s =>
    if accs.any (·.peer.isSome) then .fail 0x21 (w64 va) s
    else if !(declConst x.task.rec_ va n && mayRead s x.who.ctx x.task.rec_ va n) then .fail 0x22 (w64 va) s
    else if va % n ≠ 0 then .fail 0x23 (w64 va) s
    else if watchHit s x.g x.who.ctx l va n .read then .fail 0x28 (w64 va) s
    else .ok accs s
  | .fail c _ s => .fail c (w64 va) s
  | r => r
/-- R218: LDK: through the fetch path where every page is executable, else a read of declared constants. -/
def execLdk (f : Fields) (s : State) : Host.Outcome State Fault Refusal :=
  runIssue (.ldk f) s fun x s =>
    if x.active = 0#64 then .ok s
    else
      let va := x.addr x.low
      let n := accSize f
      match fetchBytes s x.who.core x.who.ctx va n with
      | (.error none, s) => .wait .walk s
      | (.ok pas, s) =>
        let low := maskOf (· == x.low)
        if meetsPriv s x.who.ctx x.task.rec_ va n then .trap { cause := 0x22, tmask := x.active, taddr := w64 va, thit := low, tpc := none } s
        else if va % n ≠ 0 then .trap { cause := 0x23, tmask := x.active, taddr := w64 va, thit := low, tpc := none } s
        else if watchHit s x.g x.who.ctx x.low va n .read then
          .trap { cause := 0x28, tmask := x.active, taddr := w64 va, thit := low, tpc := none } s
        else
          let r := (List.range ((n + 3) / 4)).foldl (fun (acc : List (Byte × Bool) × State) k =>
            let q := fetchWord32 acc.2 x.who.core x.task ((List.range 4).map (pas.headD 0 / 4 * 4 + 4 * k + ·))
            (acc.1 ++ tagBytes 4 q.1.toNat q.2.1, q.2.2)) ([], s)
          .ok (x.fill r.2 (ldkWrites x ((r.1.drop (pas.headD 0 % 4)).take n)))
      | (.error (some _), s) =>
        memForm x s false false [x.low] (ldkCheck x) fun accs => ldkWrites x (accs.flatMap fun a => tagBytes a.size 0 false)

/-- R220: the place of an address where a prefetch is not dropped: a read of its byte would pass the checks of R213, and its page is
read-only or private to the gang's own team; pages of another team are dropped too (log entry 94). -/
def prefetchPlace (s : State) (x : Iss) (l : Nat) : Option (Nat × W64) × State :=
  let va := x.addr l
  let found := match tlbFind s x.who.core x.who.ctx va with
    | some e => (some (e.leaf, e.pages * 4096), s)
    | none => clusterWalk s (x.who.core / 8) x.who.ctx va
  match found with
  | (none, _) => (none, s)
  | (some (leaf, size), s') =>
    let keep : Bool := mayRead s x.who.ctx x.task.rec_ va 1 && !watchHit s x.g x.who.ctx l va 1 .read &&
      match ((s.task? x.who.slot).getD x.task).classOf (va / 4096) with
        | .readOnly => true
        | .priv o => o == x.who.owner
        | _ => false
    match applyLeaf s x.who.ctx va .read leaf size with
    | .ok pa leaf => if keep && !genRefused s pa leaf then (some (pa, leaf), tlbPut s' x.who.core x.who.ctx va leaf size) else (none, s)
    | _ => (none, s)

/-- R384, R417: the line of an address brought into the core's L1, or into the die-level cache of its die. -/
def prefetchLine (x : Iss) (l pa : Nat) (leaf : W64) (s : State) : State :=
  if x.f.variant = 0 then
    fillAccs s x.who false [] [{ lane := l, space := .global, va := x.addr l, pa, size := 1, peer := none, data := [], data2 := [], leaf }]
  else putDieLine s (x.who.core / 32) (pa / 128)

/-- R220: PFCH: a prefetch of each Active lane; it is no access, and has no effect on any result. -/
def execPfch (f : Fields) (s : State) : Host.Outcome State Fault Refusal :=
  runIssue (.pfch f) s fun x s => .ok (x.lanes.foldl (fun s l => match prefetchPlace s x l with
    | (some (pa, leaf), s) => prefetchLine x l pa leaf s
    | (none, s) => s) s)

/-! ### Stash -/

/-- R221: why a STASH is refused, or its pages translated. -/
inductive StashChk where
  | wait (s : State)
  | fail (cause : Nat) (s : State)
  | ok (s : State)

/-- R221: the checks of a mapping of n bytes at global g and scratchpad offset o; operands outside the limits are PROTECTION too
(log entry 90). -/
def stashCheck (s : State) (x : Iss) (g o n : Nat) : StashChk :=
  match s.team? x.who.team with
  | none => .fail 0x21 s
  | some t =>
    match xlatPieces s x.who.core x.who.ctx .read .global 0 g [] [] (pagePieces g n) with
    | .miss s => .wait s
    | .fail c _ s => .fail c s
    | .ok accs s =>
      let pages := (pagePieces g n).map fun p => p.1 / 4096
      let task := (s.task? x.who.slot).getD x.task
      let inStash := (blocksOf g n).all fun b => x.task.rec_.regions.any fun r => r.stash && r.covers (b * 128)
      let ok := g % 128 == 0 && o % 128 == 0 && n % 128 == 0 && 128 ≤ n && o + n ≤ scratchSize s x.who.team x.who.half &&
        t.stashes.length < 8 && !accs.any (·.peer.isSome) && inStash &&
        (t.stashes.all fun m => (m.half != x.who.half || o + n ≤ m.off || m.off + m.len ≤ o) && (g + n ≤ m.base || m.base + m.len ≤ g)) &&
        pages.all fun p => match task.classOf p with
          | .shared => false
          | .priv w => w == x.who.owner
          | _ => true
      if !ok then .fail 0x21 s
      else if meetsPriv s x.who.ctx x.task.rec_ g n then .fail 0x22 s
      else .ok s

/-- R221: STASH. -/
def execStash (f : Fields) (s : State) : Host.Outcome State Fault Refusal :=
  runIssue (.stash f) s fun x s =>
    if x.active = 0#64 then .ok s
    else
      let g := (x.a x.low).toNat
      let o := (x.b x.low).toNat % 2 ^ 32
      let n := (x.b x.low).toNat / 2 ^ 32
      match stashCheck s x g o n with
      | .wait s => .wait .walk s
      | .fail c s => .trap { cause := c, tmask := x.active, taddr := w64 g, thit := maskOf (· == x.low), tpc := none } s
      | .ok s =>
        match touchPages s x.who.slot x.who.index x.who.owner false false ((s.gang? x.ref).bind Gang.unclass).isSome
            ((pagePieces g n).map fun p => p.1 / 4096) with
        | .wait why s => .wait why s
        | .go unclass _ s =>
          let s := match s.team? x.who.team with
            | some t => s.setTeam x.who.team { t with stashes := t.stashes ++
                [{ half := x.who.half, base := g, off := o, len := n, filled := [], dirty := [], since := s.issueCtr }] }
            | none => s
          .ok (if unclass then x.mapGang s countUnclass else s)

/-- Whether an issue reaches bytes of a space. -/
def opReaches (op : PendOp) (sp : Space) (lo n : Nat) : Bool :=
  op.accs.any fun a => a.peer.isNone && a.space.sameAs sp && lo < a.place + a.size && a.place < lo + n

/-- R222, R288, R289: whether an access of the gang that is still to be made, or to be made again, reaches the bytes of a mapping, in
scratchpad or in global. -/
def unstashWaits (s : State) (x : Iss) (m : Stash) : Bool :=
  ((s.gang? x.ref).map fun g => (g.unclass.toList ++ g.late.toList ++ waitingOps g).any fun op =>
    opReaches op (.scratch m.half) m.off m.len || op.accs.any fun a =>
      a.space == .global && a.peer.isNone && m.base < a.va + a.size && a.va < m.base + m.len).getD false ||
  (m.half == x.who.half && (blocksAgain s x.ref).any fun b => m.off < b.2.1 + 64 && b.2.1 < m.off + m.len)

/-- R222: UNSTASH: it waits for the gang's own earlier accesses to the mapped bytes, and where a read-only page of its dirty lines must
become shared first (R298, R366). -/
def execUnstash (f : Fields) (s : State) : Host.Outcome State Fault Refusal :=
  runIssue (.unstash f) s fun x s =>
    if x.active = 0#64 then .ok s
    else
      let o := (x.a x.low).toNat
      match s.team? x.who.team with
      | none => .ok s
      | some t =>
        match t.stashes.find? fun m => m.half == x.who.half && m.off == o with
        | none => .trap { cause := 0x21, tmask := x.active, taddr := w64 o, thit := maskOf (· == x.low), tpc := none } s
        | some m =>
          if unstashWaits s x m then .wait .unclassified s
          else match touchPages s x.who.slot x.who.index x.who.owner true false ((s.gang? x.ref).bind Gang.unclass).isSome
              (stashPages s x.who.slot m) with
            | .wait why s => .wait why s
            | .go _ _ s =>
              let s := stashWriteBack s x.who.team t m
              match s.team? x.who.team with
              | some t => .ok (s.setTeam x.who.team { t with stashes := t.stashes.filter fun k => !(k.half == x.who.half && k.off == o) })
              | none => .ok s

/-! ### Class 0xA -/

/-- R223: bytes of an atomic's word. -/
def wordSize (f : Fields) : Nat := typeWidth f.tcode / 8
/-- R223: a lane's atomic request: address A alone. -/
def atomReq (x : Iss) (l : Nat) (peerOk : Bool) (data2 : List Byte) : AccReq :=
  { lane := l, va := (x.a l).toNat, size := wordSize x.f, kind := .atomic, align := wordSize x.f, peerOk,
    data := leBytes (wordSize x.f) (x.b l).toNat, data2 }
/-- R225: 64-bit integer types. -/
def int64Type (f : Fields) : Bool := f.tcode == 2 || f.tcode == 3
/-- R223: ATOM. -/
def execAtom (f : Fields) (s : State) : Host.Outcome State Fault Refusal :=
  runIssue (.atom f) s fun x s =>
    memForm x s true true x.lanes (fun s l => globalCheck s x.g x.who x.task.rec_
      (atomReq x l (int64Type f && f.imm.toNat % 16 == 0) [])) (loadWrites x)
/-- R224: ACAS. -/
def execAcas (f : Fields) (s : State) : Host.Outcome State Fault Refusal :=
  runIssue (.acas f) s fun x s =>
    memForm x s true true x.lanes (fun s l => globalCheck s x.g x.who x.task.rec_
      (atomReq x l (int64Type f) (leBytes (wordSize f) (x.c l).toNat))) (loadWrites x)
/-- R223: ATOMS, at the issuing core's scratchpad; it follows every earlier access of its threads (R290): behind an unclassified issue
it commits without waiting and is performed after it. -/
def execAtoms (f : Fields) (s : State) : Host.Outcome State Fault Refusal :=
  runIssue (.atoms f) s fun x s =>
    memForm x s false true x.lanes (fun s l => localCheck s x.who x.task.rec_ (some x.g) (ownHalf x) true (atomReq x l false [])) (loadWrites x)

/-- R226, R227: the row's and the version word's checks, by the lowest Active lane; data is the row's operand. -/
def rowCheck (x : Iss) (kind : WatchKind) (data vdata vdata2 : List Byte) (s : State) (l : Nat) : LaneChk :=
  let a := (x.a l).toNat
  let v := (x.c l).toNat
  let B := x.g.wReg (wNum x.f.b)
  let n := 2 * (viewRows B * viewCols B)
  let q : AccReq := { lane := l, va := a, size := n, kind, align := 1, peerOk := false, data }
  let misaligned := a % 64 ≠ 0 || v % 4 ≠ 0 || a / 4096 ≠ (a + n - 1) / 4096 || a / 4096 ≠ v / 4096
  joinChk
    (joinChk (globalCheck s x.g x.who x.task.rec_ q) fun s =>
      globalCheck s x.g x.who x.task.rec_ { q with va := v, size := 4, data := vdata, data2 := vdata2 })
    fun s => if misaligned then .fail 0x23 (w64 v) s else .ok [] s
/-- R226: ROWADD. -/
def execRowadd (f : Fields) (s : State) : Host.Outcome State Fault Refusal :=
  runIssue (.rowadd f) s fun x s =>
    let B := x.g.wReg (wNum f.b)
    memForm x s true true [x.low] (rowCheck x .atomic (leBytes (viewBytes B) (x.g.viewVal B)) [] []) noWrites
/-- R227: ROWLD. -/
def execRowld (f : Fields) (s : State) : Host.Outcome State Fault Refusal :=
  runIssue (.rowld f) s fun x s =>
    let B := x.g.wReg (wNum f.b)
    memForm x s true false [x.low]
      (rowCheck x .read [] (leBytes 4 (x.srcT (f.c + 1#12) 3 x.low).toNat) (leBytes 4 x.g.rowlag.toNat))
      fun _ => rowldWrites x.g B f x.active (tagBytes (viewBytes B) 0 false) false

/-! ### Directional records -/

/-- R184: the bytes of a record of the view's length. -/
def recordSize (d : W64) : Nat := 32 * viewCols d + 4
/-- R184, R186: DVLD. -/
def execDvld (f : Fields) (s : State) : Host.Outcome State Fault Refusal :=
  runIssue (.dvld f) s fun x s =>
    let D := x.g.wReg (wNum f.d)
    memForm x s false false [x.low] (fun s l => globalCheck s x.g x.who x.task.rec_
      { lane := l, va := x.addr l, size := recordSize D, kind := .read, align := 4, peerOk := true } true)
      fun _ => dvldWrites x.g D (tagBytes (recordSize D) 0 false)
/-- R184, R186: DVST. -/
def execDvst (f : Fields) (s : State) : Host.Outcome State Fault Refusal :=
  runIssue (.dvst f) s fun x s =>
    let B := x.g.wReg (wNum f.b)
    let data := leBytes (viewBytes B) (x.g.viewVal B) ++ leBytes 4 (KMap.get x.g.n 0x80000000#32 (viewNidx B)).toNat
    memForm x s false true [x.low] (fun s l => globalCheck s x.g x.who x.task.rec_
      { lane := l, va := x.addr l, size := recordSize B, kind := .write, align := 4, peerOk := true, data } true) noWrites

end Sys2Proof.Machine
end

