-- ==== Sys2Proof/Machine/Phys.lean ====
section
/-! DEFINITION. Module-fatal errors (R409), the viaduct (R408), patrol scrubbing (R413), and clocks and heat (R452). -/

namespace Sys2Proof.Machine

/-! ### Module-fatal errors -/

/-- R409: the module log takes one entry, every context is force-reset, and only management is left. -/
def fatal (s : State) (code : Nat) (die : Nat := 0) : State :=
  let s := logModule s { LogEntry.at s.tick 0x0D with info := code, die }
  let s := match s.ckptRun with
    | some _ => { s with ckptRun := none, ckptStatus := 3, ctxs := s.ctxs.map fun (e : Nat × Ctx) => (e.1, { e.2 with frozen := false }) }
    | none => s
  let s := { s with dumps := [], fw := { s.fw with activating := none } }
  let s := s.ctxs.foldl (fun (s : State) (e : Nat × Ctx) => forceReset s e.1 4) s
  { s with halted := true }

/-- R409: a module-fatal error in a structure of R407's order. -/
def execModuleFatal (structureCode : Nat) (s : State) : Host.Outcome State Fault Refusal :=
  .next (if s.halted then s else fatal s structureCode)

/-! ### The viaduct -/

/-- Whether a die's flit has been replayed 16 times: its link is to retrain, and traffic waits. -/
def flitStuck (d : Die) : Bool := 16 ≤ d.flitReplays

/-- R408: a flit of a die arrives at the other: taken, or refused and replayed. -/
def execViaductFlitReceive (die : Nat) (crcOk : Bool) (s : State) : Host.Outcome State Fault Refusal :=
  match KMap.get? s.dies die with
  | none => .next s
  | some d =>
    if s.retraining.isSome || flitStuck d then .next s
    else if crcOk then .next (({ s with dies := KMap.put s.dies die { d with flitReplays := 0 } } : State).bump .viaflits die)
    else .next (({ s with dies := KMap.put s.dies die { d with flitReplays := d.flitReplays + 1 } } : State).bump .viareplay die)

/-- The die whose flit has been replayed 16 times. -/
def stuckDie (s : State) : Option Nat := (s.dies.find? fun e => flitStuck e.2).map Prod.fst

/-- R408, R411: the link retrains. -/
def execLinkRetrain (s : State) : Host.Outcome State Fault Refusal :=
  match stuckDie s with
  | some d =>
    if s.retraining.isSome then .next s
    else
      let s := { s with retraining := some d, dies := KMap.modify s.dies d fun x => { x with flitReplays := 0 } }
      .next (linkEntry (s.bump .viaretrain d) 8 d)
  | none => .next s

/-- R408: a retrain ends; a failed one is followed by another, the third in succession is module-fatal. -/
def execRetrainComplete (ok : Bool) (s : State) : Host.Outcome State Fault Refusal :=
  match s.retraining with
  | none => .next s
  | some d =>
    if ok then .next { s with retraining := none, failedRetrains := 0 }
    else if 2 ≤ s.failedRetrains then .next (fatal { s with retraining := none, failedRetrains := 0 } (Config.openInfo 1) d)
    else .next (linkEntry (({ s with failedRetrains := s.failedRetrains + 1 } : State).bump .viaretrain d) 8 d)

/-! ### Errors of words (R54, R55, R406, R407, R411) -/

/-- R406, R411, R413: a word of a core array of a task becomes poisoned; code 0 is the array, 1 the L1 share, whose word has a physical
address. The entry goes to the ring of the task's context and to the module log; a patrol scrubber's names no context. -/
def arrayPoison (s : State) (core slot : Nat) (scrub : Bool) (code : Nat := 0) (addr : Nat := 0) : State :=
  let s := s.bump .poisonnew (core / 32)
  let e : LogEntry := { LogEntry.onCore s.tick 0x01 core with addr, phys := code == 1, info := code }
  match if scrub then none else s.task? slot with
  | some t =>
    let e := { e with ctx := t.ctx, taskid := t.rec_.taskid }
    logCtx (logModule s e) t.ctx [e]
  | none => logModule s e

/-- A word of a window with its mark of a correctable error set or cleared, or poisoned. -/
def windowWord (s : State) (r : GangRef) (half : Nat) (found : ScrubFinding) (mark : Bool) : State :=
  match s.gang? r with
  | none => s
  | some g =>
    if 2 * g.regs * g.width ≤ half then s
    else match found with
      | .clean => s
      | .corrected =>
        let s := s.setGang r { g with vCorr := BitSet.put g.vCorr half mark }
        if mark then s else s.bump .ecccorr r.core
      | .uncorrectable =>
        arrayPoison (s.setGang r { g with vPoison := BitSet.put g.vPoison half true, vCorr := BitSet.put g.vCorr half false }) r.core
          (((s.team? g.team).map Team.slot).getD 128) (!mark)

/-- The same of a word of a team's scratchpad. -/
def scratchWord (s : State) (team h word : Nat) (found : ScrubFinding) (mark : Bool) : State :=
  match s.team? team with
  | none => s
  | some t => match t.half? h with
    | none => s
    | some x =>
      let put (y : Half) : State := s.setTeam team (t.setHalf h y)
      if x.scratchUnits.length * 16384 ≤ word then s
      else match found with
        | .clean => s
        | .corrected =>
          let s := put { x with corr := BitSet.put x.corr word mark }
          if mark then s else s.bump .ecccorr x.core
        | .uncorrectable =>
          arrayPoison (put { x with poison := BitSet.put x.poison word true, corr := BitSet.put x.corr word false }) x.core t.slot (!mark)

/-- The same of a word of a line that a core holds. -/
def copyWord (s : State) (core slot word : Nat) (found : ScrubFinding) (mark : Bool) : State :=
  let mine (l : L1Line) : Bool := l.core == core && l.slot == slot && l.line == word / 32
  let put (f : L1Line → L1Line) : State := { s with l1 := s.l1.map fun l => if mine l then f l else l }
  if !s.l1.any mine then s
  else match found with
    | .clean => s
    | .corrected =>
      let s := put fun l => { l with corr := BitSet.put l.corr word mark }
      if mark then s else s.bump .ecccorr core
    | .uncorrectable =>
      arrayPoison (put fun l => { l with poison := BitSet.put l.poison word true, corr := BitSet.put l.corr word false }) core slot (!mark) 1 (4 * word)

/-- The same of a word of memory at its home; die tells the two homes of far memory apart. -/
def memoryWord (s : State) (die word : Nat) (found : ScrubFinding) (mark : Bool) : State :=
  if !isFar (4 * word) && die ≠ homeDie (4 * word) false then s
  else match found with
    | .clean => s
    | .corrected =>
      let s := { s with memCorr := BitSet.put s.memCorr word mark }
      if mark then s else s.bump .diecorr die
    | .uncorrectable => poisonNew { s with memCorr := BitSet.put s.memCorr word false } word (if isFar (4 * word) then 4 else 3) die

/-- The same of a word of a line in a die's die-level cache, whose copy is clean: a poisoned one is poisoned for all who read the line. -/
def dieCacheWord (s : State) (die word : Nat) (found : ScrubFinding) (mark : Bool) : State :=
  if !BitSet.has s.dieCache (2 * (word / 32) + die) then s
  else match found with
    | .clean => s
    | .corrected =>
      let s := { s with dieCorr := BitSet.put s.dieCorr (2 * word + die) mark }
      if mark then s else s.bump .diecorr die
    | .uncorrectable => poisonNew { s with dieCorr := BitSet.put s.dieCorr (2 * word + die) false } word 2 die

/-- R57, R413: a patrol scrubber reads a word. -/
def execPatrolScrub (w : ScrubWord) (found : ScrubFinding) (s : State) : Host.Outcome State Fault Refusal :=
  .next (match w with
    | .window r half => windowWord s r half found false
    | .scratch slot team h word => if (s.team? team).any fun t => t.slot == slot then scratchWord s team h word found false else s
    | .l1 core slot word => copyWord s core slot word found false
    | .memory die word => memoryWord s die word found false
    | .dieCache die word => dieCacheWord s die word found false)

/-! ### Errors that strike -/

/-- R407: an uncorrectable error in the entry that tracks some lines: every word of those owned is poisoned at its home, and every
tracked copy is dropped with what it holds. -/
def loseTracked (s : State) (which : L1Line → Bool) : State :=
  let mine (l : L1Line) : Bool := l.tracked && which l
  let owned := ((s.l1.filter fun l => mine l && l.owned).map L1Line.line).eraseDups
  let l1 := s.l1.filter fun l => !mine l
  let filters := keepFilters l1 s.filters
  owned.foldl (fun s line => (List.range 32).foldl (fun s k => poisonNew s (32 * line + k) 5 (homeOf s (128 * line))) s)
    { s with l1, filters, directory := keepDirectory l1 filters s.directory }

/-- R361: whether a line is one that a directory entry tracks: of its region and, where both dies have an entry of that, homed at its
die. -/
def entryTracks (s : State) (d : DirEntry) (l : L1Line) : Bool :=
  l.line / 4 == d.region && (homeOf s (128 * l.line) == d.die || !s.directory.any fun e => e.die != d.die && e.region == d.region)

/-- R407: an error in a directory or filter entry: corrected and counted, or its copies are lost. -/
def entryError (s : State) (die : Nat) (correctable : Bool) (which : L1Line → Bool) : State :=
  if correctable then s.bump .diecorr die else loseTracked s which

/-- R407: a parity error in an entry of a translation cache or a walker's cache: it is dropped, walked again, and counted. -/
def dropCached (s : State) (x : Upset) : State :=
  match x with
  | .translation ix => match s.tlb[ix]? with
    | some e => ({ s with tlb := s.tlb.eraseIdx ix } : State).bump .diecorr (e.core / 32)
    | none => s
  | .walker ix => match s.walkCache[ix]? with
    | some e => ({ s with walkCache := s.walkCache.eraseIdx ix } : State).bump .diecorr (e.cluster / 4)
    | none => s
  | _ => s

/-- R406, R407: an error in a class map or in a task slot's copy: corrected and counted, or fatal to the context (log entry 86). -/
def slotError (s : State) (slot : Nat) (correctable : Bool) : State :=
  if (s.task? slot).isNone then s
  else if correctable then s.bump .diecorr 0
  else leftBy s (execContextFatalError slot s)

/-- R54, R406, R407: an error strikes: a correctable one of a word waits for the next read of it, an uncorrectable one poisons the word
at once; a latch entry's parity fails; an entry of a directory, a filter or a cache is corrected, lost or dropped. -/
def upset (s : State) (x : Upset) (correctable : Bool) : State :=
  let found : ScrubFinding := if correctable then .corrected else .uncorrectable
  match x with
  | .window g half => windowWord s g half found true
  | .scratch team h word => scratchWord s team h word found true
  | .l1 core slot word => copyWord s core slot word found true
  | .memory word => memoryWord s (homeOf s (4 * word)) word found true
  | .dieCache die word => dieCacheWord s die word found true
  | .latch r e => match s.gang? r with
    | some g => s.setGang r { g with parity := if g.parity.contains e then g.parity else g.parity ++ [e] }
    | none => s
  | .directory ix => match s.directory[ix]? with
    | some d => entryError s d.die correctable (entryTracks s d)
    | none => s
  | .filter ix => match s.filters[ix]? with
    | some f => entryError s (f.cluster / 4) correctable fun l => l.line == f.line && l.core / 8 == f.cluster
    | none => s
  | .classMap slot | .slotCopy slot => slotError s slot correctable
  | .cmdMemory => if correctable then s.bump .diecorr 0 else if s.halted then s else fatal s 6
  | .translation _ => dropCached s x
  | .walker _ => dropCached s x

/-! ### Room made in caches and directories -/

/-- R363, R384, R417: the copies that an entry tracks are recalled for an access of a context, owned ones written back first at its
expense. -/
def recallTracked (s : State) (die ctx : Nat) (which : L1Line → Bool) : State :=
  (dropLines s (fun l => l.tracked && which l) (.of ctx)).bump .recalls die

/-- R363: the least recently granted directory entry of a die is recalled. -/
def recallDirectory (s : State) (die ctx : Nat) : State :=
  match s.directory.find? fun d => d.die == die with
  | some d => recallTracked s die ctx (entryTracks s d)
  | none => s

/-- R363: the least recently granted filter entry of a cluster is recalled. -/
def recallFilter (s : State) (cluster ctx : Nat) : State :=
  match s.filters.find? fun f => f.cluster == cluster with
  | some f => recallTracked s (cluster / 4) ctx fun l => l.line == f.line && l.core / 8 == cluster
  | none => s

/-- R283, R343, R356, R363: a cache, a directory or a filter makes room; a line that a core drops is written back where dirty, and one that
the directory tracks stays until that recalls it or its end edge removes it. -/
def makeRoom (s : State) (x : Evict) : State :=
  match x with
  | .translation ix => { s with tlb := s.tlb.eraseIdx ix }
  | .walker ix => { s with walkCache := s.walkCache.eraseIdx ix }
  | .line ix => match s.l1[ix]? with
    | some v => if v.tracked then s else dropLines s fun l => l.core == v.core && l.slot == v.slot && l.line == v.line
    | none => s
  | .dieCache ix => match s.dieCache[ix]? with
    | some e => { s with dieCache := BitSet.put s.dieCache e.1 false }
    | none => s
  | .directory die ctx => recallDirectory s die ctx
  | .filter cluster ctx => recallFilter s cluster ctx

/-! ### Clocks and heat -/

/-- R452: a die's core clock set, with a FREQ record. -/
def setClock (s : State) (die mhz : Nat) (d : Die) : State :=
  let r : TraceRec := { TraceRec.plain 2 (w64 s.tick) with more := [w64 (mhz + 2 ^ 16 * d.mhz + 2 ^ 32 * die), 0#64] }
  dieRecord { s with dies := KMap.put s.dies die { d with mhz } } die r s.tick

/-- R452: the millisecond's step of a die's clock. -/
def execClockStep (die powerMilliW tempMilliC : Nat) (s : State) : Host.Outcome State Fault Refusal :=
  match KMap.get? s.dies die with
  | none => .next s
  | some d =>
    if d.stopped then .next s
    else if 1900000 < powerMilliW || 100000 ≤ tempMilliC then .next (if 300 < d.mhz then setClock s die (d.mhz - 25) d else s)
    else if powerMilliW < 1800000 && tempMilliC < 95000 then .next (if d.mhz < 600 then setClock s die (d.mhz + 25) d else s)
    else .next s

/-- R452: at 110 °C a die's core clocks stop. -/
def execThermalStop (die tempMilliC : Nat) (s : State) : Host.Outcome State Fault Refusal :=
  match KMap.get? s.dies die with
  | none => .next s
  | some d =>
    .next (if tempMilliC < 110000 || d.stopped then s
      else
        let s := flushEarly s fun _ d => d == die
        { s with dies := KMap.put s.dies die { d with stopped := true, stoppedAt := s.tick } })

/-- R423, R452: at 95 °C they start again, with a GAP record. -/
def execThermalRestart (die tempMilliC : Nat) (s : State) : Host.Outcome State Fault Refusal :=
  match KMap.get? s.dies die with
  | none => .next s
  | some d =>
    if !d.stopped || 95000 < tempMilliC then .next s
    else
      let r : TraceRec := { TraceRec.plain 3 (w64 d.stoppedAt) with more := [w64 s.tick, 0#64] }
      .next (dieRecord { s with dies := KMap.put s.dies die { d with stopped := false } } die r s.tick)

/-- R452: a failed sensor is module-fatal. -/
def execSensorFailure (die : Nat) (s : State) : Host.Outcome State Fault Refusal :=
  .next (if s.halted then s else fatal s (Config.openInfo 2) die)

end Sys2Proof.Machine
end

