-- ==== Sys2Proof/Machine/Dispatch.lean ====
section
/-! DEFINITION. The meaning of each instruction, happening and command: one arm per constructor. -/

namespace Sys2Proof.Machine

def exec (i : Instr) (s : State) : Host.Outcome State Fault Refusal :=
  match i with
  | .nop x => Sys2Proof.Machine.execNop x s
  | .bra x => Sys2Proof.Machine.execBra x s
  | .bri x => Sys2Proof.Machine.execBri x s
  | .call x => Sys2Proof.Machine.execCall x s
  | .calli x => Sys2Proof.Machine.execCalli x s
  | .ret x => Sys2Proof.Machine.execRet x s
  | .exit x => Sys2Proof.Machine.execExit x s
  | .yield x => Sys2Proof.Machine.execYield x s
  | .elect x => Sys2Proof.Machine.execElect x s
  | .vote x => Sys2Proof.Machine.execVote x s
  | .pset x => Sys2Proof.Machine.execPset x s
  | .pmov x => Sys2Proof.Machine.execPmov x s
  | .iadd x => Sys2Proof.Machine.execIadd x s
  | .isub x => Sys2Proof.Machine.execIsub x s
  | .iaddc x => Sys2Proof.Machine.execIaddc x s
  | .imul x => Sys2Proof.Machine.execImul x s
  | .imulh x => Sys2Proof.Machine.execImulh x s
  | .imad x => Sys2Proof.Machine.execImad x s
  | .imin x => Sys2Proof.Machine.execImin x s
  | .imax x => Sys2Proof.Machine.execImax x s
  | .iabs x => Sys2Proof.Machine.execIabs x s
  | .ineg x => Sys2Proof.Machine.execIneg x s
  | .icmp x => Sys2Proof.Machine.execIcmp x s
  | .isel x => Sys2Proof.Machine.execIsel x s
  | .lea x => Sys2Proof.Machine.execLea x s
  | .idiv x => Sys2Proof.Machine.execIdiv x s
  | .irem x => Sys2Proof.Machine.execIrem x s
  | .mov x => Sys2Proof.Machine.execMov x s
  | .movi x => Sys2Proof.Machine.execMovi x s
  | .idot4 x => Sys2Proof.Machine.execIdot4 x s
  | .and x => Sys2Proof.Machine.execAnd x s
  | .or x => Sys2Proof.Machine.execOr x s
  | .xor x => Sys2Proof.Machine.execXor x s
  | .not x => Sys2Proof.Machine.execNot x s
  | .andn x => Sys2Proof.Machine.execAndn x s
  | .shl x => Sys2Proof.Machine.execShl x s
  | .shr x => Sys2Proof.Machine.execShr x s
  | .sar x => Sys2Proof.Machine.execSar x s
  | .rot x => Sys2Proof.Machine.execRot x s
  | .popc x => Sys2Proof.Machine.execPopc x s
  | .clz x => Sys2Proof.Machine.execClz x s
  | .ctz x => Sys2Proof.Machine.execCtz x s
  | .brev x => Sys2Proof.Machine.execBrev x s
  | .bfx x => Sys2Proof.Machine.execBfx x s
  | .bfi x => Sys2Proof.Machine.execBfi x s
  | .lop3 x => Sys2Proof.Machine.execLop3 x s
  | .fadd x => Sys2Proof.Machine.execFadd x s
  | .fsub x => Sys2Proof.Machine.execFsub x s
  | .fmul x => Sys2Proof.Machine.execFmul x s
  | .ffma x => Sys2Proof.Machine.execFfma x s
  | .fmin x => Sys2Proof.Machine.execFmin x s
  | .fmax x => Sys2Proof.Machine.execFmax x s
  | .fabs x => Sys2Proof.Machine.execFabs x s
  | .fneg x => Sys2Proof.Machine.execFneg x s
  | .fcmp x => Sys2Proof.Machine.execFcmp x s
  | .fsel x => Sys2Proof.Machine.execFsel x s
  | .fclass x => Sys2Proof.Machine.execFclass x s
  | .fscale x => Sys2Proof.Machine.execFscale x s
  | .fround x => Sys2Proof.Machine.execFround x s
  | .fdot2 x => Sys2Proof.Machine.execFdot2 x s
  | .frcp x => Sys2Proof.Machine.execFrcp x s
  | .frsq x => Sys2Proof.Machine.execFrsq x s
  | .fsqrt x => Sys2Proof.Machine.execFsqrt x s
  | .fexp2 x => Sys2Proof.Machine.execFexp2 x s
  | .flog2 x => Sys2Proof.Machine.execFlog2 x s
  | .fsin x => Sys2Proof.Machine.execFsin x s
  | .fcos x => Sys2Proof.Machine.execFcos x s
  | .ftanh x => Sys2Proof.Machine.execFtanh x s
  | .fdiv x => Sys2Proof.Machine.execFdiv x s
  | .cvt x => Sys2Proof.Machine.execCvt x s
  | .shfl x => Sys2Proof.Machine.execShfl x s
  | .swz x => Sys2Proof.Machine.execSwz x s
  | .bcast x => Sys2Proof.Machine.execBcast x s
  | .reda x => Sys2Proof.Machine.execReda x s
  | .redm x => Sys2Proof.Machine.execRedm x s
  | .scan x => Sys2Proof.Machine.execScan x s
  | .pack x => Sys2Proof.Machine.execPack x s
  | .unpack x => Sys2Proof.Machine.execUnpack x s
  | .sxpack x => Sys2Proof.Machine.execSxpack x s
  | .sxunp x => Sys2Proof.Machine.execSxunp x s
  | .matchLanes x => Sys2Proof.Machine.execMatchLanes x s
  | .dvmk x => Sys2Proof.Machine.execDvmk x s
  | .dvflat x => Sys2Proof.Machine.execDvflat x s
  | .dvdot x => Sys2Proof.Machine.execDvdot x s
  | .dvscl x => Sys2Proof.Machine.execDvscl x s
  | .dvadd x => Sys2Proof.Machine.execDvadd x s
  | .dvaxpy x => Sys2Proof.Machine.execDvaxpy x s
  | .dvneg x => Sys2Proof.Machine.execDvneg x s
  | .dvnrm x => Sys2Proof.Machine.execDvnrm x s
  | .dvsetn x => Sys2Proof.Machine.execDvsetn x s
  | .dvren x => Sys2Proof.Machine.execDvren x s
  | .dvproj x => Sys2Proof.Machine.execDvproj x s
  | .dvcmp x => Sys2Proof.Machine.execDvcmp x s
  | .dvld x => Sys2Proof.Machine.execDvld x s
  | .dvst x => Sys2Proof.Machine.execDvst x s
  | .dvmul x => Sys2Proof.Machine.execDvmul x s
  | .tvset x => Sys2Proof.Machine.execTvset x s
  | .tvget x => Sys2Proof.Machine.execTvget x s
  | .mxop x => Sys2Proof.Machine.execMxop x s
  | .mxwait x => Sys2Proof.Machine.execMxwait x s
  | .tokgive x => Sys2Proof.Machine.execTokgive x s
  | .toktake x => Sys2Proof.Machine.execToktake x s
  | .tzero x => Sys2Proof.Machine.execTzero x s
  | .tcvt x => Sys2Proof.Machine.execTcvt x s
  | .chld x => Sys2Proof.Machine.execChld x s
  | .chrun x => Sys2Proof.Machine.execChrun x s
  | .chqry x => Sys2Proof.Machine.execChqry x s
  | .chinv x => Sys2Proof.Machine.execChinv x s
  | .ld x => Sys2Proof.Machine.execLd x s
  | .st x => Sys2Proof.Machine.execSt x s
  | .lds x => Sys2Proof.Machine.execLds x s
  | .sts x => Sys2Proof.Machine.execSts x s
  | .ldx x => Sys2Proof.Machine.execLdx x s
  | .stx x => Sys2Proof.Machine.execStx x s
  | .ldp x => Sys2Proof.Machine.execLdp x s
  | .stp x => Sys2Proof.Machine.execStp x s
  | .ldk x => Sys2Proof.Machine.execLdk x s
  | .pfch x => Sys2Proof.Machine.execPfch x s
  | .stash x => Sys2Proof.Machine.execStash x s
  | .unstash x => Sys2Proof.Machine.execUnstash x s
  | .atom x => Sys2Proof.Machine.execAtom x s
  | .acas x => Sys2Proof.Machine.execAcas x s
  | .rowadd x => Sys2Proof.Machine.execRowadd x s
  | .rowld x => Sys2Proof.Machine.execRowld x s
  | .atoms x => Sys2Proof.Machine.execAtoms x s
  | .cpy x => Sys2Proof.Machine.execCpy x s
  | .cpym x => Sys2Proof.Machine.execCpym x s
  | .gather x => Sys2Proof.Machine.execGather x s
  | .scata x => Sys2Proof.Machine.execScata x s
  | .sigw x => Sys2Proof.Machine.execSigw x s
  | .sigt x => Sys2Proof.Machine.execSigt x s
  | .sigs x => Sys2Proof.Machine.execSigs x s
  | .bars x => Sys2Proof.Machine.execBars x s
  | .bara x => Sys2Proof.Machine.execBara x s
  | .barw x => Sys2Proof.Machine.execBarw x s
  | .boa x => Sys2Proof.Machine.execBoa x s
  | .bow x => Sys2Proof.Machine.execBow x s
  | .carve x => Sys2Proof.Machine.execCarve x s
  | .trap x => Sys2Proof.Machine.execTrap x s
  | .rte x => Sys2Proof.Machine.execRte x s
  | .mfc x => Sys2Proof.Machine.execMfc x s
  | .mtc x => Sys2Proof.Machine.execMtc x s
  | .rdcnt x => Sys2Proof.Machine.execRdcnt x s
  | .rdtime x => Sys2Proof.Machine.execRdtime x s
  | .haltdbg x => Sys2Proof.Machine.execHaltdbg x s
  | .rddig x => Sys2Proof.Machine.execRddig x s
  | .regq x => Sys2Proof.Machine.execRegq x s
  | .sleep x => Sys2Proof.Machine.execSleep x s
  | .chldCommit x => Sys2Proof.Machine.execChldCommit x s
  | .sigwComplete x => Sys2Proof.Machine.execSigwComplete x s
  | .bowComplete x => Sys2Proof.Machine.execBowComplete x s
  | .sleepWake x => Sys2Proof.Machine.execSleepWake x s
  | .fetch x => Sys2Proof.Machine.execFetch x s
  | .secdedReplay x => Sys2Proof.Machine.execSecdedReplay x s
  | .fillLand x0 x1 => Sys2Proof.Machine.execFillLand x0 x1 s
  | .teamPlace x => Sys2Proof.Machine.execTeamPlace x s
  | .gangRetire x => Sys2Proof.Machine.execGangRetire x s
  | .mxopRun x0 x1 => Sys2Proof.Machine.execMxopRun x0 x1 s
  | .engineElement x => Sys2Proof.Machine.execEngineElement x s
  | .engineSignalUpdate x => Sys2Proof.Machine.execEngineSignalUpdate x s
  | .unclassifiedIssueComplete x => Sys2Proof.Machine.execUnclassifiedIssueComplete x s
  | .pageReclassify x0 x1 => Sys2Proof.Machine.execPageReclassify x0 x1 s
  | .readonlyToShared x0 x1 => Sys2Proof.Machine.execReadonlyToShared x0 x1 s
  | .peerAccessComplete x0 x1 x2 => Sys2Proof.Machine.execPeerAccessComplete x0 x1 x2 s
  | .walkComplete x0 x1 => Sys2Proof.Machine.execWalkComplete x0 x1 s
  | .pageMigration x => Sys2Proof.Machine.execPageMigration x s
  | .netRdmaWrite x => Sys2Proof.Machine.execNetRdmaWrite x s
  | .netRdmaRead x => Sys2Proof.Machine.execNetRdmaRead x s
  | .netAtomicFetchAdd x => Sys2Proof.Machine.execNetAtomicFetchAdd x s
  | .netAtomicCmpSwap x => Sys2Proof.Machine.execNetAtomicCmpSwap x s
  | .deferredRequestPerform x => Sys2Proof.Machine.execDeferredRequestPerform x s
  | .frameDrop x => Sys2Proof.Machine.execFrameDrop x s
  | .congestionNotification x => Sys2Proof.Machine.execCongestionNotification x s
  | .pfcPause x0 x1 x2 => Sys2Proof.Machine.execPfcPause x0 x1 x2 s
  | .qpTransportFailure x => Sys2Proof.Machine.execQpTransportFailure x s
  | .viaductFlitReceive x0 x1 => Sys2Proof.Machine.execViaductFlitReceive x0 x1 s
  | .retrainComplete x => Sys2Proof.Machine.execRetrainComplete x s
  | .moduleFatal x => Sys2Proof.Machine.execModuleFatal x s
  | .contextFatalError x => Sys2Proof.Machine.execContextFatalError x s
  | .patrolScrub x0 x1 => Sys2Proof.Machine.execPatrolScrub x0 x1 s
  | .bucketRefill x => Sys2Proof.Machine.execBucketRefill x s
  | .telemetryLatch x0 x1 => Sys2Proof.Machine.execTelemetryLatch x0 x1 s
  | .traceSample x0 x1 => Sys2Proof.Machine.execTraceSample x0 x1 s
  | .sliceExpiry x => Sys2Proof.Machine.execSliceExpiry x s
  | .stallExpiry x => Sys2Proof.Machine.execStallExpiry x s
  | .deadlineExpiry x => Sys2Proof.Machine.execDeadlineExpiry x s
  | .drainEnd x => Sys2Proof.Machine.execDrainEnd x s
  | .clockStep x0 x1 x2 => Sys2Proof.Machine.execClockStep x0 x1 x2 s
  | .thermalStop x0 x1 => Sys2Proof.Machine.execThermalStop x0 x1 s
  | .thermalRestart x0 x1 => Sys2Proof.Machine.execThermalRestart x0 x1 s
  | .sensorFailure x => Sys2Proof.Machine.execSensorFailure x s
  | .queueWake x => Sys2Proof.Machine.execQueueWake x s
  | .task x0 x1 x2 => Sys2Proof.Machine.execTask x0 x1 x2 s
  | .taskAccept x => Sys2Proof.Machine.execTaskAccept x s
  | .waitv x0 x1 x2 x3 => Sys2Proof.Machine.execWaitv x0 x1 x2 x3 s
  | .waitvSatisfied x => Sys2Proof.Machine.execWaitvSatisfied x s
  | .waitvTimeout x => Sys2Proof.Machine.execWaitvTimeout x s
  | .signal x0 x1 x2 x3 x4 => Sys2Proof.Machine.execSignal x0 x1 x2 x3 x4 s
  | .cond x0 x1 x2 x3 x4 => Sys2Proof.Machine.execCond x0 x1 x2 x3 x4 s
  | .copy x0 x1 x2 => Sys2Proof.Machine.execCopy x0 x1 x2 s
  | .copyTransfer x0 x1 => Sys2Proof.Machine.execCopyTransfer x0 x1 s
  | .copyMigrate x0 x1 x2 => Sys2Proof.Machine.execCopyMigrate x0 x1 x2 s
  | .markTrace x0 x1 x2 x3 => Sys2Proof.Machine.execMarkTrace x0 x1 x2 x3 s
  | .markInvalidate x0 x1 x2 x3 => Sys2Proof.Machine.execMarkInvalidate x0 x1 x2 x3 s
  | .dependenceRead x0 x1 => Sys2Proof.Machine.execDependenceRead x0 x1 s
  | .startEdge x => Sys2Proof.Machine.execStartEdge x s
  | .flushLine x => Sys2Proof.Machine.execFlushLine x s
  | .endEdgeFinish x => Sys2Proof.Machine.execEndEdgeFinish x s
  | .ctxset x0 x1 x2 => Sys2Proof.Machine.execCtxset x0 x1 x2 s
  | .ctxreset x0 x1 => Sys2Proof.Machine.execCtxreset x0 x1 s
  | .ctxclear x0 x1 => Sys2Proof.Machine.execCtxclear x0 x1 s
  | .ctxquery x0 x1 => Sys2Proof.Machine.execCtxquery x0 x1 s
  | .qmap x0 x1 x2 x3 => Sys2Proof.Machine.execQmap x0 x1 x2 x3 s
  | .qunmap x0 x1 => Sys2Proof.Machine.execQunmap x0 x1 s
  | .qresume x0 x1 x2 => Sys2Proof.Machine.execQresume x0 x1 x2 s
  | .keyset x0 x1 x2 => Sys2Proof.Machine.execKeyset x0 x1 x2 s
  | .winset x0 x1 x2 => Sys2Proof.Machine.execWinset x0 x1 x2 s
  | .secset x0 x1 x2 => Sys2Proof.Machine.execSecset x0 x1 x2 s
  | .telset x0 x1 x2 x3 x4 => Sys2Proof.Machine.execTelset x0 x1 x2 x3 x4 s
  | .traceset x0 x1 x2 x3 x4 x5 => Sys2Proof.Machine.execTraceset x0 x1 x2 x3 x4 x5 s
  | .dbgattach x0 x1 => Sys2Proof.Machine.execDbgattach x0 x1 s
  | .dbgdetach x0 x1 => Sys2Proof.Machine.execDbgdetach x0 x1 s
  | .dbgset x0 x1 x2 x3 => Sys2Proof.Machine.execDbgset x0 x1 x2 x3 s
  | .gstate x0 x1 x2 x3 => Sys2Proof.Machine.execGstate x0 x1 x2 x3 s
  | .gset x0 x1 x2 x3 x4 => Sys2Proof.Machine.execGset x0 x1 x2 x3 x4 s
  | .grelease x0 x1 x2 x3 => Sys2Proof.Machine.execGrelease x0 x1 x2 x3 s
  | .dump x0 x1 x2 x3 => Sys2Proof.Machine.execDump x0 x1 x2 x3 s
  | .dumpDieCut x0 x1 => Sys2Proof.Machine.execDumpDieCut x0 x1 s
  | .logread x0 x1 => Sys2Proof.Machine.execLogread x0 x1 s
  | .sessionOpen x0 x1 x2 x3 => Sys2Proof.Machine.execSessionOpen x0 x1 x2 x3 s
  | .slotwrite x0 x1 x2 x3 => Sys2Proof.Machine.execSlotwrite x0 x1 x2 x3 s
  | .activate x0 x1 x2 => Sys2Proof.Machine.execActivate x0 x1 x2 s
  | .commit x => Sys2Proof.Machine.execCommit x s
  | .reset x => Sys2Proof.Machine.execReset x s
  | .ident x => Sys2Proof.Machine.execIdent x s
  | .status x => Sys2Proof.Machine.execStatus x s
  | .attest x0 x1 => Sys2Proof.Machine.execAttest x0 x1 s
  | .cfgwrite x0 x1 x2 => Sys2Proof.Machine.execCfgwrite x0 x1 x2 s
  | .ckptLocal x => Sys2Proof.Machine.execCkptLocal x s
  | .ckptRemote x0 x1 => Sys2Proof.Machine.execCkptRemote x0 x1 s
  | .ckptChunkResponse x => Sys2Proof.Machine.execCkptChunkResponse x s
  | .ckrestoreLocal x => Sys2Proof.Machine.execCkrestoreLocal x s
  | .ckrestoreRemote x0 x1 => Sys2Proof.Machine.execCkrestoreRemote x0 x1 s
  | .undefinedEncoding x => Sys2Proof.Machine.execUndefinedEncoding x s
  | .linkRetrain => Sys2Proof.Machine.execLinkRetrain s
  | .contextAdmit => Sys2Proof.Machine.execContextAdmit s
  | .powerLoss => Sys2Proof.Machine.execPowerLoss s
  | .moduleReset => Sys2Proof.Machine.execModuleReset s
  | .activateSwitch => Sys2Proof.Machine.execActivateSwitch s

end Sys2Proof.Machine
end

