-- ==== Sys2Proof/Machine/Sched.lean ====
section
/-! DEFINITION. Whose turn it is (log entry 1): the issue of a gang in its partition (R268 to R270), the next gang of the module
when no party is named, and the happenings that are due when no gang can issue. -/

namespace Sys2Proof.Machine

/-- R270: whether a gang may try to issue now. -/
def canTry (s : State) (ref : GangRef) (g : Gang) : Bool :=
  g.waits.isNone && g.block.isNone && g.late.isNone && !g.stopped && g.runners != 0#64 &&
  match s.who ref with
  | some w => !issueStops s ref.core w.ctx
  | none => false

/-- R269: the order in which eligible gangs are taken: not yielding first, then oldest last issue, then slot. -/
def olderThan (a b : GangRef × Gang) : Bool :=
  let key (x : GangRef × Gang) : Nat × Nat × Nat :=
    (if x.2.yielded then 1 else 0, match x.2.lastIssue with
      | none => 0
      | some n => n + 1, gangNum x.1)
  let ka := key a
  let kb := key b
  ka.1 < kb.1 || (ka.1 = kb.1 && (ka.2.1 < kb.2.1 || (ka.2.1 = kb.2.1 && ka.2.2 < kb.2.2)))

/-- The gang to issue next among those a test allows. -/
def pickGang (s : State) (among : GangRef → Bool) : Option GangRef :=
  let c := s.gangs.filterMap fun e =>
    let r := gangOfNum e.1
    if among r && canTry s r e.2 then some (r, e.2) else none
  match c with
  | [] => none
  | x :: xs => some (xs.foldl (fun b y => if olderThan y b then y else b) x).1

/-- R270: every mark of a wait is forgotten: something has changed. -/
def clearWaits (s : State) : State :=
  { s with gangs := s.gangs.map fun e => (e.1, { e.2 with waits := none }) }

/-- Marks are forgotten unless the gang that tried waits. -/
def afterTry (ref : GangRef) (s : State) : State :=
  match s.gang? ref with
  | some g => if g.waits.isSome then s else clearWaits s
  | none => clearWaits s

/-- One try of a gang: a boundary cause, or fetch, decode and the instruction's meaning. -/
def issueTurn (s : State) (ref : GangRef) : Host.Outcome State Fault Refusal :=
  match s.gang? ref, s.who ref with
  | some g, some who =>
    match s.task? who.slot with
    | none => .fault .noGang
    | some task =>
      match boundaryTrap g with
      | some t => .next (clearWaits (takeBoundary s ref who task t))
      | none =>
        match g.chooseSet with
        | none => .next (waitIssue s ref .fills)
        | some (pc, set) =>
          match fetchAt s ref.core task pc with
          | .miss s => .next (waitIssue s ref .walk)
          | .fail s => .next (clearWaits (fetchFault s ref who task pc set))
          | .word w s =>
            match decode w with
            | .error _ => .next (clearWaits (illegalWord s ref who task pc set))
            | .ok i =>
              match exec i { s with cur := some ref } with
              | .next s => .next (afterTry ref s)
              | x => x
  | _, _ => .fault .noGang

/-- A turn of time: ticks pass on the module's counter, with the samples and latches that fall in them (R415, R424). -/
def passTicks (s : State) (n : Nat) : State := clearWaits (if tickBusy s then passTick n s else { s with tick := s.tick + n })

/-! ### A word placed for the next step (log entry 30) -/

/-- A task record with one gang of width 16 and a code object at 0x1000. -/
def hostRecord : TaskRec :=
  { addr := 0, taskid := 0#32, deterministic := false, digest := false, restartable := false, coresident := false,
    span := false, boused := false, refset := false, code := 0x1000#64, arg := 0#64, width := 16, regs := 64, gangs := 1,
    regu := 0, spu := 0, l1u := 0, nx := 1, ny := 1, nz := 1, curve := 0, privBase := 0#64, privw := 0, fpctl := 0#32,
    rowlag := 0#32, hndoff := 0, donesig := 0#64, digref := 0#64, teamtime := 0#64, deps := [], regions := [] }

/-- The management fields of the context that holds the placed word. -/
def hostFields : CtxFields :=
  { secure := false, prio := 0, share := 0, troot := 0#64, coremask := 1#64, slice := 0, stall := 0, deadline := 0,
    saverec := 0#64, errlog := 0#64 }

/-- A context, a task, a team of one gang and a readable and executable page, with a word at the gang's PC that the task's start edge
found there. -/
def placeWord (s : State) (w : W96) : State :=
  let task := { Task.fresh hostRecord 0 0 0 .running with placed := 1, codeBase := putBytes [] 0x1000 (bytesOfWord w) }
  let team : Team := { slot := 0, index := 0, ctx := 0, order := 0, placedAt := s.tick, gangs := [⟨0, 0, 0⟩], spots := [], retired := [],
                       halves := [⟨0, [], [], [], [], []⟩], arr := [], carve := none, stashes := [], digest := 0#64, dying := false }
  { s with
    agenda := []
    halted := false
    gangs := [(0, newGang hostRecord 0 0 0 0 126)]
    teams := KMap.put s.teams 0 team
    tasks := KMap.put s.tasks 0 task
    ctxs := KMap.put s.ctxs 0 (Ctx.fresh .scheduled hostFields s.tick)
    dies := KMap.modify s.dies 0 fun d => { d with stopped := false }
    icache := []
    tlb := { core := 0, ctx := 0, vpage := 1, pages := 1, leaf := 0x1017#64 } :: s.tlb
    l1 := s.l1.filter fun l => l.line ≠ 0x20
    mem := putBytes s.mem 0x1000 (bytesOfWord w) }

/-! ### Happenings that are due -/


/-- The happenings of a gang that may be due. -/
def gangHappenings (ref : GangRef) (g : Gang) : List Instr :=
  (List.range g.fills.length).map (Instr.fillLand ref ·) ++
  [Instr.chldCommit ref, Instr.secdedReplay ref, Instr.unclassifiedIssueComplete ref, Instr.sigwComplete ref, Instr.bowComplete ref, Instr.sleepWake ref, Instr.gangRetire ref]

/-- The happenings of a task that may be due. -/
def taskHappenings (slot : Nat) (t : Task) : List Instr :=
  t.reclassing.flatMap (fun p => [Instr.pageReclassify slot p, Instr.readonlyToShared slot p]) ++
  (List.range t.rec_.deps.length).map (Instr.dependenceRead slot ·) ++
  [Instr.startEdge slot, Instr.teamPlace slot, Instr.flushLine slot, Instr.endEdgeFinish slot]

/-- The happenings of a queue thread that may be due. -/
def queueHappenings (q : Nat) : List Instr :=
  [Instr.queueWake q, Instr.taskAccept q, Instr.waitvSatisfied q, Instr.waitvTimeout q]

/-- The happenings that may be due, in the order they are looked at. -/
def happenings (s : State) : List Instr :=
  (s.gangs.flatMap fun e => gangHappenings (gangOfNum e.1) e.2) ++
  (s.mxq.filterMap fun e => if e.2.isEmpty then none else some (Instr.mxopRun (e.1 / 32) (e.1 % 32))) ++
  (s.engine.flatMap fun e => [Instr.engineElement e.1, Instr.engineSignalUpdate e.1]) ++
  (List.range 8).map (fun c => Instr.walkComplete c 0) ++
  (s.tasks.flatMap fun e => taskHappenings e.1 e.2) ++
  (s.copies.map fun e => Instr.copyTransfer e.1 128) ++ (s.migrations.map fun e => Instr.pageMigration e.1) ++
  (List.range s.deferral.length).map (Instr.deferredRequestPerform ·) ++
  (s.queues.flatMap fun e => queueHappenings e.1) ++
  (s.ctxs.flatMap fun e => [Instr.drainEnd e.1, Instr.deadlineExpiry e.1, Instr.sliceExpiry e.1, Instr.stallExpiry e.1]) ++ [Instr.contextAdmit] ++
  (s.dumps.flatMap fun e => [Instr.dumpDieCut e.1 0, Instr.dumpDieCut e.1 1]) ++ [Instr.activateSwitch, Instr.linkRetrain]

/-- The turn of a queue thread. -/
def queueStep (s : State) (q : Nat) : Host.Outcome State Fault Refusal :=
  match queueTurn s q with
  | .to s => .next s
  | .act i s => exec i s

/-- An outcome that changes something. -/
def changes (s : State) (r : Host.Outcome State Fault Refusal) : Option (Host.Outcome State Fault Refusal) :=
  match r with
  | .next t => if t = s then none else some (.next (clearWaits t))
  | x => some x

/-- R432: whether a gang's classified issue is held: its core stands still, or a die that has cut holds its accesses. -/
def lateHeld (s : State) (ref : GangRef) (w : Who) : Bool :=
  standsStill s ref.core w.ctx || ((s.gang? ref).bind Gang.late).any (crossHeld s w.ctx)

/-- R287: the lanes of a gang's classified issue that are still to be performed, where its core is free to act. -/
def lateTurn (s : State) (ref : GangRef) : State :=
  match s.who ref with
  | some w => if lateHeld s ref w then s else finishLate s ref
  | none => s

/-- R287: one lane of a gang's classified issue makes its access. -/
def laneTurn (s : State) (ref : GangRef) (l : Nat) : State :=
  match s.who ref with
  | some w => if lateHeld s ref w then s else lateLane ref s l
  | none => s

/-- R287: a turn of a gang whose classified issue leaves its lanes to be performed one by one. -/
def splitTurn (s : State) (ref : GangRef) : Host.Outcome State Fault Refusal :=
  match issueTurn { s with split := true } ref with
  | .next s => .next { s with split := false }
  | x => x

/-- The first happening, queue turn or telemetry record that is due. -/
def firstDue (s : State) : Option (Host.Outcome State Fault Refusal) :=
  match (s.gangs.findSome? fun e => changes s (.next (lateTurn s (gangOfNum e.1)))) with
  | some r => some r
  | none => match (happenings s).findSome? fun i => changes s (exec i s) with
  | some r => some r
  | none => match s.queues.findSome? fun e => changes s (queueStep s e.1) with
    | some r => some r
    | none => changes s (.next (offerNext s))

/-! ### Clocks -/

/-- R417: the class of a wait. -/
def Wait.clocks (w : Wait) : Counter :=
  match w with
  | .unclassified | .walk | .reclassify | .lowerTeam => .memHeld
  | .barrier => .sync
  | _ => .dep

/-- R270, R417: what a gang's next issue waits for, found by a try of it. -/
def waitOf (s : State) (ref : GangRef) (g : Gang) : Option Wait :=
  if !canTry s ref { g with waits := none } then none
  else match issueTurn (clearWaits s) ref with
    | .next t => (t.gang? ref).bind Gang.waits
    | _ => none

/-- R417: what holds a gang, as a class of partition clocks. -/
def holdClass (s : State) (ref : GangRef) (g : Gang) : Counter :=
  match g.block with
  | some (.signal _) | some (.object _) | some (.barrier _) | some (.sleep _) => .sync
  | some .peer => .memHeld
  | some (.chain _) => .dep
  | none => if g.late.isSome then .dep else ((waitOf s ref g).map Wait.clocks).getD .idle

/-- R417: the class in which a partition's clocks without an issue count. -/
def clockClass (s : State) (core part : Nat) : Counter :=
  let gs := (s.gangs.filter fun e => e.1 / 16 == core * 32 + part).map fun e => holdClass s (gangOfNum e.1) e.2
  match gs with
  | [] => .idle
  | c :: t => if t.all (· == c) then c else .idle

/-- R417: n clocks of a partition: those that issues have taken are counted in ISSUE already. -/
def passPart (s : State) (core part n : Nat) : State :=
  let taken := min n (KMap.get s.issueClocks 0 (core * 32 + part))
  let s' := s.bump (clockClass s core part) core (n - taken)
  { s' with issueClocks := KMap.set s.issueClocks 0 (core * 32 + part) (KMap.get s.issueClocks 0 (core * 32 + part) - taken) }

/-- R253, R383, R417: n clocks of a core; a new window of 1,024 refills its buckets. -/
def passCore (s : State) (core n : Nat) : State :=
  let s := (List.range 32).foldl (fun s p => passPart s core p n) (s.bump .clocks core n)
  if refillDue s core then refill s core else s

/-- R253, R417: n clocks of a die. -/
def passClocks (s : State) (die n : Nat) : State :=
  if ((KMap.get? s.dies die).map Die.stopped).getD true then s
  else (List.range 32).foldl (fun s k => passCore s (die * 32 + k) n) s

/-- R360: firmware asks for a page of a context to move, for repair. -/
def askRepair (s : State) (ctx : Nat) (p : CopyPacket) : State :=
  { s with migrations := KMap.put s.migrations s.nextCopy ⟨ctx, p, true⟩, nextCopy := s.nextCopy + 1 }

/-- Whether an instruction is a word that a gang issues: only a fetch brings one about. -/
def isWord (i : Instr) : Bool :=
  i.form.isSome || match i with
  | .undefinedEncoding _ => true
  | _ => false

/-! ### The step -/

/-- One step: the first turn of the agenda; when it is empty, the oldest gang of the module, else the first happening due, else a
tick. -/
def scheduleStep (s : State) : Host.Outcome State Fault Refusal :=
  match s.agenda with
  | .partition core part :: rest =>
    match pickGang s fun r => r.core == core && r.part == part with
    | none => .next { s with agenda := rest }
    | some ref => issueTurn { s with agenda := rest } ref
  | .split core part :: rest =>
    match pickGang s fun r => r.core == core && r.part == part with
    | none => .next { s with agenda := rest }
    | some ref => splitTurn { s with agenda := rest } ref
  | .lane ref l :: rest => .next (clearWaits (laneTurn { s with agenda := rest } ref l))
  | .event i :: rest =>
    if isWord i then .next { s with agenda := rest }
    else match exec i { s with agenda := rest } with
      | .next s => .next (clearWaits s)
      | x => x
  | .ticks n :: rest => .next (passTicks { s with agenda := rest } n)
  | .queue q :: rest =>
    match queueStep { s with agenda := rest } q with
    | .next s => .next (clearWaits s)
    | x => x
  | .clocks die n :: rest => .next (passClocks { s with agenda := rest } die n)
  | .upset x correctable :: rest => .next (clearWaits (upset { s with agenda := rest } x correctable))
  | .evict x :: rest => .next (clearWaits (makeRoom { s with agenda := rest } x))
  | .telemetry :: rest => .next (offerNext { s with agenda := rest })
  | .repair ctx p :: rest => .next (askRepair { s with agenda := rest } ctx p)
  | [] =>
    match pickGang s fun _ => true with
    | some ref => issueTurn s ref
    | none => match firstDue s with
      | some r => r
      | none => .next (passTicks s 1)

end Sys2Proof.Machine
end

