-- ==== Sys2Proof/Machine/Step.lean ====
section
/-! DEFINITION. One step of the module, and a state with an instruction word placed where the next step fetches it. -/

namespace Sys2Proof.Machine

/-- One step: the turn of one party (log entry 1). -/
def step (s : State) : Host.Outcome State Fault Refusal := scheduleStep s

/-- s with the word of an instruction placed where the next step fetches it (log entry 30). -/
def State.withFetchWord (s : State) (_nbits w : Nat) : State := placeWord s (BitVec.ofNat 96 w)

end Sys2Proof.Machine
end

