-- ==== Sys2Proof/Safety.lean ====
section
/-! DEFINITION. What counts as a safe run: the invariants that claims use. -/

namespace Sys2Proof.Machine

/-- R35: a gang's register maps are in canonical form. -/
def Gang.wf (g : Gang) : Bool :=
  KMap.wf g.v 0#64 && KMap.wf g.s 0#64 && KMap.wf g.n 0x80000000#32 && KMap.wf g.vEmpty false && KMap.wf g.sEmpty false &&
  KMap.wf g.nEmpty false && KMap.get g.p 0#64 7 == 0#64 && KMap.get g.pEmpty 0#64 7 == 0#64

/-- R62, R63: the reserved bits of FPCTL and FPSTAT read 0. -/
def Gang.fpReservedZero (g : Gang) : Bool := g.fpctl &&& ~~~fpctlMask == 0#32 && g.fpstat &&& ~~~fpstatMask == 0#32

/-- R304, R305: lanes are held only while a handler runs, and only live lanes are held. -/
def Gang.heldOk (g : Gang) : Bool := (g.inh || g.held == 0#64) && g.held &&& ~~~g.live == 0#64

/-- What every operation on a gang keeps of it. -/
def Gang.ok (g : Gang) : Bool := g.wf && g.fpReservedZero && g.heldOk

/-- Memory in canonical form. -/
def State.memOk (s : State) : Bool := Memory.wf s.mem

/-! ### An issue that goes through -/

/-- The issue x of the form i by the current gang g meets no cause and no wait before its own effect, has an Active lane, and
no armed breakpoint hits it (R12, R18, R24, R46, R54 to R56, R99, R190, R200, R427). -/
structure Ready (i : Instr) (s : State) (g : Gang) (x : Iss) : Prop where
  /-- The gang, its team and its task. -/
  current : s.cur = some x.ref
  present : s.gang? x.ref = some g
  party : s.who x.ref = some x.who
  task : s.task? x.who.slot = some x.task
  /-- The form, its fields, its lane set (R271) and its Active lanes (R12). -/
  instr : x.i = i
  form : i.form = some (x.m, x.f)
  chosen : g.chooseSet = some (x.pc, x.set)
  reads : x.g = (g.seen x.set).holding (holdOf x.m x.f x.active)
  lanes : x.active = activeOf x.g x.f x.set
  someLane : x.active ≠ 0#64
  /-- No ILLEGAL-OPCODE, ILLEGAL-OPERAND, ILLEGAL-VIEW, TOKEN or MACHINE-CHECK. -/
  opcode : badWord i x.m x.f (g.seen x.set) = false
  operands : operandsOk i x.m x.f g.regs = true
  views : badViews i x.f (g.seen x.set) = false
  unlent : lentTouched i x.m x.f (g.seen x.set) = none
  viewParity : viewParity i x.f (g.seen x.set) = false
  guardParity : x.f.gp.toNat = 7 ∨ (g.seen x.set).regParity (opndP x.f.gp.toNat) = false
  parity : sourceParity i x.m x.f (g.seen x.set) = false
  /-- The guard, every source and every destination is full; no source is poisoned or has a correctable error. -/
  guardFull : guardEmpty (g.seen x.set) x.f x.set = false
  sources : ∀ hint, emptySource i x.m x.f (g.seen x.set) x.active hint = false
  clean : poisonTrap i x.m x.f (g.seen x.set) x.active = none
  corrected : correctable i x.m x.f (g.seen x.set) x.active = false
  dests : emptyDest i x.m x.f (g.seen x.set) x.active = false
  destViews : ((viewUses i x.f).any fun v => v.dst && !(g.seen x.set).viewReady (g.wReg v.w)) = false
  unread : heldByMxop s x.ref i x.m x.f (g.seen x.set) = false
  /-- No breakpoint (R427). -/
  unbroken : breakLanes s x = 0#64

/-- The issue x of the form i by the current gang g meets no cause and no wait, and has no Active lane (R12, R24, R46, R99, R190). -/
structure Idle (i : Instr) (s : State) (g : Gang) (x : Iss) : Prop where
  current : s.cur = some x.ref
  present : s.gang? x.ref = some g
  party : s.who x.ref = some x.who
  task : s.task? x.who.slot = some x.task
  instr : x.i = i
  form : i.form = some (x.m, x.f)
  chosen : g.chooseSet = some (x.pc, x.set)
  reads : x.g = (g.seen x.set).holding (holdOf x.m x.f x.active)
  lanes : x.active = activeOf x.g x.f x.set
  noLane : x.active = 0#64
  opcode : badWord i x.m x.f (g.seen x.set) = false
  operands : operandsOk i x.m x.f g.regs = true
  views : badViews i x.f (g.seen x.set) = false
  unlent : lentTouched i x.m x.f (g.seen x.set) = none
  viewParity : viewParity i x.f (g.seen x.set) = false
  guardParity : x.f.gp.toNat = 7 ∨ (g.seen x.set).regParity (opndP x.f.gp.toNat) = false
  guardFull : guardEmpty (g.seen x.set) x.f x.set = false

/-! ### What an issue leaves -/

/-- The lanes of the gang at a slot. -/
def Iss.has (x : Iss) (l : Nat) : Prop := x.active.getLsbD l = true

/-- The PCs, lanes and handler state after an issue whose lanes fall through (R303). -/
structure FallsThrough (x : Iss) (g g' : Gang) : Prop where
  pc : ∀ l, x.set.getLsbD l = true → g'.pcOf l = x.pc + 12#64
  otherPc : ∀ l, x.set.getLsbD l = false → g'.pcOf l = g.pcOf l
  live : g'.live = g.live
  inh : g'.inh = g.inh

/-- The exception registers, the control registers and the W file are as before (R57 to R72). -/
structure SpecialsKept (g g' : Gang) : Prop where
  cause : g'.cause = g.cause
  tpc : g'.tpc = g.tpc
  tmask : g'.tmask = g.tmask
  taddr : g'.taddr = g.taddr
  thit : g'.thit = g.thit
  thnd : g'.thnd = g.thnd
  fpctl : g'.fpctl = g.fpctl
  stklim : g'.stklim = g.stklim
  rowlag : g'.rowlag = g.rowlag
  privbase : g'.privbase = g.privbase
  w : g'.w = g.w
  lent : g'.lent = g.lent

/-- The V and S registers, predicates and norm entries are as before but for the cells named: V cells k·width + l, S registers,
bits of predicates, norm entries. -/
structure RegsKept (g g' : Gang) (vs ss : Nat → Prop) (ps : Nat → Nat → Prop) (ns : Nat → Prop) : Prop where
  v : ∀ c, ¬ vs c → KMap.get g'.v 0#64 c = KMap.get g.v 0#64 c
  vEmpty : ∀ c, ¬ vs c → BitSet.has g'.vEmpty c = BitSet.has g.vEmpty c
  s : ∀ k, ¬ ss k → KMap.get g'.s 0#64 k = KMap.get g.s 0#64 k
  sEmpty : ∀ k, ¬ ss k → BitSet.has g'.sEmpty k = BitSet.has g.sEmpty k
  p : ∀ k l, ¬ ps k l → (KMap.get g'.p 0#64 k).getLsbD l = (KMap.get g.p 0#64 k).getLsbD l
  n : ∀ k, ¬ ns k → KMap.get g'.n 0x80000000#32 k = KMap.get g.n 0x80000000#32 k

/-- The state outside the issuing gang is as before, but for the counts of issues and their clocks (R417); every byte of memory reads as
before. -/
structure OthersKept (x : Iss) (s t : State) : Prop where
  mem : ∀ pa, memByte t pa = memByte s pa
  gangs : ∀ r, gangNum r ≠ gangNum x.ref → t.gang? r = s.gang? r
  rest : t = { s with gangs := t.gangs, issueCtr := s.issueCtr + 1, issueClocks := t.issueClocks, counters := t.counters }

/-- The V cells, S registers and predicate bits that destination D names in the Active lanes (R38, R39); a transient result
names none (R51). -/
def Iss.dCell (x : Iss) (c : Nat) : Prop := x.f.t = false ∧ ∃ k l, opnd x.f.d = .v k ∧ x.has l ∧ c = k * x.g.width + l
def Iss.dScalar (x : Iss) (k : Nat) : Prop := x.f.t = false ∧ opnd x.f.d = .s k
def Iss.dPred (x : Iss) (k l : Nat) : Prop := opnd x.f.d = .p k ∧ k ≠ 7 ∧ x.has l

/-- The lane whose value D receives on behalf of a lane: itself for V, the lowest Active lane for S (R38). -/
def Iss.dLane (x : Iss) (l : Nat) : Nat :=
  match opnd x.f.d with
  | .v _ => l
  | _ => x.low

/-- An issue with the value h l in D: the next issue of the lane set reads it there; unless it is transient the register file
holds it; nothing else changes (R17, R38, R51, R303). flags are ORed into FPSTAT. -/
def DResult (x : Iss) (s t : State) (h : Nat → W64) (flags : Flags) : Prop :=
  ∃ g g', s.gang? x.ref = some g ∧ t.gang? x.ref = some g' ∧
    (∀ l, x.has l → (g'.seen x.set).regVal x.f.d l = h (x.dLane l)) ∧
    (∀ k l, x.f.t = false → opnd x.f.d = .v k → x.has l → KMap.get g'.v 0#64 (k * g.width + l) = h l) ∧
    (∀ k, x.f.t = false → opnd x.f.d = .s k → KMap.get g'.s 0#64 k = h x.low) ∧
    g'.fpstat = orFlags g.fpstat flags ∧
    RegsKept g g' x.dCell x.dScalar (fun _ _ => False) (fun _ => False) ∧
    SpecialsKept g g' ∧ FallsThrough x g g' ∧ OthersKept x s t

/-- An issue with the truth h l in predicate D of every Active lane; P7 takes none (R39). flags are ORed into FPSTAT. -/
def PResult (x : Iss) (s t : State) (h : Nat → Bool) (flags : Flags) : Prop :=
  ∃ g g', s.gang? x.ref = some g ∧ t.gang? x.ref = some g' ∧
    (∀ k l, opnd x.f.d = .p k → k ≠ 7 → x.has l → g'.predBit k l = h l) ∧
    (∀ l, g'.predBit 7 l = true) ∧
    g'.fpstat = orFlags g.fpstat flags ∧
    RegsKept g g' (fun _ => False) (fun _ => False) x.dPred (fun _ => False) ∧
    SpecialsKept g g' ∧ FallsThrough x g g' ∧ OthersKept x s t

/-- An issue with no result: nothing changes but the PCs and whether the gang yields. -/
def NoResult (x : Iss) (s t : State) (yields : Bool) : Prop :=
  ∃ g g', s.gang? x.ref = some g ∧ t.gang? x.ref = some g' ∧ g'.fpstat = g.fpstat ∧ g'.yielded = yields ∧
    RegsKept g g' (fun _ => False) (fun _ => False) (fun _ _ => False) (fun _ => False) ∧
    SpecialsKept g g' ∧ FallsThrough x g g' ∧ OthersKept x s t

/-- Whether the register lane that a write goes to is empty. -/
def Gang.emptyAt (g : Gang) : RegWrite → Bool
  | .v k l _ _ | .part k l _ _ _ => BitSet.has g.vEmpty (k * g.width + l)
  | .s k _ _ => BitSet.has g.sEmpty k
  | .p k l _ => k == 7 || (KMap.get g.pEmpty 0#64 k).getLsbD l
  | .n k _ _ => BitSet.has g.nEmpty k

/-- An issue whose result comes later (R47): a fill with the writes ws and the flags is in flight, the registers it goes to are
empty, and every register holds what it held. -/
def FillResult (x : Iss) (s t : State) (kind : FillKind) (ws : List RegWrite) (flags : Flags) (sets : Bool) : Prop :=
  ∃ g g', s.gang? x.ref = some g ∧ t.gang? x.ref = some g' ∧
    g'.fills = g.fills ++ [{ id := g.nextFill, kind, writes := ws, flags, setsFlags := sets }] ∧
    (∀ w ∈ ws, g'.emptyAt w = true) ∧
    g'.v = g.v ∧ g'.s = g.s ∧ g'.p = g.p ∧ g'.n = g.n ∧ g'.fpstat = g.fpstat ∧
    (∀ c, (∀ k l a b, RegWrite.v k l a b ∈ ws → c ≠ k * g.width + l) → (∀ k l m a b, RegWrite.part k l m a b ∈ ws → c ≠ k * g.width + l) →
      BitSet.has g'.vEmpty c = BitSet.has g.vEmpty c) ∧
    (∀ k, (∀ a b, RegWrite.s k a b ∉ ws) → BitSet.has g'.sEmpty k = BitSet.has g.sEmpty k) ∧
    SpecialsKept g g' ∧ FallsThrough x g g' ∧ OthersKept x s t

/-- The form completes with h l in D and flags in FPSTAT. -/
def DoesD (i : Instr) (s : State) (x : Iss) (h : Nat → W64) (flags : Flags) : Prop := ∃ t, exec i s = .next t ∧ DResult x s t h flags
/-- The form completes with the truth h l in predicate D. -/
def DoesP (i : Instr) (s : State) (x : Iss) (h : Nat → Bool) (flags : Flags) : Prop := ∃ t, exec i s = .next t ∧ PResult x s t h flags
/-- The form completes with a fill in flight. -/
def DoesFill (i : Instr) (s : State) (x : Iss) (kind : FillKind) (ws : List RegWrite) (flags : Flags) (sets : Bool) : Prop :=
  ∃ t, exec i s = .next t ∧ FillResult x s t kind ws flags sets

/-- R112: what is written for the exact value v: saturated where the variant asks for it, and its low w bits. -/
def intSpec (t : Nat) (sat : Bool) (v : Int) : Nat := wrapInt (if sat then satInt t v else v) (typeWidth t)

/-- The sub-elements of a lane value under a type code are h 0, h 1, … (R4). -/
def Elements (t : Nat) (v : W64) (h : Nat → Nat) : Prop := ∀ j, j < 64 / typeWidth t → subElem v (typeWidth t) j = h j

/-- The form completes with a lane value whose sub-elements are v l 0, v l 1, … in every Active lane. -/
def DoesElems (i : Instr) (s : State) (x : Iss) (v : Nat → Nat → Nat) : Prop :=
  ∃ h, DoesD i s x h 0#5 ∧ ∀ l, x.has l → Elements x.f.tcode (h l) (v l)

/-! ### Floating point, element by element -/

/-- What a floating form computes in sub-element j of Active lane l: its result's bits and the flags it raises. -/
structure FpSpec where
  /-- Bits of a result and how many a lane has. -/
  width : Nat
  count : Nat
  elem : Nat → Nat → Nat × Flags
  /-- The form is a long-latency producer (R47). -/
  long : Bool

/-- The flags that an element of two or three sources raises: those of the result and of each source as read (R125). -/
def andRead (r : Nat × Flags) (srcs : List (FVal × Flags)) : Nat × Flags := (r.1, srcs.foldl (fun fl e => fl ||| e.2) r.2)

/-- R128 to R138: the element of each floating form, from its sources as FpIn reads them. -/
def fpSpec (x : Iss) : Option FpSpec :=
  let t := x.f.tcode
  let F := fmtOf t
  let w := typeWidth t
  let a (l j : Nat) : FVal × Flags := F.fpIn x.ftz (subElem (x.a l) w j)
  let b (l j : Nat) : FVal × Flags := F.fpIn x.ftz (subElem (x.b l) w j)
  let c (l j : Nat) : FVal × Flags := F.fpIn x.ftz (subElem (x.c l) w j)
  let prod (p q : FVal × Flags) : FVal × Flags := ((p.1.mul q.1).1, (p.1.mul q.1).2 ||| p.2 ||| q.2)
  let round (vs : List (FVal × Flags)) : Nat × Flags := andRead (F.sum x.ftz x.mode (vs.map Prod.fst)) vs
  let fixed (e : Nat → Nat → Nat × Flags) : Option FpSpec := some ⟨w, 64 / w, e, false⟩
  let late (e : Nat → Nat → Nat × Flags) : Option FpSpec := some ⟨w, 64 / w, e, true⟩
  let approx (n : Nat) : Option FpSpec := late fun l j => sfuElem n t x.ftz (subElem (x.a l) w j)
  let quot (p q : FVal × Flags) : Nat × Flags := andRead (F.div x.ftz x.mode p.1 q.1) [p, q]
  match x.i with
  | .fadd _ => fixed fun l j => round [a l j, b l j]
  | .fsub _ => fixed fun l j => round [a l j, ((b l j).1.negate, (b l j).2)]
  | .fmul _ => fixed fun l j => round [prod (a l j) (b l j)]
  | .ffma _ => fixed fun l j => round [prod (a l j) (b l j), c l j]
  | .fmin _ => fixed fun l j => F.minMax x.ftz false (x.f.variant == 1) (subElem (x.a l) w j) (subElem (x.b l) w j)
  | .fmax _ => fixed fun l j => F.minMax x.ftz true (x.f.variant == 1) (subElem (x.a l) w j) (subElem (x.b l) w j)
  | .fscale _ => fixed fun l j => F.scale x.ftz x.mode (subElem (x.a l) w j) (signExt (subElem (x.b l) w j) w)
  | .fround _ => fixed fun l j => F.roundInt x.ftz (froundMode x.g.fpctl x.f.variant) (subElem (x.a l) w j)
  | .fdot2 _ => some ⟨32, 2, fun l h =>
      let p := prod (a l (2 * h)) (b l (2 * h))
      let q := prod (a l (2 * h + 1)) (b l (2 * h + 1))
      let k := f32.fpIn x.ftz (subElem (x.c l) 32 h)
      andRead (f32.sum x.ftz x.mode [p.1, q.1, k.1]) [p, q, k], false⟩
  | .frcp _ => late fun l j => quot (.fin false 1 0, 0#5) (a l j)
  | .fdiv _ => late fun l j => quot (a l j) (b l j)
  | .fsqrt _ => late fun l j => andRead (F.sqrt x.ftz x.mode (a l j).1) [a l j]
  | .frsq _ => approx 1
  | .fexp2 _ => approx 3
  | .flog2 _ => approx 4
  | .fsin _ => approx 5
  | .fcos _ => approx 6
  | .ftanh _ => approx 7
  | .cvt _ =>
    let st := x.f.imm.toNat % 16
    let part := x.f.imm.toNat / 16 % 8
    let ws := typeWidth st
    let cs := 64 / ws
    let conv (v : Nat) : Nat × Flags := convElem x.ftz x.mode (x.f.variant == 1) t st v
    late fun l k =>
      if cs ≤ 64 / w then if part * cs ≤ k ∧ k < part * cs + cs then conv (subElem (x.a l) ws (k - part * cs)) else (0, 0#5)
      else conv (subElem (x.a l) ws (part * (64 / w) + k))
  | _ => none

/-- R64: the flags that the elements of a lane raise, and those of all Active lanes. -/
def FpSpec.laneFlags (p : FpSpec) (l : Nat) : Flags := (List.range p.count).foldl (fun fl j => fl ||| (p.elem l j).2) 0#5
def FpSpec.flags (p : FpSpec) (x : Iss) : Flags := x.lanes.foldl (fun fl l => fl ||| p.laneFlags l) 0#5

/-- The lane values h hold the results of the elements. -/
def FpSpec.holds (p : FpSpec) (x : Iss) (h : Nat → W64) : Prop :=
  ∀ l j, x.has l → j < p.count → subElem (h l) p.width j = (p.elem l j).1 % 2 ^ p.width

/-- R64, R170: the flags of the forms that raise them as a whole. -/
def wholeFlags (x : Iss) : Option Flags :=
  let D := x.g.wReg (wNum x.f.d)
  let A := x.g.wReg (wNum x.f.a)
  let v := x.f.mod.toNat % 4
  match x.i with
  | .reda _ => some (reduceForm x redaElem).2
  | .redm _ => some (reduceForm x redmElem).2
  | .scan _ => some (scanLanes x).2
  | .sxpack _ | .sxunp _ | .tcvt _ => some (convView D A (x.g.viewVal A)).2
  | .dvmk _ => some (dvmk x.tileA).2
  | .dvscl _ => some (dvscl v x.dirA (scalar32 (x.b x.low))).2
  | .dvadd _ => some (dvadd x.dirA x.dirB).2
  | .dvaxpy _ => some (dvaxpy x.dirA x.dirB (scalar32 (x.c x.low))).2
  | .dvneg _ => some (dvneg x.dirA).2
  | .dvren _ => some (dvren x.dirA).2
  | .dvproj _ => some (dvproj v x.dirA x.dirB).2
  | .dvmul _ => some (dvmul x.dirA x.dirB).2
  | .dvsetn _ => some (dvsetnVal v (scalar32 (x.a x.low))).2
  | .dvdot _ => some (dvdotVal v x.dirA x.dirB).2
  | .dvcmp _ => some (dvcmpVal v x.dirA x.dirB (scalar32 (x.c x.low))).2
  | .dvnrm _ => some (dvnrmVal v (normOf x.g x.f.a)).2
  | .dvflat _ => some ((flatImages (viewFmt D) x.dirA).foldl (fun fl e => fl ||| e.2) 0#5)
  | _ => none

/-- R147: node l of the tree of a sum after a number of levels: the sum of its two halves where both are present. -/
def treeAt {α : Type} (add : α → α → α) (leaf : Nat → Option α) : Nat → Nat → Option α
  | 0, l => leaf l
  | k + 1, l => match treeAt add leaf k l, treeAt add leaf k (l + 2 ^ k) with
    | some a, some b => some (add a b)
    | some a, none => some a
    | none, y => y

/-- R149: the running sum of a scan at the Active lane of a rank. -/
def scanAt {α : Type} (add : α → α → α) (term : Nat → α) : Nat → α
  | 0 => term 0
  | k + 1 => add (scanAt add term k) (term (k + 1))

/-! ### An issue that leaves the gang changed otherwise -/

/-- b is a but for what every issue counts and marks, and the PCs (R21, R269, R271, R303). -/
def Accounted (a b : Gang) : Prop :=
  b = { a with pc := b.pc, wait := b.wait, live := b.live, exempt := b.exempt,
               parity := a.parity.filter fun e => e ≠ .hold 0 && e ≠ .hold 1, waits := none, yielded := b.yielded,
               lastIssue := b.lastIssue, issues := a.issues + 1#64, stepArmed := false,
               stepDue := b.stepDue, lastSet := b.lastSet, lastRet := b.lastRet, lastActive := b.lastActive }

/-- The issue falls through; it leaves the gang as h makes it from the gang it read, and everything outside the gang as in s. -/
def Becomes (x : Iss) (s t : State) (h : Gang → Gang) : Prop :=
  ∃ g', t.gang? x.ref = some g' ∧ Accounted (h x.g) g' ∧ FallsThrough x (h x.g) g' ∧ OthersKept x s t
/-- The form completes so. -/
def DoesGang (i : Instr) (s s' : State) (x : Iss) (h : Gang → Gang) : Prop := ∃ t, exec i s = .next t ∧ Becomes x s' t h
/-- The form completes with the outcome of a commit of the state s' (R303). -/
def Commits (i : Instr) (s : State) (x : Iss) (s' : State) : Prop := exec i s = .next (commitIssue x s' {})
/-- The form takes the cause t (R300) from the state s'; it counts as an issue and has no other effect. -/
def Traps (i : Instr) (s : State) (x : Iss) (s' : State) (t : TrapInfo) : Prop :=
  exec i s = .next (trapIssue s' i x.f x.ref x.who x.task x.pc x.set x.active t)
/-- The state in which an issue acts: the gang as it reads itself. -/
def Iss.start (x : Iss) (s : State) : State := s.setGang x.ref x.g
/-- The lowest Active lane alone. -/
def Iss.lowMask (x : Iss) : LaneMask := maskOf (· == x.low)

/-! ### Memory -/

/-- The lines that cores hold: dirty bytes lie in their line; a core holds a line once for a task slot; one copy is dirty. -/
def l1Ok (ls : List L1Line) : Prop :=
  (∀ l ∈ ls, KMap.rising l.dirty = true ∧ ∀ e ∈ l.dirty, e.1 / 128 = l.line) ∧
  ls.Pairwise fun a b => a.line = b.line → ¬ (a.core = b.core ∧ a.slot = b.slot) ∧ (a.dirty = [] ∨ b.dirty = [])
/-- The images of memory that checkpoints keep, and the far memory that one sends, are canonical (R448, R449). -/
def imagesOk (s : State) : Prop :=
  (∀ i, s.image = some i → Memory.wf i.near = true) ∧ (∀ r ∈ s.remote, Memory.wf r.image.near = true ∧ Memory.wf r.far = true) ∧
  ∀ r, s.ckptRun = some r → Memory.wf r.far = true
/-- What every step keeps of memory. -/
structure State.Inv (s : State) : Prop where
  mem : s.memOk = true
  lines : l1Ok s.l1
  images : imagesOk s

/-- The byte that the accesses accs store at a physical address, the last of them that covers it. -/
def storedByte (accs : List LaneAcc) (pa : Nat) : Option Byte :=
  accs.foldl (fun r a => match a.space, a.peer with
    | .scratch _, _ | _, some _ => r
    | _, none => if a.pa ≤ pa ∧ pa < a.pa + a.size then (match a.data[pa - a.pa]? with
      | some b => some b
      | none => r) else r) none
/-- The byte that the accesses store at an offset of a scratchpad half. -/
def storedScratch (accs : List LaneAcc) (half off : Nat) : Option Byte :=
  accs.foldl (fun r a => if a.space = .scratch half ∧ a.peer = none ∧ a.va ≤ off then (match a.data[off - a.va]? with
      | some b => some b
      | none => r) else r) none

/-- How a form reaches memory: whether it is unclassified on every issue and whether it writes (R215), the lanes that make an access
(R210), the checks of one (R213), and the destinations that become empty at issue (R47). -/
structure MemSpec where
  force : Bool
  write : Bool
  lanes : List Nat
  chk : State → Nat → LaneChk
  empties : List LaneAcc → List RegWrite

/-- R208, R210, R213, R216, R217, R219, R223, R224, R226, R227, R184, R186: the forms that reach memory. -/
def memSpec (x : Iss) : Option MemSpec :=
  let global (kind : WatchKind) (size align : Nat) (data : Nat → List Byte) (byByte : Bool) (s : State) (l : Nat) : LaneChk :=
    globalCheck s x.g x.who x.task.rec_ { lane := l, va := x.addr l, size, kind, align, peerOk := true, data := data l } byByte
  let scratch (half : Nat) (may : Bool) (kind : WatchKind) (data : Nat → List Byte) (s : State) (l : Nat) : LaneChk :=
    localCheck s x.who x.task.rec_ (some x.g) half may (scratchReq x l kind (data l))
  let words (kind : WatchKind) (data : Nat → List Byte) (s : State) (l : Nat) : LaneChk :=
    privCheck s x.g x.who { lane := l, va := 0, size := 4, kind, align := 4, peerOk := false, data := data l } (privIndex x l) (privWords x.f)
  let atomic (peer : Bool) (data2 : Nat → List Byte) (s : State) (l : Nat) : LaneChk :=
    globalCheck s x.g x.who x.task.rec_ (atomReq x l peer (data2 l))
  let none_ (_ : Nat) : List Byte := []
  let n := accSize x.f
  let D := x.g.wReg (wNum x.f.d)
  let B := x.g.wReg (wNum x.f.b)
  let row := leBytes (viewBytes B) (x.g.viewVal B)
  match x.i with
  | .ld _ => some ⟨false, false, loadLanes x, global .read n n none_ false, loadWrites x⟩
  | .st _ => some ⟨false, true, x.lanes, global .write n n x.storeBytes false, noWrites⟩
  | .lds _ => some ⟨false, false, loadLanes x, scratch x.who.half true .read none_, loadWrites x⟩
  | .sts _ => some ⟨false, true, x.lanes, scratch x.who.half true .write x.storeBytes, noWrites⟩
  | .ldx _ => some ⟨false, false, loadLanes x, scratch (1 - x.who.half) x.task.rec_.span .read none_, loadWrites x⟩
  | .stx _ => some ⟨false, true, x.lanes, scratch (1 - x.who.half) x.task.rec_.span .write x.storeBytes, noWrites⟩
  | .ldp _ => some ⟨false, false, loadLanes x, words .read none_, loadWrites x⟩
  | .stp _ => some ⟨false, true, x.lanes, words .write fun l => leBytes 8 (x.b l).toNat, noWrites⟩
  | .dvld _ => some ⟨false, false, [x.low], global .read (recordSize D) 4 none_ true, fun _ => dvldWrites x.g D (tagBytes (recordSize D) 0 false)⟩
  | .dvst _ => some ⟨false, true, [x.low], global .write (recordSize B) 4
      (fun _ => row ++ leBytes 4 (KMap.get x.g.n 0x80000000#32 (viewNidx B)).toNat) true, noWrites⟩
  | .atom f => some ⟨true, true, x.lanes, atomic (int64Type f && f.imm.toNat % 16 == 0) none_, loadWrites x⟩
  | .acas f => some ⟨true, true, x.lanes, atomic (int64Type f) fun l => leBytes (wordSize f) (x.c l).toNat, loadWrites x⟩
  | .atoms _ => some ⟨false, true, x.lanes, fun s l => localCheck s x.who x.task.rec_ (some x.g) x.who.half true (atomReq x l false []), loadWrites x⟩
  | .rowadd _ => some ⟨true, true, [x.low], rowCheck x .atomic row [] [], noWrites⟩
  | .rowld f => some ⟨true, false, [x.low],
      rowCheck x .read [] (leBytes 4 (x.srcT (f.c + 1#12) 3 x.low).toNat) (leBytes 4 x.g.rowlag.toNat),
      fun _ => rowldWrites x.g B f x.active (tagBytes (viewBytes B) 0 false) false⟩
  | _ => none

/-- The issue's accesses as they are performed (R287), with the pages it claimed and its number. -/
def Iss.op (x : Iss) (accs : List LaneAcc) (claims : List Nat) (stamp : Nat) : PendOp :=
  { i := x.i, active := x.active, accs, got := [], desc := opDesc x, fill := x.g.nextFill, claims, stamp }

/-- The accesses of an issue pass every check of R213 from the state s0, none is at a peer, and their pages are touched without a wait,
some of them claimed (R215, R295); late says whether the issue is unclassified (R276), as one of scratchpad bytes is that reaches a
stash line of a page that became shared (R221). s' is the state after these checks. -/
structure Reaches (x : Iss) (s0 : State) (force write : Bool) (lanes : List Nat) (chk : State → Nat → LaneChk) (accs : List LaneAcc)
    (late : Bool) (claims : List Nat) (s' : State) : Prop where
  /-- The gang has no unclassified issue and no store held behind one. -/
  alone : x.g.unclass = none ∧ x.g.heldStores = []
  checked : ∃ s1, checkLanes s0 x.active lanes chk = .ok accs s1 ∧
    touchPages s1 x.who.slot x.who.index x.who.owner write (force || (isLocal x.i && accs.any fun a => a.space == .global)) false
      (globalPages accs) = .go late claims s'
  atHome : ∀ a ∈ accs, a.peer = none

/-- No access of an issue meets a mapped line of the stash (R221). -/
def Unmapped (x : Iss) (s : State) (accs : List LaneAcc) : Prop := ∀ a ∈ accs, stashPlace s x.who a = none

/-- The gang with an unclassified issue in flight, its destinations ws empty (R47, R276, R299). -/
def Gang.inFlight (op : PendOp) (ws : List RegWrite) (g : Gang) : Gang :=
  let g' := g.startOp .awaits ws
  { g' with unclass := some op, unclassCount := g'.unclassCount + 1#64 }

/-- The team t of key k has nothing in flight and no dirty stash line: a kill of it is over at once (R314). -/
structure TeamQuiet (s : State) (k : Nat) (t : Team) : Prop where
  engine : ∀ e ∈ s.engine, e.2.team = k → e.2.touched = false
  stash : ∀ m ∈ t.stashes, m.dirty = []
  gangs : ∀ r ∈ t.gangs, ∀ g, s.gang? r = some g → g.team = k → g.unclass = none ∧ g.late = none ∧ g.block ≠ some .peer
  settled : ∀ page : Nat, ((s.task? t.slot).any fun x => x.reclassing.contains page) = false

/-- No debug agent is attached to the issue's context. -/
def Iss.unwatched (x : Iss) (s : State) : Prop := (KMap.get? s.ctxs x.who.ctx).bind Ctx.debug = none

end Sys2Proof.Machine
end

