-- ==== Sys2Proof/Certificates/Slice0/Obligations.lean ====
section
/-! DEFINITION. The statements for the provers. -/

open Sys2Proof Sys2Proof.Machine

/-! ### Integer arithmetic and bits -/

/-- R112: the exact value f(a, b, c) of every sub-element, saturated for `.SAT`, is written to its low w bits; the quotient and
the remainder of IDIV and IREM arrive as a fill when no divisor is 0. Nothing else changes but the PCs. -/
def Obligations.IntArithmetic : Prop :=
  ∀ (f : Fields) (s : State) (g : Gang) (x : Iss),
    let A (l j : Nat) : Int := elt f.tcode (x.a l) j
    let B (l j : Nat) : Int := elt f.tcode (x.b l) j
    let C (l j : Nat) : Int := elt f.tcode (x.c l) j
    let sat := f.variant == 1
    (Ready (.iadd f) s g x → DoesElems (.iadd f) s x fun l j => intSpec f.tcode sat (A l j + B l j)) ∧
    (Ready (.isub f) s g x → DoesElems (.isub f) s x fun l j => intSpec f.tcode sat (A l j - B l j)) ∧
    (Ready (.imul f) s g x → DoesElems (.imul f) s x fun l j => intSpec f.tcode sat (A l j * B l j)) ∧
    (Ready (.imulh f) s g x → DoesElems (.imulh f) s x fun l j =>
      intSpec f.tcode false (Int.fdiv (A l j * B l j) ((2 ^ typeWidth f.tcode : Nat) : Int))) ∧
    (Ready (.imad f) s g x → DoesElems (.imad f) s x fun l j => intSpec f.tcode sat (A l j * B l j + C l j)) ∧
    (Ready (.imin f) s g x → DoesElems (.imin f) s x fun l j => intSpec f.tcode false (min (A l j) (B l j))) ∧
    (Ready (.imax f) s g x → DoesElems (.imax f) s x fun l j => intSpec f.tcode false (max (A l j) (B l j))) ∧
    (Ready (.iabs f) s g x → DoesElems (.iabs f) s x fun l j => intSpec f.tcode sat (if A l j < 0 then -A l j else A l j)) ∧
    (Ready (.ineg f) s g x → DoesElems (.ineg f) s x fun l j => intSpec f.tcode sat (-A l j)) ∧
    (Ready (.idiv f) s g x → (∀ l j, x.has l → j < 64 / typeWidth f.tcode → B l j ≠ 0) → ∃ h,
      DoesFill (.idiv f) s x .ready (x.dWrites h) 0#5 false ∧
      ∀ l, x.has l → Elements f.tcode (h l) fun j => intSpec f.tcode false (Int.tdiv (A l j) (B l j))) ∧
    (Ready (.irem f) s g x → (∀ l j, x.has l → j < 64 / typeWidth f.tcode → B l j ≠ 0) → ∃ h,
      DoesFill (.irem f) s x .ready (x.dWrites h) 0#5 false ∧
      ∀ l, x.has l → Elements f.tcode (h l) fun j => intSpec f.tcode false (A l j - B l j * Int.tdiv (A l j) (B l j)))

/-- R114: a zero divisor in some sub-element of some Active lane raises DIV-ZERO at issue; THIT names the lanes that hold one.
No register is written or emptied: the trap is taken in the state as the issue found it. -/
def Obligations.DivideByZero : Prop :=
  ∀ (f : Fields) (s : State) (g : Gang) (x : Iss) (i : Instr), i = .idiv f ∨ i = .irem f → Ready i s g x →
    (∃ l j, x.has l ∧ j < 64 / typeWidth f.tcode ∧ elt f.tcode (x.b l) j = 0) →
    ∃ hit : LaneMask,
      (∀ l, hit.getLsbD l = true ↔ x.has l ∧ ∃ j, j < 64 / typeWidth f.tcode ∧ elt f.tcode (x.b l) j = 0) ∧
      exec i s = .next (trapIssue (s.setGang x.ref x.g) i f x.ref x.who x.task x.pc x.set x.active
        { cause := 0x31, tmask := x.active, taddr := 0#64, thit := hit, tpc := none })

/-- R115 to R120: comparison into a predicate, selection, the carry chain, LEA, the moves and the byte dot product. IADDC writes
D and the carry predicate together; P7 supplies a carry of 1 and takes none. -/
def Obligations.IntMoves : Prop :=
  ∀ (f : Fields) (s : State) (g : Gang) (x : Iss),
    (Ready (.icmp f) s g x → DoesP (.icmp f) s x (fun l =>
      let holds (j : Nat) : Bool := icmpCond (f.imm.toNat % 8) (elt f.tcode (x.a l) j) (elt f.tcode (x.b l) j)
      let n := 64 / typeWidth f.tcode
      if f.variant = 0 then (List.range n).all holds else if f.variant = 1 then (List.range n).any holds else holds 0) 0#5) ∧
    (Ready (.isel f) s g x → DoesD (.isel f) s x (fun l => if x.c l ≠ 0#64 then x.a l else x.b l) 0#5) ∧
    (Ready (.lea f) s g x → DoesD (.lea f) s x (fun l => x.a l + x.b l * BitVec.ofNat 64 (2 ^ (f.imm.toNat % 8))) 0#5) ∧
    (Ready (.mov f) s g x → DoesD (.mov f) s x x.a 0#5) ∧
    (Ready (.movi f) s g x → DoesD (.movi f) s x (fun _ =>
      if f.variant = 1 then BitVec.ofNat 64 (f.imm.toNat * 2 ^ 32) else immValue false f.tcode f.imm) 0#5) ∧
    (Ready (.idot4 f) s g x → ∃ h, DoesD (.idot4 f) s x h 0#5 ∧ ∀ l, x.has l →
      let u := if f.tcode = 6 then 0 else 1
      Elements u (h l) fun k => intSpec u (f.variant == 1)
        (elt u (x.c l) k + ((List.range 4).map fun j => elt f.tcode (x.a l) (4 * k + j) * elt f.tcode (x.b l) (4 * k + j)).sum)) ∧
    (Ready (.iaddc f) s g x → ∃ t g', exec (.iaddc f) s = .next t ∧ t.gang? x.ref = some g' ∧
      (∀ l, x.has l → (g'.seen x.set).regVal f.d l =
        BitVec.ofNat 64 ((x.a (x.dLane l)).toNat + (x.b (x.dLane l)).toNat + if x.c (x.dLane l) = 0#64 then 0 else 1)) ∧
      (∀ k l, opnd f.c = .p k → k ≠ 7 → x.has l → g'.predBit k l =
        decide (2 ^ 64 ≤ (x.a l).toNat + (x.b l).toNat + if x.c l = 0#64 then 0 else 1)) ∧
      g'.fpstat = g.fpstat ∧
      RegsKept g g' x.dCell x.dScalar (fun k l => opnd f.c = .p k ∧ k ≠ 7 ∧ x.has l) (fun _ => False) ∧
      SpecialsKept g g' ∧ FallsThrough x g g' ∧ OthersKept x s t)

/-- R121, R122: the bitwise functions of whole lane values, and the shifts, counts and field operations of each sub-element.
R123: LOP3 looks each bit up in the truth table: A is the least significant selector, the old D the most. -/
def Obligations.BitOperations : Prop :=
  (∀ (f : Fields) (s : State) (g : Gang) (x : Iss),
     let w := typeWidth f.tcode
     let u (l j : Nat) : Nat := subElem (x.a l) w j
     let v (l j : Nat) : Nat := subElem (x.b l) w j
     let pos := f.imm.toNat % 64
     let len := f.imm.toNat / 64 % 128
     (Ready (.and f) s g x → DoesD (.and f) s x (fun l => x.a l &&& x.b l) 0#5) ∧
     (Ready (.or f) s g x → DoesD (.or f) s x (fun l => x.a l ||| x.b l) 0#5) ∧
     (Ready (.xor f) s g x → DoesD (.xor f) s x (fun l => x.a l ^^^ x.b l) 0#5) ∧
     (Ready (.not f) s g x → DoesD (.not f) s x (fun l => ~~~x.a l) 0#5) ∧
     (Ready (.andn f) s g x → DoesD (.andn f) s x (fun l => x.a l &&& ~~~x.b l) 0#5) ∧
     (Ready (.shl f) s g x → DoesElems (.shl f) s x fun l j => if v l j ≥ w then 0 else u l j * 2 ^ v l j % 2 ^ w) ∧
     (Ready (.shr f) s g x → DoesElems (.shr f) s x fun l j => if v l j ≥ w then 0 else u l j / 2 ^ v l j) ∧
     (Ready (.sar f) s g x → DoesElems (.sar f) s x fun l j =>
       wrapInt (Int.fdiv (signExt (u l j) w) ((2 ^ min (v l j) w : Nat) : Int)) w) ∧
     (Ready (.rot f) s g x → DoesElems (.rot f) s x fun l j =>
       (u l j * 2 ^ (v l j % w) + u l j / 2 ^ (w - v l j % w)) % 2 ^ w) ∧
     (Ready (.popc f) s g x → DoesElems (.popc f) s x fun l j => ((List.range w).filter fun k => u l j / 2 ^ k % 2 = 1).length) ∧
     (Ready (.clz f) s g x → DoesElems (.clz f) s x fun l j => if u l j = 0 then w else w - (Nat.log2 (u l j) + 1)) ∧
     (Ready (.ctz f) s g x → DoesElems (.ctz f) s x fun l j => ((List.range w).find? fun k => u l j / 2 ^ k % 2 = 1).getD w) ∧
     (Ready (.brev f) s g x → ∃ h, DoesD (.brev f) s x h 0#5 ∧ ∀ l j i, x.has l → j < 64 / w → i < w →
       subElem (h l) w j / 2 ^ i % 2 = u l j / 2 ^ (w - 1 - i) % 2) ∧
     (Ready (.bfx f) s g x → DoesElems (.bfx f) s x fun l j =>
       let e := u l j / 2 ^ pos % 2 ^ len
       if typeIsSigned f.tcode then wrapInt (signExt e len) w else e) ∧
     (Ready (.bfi f) s g x → DoesElems (.bfi f) s x fun l j =>
       u l j - u l j / 2 ^ pos % 2 ^ len * 2 ^ pos + v l j % 2 ^ len * 2 ^ pos)) ∧
  (∀ (f : Fields) (s : State) (g : Gang) (x : Iss), Ready (.lop3 f) s g x → ∃ h, DoesD (.lop3 f) s x h 0#5 ∧
     ∀ l i, x.has l → i < 64 → (h l).getLsbD i =
       (f.imm.getLsbD ((if (x.a l).getLsbD i then 1 else 0) + (if (x.b l).getLsbD i then 2 else 0) +
         (if (x.srcT f.d 3 l).getLsbD i then 4 else 0))))

/-! ### Floating point -/

/-- R128 to R140: FADD, FSUB, FMUL, FFMA, FMIN, FMAX, FSCALE, FROUND and FDOT2 write each element's result at once; FRCP, FRSQ,
FSQRT, FEXP2, FLOG2, FSIN, FCOS, FTANH, FDIV and CVT leave it in a fill. Where no raised flag is enabled, FPSTAT takes the flags of
every element of every Active lane: at commit, or with the fill. The value of an approximate form is the one Config fixes within
the spec's bound (log entry 7). -/
def Obligations.FpResults : Prop :=
  ∀ (i : Instr) (s : State) (g : Gang) (x : Iss) (p : FpSpec), fpSpec x = some p → Ready i s g x →
    p.flags x &&& fpEnables x.g.fpctl = 0#5 →
    ∃ h, p.holds x h ∧
      if p.long then DoesFill i s x .ready (x.dWrites h) (p.flags x) true else DoesD i s x h (p.flags x)

/-- R64: when an element raises an enabled flag, every one of those forms, and FCMP, raises FP-EXC in place of its result: FPSTAT takes
the flags, THIT names the lanes that raised an enabled one, and no register is written or emptied. The forms that do not form their
result lane by lane raise their flags as a whole: REDA, REDM, SCAN, SXPACK, SXUNP, TCVT and the DIR forms name every Active lane. -/
def Obligations.FpTraps : Prop :=
  let traps (i : Instr) (s : State) (x : Iss) (fl : Flags) (hit : LaneMask) : Prop :=
    exec i s = .next (trapIssue (s.setGang x.ref { x.g with fpstat := orFlags x.g.fpstat fl }) i x.f x.ref x.who x.task
      x.pc x.set x.active { cause := 0x30, tmask := x.active, taddr := 0#64, thit := hit, tpc := none })
  (∀ (i : Instr) (s : State) (g : Gang) (x : Iss) (p : FpSpec), fpSpec x = some p → Ready i s g x →
    p.flags x &&& fpEnables x.g.fpctl ≠ 0#5 →
    ∃ hit : LaneMask,
      (∀ l, hit.getLsbD l = true ↔ x.has l ∧ p.laneFlags l &&& fpEnables x.g.fpctl ≠ 0#5) ∧ traps i s x (p.flags x) hit) ∧
  (∀ (f : Fields) (s : State) (g : Gang) (x : Iss), Ready (.fcmp f) s g x →
    let w := typeWidth f.tcode
    let read (v : W64) (j : Nat) : FVal × Flags := (fmtOf f.tcode).fpIn x.ftz (subElem v w j)
    let lane (l : Nat) : Flags := (List.range (if f.variant = 2 then 1 else 64 / w)).foldl (fun fl j =>
      fl ||| (fcmpElem (f.imm.toNat % 8) (read (x.a l) j) (read (x.b l) j)).2) 0#5
    let all := x.lanes.foldl (fun fl l => fl ||| lane l) 0#5
    all &&& fpEnables x.g.fpctl ≠ 0#5 →
    ∃ hit : LaneMask, (∀ l, hit.getLsbD l = true ↔ x.has l ∧ lane l &&& fpEnables x.g.fpctl ≠ 0#5) ∧ traps (.fcmp f) s x all hit) ∧
  (∀ (i : Instr) (s : State) (g : Gang) (x : Iss) (fl : Flags), wholeFlags x = some fl → Ready i s g x →
    fl &&& fpEnables x.g.fpctl ≠ 0#5 → traps i s x fl x.active)

/-- R132 to R134: FABS and FNEG change the sign bit alone, FSEL chooses by a sign test, FCLASS writes a one-hot class, and none of
them raises a flag; FCMP writes a predicate and takes its flags. -/
def Obligations.FpBits : Prop :=
  ∀ (f : Fields) (s : State) (g : Gang) (x : Iss),
    let t := f.tcode
    let w := typeWidth t
    let u (l j : Nat) : Nat := subElem (x.a l) w j
    (Ready (.fabs f) s g x → DoesElems (.fabs f) s x fun l j => if u l j < 2 ^ (w - 1) then u l j else u l j - 2 ^ (w - 1)) ∧
    (Ready (.fneg f) s g x → DoesElems (.fneg f) s x fun l j =>
      if u l j < 2 ^ (w - 1) then u l j + 2 ^ (w - 1) else u l j - 2 ^ (w - 1)) ∧
    (Ready (.fsel f) s g x → DoesElems (.fsel f) s x fun l j =>
      match (fmtOf t).unpack (subElem (x.c l) w j) with
      | .nan _ => subElem (x.b l) w j
      | .inf neg => if neg then subElem (x.b l) w j else u l j
      | .fin neg m _ => if neg && m != 0 then subElem (x.b l) w j else u l j) ∧
    (Ready (.fclass f) s g x → DoesElems (.fclass f) s x fun l j => 2 ^ (fmtOf t).classBit (u l j) % 2 ^ w) ∧
    (Ready (.fcmp f) s g x →
      let r (l j : Nat) : Bool × Flags := fcmpElem (f.imm.toNat % 8) ((fmtOf t).fpIn x.ftz (u l j)) ((fmtOf t).fpIn x.ftz (subElem (x.b l) w j))
      let n := if f.variant = 2 then 1 else 64 / w
      let flags := x.lanes.foldl (fun fl l => fl ||| (List.range n).foldl (fun fl j => fl ||| (r l j).2) 0#5) 0#5
      flags &&& fpEnables x.g.fpctl = 0#5 →
      DoesP (.fcmp f) s x (fun l => if f.variant = 0 then (List.range n).all fun j => (r l j).1 else (List.range n).any fun j => (r l j).1) flags)

/-- R60: a magnitude m × 2^e is rounded once to a multiple k × 2^q: toward zero, down or up by its sign, or to the nearest with ties
to even; it is inexact just when it is no multiple.
R58 to R60: rounding a nonzero magnitude into a format without overflow gives the pattern of that sign whose value is the
rounded multiple k × 2^q, q being the spacing of the format at the magnitude. -/
def Obligations.Rounding : Prop :=
  (∀ (mode : Nat) (neg : Bool) (m : Nat) (e q : Int),
     let v : ℚ := (m : ℚ) * (2 : ℚ) ^ (e - q)
     let k : ℚ := ((roundTo mode neg m e q false).1 : ℚ)
     ((roundTo mode neg m e q false).2 = false ↔ v = k) ∧
     (mode = 0 → |v - k| ≤ 1 / 2 ∧ (|v - k| = 1 / 2 → (roundTo mode neg m e q false).1 % 2 = 0)) ∧
     (mode = 1 → k ≤ v ∧ v < k + 1) ∧
     (mode = 2 → if neg then k ≤ v ∧ v < k + 1 else v ≤ k ∧ k < v + 1) ∧
     (mode = 3 → if neg then v ≤ k ∧ k < v + 1 else k ≤ v ∧ v < k + 1)) ∧
  (∀ (F : Fmt) (mode : Nat) (neg : Bool) (m : Nat) (e : Int), F = f16 ∨ F = bf16 ∨ F = f32 ∨ F = f64 → m ≠ 0 →
     let q : Int := max ((Nat.log2 m : Int) + e - F.fbits) (F.emin - F.fbits)
     let k : Nat := (roundTo mode neg m e q false).1
     (k = 0 ∨ (Nat.log2 k : Int) + q ≤ F.bias) →
     ∃ (m' : Nat) (e' : Int), F.unpack (F.roundMag mode neg m e false).1 = .fin neg m' e' ∧
       (m' : ℚ) * (2 : ℚ) ^ e' = (k : ℚ) * (2 : ℚ) ^ q)

/-! ### Control flow and predicates -/

/-- R105, R106, R242: NOP, YIELD and a BARW by a gang that has not arrived change nothing but the PCs; YIELD marks the gang as yielding, as Y
does on any form (R20). R220: nor does PFCH change a register, a page's class or a byte of memory; a line that it brings is held by the core's
L1 for the task, or by the die-level cache. Which prefetches are dropped beyond those of the rule is the model's choice of log entry 94. -/
def Obligations.NoEffect : Prop :=
  ∀ (f : Fields) (s : State) (g : Gang) (x : Iss),
    (Ready (.nop f) s g x → ∃ t, exec (.nop f) s = .next t ∧ NoResult x s t f.y) ∧
    (Ready (.yield f) s g x → ∃ t, exec (.yield f) s = .next t ∧ NoResult x s t true) ∧
    (Ready (.pfch f) s g x → l1Ok s.l1 → ∃ t g', exec (.pfch f) s = .next t ∧ t.gang? x.ref = some g' ∧ FallsThrough x g g' ∧
      SpecialsKept g g' ∧ g'.fpstat = g.fpstat ∧ RegsKept g g' (fun _ => False) (fun _ => False) (fun _ _ => False) (fun _ => False) ∧
      (∀ pa, memByte t pa = memByte s pa) ∧ t.teams = s.teams ∧ t.tasks = s.tasks ∧ (∀ r, gangNum r ≠ gangNum x.ref → t.gang? r = s.gang? r) ∧
      ∀ pa leaf s1, x.lanes = [x.low] → prefetchPlace (x.start s) x x.low = (some (pa, leaf), s1) →
        (f.variant = 0 → holdsLine t x.who.core x.who.slot (pa / 128) = true) ∧
        (f.variant ≠ 0 → BitSet.has t.dieCache (2 * (pa / 128) + x.who.core / 32) = true)) ∧
    (Ready (.barw f) s g x → arrived s x (f.imm.toNat % 16) = false → ∃ t, exec (.barw f) s = .next t ∧ NoResult x s t f.y)

/-- R107: EXIT ends the Active lanes; the other lanes of the issue group go on at PC + 12.
R308: when every lane of TMASK has ended the handler is left, as by an RTE with an empty TMASK: INH is cleared, the held lanes go on at
their PCs and every WAIT is 0; else the held lanes stay held. Registers keep their values. -/
def Obligations.ExitEnds : Prop :=
  ∀ (f : Fields) (s : State) (g : Gang) (x : Iss), Ready (.exit f) s g x →
    ∃ t g', exec (.exit f) s = .next t ∧ t.gang? x.ref = some g' ∧
      (∀ l, g'.live.getLsbD l = (g.live.getLsbD l && !x.active.getLsbD l)) ∧
      (∀ l, x.set.getLsbD l = true → x.active.getLsbD l = false → g'.pcOf l = x.pc + 12#64) ∧
      (∀ l, x.set.getLsbD l = false → g'.pcOf l = g.pcOf l) ∧
      g'.inh = (g.inh && g.tmask &&& g'.live != 0#64) ∧
      (g.inh = true → g.tmask &&& g'.live = 0#64 → g'.held = 0#64 ∧ g'.runners = g'.live ∧ ∀ l, g'.waitOf l = 0) ∧
      (g.inh = false ∨ g.tmask &&& g'.live ≠ 0#64 → g'.held = g.held) ∧ g'.fpstat = g.fpstat ∧
      RegsKept g g' (fun _ => False) (fun _ => False) (fun _ _ => False) (fun _ => False) ∧ SpecialsKept g g' ∧ OthersKept x s t

/-- R100, R101, R103, R104: where U is 0 or every next PC of the group is the same, a branch sends the Active lanes to their
targets and the others of the group to PC + 12; CALL and CALLI write PC + 12 into D, no other register changes.
R101: with U of 1, next PCs that differ raise UNIFORMITY: TMASK names the issue group, THIT the lanes whose next PC differs from
that of the lowest of them; no register is written. -/
def Obligations.Branches : Prop :=
  (∀ (i : Instr) (f : Fields) (s : State) (g : Gang) (x : Iss) (target : Nat → W64) (link : Bool),
     (i = .bra f ∧ (target = fun _ => x.pc + BitVec.ofInt 64 (12 * signExt f.imm.toNat 32)) ∧ link = false) ∨
     (i = .call f ∧ (target = fun _ => x.pc + BitVec.ofInt 64 (12 * signExt f.imm.toNat 32)) ∧ link = true) ∨
     ((i = .bri f ∨ i = .ret f) ∧ target = x.a ∧ link = false) ∨ (i = .calli f ∧ target = x.a ∧ link = true) →
     Ready i s g x →
     let next (l : Nat) : W64 := if x.active.getLsbD l then target l else x.pc + 12#64
     (f.u = true → ∀ l k, x.set.getLsbD l = true → x.set.getLsbD k = true → next l = next k) →
     ∃ t g', exec i s = .next t ∧ t.gang? x.ref = some g' ∧
       (∀ l, x.set.getLsbD l = true → g'.pcOf l = next l) ∧ (∀ l, x.set.getLsbD l = false → g'.pcOf l = g.pcOf l) ∧
       (link = true → ∀ l, x.has l → (g'.seen x.set).regVal f.d l = x.pc + 12#64) ∧
       RegsKept g g' (fun c => link = true ∧ x.dCell c) (fun k => link = true ∧ x.dScalar k) (fun _ _ => False) (fun _ => False) ∧
       g'.live = g.live ∧ g'.fpstat = g.fpstat ∧ SpecialsKept g g' ∧
       (∀ r, gangNum r ≠ gangNum x.ref → t.gang? r = s.gang? r)) ∧
  (∀ (i : Instr) (f : Fields) (s : State) (g : Gang) (x : Iss) (target : Nat → W64),
     ((i = .bra f ∨ i = .call f) ∧ target = fun _ => x.pc + BitVec.ofInt 64 (12 * signExt f.imm.toNat 32)) ∨
     ((i = .bri f ∨ i = .ret f ∨ i = .calli f) ∧ target = x.a) →
     Ready i s g x → f.u = true →
     let next (l : Nat) : W64 := if x.active.getLsbD l then target l else x.pc + 12#64
     ∀ k, lowestLane x.set = some k → (∃ l, x.set.getLsbD l = true ∧ next l ≠ next k) →
     ∃ hit : LaneMask, (∀ l, hit.getLsbD l = true ↔ x.set.getLsbD l = true ∧ next l ≠ next k) ∧
       exec i s = .next (trapIssue (s.setGang x.ref x.g) i f x.ref x.who x.task x.pc x.set x.active
         { cause := 0x18, tmask := x.set, taddr := 0#64, thit := hit, tpc := none }))

/-- R108 to R111: ELECT names the lowest Active lane, VOTE combines predicate A over the Active lanes, PSET applies its operation and
PMOV moves truth between predicates and registers. -/
def Obligations.Predicates : Prop :=
  ∀ (f : Fields) (s : State) (g : Gang) (x : Iss),
    let op := f.mod.toNat
    let truth (l : Nat) : Bool := x.a l != 0#64
    let other (l : Nat) : Bool := x.b l != 0#64
    (Ready (.elect f) s g x → DoesP (.elect f) s x (fun l => lowestLane x.active == some l) 0#5) ∧
    (Ready (.vote f) s g x → op < 4 → DoesP (.vote f) s x (fun _ =>
      if op = 0 then x.lanes.all truth else if op = 1 then x.lanes.any truth
      else if op = 2 then x.lanes.all truth || x.lanes.all (fun l => !truth l) else (x.lanes.filter truth).length % 2 == 1) 0#5) ∧
    (Ready (.vote f) s g x → 4 ≤ op → ∃ v : W64, DoesD (.vote f) s x (fun _ => v) 0#5 ∧
      (op = 4 → v.toNat = (x.lanes.filter truth).length) ∧
      (op = 5 → ∀ l, l < 64 → v.getLsbD l = (x.active.getLsbD l && truth l))) ∧
    (Ready (.pset f) s g x → DoesP (.pset f) s x (fun l => match op with
      | 0 => truth l && other l
      | 1 => truth l || other l
      | 2 => truth l != other l
      | 3 => truth l && !other l
      | 4 => truth l || !other l
      | 5 => !(truth l && other l)
      | 6 => !(truth l || other l)
      | _ => truth l == other l) 0#5) ∧
    (Ready (.pmov f) s g x → op = 0 → DoesP (.pmov f) s x truth 0#5) ∧
    (Ready (.pmov f) s g x → op = 1 → DoesD (.pmov f) s x (fun l => if truth l then 1#64 else 0#64) 0#5) ∧
    (Ready (.pmov f) s g x → op = 2 → DoesD (.pmov f) s x (fun l => if truth l then BitVec.allOnes 64 else 0#64) 0#5)

/-! ### Lanes exchanged, combined and packed -/

/-- R144 to R146, R151: SHFL and BCAST copy whole lane values of register A from a source lane; SWZ, PACK and UNPACK move
sub-elements. -/
def Obligations.LaneMoves : Prop :=
  ∀ (f : Fields) (s : State) (g : Gang) (x : Iss),
    let W := g.width
    let w := typeWidth f.tcode
    let c := 64 / w
    let sub (v : W64) (j : Nat) : Nat := subElem v w j
    (Ready (.shfl f) s g x → DoesD (.shfl f) s x (fun l =>
      let b := if f.b = 0x679#12 then f.imm.toNat else (x.b l).toNat
      let start := if b = 0 then 0 else l - l % b
      x.g.regVal f.a (match f.variant with
        | 0 => if b < W then b else l
        | 1 => (l + b) % W
        | 2 => if b = 0 ∨ W ≤ start + b - 1 then l else start + (b - 1 - l % b)
        | _ => if l ^^^ b < W then l ^^^ b else l)) 0#5) ∧
    (Ready (.bcast f) s g x → DoesD (.bcast f) s x (fun _ => x.g.regVal f.a (if f.variant = 0 then f.imm.toNat else x.low)) 0#5) ∧
    (Ready (.swz f) s g x → DoesElems (.swz f) s x fun l j => sub (x.a l) (f.imm.toNat / 2 ^ (3 * j) % 8)) ∧
    (Ready (.pack f) s g x → c = 1 → DoesD (.pack f) s x (fun l => if f.variant = 1 then x.b l else x.a l) 0#5) ∧
    (Ready (.pack f) s g x → c ≠ 1 → DoesElems (.pack f) s x fun l j =>
      sub (if j % 2 = 0 then x.a l else x.b l) (if f.variant = 1 then c / 2 + j / 2 else j / 2)) ∧
    (Ready (.unpack f) s g x → c = 1 → DoesD (.unpack f) s x x.a 0#5) ∧
    (Ready (.unpack f) s g x → c ≠ 1 → DoesElems (.unpack f) s x fun l j =>
      sub (x.a l) (if j < c / 2 then 2 * j else 2 * (j - c / 2) + 1))

/-- R147 to R150: REDA, REDM, SCAN and MATCH leave their results in a fill: integer sums are exact and wrapped or saturated once,
integer scans wrap, MATCH compares whole lane values. A floating REDA sums along the fixed tree over the gang's lanes, where a node with
one half present is that half; a floating REDM takes the FMIN or FMAX of the Active lanes; a floating SCAN adds in lane order, each step
rounded; their flags come with the fill, where none of them is enabled. -/
def Obligations.Reductions : Prop :=
  ∀ (f : Fields) (s : State) (g : Gang) (x : Iss),
    let t := f.tcode
    let w := typeWidth t
    let n := 64 / w
    let val (l j : Nat) : Int := elt t (x.a l) j
    let quiet (fl : Flags) : Prop := fl &&& fpEnables x.g.fpctl = 0#5
    (Ready (.reda f) s g x → typeIsFloat t = false → ∃ v, DoesFill (.reda f) s x .ready (x.dWrites fun _ => v) 0#5 true ∧
      Elements t v fun j => intSpec t (f.variant == 1) (x.lanes.map fun l => val l j).sum) ∧
    (Ready (.redm f) s g x → typeIsFloat t = false → ∃ v, DoesFill (.redm f) s x .ready (x.dWrites fun _ => v) 0#5 true ∧
      ∀ j, j < n → (∃ l, x.has l ∧ subElem v w j = subElem (x.a l) w j) ∧
        ∀ l, x.has l → if f.variant = 0 then elt t v j ≤ val l j else val l j ≤ elt t v j) ∧
    (Ready (.scan f) s g x → typeIsFloat t = false → ∃ h, DoesFill (.scan f) s x .ready (x.dWrites h) 0#5 true ∧
      ∀ l, x.has l → Elements t (h l) fun j =>
        ((x.lanes.filter fun k => if f.variant = 1 then k < l else k ≤ l).map fun k => subElem (x.a k) w j).sum % 2 ^ w) ∧
    let F := fmtOf t
    let read (l j : Nat) : FVal × Flags := F.fpIn x.ftz (subElem (x.a l) w j)
    let flagsOf (e : Nat → Flags) : Flags := (List.range n).foldl (fun fl j => fl ||| e j) 0#5
    (∀ levels, Ready (.reda f) s g x → typeIsFloat t = true → x.g.width = 2 ^ levels →
      let add (a b : FVal × Flags) : FVal × Flags :=
        let r := F.sum x.ftz x.mode [a.1, b.1]
        (F.unpack r.1, a.2 ||| b.2 ||| r.2)
      let sum (j : Nat) : FVal × Flags :=
        (treeAt add (fun l => if x.active.getLsbD l then some (read l j) else none) levels 0).getD (.fin false 0 0, 0#5)
      let fl := flagsOf fun j => (sum j).2
      quiet fl → ∃ v, DoesFill (.reda f) s x .ready (x.dWrites fun _ => v) fl true ∧
        Elements t v fun j => F.image (sum j).1 % 2 ^ w) ∧
    (Ready (.redm f) s g x → typeIsFloat t = true →
      let pick (a b : Nat) : Nat × Flags := F.minMax x.ftz (f.variant % 2 == 1) (f.variant / 2 == 1) a b
      let of (j : Nat) : Nat × Flags := match x.lanes.map fun l => subElem (x.a l) w j with
        | [] => (0, 0#5)
        | e :: es => es.foldl (fun r b => ((pick r.1 b).1, r.2 ||| (pick r.1 b).2)) (pick e e)
      let fl := flagsOf fun j => (of j).2
      quiet fl → ∃ v, DoesFill (.redm f) s x .ready (x.dWrites fun _ => v) fl true ∧ Elements t v fun j => (of j).1 % 2 ^ w) ∧
    (Ready (.scan f) s g x → typeIsFloat t = true →
      let add (r a : Nat × Flags) : Nat × Flags :=
        let q := F.sum x.ftz (fpRM x.g.fpctl) [F.unpack r.1, F.unpack a.1]
        (q.1, r.2 ||| a.2 ||| q.2)
      let run (j : Nat) : Nat → Nat × Flags := scanAt add fun k =>
        let e := read (x.lanes.getD k 0) j
        (F.image e.1, e.2)
      let fl := flagsOf fun j => (run j (x.lanes.length - 1)).2
      quiet fl → ∃ h, DoesFill (.scan f) s x .ready (x.dWrites h) fl true ∧ ∀ k l, x.lanes[k]? = some l →
        Elements t (h l) fun j => (if f.variant = 1 then if k = 0 then 0 else (run j (k - 1)).1 else (run j k).1) % 2 ^ w) ∧
    (Ready (.matchLanes f) s g x → ∃ h, DoesFill (.matchLanes f) s x .ready (x.dWrites h) 0#5 false ∧ ∀ l, x.has l →
      let same := x.lanes.filter fun k => x.a k == x.a l
      match f.variant with
      | 0 => ∀ k, k < 64 → (h l).getLsbD k = (x.active.getLsbD k && x.a k == x.a l)
      | 1 => some (h l).toNat = same.head?
      | 2 => (h l).toNat = (same.filter fun k => k < l).length
      | _ => (h l).toNat = same.length)

/-- R152, R206: SXPACK, SXUNP and TCVT convert element (r, c) of view A into element (r, c) of view D, one long-latency result with the
flags of its elements, where none of them is enabled: a floating element is rounded to nearest even into its format, I32 saturates into
I8, I8 is extended into I32, and every run of sixteen elements of D in storage order becomes one SX block.
R69: a block with a NaN is the NaN block; a finite element of another decodes to its sign and the nearest multiple, at most 2^k − 1, of
the block's scale. -/
def Obligations.ViewConversion : Prop :=
  ∀ (i : Instr) (f : Fields) (s : State) (g : Gang) (x : Iss), i = .sxpack f ∨ i = .sxunp f ∨ i = .tcvt f → Ready i s g x →
    let D := x.g.wReg (wNum f.d)
    let A := x.g.wReg (wNum f.a)
    let r := convView D A (x.g.viewVal A)
    let fd := viewFmt D
    let soff : Int := if fmtIsSx (viewFmt A) then viewSoff A else 0
    let from_ (row col : Nat) : FVal := fmtElem (viewFmt A) soff (x.g.viewVal A) (elemIndex A row col)
    let to_ (row col : Nat) : Nat := r.1 / 2 ^ (plainBits fd * elemIndex D row col) % 2 ^ plainBits fd
    (r.2 &&& fpEnables x.g.fpctl = 0#5 → DoesFill i s x .ready (viewNumWrites x.g D r.1) r.2 true) ∧
    (∀ row col, row < viewRows D → col < viewCols D →
      (fd ≤ 2 → to_ row col = (plainEncode fd (from_ row col)).1) ∧
      (fd = 3 → to_ row col = wrapInt (satInt 6 (from_ row col).dyadic.n) 8) ∧
      (fd = 4 → to_ row col = wrapInt (from_ row col).dyadic.n 32)) ∧
    (fmtIsSx fd = true → ∀ q, q < viewRows D * viewCols D / 16 →
      let run := (List.range 16).map fun j => from_ (elemRow D (16 * q + j)) (elemCol D (16 * q + j))
      let b := r.1 / 2 ^ (8 * sxBytes fd * q) % 2 ^ (8 * sxBytes fd)
      let k := sxBits fd
      b = (sxEncode fd run).1 ∧ (run.any FVal.isNan = true → b = 255) ∧
      (run.any FVal.isNan = false → ∀ j neg m e, run[j]? = some (.fin neg m e) → ∃ scale : Int,
        let M := min (roundTo 0 false m e scale false).1 (2 ^ k - 1)
        sxElem fd 0 b j = .fin (neg && m != 0 && M != 0) M scale))

/-! ### Directional vectors -/

/-- R163, R168 to R170, R174, R180 to R183: a form of Lat L leaves one fill that holds every component of D and its norm entry, with
the flags of the whole form, where none of them is enabled; the sources are those the issue found.
R179: DVSETN empties all of D and refills it with a new norm entry and every component as it was, or cleared under the zero code.
Where the rules leave a point open it rests on the model's choices of log entry 28. -/
def Obligations.DirectionalForms : Prop :=
  (∀ (i : Instr) (f : Fields) (s : State) (g : Gang) (x : Iss) (r : DVec × Flags),
     let v := f.mod.toNat % 4
     (i = .dvmk f ∧ r = dvmk x.tileA) ∨ (i = .dvscl f ∧ r = dvscl v x.dirA (scalar32 (x.b x.low))) ∨
     (i = .dvadd f ∧ r = dvadd x.dirA x.dirB) ∨ (i = .dvaxpy f ∧ r = dvaxpy x.dirA x.dirB (scalar32 (x.c x.low))) ∨
     (i = .dvneg f ∧ r = dvneg x.dirA) ∨ (i = .dvren f ∧ r = dvren x.dirA) ∨ (i = .dvproj f ∧ r = dvproj v x.dirA x.dirB) ∨
     (i = .dvmul f ∧ r = dvmul x.dirA x.dirB) →
     Ready i s g x → r.2 &&& fpEnables x.g.fpctl = 0#5 →
     DoesFill i s x .ready (dirWrites x.g (x.g.wReg (wNum f.d)) r.1) r.2 true) ∧
  (∀ (f : Fields) (s : State) (g : Gang) (x : Iss),
     let D := x.g.wReg (wNum f.d)
     let r := dvsetnVal (f.mod.toNat % 4) (scalar32 (x.a x.low))
     Ready (.dvsetn f) s g x → r.2 &&& fpEnables x.g.fpctl = 0#5 →
     (r.1 = normZero → DoesFill (.dvsetn f) s x .ready (dirWrites x.g D (DVec.zero (16 * viewCols D))) r.2 true) ∧
     (r.1 ≠ normZero → DoesFill (.dvsetn f) s x .ready ((List.range (viewRegs D g.width * g.width)).map (fun c =>
       RegWrite.part (viewBase D + c / g.width) (c % g.width) 0#64 0#64 0#2) ++ [.n (viewNidx D) (BitVec.ofInt 32 r.1) false]) r.2 true))

/-- R163, R169, R170, R176, R177: DVDOT and DVCMP are of Lat L: they complete with their result in a fill, the flags with it, where none
of them is enabled. DVDOT writes the exact sum of the products of components, that sum times 2^−28 rounded once, or what the model's
rounding of the exact value gives; DVCMP compares the exact cosine with a binary32 threshold;
P7 takes no result (R39).
R178: DVNRM completes at once with the norm as 64 bits, or what the model's rounding of it gives.
R175: DVFLAT completes with every element of the tile written at once, a zero vector as zeros, and takes the flags of its elements,
where none of them is enabled. -/
def Obligations.DirectionalValues : Prop :=
  (∀ (f : Fields) (s : State) (g : Gang) (x : Iss),
     let v := f.mod.toNat % 4
     let D := dvDot x.dirA x.dirB
     let n := normOf x.g f.a
     let c := f32.unpack (scalar32 (x.c x.low))
     let quiet (fl : Flags) : Prop := fl &&& fpEnables x.g.fpctl = 0#5
     (Ready (.dvdot f) s g x → quiet (dvdotVal v x.dirA x.dirB).2 → ∃ t, exec (.dvdot f) s = .next t ∧
       FillResult x s t .ready (x.dWrites fun _ => (dvdotVal v x.dirA x.dirB).1) (dvdotVal v x.dirA x.dirB).2 true) ∧
     (v = 2 → dvdotVal v x.dirA x.dirB = (BitVec.ofInt 64 D, 0#5)) ∧
     (v = 0 → dvdotVal v x.dirA x.dirB = (w64 (f32.roundDy 0 false ⟨D, -28⟩).1, 0#5)) ∧
     (Ready (.dvnrm f) s g x → quiet (dvnrmVal v n).2 → ∃ t, exec (.dvnrm f) s = .next t ∧
       DResult x s t (fun _ => (dvnrmVal v n).1) (dvnrmVal v n).2) ∧
     (v = 0 → dvnrmVal v n = (BitVec.ofInt 64 n, 0#5)) ∧
     let holds : Bool := match (FVal.fin (D < 0) D.natAbs (-28)).cmp c with
       | none => false
       | some c => match v with
         | 0 => c ≥ 0
         | 1 => c > 0
         | 2 => c ≤ 0
         | _ => c < 0
     (Ready (.dvcmp f) s g x → c.isNan = false → opnd f.d ≠ .p 7 → ∃ t, exec (.dvcmp f) s = .next t ∧
       FillResult x s t .ready (x.pWrites fun _ => holds) 0#5 true) ∧
     (Ready (.dvcmp f) s g x → c.isNan = false → opnd f.d = .p 7 → ∃ t, exec (.dvcmp f) s = .next t ∧ NoResult x s t f.y) ∧
     (Ready (.dvcmp f) s g x → c.isNan = true → quiet flagNV → ∃ t, exec (.dvcmp f) s = .next t ∧
       FillResult x s t .ready (x.pWrites fun _ => false) flagNV true)) ∧
  (∀ (f : Fields) (s : State) (g : Gang) (x : Iss), Ready (.dvflat f) s g x →
     let D := x.g.wReg (wNum f.d)
     let r := flatImages (viewFmt D) x.dirA
     let fl := r.foldl (fun fl e => fl ||| e.2) 0#5
     fl &&& fpEnables x.g.fpctl = 0#5 →
     (∃ t, exec (.dvflat f) s = .next t ∧ Becomes x s t (fun g =>
       let g' := g.writes (viewNumWrites x.g D (ofSubs (plainBits (viewFmt D)) (r.map Prod.fst)))
       { g' with fpstat := orFlags g'.fpstat fl })) ∧
     (x.dirA.isZero = true → ∀ e ∈ r, e = (0, 0#5)))

/-- R75, R76, R78, R174, R180 to R183: Neg16 negates a component and turns −32,768 into 32,767 with OF; a zero operand gives the zero code; a
norm that a form writes lies above −2^31 and at most 2^31 − 1, or is the zero code with every component 0.
R76: a component of a vector written from values y is 2^14 y_i over the root of the sum of their squares, rounded to nearest even. The
vectors written by DVMK, DVSCL, DVREN, DVADD, DVAXPY, DVMUL and DVPROJ are those of R174, R180, R182 and R183, each y_i rounded once to
binary32. The cut of an irrational factor is log entry 10's. -/
def Obligations.DirectionRules : Prop :=
  (∀ a : DVec, a.n ≠ normZero → (dvneg a).1 = ⟨a.c.map fun c => if c = -32768 then 32767 else -c, a.n⟩ ∧
    ((dvneg a).2 = if (-32768 : Int) ∈ a.c then flagOF else 0#5)) ∧
  (∀ a : DVec, a.isZero = true → dvren a = (DVec.zero a.c.length, 0#5)) ∧
  (∀ a b : DVec, a.isZero = true ∨ b.isZero = true → dvmul a b = (DVec.zero a.c.length, 0#5) ∧ dvDot a b = 0) ∧
  (∀ a b : DVec, a.isZero = true → b.isZero = true → dvadd a b = (DVec.zero a.c.length, 0#5)) ∧
  (∀ (y : List FVal) (base : Int), let r := (writeDir y base).1
    (normZero < r.n ∧ r.n ≤ 2 ^ 31 - 1 ∧ r.c.length = y.length) ∨ r = DVec.zero y.length) ∧
  (∀ (y : List FVal) (base : Int), (writeDir y base).1.n ≠ normZero →
    let val (v : FVal) : ℚ := (v.dyadic.n : ℚ) * (2 : ℚ) ^ v.dyadic.e
    let N : ℚ := (y.map fun v => val v ^ 2).sum
    ∀ (i : Nat) (v : FVal), y[i]? = some v → ∃ c, (writeDir y base).1.c[i]? = some c ∧
      let k : ℚ := (c.natAbs : ℚ)
      2 ^ 30 * val v ^ 2 ≤ (2 * k + 1) ^ 2 * N ∧ (c ≠ 0 → (2 * k - 1) ^ 2 * N ≤ 2 ^ 30 * val v ^ 2 ∧ (c < 0 ↔ val v < 0)) ∧
      (2 ^ 30 * val v ^ 2 = (2 * k + 1) ^ 2 * N ∨ c ≠ 0 ∧ 2 ^ 30 * val v ^ 2 = (2 * k - 1) ^ 2 * N → c.natAbs % 2 = 0)) ∧
  (∀ (y : List FVal), (y.any fun v => v.isNan || v.isInf) = true → ∀ base, writeDir y base = (DVec.zero y.length, flagNV)) ∧
  (∀ (y : List FVal) (base : Int), (writeDir y 0).2 = 0#5 → (writeDir y 0).1.n ≠ normZero →
    writeDir y base = normWrite (writeDir y 0).1.c ((writeDir y 0).1.n + base) 0#5) ∧
  (∀ (c : List Int) (n : Int) (fl : Flags), normWrite c n fl = if 2 ^ 31 - 1 < n then (⟨c, 2 ^ 31 - 1⟩, fl ||| flagOF)
    else if n ≤ -2 ^ 31 then (DVec.zero c.length, fl ||| flagUF) else (⟨c, n⟩, fl)) ∧
  (∀ x : List FVal, dvmk x = writeDir x 0) ∧
  (∀ a b : DVec, a.isZero = false → b.isZero = false →
    let L := a.c.length
    let zero : DVec := DVec.zero L
    let round (d : Machine.Dyadic) : FVal := f32.unpack (f32.roundDy 0 false d).1
    let M := max a.n b.n
    let P := dotInt a.c b.c
    let S := (dotInt b.c b.c).natAbs
    dvren a = writeDir (a.c.map fun c => .fin (c < 0) c.natAbs (-14)) a.n ∧
    dvmul a b = writeDir ((a.c.zip b.c).map fun p => round ⟨p.1 * p.2, -28⟩) (a.n + b.n) ∧
    dvadd a b = writeDir ((a.c.zip b.c).map fun p => twoTerm (some (p.1, -14, a.n - M)) (some (p.2, -14, b.n - M))) M ∧
    (∀ z : DVec, z.isZero = true → dvadd a z = writeDir (a.c.map fun c => round ⟨c, -14⟩) a.n ∧
      dvadd z b = writeDir (b.c.map fun c => round ⟨c, -14⟩) b.n ∧ dvproj 0 a z = (zero, 0#5) ∧ dvproj 1 a z = dvren a ∧ ∀ v, dvproj v z b = (DVec.zero z.c.length, 0#5)) ∧
    dvproj 0 a b = writeDir (b.c.map fun c => quot32 (P * c) S (-14)) a.n ∧
    dvproj 1 a b = writeDir ((a.c.zip b.c).map fun p => quot32 (p.1 * S - P * p.2) S (-14)) a.n ∧
    (∀ s, dvscl 0 a s = normWrite a.c (a.n + signExt s 32) 0#5) ∧
    (∀ v s neg m e, v ≠ 0 → f32.unpack s = .fin neg m e → m ≠ 0 →
      let d := roundLog2 24 m 1 + e * 2 ^ 24
      dvscl v a s = normWrite (if neg then a.c.map fun c => if c = -32768 then 32767 else -c else a.c) (a.n + d)
        (if neg = true ∧ (-32768 : Int) ∈ a.c then flagOF else 0#5)) ∧
    (∀ v s, v ≠ 0 → (f32.unpack s).isNan = true ∨ (f32.unpack s).isInf = true → dvscl v a s = (zero, flagNV) ∧ dvaxpy a b s = (zero, flagNV)) ∧
    ∀ s neg m e, f32.unpack s = .fin neg m e → m ≠ 0 →
      let f : Int := if neg then -(m : Int) else m
      let il : Int := (Nat.log2 m : Int) + e
      let na := a.n + il * 2 ^ 24
      let M := max na b.n
      dvaxpy a b s = writeDir ((a.c.zip b.c).map fun p => twoTerm (some (f * p.1, e - il - 14, na - M)) (some (p.2, -14, b.n - M))) M) ∧
  (∀ (n e p m k q : Int), p % 2 ^ 24 = 0 → q % 2 ^ 24 = 0 → ∃ d : Machine.Dyadic,
    (d.n : ℚ) * (2 : ℚ) ^ d.e = n * (2 : ℚ) ^ (e + p / 2 ^ 24) + m * (2 : ℚ) ^ (k + q / 2 ^ 24) ∧
    twoTerm (some (n, e, p)) (some (m, k, q)) = f32.unpack (f32.roundDy 0 false d).1) ∧
  (∀ (a e : Int) (b : Nat), a ≠ 0 → quot32 a b e = f32.unpack (f32.roundQuot 0 (a < 0) a.natAbs b e).1)

/-! ### Views, tokens and the matrix queue -/

/-- R188, R189, R191, R192, R205: TVSET writes a W register from the lowest Active lane; TVGET reads one, or how a view is lent and how
many queued MXOPs write it; TOKGIVE and TOKTAKE lend a view and take it back; TZERO writes zeros over a whole view. -/
def Obligations.ViewRegisters : Prop :=
  ∀ (f : Fields) (s : State) (g : Gang) (x : Iss),
    let queued (k : Nat) : List MxEntry := (mxOf s x.ref).filter fun e => mxWC e.params == k
    (Ready (.tvset f) s g x → DoesGang (.tvset f) s s x fun g =>
      { g with w := KMap.set g.w 0#64 (wNum f.d) (x.a x.low), parity := g.parity.filter (fun e => e ≠ .w (wNum f.d)),
               holdLatch := g.holdLatch.filter fun e => e.2 ≠ BitVec.ofNat 12 (0x658 + wNum f.d) }) ∧
    (Ready (.tvget f) s g x → f.mod.toNat % 4 ≠ 1 → DoesD (.tvget f) s x (fun _ => x.g.wReg (wNum f.a)) 0#5) ∧
    (Ready (.tvget f) s g x → f.mod.toNat % 4 = 1 → DoesD (.tvget f) s x (fun _ =>
      w64 ((if BitSet.has x.g.lent (wNum f.a) then 1 else 0) + 256 * (queued (wNum f.a)).length)) 0#5) ∧
    (Ready (.tokgive f) s g x → DoesGang (.tokgive f) s s x fun g => { g with lent := BitSet.put g.lent (wNum f.a) true }) ∧
    (Ready (.toktake f) s g x → BitSet.has x.g.lent (wNum f.a) = false → DoesGang (.toktake f) s s x id) ∧
    (Ready (.toktake f) s g x → BitSet.has x.g.lent (wNum f.a) = true → queued (wNum f.a) = [] →
      DoesGang (.toktake f) s s x fun g => { g with lent := BitSet.put g.lent (wNum f.a) false }) ∧
    (Ready (.toktake f) s g x → BitSet.has x.g.lent (wNum f.a) = true → queued (wNum f.a) ≠ [] →
      ∃ t, exec (.toktake f) s = .next t ∧ t = { s with gangs := t.gangs } ∧
        t.gang? x.ref = some { g with waits := some .token }) ∧
    (Ready (.tzero f) s g x → DoesGang (.tzero f) s s x fun g => g.writes (viewNumWrites x.g (x.g.wReg (wNum f.d)) 0))

/-- R194, R195, R197, R202: an MXOP whose block is read and breaks no rule joins the end of its partition's queue with the descriptors of
its views and the bytes of those it reads (R200), with the number of the read where the block is read again (R289); R204: MXWAIT goes on once no queued MXOP of the gang carries its operation number, or none at all with IMM 8.
Where the rules leave a point open it rests on the model's choices of log entries 22, 34, 35 and 74. -/
def Obligations.MatrixQueue : Prop :=
  ∀ (f : Fields) (s s1 s2 : State) (g : Gang) (x : Iss) (p : List W64) (again : Option Nat),
    let off := (x.a x.low).toNat
    (Ready (.mxop f) s g x → readBlock x (x.start s) off = .ok p again s1 → mxParity x.g p = false → mxBad x.g p = false → mxFullParity x.g p = false →
      mxLent x.g p = none → streamChecks s1 x p = (some none, s2) →
      (mxASrc p = false → x.g.viewReady (x.g.wReg (mxWA p)) = true) → (mxBSrc p = false → x.g.viewReady (x.g.wReg (mxWB p)) = true) →
      (KMap.get s2.mxq [] (mxKey x.ref)).length < 16 →
      Commits (.mxop f) s x (countBlock x { s2 with mxq := KMap.put s2.mxq (mxKey x.ref) (KMap.get s2.mxq [] (mxKey x.ref) ++
        [{ g := x.ref, params := p, wa := if mxASrc p then 0#64 else x.g.wReg (mxWA p),
           wb := if mxBSrc p then 0#64 else x.g.wReg (mxWB p), wc := x.g.wReg (mxWC p), opid := mxField p 0 32 8, readDone := false,
           behind := behindOf s2 x.ref, aBytes := if mxASrc p then [] else viewRead x.g (x.g.wReg (mxWA p)),
           bBytes := if mxBSrc p then [] else viewRead x.g (x.g.wReg (mxWB p)), again := again.map fun n => (n, off, x.g),
           stamp := s2.issueCtr, recheck := none }]) } off again)) ∧
    (Ready (.mxwait f) s g x → (∀ e ∈ mxOf s x.ref, f.imm.getLsbD 8 = false ∧ e.opid ≠ f.imm.toNat % 256) →
      DoesGang (.mxwait f) s s x id) ∧
    (Ready (.mxwait f) s g x → (∃ e ∈ mxOf s x.ref, f.imm.getLsbD 8 = true ∨ e.opid = f.imm.toNat % 256) →
      ∃ t, exec (.mxwait f) s = .next t ∧ t = { s with gangs := t.gangs } ∧ t.gang? x.ref = some { g with waits := some .mxwait })

/-! ### Chains -/

/-- R157, R158, R161: CHLD and CHINV complete: of a slot with no run and nothing waiting they take effect at once; behind one of
these they wait in the slot and the gang with them.
R160: CHQRY completes with VERSION, OWN, VALID and the count of the slot; BUSY tells of a run or a waiting load.
Where the rules leave a point open it rests on the model's choices of log entry 26. -/
def Obligations.ChainSlots : Prop :=
  ∀ (f : Fields) (s s1 : State) (g : Gang) (x : Iss) (us : List W32),
    let k := f.mod.toNat % 2
    let key := chainKey x.ref k
    let slot (s : State) : ChainSlot := chainSlot s key
    let free (s : State) : Prop := chainBusy s key = false ∧ (slot s).waiting = []
    let taken (c : ChainSlot) : ChainSlot :=
      { c with valid := true, owner := x.who.slot, version := c.version + 1#16, count := us.length, uops := us }
    let loaded (s : State) : State := { s with chains := KMap.put s.chains key (taken (slot s)) }
    let load : Prop := loadUops (x.start s) x.ref.core x.task (x.a x.low).toNat (f.imm.toNat % 32) = .ok us s1
    let held (s : State) (l : Option (List W32)) : State := x.mapGang
      { s with chains := KMap.put s.chains key ({ slot s with waiting := (slot s).waiting ++ [(x.ref, l)] }) }
      fun g => { g with block := some (.chain k) }
    (Ready (.chld f) s g x → load → free s1 → exec (.chld f) s = .next (commitIssue x (loaded s1) {})) ∧
    (Ready (.chld f) s g x → load → ¬ free s1 → exec (.chld f) s = .next (commitIssue x (held s1 (some us)) {})) ∧
    (Ready (.chinv f) s g x → free (x.start s) → ∃ t, exec (.chinv f) s = .next t ∧
      Becomes x { s with chains := KMap.put s.chains key ({ slot s with valid := false }) } t id) ∧
    (Ready (.chinv f) s g x → ¬ free (x.start s) → exec (.chinv f) s = .next (commitIssue x (held (x.start s) none) {})) ∧
    (Ready (.chqry f) s g x → ∃ (t : State) (v : W64), exec (.chqry f) s = .next t ∧ DResult x s t (fun _ => v) 0#5 ∧
      v.extractLsb' 0 16 = (slot s).version ∧ v.getLsbD 22 = ((slot s).owner == x.who.slot) ∧
      v.getLsbD 21 = ((slot s).valid && (slot s).owner == x.who.slot) ∧
      (v.getLsbD 21 = true → v.extractLsb' 16 5 = BitVec.ofNat 5 (slot s).count) ∧
      v.getLsbD 23 = (chainBusy s key || (slot s).waiting.any fun w => w.2.isSome))

/-- R155, R156, R159: CHRUN runs the slot's micro-operations in order in every Active lane on A, B, C and four temporaries that begin
at 0, and K0 arrives in D as a fill; a slot that is not valid for the task raises CHAIN-SLOT.
R156: an integer micro-operation writes every sub-element wrapped to its width; the logical ones act on all 64 bits.
Where the rules leave a point open it rests on the model's choices of log entry 27. -/
def Obligations.ChainRuns : Prop :=
  (∀ (f : Fields) (s : State) (g : Gang) (x : Iss), Ready (.chrun f) s g x →
     let k := f.mod.toNat % 2
     let c := chainSlot (x.start s) (chainKey x.ref k)
     c.waiting = [] →
     (c.valid = true → c.owner = x.who.slot → DoesFill (.chrun f) s x (.chain k) (x.dWrites fun l =>
       (chainRun (x.a l) (x.b l) (x.c l) (c.uops.take c.count) [0#64, 0#64, 0#64, 0#64]).headD 0#64) 0#5 false) ∧
     (c.valid = false ∨ c.owner ≠ x.who.slot → Traps (.chrun f) s x s (.plain 0x1B x.active))) ∧
  (∀ (t aux : Nat) (x y z : W64), t < 8 →
     let e (v : W64) (j : Nat) : Int := intElem t (subElem v (typeWidth t) j)
     let w (v : Int) : Nat := wrapInt v (typeWidth t)
     chainOp 0 t aux x y z = x ∧
     Elements t (chainOp 1 t aux x y z) (fun j => w (e x j + e y j)) ∧ Elements t (chainOp 2 t aux x y z) (fun j => w (e x j - e y j)) ∧
     Elements t (chainOp 3 t aux x y z) (fun j => w (e x j * e y j)) ∧
     Elements t (chainOp 4 t aux x y z) (fun j => w (e x j * e y j + e z j)) ∧
     Elements t (chainOp 5 t aux x y z) (fun j => w (min (e x j) (e y j))) ∧
     Elements t (chainOp 6 t aux x y z) (fun j => w (max (e x j) (e y j))) ∧
     Elements t (chainOp 7 t aux x y z) (fun j => w (if e x j < 0 then -e x j else e x j)) ∧
     Elements t (chainOp 8 t aux x y z) (fun j => w (-e x j)) ∧
     Elements t (chainOp 9 t aux x y z) (fun j => if subElem z (typeWidth t) j ≠ 0 then subElem x (typeWidth t) j else subElem y (typeWidth t) j) ∧
     chainOp 10 t aux x y z = x &&& y ∧ chainOp 11 t aux x y z = x ||| y ∧ chainOp 12 t aux x y z = x ^^^ y)

/-! ### Memory -/

/-- R213 to R215, R276, R287, R289: an issue that reaches memory and passes its checks. A classified one performs its accesses at once,
its results in a fill or its stores in place, or one lane after the other in any order, as the agenda has them (R287), or once the cut of a
dump no longer holds them (R432); an unclassified one goes in flight with its destinations empty, and is counted.
Where the rules leave a point open it rests on the model's choices of log entry 31. -/
def Obligations.MemoryIssues : Prop :=
  ∀ (i : Instr) (m : MemSpec) (s s' : State) (g : Gang) (x : Iss) (accs : List LaneAcc) (late : Bool) (claims : List Nat), Ready i s g x →
    memSpec x = some m → Reaches x (x.start s) m.force m.write m.lanes m.chk accs late claims s' →
    let s2 := foldIssue s' x accs
    let op := { x.op accs claims s.issueCtr with split := s.split }
    let ws := m.empties accs
    let p := restash s2 x.who op
    let r := performOp p.2 x.who p.1
    let apart : Prop := s.split = true ∨ crossHeld s2 x.who.ctx op = true
    (late = false → ¬ apart → r.writes = [] → Commits i s x (x.mapGang r.s Gang.takeNumber)) ∧
    (late = false → ¬ apart → r.writes ≠ [] → Commits i s x (x.mapGang r.s fun g => g.startFill .ready r.writes 0#5 false)) ∧
    (late = false → apart → Commits i s x (x.mapGang s2 fun g => { g.startOp .awaits ws with late := some op })) ∧
    (late = true → Commits i s x (x.mapGang s2 (Gang.inFlight { op with split := false } ws)))

/-- R213, R214: when a lane fails a check the issue takes one trap and nothing of it happens: the lowest cause of any lane, THIT the
lanes that raised it, TADDR that of the lowest of them, TMASK the Active lanes.
Where the rules leave a point open it rests on the model's choices of log entry 33. -/
def Obligations.AccessTraps : Prop :=
  (∀ (i : Instr) (m : MemSpec) (s s' : State) (g : Gang) (x : Iss) (t : TrapInfo), Ready i s g x → memSpec x = some m → x.g.unclass = none →
    checkLanes (x.start s) x.active m.lanes m.chk = .trap t s' → Traps i s x s' t) ∧
  (∀ (active : LaneMask) (fails : List (Nat × Nat × W64)) (t : TrapInfo), (∀ e ∈ fails, e.1 < 64) → chooseFail active fails = some t →
    t.tmask = active ∧ t.tpc = none ∧ (∀ e ∈ fails, t.cause ≤ e.2.1) ∧ (∃ e ∈ fails, e.2.1 = t.cause) ∧
    (∀ l, t.thit.getLsbD l = true ↔ ∃ e ∈ fails, e.1 = l ∧ e.2.1 = t.cause) ∧
    (∃ e, fails.find? (fun e => e.2.1 == t.cause) = some e ∧ t.taddr = e.2.2))

/-- R208, R211, R213: the checks of a global access within one page whose translation the core holds: a byte undeclared, or in a private area
of the task or of another running task of its context (log entry 92, the model's choice), a misaligned address and an armed watchpoint fail
in that order; else the access goes to the page's frame.
R213, R216, R219: a scratchpad access beyond the half's scratchpad, or in a team that may not make it, raises PROTECTION, a
misaligned one MISALIGNED; a private word below 0 or beyond STKLIM raises STACK-LIMIT with its index in TADDR. R221, R427: one that meets
no mapped line, or a filled one, is an access of the scratchpad; one whose line's page became shared is an access of global bytes, with the
declaration and the data watchpoints of those. Where the rules leave a point of a stash line open it rests on the model's choices of log
entry 84. -/
def Obligations.AccessChecks : Prop :=
  (∀ (s : State) (g : Gang) (w : Who) (r : TaskRec) (q : AccReq) (pa : Nat) (leaf : W64),
     q.size ≠ 0 → q.va % 4096 + q.size ≤ 4096 → q.va + q.size ≤ 2 ^ 52 →
     coreXlat s w.core w.ctx q.va (if q.kind = .read then .read else .write) = .done (.ok pa leaf) s →
     let declared := if q.kind = .read then mayRead s w.ctx r q.va q.size else mayWrite s w.ctx r q.va q.size
     let fails (c : Nat) : Prop := globalCheck s g w r q = .fail c (w64 q.va) s
     (declared = false → fails 0x22) ∧
     (declared = true → q.va % q.align ≠ 0 → fails 0x23) ∧
     (declared = true → q.va % q.align = 0 → watchHit s g w.ctx q.lane q.va q.size q.kind = true → fails 0x28) ∧
     (declared = true → q.va % q.align = 0 → watchHit s g w.ctx q.lane q.va q.size q.kind = false → q.data.length ≤ q.size →
       q.data2.length ≤ q.size → globalCheck s g w r q = .ok
         [{ lane := q.lane, space := .global, va := q.va, pa, size := q.size, peer := none, data := q.data, data2 := q.data2, leaf }] s)) ∧
  ((∀ (s : State) (w : Who) (r : TaskRec) (g : Option Gang) (half : Nat) (may : Bool) (q : AccReq),
     let within := q.va + q.size ≤ scratchSize s w.team half
     let a : LaneAcc := { lane := q.lane, space := .scratch half, va := q.va, pa := 0, size := q.size, peer := none, data := q.data, data2 := q.data2,
                          leaf := 0#64 }
     let check := localCheck s w r g half may q
     let plain : Prop := (q.va % q.align ≠ 0 → check = .fail 0x23 (w64 q.va) s) ∧ (q.va % q.align = 0 → check = .ok [a] s)
     (may = false ∨ ¬ within → check = .fail 0x21 (w64 q.va) s) ∧
     (may = true → within →
       (stashPlace s w a = none → plain) ∧
       (∀ k m va, stashPlace s w a = some (k, m, va) → pageShared s w.slot (va / 4096) = false →
         BitSet.has m.filled ((q.va - m.off) / 128) = true → plain) ∧
       (∀ k m va pa leaf, stashPlace s w a = some (k, m, va) → pageShared s w.slot (va / 4096) = true →
         coreXlat s w.core w.ctx va (if q.kind = .read then .read else .write) = .done (.ok pa leaf) s →
         let declared := if q.kind = .read then mayRead s w.ctx r va q.size else mayWrite s w.ctx r va q.size
         let hit := g.any fun g => watchHit s g w.ctx q.lane va q.size q.kind
         (declared = false → check = .fail 0x22 (w64 va) s) ∧
         (declared = true → q.va % q.align ≠ 0 → check = .fail 0x23 (w64 va) s) ∧
         (declared = true → q.va % q.align = 0 → hit = true → check = .fail 0x28 (w64 va) s) ∧
         (declared = true → q.va % q.align = 0 → hit = false → check = .ok [{ a with space := .global, va, pa, leaf }] s)))) ∧
   (∀ (s : State) (g : Gang) (w : Who) (q : AccReq) (word : Int) (k : Nat), word < 0 ∨ (g.stklim.toNat : Int) < word + k →
     privCheck s g w q word k = .fail 0x24 (BitVec.ofInt 64 word) s))

/-- R210, R211, R217, R186: a classified load leaves a fill with the bytes it reads at its coherence points, in the lanes that make an
access; no byte of memory or scratchpad changes, nor any register. The premise on the lines that cores hold is kept by every step. -/
def Obligations.Loads : Prop :=
  ∀ (i : Instr) (f : Fields) (m : MemSpec) (s s' : State) (g : Gang) (x : Iss) (accs : List LaneAcc) (claims : List Nat),
    i = .ld f ∨ i = .lds f ∨ i = .ldx f ∨ i = .ldp f ∨ i = .dvld f → l1Ok s.l1 → Ready i s g x → memSpec x = some m →
    Reaches x (x.start s) m.force m.write m.lanes m.chk accs false claims s' → s.split = false →
    crossHeld s x.who.ctx (x.op accs claims s.issueCtr) = false → Unmapped x s accs →
    let ws := if i = .dvld f then dvldWrites x.g (x.g.wReg (wNum f.d)) (accs.flatMap (readAcc s x.who x.g.nextFill))
      else (byLane accs (readAcc s x.who x.g.nextFill)).flatMap fun p => destWrites i f p.1 p.2
    ∃ t g', exec i s = .next t ∧ t.gang? x.ref = some g' ∧
      g'.fills = g.fills ++ [{ id := g.nextFill, kind := .ready, writes := ws, flags := 0#5, setsFlags := false }] ∧
      (∀ w ∈ ws, g'.emptyAt w = true) ∧ g'.v = g.v ∧ g'.s = g.s ∧ g'.p = g.p ∧ g'.n = g.n ∧ g'.fpstat = g.fpstat ∧
      SpecialsKept g g' ∧ FallsThrough x g g' ∧ (∀ r, gangNum r ≠ gangNum x.ref → t.gang? r = s.gang? r) ∧
      (∀ pa, memByte t pa = memByte s pa) ∧ ∀ team h off, scratchByte t team h off = scratchByte s team h off

/-- R211, R217: a classified store changes the bytes its accesses cover, each to that of the highest lane that covers it, and no other
byte of memory or scratchpad; it changes no register. The premise on the lines that cores hold is kept by every step. -/
def Obligations.Stores : Prop :=
  ∀ (i : Instr) (f : Fields) (m : MemSpec) (s s' : State) (g : Gang) (x : Iss) (accs : List LaneAcc) (claims : List Nat),
    i = .st f ∨ i = .sts f ∨ i = .stx f ∨ i = .stp f ∨ i = .dvst f → l1Ok s.l1 → Ready i s g x → memSpec x = some m →
    Reaches x (x.start s) m.force m.write m.lanes m.chk accs false claims s' → s.split = false →
    crossHeld s x.who.ctx (x.op accs claims s.issueCtr) = false → Unmapped x s accs →
    ∃ t g', exec i s = .next t ∧ t.gang? x.ref = some g' ∧ g'.fills = g.fills ∧ g'.fpstat = g.fpstat ∧
      RegsKept g g' (fun _ => False) (fun _ => False) (fun _ _ => False) (fun _ => False) ∧ SpecialsKept g g' ∧ FallsThrough x g g' ∧
      (∀ r, gangNum r ≠ gangNum x.ref → t.gang? r = s.gang? r) ∧
      (∀ pa, memByte t pa = (storedByte accs pa).getD (memByte s pa)) ∧
      (∀ h off, scratchByte t x.who.team h off = (storedScratch accs h off).getD (scratchByte s x.who.team h off)) ∧
      ∀ team h off, team ≠ x.who.team → scratchByte t team h off = scratchByte s team h off

/-- R211, R216: the register image of a lane's bytes: 64 bits, the two registers of `.X2`, or a sized value extended by its type.
R218: LDK outside executable pages leaves one access in a fill for every Active lane, and changes no byte of memory; through the fetch
path it leaves the bytes that the path gives, with their poison (R217), without an access; a private area is undeclared (R213). -/
def Obligations.LoadResults : Prop :=
  (∀ (i : Instr) (f : Fields) (bs : List (Byte × Bool)), i = .ld f ∨ i = .lds f ∨ i = .ldx f →
     let val (bs : List (Byte × Bool)) : Nat := leVal (bs.map Prod.fst)
     let w := typeWidth f.tcode
     (f.variant = 0 → (loadImage i f bs).map Prod.fst = [w64 (val (bs.take 8))]) ∧
     (f.variant = 2 → (loadImage i f bs).map Prod.fst = [w64 (val (bs.take 8)), w64 (val ((bs.drop 8).take 8))]) ∧
     (f.variant = 1 → typeIsSigned f.tcode = true → (loadImage i f bs).map Prod.fst = [BitVec.ofInt 64 (signExt (val bs) w)]) ∧
     (f.variant = 1 → typeIsSigned f.tcode = false → (loadImage i f bs).map Prod.fst = [w64 (val bs)])) ∧
  (∀ (f : Fields) (s s0 : State) (g : Gang) (x : Iss), l1Ok s.l1 → Ready (.ldk f) s g x →
     let n := accSize f
     let va := x.addr x.low
     let path (r : Except (Option Nat) (List Nat)) : Prop := fetchBytes (x.start s) x.who.core x.who.ctx va n = (r, s0)
     let fails (c : Nat) : Prop := Traps (.ldk f) s x s0 { cause := c, tmask := x.active, taddr := w64 va, thit := x.lowMask, tpc := none }
     (∀ (e : Nat) (a : LaneAcc) (claims : List Nat) (s' : State), path (.error (some e)) →
       Reaches x s0 false false [x.low] (ldkCheck x) [a] false claims s' → s.split = false →
       let op := x.op [a] claims s.issueCtr
       crossHeld s x.who.ctx op = false →
       DoesGang (.ldk f) s (performOp s' x.who op).s x
         (fun g => g.startFill .ready (ldkWrites x (readAcc s' x.who x.g.nextFill a)) 0#5 false) ∧
       ∀ q, memByte (performOp s' x.who op).s q = memByte s q) ∧
     (∀ (pas : List Nat), path (.ok pas) → meetsPriv s0 x.who.ctx x.task.rec_ va n = false → va % n = 0 →
       watchHit s0 x.g x.who.ctx x.low va n .read = false →
       let words := (List.range ((n + 3) / 4)).foldl (fun (acc : List (Byte × Bool) × State) k =>
         let q := fetchWord32 acc.2 x.who.core x.task ((List.range 4).map (pas.headD 0 / 4 * 4 + 4 * k + ·))
         (acc.1 ++ (leBytes 4 q.1.toNat).map (·, q.2.1), q.2.2)) ([], s0)
       DoesGang (.ldk f) s words.2 x fun g =>
         g.startFill .ready (ldkWrites x ((words.1.drop (pas.headD 0 % 4)).take n)) 0#5 false) ∧
     (∀ (pas : List Nat), path (.ok pas) → meetsPriv s0 x.who.ctx x.task.rec_ va n = true → fails 0x22) ∧
     (∀ (pas : List Nat), path (.ok pas) → meetsPriv s0 x.who.ctx x.task.rec_ va n = false → va % n ≠ 0 → fails 0x23))

/-- R223, R225, R285: an event at a home takes the bytes as every copy of them left them, and puts the new word there; a poisoned word
is left as it is. No other byte changes.
R223, R237, R239, R240, R245, R246: what an event makes of a word: the integer operations of an atomic; SIGT takes a COUNT down where
it reaches and no error stands; SIGS adds to the COUNT or sets the word; BOA counts an arrival and turns the phase at the last.
Where the rules leave a point open it rests on the model's choices of log entry 13. -/
def Obligations.Atomics : Prop :=
  (∀ (s : State) (pa n : Nat) (h : Nat → Nat) (pay : Charge), l1Ok s.l1 → n ≠ 0 →
     let old := memNat s pa n
     let r := homeEvent s pa n h pay
     r.1 = old ∧ r.2.1 = memPoisoned s pa n ∧
     ∀ q, memByte r.2.2 q = if memPoisoned s pa n = false ∧ pa ≤ q ∧ q < pa + n then (leBytes n (h old)).getD (q - pa) 0#8 else memByte s q) ∧
  ((∀ t old b : Nat, t < 8 → old < 2 ^ typeWidth t → b < 2 ^ typeWidth t →
     atomNew t 0 old b = (old + b) % 2 ^ typeWidth t ∧
     intElem t (atomNew t 1 old b) = min (intElem t old) (intElem t b) ∧ intElem t (atomNew t 2 old b) = max (intElem t old) (intElem t b) ∧
     atomNew t 3 old b = old &&& b ∧ atomNew t 4 old b = old ||| b ∧ atomNew t 5 old b = old ^^^ b ∧ atomNew t 6 old b = b) ∧
   (∀ b w : Nat, b < 2 ^ 48 → sigtNew b w = if sigErr w = 0 ∧ b ≤ sigCount w then w - b else w) ∧
   (∀ b w : Nat, w < 2 ^ 64 → sigCount (sigsNew false b w) = (sigCount w + b) % 2 ^ 48 ∧ sigErr (sigsNew false b w) = sigErr w ∧
     sigsNew true b w = b) ∧
   (∀ pending expect phase : Nat, pending < 2 ^ 32 → expect < 2 ^ 31 → phase < 2 →
     boaNew (pending + 2 ^ 32 * expect + 2 ^ 63 * phase) =
       if expect = 0 ∨ pending = 0 then none
       else if pending = 1 then some (expect + 2 ^ 32 * expect + 2 ^ 63 * (1 - phase))
       else some (pending - 1 + 2 ^ 32 * expect + 2 ^ 63 * phase)))

/-- R277, R289: an unclassified issue in flight completes as one: its accesses are performed, its fill holds its results, and the gang
has no unclassified issue any more; the stores held behind it follow, and the loads, and the blocks of engine forms and MXOPs, read
again. -/
def Obligations.UnclassifiedCompletes : Prop :=
  ∀ (s : State) (ref : GangRef) (g : Gang) (w : Who) (op : PendOp), s.gang? ref = some g → s.who ref = some w → g.unclass = some op →
    (∀ o, g.block ≠ some (.signal o) ∧ g.block ≠ some (.object o)) → g.block ≠ some .peer → standsStill s ref.core w.ctx = false →
    crossHeld s w.ctx op = false →
    let p := restash s w op
    let r := performOp (crossAccs p.2 w p.1.accs) w p.1 true
    exec (.unclassifiedIssueComplete ref) s = .next (completeUnclass s ref) ∧
    (g.heldStores = [] → (∀ e ∈ g.fills, ∀ o, e.kind ≠ .revalidate o) → ∀ y, r.s.gang? ref = some y → y.fills = g.fills →
      y.heldStores = [] → blocksAgain r.s ref = [] → (completeUnclass s ref).gang? ref = some (readyFill { y with unclass := none } p.1.fill r.writes) ∧
      ∀ pa, memByte (completeUnclass s ref) pa = memByte r.s pa)

/-- R221, R222: STASH whose checks pass adds a mapping of the team, nothing of it filled, for the issues from this one on; UNSTASH, with no
access of the gang to the mapped bytes still to be made, writes its dirty lines back and ends it, once the read-only pages among them are
shared (R298), and of an offset where none begins raises PROTECTION.
Where the rules leave a point open it rests on the model's choices of log entries 42 and 84. -/
def Obligations.Stashes : Prop :=
  ∀ (f : Fields) (s s1 s2 : State) (g : Gang) (x : Iss) (t : Team) (u : Bool) (cs : List Nat),
    let base := (x.a x.low).toNat
    let off := (x.b x.low).toNat % 2 ^ 32
    let len := (x.b x.low).toNat / 2 ^ 32
    let map : Stash := { half := x.who.half, base, off, len, filled := [], dirty := [], since := s.issueCtr }
    let isAt (m : Stash) : Bool := m.half == x.who.half && m.off == base
    let busy := x.g.unclass.isSome
    (Ready (.stash f) s g x → stashCheck (x.start s) x base off len = .ok s1 →
      touchPages s1 x.who.slot x.who.index x.who.owner false false busy ((pagePieces base len).map fun p => p.1 / 4096) = .go u cs s2 →
      s2.team? x.who.team = some t →
      let s3 := s2.setTeam x.who.team { t with stashes := t.stashes ++ [map] }
      Commits (.stash f) s x (if u then x.mapGang s3 countUnclass else s3)) ∧
    (Ready (.unstash f) s g x → s.team? x.who.team = some t → t.stashes.find? isAt = none →
      Traps (.unstash f) s x (x.start s) { cause := 0x21, tmask := x.active, taddr := w64 base, thit := x.lowMask, tpc := none }) ∧
    (Ready (.unstash f) s g x → s.team? x.who.team = some t → ∀ m, t.stashes.find? isAt = some m →
      unstashWaits (x.start s) x m = false →
      touchPages (x.start s) x.who.slot x.who.index x.who.owner true false busy (stashPages (x.start s) x.who.slot m) = .go u cs s2 →
      let s3 := stashWriteBack s2 x.who.team t m
      ∀ t', s3.team? x.who.team = some t' →
      Commits (.unstash f) s x (s3.setTeam x.who.team { t' with stashes := t'.stashes.filter fun m => !isAt m }))

/-! ### Copy engine, signals, barriers and the carve-out -/

/-- R230, R232, R234: an engine form whose descriptor is legal and whose signal may be written joins the core's queue with what it
captures, and the sequence of every thread that issued it rises (R369); a block that reaches a stash line of a page that became
shared counts as an unclassified issue (R276); a descriptor that breaks a rule raises ILLEGAL-OPERAND with its offset in TADDR. A block
read behind the gang's unclassified issue is read again at its completion (R289), and such a cause waits for that.
Where the rules leave a point open it rests on the model's choices of log entries 38 and 74. -/
def Obligations.EngineForms : Prop :=
  ∀ (i : Instr) (f : Fields) (kind : EngineKind) (s s1 s2 : State) (g : Gang) (x : Iss) (d : List W64) (again : Option Nat),
    (i = .cpy f ∧ kind = .cpy) ∨ (i = .cpym f ∧ kind = .cpym) ∨ (i = .gather f ∧ kind = .gather) ∨ (i = .scata f ∧ kind = .scata) →
    Ready i s g x →
    let off := (x.a x.low).toNat
    let sig := if f.b.toNat = 0x678 then none else some (x.b x.low).toNat
    (match sig with
      | none => s1 = x.start s
      | some a => ∃ accs, plainCheck (x.start s) x.who x.task.rec_ x.low a 8 8 .write .write false = .ok accs s1) →
    readBlock x s1 off = .ok d again s2 →
    let op : EngineOp :=
      { kind, core := x.ref.core, team := x.who.team, half := x.who.half, g := x.ref, ctx := x.who.ctx,
        slot := x.who.slot, index := x.who.index, desc := d, sig, behind := behindOf s2 x.ref, elem := 0, fault := 0, faultAddr := 0,
        thr := 2 ^ 31 + x.g.index * x.g.width + x.low, seq := KMap.get x.g.seq 0 x.low, stopped := false, peerWait := false,
        buf := none, touched := false, claims := [], stamp := s2.issueCtr, again := again.map fun n => (n, off), recheck := none }
    (cpyBad kind d = true → again = none → Traps i s x s2 (.plain 0x11 x.set (x.a x.low))) ∧
    (cpyBad kind d = true → again ≠ none → ∃ t, exec i s = .next t ∧ t.gang? x.ref = some { g with waits := some .unclassified }) ∧
    (cpyBad kind d = false → (s2.engine.filter fun e => e.2.core == x.ref.core).length < 1024 →
      Commits i s x (countBlock x (x.mapGang { s2 with engine := KMap.put s2.engine s2.nextEngine op, nextEngine := s2.nextEngine + 1 }
        fun g => { g with seq := x.lanes.foldl (fun m l => KMap.set m 0 l (KMap.get m 0 l + 1)) g.seq }) off again))

/-- R237 to R240, R245 to R249: a form that makes or awaits an event of an object is unclassified on every issue: with its checks
passed it goes in flight; SIGW and BOW hold the gang until their read completes them, and count in the gang's unclassified issues
as they do so, the model's choice of log entry 42.
R249, R428: an event on an object that an armed SYNC watchpoint names is made before the gang goes on; where it meets the watchpoint's
condition the form completes and then raises WATCH-SYNC, with the object in TADDR and the next instruction in TPC.
Where the rules leave a point open it rests on the model's choices of log entry 39. -/
def Obligations.ObjectForms : Prop :=
  ∀ (f : Fields) (s s1 s2 : State) (g : Gang) (x : Iss) (accs0 : List LaneAcc) (u : Bool) (cs : List Nat),
    let obj := x.a x.low
    let accs (b : W64) : List LaneAcc := accs0.map fun a => { a with data := leBytes 8 b.toNat }
    let checked (perm decl : Access) (barrier : Bool) : Prop := objCheck x (x.start s) perm decl barrier = .ok accs0 s1
    let touched (write : Bool) (l : List LaneAcc) : Prop :=
      touchPages s1 x.who.slot x.who.index x.who.owner write true false (globalPages l) = .go u cs s2
    let plain (kind : Nat) : Prop := watched s1 x.who.ctx kind obj = false ∨ x.g.inh = true
    let flies (i : Instr) (kind : Nat) (b : W64) (ws : List RegWrite) : Prop :=
      plain kind → touched true (accs b) →
      Commits i s x (x.mapGang (foldIssue s2 x (accs b)) (Gang.inFlight (x.op (accs b) cs s.issueCtr) ws))
    let syncs (i : Instr) (kind : Nat) (b : W64) (meets : Nat → Nat → Bool) : Prop :=
      ¬ plain kind → touched true (accs b) → crossHeld s1 x.who.ctx (x.op (accs b) [] 0) = false → ∀ a, accs0 = [a] →
      let r := performOp (crossAccs s2 x.who (accs b)) x.who (x.op (accs b) cs s2.issueCtr) true
      let sync : TrapInfo := { cause := 0x29, tmask := x.active, taddr := obj, thit := x.active, tpc := some (x.pc + 12#64) }
      exec i s = .next (commitIssue x (x.mapGang r.s fun g => countUnclass (g.startOp .ready r.writes))
        { after := if memPoisoned s2 a.pa 8 = false ∧ meets (memNat s2 a.pa 8) (memNat r.s a.pa 8) = true then some sync else none })
    let arms (kind cond : Nat) (last : Nat → Bool) : Bool := syncWatch s2 x.who.ctx kind cond obj last
    let crosses (old new t : Nat) : Bool := sigCount old < t && t ≤ sigCount new
    let holds (i : Instr) (b : W64) (block : PendOp → Block) : Prop :=
      touched false (accs b) → ∃ t g', exec i s = .next t ∧ t.gang? x.ref = some g' ∧ g'.pc = g.pc ∧ g'.v = g.v ∧ g'.s = g.s ∧
        g'.block = some (block (x.op (accs b) [] s.issueCtr)) ∧ g'.unclass = some (x.op (accs b) [] s.issueCtr) ∧ g'.unclassCount = g.unclassCount + 1#64 ∧
        ∀ pa, memByte t pa = memByte s pa
    x.g.unclass = none →
    (Ready (.sigt f) s g x → checked .write .write false → flies (.sigt f) 3 (x.b x.low) (x.dWrites fun _ => 0#64) ∧
      syncs (.sigt f) 3 (x.b x.low) fun old new =>
        (sigCount old ≠ sigCount new && arms 3 0 fun _ => true) || arms 3 1 (crosses old new)) ∧
    (Ready (.sigs f) s g x → checked .write .write false → flies (.sigs f) 3 (x.b x.low) [] ∧
      syncs (.sigs f) 3 (x.b x.low) fun old new => (arms 3 0 fun _ => true) || arms 3 1 (crosses old new)) ∧
    (Ready (.boa f) s g x → checked .write .write true → flies (.boa f) 2 0#64 [] ∧
      syncs (.boa f) 2 0#64 fun old _ => (arms 2 0 fun _ => true) ||
        (boaNew old).any fun n => n / 2 ^ 63 ≠ old / 2 ^ 63 && arms 2 1 fun _ => true) ∧
    (Ready (.sigw f) s g x → checked .read .read false → holds (.sigw f) (x.b x.low) .signal) ∧
    (Ready (.bow f) s g x → checked .read .write true → holds (.bow f) 0#64 .object)

/-- R238, R247: the read of a waiting SIGW completes it once COUNT reaches its value or ERR is set; that of a waiting BOW once the
phase differs from its arrival record, which it drops, or where it has none. The issue then commits, from the gang as its issue reads it
(R51); until then nothing happens. R249, R428: with no agent, or no FLIP watchpoint on the object, nothing follows the commit; where an armed
one watches it the completing read of a SIGW, or of a BOW that found the phase changed, raises WATCH-SYNC after it. -/
def Obligations.ObjectWaits : Prop :=
  ∀ (s : State) (ref : GangRef) (g : Gang) (w : Who) (op : PendOp) (a : LaneAcc) (rest : List LaneAcc) (x : Iss),
    s.gang? ref = some g → s.who ref = some w → op.accs = a :: rest → issueStops s ref.core w.ctx = false →
    crossHeld s w.ctx op = false →
    let s1 := correctMem (recallLines (crossAccs s w op.accs) a.pa 8 (.of w.ctx)) (homeDie a.pa (pteBit a.leaf 8)) a.pa 8
    let free := s1.setGang ref x.g
    let v := memNat s1 a.pa 8
    let first := g.arrivals.find? fun r => r.1 == w64 a.va
    let done := first.all fun r => (v / 2 ^ 63 == 1) != r.2
    let cause : TrapInfo := { cause := 0x29, tmask := x.active, taddr := w64 a.va, thit := x.active, tpc := some (x.pc + 12#64) }
    let sync (kind : Nat) (meets : Bool) : Post :=
      { after := if !g.inh && meets && syncWatch s1 w.ctx kind 2 (w64 a.va) (fun _ => true) then some cause else none }
    againIss (s1.setGang ref { g with block := none, unclass := none }) ref op.i op.active = some x → memPoisoned s1 a.pa 8 = false →
    (g.block = some (.signal op) → (leVal a.data % 2 ^ 48 ≤ sigCount v ∨ sigErr v ≠ 0) →
      exec (.sigwComplete ref) s = .next (commitIssue x (x.mapGang free id) (sync 3 true))) ∧
    (g.block = some (.signal op) → sigCount v < leVal a.data % 2 ^ 48 → sigErr v = 0 → exec (.sigwComplete ref) s = .next s) ∧
    (g.block = some (.object op) → done = true → exec (.bowComplete ref) s = .next (commitIssue x
      (x.mapGang free fun g => { g with arrivals := g.arrivals.filter fun r => r.1 ≠ w64 a.va }) (sync 2 first.isSome))) ∧
    ((KMap.get? s.ctxs w.ctx).bind Ctx.debug = none → ∀ kind meets, (sync kind meets).after = none) ∧
    (g.block = some (.object op) → done = false → exec (.bowComplete ref) s = .next s)

/-- R241 to R243, R278: BARA and BARS set the gang's ARR bit of the named barrier; where it is set already they wait. When that completes the
barrier, every bit of it is cleared, a pending carve request is decided and answered, and its waiters go on; else BARS waits there and BARA
goes on. BARW waits while the gang's own bit is set.
R249, R428: the cause WATCH-SYNC follows the form where an armed watchpoint of the barrier is met: ARRIVE by an arrival, LAST by the
completing one, FLIP by a BARS that goes on. -/
def Obligations.TeamBarriers : Prop :=
  (∀ (f : Fields) (s : State) (g : Gang) (x : Iss) (t : Team),
    let b := f.imm.toNat % 16
    let bit := BitVec.ofNat 128 (2 ^ x.g.index)
    let t' := { t with arr := KMap.set t.arr 0#128 b (KMap.get t.arr 0#128 b ||| bit) }
    let mine := (KMap.get t.arr 0#128 b).getLsbD x.g.index
    let s' := (x.start s).setTeam x.who.team t'
    let obj : W64 := w64 (b + 2 ^ 32 * x.task.rec_.taskid.toNat)
    let hit (cond : Nat) : Bool := !x.g.inh && syncWatch s x.who.ctx 1 cond obj fun _ => true
    let sync : TrapInfo := { cause := 0x29, tmask := x.active, taddr := w64 b, thit := x.active, tpc := some (x.pc + 12#64) }
    let arrived := if hit 0 then some (w64 b, x.pc + 12#64, x.active) else none
    let due (meets : Bool) : Post := { after := if meets = true then some sync else none }
    s.team? x.who.team = some t →
    (∀ i, i = .bara f ∨ i = .bars f → Ready i s g x → mine = true →
      ∃ t, exec i s = .next t ∧ t = { s with gangs := t.gangs } ∧ t.gang? x.ref = some { g with waits := some .barrier }) ∧
    (∀ i, i = .bara f ∨ i = .bars f → Ready i s g x → mine = false → x.g.unclass ≠ none →
      ∃ t, exec i s = .next t ∧ t = { s with gangs := t.gangs } ∧ t.gang? x.ref = some { g with waits := some .unclassified }) ∧
    (x.g.unclass = none → mine = false → barrierComplete t' b = false →
      (Ready (.bara f) s g x → exec (.bara f) s = .next (commitIssue x s' (due (hit 0))) ∧
        (x.unwatched s → DoesGang (.bara f) s (s.setTeam x.who.team t') x id)) ∧
      (Ready (.bars f) s g x →
        Commits (.bars f) s x (x.mapGang s' fun g => { g with block := some (.barrier b), syncDue := arrived }) ∧
        (x.unwatched s → DoesGang (.bars f) s (s.setTeam x.who.team t') x fun g => { g with block := some (.barrier b), syncDue := none }))) ∧
    (x.g.unclass = none → mine = false → barrierComplete t' b = true →
      (Ready (.bara f) s g x → exec (.bara f) s = .next (commitIssue x (checkBarrier s' x.who.team b) (due (hit 0 || hit 1)))) ∧
      (Ready (.bars f) s g x → exec (.bars f) s = .next (commitIssue x (checkBarrier s' x.who.team b) (due (hit 0 || hit 1 || hit 2))))) ∧
    (Ready (.barw f) s g x → mine = true → DoesGang (.barw f) s s x fun g => { g with block := some (.barrier b) })) ∧
  (∀ (s : State) (k b : Nat) (t : Team), s.team? k = some t → barrierComplete t b = true →
    let s' := checkBarrier s k b
    let cleared := s.setTeam k { t with arr := KMap.del t.arr b }
    (∃ t', s'.team? k = some t' ∧ KMap.get t'.arr 0#128 b = 0#128 ∧ (∀ c, c ≠ b → KMap.get t'.arr 0#128 c = KMap.get t.arr 0#128 c) ∧
      t'.carve = none ∧ (t.carve = none → t'.halves = t.halves) ∧
      ∀ c, t.carve = some c →
        let parts := t.halves.map fun h => splitHalf cleared h c.spu c.l1u
        let granted : Prop := (∀ m ∈ t.stashes, m.off + m.len ≤ c.spu * 65536) ∧ ∀ p ∈ parts, p ≠ none
        let h := t.halves.headD ⟨0, [], [], [], [], []⟩
        (granted → t'.halves.map some = parts) ∧ (¬ granted → t'.halves = t.halves) ∧
        ∀ y, s.gang? c.g = some y → y.team = k → ∃ y', s'.gang? c.g = some y' ∧
          (granted → y'.fills = (setFill y c.fill (carveStatus c.l1u c.spu 0)).fills) ∧
          (¬ granted → y'.fills = (setFill y c.fill (carveStatus h.l1Units.length h.scratchUnits.length 1)).fills)) ∧
    (∀ r ∈ t.gangs, ∀ y, s.gang? r = some y → y.team = k → y.block = some (.barrier b) →
      ∃ y', s'.gang? r = some y' ∧ y' = { y with block := none, fills := y'.fills, syncDue := y'.syncDue }) ∧
    ∀ r, (∀ q ∈ t.gangs, gangNum q ≠ gangNum r) → (∀ c, t.carve = some c → gangNum c.g ≠ gangNum r) → s'.gang? r = s.gang? r)

/-- R244: CARVE whose request is legal waits for the team's next barrier with its result to come; a second request, or an illegal one,
answers at once with its status and the sizes as they are.
Where the rules leave a point open it rests on the model's choices of log entry 24. -/
def Obligations.CarveOut : Prop :=
  ∀ (f : Fields) (s : State) (g : Gang) (x : Iss) (t : Team), Ready (.carve f) s g x → s.team? x.who.team = some t →
    let a := (x.a x.low).toNat
    let spu := bits a 0 16
    let l1u := bits a 16 16
    let h := t.halves.headD ⟨0, [], [], [], [], []⟩
    let answers (st : Nat) : Prop := DoesFill (.carve f) s x .ready
      (x.dWrites fun _ => carveStatus h.l1Units.length h.scratchUnits.length st) 0#5 false
    let illegal : Prop := bits a 32 32 ≠ 0 ∨ l1u = 0 ∨ 256 < x.task.rec_.regu + spu + l1u
    (t.carve ≠ none → answers 2) ∧ (t.carve = none → illegal → answers 3) ∧
    (t.carve = none → ¬ illegal → DoesGang (.carve f) s
      (s.setTeam x.who.team { t with carve := some { g := x.ref, fill := x.g.nextFill, spu, l1u } }) x
      fun g => g.startFill .awaits (x.dWrites fun _ => 0#64) 0#5 false)

/-! ### Exceptions and the special registers -/

/-- R300, R302, R304, R309: a cause is taken by entering the handler: the trap registers are written, INH is set, every live lane of
TMASK goes to THND and the others are held. With INH set, or THND 0, or a machine check or poison in a RESTARTABLE task, the team
is killed; with an agent attached DEBUG-STEP, BREAKPOINT and HALTDBG stop the gang and are reported to it. R312: a machine check or poison leaves an entry
in the error log before; no other cause does.
R313 to R315: killing a team with nothing in flight removes its gangs and frees its resources; in a RESTARTABLE task its index is to be
placed again, at most three times, else the task ends with fault status and its other resident teams go with it. -/
def Obligations.ExceptionEntry : Prop :=
  (∀ (s : State) (ref : GangRef) (who : Who) (task : Task) (pc : W64) (t : TrapInfo) (g : Gang), s.gang? ref = some g →
    let agent : Prop := (t.cause = 0xF0 ∨ t.cause = 0xF1) ∧ agentAttached s who.ctx = true
    let restart : Prop := task.rec_.restartable = true ∧ (t.cause = 1 ∨ t.cause = 2)
    let tpc := t.tpc.getD pc
    let still := s.setGang ref { g with transients := [], holdLatch := [] }
    let s0 := logTrap still ref who task t
    let s' := takeTrap s ref who task pc t
    (t.cause ≠ 1 → t.cause ≠ 2 → s0 = still) ∧
    (¬ agent → g.inh = false → g.thnd ≠ 0#64 → ¬ restart → ∃ g', s' = s0.setGang ref g' ∧
      g'.cause = BitVec.ofNat 8 t.cause ∧ g'.tpc = tpc ∧ g'.tmask = t.tmask ∧ g'.taddr = t.taddr ∧ g'.thit = t.thit ∧ g'.inh = true ∧
      (∀ l, g'.pcOf l = if g.live.getLsbD l && t.tmask.getLsbD l then g.thnd else g.pcOf l) ∧
      (∀ l, g.live.getLsbD l = true → t.tmask.getLsbD l = true → g'.waitOf l = 0) ∧
      g'.held = g.live &&& ~~~t.tmask ∧ g'.live = g.live ∧ g'.thnd = g.thnd ∧ g'.transients = [] ∧ g'.holdLatch = [] ∧
      RegsKept g g' (fun _ => False) (fun _ => False) (fun _ _ => False) (fun _ => False) ∧
      g'.fpctl = g.fpctl ∧ g'.fpstat = g.fpstat ∧ g'.w = g.w ∧ g'.lent = g.lent ∧ g'.fills = g.fills) ∧
    (¬ agent → g.inh = true ∨ g.thnd = 0#64 ∨ restart → s' = killTeam s0 who.team t.cause t.taddr.toNat) ∧
    (agent → s' = reportStop (s.setGang ref { g with transients := [], holdLatch := [], cause := BitVec.ofNat 8 t.cause, tpc,
                                                     tmask := t.tmask, thit := t.thit, stopped := true }) who.ctx ref t.cause tpc)) ∧
  (∀ (s : State) (k cause addr : Nat) (t : Team) (task : Task), s.team? k = some t → t.dying = false → s.task? t.slot = some task →
    TeamQuiet s k t →
    let s' := killTeam s k cause addr
    let used := KMap.get task.relaunches 0 t.index
    let again : Prop := task.rec_.restartable = true ∧ used < 3 ∧ task.fault = none
    let gone (k : Nat) (t : Team) : Prop := s'.team? k = none ∧ ∀ r ∈ t.gangs, ∀ g, s.gang? r = some g → g.team = k → s'.gang? r = none
    gone k t ∧
    (again → (∀ r g, s.gang? r = some g → g.team ≠ k → s'.gang? r = some g) ∧ ∃ task', s'.task? t.slot = some task' ∧
      task'.relaunch = task.relaunch ++ [t.index] ∧ KMap.get task'.relaunches 0 t.index = used + 1 ∧ task'.fault = none ∧
      task'.teamsRetired = task.teamsRetired + 1#64) ∧
    (¬ again → (∀ j u, s.team? j = some u → u.slot = t.slot → u.dying = false ∧ TeamQuiet s j u) →
      (∀ j u, s.team? j = some u → u.slot = t.slot → gone j u) ∧
      ∃ task', s'.task? t.slot = some task' ∧ task'.fault = some (cause, t.index) ∧ task'.relaunch = task.relaunch))

/-- R250, R251, R304, R307: TRAP completes and then takes the cause in its IMM, with TPC after it: the Active lanes enter the handler.
RTE in a handler resumes the live lanes of TMASK at TPC, releases the held lanes, clears INH and every WAIT. Outside a handler it
raises PRIVILEGE.
Where the rules leave a point open it rests on the model's choices of log entry 19. -/
def Obligations.TrapAndReturn : Prop :=
  ∀ (f : Fields) (s : State) (g : Gang) (x : Iss),
    (Ready (.trap f) s g x → g.inh = false → g.thnd ≠ 0#64 → 2 < f.imm.toNat % 256 → f.imm.toNat % 256 < 0xF0 →
      ∃ t g', exec (.trap f) s = .next t ∧ t.gang? x.ref = some g' ∧ g'.cause = BitVec.ofNat 8 (f.imm.toNat % 256) ∧
        g'.tpc = x.pc + 12#64 ∧ g'.tmask = x.active ∧ g'.thit = x.active ∧ g'.taddr = 0#64 ∧ g'.inh = true ∧
        (∀ l, x.active.getLsbD l = true → g.live.getLsbD l = true → g'.pcOf l = g.thnd) ∧
        (∀ l, x.set.getLsbD l = true → x.active.getLsbD l = false → g'.pcOf l = x.pc + 12#64) ∧
        g'.held = g.live &&& ~~~x.active ∧ g'.issues = g.issues + 1#64 ∧
        RegsKept g g' (fun _ => False) (fun _ => False) (fun _ _ => False) (fun _ => False) ∧ ∀ pa, memByte t pa = memByte s pa) ∧
    (Ready (.rte f) s g x → g.inh = true → ∃ t g', exec (.rte f) s = .next t ∧ t.gang? x.ref = some g' ∧
      (∀ l, g.live.getLsbD l = true → g.tmask.getLsbD l = true → g'.pcOf l = g.tpc) ∧
      (∀ l, g.live.getLsbD l && g.tmask.getLsbD l = false → x.set.getLsbD l = false → g'.pcOf l = g.pcOf l) ∧
      g'.held = 0#64 ∧ g'.inh = false ∧ (∀ l, g'.waitOf l = 0) ∧ g'.live = g.live ∧
      (g'.exempt = (g.exempt &&& ~~~x.set &&& ~~~(g.live &&& g.tmask)) |||
        if g.cause = 0x28#8 ∨ g.cause = 0xF1#8 then g.live &&& g.tmask else 0#64) ∧
      RegsKept g g' (fun _ => False) (fun _ => False) (fun _ _ => False) (fun _ => False) ∧ SpecialsKept g g' ∧ g'.fpstat = g.fpstat ∧
      OthersKept x s t) ∧
    (Ready (.rte f) s g x → g.inh = false → exec (.rte f) s = .next (trapIssue s (.rte f) f x.ref x.who x.task x.pc x.set x.active
      (.plain 0x13 x.active)))

/-- R62, R63, R252: MFC reads the control register that IMM names; MTC writes it, its reserved bits 0, STKLIM at most the task's
private words; where the MTC column forbids the write, PRIVILEGE is raised. -/
def Obligations.ControlRegisters : Prop :=
  ∀ (f : Fields) (s : State) (g : Gang) (x : Iss),
    let c := f.imm.toNat
    let A := x.a x.low
    let may : Prop := (c < 5 ∧ g.inh = true) ∨ (5 ≤ c ∧ c < 0x0A)
    let value : W64 := match c with
      | 0x00 => g.cause.zeroExtend 64
      | 0x01 => g.tpc
      | 0x02 => g.tmask
      | 0x03 => g.taddr
      | 0x04 => g.thit
      | 0x05 => g.thnd
      | 0x06 => g.fpctl.zeroExtend 64
      | 0x07 => g.fpstat.zeroExtend 64
      | 0x08 => g.stklim.zeroExtend 64
      | 0x09 => g.rowlag.zeroExtend 64
      | 0x0A => g.privbase
      | _ => if g.inh then 1#64 else 0#64
    (Ready (.mfc f) s g x → (c = 0x07 → g.fills.any Fill.setsFlags = false) → DoesD (.mfc f) s x (fun _ => value) 0#5) ∧
    (Ready (.mtc f) s g x → may → DoesGang (.mtc f) s s x fun g => match c with
      | 0x00 => { g with cause := A.truncate 8 }
      | 0x01 => { g with tpc := A }
      | 0x02 => { g with tmask := A }
      | 0x03 => { g with taddr := A }
      | 0x04 => { g with thit := A }
      | 0x05 => { g with thnd := A }
      | 0x06 => { g with fpctl := A.truncate 32 &&& fpctlMask }
      | 0x07 => { g with fpstat := A.truncate 32 &&& fpstatMask }
      | 0x08 => { g with stklim := BitVec.ofNat 32 (min (A.toNat % 2 ^ 32) x.task.rec_.privw) }
      | _ => { g with rowlag := A.truncate 32 }) ∧
    (Ready (.mtc f) s g x → ¬ may → exec (.mtc f) s = .next (trapIssue s (.mtc f) f x.ref x.who x.task x.pc x.set x.active
      (.plain 0x13 x.active)))

/-- R253 to R256: RDCNT reads the counter that IMM names, RDTIME the ticks, RDDIG the team's digest (0 without DIGEST) and REGQ the
description of the page of A, each into D and nothing else.
Where the rules leave a point open it rests on the model's choices of log entries 41 and 42. -/
def Obligations.CountersAndQueries : Prop :=
  ∀ (f : Fields) (s : State) (g : Gang) (x : Iss),
    let busy := (s.engine.filter fun e => e.2.core == x.ref.core).length
    (Ready (.rdcnt f) s g x → DoesD (.rdcnt f) s x (fun _ => match f.imm.toNat with
      | 0 => g.issues
      | 1 => g.unclassCount
      | 2 => x.task.reclass
      | 3 => s.count .stalecnt x.who.ctx
      | 4 => s.count .boerr x.who.ctx
      | 5 => s.count .ecccorr x.ref.core
      | 6 => s.count .engflt x.who.ctx
      | 7 => w64 busy
      | _ => s.count .clocks x.ref.core) 0#5) ∧
    (Ready (.rdtime f) s g x → DoesD (.rdtime f) s x (fun _ => w64 s.tick) 0#5) ∧
    (Ready (.rddig f) s g x → ∀ t, s.team? x.who.team = some t →
      DoesD (.rddig f) s x (fun _ => if x.task.rec_.digest then t.digest else 0#64) 0#5) ∧
    (Ready (.regq f) s g x → DoesD (.regq f) s x (fun l => regqVal s x (x.a l).toNat) 0#5)

/-- R257, R258, R307: SLEEP holds the gang for the ticks in A, or yields for 0; HALTDBG raises BREAKPOINT in its Active lanes, and none
where they are all replayed after it. The sleep ends when its time has come.
Where the rules leave a point open it rests on the model's choices of log entry 40. -/
def Obligations.SleepAndHalt : Prop :=
  ∀ (f : Fields) (s : State) (g : Gang) (x : Iss),
    let n := (x.a x.low).toNat % 2 ^ 32
    (Ready (.sleep f) s g x → n ≠ 0 → DoesGang (.sleep f) s s x fun g => { g with block := some (.sleep (s.tick + n)) }) ∧
    (Ready (.sleep f) s g x → n = 0 → ∃ t, exec (.sleep f) s = .next t ∧ NoResult x s t true) ∧
    (Ready (.haltdbg f) s g x → x.active &&& ~~~x.g.exempt = 0#64 → DoesGang (.haltdbg f) s s x id) ∧
    (Ready (.haltdbg f) s g x → x.active &&& ~~~x.g.exempt ≠ 0#64 → Traps (.haltdbg f) s x (x.start s) (.plain 0xF1 x.active)) ∧
    (∀ ref until_, s.gang? ref = some g → g.block = some (.sleep until_) →
      (until_ ≤ s.tick → exec (.sleepWake ref) s = .next (s.setGang ref { g with block := none })) ∧
      (s.tick < until_ → exec (.sleepWake ref) s = .next s))

/-- R12, R303: an issue without an Active lane changes nothing but the PCs of its group, whatever its form.
R303: what a commit leaves of a state, whose gang is g: the PCs and the accounts of the gang change, and nothing outside it.
Where the rules leave a point open it rests on the model's choices of log entries 20 and 21. -/
def Obligations.IssuesCommit : Prop :=
  (∀ (i : Instr) (s : State) (g : Gang) (x : Iss), Idle i s g x →
     ∃ t, exec i s = .next t ∧ NoResult x s t (x.f.y || match i with
       | .yield _ => true
       | _ => false)) ∧
  (∀ (x : Iss) (s : State) (g : Gang), s.gang? x.ref = some g →
     ∃ g', (commitIssue x s {}).gang? x.ref = some g' ∧ Accounted g g' ∧ FallsThrough x g g' ∧ OthersKept x s (commitIssue x s {}) ∧
       g'.issues = g.issues + 1#64 ∧ g'.lastIssue = some s.issueCtr ∧
       (∀ l, g.runners.getLsbD l = true → g'.waitOf l = if x.set.getLsbD l then 0 else g.waitOf l + 1))

/-- R23, R24: the issue of a word that is no instruction raises ILLEGAL-OPCODE in every lane of its issue group, and a reserved field of
an instruction's word as well. -/
def Obligations.IllegalWords : Prop :=
  (∀ (w : W96) (s : State) (ref : GangRef) (g : Gang) (who : Who) (task : Task) (pc : W64) (set : LaneMask),
    s.cur = some ref → s.gang? ref = some g → s.who ref = some who → s.task? who.slot = some task → g.chooseSet = some (pc, set) →
    exec (.undefinedEncoding w) s = .next (illegalWord s ref who task pc set)) ∧
  (∀ (i : Instr) (m : Form) (f : Fields) (s : State) (ref : GangRef) (g : Gang) (who : Who) (task : Task) (pc : W64) (set : LaneMask),
    i.form = some (m, f) → s.cur = some ref → s.gang? ref = some g → s.who ref = some who → s.task? who.slot = some task →
    g.chooseSet = some (pc, set) → m.refuse f ≠ none →
    exec i s = .next (trapIssue s i f ref who task pc set set (.plain 0x10 set)))

/-! ### Happenings of gangs, teams and engines -/

/-- R10, R47, R55, R158: where its gang may act, a fill in flight lands: its writes are made, then what an agent wrote meanwhile (R430), its
registers are full and FPSTAT takes its flags; a fetch returns without another effect, or raises FETCH-FAULT, as it does at a PC that is no multiple of 4; a SECDED replay corrects
the words that the waiting issue reads; the load at the head of a chain slot's waiting list takes effect once no run is left.
Where the rules leave a point open it rests on the model's choices of log entry 6. -/
def Obligations.GangHappenings : Prop :=
  ∀ (s : State) (ref : GangRef) (g : Gang) (w : Who) (t : Task), s.acting? ref = some (g, w, t) →
    (∀ ix x, g.fills[ix]? = some x → fillReady g ix = true →
      let agent := (g.agentWrites.filter fun e => e.1 == x.id).map Prod.snd
      let ws := x.writes ++ agent
      let at_ (k l k' l' : Nat) : Prop := k' * g.width + l' = k * g.width + l
      ∃ g', exec (.fillLand ref ix) s = .next (s.setGang ref g') ∧
      g'.fills = g.fills.eraseIdx ix ∧ g'.fpstat = orFlags g.fpstat x.flags ∧ g'.width = g.width ∧
      g'.agentWrites = g.agentWrites.filter (fun e => e.1 != x.id) ∧
      (∀ k l v p, .v k l v p ∈ ws → BitSet.has g'.vEmpty (k * g.width + l) = false ∧
        ((∀ k' l' v' p', .v k' l' v' p' ∈ ws → at_ k l k' l' → v' = v) → (∀ k' l' m v' p', .part k' l' m v' p' ∈ ws → ¬ at_ k l k' l') →
          KMap.get g'.v 0#64 (k * g.width + l) = v)) ∧
      (∀ k l v p, .v k l v p ∈ agent → (∀ k' l' v' p', .v k' l' v' p' ∈ agent → at_ k l k' l' → v' = v) →
        (∀ k' l' m v' p', .part k' l' m v' p' ∈ agent → ¬ at_ k l k' l') → KMap.get g'.v 0#64 (k * g.width + l) = v) ∧
      (∀ k l m v p, .part k l m v p ∈ ws → BitSet.has g'.vEmpty (k * g.width + l) = false ∧
        ((∀ k' l' v' p', .v k' l' v' p' ∈ ws → ¬ at_ k l k' l') → (∀ k' l' m' v' p', .part k' l' m' v' p' ∈ ws → at_ k l k' l' → m' = m ∧ v' = v) →
          KMap.get g'.v 0#64 (k * g.width + l) = (KMap.get g.v 0#64 (k * g.width + l) &&& ~~~m) ||| (v &&& m))) ∧
      (∀ k v p, .s k v p ∈ ws → (∀ v' p', .s k v' p' ∈ ws → v' = v) →
        KMap.get g'.s 0#64 k = v ∧ BitSet.has g'.sEmpty k = false) ∧
      RegsKept g g' (fun c => ∃ k l, ((∃ v p, .v k l v p ∈ ws) ∨ ∃ m v p, .part k l m v p ∈ ws) ∧ c = k * g.width + l)
        (fun k => ∃ v p, .s k v p ∈ ws)
        (fun k l => ∃ b, .p k l b ∈ ws) (fun k => ∃ v p, .n k v p ∈ ws) ∧
      SpecialsKept g g' ∧ g'.pc = g.pc ∧ g'.live = g.live ∧ g'.inh = g.inh) ∧
    (∀ pc set, g.block = none → g.stopped = false → issueStops s ref.core w.ctx = false → boundaryTrap g = none → g.chooseSet = some (pc, set) →
      (∀ word s', fetchAt s ref.core t pc = .word word s' → exec (.fetch ref) s = .next s') ∧
      (∀ s', fetchAt s ref.core t pc = .fail s' → exec (.fetch ref) s = .next (fetchFault s' ref w t pc set)) ∧
      (pc.toNat % 4 ≠ 0 → exec (.fetch ref) s = .next (fetchFault s ref w t pc set))) ∧
    (∀ pc set word s' i m f, g.waits = some .replay → issueStops s ref.core w.ctx = false → g.chooseSet = some (pc, set) →
      fetchAt s ref.core t pc = .word word s' → decode word = .ok i → i.form = some (m, f) →
      let x := g.seen set
      let keys := ((wordsRead i m f x (activeOf x f set)).filter (BitSet.has g.vCorr)).eraseDups
      ∃ g', exec (.secdedReplay ref) s = .next ((s'.setGang ref g').bump .ecccorr ref.core keys.length) ∧
        g' = { g with vCorr := g'.vCorr, holdLatch := [], waits := none } ∧ ∀ k, BitSet.has g'.vCorr k = (BitSet.has g.vCorr k && !keys.contains k)) ∧
    (∀ k load rest, g.block = some (.chain k) → (chainSlot s (chainKey ref k)).waiting = (ref, load) :: rest →
      chainBusy s (chainKey ref k) = false →
      let c := { chainSlot s (chainKey ref k) with waiting := rest }
      exec (.chldCommit ref) s = .next ((chainCommit { s with chains := KMap.put s.chains (chainKey ref k) c } (chainKey ref k) w.slot
        load).setGang ref { g with block := none }))

/-- R261, R263, R266, R314, R315, R364: the dispatcher places the first relaunch in dispatch order, once nothing is left of the team that was
killed, else the next team of the dispatch order, where a core has room and nothing where none has; a CORESIDENT task's teams come
together. A gang without live lanes and nothing in flight retires: it leaves its partition and every barrier, and its team retires once
it is the last.
Where the rules leave a point open it rests on the model's choices of log entries 16 and 17. -/
def Obligations.PlacementAndRetirement : Prop :=
  (∀ (s : State) (slot : Nat) (t : Task), s.task? slot = some t → mayPlace s t = true →
    let r := t.rec_
    let pos (n : Nat) : Nat := if t.rerun then n else nthTeam r n
    let left (i : Nat) : Prop := ∃ k m, (k, m) ∈ s.teams ∧ m.slot = slot ∧ m.index = i
    let next (i : Nat) (t' : Task) : Prop := (left i → exec (.teamPlace slot) s = .next s) ∧
      (¬ left i → match planTeam s t.ctx r with
        | none => exec (.teamPlace slot) s = .next s
        | some p => exec (.teamPlace slot) s = .next (noteProgress ((createTeam s slot i t p).setTask slot t') t.ctx))
    (r.coresident = false → (t.rerun = false ∨ slotResident s slot = false) →
      (∀ n, n < t.placed → pos n ∈ t.relaunch → (∀ m, m < n → pos m ∉ t.relaunch) →
        next (pos n) { t with relaunch := t.relaunch.erase (pos n) }) ∧
      (t.relaunch = [] → t.placed < r.total → next (pos t.placed) { t with placed := t.placed + 1 }) ∧
      (t.relaunch = [] → r.total ≤ t.placed → exec (.teamPlace slot) s = .next s)) ∧
    (r.coresident = true → t.placed = 0 → match placeAll s slot t ((List.range r.total).map (nthTeam r)) with
      | none => exec (.teamPlace slot) s = .next s
      | some s' => exec (.teamPlace slot) s = .next (noteProgress (s'.setTask slot { t with placed := r.total }) t.ctx))) ∧
  (∀ (s : State) (ref : GangRef) (g : Gang) (w : Who) (t : Task) (m : Team), s.acting? ref = some (g, w, t) → s.team? w.team = some m →
    retirable s ref g = true → anyStop s w.ctx = false →
    let s1 := removeGang (s.setTask w.slot { t with sumIssues := t.sumIssues + g.issues, sumUnclass := t.sumUnclass + g.unclassCount }) ref w.slot
    s1.gang? ref = none ∧ (∀ r, gangNum r ≠ gangNum ref → s1.gang? r = s.gang? r) ∧
    exec (.gangRetire ref) s = .next (retireReady (tryRetireTeam ((List.range 16).foldl (fun s b => checkBarrier s w.team b)
      (s1.setTeam w.team { m with retired := BitSet.put m.retired g.index true })) w.team) w.slot))

/-- R93, R199, R200, R202, R203: the matrix unit reads the views of the MXOP at the head of its queue, streams a line at a time, and with
none left writes WC, whose full/empty bits stay as they are, and leaves the queue; poison or a cause of a streamed line kills the team;
correctable words that it reads are corrected, written back and counted. R233, R235, R236, R286: the copy engine makes the accesses of an
element one at a time: its index, its source, its destination, or ends the operation with the cause of a check; an operation with no
element left makes its signal update and leaves the queue. R289: an operation whose block is to be read again has not begun; one whose
block was found to differ takes the words found, kills its team, or ends with a cause.
Where the rules leave a point open it rests on the model's choices: log entry 22 (the incoming accumulator is the register file's), 36, 37,
73, 74 (a block read again), 87 (WC is written whatever its full/empty bits). -/
def Obligations.UnitsRun : Prop :=
  (∀ (s : State) (core part : Nat) (e : MxEntry) (rest : List MxEntry) (w : Who) (t : Task),
    let key := core * 32 + part
    let e' := (mxReadViews s e).1
    let s0 := (mxReadViews s e).2
    let s1 := mxSetHead s0 key (some e')
    KMap.get s.mxq [] key = e :: rest → s.who e.g = some w → s.task? w.slot = some t → standsStill s core w.ctx = false →
    (e.again ≠ none → exec (.mxopRun core part) s = .next s) ∧
    (∀ c off g, e.again = none → e.recheck = some (c, off, g) →
      let fault : Prop := c ≠ 0 ∨ mxBad g e.params = true ∨ mxLent g e.params ≠ none ∨ mxUnready g e.params = true
      (fault → ∃ cause, exec (.mxopRun core part) s = .next (killTeam s w.team cause off) ∧ (c ≠ 0 → cause = c) ∧
        (c = 0 → mxBad g e.params = true → cause = 0x12)) ∧
      (¬ fault → exec (.mxopRun core part) s = .next (mxSetHead s key (some { e.withBlock g e.params with recheck := none })))) ∧
    (e.again = none → e.recheck = none →
    (mxNextLine e' = none → exec (.mxopRun core part) s = .next (mxSetHead (mxFinish s0 e') key none)) ∧
    (∀ isA va n, mxNextLine e' = some (isA, va, n) → stillBehind s1 e.g e.behind = false →
      (∀ bs s2, streamLine s1 (sideWho w.core w.ctx w.slot w.team w.index w.half) t.rec_ va n = .ok bs s2 →
        exec (.mxopRun core part) s = .next (mxDone s2 key
          (if isA then { e' with aBytes := e'.aBytes ++ bs } else { e' with bBytes := e'.bBytes ++ bs }))) ∧
      (∀ c a s2, streamLine s1 (sideWho w.core w.ctx w.slot w.team w.index w.half) t.rec_ va n = .kill c a s2 →
        exec (.mxopRun core part) s = .next (killTeam s2 w.team c a))))) ∧
  (∀ (s : State) (e : MxEntry) (g : Gang), s.gang? e.g = some g → (mxAccIn e.params = true → g.viewCorr e.wc = false) →
    let file : Gang := { g with transients := [] }
    ∃ n b g', mxFinish s e = (s.setGang e.g g').bump .mxbusy e.g.core n ∧
      g' = { g.writes (viewWrites file e.wc ((leBytes (viewBytes e.wc) (mxRun e (file.viewVal e.wc))).map (·, b))) with
        vEmpty := g.vEmpty, parity := g.parity } ∧
      (b = true ↔ (∃ x ∈ e.aBytes ++ e.bBytes, x.2 = true) ∨ mxAccIn e.params = true ∧ file.viewPoison e.wc = true)) ∧
  (∀ (s : State) (ref : GangRef) (g : Gang) (d : W64), s.gang? ref = some g → g.viewCorr d = true →
    ∃ g' n, correctViews s ref [d] = (s.setGang ref g').bump .ecccorr ref.core n ∧ 0 < n ∧
      g' = { g with vCorr := g'.vCorr } ∧ g'.viewCorr d = false) ∧
  (∀ (s : State) (id : Nat) (op : EngineOp) (t : Task), KMap.get? s.engine id = some op → s.task? op.slot = some t →
    let d := op.desc
    let n := cpyEsz d
    let row := op.elem / cpyLen d
    let col := op.elem % cpyLen d
    let indexed : Prop := op.kind = .gather ∨ op.kind = .scata
    (op.kind = .cpy → ∀ x, elemPlan op x = (engAddr d 0 op.elem, engAddr d 1 op.elem, 1)) ∧
    (op.kind = .cpym → ∀ x, elemPlan op x =
      (engAddr d 0 (row * (d.getD 5 0#64).toNat + col), engAddr d 1 (row * (d.getD 6 0#64).toNat + col), 1)) ∧
    (op.kind = .gather → ∀ x, elemPlan op x = (engAddr d 0 (x * n), engAddr d 1 (op.elem * n), n)) ∧
    (op.kind = .scata → ∀ x, elemPlan op x = (engAddr d 0 (op.elem * n), engAddr d 1 (x * n), n)) ∧
    (standsStill s op.core op.ctx = false → (op.buf = none → issueStops s op.core op.ctx = false ∧ anyStop s op.ctx = false) →
      (op.buf ≠ none → elemHeld s op = false) → stillBehind s op.g op.behind = false → op.peerWait = false → engEnded op = false →
      let does (s' : State) : Prop := exec (.engineElement id) s = .next s'
      (op.again ≠ none → does s) ∧
      (∀ off, op.again = none → op.recheck = some off →
        (cpyBad op.kind d = true → does (elemFail s id { op with recheck := none } 0x11 off)) ∧
        (cpyBad op.kind d = false → does (setEngine s id { op with recheck := none }))) ∧
      (op.again = none → op.recheck = none →
      (op.buf = none → ¬ indexed → does (elemReadSrc s id op t.rec_ [])) ∧
      (op.buf = none → indexed → does (elemReadIndex s id op t.rec_)) ∧
      (∀ b, op.buf = some b → indexed → b.length ≤ 8 → does (elemReadSrc s id op t.rec_ b)) ∧
      (∀ b, op.buf = some b → (indexed ∧ 8 < b.length ∨ ¬ indexed ∧ b ≠ []) → does (elemWrite s id op t.rec_ b)))) ∧
    (issueStops s op.core op.ctx = false → anyStop s op.ctx = false → stillBehind s op.g op.behind = false → engEnded op = true →
      ∀ unc claims s0, signalTouch s op = .go unc claims s0 →
      let s1 := engineFinish s0 op op.fault op.faultAddr
      exec (.engineSignalUpdate id) s = .next (tryEnd (retireReady { s1 with engine := KMap.del s1.engine id } op.slot) op.slot))) ∧
  (∀ (s s1 s2 s3 : State) (id : Nat) (op : EngineOp) (r : TaskRec) (pre : List (Byte × Bool)) (a b : LaneAcc) (u v : Bool) (cs ds : List Nat),
    let w := engWho op
    let index := engAddr op.desc 2 (op.elem * cpyIdx op.desc)
    let p := elemPlan op (engIndex op pre).1
    let check := elemCheck s op w r p.1 p.2.1 p.2.2 (op.kind == .cpy || op.kind == .cpym)
    (plainCheck s w r 0 index (cpyIdx op.desc) (cpyIdx op.desc) .read .read false = .ok [a] s1 →
      elemTouch s1 w false false false [a] = (some (u, cs), s2) →
      let q := elemRead s2 w u cs [a]
      elemReadIndex s id op r = if q.1.any Prod.snd then elemFail q.2 id { op with touched := true } 0x02 index
        else setEngine q.2.nextStamp id
          { op with touched := true, buf := some ((leBytes 8 (leVal (q.1.map Prod.fst))).map (·, false)), stamp := s2.issueCtr }) ∧
    (∀ c at_ s', check = .fail c at_ s' → elemReadSrc s id op r pre = elemFail s' id op c at_) ∧
    (check = .ok [a] [b] s1 → a.peer = none → elemTouch s1 w false false (cpySsp op.desc == 1) [a] = (some (u, cs), s2) →
      elemTouch s2 w true (op.kind == .scata) (cpyDsp op.desc == 1) [b] = (some (v, ds), s3) →
      let q := elemRead s3 w u cs [a]
      elemReadSrc s id op r pre = setEngine q.2.nextStamp id
        { op with buf := some (pre ++ q.1), touched := true, claims := ds, stamp := s3.issueCtr })) ∧
  (∀ (s : State) (id : Nat) (op : EngineOp) (r : TaskRec) (a : LaneAcc) (bs : List (Byte × Bool)) (unc : Bool),
    let w := engWho op
    a.space = .global → a.peer = none → r.digest = false → (∀ e ∈ bs, e.2 = false) →
    let s1 := noteStore (engLines (elemCross s w unc [a]) op a.va) op.slot a.pa a.size
    elemPut s id op w r unc a bs = setEngine (storeAcc s1 w unc op.claims { a with data := bs.map Prod.fst }) id
      { op with elem := op.elem + 1, buf := none, peerWait := false, touched := true, claims := [] })

/-! ### Happenings of memory and the network -/

/-- R296 to R298, R356, R360, R391, R398: a page reclassifies as shared once the accesses and lines of its task are collected; a walk
returns its leaf to the translation cache of its core, through the cluster's cache of non-leaf entries; an answer to a peer access lets the issue go on, commit or trap, its poison kept; a migration
moves the frames of its page, gives its leaf entries the new frame, home and generation and drops the context's translations of the page,
or ends with PROTECTION or TRANSLATION, within one world (R400).
Where the rules leave a point open it rests on the model's choices: log entry 43 (a failed walk is kept with done set) and 46. -/
def Obligations.PageEvents : Prop :=
  (∀ (s : State) (slot page : Nat) (t t' : Task), s.task? slot = some t → t.reclassing.contains page = true →
    pageBusy s engDest slot page = false → anyCut s t.ctx = false →
    let s1 := collectPage (drainPage s slot page) slot t.ctx page
    let done : State := s1.setTask slot { t'.setClass page .shared with reclassing := t'.reclassing.filter (· ≠ page) }
    s1.task? slot = some t' →
    (∀ team, t.classOf page = .priv team → exec (.pageReclassify slot page) s = .next done) ∧
    (t.classOf page = .readOnly → exec (.readonlyToShared slot page) s = .next done) ∧
    (∃ t2, done.task? slot = some t2 ∧ t2.classOf page = .shared ∧ page ∉ t2.reclassing ∧ ∀ p, p ≠ page → t2.classOf p = t'.classOf p)) ∧
  (∀ (s : State) (cluster ix : Nat) (w : Walk), (clusterWalks s cluster)[ix]? = some w →
    let r := clusterWalk s cluster w.ctx (w.vpage * 4096)
    ((∀ e ∈ s.walkCache, e.cluster ≠ cluster ∨ e.ctx ≠ w.ctx) → r.1 = walk s w.ctx (w.vpage * 4096)) ∧
    (r.2 = { s with walkCache := r.2.walkCache, memCorr := r.2.memCorr, counters := r.2.counters } ∧ ∀ e ∈ s.walkCache, e ∈ r.2.walkCache) ∧
    (∀ leaf size, r.1 = some (leaf, size) → size ≠ 0 → 4096 ∣ size → ∃ t, exec (.walkComplete cluster ix) s = .next t ∧
      t = { r.2 with walks := s.walks.filter (· ≠ w), tlb := t.tlb } ∧
      (∃ e ∈ t.tlb, e.core = w.core ∧ e.ctx = w.ctx ∧ e.leaf = leaf ∧ e.vpage ≤ w.vpage ∧ w.vpage < e.vpage + e.pages) ∧
      ∀ e ∈ s.tlb, (e.core ≠ w.core ∨ e.ctx ≠ w.ctx ∨ w.vpage < e.vpage ∨ e.vpage + e.pages ≤ w.vpage) → e ∈ t.tlb) ∧
    (r.1 = none →
      exec (.walkComplete cluster ix) s = .next { r.2 with walks := s.walks.map fun x => if x = w then { x with done := true } else x })) ∧
  (∀ (s : State) (id : Nat) (r : PeerReq) (ans : PeerAnswer) (data : List Byte), KMap.get? s.peers id = some r → answerWaits s r = false →
    let s1 := { s with peers := KMap.del s.peers id }
    (∀ ref g w op, r.gang = some ref → s.gang? ref = some g → s.who ref = some w → g.block = some .peer → g.unclass = some op →
      let op' := { op with got := op.got ++ [if r.kind = .write then ([], false) else (fitBytes r.size data, ans == .poisoned)] }
      exec (.peerAccessComplete id .refused data) s = .next (retireReady (peerTrap s1 ref g op) w.slot) ∧
      let g' := { g with unclass := some op' }
      let s2 := s1.setGang ref g'
      (ans ≠ .refused → exec (.peerAccessComplete id ans data) s = .next (retireReady (peerFinish s2 ref) w.slot)) ∧
      (peerStill s2 ref w = false → (∀ e ∈ s2.peers, e.2.gang ≠ some ref) →
        (∀ q, peerOpen op' = true → peerRequest s2 op' ref = some q → peerFinish s2 ref = sendPeer s2 q) ∧
        (peerOpen op' = false → crossHeld s2 w.ctx op' = false →
          ∀ u cs s3, touchPages s2 w.slot w.index w.owner (!onlyReads op.i) true false (globalPages op.accs) = .go u cs s3 →
            peerFinish s2 ref = peerCommit s3 ref g' w { op' with claims := cs }))) ∧
    (∀ e op, r.gang = none → r.engine = some e → KMap.get? s.engine e = some op → r.kind = .read → ans ≠ .refused →
      exec (.peerAccessComplete id ans data) s = .next (setEngine s1.nextStamp e
        { op with peerWait := false, buf := some ((fitBytes 1 data).map (·, ans == .poisoned)), stamp := s.issueCtr }))) ∧
  (∀ (s : State) (id : Nat) (m : Migration), KMap.get? s.migrations id = some m → s.halted = false →
    let src := m.p.src.toNat
    let dst := m.p.dst.toNat
    let done : State := { s with migrations := KMap.del s.migrations id }
    (∀ s c a, migrationEnd s m c a = if m.repair then s else copyFinish s m.ctx m.p.sig c a) ∧
    let ends (c : Nat) : Prop := exec (.pageMigration id) s = .next (migrationEnd done m c src)
    (walk s m.ctx src = none → ends 0x20) ∧
    (∀ leaf size0 c, walk s m.ctx src = some (leaf, size0) → KMap.get? s.ctxs m.ctx = some c →
      let size := if pteBit leaf 6 then 65536 else size0
      let placed : Prop := pteBit leaf 7 = false ∧ src % size = 0 ∧ m.p.len = size ∧ dst % size = 0 ∧ inMap s dst size = true ∧
        (if 2 ≤ m.p.dest then isFar dst = true else isFar dst = false ∧ homeDie dst (m.p.dest == 3) = m.p.dest) ∧
        pteBit leaf 5 = c.m.secure ∧ ∀ k, k * 2 ^ 21 < size → isSecure s (dst + k * 2 ^ 21) = c.m.secure
      let stray : Prop := pteBit leaf 7 = false ∧ ∃ k, k * 2 ^ 21 < size ∧ isSecure s (pteFrame leaf + k * 2 ^ 21) ≠ pteBit leaf 5
      (stray → ends 0x20) ∧ (¬ stray → ¬ placed → ends 0x21) ∧
      (∀ entry, ¬ stray → placed → anyCut s m.ctx = false → othersHeld s m.ctx (pteFrame leaf) size = false → (s.tasks.any fun t => t.2.ctx == m.ctx && t.2.reclassing.any fun p => src / 4096 ≤ p && p < (src + size) / 4096) = false →
        leafAddr s src 4 0 c.m.troot.toNat = some entry →
        exec (.pageMigration id) s = .next (migrationEnd (migrate done m src (pteFrame leaf) size entry leaf) m 0 0)))) ∧
  (∀ (s : State) (src dst n a : Nat), s.memOk = true → KMap.get (moveFrames s src dst n).mem memDefault a =
    if dst ≤ a ∧ a < dst + n then KMap.get s.mem memDefault (a - dst + src) else KMap.get s.mem memDefault a) ∧
  (∀ (s : State) (ctx va old new size entry : Nat) (leaf : W64) (hdie : Bool), l1Ok s.l1 → size % 4096 = 0 → old % size = 0 → new % size = 0 →
    let t := migrateLeaf s ctx va old new size entry leaf hdie
    let count := if pteBit leaf 6 then 16 else 1
    let gen := pteGen leaf + 1#16
    (∀ j, j < count → memNat t (entry + 8 * j) 8 = (newLeaf leaf (new + 4096 * j) hdie gen).toNat) ∧
    (∀ a, a < entry ∨ entry + 8 * count ≤ a → memByte t a = memByte s a) ∧
    (∀ j, j < count → new + 4096 * j < 2 ^ 48 → let e := newLeaf leaf (new + 4096 * j) hdie gen
      pteFrame e = new + 4096 * j ∧ pteGen e = gen ∧ pteBit e 8 = hdie ∧ ∀ k, k < 12 → k ≠ 8 → pteBit e k = pteBit leaf k) ∧
    (∀ j, j < size / 4096 → KMap.get t.gens 0#16 (frameKey (new + 4096 * j) (homeDie new hdie)) = gen ∧
      BitSet.has t.absent (frameKey (new + 4096 * j) (homeDie new hdie)) = false) ∧
    (∀ e ∈ t.tlb, e ∈ s.tlb ∧ (e.ctx ≠ ctx ∨ e.vpage + e.pages ≤ va / 4096 ∨ va / 4096 + size / 4096 ≤ e.vpage)) ∧
    (∀ e ∈ s.tlb, (e.ctx ≠ ctx ∨ e.vpage + e.pages ≤ va / 4096 ∨ va / 4096 + size / 4096 ≤ e.vpage) → e ∈ t.tlb))

/-- R293, R394, R395: an incoming request that its key, its queue pair and its pages allow is performed where no cut holds it, no task holds its
bytes and none of its queue pair is deferred: a write stores its bytes, a read answers them, an atomic is one event at the home and
answers the old word. Otherwise it is refused with a negative acknowledgement, held at its port, or deferred; a deferred one that
is free is performed. R406: the words read are corrected.
Where the rules leave a point open it rests on the model's choices: log entry 45 (the bytes that RXBYTES and TXBYTES count), 60, 68 and 79 (the
words that an access corrects). -/
def Obligations.NetworkRequests : Prop :=
  (∀ (s : State) (i : Instr) (k : NetKind) (r : NetReq) (ctx : Nat),
    (i = .netRdmaWrite r ∧ k = .write) ∨ (i = .netRdmaRead r ∧ k = .read) ∨ (i = .netAtomicFetchAdd r ∧ k = .fetchAdd) ∨
      (i = .netAtomicCmpSwap r ∧ k = .cmpSwap) → s.halted = false → s.fw.recovery = false → portExists r = true →
    (∀ c, keyAllows s k r = .error c → exec i s = .next (netRefuse s r.port c k)) ∧
    (keyAllows s k r = .ok ctx →
      let s1 := if (KMap.get? s.qps r.qp).isNone then { s with qps := KMap.put s.qps r.qp ⟨r.port, ctx⟩ } else s
      (∀ s2, portHeld s1 ⟨k, r, ctx⟩ = some s2 → exec i s = .next s2) ∧
      (portHeld s1 ⟨k, r, ctx⟩ = none →
        let blocked : Prop := (∃ d ∈ s1.deferral, d.req.qp = r.qp) ∨ heldConflict s1 ctx r.va (reqLen k r) (reqWrites k) = true
        (blocked → exec i s = .next (defer s1 k r ctx)) ∧
        (¬ blocked →
          (∀ s2, k = .write → agentWrite s1 ctx r.va r.data .agent = .ok s2 → exec i s = .next (answer (s2.bump .rxbytes r.port r.data.length) .ack)) ∧
          (∀ pas, k = .read → agentBytes s1 ctx r.va r.len .read = .ok pas → (∀ a ∈ pas, wordPoisoned s1 (a / 4) = false) →
            exec i s = .next (answer ((correctBytes s1 pas).bump .txbytes r.port r.len) (.bytes (pas.map (memByte s1))))) ∧
          (∀ pa rest, k = .fetchAdd ∨ k = .cmpSwap → agentBytes s1 ctx r.va 8 .write = .ok (pa :: rest) →
            let s2 := recallLines (correctMem s1 (homeOf s1 pa) pa 8) pa 8 .agent
            let old := memNat s2 pa 8
            memPoisoned s2 pa 8 = false →
            exec i s = .next (answer (forgetStores (homeStore s2 pa (leBytes 8 (if k = .fetchAdd then (old + r.value.toNat) % 2 ^ 64
              else if old = r.compare.toNat then r.value.toNat else old))) pa 8) (.words [w64 old]))))))) ∧
  (∀ (s : State) (ix : Nat) (d : Deferred), s.deferral[ix]? = some d → s.halted = false → released s ix = true →
    exec (.deferredRequestPerform ix) s = .next (netPerform { s with deferral := s.deferral.eraseIdx ix } d.kind d.req d.ctx))

/-! ### The module -/

/-- R363, R394, R408, R409, R413, R437, R440, R442, R452: the happenings of ports, the viaduct, the scrubber over every word of the module,
the room made in caches and directories (which no reader of memory sees), clocks and heat, module-fatal
errors, reset, loss of power and the switch to an activated image. R355: after a reset NRSV is that of the configuration in use.
Where the rules leave a point open it rests on the model's choices: log entry 12 (the codes of a sensor failure and of a failed link), 45 (what
frame drop, congestion notification and PFC do to counters, rates and pauses), 63, 66, 67 and 83 (the records that a thermal stop writes
before its GAP). -/
def Obligations.ModuleEvents : Prop :=
  (∀ (s : State) (die : Nat) (d : Die), KMap.get? s.dies die = some d →
    (s.retraining = none → flitStuck d = false →
      exec (.viaductFlitReceive die true) s = .next (({ s with dies := KMap.put s.dies die { d with flitReplays := 0 } } : State).bump .viaflits die) ∧
      exec (.viaductFlitReceive die false) s =
        .next (({ s with dies := KMap.put s.dies die { d with flitReplays := d.flitReplays + 1 } } : State).bump .viareplay die)) ∧
    (s.retraining = none →
      (∀ ok, flitStuck d = true → exec (.viaductFlitReceive die ok) s = .next s)) ∧
    (s.retraining = none → stuckDie s = some die → exec .linkRetrain s = .next (linkEntry (({ s with
      retraining := some die, dies := KMap.modify s.dies die fun x => { x with flitReplays := 0 } } : State).bump .viaretrain die) 8 die)) ∧
    (∀ p t, d.stopped = false →
      (1900000 < p ∨ 100000 ≤ t → exec (.clockStep die p t) s = .next (if 300 < d.mhz then setClock s die (d.mhz - 25) d else s)) ∧
      (p < 1800000 → t < 95000 → exec (.clockStep die p t) s = .next (if d.mhz < 600 then setClock s die (d.mhz + 25) d else s)) ∧
      (1800000 ≤ p ∨ 95000 ≤ t → p ≤ 1900000 → t < 100000 → exec (.clockStep die p t) s = .next s) ∧
      (110000 ≤ t → let s1 := flushEarly s fun _ d => d == die; exec (.thermalStop die t) s = .next { s1 with dies := KMap.put s1.dies die { d with stopped := true, stoppedAt := s1.tick } })) ∧
    (∀ t, d.stopped = true → t ≤ 95000 → exec (.thermalRestart die t) s =
      .next (dieRecord { s with dies := KMap.put s.dies die { d with stopped := false } } die
        { TraceRec.plain 3 (w64 d.stoppedAt) with more := [w64 s.tick, 0#64] } s.tick))) ∧
  (∀ (s : State) (d : Nat), s.retraining = some d →
    exec (.retrainComplete true) s = .next { s with retraining := none, failedRetrains := 0 } ∧
    (s.failedRetrains < 2 → exec (.retrainComplete false) s =
      .next (linkEntry (({ s with failedRetrains := s.failedRetrains + 1 } : State).bump .viaretrain d) 8 d)) ∧
    (2 ≤ s.failedRetrains → ∃ t, exec (.retrainComplete false) s = .next t ∧ t.halted = true)) ∧
  (∀ (s : State) (code die : Nat), s.halted = false →
    (∃ t, exec (.moduleFatal code) s = .next t ∧ t = fatal s code ∧ t.halted = true) ∧
    (∃ t, exec (.sensorFailure die) s = .next t ∧ t.halted = true)) ∧
  (∀ (s : State) (slot : Nat) (t : Task), s.task? slot = some t → exec (.contextFatalError slot) s = .next (forceReset s t.ctx (Config.openInfo 0))) ∧
  (∀ (s : State) (die word : Nat), isFar (4 * word) = true ∨ die = homeDie (4 * word) false →
    exec (.patrolScrub (.memory die word) .clean) s = .next s ∧
    exec (.patrolScrub (.memory die word) .corrected) s = .next (({ s with memCorr := BitSet.put s.memCorr word false } : State).bump .diecorr die) ∧
    exec (.patrolScrub (.memory die word) .uncorrectable) s =
      .next (poisonNew { s with memCorr := BitSet.put s.memCorr word false } word (if isFar (4 * word) then 4 else 3) die)) ∧
  (∀ (s : State) (core slot word : Nat), (s.l1.any fun l => l.core == core && l.slot == slot && l.line == word / 32) = true →
    ∃ l1, exec (.patrolScrub (.l1 core slot word) .uncorrectable) s = .next (arrayPoison { s with l1 } core slot true 1 (4 * word)) ∧
      l1 = s.l1.map fun l => if l.core == core && l.slot == slot && l.line == word / 32
        then { l with poison := BitSet.put l.poison word true, corr := BitSet.put l.corr word false } else l) ∧
  (∀ (s : State) (die word : Nat), BitSet.has s.dieCache (2 * (word / 32) + die) = true →
    let s1 : State := { s with dieCorr := BitSet.put s.dieCorr (2 * word + die) false }
    exec (.patrolScrub (.dieCache die word) .corrected) s = .next (s1.bump .diecorr die) ∧
    exec (.patrolScrub (.dieCache die word) .uncorrectable) s = .next (poisonNew s1 word 2 die)) ∧
  (∀ (s : State) (x : Evict), s.memOk = true → l1Ok s.l1 → ∀ pa, memByte (makeRoom s x) pa = memByte s pa) ∧
  (∀ (s : State) (r : GangRef) (g : Gang) (half : Nat), s.gang? r = some g → half < 2 * g.regs * g.width →
    exec (.patrolScrub (.window r half) .clean) s = .next s ∧
    exec (.patrolScrub (.window r half) .corrected) s = .next ((s.setGang r { g with vCorr := BitSet.put g.vCorr half false }).bump .ecccorr r.core) ∧
    exec (.patrolScrub (.window r half) .uncorrectable) s = .next (arrayPoison (s.setGang r { g with vPoison := BitSet.put g.vPoison half true,
                                                                                                      vCorr := BitSet.put g.vCorr half false }) r.core
      (((s.team? g.team).map Team.slot).getD 128) true)) ∧
  (∀ (s : State) (core slot code addr : Nat), ∃ e : LogEntry, arrayPoison s core slot true code addr = logModule (s.bump .poisonnew (core / 32)) e ∧
    e = { LogEntry.onCore s.tick 0x01 core with addr, phys := code == 1, info := code }) ∧
  (∀ (s : State) (port prio ticks : Nat), port < 8 → prio < 8 →
    exec (.frameDrop port) s = .next (s.bump .retrans port) ∧
    (∃ t, exec (.congestionNotification port) s = .next t ∧ (portOf t port).rateCuts = (portOf s port).rateCuts + 1 ∧
      t.count .cnprx port = s.count .cnprx port + 1#64 ∧ t = { s with ports := t.ports, counters := t.counters }) ∧
    (∃ t, exec (.pfcPause port prio ticks) s = .next t ∧
      KMap.get (portOf t port).pausedUntil 0 prio = (if ticks = 0 then 0 else s.tick + ticks) ∧
      (KMap.get (portOf s port).pausedUntil 0 prio ≤ s.tick → t.count .pfcticks port = s.count .pfcticks port + w64 (s.tick + ticks) - w64 s.tick) ∧
      t = { s with ports := t.ports, counters := t.counters }) ∧
    (∀ qp b, KMap.get? s.qps qp = some b → s.ckptRun = none →
      (∀ e ∈ s.peers, ∀ w, KMap.get? s.windows e.2.window = some w → w.qp ≠ qp) → exec (.qpTransportFailure qp) s = .next (linkEntry s b.port))) ∧
  (∀ s : State,
    (∃ t, exec .powerLoss s = .next t ∧ t.halted = true ∧ t.fw.flash = s.fw.flash ∧ t.remote = s.remote ∧ t.image = none ∧ t.gangs = [] ∧
      t.tasks = [] ∧ t.ctxs = [] ∧ t.sessions = [] ∧ ∀ pa, memByte t pa = memDefault) ∧
    (∃ t, exec .moduleReset s = .next t ∧ t.halted = false ∧ t.fw = boot s.fw ∧ t.remote = s.remote ∧ t.image = s.image ∧ t.gangs = [] ∧
      t.tasks = [] ∧ t.ctxs = [] ∧ t.sessions = [] ∧ t.tick = 0 ∧
      (s.memOk = true → ∀ pa, memByte t pa = if isFar pa then KMap.get s.mem memDefault pa else memDefault) ∧
      (∀ copy1 d, configAuth s.fw copy1 = true → (copy1 = true → configAuth s.fw false = false) → d < 2 →
        KMap.get? t.dies d = some (Die.reset (configNrsv (boot s.fw) copy1 d)))) ∧
    (∀ slotB, s.fw.activating = some (slotB, false) → activationReady s = true → s.halted = false → exec .activateSwitch s =
      .next { s with fw := { s.fw with activating := none, running := slotB, header := readHeader s.fw slotB,
                                       selector := selWith s.fw.selector slotB true true } }))

/-- R376 to R381, R383, R415, R423, R424: the buckets of a port refill to 64 times SHARE, once in a window of its core's clocks; at a tick
of the interval every counter is latched, and the records of the latch are offered one by one; a sample is taken of the gang that issued last. A slice that expires with no waiter of its priority begins anew, else a drain
starts; stalls and deadlines end in a drain and a forced reset; the end of a drain saves the context; the best waiter is admitted. R379: a
slice that expires in the tick in which the context's last team retired saves nothing. R382: a forced reset stops the context's queues,
teams and copies, frees the tasks that wait and makes the others run their end edge; with none of those left the context is IDLE at once.
Where the rules leave a point open it rests on the model's choices: log entries 15, 50, 57, 72, 81 (the sensor values of a latch and the records
it makes) and 83 (a sample replaces an earlier one of its tick). -/
def Obligations.Scheduling : Prop :=
  (∀ (s : State) (core : Nat), refillDue s core = false → exec (.bucketRefill core) s = .next s) ∧
  (∀ (s : State) (core : Nat), refillDue s core = true → ∃ t, exec (.bucketRefill core) s = .next t ∧
    t = { s with buckets := t.buckets, bucketWindow := t.bucketWindow } ∧ refillDue t core = false ∧
    (∀ c, c < 64 → KMap.get t.buckets 0 (core * 64 + c) = 64 * ((s.ctx? c).map fun x => x.m.share).getD 0) ∧
    ∀ k, k / 64 ≠ core → KMap.get t.buckets 0 k = KMap.get s.buckets 0 k) ∧
  (∀ (s : State) (k : Nat), s.telInterval = some k →
    (s.tick % 2 ^ k ≠ 0 → latchTick s = s) ∧
    (s.tick % 2 ^ k = 0 → s.telPending = [] → s.telLatch = none → latchTick s = { s with telLatch := some ⟨k, s.tick, s.counters, s.dies⟩ })) ∧
  (∀ (s : State) (energy temp : Nat),
    (s.telLatch = none → exec (.telemetryLatch energy temp) s = .next s) ∧
    (∀ l, s.telLatch = some l → exec (.telemetryLatch energy temp) s = .next { s with
      counters := putSensors s.counters energy temp, telLatch := none,
      telPending := latchRecords s { l with counters := putSensors l.counters energy temp } }) ∧
    (∀ c r rest, s.telPending = (c, r) :: rest → offerNext s = telOffer { s with telPending := rest } c r)) ∧
  (∀ (s : State) (core ctx : Nat) (t : TraceStream) (r : GangRef) (g : Gang) (w : Who) (k : Task), traceStream s ctx (core / 32) = some t →
    t.en.getLsbD 0 = true → s.tick % 2 ^ t.s = 0 → (∀ d, KMap.get? s.dies (core / 32) = some d → d.stopped = false) →
    sampleGang s core (s.tick / 2 ^ t.s % 32) ctx = some (r, g, w) → s.task? w.slot = some k →
    let put (s : State) : State := trace { s with sampledAt := KMap.put s.sampledAt (core * 64 + ctx) s.tick } ctx (core / 32) 1#4
      (sampleRec r g w.index k.rec_.taskid.toNat k.rec_.code)
    (KMap.get? s.sampledAt (core * 64 + ctx) ≠ some s.tick → exec (.traceSample core ctx) s = .next (put s)) ∧
    (KMap.get? s.sampledAt (core * 64 + ctx) = some s.tick → exec (.traceSample core ctx) s = .next (put { s with
      traceBuf := s.traceBuf.filter fun e => !(e.1 == ctx && e.2.2.type == 5 && e.2.2.core == core) }))) ∧
  (∀ (s : State) (core ctx : Nat) (t : TraceStream), traceStream s ctx (core / 32) = some t → t.en.getLsbD 0 = true → s.tick % 2 ^ t.s = 0 →
    (∀ d, KMap.get? s.dies (core / 32) = some d → d.stopped = false) → sampleGang s core (s.tick / 2 ^ t.s % 32) ctx = none →
    KMap.get? s.sampledAt (core * 64 + ctx) = some s.tick →
    exec (.traceSample core ctx) s = .next { s with traceBuf := s.traceBuf.filter fun e => !(e.1 == ctx && e.2.2.type == 5 && e.2.2.core == core) }) ∧
  (∀ (s : State) (n : Nat) (c : Ctx), s.ctx? n = some c → paused s n = false → s.halted = false →
    (c.state = .scheduled → c.sliceStart + c.m.slice ≤ s.tick → c.retiredAt = some s.tick → ctxResident s n = false → ctxFlushing s n = false →
      exec (.sliceExpiry n) s = .next (s.setCtx n { c with state := if runnable s n then .waiting else .idle, waitSince := s.tick })) ∧
    (c.state = .scheduled → c.sliceStart + c.m.slice ≤ s.tick → c.retiredAt ≠ some s.tick ∨ ctxResident s n = true ∨ ctxFlushing s n = true →
      let wanted : Prop := ∃ e ∈ s.ctxs, e.1 ≠ n ∧ ctxWaiter e.2 = true ∧ c.m.prio ≤ e.2.m.prio
      (wanted → exec (.sliceExpiry n) s = .next (startDrain s n 1)) ∧
      (¬ wanted → exec (.sliceExpiry n) s = .next (s.setCtx n { c with sliceStart := s.tick }))) ∧
    (c.state = .scheduled → s.tick < c.sliceStart + c.m.slice → exec (.sliceExpiry n) s = .next s) ∧
    (c.state = .scheduled → c.m.stall ≠ 0 → c.progress + c.m.stall ≤ s.tick → exec (.stallExpiry n) s = .next (startDrain s n 3)) ∧
    (c.state = .draining → c.drainStart + c.drainDeadline ≤ s.tick → ctxResident s n = true → exec (.deadlineExpiry n) s = .next (forceReset s n 1)) ∧
    (c.state = .draining → ctxResident s n = false →
      let first : Prop := c.drainReason = 1 ∧ c.retiredAt = some c.drainStart ∧ ctxFlushing s n = false
      let reason := c.drainReason % 256
      (first → exec (.drainEnd n) s = .next (s.setCtx n { c with state := if runnable s n then .waiting else .idle, waitSince := s.tick })) ∧
      ∀ s1 c1, ¬ first → agentWrite s n c.m.saverec.toNat (saveBytes s n (writeLayout s) reason c.drainStart) = .ok s1 → s1.ctx? n = some c1 →
        let s2 := (s1.setCtx n { c1 with state := .preempted, saved := some (writeLayout s, reason), waitSince := s1.tick,
                                         stallDrained := c1.stallDrained || reason == 3 }).bump .preempts n
        exec (.drainEnd n) s = .next (if 256 ≤ c.drainReason then forceReset s2 n 2 else s2))) ∧
  (∀ (s : State) (n reason : Nat) (c : Ctx), s.ctx? n = some c → ∃ c', (startDrain s n reason).ctx? n = some c' ∧ c'.state = .draining ∧
    c'.drainStart = s.tick ∧ c.m.deadline ≤ c'.drainDeadline ∧ c'.drainReason = reason + if reason = 3 ∧ c.stallDrained = true then 256 else 0) ∧
  (∀ (s : State) (n reason : Nat) (c : Ctx), s.ctx? n = some c → (c.state = .resetting → forceReset s n reason = s) ∧
    (c.state ≠ .resetting → KMap.get? s.dumps n = none → KMap.rising s.queues = true → KMap.rising s.tasks = true → KMap.rising s.teams = true →
      let t := forceReset s n reason
      (∀ q x, s.queue? q = some x → x.ctx = n → x.unmapping = false → ∃ y, t.queue? q = some y ∧ y = { x with act := .error 6, armFail := y.armFail }) ∧
      (∀ q x, s.queue? q = some x → x.ctx ≠ n → t.queue? q = some x) ∧
      (∀ e ∈ t.copies, e.2.ctx ≠ n) ∧ (∀ e ∈ t.migrations, e.2.ctx ≠ n ∨ e.2.repair = true) ∧
      (∀ k m m', s.team? k = some m → m.ctx = n → t.team? k = some m' → m'.dying = true) ∧
      (∀ slot k, s.task? slot = some k → k.ctx = n → k.stage = .waiting → t.task? slot = none) ∧
      (∀ slot k, s.task? slot = some k → k.ctx = n → k.stage ≠ .waiting → ∃ k', t.task? slot = some k' ∧ k'.forced = true ∧
        (k.stage = .running → k'.estat = 4 ∧ k'.errCode = 0xFB ∧ k'.fault = none ∧ k'.relaunch = [])) ∧
      ((∃ e ∈ s.tasks, e.2.ctx = n ∧ e.2.stage ≠ .waiting) → ∃ c', t.ctx? n = some c' ∧ c'.state = .resetting ∧ c'.drainReason = reason) ∧
      ((∀ e ∈ s.tasks, e.2.ctx = n → e.2.stage = .waiting) → (∃ c', t.ctx? n = some c' ∧ c'.state = .idle ∧ c'.saved = none) ∧
        t.count .resets n = s.count .resets n + 1#64 ∧ ∀ e ∈ t.tlb, e.ctx ≠ n))) ∧
  (∀ (s : State) (n : Nat) (c : Ctx), admitChoice s = some (n, c) → s.halted = false → s.fw.activating = none →
    ((s.ctxs.filter fun e => ctxMember e.2).length < 16 →
      exec .contextAdmit s = .next (s.setCtx n { c with state := .scheduled, sliceStart := s.tick, progress := s.tick, saved := none })) ∧
    (∀ m d, 16 ≤ (s.ctxs.filter fun e => ctxMember e.2).length → drainChoice s = some (m, d) → d.m.prio < c.m.prio →
      (∀ e ∈ s.ctxs, e.2.state ≠ .draining) → exec .contextAdmit s = .next (startDrain s m 2)))

/-! ### Queues -/

/-- R387 to R391: what each packet does whose queue acts on it: TASK waits for acceptance; WAITV waits for its word; SIGNAL makes one event;
COND skips or takes an arm; COPY and MIGRATE are queued; MARK records or invalidates, once the issues in flight are
done with the translations they took. A waiting queue goes on, or stops with its error; a blocked one goes on once its tail word has been
written with another value (log entry 96).
R391: the copy unit moves the bytes of a copy in increasing order, waits where a task holds one, and at the end or at a fault makes
the copy's signal update.
Where the rules leave a point open it rests on the model's choices of log entries 44, 47, 48, 49 and 79. -/
def Obligations.QueuePackets : Prop :=
  ((∀ (s : State) (q : Nat) (after : Bool) (x : Queue), actingOn s q after = some x →
     (∀ record, record.toNat % 8 = 0 → exec (.task q after record) s = .next (s.setQueue q { x with act := .task record s.tick })) ∧
     (∀ p timeout, p.addr.toNat % 8 = 0 → exec (.waitv q after p timeout) s = .next (s.setQueue q { x with
       act := .waitv p (if timeout = 0#64 then none else some (s.tick + timeout.toNat)) })) ∧
     (∀ addr value set pa leaf, addr.toNat % 8 = 0 → agentXlat s x.ctx addr.toNat .write = .ok pa leaf →
       let s1 := recallLines (correctAt s x.ctx addr.toNat pa leaf 8) pa 8 (.of x.ctx)
       memPoisoned s1 pa 8 = false →
       exec (.signal q after addr value set) s = .next (packetDone (homeStore s1 pa (leBytes 8 (sigsNew set value.toNat (memNat s1 pa 8)))) q)) ∧
     (∀ (p : CmpPacket) (n m t v : Nat) (packets : List (List Nat)), p.addr.toNat % 8 = 0 → n ≤ 8 → m ≤ 8 → x.arm = none → readTail s x = some t → x.head + 1 + n + m ≤ t →
       armsFetch s q x (n + m) = .ok packets → readWord s x.ctx p.addr = some v →
       let isElse := !cmpHolds p v
       let len := if isElse then m else n
       let s1 := agentCorrect (queueCorrect s x (x.head + 1) (n + m)) x.ctx p.addr.toNat 8
       (len = 0 → exec (.cond q after p n m) s = .next (advanceHead s1 q (1 + n + m))) ∧
       (len ≠ 0 → exec (.cond q after p n m) s = .next (s1.setQueue q { x with arm := some { isElse, pos := 1, nThen := n, nElse := m, packets } }))) ∧
     (∀ a i, x.arm = some a → decodePacket q a.current = some i → queueTurn s q = .act i s) ∧
     (∀ p, p.sig.toNat % 8 = 0 →
       exec (.copy q after p) s = .next (packetDone { s with copies := KMap.put s.copies s.nextCopy { ctx := x.ctx, p, done := 0, fault := 0, stopped := false },
                                                             nextCopy := s.nextCopy + 1 } q) ∧
       exec (.copyMigrate q after p) s = .next (packetDone { s with migrations := KMap.put s.migrations s.nextCopy ⟨x.ctx, p, false⟩,
                                                                    nextCopy := s.nextCopy + 1 } q)) ∧
     (∀ tag, exec (.markTrace q after tag 0#64) s = .next (packetDone (trace s x.ctx 0 8#4 (TraceRec.plain 4 (w64 (tag.toNat + 2 ^ 32 * q)))) q) ∧
       (purgeHeld s x.ctx = true → exec (.markInvalidate q after tag 0#64) s = .next s) ∧
       (purgeHeld s x.ctx = false → let t := invalidate s x.ctx
         exec (.markInvalidate q after tag 0#64) s = .next (packetDone t q) ∧
         ((∀ ref ∈ gangsOf s x.ctx, ∀ g, s.gang? ref = some g → g.unclass = none ∧ g.late = none ∧ g.block = none) →
           t = { s with tlb := t.tlb, walks := t.walks, walkCache := t.walkCache } ∧ (∀ e, e ∈ t.tlb ↔ e ∈ s.tlb ∧ e.ctx ≠ x.ctx) ∧
           ∀ e, e ∈ t.walkCache ↔ e ∈ s.walkCache ∧ e.ctx ≠ x.ctx)))) ∧
   (∀ (s : State) (q : Nat) (x : Queue), s.queue? q = some x →
     (∀ at_ pa leaf v, x.act = .blocked → x.seen = some (at_, v) → ownPlace s x.ctx x.d.tailAddr.toNat = some (pa, leaf) →
       exec (.queueWake q) s = .next (if memNat s pa 8 ≠ v then s.setQueue q { x with act := .acting } else s)) ∧
     (∀ p lim v, x.act = .waitv p lim → ctxFrozen s x.ctx = false → readWord s x.ctx p.addr = some v →
       let s1 := agentCorrect s x.ctx p.addr.toNat 8
       (cmpHolds p v = true → exec (.waitvSatisfied q) s = .next (packetDone s1 q)) ∧ (cmpHolds p v = false → exec (.waitvSatisfied q) s = .next s1)) ∧
     (∀ p t, x.act = .waitv p (some t) → (t ≤ s.tick → ctxFrozen s x.ctx = false → exec (.waitvTimeout q) s = .next (queueError s q 0x03)) ∧
       (s.tick < t → exec (.waitvTimeout q) s = .next s))) ∧
   (∀ (p : CmpPacket) (v : Nat), cmpHolds p v = true ↔
     (p.op % 4 = 0 ∧ v &&& p.mask.toNat = p.value.toNat) ∨ (p.op % 4 = 1 ∧ v &&& p.mask.toNat ≠ p.value.toNat) ∨
     (p.op % 4 = 2 ∧ p.value.toNat ≤ v &&& p.mask.toNat) ∨ (p.op % 4 = 3 ∧ v &&& p.mask.toNat < p.value.toNat)) ∧
   (∀ (s : State) (q : Nat) (x : Queue), s.queue? q = some x → x.arm = none →
     (∀ s', agentWrite s x.ctx x.d.headAddr.toNat (leBytes 8 (x.head + 1)) = .ok s' →
       packetDone s q = s'.setQueue q { x with head := x.head + 1, arm := none, armFail := none, act := .acting }))) ∧
  ((∀ (s : State) (id count : Nat) (c : CopyOp), KMap.get? s.copies id = some c → s.halted = false → anyStop s c.ctx = false →
     (∀ s1 k, copyBytes s c.ctx c.p count c.done = (s1, k, none) → k < c.p.len →
       exec (.copyTransfer id count) s = .next { s1 with copies := KMap.put s1.copies id { c with done := k } }) ∧
     (∀ s1 k, copyBytes s c.ctx c.p count c.done = (s1, k, none) → c.p.len ≤ k →
       exec (.copyTransfer id count) s = .next (copyFinish { s1 with copies := KMap.del s1.copies id } c.ctx c.p.sig 0 0)) ∧
     (∀ s1 k cause addr, copyBytes s c.ctx c.p count c.done = (s1, k, some (cause, addr)) →
       exec (.copyTransfer id count) s = .next (copyFinish { s1 with copies := KMap.del s1.copies id } c.ctx c.p.sig cause addr))) ∧
   (∀ (s s1 : State) (ctx : Nat) (p : CopyPacket) (k a b : Nat) (la lb : W64), l1Ok s.l1 →
     agentXlat s ctx ((p.src.toNat + k) % 2 ^ 64) .read = .ok a la → agentXlat s ctx ((p.dst.toNat + k) % 2 ^ 64) .write = .ok b lb →
     copyByte s ctx p k = .ok s1 → ∀ pa, memByte s1 pa = if pa = b then memByte s a else memByte s pa))

/-! ### Tasks -/

/-- R330, R331, R334, R336 to R340, R344 to R349: acceptance puts a task whose record passes every check into a slot and writes SLOT and
STATUS; a dependence is met once COUNT reaches NEED; the start edge waits for every dependence, every earlier conflicting task and the
deferred requests; the flush acts line by line: owned copies of shared pages are written back, and FORWARD lines enter the die-level caches;
the end edge drops the task's lines and releases it: its slot is free, every deferred request that is free is performed, STATUS and DONESIG
are made.
Where the rules leave a point open it rests on the model's choices: log entries 50, 51 (the task's record on the trace stream), 52, 77 and 82
(what the start edge takes of the code). -/
def Obligations.TaskEdges : Prop :=
  (∀ (s : State) (q slot since : Nat) (x : Queue) (addr : W64) (bs : List Byte), s.queue? q = some x → x.act = .task addr since → freeTaskSlot s = some slot →
    s.halted = false → s.fw.activating = none → s.ckptRun = none → (∃ c, s.ctx? x.ctx = some c) → acceptTurn s q since = true →
    cleanRead s x.ctx addr.toNat 256 = some bs →
    let s1 := recordCorrect s x.ctx addr.toNat bs
    (∀ r, launchCheck s1 x.ctx addr.toNat bs = .ok r → exec (.taskAccept q) s = .next (packetDone (accept s1 q slot x.ctx r) q)) ∧
    (∀ st, launchCheck s1 x.ctx addr.toNat bs = .error st → ∃ t, exec (.taskAccept q) s = .next (packetDone t q) ∧
      t = doneSignal (recordWrite s1 0 x.ctx (recordOf addr.toNat bs).taskid (addr.toNat + 0x68) (leBytes 8 (statusWord st 0 none))) x.ctx
        (recordOf addr.toNat bs) 0 0xFC true)) ∧
  (∀ (s s1 s2 : State) (q slot ctx : Nat) (r : TaskRec), agentWrite s ctx (r.addr + 0x49) [BitVec.ofNat 8 slot] = .ok s1 →
    agentWrite s1 ctx (r.addr + 0x68) (leBytes 8 1) = .ok s2 →
    let t := accept s q slot ctx r
    (∀ pa, memByte t pa = memByte s2 pa) ∧ t.task? slot = some (Task.fresh r ctx q s2.nextOrder .waiting) ∧ t.nextOrder = s2.nextOrder + 1 ∧
    (∀ k, k ≠ slot → t.task? k = s2.task? k) ∧ ∀ c, s2.ctx? ctx = some c → ∃ c', t.ctx? ctx = some c' ∧
      c'.state = if c.state = .idle then .waiting else c.state) ∧
  (∀ (s : State) (ctx va pa : Nat) (bs : List Byte) (leaf : W64), l1Ok s.l1 → agentXlat s ctx va .write = .ok pa leaf →
    va % 4096 + bs.length ≤ 4096 → bs ≠ [] → ∃ t, agentWrite s ctx va bs = .ok t ∧
      ∀ a, memByte t a = if pa ≤ a ∧ a < pa + bs.length then bs.getD (a - pa) 0#8 else memByte s a) ∧
  (∀ (s : State) (ctx info err pa : Nat) (r : TaskRec) (set : Bool) (leaf : W64), l1Ok s.l1 → r.donesig ≠ 0#64 → r.donesig.toNat % 8 = 0 →
    agentXlat s ctx r.donesig.toNat .write = .ok pa leaf → memPoisoned s pa 8 = false → err < 256 →
    let t := doneSignal s ctx r info err set
    memNat t pa 8 = sigUpdate err (memNat s pa 8) set ∧ ∀ a, a < pa ∨ pa + 8 ≤ a → memByte t a = memByte s a) ∧
  (∀ (s : State) (slot : Nat) (t : Task), ∃ s1 s2 s3 : State,
    let word := statusWord 1 t.outcome.1 t.fault
    s1 = performReleased { s with tasks := KMap.del s.tasks slot } s.deferral.length ∧
    (∀ x, agentWrite s1 t.ctx (t.rec_.addr + 0x68) (leBytes 8 word) = .ok x → ∀ y, t.rec_.deterministic = true →
      agentWrite x t.ctx (t.rec_.addr + 0x60) (leBytes 8 (max t.rec_.teamtime.toNat t.longest)) = .ok y → s2 = y) ∧
    (∀ x, agentWrite s1 t.ctx (t.rec_.addr + 0x68) (leBytes 8 word) = .ok x → t.rec_.deterministic = false → s2 = x) ∧
    s3 = noteEnded (traceTask (taskEnd s2 slot t.outcome.1 t) t.ctx 0 t.rec_.taskid 1 0) t ∧
    release s slot t = settleCtx (noteProgress (doneSignal s3 t.ctx t.rec_ slot t.outcome.2 t.fault.isNone) t.ctx) t.ctx) ∧
  (∀ (s : State) (ix : Nat), released (performReleased s s.deferral.length) ix = false) ∧
  (∀ (s : State) (t : Task) (g : Region) (line pa : Nat) (leaf : W64), s.memOk = true → l1Ok s.l1 →
    ownPlace s t.ctx (g.base + 128 * line) = some (pa, leaf) →
    let s' := flushAct s t g line
    (∀ a, memByte s' a = memByte s a) ∧
    (t.classOf ((g.base + 128 * line) / 4096) = .shared → ∀ l ∈ s'.l1, l.line = pa / 128 → l.owned = false) ∧
    (g.forward = true → ∀ d, d < 2 → g.fwddie = d ∨ 2 ≤ g.fwddie → BitSet.has s'.dieCache (2 * (pa / 128) + d) = true)) ∧
  (∀ (s : State) (slot dep : Nat) (t : Task) (d : Dep) (x : Nat), s.task? slot = some t → t.rec_.deps[dep]? = some d → t.stage = .waiting →
    d.sigaddr ≠ 0#64 → BitSet.has t.depsMet dep = false → paused s t.ctx = false → readWord s t.ctx d.sigaddr = some x →
    let stops : Prop := d.stoperr = true ∧ sigErr x ≠ 0
    let s1 := agentCorrect s t.ctx d.sigaddr.toNat 8
    (stops → exec (.dependenceRead slot dep) s = .next (endWithoutEdges s1 slot 3 0xFD)) ∧
    (¬ stops → d.need ≤ sigCount x → exec (.dependenceRead slot dep) s = .next (s1.setTask slot { t with depsMet := BitSet.put t.depsMet dep true })) ∧
    (¬ stops → sigCount x < d.need → exec (.dependenceRead slot dep) s = .next s1)) ∧
  (∀ (s : State) (slot : Nat) (t : Task), s.task? slot = some t → t.stage = .waiting → s.halted = false → paused s t.ctx = false →
    let ready : Prop := depsDone t = true ∧ deferredInto s t = false ∧ ∀ e ∈ s.tasks, e.2.order < t.order → tasksConflict s e.2 t = false
    (ready → exec (.startEdge slot) s =
      .next (traceTask { s.setTask slot { t with stage := .running, classes := [], follows := followsOf s t, codeBase := codeBaseOf s (followsOf s t) } with icache := [] } t.ctx 0 t.rec_.taskid 0 0)) ∧
    (¬ ready → exec (.startEdge slot) s = .next s)) ∧
  (∀ (s : State) (slot k l : Nat) (t : Task), s.task? slot = some t → t.stage = .flushing k l → flushRuns s t = true →
    (cursorFrom t 65 k l = none → exec (.flushLine slot) s = .next (flushDone s slot t)) ∧
    (∀ j m g, cursorFrom t 65 k l = some (j, m) → t.rec_.regions[j]? = some g →
      exec (.flushLine slot) s = .next (match cursorFrom t 65 j (m + 1) with
        | none => flushDone (flushAct s t g m) slot t
        | some (j', m') => (flushAct s t g m).setTask slot { t with stage := .flushing j' m', flushStopped := false }))) ∧
  (∀ (s : State) (ctx line : Nat), l1Ok s.l1 → s.memOk = true → ∀ pa, memByte (writeBackOwned s ctx line) pa = memByte s pa) ∧
  (∀ (s : State) (slot : Nat) (t : Task), s.task? slot = some t → t.stage = .flushed → anyStop s t.ctx = false →
    let s1 := dropLines s fun l => l.slot == slot
    let digest : Prop := t.rec_.digest = true ∧ t.outcome.1 = 1
    (¬ digest → exec (.endEdgeFinish slot) s = .next (release s1 slot t)) ∧
    (digest → t.rerun = true → exec (.endEdgeFinish slot) s = .next (release ((writeDigref s1 slot t).bump .reexec t.ctx) slot t)) ∧
    (digest → t.rerun = false → t.rec_.refset = false → exec (.endEdgeFinish slot) s = .next (release (writeDigref s1 slot t) slot t)) ∧
    (digest → t.rerun = false → t.rec_.refset = true → exec (.endEdgeFinish slot) s =
      .next (if t.digest = t.rec_.digref then release s1 slot t else if t.forced then release (logMismatch s1 slot t) slot t
        else rerunTask s1 slot t)))

/-! ### The host's commands -/

/-- R373, R374, R386, R387, R390, R393, R396, R397, R399, R400, R414, R415, R420: each command on contexts, queues, keys, windows, worlds and
rings, given in an open session that may name what it names, within the limits of its fields, does what its row says and is answered
as accepted; nothing else changes. Limits and states outside are refused, and then only the answer is new.
Where the rules leave a point open it rests on the model's choices: log entries 58, 59, 68 (WINSET's BOUND and its binding of the queue pair)
and 83 (what TRACESET writes of an earlier stream). What a forced reset does is stated in Obligations.Scheduling. -/
def Obligations.ManagementCommands : Prop :=
  ∀ (s : State) (n : Nat) (x : Session), KMap.get? s.sessions n = some x → s.halted = false → s.fw.recovery = false →
    let ok (i : Instr) (t : State) : Prop := exec i s = .next (answer t .ok)
    let no (i : Instr) (why : String) : Prop := exec i s = .next (answer s (.refused why))
    (∀ (ctx : Nat) (p : CtxFields), mayName s x ctx = true → (p.secure = true → x.secure = true) → fieldsOk s ctx p = true →
      (s.ctx? ctx = none → ok (.ctxset n ctx (some p)) (setErrRing ({ s with
        agents := KMap.del s.agents ctx
        counters := ctxCounters.foldl (fun m (c : Counter) => KMap.del m (c.key ctx)) s.counters }.setCtx ctx
          { Ctx.fresh .idle p s.tick with debug := KMap.get? s.agents ctx }) ctx p.errlog.toNat)) ∧
      (∀ c, s.ctx? ctx = some c → c.state = .idle ∨ (p.secure = c.m.secure ∧ p.coremask = c.m.coremask) → p.errlog = c.m.errlog →
        ok (.ctxset n ctx (some p)) (s.setCtx ctx { c with m := p }))) ∧
    (∀ (ctx : Nat) (p : CtxFields), mayName s x ctx = true → (p.secure = true → x.secure = true) → fieldsOk s ctx p = false →
      no (.ctxset n ctx (some p)) "LIMIT") ∧
    (∀ (ctx : Nat) (p : CtxFields), p.secure = true → x.secure = false → no (.ctxset n ctx (some p)) "WORLD") ∧
    (∀ ctx : Nat, no (.ctxset n ctx none) "FIELDS") ∧
    (∀ (ctx : Nat) (c : Ctx), mayName s x ctx = true → s.ctx? ctx = some c →
      ok (.ctxreset n ctx) (forceReset s ctx 3) ∧
      (c.state = .idle → ctxQueues s ctx = [] → ok (.ctxclear n ctx) { s with
        ctxs := KMap.del s.ctxs ctx
        agents := match Ctx.debug c with
          | some d => KMap.put s.agents ctx d
          | none => s.agents
        keys := s.keys.filter fun e => e.2.ctx != ctx
        windows := s.windows.filter fun e => e.2.ctx != ctx
        qps := s.qps.filter fun e => e.2.ctx != ctx
        telModule := if s.telModule = some ctx then none else s.telModule }) ∧
      (c.state ≠ .idle ∨ ctxQueues s ctx ≠ [] → no (.ctxclear n ctx) "STATE") ∧
      (∀ q p bs, q < 32 → s.queue? q = none → descriptorOk p = true → agentRead s ctx p.headAddr.toNat 8 = .ok bs →
        ok (.qmap n q ctx p) (s.setQueue q { ctx, d := p, head := leVal bs, act := .acting, arm := none, armFail := none, unmapping := false })) ∧
      (∀ k ring mods, 10 ≤ k → k ≤ 24 → ring.toNat % 64 = 0 → (mods = true → s.telModule = none ∨ s.telModule = some ctx) →
        let r := setRing s ctx ring.toNat 1
        ok (.telset n k ctx ring mods) { r.2 with
          ctxs := KMap.modify r.2.ctxs ctx fun c => { c with telRing := some r.1, telMods := mods }
          telInterval := some k
          telModule := if mods then some ctx else if r.2.telModule = some ctx then none else r.2.telModule }) ∧
      (∀ die ring en iv, die < 2 → 10 ≤ iv → iv ≤ 24 → ring.toNat % 64 = 0 →
        let r := setRing (traceReady s ctx die) ctx ring.toNat 2 die
        ok (.traceset n ctx die ring en iv)
          (traceTime { r.2 with ctxs := KMap.modify r.2.ctxs ctx fun c => { c with trace := KMap.put c.trace die ⟨r.1, en, iv⟩ } } ctx die))) ∧
    (∀ ctx, exec (.ctxquery n ctx) s = .next (answer s (.words (ctxWords (s.ctx? ctx))))) ∧
    (∀ (q : Nat) (d : Queue), s.queue? q = some d → mayName s x d.ctx = true →
      (d.act = .blocked ∨ (∃ e, d.act = .error e) → ok (.qunmap n q) { s with queues := KMap.del s.queues q }) ∧
      (d.act = .acting → ok (.qunmap n q) (s.setQueue q { d with unmapping := true })) ∧
      (∀ e, d.act = .error e → ok (.qresume n q false) (s.setQueue q { d with act := .acting, armFail := none }) ∧
        ok (.qresume n q true) (packetDone (s.setQueue q { d with act := .acting, armFail := none }) q)) ∧
      (d.act = .acting ∨ d.act = .blocked → ∀ b, no (.qresume n q b) "STATE")) ∧
    (∀ (key : W32) (e : KeyEntry) (c : Ctx), KMap.get? s.keys key.toNat = none → s.ctx? e.ctx = some c → mayName s x e.ctx = true → e.secure = c.m.secure →
      s.keys.length < 4096 → ok (.keyset n key (some e)) { s with keys := KMap.put s.keys key.toNat e }) ∧
    (∀ (key : W32) (e : KeyEntry), KMap.get? s.keys key.toNat = some e → mayName s x e.ctx = true →
      ok (.keyset n key none) { s with keys := KMap.del s.keys key.toNat }) ∧
    (∀ (w : Nat) (e : WindowEntry), (∀ o, KMap.get? s.windows w = some o → mayName s x o.ctx = true) → mayName s x e.ctx = true →
      (∀ p ∈ s.peers, p.2.window ≠ w) →
      (windowOk w e = true → qpFree s e.qp e.port e.ctx = true → ok (.winset n w (some e))
        { s with windows := KMap.put s.windows w e, qps := KMap.put s.qps e.qp ⟨e.port, e.ctx⟩ }) ∧
      (windowOk w e = true → qpFree s e.qp e.port e.ctx = false → no (.winset n w (some e)) "BOUND") ∧
      (windowOk w e = false → no (.winset n w (some e)) "LIMIT") ∧
      ok (.winset n w none) { s with windows := KMap.del s.windows w }) ∧
    (∀ (rs : List SecRange) (cores : LaneMask), x.secure = true → rs.length ≤ 16 → rs.all rangeOk = true →
      (∀ e ∈ s.teams, ∀ h ∈ e.2.halves, (s.secureCores ^^^ cores).getLsbD h.core = false) →
      ok (.secset n rs cores) { s with secure := rs, secureCores := cores }) ∧
    (∀ (rs : List SecRange) (cores : LaneMask), x.secure = false → no (.secset n rs cores) "WORLD")

/-- R412, R414, R425 to R433: a session attaches as the agent of a context, made or FREE, sets its debug registers, reads and writes the pieces of a stopped
gang and releases it; a dump pauses its context, each die stops and then records its state, in either order, and the second ends the dump.
LOGREAD answers the entries of the module log from a number on.
Where the rules leave a point open it rests on the model's choices: log entries 53, 55, 56 and 85 (when the hold of a dump ends, and that a
second DUMP may follow one that is over). -/
def Obligations.DebugCommands : Prop :=
  (∀ (s : State) (n ctx : Nat) (x : Session) (c : Ctx), KMap.get? s.sessions n = some x → s.halted = false → s.fw.recovery = false →
    mayName s x ctx = true → s.ctx? ctx = some c →
    let ok (i : Instr) (t : State) : Prop := exec i s = .next (answer t .ok)
    (c.debug = none → ctx < 64 → ok (.dbgattach n ctx) (s.setCtx ctx { c with debug := some { session := n, bp := [], dw := [], sw := [] } })) ∧
    (c.debug ≠ none → ctx < 64 → exec (.dbgattach n ctx) s = .next (answer s (.refused "AGENT"))) ∧
    (∀ d, c.debug = some d → d.session = n →
      ok (.dbgdetach n ctx) (dumpRelease (releaseAll (s.setCtx ctx { c with debug := none }) ctx) ctx) ∧
      ∀ item v, debugOk d item v = true → ok (.dbgset n ctx item v) (s.setCtx ctx { c with debug := some (setDebug d item v) })) ∧
    (∀ ref g p, stoppedGang s ctx ref = some (g, p) →
      (∀ item, itemOk g item = true → exec (.gstate n ctx ref item) s = .next (answer s (.words (itemRead g item)))) ∧
      (∀ k l v, k < g.regs → l < g.width → (g.fills.any fun f => f.writes.any fun y => y.meets (.v k l v 0#2)) = false → ∃ g',
        ok (.gset n ctx ref (.v k l) v) (s.setGang ref g') ∧ KMap.get g'.v 0#64 (k * g.width + l) = v ∧
        RegsKept g g' (fun c => c = k * g.width + l) (fun _ => False) (fun _ _ => False) (fun _ => False) ∧ SpecialsKept g g' ∧ g'.pc = g.pc) ∧
      (∀ l v, l < g.width → v.toNat % 4 = 0 → ok (.gset n ctx ref (.pc l) v) (s.setGang ref { g with pc := KMap.set g.pc 0#64 l v })) ∧
      (∀ k v, k < 32 → exec (.gset n ctx ref (.lent k) v) s = .next (answer s (.refused "LIMIT"))) ∧
      (∀ step, ok (.grelease n ctx ref step) (dumpRelease (s.setGang ref (g.released step)) ctx))) ∧
    (∀ ref item, stoppedGang s ctx ref = none → exec (.gstate n ctx ref item) s = .next (answer s (.refused "RUNNING"))) ∧
    (∀ area hold, c.state = .scheduled ∨ c.state = .draining ∨ c.state = .preempted → (∀ e, KMap.get? s.dumps ctx = some e → e.ended = true) → s.fw.activating = none →
      let d : Dump := { area, hold, t0 := s.tick, stop0 := false, stop1 := false, cut0 := false, cut1 := false, records := [], held := [],
                        ended := false }
      ok (.dump n ctx area hold) (beginDump s ctx d) ∧ (KMap.get? s.dumps ctx = none → beginDump s ctx d = { s with dumps := KMap.put s.dumps ctx d }))) ∧
  (∀ (s : State) (n ctx : Nat) (x : Session), KMap.get? s.sessions n = some x → s.halted = false → s.fw.recovery = false → s.ctx? ctx = none →
    ctx < 64 → KMap.get? s.agents ctx = none →
    exec (.dbgattach n ctx) s = .next (answer { s with agents := KMap.put s.agents ctx { session := n, bp := [], dw := [], sw := [] } } .ok)) ∧
  (∀ (s : State) (ctx : Nat) (d : Dump), KMap.get? s.dumps ctx = some d →
    (d.stop0 = false → exec (.dumpDieCut ctx 0) s = .next { s with dumps := KMap.put s.dumps ctx { d with stop0 := true } }) ∧
    (d.stop1 = false → exec (.dumpDieCut ctx 1) s = .next { s with dumps := KMap.put s.dumps ctx { d with stop1 := true } }) ∧
    (d.stop0 = true → d.cut0 = false → dieQuiet s ctx 0 = true →
      let d' := { d with records := d.records ++ dieRecords s ctx 0, cut0 := true }
      let s' : State := { s with dumps := KMap.put s.dumps ctx d' }
      exec (.dumpDieCut ctx 0) s = .next (if d.cut1 then endDump s' ctx d' else s')) ∧
    (d.stop1 = true → d.cut1 = false → dieQuiet s ctx 1 = true →
      let d' := { d with records := d.records ++ dieRecords s ctx 1, cut1 := true }
      let s' : State := { s with dumps := KMap.put s.dumps ctx d' }
      exec (.dumpDieCut ctx 1) s = .next (if d.cut0 then endDump s' ctx d' else s')) ∧
    (∀ die, die < 2 → (if die = 0 then d.stop0 else d.stop1) = true → dieQuiet s ctx die = false → exec (.dumpDieCut ctx die) s = .next s)) ∧
  (∀ (s : State) (n k : Nat) (x : Session), KMap.get? s.sessions n = some x → s.modLogCount = s.modLog.length →
    exec (.logread n k) s = .next (answer s (.bytes ((s.modLog.drop k).flatMap LogEntry.bytes))))

/-- R435 to R441, R444, R445, R447 to R450: a session opens when an owner key has signed the challenge and the host's
ephemeral key is a point of the curve, and its keys are agreed; the commands on slots, the configuration,
activation, identity, status and attestation; a checkpoint writes back and drops every line, keeps an image, and a restore loads it;
the chunks of a remote one, each with its poison map, are sent one by one to the targets in turn, and a refused one abandons it.
Where the rules leave a point open it rests on the model's choices: log entries 8, 9, 61, 62, 64, 65, 68 (the session keys, and the refusal of a
host's key that is no point of the curve) and 95 (the bytes of a remote header). -/
def Obligations.FirmwareCommands : Prop :=
  (∀ (s : State) (n k : Nat) (key sig host hostKey : List Byte) (secure : Bool), s.fw.config.owners[k]? = some (key, secure) →
    n < 16 → KMap.get? s.sessions n = none →
    let s1 : State := { s with challenge := Config.challenge s.freeCtr, freeCtr := s.freeCtr + 1 }
    let d := ecSecret (Config.ephemeral s.freeCtr)
    (ecVerify key s.challenge sig = true → ecOnCurve hostKey = true → exec (.sessionOpen n k sig ⟨host, hostKey⟩) s =
      .next (answer { s1 with sessions := KMap.put s.sessions n { secure, ownerKey := k, keys := sessionKeys d hostKey } }
        (.bytes (identitySign host ++ ecPublic d)))) ∧
    (ecVerify key s.challenge sig = false ∨ ecOnCurve hostKey = false →
      exec (.sessionOpen n k sig ⟨host, hostKey⟩) s = .next (answer s1 (.refused "OWNER")))) ∧
  (∀ (s : State) (n : Nat) (x : Session), KMap.get? s.sessions n = some x →
    let ok (i : Instr) (t : State) : Prop := exec i s = .next (answer t .ok)
    exec (.ident n) s = .next (answer s (.bytes (identityKey ++ Config.identityCert))) ∧
    (∃ l, exec (.status n) s = .next (answer s (.words l)) ∧ l.length = 10 ∧ l.getD 3 0#64 = s.fw.selector ∧ l.getD 5 0#64 = w64 s.ckptStatus) ∧
    (x.secure = true → exec (.reset n) s = .next (moduleReset (answer s .ok))) ∧
    (x.secure = false → exec (.reset n) s = .next (answer s (.refused "WORLD"))) ∧
    (∀ slotB off bs, x.secure = true → (s.fw.running = slotB → s.fw.recovery = true) → s.ckptRun = none → s.fw.activating = none → off % 4096 = 0 → off ≠ 0 →
      off + bs.length ≤ 0x4000000 → ok (.slotwrite n slotB off bs) { s with fw := flashPut s.fw (slotBase slotB + off) bs }) ∧
    (∀ slotB bs, x.secure = true → (s.fw.running = slotB → s.fw.recovery = true) → s.ckptRun = none → s.fw.activating = none → bs.length ≤ 0x4000000 →
      let erased := s.fw.flash.filter fun e => !(slotBase slotB ≤ e.1 && e.1 < slotBase slotB + 0x4000000)
      ok (.slotwrite n slotB 0 bs) { s with fw := flashPut { s.fw with flash := erased } (slotBase slotB) bs }) ∧
    (s.halted = false → s.fw.recovery = false →
      (∀ nonce, nonce.length = 32 → exec (.attest n nonce) s =
        .next (answer s (.bytes (attestReport s nonce ++ identitySign (attestReport s nonce))))) ∧
      (x.secure = true →
        (selTrial s.fw.selector = true → ∃ t, ok (.commit n) t ∧ t = { s with fw := { s.fw with selector := t.fw.selector, floor := t.fw.floor } } ∧
          selTrial t.fw.selector = false ∧ selTried t.fw.selector = false ∧ selPref t.fw.selector = selPref s.fw.selector ∧
          t.fw.floor.toNat = max s.fw.floor.toNat s.fw.header.version.toNat) ∧
        (selTrial s.fw.selector = false → exec (.commit n) s = .next (answer s (.refused "TRIAL"))) ∧
        (∀ copy1 bs, configAuth s.fw (!copy1) = true → bs.length ≤ 0x100000 → ∃ t, ok (.cfgwrite n copy1 bs) t ∧ t = { s with fw := t.fw } ∧
          t.fw.selector = s.fw.selector ∧ t.fw.running = s.fw.running) ∧
        (∀ slotB, slotAuth s.fw slotB = true → s.fw.running ≠ slotB → s.ckptRun = none →
          unlisted s (slotLayouts s.fw slotB) = [] → ok (.activate n slotB false)
            (drainAll { s with fw := { s.fw with activating := some (slotB, false) } })) ∧
        (ckptOk s = true →
          let s1 := collect (ckptCut (ckptMarks s))
          ok (.ckptLocal n) { s1 with image := some (imageOf s1 s1.tick), ckptStatus := 2 } ∧
          ∀ ts, targetsOk ts = true → ok (.ckptRemote n ts) (sendChunk { s1 with
            image := some (imageOf s1 s1.tick)
            ckptStatus := 1
            remote := s1.remote.filter fun r => !r.targets.any ts.contains
            ctxs := s1.ctxs.map fun e => (e.1, { e.2 with frozen := true })
            ckptRun := some { targets := ts, chunk := 0, restore := false, held := [], t0 := s1.tick,
                              far := s1.mem.filter fun e => isFar e.1 } })) ∧
        ((∀ i, s.image = some i → restorable s i = true →
            ok (.ckrestoreLocal n) (loadCkpt s i (s.mem.filter fun e => isFar e.1) (s.memPoison.filter fun e => isFar (4 * e.1)))) ∧
          (∀ m ts, (s.remote.find? fun r => r.targets == ts) = some m → targetsOk ts = true → restorable s m.image = true →
            ok (.ckrestoreRemote n ts) (sendChunk { s with
              ckptStatus := 1
              ckptRun := some { targets := ts, chunk := 0, restore := true, held := (s.ckptRun.map CkptRun.held).getD [], t0 := s.tick,
                                far := [] } })))))) ∧
  (∀ (s : State) (r : CkptRun), s.ckptRun = some r →
    exec (.ckptChunkResponse false) s = .next (ckptAbandon s r (chunkPort r)) ∧
    (r.chunk < ckptChunks → exec (.ckptChunkResponse true) s = .next (sendChunk
      { s.bump (if r.restore then .rxbytes else .txbytes) (chunkPort r) (66 * 2 ^ 20) with ckptRun := some { r with chunk := r.chunk + 1 } })) ∧
    (r.chunk = ckptChunks → r.restore = false → exec (.ckptChunkResponse true) s = .next (ckptEnd (s.bump .txbytes (chunkPort r) 4096) r))) ∧
  (∀ (s : State) (r : CkptRun) (t : CkptTarget), s.ckptRun = some r → (r.chunk < ckptChunks → r.targets[r.chunk % r.targets.length]? = some t) →
    (r.chunk = ckptChunks → r.targets[0]? = some t) → r.chunk ≤ ckptChunks → ∃ l,
    (sendChunk s).replies = s.replies ++ l.map Reply.rdma ∧ sendChunk s = { s with replies := (sendChunk s).replies } ∧
    (∀ o ∈ l, o.write = !r.restore ∧ o.port = t.port ∧ o.qp = t.qp ∧ o.key = t.key ∧ (r.restore = true → o.bytes = [])) ∧
    (r.chunk = ckptChunks → ∃ o, l = [o] ∧ o.addr = t.base - 4096#64 ∧ o.size = 4096) ∧
    (r.chunk < ckptChunks → let base := t.base + w64 (66 * 2 ^ 20 * (r.chunk / r.targets.length))
      ∃ a b, l = [a, b] ∧ a.addr = base ∧ a.size = 2 ^ 26 ∧ b.addr = base + w64 (2 ^ 26) ∧ b.size = 2 ^ 21 ∧
        (r.restore = false →
          (∀ k, k < 2 ^ 26 → KMap.get a.bytes memDefault k = KMap.get r.far memDefault (2 ^ 40 + 2 ^ 26 * r.chunk + k)) ∧
          ∀ i k, s.image = some i → k < 2 ^ 24 →
            (KMap.get b.bytes 0#8 (k / 8)).getLsbD (k % 8) = BitSet.has i.poison (2 ^ 38 + 2 ^ 24 * r.chunk + k)))) ∧
  (∀ (s : State) (pa : Nat), l1Ok s.l1 → memByte (collect s) pa = memByte s pa ∧ (collect s).l1 = [])

/-! ### Words, steps and the state after reset -/

/-- R8, R13 to R16, R22, R81: words of every class decode to the instructions they stand for. All but ROT, CHINV and RDTIME are worked
encodings of the spec. -/
def Obligations.DecodeWords : Prop :=
  decode 0x300401401001800000002008#96 = .ok (.fadd ⟨false, 1#3, 0x005#12, 0x004#12, 0x006#12, 0#32, true, false, false, false, false, false, 0#2, 0x08#6⟩) ∧
  decode 0x30DC01C0040080000000C408#96 = .ok (.ffma ⟨false, 7#3, 0x007#12, 0x001#12, 0x002#12, 3#32, false, false, false, true, false, false, 0#2, 0x08#6⟩) ∧
  decode 0x11DC00C00400800000000005#96 = .ok (.imax ⟨false, 7#3, 0x003#12, 0x001#12, 0x002#12, 0#32, false, false, false, false, false, false, 0#2, 0x05#6⟩) ∧
  decode 0x00440000000000000000C200#96 = .ok (.bra ⟨false, 1#3, 0#12, 0#12, 0#12, 3#32, false, false, false, false, true, false, 0#2, 0#6⟩) ∧
  decode 0x0044000000003FFFFFFCC200#96 = .ok (.bra ⟨false, 1#3, 0#12, 0#12, 0#12, 0xFFFFFFF3#32, false, false, false, false, true, false, 0#2, 0#6⟩) ∧
  decode 0x221C00400800C00000000000#96 = .ok (.rot ⟨false, 7#3, 0x001#12, 0x002#12, 0x003#12, 0#32, false, false, false, false, false, false, 0#2, 0#6⟩) ∧
  decode 0x425C0240100000000006001A#96 = .ok (.cvt ⟨false, 7#3, 0x009#12, 0x004#12, 0#12, 0x18#32, false, false, false, false, false, false, 0#2, 0x1A#6⟩) ∧
  decode 0x501C0180119E400000020038#96 = .ok (.shfl ⟨false, 7#3, 0x006#12, 0x004#12, 0x679#12, 8#32, false, false, false, false, false, false, 0#2, 0x38#6⟩) ∧
  decode 0x60DD96D96D9E404000000000#96 = .ok (.dvscl ⟨false, 7#3, 0x65B#12, 0x65B#12, 0x679#12, 0x01000000#32, false, false, false, false, false, false, 0#2, 0#6⟩) ∧
  decode 0x708400182000000000000000#96 = .ok (.mxop ⟨false, 1#3, 0#12, 0x608#12, 0#12, 0#32, false, false, false, false, false, false, 0#2, 0#6⟩) ∧
  decode 0x715C00196C00000000000000#96 = .ok (.toktake ⟨false, 7#3, 0#12, 0x65B#12, 0#12, 0#32, false, false, false, false, false, false, 0#2, 0#6⟩) ∧
  decode 0x80DC00000000000000000001#96 = .ok (.chinv ⟨false, 7#3, 0#12, 0#12, 0#12, 0#32, false, false, false, false, false, false, 0#2, 1#6⟩) ∧
  decode 0x901C014008003FFFFFFF0014#96 = .ok (.ld ⟨false, 7#3, 0x005#12, 0x002#12, 0#12, 0xFFFFFFFC#32, false, false, false, false, false, false, 0#2, 0x14#6⟩) ∧
  decode 0x919C01001400000000000011#96 = .ok (.ldp ⟨false, 7#3, 0x004#12, 0x005#12, 0#12, 0#32, false, false, false, false, false, false, 0#2, 0x11#6⟩) ∧
  decode 0xA0DD90981996400001820000#96 = .ok (.rowld ⟨false, 7#3, 0x642#12, 0x606#12, 0x659#12, 0x608#32, false, false, false, false, false, false, 0#2, 0#6⟩) ∧
  decode 0xB01C00185185400000000000#96 = .ok (.cpy ⟨false, 7#3, 0#12, 0x614#12, 0x615#12, 0#32, false, false, false, false, false, false, 0#2, 0#6⟩) ∧
  decode 0xB29C00181400000000000000#96 = .ok (.boa ⟨false, 7#3, 0#12, 0x605#12, 0#12, 0#32, false, false, false, false, false, false, 0#2, 0#6⟩) ∧
  decode 0xB19C0018119E400000004000#96 = .ok (.sigs ⟨false, 7#3, 0#12, 0x604#12, 0x679#12, 1#32, false, false, false, false, false, false, 0#2, 0#6⟩) ∧
  decode 0xC15C00400000000000000000#96 = .ok (.rdtime ⟨false, 7#3, 0x001#12, 0#12, 0#12, 0#32, false, false, false, false, false, false, 0#2, 0#6⟩)

/-- R8, R23, R81: decoding and encoding agree. Every well-formed form, with every operand at every value its encoding admits, is decoded from
its word; every word that decodes is the word of its instruction, which is well-formed; a word whose CLASS and OP no row assigns is the
row UNDEFINED_ENCODING, and one with a reserved field decodes to nothing. -/
def Obligations.DecodeEncode : Prop :=
  (∀ i : Instr, i.wf = true → ∀ w, encode i = some w → decode w = .ok i) ∧
  (∀ (i : Instr) (m : Form) (f : Fields), i.form = some (m, f) → encode i = some (wordOf m.cls m.op f) ∧
    (m.refuse f ≠ none → ∃ why, decode (wordOf m.cls m.op f) = .error why)) ∧
  (∀ (w : W96) (i : Instr), decode w = .ok i → i.wf = true ∧ encode i = some w) ∧
  (∀ w : W96, (∃ i m f, decode w = .ok i ∧ i.form = some (m, f)) → wordUnassigned w = false) ∧
  (∀ w : W96, wordUnassigned w = true → decode w = .ok (.undefinedEncoding w))

/-- R4, R10, R11, R270 (log entry 1): a step of a module without an agenda takes the oldest gang that can issue, fetches the word at its PC and
runs the decoded instruction; a word that is none raises ILLEGAL-OPCODE. The twelve bytes of the word received, the lowest first, are
those that memory holds but for the stores of tasks that it does not depend on, or, as a whole, those that the core received there before
in its task, or else those that the task's start edge found. Which of old and new it is is log entry 6's, what a task depends on log
entry 82's. -/
def Obligations.StepRunsTheDecodedInstruction : Prop :=
  (∀ (s : State) (ref : GangRef) (g : Gang) (who : Who) (task : Task) (pc : W64) (set : LaneMask) (word : W96) (s' : State),
    (s.agenda = [] ∧ pickGang s (fun _ => true) = some ref) → s.gang? ref = some g → s.who ref = some who → s.task? who.slot = some task →
    boundaryTrap g = none → g.chooseSet = some (pc, set) → fetchAt s ref.core task pc = .word word s' →
    (∀ i t, decode word = .ok i → exec i { s' with cur := some ref } = .next t → step s = .next (afterTry ref t)) ∧
    (∀ why, decode word = .error why → step s = .next (clearWaits (illegalWord s' ref who task pc set)))) ∧
  (∀ (s s1 : State) (core pa : Nat) (task : Task) (pc : W64) (leaf : W64) (now base : W96), pc.toNat % 4 = 0 → pc.toNat % 4096 + 12 ≤ 4096 →
    coreXlat s core task.ctx pc.toNat .exec = .done (.ok pa leaf) s1 →
    (∀ k, k < 12 → codeByte s1 task.sees (pa + k) = now.extractLsb' (8 * k) 8) →
    (∀ k, k < 12 → KMap.get task.codeBase memDefault (pa + k) = base.extractLsb' (8 * k) 8) →
    let old := (cachedWord s1 core task ((List.range 12).map (pa + ·))).getD base
    ∃ w t, fetchAt s core task pc = .word w t ∧ (w = old ∨ w = now) ∧
      t = { s1 with icache := t.icache, freeCtr := t.freeCtr, counters := t.counters, buckets := t.buckets } ∧
      (⟨core, task.order, pa, pa + 11, w⟩ : ICacheEntry) ∈ t.icache) ∧
  (∀ (s : State) (sees : Nat → Bool) (pa : Nat),
    (KMap.get s.codeBy [] pa = [] → codeByte s sees pa = memByte s pa) ∧
    (∀ l o b, KMap.get s.codeBy [] pa = l ++ [(o, b)] → sees o = true → codeByte s sees pa = memByte s pa) ∧
    (∀ l o b0 o' b rest, KMap.get s.codeBy [] pa = l ++ (o, b0) :: (o', b) :: rest → sees o = true → (∀ e ∈ (o', b) :: rest, sees e.1 = false) →
      codeByte s sees pa = b) ∧
    (∀ o b rest, KMap.get s.codeBy [] pa = (o, b) :: rest → (∀ e ∈ (o, b) :: rest, sees e.1 = false) → codeByte s sees pa = b)) ∧
  (∀ (s : State) (ref : GangRef), (∃ g, s.gang? ref = some g ∧ canTry s ref g = true) → ∃ r, pickGang s (fun _ => true) = some r)

/-- R3, R35, R62, R63, R252, R264, R437, R451: after reset no gang, team, task or context exists, no byte of memory is listed, every counter is 0, both
dies run at 600 MHz, and the next step is a tick. The invariant of memory holds. A gang is created with every register 0 and full, the
norm entries at the zero code, every lane at the code's start, and its control registers from the task record. These clauses are the model's
choice: NRSV (log entry 4), what every byte of memory reads, far memory's as well (5), the gang's trap registers (17), and that the next step is a
tick (1 and 15). -/
def Obligations.Reset : Prop :=
  State.reset.Inv ∧ State.reset.gangs = [] ∧ State.reset.teams = [] ∧ State.reset.tasks = [] ∧ State.reset.ctxs = [] ∧ State.reset.tick = 0 ∧
  State.reset.counters = [] ∧ State.reset.halted = false ∧ (∀ pa, memByte State.reset pa = memDefault) ∧
  (∀ c x, State.reset.count c x = 0#64) ∧ (∀ d, d < 2 → ∃ x, KMap.get? State.reset.dies d = some x ∧ x.mhz = 600 ∧ x.stopped = false) ∧
  step State.reset = .next { State.reset with tick := 1 } ∧
  (∀ (r : TaskRec) (team index half ix granule : Nat), r.width ≤ 64 →
    let g := newGang r team index half ix granule
    (∀ k l, g.vReg k l = 0#64) ∧ (∀ k, KMap.get g.s 0#64 k = 0#64) ∧ (∀ k l, k < 7 → g.predBit k l = false) ∧ (∀ l, g.predBit 7 l = true) ∧
    (∀ k, KMap.get g.n 0x80000000#32 k = 0x80000000#32) ∧ (∀ k, g.wReg k = 0#64) ∧ (∀ w, (∀ l b, w ≠ .p 7 l b) → g.emptyAt w = false) ∧
    (∀ l, l < r.width → g.pcOf l = r.code ∧ g.live.getLsbD l = true) ∧ (∀ l, r.width ≤ l → g.live.getLsbD l = false) ∧
    g.cause = 0#8 ∧ g.tpc = 0#64 ∧ g.tmask = 0#64 ∧ g.taddr = 0#64 ∧ g.thit = 0#64 ∧ g.inh = false ∧ g.fpctl = r.fpctl ∧ g.fpstat = 0#32 ∧
    g.thnd = (if r.hndoff = 0 then 0#64 else r.code + w64 r.hndoff) ∧ g.stklim = BitVec.ofNat 32 r.privw ∧ g.rowlag = r.rowlag ∧
    g.privbase = r.privBase + w64 ((ix * r.gangs + index) * r.width * r.privw * 4))

/-- Every step keeps memory and the images in canonical form, and the lines that cores hold as l1Ok says: dirty bytes lie in their line, a
core holds a line once for a task slot, and at most one copy of a line is dirty (R284, R287).
R35, R62, R63, R304, R305, R308: whatever writes a gang's registers, its control registers, its PCs or its lanes keeps them in their form: P7
holds no stored value, the reserved bits of FPCTL and FPSTAT are 0, and lanes are held only while a handler runs, live ones only. A gang is
created so where its record has passed its check. -/
def Obligations.MemoryInvariant : Prop :=
  (∀ (s t : State), s.Inv → step s = .next t → t.Inv) ∧
  (∀ g : Gang, g.ok = true →
    (∀ ws, (g.writes ws).ok = true ∧ (ws.foldl Gang.empty g).ok = true ∧ (g.rewrite ws).ok = true) ∧
    (∀ kind ws fl sets ix, (g.startFill kind ws fl sets).ok = true ∧ (landFill g ix).ok = true) ∧
    (∀ P c item v, (putCreg g P c v).ok = true ∧ (g.agentSet P item v).ok = true) ∧
    (∀ t tpc, (g.enterHandler t tpc).ok = true ∧ (g.stopFor t tpc).ok = true) ∧ g.returnFromTrap.ok = true ∧
    ∀ pc set, g.chooseSet = some (pc, set) → set &&& g.held = 0#64) ∧
  (∀ (x : Iss) (s : State) (p : Post) (g : Gang), s.gang? x.ref = some g → g.ok = true → p.after = none → p.ended &&& g.held = 0#64 →
    ∃ g', (commitIssue x s p).gang? x.ref = some g' ∧ g'.ok = true) ∧
  (∀ (x : Iss) (s : State) (fl : List (Nat × Flags)) (g : Gang), s.gang? x.ref = some g → g.ok = true →
    ∃ g', (x.orStat s (allFlags fl)).gang? x.ref = some g' ∧ g'.ok = true) ∧
  (∀ (r : TaskRec) (team index half ix granule : Nat), r.fpctl &&& ~~~fpctlMask = 0#32 → (newGang r team index half ix granule).ok = true) ∧
  (∀ (bs : List Byte) (addr : Nat), recordBad bs (recordOf addr bs) = false → (recordOf addr bs).fpctl &&& ~~~fpctlMask = 0#32)
end

