-- ==== Sys2Proof/Laws/Maps.lean ====
section
/-! SUPPORT. Laws of finite maps, sets of numbers, lane masks and byte strings. -/

namespace Sys2Proof.Machine

/-! ### Reading after a change -/

@[simp] theorem KMap.get?_nil {α : Type} (a : Nat) : KMap.get? ([] : KMap α) a = none := rfl
@[simp] theorem KMap.get_nil {α : Type} (d : α) (a : Nat) : KMap.get ([] : KMap α) d a = d := rfl

theorem KMap.get?_del_self {α : Type} (m : KMap α) (a : Nat) : KMap.get? (KMap.del m a) a = none := by
  induction m with
  | nil => rfl
  | cons e t ih =>
    obtain ⟨k, v⟩ := e
    by_cases h : k = a
    · subst h; simpa [KMap.del] using ih
    · have h' : ¬ a = k := fun x => h x.symm
      simp only [KMap.del, bne_iff_ne, ne_eq, List.filter_cons, h, not_false_eq_true, if_true]
      simpa [KMap.get?, h', KMap.del] using ih

theorem KMap.get?_del_ne {α : Type} (m : KMap α) {a b : Nat} (hab : b ≠ a) : KMap.get? (KMap.del m a) b = KMap.get? m b := by
  induction m with
  | nil => rfl
  | cons e t ih =>
    obtain ⟨k, v⟩ := e
    by_cases h : k = a
    · subst h; simpa [KMap.del, KMap.get?, hab] using ih
    · by_cases hb : b = k
      · simp [KMap.del, h, KMap.get?, hb]
      · simpa [KMap.del, h, KMap.get?, hb] using ih

theorem KMap.get?_insert_self {α : Type} (m : KMap α) (a : Nat) (v : α) (h : KMap.get? m a = none) :
    KMap.get? (KMap.insert a v m) a = some v := by
  induction m with
  | nil => simp [KMap.insert, KMap.get?]
  | cons e t ih =>
    obtain ⟨k, w⟩ := e
    by_cases hk : a = k
    · simp [KMap.get?, hk] at h
    · simp only [KMap.get?, hk, if_false] at h
      simp only [KMap.insert]
      split
      · simp [KMap.get?]
      · simp [KMap.get?, hk, ih h]

theorem KMap.get?_insert_ne {α : Type} (m : KMap α) {a b : Nat} (v : α) (hab : b ≠ a) :
    KMap.get? (KMap.insert a v m) b = KMap.get? m b := by
  induction m with
  | nil => simp [KMap.insert, KMap.get?, hab]
  | cons e t ih =>
    obtain ⟨k, w⟩ := e
    simp only [KMap.insert]
    split
    · simp [KMap.get?, hab]
    · simp [KMap.get?, ih]

@[simp] theorem KMap.get?_put_self {α : Type} (m : KMap α) (a : Nat) (v : α) : KMap.get? (KMap.put m a v) a = some v :=
  KMap.get?_insert_self _ a v (KMap.get?_del_self m a)

theorem KMap.get?_put_ne {α : Type} (m : KMap α) {a b : Nat} (v : α) (hab : b ≠ a) : KMap.get? (KMap.put m a v) b = KMap.get? m b := by
  rw [KMap.put, KMap.get?_insert_ne _ v hab, KMap.get?_del_ne m hab]

theorem KMap.del_insert {α : Type} (m : KMap α) (a : Nat) (v : α) : KMap.del (KMap.insert a v m) a = KMap.del m a := by
  induction m with
  | nil => simp [KMap.insert, KMap.del]
  | cons e t ih =>
    obtain ⟨k, w⟩ := e
    simp only [KMap.insert]
    split
    · simp [KMap.del]
    · simp only [KMap.del, List.filter_cons] at ih ⊢
      rw [ih]

/-- The last of two changes of one number stands. -/
@[simp] theorem KMap.put_put {α : Type} (m : KMap α) (a : Nat) (v w : α) : KMap.put (KMap.put m a v) a w = KMap.put m a w := by
  have : KMap.del (KMap.del m a) a = KMap.del m a := by simp [KMap.del]
  unfold KMap.put
  rw [KMap.del_insert, this]

@[simp] theorem KMap.get_put_self {α : Type} (m : KMap α) (d : α) (a : Nat) (v : α) : KMap.get (KMap.put m a v) d a = v := by
  simp [KMap.get]

theorem KMap.get_put_ne {α : Type} (m : KMap α) (d : α) {a b : Nat} (v : α) (hab : b ≠ a) :
    KMap.get (KMap.put m a v) d b = KMap.get m d b := by
  simp [KMap.get, KMap.get?_put_ne m v hab]

@[simp] theorem KMap.get_set_self {α : Type} [DecidableEq α] (m : KMap α) (d : α) (a : Nat) (v : α) :
    KMap.get (KMap.set m d a v) d a = v := by
  unfold KMap.set
  split
  · simp [KMap.get, KMap.get?_del_self, *]
  · simp

theorem KMap.get_set_ne {α : Type} [DecidableEq α] (m : KMap α) (d : α) {a b : Nat} (v : α) (hab : b ≠ a) :
    KMap.get (KMap.set m d a v) d b = KMap.get m d b := by
  unfold KMap.set
  split
  · simp [KMap.get, KMap.get?_del_ne m hab]
  · exact KMap.get_put_ne m d v hab

theorem KMap.get_set {α : Type} [DecidableEq α] (m : KMap α) (d : α) (a b : Nat) (v : α) :
    KMap.get (KMap.set m d a v) d b = if b = a then v else KMap.get m d b := by
  split
  · next h => subst h; simp
  · next h => exact KMap.get_set_ne m d v h

@[simp] theorem BitSet.has_put_self (m : BitSet) (a : Nat) (b : Bool) : BitSet.has (BitSet.put m a b) a = b := by
  simp [BitSet.has, BitSet.put]

theorem BitSet.has_put_ne (m : BitSet) {a c : Nat} (b : Bool) (h : c ≠ a) : BitSet.has (BitSet.put m a b) c = BitSet.has m c := by
  simp [BitSet.has, BitSet.put, KMap.get_set_ne m false b h]

/-- A fold of changes leaves every number it does not name. -/
theorem KMap.get_foldl_set_ne {α β : Type} [DecidableEq α] (d : α) (key : β → Nat) (val : KMap α → β → α) (l : List β) (m : KMap α) (c : Nat)
    (h : ∀ x ∈ l, c ≠ key x) : KMap.get (l.foldl (fun m x => KMap.set m d (key x) (val m x)) m) d c = KMap.get m d c := by
  induction l generalizing m with
  | nil => rfl
  | cons x t ih =>
    rw [List.foldl_cons, ih _ fun y hy => h y (List.mem_cons_of_mem x hy)]
    exact KMap.get_set_ne m d _ (h x List.mem_cons_self)

/-- A fold of changes gives a number the value that every change of it gives. -/
theorem KMap.get_foldl_set_mem {α β : Type} [DecidableEq α] (d : α) (key : β → Nat) (val : β → α) (l : List β) (m : KMap α)
    (k : Nat) (v : α) (hk : ∃ y ∈ l, key y = k) (hv : ∀ y ∈ l, key y = k → val y = v) :
    KMap.get (l.foldl (fun m x => KMap.set m d (key x) (val x)) m) d k = v := by
  induction l generalizing m with
  | nil => obtain ⟨y, hy, _⟩ := hk; cases hy
  | cons y t ih =>
    rw [List.foldl_cons]
    by_cases ht : ∃ z ∈ t, key z = k
    · exact ih _ ht fun z hz => hv z (List.mem_cons_of_mem y hz)
    · have hy : key y = k := by
        obtain ⟨z, hz, hzk⟩ := hk
        rcases List.mem_cons.1 hz with h | h
        · exact h ▸ hzk
        · exact absurd ⟨z, h, hzk⟩ ht
      rw [KMap.get_foldl_set_ne d key (fun _ x => val x) t _ k fun z hz hc => ht ⟨z, hz, hc.symm⟩, ← hy, KMap.get_set_self]
      exact hv y List.mem_cons_self hy

/-- R4: the bytes of a value are as many as asked for. -/
@[simp] theorem leBytes_length (n v : Nat) : (leBytes n v).length = n := by
  induction n generalizing v with
  | zero => rfl
  | succ n ih => simp [leBytes, ih]

/-! ### The canonical form -/

theorem KMap.rising_iff {α : Type} (m : KMap α) : KMap.rising m = true ↔ m.Pairwise fun x y => x.1 < y.1 := by
  induction m with
  | nil => simp [KMap.rising]
  | cons e t ih =>
    cases t with
    | nil => simp [KMap.rising]
    | cons e' t' =>
      simp only [KMap.rising, Bool.and_eq_true, decide_eq_true_eq, ih]
      constructor
      · rintro ⟨h1, h2⟩
        refine List.pairwise_cons.2 ⟨?_, h2⟩
        intro y hy
        rcases List.mem_cons.1 hy with h | h
        · exact h ▸ h1
        · exact Nat.lt_trans h1 ((List.pairwise_cons.1 h2).1 y h)
      · intro h
        exact ⟨(List.pairwise_cons.1 h).1 e' List.mem_cons_self, (List.pairwise_cons.1 h).2⟩

theorem KMap.wf_iff {α : Type} [DecidableEq α] (m : KMap α) (d : α) :
    KMap.wf m d = true ↔ (m.Pairwise fun x y => x.1 < y.1) ∧ ∀ e ∈ m, e.2 ≠ d := by
  simp [KMap.wf, KMap.rising_iff, bne_iff_ne]

theorem KMap.mem_insert {α : Type} (m : KMap α) (a : Nat) (v : α) (e : Nat × α) :
    e ∈ KMap.insert a v m ↔ e = (a, v) ∨ e ∈ m := by
  induction m with
  | nil => simp [KMap.insert]
  | cons x t ih =>
    obtain ⟨k, w⟩ := x
    simp only [KMap.insert]
    split
    · simp
    · simp [ih]; tauto

theorem KMap.insert_rising {α : Type} (m : KMap α) (a : Nat) (v : α) (h : m.Pairwise fun x y => x.1 < y.1)
    (ha : ∀ e ∈ m, e.1 ≠ a) : (KMap.insert a v m).Pairwise fun x y => x.1 < y.1 := by
  induction m with
  | nil => simp [KMap.insert]
  | cons x t ih =>
    obtain ⟨k, w⟩ := x
    have hp := List.pairwise_cons.1 h
    simp only [KMap.insert]
    split
    · next hlt =>
      refine List.pairwise_cons.2 ⟨?_, h⟩
      intro y hy
      rcases List.mem_cons.1 hy with e | e
      · subst e; exact hlt
      · exact Nat.lt_trans hlt (hp.1 y e)
    · next hlt =>
      refine List.pairwise_cons.2 ⟨?_, ih hp.2 fun e he => ha e (List.mem_cons_of_mem _ he)⟩
      intro y hy
      rcases (KMap.mem_insert t a v y).1 hy with e | e
      · subst e
        have := ha (k, w) List.mem_cons_self
        simp at this hlt ⊢
        omega
      · exact hp.1 y e

theorem KMap.del_wf {α : Type} [DecidableEq α] {m : KMap α} {d : α} (a : Nat) (h : KMap.wf m d = true) : KMap.wf (KMap.del m a) d = true := by
  rw [KMap.wf_iff] at h ⊢
  exact ⟨h.1.filter _, fun e he => h.2 e (List.mem_filter.1 he).1⟩

theorem KMap.filter_wf {α : Type} [DecidableEq α] {m : KMap α} {d : α} (p : Nat × α → Bool) (h : KMap.wf m d = true) :
    KMap.wf (m.filter p) d = true := by
  rw [KMap.wf_iff] at h ⊢
  exact ⟨h.1.filter _, fun e he => h.2 e (List.mem_filter.1 he).1⟩

theorem KMap.set_wf {α : Type} [DecidableEq α] {m : KMap α} {d : α} (a : Nat) (v : α) (h : KMap.wf m d = true) :
    KMap.wf (KMap.set m d a v) d = true := by
  unfold KMap.set
  split
  · exact KMap.del_wf a h
  · next hv =>
    have hd := (KMap.wf_iff _ _).1 (KMap.del_wf a h)
    rw [KMap.wf_iff]
    refine ⟨KMap.insert_rising _ a v hd.1 ?_, ?_⟩
    · intro e he; simpa using (List.mem_filter.1 he).2
    · intro e he
      rcases (KMap.mem_insert _ a v e).1 he with x | x
      · subst x; exact hv
      · exact hd.2 e x

/-- A fold whose every step keeps a property keeps it. -/
theorem foldl_keeps {α β : Type} (P : β → Prop) (f : β → α → β) (hf : ∀ b a, P b → P (f b a)) (l : List α) (b : β) (h : P b) :
    P (l.foldl f b) := by
  induction l generalizing b with
  | nil => exact h
  | cons a t ih => exact ih _ (hf b a h)

/-! ### Lane masks -/

theorem testBit_fold (f : Nat → Bool) (n : Nat) :
    (List.range n).foldl (fun acc l => if f l then acc + 2 ^ l else acc) 0 < 2 ^ n ∧
    ∀ l, ((List.range n).foldl (fun acc l => if f l then acc + 2 ^ l else acc) 0).testBit l = (decide (l < n) && f l) := by
  induction n with
  | zero => simp
  | succ n ih =>
    obtain ⟨h1, h2⟩ := ih
    rw [List.range_succ, List.foldl_append]
    simp only [List.foldl_cons, List.foldl_nil]
    generalize (List.range n).foldl (fun acc l => if f l then acc + 2 ^ l else acc) 0 = a at *
    split
    · next hf =>
      refine ⟨by rw [pow_succ]; omega, fun l => ?_⟩
      rw [Nat.add_comm]
      rcases Nat.lt_trichotomy l n with h | h | h
      · rw [Nat.testBit_two_pow_add_gt h, h2]; simp [h, Nat.lt_succ_of_lt h]
      · subst h; rw [Nat.testBit_two_pow_add_eq, h2]; simp [hf]
      · have : 2 ^ n + a < 2 ^ l := by
          calc 2 ^ n + a < 2 ^ n + 2 ^ n := by omega
            _ = 2 ^ (n + 1) := by rw [pow_succ]; omega
            _ ≤ 2 ^ l := Nat.pow_le_pow_right (by omega) h
        rw [Nat.testBit_lt_two_pow this]
        simp; omega
    · next hf =>
      refine ⟨by rw [pow_succ]; omega, fun l => ?_⟩
      rw [h2]
      rcases Nat.lt_trichotomy l n with h | h | h
      · simp [h, Nat.lt_succ_of_lt h]
      · subst h; simp [hf]
      · have : ¬ l < n := by omega
        have : ¬ l < n + 1 := by omega
        simp [*]

@[simp] theorem maskOf_getLsbD (f : Nat → Bool) (l : Nat) : (maskOf f).getLsbD l = (decide (l < 64) && f l) := by
  rw [maskOf, BitVec.getLsbD_ofNat, (testBit_fold f 64).2]
  by_cases h : l < 64 <;> simp [h]

theorem mem_lanesOf (m : LaneMask) (l : Nat) : l ∈ lanesOf m ↔ m.getLsbD l = true := by
  simp only [lanesOf, List.mem_filter, List.mem_range]
  constructor
  · exact fun h => h.2
  · exact fun h => ⟨BitVec.lt_of_getLsbD h, h⟩

theorem maskOf_eq_zero (f : Nat → Bool) : maskOf f = 0#64 ↔ ∀ l, l < 64 → f l = false := by
  constructor
  · intro h l hl
    have := maskOf_getLsbD f l
    rw [h] at this
    simpa [hl] using this.symm
  · intro h
    apply BitVec.eq_of_getLsbD_eq
    intro i hi
    rw [maskOf_getLsbD]; simp [h i hi]

theorem lowestLane_isSome (m : LaneMask) (h : m ≠ 0#64) : ∃ l, lowestLane m = some l ∧ m.getLsbD l = true := by
  unfold lowestLane
  cases hf : (List.range 64).find? fun l => m.getLsbD l with
  | none =>
    exfalso; apply h
    apply BitVec.eq_of_getLsbD_eq
    intro i hi
    have := List.find?_eq_none.1 hf i (List.mem_range.2 hi)
    simpa using this
  | some l => exact ⟨l, rfl, by simpa using List.find?_some hf⟩

end Sys2Proof.Machine
end

