-- ==== Sys2Proof/Laws/Memory.lean ====
section
/-! SUPPORT. Memory and the lines that cores hold: what each operation makes of every byte, and that it keeps the canonical forms. -/

namespace Sys2Proof.Machine

theorem KMap.put_rising {α : Type} (m : KMap α) (a : Nat) (v : α) (h : KMap.rising m = true) : KMap.rising (KMap.put m a v) = true := by
  rw [KMap.rising_iff] at h ⊢
  refine KMap.insert_rising _ a v (h.filter _) fun e he => ?_
  simpa using (List.mem_filter.1 he).2

theorem KMap.mem_put {α : Type} {m : KMap α} {a : Nat} {v : α} {e : Nat × α} (h : e ∈ KMap.put m a v) : e = (a, v) ∨ e ∈ m := by
  rcases (KMap.mem_insert _ a v e).1 h with h | h
  · exact .inl h
  · exact .inr (List.mem_filter.1 h).1

theorem KMap.mem_of_get? {α : Type} {m : KMap α} {a : Nat} {v : α} (h : KMap.get? m a = some v) : (a, v) ∈ m := by
  induction m with
  | nil => cases h
  | cons e t ih =>
    obtain ⟨k, w⟩ := e
    unfold KMap.get? at h
    split at h
    · next hk => cases h; subst hk; exact List.mem_cons_self
    · exact List.mem_cons_of_mem _ (ih h)

theorem KMap.get?_none_of_gt {α : Type} {m : KMap α} {a : Nat} (h : ∀ e ∈ m, a < e.1) : KMap.get? m a = none := by
  cases hg : KMap.get? m a with
  | none => rfl
  | some v => have := h _ (KMap.mem_of_get? hg); simp at this

/-! ### Byte maps -/

theorem putBytes_get (m : KMap Byte) (pa : Nat) (bs : List Byte) (q : Nat) :
    KMap.get (putBytes m pa bs) memDefault q = if pa ≤ q ∧ q < pa + bs.length then bs.getD (q - pa) 0#8 else KMap.get m memDefault q := by
  induction bs generalizing m pa with
  | nil =>
    rw [if_neg (by simp only [List.length_nil]; omega)]; rfl
  | cons b t ih =>
    rw [putBytes, ih, KMap.get_set]
    by_cases h1 : pa = q
    · subst h1; simp
    · by_cases h2 : pa + 1 ≤ q ∧ q < pa + 1 + t.length
      · have h3 : pa ≤ q ∧ q < pa + (b :: t).length := by simp; omega
        rw [if_pos h2, if_pos h3]
        obtain ⟨k, hk⟩ : ∃ k, q - pa = k + 1 := ⟨q - pa - 1, by omega⟩
        have : q - (pa + 1) = k := by omega
        rw [hk, this]; rfl
      · have h3 : ¬ (pa ≤ q ∧ q < pa + (b :: t).length) := by simp; omega
        rw [if_neg h2, if_neg h3, if_neg (fun h => h1 h.symm)]

theorem putBytes_wf (m : KMap Byte) (pa : Nat) (bs : List Byte) (h : KMap.wf m memDefault = true) : KMap.wf (putBytes m pa bs) memDefault = true := by
  induction bs generalizing m pa with
  | nil => exact h
  | cons b t ih => exact ih _ _ (KMap.set_wf _ _ h)

theorem writeDirty_wf (m d : KMap Byte) (h : KMap.wf m memDefault = true) : KMap.wf (writeDirty m d) memDefault = true := by
  induction d generalizing m with
  | nil => exact h
  | cons e t ih => exact ih _ (KMap.set_wf _ _ h)

theorem writeDirty_get (m d : KMap Byte) (q : Nat) (h : KMap.rising d = true) :
    KMap.get (writeDirty m d) memDefault q = (KMap.get? d q).getD (KMap.get m memDefault q) := by
  induction d generalizing m with
  | nil => rfl
  | cons e t ih =>
    obtain ⟨k, b⟩ := e
    rw [KMap.rising_iff, List.pairwise_cons] at h
    rw [writeDirty, ih _ ((KMap.rising_iff _).2 h.2), KMap.get_set]
    have e : KMap.get? ((k, b) :: t) q = if q = k then some b else KMap.get? t q := rfl
    rw [e]
    by_cases hk : q = k
    · subst hk
      rw [if_pos rfl, if_pos rfl, KMap.get?_none_of_gt h.1]; rfl
    · rw [if_neg hk, if_neg hk]

/-! ### Lines -/

theorem l1Ok_filter {ls : List L1Line} (p : L1Line → Bool) (h : l1Ok ls) : l1Ok (ls.filter p) :=
  ⟨fun l hl => h.1 l (List.mem_filter.1 hl).1, h.2.filter _⟩

theorem dirtyByte_line {ls : List L1Line} {q : Nat} {b : Byte} (hk : ∀ l ∈ ls, KMap.rising l.dirty = true ∧ ∀ e ∈ l.dirty, e.1 / 128 = l.line)
    (h : dirtyByte ls q = some b) : ∃ l ∈ ls, l.line = q / 128 ∧ KMap.get? l.dirty q = some b := by
  induction ls with
  | nil => cases h
  | cons l t ih =>
    unfold dirtyByte at h
    split at h
    · next c hc =>
      cases h
      exact ⟨l, List.mem_cons_self, ((hk l List.mem_cons_self).2 _ (KMap.mem_of_get? hc)).symm, hc⟩
    · obtain ⟨l', h1, h2⟩ := ih (fun l hl => hk l (List.mem_cons_of_mem _ hl)) h
      exact ⟨l', List.mem_cons_of_mem _ h1, h2⟩

theorem dirtyByte_none {ls : List L1Line} {q : Nat} (hk : ∀ l ∈ ls, KMap.rising l.dirty = true ∧ ∀ e ∈ l.dirty, e.1 / 128 = l.line)
    (h : ∀ l ∈ ls, l.line = q / 128 → l.dirty = []) : dirtyByte ls q = none := by
  cases hd : dirtyByte ls q with
  | none => rfl
  | some b =>
    obtain ⟨l, h1, h2, h3⟩ := dirtyByte_line hk hd
    rw [h l h1 h2] at h3
    cases h3

theorem dropLines_lines (ls : List L1Line) (w : L1Line → Bool) (m : KMap Byte) (q : Nat) (h : l1Ok ls) :
    (dirtyByte (ls.filter fun l => !w l) q).getD (KMap.get ((ls.filter w).foldl (fun m l => writeDirty m l.dirty) m) memDefault q) =
      (dirtyByte ls q).getD (KMap.get m memDefault q) := by
  induction ls generalizing m with
  | nil => rfl
  | cons l t ih =>
    have ht : l1Ok t := ⟨fun a ha => h.1 a (List.mem_cons_of_mem _ ha), (List.pairwise_cons.1 h.2).2⟩
    have hl := h.1 l List.mem_cons_self
    by_cases hw : w l = true
    · simp only [List.filter_cons, hw, Bool.not_true, Bool.false_eq_true, if_false, if_true, List.foldl_cons]
      rw [ih _ ht, writeDirty_get _ _ _ hl.1]
      simp only [dirtyByte]
      cases hg : KMap.get? l.dirty q with
      | none => rfl
      | some b =>
        have hq := hl.2 _ (KMap.mem_of_get? hg)
        have : dirtyByte t q = none := dirtyByte_none ht.1 fun a ha hla => by
          rcases ((List.pairwise_cons.1 h.2).1 a ha (by rw [hla]; exact hq.symm)).2 with hd | hd
          · rw [hd] at hg; cases hg
          · exact hd
        rw [this]; rfl
    · simp only [List.filter_cons, hw, Bool.not_false, Bool.false_eq_true, if_false, if_true, dirtyByte]
      cases hg : KMap.get? l.dirty q with
      | none => exact ih _ ht
      | some b => rfl

/-- R284, R285: writing lines back to their homes changes no byte that anything reads. -/
theorem memByte_dropLines (s : State) (w : L1Line → Bool) {pay : Charge} (q : Nat) (h : l1Ok s.l1) :
    memByte (dropLines s w pay) q = memByte s q :=
  dropLines_lines s.l1 w s.mem q h

/-- Whether a copy brings a poisoned word home with it. -/
theorem has_writePoison (p : BitSet) (l : L1Line) (w : Nat) :
    BitSet.has (writePoison p l) w = (BitSet.has p w || (BitSet.has l.poison w && l.dirty.any fun b => b.1 / 4 == w)) := by
  have key : ∀ (es : BitSet) (p : BitSet),
      BitSet.has (es.foldl (fun p e => if BitSet.has l.poison e.1 && l.dirty.any fun b => b.1 / 4 == e.1 then BitSet.put p e.1 true else p) p) w =
        (BitSet.has p w || (es.any fun e => e.1 == w && (BitSet.has l.poison w && l.dirty.any fun b => b.1 / 4 == w))) := by
    intro es
    induction es with
    | nil => intro p; simp
    | cons e t ih =>
      intro p
      rw [List.foldl_cons, ih, List.any_cons]
      by_cases he : e.1 = w
      · subst he
        split
        · next hc => rw [hc]; simp
        · next hc => simp only [Bool.not_eq_true] at hc; rw [hc]; simp
      · have hb : (e.1 == w) = false := by simpa using he
        rw [hb, Bool.false_and, Bool.false_or]
        split
        · rw [BitSet.has_put_ne _ _ (Ne.symm he)]
        · rfl
  have keyed : ∀ es : BitSet, BitSet.has es w = true → (es.any fun e => e.1 == w) = true := by
    intro es h
    have : KMap.get? es w ≠ none := by
      intro hn
      unfold BitSet.has KMap.get at h
      rw [hn] at h
      cases h
    obtain ⟨v, hv⟩ := Option.ne_none_iff_exists'.1 this
    exact List.any_eq_true.2 ⟨_, KMap.mem_of_get? hv, by simp⟩
  unfold writePoison
  rw [key]
  congr 1
  cases hx : (BitSet.has l.poison w && l.dirty.any fun b => b.1 / 4 == w) with
  | false => simp
  | true =>
    simp only [Bool.and_true]
    exact keyed _ (Bool.and_eq_true_iff.1 hx).1

/-- R311: writing lines back and dropping them changes no word's poison. -/
theorem wordPoisoned_dropLines (s : State) (which : L1Line → Bool) {pay : Charge} (w : Nat) :
    wordPoisoned (dropLines s which pay) w = wordPoisoned s w := by
  have out : ∀ (ls : List L1Line) (p : BitSet), BitSet.has (ls.foldl writePoison p) w =
      (BitSet.has p w || ls.any fun l => BitSet.has l.poison w && l.dirty.any fun b => b.1 / 4 == w) := by
    intro ls
    induction ls with
    | nil => intro p; simp
    | cons l t ih => intro p; rw [List.foldl_cons, ih, has_writePoison, List.any_cons, Bool.or_assoc]
  unfold wordPoisoned dropLines
  simp only [out, Bool.or_assoc]
  congr 1
  induction s.l1 with
  | nil => rfl
  | cons l t ih =>
    cases hl : which l <;> simp only [List.filter_cons, hl, Bool.not_true, Bool.not_false, Bool.false_eq_true, if_true, if_false, List.any_cons, ← ih]
    · cases (BitSet.has l.poison w && l.dirty.any fun b => b.1 / 4 == w) <;> simp
    · rw [Bool.or_assoc]

/-- R285: recalling lines changes no word's poison. -/
theorem memPoisoned_recallLines (s : State) (pa n pb k : Nat) {pay : Charge} :
    memPoisoned (recallLines s pa n pay) pb k = memPoisoned s pb k := by
  simp only [memPoisoned, recallLines, wordPoisoned_dropLines]
theorem l1Ok_dropLines {s : State} (w : L1Line → Bool) {pay : Charge} (h : l1Ok s.l1) : l1Ok (dropLines s w pay).l1 := l1Ok_filter _ h

theorem dropLines_mem_wf {s : State} (w : L1Line → Bool) {pay : Charge} (h : s.memOk = true) : (dropLines s w pay).memOk = true :=
  foldl_keeps (fun m : List Host.Cell => KMap.wf m memDefault = true) _ (fun m l hm => writeDirty_wf m l.dirty hm) _ _ h

theorem dirtyByte_append (a b : List L1Line) (q : Nat) : dirtyByte (a ++ b) q = match dirtyByte a q with
    | some v => some v
    | none => dirtyByte b q := by
  induction a with
  | nil => rfl
  | cons l t ih =>
    simp only [List.cons_append, dirtyByte]
    cases KMap.get? l.dirty q with
    | none => exact ih
    | some => rfl

/-- R342: a new clean line changes no byte. -/
theorem memByte_fillLine (s : State) (core slot : Nat) (team : Option Nat) (line : Nat) (gen : W16) (tracked : Bool) (q : Nat) :
    memByte (fillLine s core slot team line gen tracked) q = memByte s q := by
  unfold fillLine
  split
  · rfl
  · simp only [memByte, homeByte, dirtyByte_append]
    cases dirtyByte s.l1 q <;> rfl

theorem fillLine_mem (s : State) (core slot : Nat) (team : Option Nat) (line : Nat) (gen : W16) (tracked : Bool) :
    (fillLine s core slot team line gen tracked).mem = s.mem := by
  unfold fillLine; split <;> rfl

theorem l1Ok_fillLine {s : State} (core slot : Nat) (team : Option Nat) (line : Nat) (gen : W16) (tracked : Bool) (h : l1Ok s.l1) :
    l1Ok (fillLine s core slot team line gen tracked).l1 := by
  unfold fillLine
  split
  · exact h
  · next hn =>
    refine ⟨fun l hl => ?_, ?_⟩
    · rcases List.mem_append.1 hl with hl | hl
      · exact h.1 l hl
      · simp only [List.mem_singleton] at hl; subst hl; simp [KMap.rising]
    · rw [List.pairwise_append]
      refine ⟨h.2, List.pairwise_singleton _ _, fun a ha b hb hab => ?_⟩
      simp only [List.mem_singleton] at hb; subst hb
      refine ⟨fun hc => ?_, .inr rfl⟩
      apply hn
      rw [holdsLine, List.any_eq_true]
      exact ⟨a, ha, by simp [hc.1, hc.2, hab]⟩

/-- R284: bytes stored at their home. -/
theorem memByte_homeStore (s : State) (pa : Nat) (bs : List Byte) (src : Nat → Bool) {pay : Charge} (q : Nat) (h : l1Ok s.l1) :
    memByte (homeStore s pa bs src pay) q = if pa ≤ q ∧ q < pa + bs.length then bs.getD (q - pa) 0#8 else memByte s q := by
  have hr := memByte_dropLines s (fun l => pa / 128 ≤ l.line && l.line ≤ (pa + bs.length - 1) / 128) (pay := pay) q h
  have e : memByte (homeStore s pa bs src pay) q = (dirtyByte (recallLines s pa bs.length pay).l1 q).getD
      (KMap.get (putBytes (recallLines s pa bs.length pay).mem pa bs) memDefault q) := rfl
  rw [e, putBytes_get]
  split
  · next hq =>
    have : dirtyByte (recallLines s pa bs.length pay).l1 q = none := by
      refine dirtyByte_none (l1Ok_dropLines _ h).1 fun l hl hll => ?_
      have := (List.mem_filter.1 hl).2
      simp only [Bool.not_eq_true', Bool.and_eq_false_iff, decide_eq_false_iff_not] at this
      rw [hll] at this
      have h1 : pa / 128 ≤ q / 128 := Nat.div_le_div_right hq.1
      have h2 : q / 128 ≤ (pa + bs.length - 1) / 128 := Nat.div_le_div_right (by omega)
      omega
    rw [this]; rfl
  · exact hr

theorem foldl_put_get {α : Type} (pa : Nat) (bs : List α) (d : α) (m : KMap α) (n q : Nat) :
    KMap.get? ((List.range n).foldl (fun m i => KMap.put m (pa + i) (bs.getD i d)) m) q =
      if pa ≤ q ∧ q < pa + n then some (bs.getD (q - pa) d) else KMap.get? m q := by
  induction n with
  | zero => rw [if_neg (by omega)]; rfl
  | succ n ih =>
    rw [List.range_succ, List.foldl_append, List.foldl_cons, List.foldl_nil]
    by_cases h : q = pa + n
    · subst h; simp
    · rw [KMap.get?_put_ne _ _ h, ih]
      by_cases h2 : pa ≤ q ∧ q < pa + n
      · rw [if_pos h2, if_pos ⟨h2.1, by omega⟩]
      · rw [if_neg h2, if_neg (by omega)]

theorem foldl_put_rising {α : Type} (pa : Nat) (bs : List α) (d : α) (m : KMap α) (n : Nat) (h : KMap.rising m = true) :
    KMap.rising ((List.range n).foldl (fun m i => KMap.put m (pa + i) (bs.getD i d)) m) = true :=
  foldl_keeps (fun m : KMap α => KMap.rising m = true) _ (fun m _ hm => KMap.put_rising m _ _ hm) _ _ h

theorem foldl_put_mem {α : Type} (pa : Nat) (bs : List α) (d : α) (m : KMap α) (n : Nat) (e : Nat × α)
    (h : e ∈ (List.range n).foldl (fun m i => KMap.put m (pa + i) (bs.getD i d)) m) : e ∈ m ∨ pa ≤ e.1 ∧ e.1 < pa + n := by
  induction n with
  | zero => exact .inl h
  | succ n ih =>
    rw [List.range_succ, List.foldl_append, List.foldl_cons, List.foldl_nil] at h
    rcases KMap.mem_put h with h | h
    · subst h; right; simp
    · rcases ih h with h | h
      · exact .inl h
      · exact .inr ⟨h.1, by omega⟩

/-- The lines after a store of bytes of one line, before the bytes are put. -/
theorem lineStore_before {s : State} {core slot : Nat} {team : Option Nat} {gen : W16} {tracked : Bool} {line : Nat} {pay : Charge} (h : l1Ok s.l1) :
    let s' := fillLine (dropLines s (fun l => l.line == line && !(l.core == core && l.slot == slot)) pay) core slot team line gen tracked
    l1Ok s'.l1 ∧ (∀ q, memByte s' q = memByte s q) ∧ (∀ l ∈ s'.l1, l.line = line → l.core = core ∧ l.slot = slot) ∧
      ∃ l ∈ s'.l1, l.core = core ∧ l.slot = slot ∧ l.line = line := by
  intro s'
  have h1 : l1Ok (dropLines s (fun l => l.line == line && !(l.core == core && l.slot == slot)) pay).l1 := l1Ok_dropLines _ h
  have only : ∀ l ∈ (dropLines s (fun l => l.line == line && !(l.core == core && l.slot == slot)) pay).l1, l.line = line → l.core = core ∧ l.slot = slot := by
    intro l hl hll
    have := (List.mem_filter.1 hl).2
    simp [hll] at this
    exact this
  refine ⟨l1Ok_fillLine _ _ _ _ _ _ h1, fun q => by rw [memByte_fillLine, memByte_dropLines _ _ _ h], ?_, ?_⟩
  · intro l hl hll
    simp only [s', fillLine] at hl
    split at hl
    · exact only l hl hll
    · rcases List.mem_append.1 hl with hl | hl
      · exact only l hl hll
      · simp only [List.mem_singleton] at hl; subst hl; exact ⟨rfl, rfl⟩
  · by_cases ha : holdsLine (dropLines s (fun l => l.line == line && !(l.core == core && l.slot == slot)) pay) core slot line = true
    · obtain ⟨l, hl, hp⟩ := List.any_eq_true.1 ha
      refine ⟨l, ?_, by simpa [and_assoc] using hp⟩
      simp only [s', fillLine, if_pos ha]; exact hl
    · simp only [s', fillLine, if_neg ha]
      exact ⟨_, List.mem_append_right _ (List.mem_singleton.2 rfl), rfl, rfl, rfl⟩

/-- The map that a store of bytes of one line applies to the lines. -/
def putLine (core slot line pa : Nat) (bs : List Byte) (l : L1Line) : L1Line :=
  if l.core == core && l.slot == slot && l.line == line then
    { l with owned := true, dirty := (List.range bs.length).foldl (fun d i => KMap.put d (pa + i) (bs.getD i 0#8)) l.dirty,
             corr := storePoison l.corr pa bs.length (fun _ => false), poison := storePoison l.poison pa bs.length (fun _ => false) }
  else l

theorem putLine_same (core slot line pa : Nat) (bs : List Byte) (l : L1Line) :
    (putLine core slot line pa bs l).core = l.core ∧ (putLine core slot line pa bs l).slot = l.slot ∧ (putLine core slot line pa bs l).line = l.line := by
  unfold putLine; split <;> exact ⟨rfl, rfl, rfl⟩

theorem l1Ok_map_put {ls : List L1Line} (core slot line pa : Nat) (bs : List Byte) (h : l1Ok ls)
    (only : ∀ l ∈ ls, l.line = line → l.core = core ∧ l.slot = slot) (hb : ∀ q, pa ≤ q → q < pa + bs.length → q / 128 = line) :
    l1Ok (ls.map (putLine core slot line pa bs)) := by
  refine ⟨fun l hl => ?_, ?_⟩
  · obtain ⟨a, ha, rfl⟩ := List.mem_map.1 hl
    have := h.1 a ha
    unfold putLine
    split
    · next hc =>
      simp only [Bool.and_eq_true, beq_iff_eq] at hc
      refine ⟨foldl_put_rising _ _ _ _ _ this.1, fun e he => ?_⟩
      rcases foldl_put_mem _ _ _ _ _ _ he with he | he
      · exact this.2 e he
      · simp only [hc.2]; exact hb _ he.1 he.2
    · exact this
  · rw [List.pairwise_map]
    refine h.2.imp_of_mem fun {a b} ha hb' hab hline => ?_
    obtain ⟨a1, a2, a3⟩ := putLine_same core slot line pa bs a
    obtain ⟨b1, b2, b3⟩ := putLine_same core slot line pa bs b
    rw [a3, b3] at hline
    have := hab hline
    refine ⟨by rw [a1, a2, b1, b2]; exact this.1, ?_⟩
    by_cases hl : a.line = line
    · have ca := only a ha hl
      have cb := only b hb' (hline ▸ hl)
      exact absurd ⟨ca.1.trans cb.1.symm, ca.2.trans cb.2.symm⟩ this.1
    · have e1 : putLine core slot line pa bs a = a := by unfold putLine; simp [hl]
      have e2 : putLine core slot line pa bs b = b := by unfold putLine; rw [hline] at hl; simp [hl]
      rw [e1, e2]; exact this.2

theorem dirtyByte_map_put {ls : List L1Line} (core slot line pa : Nat) (bs : List Byte) (q : Nat) (h : l1Ok ls)
    (only : ∀ l ∈ ls, l.line = line → l.core = core ∧ l.slot = slot) (hb : ∀ q, pa ≤ q → q < pa + bs.length → q / 128 = line)
    (hex : ∃ l ∈ ls, l.core = core ∧ l.slot = slot ∧ l.line = line) :
    dirtyByte (ls.map (putLine core slot line pa bs)) q =
      if pa ≤ q ∧ q < pa + bs.length then some (bs.getD (q - pa) 0#8) else dirtyByte ls q := by
  have get (l : L1Line) (hc : (l.core == core && l.slot == slot && l.line == line) = true) :
      KMap.get? (putLine core slot line pa bs l).dirty q =
        if pa ≤ q ∧ q < pa + bs.length then some (bs.getD (q - pa) 0#8) else KMap.get? l.dirty q := by
    unfold putLine; rw [if_pos hc]; exact foldl_put_get pa bs 0#8 l.dirty bs.length q
  by_cases hq : pa ≤ q ∧ q < pa + bs.length
  · rw [if_pos hq]
    have hok := l1Ok_map_put core slot line pa bs h only hb
    have hline := hb q hq.1 hq.2
    clear h
    induction ls with
    | nil => obtain ⟨l, hl, _⟩ := hex; cases hl
    | cons l t ih =>
      simp only [List.map_cons, dirtyByte]
      by_cases hc : (l.core == core && l.slot == slot && l.line == line) = true
      · rw [get l hc, if_pos hq]
      · have hne : l.line ≠ line := fun e => by
          have := only l List.mem_cons_self e
          simp [this.1, this.2, e] at hc
        have hl : KMap.get? (putLine core slot line pa bs l).dirty q = none := by
          cases hg : KMap.get? (putLine core slot line pa bs l).dirty q with
          | none => rfl
          | some b =>
            have := (hok.1 _ List.mem_cons_self).2 _ (KMap.mem_of_get? hg)
            rw [(putLine_same core slot line pa bs l).2.2, hline] at this
            exact absurd this.symm hne
        rw [hl]
        refine ih (fun a ha => only a (List.mem_cons_of_mem _ ha)) ?_ ⟨fun a ha => hok.1 a (List.mem_cons_of_mem _ ha), (List.pairwise_cons.1 hok.2).2⟩
        obtain ⟨a, ha, h1, h2, h3⟩ := hex
        rcases List.mem_cons.1 ha with rfl | ha
        · exact absurd h3 hne
        · exact ⟨a, ha, h1, h2, h3⟩
  · rw [if_neg hq]
    have : ∀ ls : List L1Line, dirtyByte (ls.map (putLine core slot line pa bs)) q = dirtyByte ls q := by
      intro ls
      induction ls with
      | nil => rfl
      | cons l t ih =>
        simp only [List.map_cons, dirtyByte]
        have : KMap.get? (putLine core slot line pa bs l).dirty q = KMap.get? l.dirty q := by
          by_cases hc : (l.core == core && l.slot == slot && l.line == line) = true
          · rw [get l hc, if_neg hq]
          · unfold putLine; rw [if_neg hc]
        rw [this, ih]
    exact this ls

/-- R284, R343: bytes of one line stored into a copy that a core holds: each of them reads as stored, every other byte as before. -/
theorem memByte_lineStore (s : State) (core slot : Nat) (team : Option Nat) (gen : W16) (tracked : Bool) (pa : Nat) (bs : List Byte)
    (src : Nat → Bool) {pay : Charge} (q : Nat) (h : l1Ok s.l1) (hb : ∀ q, pa ≤ q → q < pa + bs.length → q / 128 = pa / 128) :
    memByte (lineStore s core slot team gen tracked pa bs src pay) q =
      if pa ≤ q ∧ q < pa + bs.length then bs.getD (q - pa) 0#8 else memByte s q := by
  obtain ⟨h1, h2, h3, h4⟩ := lineStore_before (core := core) (slot := slot) (team := team) (gen := gen) (tracked := tracked) (line := pa / 128) (pay := pay) h
  have hd := dirtyByte_map_put core slot (pa / 128) pa bs q h1 h3 hb h4
  have hm := h2 q
  unfold memByte at hm ⊢
  have e1 : (lineStore s core slot team gen tracked pa bs src pay).l1 = (fillLine (dropLines s (fun l => l.line == pa / 128 && !(l.core == core && l.slot == slot)) pay)
      core slot team (pa / 128) gen tracked).l1.map (putLine core slot (pa / 128) pa bs) := rfl
  have e2 : homeByte (lineStore s core slot team gen tracked pa bs src pay) q = homeByte (fillLine (dropLines s (fun l => l.line == pa / 128 &&
      !(l.core == core && l.slot == slot)) pay) core slot team (pa / 128) gen tracked) q := rfl
  rw [e1, e2, hd]
  split
  · rfl
  · exact hm

theorem l1Ok_lineStore {s : State} (core slot : Nat) (team : Option Nat) (gen : W16) (tracked : Bool) (pa : Nat) (bs : List Byte)
    (src : Nat → Bool) {pay : Charge} (h : l1Ok s.l1) (hb : ∀ q, pa ≤ q → q < pa + bs.length → q / 128 = pa / 128) :
    l1Ok (lineStore s core slot team gen tracked pa bs src pay).l1 := by
  obtain ⟨h1, _, h3, _⟩ := lineStore_before (core := core) (slot := slot) (team := team) (gen := gen) (tracked := tracked) (line := pa / 128) (pay := pay) h
  exact l1Ok_map_put core slot (pa / 128) pa bs h1 h3 hb

theorem lineStore_mem_wf {s : State} (core slot : Nat) (team : Option Nat) (gen : W16) (tracked : Bool) (pa : Nat) (bs : List Byte)
    (src : Nat → Bool) {pay : Charge} (h : s.memOk = true) : (lineStore s core slot team gen tracked pa bs src pay).memOk = true := by
  have : (lineStore s core slot team gen tracked pa bs src pay).mem =
      (dropLines s (fun l => l.line == pa / 128 && !(l.core == core && l.slot == slot)) pay).mem :=
    fillLine_mem _ _ _ _ _ _ _
  rw [State.memOk, Memory.wf, this]
  exact dropLines_mem_wf _ h

theorem homeStore_mem_wf {s : State} (pa : Nat) (bs : List Byte) (src : Nat → Bool) {pay : Charge} (h : s.memOk = true) :
    (homeStore s pa bs src pay).memOk = true := putBytes_wf _ _ _ (dropLines_mem_wf _ h)

/-! ### What else a store or a fill does to lines -/

theorem staleLine_spec (s : State) (core slot line : Nat) (gen : W16) (h : l1Ok s.l1) :
    l1Ok (staleLine s core slot line gen).l1 ∧ ∀ q, memByte (staleLine s core slot line gen) q = memByte s q := by
  unfold staleLine
  split
  · exact ⟨l1Ok_dropLines _ h, fun q => memByte_dropLines s _ q h⟩
  · exact ⟨h, fun _ => rfl⟩

@[simp] theorem staleLine_teams (s : State) (core slot line : Nat) (gen : W16) : (staleLine s core slot line gen).teams = s.teams := by
  unfold staleLine; split <;> rfl

theorem staleLine_mem_wf {s : State} (core slot line : Nat) (gen : W16) (h : s.memOk = true) : (staleLine s core slot line gen).memOk = true := by
  unfold staleLine
  split
  · exact dropLines_mem_wf _ h
  · exact h

/-- A change of lines that leaves where each lies and its dirty bytes changes no byte. -/
theorem map_lines_spec (f : L1Line → L1Line)
    (hf : ∀ l, (f l).core = l.core ∧ (f l).slot = l.slot ∧ (f l).line = l.line ∧ (f l).dirty = l.dirty) (ls : List L1Line) :
    (l1Ok ls → l1Ok (ls.map f)) ∧ ∀ q, dirtyByte (ls.map f) q = dirtyByte ls q := by
  refine ⟨fun h => ⟨fun l hl => ?_, ?_⟩, fun q => ?_⟩
  · obtain ⟨a, ha, rfl⟩ := List.mem_map.1 hl
    obtain ⟨_, _, h3, h4⟩ := hf a
    rw [h3, h4]; exact h.1 a ha
  · rw [List.pairwise_map]
    refine h.2.imp fun {a b} hab => ?_
    obtain ⟨a1, a2, a3, a4⟩ := hf a
    obtain ⟨b1, b2, b3, b4⟩ := hf b
    rw [a1, a2, a3, a4, b1, b2, b3, b4]; exact hab
  · induction ls with
    | nil => rfl
    | cons l t ih => simp only [List.map_cons, dirtyByte, (hf l).2.2.2, ih]

theorem tagLine_spec (s : State) (core slot line : Nat) (team : Option Nat) (h : l1Ok s.l1) :
    l1Ok (tagLine s core slot line team).l1 ∧ ∀ q, memByte (tagLine s core slot line team) q = memByte s q := by
  unfold tagLine
  cases team with
  | none => exact ⟨h, fun _ => rfl⟩
  | some t =>
    have := map_lines_spec (fun l => if l.core == core && l.slot == slot && l.line == line && !l.teams.contains t
      then { l with teams := l.teams ++ [t] } else l) (fun l => by split <;> exact ⟨rfl, rfl, rfl, rfl⟩) s.l1
    exact ⟨this.1 h, fun q => by simp only [memByte, homeByte, this.2]⟩

@[simp] theorem tagLine_mem (s : State) (core slot line : Nat) (team : Option Nat) : (tagLine s core slot line team).mem = s.mem := by
  unfold tagLine; split <;> rfl

@[simp] theorem tagLine_teams (s : State) (core slot line : Nat) (team : Option Nat) : (tagLine s core slot line team).teams = s.teams := by
  unfold tagLine; split <;> rfl

@[simp] theorem portCross_mem (s : State) (core ctx : Nat) : (portCross s core ctx).mem = s.mem := rfl
@[simp] theorem portCross_l1 (s : State) (core ctx : Nat) : (portCross s core ctx).l1 = s.l1 := rfl
@[simp] theorem grantLine_mem (s : State) (core die line : Nat) (own : Bool) : (grantLine s core die line own).mem = s.mem := rfl
@[simp] theorem grantLine_l1 (s : State) (core die line : Nat) (own : Bool) : (grantLine s core die line own).l1 = s.l1 := rfl

end Sys2Proof.Machine
end

