-- ==== Sys2Proof/Laws/State.lean ====
section
/-! SUPPORT. Frames of the record updates of State and Gang: one lemma for each field that an update leaves unchanged; what raising a
counter does to every counter. -/

namespace Sys2Proof.Machine

/-! ### What State.setGang leaves unchanged -/

@[simp] theorem State.setGang_agenda (s : State) (r : GangRef) (x : Gang) : (s.setGang r x).agenda = s.agenda := rfl
@[simp] theorem State.setGang_cur (s : State) (r : GangRef) (x : Gang) : (s.setGang r x).cur = s.cur := rfl
@[simp] theorem State.setGang_split (s : State) (r : GangRef) (x : Gang) : (s.setGang r x).split = s.split := rfl
@[simp] theorem State.setGang_freeCtr (s : State) (r : GangRef) (x : Gang) : (s.setGang r x).freeCtr = s.freeCtr := rfl
@[simp] theorem State.setGang_replies (s : State) (r : GangRef) (x : Gang) : (s.setGang r x).replies = s.replies := rfl
@[simp] theorem State.setGang_tick (s : State) (r : GangRef) (x : Gang) : (s.setGang r x).tick = s.tick := rfl
@[simp] theorem State.setGang_issueCtr (s : State) (r : GangRef) (x : Gang) : (s.setGang r x).issueCtr = s.issueCtr := rfl
@[simp] theorem State.setGang_teams (s : State) (r : GangRef) (x : Gang) : (s.setGang r x).teams = s.teams := rfl
@[simp] theorem State.setGang_nextTeam (s : State) (r : GangRef) (x : Gang) : (s.setGang r x).nextTeam = s.nextTeam := rfl
@[simp] theorem State.setGang_chains (s : State) (r : GangRef) (x : Gang) : (s.setGang r x).chains = s.chains := rfl
@[simp] theorem State.setGang_mxq (s : State) (r : GangRef) (x : Gang) : (s.setGang r x).mxq = s.mxq := rfl
@[simp] theorem State.setGang_engine (s : State) (r : GangRef) (x : Gang) : (s.setGang r x).engine = s.engine := rfl
@[simp] theorem State.setGang_nextEngine (s : State) (r : GangRef) (x : Gang) : (s.setGang r x).nextEngine = s.nextEngine := rfl
@[simp] theorem State.setGang_icache (s : State) (r : GangRef) (x : Gang) : (s.setGang r x).icache = s.icache := rfl
@[simp] theorem State.setGang_codeBy (s : State) (r : GangRef) (x : Gang) : (s.setGang r x).codeBy = s.codeBy := rfl
@[simp] theorem State.setGang_ended (s : State) (r : GangRef) (x : Gang) : (s.setGang r x).ended = s.ended := rfl
@[simp] theorem State.setGang_tlb (s : State) (r : GangRef) (x : Gang) : (s.setGang r x).tlb = s.tlb := rfl
@[simp] theorem State.setGang_walkCache (s : State) (r : GangRef) (x : Gang) : (s.setGang r x).walkCache = s.walkCache := rfl
@[simp] theorem State.setGang_walks (s : State) (r : GangRef) (x : Gang) : (s.setGang r x).walks = s.walks := rfl
@[simp] theorem State.setGang_l1 (s : State) (r : GangRef) (x : Gang) : (s.setGang r x).l1 = s.l1 := rfl
@[simp] theorem State.setGang_directory (s : State) (r : GangRef) (x : Gang) : (s.setGang r x).directory = s.directory := rfl
@[simp] theorem State.setGang_filters (s : State) (r : GangRef) (x : Gang) : (s.setGang r x).filters = s.filters := rfl
@[simp] theorem State.setGang_mem (s : State) (r : GangRef) (x : Gang) : (s.setGang r x).mem = s.mem := rfl
@[simp] theorem State.setGang_memPoison (s : State) (r : GangRef) (x : Gang) : (s.setGang r x).memPoison = s.memPoison := rfl
@[simp] theorem State.setGang_memCorr (s : State) (r : GangRef) (x : Gang) : (s.setGang r x).memCorr = s.memCorr := rfl
@[simp] theorem State.setGang_gens (s : State) (r : GangRef) (x : Gang) : (s.setGang r x).gens = s.gens := rfl
@[simp] theorem State.setGang_absent (s : State) (r : GangRef) (x : Gang) : (s.setGang r x).absent = s.absent := rfl
@[simp] theorem State.setGang_dieCache (s : State) (r : GangRef) (x : Gang) : (s.setGang r x).dieCache = s.dieCache := rfl
@[simp] theorem State.setGang_dieCorr (s : State) (r : GangRef) (x : Gang) : (s.setGang r x).dieCorr = s.dieCorr := rfl
@[simp] theorem State.setGang_tasks (s : State) (r : GangRef) (x : Gang) : (s.setGang r x).tasks = s.tasks := rfl
@[simp] theorem State.setGang_nextOrder (s : State) (r : GangRef) (x : Gang) : (s.setGang r x).nextOrder = s.nextOrder := rfl
@[simp] theorem State.setGang_ctxs (s : State) (r : GangRef) (x : Gang) : (s.setGang r x).ctxs = s.ctxs := rfl
@[simp] theorem State.setGang_queues (s : State) (r : GangRef) (x : Gang) : (s.setGang r x).queues = s.queues := rfl
@[simp] theorem State.setGang_copies (s : State) (r : GangRef) (x : Gang) : (s.setGang r x).copies = s.copies := rfl
@[simp] theorem State.setGang_nextCopy (s : State) (r : GangRef) (x : Gang) : (s.setGang r x).nextCopy = s.nextCopy := rfl
@[simp] theorem State.setGang_migrations (s : State) (r : GangRef) (x : Gang) : (s.setGang r x).migrations = s.migrations := rfl
@[simp] theorem State.setGang_keys (s : State) (r : GangRef) (x : Gang) : (s.setGang r x).keys = s.keys := rfl
@[simp] theorem State.setGang_windows (s : State) (r : GangRef) (x : Gang) : (s.setGang r x).windows = s.windows := rfl
@[simp] theorem State.setGang_qps (s : State) (r : GangRef) (x : Gang) : (s.setGang r x).qps = s.qps := rfl
@[simp] theorem State.setGang_peers (s : State) (r : GangRef) (x : Gang) : (s.setGang r x).peers = s.peers := rfl
@[simp] theorem State.setGang_nextPeer (s : State) (r : GangRef) (x : Gang) : (s.setGang r x).nextPeer = s.nextPeer := rfl
@[simp] theorem State.setGang_deferral (s : State) (r : GangRef) (x : Gang) : (s.setGang r x).deferral = s.deferral := rfl
@[simp] theorem State.setGang_ports (s : State) (r : GangRef) (x : Gang) : (s.setGang r x).ports = s.ports := rfl
@[simp] theorem State.setGang_secure (s : State) (r : GangRef) (x : Gang) : (s.setGang r x).secure = s.secure := rfl
@[simp] theorem State.setGang_secureCores (s : State) (r : GangRef) (x : Gang) : (s.setGang r x).secureCores = s.secureCores := rfl
@[simp] theorem State.setGang_buckets (s : State) (r : GangRef) (x : Gang) : (s.setGang r x).buckets = s.buckets := rfl
@[simp] theorem State.setGang_bucketWindow (s : State) (r : GangRef) (x : Gang) : (s.setGang r x).bucketWindow = s.bucketWindow := rfl
@[simp] theorem State.setGang_counters (s : State) (r : GangRef) (x : Gang) : (s.setGang r x).counters = s.counters := rfl
@[simp] theorem State.setGang_issueClocks (s : State) (r : GangRef) (x : Gang) : (s.setGang r x).issueClocks = s.issueClocks := rfl
@[simp] theorem State.setGang_dies (s : State) (r : GangRef) (x : Gang) : (s.setGang r x).dies = s.dies := rfl
@[simp] theorem State.setGang_retraining (s : State) (r : GangRef) (x : Gang) : (s.setGang r x).retraining = s.retraining := rfl
@[simp] theorem State.setGang_failedRetrains (s : State) (r : GangRef) (x : Gang) : (s.setGang r x).failedRetrains = s.failedRetrains := rfl
@[simp] theorem State.setGang_telInterval (s : State) (r : GangRef) (x : Gang) : (s.setGang r x).telInterval = s.telInterval := rfl
@[simp] theorem State.setGang_telModule (s : State) (r : GangRef) (x : Gang) : (s.setGang r x).telModule = s.telModule := rfl
@[simp] theorem State.setGang_telLatch (s : State) (r : GangRef) (x : Gang) : (s.setGang r x).telLatch = s.telLatch := rfl
@[simp] theorem State.setGang_telPending (s : State) (r : GangRef) (x : Gang) : (s.setGang r x).telPending = s.telPending := rfl
@[simp] theorem State.setGang_sampledAt (s : State) (r : GangRef) (x : Gang) : (s.setGang r x).sampledAt = s.sampledAt := rfl
@[simp] theorem State.setGang_traceBuf (s : State) (r : GangRef) (x : Gang) : (s.setGang r x).traceBuf = s.traceBuf := rfl
@[simp] theorem State.setGang_modLog (s : State) (r : GangRef) (x : Gang) : (s.setGang r x).modLog = s.modLog := rfl
@[simp] theorem State.setGang_modLogCount (s : State) (r : GangRef) (x : Gang) : (s.setGang r x).modLogCount = s.modLogCount := rfl
@[simp] theorem State.setGang_dumps (s : State) (r : GangRef) (x : Gang) : (s.setGang r x).dumps = s.dumps := rfl
@[simp] theorem State.setGang_sessions (s : State) (r : GangRef) (x : Gang) : (s.setGang r x).sessions = s.sessions := rfl
@[simp] theorem State.setGang_agents (s : State) (r : GangRef) (x : Gang) : (s.setGang r x).agents = s.agents := rfl
@[simp] theorem State.setGang_challenge (s : State) (r : GangRef) (x : Gang) : (s.setGang r x).challenge = s.challenge := rfl
@[simp] theorem State.setGang_fw (s : State) (r : GangRef) (x : Gang) : (s.setGang r x).fw = s.fw := rfl
@[simp] theorem State.setGang_image (s : State) (r : GangRef) (x : Gang) : (s.setGang r x).image = s.image := rfl
@[simp] theorem State.setGang_ckptStatus (s : State) (r : GangRef) (x : Gang) : (s.setGang r x).ckptStatus = s.ckptStatus := rfl
@[simp] theorem State.setGang_ckptRun (s : State) (r : GangRef) (x : Gang) : (s.setGang r x).ckptRun = s.ckptRun := rfl
@[simp] theorem State.setGang_remote (s : State) (r : GangRef) (x : Gang) : (s.setGang r x).remote = s.remote := rfl
@[simp] theorem State.setGang_halted (s : State) (r : GangRef) (x : Gang) : (s.setGang r x).halted = s.halted := rfl

/-! ### What State.setTask leaves unchanged -/

@[simp] theorem State.setTask_agenda (s : State) (k : Nat) (x : Task) : (s.setTask k x).agenda = s.agenda := rfl
@[simp] theorem State.setTask_cur (s : State) (k : Nat) (x : Task) : (s.setTask k x).cur = s.cur := rfl
@[simp] theorem State.setTask_split (s : State) (k : Nat) (x : Task) : (s.setTask k x).split = s.split := rfl
@[simp] theorem State.setTask_freeCtr (s : State) (k : Nat) (x : Task) : (s.setTask k x).freeCtr = s.freeCtr := rfl
@[simp] theorem State.setTask_replies (s : State) (k : Nat) (x : Task) : (s.setTask k x).replies = s.replies := rfl
@[simp] theorem State.setTask_tick (s : State) (k : Nat) (x : Task) : (s.setTask k x).tick = s.tick := rfl
@[simp] theorem State.setTask_issueCtr (s : State) (k : Nat) (x : Task) : (s.setTask k x).issueCtr = s.issueCtr := rfl
@[simp] theorem State.setTask_gangs (s : State) (k : Nat) (x : Task) : (s.setTask k x).gangs = s.gangs := rfl
@[simp] theorem State.setTask_teams (s : State) (k : Nat) (x : Task) : (s.setTask k x).teams = s.teams := rfl
@[simp] theorem State.setTask_nextTeam (s : State) (k : Nat) (x : Task) : (s.setTask k x).nextTeam = s.nextTeam := rfl
@[simp] theorem State.setTask_chains (s : State) (k : Nat) (x : Task) : (s.setTask k x).chains = s.chains := rfl
@[simp] theorem State.setTask_mxq (s : State) (k : Nat) (x : Task) : (s.setTask k x).mxq = s.mxq := rfl
@[simp] theorem State.setTask_engine (s : State) (k : Nat) (x : Task) : (s.setTask k x).engine = s.engine := rfl
@[simp] theorem State.setTask_nextEngine (s : State) (k : Nat) (x : Task) : (s.setTask k x).nextEngine = s.nextEngine := rfl
@[simp] theorem State.setTask_icache (s : State) (k : Nat) (x : Task) : (s.setTask k x).icache = s.icache := rfl
@[simp] theorem State.setTask_codeBy (s : State) (k : Nat) (x : Task) : (s.setTask k x).codeBy = s.codeBy := rfl
@[simp] theorem State.setTask_ended (s : State) (k : Nat) (x : Task) : (s.setTask k x).ended = s.ended := rfl
@[simp] theorem State.setTask_tlb (s : State) (k : Nat) (x : Task) : (s.setTask k x).tlb = s.tlb := rfl
@[simp] theorem State.setTask_walkCache (s : State) (k : Nat) (x : Task) : (s.setTask k x).walkCache = s.walkCache := rfl
@[simp] theorem State.setTask_walks (s : State) (k : Nat) (x : Task) : (s.setTask k x).walks = s.walks := rfl
@[simp] theorem State.setTask_l1 (s : State) (k : Nat) (x : Task) : (s.setTask k x).l1 = s.l1 := rfl
@[simp] theorem State.setTask_directory (s : State) (k : Nat) (x : Task) : (s.setTask k x).directory = s.directory := rfl
@[simp] theorem State.setTask_filters (s : State) (k : Nat) (x : Task) : (s.setTask k x).filters = s.filters := rfl
@[simp] theorem State.setTask_mem (s : State) (k : Nat) (x : Task) : (s.setTask k x).mem = s.mem := rfl
@[simp] theorem State.setTask_memPoison (s : State) (k : Nat) (x : Task) : (s.setTask k x).memPoison = s.memPoison := rfl
@[simp] theorem State.setTask_memCorr (s : State) (k : Nat) (x : Task) : (s.setTask k x).memCorr = s.memCorr := rfl
@[simp] theorem State.setTask_gens (s : State) (k : Nat) (x : Task) : (s.setTask k x).gens = s.gens := rfl
@[simp] theorem State.setTask_absent (s : State) (k : Nat) (x : Task) : (s.setTask k x).absent = s.absent := rfl
@[simp] theorem State.setTask_dieCache (s : State) (k : Nat) (x : Task) : (s.setTask k x).dieCache = s.dieCache := rfl
@[simp] theorem State.setTask_dieCorr (s : State) (k : Nat) (x : Task) : (s.setTask k x).dieCorr = s.dieCorr := rfl
@[simp] theorem State.setTask_nextOrder (s : State) (k : Nat) (x : Task) : (s.setTask k x).nextOrder = s.nextOrder := rfl
@[simp] theorem State.setTask_ctxs (s : State) (k : Nat) (x : Task) : (s.setTask k x).ctxs = s.ctxs := rfl
@[simp] theorem State.setTask_queues (s : State) (k : Nat) (x : Task) : (s.setTask k x).queues = s.queues := rfl
@[simp] theorem State.setTask_copies (s : State) (k : Nat) (x : Task) : (s.setTask k x).copies = s.copies := rfl
@[simp] theorem State.setTask_nextCopy (s : State) (k : Nat) (x : Task) : (s.setTask k x).nextCopy = s.nextCopy := rfl
@[simp] theorem State.setTask_migrations (s : State) (k : Nat) (x : Task) : (s.setTask k x).migrations = s.migrations := rfl
@[simp] theorem State.setTask_keys (s : State) (k : Nat) (x : Task) : (s.setTask k x).keys = s.keys := rfl
@[simp] theorem State.setTask_windows (s : State) (k : Nat) (x : Task) : (s.setTask k x).windows = s.windows := rfl
@[simp] theorem State.setTask_qps (s : State) (k : Nat) (x : Task) : (s.setTask k x).qps = s.qps := rfl
@[simp] theorem State.setTask_peers (s : State) (k : Nat) (x : Task) : (s.setTask k x).peers = s.peers := rfl
@[simp] theorem State.setTask_nextPeer (s : State) (k : Nat) (x : Task) : (s.setTask k x).nextPeer = s.nextPeer := rfl
@[simp] theorem State.setTask_deferral (s : State) (k : Nat) (x : Task) : (s.setTask k x).deferral = s.deferral := rfl
@[simp] theorem State.setTask_ports (s : State) (k : Nat) (x : Task) : (s.setTask k x).ports = s.ports := rfl
@[simp] theorem State.setTask_secure (s : State) (k : Nat) (x : Task) : (s.setTask k x).secure = s.secure := rfl
@[simp] theorem State.setTask_secureCores (s : State) (k : Nat) (x : Task) : (s.setTask k x).secureCores = s.secureCores := rfl
@[simp] theorem State.setTask_buckets (s : State) (k : Nat) (x : Task) : (s.setTask k x).buckets = s.buckets := rfl
@[simp] theorem State.setTask_bucketWindow (s : State) (k : Nat) (x : Task) : (s.setTask k x).bucketWindow = s.bucketWindow := rfl
@[simp] theorem State.setTask_counters (s : State) (k : Nat) (x : Task) : (s.setTask k x).counters = s.counters := rfl
@[simp] theorem State.setTask_issueClocks (s : State) (k : Nat) (x : Task) : (s.setTask k x).issueClocks = s.issueClocks := rfl
@[simp] theorem State.setTask_dies (s : State) (k : Nat) (x : Task) : (s.setTask k x).dies = s.dies := rfl
@[simp] theorem State.setTask_retraining (s : State) (k : Nat) (x : Task) : (s.setTask k x).retraining = s.retraining := rfl
@[simp] theorem State.setTask_failedRetrains (s : State) (k : Nat) (x : Task) : (s.setTask k x).failedRetrains = s.failedRetrains := rfl
@[simp] theorem State.setTask_telInterval (s : State) (k : Nat) (x : Task) : (s.setTask k x).telInterval = s.telInterval := rfl
@[simp] theorem State.setTask_telModule (s : State) (k : Nat) (x : Task) : (s.setTask k x).telModule = s.telModule := rfl
@[simp] theorem State.setTask_telLatch (s : State) (k : Nat) (x : Task) : (s.setTask k x).telLatch = s.telLatch := rfl
@[simp] theorem State.setTask_telPending (s : State) (k : Nat) (x : Task) : (s.setTask k x).telPending = s.telPending := rfl
@[simp] theorem State.setTask_sampledAt (s : State) (k : Nat) (x : Task) : (s.setTask k x).sampledAt = s.sampledAt := rfl
@[simp] theorem State.setTask_traceBuf (s : State) (k : Nat) (x : Task) : (s.setTask k x).traceBuf = s.traceBuf := rfl
@[simp] theorem State.setTask_modLog (s : State) (k : Nat) (x : Task) : (s.setTask k x).modLog = s.modLog := rfl
@[simp] theorem State.setTask_modLogCount (s : State) (k : Nat) (x : Task) : (s.setTask k x).modLogCount = s.modLogCount := rfl
@[simp] theorem State.setTask_dumps (s : State) (k : Nat) (x : Task) : (s.setTask k x).dumps = s.dumps := rfl
@[simp] theorem State.setTask_sessions (s : State) (k : Nat) (x : Task) : (s.setTask k x).sessions = s.sessions := rfl
@[simp] theorem State.setTask_agents (s : State) (k : Nat) (x : Task) : (s.setTask k x).agents = s.agents := rfl
@[simp] theorem State.setTask_challenge (s : State) (k : Nat) (x : Task) : (s.setTask k x).challenge = s.challenge := rfl
@[simp] theorem State.setTask_fw (s : State) (k : Nat) (x : Task) : (s.setTask k x).fw = s.fw := rfl
@[simp] theorem State.setTask_image (s : State) (k : Nat) (x : Task) : (s.setTask k x).image = s.image := rfl
@[simp] theorem State.setTask_ckptStatus (s : State) (k : Nat) (x : Task) : (s.setTask k x).ckptStatus = s.ckptStatus := rfl
@[simp] theorem State.setTask_ckptRun (s : State) (k : Nat) (x : Task) : (s.setTask k x).ckptRun = s.ckptRun := rfl
@[simp] theorem State.setTask_remote (s : State) (k : Nat) (x : Task) : (s.setTask k x).remote = s.remote := rfl
@[simp] theorem State.setTask_halted (s : State) (k : Nat) (x : Task) : (s.setTask k x).halted = s.halted := rfl

/-! ### What State.setTeam leaves unchanged -/

@[simp] theorem State.setTeam_agenda (s : State) (k : Nat) (x : Team) : (s.setTeam k x).agenda = s.agenda := rfl
@[simp] theorem State.setTeam_cur (s : State) (k : Nat) (x : Team) : (s.setTeam k x).cur = s.cur := rfl
@[simp] theorem State.setTeam_split (s : State) (k : Nat) (x : Team) : (s.setTeam k x).split = s.split := rfl
@[simp] theorem State.setTeam_freeCtr (s : State) (k : Nat) (x : Team) : (s.setTeam k x).freeCtr = s.freeCtr := rfl
@[simp] theorem State.setTeam_replies (s : State) (k : Nat) (x : Team) : (s.setTeam k x).replies = s.replies := rfl
@[simp] theorem State.setTeam_tick (s : State) (k : Nat) (x : Team) : (s.setTeam k x).tick = s.tick := rfl
@[simp] theorem State.setTeam_issueCtr (s : State) (k : Nat) (x : Team) : (s.setTeam k x).issueCtr = s.issueCtr := rfl
@[simp] theorem State.setTeam_gangs (s : State) (k : Nat) (x : Team) : (s.setTeam k x).gangs = s.gangs := rfl
@[simp] theorem State.setTeam_nextTeam (s : State) (k : Nat) (x : Team) : (s.setTeam k x).nextTeam = s.nextTeam := rfl
@[simp] theorem State.setTeam_chains (s : State) (k : Nat) (x : Team) : (s.setTeam k x).chains = s.chains := rfl
@[simp] theorem State.setTeam_mxq (s : State) (k : Nat) (x : Team) : (s.setTeam k x).mxq = s.mxq := rfl
@[simp] theorem State.setTeam_engine (s : State) (k : Nat) (x : Team) : (s.setTeam k x).engine = s.engine := rfl
@[simp] theorem State.setTeam_nextEngine (s : State) (k : Nat) (x : Team) : (s.setTeam k x).nextEngine = s.nextEngine := rfl
@[simp] theorem State.setTeam_icache (s : State) (k : Nat) (x : Team) : (s.setTeam k x).icache = s.icache := rfl
@[simp] theorem State.setTeam_codeBy (s : State) (k : Nat) (x : Team) : (s.setTeam k x).codeBy = s.codeBy := rfl
@[simp] theorem State.setTeam_ended (s : State) (k : Nat) (x : Team) : (s.setTeam k x).ended = s.ended := rfl
@[simp] theorem State.setTeam_tlb (s : State) (k : Nat) (x : Team) : (s.setTeam k x).tlb = s.tlb := rfl
@[simp] theorem State.setTeam_walkCache (s : State) (k : Nat) (x : Team) : (s.setTeam k x).walkCache = s.walkCache := rfl
@[simp] theorem State.setTeam_walks (s : State) (k : Nat) (x : Team) : (s.setTeam k x).walks = s.walks := rfl
@[simp] theorem State.setTeam_l1 (s : State) (k : Nat) (x : Team) : (s.setTeam k x).l1 = s.l1 := rfl
@[simp] theorem State.setTeam_directory (s : State) (k : Nat) (x : Team) : (s.setTeam k x).directory = s.directory := rfl
@[simp] theorem State.setTeam_filters (s : State) (k : Nat) (x : Team) : (s.setTeam k x).filters = s.filters := rfl
@[simp] theorem State.setTeam_mem (s : State) (k : Nat) (x : Team) : (s.setTeam k x).mem = s.mem := rfl
@[simp] theorem State.setTeam_memPoison (s : State) (k : Nat) (x : Team) : (s.setTeam k x).memPoison = s.memPoison := rfl
@[simp] theorem State.setTeam_memCorr (s : State) (k : Nat) (x : Team) : (s.setTeam k x).memCorr = s.memCorr := rfl
@[simp] theorem State.setTeam_gens (s : State) (k : Nat) (x : Team) : (s.setTeam k x).gens = s.gens := rfl
@[simp] theorem State.setTeam_absent (s : State) (k : Nat) (x : Team) : (s.setTeam k x).absent = s.absent := rfl
@[simp] theorem State.setTeam_dieCache (s : State) (k : Nat) (x : Team) : (s.setTeam k x).dieCache = s.dieCache := rfl
@[simp] theorem State.setTeam_dieCorr (s : State) (k : Nat) (x : Team) : (s.setTeam k x).dieCorr = s.dieCorr := rfl
@[simp] theorem State.setTeam_tasks (s : State) (k : Nat) (x : Team) : (s.setTeam k x).tasks = s.tasks := rfl
@[simp] theorem State.setTeam_nextOrder (s : State) (k : Nat) (x : Team) : (s.setTeam k x).nextOrder = s.nextOrder := rfl
@[simp] theorem State.setTeam_ctxs (s : State) (k : Nat) (x : Team) : (s.setTeam k x).ctxs = s.ctxs := rfl
@[simp] theorem State.setTeam_queues (s : State) (k : Nat) (x : Team) : (s.setTeam k x).queues = s.queues := rfl
@[simp] theorem State.setTeam_copies (s : State) (k : Nat) (x : Team) : (s.setTeam k x).copies = s.copies := rfl
@[simp] theorem State.setTeam_nextCopy (s : State) (k : Nat) (x : Team) : (s.setTeam k x).nextCopy = s.nextCopy := rfl
@[simp] theorem State.setTeam_migrations (s : State) (k : Nat) (x : Team) : (s.setTeam k x).migrations = s.migrations := rfl
@[simp] theorem State.setTeam_keys (s : State) (k : Nat) (x : Team) : (s.setTeam k x).keys = s.keys := rfl
@[simp] theorem State.setTeam_windows (s : State) (k : Nat) (x : Team) : (s.setTeam k x).windows = s.windows := rfl
@[simp] theorem State.setTeam_qps (s : State) (k : Nat) (x : Team) : (s.setTeam k x).qps = s.qps := rfl
@[simp] theorem State.setTeam_peers (s : State) (k : Nat) (x : Team) : (s.setTeam k x).peers = s.peers := rfl
@[simp] theorem State.setTeam_nextPeer (s : State) (k : Nat) (x : Team) : (s.setTeam k x).nextPeer = s.nextPeer := rfl
@[simp] theorem State.setTeam_deferral (s : State) (k : Nat) (x : Team) : (s.setTeam k x).deferral = s.deferral := rfl
@[simp] theorem State.setTeam_ports (s : State) (k : Nat) (x : Team) : (s.setTeam k x).ports = s.ports := rfl
@[simp] theorem State.setTeam_secure (s : State) (k : Nat) (x : Team) : (s.setTeam k x).secure = s.secure := rfl
@[simp] theorem State.setTeam_secureCores (s : State) (k : Nat) (x : Team) : (s.setTeam k x).secureCores = s.secureCores := rfl
@[simp] theorem State.setTeam_buckets (s : State) (k : Nat) (x : Team) : (s.setTeam k x).buckets = s.buckets := rfl
@[simp] theorem State.setTeam_bucketWindow (s : State) (k : Nat) (x : Team) : (s.setTeam k x).bucketWindow = s.bucketWindow := rfl
@[simp] theorem State.setTeam_counters (s : State) (k : Nat) (x : Team) : (s.setTeam k x).counters = s.counters := rfl
@[simp] theorem State.setTeam_issueClocks (s : State) (k : Nat) (x : Team) : (s.setTeam k x).issueClocks = s.issueClocks := rfl
@[simp] theorem State.setTeam_dies (s : State) (k : Nat) (x : Team) : (s.setTeam k x).dies = s.dies := rfl
@[simp] theorem State.setTeam_retraining (s : State) (k : Nat) (x : Team) : (s.setTeam k x).retraining = s.retraining := rfl
@[simp] theorem State.setTeam_failedRetrains (s : State) (k : Nat) (x : Team) : (s.setTeam k x).failedRetrains = s.failedRetrains := rfl
@[simp] theorem State.setTeam_telInterval (s : State) (k : Nat) (x : Team) : (s.setTeam k x).telInterval = s.telInterval := rfl
@[simp] theorem State.setTeam_telModule (s : State) (k : Nat) (x : Team) : (s.setTeam k x).telModule = s.telModule := rfl
@[simp] theorem State.setTeam_telLatch (s : State) (k : Nat) (x : Team) : (s.setTeam k x).telLatch = s.telLatch := rfl
@[simp] theorem State.setTeam_telPending (s : State) (k : Nat) (x : Team) : (s.setTeam k x).telPending = s.telPending := rfl
@[simp] theorem State.setTeam_sampledAt (s : State) (k : Nat) (x : Team) : (s.setTeam k x).sampledAt = s.sampledAt := rfl
@[simp] theorem State.setTeam_traceBuf (s : State) (k : Nat) (x : Team) : (s.setTeam k x).traceBuf = s.traceBuf := rfl
@[simp] theorem State.setTeam_modLog (s : State) (k : Nat) (x : Team) : (s.setTeam k x).modLog = s.modLog := rfl
@[simp] theorem State.setTeam_modLogCount (s : State) (k : Nat) (x : Team) : (s.setTeam k x).modLogCount = s.modLogCount := rfl
@[simp] theorem State.setTeam_dumps (s : State) (k : Nat) (x : Team) : (s.setTeam k x).dumps = s.dumps := rfl
@[simp] theorem State.setTeam_sessions (s : State) (k : Nat) (x : Team) : (s.setTeam k x).sessions = s.sessions := rfl
@[simp] theorem State.setTeam_agents (s : State) (k : Nat) (x : Team) : (s.setTeam k x).agents = s.agents := rfl
@[simp] theorem State.setTeam_challenge (s : State) (k : Nat) (x : Team) : (s.setTeam k x).challenge = s.challenge := rfl
@[simp] theorem State.setTeam_fw (s : State) (k : Nat) (x : Team) : (s.setTeam k x).fw = s.fw := rfl
@[simp] theorem State.setTeam_image (s : State) (k : Nat) (x : Team) : (s.setTeam k x).image = s.image := rfl
@[simp] theorem State.setTeam_ckptStatus (s : State) (k : Nat) (x : Team) : (s.setTeam k x).ckptStatus = s.ckptStatus := rfl
@[simp] theorem State.setTeam_ckptRun (s : State) (k : Nat) (x : Team) : (s.setTeam k x).ckptRun = s.ckptRun := rfl
@[simp] theorem State.setTeam_remote (s : State) (k : Nat) (x : Team) : (s.setTeam k x).remote = s.remote := rfl
@[simp] theorem State.setTeam_halted (s : State) (k : Nat) (x : Team) : (s.setTeam k x).halted = s.halted := rfl

/-! ### What State.setCtx leaves unchanged -/

@[simp] theorem State.setCtx_agenda (s : State) (k : Nat) (x : Ctx) : (s.setCtx k x).agenda = s.agenda := rfl
@[simp] theorem State.setCtx_cur (s : State) (k : Nat) (x : Ctx) : (s.setCtx k x).cur = s.cur := rfl
@[simp] theorem State.setCtx_split (s : State) (k : Nat) (x : Ctx) : (s.setCtx k x).split = s.split := rfl
@[simp] theorem State.setCtx_freeCtr (s : State) (k : Nat) (x : Ctx) : (s.setCtx k x).freeCtr = s.freeCtr := rfl
@[simp] theorem State.setCtx_replies (s : State) (k : Nat) (x : Ctx) : (s.setCtx k x).replies = s.replies := rfl
@[simp] theorem State.setCtx_tick (s : State) (k : Nat) (x : Ctx) : (s.setCtx k x).tick = s.tick := rfl
@[simp] theorem State.setCtx_issueCtr (s : State) (k : Nat) (x : Ctx) : (s.setCtx k x).issueCtr = s.issueCtr := rfl
@[simp] theorem State.setCtx_gangs (s : State) (k : Nat) (x : Ctx) : (s.setCtx k x).gangs = s.gangs := rfl
@[simp] theorem State.setCtx_teams (s : State) (k : Nat) (x : Ctx) : (s.setCtx k x).teams = s.teams := rfl
@[simp] theorem State.setCtx_nextTeam (s : State) (k : Nat) (x : Ctx) : (s.setCtx k x).nextTeam = s.nextTeam := rfl
@[simp] theorem State.setCtx_chains (s : State) (k : Nat) (x : Ctx) : (s.setCtx k x).chains = s.chains := rfl
@[simp] theorem State.setCtx_mxq (s : State) (k : Nat) (x : Ctx) : (s.setCtx k x).mxq = s.mxq := rfl
@[simp] theorem State.setCtx_engine (s : State) (k : Nat) (x : Ctx) : (s.setCtx k x).engine = s.engine := rfl
@[simp] theorem State.setCtx_nextEngine (s : State) (k : Nat) (x : Ctx) : (s.setCtx k x).nextEngine = s.nextEngine := rfl
@[simp] theorem State.setCtx_icache (s : State) (k : Nat) (x : Ctx) : (s.setCtx k x).icache = s.icache := rfl
@[simp] theorem State.setCtx_codeBy (s : State) (k : Nat) (x : Ctx) : (s.setCtx k x).codeBy = s.codeBy := rfl
@[simp] theorem State.setCtx_ended (s : State) (k : Nat) (x : Ctx) : (s.setCtx k x).ended = s.ended := rfl
@[simp] theorem State.setCtx_tlb (s : State) (k : Nat) (x : Ctx) : (s.setCtx k x).tlb = s.tlb := rfl
@[simp] theorem State.setCtx_walkCache (s : State) (k : Nat) (x : Ctx) : (s.setCtx k x).walkCache = s.walkCache := rfl
@[simp] theorem State.setCtx_walks (s : State) (k : Nat) (x : Ctx) : (s.setCtx k x).walks = s.walks := rfl
@[simp] theorem State.setCtx_l1 (s : State) (k : Nat) (x : Ctx) : (s.setCtx k x).l1 = s.l1 := rfl
@[simp] theorem State.setCtx_directory (s : State) (k : Nat) (x : Ctx) : (s.setCtx k x).directory = s.directory := rfl
@[simp] theorem State.setCtx_filters (s : State) (k : Nat) (x : Ctx) : (s.setCtx k x).filters = s.filters := rfl
@[simp] theorem State.setCtx_mem (s : State) (k : Nat) (x : Ctx) : (s.setCtx k x).mem = s.mem := rfl
@[simp] theorem State.setCtx_memPoison (s : State) (k : Nat) (x : Ctx) : (s.setCtx k x).memPoison = s.memPoison := rfl
@[simp] theorem State.setCtx_memCorr (s : State) (k : Nat) (x : Ctx) : (s.setCtx k x).memCorr = s.memCorr := rfl
@[simp] theorem State.setCtx_gens (s : State) (k : Nat) (x : Ctx) : (s.setCtx k x).gens = s.gens := rfl
@[simp] theorem State.setCtx_absent (s : State) (k : Nat) (x : Ctx) : (s.setCtx k x).absent = s.absent := rfl
@[simp] theorem State.setCtx_dieCache (s : State) (k : Nat) (x : Ctx) : (s.setCtx k x).dieCache = s.dieCache := rfl
@[simp] theorem State.setCtx_dieCorr (s : State) (k : Nat) (x : Ctx) : (s.setCtx k x).dieCorr = s.dieCorr := rfl
@[simp] theorem State.setCtx_tasks (s : State) (k : Nat) (x : Ctx) : (s.setCtx k x).tasks = s.tasks := rfl
@[simp] theorem State.setCtx_nextOrder (s : State) (k : Nat) (x : Ctx) : (s.setCtx k x).nextOrder = s.nextOrder := rfl
@[simp] theorem State.setCtx_queues (s : State) (k : Nat) (x : Ctx) : (s.setCtx k x).queues = s.queues := rfl
@[simp] theorem State.setCtx_copies (s : State) (k : Nat) (x : Ctx) : (s.setCtx k x).copies = s.copies := rfl
@[simp] theorem State.setCtx_nextCopy (s : State) (k : Nat) (x : Ctx) : (s.setCtx k x).nextCopy = s.nextCopy := rfl
@[simp] theorem State.setCtx_migrations (s : State) (k : Nat) (x : Ctx) : (s.setCtx k x).migrations = s.migrations := rfl
@[simp] theorem State.setCtx_keys (s : State) (k : Nat) (x : Ctx) : (s.setCtx k x).keys = s.keys := rfl
@[simp] theorem State.setCtx_windows (s : State) (k : Nat) (x : Ctx) : (s.setCtx k x).windows = s.windows := rfl
@[simp] theorem State.setCtx_qps (s : State) (k : Nat) (x : Ctx) : (s.setCtx k x).qps = s.qps := rfl
@[simp] theorem State.setCtx_peers (s : State) (k : Nat) (x : Ctx) : (s.setCtx k x).peers = s.peers := rfl
@[simp] theorem State.setCtx_nextPeer (s : State) (k : Nat) (x : Ctx) : (s.setCtx k x).nextPeer = s.nextPeer := rfl
@[simp] theorem State.setCtx_deferral (s : State) (k : Nat) (x : Ctx) : (s.setCtx k x).deferral = s.deferral := rfl
@[simp] theorem State.setCtx_ports (s : State) (k : Nat) (x : Ctx) : (s.setCtx k x).ports = s.ports := rfl
@[simp] theorem State.setCtx_secure (s : State) (k : Nat) (x : Ctx) : (s.setCtx k x).secure = s.secure := rfl
@[simp] theorem State.setCtx_secureCores (s : State) (k : Nat) (x : Ctx) : (s.setCtx k x).secureCores = s.secureCores := rfl
@[simp] theorem State.setCtx_buckets (s : State) (k : Nat) (x : Ctx) : (s.setCtx k x).buckets = s.buckets := rfl
@[simp] theorem State.setCtx_bucketWindow (s : State) (k : Nat) (x : Ctx) : (s.setCtx k x).bucketWindow = s.bucketWindow := rfl
@[simp] theorem State.setCtx_counters (s : State) (k : Nat) (x : Ctx) : (s.setCtx k x).counters = s.counters := rfl
@[simp] theorem State.setCtx_issueClocks (s : State) (k : Nat) (x : Ctx) : (s.setCtx k x).issueClocks = s.issueClocks := rfl
@[simp] theorem State.setCtx_dies (s : State) (k : Nat) (x : Ctx) : (s.setCtx k x).dies = s.dies := rfl
@[simp] theorem State.setCtx_retraining (s : State) (k : Nat) (x : Ctx) : (s.setCtx k x).retraining = s.retraining := rfl
@[simp] theorem State.setCtx_failedRetrains (s : State) (k : Nat) (x : Ctx) : (s.setCtx k x).failedRetrains = s.failedRetrains := rfl
@[simp] theorem State.setCtx_telInterval (s : State) (k : Nat) (x : Ctx) : (s.setCtx k x).telInterval = s.telInterval := rfl
@[simp] theorem State.setCtx_telModule (s : State) (k : Nat) (x : Ctx) : (s.setCtx k x).telModule = s.telModule := rfl
@[simp] theorem State.setCtx_telLatch (s : State) (k : Nat) (x : Ctx) : (s.setCtx k x).telLatch = s.telLatch := rfl
@[simp] theorem State.setCtx_telPending (s : State) (k : Nat) (x : Ctx) : (s.setCtx k x).telPending = s.telPending := rfl
@[simp] theorem State.setCtx_sampledAt (s : State) (k : Nat) (x : Ctx) : (s.setCtx k x).sampledAt = s.sampledAt := rfl
@[simp] theorem State.setCtx_traceBuf (s : State) (k : Nat) (x : Ctx) : (s.setCtx k x).traceBuf = s.traceBuf := rfl
@[simp] theorem State.setCtx_modLog (s : State) (k : Nat) (x : Ctx) : (s.setCtx k x).modLog = s.modLog := rfl
@[simp] theorem State.setCtx_modLogCount (s : State) (k : Nat) (x : Ctx) : (s.setCtx k x).modLogCount = s.modLogCount := rfl
@[simp] theorem State.setCtx_dumps (s : State) (k : Nat) (x : Ctx) : (s.setCtx k x).dumps = s.dumps := rfl
@[simp] theorem State.setCtx_sessions (s : State) (k : Nat) (x : Ctx) : (s.setCtx k x).sessions = s.sessions := rfl
@[simp] theorem State.setCtx_agents (s : State) (k : Nat) (x : Ctx) : (s.setCtx k x).agents = s.agents := rfl
@[simp] theorem State.setCtx_challenge (s : State) (k : Nat) (x : Ctx) : (s.setCtx k x).challenge = s.challenge := rfl
@[simp] theorem State.setCtx_fw (s : State) (k : Nat) (x : Ctx) : (s.setCtx k x).fw = s.fw := rfl
@[simp] theorem State.setCtx_image (s : State) (k : Nat) (x : Ctx) : (s.setCtx k x).image = s.image := rfl
@[simp] theorem State.setCtx_ckptStatus (s : State) (k : Nat) (x : Ctx) : (s.setCtx k x).ckptStatus = s.ckptStatus := rfl
@[simp] theorem State.setCtx_ckptRun (s : State) (k : Nat) (x : Ctx) : (s.setCtx k x).ckptRun = s.ckptRun := rfl
@[simp] theorem State.setCtx_remote (s : State) (k : Nat) (x : Ctx) : (s.setCtx k x).remote = s.remote := rfl
@[simp] theorem State.setCtx_halted (s : State) (k : Nat) (x : Ctx) : (s.setCtx k x).halted = s.halted := rfl

/-! ### What State.setQueue leaves unchanged -/

@[simp] theorem State.setQueue_agenda (s : State) (k : Nat) (x : Queue) : (s.setQueue k x).agenda = s.agenda := rfl
@[simp] theorem State.setQueue_cur (s : State) (k : Nat) (x : Queue) : (s.setQueue k x).cur = s.cur := rfl
@[simp] theorem State.setQueue_split (s : State) (k : Nat) (x : Queue) : (s.setQueue k x).split = s.split := rfl
@[simp] theorem State.setQueue_freeCtr (s : State) (k : Nat) (x : Queue) : (s.setQueue k x).freeCtr = s.freeCtr := rfl
@[simp] theorem State.setQueue_replies (s : State) (k : Nat) (x : Queue) : (s.setQueue k x).replies = s.replies := rfl
@[simp] theorem State.setQueue_tick (s : State) (k : Nat) (x : Queue) : (s.setQueue k x).tick = s.tick := rfl
@[simp] theorem State.setQueue_issueCtr (s : State) (k : Nat) (x : Queue) : (s.setQueue k x).issueCtr = s.issueCtr := rfl
@[simp] theorem State.setQueue_gangs (s : State) (k : Nat) (x : Queue) : (s.setQueue k x).gangs = s.gangs := rfl
@[simp] theorem State.setQueue_teams (s : State) (k : Nat) (x : Queue) : (s.setQueue k x).teams = s.teams := rfl
@[simp] theorem State.setQueue_nextTeam (s : State) (k : Nat) (x : Queue) : (s.setQueue k x).nextTeam = s.nextTeam := rfl
@[simp] theorem State.setQueue_chains (s : State) (k : Nat) (x : Queue) : (s.setQueue k x).chains = s.chains := rfl
@[simp] theorem State.setQueue_mxq (s : State) (k : Nat) (x : Queue) : (s.setQueue k x).mxq = s.mxq := rfl
@[simp] theorem State.setQueue_engine (s : State) (k : Nat) (x : Queue) : (s.setQueue k x).engine = s.engine := rfl
@[simp] theorem State.setQueue_nextEngine (s : State) (k : Nat) (x : Queue) : (s.setQueue k x).nextEngine = s.nextEngine := rfl
@[simp] theorem State.setQueue_icache (s : State) (k : Nat) (x : Queue) : (s.setQueue k x).icache = s.icache := rfl
@[simp] theorem State.setQueue_codeBy (s : State) (k : Nat) (x : Queue) : (s.setQueue k x).codeBy = s.codeBy := rfl
@[simp] theorem State.setQueue_ended (s : State) (k : Nat) (x : Queue) : (s.setQueue k x).ended = s.ended := rfl
@[simp] theorem State.setQueue_tlb (s : State) (k : Nat) (x : Queue) : (s.setQueue k x).tlb = s.tlb := rfl
@[simp] theorem State.setQueue_walkCache (s : State) (k : Nat) (x : Queue) : (s.setQueue k x).walkCache = s.walkCache := rfl
@[simp] theorem State.setQueue_walks (s : State) (k : Nat) (x : Queue) : (s.setQueue k x).walks = s.walks := rfl
@[simp] theorem State.setQueue_l1 (s : State) (k : Nat) (x : Queue) : (s.setQueue k x).l1 = s.l1 := rfl
@[simp] theorem State.setQueue_directory (s : State) (k : Nat) (x : Queue) : (s.setQueue k x).directory = s.directory := rfl
@[simp] theorem State.setQueue_filters (s : State) (k : Nat) (x : Queue) : (s.setQueue k x).filters = s.filters := rfl
@[simp] theorem State.setQueue_mem (s : State) (k : Nat) (x : Queue) : (s.setQueue k x).mem = s.mem := rfl
@[simp] theorem State.setQueue_memPoison (s : State) (k : Nat) (x : Queue) : (s.setQueue k x).memPoison = s.memPoison := rfl
@[simp] theorem State.setQueue_memCorr (s : State) (k : Nat) (x : Queue) : (s.setQueue k x).memCorr = s.memCorr := rfl
@[simp] theorem State.setQueue_gens (s : State) (k : Nat) (x : Queue) : (s.setQueue k x).gens = s.gens := rfl
@[simp] theorem State.setQueue_absent (s : State) (k : Nat) (x : Queue) : (s.setQueue k x).absent = s.absent := rfl
@[simp] theorem State.setQueue_dieCache (s : State) (k : Nat) (x : Queue) : (s.setQueue k x).dieCache = s.dieCache := rfl
@[simp] theorem State.setQueue_dieCorr (s : State) (k : Nat) (x : Queue) : (s.setQueue k x).dieCorr = s.dieCorr := rfl
@[simp] theorem State.setQueue_tasks (s : State) (k : Nat) (x : Queue) : (s.setQueue k x).tasks = s.tasks := rfl
@[simp] theorem State.setQueue_nextOrder (s : State) (k : Nat) (x : Queue) : (s.setQueue k x).nextOrder = s.nextOrder := rfl
@[simp] theorem State.setQueue_ctxs (s : State) (k : Nat) (x : Queue) : (s.setQueue k x).ctxs = s.ctxs := rfl
@[simp] theorem State.setQueue_copies (s : State) (k : Nat) (x : Queue) : (s.setQueue k x).copies = s.copies := rfl
@[simp] theorem State.setQueue_nextCopy (s : State) (k : Nat) (x : Queue) : (s.setQueue k x).nextCopy = s.nextCopy := rfl
@[simp] theorem State.setQueue_migrations (s : State) (k : Nat) (x : Queue) : (s.setQueue k x).migrations = s.migrations := rfl
@[simp] theorem State.setQueue_keys (s : State) (k : Nat) (x : Queue) : (s.setQueue k x).keys = s.keys := rfl
@[simp] theorem State.setQueue_windows (s : State) (k : Nat) (x : Queue) : (s.setQueue k x).windows = s.windows := rfl
@[simp] theorem State.setQueue_qps (s : State) (k : Nat) (x : Queue) : (s.setQueue k x).qps = s.qps := rfl
@[simp] theorem State.setQueue_peers (s : State) (k : Nat) (x : Queue) : (s.setQueue k x).peers = s.peers := rfl
@[simp] theorem State.setQueue_nextPeer (s : State) (k : Nat) (x : Queue) : (s.setQueue k x).nextPeer = s.nextPeer := rfl
@[simp] theorem State.setQueue_deferral (s : State) (k : Nat) (x : Queue) : (s.setQueue k x).deferral = s.deferral := rfl
@[simp] theorem State.setQueue_ports (s : State) (k : Nat) (x : Queue) : (s.setQueue k x).ports = s.ports := rfl
@[simp] theorem State.setQueue_secure (s : State) (k : Nat) (x : Queue) : (s.setQueue k x).secure = s.secure := rfl
@[simp] theorem State.setQueue_secureCores (s : State) (k : Nat) (x : Queue) : (s.setQueue k x).secureCores = s.secureCores := rfl
@[simp] theorem State.setQueue_buckets (s : State) (k : Nat) (x : Queue) : (s.setQueue k x).buckets = s.buckets := rfl
@[simp] theorem State.setQueue_bucketWindow (s : State) (k : Nat) (x : Queue) : (s.setQueue k x).bucketWindow = s.bucketWindow := rfl
@[simp] theorem State.setQueue_counters (s : State) (k : Nat) (x : Queue) : (s.setQueue k x).counters = s.counters := rfl
@[simp] theorem State.setQueue_issueClocks (s : State) (k : Nat) (x : Queue) : (s.setQueue k x).issueClocks = s.issueClocks := rfl
@[simp] theorem State.setQueue_dies (s : State) (k : Nat) (x : Queue) : (s.setQueue k x).dies = s.dies := rfl
@[simp] theorem State.setQueue_retraining (s : State) (k : Nat) (x : Queue) : (s.setQueue k x).retraining = s.retraining := rfl
@[simp] theorem State.setQueue_failedRetrains (s : State) (k : Nat) (x : Queue) : (s.setQueue k x).failedRetrains = s.failedRetrains := rfl
@[simp] theorem State.setQueue_telInterval (s : State) (k : Nat) (x : Queue) : (s.setQueue k x).telInterval = s.telInterval := rfl
@[simp] theorem State.setQueue_telModule (s : State) (k : Nat) (x : Queue) : (s.setQueue k x).telModule = s.telModule := rfl
@[simp] theorem State.setQueue_telLatch (s : State) (k : Nat) (x : Queue) : (s.setQueue k x).telLatch = s.telLatch := rfl
@[simp] theorem State.setQueue_telPending (s : State) (k : Nat) (x : Queue) : (s.setQueue k x).telPending = s.telPending := rfl
@[simp] theorem State.setQueue_sampledAt (s : State) (k : Nat) (x : Queue) : (s.setQueue k x).sampledAt = s.sampledAt := rfl
@[simp] theorem State.setQueue_traceBuf (s : State) (k : Nat) (x : Queue) : (s.setQueue k x).traceBuf = s.traceBuf := rfl
@[simp] theorem State.setQueue_modLog (s : State) (k : Nat) (x : Queue) : (s.setQueue k x).modLog = s.modLog := rfl
@[simp] theorem State.setQueue_modLogCount (s : State) (k : Nat) (x : Queue) : (s.setQueue k x).modLogCount = s.modLogCount := rfl
@[simp] theorem State.setQueue_dumps (s : State) (k : Nat) (x : Queue) : (s.setQueue k x).dumps = s.dumps := rfl
@[simp] theorem State.setQueue_sessions (s : State) (k : Nat) (x : Queue) : (s.setQueue k x).sessions = s.sessions := rfl
@[simp] theorem State.setQueue_agents (s : State) (k : Nat) (x : Queue) : (s.setQueue k x).agents = s.agents := rfl
@[simp] theorem State.setQueue_challenge (s : State) (k : Nat) (x : Queue) : (s.setQueue k x).challenge = s.challenge := rfl
@[simp] theorem State.setQueue_fw (s : State) (k : Nat) (x : Queue) : (s.setQueue k x).fw = s.fw := rfl
@[simp] theorem State.setQueue_image (s : State) (k : Nat) (x : Queue) : (s.setQueue k x).image = s.image := rfl
@[simp] theorem State.setQueue_ckptStatus (s : State) (k : Nat) (x : Queue) : (s.setQueue k x).ckptStatus = s.ckptStatus := rfl
@[simp] theorem State.setQueue_ckptRun (s : State) (k : Nat) (x : Queue) : (s.setQueue k x).ckptRun = s.ckptRun := rfl
@[simp] theorem State.setQueue_remote (s : State) (k : Nat) (x : Queue) : (s.setQueue k x).remote = s.remote := rfl
@[simp] theorem State.setQueue_halted (s : State) (k : Nat) (x : Queue) : (s.setQueue k x).halted = s.halted := rfl

/-! ### Counters -/

/-- No two counters share a key. -/
theorem Counter.key_inj {c d : Counter} {i j : Nat} (h : c.key i = d.key j) : c = d ∧ i = j := by
  have hc : c.ctorIdx < 64 := by cases c <;> decide
  have hd : d.ctorIdx < 64 := by cases d <;> decide
  unfold Counter.key at h
  have hx := congrArg Counter.ofNat (show c.ctorIdx = d.ctorIdx by omega)
  rw [Counter.ofNat_ctorIdx, Counter.ofNat_ctorIdx] at hx
  exact ⟨hx, by omega⟩

/-- R253: a counter raised. -/
theorem State.count_bump_self (s : State) (c : Counter) (ix n : Nat) : (s.bump c ix n).count c ix = s.count c ix + w64 n := by
  simp [State.count, State.bump]

/-- R253: the other counters are as before. -/
theorem State.count_bump_ne (s : State) {c d : Counter} {i j : Nat} (n : Nat) (h : ¬ (d = c ∧ j = i)) :
    (s.bump c i n).count d j = s.count d j := by
  unfold State.count State.bump
  exact KMap.get_set_ne _ _ _ fun hk => h (Counter.key_inj hk)

/-! ### What State.bump leaves unchanged -/

@[simp] theorem State.bump_agenda (s : State) (c : Counter) (ix n : Nat) : (s.bump c ix n).agenda = s.agenda := rfl
@[simp] theorem State.bump_cur (s : State) (c : Counter) (ix n : Nat) : (s.bump c ix n).cur = s.cur := rfl
@[simp] theorem State.bump_split (s : State) (c : Counter) (ix n : Nat) : (s.bump c ix n).split = s.split := rfl
@[simp] theorem State.bump_freeCtr (s : State) (c : Counter) (ix n : Nat) : (s.bump c ix n).freeCtr = s.freeCtr := rfl
@[simp] theorem State.bump_replies (s : State) (c : Counter) (ix n : Nat) : (s.bump c ix n).replies = s.replies := rfl
@[simp] theorem State.bump_tick (s : State) (c : Counter) (ix n : Nat) : (s.bump c ix n).tick = s.tick := rfl
@[simp] theorem State.bump_issueCtr (s : State) (c : Counter) (ix n : Nat) : (s.bump c ix n).issueCtr = s.issueCtr := rfl
@[simp] theorem State.bump_gangs (s : State) (c : Counter) (ix n : Nat) : (s.bump c ix n).gangs = s.gangs := rfl
@[simp] theorem State.bump_teams (s : State) (c : Counter) (ix n : Nat) : (s.bump c ix n).teams = s.teams := rfl
@[simp] theorem State.bump_nextTeam (s : State) (c : Counter) (ix n : Nat) : (s.bump c ix n).nextTeam = s.nextTeam := rfl
@[simp] theorem State.bump_chains (s : State) (c : Counter) (ix n : Nat) : (s.bump c ix n).chains = s.chains := rfl
@[simp] theorem State.bump_mxq (s : State) (c : Counter) (ix n : Nat) : (s.bump c ix n).mxq = s.mxq := rfl
@[simp] theorem State.bump_engine (s : State) (c : Counter) (ix n : Nat) : (s.bump c ix n).engine = s.engine := rfl
@[simp] theorem State.bump_nextEngine (s : State) (c : Counter) (ix n : Nat) : (s.bump c ix n).nextEngine = s.nextEngine := rfl
@[simp] theorem State.bump_icache (s : State) (c : Counter) (ix n : Nat) : (s.bump c ix n).icache = s.icache := rfl
@[simp] theorem State.bump_codeBy (s : State) (c : Counter) (ix n : Nat) : (s.bump c ix n).codeBy = s.codeBy := rfl
@[simp] theorem State.bump_ended (s : State) (c : Counter) (ix n : Nat) : (s.bump c ix n).ended = s.ended := rfl
@[simp] theorem State.bump_tlb (s : State) (c : Counter) (ix n : Nat) : (s.bump c ix n).tlb = s.tlb := rfl
@[simp] theorem State.bump_walkCache (s : State) (c : Counter) (ix n : Nat) : (s.bump c ix n).walkCache = s.walkCache := rfl
@[simp] theorem State.bump_walks (s : State) (c : Counter) (ix n : Nat) : (s.bump c ix n).walks = s.walks := rfl
@[simp] theorem State.bump_l1 (s : State) (c : Counter) (ix n : Nat) : (s.bump c ix n).l1 = s.l1 := rfl
@[simp] theorem State.bump_directory (s : State) (c : Counter) (ix n : Nat) : (s.bump c ix n).directory = s.directory := rfl
@[simp] theorem State.bump_filters (s : State) (c : Counter) (ix n : Nat) : (s.bump c ix n).filters = s.filters := rfl
@[simp] theorem State.bump_mem (s : State) (c : Counter) (ix n : Nat) : (s.bump c ix n).mem = s.mem := rfl
@[simp] theorem State.bump_memPoison (s : State) (c : Counter) (ix n : Nat) : (s.bump c ix n).memPoison = s.memPoison := rfl
@[simp] theorem State.bump_memCorr (s : State) (c : Counter) (ix n : Nat) : (s.bump c ix n).memCorr = s.memCorr := rfl
@[simp] theorem State.bump_gens (s : State) (c : Counter) (ix n : Nat) : (s.bump c ix n).gens = s.gens := rfl
@[simp] theorem State.bump_absent (s : State) (c : Counter) (ix n : Nat) : (s.bump c ix n).absent = s.absent := rfl
@[simp] theorem State.bump_dieCache (s : State) (c : Counter) (ix n : Nat) : (s.bump c ix n).dieCache = s.dieCache := rfl
@[simp] theorem State.bump_dieCorr (s : State) (c : Counter) (ix n : Nat) : (s.bump c ix n).dieCorr = s.dieCorr := rfl
@[simp] theorem State.bump_tasks (s : State) (c : Counter) (ix n : Nat) : (s.bump c ix n).tasks = s.tasks := rfl
@[simp] theorem State.bump_nextOrder (s : State) (c : Counter) (ix n : Nat) : (s.bump c ix n).nextOrder = s.nextOrder := rfl
@[simp] theorem State.bump_ctxs (s : State) (c : Counter) (ix n : Nat) : (s.bump c ix n).ctxs = s.ctxs := rfl
@[simp] theorem State.bump_queues (s : State) (c : Counter) (ix n : Nat) : (s.bump c ix n).queues = s.queues := rfl
@[simp] theorem State.bump_copies (s : State) (c : Counter) (ix n : Nat) : (s.bump c ix n).copies = s.copies := rfl
@[simp] theorem State.bump_nextCopy (s : State) (c : Counter) (ix n : Nat) : (s.bump c ix n).nextCopy = s.nextCopy := rfl
@[simp] theorem State.bump_migrations (s : State) (c : Counter) (ix n : Nat) : (s.bump c ix n).migrations = s.migrations := rfl
@[simp] theorem State.bump_keys (s : State) (c : Counter) (ix n : Nat) : (s.bump c ix n).keys = s.keys := rfl
@[simp] theorem State.bump_windows (s : State) (c : Counter) (ix n : Nat) : (s.bump c ix n).windows = s.windows := rfl
@[simp] theorem State.bump_qps (s : State) (c : Counter) (ix n : Nat) : (s.bump c ix n).qps = s.qps := rfl
@[simp] theorem State.bump_peers (s : State) (c : Counter) (ix n : Nat) : (s.bump c ix n).peers = s.peers := rfl
@[simp] theorem State.bump_nextPeer (s : State) (c : Counter) (ix n : Nat) : (s.bump c ix n).nextPeer = s.nextPeer := rfl
@[simp] theorem State.bump_deferral (s : State) (c : Counter) (ix n : Nat) : (s.bump c ix n).deferral = s.deferral := rfl
@[simp] theorem State.bump_ports (s : State) (c : Counter) (ix n : Nat) : (s.bump c ix n).ports = s.ports := rfl
@[simp] theorem State.bump_secure (s : State) (c : Counter) (ix n : Nat) : (s.bump c ix n).secure = s.secure := rfl
@[simp] theorem State.bump_secureCores (s : State) (c : Counter) (ix n : Nat) : (s.bump c ix n).secureCores = s.secureCores := rfl
@[simp] theorem State.bump_buckets (s : State) (c : Counter) (ix n : Nat) : (s.bump c ix n).buckets = s.buckets := rfl
@[simp] theorem State.bump_bucketWindow (s : State) (c : Counter) (ix n : Nat) : (s.bump c ix n).bucketWindow = s.bucketWindow := rfl
@[simp] theorem State.bump_issueClocks (s : State) (c : Counter) (ix n : Nat) : (s.bump c ix n).issueClocks = s.issueClocks := rfl
@[simp] theorem State.bump_dies (s : State) (c : Counter) (ix n : Nat) : (s.bump c ix n).dies = s.dies := rfl
@[simp] theorem State.bump_retraining (s : State) (c : Counter) (ix n : Nat) : (s.bump c ix n).retraining = s.retraining := rfl
@[simp] theorem State.bump_failedRetrains (s : State) (c : Counter) (ix n : Nat) : (s.bump c ix n).failedRetrains = s.failedRetrains := rfl
@[simp] theorem State.bump_telInterval (s : State) (c : Counter) (ix n : Nat) : (s.bump c ix n).telInterval = s.telInterval := rfl
@[simp] theorem State.bump_telModule (s : State) (c : Counter) (ix n : Nat) : (s.bump c ix n).telModule = s.telModule := rfl
@[simp] theorem State.bump_telLatch (s : State) (c : Counter) (ix n : Nat) : (s.bump c ix n).telLatch = s.telLatch := rfl
@[simp] theorem State.bump_telPending (s : State) (c : Counter) (ix n : Nat) : (s.bump c ix n).telPending = s.telPending := rfl
@[simp] theorem State.bump_sampledAt (s : State) (c : Counter) (ix n : Nat) : (s.bump c ix n).sampledAt = s.sampledAt := rfl
@[simp] theorem State.bump_traceBuf (s : State) (c : Counter) (ix n : Nat) : (s.bump c ix n).traceBuf = s.traceBuf := rfl
@[simp] theorem State.bump_modLog (s : State) (c : Counter) (ix n : Nat) : (s.bump c ix n).modLog = s.modLog := rfl
@[simp] theorem State.bump_modLogCount (s : State) (c : Counter) (ix n : Nat) : (s.bump c ix n).modLogCount = s.modLogCount := rfl
@[simp] theorem State.bump_dumps (s : State) (c : Counter) (ix n : Nat) : (s.bump c ix n).dumps = s.dumps := rfl
@[simp] theorem State.bump_sessions (s : State) (c : Counter) (ix n : Nat) : (s.bump c ix n).sessions = s.sessions := rfl
@[simp] theorem State.bump_agents (s : State) (c : Counter) (ix n : Nat) : (s.bump c ix n).agents = s.agents := rfl
@[simp] theorem State.bump_challenge (s : State) (c : Counter) (ix n : Nat) : (s.bump c ix n).challenge = s.challenge := rfl
@[simp] theorem State.bump_fw (s : State) (c : Counter) (ix n : Nat) : (s.bump c ix n).fw = s.fw := rfl
@[simp] theorem State.bump_image (s : State) (c : Counter) (ix n : Nat) : (s.bump c ix n).image = s.image := rfl
@[simp] theorem State.bump_ckptStatus (s : State) (c : Counter) (ix n : Nat) : (s.bump c ix n).ckptStatus = s.ckptStatus := rfl
@[simp] theorem State.bump_ckptRun (s : State) (c : Counter) (ix n : Nat) : (s.bump c ix n).ckptRun = s.ckptRun := rfl
@[simp] theorem State.bump_remote (s : State) (c : Counter) (ix n : Nat) : (s.bump c ix n).remote = s.remote := rfl
@[simp] theorem State.bump_halted (s : State) (c : Counter) (ix n : Nat) : (s.bump c ix n).halted = s.halted := rfl

/-! ### What Gang.account leaves unchanged -/

@[simp] theorem Gang.account_team (g : Gang) (i : Instr) (f : Fields) (set active : LaneMask) (n : Nat) : (g.account i f set active n).team = g.team := rfl
@[simp] theorem Gang.account_index (g : Gang) (i : Instr) (f : Fields) (set active : LaneMask) (n : Nat) : (g.account i f set active n).index = g.index := rfl
@[simp] theorem Gang.account_half (g : Gang) (i : Instr) (f : Fields) (set active : LaneMask) (n : Nat) : (g.account i f set active n).half = g.half := rfl
@[simp] theorem Gang.account_width (g : Gang) (i : Instr) (f : Fields) (set active : LaneMask) (n : Nat) : (g.account i f set active n).width = g.width := rfl
@[simp] theorem Gang.account_regs (g : Gang) (i : Instr) (f : Fields) (set active : LaneMask) (n : Nat) : (g.account i f set active n).regs = g.regs := rfl
@[simp] theorem Gang.account_granule (g : Gang) (i : Instr) (f : Fields) (set active : LaneMask) (n : Nat) : (g.account i f set active n).granule = g.granule := rfl
@[simp] theorem Gang.account_live (g : Gang) (i : Instr) (f : Fields) (set active : LaneMask) (n : Nat) : (g.account i f set active n).live = g.live := rfl
@[simp] theorem Gang.account_pc (g : Gang) (i : Instr) (f : Fields) (set active : LaneMask) (n : Nat) : (g.account i f set active n).pc = g.pc := rfl
@[simp] theorem Gang.account_v (g : Gang) (i : Instr) (f : Fields) (set active : LaneMask) (n : Nat) : (g.account i f set active n).v = g.v := rfl
@[simp] theorem Gang.account_vEmpty (g : Gang) (i : Instr) (f : Fields) (set active : LaneMask) (n : Nat) : (g.account i f set active n).vEmpty = g.vEmpty := rfl
@[simp] theorem Gang.account_vPoison (g : Gang) (i : Instr) (f : Fields) (set active : LaneMask) (n : Nat) : (g.account i f set active n).vPoison = g.vPoison := rfl
@[simp] theorem Gang.account_vCorr (g : Gang) (i : Instr) (f : Fields) (set active : LaneMask) (n : Nat) : (g.account i f set active n).vCorr = g.vCorr := rfl
@[simp] theorem Gang.account_s (g : Gang) (i : Instr) (f : Fields) (set active : LaneMask) (n : Nat) : (g.account i f set active n).s = g.s := rfl
@[simp] theorem Gang.account_sEmpty (g : Gang) (i : Instr) (f : Fields) (set active : LaneMask) (n : Nat) : (g.account i f set active n).sEmpty = g.sEmpty := rfl
@[simp] theorem Gang.account_sPoison (g : Gang) (i : Instr) (f : Fields) (set active : LaneMask) (n : Nat) : (g.account i f set active n).sPoison = g.sPoison := rfl
@[simp] theorem Gang.account_p (g : Gang) (i : Instr) (f : Fields) (set active : LaneMask) (n : Nat) : (g.account i f set active n).p = g.p := rfl
@[simp] theorem Gang.account_pEmpty (g : Gang) (i : Instr) (f : Fields) (set active : LaneMask) (n : Nat) : (g.account i f set active n).pEmpty = g.pEmpty := rfl
@[simp] theorem Gang.account_n (g : Gang) (i : Instr) (f : Fields) (set active : LaneMask) (n : Nat) : (g.account i f set active n).n = g.n := rfl
@[simp] theorem Gang.account_nEmpty (g : Gang) (i : Instr) (f : Fields) (set active : LaneMask) (n : Nat) : (g.account i f set active n).nEmpty = g.nEmpty := rfl
@[simp] theorem Gang.account_nPoison (g : Gang) (i : Instr) (f : Fields) (set active : LaneMask) (n : Nat) : (g.account i f set active n).nPoison = g.nPoison := rfl
@[simp] theorem Gang.account_w (g : Gang) (i : Instr) (f : Fields) (set active : LaneMask) (n : Nat) : (g.account i f set active n).w = g.w := rfl
@[simp] theorem Gang.account_lent (g : Gang) (i : Instr) (f : Fields) (set active : LaneMask) (n : Nat) : (g.account i f set active n).lent = g.lent := rfl
@[simp] theorem Gang.account_fpctl (g : Gang) (i : Instr) (f : Fields) (set active : LaneMask) (n : Nat) : (g.account i f set active n).fpctl = g.fpctl := rfl
@[simp] theorem Gang.account_fpstat (g : Gang) (i : Instr) (f : Fields) (set active : LaneMask) (n : Nat) : (g.account i f set active n).fpstat = g.fpstat := rfl
@[simp] theorem Gang.account_cause (g : Gang) (i : Instr) (f : Fields) (set active : LaneMask) (n : Nat) : (g.account i f set active n).cause = g.cause := rfl
@[simp] theorem Gang.account_tpc (g : Gang) (i : Instr) (f : Fields) (set active : LaneMask) (n : Nat) : (g.account i f set active n).tpc = g.tpc := rfl
@[simp] theorem Gang.account_tmask (g : Gang) (i : Instr) (f : Fields) (set active : LaneMask) (n : Nat) : (g.account i f set active n).tmask = g.tmask := rfl
@[simp] theorem Gang.account_taddr (g : Gang) (i : Instr) (f : Fields) (set active : LaneMask) (n : Nat) : (g.account i f set active n).taddr = g.taddr := rfl
@[simp] theorem Gang.account_thit (g : Gang) (i : Instr) (f : Fields) (set active : LaneMask) (n : Nat) : (g.account i f set active n).thit = g.thit := rfl
@[simp] theorem Gang.account_thnd (g : Gang) (i : Instr) (f : Fields) (set active : LaneMask) (n : Nat) : (g.account i f set active n).thnd = g.thnd := rfl
@[simp] theorem Gang.account_inh (g : Gang) (i : Instr) (f : Fields) (set active : LaneMask) (n : Nat) : (g.account i f set active n).inh = g.inh := rfl
@[simp] theorem Gang.account_stklim (g : Gang) (i : Instr) (f : Fields) (set active : LaneMask) (n : Nat) : (g.account i f set active n).stklim = g.stklim := rfl
@[simp] theorem Gang.account_rowlag (g : Gang) (i : Instr) (f : Fields) (set active : LaneMask) (n : Nat) : (g.account i f set active n).rowlag = g.rowlag := rfl
@[simp] theorem Gang.account_privbase (g : Gang) (i : Instr) (f : Fields) (set active : LaneMask) (n : Nat) : (g.account i f set active n).privbase = g.privbase := rfl
@[simp] theorem Gang.account_held (g : Gang) (i : Instr) (f : Fields) (set active : LaneMask) (n : Nat) : (g.account i f set active n).held = g.held := rfl
@[simp] theorem Gang.account_transients (g : Gang) (i : Instr) (f : Fields) (set active : LaneMask) (n : Nat) : (g.account i f set active n).transients = g.transients := rfl
@[simp] theorem Gang.account_holdLatch (g : Gang) (i : Instr) (f : Fields) (set active : LaneMask) (n : Nat) : (g.account i f set active n).holdLatch = g.holdLatch := rfl
@[simp] theorem Gang.account_fills (g : Gang) (i : Instr) (f : Fields) (set active : LaneMask) (n : Nat) : (g.account i f set active n).fills = g.fills := rfl
@[simp] theorem Gang.account_nextFill (g : Gang) (i : Instr) (f : Fields) (set active : LaneMask) (n : Nat) : (g.account i f set active n).nextFill = g.nextFill := rfl
@[simp] theorem Gang.account_unclass (g : Gang) (i : Instr) (f : Fields) (set active : LaneMask) (n : Nat) : (g.account i f set active n).unclass = g.unclass := rfl
@[simp] theorem Gang.account_late (g : Gang) (i : Instr) (f : Fields) (set active : LaneMask) (n : Nat) : (g.account i f set active n).late = g.late := rfl
@[simp] theorem Gang.account_heldStores (g : Gang) (i : Instr) (f : Fields) (set active : LaneMask) (n : Nat) : (g.account i f set active n).heldStores = g.heldStores := rfl
@[simp] theorem Gang.account_arrivals (g : Gang) (i : Instr) (f : Fields) (set active : LaneMask) (n : Nat) : (g.account i f set active n).arrivals = g.arrivals := rfl
@[simp] theorem Gang.account_agentWrites (g : Gang) (i : Instr) (f : Fields) (set active : LaneMask) (n : Nat) : (g.account i f set active n).agentWrites = g.agentWrites := rfl
@[simp] theorem Gang.account_block (g : Gang) (i : Instr) (f : Fields) (set active : LaneMask) (n : Nat) : (g.account i f set active n).block = g.block := rfl
@[simp] theorem Gang.account_stopped (g : Gang) (i : Instr) (f : Fields) (set active : LaneMask) (n : Nat) : (g.account i f set active n).stopped = g.stopped := rfl
@[simp] theorem Gang.account_unclassCount (g : Gang) (i : Instr) (f : Fields) (set active : LaneMask) (n : Nat) : (g.account i f set active n).unclassCount = g.unclassCount := rfl
@[simp] theorem Gang.account_seq (g : Gang) (i : Instr) (f : Fields) (set active : LaneMask) (n : Nat) : (g.account i f set active n).seq = g.seq := rfl
@[simp] theorem Gang.account_syncDue (g : Gang) (i : Instr) (f : Fields) (set active : LaneMask) (n : Nat) : (g.account i f set active n).syncDue = g.syncDue := rfl

/-! ### What Gang.enterHandler leaves unchanged -/

@[simp] theorem Gang.enterHandler_team (g : Gang) (t : TrapInfo) (p : W64) : (g.enterHandler t p).team = g.team := rfl
@[simp] theorem Gang.enterHandler_index (g : Gang) (t : TrapInfo) (p : W64) : (g.enterHandler t p).index = g.index := rfl
@[simp] theorem Gang.enterHandler_half (g : Gang) (t : TrapInfo) (p : W64) : (g.enterHandler t p).half = g.half := rfl
@[simp] theorem Gang.enterHandler_width (g : Gang) (t : TrapInfo) (p : W64) : (g.enterHandler t p).width = g.width := rfl
@[simp] theorem Gang.enterHandler_regs (g : Gang) (t : TrapInfo) (p : W64) : (g.enterHandler t p).regs = g.regs := rfl
@[simp] theorem Gang.enterHandler_granule (g : Gang) (t : TrapInfo) (p : W64) : (g.enterHandler t p).granule = g.granule := rfl
@[simp] theorem Gang.enterHandler_live (g : Gang) (t : TrapInfo) (p : W64) : (g.enterHandler t p).live = g.live := rfl
@[simp] theorem Gang.enterHandler_v (g : Gang) (t : TrapInfo) (p : W64) : (g.enterHandler t p).v = g.v := rfl
@[simp] theorem Gang.enterHandler_vEmpty (g : Gang) (t : TrapInfo) (p : W64) : (g.enterHandler t p).vEmpty = g.vEmpty := rfl
@[simp] theorem Gang.enterHandler_vPoison (g : Gang) (t : TrapInfo) (p : W64) : (g.enterHandler t p).vPoison = g.vPoison := rfl
@[simp] theorem Gang.enterHandler_vCorr (g : Gang) (t : TrapInfo) (p : W64) : (g.enterHandler t p).vCorr = g.vCorr := rfl
@[simp] theorem Gang.enterHandler_s (g : Gang) (t : TrapInfo) (p : W64) : (g.enterHandler t p).s = g.s := rfl
@[simp] theorem Gang.enterHandler_sEmpty (g : Gang) (t : TrapInfo) (p : W64) : (g.enterHandler t p).sEmpty = g.sEmpty := rfl
@[simp] theorem Gang.enterHandler_sPoison (g : Gang) (t : TrapInfo) (p : W64) : (g.enterHandler t p).sPoison = g.sPoison := rfl
@[simp] theorem Gang.enterHandler_p (g : Gang) (t : TrapInfo) (p : W64) : (g.enterHandler t p).p = g.p := rfl
@[simp] theorem Gang.enterHandler_pEmpty (g : Gang) (t : TrapInfo) (p : W64) : (g.enterHandler t p).pEmpty = g.pEmpty := rfl
@[simp] theorem Gang.enterHandler_n (g : Gang) (t : TrapInfo) (p : W64) : (g.enterHandler t p).n = g.n := rfl
@[simp] theorem Gang.enterHandler_nEmpty (g : Gang) (t : TrapInfo) (p : W64) : (g.enterHandler t p).nEmpty = g.nEmpty := rfl
@[simp] theorem Gang.enterHandler_nPoison (g : Gang) (t : TrapInfo) (p : W64) : (g.enterHandler t p).nPoison = g.nPoison := rfl
@[simp] theorem Gang.enterHandler_w (g : Gang) (t : TrapInfo) (p : W64) : (g.enterHandler t p).w = g.w := rfl
@[simp] theorem Gang.enterHandler_lent (g : Gang) (t : TrapInfo) (p : W64) : (g.enterHandler t p).lent = g.lent := rfl
@[simp] theorem Gang.enterHandler_parity (g : Gang) (t : TrapInfo) (p : W64) : (g.enterHandler t p).parity = g.parity := rfl
@[simp] theorem Gang.enterHandler_fpctl (g : Gang) (t : TrapInfo) (p : W64) : (g.enterHandler t p).fpctl = g.fpctl := rfl
@[simp] theorem Gang.enterHandler_fpstat (g : Gang) (t : TrapInfo) (p : W64) : (g.enterHandler t p).fpstat = g.fpstat := rfl
@[simp] theorem Gang.enterHandler_thnd (g : Gang) (t : TrapInfo) (p : W64) : (g.enterHandler t p).thnd = g.thnd := rfl
@[simp] theorem Gang.enterHandler_stklim (g : Gang) (t : TrapInfo) (p : W64) : (g.enterHandler t p).stklim = g.stklim := rfl
@[simp] theorem Gang.enterHandler_rowlag (g : Gang) (t : TrapInfo) (p : W64) : (g.enterHandler t p).rowlag = g.rowlag := rfl
@[simp] theorem Gang.enterHandler_privbase (g : Gang) (t : TrapInfo) (p : W64) : (g.enterHandler t p).privbase = g.privbase := rfl
@[simp] theorem Gang.enterHandler_exempt (g : Gang) (t : TrapInfo) (p : W64) : (g.enterHandler t p).exempt = g.exempt := rfl
@[simp] theorem Gang.enterHandler_transients (g : Gang) (t : TrapInfo) (p : W64) : (g.enterHandler t p).transients = g.transients := rfl
@[simp] theorem Gang.enterHandler_fills (g : Gang) (t : TrapInfo) (p : W64) : (g.enterHandler t p).fills = g.fills := rfl
@[simp] theorem Gang.enterHandler_nextFill (g : Gang) (t : TrapInfo) (p : W64) : (g.enterHandler t p).nextFill = g.nextFill := rfl
@[simp] theorem Gang.enterHandler_unclass (g : Gang) (t : TrapInfo) (p : W64) : (g.enterHandler t p).unclass = g.unclass := rfl
@[simp] theorem Gang.enterHandler_late (g : Gang) (t : TrapInfo) (p : W64) : (g.enterHandler t p).late = g.late := rfl
@[simp] theorem Gang.enterHandler_heldStores (g : Gang) (t : TrapInfo) (p : W64) : (g.enterHandler t p).heldStores = g.heldStores := rfl
@[simp] theorem Gang.enterHandler_arrivals (g : Gang) (t : TrapInfo) (p : W64) : (g.enterHandler t p).arrivals = g.arrivals := rfl
@[simp] theorem Gang.enterHandler_agentWrites (g : Gang) (t : TrapInfo) (p : W64) : (g.enterHandler t p).agentWrites = g.agentWrites := rfl
@[simp] theorem Gang.enterHandler_waits (g : Gang) (t : TrapInfo) (p : W64) : (g.enterHandler t p).waits = g.waits := rfl
@[simp] theorem Gang.enterHandler_block (g : Gang) (t : TrapInfo) (p : W64) : (g.enterHandler t p).block = g.block := rfl
@[simp] theorem Gang.enterHandler_stopped (g : Gang) (t : TrapInfo) (p : W64) : (g.enterHandler t p).stopped = g.stopped := rfl
@[simp] theorem Gang.enterHandler_yielded (g : Gang) (t : TrapInfo) (p : W64) : (g.enterHandler t p).yielded = g.yielded := rfl
@[simp] theorem Gang.enterHandler_lastIssue (g : Gang) (t : TrapInfo) (p : W64) : (g.enterHandler t p).lastIssue = g.lastIssue := rfl
@[simp] theorem Gang.enterHandler_issues (g : Gang) (t : TrapInfo) (p : W64) : (g.enterHandler t p).issues = g.issues := rfl
@[simp] theorem Gang.enterHandler_unclassCount (g : Gang) (t : TrapInfo) (p : W64) : (g.enterHandler t p).unclassCount = g.unclassCount := rfl
@[simp] theorem Gang.enterHandler_seq (g : Gang) (t : TrapInfo) (p : W64) : (g.enterHandler t p).seq = g.seq := rfl
@[simp] theorem Gang.enterHandler_stepArmed (g : Gang) (t : TrapInfo) (p : W64) : (g.enterHandler t p).stepArmed = g.stepArmed := rfl
@[simp] theorem Gang.enterHandler_stepDue (g : Gang) (t : TrapInfo) (p : W64) : (g.enterHandler t p).stepDue = g.stepDue := rfl
@[simp] theorem Gang.enterHandler_lastSet (g : Gang) (t : TrapInfo) (p : W64) : (g.enterHandler t p).lastSet = g.lastSet := rfl
@[simp] theorem Gang.enterHandler_lastRet (g : Gang) (t : TrapInfo) (p : W64) : (g.enterHandler t p).lastRet = g.lastRet := rfl
@[simp] theorem Gang.enterHandler_syncDue (g : Gang) (t : TrapInfo) (p : W64) : (g.enterHandler t p).syncDue = g.syncDue := rfl
@[simp] theorem Gang.enterHandler_lastActive (g : Gang) (t : TrapInfo) (p : W64) : (g.enterHandler t p).lastActive = g.lastActive := rfl

/-! ### What Gang.stopFor leaves unchanged -/

@[simp] theorem Gang.stopFor_team (g : Gang) (t : TrapInfo) (p : W64) : (g.stopFor t p).team = g.team := rfl
@[simp] theorem Gang.stopFor_index (g : Gang) (t : TrapInfo) (p : W64) : (g.stopFor t p).index = g.index := rfl
@[simp] theorem Gang.stopFor_half (g : Gang) (t : TrapInfo) (p : W64) : (g.stopFor t p).half = g.half := rfl
@[simp] theorem Gang.stopFor_width (g : Gang) (t : TrapInfo) (p : W64) : (g.stopFor t p).width = g.width := rfl
@[simp] theorem Gang.stopFor_regs (g : Gang) (t : TrapInfo) (p : W64) : (g.stopFor t p).regs = g.regs := rfl
@[simp] theorem Gang.stopFor_granule (g : Gang) (t : TrapInfo) (p : W64) : (g.stopFor t p).granule = g.granule := rfl
@[simp] theorem Gang.stopFor_live (g : Gang) (t : TrapInfo) (p : W64) : (g.stopFor t p).live = g.live := rfl
@[simp] theorem Gang.stopFor_pc (g : Gang) (t : TrapInfo) (p : W64) : (g.stopFor t p).pc = g.pc := rfl
@[simp] theorem Gang.stopFor_wait (g : Gang) (t : TrapInfo) (p : W64) : (g.stopFor t p).wait = g.wait := rfl
@[simp] theorem Gang.stopFor_v (g : Gang) (t : TrapInfo) (p : W64) : (g.stopFor t p).v = g.v := rfl
@[simp] theorem Gang.stopFor_vEmpty (g : Gang) (t : TrapInfo) (p : W64) : (g.stopFor t p).vEmpty = g.vEmpty := rfl
@[simp] theorem Gang.stopFor_vPoison (g : Gang) (t : TrapInfo) (p : W64) : (g.stopFor t p).vPoison = g.vPoison := rfl
@[simp] theorem Gang.stopFor_vCorr (g : Gang) (t : TrapInfo) (p : W64) : (g.stopFor t p).vCorr = g.vCorr := rfl
@[simp] theorem Gang.stopFor_s (g : Gang) (t : TrapInfo) (p : W64) : (g.stopFor t p).s = g.s := rfl
@[simp] theorem Gang.stopFor_sEmpty (g : Gang) (t : TrapInfo) (p : W64) : (g.stopFor t p).sEmpty = g.sEmpty := rfl
@[simp] theorem Gang.stopFor_sPoison (g : Gang) (t : TrapInfo) (p : W64) : (g.stopFor t p).sPoison = g.sPoison := rfl
@[simp] theorem Gang.stopFor_p (g : Gang) (t : TrapInfo) (p : W64) : (g.stopFor t p).p = g.p := rfl
@[simp] theorem Gang.stopFor_pEmpty (g : Gang) (t : TrapInfo) (p : W64) : (g.stopFor t p).pEmpty = g.pEmpty := rfl
@[simp] theorem Gang.stopFor_n (g : Gang) (t : TrapInfo) (p : W64) : (g.stopFor t p).n = g.n := rfl
@[simp] theorem Gang.stopFor_nEmpty (g : Gang) (t : TrapInfo) (p : W64) : (g.stopFor t p).nEmpty = g.nEmpty := rfl
@[simp] theorem Gang.stopFor_nPoison (g : Gang) (t : TrapInfo) (p : W64) : (g.stopFor t p).nPoison = g.nPoison := rfl
@[simp] theorem Gang.stopFor_w (g : Gang) (t : TrapInfo) (p : W64) : (g.stopFor t p).w = g.w := rfl
@[simp] theorem Gang.stopFor_lent (g : Gang) (t : TrapInfo) (p : W64) : (g.stopFor t p).lent = g.lent := rfl
@[simp] theorem Gang.stopFor_parity (g : Gang) (t : TrapInfo) (p : W64) : (g.stopFor t p).parity = g.parity := rfl
@[simp] theorem Gang.stopFor_fpctl (g : Gang) (t : TrapInfo) (p : W64) : (g.stopFor t p).fpctl = g.fpctl := rfl
@[simp] theorem Gang.stopFor_fpstat (g : Gang) (t : TrapInfo) (p : W64) : (g.stopFor t p).fpstat = g.fpstat := rfl
@[simp] theorem Gang.stopFor_taddr (g : Gang) (t : TrapInfo) (p : W64) : (g.stopFor t p).taddr = g.taddr := rfl
@[simp] theorem Gang.stopFor_thnd (g : Gang) (t : TrapInfo) (p : W64) : (g.stopFor t p).thnd = g.thnd := rfl
@[simp] theorem Gang.stopFor_inh (g : Gang) (t : TrapInfo) (p : W64) : (g.stopFor t p).inh = g.inh := rfl
@[simp] theorem Gang.stopFor_stklim (g : Gang) (t : TrapInfo) (p : W64) : (g.stopFor t p).stklim = g.stklim := rfl
@[simp] theorem Gang.stopFor_rowlag (g : Gang) (t : TrapInfo) (p : W64) : (g.stopFor t p).rowlag = g.rowlag := rfl
@[simp] theorem Gang.stopFor_privbase (g : Gang) (t : TrapInfo) (p : W64) : (g.stopFor t p).privbase = g.privbase := rfl
@[simp] theorem Gang.stopFor_held (g : Gang) (t : TrapInfo) (p : W64) : (g.stopFor t p).held = g.held := rfl
@[simp] theorem Gang.stopFor_exempt (g : Gang) (t : TrapInfo) (p : W64) : (g.stopFor t p).exempt = g.exempt := rfl
@[simp] theorem Gang.stopFor_transients (g : Gang) (t : TrapInfo) (p : W64) : (g.stopFor t p).transients = g.transients := rfl
@[simp] theorem Gang.stopFor_holdLatch (g : Gang) (t : TrapInfo) (p : W64) : (g.stopFor t p).holdLatch = g.holdLatch := rfl
@[simp] theorem Gang.stopFor_fills (g : Gang) (t : TrapInfo) (p : W64) : (g.stopFor t p).fills = g.fills := rfl
@[simp] theorem Gang.stopFor_nextFill (g : Gang) (t : TrapInfo) (p : W64) : (g.stopFor t p).nextFill = g.nextFill := rfl
@[simp] theorem Gang.stopFor_unclass (g : Gang) (t : TrapInfo) (p : W64) : (g.stopFor t p).unclass = g.unclass := rfl
@[simp] theorem Gang.stopFor_late (g : Gang) (t : TrapInfo) (p : W64) : (g.stopFor t p).late = g.late := rfl
@[simp] theorem Gang.stopFor_heldStores (g : Gang) (t : TrapInfo) (p : W64) : (g.stopFor t p).heldStores = g.heldStores := rfl
@[simp] theorem Gang.stopFor_arrivals (g : Gang) (t : TrapInfo) (p : W64) : (g.stopFor t p).arrivals = g.arrivals := rfl
@[simp] theorem Gang.stopFor_agentWrites (g : Gang) (t : TrapInfo) (p : W64) : (g.stopFor t p).agentWrites = g.agentWrites := rfl
@[simp] theorem Gang.stopFor_waits (g : Gang) (t : TrapInfo) (p : W64) : (g.stopFor t p).waits = g.waits := rfl
@[simp] theorem Gang.stopFor_block (g : Gang) (t : TrapInfo) (p : W64) : (g.stopFor t p).block = g.block := rfl
@[simp] theorem Gang.stopFor_yielded (g : Gang) (t : TrapInfo) (p : W64) : (g.stopFor t p).yielded = g.yielded := rfl
@[simp] theorem Gang.stopFor_lastIssue (g : Gang) (t : TrapInfo) (p : W64) : (g.stopFor t p).lastIssue = g.lastIssue := rfl
@[simp] theorem Gang.stopFor_issues (g : Gang) (t : TrapInfo) (p : W64) : (g.stopFor t p).issues = g.issues := rfl
@[simp] theorem Gang.stopFor_unclassCount (g : Gang) (t : TrapInfo) (p : W64) : (g.stopFor t p).unclassCount = g.unclassCount := rfl
@[simp] theorem Gang.stopFor_seq (g : Gang) (t : TrapInfo) (p : W64) : (g.stopFor t p).seq = g.seq := rfl
@[simp] theorem Gang.stopFor_stepArmed (g : Gang) (t : TrapInfo) (p : W64) : (g.stopFor t p).stepArmed = g.stepArmed := rfl
@[simp] theorem Gang.stopFor_stepDue (g : Gang) (t : TrapInfo) (p : W64) : (g.stopFor t p).stepDue = g.stepDue := rfl
@[simp] theorem Gang.stopFor_lastSet (g : Gang) (t : TrapInfo) (p : W64) : (g.stopFor t p).lastSet = g.lastSet := rfl
@[simp] theorem Gang.stopFor_lastRet (g : Gang) (t : TrapInfo) (p : W64) : (g.stopFor t p).lastRet = g.lastRet := rfl
@[simp] theorem Gang.stopFor_syncDue (g : Gang) (t : TrapInfo) (p : W64) : (g.stopFor t p).syncDue = g.syncDue := rfl
@[simp] theorem Gang.stopFor_lastActive (g : Gang) (t : TrapInfo) (p : W64) : (g.stopFor t p).lastActive = g.lastActive := rfl

/-! ### What Gang.returnFromTrap leaves unchanged -/

@[simp] theorem Gang.returnFromTrap_team (g : Gang) : (g.returnFromTrap).team = g.team := rfl
@[simp] theorem Gang.returnFromTrap_index (g : Gang) : (g.returnFromTrap).index = g.index := rfl
@[simp] theorem Gang.returnFromTrap_half (g : Gang) : (g.returnFromTrap).half = g.half := rfl
@[simp] theorem Gang.returnFromTrap_width (g : Gang) : (g.returnFromTrap).width = g.width := rfl
@[simp] theorem Gang.returnFromTrap_regs (g : Gang) : (g.returnFromTrap).regs = g.regs := rfl
@[simp] theorem Gang.returnFromTrap_granule (g : Gang) : (g.returnFromTrap).granule = g.granule := rfl
@[simp] theorem Gang.returnFromTrap_live (g : Gang) : (g.returnFromTrap).live = g.live := rfl
@[simp] theorem Gang.returnFromTrap_v (g : Gang) : (g.returnFromTrap).v = g.v := rfl
@[simp] theorem Gang.returnFromTrap_vEmpty (g : Gang) : (g.returnFromTrap).vEmpty = g.vEmpty := rfl
@[simp] theorem Gang.returnFromTrap_vPoison (g : Gang) : (g.returnFromTrap).vPoison = g.vPoison := rfl
@[simp] theorem Gang.returnFromTrap_vCorr (g : Gang) : (g.returnFromTrap).vCorr = g.vCorr := rfl
@[simp] theorem Gang.returnFromTrap_s (g : Gang) : (g.returnFromTrap).s = g.s := rfl
@[simp] theorem Gang.returnFromTrap_sEmpty (g : Gang) : (g.returnFromTrap).sEmpty = g.sEmpty := rfl
@[simp] theorem Gang.returnFromTrap_sPoison (g : Gang) : (g.returnFromTrap).sPoison = g.sPoison := rfl
@[simp] theorem Gang.returnFromTrap_p (g : Gang) : (g.returnFromTrap).p = g.p := rfl
@[simp] theorem Gang.returnFromTrap_pEmpty (g : Gang) : (g.returnFromTrap).pEmpty = g.pEmpty := rfl
@[simp] theorem Gang.returnFromTrap_n (g : Gang) : (g.returnFromTrap).n = g.n := rfl
@[simp] theorem Gang.returnFromTrap_nEmpty (g : Gang) : (g.returnFromTrap).nEmpty = g.nEmpty := rfl
@[simp] theorem Gang.returnFromTrap_nPoison (g : Gang) : (g.returnFromTrap).nPoison = g.nPoison := rfl
@[simp] theorem Gang.returnFromTrap_w (g : Gang) : (g.returnFromTrap).w = g.w := rfl
@[simp] theorem Gang.returnFromTrap_lent (g : Gang) : (g.returnFromTrap).lent = g.lent := rfl
@[simp] theorem Gang.returnFromTrap_parity (g : Gang) : (g.returnFromTrap).parity = g.parity := rfl
@[simp] theorem Gang.returnFromTrap_fpctl (g : Gang) : (g.returnFromTrap).fpctl = g.fpctl := rfl
@[simp] theorem Gang.returnFromTrap_fpstat (g : Gang) : (g.returnFromTrap).fpstat = g.fpstat := rfl
@[simp] theorem Gang.returnFromTrap_cause (g : Gang) : (g.returnFromTrap).cause = g.cause := rfl
@[simp] theorem Gang.returnFromTrap_tpc (g : Gang) : (g.returnFromTrap).tpc = g.tpc := rfl
@[simp] theorem Gang.returnFromTrap_tmask (g : Gang) : (g.returnFromTrap).tmask = g.tmask := rfl
@[simp] theorem Gang.returnFromTrap_taddr (g : Gang) : (g.returnFromTrap).taddr = g.taddr := rfl
@[simp] theorem Gang.returnFromTrap_thit (g : Gang) : (g.returnFromTrap).thit = g.thit := rfl
@[simp] theorem Gang.returnFromTrap_thnd (g : Gang) : (g.returnFromTrap).thnd = g.thnd := rfl
@[simp] theorem Gang.returnFromTrap_stklim (g : Gang) : (g.returnFromTrap).stklim = g.stklim := rfl
@[simp] theorem Gang.returnFromTrap_rowlag (g : Gang) : (g.returnFromTrap).rowlag = g.rowlag := rfl
@[simp] theorem Gang.returnFromTrap_privbase (g : Gang) : (g.returnFromTrap).privbase = g.privbase := rfl
@[simp] theorem Gang.returnFromTrap_holdLatch (g : Gang) : (g.returnFromTrap).holdLatch = g.holdLatch := rfl
@[simp] theorem Gang.returnFromTrap_fills (g : Gang) : (g.returnFromTrap).fills = g.fills := rfl
@[simp] theorem Gang.returnFromTrap_nextFill (g : Gang) : (g.returnFromTrap).nextFill = g.nextFill := rfl
@[simp] theorem Gang.returnFromTrap_unclass (g : Gang) : (g.returnFromTrap).unclass = g.unclass := rfl
@[simp] theorem Gang.returnFromTrap_late (g : Gang) : (g.returnFromTrap).late = g.late := rfl
@[simp] theorem Gang.returnFromTrap_heldStores (g : Gang) : (g.returnFromTrap).heldStores = g.heldStores := rfl
@[simp] theorem Gang.returnFromTrap_arrivals (g : Gang) : (g.returnFromTrap).arrivals = g.arrivals := rfl
@[simp] theorem Gang.returnFromTrap_agentWrites (g : Gang) : (g.returnFromTrap).agentWrites = g.agentWrites := rfl
@[simp] theorem Gang.returnFromTrap_waits (g : Gang) : (g.returnFromTrap).waits = g.waits := rfl
@[simp] theorem Gang.returnFromTrap_block (g : Gang) : (g.returnFromTrap).block = g.block := rfl
@[simp] theorem Gang.returnFromTrap_stopped (g : Gang) : (g.returnFromTrap).stopped = g.stopped := rfl
@[simp] theorem Gang.returnFromTrap_yielded (g : Gang) : (g.returnFromTrap).yielded = g.yielded := rfl
@[simp] theorem Gang.returnFromTrap_lastIssue (g : Gang) : (g.returnFromTrap).lastIssue = g.lastIssue := rfl
@[simp] theorem Gang.returnFromTrap_issues (g : Gang) : (g.returnFromTrap).issues = g.issues := rfl
@[simp] theorem Gang.returnFromTrap_unclassCount (g : Gang) : (g.returnFromTrap).unclassCount = g.unclassCount := rfl
@[simp] theorem Gang.returnFromTrap_seq (g : Gang) : (g.returnFromTrap).seq = g.seq := rfl
@[simp] theorem Gang.returnFromTrap_stepArmed (g : Gang) : (g.returnFromTrap).stepArmed = g.stepArmed := rfl
@[simp] theorem Gang.returnFromTrap_stepDue (g : Gang) : (g.returnFromTrap).stepDue = g.stepDue := rfl
@[simp] theorem Gang.returnFromTrap_lastSet (g : Gang) : (g.returnFromTrap).lastSet = g.lastSet := rfl
@[simp] theorem Gang.returnFromTrap_lastRet (g : Gang) : (g.returnFromTrap).lastRet = g.lastRet := rfl
@[simp] theorem Gang.returnFromTrap_syncDue (g : Gang) : (g.returnFromTrap).syncDue = g.syncDue := rfl
@[simp] theorem Gang.returnFromTrap_lastActive (g : Gang) : (g.returnFromTrap).lastActive = g.lastActive := rfl

/-! ### What Gang.seen leaves unchanged -/

@[simp] theorem Gang.seen_team (g : Gang) (set : LaneMask) : (g.seen set).team = g.team := rfl
@[simp] theorem Gang.seen_index (g : Gang) (set : LaneMask) : (g.seen set).index = g.index := rfl
@[simp] theorem Gang.seen_half (g : Gang) (set : LaneMask) : (g.seen set).half = g.half := rfl
@[simp] theorem Gang.seen_width (g : Gang) (set : LaneMask) : (g.seen set).width = g.width := rfl
@[simp] theorem Gang.seen_regs (g : Gang) (set : LaneMask) : (g.seen set).regs = g.regs := rfl
@[simp] theorem Gang.seen_granule (g : Gang) (set : LaneMask) : (g.seen set).granule = g.granule := rfl
@[simp] theorem Gang.seen_live (g : Gang) (set : LaneMask) : (g.seen set).live = g.live := rfl
@[simp] theorem Gang.seen_pc (g : Gang) (set : LaneMask) : (g.seen set).pc = g.pc := rfl
@[simp] theorem Gang.seen_wait (g : Gang) (set : LaneMask) : (g.seen set).wait = g.wait := rfl
@[simp] theorem Gang.seen_v (g : Gang) (set : LaneMask) : (g.seen set).v = g.v := rfl
@[simp] theorem Gang.seen_vEmpty (g : Gang) (set : LaneMask) : (g.seen set).vEmpty = g.vEmpty := rfl
@[simp] theorem Gang.seen_vPoison (g : Gang) (set : LaneMask) : (g.seen set).vPoison = g.vPoison := rfl
@[simp] theorem Gang.seen_vCorr (g : Gang) (set : LaneMask) : (g.seen set).vCorr = g.vCorr := rfl
@[simp] theorem Gang.seen_s (g : Gang) (set : LaneMask) : (g.seen set).s = g.s := rfl
@[simp] theorem Gang.seen_sEmpty (g : Gang) (set : LaneMask) : (g.seen set).sEmpty = g.sEmpty := rfl
@[simp] theorem Gang.seen_sPoison (g : Gang) (set : LaneMask) : (g.seen set).sPoison = g.sPoison := rfl
@[simp] theorem Gang.seen_p (g : Gang) (set : LaneMask) : (g.seen set).p = g.p := rfl
@[simp] theorem Gang.seen_pEmpty (g : Gang) (set : LaneMask) : (g.seen set).pEmpty = g.pEmpty := rfl
@[simp] theorem Gang.seen_n (g : Gang) (set : LaneMask) : (g.seen set).n = g.n := rfl
@[simp] theorem Gang.seen_nEmpty (g : Gang) (set : LaneMask) : (g.seen set).nEmpty = g.nEmpty := rfl
@[simp] theorem Gang.seen_nPoison (g : Gang) (set : LaneMask) : (g.seen set).nPoison = g.nPoison := rfl
@[simp] theorem Gang.seen_w (g : Gang) (set : LaneMask) : (g.seen set).w = g.w := rfl
@[simp] theorem Gang.seen_lent (g : Gang) (set : LaneMask) : (g.seen set).lent = g.lent := rfl
@[simp] theorem Gang.seen_parity (g : Gang) (set : LaneMask) : (g.seen set).parity = g.parity := rfl
@[simp] theorem Gang.seen_fpctl (g : Gang) (set : LaneMask) : (g.seen set).fpctl = g.fpctl := rfl
@[simp] theorem Gang.seen_fpstat (g : Gang) (set : LaneMask) : (g.seen set).fpstat = g.fpstat := rfl
@[simp] theorem Gang.seen_cause (g : Gang) (set : LaneMask) : (g.seen set).cause = g.cause := rfl
@[simp] theorem Gang.seen_tpc (g : Gang) (set : LaneMask) : (g.seen set).tpc = g.tpc := rfl
@[simp] theorem Gang.seen_tmask (g : Gang) (set : LaneMask) : (g.seen set).tmask = g.tmask := rfl
@[simp] theorem Gang.seen_taddr (g : Gang) (set : LaneMask) : (g.seen set).taddr = g.taddr := rfl
@[simp] theorem Gang.seen_thit (g : Gang) (set : LaneMask) : (g.seen set).thit = g.thit := rfl
@[simp] theorem Gang.seen_thnd (g : Gang) (set : LaneMask) : (g.seen set).thnd = g.thnd := rfl
@[simp] theorem Gang.seen_inh (g : Gang) (set : LaneMask) : (g.seen set).inh = g.inh := rfl
@[simp] theorem Gang.seen_stklim (g : Gang) (set : LaneMask) : (g.seen set).stklim = g.stklim := rfl
@[simp] theorem Gang.seen_rowlag (g : Gang) (set : LaneMask) : (g.seen set).rowlag = g.rowlag := rfl
@[simp] theorem Gang.seen_privbase (g : Gang) (set : LaneMask) : (g.seen set).privbase = g.privbase := rfl
@[simp] theorem Gang.seen_held (g : Gang) (set : LaneMask) : (g.seen set).held = g.held := rfl
@[simp] theorem Gang.seen_exempt (g : Gang) (set : LaneMask) : (g.seen set).exempt = g.exempt := rfl
@[simp] theorem Gang.seen_fills (g : Gang) (set : LaneMask) : (g.seen set).fills = g.fills := rfl
@[simp] theorem Gang.seen_nextFill (g : Gang) (set : LaneMask) : (g.seen set).nextFill = g.nextFill := rfl
@[simp] theorem Gang.seen_unclass (g : Gang) (set : LaneMask) : (g.seen set).unclass = g.unclass := rfl
@[simp] theorem Gang.seen_late (g : Gang) (set : LaneMask) : (g.seen set).late = g.late := rfl
@[simp] theorem Gang.seen_heldStores (g : Gang) (set : LaneMask) : (g.seen set).heldStores = g.heldStores := rfl
@[simp] theorem Gang.seen_arrivals (g : Gang) (set : LaneMask) : (g.seen set).arrivals = g.arrivals := rfl
@[simp] theorem Gang.seen_agentWrites (g : Gang) (set : LaneMask) : (g.seen set).agentWrites = g.agentWrites := rfl
@[simp] theorem Gang.seen_waits (g : Gang) (set : LaneMask) : (g.seen set).waits = g.waits := rfl
@[simp] theorem Gang.seen_block (g : Gang) (set : LaneMask) : (g.seen set).block = g.block := rfl
@[simp] theorem Gang.seen_stopped (g : Gang) (set : LaneMask) : (g.seen set).stopped = g.stopped := rfl
@[simp] theorem Gang.seen_yielded (g : Gang) (set : LaneMask) : (g.seen set).yielded = g.yielded := rfl
@[simp] theorem Gang.seen_lastIssue (g : Gang) (set : LaneMask) : (g.seen set).lastIssue = g.lastIssue := rfl
@[simp] theorem Gang.seen_issues (g : Gang) (set : LaneMask) : (g.seen set).issues = g.issues := rfl
@[simp] theorem Gang.seen_unclassCount (g : Gang) (set : LaneMask) : (g.seen set).unclassCount = g.unclassCount := rfl
@[simp] theorem Gang.seen_seq (g : Gang) (set : LaneMask) : (g.seen set).seq = g.seq := rfl
@[simp] theorem Gang.seen_stepArmed (g : Gang) (set : LaneMask) : (g.seen set).stepArmed = g.stepArmed := rfl
@[simp] theorem Gang.seen_stepDue (g : Gang) (set : LaneMask) : (g.seen set).stepDue = g.stepDue := rfl
@[simp] theorem Gang.seen_lastSet (g : Gang) (set : LaneMask) : (g.seen set).lastSet = g.lastSet := rfl
@[simp] theorem Gang.seen_lastRet (g : Gang) (set : LaneMask) : (g.seen set).lastRet = g.lastRet := rfl
@[simp] theorem Gang.seen_syncDue (g : Gang) (set : LaneMask) : (g.seen set).syncDue = g.syncDue := rfl
@[simp] theorem Gang.seen_lastActive (g : Gang) (set : LaneMask) : (g.seen set).lastActive = g.lastActive := rfl

/-! ### What Gang.putTransients leaves unchanged -/

@[simp] theorem Gang.putTransients_team (g : Gang) (x : Iss) (h : Nat → W64) : (g.putTransients x h).team = g.team := rfl
@[simp] theorem Gang.putTransients_index (g : Gang) (x : Iss) (h : Nat → W64) : (g.putTransients x h).index = g.index := rfl
@[simp] theorem Gang.putTransients_half (g : Gang) (x : Iss) (h : Nat → W64) : (g.putTransients x h).half = g.half := rfl
@[simp] theorem Gang.putTransients_width (g : Gang) (x : Iss) (h : Nat → W64) : (g.putTransients x h).width = g.width := rfl
@[simp] theorem Gang.putTransients_regs (g : Gang) (x : Iss) (h : Nat → W64) : (g.putTransients x h).regs = g.regs := rfl
@[simp] theorem Gang.putTransients_granule (g : Gang) (x : Iss) (h : Nat → W64) : (g.putTransients x h).granule = g.granule := rfl
@[simp] theorem Gang.putTransients_live (g : Gang) (x : Iss) (h : Nat → W64) : (g.putTransients x h).live = g.live := rfl
@[simp] theorem Gang.putTransients_pc (g : Gang) (x : Iss) (h : Nat → W64) : (g.putTransients x h).pc = g.pc := rfl
@[simp] theorem Gang.putTransients_wait (g : Gang) (x : Iss) (h : Nat → W64) : (g.putTransients x h).wait = g.wait := rfl
@[simp] theorem Gang.putTransients_v (g : Gang) (x : Iss) (h : Nat → W64) : (g.putTransients x h).v = g.v := rfl
@[simp] theorem Gang.putTransients_vEmpty (g : Gang) (x : Iss) (h : Nat → W64) : (g.putTransients x h).vEmpty = g.vEmpty := rfl
@[simp] theorem Gang.putTransients_vPoison (g : Gang) (x : Iss) (h : Nat → W64) : (g.putTransients x h).vPoison = g.vPoison := rfl
@[simp] theorem Gang.putTransients_vCorr (g : Gang) (x : Iss) (h : Nat → W64) : (g.putTransients x h).vCorr = g.vCorr := rfl
@[simp] theorem Gang.putTransients_s (g : Gang) (x : Iss) (h : Nat → W64) : (g.putTransients x h).s = g.s := rfl
@[simp] theorem Gang.putTransients_sEmpty (g : Gang) (x : Iss) (h : Nat → W64) : (g.putTransients x h).sEmpty = g.sEmpty := rfl
@[simp] theorem Gang.putTransients_sPoison (g : Gang) (x : Iss) (h : Nat → W64) : (g.putTransients x h).sPoison = g.sPoison := rfl
@[simp] theorem Gang.putTransients_p (g : Gang) (x : Iss) (h : Nat → W64) : (g.putTransients x h).p = g.p := rfl
@[simp] theorem Gang.putTransients_pEmpty (g : Gang) (x : Iss) (h : Nat → W64) : (g.putTransients x h).pEmpty = g.pEmpty := rfl
@[simp] theorem Gang.putTransients_n (g : Gang) (x : Iss) (h : Nat → W64) : (g.putTransients x h).n = g.n := rfl
@[simp] theorem Gang.putTransients_nEmpty (g : Gang) (x : Iss) (h : Nat → W64) : (g.putTransients x h).nEmpty = g.nEmpty := rfl
@[simp] theorem Gang.putTransients_nPoison (g : Gang) (x : Iss) (h : Nat → W64) : (g.putTransients x h).nPoison = g.nPoison := rfl
@[simp] theorem Gang.putTransients_w (g : Gang) (x : Iss) (h : Nat → W64) : (g.putTransients x h).w = g.w := rfl
@[simp] theorem Gang.putTransients_lent (g : Gang) (x : Iss) (h : Nat → W64) : (g.putTransients x h).lent = g.lent := rfl
@[simp] theorem Gang.putTransients_parity (g : Gang) (x : Iss) (h : Nat → W64) : (g.putTransients x h).parity = g.parity := rfl
@[simp] theorem Gang.putTransients_fpctl (g : Gang) (x : Iss) (h : Nat → W64) : (g.putTransients x h).fpctl = g.fpctl := rfl
@[simp] theorem Gang.putTransients_fpstat (g : Gang) (x : Iss) (h : Nat → W64) : (g.putTransients x h).fpstat = g.fpstat := rfl
@[simp] theorem Gang.putTransients_cause (g : Gang) (x : Iss) (h : Nat → W64) : (g.putTransients x h).cause = g.cause := rfl
@[simp] theorem Gang.putTransients_tpc (g : Gang) (x : Iss) (h : Nat → W64) : (g.putTransients x h).tpc = g.tpc := rfl
@[simp] theorem Gang.putTransients_tmask (g : Gang) (x : Iss) (h : Nat → W64) : (g.putTransients x h).tmask = g.tmask := rfl
@[simp] theorem Gang.putTransients_taddr (g : Gang) (x : Iss) (h : Nat → W64) : (g.putTransients x h).taddr = g.taddr := rfl
@[simp] theorem Gang.putTransients_thit (g : Gang) (x : Iss) (h : Nat → W64) : (g.putTransients x h).thit = g.thit := rfl
@[simp] theorem Gang.putTransients_thnd (g : Gang) (x : Iss) (h : Nat → W64) : (g.putTransients x h).thnd = g.thnd := rfl
@[simp] theorem Gang.putTransients_inh (g : Gang) (x : Iss) (h : Nat → W64) : (g.putTransients x h).inh = g.inh := rfl
@[simp] theorem Gang.putTransients_stklim (g : Gang) (x : Iss) (h : Nat → W64) : (g.putTransients x h).stklim = g.stklim := rfl
@[simp] theorem Gang.putTransients_rowlag (g : Gang) (x : Iss) (h : Nat → W64) : (g.putTransients x h).rowlag = g.rowlag := rfl
@[simp] theorem Gang.putTransients_privbase (g : Gang) (x : Iss) (h : Nat → W64) : (g.putTransients x h).privbase = g.privbase := rfl
@[simp] theorem Gang.putTransients_held (g : Gang) (x : Iss) (h : Nat → W64) : (g.putTransients x h).held = g.held := rfl
@[simp] theorem Gang.putTransients_exempt (g : Gang) (x : Iss) (h : Nat → W64) : (g.putTransients x h).exempt = g.exempt := rfl
@[simp] theorem Gang.putTransients_fills (g : Gang) (x : Iss) (h : Nat → W64) : (g.putTransients x h).fills = g.fills := rfl
@[simp] theorem Gang.putTransients_nextFill (g : Gang) (x : Iss) (h : Nat → W64) : (g.putTransients x h).nextFill = g.nextFill := rfl
@[simp] theorem Gang.putTransients_unclass (g : Gang) (x : Iss) (h : Nat → W64) : (g.putTransients x h).unclass = g.unclass := rfl
@[simp] theorem Gang.putTransients_late (g : Gang) (x : Iss) (h : Nat → W64) : (g.putTransients x h).late = g.late := rfl
@[simp] theorem Gang.putTransients_heldStores (g : Gang) (x : Iss) (h : Nat → W64) : (g.putTransients x h).heldStores = g.heldStores := rfl
@[simp] theorem Gang.putTransients_arrivals (g : Gang) (x : Iss) (h : Nat → W64) : (g.putTransients x h).arrivals = g.arrivals := rfl
@[simp] theorem Gang.putTransients_agentWrites (g : Gang) (x : Iss) (h : Nat → W64) : (g.putTransients x h).agentWrites = g.agentWrites := rfl
@[simp] theorem Gang.putTransients_waits (g : Gang) (x : Iss) (h : Nat → W64) : (g.putTransients x h).waits = g.waits := rfl
@[simp] theorem Gang.putTransients_block (g : Gang) (x : Iss) (h : Nat → W64) : (g.putTransients x h).block = g.block := rfl
@[simp] theorem Gang.putTransients_stopped (g : Gang) (x : Iss) (h : Nat → W64) : (g.putTransients x h).stopped = g.stopped := rfl
@[simp] theorem Gang.putTransients_yielded (g : Gang) (x : Iss) (h : Nat → W64) : (g.putTransients x h).yielded = g.yielded := rfl
@[simp] theorem Gang.putTransients_lastIssue (g : Gang) (x : Iss) (h : Nat → W64) : (g.putTransients x h).lastIssue = g.lastIssue := rfl
@[simp] theorem Gang.putTransients_issues (g : Gang) (x : Iss) (h : Nat → W64) : (g.putTransients x h).issues = g.issues := rfl
@[simp] theorem Gang.putTransients_unclassCount (g : Gang) (x : Iss) (h : Nat → W64) : (g.putTransients x h).unclassCount = g.unclassCount := rfl
@[simp] theorem Gang.putTransients_seq (g : Gang) (x : Iss) (h : Nat → W64) : (g.putTransients x h).seq = g.seq := rfl
@[simp] theorem Gang.putTransients_stepArmed (g : Gang) (x : Iss) (h : Nat → W64) : (g.putTransients x h).stepArmed = g.stepArmed := rfl
@[simp] theorem Gang.putTransients_stepDue (g : Gang) (x : Iss) (h : Nat → W64) : (g.putTransients x h).stepDue = g.stepDue := rfl
@[simp] theorem Gang.putTransients_lastSet (g : Gang) (x : Iss) (h : Nat → W64) : (g.putTransients x h).lastSet = g.lastSet := rfl
@[simp] theorem Gang.putTransients_lastRet (g : Gang) (x : Iss) (h : Nat → W64) : (g.putTransients x h).lastRet = g.lastRet := rfl
@[simp] theorem Gang.putTransients_syncDue (g : Gang) (x : Iss) (h : Nat → W64) : (g.putTransients x h).syncDue = g.syncDue := rfl
@[simp] theorem Gang.putTransients_lastActive (g : Gang) (x : Iss) (h : Nat → W64) : (g.putTransients x h).lastActive = g.lastActive := rfl

/-! ### What Gang.holding leaves unchanged -/

@[simp] theorem Gang.holding_team (g : Gang) (l : List (Nat × W12)) : (g.holding l).team = g.team := rfl
@[simp] theorem Gang.holding_index (g : Gang) (l : List (Nat × W12)) : (g.holding l).index = g.index := rfl
@[simp] theorem Gang.holding_half (g : Gang) (l : List (Nat × W12)) : (g.holding l).half = g.half := rfl
@[simp] theorem Gang.holding_width (g : Gang) (l : List (Nat × W12)) : (g.holding l).width = g.width := rfl
@[simp] theorem Gang.holding_regs (g : Gang) (l : List (Nat × W12)) : (g.holding l).regs = g.regs := rfl
@[simp] theorem Gang.holding_granule (g : Gang) (l : List (Nat × W12)) : (g.holding l).granule = g.granule := rfl
@[simp] theorem Gang.holding_live (g : Gang) (l : List (Nat × W12)) : (g.holding l).live = g.live := rfl
@[simp] theorem Gang.holding_pc (g : Gang) (l : List (Nat × W12)) : (g.holding l).pc = g.pc := rfl
@[simp] theorem Gang.holding_wait (g : Gang) (l : List (Nat × W12)) : (g.holding l).wait = g.wait := rfl
@[simp] theorem Gang.holding_v (g : Gang) (l : List (Nat × W12)) : (g.holding l).v = g.v := rfl
@[simp] theorem Gang.holding_vEmpty (g : Gang) (l : List (Nat × W12)) : (g.holding l).vEmpty = g.vEmpty := rfl
@[simp] theorem Gang.holding_vPoison (g : Gang) (l : List (Nat × W12)) : (g.holding l).vPoison = g.vPoison := rfl
@[simp] theorem Gang.holding_vCorr (g : Gang) (l : List (Nat × W12)) : (g.holding l).vCorr = g.vCorr := rfl
@[simp] theorem Gang.holding_s (g : Gang) (l : List (Nat × W12)) : (g.holding l).s = g.s := rfl
@[simp] theorem Gang.holding_sEmpty (g : Gang) (l : List (Nat × W12)) : (g.holding l).sEmpty = g.sEmpty := rfl
@[simp] theorem Gang.holding_sPoison (g : Gang) (l : List (Nat × W12)) : (g.holding l).sPoison = g.sPoison := rfl
@[simp] theorem Gang.holding_p (g : Gang) (l : List (Nat × W12)) : (g.holding l).p = g.p := rfl
@[simp] theorem Gang.holding_pEmpty (g : Gang) (l : List (Nat × W12)) : (g.holding l).pEmpty = g.pEmpty := rfl
@[simp] theorem Gang.holding_n (g : Gang) (l : List (Nat × W12)) : (g.holding l).n = g.n := rfl
@[simp] theorem Gang.holding_nEmpty (g : Gang) (l : List (Nat × W12)) : (g.holding l).nEmpty = g.nEmpty := rfl
@[simp] theorem Gang.holding_nPoison (g : Gang) (l : List (Nat × W12)) : (g.holding l).nPoison = g.nPoison := rfl
@[simp] theorem Gang.holding_w (g : Gang) (l : List (Nat × W12)) : (g.holding l).w = g.w := rfl
@[simp] theorem Gang.holding_lent (g : Gang) (l : List (Nat × W12)) : (g.holding l).lent = g.lent := rfl
@[simp] theorem Gang.holding_parity (g : Gang) (l : List (Nat × W12)) : (g.holding l).parity = g.parity := rfl
@[simp] theorem Gang.holding_fpctl (g : Gang) (l : List (Nat × W12)) : (g.holding l).fpctl = g.fpctl := rfl
@[simp] theorem Gang.holding_fpstat (g : Gang) (l : List (Nat × W12)) : (g.holding l).fpstat = g.fpstat := rfl
@[simp] theorem Gang.holding_cause (g : Gang) (l : List (Nat × W12)) : (g.holding l).cause = g.cause := rfl
@[simp] theorem Gang.holding_tpc (g : Gang) (l : List (Nat × W12)) : (g.holding l).tpc = g.tpc := rfl
@[simp] theorem Gang.holding_tmask (g : Gang) (l : List (Nat × W12)) : (g.holding l).tmask = g.tmask := rfl
@[simp] theorem Gang.holding_taddr (g : Gang) (l : List (Nat × W12)) : (g.holding l).taddr = g.taddr := rfl
@[simp] theorem Gang.holding_thit (g : Gang) (l : List (Nat × W12)) : (g.holding l).thit = g.thit := rfl
@[simp] theorem Gang.holding_thnd (g : Gang) (l : List (Nat × W12)) : (g.holding l).thnd = g.thnd := rfl
@[simp] theorem Gang.holding_inh (g : Gang) (l : List (Nat × W12)) : (g.holding l).inh = g.inh := rfl
@[simp] theorem Gang.holding_stklim (g : Gang) (l : List (Nat × W12)) : (g.holding l).stklim = g.stklim := rfl
@[simp] theorem Gang.holding_rowlag (g : Gang) (l : List (Nat × W12)) : (g.holding l).rowlag = g.rowlag := rfl
@[simp] theorem Gang.holding_privbase (g : Gang) (l : List (Nat × W12)) : (g.holding l).privbase = g.privbase := rfl
@[simp] theorem Gang.holding_held (g : Gang) (l : List (Nat × W12)) : (g.holding l).held = g.held := rfl
@[simp] theorem Gang.holding_exempt (g : Gang) (l : List (Nat × W12)) : (g.holding l).exempt = g.exempt := rfl
@[simp] theorem Gang.holding_transients (g : Gang) (l : List (Nat × W12)) : (g.holding l).transients = g.transients := rfl
@[simp] theorem Gang.holding_fills (g : Gang) (l : List (Nat × W12)) : (g.holding l).fills = g.fills := rfl
@[simp] theorem Gang.holding_nextFill (g : Gang) (l : List (Nat × W12)) : (g.holding l).nextFill = g.nextFill := rfl
@[simp] theorem Gang.holding_unclass (g : Gang) (l : List (Nat × W12)) : (g.holding l).unclass = g.unclass := rfl
@[simp] theorem Gang.holding_late (g : Gang) (l : List (Nat × W12)) : (g.holding l).late = g.late := rfl
@[simp] theorem Gang.holding_heldStores (g : Gang) (l : List (Nat × W12)) : (g.holding l).heldStores = g.heldStores := rfl
@[simp] theorem Gang.holding_arrivals (g : Gang) (l : List (Nat × W12)) : (g.holding l).arrivals = g.arrivals := rfl
@[simp] theorem Gang.holding_agentWrites (g : Gang) (l : List (Nat × W12)) : (g.holding l).agentWrites = g.agentWrites := rfl
@[simp] theorem Gang.holding_waits (g : Gang) (l : List (Nat × W12)) : (g.holding l).waits = g.waits := rfl
@[simp] theorem Gang.holding_block (g : Gang) (l : List (Nat × W12)) : (g.holding l).block = g.block := rfl
@[simp] theorem Gang.holding_stopped (g : Gang) (l : List (Nat × W12)) : (g.holding l).stopped = g.stopped := rfl
@[simp] theorem Gang.holding_yielded (g : Gang) (l : List (Nat × W12)) : (g.holding l).yielded = g.yielded := rfl
@[simp] theorem Gang.holding_lastIssue (g : Gang) (l : List (Nat × W12)) : (g.holding l).lastIssue = g.lastIssue := rfl
@[simp] theorem Gang.holding_issues (g : Gang) (l : List (Nat × W12)) : (g.holding l).issues = g.issues := rfl
@[simp] theorem Gang.holding_unclassCount (g : Gang) (l : List (Nat × W12)) : (g.holding l).unclassCount = g.unclassCount := rfl
@[simp] theorem Gang.holding_seq (g : Gang) (l : List (Nat × W12)) : (g.holding l).seq = g.seq := rfl
@[simp] theorem Gang.holding_stepArmed (g : Gang) (l : List (Nat × W12)) : (g.holding l).stepArmed = g.stepArmed := rfl
@[simp] theorem Gang.holding_stepDue (g : Gang) (l : List (Nat × W12)) : (g.holding l).stepDue = g.stepDue := rfl
@[simp] theorem Gang.holding_lastSet (g : Gang) (l : List (Nat × W12)) : (g.holding l).lastSet = g.lastSet := rfl
@[simp] theorem Gang.holding_lastRet (g : Gang) (l : List (Nat × W12)) : (g.holding l).lastRet = g.lastRet := rfl
@[simp] theorem Gang.holding_syncDue (g : Gang) (l : List (Nat × W12)) : (g.holding l).syncDue = g.syncDue := rfl
@[simp] theorem Gang.holding_lastActive (g : Gang) (l : List (Nat × W12)) : (g.holding l).lastActive = g.lastActive := rfl

/-! ### What Gang.putW leaves unchanged -/

@[simp] theorem Gang.putW_team (g : Gang) (k : Nat) (x : W64) : (g.putW k x).team = g.team := rfl
@[simp] theorem Gang.putW_index (g : Gang) (k : Nat) (x : W64) : (g.putW k x).index = g.index := rfl
@[simp] theorem Gang.putW_half (g : Gang) (k : Nat) (x : W64) : (g.putW k x).half = g.half := rfl
@[simp] theorem Gang.putW_width (g : Gang) (k : Nat) (x : W64) : (g.putW k x).width = g.width := rfl
@[simp] theorem Gang.putW_regs (g : Gang) (k : Nat) (x : W64) : (g.putW k x).regs = g.regs := rfl
@[simp] theorem Gang.putW_granule (g : Gang) (k : Nat) (x : W64) : (g.putW k x).granule = g.granule := rfl
@[simp] theorem Gang.putW_live (g : Gang) (k : Nat) (x : W64) : (g.putW k x).live = g.live := rfl
@[simp] theorem Gang.putW_pc (g : Gang) (k : Nat) (x : W64) : (g.putW k x).pc = g.pc := rfl
@[simp] theorem Gang.putW_wait (g : Gang) (k : Nat) (x : W64) : (g.putW k x).wait = g.wait := rfl
@[simp] theorem Gang.putW_v (g : Gang) (k : Nat) (x : W64) : (g.putW k x).v = g.v := rfl
@[simp] theorem Gang.putW_vEmpty (g : Gang) (k : Nat) (x : W64) : (g.putW k x).vEmpty = g.vEmpty := rfl
@[simp] theorem Gang.putW_vPoison (g : Gang) (k : Nat) (x : W64) : (g.putW k x).vPoison = g.vPoison := rfl
@[simp] theorem Gang.putW_vCorr (g : Gang) (k : Nat) (x : W64) : (g.putW k x).vCorr = g.vCorr := rfl
@[simp] theorem Gang.putW_s (g : Gang) (k : Nat) (x : W64) : (g.putW k x).s = g.s := rfl
@[simp] theorem Gang.putW_sEmpty (g : Gang) (k : Nat) (x : W64) : (g.putW k x).sEmpty = g.sEmpty := rfl
@[simp] theorem Gang.putW_sPoison (g : Gang) (k : Nat) (x : W64) : (g.putW k x).sPoison = g.sPoison := rfl
@[simp] theorem Gang.putW_p (g : Gang) (k : Nat) (x : W64) : (g.putW k x).p = g.p := rfl
@[simp] theorem Gang.putW_pEmpty (g : Gang) (k : Nat) (x : W64) : (g.putW k x).pEmpty = g.pEmpty := rfl
@[simp] theorem Gang.putW_n (g : Gang) (k : Nat) (x : W64) : (g.putW k x).n = g.n := rfl
@[simp] theorem Gang.putW_nEmpty (g : Gang) (k : Nat) (x : W64) : (g.putW k x).nEmpty = g.nEmpty := rfl
@[simp] theorem Gang.putW_nPoison (g : Gang) (k : Nat) (x : W64) : (g.putW k x).nPoison = g.nPoison := rfl
@[simp] theorem Gang.putW_lent (g : Gang) (k : Nat) (x : W64) : (g.putW k x).lent = g.lent := rfl
@[simp] theorem Gang.putW_fpctl (g : Gang) (k : Nat) (x : W64) : (g.putW k x).fpctl = g.fpctl := rfl
@[simp] theorem Gang.putW_fpstat (g : Gang) (k : Nat) (x : W64) : (g.putW k x).fpstat = g.fpstat := rfl
@[simp] theorem Gang.putW_cause (g : Gang) (k : Nat) (x : W64) : (g.putW k x).cause = g.cause := rfl
@[simp] theorem Gang.putW_tpc (g : Gang) (k : Nat) (x : W64) : (g.putW k x).tpc = g.tpc := rfl
@[simp] theorem Gang.putW_tmask (g : Gang) (k : Nat) (x : W64) : (g.putW k x).tmask = g.tmask := rfl
@[simp] theorem Gang.putW_taddr (g : Gang) (k : Nat) (x : W64) : (g.putW k x).taddr = g.taddr := rfl
@[simp] theorem Gang.putW_thit (g : Gang) (k : Nat) (x : W64) : (g.putW k x).thit = g.thit := rfl
@[simp] theorem Gang.putW_thnd (g : Gang) (k : Nat) (x : W64) : (g.putW k x).thnd = g.thnd := rfl
@[simp] theorem Gang.putW_inh (g : Gang) (k : Nat) (x : W64) : (g.putW k x).inh = g.inh := rfl
@[simp] theorem Gang.putW_stklim (g : Gang) (k : Nat) (x : W64) : (g.putW k x).stklim = g.stklim := rfl
@[simp] theorem Gang.putW_rowlag (g : Gang) (k : Nat) (x : W64) : (g.putW k x).rowlag = g.rowlag := rfl
@[simp] theorem Gang.putW_privbase (g : Gang) (k : Nat) (x : W64) : (g.putW k x).privbase = g.privbase := rfl
@[simp] theorem Gang.putW_held (g : Gang) (k : Nat) (x : W64) : (g.putW k x).held = g.held := rfl
@[simp] theorem Gang.putW_exempt (g : Gang) (k : Nat) (x : W64) : (g.putW k x).exempt = g.exempt := rfl
@[simp] theorem Gang.putW_transients (g : Gang) (k : Nat) (x : W64) : (g.putW k x).transients = g.transients := rfl
@[simp] theorem Gang.putW_fills (g : Gang) (k : Nat) (x : W64) : (g.putW k x).fills = g.fills := rfl
@[simp] theorem Gang.putW_nextFill (g : Gang) (k : Nat) (x : W64) : (g.putW k x).nextFill = g.nextFill := rfl
@[simp] theorem Gang.putW_unclass (g : Gang) (k : Nat) (x : W64) : (g.putW k x).unclass = g.unclass := rfl
@[simp] theorem Gang.putW_late (g : Gang) (k : Nat) (x : W64) : (g.putW k x).late = g.late := rfl
@[simp] theorem Gang.putW_heldStores (g : Gang) (k : Nat) (x : W64) : (g.putW k x).heldStores = g.heldStores := rfl
@[simp] theorem Gang.putW_arrivals (g : Gang) (k : Nat) (x : W64) : (g.putW k x).arrivals = g.arrivals := rfl
@[simp] theorem Gang.putW_agentWrites (g : Gang) (k : Nat) (x : W64) : (g.putW k x).agentWrites = g.agentWrites := rfl
@[simp] theorem Gang.putW_waits (g : Gang) (k : Nat) (x : W64) : (g.putW k x).waits = g.waits := rfl
@[simp] theorem Gang.putW_block (g : Gang) (k : Nat) (x : W64) : (g.putW k x).block = g.block := rfl
@[simp] theorem Gang.putW_stopped (g : Gang) (k : Nat) (x : W64) : (g.putW k x).stopped = g.stopped := rfl
@[simp] theorem Gang.putW_yielded (g : Gang) (k : Nat) (x : W64) : (g.putW k x).yielded = g.yielded := rfl
@[simp] theorem Gang.putW_lastIssue (g : Gang) (k : Nat) (x : W64) : (g.putW k x).lastIssue = g.lastIssue := rfl
@[simp] theorem Gang.putW_issues (g : Gang) (k : Nat) (x : W64) : (g.putW k x).issues = g.issues := rfl
@[simp] theorem Gang.putW_unclassCount (g : Gang) (k : Nat) (x : W64) : (g.putW k x).unclassCount = g.unclassCount := rfl
@[simp] theorem Gang.putW_seq (g : Gang) (k : Nat) (x : W64) : (g.putW k x).seq = g.seq := rfl
@[simp] theorem Gang.putW_stepArmed (g : Gang) (k : Nat) (x : W64) : (g.putW k x).stepArmed = g.stepArmed := rfl
@[simp] theorem Gang.putW_stepDue (g : Gang) (k : Nat) (x : W64) : (g.putW k x).stepDue = g.stepDue := rfl
@[simp] theorem Gang.putW_lastSet (g : Gang) (k : Nat) (x : W64) : (g.putW k x).lastSet = g.lastSet := rfl
@[simp] theorem Gang.putW_lastRet (g : Gang) (k : Nat) (x : W64) : (g.putW k x).lastRet = g.lastRet := rfl
@[simp] theorem Gang.putW_syncDue (g : Gang) (k : Nat) (x : W64) : (g.putW k x).syncDue = g.syncDue := rfl
@[simp] theorem Gang.putW_lastActive (g : Gang) (k : Nat) (x : W64) : (g.putW k x).lastActive = g.lastActive := rfl

/-! ### What Gang.takeNumber leaves unchanged -/

@[simp] theorem Gang.takeNumber_team (g : Gang) : (g.takeNumber).team = g.team := rfl
@[simp] theorem Gang.takeNumber_index (g : Gang) : (g.takeNumber).index = g.index := rfl
@[simp] theorem Gang.takeNumber_half (g : Gang) : (g.takeNumber).half = g.half := rfl
@[simp] theorem Gang.takeNumber_width (g : Gang) : (g.takeNumber).width = g.width := rfl
@[simp] theorem Gang.takeNumber_regs (g : Gang) : (g.takeNumber).regs = g.regs := rfl
@[simp] theorem Gang.takeNumber_granule (g : Gang) : (g.takeNumber).granule = g.granule := rfl
@[simp] theorem Gang.takeNumber_live (g : Gang) : (g.takeNumber).live = g.live := rfl
@[simp] theorem Gang.takeNumber_pc (g : Gang) : (g.takeNumber).pc = g.pc := rfl
@[simp] theorem Gang.takeNumber_wait (g : Gang) : (g.takeNumber).wait = g.wait := rfl
@[simp] theorem Gang.takeNumber_v (g : Gang) : (g.takeNumber).v = g.v := rfl
@[simp] theorem Gang.takeNumber_vEmpty (g : Gang) : (g.takeNumber).vEmpty = g.vEmpty := rfl
@[simp] theorem Gang.takeNumber_vPoison (g : Gang) : (g.takeNumber).vPoison = g.vPoison := rfl
@[simp] theorem Gang.takeNumber_vCorr (g : Gang) : (g.takeNumber).vCorr = g.vCorr := rfl
@[simp] theorem Gang.takeNumber_s (g : Gang) : (g.takeNumber).s = g.s := rfl
@[simp] theorem Gang.takeNumber_sEmpty (g : Gang) : (g.takeNumber).sEmpty = g.sEmpty := rfl
@[simp] theorem Gang.takeNumber_sPoison (g : Gang) : (g.takeNumber).sPoison = g.sPoison := rfl
@[simp] theorem Gang.takeNumber_p (g : Gang) : (g.takeNumber).p = g.p := rfl
@[simp] theorem Gang.takeNumber_pEmpty (g : Gang) : (g.takeNumber).pEmpty = g.pEmpty := rfl
@[simp] theorem Gang.takeNumber_n (g : Gang) : (g.takeNumber).n = g.n := rfl
@[simp] theorem Gang.takeNumber_nEmpty (g : Gang) : (g.takeNumber).nEmpty = g.nEmpty := rfl
@[simp] theorem Gang.takeNumber_nPoison (g : Gang) : (g.takeNumber).nPoison = g.nPoison := rfl
@[simp] theorem Gang.takeNumber_w (g : Gang) : (g.takeNumber).w = g.w := rfl
@[simp] theorem Gang.takeNumber_lent (g : Gang) : (g.takeNumber).lent = g.lent := rfl
@[simp] theorem Gang.takeNumber_parity (g : Gang) : (g.takeNumber).parity = g.parity := rfl
@[simp] theorem Gang.takeNumber_fpctl (g : Gang) : (g.takeNumber).fpctl = g.fpctl := rfl
@[simp] theorem Gang.takeNumber_fpstat (g : Gang) : (g.takeNumber).fpstat = g.fpstat := rfl
@[simp] theorem Gang.takeNumber_cause (g : Gang) : (g.takeNumber).cause = g.cause := rfl
@[simp] theorem Gang.takeNumber_tpc (g : Gang) : (g.takeNumber).tpc = g.tpc := rfl
@[simp] theorem Gang.takeNumber_tmask (g : Gang) : (g.takeNumber).tmask = g.tmask := rfl
@[simp] theorem Gang.takeNumber_taddr (g : Gang) : (g.takeNumber).taddr = g.taddr := rfl
@[simp] theorem Gang.takeNumber_thit (g : Gang) : (g.takeNumber).thit = g.thit := rfl
@[simp] theorem Gang.takeNumber_thnd (g : Gang) : (g.takeNumber).thnd = g.thnd := rfl
@[simp] theorem Gang.takeNumber_inh (g : Gang) : (g.takeNumber).inh = g.inh := rfl
@[simp] theorem Gang.takeNumber_stklim (g : Gang) : (g.takeNumber).stklim = g.stklim := rfl
@[simp] theorem Gang.takeNumber_rowlag (g : Gang) : (g.takeNumber).rowlag = g.rowlag := rfl
@[simp] theorem Gang.takeNumber_privbase (g : Gang) : (g.takeNumber).privbase = g.privbase := rfl
@[simp] theorem Gang.takeNumber_held (g : Gang) : (g.takeNumber).held = g.held := rfl
@[simp] theorem Gang.takeNumber_exempt (g : Gang) : (g.takeNumber).exempt = g.exempt := rfl
@[simp] theorem Gang.takeNumber_transients (g : Gang) : (g.takeNumber).transients = g.transients := rfl
@[simp] theorem Gang.takeNumber_holdLatch (g : Gang) : (g.takeNumber).holdLatch = g.holdLatch := rfl
@[simp] theorem Gang.takeNumber_fills (g : Gang) : (g.takeNumber).fills = g.fills := rfl
@[simp] theorem Gang.takeNumber_unclass (g : Gang) : (g.takeNumber).unclass = g.unclass := rfl
@[simp] theorem Gang.takeNumber_late (g : Gang) : (g.takeNumber).late = g.late := rfl
@[simp] theorem Gang.takeNumber_heldStores (g : Gang) : (g.takeNumber).heldStores = g.heldStores := rfl
@[simp] theorem Gang.takeNumber_arrivals (g : Gang) : (g.takeNumber).arrivals = g.arrivals := rfl
@[simp] theorem Gang.takeNumber_agentWrites (g : Gang) : (g.takeNumber).agentWrites = g.agentWrites := rfl
@[simp] theorem Gang.takeNumber_waits (g : Gang) : (g.takeNumber).waits = g.waits := rfl
@[simp] theorem Gang.takeNumber_block (g : Gang) : (g.takeNumber).block = g.block := rfl
@[simp] theorem Gang.takeNumber_stopped (g : Gang) : (g.takeNumber).stopped = g.stopped := rfl
@[simp] theorem Gang.takeNumber_yielded (g : Gang) : (g.takeNumber).yielded = g.yielded := rfl
@[simp] theorem Gang.takeNumber_lastIssue (g : Gang) : (g.takeNumber).lastIssue = g.lastIssue := rfl
@[simp] theorem Gang.takeNumber_issues (g : Gang) : (g.takeNumber).issues = g.issues := rfl
@[simp] theorem Gang.takeNumber_unclassCount (g : Gang) : (g.takeNumber).unclassCount = g.unclassCount := rfl
@[simp] theorem Gang.takeNumber_seq (g : Gang) : (g.takeNumber).seq = g.seq := rfl
@[simp] theorem Gang.takeNumber_stepArmed (g : Gang) : (g.takeNumber).stepArmed = g.stepArmed := rfl
@[simp] theorem Gang.takeNumber_stepDue (g : Gang) : (g.takeNumber).stepDue = g.stepDue := rfl
@[simp] theorem Gang.takeNumber_lastSet (g : Gang) : (g.takeNumber).lastSet = g.lastSet := rfl
@[simp] theorem Gang.takeNumber_lastRet (g : Gang) : (g.takeNumber).lastRet = g.lastRet := rfl
@[simp] theorem Gang.takeNumber_syncDue (g : Gang) : (g.takeNumber).syncDue = g.syncDue := rfl
@[simp] theorem Gang.takeNumber_lastActive (g : Gang) : (g.takeNumber).lastActive = g.lastActive := rfl

end Sys2Proof.Machine
end

