-- ==== Sys2Proof/Laws/Checks.lean ====
section
/-! SUPPORT. What the checks of an access can do to the state: cached translations, walks asked for, counters; and what the touches
of its pages can do: the task's classes. -/

namespace Sys2Proof.Machine

/-- s' is s but for cached translations, walks and counters. -/
def ChecksKeep (s s' : State) : Prop := s' = { s with tlb := s'.tlb, walks := s'.walks, counters := s'.counters }

theorem ChecksKeep.refl (s : State) : ChecksKeep s s := rfl
theorem ChecksKeep.trans {a b c : State} (h : ChecksKeep a b) (k : ChecksKeep b c) : ChecksKeep a c := by
  unfold ChecksKeep at *
  rw [k, h]

theorem askWalk_keeps (s : State) (core ctx va : Nat) : ChecksKeep s (askWalk s core ctx va) := by
  unfold askWalk; simp only; split <;> rfl

/-- The state after a translation. -/
def CoreXlat.state : CoreXlat → State
  | .miss s => s
  | .done _ s => s

theorem coreXlat_keeps (s : State) (core ctx va : Nat) (acc : Access) : ChecksKeep s (coreXlat s core ctx va acc).state := by
  unfold coreXlat
  simp only
  split
  · rfl
  · split
    · split
      · split
        · rfl
        · exact ChecksKeep.trans (b := { s with walks := s.walks.filter fun w => !(w.done && w.core == core && w.ctx == ctx && w.vpage == va / 4096) })
            rfl (askWalk_keeps _ _ _ _)
      · exact askWalk_keeps _ _ _ _
    · split
      · split
        · split
          · rfl
          · split
            · rfl
            · split
              · split <;> rfl
              · rfl
        · rfl
      · rfl

/-- The state after the checks of a lane. -/
def LaneChk.state : LaneChk → State
  | .miss s => s
  | .fail _ _ s => s
  | .ok _ s => s

theorem joinChk_keeps {s : State} {r : LaneChk} {next : State → LaneChk} (h : ChecksKeep s r.state) (hn : ∀ s, ChecksKeep s (next s).state) :
    ChecksKeep s (joinChk r next).state := by
  cases r with
  | miss s1 => exact h
  | ok accs s1 =>
    have := hn s1
    simp only [joinChk]
    split <;> next e => first | (rw [e] at this; exact ChecksKeep.trans h this) | exact ChecksKeep.trans h this
  | fail c a s1 =>
    have := hn s1
    simp only [joinChk]
    split <;> next e =>
      rw [e] at this
      first | exact ChecksKeep.trans h this | (split <;> exact ChecksKeep.trans h this)

theorem xlatPiece_keeps (core ctx : Nat) (acc : Access) (sp : Space) (lane va : Nat) (d d2 : List Byte) (p : Nat × Nat) (s : State) :
    ChecksKeep s (xlatPiece core ctx acc sp lane va d d2 p s).state := by
  have hk := coreXlat_keeps s core ctx p.1 acc
  unfold xlatPiece
  simp only
  split <;> next h => rw [h] at hk; exact hk

theorem xlatPieces_keeps (s : State) (core ctx : Nat) (acc : Access) (sp : Space) (lane va : Nat) (d d2 : List Byte)
    (ps : List (Nat × Nat)) : ChecksKeep s (xlatPieces s core ctx acc sp lane va d d2 ps).state :=
  foldl_keeps (fun r : LaneChk => ChecksKeep s r.state) _
    (fun _ p hr => joinChk_keeps hr (xlatPiece_keeps core ctx acc sp lane va d d2 p)) _ _ (ChecksKeep.refl s)

theorem globalCheck_keeps (s : State) (g : Gang) (w : Who) (r : TaskRec) (q : AccReq) (b : Bool) :
    ChecksKeep s (globalCheck s g w r q b).state := by
  unfold globalCheck
  simp only
  have hk := xlatPieces_keeps s w.core w.ctx (if q.kind = .read then .read else .write) .global q.lane q.va q.data q.data2 (pagePieces q.va q.size)
  split
  · next h => rw [h] at hk; exact hk
  · next h => rw [h] at hk; exact hk
  · next h =>
    rw [h] at hk
    repeat' split
    all_goals exact hk

theorem scratchCheck_keeps (s : State) (w : Who) (half : Nat) (may : Bool) (q : AccReq) : ChecksKeep s (scratchCheck s w half may q).state := by
  unfold scratchCheck
  split
  all_goals rfl

theorem alignCheck_keeps (q : AccReq) (a : LaneAcc) (t : Nat) (s : State) : ChecksKeep s (alignCheck q a t s).state := by
  unfold alignCheck
  split
  all_goals rfl

theorem stashLane_keeps (s : State) (w : Who) (r : TaskRec) (g : Option Gang) (q : AccReq) (a : LaneAcc) :
    ChecksKeep s (stashLane s w r g q a).state := by
  unfold stashLane
  simp only
  split
  · next _ _ _ m va _ _ =>
    have hk := coreXlat_keeps s w.core w.ctx va (if pageShared s w.slot (va / 4096) && q.kind != .read then .write else .read)
    split
    · exact alignCheck_keeps _ _ _ _
    · split <;> next h =>
        rw [h] at hk
        first
        | exact hk
        | (repeat' split) <;> first | exact hk | exact hk.trans (alignCheck_keeps _ _ _ _)
  · exact alignCheck_keeps _ _ _ _

theorem localCheck_keeps (s : State) (w : Who) (r : TaskRec) (g : Option Gang) (half : Nat) (may : Bool) (q : AccReq) :
    ChecksKeep s (localCheck s w r g half may q).state := by
  have hk := scratchCheck_keeps s w half may q
  unfold localCheck
  split
  · next h => rw [h] at hk; exact hk.trans (stashLane_keeps _ _ _ _ _ _)
  · exact hk

theorem privWord_keeps (g : Gang) (w : Who) (q : AccReq) (va : Nat) (d : List Byte) (s : State) : ChecksKeep s (privWord g w q va d s).state := by
  unfold privWord
  simp only
  have hk := xlatPieces_keeps s w.core w.ctx (if q.kind = .read then .read else .write) .priv q.lane va d [] (pagePieces va 4)
  split
  · next h => rw [h] at hk; exact hk
  · next h => rw [h] at hk; exact hk
  · next h =>
    rw [h] at hk
    repeat' split
    all_goals exact hk

theorem privCheck_keeps (s : State) (g : Gang) (w : Who) (q : AccReq) (word : Int) (k : Nat) : ChecksKeep s (privCheck s g w q word k).state := by
  unfold privCheck
  split
  · rfl
  · exact foldl_keeps (fun r : LaneChk => ChecksKeep s r.state) _
      (fun _ _ hr => joinChk_keeps hr (privWord_keeps _ _ _ _ _)) _ _ (ChecksKeep.refl s)

theorem rowCheck_keeps (x : Iss) (kind : WatchKind) (d vd vd2 : List Byte) (s : State) (l : Nat) : ChecksKeep s (rowCheck x kind d vd vd2 s l).state := by
  unfold rowCheck
  refine joinChk_keeps (joinChk_keeps (globalCheck_keeps _ _ _ _ _ _) fun s => globalCheck_keeps _ _ _ _ _ _) fun s => ?_
  split <;> rfl

theorem ldkCheck_keeps (x : Iss) (s : State) (l : Nat) : ChecksKeep s (ldkCheck x s l).state := by
  unfold ldkCheck
  simp only
  have hk := xlatPieces_keeps s x.who.core x.who.ctx .read .global l (x.addr l) [] [] (pagePieces (x.addr l) (accSize x.f))
  split
  · next h =>
    rw [h] at hk
    repeat' split
    all_goals exact hk
  · next h => rw [h] at hk; exact hk
  · exact hk

/-- R213: the checks of all lanes change nothing but what one lane's may change. -/
theorem checkLanes_keeps (s : State) (active : LaneMask) (lanes : List Nat) (chk : State → Nat → LaneChk)
    (hc : ∀ s l, ChecksKeep s (chk s l).state) :
    match checkLanes s active lanes chk with
    | .wait s' => ChecksKeep s s'
    | .trap _ s' => ChecksKeep s s'
    | .ok _ s' => ChecksKeep s s' := by
  unfold checkLanes
  simp only
  generalize hr : lanes.foldl _ _ = r
  have key : ChecksKeep s r.1 := by
    rw [← hr]
    refine foldl_keeps (fun r : State × List LaneAcc × List (Nat × Nat × W64) × Bool => ChecksKeep s r.1) _ (fun r l h => ?_) _ _ (ChecksKeep.refl s)
    have := hc r.1 l
    split <;> next h2 => rw [h2] at this; exact ChecksKeep.trans h this
  have e : ∀ c : Checked, (if r.2.2.2 = true then Checked.wait r.1 else match chooseFail active r.2.2.1 with
      | some t => Checked.trap t r.1
      | none => Checked.ok r.2.1 r.1) = c → match c with
    | .wait s' => ChecksKeep s s'
    | .trap _ s' => ChecksKeep s s'
    | .ok _ s' => ChecksKeep s s' := by
    intro c hc
    subst hc
    by_cases hw : r.2.2.2 = true
    · rw [if_pos hw]; exact key
    · rw [if_neg hw]
      cases chooseFail active r.2.2.1 <;> exact key
  exact e _ rfl

/-- R295: the touches of pages change the task alone, and leave its number and record. -/
theorem touchPages_keeps (s : State) (slot index owner : Nat) (write force busy : Bool) (pages : List Nat) (u : Bool) (cs : List Nat) (s' : State)
    (h : touchPages s slot index owner write force busy pages = .go u cs s') : s' = { s with tasks := s'.tasks } := by
  unfold touchPages at h
  split at h
  · cases h; rfl
  · simp only at h
    repeat' split at h
    all_goals first | (cases h; rfl) | cases h

/-- The checks of every form that reaches memory keep what checks keep. -/
theorem memSpec_keeps {x : Iss} {m : MemSpec} (hm : memSpec x = some m) (s : State) (l : Nat) : ChecksKeep s (m.chk s l).state := by
  unfold memSpec at hm
  simp only at hm
  split at hm
  all_goals cases hm
  all_goals first
    | exact globalCheck_keeps _ _ _ _ _ _
    | exact localCheck_keeps _ _ _ _ _ _ _
    | exact privCheck_keeps _ _ _ _ _ _
    | exact rowCheck_keeps _ _ _ _ _ _ _

/-- Everything an issue's checks and touches leave alone. -/
theorem Reaches.keeps {x : Iss} {s0 s' : State} {force write : Bool} {lanes : List Nat} {chk : State → Nat → LaneChk} {accs : List LaneAcc}
    {late : Bool} {claims : List Nat} (h : Reaches x s0 force write lanes chk accs late claims s') (hc : ∀ s l, ChecksKeep s (chk s l).state) :
    s' = { s0 with tlb := s'.tlb, walks := s'.walks, counters := s'.counters, tasks := s'.tasks } := by
  obtain ⟨s1, h1, h3⟩ := h.checked
  have k1 := checkLanes_keeps s0 x.active lanes chk hc
  rw [h1] at k1
  have k2 := touchPages_keeps _ _ _ _ _ _ _ _ _ _ _ h3
  unfold ChecksKeep at k1
  rw [k2, k1]

end Sys2Proof.Machine
end

