-- ==== Sys2Proof/Laws/Access.lean ====
section
/-! SUPPORT. The accesses of an issue at their coherence points: which byte of memory and of scratchpad each store changes, and what
loads leave alone. -/

namespace Sys2Proof.Machine

/-- The bytes of one line of an access. -/
theorem linePart_spec (pa size : Nat) (data : List Byte) (k : Nat) (hk : pa / 128 ≤ k) (q : Nat) :
    let p := linePart pa size data k
    (p.1 ≤ q ∧ q < p.1 + p.2.length ↔ q / 128 = k ∧ pa ≤ q ∧ q < pa + size ∧ q - pa < data.length) ∧
    (p.1 ≤ q → q < p.1 + p.2.length → p.2.getD (q - p.1) 0#8 = data.getD (q - pa) 0#8 ∧ q / 128 = p.1 / 128) := by
  simp only [linePart, List.length_take, List.length_drop]
  have h1 : q / 128 = k ↔ k * 128 ≤ q ∧ q < (k + 1) * 128 := by omega
  have h2 : pa < (k + 1) * 128 := by omega
  constructor
  · rw [h1]
    constructor
    · rintro ⟨a, b⟩; omega
    · rintro ⟨⟨a, b⟩, c, d, e⟩; omega
  · intro a b
    have e1 : max pa (k * 128) - pa + (q - max pa (k * 128)) = q - pa := by omega
    have e2 : q - max pa (k * 128) < min (pa + size) ((k + 1) * 128) - max pa (k * 128) := by omega
    constructor
    · rw [List.getD_eq_getElem?_getD, List.getD_eq_getElem?_getD, List.getElem?_take_of_lt e2, List.getElem?_drop, e1]
    · omega

/-- Whether an access stores the byte at a physical address. -/
abbrev LaneAcc.reaches (a : LaneAcc) (q : Nat) : Prop := a.pa ≤ q ∧ q < a.pa + a.size ∧ q - a.pa < a.data.length
/-- Whether an access is to memory at home. -/
def LaneAcc.atHome (a : LaneAcc) : Bool := a.peer.isNone && match a.space with
  | .scratch _ => false
  | _ => true

/-- R283, R358, R384: what a store or a fill does before and after the line itself changes no byte. -/
theorem crossed_spec (s : State) (w : Who) (unc : Bool) (line : Nat) (gen : W16) (h : l1Ok s.l1) :
    let s' := if unc then staleLine s w.core w.slot line gen else crossFill (staleLine s w.core w.slot line gen) w line
    l1Ok s'.l1 ∧ (∀ q, memByte s' q = memByte s q) ∧ s'.teams = s.teams := by
  obtain ⟨h1, h2⟩ := staleLine_spec s w.core w.slot line gen h
  have e : ∀ s1 : State, (crossFill s1 w line).l1 = s1.l1 ∧ (crossFill s1 w line).mem = s1.mem ∧ (crossFill s1 w line).teams = s1.teams := fun s1 => by
    unfold crossFill; split <;> exact ⟨rfl, rfl, rfl⟩
  cases unc
  · obtain ⟨e1, e2, e3⟩ := e (staleLine s w.core w.slot line gen)
    refine ⟨by simpa [e1] using h1, fun q => ?_, by simp [e3]⟩
    rw [← h2 q]
    simp [memByte, homeByte, e1, e2]
  · exact ⟨h1, h2, by simp⟩

theorem granted_spec (s : State) (w : Who) (tag : Option Nat × Bool) (die line : Nat) (own : Bool) (h : l1Ok s.l1) :
    let s' := if tag.2 then grantLine (tagLine s w.core w.slot line tag.1) w.core die line own else tagLine s w.core w.slot line tag.1
    l1Ok s'.l1 ∧ (∀ q, memByte s' q = memByte s q) ∧ s'.teams = s.teams := by
  obtain ⟨h1, h2⟩ := tagLine_spec s w.core w.slot line tag.1 h
  cases tag.2
  · exact ⟨h1, h2, by simp⟩
  · exact ⟨h1, h2, tagLine_teams _ _ _ _ _⟩

theorem lineStore_teams (s : State) (core slot : Nat) (tm : Option Nat) (gen : W16) (tr : Bool) (pa : Nat) (bs : List Byte) (pay : Charge) :
    (lineStore s core slot tm gen tr pa bs (pay := pay)).teams = s.teams := by
  have : ∀ s : State, (fillLine s core slot tm (pa / 128) gen tr).teams = s.teams := fun s => by unfold fillLine; split <;> rfl
  exact this _

/-- R283, R284: bytes of one line stored by an access: each of them reads as stored, every other byte as before. -/
theorem storeLine_spec (s : State) (w : Who) (tag : Option Nat × Bool) (unc : Bool) (leaf : W64) (pa : Nat) (bs : List Byte) (h : l1Ok s.l1)
    (hb : ∀ q, pa ≤ q → q < pa + bs.length → q / 128 = pa / 128) :
    l1Ok (storeLine s w tag unc leaf pa bs).l1 ∧ (storeLine s w tag unc leaf pa bs).teams = s.teams ∧
    ∀ q, memByte (storeLine s w tag unc leaf pa bs) q = if pa ≤ q ∧ q < pa + bs.length then bs.getD (q - pa) 0#8 else memByte s q := by
  obtain ⟨c1, c2, c3⟩ := crossed_spec s w unc (pa / 128) (pteGen leaf) h
  unfold storeLine
  simp only
  generalize (if unc = true then staleLine s w.core w.slot (pa / 128) (pteGen leaf) else
    crossFill (staleLine s w.core w.slot (pa / 128) (pteGen leaf)) w (pa / 128)) = s1 at c1 c2 c3 ⊢
  have l1 := l1Ok_lineStore w.core w.slot tag.1 (pteGen leaf) tag.2 pa bs (fun _ => false) (pay := .of w.ctx) c1 hb
  obtain ⟨g1, g2, g3⟩ := granted_spec _ w tag (homeDie pa (pteBit leaf 8)) (pa / 128) true l1
  refine ⟨g1, g3.trans ((lineStore_teams _ _ _ _ _ _ _ _ _).trans c3), fun q => (g2 q).trans ?_⟩
  rw [memByte_lineStore _ _ _ _ _ _ _ _ _ _ c1 hb, c2]

theorem storeLine_teams (s : State) (w : Who) (tag : Option Nat × Bool) (unc : Bool) (leaf : W64) (pa : Nat) (bs : List Byte) :
    (storeLine s w tag unc leaf pa bs).teams = s.teams := by
  have e : ∀ s1 : State, (crossFill s1 w (pa / 128)).teams = s1.teams := fun s1 => by unfold crossFill; split <;> rfl
  have k : ∀ (s1 : State) (b : Bool), (if b then grantLine s1 w.core (homeDie pa (pteBit leaf 8)) (pa / 128) true else s1).teams = s1.teams := by
    intro s1 b; cases b <;> rfl
  unfold storeLine
  simp only
  rw [k, tagLine_teams, lineStore_teams]
  split
  · simp
  · rw [e]; simp

theorem lines_store (w : Who) (tag : Option Nat × Bool) (unc : Bool) (a : LaneAcc) (n : Nat) (s : State) (h : l1Ok s.l1) :
    let s' := (List.range n).foldl (fun s j =>
      let p := linePart a.pa a.size a.data (a.pa / 128 + j)
      storeLine s w tag unc a.leaf p.1 p.2) s
    l1Ok s'.l1 ∧ s'.teams = s.teams ∧
    ∀ q, memByte s' q = if a.reaches q ∧ q / 128 < a.pa / 128 + n then a.data.getD (q - a.pa) 0#8 else memByte s q := by
  intro s'
  induction n with
  | zero =>
    refine ⟨h, rfl, fun q => ?_⟩
    rw [if_neg (by rintro ⟨⟨h1, _⟩, h2⟩; have := Nat.div_le_div_right (c := 128) h1; omega)]
    rfl
  | succ n ih =>
    obtain ⟨i1, i3, i2⟩ := ih
    have hl : a.pa / 128 ≤ a.pa / 128 + n := Nat.le_add_right _ _
    have es : s' = storeLine ((List.range n).foldl (fun s j =>
        let p := linePart a.pa a.size a.data (a.pa / 128 + j)
        storeLine s w tag unc a.leaf p.1 p.2) s) w tag unc a.leaf (linePart a.pa a.size a.data (a.pa / 128 + n)).1
        (linePart a.pa a.size a.data (a.pa / 128 + n)).2 := by
      simp only [s', List.range_succ, List.foldl_append, List.foldl_cons, List.foldl_nil]
    have hb : ∀ q, (linePart a.pa a.size a.data (a.pa / 128 + n)).1 ≤ q → q < (linePart a.pa a.size a.data (a.pa / 128 + n)).1 +
        (linePart a.pa a.size a.data (a.pa / 128 + n)).2.length → q / 128 = (linePart a.pa a.size a.data (a.pa / 128 + n)).1 / 128 :=
      fun q h1 h2 => ((linePart_spec a.pa a.size a.data _ hl q).2 h1 h2).2
    obtain ⟨t1, t2, t3⟩ := storeLine_spec _ w tag unc a.leaf _ _ i1 hb
    rw [es]
    refine ⟨t1, t2.trans i3, fun q => ?_⟩
    rw [t3, i2]
    have sp := linePart_spec a.pa a.size a.data (a.pa / 128 + n) hl q
    by_cases hq : (linePart a.pa a.size a.data (a.pa / 128 + n)).1 ≤ q ∧ q < (linePart a.pa a.size a.data (a.pa / 128 + n)).1 +
        (linePart a.pa a.size a.data (a.pa / 128 + n)).2.length
    · rw [if_pos hq, (sp.2 hq.1 hq.2).1]
      obtain ⟨e1, e2⟩ := sp.1.1 hq
      rw [if_pos ⟨e2, by omega⟩]
    · rw [if_neg hq]
      by_cases hr : a.reaches q
      · have : q / 128 ≠ a.pa / 128 + n := fun e => hq (sp.1.2 ⟨e, hr⟩)
        by_cases hlt : q / 128 < a.pa / 128 + n
        · rw [if_pos ⟨hr, hlt⟩, if_pos ⟨hr, by omega⟩]
        · rw [if_neg (fun h => hlt h.2), if_neg (fun h => by have := h.2; omega)]
      · rw [if_neg (fun h => hr h.1), if_neg (fun h => hr h.1)]

theorem scratchStore_memory (s : State) (team half off : Nat) (bs : List Byte) (src : Nat → Bool) :
    (scratchStore s team half off bs src).mem = s.mem ∧ (scratchStore s team half off bs src).l1 = s.l1 := by
  unfold scratchStore
  split
  · exact ⟨rfl, rfl⟩
  · split <;> exact ⟨rfl, rfl⟩

/-- The byte that an access at home stores at a physical address. -/
theorem storedByte_one (r : Option Byte) (a : LaneAcc) (q : Nat) :
    (match a.space, a.peer with
    | .scratch _, _ | _, some _ => r
    | _, none => if a.pa ≤ q ∧ q < a.pa + a.size then (match a.data[q - a.pa]? with
      | some b => some b
      | none => r) else r) =
    if a.atHome = true ∧ a.reaches q then some (a.data.getD (q - a.pa) 0#8) else r := by
  unfold LaneAcc.reaches LaneAcc.atHome
  cases hs : a.space <;> cases hp : a.peer <;> simp
  all_goals
    by_cases hq : a.pa ≤ q ∧ q < a.pa + a.size
    · by_cases hd : q - a.pa < a.data.length
      · simp [hq, hd]
      · simp [hq, hd]
    · rw [if_neg hq, if_neg (fun h => hq ⟨h.1, h.2.1⟩)]

/-- R217, R283, R343: one store at its coherence point. -/
theorem memByte_storeAcc (s : State) (w : Who) (unc : Bool) (cs : List Nat) (a : LaneAcc) (h : l1Ok s.l1) :
    l1Ok (storeAcc s w unc cs a).l1 ∧ ∀ q, memByte (storeAcc s w unc cs a) q =
      if a.atHome = true ∧ a.reaches q then a.data.getD (q - a.pa) 0#8 else memByte s q := by
  unfold storeAcc LaneAcc.atHome
  cases hp : a.peer with
  | some p => simp [h]
  | none =>
    simp only [Option.isSome_none, Bool.false_eq_true, if_false, Option.isNone_none, Bool.true_and]
    have all (q : Nat) (hr : a.reaches q) : q / 128 < a.pa / 128 + ((a.pa + a.size - 1) / 128 + 1 - a.pa / 128) := by
      obtain ⟨h1, h2, _⟩ := hr
      have := Nat.div_le_div_right (c := 128) (show q ≤ a.pa + a.size - 1 by omega)
      omega
    have lines : ∀ tag, _ := fun tag => lines_store w tag unc a ((a.pa + a.size - 1) / 128 + 1 - a.pa / 128) s h
    cases hs : a.space with
    | scratch k =>
      obtain ⟨e1, e2⟩ := scratchStore_memory s w.team k a.va a.data (fun _ => false)
      refine ⟨by simp only [e2]; exact h, fun q => ?_⟩
      show memByte (scratchStore s w.team k a.va a.data) q = if false = true ∧ a.reaches q then _ else _
      rw [if_neg (fun h => Bool.false_ne_true h.1)]
      simp only [memByte, homeByte, e1, e2]
    | priv =>
      obtain ⟨l1, _, l2⟩ := lines (lineTag s w cs a)
      refine ⟨l1, fun q => (l2 q).trans ?_⟩
      by_cases hr : a.reaches q
      · rw [if_pos ⟨hr, all q hr⟩, if_pos ⟨rfl, hr⟩]
      · rw [if_neg (fun h => hr h.1), if_neg (fun h => hr h.2)]
    | global =>
      obtain ⟨l1, _, l2⟩ := lines (lineTag s w cs a)
      refine ⟨l1, fun q => (l2 q).trans ?_⟩
      by_cases hr : a.reaches q
      · rw [if_pos ⟨hr, all q hr⟩, if_pos ⟨rfl, hr⟩]
      · rw [if_neg (fun h => hr h.1), if_neg (fun h => hr h.2)]

/-- R217: the stores of an issue: each byte of memory reads as the last access that covers it stored it, every other as before. -/
theorem memByte_stores (w : Who) (unc : Bool) (cs : List Nat) (accs : List LaneAcc) (s : State) (h : l1Ok s.l1) :
    l1Ok (accs.foldl (fun s a => storeAcc s w unc cs a) s).l1 ∧
    ∀ q, memByte (accs.foldl (fun s a => storeAcc s w unc cs a) s) q = (storedByte accs q).getD (memByte s q) := by
  induction accs using List.reverseRecOn with
  | nil => exact ⟨h, fun _ => rfl⟩
  | append_singleton t a ih =>
    rw [List.foldl_append, List.foldl_cons, List.foldl_nil]
    obtain ⟨h1, h2⟩ := memByte_storeAcc _ w unc cs a ih.1
    refine ⟨h1, fun q => ?_⟩
    have e : storedByte (t ++ [a]) q = if a.atHome = true ∧ a.reaches q then some (a.data.getD (q - a.pa) 0#8) else storedByte t q := by
      unfold storedByte
      rw [List.foldl_append, List.foldl_cons, List.foldl_nil]
      exact storedByte_one _ a q
    rw [h2, e]
    split
    · rfl
    · exact ih.2 q

/-- R283, R342: a line that a load takes changes no byte. -/
theorem fillOne_spec (s : State) (w : Who) (tag : Option Nat × Bool) (unc : Bool) (leaf : W64) (pa line : Nat) (h : l1Ok s.l1) :
    l1Ok (fillOne s w tag unc leaf pa line).l1 ∧ ∀ q, memByte (fillOne s w tag unc leaf pa line) q = memByte s q := by
  obtain ⟨c1, c2, _⟩ := crossed_spec s w unc line (pteGen leaf) h
  unfold fillOne
  simp only
  generalize (if unc = true then staleLine s w.core w.slot line (pteGen leaf) else
    crossFill (staleLine s w.core w.slot line (pteGen leaf)) w line) = s1 at c1 c2 ⊢
  have l1 := l1Ok_fillLine w.core w.slot tag.1 line (pteGen leaf) tag.2 c1
  obtain ⟨g1, g2, _⟩ := granted_spec _ w tag (homeDie pa (pteBit leaf 8)) line false l1
  exact ⟨g1, fun q => (g2 q).trans (by rw [memByte_fillLine, c2])⟩

/-- R283, R342: the lines that loads take change no byte. -/
theorem fillAccs_spec (s : State) (w : Who) (unc : Bool) (cs : List Nat) (accs : List LaneAcc) (h : l1Ok s.l1) :
    l1Ok (fillAccs s w unc cs accs).l1 ∧ ∀ q, memByte (fillAccs s w unc cs accs) q = memByte s q := by
  unfold fillAccs
  refine foldl_keeps (fun t : State => l1Ok t.l1 ∧ ∀ q, memByte t q = memByte s q) _ (fun t a ht => ?_) _ _ ⟨h, fun _ => rfl⟩
  have step : ∀ ks : List Nat, l1Ok (ks.foldl (fun u j => fillOne u w (lineTag u w cs a) unc a.leaf a.pa (a.pa / 128 + j)) t).l1 ∧
      ∀ q, memByte (ks.foldl (fun u j => fillOne u w (lineTag u w cs a) unc a.leaf a.pa (a.pa / 128 + j)) t) q = memByte s q := fun ks =>
    foldl_keeps (fun u : State => l1Ok u.l1 ∧ ∀ q, memByte u q = memByte s q) _ (fun u j hu => by
      obtain ⟨f1, f2⟩ := fillOne_spec u w (lineTag u w cs a) unc a.leaf a.pa (a.pa / 128 + j) hu.1
      exact ⟨f1, fun q => (f2 q).trans (hu.2 q)⟩) ks t ht
  split
  · exact ht
  · split
    · exact ht
    · exact step _

/-! ### Scratchpad -/

theorem foldl_set_range (off : Nat) (bs : List Byte) (m : KMap Byte) (n q : Nat) :
    KMap.get ((List.range n).foldl (fun m i => KMap.set m 0#8 (off + i) (bs.getD i 0#8)) m) 0#8 q =
      if off ≤ q ∧ q < off + n then bs.getD (q - off) 0#8 else KMap.get m 0#8 q := by
  induction n with
  | zero => rw [if_neg (by omega)]; rfl
  | succ n ih =>
    rw [List.range_succ, List.foldl_append, List.foldl_cons, List.foldl_nil, KMap.get_set, ih]
    by_cases h : q = off + n
    · subst h; simp
    · rw [if_neg h]
      by_cases h2 : off ≤ q ∧ q < off + n
      · rw [if_pos h2, if_pos ⟨h2.1, by omega⟩]
      · rw [if_neg h2, if_neg (by omega)]

theorem team?_setTeam (s : State) (k : Nat) (t : Team) (j : Nat) : (s.setTeam k t).team? j = if j = k then some t else s.team? j := by
  unfold State.setTeam State.team?
  split
  · next h => subst h; simp
  · next h => exact KMap.get?_put_ne _ _ h

/-- R217, R219, R279: bytes stored into a scratchpad half, as far as it reaches. -/
theorem scratchByte_scratchStore (s : State) (team half off : Nat) (bs : List Byte) (src : Nat → Bool) (team' half' q : Nat) :
    scratchByte (scratchStore s team half off bs src) team' half' q =
      (if team' = team ∧ half' = half ∧ off ≤ q ∧ q < off + bs.length ∧ q < scratchSize s team half then bs.getD (q - off) 0#8
       else scratchByte s team' half' q) ∧
    scratchSize (scratchStore s team half off bs src) team' half' = scratchSize s team' half' := by
  cases ht : s.team? team with
  | none => simp [scratchStore, scratchSize, ht]
  | some t =>
    cases hh : t.half? half with
    | none => simp [scratchStore, scratchSize, ht, hh]
    | some h =>
      generalize hbs : bs.take (65536 * h.scratchUnits.length - off) = cs
      generalize hx : ({ h with bytes := (List.range cs.length).foldl (fun m i => KMap.set m 0#8 (off + i) (cs.getD i 0#8)) h.bytes,
                                poison := storePoison h.poison off cs.length src, corr := storePoison h.corr off cs.length fun _ => false } : Half) = x
      have e : scratchStore s team half off bs src = s.setTeam team (t.setHalf half x) := by
        unfold scratchStore; rw [ht]; simp only [hh]; rw [hbs, hx]
      have hu : x.scratchUnits = h.scratchUnits := by rw [← hx]
      have hlt : half < t.halves.length := (List.getElem?_eq_some_iff.1 (show t.halves[half]? = some h from hh)).1
      have g : (t.setHalf half x).half? half' = if half' = half then some x else t.half? half' := by
        unfold Team.half? Team.setHalf
        simp only
        split
        · next hq => subst hq; simp [hlt]
        · next hq => rw [List.getElem?_set_ne (Ne.symm hq)]
      have hb : KMap.get x.bytes 0#8 q = if off ≤ q ∧ q < off + cs.length then cs.getD (q - off) 0#8 else KMap.get h.bytes 0#8 q := by
        rw [← hx]; exact foldl_set_range off cs h.bytes cs.length q
      have hw : scratchSize s team half = h.scratchUnits.length * 65536 := by simp [scratchSize, ht, hh]
      have hl : cs.length = min (65536 * h.scratchUnits.length - off) bs.length := by rw [← hbs, List.length_take]
      have hg (i : Nat) (hi : i < cs.length) : cs.getD i 0#8 = bs.getD i 0#8 := by
        rw [← hbs, List.getD_eq_getElem?_getD, List.getD_eq_getElem?_getD, List.getElem?_take_of_lt (by omega)]
      rw [e, hw]
      unfold scratchByte scratchSize
      rw [team?_setTeam]
      by_cases hk : team' = team
      · subst hk
        rw [if_pos rfl, ht]
        simp only [Option.bind_some, g]
        by_cases hq : half' = half
        · subst hq
          simp only [if_true, hb, hh, Option.map_some, hu, true_and, and_true]
          by_cases hc : off ≤ q ∧ q < off + cs.length
          · rw [if_pos hc, if_pos (by omega), hg _ (by omega)]
          · rw [if_neg hc, if_neg (by omega)]
        · simp [hq]
      · simp [hk]

/-- R217: the stores of an issue in scratchpad. -/
theorem scratchByte_stores (w : Who) (unc : Bool) (cs : List Nat) (accs : List LaneAcc) (s : State)
    (hh : ∀ a ∈ accs, ∀ h, a.space = .scratch h → a.va + a.data.length ≤ scratchSize s w.team h) (team half q : Nat) :
    scratchByte (accs.foldl (fun s a => storeAcc s w unc cs a) s) team half q =
      (if team = w.team then storedScratch accs half q else none).getD (scratchByte s team half q) ∧
    ∀ k h, scratchSize (accs.foldl (fun s a => storeAcc s w unc cs a) s) k h = scratchSize s k h := by
  have lines (tag : Option Nat × Bool) (a : LaneAcc) (n : Nat) (s : State) : ((List.range n).foldl (fun s j =>
      let p := linePart a.pa a.size a.data (a.pa / 128 + j)
      storeLine s w tag unc a.leaf p.1 p.2) s).teams = s.teams :=
    foldl_keeps (fun t : State => t.teams = s.teams) _ (fun t j ht => by rw [← ht]; exact storeLine_teams _ _ _ _ _ _ _) _ _ rfl
  induction accs using List.reverseRecOn with
  | nil => exact ⟨by simp [storedScratch], fun _ _ => rfl⟩
  | append_singleton t a ih =>
    obtain ⟨i1, i2⟩ := ih fun b hb => hh b (List.mem_append_left _ hb)
    rw [List.foldl_append, List.foldl_cons, List.foldl_nil]
    generalize hs1 : t.foldl (fun s a => storeAcc s w unc cs a) s = s1 at i1 i2 ⊢
    have same (s2 : State) (h : s2.teams = s1.teams) : scratchByte s2 team half q = scratchByte s1 team half q ∧
        ∀ k h, scratchSize s2 k h = scratchSize s1 k h := by
      constructor
      · simp only [scratchByte, State.team?, h]
      · intro k h'; simp only [scratchSize, State.team?, h]
    have e : storedScratch (t ++ [a]) half q = if a.space = .scratch half ∧ a.peer = none ∧ a.va ≤ q then (match a.data[q - a.va]? with
        | some b => some b
        | none => storedScratch t half q) else storedScratch t half q := by
      unfold storedScratch
      rw [List.foldl_append, List.foldl_cons, List.foldl_nil]
      all_goals rfl
    unfold storeAcc
    cases hp : a.peer with
    | some p =>
      simp only [Option.isSome_some, if_true]
      refine ⟨?_, i2⟩
      rw [e.trans (if_neg (by rw [hp]; simp))]
      exact i1
    | none =>
      simp only [Option.isSome_none, Bool.false_eq_true, if_false]
      cases hs : a.space with
      | priv =>
        have h3 := same _ (lines (lineTag s1 w cs a) a ((a.pa + a.size - 1) / 128 + 1 - a.pa / 128) s1)
        refine ⟨?_, fun k h => (h3.2 k h).trans (i2 k h)⟩
        rw [e.trans (if_neg (by rw [hs]; simp)), ← i1]
        exact h3.1
      | global =>
        have h3 := same _ (lines (lineTag s1 w cs a) a ((a.pa + a.size - 1) / 128 + 1 - a.pa / 128) s1)
        refine ⟨?_, fun k h => (h3.2 k h).trans (i2 k h)⟩
        rw [e.trans (if_neg (by rw [hs]; simp)), ← i1]
        exact h3.1
      | scratch k =>
        have hk := hh a (by simp) k hs
        have sp := scratchByte_scratchStore s1 w.team k a.va a.data (fun _ => false)
        refine ⟨?_, fun k' h => ((sp k' h q).2).trans (i2 k' h)⟩
        refine (sp team half q).1.trans ?_
        rw [i2, i1, e, hs, hp]
        by_cases ht : team = w.team
        · subst ht
          by_cases hkh : half = k
          · subst hkh
            by_cases hq : a.va ≤ q
            · by_cases hl : q < a.va + a.data.length
              · have hl' : q - a.va < a.data.length := by omega
                have hz : q < scratchSize s w.team half := by omega
                simp [hq, hl, hl', hz]
              · have hl' : ¬ q - a.va < a.data.length := by omega
                simp [hq, hl, hl']
            · simp [hq]
          · have : ¬ Space.scratch k = Space.scratch half := fun h => hkh (by cases h; rfl)
            simp [hkh, this]
        · simp [ht]

end Sys2Proof.Machine
end

