-- ==== Sys2Proof/Laws/Regs.lean ====
section
/-! SUPPORT. Frames of register writes: one lemma for each field of Gang that a write, a list of writes or a destination made
empty leaves unchanged. -/

namespace Sys2Proof.Machine

/-- A field that every write keeps is kept by a list of them. -/
theorem Gang.writes_field {α : Type} (F : Gang → α) (h : ∀ g w, F (Gang.write g w) = F g) (g : Gang) (ws : List RegWrite) :
    F (g.writes ws) = F g := by
  unfold Gang.writes
  induction ws generalizing g with
  | nil => rfl
  | cons w t ih => rw [List.foldl_cons, ih, h]

/-- A field that every emptied destination keeps is kept by a list of them. -/
theorem Gang.empties_field {α : Type} (F : Gang → α) (h : ∀ g w, F (Gang.empty g w) = F g) (g : Gang) (ws : List RegWrite) :
    F (ws.foldl Gang.empty g) = F g := by
  induction ws generalizing g with
  | nil => rfl
  | cons w t ih => rw [List.foldl_cons, ih, h]

@[simp] theorem Gang.write_team (g : Gang) (w : RegWrite) : (g.write w).team = g.team := by
  cases w <;> simp only [Gang.write]; split <;> rfl
@[simp] theorem Gang.writes_team (g : Gang) (ws : List RegWrite) : (g.writes ws).team = g.team := Gang.writes_field (Gang.team) Gang.write_team g ws
@[simp] theorem Gang.write_index (g : Gang) (w : RegWrite) : (g.write w).index = g.index := by
  cases w <;> simp only [Gang.write]; split <;> rfl
@[simp] theorem Gang.writes_index (g : Gang) (ws : List RegWrite) : (g.writes ws).index = g.index := Gang.writes_field (Gang.index) Gang.write_index g ws
@[simp] theorem Gang.write_half (g : Gang) (w : RegWrite) : (g.write w).half = g.half := by
  cases w <;> simp only [Gang.write]; split <;> rfl
@[simp] theorem Gang.writes_half (g : Gang) (ws : List RegWrite) : (g.writes ws).half = g.half := Gang.writes_field (Gang.half) Gang.write_half g ws
@[simp] theorem Gang.write_width (g : Gang) (w : RegWrite) : (g.write w).width = g.width := by
  cases w <;> simp only [Gang.write]; split <;> rfl
@[simp] theorem Gang.writes_width (g : Gang) (ws : List RegWrite) : (g.writes ws).width = g.width := Gang.writes_field (Gang.width) Gang.write_width g ws
@[simp] theorem Gang.write_regs (g : Gang) (w : RegWrite) : (g.write w).regs = g.regs := by
  cases w <;> simp only [Gang.write]; split <;> rfl
@[simp] theorem Gang.writes_regs (g : Gang) (ws : List RegWrite) : (g.writes ws).regs = g.regs := Gang.writes_field (Gang.regs) Gang.write_regs g ws
@[simp] theorem Gang.write_granule (g : Gang) (w : RegWrite) : (g.write w).granule = g.granule := by
  cases w <;> simp only [Gang.write]; split <;> rfl
@[simp] theorem Gang.writes_granule (g : Gang) (ws : List RegWrite) : (g.writes ws).granule = g.granule := Gang.writes_field (Gang.granule) Gang.write_granule g ws
@[simp] theorem Gang.write_live (g : Gang) (w : RegWrite) : (g.write w).live = g.live := by
  cases w <;> simp only [Gang.write]; split <;> rfl
@[simp] theorem Gang.writes_live (g : Gang) (ws : List RegWrite) : (g.writes ws).live = g.live := Gang.writes_field (Gang.live) Gang.write_live g ws
@[simp] theorem Gang.write_pc (g : Gang) (w : RegWrite) : (g.write w).pc = g.pc := by
  cases w <;> simp only [Gang.write]; split <;> rfl
@[simp] theorem Gang.writes_pc (g : Gang) (ws : List RegWrite) : (g.writes ws).pc = g.pc := Gang.writes_field (Gang.pc) Gang.write_pc g ws
@[simp] theorem Gang.write_wait (g : Gang) (w : RegWrite) : (g.write w).wait = g.wait := by
  cases w <;> simp only [Gang.write]; split <;> rfl
@[simp] theorem Gang.writes_wait (g : Gang) (ws : List RegWrite) : (g.writes ws).wait = g.wait := Gang.writes_field (Gang.wait) Gang.write_wait g ws
@[simp] theorem Gang.write_w (g : Gang) (w : RegWrite) : (g.write w).w = g.w := by
  cases w <;> simp only [Gang.write]; split <;> rfl
@[simp] theorem Gang.writes_w (g : Gang) (ws : List RegWrite) : (g.writes ws).w = g.w := Gang.writes_field (Gang.w) Gang.write_w g ws
@[simp] theorem Gang.write_lent (g : Gang) (w : RegWrite) : (g.write w).lent = g.lent := by
  cases w <;> simp only [Gang.write]; split <;> rfl
@[simp] theorem Gang.writes_lent (g : Gang) (ws : List RegWrite) : (g.writes ws).lent = g.lent := Gang.writes_field (Gang.lent) Gang.write_lent g ws
@[simp] theorem Gang.write_fpctl (g : Gang) (w : RegWrite) : (g.write w).fpctl = g.fpctl := by
  cases w <;> simp only [Gang.write]; split <;> rfl
@[simp] theorem Gang.writes_fpctl (g : Gang) (ws : List RegWrite) : (g.writes ws).fpctl = g.fpctl := Gang.writes_field (Gang.fpctl) Gang.write_fpctl g ws
@[simp] theorem Gang.write_fpstat (g : Gang) (w : RegWrite) : (g.write w).fpstat = g.fpstat := by
  cases w <;> simp only [Gang.write]; split <;> rfl
@[simp] theorem Gang.writes_fpstat (g : Gang) (ws : List RegWrite) : (g.writes ws).fpstat = g.fpstat := Gang.writes_field (Gang.fpstat) Gang.write_fpstat g ws
@[simp] theorem Gang.write_cause (g : Gang) (w : RegWrite) : (g.write w).cause = g.cause := by
  cases w <;> simp only [Gang.write]; split <;> rfl
@[simp] theorem Gang.writes_cause (g : Gang) (ws : List RegWrite) : (g.writes ws).cause = g.cause := Gang.writes_field (Gang.cause) Gang.write_cause g ws
@[simp] theorem Gang.write_tpc (g : Gang) (w : RegWrite) : (g.write w).tpc = g.tpc := by
  cases w <;> simp only [Gang.write]; split <;> rfl
@[simp] theorem Gang.writes_tpc (g : Gang) (ws : List RegWrite) : (g.writes ws).tpc = g.tpc := Gang.writes_field (Gang.tpc) Gang.write_tpc g ws
@[simp] theorem Gang.write_tmask (g : Gang) (w : RegWrite) : (g.write w).tmask = g.tmask := by
  cases w <;> simp only [Gang.write]; split <;> rfl
@[simp] theorem Gang.writes_tmask (g : Gang) (ws : List RegWrite) : (g.writes ws).tmask = g.tmask := Gang.writes_field (Gang.tmask) Gang.write_tmask g ws
@[simp] theorem Gang.write_taddr (g : Gang) (w : RegWrite) : (g.write w).taddr = g.taddr := by
  cases w <;> simp only [Gang.write]; split <;> rfl
@[simp] theorem Gang.writes_taddr (g : Gang) (ws : List RegWrite) : (g.writes ws).taddr = g.taddr := Gang.writes_field (Gang.taddr) Gang.write_taddr g ws
@[simp] theorem Gang.write_thit (g : Gang) (w : RegWrite) : (g.write w).thit = g.thit := by
  cases w <;> simp only [Gang.write]; split <;> rfl
@[simp] theorem Gang.writes_thit (g : Gang) (ws : List RegWrite) : (g.writes ws).thit = g.thit := Gang.writes_field (Gang.thit) Gang.write_thit g ws
@[simp] theorem Gang.write_thnd (g : Gang) (w : RegWrite) : (g.write w).thnd = g.thnd := by
  cases w <;> simp only [Gang.write]; split <;> rfl
@[simp] theorem Gang.writes_thnd (g : Gang) (ws : List RegWrite) : (g.writes ws).thnd = g.thnd := Gang.writes_field (Gang.thnd) Gang.write_thnd g ws
@[simp] theorem Gang.write_inh (g : Gang) (w : RegWrite) : (g.write w).inh = g.inh := by
  cases w <;> simp only [Gang.write]; split <;> rfl
@[simp] theorem Gang.writes_inh (g : Gang) (ws : List RegWrite) : (g.writes ws).inh = g.inh := Gang.writes_field (Gang.inh) Gang.write_inh g ws
@[simp] theorem Gang.write_stklim (g : Gang) (w : RegWrite) : (g.write w).stklim = g.stklim := by
  cases w <;> simp only [Gang.write]; split <;> rfl
@[simp] theorem Gang.writes_stklim (g : Gang) (ws : List RegWrite) : (g.writes ws).stklim = g.stklim := Gang.writes_field (Gang.stklim) Gang.write_stklim g ws
@[simp] theorem Gang.write_rowlag (g : Gang) (w : RegWrite) : (g.write w).rowlag = g.rowlag := by
  cases w <;> simp only [Gang.write]; split <;> rfl
@[simp] theorem Gang.writes_rowlag (g : Gang) (ws : List RegWrite) : (g.writes ws).rowlag = g.rowlag := Gang.writes_field (Gang.rowlag) Gang.write_rowlag g ws
@[simp] theorem Gang.write_privbase (g : Gang) (w : RegWrite) : (g.write w).privbase = g.privbase := by
  cases w <;> simp only [Gang.write]; split <;> rfl
@[simp] theorem Gang.writes_privbase (g : Gang) (ws : List RegWrite) : (g.writes ws).privbase = g.privbase := Gang.writes_field (Gang.privbase) Gang.write_privbase g ws
@[simp] theorem Gang.write_held (g : Gang) (w : RegWrite) : (g.write w).held = g.held := by
  cases w <;> simp only [Gang.write]; split <;> rfl
@[simp] theorem Gang.writes_held (g : Gang) (ws : List RegWrite) : (g.writes ws).held = g.held := Gang.writes_field (Gang.held) Gang.write_held g ws
@[simp] theorem Gang.write_exempt (g : Gang) (w : RegWrite) : (g.write w).exempt = g.exempt := by
  cases w <;> simp only [Gang.write]; split <;> rfl
@[simp] theorem Gang.writes_exempt (g : Gang) (ws : List RegWrite) : (g.writes ws).exempt = g.exempt := Gang.writes_field (Gang.exempt) Gang.write_exempt g ws
@[simp] theorem Gang.write_fills (g : Gang) (w : RegWrite) : (g.write w).fills = g.fills := by
  cases w <;> simp only [Gang.write]; split <;> rfl
@[simp] theorem Gang.writes_fills (g : Gang) (ws : List RegWrite) : (g.writes ws).fills = g.fills := Gang.writes_field (Gang.fills) Gang.write_fills g ws
@[simp] theorem Gang.write_nextFill (g : Gang) (w : RegWrite) : (g.write w).nextFill = g.nextFill := by
  cases w <;> simp only [Gang.write]; split <;> rfl
@[simp] theorem Gang.writes_nextFill (g : Gang) (ws : List RegWrite) : (g.writes ws).nextFill = g.nextFill := Gang.writes_field (Gang.nextFill) Gang.write_nextFill g ws
@[simp] theorem Gang.write_unclass (g : Gang) (w : RegWrite) : (g.write w).unclass = g.unclass := by
  cases w <;> simp only [Gang.write]; split <;> rfl
@[simp] theorem Gang.writes_unclass (g : Gang) (ws : List RegWrite) : (g.writes ws).unclass = g.unclass := Gang.writes_field (Gang.unclass) Gang.write_unclass g ws
@[simp] theorem Gang.write_heldStores (g : Gang) (w : RegWrite) : (g.write w).heldStores = g.heldStores := by
  cases w <;> simp only [Gang.write]; split <;> rfl
@[simp] theorem Gang.writes_heldStores (g : Gang) (ws : List RegWrite) : (g.writes ws).heldStores = g.heldStores := Gang.writes_field (Gang.heldStores) Gang.write_heldStores g ws
@[simp] theorem Gang.write_arrivals (g : Gang) (w : RegWrite) : (g.write w).arrivals = g.arrivals := by
  cases w <;> simp only [Gang.write]; split <;> rfl
@[simp] theorem Gang.writes_arrivals (g : Gang) (ws : List RegWrite) : (g.writes ws).arrivals = g.arrivals := Gang.writes_field (Gang.arrivals) Gang.write_arrivals g ws
@[simp] theorem Gang.write_waits (g : Gang) (w : RegWrite) : (g.write w).waits = g.waits := by
  cases w <;> simp only [Gang.write]; split <;> rfl
@[simp] theorem Gang.writes_waits (g : Gang) (ws : List RegWrite) : (g.writes ws).waits = g.waits := Gang.writes_field (Gang.waits) Gang.write_waits g ws
@[simp] theorem Gang.write_block (g : Gang) (w : RegWrite) : (g.write w).block = g.block := by
  cases w <;> simp only [Gang.write]; split <;> rfl
@[simp] theorem Gang.writes_block (g : Gang) (ws : List RegWrite) : (g.writes ws).block = g.block := Gang.writes_field (Gang.block) Gang.write_block g ws
@[simp] theorem Gang.write_stopped (g : Gang) (w : RegWrite) : (g.write w).stopped = g.stopped := by
  cases w <;> simp only [Gang.write]; split <;> rfl
@[simp] theorem Gang.writes_stopped (g : Gang) (ws : List RegWrite) : (g.writes ws).stopped = g.stopped := Gang.writes_field (Gang.stopped) Gang.write_stopped g ws
@[simp] theorem Gang.write_yielded (g : Gang) (w : RegWrite) : (g.write w).yielded = g.yielded := by
  cases w <;> simp only [Gang.write]; split <;> rfl
@[simp] theorem Gang.writes_yielded (g : Gang) (ws : List RegWrite) : (g.writes ws).yielded = g.yielded := Gang.writes_field (Gang.yielded) Gang.write_yielded g ws
@[simp] theorem Gang.write_lastIssue (g : Gang) (w : RegWrite) : (g.write w).lastIssue = g.lastIssue := by
  cases w <;> simp only [Gang.write]; split <;> rfl
@[simp] theorem Gang.writes_lastIssue (g : Gang) (ws : List RegWrite) : (g.writes ws).lastIssue = g.lastIssue := Gang.writes_field (Gang.lastIssue) Gang.write_lastIssue g ws
@[simp] theorem Gang.write_issues (g : Gang) (w : RegWrite) : (g.write w).issues = g.issues := by
  cases w <;> simp only [Gang.write]; split <;> rfl
@[simp] theorem Gang.writes_issues (g : Gang) (ws : List RegWrite) : (g.writes ws).issues = g.issues := Gang.writes_field (Gang.issues) Gang.write_issues g ws
@[simp] theorem Gang.write_unclassCount (g : Gang) (w : RegWrite) : (g.write w).unclassCount = g.unclassCount := by
  cases w <;> simp only [Gang.write]; split <;> rfl
@[simp] theorem Gang.writes_unclassCount (g : Gang) (ws : List RegWrite) : (g.writes ws).unclassCount = g.unclassCount := Gang.writes_field (Gang.unclassCount) Gang.write_unclassCount g ws
@[simp] theorem Gang.write_seq (g : Gang) (w : RegWrite) : (g.write w).seq = g.seq := by
  cases w <;> simp only [Gang.write]; split <;> rfl
@[simp] theorem Gang.writes_seq (g : Gang) (ws : List RegWrite) : (g.writes ws).seq = g.seq := Gang.writes_field (Gang.seq) Gang.write_seq g ws
@[simp] theorem Gang.write_stepArmed (g : Gang) (w : RegWrite) : (g.write w).stepArmed = g.stepArmed := by
  cases w <;> simp only [Gang.write]; split <;> rfl
@[simp] theorem Gang.writes_stepArmed (g : Gang) (ws : List RegWrite) : (g.writes ws).stepArmed = g.stepArmed := Gang.writes_field (Gang.stepArmed) Gang.write_stepArmed g ws
@[simp] theorem Gang.write_stepDue (g : Gang) (w : RegWrite) : (g.write w).stepDue = g.stepDue := by
  cases w <;> simp only [Gang.write]; split <;> rfl
@[simp] theorem Gang.writes_stepDue (g : Gang) (ws : List RegWrite) : (g.writes ws).stepDue = g.stepDue := Gang.writes_field (Gang.stepDue) Gang.write_stepDue g ws
@[simp] theorem Gang.write_lastSet (g : Gang) (w : RegWrite) : (g.write w).lastSet = g.lastSet := by
  cases w <;> simp only [Gang.write]; split <;> rfl
@[simp] theorem Gang.writes_lastSet (g : Gang) (ws : List RegWrite) : (g.writes ws).lastSet = g.lastSet := Gang.writes_field (Gang.lastSet) Gang.write_lastSet g ws
@[simp] theorem Gang.write_lastRet (g : Gang) (w : RegWrite) : (g.write w).lastRet = g.lastRet := by
  cases w <;> simp only [Gang.write]; split <;> rfl
@[simp] theorem Gang.writes_lastRet (g : Gang) (ws : List RegWrite) : (g.writes ws).lastRet = g.lastRet := Gang.writes_field (Gang.lastRet) Gang.write_lastRet g ws
@[simp] theorem Gang.write_syncDue (g : Gang) (w : RegWrite) : (g.write w).syncDue = g.syncDue := by
  cases w <;> simp only [Gang.write]; split <;> rfl
@[simp] theorem Gang.writes_syncDue (g : Gang) (ws : List RegWrite) : (g.writes ws).syncDue = g.syncDue := Gang.writes_field (Gang.syncDue) Gang.write_syncDue g ws
@[simp] theorem Gang.write_lastActive (g : Gang) (w : RegWrite) : (g.write w).lastActive = g.lastActive := by
  cases w <;> simp only [Gang.write]; split <;> rfl
@[simp] theorem Gang.writes_lastActive (g : Gang) (ws : List RegWrite) : (g.writes ws).lastActive = g.lastActive := Gang.writes_field (Gang.lastActive) Gang.write_lastActive g ws
@[simp] theorem Gang.empty_team (g : Gang) (w : RegWrite) : (g.empty w).team = g.team := by
  cases w <;> simp only [Gang.empty]; split <;> rfl
@[simp] theorem Gang.empties_team (g : Gang) (ws : List RegWrite) : (ws.foldl Gang.empty g).team = g.team := Gang.empties_field (Gang.team) Gang.empty_team g ws
@[simp] theorem Gang.startFill_team (g : Gang) (k : FillKind) (ws : List RegWrite) (fl : Flags) (b : Bool) : (g.startFill k ws fl b).team = g.team := Gang.empties_team g ws
@[simp] theorem Gang.empty_index (g : Gang) (w : RegWrite) : (g.empty w).index = g.index := by
  cases w <;> simp only [Gang.empty]; split <;> rfl
@[simp] theorem Gang.empties_index (g : Gang) (ws : List RegWrite) : (ws.foldl Gang.empty g).index = g.index := Gang.empties_field (Gang.index) Gang.empty_index g ws
@[simp] theorem Gang.startFill_index (g : Gang) (k : FillKind) (ws : List RegWrite) (fl : Flags) (b : Bool) : (g.startFill k ws fl b).index = g.index := Gang.empties_index g ws
@[simp] theorem Gang.empty_half (g : Gang) (w : RegWrite) : (g.empty w).half = g.half := by
  cases w <;> simp only [Gang.empty]; split <;> rfl
@[simp] theorem Gang.empties_half (g : Gang) (ws : List RegWrite) : (ws.foldl Gang.empty g).half = g.half := Gang.empties_field (Gang.half) Gang.empty_half g ws
@[simp] theorem Gang.startFill_half (g : Gang) (k : FillKind) (ws : List RegWrite) (fl : Flags) (b : Bool) : (g.startFill k ws fl b).half = g.half := Gang.empties_half g ws
@[simp] theorem Gang.empty_width (g : Gang) (w : RegWrite) : (g.empty w).width = g.width := by
  cases w <;> simp only [Gang.empty]; split <;> rfl
@[simp] theorem Gang.empties_width (g : Gang) (ws : List RegWrite) : (ws.foldl Gang.empty g).width = g.width := Gang.empties_field (Gang.width) Gang.empty_width g ws
@[simp] theorem Gang.startFill_width (g : Gang) (k : FillKind) (ws : List RegWrite) (fl : Flags) (b : Bool) : (g.startFill k ws fl b).width = g.width := Gang.empties_width g ws
@[simp] theorem Gang.empty_regs (g : Gang) (w : RegWrite) : (g.empty w).regs = g.regs := by
  cases w <;> simp only [Gang.empty]; split <;> rfl
@[simp] theorem Gang.empties_regs (g : Gang) (ws : List RegWrite) : (ws.foldl Gang.empty g).regs = g.regs := Gang.empties_field (Gang.regs) Gang.empty_regs g ws
@[simp] theorem Gang.startFill_regs (g : Gang) (k : FillKind) (ws : List RegWrite) (fl : Flags) (b : Bool) : (g.startFill k ws fl b).regs = g.regs := Gang.empties_regs g ws
@[simp] theorem Gang.empty_granule (g : Gang) (w : RegWrite) : (g.empty w).granule = g.granule := by
  cases w <;> simp only [Gang.empty]; split <;> rfl
@[simp] theorem Gang.empties_granule (g : Gang) (ws : List RegWrite) : (ws.foldl Gang.empty g).granule = g.granule := Gang.empties_field (Gang.granule) Gang.empty_granule g ws
@[simp] theorem Gang.startFill_granule (g : Gang) (k : FillKind) (ws : List RegWrite) (fl : Flags) (b : Bool) : (g.startFill k ws fl b).granule = g.granule := Gang.empties_granule g ws
@[simp] theorem Gang.empty_live (g : Gang) (w : RegWrite) : (g.empty w).live = g.live := by
  cases w <;> simp only [Gang.empty]; split <;> rfl
@[simp] theorem Gang.empties_live (g : Gang) (ws : List RegWrite) : (ws.foldl Gang.empty g).live = g.live := Gang.empties_field (Gang.live) Gang.empty_live g ws
@[simp] theorem Gang.startFill_live (g : Gang) (k : FillKind) (ws : List RegWrite) (fl : Flags) (b : Bool) : (g.startFill k ws fl b).live = g.live := Gang.empties_live g ws
@[simp] theorem Gang.empty_pc (g : Gang) (w : RegWrite) : (g.empty w).pc = g.pc := by
  cases w <;> simp only [Gang.empty]; split <;> rfl
@[simp] theorem Gang.empties_pc (g : Gang) (ws : List RegWrite) : (ws.foldl Gang.empty g).pc = g.pc := Gang.empties_field (Gang.pc) Gang.empty_pc g ws
@[simp] theorem Gang.startFill_pc (g : Gang) (k : FillKind) (ws : List RegWrite) (fl : Flags) (b : Bool) : (g.startFill k ws fl b).pc = g.pc := Gang.empties_pc g ws
@[simp] theorem Gang.empty_wait (g : Gang) (w : RegWrite) : (g.empty w).wait = g.wait := by
  cases w <;> simp only [Gang.empty]; split <;> rfl
@[simp] theorem Gang.empties_wait (g : Gang) (ws : List RegWrite) : (ws.foldl Gang.empty g).wait = g.wait := Gang.empties_field (Gang.wait) Gang.empty_wait g ws
@[simp] theorem Gang.startFill_wait (g : Gang) (k : FillKind) (ws : List RegWrite) (fl : Flags) (b : Bool) : (g.startFill k ws fl b).wait = g.wait := Gang.empties_wait g ws
@[simp] theorem Gang.empty_v (g : Gang) (w : RegWrite) : (g.empty w).v = g.v := by
  cases w <;> simp only [Gang.empty]; split <;> rfl
@[simp] theorem Gang.empties_v (g : Gang) (ws : List RegWrite) : (ws.foldl Gang.empty g).v = g.v := Gang.empties_field (Gang.v) Gang.empty_v g ws
@[simp] theorem Gang.startFill_v (g : Gang) (k : FillKind) (ws : List RegWrite) (fl : Flags) (b : Bool) : (g.startFill k ws fl b).v = g.v := Gang.empties_v g ws
@[simp] theorem Gang.empty_vPoison (g : Gang) (w : RegWrite) : (g.empty w).vPoison = g.vPoison := by
  cases w <;> simp only [Gang.empty]; split <;> rfl
@[simp] theorem Gang.empties_vPoison (g : Gang) (ws : List RegWrite) : (ws.foldl Gang.empty g).vPoison = g.vPoison := Gang.empties_field (Gang.vPoison) Gang.empty_vPoison g ws
@[simp] theorem Gang.startFill_vPoison (g : Gang) (k : FillKind) (ws : List RegWrite) (fl : Flags) (b : Bool) : (g.startFill k ws fl b).vPoison = g.vPoison := Gang.empties_vPoison g ws
@[simp] theorem Gang.empty_vCorr (g : Gang) (w : RegWrite) : (g.empty w).vCorr = g.vCorr := by
  cases w <;> simp only [Gang.empty]; split <;> rfl
@[simp] theorem Gang.empties_vCorr (g : Gang) (ws : List RegWrite) : (ws.foldl Gang.empty g).vCorr = g.vCorr := Gang.empties_field (Gang.vCorr) Gang.empty_vCorr g ws
@[simp] theorem Gang.startFill_vCorr (g : Gang) (k : FillKind) (ws : List RegWrite) (fl : Flags) (b : Bool) : (g.startFill k ws fl b).vCorr = g.vCorr := Gang.empties_vCorr g ws
@[simp] theorem Gang.empty_s (g : Gang) (w : RegWrite) : (g.empty w).s = g.s := by
  cases w <;> simp only [Gang.empty]; split <;> rfl
@[simp] theorem Gang.empties_s (g : Gang) (ws : List RegWrite) : (ws.foldl Gang.empty g).s = g.s := Gang.empties_field (Gang.s) Gang.empty_s g ws
@[simp] theorem Gang.startFill_s (g : Gang) (k : FillKind) (ws : List RegWrite) (fl : Flags) (b : Bool) : (g.startFill k ws fl b).s = g.s := Gang.empties_s g ws
@[simp] theorem Gang.empty_sPoison (g : Gang) (w : RegWrite) : (g.empty w).sPoison = g.sPoison := by
  cases w <;> simp only [Gang.empty]; split <;> rfl
@[simp] theorem Gang.empties_sPoison (g : Gang) (ws : List RegWrite) : (ws.foldl Gang.empty g).sPoison = g.sPoison := Gang.empties_field (Gang.sPoison) Gang.empty_sPoison g ws
@[simp] theorem Gang.startFill_sPoison (g : Gang) (k : FillKind) (ws : List RegWrite) (fl : Flags) (b : Bool) : (g.startFill k ws fl b).sPoison = g.sPoison := Gang.empties_sPoison g ws
@[simp] theorem Gang.empty_p (g : Gang) (w : RegWrite) : (g.empty w).p = g.p := by
  cases w <;> simp only [Gang.empty]; split <;> rfl
@[simp] theorem Gang.empties_p (g : Gang) (ws : List RegWrite) : (ws.foldl Gang.empty g).p = g.p := Gang.empties_field (Gang.p) Gang.empty_p g ws
@[simp] theorem Gang.startFill_p (g : Gang) (k : FillKind) (ws : List RegWrite) (fl : Flags) (b : Bool) : (g.startFill k ws fl b).p = g.p := Gang.empties_p g ws
@[simp] theorem Gang.empty_n (g : Gang) (w : RegWrite) : (g.empty w).n = g.n := by
  cases w <;> simp only [Gang.empty]; split <;> rfl
@[simp] theorem Gang.empties_n (g : Gang) (ws : List RegWrite) : (ws.foldl Gang.empty g).n = g.n := Gang.empties_field (Gang.n) Gang.empty_n g ws
@[simp] theorem Gang.startFill_n (g : Gang) (k : FillKind) (ws : List RegWrite) (fl : Flags) (b : Bool) : (g.startFill k ws fl b).n = g.n := Gang.empties_n g ws
@[simp] theorem Gang.empty_nPoison (g : Gang) (w : RegWrite) : (g.empty w).nPoison = g.nPoison := by
  cases w <;> simp only [Gang.empty]; split <;> rfl
@[simp] theorem Gang.empties_nPoison (g : Gang) (ws : List RegWrite) : (ws.foldl Gang.empty g).nPoison = g.nPoison := Gang.empties_field (Gang.nPoison) Gang.empty_nPoison g ws
@[simp] theorem Gang.startFill_nPoison (g : Gang) (k : FillKind) (ws : List RegWrite) (fl : Flags) (b : Bool) : (g.startFill k ws fl b).nPoison = g.nPoison := Gang.empties_nPoison g ws
@[simp] theorem Gang.empty_w (g : Gang) (w : RegWrite) : (g.empty w).w = g.w := by
  cases w <;> simp only [Gang.empty]; split <;> rfl
@[simp] theorem Gang.empties_w (g : Gang) (ws : List RegWrite) : (ws.foldl Gang.empty g).w = g.w := Gang.empties_field (Gang.w) Gang.empty_w g ws
@[simp] theorem Gang.startFill_w (g : Gang) (k : FillKind) (ws : List RegWrite) (fl : Flags) (b : Bool) : (g.startFill k ws fl b).w = g.w := Gang.empties_w g ws
@[simp] theorem Gang.empty_lent (g : Gang) (w : RegWrite) : (g.empty w).lent = g.lent := by
  cases w <;> simp only [Gang.empty]; split <;> rfl
@[simp] theorem Gang.empties_lent (g : Gang) (ws : List RegWrite) : (ws.foldl Gang.empty g).lent = g.lent := Gang.empties_field (Gang.lent) Gang.empty_lent g ws
@[simp] theorem Gang.startFill_lent (g : Gang) (k : FillKind) (ws : List RegWrite) (fl : Flags) (b : Bool) : (g.startFill k ws fl b).lent = g.lent := Gang.empties_lent g ws
@[simp] theorem Gang.empty_parity (g : Gang) (w : RegWrite) : (g.empty w).parity = g.parity := by
  cases w <;> simp only [Gang.empty]; split <;> rfl
@[simp] theorem Gang.empties_parity (g : Gang) (ws : List RegWrite) : (ws.foldl Gang.empty g).parity = g.parity := Gang.empties_field (Gang.parity) Gang.empty_parity g ws
@[simp] theorem Gang.startFill_parity (g : Gang) (k : FillKind) (ws : List RegWrite) (fl : Flags) (b : Bool) : (g.startFill k ws fl b).parity = g.parity := Gang.empties_parity g ws
@[simp] theorem Gang.empty_fpctl (g : Gang) (w : RegWrite) : (g.empty w).fpctl = g.fpctl := by
  cases w <;> simp only [Gang.empty]; split <;> rfl
@[simp] theorem Gang.empties_fpctl (g : Gang) (ws : List RegWrite) : (ws.foldl Gang.empty g).fpctl = g.fpctl := Gang.empties_field (Gang.fpctl) Gang.empty_fpctl g ws
@[simp] theorem Gang.startFill_fpctl (g : Gang) (k : FillKind) (ws : List RegWrite) (fl : Flags) (b : Bool) : (g.startFill k ws fl b).fpctl = g.fpctl := Gang.empties_fpctl g ws
@[simp] theorem Gang.empty_fpstat (g : Gang) (w : RegWrite) : (g.empty w).fpstat = g.fpstat := by
  cases w <;> simp only [Gang.empty]; split <;> rfl
@[simp] theorem Gang.empties_fpstat (g : Gang) (ws : List RegWrite) : (ws.foldl Gang.empty g).fpstat = g.fpstat := Gang.empties_field (Gang.fpstat) Gang.empty_fpstat g ws
@[simp] theorem Gang.startFill_fpstat (g : Gang) (k : FillKind) (ws : List RegWrite) (fl : Flags) (b : Bool) : (g.startFill k ws fl b).fpstat = g.fpstat := Gang.empties_fpstat g ws
@[simp] theorem Gang.empty_cause (g : Gang) (w : RegWrite) : (g.empty w).cause = g.cause := by
  cases w <;> simp only [Gang.empty]; split <;> rfl
@[simp] theorem Gang.empties_cause (g : Gang) (ws : List RegWrite) : (ws.foldl Gang.empty g).cause = g.cause := Gang.empties_field (Gang.cause) Gang.empty_cause g ws
@[simp] theorem Gang.startFill_cause (g : Gang) (k : FillKind) (ws : List RegWrite) (fl : Flags) (b : Bool) : (g.startFill k ws fl b).cause = g.cause := Gang.empties_cause g ws
@[simp] theorem Gang.empty_tpc (g : Gang) (w : RegWrite) : (g.empty w).tpc = g.tpc := by
  cases w <;> simp only [Gang.empty]; split <;> rfl
@[simp] theorem Gang.empties_tpc (g : Gang) (ws : List RegWrite) : (ws.foldl Gang.empty g).tpc = g.tpc := Gang.empties_field (Gang.tpc) Gang.empty_tpc g ws
@[simp] theorem Gang.startFill_tpc (g : Gang) (k : FillKind) (ws : List RegWrite) (fl : Flags) (b : Bool) : (g.startFill k ws fl b).tpc = g.tpc := Gang.empties_tpc g ws
@[simp] theorem Gang.empty_tmask (g : Gang) (w : RegWrite) : (g.empty w).tmask = g.tmask := by
  cases w <;> simp only [Gang.empty]; split <;> rfl
@[simp] theorem Gang.empties_tmask (g : Gang) (ws : List RegWrite) : (ws.foldl Gang.empty g).tmask = g.tmask := Gang.empties_field (Gang.tmask) Gang.empty_tmask g ws
@[simp] theorem Gang.startFill_tmask (g : Gang) (k : FillKind) (ws : List RegWrite) (fl : Flags) (b : Bool) : (g.startFill k ws fl b).tmask = g.tmask := Gang.empties_tmask g ws
@[simp] theorem Gang.empty_taddr (g : Gang) (w : RegWrite) : (g.empty w).taddr = g.taddr := by
  cases w <;> simp only [Gang.empty]; split <;> rfl
@[simp] theorem Gang.empties_taddr (g : Gang) (ws : List RegWrite) : (ws.foldl Gang.empty g).taddr = g.taddr := Gang.empties_field (Gang.taddr) Gang.empty_taddr g ws
@[simp] theorem Gang.startFill_taddr (g : Gang) (k : FillKind) (ws : List RegWrite) (fl : Flags) (b : Bool) : (g.startFill k ws fl b).taddr = g.taddr := Gang.empties_taddr g ws
@[simp] theorem Gang.empty_thit (g : Gang) (w : RegWrite) : (g.empty w).thit = g.thit := by
  cases w <;> simp only [Gang.empty]; split <;> rfl
@[simp] theorem Gang.empties_thit (g : Gang) (ws : List RegWrite) : (ws.foldl Gang.empty g).thit = g.thit := Gang.empties_field (Gang.thit) Gang.empty_thit g ws
@[simp] theorem Gang.startFill_thit (g : Gang) (k : FillKind) (ws : List RegWrite) (fl : Flags) (b : Bool) : (g.startFill k ws fl b).thit = g.thit := Gang.empties_thit g ws
@[simp] theorem Gang.empty_thnd (g : Gang) (w : RegWrite) : (g.empty w).thnd = g.thnd := by
  cases w <;> simp only [Gang.empty]; split <;> rfl
@[simp] theorem Gang.empties_thnd (g : Gang) (ws : List RegWrite) : (ws.foldl Gang.empty g).thnd = g.thnd := Gang.empties_field (Gang.thnd) Gang.empty_thnd g ws
@[simp] theorem Gang.startFill_thnd (g : Gang) (k : FillKind) (ws : List RegWrite) (fl : Flags) (b : Bool) : (g.startFill k ws fl b).thnd = g.thnd := Gang.empties_thnd g ws
@[simp] theorem Gang.empty_inh (g : Gang) (w : RegWrite) : (g.empty w).inh = g.inh := by
  cases w <;> simp only [Gang.empty]; split <;> rfl
@[simp] theorem Gang.empties_inh (g : Gang) (ws : List RegWrite) : (ws.foldl Gang.empty g).inh = g.inh := Gang.empties_field (Gang.inh) Gang.empty_inh g ws
@[simp] theorem Gang.startFill_inh (g : Gang) (k : FillKind) (ws : List RegWrite) (fl : Flags) (b : Bool) : (g.startFill k ws fl b).inh = g.inh := Gang.empties_inh g ws
@[simp] theorem Gang.empty_stklim (g : Gang) (w : RegWrite) : (g.empty w).stklim = g.stklim := by
  cases w <;> simp only [Gang.empty]; split <;> rfl
@[simp] theorem Gang.empties_stklim (g : Gang) (ws : List RegWrite) : (ws.foldl Gang.empty g).stklim = g.stklim := Gang.empties_field (Gang.stklim) Gang.empty_stklim g ws
@[simp] theorem Gang.startFill_stklim (g : Gang) (k : FillKind) (ws : List RegWrite) (fl : Flags) (b : Bool) : (g.startFill k ws fl b).stklim = g.stklim := Gang.empties_stklim g ws
@[simp] theorem Gang.empty_rowlag (g : Gang) (w : RegWrite) : (g.empty w).rowlag = g.rowlag := by
  cases w <;> simp only [Gang.empty]; split <;> rfl
@[simp] theorem Gang.empties_rowlag (g : Gang) (ws : List RegWrite) : (ws.foldl Gang.empty g).rowlag = g.rowlag := Gang.empties_field (Gang.rowlag) Gang.empty_rowlag g ws
@[simp] theorem Gang.startFill_rowlag (g : Gang) (k : FillKind) (ws : List RegWrite) (fl : Flags) (b : Bool) : (g.startFill k ws fl b).rowlag = g.rowlag := Gang.empties_rowlag g ws
@[simp] theorem Gang.empty_privbase (g : Gang) (w : RegWrite) : (g.empty w).privbase = g.privbase := by
  cases w <;> simp only [Gang.empty]; split <;> rfl
@[simp] theorem Gang.empties_privbase (g : Gang) (ws : List RegWrite) : (ws.foldl Gang.empty g).privbase = g.privbase := Gang.empties_field (Gang.privbase) Gang.empty_privbase g ws
@[simp] theorem Gang.startFill_privbase (g : Gang) (k : FillKind) (ws : List RegWrite) (fl : Flags) (b : Bool) : (g.startFill k ws fl b).privbase = g.privbase := Gang.empties_privbase g ws
@[simp] theorem Gang.empty_held (g : Gang) (w : RegWrite) : (g.empty w).held = g.held := by
  cases w <;> simp only [Gang.empty]; split <;> rfl
@[simp] theorem Gang.empties_held (g : Gang) (ws : List RegWrite) : (ws.foldl Gang.empty g).held = g.held := Gang.empties_field (Gang.held) Gang.empty_held g ws
@[simp] theorem Gang.startFill_held (g : Gang) (k : FillKind) (ws : List RegWrite) (fl : Flags) (b : Bool) : (g.startFill k ws fl b).held = g.held := Gang.empties_held g ws
@[simp] theorem Gang.empty_exempt (g : Gang) (w : RegWrite) : (g.empty w).exempt = g.exempt := by
  cases w <;> simp only [Gang.empty]; split <;> rfl
@[simp] theorem Gang.empties_exempt (g : Gang) (ws : List RegWrite) : (ws.foldl Gang.empty g).exempt = g.exempt := Gang.empties_field (Gang.exempt) Gang.empty_exempt g ws
@[simp] theorem Gang.startFill_exempt (g : Gang) (k : FillKind) (ws : List RegWrite) (fl : Flags) (b : Bool) : (g.startFill k ws fl b).exempt = g.exempt := Gang.empties_exempt g ws
@[simp] theorem Gang.empty_holdLatch (g : Gang) (w : RegWrite) : (g.empty w).holdLatch = g.holdLatch := by
  cases w <;> simp only [Gang.empty]; split <;> rfl
@[simp] theorem Gang.empties_holdLatch (g : Gang) (ws : List RegWrite) : (ws.foldl Gang.empty g).holdLatch = g.holdLatch := Gang.empties_field (Gang.holdLatch) Gang.empty_holdLatch g ws
@[simp] theorem Gang.startFill_holdLatch (g : Gang) (k : FillKind) (ws : List RegWrite) (fl : Flags) (b : Bool) : (g.startFill k ws fl b).holdLatch = g.holdLatch := Gang.empties_holdLatch g ws
@[simp] theorem Gang.empty_fills (g : Gang) (w : RegWrite) : (g.empty w).fills = g.fills := by
  cases w <;> simp only [Gang.empty]; split <;> rfl
@[simp] theorem Gang.empties_fills (g : Gang) (ws : List RegWrite) : (ws.foldl Gang.empty g).fills = g.fills := Gang.empties_field (Gang.fills) Gang.empty_fills g ws
@[simp] theorem Gang.empty_nextFill (g : Gang) (w : RegWrite) : (g.empty w).nextFill = g.nextFill := by
  cases w <;> simp only [Gang.empty]; split <;> rfl
@[simp] theorem Gang.empties_nextFill (g : Gang) (ws : List RegWrite) : (ws.foldl Gang.empty g).nextFill = g.nextFill := Gang.empties_field (Gang.nextFill) Gang.empty_nextFill g ws
@[simp] theorem Gang.empty_unclass (g : Gang) (w : RegWrite) : (g.empty w).unclass = g.unclass := by
  cases w <;> simp only [Gang.empty]; split <;> rfl
@[simp] theorem Gang.empties_unclass (g : Gang) (ws : List RegWrite) : (ws.foldl Gang.empty g).unclass = g.unclass := Gang.empties_field (Gang.unclass) Gang.empty_unclass g ws
@[simp] theorem Gang.startFill_unclass (g : Gang) (k : FillKind) (ws : List RegWrite) (fl : Flags) (b : Bool) : (g.startFill k ws fl b).unclass = g.unclass := Gang.empties_unclass g ws
@[simp] theorem Gang.empty_heldStores (g : Gang) (w : RegWrite) : (g.empty w).heldStores = g.heldStores := by
  cases w <;> simp only [Gang.empty]; split <;> rfl
@[simp] theorem Gang.empties_heldStores (g : Gang) (ws : List RegWrite) : (ws.foldl Gang.empty g).heldStores = g.heldStores := Gang.empties_field (Gang.heldStores) Gang.empty_heldStores g ws
@[simp] theorem Gang.startFill_heldStores (g : Gang) (k : FillKind) (ws : List RegWrite) (fl : Flags) (b : Bool) : (g.startFill k ws fl b).heldStores = g.heldStores := Gang.empties_heldStores g ws
@[simp] theorem Gang.empty_arrivals (g : Gang) (w : RegWrite) : (g.empty w).arrivals = g.arrivals := by
  cases w <;> simp only [Gang.empty]; split <;> rfl
@[simp] theorem Gang.empties_arrivals (g : Gang) (ws : List RegWrite) : (ws.foldl Gang.empty g).arrivals = g.arrivals := Gang.empties_field (Gang.arrivals) Gang.empty_arrivals g ws
@[simp] theorem Gang.startFill_arrivals (g : Gang) (k : FillKind) (ws : List RegWrite) (fl : Flags) (b : Bool) : (g.startFill k ws fl b).arrivals = g.arrivals := Gang.empties_arrivals g ws
@[simp] theorem Gang.empty_waits (g : Gang) (w : RegWrite) : (g.empty w).waits = g.waits := by
  cases w <;> simp only [Gang.empty]; split <;> rfl
@[simp] theorem Gang.empties_waits (g : Gang) (ws : List RegWrite) : (ws.foldl Gang.empty g).waits = g.waits := Gang.empties_field (Gang.waits) Gang.empty_waits g ws
@[simp] theorem Gang.startFill_waits (g : Gang) (k : FillKind) (ws : List RegWrite) (fl : Flags) (b : Bool) : (g.startFill k ws fl b).waits = g.waits := Gang.empties_waits g ws
@[simp] theorem Gang.empty_block (g : Gang) (w : RegWrite) : (g.empty w).block = g.block := by
  cases w <;> simp only [Gang.empty]; split <;> rfl
@[simp] theorem Gang.empties_block (g : Gang) (ws : List RegWrite) : (ws.foldl Gang.empty g).block = g.block := Gang.empties_field (Gang.block) Gang.empty_block g ws
@[simp] theorem Gang.startFill_block (g : Gang) (k : FillKind) (ws : List RegWrite) (fl : Flags) (b : Bool) : (g.startFill k ws fl b).block = g.block := Gang.empties_block g ws
@[simp] theorem Gang.empty_stopped (g : Gang) (w : RegWrite) : (g.empty w).stopped = g.stopped := by
  cases w <;> simp only [Gang.empty]; split <;> rfl
@[simp] theorem Gang.empties_stopped (g : Gang) (ws : List RegWrite) : (ws.foldl Gang.empty g).stopped = g.stopped := Gang.empties_field (Gang.stopped) Gang.empty_stopped g ws
@[simp] theorem Gang.startFill_stopped (g : Gang) (k : FillKind) (ws : List RegWrite) (fl : Flags) (b : Bool) : (g.startFill k ws fl b).stopped = g.stopped := Gang.empties_stopped g ws
@[simp] theorem Gang.empty_yielded (g : Gang) (w : RegWrite) : (g.empty w).yielded = g.yielded := by
  cases w <;> simp only [Gang.empty]; split <;> rfl
@[simp] theorem Gang.empties_yielded (g : Gang) (ws : List RegWrite) : (ws.foldl Gang.empty g).yielded = g.yielded := Gang.empties_field (Gang.yielded) Gang.empty_yielded g ws
@[simp] theorem Gang.startFill_yielded (g : Gang) (k : FillKind) (ws : List RegWrite) (fl : Flags) (b : Bool) : (g.startFill k ws fl b).yielded = g.yielded := Gang.empties_yielded g ws
@[simp] theorem Gang.empty_lastIssue (g : Gang) (w : RegWrite) : (g.empty w).lastIssue = g.lastIssue := by
  cases w <;> simp only [Gang.empty]; split <;> rfl
@[simp] theorem Gang.empties_lastIssue (g : Gang) (ws : List RegWrite) : (ws.foldl Gang.empty g).lastIssue = g.lastIssue := Gang.empties_field (Gang.lastIssue) Gang.empty_lastIssue g ws
@[simp] theorem Gang.startFill_lastIssue (g : Gang) (k : FillKind) (ws : List RegWrite) (fl : Flags) (b : Bool) : (g.startFill k ws fl b).lastIssue = g.lastIssue := Gang.empties_lastIssue g ws
@[simp] theorem Gang.empty_issues (g : Gang) (w : RegWrite) : (g.empty w).issues = g.issues := by
  cases w <;> simp only [Gang.empty]; split <;> rfl
@[simp] theorem Gang.empties_issues (g : Gang) (ws : List RegWrite) : (ws.foldl Gang.empty g).issues = g.issues := Gang.empties_field (Gang.issues) Gang.empty_issues g ws
@[simp] theorem Gang.startFill_issues (g : Gang) (k : FillKind) (ws : List RegWrite) (fl : Flags) (b : Bool) : (g.startFill k ws fl b).issues = g.issues := Gang.empties_issues g ws
@[simp] theorem Gang.empty_unclassCount (g : Gang) (w : RegWrite) : (g.empty w).unclassCount = g.unclassCount := by
  cases w <;> simp only [Gang.empty]; split <;> rfl
@[simp] theorem Gang.empties_unclassCount (g : Gang) (ws : List RegWrite) : (ws.foldl Gang.empty g).unclassCount = g.unclassCount := Gang.empties_field (Gang.unclassCount) Gang.empty_unclassCount g ws
@[simp] theorem Gang.startFill_unclassCount (g : Gang) (k : FillKind) (ws : List RegWrite) (fl : Flags) (b : Bool) : (g.startFill k ws fl b).unclassCount = g.unclassCount := Gang.empties_unclassCount g ws
@[simp] theorem Gang.empty_seq (g : Gang) (w : RegWrite) : (g.empty w).seq = g.seq := by
  cases w <;> simp only [Gang.empty]; split <;> rfl
@[simp] theorem Gang.empties_seq (g : Gang) (ws : List RegWrite) : (ws.foldl Gang.empty g).seq = g.seq := Gang.empties_field (Gang.seq) Gang.empty_seq g ws
@[simp] theorem Gang.startFill_seq (g : Gang) (k : FillKind) (ws : List RegWrite) (fl : Flags) (b : Bool) : (g.startFill k ws fl b).seq = g.seq := Gang.empties_seq g ws
@[simp] theorem Gang.empty_stepArmed (g : Gang) (w : RegWrite) : (g.empty w).stepArmed = g.stepArmed := by
  cases w <;> simp only [Gang.empty]; split <;> rfl
@[simp] theorem Gang.empties_stepArmed (g : Gang) (ws : List RegWrite) : (ws.foldl Gang.empty g).stepArmed = g.stepArmed := Gang.empties_field (Gang.stepArmed) Gang.empty_stepArmed g ws
@[simp] theorem Gang.startFill_stepArmed (g : Gang) (k : FillKind) (ws : List RegWrite) (fl : Flags) (b : Bool) : (g.startFill k ws fl b).stepArmed = g.stepArmed := Gang.empties_stepArmed g ws
@[simp] theorem Gang.empty_stepDue (g : Gang) (w : RegWrite) : (g.empty w).stepDue = g.stepDue := by
  cases w <;> simp only [Gang.empty]; split <;> rfl
@[simp] theorem Gang.empties_stepDue (g : Gang) (ws : List RegWrite) : (ws.foldl Gang.empty g).stepDue = g.stepDue := Gang.empties_field (Gang.stepDue) Gang.empty_stepDue g ws
@[simp] theorem Gang.startFill_stepDue (g : Gang) (k : FillKind) (ws : List RegWrite) (fl : Flags) (b : Bool) : (g.startFill k ws fl b).stepDue = g.stepDue := Gang.empties_stepDue g ws
@[simp] theorem Gang.empty_lastSet (g : Gang) (w : RegWrite) : (g.empty w).lastSet = g.lastSet := by
  cases w <;> simp only [Gang.empty]; split <;> rfl
@[simp] theorem Gang.empties_lastSet (g : Gang) (ws : List RegWrite) : (ws.foldl Gang.empty g).lastSet = g.lastSet := Gang.empties_field (Gang.lastSet) Gang.empty_lastSet g ws
@[simp] theorem Gang.startFill_lastSet (g : Gang) (k : FillKind) (ws : List RegWrite) (fl : Flags) (b : Bool) : (g.startFill k ws fl b).lastSet = g.lastSet := Gang.empties_lastSet g ws
@[simp] theorem Gang.empty_lastRet (g : Gang) (w : RegWrite) : (g.empty w).lastRet = g.lastRet := by
  cases w <;> simp only [Gang.empty]; split <;> rfl
@[simp] theorem Gang.empties_lastRet (g : Gang) (ws : List RegWrite) : (ws.foldl Gang.empty g).lastRet = g.lastRet := Gang.empties_field (Gang.lastRet) Gang.empty_lastRet g ws
@[simp] theorem Gang.startFill_lastRet (g : Gang) (k : FillKind) (ws : List RegWrite) (fl : Flags) (b : Bool) : (g.startFill k ws fl b).lastRet = g.lastRet := Gang.empties_lastRet g ws
@[simp] theorem Gang.empty_syncDue (g : Gang) (w : RegWrite) : (g.empty w).syncDue = g.syncDue := by
  cases w <;> simp only [Gang.empty]; split <;> rfl
@[simp] theorem Gang.empties_syncDue (g : Gang) (ws : List RegWrite) : (ws.foldl Gang.empty g).syncDue = g.syncDue := Gang.empties_field (Gang.syncDue) Gang.empty_syncDue g ws
@[simp] theorem Gang.startFill_syncDue (g : Gang) (k : FillKind) (ws : List RegWrite) (fl : Flags) (b : Bool) : (g.startFill k ws fl b).syncDue = g.syncDue := Gang.empties_syncDue g ws
@[simp] theorem Gang.empty_lastActive (g : Gang) (w : RegWrite) : (g.empty w).lastActive = g.lastActive := by
  cases w <;> simp only [Gang.empty]; split <;> rfl
@[simp] theorem Gang.empties_lastActive (g : Gang) (ws : List RegWrite) : (ws.foldl Gang.empty g).lastActive = g.lastActive := Gang.empties_field (Gang.lastActive) Gang.empty_lastActive g ws
@[simp] theorem Gang.startFill_lastActive (g : Gang) (k : FillKind) (ws : List RegWrite) (fl : Flags) (b : Bool) : (g.startFill k ws fl b).lastActive = g.lastActive := Gang.empties_lastActive g ws

end Sys2Proof.Machine
end

