-- ==== Sys2Proof/Laws/Issue.lean ====
section
/-! SUPPORT. What an issue that goes through does: its beginning, its end, and what its results leave in the registers. -/

namespace Sys2Proof.Machine

/-! ### The gang table -/

@[simp] theorem setGang_self (s : State) (r : GangRef) (g : Gang) : (s.setGang r g).gang? r = some g := by
  simp [State.setGang, State.gang?]

theorem setGang_ne (s : State) {r q : GangRef} (g : Gang) (h : gangNum q ≠ gangNum r) : (s.setGang r g).gang? q = s.gang? q := by
  simp only [State.setGang, State.gang?]
  exact KMap.get?_put_ne _ _ h

@[simp] theorem setGang_gangs_bump (s : State) (c : Counter) (ix n : Nat) (r : GangRef) : (s.bump c ix n).gang? r = s.gang? r := rfl

@[simp] theorem setGang_setGang (s : State) (r : GangRef) (g g' : Gang) : (s.setGang r g).setGang r g' = s.setGang r g' := by
  simp [State.setGang]

@[simp] theorem mapGang_setGang (x : Iss) (s : State) (g : Gang) (h : Gang → Gang) :
    x.mapGang (s.setGang x.ref g) h = s.setGang x.ref (h g) := by
  simp [Iss.mapGang]

/-! ### The beginning of an issue -/

theorem beginIssue_ready {i : Instr} {s : State} {g : Gang} {x : Iss} (h : Ready i s g x) {early : Fields → Gang → Early}
    (he : early x.f (g.seen x.set) = .go) : beginIssue s i x.m x.f x.ref g x.who x.task early = .go x := by
  obtain ⟨ref, xg, who, task, xi, m, f, pc, set, active⟩ := x
  have hx : xi = i := h.instr
  have hg : xg = (g.seen set).holding (holdOf m f active) := h.reads
  have ha : active = activeOf (g.seen set) f set := (h.lanes : active = activeOf xg f set).trans (by rw [hg]; rfl)
  subst hx hg
  have h1 := h.opcode; have h2 := h.operands; have h3 := h.viewParity; have h4 := h.views; have h5 := h.guardFull
  have h6 := h.guardParity; have h7 := h.someLane; have h8 := h.sources; have h9 := h.parity; have h10 := h.clean
  have h11 := h.unlent; have h12 := h.dests; have h13 := h.destViews; have h14 := h.unread; have h15 := h.corrected
  have hc := h.chosen
  simp only at *
  subst ha
  have h6' : (decide (f.gp.toNat ≠ 7) && (g.seen set).regParity (opndP f.gp.toNat)) = false := by
    rcases h6 with h6 | h6
    · simp [h6]
    · rw [h6, Bool.and_false]
  unfold beginIssue
  rw [hc]
  have h2' : operandsOk xi m f (g.seen set).regs = true := h2
  have h13' : ((viewUses xi f).any fun v => v.dst && !(g.seen set).viewReady ((g.seen set).wReg v.w)) = false := h13
  simp only [h1, h2', h3, h4, h5, h6', h7, h8, h9, h10, h11, h12, h13', h14, h15, he, Bool.false_eq_true, if_false, Bool.not_true, Bool.false_and, Bool.or_self]

theorem runIssueWith_ready {i : Instr} {s : State} {g : Gang} {x : Iss} (h : Ready i s g x) {early : Fields → Gang → Early}
    (he : early x.f (g.seen x.set) = .go) (body : Iss → State → Res) :
    runIssueWith i early s body = .next (finishIssue s x (body x (s.setGang x.ref x.g))) := by
  unfold runIssueWith
  rw [h.form, h.current]
  simp only [h.present, h.party, h.task, beginIssue_ready h he]

theorem runIssue_ready {i : Instr} {s : State} {g : Gang} {x : Iss} (h : Ready i s g x) (body : Iss → State → Res) :
    runIssue i s body = .next (finishIssue s x (body x (s.setGang x.ref x.g))) :=
  runIssueWith_ready h (early := noEarly) rfl body

/-! ### The end of an issue -/

theorem finishIssue_done {s : State} {x : Iss} (h : breakLanes s x = 0#64) (s' : State) (p : Post) :
    finishIssue s x (.done s' p) = commitIssue x s' p := by
  simp [finishIssue, h]

theorem finishIssue_ok {s : State} {x : Iss} (h : breakLanes s x = 0#64) (s' : State) :
    finishIssue s x (.ok s') = commitIssue x s' {} := finishIssue_done h s' {}

/-- The gang as an issue that falls through leaves it. -/
def Iss.fallen (x : Iss) (s : State) (g : Gang) : Gang :=
  let g1 := g.account x.i x.f x.set x.active s.issueCtr
  ({ g1 with pc := g1.advance x.set x.pc [], live := g1.live &&& ~~~(0#64), yielded := g1.yielded || false } : Gang)

/-- An issue that ends no lane leaves no handler (R308). -/
theorem leaveHandler_none (g : Gang) : g.leaveHandler 0#64 = g := by simp [Gang.leaveHandler]

theorem commitIssue_plain (x : Iss) (s : State) (g : Gang) :
    commitIssue x (s.setGang x.ref g) {} = countIssue (s.setGang x.ref (x.fallen s g)) x.ref g.width (isSfu x.i) := by
  unfold commitIssue
  rw [setGang_self]
  simp only [setGang_setGang, leaveHandler_none]
  rfl

theorem advance_pcOf (g : Gang) (set : LaneMask) (pc : W64) (l : Nat) :
    KMap.get (g.advance set pc []) 0#64 l = if set.getLsbD l then pc + 12#64 else g.pcOf l := by
  unfold Gang.advance
  simp only [List.find?_nil, Option.map_none, Option.getD_none]
  split
  · next h =>
    exact KMap.get_foldl_set_mem 0#64 (fun l => l) (fun _ => pc + 12#64) _ _ l _ ⟨l, (mem_lanesOf _ _).2 h, rfl⟩ fun _ _ _ => rfl
  · next h =>
    exact KMap.get_foldl_set_ne 0#64 (fun l => l) (fun _ _ => pc + 12#64) _ _ l fun y hy hc => h (hc ▸ (mem_lanesOf _ _).1 hy)

theorem and_not_zero (a : LaneMask) : a &&& ~~~(0#64) = a := by
  have : ~~~(0#64) = BitVec.allOnes 64 := by decide
  rw [this, BitVec.and_allOnes]

theorem fallen_falls (x : Iss) (s : State) (g : Gang) : FallsThrough x g (x.fallen s g) := by
  refine ⟨fun l hl => ?_, fun l hl => ?_, ?_, rfl⟩
  · simp only [Iss.fallen, Gang.pcOf]; rw [advance_pcOf]; simp [hl]
  · simp only [Iss.fallen, Gang.pcOf]; rw [advance_pcOf]; simp [hl, Gang.pcOf, Gang.account]
  · simp only [Iss.fallen, and_not_zero]; rfl

/-- The fields of a gang that counting an issue and its PCs do not touch. -/
theorem fallen_same (x : Iss) (s : State) (g : Gang) {α : Type} (F : Gang → α)
    (h1 : ∀ a i f set act n, F (Gang.account a i f set act n) = F a) (h2 : ∀ a : Gang, ∀ p l y, F { a with pc := p, live := l, yielded := y } = F a) :
    F (x.fallen s g) = F g :=
  (h2 (g.account x.i x.f x.set x.active s.issueCtr) _ _ _).trans (h1 g _ _ _ _ _)

theorem fallen_specials (x : Iss) (s : State) (g : Gang) : SpecialsKept g (x.fallen s g) := by
  constructor <;> exact fallen_same x s g _ (fun _ _ _ _ _ _ => rfl) (fun _ _ _ _ => rfl)

theorem countIssue_others (x : Iss) (s : State) (g : Gang) (w : Nat) (b : Bool) : OthersKept x s (countIssue (s.setGang x.ref g) x.ref w b) where
  mem _ := rfl
  gangs _ h := setGang_ne s g h
  rest := rfl

theorem countIssue_gang? (s : State) (r q : GangRef) (w : Nat) (b : Bool) : (countIssue s r w b).gang? q = s.gang? q := rfl

/-! ### Results in the registers -/

theorem opnd_v {d : W12} {k : Nat} (h : opnd d = .v k) : opndV k = d := by
  unfold opnd at h
  simp only at h
  split at h <;> try (split at h <;> try (split at h <;> try (split at h <;> try (split at h <;> try (split at h)))))
  all_goals cases h
  simp [opndV]

theorem opnd_s {d : W12} {k : Nat} (h : opnd d = .s k) : BitVec.ofNat 12 (0x600 + k) = d ∧ k < 64 := by
  have hd := d.isLt
  have key : 0x600 + k = d.toNat ∧ k < 64 := by
    unfold opnd at h
    generalize d.toNat = n at h
    simp only at h
    by_cases h1 : n < 0x600
    · simp [h1] at h
    · by_cases h2 : n < 0x640
      · rw [if_neg h1, if_pos h2] at h
        have := Opnd.s.inj h
        omega
      · rw [if_neg h1, if_neg h2] at h
        repeat' split at h
        all_goals exact Opnd.noConfusion h
  refine ⟨BitVec.eq_of_toNat_eq ?_, key.2⟩
  rw [BitVec.toNat_ofNat, key.1]
  exact Nat.mod_eq_of_lt hd

theorem opndV_inj {k k' : Nat} (h : opnd (opndV k) = .v k') (hk : k < 4096) : k = k' := by
  have := opnd_v h
  simp only [opndV] at this
  have h2 : (BitVec.ofNat 12 k').toNat = (BitVec.ofNat 12 k).toNat := by rw [this]
  have h3 : k' < 0x600 := by
    unfold opnd at h
    simp only at h
    split at h <;> try (split at h <;> try (split at h <;> try (split at h <;> try (split at h <;> try (split at h)))))
    all_goals cases h
    simpa [opndV] using ‹_›
  simp at h2
  omega

/-- A list of writes to lanes of one V register. -/
theorem writes_v (g : Gang) (k : Nat) (ls : List Nat) (h : Nat → W64) :
    (∀ l ∈ ls, KMap.get (g.writes (ls.map fun l => .v k l (h l) 0#2)).v 0#64 (k * g.width + l) = h l) ∧
    (∀ c, (∀ l ∈ ls, c ≠ k * g.width + l) → KMap.get (g.writes (ls.map fun l => .v k l (h l) 0#2)).v 0#64 c = KMap.get g.v 0#64 c ∧
      BitSet.has (g.writes (ls.map fun l => .v k l (h l) 0#2)).vEmpty c = BitSet.has g.vEmpty c) ∧
    (∀ t ∈ (g.writes (ls.map fun l => .v k l (h l) 0#2)).transients, t ∈ g.transients ∧ ∀ l ∈ ls, ¬ (t.reg = opndV k ∧ t.lane = l)) ∧
    (g.writes (ls.map fun l => .v k l (h l) 0#2)).s = g.s ∧ (g.writes (ls.map fun l => .v k l (h l) 0#2)).sEmpty = g.sEmpty ∧
    (g.writes (ls.map fun l => .v k l (h l) 0#2)).p = g.p ∧ (g.writes (ls.map fun l => .v k l (h l) 0#2)).n = g.n := by
  induction ls generalizing g with
  | nil => simp [Gang.writes]
  | cons l t ih =>
    have e : g.writes ((l :: t).map fun l => .v k l (h l) 0#2) = (g.write (.v k l (h l) 0#2)).writes (t.map fun l => .v k l (h l) 0#2) := rfl
    have ih := ih (g.write (.v k l (h l) 0#2))
    rw [e]
    simp only [Gang.write_width] at ih
    obtain ⟨i1, i2, i3, i4, i5, i6, i7⟩ := ih
    refine ⟨?_, ?_, ?_, by rw [i4]; rfl, by rw [i5]; rfl, by rw [i6]; rfl, by rw [i7]; rfl⟩
    · intro m hm
      by_cases hmt : m ∈ t
      · exact i1 m hmt
      · have hml : m = l := by simpa [hmt] using hm
        subst hml
        rw [(i2 _ fun y hy hc => hmt (by have : m = y := by omega
                                         exact this ▸ hy)).1]
        simp [Gang.write]
    · intro c hc
      have hl := hc l List.mem_cons_self
      have := i2 c fun y hy => hc y (List.mem_cons_of_mem _ hy)
      rw [this.1, this.2]
      exact ⟨KMap.get_set_ne _ _ _ hl, BitSet.has_put_ne g.vEmpty false hl⟩
    · intro u hu
      have := i3 u hu
      have hf := this.1
      simp only [Gang.write, List.mem_filter] at hf
      refine ⟨hf.1, fun m hm => ?_⟩
      rcases List.mem_cons.1 hm with e | e
      · subst e; rintro ⟨e1, e2⟩; simp [e1, e2] at hf
      · exact this.2 m e

/-- The register fields that an issue's end does not touch. -/
theorem fallen_regs (x : Iss) (s : State) (g : Gang) :
    (x.fallen s g).v = g.v ∧ (x.fallen s g).vEmpty = g.vEmpty ∧ (x.fallen s g).s = g.s ∧ (x.fallen s g).sEmpty = g.sEmpty ∧
    (x.fallen s g).p = g.p ∧ (x.fallen s g).n = g.n ∧ (x.fallen s g).transients = g.transients ∧ (x.fallen s g).width = g.width ∧
    (x.fallen s g).fpstat = g.fpstat := by
  refine ⟨?_, ?_, ?_, ?_, ?_, ?_, ?_, ?_, ?_⟩ <;>
  exact fallen_same x s g _ (fun _ _ _ _ _ _ => rfl) (fun _ _ _ _ => rfl)

theorem seen_transient_none (g : Gang) (set : LaneMask) (r : W12) (lane : Nat)
    (h : ∀ t ∈ g.transients, ¬ (t.reg = r ∧ t.lane = lane)) : (g.seen set).transient? r lane = none := by
  simp only [Gang.transient?, Gang.seen, Option.map_eq_none_iff, List.find?_eq_none, List.mem_map, List.mem_filter]
  rintro y ⟨t, ⟨ht, _⟩, rfl⟩
  simpa using h t ht

theorem find_map_transient (ls : List Nat) (r : W12) (h : Nat → W64) (set : LaneMask) (l : Nat) (hl : l ∈ ls) (old : List Transient) :
    ((((ls.map fun l => ({ reg := r, lane := l, val := h l, age := 0, set := set } : Transient)) ++ old).filter
      fun t => t.set == set && decide (t.age < 3)).map fun t => { t with age := t.age + 1 }).find?
      (fun t => t.reg == r && t.lane == l) = some { reg := r, lane := l, val := h l, age := 1, set := set } := by
  induction ls with
  | nil => cases hl
  | cons a t ih =>
    by_cases ha : a = l
    · subst ha; simp
    · have ht : l ∈ t := by simpa [Ne.symm ha] using hl
      have := ih ht
      simp only [List.map_cons, List.cons_append, List.filter_cons, beq_self_eq_true, Bool.true_and, Nat.ofNat_pos, decide_true,
        if_true, List.find?_cons]
      rw [show (a == l) = false from by simpa using ha]
      simpa using this

theorem transient_append (new old : List Transient) (g : Gang) (hg : g.transients = new ++ old) (set : LaneMask) (r : W12) (lane : Nat) (e : Transient)
    (h : (((new ++ old).filter fun t => t.set == set && decide (t.age < 3)).map fun t => { t with age := t.age + 1 }).find?
      (fun t => t.reg == r && t.lane == lane) = some e) :
    (g.seen set).transient? r lane = some e.val := by
  simp only [Gang.transient?, Gang.seen, hg]
  rw [h]; rfl

/-- What a gang that agrees with g in its control part becomes when its issue falls through. -/
theorem falls_of (x : Iss) (s : State) {g a : Gang} (h1 : a.pc = g.pc) (h2 : a.live = g.live) (h3 : a.inh = g.inh) :
    FallsThrough x g (x.fallen s a) := by
  have h := fallen_falls x s a
  refine ⟨h.pc, fun l hl => ?_, by rw [h.live, h2], by rw [h.inh, h3]⟩
  rw [h.otherPc l hl]; simp only [Gang.pcOf, h1]

theorem specials_trans {a b c : Gang} (h : SpecialsKept a b) (k : SpecialsKept b c) : SpecialsKept a c := by
  constructor
  · exact k.cause.trans h.cause
  · exact k.tpc.trans h.tpc
  · exact k.tmask.trans h.tmask
  · exact k.taddr.trans h.taddr
  · exact k.thit.trans h.thit
  · exact k.thnd.trans h.thnd
  · exact k.fpctl.trans h.fpctl
  · exact k.stklim.trans h.stklim
  · exact k.rowlag.trans h.rowlag
  · exact k.privbase.trans h.privbase
  · exact k.w.trans h.w
  · exact k.lent.trans h.lent

/-- The gang that a fixed-latency result leaves before the end of its issue. -/
def Iss.withD (x : Iss) (h : Nat → W64) : Gang := if x.f.t then x.g.putTransients x h else x.g.writes (x.dWrites h)

theorem putD_eq (x : Iss) (s : State) (h : Nat → W64) :
    x.putD (s.setGang x.ref x.g) h = s.setGang x.ref (x.withD h) := by
  rw [Iss.putD, mapGang_setGang]; rfl

theorem orStat_eq (x : Iss) (s : State) (a : Gang) (fl : Flags) :
    x.orStat (s.setGang x.ref a) fl = s.setGang x.ref { a with fpstat := orFlags a.fpstat fl } := by
  rw [Iss.orStat, mapGang_setGang]

/-- The control fields, flags and special registers of the gang a fixed-latency result leaves. -/
theorem withD_field {α : Type} (F : Gang → α) (hw : ∀ g w, F (Gang.write g w) = F g) (ht : ∀ g t l, F { g with transients := t, holdLatch := l } = F g)
    (x : Iss) (h : Nat → W64) : F (x.withD h) = F x.g := by
  unfold Iss.withD
  split
  · exact ht _ _ _
  · exact Gang.writes_field F hw _ _

theorem withD_specials (x : Iss) (h : Nat → W64) : SpecialsKept x.g (x.withD h) := by
  constructor
  · exact withD_field _ Gang.write_cause (fun _ _ _ => rfl) x h
  · exact withD_field _ Gang.write_tpc (fun _ _ _ => rfl) x h
  · exact withD_field _ Gang.write_tmask (fun _ _ _ => rfl) x h
  · exact withD_field _ Gang.write_taddr (fun _ _ _ => rfl) x h
  · exact withD_field _ Gang.write_thit (fun _ _ _ => rfl) x h
  · exact withD_field _ Gang.write_thnd (fun _ _ _ => rfl) x h
  · exact withD_field _ Gang.write_fpctl (fun _ _ _ => rfl) x h
  · exact withD_field _ Gang.write_stklim (fun _ _ _ => rfl) x h
  · exact withD_field _ Gang.write_rowlag (fun _ _ _ => rfl) x h
  · exact withD_field _ Gang.write_privbase (fun _ _ _ => rfl) x h
  · exact withD_field _ Gang.write_w (fun _ _ _ => rfl) x h
  · exact withD_field _ Gang.write_lent (fun _ _ _ => rfl) x h

theorem reads_specials {x : Iss} {g : Gang} (hx : x.g = (g.seen x.set).holding (holdOf x.m x.f x.active)) : SpecialsKept g x.g := by
  rw [hx]; constructor <;> rfl

theorem low_of {x : Iss} (h : x.active ≠ 0#64) : lowestLane x.active = some x.low ∧ x.active.getLsbD x.low = true := by
  obtain ⟨l, h1, h2⟩ := lowestLane_isSome _ h
  simp [Iss.low, h1, h2]

/-- A fixed-latency result in a V or S register: what the next issue reads, what the file holds, what stays. -/
theorem withD_regs (x : Iss) (h : Nat → W64) (hz : x.active ≠ 0#64)
    (hd : (∃ k, opnd x.f.d = .v k) ∨ ∃ k, opnd x.f.d = .s k) :
    (∀ l, x.has l → ((x.withD h).seen x.set).regVal x.f.d l = h (x.dLane l)) ∧
    (∀ k l, x.f.t = false → opnd x.f.d = .v k → x.has l → KMap.get (x.withD h).v 0#64 (k * x.g.width + l) = h l) ∧
    (∀ k, x.f.t = false → opnd x.f.d = .s k → KMap.get (x.withD h).s 0#64 k = h x.low) ∧
    RegsKept x.g (x.withD h) x.dCell x.dScalar (fun _ _ => False) (fun _ => False) := by
  obtain ⟨hlow, _⟩ := low_of hz
  have hwid : (x.withD h).width = x.g.width := withD_field _ Gang.write_width (fun _ _ _ => rfl) x h
  rcases hd with ⟨k, hk⟩ | ⟨k, hk⟩
  · cases ht : x.f.t
    · have e : x.withD h = x.g.writes (x.lanes.map fun l => .v k l (h l) 0#2) := by
        simp [Iss.withD, ht, Iss.dWrites, hk]
      obtain ⟨w1, w2, w3, w4, w5, w6, w7⟩ := writes_v x.g k x.lanes h
      rw [← e] at w1 w2 w3 w4 w5 w6 w7
      have hmem : ∀ l, x.has l ↔ l ∈ x.lanes := fun l => (mem_lanesOf _ _).symm
      refine ⟨fun l hl => ?_, fun k' l _ hk' hl => ?_, fun k' _ hk' => ?_, ?_⟩
      · have hn : ((x.withD h).seen x.set).transient? x.f.d l = none := by
          apply seen_transient_none
          intro t htm hc
          exact (w3 t htm).2 l ((hmem l).1 hl) ⟨by rw [hc.1, opnd_v hk], hc.2⟩
        simp only [Gang.regVal, hk, hn, Option.getD_none, Iss.dLane, Gang.vReg]
        rw [show ((x.withD h).seen x.set).width = x.g.width from hwid]
        exact w1 l ((hmem l).1 hl)
      · rw [hk] at hk'; cases hk'; exact w1 l ((hmem l).1 hl)
      · rw [hk] at hk'; cases hk'
      · have hc : ∀ c, ¬ x.dCell c → ∀ l ∈ x.lanes, c ≠ k * x.g.width + l := fun c hc l hl he =>
          hc ⟨ht, k, l, hk, (hmem l).2 hl, he⟩
        exact ⟨fun c hn => (w2 c (hc c hn)).1, fun c hn => (w2 c (hc c hn)).2, fun _ _ => by rw [w4], fun _ _ => by rw [w5],
          fun _ _ _ => by rw [w6], fun _ _ => by rw [w7]⟩
    · have e : x.withD h = x.g.putTransients x h := by simp [Iss.withD, ht]
      refine ⟨fun l hl => ?_, fun _ _ h0 => by simp at h0, fun _ h0 => by simp at h0, ?_⟩
      · have hf := find_map_transient x.lanes x.f.d h x.set l ((mem_lanesOf _ _).2 hl) x.g.transients
        have := transient_append _ _ (x.g.putTransients x h) (by simp only [Gang.putTransients, hk]) x.set x.f.d l _ hf
        rw [e]
        simp only [Gang.regVal, hk, Iss.dLane, this, Option.getD_some]
      · rw [e]
        constructor <;> intros <;> rfl
  · cases ht : x.f.t
    · have e : x.withD h = x.g.write (.s k (h x.low) 0#2) := by
        simp [Iss.withD, ht, Iss.dWrites, hk, hlow, Gang.writes]
      refine ⟨fun l hl => ?_, fun k' l _ hk' hl => ?_, fun k' _ hk' => ?_, ?_⟩
      · have hn : ((x.withD h).seen x.set).transient? x.f.d 64 = none := by
          apply seen_transient_none
          intro t htm hc
          rw [e] at htm
          simp only [Gang.write, List.mem_filter] at htm
          have h1 := htm.2
          rw [hc.1, (opnd_s hk).1] at h1
          simp at h1
        simp only [Gang.regVal, hk, hn, Option.getD_none, Iss.dLane]
        rw [e]
        simp [Gang.seen, Gang.write]
      · rw [hk] at hk'; cases hk'
      · rw [hk] at hk'; cases hk'; rw [e]; simp [Gang.write]
      · rw [e]
        refine ⟨fun _ _ => rfl, fun _ _ => rfl, fun k' hn => ?_, fun k' hn => ?_, fun _ _ _ => rfl, fun _ _ => rfl⟩
        · exact KMap.get_set_ne _ _ _ fun hc => hn ⟨ht, hc.symm ▸ hk⟩
        · exact BitSet.has_put_ne x.g.sEmpty false fun (hc : k' = k) => hn ⟨ht, hc.symm ▸ hk⟩
    · have e : x.withD h = x.g.putTransients x h := by simp [Iss.withD, ht]
      refine ⟨fun l hl => ?_, fun _ _ h0 => by simp at h0, fun _ h0 => by simp at h0, ?_⟩
      · rw [e]
        simp [Gang.regVal, hk, Iss.dLane, Gang.putTransients, hlow, Gang.seen, Gang.transient?]
      · rw [e]
        constructor <;> intros <;> rfl

/-- A fixed-latency result with flags, committed: everything the issue leaves. -/
theorem commit_DResult {x : Iss} {s : State} {g : Gang} (hg : s.gang? x.ref = some g) (hx : x.g = (g.seen x.set).holding (holdOf x.m x.f x.active))
    (hz : x.active ≠ 0#64) (hd : (∃ k, opnd x.f.d = .v k) ∨ ∃ k, opnd x.f.d = .s k) (h : Nat → W64) (fl : Flags) :
    DResult x s (commitIssue x (x.orStat (x.putD (s.setGang x.ref x.g) h) fl) {}) h fl := by
  obtain ⟨r1, r2, r3, r4⟩ := withD_regs x h hz hd
  rw [putD_eq, orStat_eq, commitIssue_plain]
  generalize ha : ({ x.withD h with fpstat := orFlags (x.withD h).fpstat fl } : Gang) = a
  have hav : a.v = (x.withD h).v := by rw [← ha]
  have hst : (x.withD h).fpstat = g.fpstat := (withD_field _ Gang.write_fpstat (fun _ _ _ => rfl) x h).trans (by rw [hx]; rfl)
  obtain ⟨f1, f2, f3, f4, f5, f6, f7, f8, f9⟩ := fallen_regs x s a
  have e1 : a.v = (x.withD h).v := by rw [← ha]
  have e2 : a.vEmpty = (x.withD h).vEmpty := by rw [← ha]
  have e3 : a.s = (x.withD h).s := by rw [← ha]
  have e4 : a.sEmpty = (x.withD h).sEmpty := by rw [← ha]
  have e5 : a.p = (x.withD h).p := by rw [← ha]
  have e6 : a.n = (x.withD h).n := by rw [← ha]
  have e7 : a.transients = (x.withD h).transients := by rw [← ha]
  have e8 : a.width = (x.withD h).width := by rw [← ha]
  have hw : x.g.width = g.width := by rw [hx]; rfl
  refine ⟨g, x.fallen s a, hg, ?_, ?_, ?_, ?_, ?_, ?_, ?_, ?_, ?_⟩
  · rw [countIssue_gang?]; exact setGang_self _ _ _
  · intro l hl
    rw [← r1 l hl]
    rcases hd with ⟨k, hk⟩ | ⟨k, hk⟩ <;>
    simp only [Gang.regVal, hk, Gang.transient?, Gang.seen, Gang.vReg, f1, f3, f7, f8, e1, e3, e7, e8]
  · intro k l ht hk hl
    rw [f1, e1, ← hw]; exact r2 k l ht hk hl
  · intro k ht hk
    rw [f3, e3]; exact r3 k ht hk
  · rw [f9, ← ha]; show orFlags _ _ = _; rw [hst]
  · have r4' : RegsKept x.g (x.fallen s a) x.dCell x.dScalar (fun _ _ => False) (fun _ => False) := by
      obtain ⟨k1, k2, k3, k4, k5, k6⟩ := r4
      exact ⟨fun c hc => by rw [f1, e1]; exact k1 c hc, fun c hc => by rw [f2, e2]; exact k2 c hc, fun c hc => by rw [f3, e3]; exact k3 c hc,
        fun c hc => by rw [f4, e4]; exact k4 c hc, fun c l hc => by rw [f5, e5]; exact k5 c l hc, fun c hc => by rw [f6, e6]; exact k6 c hc⟩
    rw [hx] at r4'
    exact ⟨r4'.v, r4'.vEmpty, r4'.s, r4'.sEmpty, r4'.p, r4'.n⟩
  · refine specials_trans (reads_specials hx) ?_
    refine specials_trans (withD_specials x h) (specials_trans ?_ (fallen_specials x s a))
    rw [← ha]; constructor <;> rfl
  · apply falls_of
    · rw [← ha]; exact (withD_field _ Gang.write_pc (fun _ _ _ => rfl) x h).trans (by rw [hx]; rfl)
    · rw [← ha]; exact (withD_field _ Gang.write_live (fun _ _ _ => rfl) x h).trans (by rw [hx]; rfl)
    · rw [← ha]; exact (withD_field _ Gang.write_inh (fun _ _ _ => rfl) x h).trans (by rw [hx]; rfl)
  · exact countIssue_others x s _ _ _

/-! ### Predicate results -/

/-- A list of writes to lanes of one predicate. -/
theorem writes_p (g : Gang) (k : Nat) (hk : k ≠ 7) (ls : List Nat) (hl : ∀ l ∈ ls, l < 64) (h : Nat → Bool) :
    (∀ l ∈ ls, (KMap.get (g.writes (ls.map fun l => .p k l (h l))).p 0#64 k).getLsbD l = h l) ∧
    (∀ k' l, ¬ (k' = k ∧ l ∈ ls) → (KMap.get (g.writes (ls.map fun l => .p k l (h l))).p 0#64 k').getLsbD l = (KMap.get g.p 0#64 k').getLsbD l) ∧
    (g.writes (ls.map fun l => .p k l (h l))).v = g.v ∧ (g.writes (ls.map fun l => .p k l (h l))).vEmpty = g.vEmpty ∧
    (g.writes (ls.map fun l => .p k l (h l))).s = g.s ∧ (g.writes (ls.map fun l => .p k l (h l))).sEmpty = g.sEmpty ∧
    (g.writes (ls.map fun l => .p k l (h l))).n = g.n := by
  induction ls generalizing g with
  | nil => simp [Gang.writes]
  | cons l t ih =>
    have e : g.writes ((l :: t).map fun l => .p k l (h l)) = (g.write (.p k l (h l))).writes (t.map fun l => .p k l (h l)) := rfl
    obtain ⟨i1, i2, i3, i4, i5, i6, i7⟩ := ih (g.write (.p k l (h l))) fun m hm => hl m (List.mem_cons_of_mem _ hm)
    have hl64 := hl l List.mem_cons_self
    have step : ∀ k' m, (KMap.get (g.write (.p k l (h l))).p 0#64 k').getLsbD m =
        if k' = k ∧ m = l then h l else (KMap.get g.p 0#64 k').getLsbD m := by
      intro k' m
      simp only [Gang.write, hk, if_false]
      rw [KMap.get_set]
      by_cases hkk : k' = k
      · subst hkk
        by_cases hm : m = l
        · subst hm
          cases h m <;> simp [hl64]
        · cases h l <;> simp [hm]
          · intro hb; exact BitVec.lt_of_getLsbD hb
      · simp [hkk]
    have same : ∀ {α : Type} (F : Gang → α), (∀ a : Gang, ∀ p pe pa hl, F { a with p := p, pEmpty := pe, parity := pa, holdLatch := hl } = F a) →
        F (g.write (.p k l (h l))) = F g := by
      intro α F hF; simp only [Gang.write, hk, if_false]; exact hF _ _ _ _ _
    rw [e]
    refine ⟨?_, ?_, ?_, ?_, ?_, ?_, ?_⟩
    · intro m hm
      by_cases hmt : m ∈ t
      · exact i1 m hmt
      · have hml : m = l := by simpa [hmt] using hm
        rw [i2 k m fun hc => hmt hc.2, step]; simp [hml]
    · intro k' m hn
      rw [i2 k' m fun hc => hn ⟨hc.1, List.mem_cons_of_mem _ hc.2⟩, step]
      rw [if_neg]
      rintro ⟨h1, h2⟩
      exact hn ⟨h1, h2 ▸ List.mem_cons_self⟩
    · rw [i3]; exact same _ fun _ _ _ _ _ => rfl
    · rw [i4]; exact same _ fun _ _ _ _ _ => rfl
    · rw [i5]; exact same _ fun _ _ _ _ _ => rfl
    · rw [i6]; exact same _ fun _ _ _ _ _ => rfl
    · rw [i7]; exact same _ fun _ _ _ _ _ => rfl

/-- The gang that a predicate result leaves before the end of its issue. -/
def Iss.withP (x : Iss) (h : Nat → Bool) : Gang := x.g.writes (x.pWrites h)

theorem putP_eq (x : Iss) (s : State) (h : Nat → Bool) : x.putP (s.setGang x.ref x.g) h = s.setGang x.ref (x.withP h) := by
  rw [Iss.putP, mapGang_setGang]; rfl

theorem withP_specials (x : Iss) (h : Nat → Bool) : SpecialsKept x.g (x.withP h) := by
  constructor <;> simp [Iss.withP]

/-- A fixed-latency predicate result with flags, committed. -/
theorem commit_PResult {x : Iss} {s : State} {g : Gang} (hg : s.gang? x.ref = some g) (hx : x.g = (g.seen x.set).holding (holdOf x.m x.f x.active)) (h : Nat → Bool) (fl : Flags) :
    PResult x s (commitIssue x (x.orStat (x.putP (s.setGang x.ref x.g) h) fl) {}) h fl := by
  rw [putP_eq, orStat_eq, commitIssue_plain]
  generalize ha : ({ x.withP h with fpstat := orFlags (x.withP h).fpstat fl } : Gang) = a
  obtain ⟨f1, f2, f3, f4, f5, f6, f7, f8, f9⟩ := fallen_regs x s a
  have hcell : ∀ k, opnd x.f.d = .p k → k ≠ 7 → x.withP h = x.g.writes (x.lanes.map fun l => .p k l (h l)) := by
    intro k hk h7; simp [Iss.withP, Iss.pWrites, hk, h7]
  have hnone : (∀ k, opnd x.f.d = .p k → k = 7) → x.withP h = x.g := by
    intro hn
    unfold Iss.withP Iss.pWrites
    split
    · next k hk => simp [hn k hk, Gang.writes]
    · rfl
  have hlanes : ∀ l ∈ x.lanes, l < 64 := fun l hl => BitVec.lt_of_getLsbD ((mem_lanesOf _ _).1 hl)
  have regs : RegsKept x.g (x.withP h) (fun _ => False) (fun _ => False) x.dPred (fun _ => False) := by
    by_cases hp : ∃ k, opnd x.f.d = .p k ∧ k ≠ 7
    · obtain ⟨k, hk, h7⟩ := hp
      obtain ⟨w1, w2, w3, w4, w5, w6, w7⟩ := writes_p x.g k h7 x.lanes hlanes h
      rw [hcell k hk h7]
      refine ⟨fun _ _ => by rw [w3], fun _ _ => by rw [w4], fun _ _ => by rw [w5], fun _ _ => by rw [w6], fun k' l hn => ?_, fun _ _ => by rw [w7]⟩
      exact w2 k' l fun hc => hn ⟨by rw [hc.1]; exact hk, by rw [hc.1]; exact h7, (mem_lanesOf _ _).1 hc.2⟩
    · rw [hnone fun k hk => by by_contra h7; exact hp ⟨k, hk, h7⟩]
      constructor <;> intros <;> rfl
  refine ⟨g, x.fallen s a, hg, ?_, ?_, ?_, ?_, ?_, ?_, ?_, ?_⟩
  · rw [countIssue_gang?]; exact setGang_self _ _ _
  · intro k l hk h7 hl
    have h7' : (k == 7) = false := by simpa using h7
    simp only [Gang.predBit, h7', Bool.false_or, f5]
    rw [← ha, hcell k hk h7]
    exact (writes_p x.g k h7 x.lanes hlanes h).1 l ((mem_lanesOf _ _).2 hl)
  · intro l; simp [Gang.predBit]
  · rw [f9, ← ha]
    simp [Iss.withP, hx]
  · have e : RegsKept x.g (x.fallen s a) (fun _ => False) (fun _ => False) x.dPred (fun _ => False) := by
      obtain ⟨k1, k2, k3, k4, k5, k6⟩ := regs
      exact ⟨fun c hc => by rw [f1, ← ha]; exact k1 c hc, fun c hc => by rw [f2, ← ha]; exact k2 c hc, fun c hc => by rw [f3, ← ha]; exact k3 c hc,
        fun c hc => by rw [f4, ← ha]; exact k4 c hc, fun c l hc => by rw [f5, ← ha]; exact k5 c l hc, fun c hc => by rw [f6, ← ha]; exact k6 c hc⟩
    rw [hx] at e
    exact ⟨e.v, e.vEmpty, e.s, e.sEmpty, e.p, e.n⟩
  · refine specials_trans (reads_specials hx) ?_
    refine specials_trans (withP_specials x h) (specials_trans ?_ (fallen_specials x s a))
    rw [← ha]; constructor <;> rfl
  · apply falls_of <;> rw [← ha] <;> simp [Iss.withP, hx]
  · exact countIssue_others x s _ _ _

/-! ### Long-latency results -/

theorem emptyAt_empty (g : Gang) (w : RegWrite) (h : ∀ k l b, w = .p k l b → l < 64) : (g.empty w).emptyAt w = true := by
  cases w with
  | v => simp [Gang.emptyAt, Gang.empty]
  | part => simp [Gang.emptyAt, Gang.empty]
  | s => simp [Gang.emptyAt, Gang.empty]
  | n => simp [Gang.emptyAt, Gang.empty]
  | p k l b =>
    by_cases hk : k = 7
    · simp [Gang.emptyAt, hk]
    · simp [Gang.emptyAt, Gang.empty, hk, h k l b rfl]

theorem emptyAt_keeps (g : Gang) (w v : RegWrite) (h : g.emptyAt v = true) : (g.empty w).emptyAt v = true := by
  have bs : ∀ (m : BitSet) (a b : Nat), BitSet.has m b = true → BitSet.has (BitSet.put m a true) b = true := by
    intro m a b hb
    by_cases hab : b = a
    · subst hab; simp
    · rw [BitSet.has_put_ne _ _ hab, hb]
  cases v with
  | v k l a b =>
    have : (g.empty w).emptyAt (.v k l a b) = BitSet.has (g.empty w).vEmpty (k * g.width + l) := by simp [Gang.emptyAt]
    rw [this]
    cases w <;> simp only [Gang.empty] <;> first | exact bs _ _ _ h | exact h | (split <;> exact h)
  | part k l m a b =>
    have : (g.empty w).emptyAt (.part k l m a b) = BitSet.has (g.empty w).vEmpty (k * g.width + l) := by simp [Gang.emptyAt]
    rw [this]
    cases w <;> simp only [Gang.empty] <;> first | exact bs _ _ _ h | exact h | (split <;> exact h)
  | s k a b =>
    cases w <;> simp only [Gang.empty, Gang.emptyAt] <;> first | exact bs _ _ _ h | exact h | (split <;> exact h)
  | n k a b =>
    cases w <;> simp only [Gang.empty, Gang.emptyAt] <;> first | exact bs _ _ _ h | exact h | (split <;> exact h)
  | p k l a =>
    cases w with
    | p k' l' a' =>
      simp only [Gang.empty]
      split
      · exact h
      · simp only [Gang.emptyAt, Bool.or_eq_true] at h ⊢
        rcases h with h | h
        · exact .inl h
        · refine .inr ?_
          rw [KMap.get_set]
          split
          · next e => subst e; simp [h]
          · exact h
    | _ => exact h

theorem empties_emptyAt (g : Gang) (ws : List RegWrite) (hl : ∀ k l b, RegWrite.p k l b ∈ ws → l < 64) :
    ∀ w ∈ ws, (ws.foldl Gang.empty g).emptyAt w = true := by
  induction ws generalizing g with
  | nil => intro w hw; cases hw
  | cons v t ih =>
    intro w hw
    rw [List.foldl_cons]
    by_cases ht : w ∈ t
    · exact ih _ (fun k l b hm => hl k l b (List.mem_cons_of_mem _ hm)) w ht
    · have e : w = v := by simpa [ht] using hw
      subst e
      exact foldl_keeps (fun g => Gang.emptyAt g w = true) Gang.empty (fun b a hb => emptyAt_keeps b a w hb) t _
        (emptyAt_empty g w fun k l b e => hl k l b (e ▸ List.mem_cons_self))

theorem empties_vEmpty (g : Gang) (ws : List RegWrite) (c : Nat) (h : ∀ k l a b, RegWrite.v k l a b ∈ ws → c ≠ k * g.width + l)
    (h' : ∀ k l m a b, RegWrite.part k l m a b ∈ ws → c ≠ k * g.width + l) :
    BitSet.has (ws.foldl Gang.empty g).vEmpty c = BitSet.has g.vEmpty c := by
  induction ws generalizing g with
  | nil => rfl
  | cons v t ih =>
    rw [List.foldl_cons, ih _ (fun k l a b hm => by
      rw [Gang.empty_width]; exact h k l a b (List.mem_cons_of_mem _ hm)) fun k l m a b hm => by
      rw [Gang.empty_width]; exact h' k l m a b (List.mem_cons_of_mem _ hm)]
    cases v with
    | part k l m a b => exact BitSet.has_put_ne g.vEmpty true (h' k l m a b List.mem_cons_self)
    | v k l a b => exact BitSet.has_put_ne g.vEmpty true (h k l a b List.mem_cons_self)
    | p k l b => simp only [Gang.empty]; split <;> rfl
    | _ => rfl

theorem empties_sEmpty (g : Gang) (ws : List RegWrite) (k : Nat) (h : ∀ a b, RegWrite.s k a b ∉ ws) :
    BitSet.has (ws.foldl Gang.empty g).sEmpty k = BitSet.has g.sEmpty k := by
  induction ws generalizing g with
  | nil => rfl
  | cons v t ih =>
    rw [List.foldl_cons, ih _ fun a b hm => h a b (List.mem_cons_of_mem _ hm)]
    cases v with
    | s k' a b => exact BitSet.has_put_ne g.sEmpty true fun (e : k = k') => h a b (e ▸ List.mem_cons_self)
    | p k l b => simp only [Gang.empty]; split <;> rfl
    | _ => rfl

/-- A long-latency result, committed. -/
theorem commit_FillResult {x : Iss} {s : State} {g : Gang} (hg : s.gang? x.ref = some g) (hx : x.g = (g.seen x.set).holding (holdOf x.m x.f x.active))
    (kind : FillKind) (ws : List RegWrite) (hl : ∀ k l b, RegWrite.p k l b ∈ ws → l < 64) (fl : Flags) (sets : Bool) :
    FillResult x s (commitIssue x (x.mapGang (s.setGang x.ref x.g) fun g => g.startFill kind ws fl sets) {}) kind ws fl sets := by
  rw [mapGang_setGang, commitIssue_plain]
  generalize ha : x.g.startFill kind ws fl sets = a
  obtain ⟨f1, f2, f3, f4, f5, f6, f7, f8, f9⟩ := fallen_regs x s a
  have f10 : (x.fallen s a).fills = a.fills := fallen_same x s a _ (fun _ _ _ _ _ _ => rfl) (fun _ _ _ _ => rfl)
  have f11 : (x.fallen s a).nEmpty = a.nEmpty := fallen_same x s a _ (fun _ _ _ _ _ _ => rfl) (fun _ _ _ _ => rfl)
  have f12 : (x.fallen s a).pEmpty = a.pEmpty := fallen_same x s a _ (fun _ _ _ _ _ _ => rfl) (fun _ _ _ _ => rfl)
  refine ⟨g, x.fallen s a, hg, ?_, ?_, ?_, ?_, ?_, ?_, ?_, ?_, ?_, ?_, ?_, ?_, ?_⟩
  · rw [countIssue_gang?]; exact setGang_self _ _ _
  · rw [f10, ← ha]; simp [Gang.startFill, hx, Gang.seen]
  · intro w hw
    have := empties_emptyAt x.g ws hl w hw
    have hw' : (x.fallen s a).emptyAt w = a.emptyAt w := by cases w <;> simp only [Gang.emptyAt, f2, f4, f8, f11, f12]
    rw [hw', ← ha]
    have hs : (x.g.startFill kind ws fl sets).emptyAt w = (ws.foldl Gang.empty x.g).emptyAt w := by cases w <;> rfl
    rw [hs]
    exact this
  · rw [f1, ← ha]; simp [hx]
  · rw [f3, ← ha]; simp [hx]
  · rw [f5, ← ha]; simp [hx]
  · rw [f6, ← ha]; simp [hx]
  · rw [f9, ← ha]; simp [hx]
  · intro c hc hc'
    rw [f2, ← ha]
    have := empties_vEmpty x.g ws c (by simpa [hx] using hc) (by simpa [hx] using hc')
    simpa [Gang.startFill, hx] using this
  · intro k hk
    rw [f4, ← ha]
    have := empties_sEmpty x.g ws k hk
    simpa [Gang.startFill, hx] using this
  · refine specials_trans ?_ (fallen_specials x s a)
    rw [← ha]; constructor <;> simp [hx]
  · apply falls_of <;> rw [← ha] <;> simp [hx]
  · exact countIssue_others x s _ _ _

end Sys2Proof.Machine
end

