-- ==== Sys2Proof/Laws/Forms.lean ====
section
/-! SUPPORT. The shared shapes of the instruction meanings: what each answers when its issue goes through. -/

namespace Sys2Proof.Machine

/-- R14: a destination that accepts V and S names one of them. -/
theorem dest_vs {i : Instr} {s : State} {g : Gang} {x : Iss} (h : Ready i s g x) (hu : x.m.useD = true)
    (hc : (operandSpec i x.m x.f).d = clsVS) : (∃ k, opnd x.f.d = .v k) ∨ ∃ k, opnd x.f.d = .s k := by
  have ho := h.operands
  unfold operandsOk at ho
  simp only [hu, hc, Bool.not_true, Bool.false_or, Bool.and_eq_true] at ho
  have hd := ho.1.1.1.1.1
  unfold operandOk at hd
  split at hd
  · next k hk => exact .inl ⟨k, hk⟩
  · next k hk => exact .inr ⟨k, hk⟩
  · simp [clsVS] at hd
  · simp [clsVS] at hd
  · simp [clsVS] at hd
  · simp [clsVS] at hd
  · simp at hd

theorem dWrites_no_p (x : Iss) (h : Nat → W64) : ∀ k l b, RegWrite.p k l b ∈ x.dWrites h → l < 64 := by
  intro k l b hm
  unfold Iss.dWrites at hm
  split at hm
  · simp at hm
  · split at hm <;> simp at hm
  · simp at hm

@[simp] theorem orStat_zero (x : Iss) (s : State) (a : Gang) : x.orStat (s.setGang x.ref a) 0#5 = s.setGang x.ref a := by
  rw [orStat_eq]
  simp [orFlags]

/-- A fixed-latency result without flags, committed. -/
theorem commit_D {i : Instr} {s : State} {g : Gang} {x : Iss} (hr : Ready i s g x)
    (hd : (∃ k, opnd x.f.d = .v k) ∨ ∃ k, opnd x.f.d = .s k) (h : Nat → W64) :
    DResult x s (commitIssue x (x.putD (s.setGang x.ref x.g) h) {}) h 0#5 := by
  have := commit_DResult hr.present hr.reads hr.someLane hd h 0#5
  rwa [putD_eq, orStat_zero, ← putD_eq] at this

/-- A predicate result without flags, committed. -/
theorem commit_P {i : Instr} {s : State} {g : Gang} {x : Iss} (hr : Ready i s g x) (h : Nat → Bool) :
    PResult x s (commitIssue x (x.putP (s.setGang x.ref x.g) h) {}) h 0#5 := by
  have := commit_PResult hr.present hr.reads h 0#5
  rwa [putP_eq, orStat_zero, ← putP_eq] at this

/-- A form whose own part is a value in D. -/
theorem runIssue_D {i : Instr} {s : State} {g : Gang} {x : Iss} (hr : Ready i s g x) (body : Iss → State → Res) (h : Nat → W64)
    (hd : (∃ k, opnd x.f.d = .v k) ∨ ∃ k, opnd x.f.d = .s k)
    (hb : body x (s.setGang x.ref x.g) = .ok (x.putD (s.setGang x.ref x.g) h)) :
    ∃ t, runIssue i s body = .next t ∧ DResult x s t h 0#5 :=
  ⟨_, by rw [runIssue_ready hr, hb, finishIssue_ok hr.unbroken], commit_D hr hd h⟩

/-- A form whose own part is a truth in predicate D. -/
theorem runIssue_P {i : Instr} {s : State} {g : Gang} {x : Iss} (hr : Ready i s g x) (body : Iss → State → Res) (h : Nat → Bool)
    (hb : body x (s.setGang x.ref x.g) = .ok (x.putP (s.setGang x.ref x.g) h)) :
    ∃ t, runIssue i s body = .next t ∧ PResult x s t h 0#5 :=
  ⟨_, by rw [runIssue_ready hr, hb, finishIssue_ok hr.unbroken], commit_P hr h⟩

/-- A form whose own part is a fill. -/
theorem runIssue_fill {i : Instr} {s : State} {g : Gang} {x : Iss} (hr : Ready i s g x) (body : Iss → State → Res) (kind : FillKind)
    (ws : List RegWrite) (hl : ∀ k l b, RegWrite.p k l b ∈ ws → l < 64) (fl : Flags) (sets : Bool)
    (hb : body x (s.setGang x.ref x.g) = .ok (x.mapGang (s.setGang x.ref x.g) fun g => g.startFill kind ws fl sets)) :
    ∃ t, runIssue i s body = .next t ∧ FillResult x s t kind ws fl sets :=
  ⟨_, by rw [runIssue_ready hr, hb, finishIssue_ok hr.unbroken], commit_FillResult hr.present hr.reads kind ws hl fl sets⟩

theorem fill_eq (x : Iss) (s : State) (ws : List RegWrite) (fl : Flags) (b : Bool) (h : ws ≠ []) :
    x.fill s ws fl b = x.mapGang s fun g => g.startFill .ready ws fl b := by
  unfold Iss.fill
  cases ws with
  | nil => exact absurd rfl h
  | cons => rfl

theorem lanes_ne_nil {x : Iss} (h : x.active ≠ 0#64) : x.lanes ≠ [] := by
  obtain ⟨_, hl⟩ := low_of h
  intro e
  have := (mem_lanesOf x.active x.low).2 hl
  rw [show lanesOf x.active = x.lanes from rfl, e] at this
  cases this

theorem dWrites_ne_nil {x : Iss} (hz : x.active ≠ 0#64) (hd : (∃ k, opnd x.f.d = .v k) ∨ ∃ k, opnd x.f.d = .s k) (h : Nat → W64) :
    x.dWrites h ≠ [] := by
  rcases hd with ⟨k, hk⟩ | ⟨k, hk⟩
  · simp [Iss.dWrites, hk, lanes_ne_nil hz]
  · simp [Iss.dWrites, hk, (low_of hz).1]

/-- The shape of the fixed-latency integer and bit forms. -/
theorem laneForm_does {i : Instr} {s : State} {g : Gang} {x : Iss} (hr : Ready i s g x) (hu : x.m.useD = true)
    (hc : (operandSpec i x.m x.f).d = clsVS) (h : Iss → Nat → W64) :
    ∃ t, laneForm i s h = .next t ∧ DResult x s t (h x) 0#5 :=
  runIssue_D hr _ (h x) (dest_vs hr hu hc) rfl

/-- R64: no raised flag is enabled. -/
def Iss.quiet (x : Iss) (fl : List (Nat × Flags)) : Prop := allFlags fl &&& fpEnables x.g.fpctl = 0#5

theorem fpTrap_quiet {x : Iss} {fl : List (Nat × Flags)} (h : x.quiet fl) (s : State) (w : Bool) : x.fpTrap s fl w = none := by
  unfold Iss.quiet at h
  unfold Iss.fpTrap
  simp [h]

/-- The shape of the fixed-latency forms with flags. -/
theorem fpForm_does {i : Instr} {s : State} {g : Gang} {x : Iss} (hr : Ready i s g x) (hu : x.m.useD = true)
    (hc : (operandSpec i x.m x.f).d = clsVS) (h : Iss → Nat → W64 × Flags) (hq : x.quiet (laneFlags x fun l => (h x l).2)) :
    ∃ t, fpForm i s h = .next t ∧ DResult x s t (fun l => (h x l).1) (allFlags (laneFlags x fun l => (h x l).2)) := by
  refine ⟨_, ?_, commit_DResult hr.present hr.reads hr.someLane (dest_vs hr hu hc) _ _⟩
  rw [fpForm, runIssue_ready hr]
  simp only [fpTrap_quiet hq]
  rw [finishIssue_ok hr.unbroken]

/-- The shape of the long-latency forms with flags per lane. -/
theorem sfuForm_does {i : Instr} {s : State} {g : Gang} {x : Iss} (hr : Ready i s g x) (hu : x.m.useD = true)
    (hc : (operandSpec i x.m x.f).d = clsVS) (h : Iss → Nat → W64 × Flags) (hq : x.quiet (laneFlags x fun l => (h x l).2)) :
    ∃ t, sfuForm i s h = .next t ∧ FillResult x s t .ready (x.dWrites fun l => (h x l).1) (allFlags (laneFlags x fun l => (h x l).2)) true := by
  refine runIssue_fill hr _ .ready _ (dWrites_no_p x _) _ true ?_
  simp only [fpTrap_quiet hq]
  rw [fill_eq _ _ _ _ _ (dWrites_ne_nil hr.someLane (dest_vs hr hu hc) _)]

/-- The shape of the long-latency forms whose flags belong to the issue. -/
theorem wholeForm_does {i : Instr} {s : State} {g : Gang} {x : Iss} (hr : Ready i s g x) (hu : x.m.useD = true)
    (hc : (operandSpec i x.m x.f).d = clsVS) (h : Iss → (Nat → W64) × Flags) (hq : x.quiet [(x.low, (h x).2)]) :
    ∃ t, wholeForm i s h = .next t ∧ FillResult x s t .ready (x.dWrites (h x).1) (h x).2 true := by
  refine runIssue_fill hr _ .ready _ (dWrites_no_p x _) _ true ?_
  simp only [hr.someLane, if_false, fpTrap_quiet hq]
  rw [fill_eq _ _ _ _ _ (dWrites_ne_nil hr.someLane (dest_vs hr hu hc) _)]

/-- The shape of DIR forms with one lane value. -/
theorem dirValue_does {i : Instr} {s : State} {g : Gang} {x : Iss} (hr : Ready i s g x) (hu : x.m.useD = true)
    (hc : (operandSpec i x.m x.f).d = clsVS) (h : Iss → W64 × Flags) (hq : x.quiet [(x.low, (h x).2)]) :
    ∃ t, dirValue i s h = .next t ∧ DResult x s t (fun _ => (h x).1) (h x).2 := by
  refine ⟨_, ?_, commit_DResult hr.present hr.reads hr.someLane (dest_vs hr hu hc) _ _⟩
  rw [dirValue, runIssue_ready hr]
  simp only [hr.someLane, if_false, fpTrap_quiet hq]
  rw [finishIssue_ok hr.unbroken]

/-- The shape of DIR forms of Lat L whose writes are W, S, P or norm entries of their own. -/
theorem dirLong_does {i : Instr} {s : State} {g : Gang} {x : Iss} (hr : Ready i s g x) (h : Iss → List RegWrite × Flags)
    (hl : ∀ k l b, RegWrite.p k l b ∈ (h x).1 → l < 64) (hq : x.quiet [(x.low, (h x).2)]) (hn : (h x).1 ≠ [] ∨ (h x).2 ≠ 0#5) :
    ∃ t, dirLong i s h = .next t ∧ FillResult x s t .ready (h x).1 (h x).2 true := by
  refine runIssue_fill hr _ .ready _ hl _ true ?_
  simp only [hr.someLane, if_false, fpTrap_quiet hq]
  congr 1
  unfold Iss.fill
  rw [if_neg]
  simp only [Bool.and_eq_true, List.isEmpty_iff, beq_iff_eq, not_and]
  exact fun e => hn.resolve_left (not_not.2 e)

theorem pWrites_no_p (x : Iss) (h : Nat → Bool) : ∀ k l b, RegWrite.p k l b ∈ x.pWrites h → l < 64 := by
  intro k l b hm
  unfold Iss.pWrites at hm
  split at hm
  · split at hm
    · cases hm
    · simp only [List.mem_map] at hm
      obtain ⟨m, hm, e⟩ := hm
      cases e
      exact BitVec.lt_of_getLsbD ((mem_lanesOf _ _).1 hm)
  · cases hm

theorem dirWrites_no_p (g : Gang) (d : W64) (v : DVec) : ∀ k l b, RegWrite.p k l b ∈ dirWrites g d v → l < 64 := by
  intro k l b hm
  simp only [dirWrites, viewNumWrites, viewWrites, List.mem_append, List.mem_map, List.mem_singleton, reduceCtorEq, or_false] at hm
  obtain ⟨a, _, e⟩ := hm
  split at e <;> cases e

/-- The shape of DIR forms with a vector. -/
theorem dirForm_does {i : Instr} {s : State} {g : Gang} {x : Iss} (hr : Ready i s g x) (h : Iss → DVec × Flags) (hq : x.quiet [(x.low, (h x).2)]) :
    ∃ t, dirForm i s h = .next t ∧ FillResult x s t .ready (dirWrites x.g (x.g.wReg (wNum x.f.d)) (h x).1) (h x).2 true := by
  refine runIssue_fill hr _ .ready _ (dirWrites_no_p _ _ _) _ true ?_
  simp only [hr.someLane, if_false, fpTrap_quiet hq]
  rw [fill_eq]
  simp [dirWrites]

end Sys2Proof.Machine
end

