-- ==== Sys2Proof/Laws/Commit.lean ====
section
/-! SUPPORT. A commit of any change of the gang: what it leaves. -/

namespace Sys2Proof.Machine

theorem fallen_accounted (x : Iss) (s : State) (g : Gang) : Accounted g (x.fallen s g) := rfl

theorem commit_Becomes (x : Iss) (s s' : State) (h : Gang → Gang) (hs : s' = s.setGang x.ref (h x.g)) :
    Becomes x s (commitIssue x s' {}) h := by
  subst hs
  rw [commitIssue_plain]
  exact ⟨x.fallen s (h x.g), by rw [countIssue_gang?, setGang_self], by
    have := fallen_accounted x s (h x.g)
    exact this, fallen_falls _ _ _, countIssue_others _ _ _ _ _⟩

/-- A form whose own part changes the gang alone, or also what is outside it. -/
theorem runIssue_gang {i : Instr} {s : State} {g : Gang} {x : Iss} (hr : Ready i s g x) (body : Iss → State → Res) (s' : State)
    (h : Gang → Gang) (hb : body x (s.setGang x.ref x.g) = .ok (s'.setGang x.ref (h x.g))) :
    ∃ t, runIssue i s body = .next t ∧ Becomes x s' t h :=
  ⟨_, by rw [runIssue_ready hr, hb, finishIssue_ok hr.unbroken], commit_Becomes x s' _ h rfl⟩

end Sys2Proof.Machine
end

