-- ==== Sys2Proof/Laws/Elements.lean ====
section
/-! SUPPORT. Sub-elements of lane values (R4): what a value formed sub-element by sub-element holds. -/

namespace Sys2Proof.Machine

theorem ofSubs_lt (w : Nat) (l : List Nat) : ofSubs w l < 2 ^ (w * l.length) := by
  induction l with
  | nil => simp [ofSubs]
  | cons x t ih =>
    simp only [ofSubs, List.length_cons]
    have h1 : x % 2 ^ w < 2 ^ w := Nat.mod_lt _ (Nat.two_pow_pos w)
    have h2 : 2 ^ (w * (t.length + 1)) = 2 ^ w * 2 ^ (w * t.length) := by rw [Nat.mul_add, Nat.mul_one, Nat.pow_add, Nat.mul_comm]
    rw [h2]
    calc x % 2 ^ w + 2 ^ w * ofSubs w t < 2 ^ w + 2 ^ w * ofSubs w t := by omega
      _ = 2 ^ w * (ofSubs w t + 1) := by rw [Nat.mul_add, Nat.mul_one, Nat.add_comm]
      _ ≤ 2 ^ w * 2 ^ (w * t.length) := Nat.mul_le_mul_left _ ih

theorem ofSubs_elem (w : Nat) (l : List Nat) (j : Nat) : ofSubs w l / 2 ^ (j * w) % 2 ^ w = l.getD j 0 % 2 ^ w := by
  induction l generalizing j with
  | nil => simp [ofSubs]
  | cons x t ih =>
    have hw : 0 < 2 ^ w := Nat.two_pow_pos w
    cases j with
    | zero => simp [ofSubs]
    | succ j =>
      have h1 : x % 2 ^ w < 2 ^ w := Nat.mod_lt _ hw
      have h2 : (x % 2 ^ w + 2 ^ w * ofSubs w t) / 2 ^ w = ofSubs w t := by
        rw [Nat.add_mul_div_left _ _ hw, Nat.div_eq_of_lt h1, Nat.zero_add]
      simp only [ofSubs, Nat.succ_mul]
      rw [Nat.add_comm (j * w) w, Nat.pow_add, ← Nat.div_div_eq_div_mul, h2, ih]
      simp

theorem typeWidth_cases (t : Nat) : typeWidth t = 8 ∨ typeWidth t = 16 ∨ typeWidth t = 32 ∨ typeWidth t = 64 := by
  unfold typeWidth; split
  · simp
  · split
    · simp
    · split <;> simp

theorem mapSubs_elem (w : Nat) (_hw : w = 8 ∨ w = 16 ∨ w = 32 ∨ w = 64) (h : Nat → Nat) (j : Nat) (hj : j < 64 / w) :
    subElem (mapSubs w h) w j = h j % 2 ^ w := by
  have hb := ofSubs_lt w ((List.range (64 / w)).map h)
  have hle : w * (64 / w) ≤ 64 := Nat.mul_div_le 64 w
  have hn : (mapSubs w h).toNat = ofSubs w ((List.range (64 / w)).map h) := by
    simp only [mapSubs, w64, BitVec.toNat_ofNat]
    apply Nat.mod_eq_of_lt
    refine Nat.lt_of_lt_of_le hb ?_
    simp only [List.length_map, List.length_range]
    exact Nat.pow_le_pow_right (by omega) hle
  rw [subElem, hn, ofSubs_elem]
  simp [List.getD_eq_getElem?_getD, hj]

/-- A value formed sub-element by sub-element from numbers of the type's width. -/
theorem mapSubs_elements (t : Nat) (h : Nat → Nat) (hlt : ∀ j, h j < 2 ^ typeWidth t) : Elements t (mapSubs (typeWidth t) h) h := by
  intro j hj
  rw [mapSubs_elem _ (typeWidth_cases t) h j hj, Nat.mod_eq_of_lt (hlt j)]

theorem wrapInt_lt (v : Int) (w : Nat) : wrapInt v w < 2 ^ w := by
  unfold wrapInt
  have h : (0 : Int) < ((2 ^ w : Nat) : Int) := by exact_mod_cast Nat.two_pow_pos w
  have h1 := Int.emod_nonneg v (ne_of_gt h)
  have h2 := Int.emod_lt_of_pos v h
  omega

theorem intLanes_elements (t : Nat) (sat : Bool) (h : Nat → Int) : Elements t (intLanes t sat h) fun j => intSpec t sat (h j) :=
  mapSubs_elements t _ fun _ => wrapInt_lt _ _

end Sys2Proof.Machine
end

