-- ==== Sys2Proof/Laws/Invariant.lean ====
section
/-! SUPPORT. The invariant of memory, kept by every operation that writes the memory, the lines that cores hold, or the images. -/

namespace Sys2Proof.Machine

/-- What writes none of the five fields keeps the invariant. -/
theorem State.Inv.same {s t : State} (h : s.Inv) (h1 : t.mem = s.mem) (h2 : t.l1 = s.l1) (h3 : t.image = s.image) (h4 : t.remote = s.remote)
    (h5 : t.ckptRun = s.ckptRun) : t.Inv := by
  refine ⟨?_, ?_, ?_⟩
  · rw [State.memOk, h1]; exact h.mem
  · rw [h2]; exact h.lines
  · unfold imagesOk; rw [h3, h4, h5]; exact h.images

/-- A state with other memory, in its form. -/
theorem State.Inv.withMem {s : State} (h : s.Inv) (m : List Host.Cell) (hm : Memory.wf m = true) : ({ s with mem := m } : State).Inv :=
  ⟨hm, h.lines, h.images⟩

theorem State.Inv.putBytes {s : State} (h : s.Inv) (pa : Nat) (bs : List Byte) : ({ s with mem := putBytes s.mem pa bs } : State).Inv :=
  h.withMem _ (putBytes_wf _ _ _ h.mem)

theorem State.Inv.dropLines {s : State} (h : s.Inv) (w : L1Line → Bool) {pay : Charge} : (dropLines s w pay).Inv :=
  ⟨dropLines_mem_wf w h.mem, l1Ok_dropLines w h.lines, h.images⟩

theorem State.Inv.recallLines {s : State} (h : s.Inv) (pa n : Nat) {pay : Charge} : (recallLines s pa n pay).Inv := h.dropLines _

theorem State.Inv.homeStore {s : State} (h : s.Inv) (pa : Nat) (bs : List Byte) (src : Nat → Bool) {pay : Charge} :
    (homeStore s pa bs src pay).Inv :=
  ⟨homeStore_mem_wf pa bs src h.mem, (h.recallLines pa bs.length (pay := pay)).lines, h.images⟩

theorem State.Inv.fillLine {s : State} (h : s.Inv) (core slot : Nat) (team : Option Nat) (line : Nat) (gen : W16) (tracked : Bool) :
    (fillLine s core slot team line gen tracked).Inv := by
  refine ⟨?_, l1Ok_fillLine core slot team line gen tracked h.lines, ?_⟩
  · rw [State.memOk, fillLine_mem]; exact h.mem
  · unfold Machine.fillLine imagesOk
    split <;> exact h.images

/-- Bytes of one line stored into it (R284, R343). -/
theorem State.Inv.lineStore {s : State} (h : s.Inv) (core slot : Nat) (team : Option Nat) (gen : W16) (tracked : Bool) (pa : Nat)
    (bs : List Byte) (src : Nat → Bool) {pay : Charge} (hb : ∀ q, pa ≤ q → q < pa + bs.length → q / 128 = pa / 128) :
    (lineStore s core slot team gen tracked pa bs src pay).Inv := by
  refine ⟨lineStore_mem_wf core slot team gen tracked pa bs src h.mem, l1Ok_lineStore core slot team gen tracked pa bs src h.lines hb, ?_⟩
  have := ((h.dropLines (fun l => l.line == pa / 128 && !(l.core == core && l.slot == slot)) (pay := pay)).fillLine core slot team (pa / 128) gen tracked).images
  exact this

/-- R345: an owned copy written back stays, clean. -/
theorem l1Ok_clean {ls : List L1Line} (p : L1Line → Bool) (h : l1Ok ls) :
    l1Ok (ls.map fun l => if p l then { l with owned := false, dirty := [] } else l) := by
  obtain ⟨h1, h2⟩ := h
  refine ⟨?_, ?_⟩
  · intro l hl
    obtain ⟨a, ha, rfl⟩ := List.mem_map.1 hl
    split
    · exact ⟨rfl, fun e he => absurd he (by simp)⟩
    · exact h1 a ha
  · rw [List.pairwise_map]
    refine h2.imp fun {a b} hab => ?_
    intro hline
    have e : ∀ c : L1Line, (if p c then { c with owned := false, dirty := [] } else c).line = c.line ∧
        (if p c then { c with owned := false, dirty := [] } else c).core = c.core ∧
        (if p c then { c with owned := false, dirty := [] } else c).slot = c.slot ∧
        (c.dirty = [] → (if p c then { c with owned := false, dirty := [] } else c).dirty = []) := by
      intro c; split <;> simp
    obtain ⟨a1, a2, a3, a4⟩ := e a
    obtain ⟨b1, b2, b3, b4⟩ := e b
    rw [a1, b1] at hline
    obtain ⟨k1, k2⟩ := hab hline
    rw [a2, a3, b2, b3]
    exact ⟨k1, k2.imp a4 b4⟩

/-- Dirty bytes of a list of lines written back keep memory in its form. -/
theorem writeDirtyAll_wf (ls : List L1Line) (m : List Host.Cell) (h : Memory.wf m = true) :
    Memory.wf (ls.foldl (fun m l => writeDirty m l.dirty) m) = true := by
  induction ls generalizing m with
  | nil => exact h
  | cons l t ih => exact ih _ (writeDirty_wf _ _ h)

/-- R360: the bytes of one range put in place of another's. -/
theorem moveMap_wf (m : KMap Byte) (src dst n : Nat) (h : KMap.wf m memDefault = true) : KMap.wf (moveMap m src dst n) memDefault = true := by
  unfold moveMap
  have hv : ∀ e ∈ List.filter (fun (e : Nat × Byte) => src ≤ e.1 && e.1 < src + n) m, e.2 ≠ memDefault := fun e he =>
    ((KMap.wf_iff _ _).1 h).2 e (List.mem_filter.1 he).1
  generalize List.filter (fun (e : Nat × Byte) => src ≤ e.1 && e.1 < src + n) m = l at hv
  have h0 := KMap.filter_wf (fun (e : Nat × Byte) => !(dst ≤ e.1 && e.1 < dst + n)) h
  generalize List.filter (fun (e : Nat × Byte) => !(dst ≤ e.1 && e.1 < dst + n)) m = r at h0
  induction l generalizing r with
  | nil => exact h0
  | cons e t ih =>
    rw [List.foldl_cons]
    refine ih (fun x hx => hv x (List.mem_cons_of_mem _ hx)) _ ?_
    have hr := (KMap.wf_iff _ _).1 h0
    rw [KMap.wf_iff]
    refine ⟨(KMap.rising_iff _).1 (KMap.put_rising _ _ _ ((KMap.rising_iff _).2 hr.1)), fun x hx => ?_⟩
    rcases KMap.mem_put hx with rfl | hx
    · exact hv e (List.mem_cons_self ..)
    · exact hr.2 x hx

theorem State.Inv.moveFrames {s : State} (h : s.Inv) (src dst n : Nat) : (moveFrames s src dst n).Inv :=
  ⟨moveMap_wf _ _ _ _ h.mem, h.lines, h.images⟩

/-- The near and far parts of two memories in their form, joined (R450). -/
theorem joined_wf (a b : List Host.Cell) (ha : Memory.wf a = true) (hb : Memory.wf b = true) :
    Memory.wf (a.filter (fun e => e.1 < 0x10000000000) ++ b.filter (fun e => isFar e.1)) = true := by
  have h1 := (KMap.wf_iff _ _).1 (KMap.filter_wf (fun (e : Nat × Byte) => e.1 < 0x10000000000) ha)
  have h2 := (KMap.wf_iff _ _).1 (KMap.filter_wf (fun (e : Nat × Byte) => isFar e.1) hb)
  refine (KMap.wf_iff _ _).2 ⟨List.pairwise_append.2 ⟨h1.1, h2.1, fun x hx y hy => ?_⟩, fun e he => ?_⟩
  · have k1 := (List.mem_filter.1 hx).2
    have k2 := (List.mem_filter.1 hy).2
    simp only [isFar, Bool.and_eq_true, decide_eq_true_eq] at k1 k2
    omega
  · rcases List.mem_append.1 he with he | he
    · exact h1.2 e he
    · exact h2.2 e he

/-- An event at a home (R285). -/
theorem State.Inv.homeEvent {s : State} (h : s.Inv) (pa n : Nat) (f : Nat → Nat) {pay : Charge} : (homeEvent s pa n f pay).2.2.Inv := by
  unfold Machine.homeEvent
  simp only
  split
  · exact h.recallLines pa n
  · exact (h.recallLines pa n).homeStore _ _ _

/-- A store of one access (R217): at its home, in its line or in a scratchpad. -/
theorem State.Inv.storeAcc {s : State} (h : s.Inv) (w : Who) (unc : Bool) (claims : List Nat) (a : LaneAcc)
    (hi : (storeAcc s w unc claims a).image = s.image) (hr : (storeAcc s w unc claims a).remote = s.remote)
    (hc : (storeAcc s w unc claims a).ckptRun = s.ckptRun) (hm : (storeAcc s w unc claims a).memOk = true) : (storeAcc s w unc claims a).Inv := by
  refine ⟨hm, (memByte_storeAcc s w unc claims a h.lines).1, ?_⟩
  unfold imagesOk
  rw [hi, hr, hc]
  exact h.images

end Sys2Proof.Machine
end

