-- ==== Sys2Proof/Laws/PerInstr.lean ====
section
/-! SUPPORT. One lemma per constructor of `Instr`: where it stands in the opcode map. -/

open Sys2Proof

/-- A form has an assigned CLASS and OP (R81), and the map leads from them back to it; any other instruction has no word, but for the row
of unassigned words. -/
def Sys2Proof.Laws.Encoding.Statement (i : Instr) : Prop :=
  match i.form with
  | some (m, f) => m.cls < 13 ∧ m.op < opsInClass.getD m.cls 0 ∧ ∃ k, formOfOpcode m.cls m.op = some k ∧ k f = i
  | none => encode i = none ∨ ∃ w, i = .undefinedEncoding w

theorem Sys2Proof.Laws.Encoding.nop (f : Fields) : Sys2Proof.Laws.Encoding.Statement (.nop f) :=
  ⟨by decide, by decide, _, rfl, rfl⟩
theorem Sys2Proof.Laws.Encoding.bra (f : Fields) : Sys2Proof.Laws.Encoding.Statement (.bra f) :=
  ⟨by decide, by decide, _, rfl, rfl⟩
theorem Sys2Proof.Laws.Encoding.bri (f : Fields) : Sys2Proof.Laws.Encoding.Statement (.bri f) :=
  ⟨by decide, by decide, _, rfl, rfl⟩
theorem Sys2Proof.Laws.Encoding.call (f : Fields) : Sys2Proof.Laws.Encoding.Statement (.call f) :=
  ⟨by decide, by decide, _, rfl, rfl⟩
theorem Sys2Proof.Laws.Encoding.calli (f : Fields) : Sys2Proof.Laws.Encoding.Statement (.calli f) :=
  ⟨by decide, by decide, _, rfl, rfl⟩
theorem Sys2Proof.Laws.Encoding.ret (f : Fields) : Sys2Proof.Laws.Encoding.Statement (.ret f) :=
  ⟨by decide, by decide, _, rfl, rfl⟩
theorem Sys2Proof.Laws.Encoding.exit (f : Fields) : Sys2Proof.Laws.Encoding.Statement (.exit f) :=
  ⟨by decide, by decide, _, rfl, rfl⟩
theorem Sys2Proof.Laws.Encoding.yield (f : Fields) : Sys2Proof.Laws.Encoding.Statement (.yield f) :=
  ⟨by decide, by decide, _, rfl, rfl⟩
theorem Sys2Proof.Laws.Encoding.elect (f : Fields) : Sys2Proof.Laws.Encoding.Statement (.elect f) :=
  ⟨by decide, by decide, _, rfl, rfl⟩
theorem Sys2Proof.Laws.Encoding.vote (f : Fields) : Sys2Proof.Laws.Encoding.Statement (.vote f) :=
  ⟨by decide, by decide, _, rfl, rfl⟩
theorem Sys2Proof.Laws.Encoding.pset (f : Fields) : Sys2Proof.Laws.Encoding.Statement (.pset f) :=
  ⟨by decide, by decide, _, rfl, rfl⟩
theorem Sys2Proof.Laws.Encoding.pmov (f : Fields) : Sys2Proof.Laws.Encoding.Statement (.pmov f) :=
  ⟨by decide, by decide, _, rfl, rfl⟩
theorem Sys2Proof.Laws.Encoding.iadd (f : Fields) : Sys2Proof.Laws.Encoding.Statement (.iadd f) :=
  ⟨by decide, by decide, _, rfl, rfl⟩
theorem Sys2Proof.Laws.Encoding.isub (f : Fields) : Sys2Proof.Laws.Encoding.Statement (.isub f) :=
  ⟨by decide, by decide, _, rfl, rfl⟩
theorem Sys2Proof.Laws.Encoding.iaddc (f : Fields) : Sys2Proof.Laws.Encoding.Statement (.iaddc f) :=
  ⟨by decide, by decide, _, rfl, rfl⟩
theorem Sys2Proof.Laws.Encoding.imul (f : Fields) : Sys2Proof.Laws.Encoding.Statement (.imul f) :=
  ⟨by decide, by decide, _, rfl, rfl⟩
theorem Sys2Proof.Laws.Encoding.imulh (f : Fields) : Sys2Proof.Laws.Encoding.Statement (.imulh f) :=
  ⟨by decide, by decide, _, rfl, rfl⟩
theorem Sys2Proof.Laws.Encoding.imad (f : Fields) : Sys2Proof.Laws.Encoding.Statement (.imad f) :=
  ⟨by decide, by decide, _, rfl, rfl⟩
theorem Sys2Proof.Laws.Encoding.imin (f : Fields) : Sys2Proof.Laws.Encoding.Statement (.imin f) :=
  ⟨by decide, by decide, _, rfl, rfl⟩
theorem Sys2Proof.Laws.Encoding.imax (f : Fields) : Sys2Proof.Laws.Encoding.Statement (.imax f) :=
  ⟨by decide, by decide, _, rfl, rfl⟩
theorem Sys2Proof.Laws.Encoding.iabs (f : Fields) : Sys2Proof.Laws.Encoding.Statement (.iabs f) :=
  ⟨by decide, by decide, _, rfl, rfl⟩
theorem Sys2Proof.Laws.Encoding.ineg (f : Fields) : Sys2Proof.Laws.Encoding.Statement (.ineg f) :=
  ⟨by decide, by decide, _, rfl, rfl⟩
theorem Sys2Proof.Laws.Encoding.icmp (f : Fields) : Sys2Proof.Laws.Encoding.Statement (.icmp f) :=
  ⟨by decide, by decide, _, rfl, rfl⟩
theorem Sys2Proof.Laws.Encoding.isel (f : Fields) : Sys2Proof.Laws.Encoding.Statement (.isel f) :=
  ⟨by decide, by decide, _, rfl, rfl⟩
theorem Sys2Proof.Laws.Encoding.lea (f : Fields) : Sys2Proof.Laws.Encoding.Statement (.lea f) :=
  ⟨by decide, by decide, _, rfl, rfl⟩
theorem Sys2Proof.Laws.Encoding.idiv (f : Fields) : Sys2Proof.Laws.Encoding.Statement (.idiv f) :=
  ⟨by decide, by decide, _, rfl, rfl⟩
theorem Sys2Proof.Laws.Encoding.irem (f : Fields) : Sys2Proof.Laws.Encoding.Statement (.irem f) :=
  ⟨by decide, by decide, _, rfl, rfl⟩
theorem Sys2Proof.Laws.Encoding.mov (f : Fields) : Sys2Proof.Laws.Encoding.Statement (.mov f) :=
  ⟨by decide, by decide, _, rfl, rfl⟩
theorem Sys2Proof.Laws.Encoding.movi (f : Fields) : Sys2Proof.Laws.Encoding.Statement (.movi f) :=
  ⟨by decide, by decide, _, rfl, rfl⟩
theorem Sys2Proof.Laws.Encoding.idot4 (f : Fields) : Sys2Proof.Laws.Encoding.Statement (.idot4 f) :=
  ⟨by decide, by decide, _, rfl, rfl⟩
theorem Sys2Proof.Laws.Encoding.and (f : Fields) : Sys2Proof.Laws.Encoding.Statement (.and f) :=
  ⟨by decide, by decide, _, rfl, rfl⟩
theorem Sys2Proof.Laws.Encoding.or (f : Fields) : Sys2Proof.Laws.Encoding.Statement (.or f) :=
  ⟨by decide, by decide, _, rfl, rfl⟩
theorem Sys2Proof.Laws.Encoding.xor (f : Fields) : Sys2Proof.Laws.Encoding.Statement (.xor f) :=
  ⟨by decide, by decide, _, rfl, rfl⟩
theorem Sys2Proof.Laws.Encoding.not (f : Fields) : Sys2Proof.Laws.Encoding.Statement (.not f) :=
  ⟨by decide, by decide, _, rfl, rfl⟩
theorem Sys2Proof.Laws.Encoding.andn (f : Fields) : Sys2Proof.Laws.Encoding.Statement (.andn f) :=
  ⟨by decide, by decide, _, rfl, rfl⟩
theorem Sys2Proof.Laws.Encoding.shl (f : Fields) : Sys2Proof.Laws.Encoding.Statement (.shl f) :=
  ⟨by decide, by decide, _, rfl, rfl⟩
theorem Sys2Proof.Laws.Encoding.shr (f : Fields) : Sys2Proof.Laws.Encoding.Statement (.shr f) :=
  ⟨by decide, by decide, _, rfl, rfl⟩
theorem Sys2Proof.Laws.Encoding.sar (f : Fields) : Sys2Proof.Laws.Encoding.Statement (.sar f) :=
  ⟨by decide, by decide, _, rfl, rfl⟩
theorem Sys2Proof.Laws.Encoding.rot (f : Fields) : Sys2Proof.Laws.Encoding.Statement (.rot f) :=
  ⟨by decide, by decide, _, rfl, rfl⟩
theorem Sys2Proof.Laws.Encoding.popc (f : Fields) : Sys2Proof.Laws.Encoding.Statement (.popc f) :=
  ⟨by decide, by decide, _, rfl, rfl⟩
theorem Sys2Proof.Laws.Encoding.clz (f : Fields) : Sys2Proof.Laws.Encoding.Statement (.clz f) :=
  ⟨by decide, by decide, _, rfl, rfl⟩
theorem Sys2Proof.Laws.Encoding.ctz (f : Fields) : Sys2Proof.Laws.Encoding.Statement (.ctz f) :=
  ⟨by decide, by decide, _, rfl, rfl⟩
theorem Sys2Proof.Laws.Encoding.brev (f : Fields) : Sys2Proof.Laws.Encoding.Statement (.brev f) :=
  ⟨by decide, by decide, _, rfl, rfl⟩
theorem Sys2Proof.Laws.Encoding.bfx (f : Fields) : Sys2Proof.Laws.Encoding.Statement (.bfx f) :=
  ⟨by decide, by decide, _, rfl, rfl⟩
theorem Sys2Proof.Laws.Encoding.bfi (f : Fields) : Sys2Proof.Laws.Encoding.Statement (.bfi f) :=
  ⟨by decide, by decide, _, rfl, rfl⟩
theorem Sys2Proof.Laws.Encoding.lop3 (f : Fields) : Sys2Proof.Laws.Encoding.Statement (.lop3 f) :=
  ⟨by decide, by decide, _, rfl, rfl⟩
theorem Sys2Proof.Laws.Encoding.fadd (f : Fields) : Sys2Proof.Laws.Encoding.Statement (.fadd f) :=
  ⟨by decide, by decide, _, rfl, rfl⟩
theorem Sys2Proof.Laws.Encoding.fsub (f : Fields) : Sys2Proof.Laws.Encoding.Statement (.fsub f) :=
  ⟨by decide, by decide, _, rfl, rfl⟩
theorem Sys2Proof.Laws.Encoding.fmul (f : Fields) : Sys2Proof.Laws.Encoding.Statement (.fmul f) :=
  ⟨by decide, by decide, _, rfl, rfl⟩
theorem Sys2Proof.Laws.Encoding.ffma (f : Fields) : Sys2Proof.Laws.Encoding.Statement (.ffma f) :=
  ⟨by decide, by decide, _, rfl, rfl⟩
theorem Sys2Proof.Laws.Encoding.fmin (f : Fields) : Sys2Proof.Laws.Encoding.Statement (.fmin f) :=
  ⟨by decide, by decide, _, rfl, rfl⟩
theorem Sys2Proof.Laws.Encoding.fmax (f : Fields) : Sys2Proof.Laws.Encoding.Statement (.fmax f) :=
  ⟨by decide, by decide, _, rfl, rfl⟩
theorem Sys2Proof.Laws.Encoding.fabs (f : Fields) : Sys2Proof.Laws.Encoding.Statement (.fabs f) :=
  ⟨by decide, by decide, _, rfl, rfl⟩
theorem Sys2Proof.Laws.Encoding.fneg (f : Fields) : Sys2Proof.Laws.Encoding.Statement (.fneg f) :=
  ⟨by decide, by decide, _, rfl, rfl⟩
theorem Sys2Proof.Laws.Encoding.fcmp (f : Fields) : Sys2Proof.Laws.Encoding.Statement (.fcmp f) :=
  ⟨by decide, by decide, _, rfl, rfl⟩
theorem Sys2Proof.Laws.Encoding.fsel (f : Fields) : Sys2Proof.Laws.Encoding.Statement (.fsel f) :=
  ⟨by decide, by decide, _, rfl, rfl⟩
theorem Sys2Proof.Laws.Encoding.fclass (f : Fields) : Sys2Proof.Laws.Encoding.Statement (.fclass f) :=
  ⟨by decide, by decide, _, rfl, rfl⟩
theorem Sys2Proof.Laws.Encoding.fscale (f : Fields) : Sys2Proof.Laws.Encoding.Statement (.fscale f) :=
  ⟨by decide, by decide, _, rfl, rfl⟩
theorem Sys2Proof.Laws.Encoding.fround (f : Fields) : Sys2Proof.Laws.Encoding.Statement (.fround f) :=
  ⟨by decide, by decide, _, rfl, rfl⟩
theorem Sys2Proof.Laws.Encoding.fdot2 (f : Fields) : Sys2Proof.Laws.Encoding.Statement (.fdot2 f) :=
  ⟨by decide, by decide, _, rfl, rfl⟩
theorem Sys2Proof.Laws.Encoding.frcp (f : Fields) : Sys2Proof.Laws.Encoding.Statement (.frcp f) :=
  ⟨by decide, by decide, _, rfl, rfl⟩
theorem Sys2Proof.Laws.Encoding.frsq (f : Fields) : Sys2Proof.Laws.Encoding.Statement (.frsq f) :=
  ⟨by decide, by decide, _, rfl, rfl⟩
theorem Sys2Proof.Laws.Encoding.fsqrt (f : Fields) : Sys2Proof.Laws.Encoding.Statement (.fsqrt f) :=
  ⟨by decide, by decide, _, rfl, rfl⟩
theorem Sys2Proof.Laws.Encoding.fexp2 (f : Fields) : Sys2Proof.Laws.Encoding.Statement (.fexp2 f) :=
  ⟨by decide, by decide, _, rfl, rfl⟩
theorem Sys2Proof.Laws.Encoding.flog2 (f : Fields) : Sys2Proof.Laws.Encoding.Statement (.flog2 f) :=
  ⟨by decide, by decide, _, rfl, rfl⟩
theorem Sys2Proof.Laws.Encoding.fsin (f : Fields) : Sys2Proof.Laws.Encoding.Statement (.fsin f) :=
  ⟨by decide, by decide, _, rfl, rfl⟩
theorem Sys2Proof.Laws.Encoding.fcos (f : Fields) : Sys2Proof.Laws.Encoding.Statement (.fcos f) :=
  ⟨by decide, by decide, _, rfl, rfl⟩
theorem Sys2Proof.Laws.Encoding.ftanh (f : Fields) : Sys2Proof.Laws.Encoding.Statement (.ftanh f) :=
  ⟨by decide, by decide, _, rfl, rfl⟩
theorem Sys2Proof.Laws.Encoding.fdiv (f : Fields) : Sys2Proof.Laws.Encoding.Statement (.fdiv f) :=
  ⟨by decide, by decide, _, rfl, rfl⟩
theorem Sys2Proof.Laws.Encoding.cvt (f : Fields) : Sys2Proof.Laws.Encoding.Statement (.cvt f) :=
  ⟨by decide, by decide, _, rfl, rfl⟩
theorem Sys2Proof.Laws.Encoding.shfl (f : Fields) : Sys2Proof.Laws.Encoding.Statement (.shfl f) :=
  ⟨by decide, by decide, _, rfl, rfl⟩
theorem Sys2Proof.Laws.Encoding.swz (f : Fields) : Sys2Proof.Laws.Encoding.Statement (.swz f) :=
  ⟨by decide, by decide, _, rfl, rfl⟩
theorem Sys2Proof.Laws.Encoding.bcast (f : Fields) : Sys2Proof.Laws.Encoding.Statement (.bcast f) :=
  ⟨by decide, by decide, _, rfl, rfl⟩
theorem Sys2Proof.Laws.Encoding.reda (f : Fields) : Sys2Proof.Laws.Encoding.Statement (.reda f) :=
  ⟨by decide, by decide, _, rfl, rfl⟩
theorem Sys2Proof.Laws.Encoding.redm (f : Fields) : Sys2Proof.Laws.Encoding.Statement (.redm f) :=
  ⟨by decide, by decide, _, rfl, rfl⟩
theorem Sys2Proof.Laws.Encoding.scan (f : Fields) : Sys2Proof.Laws.Encoding.Statement (.scan f) :=
  ⟨by decide, by decide, _, rfl, rfl⟩
theorem Sys2Proof.Laws.Encoding.pack (f : Fields) : Sys2Proof.Laws.Encoding.Statement (.pack f) :=
  ⟨by decide, by decide, _, rfl, rfl⟩
theorem Sys2Proof.Laws.Encoding.unpack (f : Fields) : Sys2Proof.Laws.Encoding.Statement (.unpack f) :=
  ⟨by decide, by decide, _, rfl, rfl⟩
theorem Sys2Proof.Laws.Encoding.sxpack (f : Fields) : Sys2Proof.Laws.Encoding.Statement (.sxpack f) :=
  ⟨by decide, by decide, _, rfl, rfl⟩
theorem Sys2Proof.Laws.Encoding.sxunp (f : Fields) : Sys2Proof.Laws.Encoding.Statement (.sxunp f) :=
  ⟨by decide, by decide, _, rfl, rfl⟩
theorem Sys2Proof.Laws.Encoding.matchLanes (f : Fields) : Sys2Proof.Laws.Encoding.Statement (.matchLanes f) :=
  ⟨by decide, by decide, _, rfl, rfl⟩
theorem Sys2Proof.Laws.Encoding.dvmk (f : Fields) : Sys2Proof.Laws.Encoding.Statement (.dvmk f) :=
  ⟨by decide, by decide, _, rfl, rfl⟩
theorem Sys2Proof.Laws.Encoding.dvflat (f : Fields) : Sys2Proof.Laws.Encoding.Statement (.dvflat f) :=
  ⟨by decide, by decide, _, rfl, rfl⟩
theorem Sys2Proof.Laws.Encoding.dvdot (f : Fields) : Sys2Proof.Laws.Encoding.Statement (.dvdot f) :=
  ⟨by decide, by decide, _, rfl, rfl⟩
theorem Sys2Proof.Laws.Encoding.dvscl (f : Fields) : Sys2Proof.Laws.Encoding.Statement (.dvscl f) :=
  ⟨by decide, by decide, _, rfl, rfl⟩
theorem Sys2Proof.Laws.Encoding.dvadd (f : Fields) : Sys2Proof.Laws.Encoding.Statement (.dvadd f) :=
  ⟨by decide, by decide, _, rfl, rfl⟩
theorem Sys2Proof.Laws.Encoding.dvaxpy (f : Fields) : Sys2Proof.Laws.Encoding.Statement (.dvaxpy f) :=
  ⟨by decide, by decide, _, rfl, rfl⟩
theorem Sys2Proof.Laws.Encoding.dvneg (f : Fields) : Sys2Proof.Laws.Encoding.Statement (.dvneg f) :=
  ⟨by decide, by decide, _, rfl, rfl⟩
theorem Sys2Proof.Laws.Encoding.dvnrm (f : Fields) : Sys2Proof.Laws.Encoding.Statement (.dvnrm f) :=
  ⟨by decide, by decide, _, rfl, rfl⟩
theorem Sys2Proof.Laws.Encoding.dvsetn (f : Fields) : Sys2Proof.Laws.Encoding.Statement (.dvsetn f) :=
  ⟨by decide, by decide, _, rfl, rfl⟩
theorem Sys2Proof.Laws.Encoding.dvren (f : Fields) : Sys2Proof.Laws.Encoding.Statement (.dvren f) :=
  ⟨by decide, by decide, _, rfl, rfl⟩
theorem Sys2Proof.Laws.Encoding.dvproj (f : Fields) : Sys2Proof.Laws.Encoding.Statement (.dvproj f) :=
  ⟨by decide, by decide, _, rfl, rfl⟩
theorem Sys2Proof.Laws.Encoding.dvcmp (f : Fields) : Sys2Proof.Laws.Encoding.Statement (.dvcmp f) :=
  ⟨by decide, by decide, _, rfl, rfl⟩
theorem Sys2Proof.Laws.Encoding.dvld (f : Fields) : Sys2Proof.Laws.Encoding.Statement (.dvld f) :=
  ⟨by decide, by decide, _, rfl, rfl⟩
theorem Sys2Proof.Laws.Encoding.dvst (f : Fields) : Sys2Proof.Laws.Encoding.Statement (.dvst f) :=
  ⟨by decide, by decide, _, rfl, rfl⟩
theorem Sys2Proof.Laws.Encoding.dvmul (f : Fields) : Sys2Proof.Laws.Encoding.Statement (.dvmul f) :=
  ⟨by decide, by decide, _, rfl, rfl⟩
theorem Sys2Proof.Laws.Encoding.tvset (f : Fields) : Sys2Proof.Laws.Encoding.Statement (.tvset f) :=
  ⟨by decide, by decide, _, rfl, rfl⟩
theorem Sys2Proof.Laws.Encoding.tvget (f : Fields) : Sys2Proof.Laws.Encoding.Statement (.tvget f) :=
  ⟨by decide, by decide, _, rfl, rfl⟩
theorem Sys2Proof.Laws.Encoding.mxop (f : Fields) : Sys2Proof.Laws.Encoding.Statement (.mxop f) :=
  ⟨by decide, by decide, _, rfl, rfl⟩
theorem Sys2Proof.Laws.Encoding.mxwait (f : Fields) : Sys2Proof.Laws.Encoding.Statement (.mxwait f) :=
  ⟨by decide, by decide, _, rfl, rfl⟩
theorem Sys2Proof.Laws.Encoding.tokgive (f : Fields) : Sys2Proof.Laws.Encoding.Statement (.tokgive f) :=
  ⟨by decide, by decide, _, rfl, rfl⟩
theorem Sys2Proof.Laws.Encoding.toktake (f : Fields) : Sys2Proof.Laws.Encoding.Statement (.toktake f) :=
  ⟨by decide, by decide, _, rfl, rfl⟩
theorem Sys2Proof.Laws.Encoding.tzero (f : Fields) : Sys2Proof.Laws.Encoding.Statement (.tzero f) :=
  ⟨by decide, by decide, _, rfl, rfl⟩
theorem Sys2Proof.Laws.Encoding.tcvt (f : Fields) : Sys2Proof.Laws.Encoding.Statement (.tcvt f) :=
  ⟨by decide, by decide, _, rfl, rfl⟩
theorem Sys2Proof.Laws.Encoding.chld (f : Fields) : Sys2Proof.Laws.Encoding.Statement (.chld f) :=
  ⟨by decide, by decide, _, rfl, rfl⟩
theorem Sys2Proof.Laws.Encoding.chrun (f : Fields) : Sys2Proof.Laws.Encoding.Statement (.chrun f) :=
  ⟨by decide, by decide, _, rfl, rfl⟩
theorem Sys2Proof.Laws.Encoding.chqry (f : Fields) : Sys2Proof.Laws.Encoding.Statement (.chqry f) :=
  ⟨by decide, by decide, _, rfl, rfl⟩
theorem Sys2Proof.Laws.Encoding.chinv (f : Fields) : Sys2Proof.Laws.Encoding.Statement (.chinv f) :=
  ⟨by decide, by decide, _, rfl, rfl⟩
theorem Sys2Proof.Laws.Encoding.ld (f : Fields) : Sys2Proof.Laws.Encoding.Statement (.ld f) :=
  ⟨by decide, by decide, _, rfl, rfl⟩
theorem Sys2Proof.Laws.Encoding.st (f : Fields) : Sys2Proof.Laws.Encoding.Statement (.st f) :=
  ⟨by decide, by decide, _, rfl, rfl⟩
theorem Sys2Proof.Laws.Encoding.lds (f : Fields) : Sys2Proof.Laws.Encoding.Statement (.lds f) :=
  ⟨by decide, by decide, _, rfl, rfl⟩
theorem Sys2Proof.Laws.Encoding.sts (f : Fields) : Sys2Proof.Laws.Encoding.Statement (.sts f) :=
  ⟨by decide, by decide, _, rfl, rfl⟩
theorem Sys2Proof.Laws.Encoding.ldx (f : Fields) : Sys2Proof.Laws.Encoding.Statement (.ldx f) :=
  ⟨by decide, by decide, _, rfl, rfl⟩
theorem Sys2Proof.Laws.Encoding.stx (f : Fields) : Sys2Proof.Laws.Encoding.Statement (.stx f) :=
  ⟨by decide, by decide, _, rfl, rfl⟩
theorem Sys2Proof.Laws.Encoding.ldp (f : Fields) : Sys2Proof.Laws.Encoding.Statement (.ldp f) :=
  ⟨by decide, by decide, _, rfl, rfl⟩
theorem Sys2Proof.Laws.Encoding.stp (f : Fields) : Sys2Proof.Laws.Encoding.Statement (.stp f) :=
  ⟨by decide, by decide, _, rfl, rfl⟩
theorem Sys2Proof.Laws.Encoding.ldk (f : Fields) : Sys2Proof.Laws.Encoding.Statement (.ldk f) :=
  ⟨by decide, by decide, _, rfl, rfl⟩
theorem Sys2Proof.Laws.Encoding.pfch (f : Fields) : Sys2Proof.Laws.Encoding.Statement (.pfch f) :=
  ⟨by decide, by decide, _, rfl, rfl⟩
theorem Sys2Proof.Laws.Encoding.stash (f : Fields) : Sys2Proof.Laws.Encoding.Statement (.stash f) :=
  ⟨by decide, by decide, _, rfl, rfl⟩
theorem Sys2Proof.Laws.Encoding.unstash (f : Fields) : Sys2Proof.Laws.Encoding.Statement (.unstash f) :=
  ⟨by decide, by decide, _, rfl, rfl⟩
theorem Sys2Proof.Laws.Encoding.atom (f : Fields) : Sys2Proof.Laws.Encoding.Statement (.atom f) :=
  ⟨by decide, by decide, _, rfl, rfl⟩
theorem Sys2Proof.Laws.Encoding.acas (f : Fields) : Sys2Proof.Laws.Encoding.Statement (.acas f) :=
  ⟨by decide, by decide, _, rfl, rfl⟩
theorem Sys2Proof.Laws.Encoding.rowadd (f : Fields) : Sys2Proof.Laws.Encoding.Statement (.rowadd f) :=
  ⟨by decide, by decide, _, rfl, rfl⟩
theorem Sys2Proof.Laws.Encoding.rowld (f : Fields) : Sys2Proof.Laws.Encoding.Statement (.rowld f) :=
  ⟨by decide, by decide, _, rfl, rfl⟩
theorem Sys2Proof.Laws.Encoding.atoms (f : Fields) : Sys2Proof.Laws.Encoding.Statement (.atoms f) :=
  ⟨by decide, by decide, _, rfl, rfl⟩
theorem Sys2Proof.Laws.Encoding.cpy (f : Fields) : Sys2Proof.Laws.Encoding.Statement (.cpy f) :=
  ⟨by decide, by decide, _, rfl, rfl⟩
theorem Sys2Proof.Laws.Encoding.cpym (f : Fields) : Sys2Proof.Laws.Encoding.Statement (.cpym f) :=
  ⟨by decide, by decide, _, rfl, rfl⟩
theorem Sys2Proof.Laws.Encoding.gather (f : Fields) : Sys2Proof.Laws.Encoding.Statement (.gather f) :=
  ⟨by decide, by decide, _, rfl, rfl⟩
theorem Sys2Proof.Laws.Encoding.scata (f : Fields) : Sys2Proof.Laws.Encoding.Statement (.scata f) :=
  ⟨by decide, by decide, _, rfl, rfl⟩
theorem Sys2Proof.Laws.Encoding.sigw (f : Fields) : Sys2Proof.Laws.Encoding.Statement (.sigw f) :=
  ⟨by decide, by decide, _, rfl, rfl⟩
theorem Sys2Proof.Laws.Encoding.sigt (f : Fields) : Sys2Proof.Laws.Encoding.Statement (.sigt f) :=
  ⟨by decide, by decide, _, rfl, rfl⟩
theorem Sys2Proof.Laws.Encoding.sigs (f : Fields) : Sys2Proof.Laws.Encoding.Statement (.sigs f) :=
  ⟨by decide, by decide, _, rfl, rfl⟩
theorem Sys2Proof.Laws.Encoding.bars (f : Fields) : Sys2Proof.Laws.Encoding.Statement (.bars f) :=
  ⟨by decide, by decide, _, rfl, rfl⟩
theorem Sys2Proof.Laws.Encoding.bara (f : Fields) : Sys2Proof.Laws.Encoding.Statement (.bara f) :=
  ⟨by decide, by decide, _, rfl, rfl⟩
theorem Sys2Proof.Laws.Encoding.barw (f : Fields) : Sys2Proof.Laws.Encoding.Statement (.barw f) :=
  ⟨by decide, by decide, _, rfl, rfl⟩
theorem Sys2Proof.Laws.Encoding.boa (f : Fields) : Sys2Proof.Laws.Encoding.Statement (.boa f) :=
  ⟨by decide, by decide, _, rfl, rfl⟩
theorem Sys2Proof.Laws.Encoding.bow (f : Fields) : Sys2Proof.Laws.Encoding.Statement (.bow f) :=
  ⟨by decide, by decide, _, rfl, rfl⟩
theorem Sys2Proof.Laws.Encoding.carve (f : Fields) : Sys2Proof.Laws.Encoding.Statement (.carve f) :=
  ⟨by decide, by decide, _, rfl, rfl⟩
theorem Sys2Proof.Laws.Encoding.trap (f : Fields) : Sys2Proof.Laws.Encoding.Statement (.trap f) :=
  ⟨by decide, by decide, _, rfl, rfl⟩
theorem Sys2Proof.Laws.Encoding.rte (f : Fields) : Sys2Proof.Laws.Encoding.Statement (.rte f) :=
  ⟨by decide, by decide, _, rfl, rfl⟩
theorem Sys2Proof.Laws.Encoding.mfc (f : Fields) : Sys2Proof.Laws.Encoding.Statement (.mfc f) :=
  ⟨by decide, by decide, _, rfl, rfl⟩
theorem Sys2Proof.Laws.Encoding.mtc (f : Fields) : Sys2Proof.Laws.Encoding.Statement (.mtc f) :=
  ⟨by decide, by decide, _, rfl, rfl⟩
theorem Sys2Proof.Laws.Encoding.rdcnt (f : Fields) : Sys2Proof.Laws.Encoding.Statement (.rdcnt f) :=
  ⟨by decide, by decide, _, rfl, rfl⟩
theorem Sys2Proof.Laws.Encoding.rdtime (f : Fields) : Sys2Proof.Laws.Encoding.Statement (.rdtime f) :=
  ⟨by decide, by decide, _, rfl, rfl⟩
theorem Sys2Proof.Laws.Encoding.haltdbg (f : Fields) : Sys2Proof.Laws.Encoding.Statement (.haltdbg f) :=
  ⟨by decide, by decide, _, rfl, rfl⟩
theorem Sys2Proof.Laws.Encoding.rddig (f : Fields) : Sys2Proof.Laws.Encoding.Statement (.rddig f) :=
  ⟨by decide, by decide, _, rfl, rfl⟩
theorem Sys2Proof.Laws.Encoding.regq (f : Fields) : Sys2Proof.Laws.Encoding.Statement (.regq f) :=
  ⟨by decide, by decide, _, rfl, rfl⟩
theorem Sys2Proof.Laws.Encoding.sleep (f : Fields) : Sys2Proof.Laws.Encoding.Statement (.sleep f) :=
  ⟨by decide, by decide, _, rfl, rfl⟩
theorem Sys2Proof.Laws.Encoding.chldCommit (g : GangRef) : Sys2Proof.Laws.Encoding.Statement (.chldCommit g) := .inl rfl
theorem Sys2Proof.Laws.Encoding.sigwComplete (g : GangRef) : Sys2Proof.Laws.Encoding.Statement (.sigwComplete g) := .inl rfl
theorem Sys2Proof.Laws.Encoding.bowComplete (g : GangRef) : Sys2Proof.Laws.Encoding.Statement (.bowComplete g) := .inl rfl
theorem Sys2Proof.Laws.Encoding.sleepWake (g : GangRef) : Sys2Proof.Laws.Encoding.Statement (.sleepWake g) := .inl rfl
theorem Sys2Proof.Laws.Encoding.fetch (g : GangRef) : Sys2Proof.Laws.Encoding.Statement (.fetch g) := .inl rfl
theorem Sys2Proof.Laws.Encoding.secdedReplay (g : GangRef) : Sys2Proof.Laws.Encoding.Statement (.secdedReplay g) := .inl rfl
theorem Sys2Proof.Laws.Encoding.fillLand (g : GangRef) (ix : Nat) : Sys2Proof.Laws.Encoding.Statement (.fillLand g ix) := .inl rfl
theorem Sys2Proof.Laws.Encoding.teamPlace (slot : Nat) : Sys2Proof.Laws.Encoding.Statement (.teamPlace slot) := .inl rfl
theorem Sys2Proof.Laws.Encoding.gangRetire (g : GangRef) : Sys2Proof.Laws.Encoding.Statement (.gangRetire g) := .inl rfl
theorem Sys2Proof.Laws.Encoding.mxopRun (core part : Nat) : Sys2Proof.Laws.Encoding.Statement (.mxopRun core part) := .inl rfl
theorem Sys2Proof.Laws.Encoding.engineElement (id : Nat) : Sys2Proof.Laws.Encoding.Statement (.engineElement id) := .inl rfl
theorem Sys2Proof.Laws.Encoding.engineSignalUpdate (id : Nat) : Sys2Proof.Laws.Encoding.Statement (.engineSignalUpdate id) := .inl rfl
theorem Sys2Proof.Laws.Encoding.unclassifiedIssueComplete (g : GangRef) : Sys2Proof.Laws.Encoding.Statement (.unclassifiedIssueComplete g) := .inl rfl
theorem Sys2Proof.Laws.Encoding.pageReclassify (slot page : Nat) : Sys2Proof.Laws.Encoding.Statement (.pageReclassify slot page) := .inl rfl
theorem Sys2Proof.Laws.Encoding.readonlyToShared (slot page : Nat) : Sys2Proof.Laws.Encoding.Statement (.readonlyToShared slot page) := .inl rfl
theorem Sys2Proof.Laws.Encoding.peerAccessComplete (id : Nat) (a : PeerAnswer) (data : List Byte) : Sys2Proof.Laws.Encoding.Statement (.peerAccessComplete id a data) := .inl rfl
theorem Sys2Proof.Laws.Encoding.walkComplete (cluster ix : Nat) : Sys2Proof.Laws.Encoding.Statement (.walkComplete cluster ix) := .inl rfl
theorem Sys2Proof.Laws.Encoding.pageMigration (id : Nat) : Sys2Proof.Laws.Encoding.Statement (.pageMigration id) := .inl rfl
theorem Sys2Proof.Laws.Encoding.netRdmaWrite (r : NetReq) : Sys2Proof.Laws.Encoding.Statement (.netRdmaWrite r) := .inl rfl
theorem Sys2Proof.Laws.Encoding.netRdmaRead (r : NetReq) : Sys2Proof.Laws.Encoding.Statement (.netRdmaRead r) := .inl rfl
theorem Sys2Proof.Laws.Encoding.netAtomicFetchAdd (r : NetReq) : Sys2Proof.Laws.Encoding.Statement (.netAtomicFetchAdd r) := .inl rfl
theorem Sys2Proof.Laws.Encoding.netAtomicCmpSwap (r : NetReq) : Sys2Proof.Laws.Encoding.Statement (.netAtomicCmpSwap r) := .inl rfl
theorem Sys2Proof.Laws.Encoding.deferredRequestPerform (ix : Nat) : Sys2Proof.Laws.Encoding.Statement (.deferredRequestPerform ix) := .inl rfl
theorem Sys2Proof.Laws.Encoding.frameDrop (port : Nat) : Sys2Proof.Laws.Encoding.Statement (.frameDrop port) := .inl rfl
theorem Sys2Proof.Laws.Encoding.congestionNotification (port : Nat) : Sys2Proof.Laws.Encoding.Statement (.congestionNotification port) := .inl rfl
theorem Sys2Proof.Laws.Encoding.pfcPause (port prio ticks : Nat) : Sys2Proof.Laws.Encoding.Statement (.pfcPause port prio ticks) := .inl rfl
theorem Sys2Proof.Laws.Encoding.qpTransportFailure (qp : Nat) : Sys2Proof.Laws.Encoding.Statement (.qpTransportFailure qp) := .inl rfl
theorem Sys2Proof.Laws.Encoding.viaductFlitReceive (die : Nat) (crcOk : Bool) : Sys2Proof.Laws.Encoding.Statement (.viaductFlitReceive die crcOk) := .inl rfl
theorem Sys2Proof.Laws.Encoding.retrainComplete (ok : Bool) : Sys2Proof.Laws.Encoding.Statement (.retrainComplete ok) := .inl rfl
theorem Sys2Proof.Laws.Encoding.moduleFatal (structureCode : Nat) : Sys2Proof.Laws.Encoding.Statement (.moduleFatal structureCode) := .inl rfl
theorem Sys2Proof.Laws.Encoding.contextFatalError (slot : Nat) : Sys2Proof.Laws.Encoding.Statement (.contextFatalError slot) := .inl rfl
theorem Sys2Proof.Laws.Encoding.patrolScrub (w : ScrubWord) (found : ScrubFinding) : Sys2Proof.Laws.Encoding.Statement (.patrolScrub w found) := .inl rfl
theorem Sys2Proof.Laws.Encoding.bucketRefill (core : Nat) : Sys2Proof.Laws.Encoding.Statement (.bucketRefill core) := .inl rfl
theorem Sys2Proof.Laws.Encoding.telemetryLatch (energy tempMax : Nat) : Sys2Proof.Laws.Encoding.Statement (.telemetryLatch energy tempMax) := .inl rfl
theorem Sys2Proof.Laws.Encoding.traceSample (core ctx : Nat) : Sys2Proof.Laws.Encoding.Statement (.traceSample core ctx) := .inl rfl
theorem Sys2Proof.Laws.Encoding.sliceExpiry (ctx : Nat) : Sys2Proof.Laws.Encoding.Statement (.sliceExpiry ctx) := .inl rfl
theorem Sys2Proof.Laws.Encoding.stallExpiry (ctx : Nat) : Sys2Proof.Laws.Encoding.Statement (.stallExpiry ctx) := .inl rfl
theorem Sys2Proof.Laws.Encoding.deadlineExpiry (ctx : Nat) : Sys2Proof.Laws.Encoding.Statement (.deadlineExpiry ctx) := .inl rfl
theorem Sys2Proof.Laws.Encoding.drainEnd (ctx : Nat) : Sys2Proof.Laws.Encoding.Statement (.drainEnd ctx) := .inl rfl
theorem Sys2Proof.Laws.Encoding.clockStep (die powerMilliW tempMilliC : Nat) : Sys2Proof.Laws.Encoding.Statement (.clockStep die powerMilliW tempMilliC) := .inl rfl
theorem Sys2Proof.Laws.Encoding.thermalStop (die tempMilliC : Nat) : Sys2Proof.Laws.Encoding.Statement (.thermalStop die tempMilliC) := .inl rfl
theorem Sys2Proof.Laws.Encoding.thermalRestart (die tempMilliC : Nat) : Sys2Proof.Laws.Encoding.Statement (.thermalRestart die tempMilliC) := .inl rfl
theorem Sys2Proof.Laws.Encoding.sensorFailure (die : Nat) : Sys2Proof.Laws.Encoding.Statement (.sensorFailure die) := .inl rfl
theorem Sys2Proof.Laws.Encoding.queueWake (q : Nat) : Sys2Proof.Laws.Encoding.Statement (.queueWake q) := .inl rfl
theorem Sys2Proof.Laws.Encoding.task (q : Nat) (after : Bool) (record : W64) : Sys2Proof.Laws.Encoding.Statement (.task q after record) := .inl rfl
theorem Sys2Proof.Laws.Encoding.taskAccept (q : Nat) : Sys2Proof.Laws.Encoding.Statement (.taskAccept q) := .inl rfl
theorem Sys2Proof.Laws.Encoding.waitv (q : Nat) (after : Bool) (p : CmpPacket) (timeout : W64) : Sys2Proof.Laws.Encoding.Statement (.waitv q after p timeout) := .inl rfl
theorem Sys2Proof.Laws.Encoding.waitvSatisfied (q : Nat) : Sys2Proof.Laws.Encoding.Statement (.waitvSatisfied q) := .inl rfl
theorem Sys2Proof.Laws.Encoding.waitvTimeout (q : Nat) : Sys2Proof.Laws.Encoding.Statement (.waitvTimeout q) := .inl rfl
theorem Sys2Proof.Laws.Encoding.signal (q : Nat) (after : Bool) (addr value : W64) (set : Bool) : Sys2Proof.Laws.Encoding.Statement (.signal q after addr value set) := .inl rfl
theorem Sys2Proof.Laws.Encoding.cond (q : Nat) (after : Bool) (p : CmpPacket) (nThen nElse : Nat) : Sys2Proof.Laws.Encoding.Statement (.cond q after p nThen nElse) := .inl rfl
theorem Sys2Proof.Laws.Encoding.copy (q : Nat) (after : Bool) (p : CopyPacket) : Sys2Proof.Laws.Encoding.Statement (.copy q after p) := .inl rfl
theorem Sys2Proof.Laws.Encoding.copyTransfer (id count : Nat) : Sys2Proof.Laws.Encoding.Statement (.copyTransfer id count) := .inl rfl
theorem Sys2Proof.Laws.Encoding.copyMigrate (q : Nat) (after : Bool) (p : CopyPacket) : Sys2Proof.Laws.Encoding.Statement (.copyMigrate q after p) := .inl rfl
theorem Sys2Proof.Laws.Encoding.markTrace (q : Nat) (after : Bool) (tag : W32) (sig : W64) : Sys2Proof.Laws.Encoding.Statement (.markTrace q after tag sig) := .inl rfl
theorem Sys2Proof.Laws.Encoding.markInvalidate (q : Nat) (after : Bool) (tag : W32) (sig : W64) : Sys2Proof.Laws.Encoding.Statement (.markInvalidate q after tag sig) := .inl rfl
theorem Sys2Proof.Laws.Encoding.dependenceRead (slot dep : Nat) : Sys2Proof.Laws.Encoding.Statement (.dependenceRead slot dep) := .inl rfl
theorem Sys2Proof.Laws.Encoding.startEdge (slot : Nat) : Sys2Proof.Laws.Encoding.Statement (.startEdge slot) := .inl rfl
theorem Sys2Proof.Laws.Encoding.flushLine (slot : Nat) : Sys2Proof.Laws.Encoding.Statement (.flushLine slot) := .inl rfl
theorem Sys2Proof.Laws.Encoding.endEdgeFinish (slot : Nat) : Sys2Proof.Laws.Encoding.Statement (.endEdgeFinish slot) := .inl rfl
theorem Sys2Proof.Laws.Encoding.ctxset (session ctx : Nat) (p : CtxFields) : Sys2Proof.Laws.Encoding.Statement (.ctxset session ctx p) := .inl rfl
theorem Sys2Proof.Laws.Encoding.ctxreset (session ctx : Nat) : Sys2Proof.Laws.Encoding.Statement (.ctxreset session ctx) := .inl rfl
theorem Sys2Proof.Laws.Encoding.ctxclear (session ctx : Nat) : Sys2Proof.Laws.Encoding.Statement (.ctxclear session ctx) := .inl rfl
theorem Sys2Proof.Laws.Encoding.ctxquery (session ctx : Nat) : Sys2Proof.Laws.Encoding.Statement (.ctxquery session ctx) := .inl rfl
theorem Sys2Proof.Laws.Encoding.qmap (session q ctx : Nat) (p : QueueFields) : Sys2Proof.Laws.Encoding.Statement (.qmap session q ctx p) := .inl rfl
theorem Sys2Proof.Laws.Encoding.qunmap (session q : Nat) : Sys2Proof.Laws.Encoding.Statement (.qunmap session q) := .inl rfl
theorem Sys2Proof.Laws.Encoding.qresume (session q : Nat) (skip : Bool) : Sys2Proof.Laws.Encoding.Statement (.qresume session q skip) := .inl rfl
theorem Sys2Proof.Laws.Encoding.keyset (session : Nat) (key : W32) (entry : Option KeyEntry) : Sys2Proof.Laws.Encoding.Statement (.keyset session key entry) := .inl rfl
theorem Sys2Proof.Laws.Encoding.winset (session window : Nat) (entry : Option WindowEntry) : Sys2Proof.Laws.Encoding.Statement (.winset session window entry) := .inl rfl
theorem Sys2Proof.Laws.Encoding.secset (session : Nat) (ranges : List SecRange) (cores : LaneMask) : Sys2Proof.Laws.Encoding.Statement (.secset session ranges cores) := .inl rfl
theorem Sys2Proof.Laws.Encoding.telset (session k ctx : Nat) (ring : W64) (mods : Bool) : Sys2Proof.Laws.Encoding.Statement (.telset session k ctx ring mods) := .inl rfl
theorem Sys2Proof.Laws.Encoding.traceset (session ctx die : Nat) (ring : W64) (en : BitVec 4) (s : Nat) : Sys2Proof.Laws.Encoding.Statement (.traceset session ctx die ring en s) := .inl rfl
theorem Sys2Proof.Laws.Encoding.dbgattach (session ctx : Nat) : Sys2Proof.Laws.Encoding.Statement (.dbgattach session ctx) := .inl rfl
theorem Sys2Proof.Laws.Encoding.dbgdetach (session ctx : Nat) : Sys2Proof.Laws.Encoding.Statement (.dbgdetach session ctx) := .inl rfl
theorem Sys2Proof.Laws.Encoding.dbgset (session ctx : Nat) (item : DebugItem) (value : W64) : Sys2Proof.Laws.Encoding.Statement (.dbgset session ctx item value) := .inl rfl
theorem Sys2Proof.Laws.Encoding.gstate (session ctx : Nat) (g : GangRef) (item : GangItem) : Sys2Proof.Laws.Encoding.Statement (.gstate session ctx g item) := .inl rfl
theorem Sys2Proof.Laws.Encoding.gset (session ctx : Nat) (g : GangRef) (item : GangItem) (value : W64) : Sys2Proof.Laws.Encoding.Statement (.gset session ctx g item value) := .inl rfl
theorem Sys2Proof.Laws.Encoding.grelease (session ctx : Nat) (g : GangRef) (step : Bool) : Sys2Proof.Laws.Encoding.Statement (.grelease session ctx g step) := .inl rfl
theorem Sys2Proof.Laws.Encoding.dump (session ctx : Nat) (area : W64) (hold : Bool) : Sys2Proof.Laws.Encoding.Statement (.dump session ctx area hold) := .inl rfl
theorem Sys2Proof.Laws.Encoding.dumpDieCut (ctx die : Nat) : Sys2Proof.Laws.Encoding.Statement (.dumpDieCut ctx die) := .inl rfl
theorem Sys2Proof.Laws.Encoding.logread (session n : Nat) : Sys2Proof.Laws.Encoding.Statement (.logread session n) := .inl rfl
theorem Sys2Proof.Laws.Encoding.sessionOpen (session ownerKey : Nat) (challengeSig : List Byte) (hello : HostHello) : Sys2Proof.Laws.Encoding.Statement (.sessionOpen session ownerKey challengeSig hello) := .inl rfl
theorem Sys2Proof.Laws.Encoding.slotwrite (session : Nat) (slotB : Bool) (offset : Nat) (bytes : List Byte) : Sys2Proof.Laws.Encoding.Statement (.slotwrite session slotB offset bytes) := .inl rfl
theorem Sys2Proof.Laws.Encoding.activate (session : Nat) (slotB force : Bool) : Sys2Proof.Laws.Encoding.Statement (.activate session slotB force) := .inl rfl
theorem Sys2Proof.Laws.Encoding.commit (session : Nat) : Sys2Proof.Laws.Encoding.Statement (.commit session) := .inl rfl
theorem Sys2Proof.Laws.Encoding.reset (session : Nat) : Sys2Proof.Laws.Encoding.Statement (.reset session) := .inl rfl
theorem Sys2Proof.Laws.Encoding.ident (session : Nat) : Sys2Proof.Laws.Encoding.Statement (.ident session) := .inl rfl
theorem Sys2Proof.Laws.Encoding.status (session : Nat) : Sys2Proof.Laws.Encoding.Statement (.status session) := .inl rfl
theorem Sys2Proof.Laws.Encoding.attest (session : Nat) (nonce : List Byte) : Sys2Proof.Laws.Encoding.Statement (.attest session nonce) := .inl rfl
theorem Sys2Proof.Laws.Encoding.cfgwrite (session : Nat) (copy1 : Bool) (bytes : List Byte) : Sys2Proof.Laws.Encoding.Statement (.cfgwrite session copy1 bytes) := .inl rfl
theorem Sys2Proof.Laws.Encoding.ckptLocal (session : Nat) : Sys2Proof.Laws.Encoding.Statement (.ckptLocal session) := .inl rfl
theorem Sys2Proof.Laws.Encoding.ckptRemote (session : Nat) (targets : List CkptTarget) : Sys2Proof.Laws.Encoding.Statement (.ckptRemote session targets) := .inl rfl
theorem Sys2Proof.Laws.Encoding.ckptChunkResponse (ok : Bool) : Sys2Proof.Laws.Encoding.Statement (.ckptChunkResponse ok) := .inl rfl
theorem Sys2Proof.Laws.Encoding.ckrestoreLocal (session : Nat) : Sys2Proof.Laws.Encoding.Statement (.ckrestoreLocal session) := .inl rfl
theorem Sys2Proof.Laws.Encoding.ckrestoreRemote (session : Nat) (targets : List CkptTarget) : Sys2Proof.Laws.Encoding.Statement (.ckrestoreRemote session targets) := .inl rfl
theorem Sys2Proof.Laws.Encoding.undefinedEncoding (w : W96) : Sys2Proof.Laws.Encoding.Statement (.undefinedEncoding w) := .inr ⟨w, rfl⟩
theorem Sys2Proof.Laws.Encoding.linkRetrain : Sys2Proof.Laws.Encoding.Statement (.linkRetrain) := .inl rfl
theorem Sys2Proof.Laws.Encoding.contextAdmit : Sys2Proof.Laws.Encoding.Statement (.contextAdmit) := .inl rfl
theorem Sys2Proof.Laws.Encoding.powerLoss : Sys2Proof.Laws.Encoding.Statement (.powerLoss) := .inl rfl
theorem Sys2Proof.Laws.Encoding.moduleReset : Sys2Proof.Laws.Encoding.Statement (.moduleReset) := .inl rfl
theorem Sys2Proof.Laws.Encoding.activateSwitch : Sys2Proof.Laws.Encoding.Statement (.activateSwitch) := .inl rfl
end

