-- ==== Sys2Proof/Tests/Slice0.lean ====
section
/-! SUPPORT. Tests of the model, and for every statement that has hypotheses a witness that meets them. -/

namespace Sys2Proof.Tests

open Sys2Proof Sys2Proof.Machine

set_option Elab.async false

/-! ### Instructions and states for tests -/

/-- The fields of a form under P7, without hints. -/
def fl (d a b : W12) (imm : Nat) (mod : Nat) : Fields :=
  ⟨false, 7#3, d, a, b, BitVec.ofNat 32 imm, false, false, false, false, false, false, 0#2, BitVec.ofNat 6 mod⟩

/-- A view descriptor from its fields (R43). -/
def view (kind fmt base rows cols nidx : Nat) : W64 :=
  w64 (kind + 16 * fmt + 512 * base + 2 ^ 20 * rows + 2 ^ 28 * cols + 2 ^ 36 * nidx)

/-- The W registers of the test gang: three DIR views of 128 components, a BF16 tile of 8 rows and 16 columns, a scaled tile of that
shape, an accumulator; the views of a 16 × 16 × 16 matrix operation. -/
def tViews : KMap W64 :=
  [(3, view 3 8 40 1 8 3), (4, view 3 8 42 1 8 4), (5, view 3 8 44 1 8 5), (6, view 1 2 46 8 16 0), (7, view 1 5 48 8 16 0),
   (8, view 2 0 52 8 8 0), (10, view 1 2 8 16 16 0), (11, view 1 2 12 16 16 0), (12, view 2 0 16 16 16 0)]

/-- The record of the test task: one gang of 16 lanes that may read and write 48 KiB at 0x10000, and read the page at 0x1C000. -/
def tRecord : TaskRec :=
  { hostRecord with
    privw := 8, privBase := 0x1F000#64, hndoff := 0x800
    regions := [{ base := 0x10000, extent := 0xC000, read := true, write := true, concurrent := true, stash := true, forward := false, fwddie := 0 },
                { base := 0x1C000, extent := 0x1000, read := true, write := false, concurrent := false, stash := false, forward := false, fwddie := 0 }] }

/-- The test gang: V1 holds addresses, V2 small numbers, V3 binary32 values near 1, S0 to S19 addresses, offsets and counts, P0 the low eight lanes. -/
def tGang : Gang :=
  { newGang tRecord 0 0 0 0 126 with
    v := ((List.range 16).map fun l => (16 + l, w64 (0x10000 + 8 * l))) ++ ((List.range 16).map fun l => (32 + l, w64 (l + 1))) ++
      ((List.range 16).map fun l => (48 + l, w64 (0x3F8000003F800000 + l)))
    s := [(0, 0x10000#64), (1, 5#64), (2, 0x10100#64), (3, 0x10200#64), (4, 0x10280#64), (5, 0x10300#64), (6, 1#64), (7, 0x1180#64),
          (8, 0x8000000000#64), (9, 0x100000000#64), (10, 0x7FC00000#64), (11, 0x40#64), (12, 0x80#64), (13, 0xC0#64), (14, 0x100#64),
          (15, 0x11000#64), (16, 0x140#64), (17, 0xFFF8#64), (18, 0x10000000000000#64), (19, 0x1C000#64)]
    p := [(0, 0xFF#64)]
    w := tViews }

/-- A page of data, readable and writable, in the translation cache of core 0. -/
def tLeaf : TlbEntry := { core := 0, ctx := 0, vpage := 16, pages := 16, leaf := 0x1000F#64 }

/-- Bytes of memory from 64-bit words at their addresses, as a canonical list. -/
def memOf (ws : List (Nat × W64)) : List Host.Cell :=
  ws.foldl (fun m e => (leBytes 8 e.2.toNat).foldl (fun (q : List Host.Cell × Nat) b => (KMap.set q.1 memDefault q.2 b, q.2 + 1)) (m, e.1) |>.1) []

/-- Bytes from 64-bit words at their offsets. -/
def bytesOf (ws : List (Nat × W64)) : KMap Byte :=
  ws.foldl (fun m e => (leBytes 8 e.2.toNat).foldl (fun (q : KMap Byte × Nat) b => (KMap.set q.1 0#8 q.2 b, q.2 + 1)) (m, e.1) |>.1) []

/-- The scratchpad of the test team: an MXOP block at 0x40, descriptors of CPY at 0x80, CPYM at 0xC0, GATHER at 0x100, SCATA at 0x140. -/
def tScratch : KMap Byte :=
  bytesOf [(0x40, 0x000C0B0A#64), (0x48, 0x0000001000100010#64), (0x80, 0x10400#64), (0x88, 0x10500#64), (0x98, 4#64), (0xC0, 0x10400#64),
           (0xC8, 0x10500#64), (0xD8, 4#64), (0xE0, 2#64), (0xE8, 16#64), (0xF0, 32#64), (0x100, 0x10400#64), (0x108, 0x10500#64),
           (0x110, 0x10600#64), (0x118, 4#64), (0x138, 0x20#64), (0x140, 0x10400#64), (0x148, 0x10500#64), (0x150, 0x10600#64),
           (0x158, 4#64), (0x178, 0x20#64)]

/-- Tables for the agents of the test context: the root at 0x20000 and leaves for the pages at 0x10000 and 0x11000. -/
def tTables : List (Nat × W64) :=
  [(0x20000, 0x21001#64), (0x21000, 0x22001#64), (0x22000, 0x23001#64), (0x23080, 0x1000F#64), (0x23088, 0x1100F#64)]

/-- The state in which tests issue an instruction: the placed gang, with the test gang's registers and its task's record. -/
def tState : State :=
  let s := placeWord State.reset 0#96
  { s with
    cur := some ⟨0, 0, 0⟩
    gangs := [(0, tGang)]
    tasks := s.tasks.map fun e => (e.1, { e.2 with rec_ := tRecord, classes := [(16, .priv 0), (28, .readOnly), (31, .priv 0)] })
    teams := s.teams.map fun e => (e.1, { e.2 with halves := [⟨0, [(0, 0)], [(0, 1)], tScratch, [], []⟩] })
    ctxs := s.ctxs.map fun e => (e.1, { e.2 with m := { e.2.m with troot := 0x20000#64 } })
    mem := memOf tTables
    tlb := s.tlb ++ [tLeaf] }

/-- The issue of a form by the current gang. -/
def issue? (i : Instr) (s : State) : Option (Gang × Iss) :=
  match s.cur with
  | none => none
  | some ref => match s.gang? ref, s.who ref, i.form with
    | some g, some who, some (m, f) => match s.task? who.slot, g.chooseSet with
      | some task, some (pc, set) =>
        let active := activeOf (g.seen set) f set
        some (g, ⟨ref, (g.seen set).holding (holdOf m f active), who, task, i, m, f, pc, set, active⟩)
      | _, _ => none
    | _, _, _ => none

/-- What Ready and Idle ask alike. -/
def passes (i : Instr) (g : Gang) (x : Iss) : Bool :=
  let q := g.seen x.set
  !badWord i x.m x.f q && operandsOk i x.m x.f g.regs && !badViews i x.f q && (lentTouched i x.m x.f q).isNone &&
  !viewParity i x.f q && (x.f.gp.toNat == 7 || !q.regParity (opndP x.f.gp.toNat)) && !guardEmpty q x.f x.set

/-- Nothing stands between the issue and its own effect. -/
def clear (i : Instr) (s : State) (g : Gang) (x : Iss) : Bool :=
  let q := g.seen x.set
  passes i g x && x.active != 0#64 && !sourceParity i x.m x.f q && !emptySource i x.m x.f q x.active false &&
  !emptySource i x.m x.f q x.active true && (poisonTrap i x.m x.f q x.active).isNone && !correctable i x.m x.f q x.active &&
  !emptyDest i x.m x.f q x.active && !((viewUses i x.f).any fun v => v.dst && !q.viewReady (g.wReg v.w)) &&
  !heldByMxop s x.ref i x.m x.f q && breakLanes s x == 0#64

/-- The form issues in s, and p holds of the gang and the issue. -/
def meets (i : Instr) (s : State) (p : Gang → Iss → Bool) : Bool :=
  match issue? i s with
  | some (g, x) => clear i s g x && p g x
  | none => false

/-- The form issues in s without an Active lane. -/
def idles (i : Instr) (s : State) : Bool :=
  match issue? i s with
  | some (g, x) => passes i g x && x.active == 0#64
  | none => false

/-- The parties of an issue are those of the current gang. -/
theorem issue?_some {i : Instr} {s : State} {g : Gang} {x : Iss} (h : issue? i s = some (g, x)) :
    s.cur = some x.ref ∧ s.gang? x.ref = some g ∧ s.who x.ref = some x.who ∧ s.task? x.who.slot = some x.task ∧ x.i = i ∧
      i.form = some (x.m, x.f) ∧ g.chooseSet = some (x.pc, x.set) ∧ x.g = (g.seen x.set).holding (holdOf x.m x.f x.active) ∧
      x.active = activeOf x.g x.f x.set := by
  unfold issue? at h
  split at h
  · cases h
  · split at h
    · split at h
      · cases h
        exact ⟨‹_›, ‹_›, ‹_›, ‹_›, rfl, ‹_›, ‹_›, rfl, rfl⟩
      · cases h
    · cases h

/-- A form that meets p is ready. -/
theorem ready_of_meets {i : Instr} {s : State} {p : Gang → Iss → Bool} (h : meets i s p = true) :
    ∃ g x, Ready i s g x ∧ p g x = true := by
  unfold meets at h
  split at h
  · rename_i g x hx
    obtain ⟨h1, h2, h3, h4, h5, h6, h7, h8, h9⟩ := issue?_some hx
    simp only [clear, passes, Bool.and_eq_true, Bool.not_eq_true', Bool.or_eq_true, beq_iff_eq, bne_iff_ne, ne_eq,
      Option.isNone_iff_eq_none] at h
    obtain ⟨⟨⟨⟨⟨⟨⟨⟨⟨⟨⟨⟨⟨⟨⟨⟨⟨a1, a2⟩, a3⟩, a4⟩, a5⟩, a6⟩, a7⟩, b1⟩, b2⟩, b3⟩, b4⟩, b5⟩, b6⟩, b7⟩, b8⟩, b9⟩, b10⟩, hp⟩ := h
    exact ⟨g, x, ⟨h1, h2, h3, h4, h5, h6, h7, h8, h9, b1, a1, a2, a3, a4, a5, a6, b2, a7,
      fun hint => by cases hint <;> assumption, b5, b6, b7, b8, b9, b10⟩, hp⟩
  · cases h

/-- A form without an Active lane is idle. -/
theorem idle_of_idles {i : Instr} {s : State} (h : idles i s = true) : ∃ g x, Idle i s g x := by
  unfold idles at h
  split at h
  · rename_i g x hx
    obtain ⟨h1, h2, h3, h4, h5, h6, h7, h8, h9⟩ := issue?_some hx
    simp only [passes, Bool.and_eq_true, Bool.not_eq_true', Bool.or_eq_true, beq_iff_eq, Option.isNone_iff_eq_none] at h
    obtain ⟨⟨⟨⟨⟨⟨⟨a1, a2⟩, a3⟩, a4⟩, a5⟩, a6⟩, a7⟩, b1⟩ := h
    exact ⟨g, x, ⟨h1, h2, h3, h4, h5, h6, h7, h8, h9, b1, a1, a2, a3, a4, a5, a6, a7⟩⟩
  · cases h

/-- Every form of a list is ready, with p of it. -/
theorem ready_all {l : List Instr} {s : State} {p : Gang → Iss → Bool} (h : (l.all fun i => meets i s p) = true) :
    ∀ i ∈ l, ∃ g x, Ready i s g x ∧ p g x = true := fun i hi => ready_of_meets (List.all_eq_true.mp h i hi)

/-- A ready form of which C holds. -/
theorem ready_dec {i : Instr} {s : State} (C : Gang → Iss → Prop) [∀ g x, Decidable (C g x)]
    (h : meets i s (fun g x => decide (C g x)) = true) : ∃ g x, Ready i s g x ∧ C g x := by
  obtain ⟨g, x, hr, hp⟩ := ready_of_meets h
  exact ⟨g, x, hr, of_decide_eq_true hp⟩

/-- Ready forms of which C holds. -/
theorem ready_dec_all {l : List Instr} {s : State} (C : Gang → Iss → Prop) [∀ g x, Decidable (C g x)]
    (h : (l.all fun i => meets i s (fun g x => decide (C g x))) = true) : ∀ i ∈ l, ∃ g x, Ready i s g x ∧ C g x :=
  fun i hi => ready_dec C (List.all_eq_true.mp h i hi)

/-- A form that is ready. -/
theorem ready_one {i : Instr} {s : State} (h : meets i s (fun _ _ => true) = true) : ∃ g x, Ready i s g x :=
  let ⟨g, x, hr, _⟩ := ready_of_meets h; ⟨g, x, hr⟩

/-- Forms that are ready. -/
theorem ready_list {l : List Instr} {s : State} (h : (l.all fun i => meets i s fun _ _ => true) = true) : ∀ i ∈ l, ∃ g x, Ready i s g x :=
  fun i hi => let ⟨g, x, hr, _⟩ := ready_of_meets (List.all_eq_true.mp h i hi); ⟨g, x, hr⟩

/-- A lane that the issue has is one of its lanes. -/
theorem mem_lanes {x : Iss} {l : Nat} (h : x.has l) : l ∈ x.lanes := by
  unfold Iss.has at h
  have hl : l < 64 := by
    by_contra hc
    simp [BitVec.getLsbD_of_ge _ _ (by omega : 64 ≤ l)] at h
  simp [Iss.lanes, lanesOf, h, hl]

/-- The test state with its gang changed. -/
def withGang (h : Gang → Gang) : State := { tState with gangs := [(0, h tGang)] }
/-- The test state with its task's record changed. -/
def withRec (h : TaskRec → TaskRec) : State := { tState with tasks := tState.tasks.map fun e => (e.1, { e.2 with rec_ := h e.2.rec_ }) }
/-- The test state with its team changed. -/
def withTeam (h : Team → Team) : State := { tState with teams := tState.teams.map fun e => (e.1, h e.2) }
/-- The test state with words of memory. -/
def withMem (ws : List (Nat × W64)) : State := { tState with mem := memOf (ws ++ tTables) }
/-- The state after an instruction, where it gives one. -/
def after (i : Instr) (s : State) : State :=
  match exec i s with
  | .next t => t
  | _ => s


/-! ### Forms that issue in the test state -/

/-- Integer arithmetic, its variants and types: sources in V, S, P and IMM, D in V and S. -/
def intForms : List Instr :=
  [.iadd (fl 4 1 2 0 3), .iadd (fl 0x610 1 0x679 7 0x10), .isub (fl 4 1 2 0 0x14), .imul (fl 4 1 2 0 6), .imulh (fl 4 1 2 0 2),
   .imad (fl 4 1 2 2 0), .imin (fl 4 1 2 0 5), .imax (fl 4 1 0x67A 0 1), .iabs (fl 4 1 0 0 0x10), .ineg (fl 4 2 0 0 2)]
/-- The divisions: a divisor of S1, which holds 5. -/
def divForms : List Instr := [.idiv (fl 4 1 0x601 0 2), .irem (fl 4 1 2 0 3)]
/-- Comparison, selection, carry, address and moves. -/
def moveForms : List Instr :=
  [.icmp (fl 0x641 1 2 3 0x10), .isel (fl 4 1 2 0x640 3), .lea (fl 4 1 2 7 3), .mov (fl 4 0x67B 0 0 3), .movi (fl 4 0 0 5 3),
   .movi (fl 4 0 0 5 0x13), .idot4 (fl 4 1 2 2 6), .iaddc (fl 4 1 2 0x641 3)]
/-- Bits. -/
def bitForms : List Instr :=
  [.and (fl 4 1 2 0 3), .or (fl 4 1 2 0 3), .xor (fl 4 1 2 0 3), .not (fl 4 1 0 0 3), .andn (fl 4 1 2 0 3), .shl (fl 4 1 2 0 5),
   .shr (fl 4 1 2 0 3), .sar (fl 4 1 2 0 6), .rot (fl 4 1 2 0 1), .popc (fl 4 1 0 0 3), .clz (fl 4 1 0 0 3), .ctz (fl 4 1 0 0 7),
   .brev (fl 4 1 0 0 3), .bfx (fl 4 1 0 (3 + 64 * 5) 2), .bfi (fl 4 1 2 (63 + 64 * 1) 3), .lop3 (fl 4 1 2 0xCA 3)]
/-- The floating forms of FpSpec, in their formats and rounding variants. -/
def fpForms : List Instr :=
  [.fadd (fl 4 3 3 0 8), .fsub (fl 4 3 3 0 0x1B), .fmul (fl 4 3 3 0 0x29), .ffma (fl 4 3 3 3 8), .fmin (fl 4 3 3 0 0x1A), .fmax (fl 4 3 3 0 9),
   .fscale (fl 4 3 2 0 8), .fround (fl 4 3 0 0 0x38), .fdot2 (fl 4 3 3 3 0xB), .frcp (fl 4 3 0 0 8), .fdiv (fl 4 3 3 0 9), .fsqrt (fl 4 3 0 0 8),
   .frsq (fl 4 3 0 0 8), .fexp2 (fl 4 3 0 0 8), .flog2 (fl 4 3 0 0 8), .fsin (fl 4 3 0 0 8), .fcos (fl 4 3 0 0 8), .ftanh (fl 4 3 0 0 8),
   .cvt (fl 4 3 0 0x18 0xA)]
/-- The floating forms that work on bits. -/
def fpBitForms : List Instr := [.fabs (fl 4 3 0 0 8), .fneg (fl 4 3 0 0 9), .fsel (fl 4 3 2 3 8), .fclass (fl 4 3 0 0 0xA)]
/-- Forms with no effect but their PCs; branches, with and without U; predicates. -/
def quietForms : List Instr := [.nop (fl 0 0 0 0 0), .yield (fl 0 0 0 0 0), .barw (fl 0 0 0 15 0)]
def jumpForms : List Instr := [.bra (fl 0 0 0 3 0), .call (fl 0x61E 0 0 0xFFFFFFFF 0), .bri (fl 0 0x607 0 0 0), .ret (fl 0 0x607 0 0 0), .calli (fl 4 0x607 0 0 0)]
/-- A form with U. -/
def uni (f : Fields) : Fields := { f with u := true }
/-- Cross-lane forms. -/
def laneForms : List Instr :=
  [.shfl (fl 4 1 0x679 15 0x03), .shfl (fl 4 1 2 0 0x18), .shfl (fl 4 1 0x679 4 0x28), .shfl (fl 4 1 2 0 0x33), .bcast (fl 4 1 0 15 3), .bcast (fl 4 1 0 0 0x13),
   .swz (fl 4 1 0 0x53977 7)]
def packForms : List Instr := [.pack (fl 4 1 2 0 0x11), .unpack (fl 4 1 0 0 7)]
def packForms64 : List Instr := [.pack (fl 4 1 2 0 0x13), .unpack (fl 4 1 0 0 2)]
def reduceForms : List Instr := [.reda (fl 0x604 1 0 0 0x10), .redm (fl 4 1 0 0 6), .scan (fl 4 1 0 0 0x15)]
def fpReduceForms : List Instr := [.reda (fl 0x604 3 0 0 8), .redm (fl 4 3 0 0 0x1B), .scan (fl 4 3 0 0 9)]
def matchForms : List Instr := [.matchLanes (fl 4 1 0 0 3), .matchLanes (fl 4 1 0 0 0x13), .matchLanes (fl 4 1 0 0 0x23), .matchLanes (fl 4 1 0 0 0x33)]
def convForms : List Instr := [.sxpack (fl 0x65F 0x65E 0 0 0), .sxunp (fl 0x65E 0x65F 0 0 0), .tcvt (fl 0x65F 0x65E 0 0 0)]
def dirForms : List Instr :=
  [.dvmk (fl 0x65D 0x65E 0 0 0), .dvscl (fl 0x65D 0x65B 0x601 0 1), .dvadd (fl 0x65D 0x65B 0x65C 0 0), .dvaxpy (fl 0x65D 0x65B 0x65C 0x601 0),
   .dvneg (fl 0x65D 0x65B 0 0 0), .dvren (fl 0x65D 0x65B 0 0 0), .dvproj (fl 0x65D 0x65B 0x65C 0 0), .dvmul (fl 0x65D 0x65B 0x65C 0 0),
   .dvsetn (fl 0x65D 0x601 0 0 0)]
def viewForms : List Instr :=
  [.tvset (fl 0x66F 0x601 0 0 0), .tokgive (fl 0 0x660 0 0 0), .toktake (fl 0 0x660 0 0 0), .tzero (fl 0x65E 0 0 0 0),
   .mxwait (fl 0 0 0 0x100 0)]
def chainForms : List Instr := [.chinv (fl 0 0 0 0 1), .chqry (fl 4 0 0 0 1), .chrun (fl 4 1 2 2 1)]
def memForms : List Instr :=
  [.ld (fl 4 1 0 8 3), .st (fl 0 1 2 8 3), .lds (fl 4 2 0 0 0x16), .sts (fl 0 2 2 0 0x16), .ldp (fl 4 0x606 0 0 2), .stp (fl 0 0x606 2 0 2),
   .dvld (fl 0x65D 0x600 0 0 0), .dvst (fl 0 0x600 0x65B 0 0), .atom (fl 4 1 2 0 3), .acas (fl 4 1 2 2 3), .atoms (fl 4 0x600 2 0 3),
   .rowadd (fl 0 0x600 0x65E 0x601 0), .rowld (fl 0x643 0x600 0x65E 0x602 0)]

/-! ### Witnesses: arithmetic, bits, floating point -/

/-- Every divisor of the issue is nonzero. -/
theorem witness_IntArithmetic : (∀ i ∈ intForms, ∃ g x, Ready i tState g x) ∧
    (∀ i ∈ divForms, ∃ g x, Ready i tState g x ∧
      ∀ l j, x.has l → j < 64 / typeWidth x.f.tcode → elt x.f.tcode (x.b l) j ≠ 0) := by
  refine ⟨ready_list (by decide +kernel), fun i hi => ?_⟩
  obtain ⟨g, x, hr, h⟩ := ready_dec_all
    (fun _ x => (x.lanes.all fun l => (List.range (64 / typeWidth x.f.tcode)).all fun j => elt x.f.tcode (x.b l) j != 0) = true)
    (l := divForms) (s := tState) (by decide +kernel) i hi
  refine ⟨g, x, hr, fun l j hl hj => ?_⟩
  simpa using List.all_eq_true.mp (List.all_eq_true.mp h l (mem_lanes hl)) j (List.mem_range.mpr hj)

/-- Divisors of 0 in every lane, and in lane 7 alone (V2 − 8 there). -/
theorem witness_DivideByZero : ∀ i ∈ [Instr.idiv (fl 4 1 0x678 0 2), .irem (fl 4 1 0x67A 0 0)],
    ∃ g x, Ready i tState g x ∧ ∃ l j, x.has l ∧ j < 64 / typeWidth x.f.tcode ∧ elt x.f.tcode (x.b l) j = 0 := by
  intro i hi
  obtain ⟨g, x, hr, h⟩ := ready_dec_all (fun _ x => x.active.getLsbD 0 = true ∧ 0 < 64 / typeWidth x.f.tcode ∧ elt x.f.tcode (x.b 0) 0 = 0)
    (l := [Instr.idiv (fl 4 1 0x678 0 2), .irem (fl 4 1 0x67A 0 0)]) (s := tState) (by decide +kernel) i hi
  exact ⟨g, x, hr, 0, 0, h⟩

theorem witness_IntMoves : ∀ i ∈ moveForms, ∃ g x, Ready i tState g x := ready_list (by decide +kernel)
theorem witness_BitOperations : ∀ i ∈ bitForms, ∃ g x, Ready i tState g x := ready_list (by decide +kernel)

/-- No flag is enabled, so none that is raised is. -/
theorem witness_FpResults : ∀ i ∈ fpForms, ∃ g x p, fpSpec x = some p ∧ Ready i tState g x ∧ p.flags x &&& fpEnables x.g.fpctl = 0#5 := by
  intro i hi
  obtain ⟨g, x, hr, h⟩ := ready_dec_all (fun _ x => (fpSpec x).isSome = true ∧ fpEnables x.g.fpctl = 0#5)
    (l := fpForms) (s := tState) (by decide +kernel) i hi
  obtain ⟨p, hp⟩ := Option.isSome_iff_exists.mp h.1
  exact ⟨g, x, p, hp, hr, by rw [h.2]; simp⟩

/-- Every flag enabled. -/
def allEnabled : State := withGang fun g => { g with fpctl := 0x1F00#32 }

/-- Tiles of I32 and of I8, the I32 one full of values beyond I8. -/
def intTiles (g : Gang) : Gang :=
  { g with v := g.v ++ [(24 * 16, 0x100#64)], w := g.w ++ [(17, view 1 4 24 8 16 0), (18, view 1 3 28 8 16 0)] }
/-- Every flag enabled, those tiles, and a signaling NaN in S10. -/
def wholeState : State := withGang fun g => intTiles { g with fpctl := 0x1F00#32, s := KMap.put g.s 10 0x7F800001#64 }

/-- An inexact product, a division by 0, and a conversion to fewer bits raise an enabled flag. -/
theorem witness_FpTraps : ∀ i ∈ [Instr.fmul (fl 4 3 3 0 8), .fdiv (fl 4 3 0x678 0 8), .cvt (fl 4 3 0 0x18 0xA)], ∃ g x p,
    fpSpec x = some p ∧ Ready i allEnabled g x ∧ p.flags x &&& fpEnables x.g.fpctl ≠ 0#5 := by
  intro i hi
  obtain ⟨g, x, hr, h⟩ := ready_dec_all (fun _ x => ((fpSpec x).any fun p => p.flags x &&& fpEnables x.g.fpctl != 0#5) = true)
    (l := [Instr.fmul (fl 4 3 3 0 8), .fdiv (fl 4 3 0x678 0 8), .cvt (fl 4 3 0 0x18 0xA)]) (s := allEnabled) (by decide +kernel) i hi
  obtain ⟨p, hp, hne⟩ := (Option.any_eq_true _ _).mp h
  exact ⟨g, x, p, hp, hr, by simpa using hne⟩

/-- FCMP with a NaN in an ordered comparison; forms that raise flags as a whole: a sum, a minimum, a scan, DIR forms. -/
theorem witness_FpTraps_whole :
    (∃ g x, Ready (.fcmp (fl 0x640 3 0x60A 2 8)) allEnabled g x ∧
      x.lanes.foldl (fun fl l => fl ||| (List.range (if x.f.variant = 2 then 1 else 64 / typeWidth x.f.tcode)).foldl (fun fl j =>
        fl ||| (fcmpElem (x.f.imm.toNat % 8) ((fmtOf x.f.tcode).fpIn x.ftz (subElem (x.a l) (typeWidth x.f.tcode) j))
          ((fmtOf x.f.tcode).fpIn x.ftz (subElem (x.b l) (typeWidth x.f.tcode) j))).2) 0#5) 0#5 &&& fpEnables x.g.fpctl ≠ 0#5) ∧
    ∀ i ∈ [Instr.reda (fl 0x604 3 0 0 8), .redm (fl 4 0x60A 0 0 8), .scan (fl 4 3 0 0 8), .dvsetn (fl 0x65D 0x60A 0 0 1),
        .dvscl (fl 0x65D 0x65B 0x60A 0 1), .dvcmp (fl 0x641 0x65B 0x65C 0x60A 1)],
      ∃ g x, Ready i wholeState g x ∧ ((wholeFlags x).any fun fl => fl &&& fpEnables x.g.fpctl != 0#5) = true :=
  ⟨ready_dec (fun _ x => x.lanes.foldl (fun fl l => fl ||| (List.range (if x.f.variant = 2 then 1 else 64 / typeWidth x.f.tcode)).foldl (fun fl j =>
        fl ||| (fcmpElem (x.f.imm.toNat % 8) ((fmtOf x.f.tcode).fpIn x.ftz (subElem (x.a l) (typeWidth x.f.tcode) j))
          ((fmtOf x.f.tcode).fpIn x.ftz (subElem (x.b l) (typeWidth x.f.tcode) j))).2) 0#5) 0#5 &&& fpEnables x.g.fpctl ≠ 0#5) (by decide +kernel),
   ready_dec_all (fun _ x => ((wholeFlags x).any fun fl => fl &&& fpEnables x.g.fpctl != 0#5) = true) (by decide +kernel)⟩

theorem witness_FpBits : (∀ i ∈ fpBitForms, ∃ g x, Ready i tState g x) ∧
    ∀ i ∈ [Instr.fcmp (fl 0x640 3 2 3 8), .fcmp (fl 0x641 3 2 0 0x29)], ∃ g x, Ready i tState g x ∧ fpEnables x.g.fpctl = 0#5 :=
  ⟨ready_list (by decide +kernel), ready_dec_all (fun _ x => fpEnables x.g.fpctl = 0#5) (by decide +kernel)⟩

/-- Magnitudes at the smallest subnormal, below it, and at the greatest finite value of binary16, that round without overflow. -/
theorem witness_Rounding : ∀ e ∈ ([(1, -24), (1, -26), (2047, 5), (0x123456789, -20)] : List (Nat × Int)), e.1 ≠ 0 ∧
    let q : Int := max ((Nat.log2 e.1 : Int) + e.2 - f16.fbits) (f16.emin - f16.fbits)
    let k : Nat := (roundTo 0 false e.1 e.2 q false).1
    (k = 0 ∨ (Nat.log2 k : Int) + q ≤ f16.bias) := by decide +kernel

/-! ### Witnesses: control flow and predicates -/

theorem witness_NoEffect : ∀ i ∈ quietForms, ∃ g x, Ready i tState g x ∧ arrived tState x (x.f.imm.toNat % 16) = false :=
  ready_dec_all (fun _ x => arrived tState x (x.f.imm.toNat % 16) = false) (by decide +kernel)

/-- The test state with one lane in P0, and PFCH of that lane in its variant. -/
def onePred : State := withGang fun g => { g with p := [(0, 1#64)] }
def pfch1 (v : Nat) : Instr := .pfch { fl 0 1 0 0 (16 * v) with gp := 0#3 }
/-- A prefetch of one lane that is not dropped, into the L1 and into the die-level cache. -/
theorem witness_NoEffect_pfch : l1Ok onePred.l1 ∧
    (∃ g x, Ready (pfch1 0) onePred g x ∧ x.f.variant = 0 ∧ x.lanes = [x.low] ∧ (prefetchPlace (x.start onePred) x x.low).1.isSome = true) ∧
    ∃ g x, Ready (pfch1 1) onePred g x ∧ x.f.variant ≠ 0 ∧ x.lanes = [x.low] ∧ (prefetchPlace (x.start onePred) x x.low).1.isSome = true :=
  ⟨by simp [l1Ok, onePred, withGang, tState, placeWord, State.reset],
   ready_dec (fun _ x => x.f.variant = 0 ∧ x.lanes = [x.low] ∧ (prefetchPlace (x.start onePred) x x.low).1.isSome = true) (by decide +kernel),
   ready_dec (fun _ x => x.f.variant ≠ 0 ∧ x.lanes = [x.low] ∧ (prefetchPlace (x.start onePred) x x.low).1.isSome = true) (by decide +kernel)⟩
/-- EXIT of the low eight lanes outside a handler; in a handler of which they are all the lanes, and of which they are not. -/
def handling (m : W64) : State := withGang fun g => { g with inh := true, tmask := m, held := 0xFFFF#64 &&& ~~~m }
theorem witness_ExitEnds : (∃ g x, Ready (.exit { fl 0 0 0 0 0 with gp := 0#3 }) tState g x ∧ g.inh = false) ∧
    ∀ e ∈ [(0xFF#64, true), (0x1FF#64, false)], ∃ g x, Ready (.exit { fl 0 0 0 0 0 with gp := 0#3 }) (handling e.1) g x ∧ g.inh = true ∧
      ((g.tmask &&& (g.live &&& ~~~x.active)) == 0#64) = e.2 :=
  ⟨ready_dec (fun g _ => g.inh = false) (by decide +kernel),
   fun e he => ready_dec (fun g x => g.inh = true ∧ ((g.tmask &&& (g.live &&& ~~~x.active)) == 0#64) = e.2) (by
     simp only [List.mem_cons, List.not_mem_nil, or_false] at he
     rcases he with rfl | rfl <;> decide +kernel)⟩

/-- The relative forms to their own PC + 12 for the lanes of P0, so that every lane goes the same way; the others to a register. -/
def uniJumps : List Instr :=
  [.bra (uni { fl 0 0 0 1 0 with gp := 0#3 }), .call (uni (fl 0x61E 0 0 0xFFFFFFFF 0)), .bri (uni (fl 0 0x607 0 0 0)), .ret (uni (fl 0 0x607 0 0 0)),
   .calli (uni (fl 4 0x607 0 0 0))]

/-- The next PC of a lane whose branch goes to t. -/
def nextPc (x : Iss) (t : Nat → W64) (l : Nat) : W64 := if x.active.getLsbD l then t l else x.pc + 12#64
/-- The target of a relative branch. -/
def relative (x : Iss) (_ : Nat) : W64 := x.pc + BitVec.ofInt 64 (12 * signExt x.f.imm.toNat 32)

theorem witness_Branches : (∀ i ∈ jumpForms, ∃ g x, Ready i tState g x ∧ x.f.u = false) ∧
    (∀ i ∈ uniJumps.take 2, ∃ g x, Ready i tState g x ∧ ∀ l k, x.set.getLsbD l = true → x.set.getLsbD k = true →
      nextPc x (relative x) l = nextPc x (relative x) k) ∧
    (∀ i ∈ uniJumps.drop 2, ∃ g x, Ready i tState g x ∧ ∀ l k, x.set.getLsbD l = true → x.set.getLsbD k = true →
      nextPc x x.a l = nextPc x x.a k) ∧
    (∀ i ∈ [Instr.bra (uni { fl 0 0 0 3 0 with gp := 0#3 }), .call (uni { fl 0x61E 0 0 0xFFFFFFFF 0 with gp := 0#3, gn := true })],
      ∃ g x, Ready i tState g x ∧ x.f.u = true ∧ ∃ k l, lowestLane x.set = some k ∧ x.set.getLsbD l = true ∧
        nextPc x (relative x) l ≠ nextPc x (relative x) k) ∧
    (∀ i ∈ [Instr.bri (uni (fl 0 1 0 0 0)), .ret (uni { fl 0 0x607 0 0 0 with gp := 0#3 }), .calli (uni { fl 4 0x607 0 0 0 with gp := 0#3 })],
      ∃ g x, Ready i tState g x ∧ x.f.u = true ∧ ∃ k l, lowestLane x.set = some k ∧ x.set.getLsbD l = true ∧ nextPc x x.a l ≠ nextPc x x.a k) := by
  have lt {m : LaneMask} {l : Nat} (h : m.getLsbD l = true) : l ∈ List.range 64 := by
    rw [List.mem_range]
    by_contra hc
    simp [BitVec.getLsbD_of_ge m l (by omega)] at h
  refine ⟨ready_dec_all (fun _ x => x.f.u = false) (by decide +kernel), fun i hi => ?_, fun i hi => ?_, fun i hi => ?_, fun i hi => ?_⟩
  · obtain ⟨g, x, hr, h⟩ := ready_dec_all (fun _ x => ∀ l ∈ lanesOf x.set, nextPc x (relative x) l = nextPc x (relative x) 0)
      (l := uniJumps.take 2) (s := tState) (by decide +kernel) i hi
    exact ⟨g, x, hr, fun l k hl hk => by
      rw [h l (List.mem_filter.mpr ⟨lt hl, hl⟩), h k (List.mem_filter.mpr ⟨lt hk, hk⟩)]⟩
  · obtain ⟨g, x, hr, h⟩ := ready_dec_all (fun _ x => ∀ l ∈ lanesOf x.set, nextPc x x.a l = nextPc x x.a 0)
      (l := uniJumps.drop 2) (s := tState) (by decide +kernel) i hi
    exact ⟨g, x, hr, fun l k hl hk => by
      rw [h l (List.mem_filter.mpr ⟨lt hl, hl⟩), h k (List.mem_filter.mpr ⟨lt hk, hk⟩)]⟩
  · obtain ⟨g, x, hr, h⟩ := ready_dec_all (fun _ x => x.f.u = true ∧ lowestLane x.set = some 0 ∧ x.set.getLsbD 15 = true ∧
        nextPc x (relative x) 15 ≠ nextPc x (relative x) 0)
      (l := [Instr.bra (uni { fl 0 0 0 3 0 with gp := 0#3 }), .call (uni { fl 0x61E 0 0 0xFFFFFFFF 0 with gp := 0#3, gn := true })])
      (s := tState) (by decide +kernel) i hi
    exact ⟨g, x, hr, h.1, 0, 15, h.2⟩
  · obtain ⟨g, x, hr, h⟩ := ready_dec_all (fun _ x => x.f.u = true ∧ lowestLane x.set = some 0 ∧ x.set.getLsbD 15 = true ∧
        nextPc x x.a 15 ≠ nextPc x x.a 0)
      (l := [Instr.bri (uni (fl 0 1 0 0 0)), .ret (uni { fl 0 0x607 0 0 0 with gp := 0#3 }), .calli (uni { fl 4 0x607 0 0 0 with gp := 0#3 })])
      (s := tState) (by decide +kernel) i hi
    exact ⟨g, x, hr, h.1, 0, 15, h.2⟩

/-- Every operation number of VOTE, PSET and PMOV. -/
theorem witness_Predicates : (∀ k < 4, ∃ g x, Ready (.vote (fl 0x641 0x640 0 0 k)) tState g x) ∧
    (∀ k, 4 ≤ k → k < 6 → ∃ g x, Ready (.vote (fl 4 0x640 0 0 k)) tState g x) ∧
    (∀ k < 8, ∃ g x, Ready (.pset (fl 0x641 0x640 0x647 0 k)) tState g x) ∧
    (∀ i ∈ [Instr.elect (fl 0x641 0 0 0 0), .pmov (fl 0x641 1 0 0 0), .pmov (fl 4 0x640 0 0 1), .pmov (fl 0x604 0x640 0 0 2)],
      ∃ g x, Ready i tState g x) := by
  refine ⟨fun k hk => ?_, fun k h4 h6 => ?_, fun k hk => ?_, ready_list (by decide +kernel)⟩
  · exact ready_list (l := (List.range 4).map fun k => .vote (fl 0x641 0x640 0 0 k)) (by decide +kernel) _
      (List.mem_map.mpr ⟨k, List.mem_range.mpr hk, rfl⟩)
  · exact ready_list (l := (List.range 6).drop 4 |>.map fun k => .vote (fl 4 0x640 0 0 k)) (by decide +kernel) _
      (List.mem_map.mpr ⟨k, by interval_cases k <;> decide, rfl⟩)
  · exact ready_list (l := (List.range 8).map fun k => .pset (fl 0x641 0x640 0x647 0 k)) (by decide +kernel) _
      (List.mem_map.mpr ⟨k, List.mem_range.mpr hk, rfl⟩)

/-! ### Witnesses: lanes, views, directions, chains -/

theorem witness_LaneMoves : (∀ i ∈ laneForms, ∃ g x, Ready i tState g x) ∧
    (∀ i ∈ packForms, ∃ g x, Ready i tState g x ∧ 64 / typeWidth x.f.tcode ≠ 1) ∧
    ∀ i ∈ packForms64, ∃ g x, Ready i tState g x ∧ 64 / typeWidth x.f.tcode = 1 :=
  ⟨ready_list (by decide +kernel), ready_dec_all (fun _ x => 64 / typeWidth x.f.tcode ≠ 1) (by decide +kernel),
   ready_dec_all (fun _ x => 64 / typeWidth x.f.tcode = 1) (by decide +kernel)⟩

theorem witness_Reductions : (∀ i ∈ reduceForms, ∃ g x, Ready i tState g x ∧ typeIsFloat x.f.tcode = false) ∧
    (∀ i ∈ fpReduceForms, ∃ g x, Ready i tState g x ∧ typeIsFloat x.f.tcode = true ∧ fpEnables x.g.fpctl = 0#5 ∧ x.g.width = 2 ^ 4) ∧
    ∀ i ∈ matchForms, ∃ g x, Ready i tState g x :=
  ⟨ready_dec_all (fun _ x => typeIsFloat x.f.tcode = false) (by decide +kernel),
   ready_dec_all (fun _ x => typeIsFloat x.f.tcode = true ∧ fpEnables x.g.fpctl = 0#5 ∧ x.g.width = 2 ^ 4) (by decide +kernel), ready_list (by decide +kernel)⟩

/-- Into a scaled format, from one, and between the integer formats; the first run of a scaled tile holds a finite element. -/
theorem witness_ViewConversion : (∀ i ∈ convForms, ∃ g x, Ready i tState g x ∧ fpEnables x.g.fpctl = 0#5) ∧
    (∀ e ∈ [(Instr.sxpack (fl 0x65F 0x65E 0 0 0), 5), (.sxunp (fl 0x65E 0x65F 0 0 0), 2)], ∃ g x, Ready e.1 tState g x ∧ viewFmt (x.g.wReg (wNum x.f.d)) = e.2 ∧
      0 < viewRows (x.g.wReg (wNum x.f.d)) * viewCols (x.g.wReg (wNum x.f.d)) / 16) ∧
    ∀ e ∈ [(Instr.tcvt (fl 0x66A 0x669 0 0 0), 3), (.tcvt (fl 0x669 0x66A 0 0 0), 4)], ∃ g x, Ready e.1 (withGang intTiles) g x ∧
      viewFmt (x.g.wReg (wNum x.f.d)) = e.2 ∧ fpEnables x.g.fpctl = 0#5 := by
  refine ⟨ready_dec_all (fun _ x => fpEnables x.g.fpctl = 0#5) (by decide +kernel), fun e he => ready_dec (fun _ x => viewFmt (x.g.wReg (wNum x.f.d)) = e.2 ∧
      0 < viewRows (x.g.wReg (wNum x.f.d)) * viewCols (x.g.wReg (wNum x.f.d)) / 16) ?_, fun e he => ready_dec (fun _ x =>
      viewFmt (x.g.wReg (wNum x.f.d)) = e.2 ∧ fpEnables x.g.fpctl = 0#5) ?_⟩ <;>
    (simp only [List.mem_cons, List.not_mem_nil, or_false] at he; rcases he with rfl | rfl <;> decide +kernel)
theorem witness_DirectionalForms : ∀ i ∈ dirForms, ∃ g x, Ready i tState g x ∧ fpEnables x.g.fpctl = 0#5 :=
  ready_dec_all (fun _ x => fpEnables x.g.fpctl = 0#5) (by decide +kernel)

/-- The variants of DVDOT and DVNRM; a threshold that is a number, with D a predicate and with D = P7, and one that is a NaN; DVFLAT,
and of a zero vector. -/
theorem witness_DirectionalValues :
    (∀ i ∈ [Instr.dvdot (fl 0x604 0x65B 0x65C 0 0), .dvdot (fl 4 0x65B 0x65C 0 1), .dvdot (fl 0x604 0x65B 0x65C 0 2), .dvnrm (fl 0x604 0x65B 0 0 0),
       .dvnrm (fl 0x604 0x64B 0 0 1), .dvflat (fl 0x65E 0x65B 0 0 0)], ∃ g x, Ready i tState g x ∧ fpEnables x.g.fpctl = 0#5) ∧
    (∀ i ∈ [Instr.dvcmp (fl 0x641 0x65B 0x65C 0x601 0), .dvcmp (fl 0x641 0x65B 0x65C 0x601 3)], ∃ g x, Ready i tState g x ∧
      (f32.unpack (scalar32 (x.c x.low))).isNan = false ∧ opnd x.f.d ≠ .p 7) ∧
    (∃ g x, Ready (.dvcmp (fl 0x647 0x65B 0x65C 0x601 0)) tState g x ∧
      (f32.unpack (scalar32 (x.c x.low))).isNan = false ∧ opnd x.f.d = .p 7) ∧
    (∃ g x, Ready (.dvcmp (fl 0x641 0x65B 0x65C 0x60A 1)) tState g x ∧ (f32.unpack (scalar32 (x.c x.low))).isNan = true ∧
      flagNV &&& fpEnables x.g.fpctl = 0#5) ∧
    ∃ g x, Ready (.dvflat (fl 0x65E 0x65B 0 0 0)) tState g x ∧ x.dirA.isZero = true :=
  ⟨ready_dec_all (fun _ x => fpEnables x.g.fpctl = 0#5) (by decide +kernel),
   ready_dec_all (fun _ x => (f32.unpack (scalar32 (x.c x.low))).isNan = false ∧ opnd x.f.d ≠ .p 7) (by decide +kernel),
   ready_dec (fun _ x => (f32.unpack (scalar32 (x.c x.low))).isNan = false ∧ opnd x.f.d = .p 7) (by decide +kernel),
   ready_dec (fun _ x => (f32.unpack (scalar32 (x.c x.low))).isNan = true ∧ flagNV &&& fpEnables x.g.fpctl = 0#5) (by decide +kernel),
   ready_dec (fun _ x => x.dirA.isZero = true) (by decide +kernel)⟩

/-- DVSETN to a norm, and to the zero code. -/
theorem witness_NormSet : (∃ g x, Ready (.dvsetn (fl 0x65D 0x601 0 0 0)) tState g x ∧
      (dvsetnVal (x.f.mod.toNat % 4) (scalar32 (x.a x.low))).1 ≠ normZero) ∧
    ∃ g x, Ready (.dvsetn (fl 0x65D 0x678 0 0 1)) tState g x ∧ (dvsetnVal (x.f.mod.toNat % 4) (scalar32 (x.a x.low))).1 = normZero :=
  ⟨ready_dec (fun _ x => (dvsetnVal (x.f.mod.toNat % 4) (scalar32 (x.a x.low))).1 ≠ normZero) (by decide +kernel),
   ready_dec (fun _ x => (dvsetnVal (x.f.mod.toNat % 4) (scalar32 (x.a x.low))).1 = normZero) (by decide +kernel)⟩

/-- A direction with the greatest and least components; the zero code; values whose vector is exact, and overflows; two vectors that are not
zero; a scale of 3 × 2^−1. -/
theorem witness_DirectionRules : ((⟨[-32768, 32767], 5⟩ : DVec).n ≠ normZero ∧ (DVec.zero 2).isZero = true) ∧
    ((writeDir [.fin false 3 0, .fin true 4 0] 0).1.n ≠ normZero ∧ (writeDir [.fin false 1 0, .fin false 0 0] 0).2 = 0#5 ∧
      (writeDir [.fin false 1 0, .fin false 0 0] 0).1.n ≠ normZero) ∧
    ([FVal.fin false 3 0, .inf true].any fun v => v.isNan || v.isInf) = true ∧
    ((⟨[3, -4], 5⟩ : DVec).isZero = false ∧ (⟨[16384, 0], -7⟩ : DVec).isZero = false) ∧
    f32.unpack 0x3FC00000 = .fin false 0xC00000 (-23) ∧ (f32.unpack 0x7F800000).isInf = true ∧ ((2 ^ 24 : Int) % 2 ^ 24 = 0) := by decide +kernel

/-- A state in which W8 is lent, and one in which an MXOP that writes it is queued as well. -/
def lent8 : State := withGang fun g => { g with lent := [(8, true)] }
def mxEntry (wc opid : Nat) : MxEntry :=
  { g := ⟨0, 0, 0⟩, params := [w64 (65536 * wc)], wa := 0#64, wb := 0#64, wc := 0#64, opid, readDone := true, behind := none,
    aBytes := [], bBytes := [], again := none, stamp := 0, recheck := none }
def queued8 : State := { lent8 with mxq := [(0, [mxEntry 8 7])] }

theorem witness_ViewRegisters : (∀ i ∈ viewForms, ∃ g x, Ready i tState g x ∧ BitSet.has x.g.lent 8 = false) ∧
    (∃ g x, Ready (.tvget (fl 4 0x660 0 0 0)) tState g x) ∧ (∃ g x, Ready (.tvget (fl 0x604 0x660 0 0 1)) queued8 g x) ∧
    (∃ g x, Ready (.toktake (fl 0 0x660 0 0 0)) lent8 g x ∧ BitSet.has x.g.lent (wNum x.f.a) = true ∧
      ((mxOf lent8 x.ref).filter fun e => mxWC e.params == wNum x.f.a) = []) ∧
    ∃ g x, Ready (.toktake (fl 0 0x660 0 0 0)) queued8 g x ∧ BitSet.has x.g.lent (wNum x.f.a) = true ∧
      ((mxOf queued8 x.ref).filter fun e => mxWC e.params == wNum x.f.a) ≠ [] :=
  ⟨ready_dec_all (fun _ x => BitSet.has x.g.lent 8 = false) (by decide +kernel), ready_one (by decide +kernel),
   ready_one (by decide +kernel),
   ready_dec (fun _ x => BitSet.has x.g.lent (wNum x.f.a) = true ∧
     ((mxOf lent8 x.ref).filter fun e => mxWC e.params == wNum x.f.a) = []) (by decide +kernel),
   ready_dec (fun _ x => BitSet.has x.g.lent (wNum x.f.a) = true ∧
     ((mxOf queued8 x.ref).filter fun e => mxWC e.params == wNum x.f.a) ≠ []) (by decide +kernel)⟩

/-! ### Witnesses: the matrix queue and chains -/

/-- An ATOM in flight. -/
def inFlight : State := after (.atom (fl 4 1 2 0 3)) tState

/-- Whether an MXOP meets every condition of O20, its block to be read again or not. -/
def mxReads (s : State) (late : Bool) (x : Iss) : Bool :=
  match readBlock x (x.start s) (x.a x.low).toNat with
  | .ok p ag s1 => ag.isSome == late && !mxParity x.g p && !mxBad x.g p && !mxFullParity x.g p && (mxLent x.g p).isNone && !mxASrc p && !mxBSrc p &&
      x.g.viewReady (x.g.wReg (mxWA p)) && x.g.viewReady (x.g.wReg (mxWB p)) && match streamChecks s1 x p with
      | (some none, s2) => (KMap.get s2.mxq [] (mxKey x.ref)).length < 16
      | _ => false
  | _ => false

/-- MXOP with an empty queue, with fifteen operations queued, and behind an unclassified issue; MXWAIT of an operation that is queued and of one
that is not. -/
theorem witness_MatrixQueue :
    (∀ e ∈ [(tState, false), ({ tState with mxq := [(0, List.replicate 15 (mxEntry 12 7))] }, false), (inFlight, true)], ∃ g x p ag s1 s2,
      Ready (.mxop (fl 0 0x60B 0 0 0)) e.1 g x ∧ readBlock x (x.start e.1) (x.a x.low).toNat = .ok p ag s1 ∧ ag.isSome = e.2 ∧ mxParity x.g p = false ∧
      mxBad x.g p = false ∧ mxFullParity x.g p = false ∧ mxLent x.g p = none ∧ streamChecks s1 x p = (some none, s2) ∧
      (mxASrc p = false → x.g.viewReady (x.g.wReg (mxWA p)) = true) ∧
      (mxBSrc p = false → x.g.viewReady (x.g.wReg (mxWB p)) = true) ∧ (KMap.get s2.mxq [] (mxKey x.ref)).length < 16) ∧
    (∃ g x, Ready (.mxwait (fl 0 0 0 6 0)) queued8 g x ∧ ∀ e ∈ mxOf queued8 x.ref, x.f.imm.getLsbD 8 = false ∧ e.opid ≠ x.f.imm.toNat % 256) ∧
    ∀ i ∈ [Instr.mxwait (fl 0 0 0 7 0), .mxwait (fl 0 0 0 0x100 0)], ∃ g x, Ready i queued8 g x ∧
      ∃ e ∈ mxOf queued8 x.ref, x.f.imm.getLsbD 8 = true ∨ e.opid = x.f.imm.toNat % 256 := by
  refine ⟨fun e he => ?_, ready_dec (fun _ x => ∀ e ∈ mxOf queued8 x.ref, x.f.imm.getLsbD 8 = false ∧ e.opid ≠ x.f.imm.toNat % 256) (by decide +kernel),
    ready_dec_all (fun _ x => ∃ e ∈ mxOf queued8 x.ref, x.f.imm.getLsbD 8 = true ∨ e.opid = x.f.imm.toNat % 256) (by decide +kernel)⟩
  have h : meets (.mxop (fl 0 0x60B 0 0 0)) e.1 (fun _ x => mxReads e.1 e.2 x) = true := by
    simp only [List.mem_cons, List.not_mem_nil, or_false] at he
    rcases he with rfl | rfl | rfl <;> decide +kernel
  obtain ⟨g, x, hr, hp⟩ := ready_of_meets h
  unfold mxReads at hp
  split at hp
  · rename_i p ag s1 hb
    simp only [Bool.and_eq_true, Bool.not_eq_true', Option.isNone_iff_eq_none, beq_iff_eq] at hp
    obtain ⟨⟨⟨⟨⟨⟨⟨⟨⟨ha, h1⟩, h2⟩, h0⟩, h3⟩, h4⟩, h5⟩, h6⟩, h7⟩, h8⟩ := hp
    split at h8
    · rename_i s2 hc
      exact ⟨g, x, p, ag, s1, s2, hr, hb, ha, h1, h2, h0, h3, hc, fun _ => h6, fun _ => h7, by simpa using h8⟩
    · cases h8
  · cases hp

/-- A chain slot, slot 1 of the partition of the test gang. -/
def slotState (c : ChainSlot) : State := { tState with chains := [(1, c)] }
def tSlot : ChainSlot := { ChainSlot.fresh with valid := true, owner := 0, count := 2, uops := [0x1#32, 0x2#32] }
/-- A run on slot 1 in flight. -/
def busySlot : State := withGang fun g => { g with fills := [{ id := 0, kind := .chain 1, writes := [], flags := 0#5, setsFlags := false }] }

/-- Whether CHLD reads its micro-operations and finds its slot free, or not. -/
def chldReads (s : State) (free : Bool) (x : Iss) : Bool :=
  match loadUops (x.start s) x.ref.core x.task (x.a x.low).toNat (x.f.imm.toNat % 32) with
  | .ok _ s1 => decide (chainBusy s1 (chainKey x.ref 1) = false ∧ (chainSlot s1 (chainKey x.ref 1)).waiting = []) == free
  | _ => false

theorem witness_ChainSlots :
    (∃ g x us s1, Ready (.chld (fl 0 0x607 0 16 1)) tState g x ∧
      loadUops (x.start tState) x.ref.core x.task (x.a x.low).toNat (x.f.imm.toNat % 32) = .ok us s1 ∧
      chainBusy s1 (chainKey x.ref 1) = false ∧ (chainSlot s1 (chainKey x.ref 1)).waiting = []) ∧
    (∃ g x us s1, Ready (.chld (fl 0 0x607 0 1 1)) busySlot g x ∧
      loadUops (x.start busySlot) x.ref.core x.task (x.a x.low).toNat (x.f.imm.toNat % 32) = .ok us s1 ∧
      ¬ (chainBusy s1 (chainKey x.ref 1) = false ∧ (chainSlot s1 (chainKey x.ref 1)).waiting = [])) ∧
    (∃ g x, Ready (.chinv (fl 0 0 0 0 1)) tState g x ∧ chainBusy (x.start tState) (chainKey x.ref 1) = false ∧
      (chainSlot (x.start tState) (chainKey x.ref 1)).waiting = []) ∧
    (∃ g x, Ready (.chinv (fl 0 0 0 0 1)) busySlot g x ∧ ¬ (chainBusy (x.start busySlot) (chainKey x.ref 1) = false ∧
      (chainSlot (x.start busySlot) (chainKey x.ref 1)).waiting = [])) ∧
    ∃ g x, Ready (.chqry (fl 4 0 0 0 1)) tState g x := by
  refine ⟨?_, ?_, ready_dec (fun _ x => chainBusy (x.start tState) (chainKey x.ref 1) = false ∧
      (chainSlot (x.start tState) (chainKey x.ref 1)).waiting = []) (by decide +kernel),
    ready_dec (fun _ x => ¬ (chainBusy (x.start busySlot) (chainKey x.ref 1) = false ∧
      (chainSlot (x.start busySlot) (chainKey x.ref 1)).waiting = [])) (by decide +kernel), ready_one (by decide +kernel)⟩
  · obtain ⟨g, x, hr, hp⟩ := ready_of_meets (i := .chld (fl 0 0x607 0 16 1)) (s := tState) (p := fun _ x => chldReads tState true x) (by decide +kernel)
    unfold chldReads at hp
    split at hp
    · exact ⟨g, x, _, _, hr, ‹_›, by simpa using hp⟩
    · cases hp
  · obtain ⟨g, x, hr, hp⟩ := ready_of_meets (i := .chld (fl 0 0x607 0 1 1)) (s := busySlot) (p := fun _ x => chldReads busySlot false x) (by decide +kernel)
    unfold chldReads at hp
    split at hp
    · refine ⟨g, x, _, _, hr, ‹_›, fun hc => ?_⟩
      rw [decide_eq_true hc] at hp
      cases hp
    · cases hp

/-- A slot valid for the task, one that another task loaded, and one that is not valid. -/
theorem witness_ChainRuns :
    (∃ g x, Ready (.chrun (fl 4 1 2 2 1)) (slotState tSlot) g x ∧ (chainSlot (x.start (slotState tSlot)) (chainKey x.ref 1)).waiting = [] ∧
      (chainSlot (x.start (slotState tSlot)) (chainKey x.ref 1)).valid = true ∧
      (chainSlot (x.start (slotState tSlot)) (chainKey x.ref 1)).owner = x.who.slot) ∧
    (∃ g x, Ready (.chrun (fl 4 1 2 2 1)) tState g x ∧ (chainSlot (x.start tState) (chainKey x.ref 1)).waiting = [] ∧
      (chainSlot (x.start tState) (chainKey x.ref 1)).valid = false) ∧
    ∃ g x, Ready (.chrun (fl 4 1 2 2 1)) (slotState { tSlot with owner := 5 }) g x ∧
      (chainSlot (x.start (slotState { tSlot with owner := 5 })) (chainKey x.ref 1)).waiting = [] ∧
      (chainSlot (x.start (slotState { tSlot with owner := 5 })) (chainKey x.ref 1)).owner ≠ x.who.slot :=
  ⟨ready_dec (fun _ x => (chainSlot (x.start (slotState tSlot)) (chainKey x.ref 1)).waiting = [] ∧
      (chainSlot (x.start (slotState tSlot)) (chainKey x.ref 1)).valid = true ∧
      (chainSlot (x.start (slotState tSlot)) (chainKey x.ref 1)).owner = x.who.slot) (by decide +kernel),
   ready_dec (fun _ x => (chainSlot (x.start tState) (chainKey x.ref 1)).waiting = [] ∧
      (chainSlot (x.start tState) (chainKey x.ref 1)).valid = false) (by decide +kernel),
   ready_dec (fun _ x => (chainSlot (x.start (slotState { tSlot with owner := 5 })) (chainKey x.ref 1)).waiting = [] ∧
      (chainSlot (x.start (slotState { tSlot with owner := 5 })) (chainKey x.ref 1)).owner ≠ x.who.slot) (by decide +kernel)⟩

/-! ### Witnesses: memory -/

/-- The accesses of an issue pass their checks, ok of them, of the pages claimed and of the state after the checks. -/
def reachesB (x : Iss) (s0 : State) (force write : Bool) (lanes : List Nat) (chk : State → Nat → LaneChk) (late : Bool)
    (ok : List LaneAcc → List Nat → State → Bool) : Bool :=
  x.g.unclass.isNone && x.g.heldStores.isEmpty && match checkLanes s0 x.active lanes chk with
  | .ok accs s1 => accs.all (fun a => a.peer.isNone) &&
    match touchPages s1 x.who.slot x.who.index x.who.owner write (force || (isLocal x.i && accs.any fun a => a.space == .global)) false
      (globalPages accs) with
    | .go l cs s' => l == late && ok accs cs s'
    | _ => false
  | _ => false

theorem reaches_of {x : Iss} {s0 : State} {force write : Bool} {lanes : List Nat} {chk : State → Nat → LaneChk} {late : Bool}
    {ok : List LaneAcc → List Nat → State → Bool} (h : reachesB x s0 force write lanes chk late ok = true) :
    ∃ accs claims s', Reaches x s0 force write lanes chk accs late claims s' ∧ ok accs claims s' = true := by
  unfold reachesB at h
  simp only [Bool.and_eq_true, Option.isNone_iff_eq_none, List.isEmpty_iff] at h
  obtain ⟨⟨h1, h2⟩, h3⟩ := h
  split at h3
  · rename_i accs s1 hc
    simp only [Bool.and_eq_true, List.all_eq_true, Option.isNone_iff_eq_none] at h3
    obtain ⟨h5, h7⟩ := h3
    split at h7
    · rename_i l cs s' ht
      simp only [Bool.and_eq_true, beq_iff_eq] at h7
      obtain ⟨rfl, h7⟩ := h7
      exact ⟨accs, cs, s', ⟨⟨h1, h2⟩, ⟨s1, hc, ht⟩, h5⟩, h7⟩
    · cases h7
  · cases h3

/-- Neither the agenda nor a cut takes the issue apart, and no access of it meets a stash line. -/
def whole (s : State) (x : Iss) (accs : List LaneAcc) (claims : List Nat) (s' : State) : Bool :=
  let op := x.op accs claims s.issueCtr
  !s.split && !crossHeld s x.who.ctx op && !crossHeld (foldIssue s' x accs) x.who.ctx op && accs.all fun a => (stashPlace s x.who a).isNone

/-- The memory forms of a list reach memory in s, with late. -/
def reachAll (s : State) (late : Bool) (l : List Instr) : Bool := l.all fun i => meets i s fun _ x => match memSpec x with
  | some m => reachesB x (x.start s) m.force m.write m.lanes m.chk late (whole s x)
  | none => false

theorem reach_all {s : State} {late : Bool} {l : List Instr} (h : reachAll s late l = true) : ∀ i ∈ l, ∃ g x m accs claims s',
    Ready i s g x ∧ memSpec x = some m ∧ Reaches x (x.start s) m.force m.write m.lanes m.chk accs late claims s' ∧ s.split = false ∧
      crossHeld s x.who.ctx (x.op accs claims s.issueCtr) = false ∧ crossHeld (foldIssue s' x accs) x.who.ctx (x.op accs claims s.issueCtr) = false ∧
      Unmapped x s accs := by
  intro i hi
  obtain ⟨g, x, hr, hp⟩ := ready_of_meets (List.all_eq_true.mp h i hi)
  split at hp
  · obtain ⟨accs, claims, s', h1, h2⟩ := reaches_of hp
    simp only [whole, Bool.and_eq_true, Bool.not_eq_true', List.all_eq_true, Option.isNone_iff_eq_none] at h2
    exact ⟨g, x, _, accs, claims, s', hr, ‹_›, h1, h2.1.1.1, h2.1.1.2, h2.1.2, h2.2⟩
  · cases hp

/-- What the performance of an issue leaves in registers: nothing, or something. -/
def performs (i : Instr) (s : State) (empty : Bool) : Bool := meets i s fun _ x => match memSpec x with
  | some m => reachesB x (x.start s) m.force m.write m.lanes m.chk false fun accs cs s' =>
      let p := restash (foldIssue s' x accs) x.who (x.op accs cs s.issueCtr)
      whole s x accs cs s' && (performOp p.2 x.who p.1).writes.isEmpty == empty
  | none => false

/-- A memory form reaches memory in a state whose agenda takes it apart. -/
def apart (i : Instr) (s : State) : Bool := s.split && meets i s fun _ x => match memSpec x with
  | some m => reachesB x (x.start s) m.force m.write m.lanes m.chk false fun _ _ _ => true
  | none => false

/-- A team of a SPAN task with a second half on core 32. -/
def spanState : State :=
  { withTeam (fun t => { t with halves := t.halves ++ [⟨32, [(0, 0)], [(0, 1)], [], [], []⟩] }) with
    tasks := (withRec fun r => { r with span := true }).tasks }

/-- Loads at the last offset of the scratchpad, the last private words, and at the boundary of a page. -/
def loadForms : List Instr :=
  [.ld (fl 4 1 0 8 3), .ld (fl 4 0x600 0 0xFFE 0x15), .ld (fl 4 0x600 0 16 0x23), .lds (fl 4 2 0 0 0x16), .lds (fl 4 0x611 0 0 3), .ldp (fl 4 0x606 0 0 2),
   .ldp (fl 4 0x606 0 5 2), .dvld (fl 0x65D 0x600 0 0 0)]
def storeForms : List Instr :=
  [.st (fl 0 1 2 8 3), .st (fl 0 0x600 2 0 0x16), .sts (fl 0 2 2 0 0x16), .sts (fl 0 0x611 2 0 3), .stp (fl 0 0x606 2 0 2),
   .dvst (fl 0 0x600 0x65B 0 0)]
def lateForms : List Instr :=
  [.atom (fl 4 1 2 0 3), .acas (fl 4 1 2 2 3), .rowadd (fl 0 0x600 0x65E 0x602 0), .rowld (fl 0x643 0x600 0x65E 0x602 0), .ld (fl 4 0x60F 0 0 3),
   .st (fl 0 0x60F 2 0 3)]

theorem reach_loads : reachAll tState false loadForms = true := by decide +kernel
theorem reach_stores : reachAll tState false storeForms = true := by decide +kernel
theorem reach_span : reachAll spanState false [.ldx (fl 4 2 0 0 0x16), .stx (fl 0 2 2 0 0x16)] = true := by decide +kernel

theorem witness_MemoryIssues :
    (∀ i ∈ loadForms ++ storeForms ++ [.atoms (fl 4 0x60B 2 0 3)], ∃ g x m accs claims s', Ready i tState g x ∧ memSpec x = some m ∧
      Reaches x (x.start tState) m.force m.write m.lanes m.chk accs false claims s' ∧ tState.split = false ∧
      crossHeld (foldIssue s' x accs) x.who.ctx (x.op accs claims tState.issueCtr) = false) ∧
    (∀ i ∈ [Instr.ldx (fl 4 2 0 0 0x16), .stx (fl 0 2 2 0 0x16)], ∃ g x m accs claims s', Ready i spanState g x ∧ memSpec x = some m ∧
      Reaches x (x.start spanState) m.force m.write m.lanes m.chk accs false claims s') ∧
    (∀ i ∈ lateForms, ∃ g x m accs claims s', Ready i tState g x ∧ memSpec x = some m ∧
      Reaches x (x.start tState) m.force m.write m.lanes m.chk accs true claims s') ∧
    performs (.ld (fl 4 1 0 8 3)) tState false = true ∧ performs (.st (fl 0 1 2 8 3)) tState true = true ∧
    apart (.ld (fl 4 1 0 8 3)) { tState with split := true } = true ∧ apart (.st (fl 0 1 2 8 3)) { tState with split := true } = true := by
  have h0 : reachAll tState false (loadForms ++ storeForms ++ [.atoms (fl 4 0x60B 2 0 3)]) = true := by decide +kernel
  have h1 : reachAll tState true lateForms = true := by decide +kernel
  refine ⟨fun i hi => ?_, fun i hi => ?_, fun i hi => ?_, by decide +kernel, by decide +kernel, by decide +kernel, by decide +kernel⟩
  · obtain ⟨g, x, m, accs, cs, s', h1, h2, h3, h4, _, h6, _⟩ := reach_all h0 i hi
    exact ⟨g, x, m, accs, cs, s', h1, h2, h3, h4, h6⟩
  · obtain ⟨g, x, m, accs, cs, s', h1, h2, h3, _⟩ := reach_all reach_span i hi
    exact ⟨g, x, m, accs, cs, s', h1, h2, h3⟩
  · obtain ⟨g, x, m, accs, cs, s', h1, h2, h3, _⟩ := reach_all h1 i hi
    exact ⟨g, x, m, accs, cs, s', h1, h2, h3⟩

/-- Lines of a state whose cores hold none. -/
theorem noLines : l1Ok [] := ⟨by simp, List.Pairwise.nil⟩

/-- Every memory form of a list meets what Loads and Stores ask of it. -/
def Plainly (s : State) (l : List Instr) : Prop := ∀ i ∈ l, ∃ g x m accs claims s', Ready i s g x ∧ memSpec x = some m ∧
  Reaches x (x.start s) m.force m.write m.lanes m.chk accs false claims s' ∧ s.split = false ∧
  crossHeld s x.who.ctx (x.op accs claims s.issueCtr) = false ∧ Unmapped x s accs

theorem plainly {s : State} {l : List Instr} (h : reachAll s false l = true) : Plainly s l := fun i hi =>
  let ⟨g, x, m, accs, cs, s', h1, h2, h3, h4, h5, _, h7⟩ := reach_all h i hi
  ⟨g, x, m, accs, cs, s', h1, h2, h3, h4, h5, h7⟩

theorem witness_Loads : l1Ok tState.l1 ∧ Plainly tState loadForms ∧ Plainly spanState [.ldx (fl 4 2 0 0 0x16)] :=
  ⟨noLines, plainly reach_loads, fun i hi => plainly reach_span i (by simp at hi ⊢; exact .inl hi)⟩
theorem witness_Stores : l1Ok tState.l1 ∧ Plainly tState storeForms ∧ Plainly spanState [.stx (fl 0 2 2 0 0x16)] :=
  ⟨noLines, plainly reach_stores, fun i hi => plainly reach_span i (by simp at hi ⊢; exact .inr hi)⟩

/-- Whether some lane fails a check. -/
def fails (s : State) (x : Iss) : Bool :=
  x.g.unclass.isNone && match memSpec x with
  | some m => match checkLanes (x.start s) x.active m.lanes m.chk with
    | .trap _ _ => true
    | _ => false
  | none => false

/-- A misaligned address, bytes that are not declared, an offset beyond the scratchpad, a private word beyond STKLIM, an address of no page. -/
theorem witness_AccessTraps :
    (∀ i ∈ [Instr.ld (fl 4 1 0 9 3), .ld (fl 4 0x607 0 0 3), .st (fl 0 0x607 2 0 3), .lds (fl 4 0x611 0 1 3), .ldp (fl 4 0x606 0 6 2),
       .ldp (fl 4 0x606 0 0xFFFFFFFE 2), .atom (fl 4 0x612 2 0 3)], ∃ g x m t s', Ready i tState g x ∧ memSpec x = some m ∧ x.g.unclass = none ∧
      checkLanes (x.start tState) x.active m.lanes m.chk = .trap t s') ∧
    (∀ e ∈ [(3, 0x23, 5#64), (7, 0x20, 6#64), (63, 0x20, 7#64)], (e : Nat × Nat × W64).1 < 64) ∧
    (chooseFail 0xFF#64 [(3, 0x23, 5#64), (7, 0x20, 6#64), (63, 0x20, 7#64)]).isSome = true := by
  refine ⟨fun i hi => ?_, by decide, by decide⟩
  have h : ([Instr.ld (fl 4 1 0 9 3), .ld (fl 4 0x607 0 0 3), .st (fl 0 0x607 2 0 3), .lds (fl 4 0x611 0 1 3), .ldp (fl 4 0x606 0 6 2),
       .ldp (fl 4 0x606 0 0xFFFFFFFE 2), .atom (fl 4 0x612 2 0 3)].all fun i => meets i tState fun _ x => fails tState x) = true := by decide +kernel
  obtain ⟨g, x, hr, hp⟩ := ready_of_meets (List.all_eq_true.mp h i hi)
  unfold fails at hp
  simp only [Bool.and_eq_true, Option.isNone_iff_eq_none] at hp
  obtain ⟨hu, hp⟩ := hp
  split at hp
  · split at hp
    · exact ⟨g, x, _, _, _, hr, ‹_›, hu, ‹_›⟩
    · cases hp
  · cases hp

/-- An address that the core's translation cache maps is translated in one step, without a change of the state. -/
theorem coreXlat_hit {s : State} {core ctx va pa : Nat} {acc : Access} {e : TlbEntry} {leaf : W64} (hv : va < 2 ^ 52)
    (he : tlbFind s core ctx va = some e) (ha : applyLeaf s ctx va acc e.leaf (e.pages * 4096) = .ok pa leaf) (hg : genRefused s pa leaf = false) :
    coreXlat s core ctx va acc = .done (.ok pa leaf) s := by
  simp [coreXlat, he, ha, hg]
  omega

/-- The agent of the test context with a watchpoint on reads and writes of the 128 bytes at 0x10000. -/
def watched : State :=
  { tState with ctxs := tState.ctxs.map fun e => (e.1, { e.2 with debug := some { session := 0, bp := [], dw := [(0, 0x10000#64), (1, 0xC7#64), (2, 0xFFFF#64)], sw := [] } }) }
/-- A party on core 0. -/
def tWho : Who := { g := ⟨0, 0, 0⟩, core := 0, ctx := 0, slot := 0, team := 0, index := 0, half := 0 }
/-- A request of lane 15. -/
def req (va size align : Nat) (kind : WatchKind) : AccReq := { lane := 15, va, size, kind, align, peerOk := false }

/-- Each clause of the checks: the end of a page, bytes not declared, a misaligned address, a watched byte; the last byte of the
scratchpad and the first beyond it; private words at both ends. -/
theorem witness_AccessChecks :
    (∀ q ∈ [req 0x10FF8 8 8 .read, req 0x1C000 8 8 .write, req 0x10FF5 8 8 .read, req 0x1007F 1 1 .read], q.size ≠ 0 ∧ q.va % 4096 + q.size ≤ 4096 ∧
      q.va + q.size ≤ 2 ^ 52 ∧ ∃ pa leaf, coreXlat watched tWho.core tWho.ctx q.va (if q.kind = .read then .read else .write) = .done (.ok pa leaf) watched) ∧
    mayRead watched 0 tRecord 0x10FF8 8 = true ∧ watchHit watched tGang 0 15 0x10FF8 8 .read = false ∧
    mayWrite watched 0 tRecord 0x1C000 8 = false ∧ mayRead watched 0 tRecord 0x10FF5 8 = true ∧ 0x10FF5 % 8 ≠ 0 ∧
    mayRead watched 0 tRecord 0x1007F 1 = true ∧ watchHit watched tGang 0 15 0x1007F 1 .read = true ∧
    0xFFFF + 1 ≤ scratchSize tState 0 0 ∧ ¬ 0x10000 + 1 ≤ scratchSize tState 0 0 ∧ 0xFFF7 + 8 ≤ scratchSize tState 0 0 ∧ 0xFFF7 % 8 ≠ 0 ∧
    ((-1 : Int) < 0) ∧ (tGang.stklim.toNat : Int) < 8 + ((1 : Nat) : Int) := by
  refine ⟨fun q hq => ?_, by decide +kernel, by decide +kernel, by decide +kernel, by decide +kernel, by decide, by decide +kernel, by decide +kernel,
    by decide +kernel, by decide +kernel, by decide +kernel, by decide, by decide, by decide +kernel⟩
  have key : ∀ q ∈ [req 0x10FF8 8 8 .read, req 0x1C000 8 8 .write, req 0x10FF5 8 8 .read, req 0x1007F 1 1 .read],
      (q.size ≠ 0 ∧ q.va % 4096 + q.size ≤ 4096 ∧ q.va + q.size ≤ 2 ^ 52 ∧ q.va < 2 ^ 52) ∧ tlbFind watched 0 0 q.va = some tLeaf ∧
      applyLeaf watched 0 q.va (if q.kind = .read then .read else .write) tLeaf.leaf (tLeaf.pages * 4096) = .ok q.va tLeaf.leaf ∧
      genRefused watched q.va tLeaf.leaf = false := by decide +kernel
  obtain ⟨⟨h1, h2, h3, h4⟩, h5, h6, h7⟩ := key q hq
  exact ⟨h1, h2, h3, _, _, coreXlat_hit h4 h5 h6 h7⟩

/-- A mapping of 128 bytes at offset 0. -/
def stashed : State := withTeam fun t => { t with stashes := [{ half := 0, base := 0x10000, off := 0, len := 128, filled := [(0, true)], dirty := [(0, true)], since := 0 }] }

/-- The same with the page of the mapped line shared. -/
def sharedStash : State := { stashed with tasks := stashed.tasks.map fun e => (e.1, { e.2 with classes := [(16, .shared)] }) }
/-- The same with a data watchpoint on the mapped bytes; a mapping of a page that the task may only read, shared. -/
def sharedWatched : State := { sharedStash with ctxs := watched.ctxs }
def sharedOnly : State :=
  { withTeam fun t => { t with stashes := [{ half := 0, base := 0x1C000, off := 0, len := 128, filled := [], dirty := [], since := 0 }] } with
    tasks := stashed.tasks.map fun e => (e.1, { e.2 with classes := [(28, .shared)] }) }
/-- Eight bytes of scratchpad that lane 15 reaches. -/
def scratchAcc (va : Nat) : LaneAcc := { lane := 15, space := .scratch 0, va, pa := 0, size := 8, peer := none, data := [], data2 := [], leaf := 0#64 }

/-- The clauses on mapped lines: none at an offset, a filled one, and one whose page became shared. -/
theorem witness_AccessChecks_stash : stashPlace stashed tWho (scratchAcc 0x80) = none ∧
    (∃ m, stashPlace stashed tWho (scratchAcc 0x78) = some (0, m, 0x10078) ∧ pageShared stashed 0 16 = false ∧ BitSet.has m.filled 0 = true) ∧
    (∃ m pa leaf, stashPlace sharedStash tWho (scratchAcc 0x78) = some (0, m, 0x10078) ∧ pageShared sharedStash 0 16 = true ∧
      coreXlat sharedStash tWho.core tWho.ctx 0x10078 .read = .done (.ok pa leaf) sharedStash) ∧
    mayRead sharedStash 0 tRecord 0x10078 8 = true ∧ watchHit sharedStash tGang 0 15 0x10078 8 .read = false ∧
    (∃ m pa leaf, stashPlace sharedWatched tWho (scratchAcc 0x78) = some (0, m, 0x10078) ∧
      coreXlat sharedWatched tWho.core tWho.ctx 0x10078 .read = .done (.ok pa leaf) sharedWatched) ∧
    mayRead sharedWatched 0 tRecord 0x10078 8 = true ∧ watchHit sharedWatched tGang 0 15 0x10078 8 .read = true ∧
    (∃ m pa leaf, stashPlace sharedOnly tWho (scratchAcc 0x78) = some (0, m, 0x1C078) ∧ pageShared sharedOnly 0 28 = true ∧
      coreXlat sharedOnly tWho.core tWho.ctx 0x1C078 .write = .done (.ok pa leaf) sharedOnly) ∧
    mayWrite sharedOnly 0 tRecord 0x1C078 8 = false :=
  ⟨by decide +kernel, ⟨_, rfl, by decide +kernel, by decide +kernel⟩,
   ⟨_, 0x10078, tLeaf.leaf, rfl, by decide +kernel, coreXlat_hit (e := tLeaf) (by decide) (by decide +kernel) (by decide +kernel) (by decide +kernel)⟩,
   by decide +kernel, by decide +kernel,
   ⟨_, 0x10078, tLeaf.leaf, rfl, coreXlat_hit (e := tLeaf) (by decide) (by decide +kernel) (by decide +kernel) (by decide +kernel)⟩,
   by decide +kernel, by decide +kernel,
   ⟨_, 0x1C078, tLeaf.leaf, rfl, by decide +kernel, coreXlat_hit (e := tLeaf) (by decide) (by decide +kernel) (by decide +kernel) (by decide +kernel)⟩,
   by decide +kernel⟩

/-- The test state with its private area at the code page. -/
def privCode : State := withRec fun r => { r with privBase := 0x1000#64 }

/-- Whether the fetch path gives LDK its bytes: 0 the bytes, 1 a failure. -/
def ldkPath (x : Iss) (fail : Bool) (ok : State → List Nat → Bool) (s : State := tState) : Bool :=
  match fetchBytes (x.start s) x.who.core x.who.ctx (x.addr x.low) (accSize x.f) with
  | (.ok pas, s0) => !fail && ok s0 pas
  | (.error (some _), s0) => fail && ok s0 []
  | _ => false

/-- Every variant of a load and both kinds of type; LDK of a data page, of the code page, and of a misaligned address there. -/
theorem witness_LoadResults :
    (fl 4 1 0 0 3).variant = 0 ∧ (fl 4 1 0 0 0x23).variant = 2 ∧ ((fl 4 1 0 0 0x16).variant = 1 ∧ typeIsSigned (fl 4 1 0 0 0x16).tcode = true) ∧
    ((fl 4 1 0 0 0x17).variant = 1 ∧ typeIsSigned (fl 4 1 0 0 0x17).tcode = false) ∧
    (∃ g x e s0 a claims s', Ready (.ldk (fl 4 0x613 0 8 3)) tState g x ∧
      fetchBytes (x.start tState) x.who.core x.who.ctx (x.addr x.low) (accSize x.f) = (.error (some e), s0) ∧
      Reaches x s0 false false [x.low] (ldkCheck x) [a] false claims s' ∧ tState.split = false ∧
      crossHeld tState x.who.ctx (x.op [a] claims tState.issueCtr) = false) ∧
    (∃ g x pas s0, Ready (.ldk (fl 4 0x607 0 0 3)) tState g x ∧
      fetchBytes (x.start tState) x.who.core x.who.ctx (x.addr x.low) (accSize x.f) = (.ok pas, s0) ∧
      meetsPriv s0 x.who.ctx x.task.rec_ (x.addr x.low) (accSize x.f) = false ∧ x.addr x.low % accSize x.f = 0 ∧
      watchHit s0 x.g x.who.ctx x.low (x.addr x.low) (accSize x.f) .read = false) ∧
    (∃ g x pas s0, Ready (.ldk (fl 4 0x607 0 4 3)) tState g x ∧
      fetchBytes (x.start tState) x.who.core x.who.ctx (x.addr x.low) (accSize x.f) = (.ok pas, s0) ∧
      meetsPriv s0 x.who.ctx x.task.rec_ (x.addr x.low) (accSize x.f) = false ∧ x.addr x.low % accSize x.f ≠ 0) ∧
    ∃ g x pas s0, Ready (.ldk (fl 4 0x607 0 0 3)) privCode g x ∧
      fetchBytes (x.start privCode) x.who.core x.who.ctx (x.addr x.low) (accSize x.f) = (.ok pas, s0) ∧
      meetsPriv s0 x.who.ctx x.task.rec_ (x.addr x.low) (accSize x.f) = true := by
  refine ⟨by decide, by decide, by decide, by decide, ?_, ?_, ?_, ?_⟩
  · obtain ⟨g, x, hr, hp⟩ := ready_of_meets (i := .ldk (fl 4 0x613 0 8 3)) (s := tState) (p := fun _ x => ldkPath x true fun s0 _ =>
      reachesB x s0 false false [x.low] (ldkCheck x) false fun l cs _ => l.length == 1 && !crossHeld tState x.who.ctx (x.op l cs tState.issueCtr)) (by decide +kernel)
    unfold ldkPath at hp
    split at hp
    · simp at hp
    · obtain ⟨accs, cs, s', h1, h2⟩ := reaches_of (by simpa using hp)
      simp only [Bool.and_eq_true, beq_iff_eq, Bool.not_eq_true'] at h2
      obtain ⟨a, rfl⟩ := List.length_eq_one_iff.mp h2.1
      exact ⟨g, x, _, _, a, cs, s', hr, ‹_›, h1, rfl, h2.2⟩
    · cases hp
  · obtain ⟨g, x, hr, hp⟩ := ready_of_meets (i := .ldk (fl 4 0x607 0 0 3)) (s := tState) (p := fun _ x => ldkPath x false fun s0 _ =>
      !meetsPriv s0 x.who.ctx x.task.rec_ (x.addr x.low) (accSize x.f) && x.addr x.low % accSize x.f == 0 && !watchHit s0 x.g x.who.ctx x.low (x.addr x.low) (accSize x.f) .read) (by decide +kernel)
    unfold ldkPath at hp
    split at hp
    · simp only [Bool.not_false, Bool.true_and, Bool.and_eq_true, beq_iff_eq, Bool.not_eq_true'] at hp
      exact ⟨g, x, _, _, hr, ‹_›, hp.1.1, hp.1.2, hp.2⟩
    · simp at hp
    · cases hp
  · obtain ⟨g, x, hr, hp⟩ := ready_of_meets (i := .ldk (fl 4 0x607 0 4 3)) (s := tState) (p := fun _ x => ldkPath x false fun s0 _ =>
      !meetsPriv s0 x.who.ctx x.task.rec_ (x.addr x.low) (accSize x.f) && x.addr x.low % accSize x.f != 0) (by decide +kernel)
    unfold ldkPath at hp
    split at hp
    · exact ⟨g, x, _, _, hr, ‹_›, by simpa using hp⟩
    · simp at hp
    · cases hp
  · obtain ⟨g, x, hr, hp⟩ := ready_of_meets (i := .ldk (fl 4 0x607 0 0 3)) (s := privCode) (p := fun _ x => ldkPath x false (fun s0 _ =>
      meetsPriv s0 x.who.ctx x.task.rec_ (x.addr x.low) (accSize x.f)) privCode) (by decide +kernel)
    unfold ldkPath at hp
    split at hp
    · exact ⟨g, x, _, _, hr, ‹_›, by simpa using hp⟩
    · simp at hp
    · cases hp

/-- Numbers at the ends of their ranges. -/
theorem witness_Atomics : l1Ok tState.l1 ∧ (8 : Nat) ≠ 0 ∧ ((7 : Nat) < 8 ∧ 255 < 2 ^ typeWidth 7) ∧ 2 ^ 48 - 1 < 2 ^ 48 ∧ 2 ^ 64 - 1 < 2 ^ 64 ∧
    (2 ^ 32 - 1 < 2 ^ 32 ∧ 2 ^ 31 - 1 < 2 ^ 31 ∧ 1 < 2) := ⟨noLines, by decide⟩

/-- The state in which that issue has been performed, with the operation performed. -/
def performed (w : Who) (op : PendOp) : Performed :=
  let p := restash inFlight w op
  performOp (crossAccs p.2 w p.1.accs) w p.1 true

/-- Whether its completion finds what the statement asks for. -/
def completes : Bool :=
  match inFlight.gang? ⟨0, 0, 0⟩, inFlight.who ⟨0, 0, 0⟩ with
  | some g, some w => match g.unclass with
    | some op => g.block.isNone && !standsStill inFlight 0 w.ctx && !crossHeld inFlight w.ctx op && g.heldStores.isEmpty &&
        (g.fills.all fun e => e.kind == .awaits) && match (performed w op).s.gang? ⟨0, 0, 0⟩ with
          | some y => y.fills == g.fills && y.heldStores.isEmpty && (blocksAgain (performed w op).s ⟨0, 0, 0⟩).isEmpty
          | none => false
    | none => false
  | _, _ => false

theorem witness_UnclassifiedCompletes : ∃ g w op, inFlight.gang? ⟨0, 0, 0⟩ = some g ∧ inFlight.who ⟨0, 0, 0⟩ = some w ∧ g.unclass = some op ∧
    (∀ o, g.block ≠ some (.signal o) ∧ g.block ≠ some (.object o)) ∧ g.block ≠ some .peer ∧ standsStill inFlight 0 w.ctx = false ∧
    crossHeld inFlight w.ctx op = false ∧ g.heldStores = [] ∧ (∀ e ∈ g.fills, ∀ o, e.kind ≠ .revalidate o) ∧
    ∃ y, (performed w op).s.gang? ⟨0, 0, 0⟩ = some y ∧ y.fills = g.fills ∧ y.heldStores = [] ∧ blocksAgain (performed w op).s ⟨0, 0, 0⟩ = [] := by
  have h : completes = true := by decide +kernel
  unfold completes at h
  split at h
  · rename_i g w hg hw
    split at h
    · rename_i op hop
      simp only [Bool.and_eq_true, Bool.not_eq_true', Option.isNone_iff_eq_none, List.isEmpty_iff, List.all_eq_true, beq_iff_eq] at h
      obtain ⟨⟨⟨⟨⟨h1, h2⟩, h3⟩, h4⟩, h5⟩, h6⟩ := h
      split at h6
      · simp only [Bool.and_eq_true, beq_iff_eq, List.isEmpty_iff] at h6
        exact ⟨g, w, op, hg, hw, hop, fun o => by simp [h1], by simp [h1], h2, h3, h4, fun e he o => by simp [h5 e he], _, ‹_›, h6.1.1, h6.1.2, h6.2⟩
      · cases h6
    · cases h
  · cases h

theorem witness_Stashes :
    (∃ g x s1 u cs s2 t, Ready (.stash (fl 0 0x600 0x608 0 0)) tState g x ∧ x.g.unclass = none ∧
      stashCheck (x.start tState) x (x.a x.low).toNat ((x.b x.low).toNat % 2 ^ 32) ((x.b x.low).toNat / 2 ^ 32) = .ok s1 ∧
      touchPages s1 x.who.slot x.who.index x.who.owner false false false
        ((pagePieces (x.a x.low).toNat ((x.b x.low).toNat / 2 ^ 32)).map fun p => p.1 / 4096) = .go u cs s2 ∧ s2.team? x.who.team = some t) ∧
    (∃ g x t, Ready (.unstash (fl 0 0x614 0 0 0)) tState g x ∧ tState.team? x.who.team = some t ∧
      t.stashes.find? (fun m => m.half == x.who.half && m.off == (x.a x.low).toNat) = none) ∧
    ∃ g x t m u cs s2 t', Ready (.unstash (fl 0 0x614 0 0 0)) stashed g x ∧ stashed.team? x.who.team = some t ∧
      t.stashes.find? (fun m => m.half == x.who.half && m.off == (x.a x.low).toNat) = some m ∧
      unstashWaits (x.start stashed) x m = false ∧
      touchPages (x.start stashed) x.who.slot x.who.index x.who.owner true false false (stashPages (x.start stashed) x.who.slot m) = .go u cs s2 ∧
      (stashWriteBack s2 x.who.team t m).team? x.who.team = some t' := by
  refine ⟨?_, ?_, ?_⟩
  · obtain ⟨g, x, hr, hp⟩ := ready_of_meets (i := .stash (fl 0 0x600 0x608 0 0)) (s := tState) (p := fun _ x => x.g.unclass.isNone &&
      match stashCheck (x.start tState) x (x.a x.low).toNat ((x.b x.low).toNat % 2 ^ 32) ((x.b x.low).toNat / 2 ^ 32) with
      | .ok s1 => match touchPages s1 x.who.slot x.who.index x.who.owner false false false
          ((pagePieces (x.a x.low).toNat ((x.b x.low).toNat / 2 ^ 32)).map fun p => p.1 / 4096) with
        | .go _ _ s2 => (s2.team? x.who.team).isSome
        | _ => false
      | _ => false) (by decide +kernel)
    simp only [Bool.and_eq_true, Option.isNone_iff_eq_none] at hp
    obtain ⟨h1, h2⟩ := hp
    split at h2
    · split at h2
      · obtain ⟨t, ht⟩ := Option.isSome_iff_exists.mp h2
        exact ⟨g, x, _, _, _, _, t, hr, h1, ‹_›, ‹_›, ht⟩
      · cases h2
    · cases h2
  · obtain ⟨g, x, hr, hp⟩ := ready_of_meets (i := .unstash (fl 0 0x614 0 0 0)) (s := tState) (p := fun _ x =>
      match tState.team? x.who.team with
      | some t => (t.stashes.find? fun m => m.half == x.who.half && m.off == (x.a x.low).toNat).isNone
      | none => false) (by decide +kernel)
    split at hp
    · exact ⟨g, x, _, hr, ‹_›, Option.isNone_iff_eq_none.mp hp⟩
    · cases hp
  · obtain ⟨g, x, hr, hp⟩ := ready_of_meets (i := .unstash (fl 0 0x614 0 0 0)) (s := stashed) (p := fun _ x =>
      match stashed.team? x.who.team with
      | some t => match t.stashes.find? fun m => m.half == x.who.half && m.off == (x.a x.low).toNat with
        | some m => !unstashWaits (x.start stashed) x m &&
            match touchPages (x.start stashed) x.who.slot x.who.index x.who.owner true false false (stashPages (x.start stashed) x.who.slot m) with
            | .go _ _ s2 => ((stashWriteBack s2 x.who.team t m).team? x.who.team).isSome
            | _ => false
        | none => false
      | none => false) (by decide +kernel)
    split at hp
    · split at hp
      · simp only [Bool.and_eq_true, Bool.not_eq_true'] at hp
        obtain ⟨h1, h2⟩ := hp
        split at h2
        · obtain ⟨t', ht⟩ := Option.isSome_iff_exists.mp h2
          exact ⟨g, x, _, _, _, _, _, t', hr, ‹_›, ‹_›, h1, ‹_›, ht⟩
        · cases h2
      · cases hp
    · cases hp

/-! ### Witnesses: the copy engine, objects and barriers -/

/-- Whether an engine form reads its descriptor, legal or not, to be read again or not, and its signal may be written. -/
def engReads (s : State) (k : EngineKind) (bad late : Bool) (x : Iss) : Bool :=
  match plainCheck (x.start s) x.who x.task.rec_ x.low (x.b x.low).toNat 8 8 .write .write false with
  | .ok _ s1 => match readBlock x s1 (x.a x.low).toNat with
    | .ok d ag s2 => cpyBad k d == bad && ag.isSome == late && (s2.engine.filter fun e => e.2.core == x.ref.core).length < 1024
    | _ => false
  | _ => false

/-- The forms of the next witness, each with its state, its kind, and whether its descriptor is illegal. -/
def engCases : List (Instr × State × EngineKind × Bool × Bool) :=
  [(.cpy (fl 0 0x60C 0x602 0 0), tState, .cpy, false, false), (.cpym (fl 0 0x60D 0x602 0 0), tState, .cpym, false, false),
   (.gather (fl 0 0x60E 0x602 0 0), tState, .gather, false, false), (.scata (fl 0 0x610 0x602 0 0), tState, .scata, false, false),
   (.cpy (fl 0 0x60D 0x602 0 0), tState, .cpy, true, false), (.cpy (fl 0 0x60C 0x602 0 0), inFlight, .cpy, false, true),
   (.cpy (fl 0 0x60D 0x602 0 0), inFlight, .cpy, true, true)]

/-- The descriptors of the four forms, with a signal object; the descriptor of CPYM given to CPY; both behind an unclassified issue. -/
theorem witness_EngineForms : ∀ e ∈ engCases, ∃ g x accs s1 d ag s2, Ready e.1 e.2.1 g x ∧
      plainCheck (x.start e.2.1) x.who x.task.rec_ x.low (x.b x.low).toNat 8 8 .write .write false = .ok accs s1 ∧
      readBlock x s1 (x.a x.low).toNat = .ok d ag s2 ∧ cpyBad e.2.2.1 d = e.2.2.2.1 ∧ ag.isSome = e.2.2.2.2 ∧
      (s2.engine.filter fun e => e.2.core == x.ref.core).length < 1024 := by
  intro e he
  have h : (engCases.all fun e => meets e.1 e.2.1 fun _ x => engReads e.2.1 e.2.2.1 e.2.2.2.1 e.2.2.2.2 x) = true := by decide +kernel
  obtain ⟨g, x, hr, hp⟩ := ready_of_meets (List.all_eq_true.mp h e he)
  unfold engReads at hp
  split at hp
  · split at hp
    · simp only [Bool.and_eq_true, beq_iff_eq, decide_eq_true_eq] at hp
      exact ⟨g, x, _, _, _, _, _, hr, ‹_›, ‹_›, hp.1.1, hp.1.2, hp.2⟩
    · cases hp
  · cases hp

/-- A CORESIDENT task. -/
def together : State := withRec fun r => { r with coresident := true }

/-- Whether an object form passes its checks and its page is touched without a wait. -/
def objReads (s : State) (perm decl : Access) (barrier write : Bool) (x : Iss) : Bool :=
  ((KMap.get? s.ctxs x.who.ctx).bind Ctx.debug).isNone && x.g.unclass.isNone && match objCheck x (x.start s) perm decl barrier with
  | .ok accs s1 => match touchPages s1 x.who.slot x.who.index x.who.owner write true false (globalPages accs) with
    | .go _ _ _ => true
    | _ => false
  | _ => false

theorem objReads_iff {s : State} {perm decl : Access} {barrier write : Bool} {x : Iss} (h : objReads s perm decl barrier write x = true) :
    x.unwatched s ∧ x.g.unclass = none ∧ ∃ accs s1 u cs s2, objCheck x (x.start s) perm decl barrier = .ok accs s1 ∧
      touchPages s1 x.who.slot x.who.index x.who.owner write true false (globalPages accs) = .go u cs s2 := by
  unfold objReads at h
  simp only [Bool.and_eq_true, Option.isNone_iff_eq_none] at h
  obtain ⟨⟨h1, h2⟩, h3⟩ := h
  split at h3
  · split at h3
    · exact ⟨h1, h2, _, _, _, _, _, ‹_›, ‹_›⟩
    · cases h3
  · cases h3

/-- The object at 0x10100 for every form, the barriers in a CORESIDENT task. -/
theorem witness_ObjectForms :
    (∀ i ∈ [Instr.sigt (fl 4 0x602 0x601 0 0), .sigs (fl 0 0x602 0x601 0 1)], ∃ g x, Ready i tState g x ∧ objReads tState .write .write false true x = true) ∧
    (∃ g x, Ready (.boa (fl 0 0x602 0 0 0)) together g x ∧ objReads together .write .write true true x = true) ∧
    (∃ g x, Ready (.sigw (fl 0 0x602 0x601 0 0)) tState g x ∧ objReads tState .read .read false false x = true) ∧
    ∃ g x, Ready (.bow (fl 0 0x602 0 0 0)) together g x ∧ objReads together .read .write true false x = true :=
  ⟨ready_dec_all (fun _ x => objReads tState .write .write false true x = true) (by decide +kernel),
   ready_dec (fun _ x => objReads together .write .write true true x = true) (by decide +kernel),
   ready_dec (fun _ x => objReads tState .read .read false false x = true) (by decide +kernel),
   ready_dec (fun _ x => objReads together .read .write true false x = true) (by decide +kernel)⟩

/-- A state with a SYNC watchpoint of a kind and a condition on the object at 0x10100, or on named barrier 15. -/
def synced (s : State) (kind cond : Nat) (obj : Nat := 0x10100) : State :=
  { s with ctxs := s.ctxs.map fun e => (e.1, { e.2 with debug := some { session := 0, bp := [], dw := [], sw := [(0, w64 obj), (1, w64 (kind + 4 * cond))] } }) }

/-- Whether an object form on a watched object is made at once. -/
def objSyncs (s : State) (perm decl : Access) (barrier : Bool) (kind : Nat) (x : Iss) : Bool :=
  x.g.unclass.isNone && !x.g.inh && match objCheck x (x.start s) perm decl barrier with
  | .ok accs s1 => accs.length == 1 && Machine.watched s1 x.who.ctx kind (x.a x.low) && !crossHeld s1 x.who.ctx (x.op accs [] 0) &&
    match touchPages s1 x.who.slot x.who.index x.who.owner true true false (globalPages accs) with
    | .go _ _ _ => true
    | _ => false
  | _ => false

theorem witness_ObjectForms_sync :
    (∀ i ∈ [Instr.sigt (fl 4 0x602 0x601 0 0), .sigs (fl 0 0x602 0x601 0 1)], ∃ g x, Ready i (synced tState 3 0) g x ∧
      objSyncs (synced tState 3 0) .write .write false 3 x = true) ∧
    ∃ g x, Ready (.boa (fl 0 0x602 0 0 0)) (synced together 2 1) g x ∧ objSyncs (synced together 2 1) .write .write true 2 x = true :=
  ⟨ready_dec_all (fun _ x => objSyncs (synced tState 3 0) .write .write false 3 x = true) (by decide +kernel),
   ready_dec (fun _ x => objSyncs (synced together 2 1) .write .write true 2 x = true) (by decide +kernel)⟩

/-- What the read of a waiting SIGW or BOW finds: whether it waits on an object, whether it may go on. -/
def readsNow (s : State) (object done : Bool) : Bool :=
  match s.gang? ⟨0, 0, 0⟩, s.who ⟨0, 0, 0⟩ with
  | some g, some w =>
    let ready (op : PendOp) (a : LaneAcc) (p : Nat → Bool) : Bool :=
      let s1 := correctMem (recallLines (crossAccs s w op.accs) a.pa 8 (.of w.ctx)) (homeDie a.pa (pteBit a.leaf 8)) a.pa 8
      !issueStops s 0 w.ctx && !crossHeld s w.ctx op && ((KMap.get? s.ctxs w.ctx).bind Ctx.debug).isNone && !memPoisoned s1 a.pa 8 &&
        (againIss (s1.setGang ⟨0, 0, 0⟩ { g with block := none, unclass := none }) ⟨0, 0, 0⟩ op.i op.active).isSome && p (memNat s1 a.pa 8)
    match g.block with
    | some (.signal op) => !object && match op.accs with
      | a :: _ => ready op a fun v => if done then leVal a.data % 2 ^ 48 ≤ sigCount v ∨ sigErr v ≠ 0
          else sigCount v < leVal a.data % 2 ^ 48 ∧ sigErr v = 0
      | [] => false
    | some (.object op) => object && match op.accs with
      | a :: _ => ready op a fun v => ((g.arrivals.find? fun r => r.1 == w64 a.va).all fun r => (v / 2 ^ 63 == 1) != r.2) == done
      | [] => false
    | _ => false
  | _, _ => false

/-- SIGW of a COUNT that is reached exactly, of one that falls short by one, and of one in error; BOW after the phase turned, before it, and
without an arrival. -/
theorem witness_ObjectWaits :
    readsNow (after (.sigw (fl 0 0x602 0x601 0 0)) (withMem [(0x10100, 5#64)])) false true = true ∧
    readsNow (after (.sigw (fl 0 0x602 0x601 0 0)) (withMem [(0x10100, 4#64)])) false false = true ∧
    readsNow (after (.sigw (fl 0 0x602 0x601 0 0)) (withMem [(0x10100, 0x8001000000000000#64)])) false true = true ∧
    readsNow (after (.bow (fl 0 0x602 0 0 0)) { together with gangs := [(0, { tGang with arrivals := [(0x10100#64, true)] })] }) true true = true ∧
    readsNow (after (.bow (fl 0 0x602 0 0 0)) { together with gangs := [(0, { tGang with arrivals := [(0x10100#64, false)] })] }) true false = true ∧
    readsNow (after (.bow (fl 0 0x602 0 0 0)) together) true true = true := by
  refine ⟨?_, ?_, ?_, ?_, ?_, ?_⟩ <;> decide +kernel

/-- A team of two gangs of which the other has not arrived; one in which the test gang has. -/
def pairTeam : State := withTeam fun t => { t with gangs := [⟨0, 0, 0⟩, ⟨0, 1, 0⟩] }
def hasArrived : State := withTeam fun t => { t with arr := [(15, 1#128)] }

/-- Whether the gang's ARR bit of a barrier is set, and whether its arrival completes it. -/
def barrierIs (s : State) (x : Iss) (mine complete : Bool) : Bool :=
  match s.team? x.who.team with
  | some t => (KMap.get t.arr 0#128 15).getLsbD x.g.index == mine && ((KMap.get? s.ctxs x.who.ctx).bind Ctx.debug).isNone && x.g.unclass.isNone &&
      barrierComplete { t with arr := KMap.set t.arr 0#128 15 (KMap.get t.arr 0#128 15 ||| BitVec.ofNat 128 (2 ^ x.g.index)) } 15 == complete
  | none => false

theorem witness_TeamBarriers :
    (∀ i ∈ [Instr.bara (fl 0 0 0 15 0), .bars (fl 0 0 0 15 0)], ∃ g x, Ready i pairTeam g x ∧ barrierIs pairTeam x false false = true) ∧
    (∀ i ∈ [Instr.bara (fl 0 0 0 15 0), .bars (fl 0 0 0 15 0)], ∃ g x, Ready i tState g x ∧ barrierIs tState x false true = true) ∧
    ∃ g x, Ready (.barw (fl 0 0 0 15 0)) hasArrived g x ∧ barrierIs hasArrived x true true = true :=
  ⟨ready_dec_all (fun _ x => barrierIs pairTeam x false false = true) (by decide +kernel),
   ready_dec_all (fun _ x => barrierIs tState x false true = true) (by decide +kernel),
   ready_dec (fun _ x => barrierIs hasArrived x true true = true) (by decide +kernel)⟩

/-- BARA and BARS with the gang's own bit set; with an unclassified issue in flight; with watchpoints ARRIVE and LAST of the barrier (R428). -/
theorem witness_TeamBarriers_waits :
    (∀ i ∈ [Instr.bara (fl 0 0 0 15 0), .bars (fl 0 0 0 15 0)], ∃ g x, Ready i hasArrived g x ∧
      ((hasArrived.team? x.who.team).any fun t => (KMap.get t.arr 0#128 15).getLsbD x.g.index) = true) ∧
    (∀ i ∈ [Instr.bara (fl 0 0 0 15 0), .bars (fl 0 0 0 15 0)], ∃ g x, Ready i inFlight g x ∧ x.g.unclass ≠ none ∧
      ((inFlight.team? x.who.team).any fun t => !(KMap.get t.arr 0#128 15).getLsbD x.g.index) = true) ∧
    ∀ cond ∈ [0, 1, 2], ∀ i ∈ [Instr.bara (fl 0 0 0 15 0), .bars (fl 0 0 0 15 0)], ∃ g x,
      Ready i (synced tState 1 cond (15 + 2 ^ 32 * tRecord.taskid.toNat)) g x ∧ x.g.unclass = none ∧
      syncWatch (synced tState 1 cond (15 + 2 ^ 32 * tRecord.taskid.toNat)) x.who.ctx 1 cond (w64 (15 + 2 ^ 32 * x.task.rec_.taskid.toNat)) (fun _ => true) = true :=
  ⟨ready_dec_all (fun _ x => ((hasArrived.team? x.who.team).any fun t => (KMap.get t.arr 0#128 15).getLsbD x.g.index) = true) (by decide +kernel),
   ready_dec_all (fun _ x => x.g.unclass ≠ none ∧
     ((inFlight.team? x.who.team).any fun t => !(KMap.get t.arr 0#128 15).getLsbD x.g.index) = true) (by decide +kernel),
   fun cond hc => ready_dec_all (fun _ x => x.g.unclass = none ∧ syncWatch (synced tState 1 cond (15 + 2 ^ 32 * tRecord.taskid.toNat)) x.who.ctx 1 cond
     (w64 (15 + 2 ^ 32 * x.task.rec_.taskid.toNat)) (fun _ => true) = true) (by
     simp only [List.mem_cons, List.not_mem_nil, or_false] at hc
     rcases hc with rfl | rfl | rfl <;> decide +kernel)⟩

/-- A team whose barrier 15 is complete: its gang waits at it, and a carve request of one L1 unit and one scratchpad unit is pending. -/
def completed : State :=
  { withTeam (fun t => { t with arr := [(15, 1#128)], carve := some { g := ⟨0, 0, 0⟩, fill := 0, spu := 1, l1u := 1 } }) with
    gangs := [(0, { tGang with block := some (.barrier 15), fills := [{ id := 0, kind := .awaits, writes := [], flags := 0#5, setsFlags := false }] })] }

theorem witness_TeamBarriers_completes : ∃ t c y, completed.team? 0 = some t ∧ barrierComplete t 15 = true ∧ t.carve = some c ∧
    ⟨0, 0, 0⟩ ∈ t.gangs ∧ completed.gang? ⟨0, 0, 0⟩ = some y ∧ y.team = 0 ∧ y.block = some (.barrier 15) ∧
    ((∀ m ∈ t.stashes, m.off + m.len ≤ c.spu * 65536) ∧
      ∀ p ∈ t.halves.map (fun h => splitHalf (completed.setTeam 0 { t with arr := KMap.del t.arr 15 }) h c.spu c.l1u), p ≠ none) := by
  refine ⟨_, _, _, rfl, ?_, rfl, ?_, rfl, ?_, ?_, ?_, ?_⟩ <;> decide +kernel

/-- A carve request pending. -/
def carving : State := withTeam fun t => { t with carve := some { g := ⟨0, 0, 0⟩, fill := 0, spu := 1, l1u := 1 } }
/-- Whether a request in A is legal. -/
def carveLegal (x : Iss) : Bool :=
  !(bits (x.a x.low).toNat 32 32 != 0 || bits (x.a x.low).toNat 16 16 == 0 ||
    decide (256 < x.task.rec_.regu + bits (x.a x.low).toNat 0 16 + bits (x.a x.low).toNat 16 16))

/-- A request of L1U 1 and SPU 0 (0x10000), one with L1U 0, and one while another is pending. -/
theorem witness_CarveOut :
    (∃ g x t, Ready (.carve (fl 4 0x600 0 0 0)) tState g x ∧ tState.team? x.who.team = some t ∧ t.carve = none ∧ carveLegal x = true) ∧
    (∃ g x t, Ready (.carve (fl 4 0x601 0 0 0)) tState g x ∧ tState.team? x.who.team = some t ∧ t.carve = none ∧ carveLegal x = false) ∧
    ∃ g x t, Ready (.carve (fl 4 0x600 0 0 0)) carving g x ∧ carving.team? x.who.team = some t ∧ t.carve ≠ none := by
  refine ⟨?_, ?_, ?_⟩
  · obtain ⟨g, x, hr, hp⟩ := ready_of_meets (i := .carve (fl 4 0x600 0 0 0)) (s := tState) (p := fun _ x => carveLegal x &&
      (tState.team? x.who.team).any fun t => t.carve.isNone) (by decide +kernel)
    simp only [Bool.and_eq_true, Option.any_eq_true, Option.isNone_iff_eq_none] at hp
    obtain ⟨h1, t, h2, h3⟩ := hp
    exact ⟨g, x, t, hr, h2, h3, h1⟩
  · obtain ⟨g, x, hr, hp⟩ := ready_of_meets (i := .carve (fl 4 0x601 0 0 0)) (s := tState) (p := fun _ x => !carveLegal x &&
      (tState.team? x.who.team).any fun t => t.carve.isNone) (by decide +kernel)
    simp only [Bool.and_eq_true, Option.any_eq_true, Option.isNone_iff_eq_none, Bool.not_eq_true'] at hp
    obtain ⟨h1, t, h2, h3⟩ := hp
    exact ⟨g, x, t, hr, h2, h3, h1⟩
  · obtain ⟨g, x, hr, hp⟩ := ready_of_meets (i := .carve (fl 4 0x600 0 0 0)) (s := carving) (p := fun _ x =>
      (carving.team? x.who.team).any fun t => t.carve.isSome) (by decide +kernel)
    obtain ⟨t, h2, h3⟩ := (Option.any_eq_true _ _).mp hp
    exact ⟨g, x, t, hr, h2, fun h => by simp [h] at h3⟩

/-! ### Witnesses: exceptions and the special registers -/

/-- The gang in its handler: all lanes took a BREAKPOINT. -/
def inHandler : State := withGang fun g => { g with inh := true, tmask := 0xFF#64, cause := 0xF1#8, tpc := 0x1300#64, held := 0xFF00#64 }

/-- A gang outside a handler with a handler address; one inside, and one without a handler; one with an agent attached; a RESTARTABLE
task for the causes 1 and 2. -/
theorem witness_ExceptionEntry :
    ((tState.gang? ⟨0, 0, 0⟩).any fun g => !g.inh && g.thnd != 0#64 && (0x30 : Nat) != 1 && !agentAttached tState 0) = true ∧
    ((inHandler.gang? ⟨0, 0, 0⟩).any fun g => g.inh) = true ∧
    (((withGang fun g => { g with thnd := 0#64 }).gang? ⟨0, 0, 0⟩).any fun g => !g.inh && g.thnd == 0#64) = true ∧
    ((watched.gang? ⟨0, 0, 0⟩).isSome && agentAttached watched 0) = true ∧
    ((tState.gang? ⟨0, 0, 0⟩).any fun g => !g.inh && g.thnd != 0#64 && (tState.task? 0).any fun t =>
      ({ t with rec_ := { t.rec_ with restartable := true } } : Task).rec_.restartable) = true := by
  refine ⟨?_, ?_, ?_, ?_, ?_⟩ <;> decide +kernel

/-- The gangs of the test team, which has one. -/
theorem quietGangs {s : State} {t : Team} {k : Nat} (ht : t.gangs = [⟨0, 0, 0⟩])
    (h : ((s.gang? ⟨0, 0, 0⟩).all fun g => g.unclass.isNone && g.late.isNone && g.block != some .peer) = true) :
    ∀ r ∈ t.gangs, ∀ g, s.gang? r = some g → g.team = k → g.unclass = none ∧ g.late = none ∧ g.block ≠ some .peer := by
  intro r hr g hg _
  rw [ht] at hr
  cases List.mem_singleton.mp hr
  simpa [hg, and_assoc] using h

/-- A task that may be restarted; teams with nothing in flight, of which one is killed: it is placed again, or the task ends with fault status. -/
theorem witness_ExceptionEntry_kill :
    (∃ t task, (withRec fun r => { r with restartable := true }).team? 0 = some t ∧ t.dying = false ∧
      (withRec fun r => { r with restartable := true }).task? t.slot = some task ∧ TeamQuiet (withRec fun r => { r with restartable := true }) 0 t ∧
      task.rec_.restartable = true ∧ KMap.get task.relaunches 0 t.index < 3 ∧ task.fault = none) ∧
    ∃ t task, tState.team? 0 = some t ∧ t.dying = false ∧ tState.task? t.slot = some task ∧ TeamQuiet tState 0 t ∧ task.rec_.restartable = false ∧
      ∀ j u, tState.team? j = some u → u.slot = t.slot → u.dying = false ∧ TeamQuiet tState j u := by
  constructor
  · refine ⟨_, _, rfl, by decide +kernel, rfl, ⟨by decide +kernel, by decide +kernel, quietGangs rfl (by decide +kernel), ?_⟩, by decide +kernel, by decide +kernel, by decide +kernel⟩
    exact fun page => rfl
  · refine ⟨_, _, rfl, by decide +kernel, rfl, ⟨by decide +kernel, by decide +kernel, quietGangs rfl (by decide +kernel), fun _ => rfl⟩, by decide +kernel, fun j u hu _ => ?_⟩
    have hj : j = 0 := by
      by_contra hc
      obtain ⟨u0, h0⟩ : ∃ u0, tState.teams = [(0, u0)] := ⟨_, rfl⟩
      simp [State.team?, h0, KMap.get?, hc] at hu
    subst hj
    cases hu
    exact ⟨by decide +kernel, by decide +kernel, by decide +kernel, quietGangs rfl (by decide +kernel), fun _ => rfl⟩

/-- TRAP with its least and greatest code; RTE in a handler and outside. -/
theorem witness_TrapAndReturn :
    (∀ i ∈ [Instr.trap (fl 0 0 0 0x40 0), .trap { fl 0 0 0 0x7F 0 with gp := 0#3 }], ∃ g x, Ready i tState g x ∧ g.inh = false ∧ g.thnd ≠ 0#64 ∧
      2 < x.f.imm.toNat % 256 ∧ x.f.imm.toNat % 256 < 0xF0) ∧
    (∃ g x, Ready (.rte (fl 0 0 0 0 0)) inHandler g x ∧ g.inh = true) ∧ ∃ g x, Ready (.rte (fl 0 0 0 0 0)) tState g x ∧ g.inh = false :=
  ⟨ready_dec_all (fun g x => g.inh = false ∧ g.thnd ≠ 0#64 ∧ 2 < x.f.imm.toNat % 256 ∧ x.f.imm.toNat % 256 < 0xF0) (by decide +kernel),
   ready_dec (fun g _ => g.inh = true) (by decide +kernel), ready_dec (fun g _ => g.inh = false) (by decide +kernel)⟩

/-- MFC of every control register; MTC of those it may write, in a handler and outside, and of those it may not. -/
theorem witness_ControlRegisters :
    (∀ i ∈ (List.range 12).map fun k => Instr.mfc (fl 4 0 0 k 0), ∃ g x, Ready i tState g x ∧ g.fills.any Fill.setsFlags = false) ∧
    (∀ i ∈ (List.range 10).map fun k => Instr.mtc (fl 0 0x601 0 k 0), ∃ g x, Ready i inHandler g x ∧ g.inh = true) ∧
    (∀ i ∈ ([5, 6, 7, 8, 9].map fun k => Instr.mtc (fl 0 0x601 0 k 0)), ∃ g x, Ready i tState g x) ∧
    (∀ i ∈ ([0, 4].map fun k => Instr.mtc (fl 0 0x601 0 k 0)), ∃ g x, Ready i tState g x ∧ g.inh = false) ∧
    ∀ i ∈ ([10, 11].map fun k => Instr.mtc (fl 0 0x601 0 k 0)), ∃ g x, Ready i inHandler g x :=
  ⟨ready_dec_all (fun g _ => g.fills.any Fill.setsFlags = false) (by decide +kernel), ready_dec_all (fun g _ => g.inh = true) (by decide +kernel),
   ready_list (by decide +kernel), ready_dec_all (fun g _ => g.inh = false) (by decide +kernel), ready_list (by decide +kernel)⟩

theorem witness_CountersAndQueries :
    (∀ i ∈ (List.range 9).map fun k => Instr.rdcnt (fl 4 0 0 k 0), ∃ g x, Ready i tState g x) ∧
    (∀ i ∈ [Instr.rdtime (fl 0x604 0 0 0 0), .regq (fl 4 1 0 0 0)], ∃ g x, Ready i tState g x) ∧
    ∃ g x, Ready (.rddig (fl 4 0 0 0 0)) tState g x ∧ (tState.team? x.who.team).isSome = true :=
  ⟨ready_list (by decide +kernel), ready_list (by decide +kernel), ready_dec (fun _ x => (tState.team? x.who.team).isSome = true) (by decide +kernel)⟩

/-- A gang whose lanes replay a BREAKPOINT; one that sleeps to tick 7. -/
def replaying : State := withGang fun g => { g with exempt := 0xFFFF#64 }
def sleeping (tick : Nat) : State := { withGang fun g => { g with block := some (.sleep 7) } with tick }

theorem witness_SleepAndHalt :
    (∃ g x, Ready (.sleep (fl 0 0x601 0 0 0)) tState g x ∧ (x.a x.low).toNat % 2 ^ 32 ≠ 0) ∧
    (∃ g x, Ready (.sleep (fl 0 0x609 0 0 0)) tState g x ∧ (x.a x.low).toNat % 2 ^ 32 = 0) ∧
    (∃ g x, Ready (.haltdbg (fl 0 0 0 0 0)) replaying g x ∧ x.active &&& ~~~x.g.exempt = 0#64) ∧
    (∃ g x, Ready (.haltdbg (fl 0 0 0 0 0)) tState g x ∧ x.active &&& ~~~x.g.exempt ≠ 0#64) ∧
    (∀ t ∈ [6, 7], (((sleeping t).gang? ⟨0, 0, 0⟩).any fun g => g.block == some (.sleep 7)) = true) :=
  ⟨ready_dec (fun _ x => (x.a x.low).toNat % 2 ^ 32 ≠ 0) (by decide +kernel), ready_dec (fun _ x => (x.a x.low).toNat % 2 ^ 32 = 0) (by decide +kernel),
   ready_dec (fun _ x => x.active &&& ~~~x.g.exempt = 0#64) (by decide +kernel), ready_dec (fun _ x => x.active &&& ~~~x.g.exempt ≠ 0#64) (by decide +kernel),
   by decide +kernel⟩

/-- Under P1, which holds no lane: an arithmetic form, a load of an address that is not mapped, YIELD. -/
theorem witness_IssuesCommit : (∀ i ∈ [Instr.iadd { fl 4 1 2 0 3 with gp := 1#3 }, .ld { fl 4 0x612 0 0 3 with gp := 1#3 },
    .yield { fl 0 0 0 0 0 with gp := 1#3 }, .rte { fl 0 0 0 0 0 with gp := 1#3 }], ∃ g x, Idle i tState g x) ∧
    (tState.gang? ⟨0, 0, 0⟩).isSome = true := by
  have h : ([Instr.iadd { fl 4 1 2 0 3 with gp := 1#3 }, .ld { fl 4 0x612 0 0 3 with gp := 1#3 },
    .yield { fl 0 0 0 0 0 with gp := 1#3 }, .rte { fl 0 0 0 0 0 with gp := 1#3 }].all fun i => idles i tState) = true := by decide +kernel
  exact ⟨fun i hi => idle_of_idles (List.all_eq_true.mp h i hi), by decide +kernel⟩

/-- A current gang with its party, its task and a lane set; a reserved modifier and a reserved immediate. -/
theorem witness_IllegalWords : ((tState.gang? ⟨0, 0, 0⟩).any fun g => tState.cur == some ⟨0, 0, 0⟩ && ((tState.who ⟨0, 0, 0⟩).any fun w =>
      (tState.task? w.slot).isSome) && g.chooseSet.isSome) = true ∧
    (∀ i ∈ [Instr.iadd (fl 4 1 2 0 0x23), .nop (fl 0 0 0 1 0), .iadd (fl 4 1 2 0 8)], (i.form.any fun e => (e.1.refuse e.2).isSome) = true) := by
  constructor <;> decide +kernel

/-! ### Witnesses: happenings of gangs, teams and engines -/

/-- A quotient on its way; a PC that is no multiple of 4; a word at the gang's PC; waiting loads of a chain slot. -/
def dividing : State := after (.idiv (fl 4 1 0x601 0 2)) tState
def oddPc : State := withGang fun g => { g with pc := (List.range 16).map fun l => (l, 0x1002#64) }
def tWord : W96 := (encode (.iadd (fl 4 1 2 0 3))).getD 0#96
def placed : State :=
  { withMem [(0x1000, tWord.truncate 64), (0x1008, (tWord >>> 64).truncate 64)] with icache := [⟨0, 0, 0x1000, 0x100B, tWord⟩] }
def replayDue : State := { placed with gangs := [(0, { tGang with waits := some .replay, vCorr := [(34, true)] })] }
def loadWaits : State :=
  { withGang (fun g => { g with block := some (.chain 1) }) with chains := [(1, { tSlot with waiting := [(⟨0, 0, 0⟩, some [0x3#32])] })] }

/-- The outcome of a fetch: 0 a word, 1 a failure, 2 a miss. -/
def fetchKind (s : State) (pc : W64) : Option Nat :=
  (s.task? 0).map fun t => match fetchAt s 0 t pc with
    | .word _ _ => 0
    | .fail _ => 1
    | .miss _ => 2

theorem witness_GangHappenings :
    ((dividing.acting? ⟨0, 0, 0⟩).any fun e => e.1.fills.length == 1 && fillReady e.1 0) = true ∧
    (∀ e ∈ [(placed, 0), (withGang fun g => { g with pc := (List.range 16).map fun l => (l, 0x10000#64) }, 1)], (((e : State × Nat).1.acting? ⟨0, 0, 0⟩).any fun a =>
      a.1.block.isNone && !a.1.stopped && !issueStops e.1 0 a.2.1.ctx && (boundaryTrap a.1).isNone && a.1.chooseSet.any fun c => fetchKind e.1 c.1 == some e.2) = true) ∧
    ((oddPc.acting? ⟨0, 0, 0⟩).any fun a => a.1.block.isNone && !a.1.stopped && !issueStops oddPc 0 a.2.1.ctx && (boundaryTrap a.1).isNone &&
      a.1.chooseSet.any fun c => c.1.toNat % 4 != 0) = true ∧
    ((replayDue.acting? ⟨0, 0, 0⟩).any fun a => a.1.waits == some .replay && !issueStops replayDue 0 a.2.1.ctx && a.1.chooseSet.any fun c =>
      match fetchAt replayDue 0 a.2.2 c.1 with
      | .word w _ => match decode w with
        | .ok i => i.form.isSome
        | .error _ => false
      | _ => false) = true ∧
    ((loadWaits.acting? ⟨0, 0, 0⟩).any fun a => a.1.block == some (.chain 1) && !(chainBusy loadWaits 1) &&
      (chainSlot loadWaits 1).waiting == [(⟨0, 0, 0⟩, some [0x3#32])]) = true := by
  refine ⟨?_, ?_, ?_, ?_, ?_⟩ <;> decide +kernel

/-- A task with a team still to place, with two relaunches, with none left, with room on no core, and a CORESIDENT one. -/
def toPlace (h : Task → Task) : State := { tState with tasks := tState.tasks.map fun e => (e.1, h { e.2 with placed := 0, rec_ := { e.2.rec_ with nx := 2 } }) }
def noCore : State := { toPlace id with ctxs := tState.ctxs.map fun e => (e.1, { e.2 with m := { e.2.m with coremask := 0#64 } }) }
/-- A gang whose lanes have ended. -/
def ended : State := withGang fun g => { g with live := 0#64 }

theorem witness_PlacementAndRetirement :
    (((toPlace id).task? 0).any fun t => mayPlace (toPlace id) t && !t.rec_.coresident && !t.rerun && t.relaunch.isEmpty && t.placed < t.rec_.total &&
      (planTeam (toPlace id) t.ctx t.rec_).isSome) = true ∧
    (((toPlace fun t => { t with relaunch := [1, 0], placed := 2 }).task? 0).any fun t => mayPlace tState t && !t.rec_.coresident && !t.rerun && t.placed == 2 &&
      t.relaunch.contains (nthTeam t.rec_ 0) && tState.teams.any fun e => e.2.slot == 0 && e.2.index == nthTeam t.rec_ 0) = true ∧
    (((toPlace fun t => { t with relaunch := [1], placed := 2 }).task? 0).any fun t => mayPlace tState t && !t.rec_.coresident && !t.rerun && t.placed == 2 &&
      !t.relaunch.contains (nthTeam t.rec_ 0) && t.relaunch.contains (nthTeam t.rec_ 1) &&
      !tState.teams.any fun e => e.2.slot == 0 && e.2.index == nthTeam t.rec_ 1) = true ∧
    (((toPlace fun t => { t with placed := 2 }).task? 0).any fun t => mayPlace tState t && t.relaunch.isEmpty && t.rec_.total ≤ t.placed) = true ∧
    ((noCore.task? 0).any fun t => mayPlace noCore t && !t.rec_.coresident && !t.rerun && t.placed < t.rec_.total && (planTeam noCore t.ctx t.rec_).isNone) = true ∧
    (((toPlace fun t => { t with rec_ := { t.rec_ with coresident := true } }).task? 0).any fun t => mayPlace tState t && t.rec_.coresident && t.placed == 0) = true ∧
    ((ended.acting? ⟨0, 0, 0⟩).any fun a => retirable ended ⟨0, 0, 0⟩ a.1 && !anyStop ended a.2.1.ctx && (ended.team? a.2.1.team).isSome) = true := by
  refine ⟨?_, ?_, ?_, ?_, ?_, ?_, ?_⟩ <;> decide +kernel

/-- An MXOP of views at the head of its queue; one that streams A from an address. -/
def mxQueued : State := after (.mxop (fl 0 0x60B 0 0 0)) tState
def mxStreams (addr : W64) : State :=
  { mxQueued with mxq := mxQueued.mxq.map fun e => (e.1, e.2.map fun m =>
      { m with params := [0x010C0B00#64, 0x0000001000100010#64, addr, 0x0000000200000020#64], wa := 0#64, aBytes := [] }) }
/-- What the head of the queue does next: 0 it ends, 1 it reads a line, 2 it kills its team. -/
def mxKind (s : State) : Option Nat :=
  match KMap.get s.mxq [] 0 with
  | [] => none
  | e :: _ =>
    if e.again.isSome || e.recheck.isSome then none else
    match s.who e.g with
    | none => none
    | some w => match s.task? w.slot with
      | none => none
      | some t =>
        let e' := (mxReadViews s e).1
        if standsStill s 0 w.ctx then none else match mxNextLine e' with
        | none => some 0
        | some (_, va, n) =>
          if stillBehind (mxSetHead s 0 (some e')) e.g e.behind then none
          else match streamLine (mxSetHead s 0 (some e')) (sideWho w.core w.ctx w.slot w.team w.index w.half) t.rec_ va n with
            | .ok _ _ => some 1
            | .kill _ _ _ => some 2
            | _ => none

/-- An engine operation at an element, with what the element has read. -/
def engine (i : Instr) (elem : Nat) (buf : Option (List (Byte × Bool)) := none) : State :=
  let s := after i tState
  { s with engine := s.engine.map fun e => (e.1, { e.2 with elem, buf }) }
/-- Whether the one engine operation may act, and whether it has ended. -/
def engKind (s : State) (kind : EngineKind) (isEnded : Bool) : Bool :=
  match s.engine with
  | [(_, op)] => match s.task? op.slot with
    | some _ => op.kind == kind && !standsStill s op.core op.ctx && !issueStops s op.core op.ctx && !anyStop s op.ctx && !stillBehind s op.g op.behind &&
        !op.peerWait && engEnded op == isEnded && op.again.isNone && op.recheck.isNone && (op.buf.isNone || !elemHeld s op) && match signalTouch s op with
          | .go _ _ _ => true
          | .wait _ _ => false
    | none => false
  | _ => false
/-- The bytes that an element has read: an index of 1, and one byte after it. -/
def anIndex : List (Byte × Bool) := (leBytes 8 1).map (·, false)
def engBufs (k : EngineKind) : List (Option (List (Byte × Bool))) :=
  if engIndexed k then [none, some anIndex, some (anIndex ++ [(7#8, false)])] else [none, some [(7#8, false)]]
/-- The accesses of one side pass and touch their page. -/
def touchesOne (w : Who) (write force : Bool) (c : LaneChk) (ok : LaneAcc → State → Bool) : Bool :=
  match c with
  | .ok [a] s1 => a.peer.isNone && a.space == .global && match elemTouch s1 w write force false [a] with
    | (some _, s2) => ok a s2
    | _ => false
  | _ => false
/-- The checks of the operation's element, by its kind: the index, then the source and the destination. -/
def elemPasses (s : State) : Bool :=
  match s.engine with
  | [(_, op)] => match s.task? op.slot with
    | some t =>
      let w := engWho op
      let p := elemPlan op 1
      ((!engIndexed op.kind) || touchesOne w false false
        (plainCheck s w t.rec_ 0 (engAddr op.desc 2 (op.elem * cpyIdx op.desc)) (cpyIdx op.desc) (cpyIdx op.desc) .read .read false) fun _ _ => true) &&
      match elemCheck s op w t.rec_ p.1 p.2.1 p.2.2 (op.kind == .cpy || op.kind == .cpym) with
      | .ok [a] [b] s1 => touchesOne w false false (.ok [a] s1) fun _ s2 =>
          touchesOne w true (op.kind == .scata) (.ok [b] s2) fun _ _ => true
      | _ => false
    | none => false
  | _ => false

/-- The queued MXOP with its block to be read again; with words that differ, without a cause and with one. -/
def mxAgain (again recheck : Option (Nat × Nat × Gang)) : State :=
  { mxQueued with mxq := mxQueued.mxq.map fun e => (e.1, e.2.map fun m => { m with again, recheck }) }
def mxFaults (s : State) : Option Bool :=
  match KMap.get s.mxq [] 0 with
  | [] => none
  | e :: _ => match s.who e.g, e.recheck with
    | some w, some (c, _, g) => if standsStill s 0 w.ctx || (s.task? w.slot).isNone || e.again.isSome then none else
        some (c ≠ 0 || mxBad g e.params || (mxLent g e.params).isSome || mxUnready g e.params)
    | _, _ => none
/-- A copy whose descriptor is to be read again, or was found to differ. -/
def engAgain (again : Option (Nat × Nat)) (recheck : Option Nat) (desc : List W64 → List W64) : State :=
  let s := engine (.cpy (fl 0 0x60C 0x678 0 0)) 0
  { s with engine := s.engine.map fun e => (e.1, { e.2 with again, recheck, desc := desc e.2.desc }) }
def engWaits (s : State) : Bool :=
  match s.engine with
  | [(_, op)] => (s.task? op.slot).isSome && !standsStill s op.core op.ctx && !issueStops s op.core op.ctx && !anyStop s op.ctx &&
      !stillBehind s op.g op.behind && !op.peerWait && !engEnded op && op.buf.isNone
  | _ => false

/-- An MXOP and a copy whose block is read again, or was found to differ. -/
theorem witness_UnitsRun_again :
    ((KMap.get (mxAgain (some (0, 0x40, tGang)) none).mxq [] 0).all fun e => e.again.isSome) = true ∧
    mxFaults (mxAgain none (some (0, 0x40, tGang))) = some false ∧ mxFaults (mxAgain none (some (2, 0x40, tGang))) = some true ∧
    mxFaults (mxAgain none (some (0, 0x40, { tGang with w := [] }))) = some true ∧
    engWaits (engAgain (some (0, 0x80)) none id) = true ∧ engWaits (engAgain none (some 0x80) id) = true ∧
    engWaits (engAgain none (some 0x80) fun d => d.set 2 0xFF#64) = true := by
  refine ⟨?_, ?_, ?_, ?_, ?_, ?_, ?_⟩ <;> decide +kernel

theorem mx_ends : mxKind mxQueued = some 0 := by decide +kernel
theorem mx_line : mxKind (mxStreams 0x10000#64) = some 1 := by decide +kernel
theorem mx_kill : mxKind (mxStreams 0x1200#64) = some 2 := by decide +kernel
/-- The four forms, each with its kind. -/
def engForms : List (Instr × EngineKind) :=
  [(.cpy (fl 0 0x60C 0x678 0 0), .cpy), (.cpym (fl 0 0x60D 0x602 0 0), .cpym), (.gather (fl 0 0x60E 0x602 0 0), .gather),
   (.scata (fl 0 0x610 0x602 0 0), .scata)]

/-- Each form at each access of an element, and at its end; elements whose accesses pass; a correctable word of a view. -/
theorem witness_UnitsRun :
    (mxKind mxQueued = some 0 ∧ mxKind (mxStreams 0x10000#64) = some 1 ∧ mxKind (mxStreams 0x1200#64) = some 2) ∧
    (∀ e ∈ engForms, (engBufs e.2).all (fun b => engKind (engine e.1 3 b) e.2 false && elemPasses (engine e.1 3 b)) = true ∧
      engKind (engine e.1 (if e.2 = .cpym then 8 else 4)) e.2 true = true) ∧
    ({ tGang with vCorr := [(2 * (40 * 16), true)] } : Gang).viewCorr (view 3 8 40 1 8 3) = true ∧
    ((mxQueued.gang? ⟨0, 0, 0⟩).any fun g => !g.viewCorr (view 2 0 16 16 16 0)) = true ∧
    tRecord.digest = false ∧ ∀ e ∈ anIndex, e.2 = false :=
  ⟨⟨mx_ends, mx_line, mx_kill⟩, by decide +kernel, by decide +kernel, by decide +kernel, by decide +kernel, by decide +kernel⟩

/-- The bytes of a signed header (R436) with version 1, a body of one byte, its hash and a signature. -/
def tHeader (magic hash r v : Nat) : List Byte :=
  leBytes 4 magic ++ leBytes 4 1 ++ leBytes 4 1 ++ List.replicate 36 0#8 ++ leBytes 48 hash ++ List.replicate 160 0#8 ++ leBytes 48 r ++ leBytes 48 v ++
    List.replicate 160 0#8
/-- Flash that holds bytes from an address on. -/
def flashOf (a : Nat) (bs : List Byte) : KMap Byte := List.zipWith (fun k b => (a + k, b)) (List.range bs.length) bs
/-- Keys whose holders signed the empty challenge, a configuration block and an image; made outside for the curve of R436. -/
def tKey : List Byte :=
  leBytes 48 0x2a9459582a597a169e1eaa4694af9bc1ea6115a6bc9166f045653bbfe7f83e48fca78bc73c114ca5c08a665019905294 ++
  leBytes 48 0x6bf9b1ffc7bdec92f973d33baf080c22a5f0204dd71b1502a3ba4de17fdec53d0e5ec0133caaff320aa1170d089a6621
def tSig : List Byte :=
  leBytes 48 0x38b060a751ac96384cd9327eb1b1e36a21fdb71114be07434c0cc7bf63f6e1da274edebfe76f65fbd51ad2f14898b95b ++
  leBytes 48 0x38b060a751ac96384cd9327eb1b1e36a21fdb71114be07434c0cc7bf63f6e1da274edebfe76f65fbd51ad2f14898b95b
def cfgKey : List Byte :=
  leBytes 48 0x8164562827593a458563842c157328c07b0bff2963aa2a1814fc15a22b7e4821f0571abfb7624f194858a533188d7c03 ++
  leBytes 48 0x4eabe818c528e53c390b59a90ec97002e330c73fab7f450ca24afaf16e7a448a3a27920f5463b3cb3cef697d81ca20da
def imgKey : List Byte :=
  leBytes 48 0x6bb04f68d4d357a47de88df26e613452f264b7a7aab1c33bedec1d8c61d0624470315428d92694c17590781752a45d63 ++
  leBytes 48 0xcf5aff872073153f578c440f5de1dad330783d815e1ff82efbac49a6745457f122af9f360c8dd0477036fa433fe7e28
/-- Flash with a configuration block in copy 0, and flash with an image in slot B. -/
def cfgFlash : KMap Byte := flashOf 0x08000000 (tHeader 0x47464C53 0xb58cd47b8c176c12e1db017f2494634f61bea339631735e6f744c2fbd59be3108ffb46849537f8357624b66faf696c8a 0x64b530aa04e301a651959063138cf3da1742e6e9ee63d7027a3b39307d45215f476525a49ee97950dc6b6b82ac2e6617
  0x1dea19df32b2e36349abbb9e2f7b4afee57b47654d1922a62205d2421821b6fd9a910b96a23799690abf894231aa9327 ++ cfgKey)
def imgFlash : KMap Byte := flashOf 0x04000000 (tHeader 0x44584C53 0xfb1c9e9f4f951d27a27365ab08fb0c05dde7c8913d84639c275cae5bdfeeda829b2e90b814b905f4e430a40f0469abb0 0x327b5e69e891786ab4fb76126572baf4aa1fe8e4e9362c9d0ec1c3a2fc4d924cd0a4ec6ff6ce2771c93380e62c94db6f
  0x2fcd1f3b22f27964b11639642d963f34efd3d67bb5a2a0d40b760c83ea146dfd27f7e8c7d8937aa0812eecba45665035 ++ [0xAA#8])
/-- Firmware states with each of them. -/
def cfgFw : Firmware := { Firmware.reset with flash := cfgFlash, romDigest := sha384 cfgKey }
def imgFw : Firmware := { Firmware.reset with flash := imgFlash, config := ⟨imgKey, [(tKey, true)], []⟩ }

/-- The keys' holders signed. -/
theorem key_signs : ecVerify tKey [] tSig = true := by decide +kernel
theorem config_signed : configAuth cfgFw false = true := by decide +kernel
theorem image_signed : slotAuth imgFw true = true := by decide +kernel

/-! ### Witnesses: memory and the network -/

/-- The task with reclassifications in progress. -/
def reclassing : State := { tState with tasks := tState.tasks.map fun e => (e.1, { e.2 with reclassing := [16, 28] }) }
/-- Walks of a page that is mapped and of one that is not. -/
def walking : State := { tState with tlb := [], walks := [⟨0, 0, 0, 0x10, false⟩, ⟨0, 0, 0, 0x50, false⟩] }
/-- An access of a peer window. -/
def peerAcc : LaneAcc := { lane := 0, space := .global, va := 0x12000, pa := 0, size := 8, peer := some (0, 0), data := [], data2 := [], leaf := 0#64 }
def peerOp (n : Nat) : PendOp :=
  { i := .ld (fl 4 0x600 0 0x2000 3), active := 1#64, accs := List.replicate n peerAcc, got := [], desc := 0#64, fill := 0 }
def peerReq : PeerReq := { window := 0, addr := 0, key := 0#32, kind := .read, size := 8, data := [], compare := [], gang := some ⟨0, 0, 0⟩, engine := none }
/-- A gang that waits for the last of n peer answers, and an engine operation that waits for one. -/
def peering (n : Nat) : State := { withGang fun g => { g with block := some .peer, unclass := some (peerOp n) } with peers := [(3, peerReq)] }
def enginePeer : State :=
  { after (.cpy (fl 0 0x60C 0x678 0 0)) tState with peers := [(3, { peerReq with gang := none, engine := some 0 })] }
/-- A migration of the page at src to the frame at dst. -/
def migrating (src dst : Nat) : State := { tState with migrations := [(2, ⟨0, ⟨w64 src, w64 dst, 4096, 0#64, 0⟩, false⟩)] }

/-- How a migration goes: 0 its source is not mapped, 1 its destination does not fit, 2 it moves, 3 its source is of the other world. -/
def migrates (s : State) : Option Nat :=
  match KMap.get? s.migrations 2 with
  | none => none
  | some m => match walk s m.ctx m.p.src.toNat, KMap.get? s.ctxs m.ctx with
    | none, _ => some 0
    | some (leaf, size), some c =>
      let src := m.p.src.toNat
      let dst := m.p.dst.toNat
      let stray := (List.range ((size + 2 ^ 21 - 1) / 2 ^ 21)).any fun k => isSecure s (pteFrame leaf + k * 2 ^ 21) != pteBit leaf 5
      let placed := !pteBit leaf 7 && !pteBit leaf 6 && src % size == 0 && m.p.len == size && dst % size == 0 && inMap s dst size &&
        (if 2 ≤ m.p.dest then isFar dst else !isFar dst && homeDie dst false == m.p.dest) && pteBit leaf 5 == c.m.secure &&
        (List.range ((size + 2 ^ 21 - 1) / 2 ^ 21)).all fun k => isSecure s (dst + k * 2 ^ 21) == c.m.secure
      if stray then some 3 else if !placed then some 1
      else if !anyCut s m.ctx && !othersHeld s m.ctx (pteFrame leaf) size && !(s.tasks.any fun t => t.2.ctx == m.ctx && !t.2.reclassing.isEmpty) &&
        (leafAddr s src 4 0 c.m.troot.toNat).isSome then some 2 else none
    | _, none => none

theorem witness_PageEvents :
    (((reclassing.task? 0).any fun t => [16, 28].all fun p => t.reclassing.contains p && !pageBusy reclassing engDest 0 p && !anyCut reclassing 0 && ((collectPage (drainPage reclassing 0 p) 0 0 p).task? 0).isSome &&
      t.classOf p == (if p = 16 then .priv 0 else .readOnly)) && (KMap.get? reclassing.ctxs 0).any fun c => !c.frozen) = true ∧
    ((clusterWalk walking 0 0 0x10000).1.any (fun e => e.2 != 0 && e.2 % 4096 == 0) && (clusterWalk walking 0 0 0x50000).1.isNone && walking.walkCache.isEmpty && (clusterWalks walking 0).length == 2) = true ∧
    ([1, 2].all fun n => !answerWaits (peering n) peerReq && (KMap.get? (peering n).peers 3).any (fun r => r.gang == some ⟨0, 0, 0⟩) &&
      ((peering n).gang? ⟨0, 0, 0⟩).any fun g => g.block == some .peer && g.unclass.any fun op =>
        let op' := { op with got := op.got ++ [(fitBytes 8 [], false)] }
        let s2 := { peering n with peers := [] }.setGang ⟨0, 0, 0⟩ { g with unclass := some op' }
        ((s2.who ⟨0, 0, 0⟩).any fun w => !peerStill s2 ⟨0, 0, 0⟩ w && s2.peers.isEmpty &&
          if n = 2 then peerOpen op' && (peerRequest s2 op' ⟨0, 0, 0⟩).isSome
          else !peerOpen op' && !crossHeld s2 w.ctx op' &&
            match touchPages s2 w.slot w.index w.owner (!onlyReads op.i) true false (globalPages op.accs) with
            | .go _ _ _ => true
            | .wait _ _ => false)) = true ∧
    (((KMap.get? enginePeer.peers 3).any fun r => r.gang.isNone && r.kind == .read && !answerWaits enginePeer r) &&
      (KMap.get? enginePeer.engine 0).isSome) = true ∧
    ([(0x90000, 0x50000, 0), (0x10000, 0x50008, 1), (0x10000, 0x50000, 2)].all fun e => migrates (migrating e.1 e.2.1) == some e.2.2) = true ∧
    migrates { migrating 0x10000 0x50000 with secure := [⟨0x10000, 0x1000⟩] } = some 3 ∧
    tState.memOk = true ∧ (4096 % 4096 = 0 ∧ 0x10000 % 4096 = 0 ∧ 0x50000 % 4096 = 0) := by
  refine ⟨?_, ?_, ?_, ?_, ?_, ?_, ?_, by decide⟩ <;> decide +kernel

/-- A remote key of the test context for the page at 0x10000; a module without tasks, and one whose task holds the page. -/
def keyed : State :=
  { withRec fun r => { r with regions := r.regions.map fun g => { g with concurrent := false } } with keys := [(5, ⟨0, 0x10000, 0x1000, true, true, true, false⟩)] }
def quiet : State := { keyed with gangs := [], teams := [], tasks := [] }
def netReq : NetReq := { port := 7, qp := 1, key := 5#32, va := 0x10100, len := 8, data := [1#8, 2#8], value := 3#64, compare := 0#64 }
/-- A dump of the context in progress, after both dies have stopped. -/
def dumping : State :=
  { quiet with dumps := [(0, { area := 0#64, hold := false, t0 := 0, stop0 := true, stop1 := true, cut0 := false, cut1 := false, records := [], held := [], ended := false })] }

theorem witness_NetworkRequests :
    ([NetKind.write, .read, .fetchAdd, .cmpSwap].all fun k =>
      (match keyAllows keyed k { netReq with key := 6#32 } with
       | .error _ => true
       | .ok _ => false) &&
      portExists netReq && (match keyAllows keyed k netReq with
       | .ok ctx => ctx == 0 && !keyed.halted && !keyed.fw.recovery
       | .error _ => false) &&
      heldConflict keyed 0 netReq.va (reqLen k netReq) (reqWrites k) && (portHeld keyed ⟨k, netReq, 0⟩).isNone &&
      !heldConflict quiet 0 netReq.va (reqLen k netReq) (reqWrites k) && (portHeld quiet ⟨k, netReq, 0⟩).isNone &&
      (portHeld dumping ⟨k, netReq, 0⟩).isSome) = true ∧
    ((match agentWrite quiet 0 netReq.va netReq.data .agent with
      | .ok _ => true
      | .error _ => false) && (match agentBytes quiet 0 netReq.va netReq.len .read with
      | .ok pas => pas.all fun a => !wordPoisoned quiet (a / 4)
      | .error _ => false) && match agentBytes quiet 0 netReq.va 8 .write with
      | .ok (pa :: _) => !memPoisoned (recallLines (correctMem quiet (homeOf quiet pa) pa 8) pa 8 .agent) pa 8
      | _ => false) = true ∧
    (let s : State := { quiet with deferral := [⟨.write, netReq, 0⟩] }
     s.deferral.length == 1 && !s.halted && released s 0) = true := by
  refine ⟨?_, ?_, ?_⟩ <;> decide +kernel

/-! ### Witnesses: the module -/

/-- A module whose viaduct retrains for a die after a number of failures; one whose die 1 has replayed 16 times. -/
def retrains (failed : Nat) : State := { tState with retraining := some 1, failedRetrains := failed }
def stuck : State := { tState with dies := [(0, Die.reset 0), (1, { Die.reset 0 with flitReplays := 16 })] }
/-- A core that holds a line, a die that does, and a module without lines. -/
def lined : State :=
  { tState with l1 := [{ core := 0, slot := 0, line := 512, owned := false, dirty := [], tracked := false, gen := 0#16, teams := [], corr := [], poison := [] }],
                dieCache := [(1025, true)] }

theorem witness_ModuleEvents :
    ((KMap.get? tState.dies 1).any fun d => !d.stopped && d.mhz == 600 && tState.retraining.isNone && !tState.halted && !flitStuck d) = true ∧
    (stuckDie stuck = some 1 ∧ stuck.retraining = none ∧ ((KMap.get? stuck.dies 1).any flitStuck) = true) ∧
    ((KMap.get? ({ tState with dies := [(1, { Die.reset 0 with stopped := true })] } : State).dies 1).any fun d => d.stopped) = true ∧
    ((retrains 1).failedRetrains < 2 ∧ 2 ≤ (retrains 2).failedRetrains ∧ (retrains 2).retraining = some 1) ∧
    (tState.task? 0).isSome = true ∧ ((tState.gang? ⟨0, 0, 0⟩).any fun g => 2047 < 2 * g.regs * g.width) = true ∧
    ((0 : Nat) = homeDie (4 * 5) false ∧ (1 : Nat) = homeDie (4 * 0x400) false ∨ isFar (4 * 5) = false) ∧
    (lined.l1.any fun l => l.core == 0 && l.slot == 0 && l.line == 16391 / 32) = true ∧ BitSet.has lined.dieCache (2 * (16391 / 32) + 1) = true ∧
    ((7 : Nat) < 8 ∧ (KMap.get (portOf tState 7).pausedUntil 0 7 : Nat) ≤ tState.tick) ∧
    (let s : State := { tState with qps := [(1, ⟨7, 0⟩)] }
     (KMap.get? s.qps 1).isSome && s.ckptRun.isNone && s.peers.isEmpty) = true ∧
    (tState.memOk = true ∧ l1Ok tState.l1) ∧
    (let s : State := { quiet with ctxs := [], fw := { imgFw with activating := some (true, false) } }
     s.fw.activating == some (true, false) && activationReady s && !s.halted) = true ∧ configAuth cfgFw false = true := by
  refine ⟨?_, ?_, ?_, ?_, ?_, ?_, ?_, ?_, ?_, ?_, ?_, ⟨?_, noLines⟩, ?_, config_signed⟩ <;> decide +kernel

/-- The test context with its state changed, beside a context 1 with a state and a priority. -/
def ctxState (c : Ctx → Ctx) (other : CtxState) (prio tick : Nat) : State :=
  { tState with
    tick
    ctxs := tState.ctxs.map (fun e => (e.1, c { e.2 with m := { e.2.m with slice := 5, stall := 9, prio := 3, saverec := 0x10800#64 } })) ++
      [(1, Ctx.fresh other { hostFields with prio } 0)] }
/-- R420: records of equal stamp are written in increasing order of core, then partition, others in the order of their events. -/
theorem test_trace_order :
    let b (core part w : Nat) : Nat × Nat × TraceRec := (0, 0, { TraceRec.plain 6 (w64 w) with core, part })
    (([b 5 1 0, b 2 3 1, b 5 0 2, b 2 3 3].foldl (fun l e => traceInsert e l) []).map fun e => e.2.2.w1) = [1#64, 3#64, 2#64, 0#64] := by decide

/-- A trace stream of both dies that samples every 1,024 ticks. -/
def traced : State :=
  { ctxState (fun c => { c with trace := [(0, ⟨⟨0x10000, 4, 0, 0, false, 0, none⟩, 1#4, 10⟩)], telRing := some ⟨0x10000, 4, 0, 0, false, 0, none⟩ }) .idle 0 32768 with telInterval := some 10, bucketWindow := [(0, 99)] }
/-- Sixteen members, of which context 2 has the least priority. -/
def fullSet : State :=
  { tState with ctxs := (1, Ctx.fresh .waiting { hostFields with prio := 9 } 0) ::
      (List.range 16).map fun k => (k + 2, Ctx.fresh .scheduled { hostFields with prio := k } 0) }

/-- The test context without teams, its last one retired at the present tick. -/
def emptied (c : Ctx → Ctx) (reason : Nat) : State :=
  { ctxState (fun x => c { x with state := .draining, drainReason := reason, drainStart := 7, retiredAt := some 7 }) .idle 0 7 with teams := [], gangs := [] }

/-- A slice that expires in the tick in which the last team retired; the end of a drain that began in such a tick, and of a second STALL drain;
a sample made anew where no gang is left; forced resets of a context with a running task, with none, and with one that waits. -/
theorem witness_Scheduling_more :
    (let s := emptied (fun c => { c with state := .scheduled }) 0
     (s.ctx? 0).any fun c => !paused s 0 && !s.halted && c.state == .scheduled && decide (c.sliceStart + c.m.slice ≤ s.tick) && c.retiredAt == some s.tick &&
       !ctxResident s 0 && !ctxFlushing s 0) = true ∧
    (let s := emptied id 1
     (s.ctx? 0).any fun c => !paused s 0 && !s.halted && c.state == .draining && !ctxResident s 0 && c.drainReason == 1 && c.retiredAt == some c.drainStart &&
       !ctxFlushing s 0) = true ∧
    (let s := emptied id 259
     (s.ctx? 0).any fun c => !paused s 0 && c.state == .draining && !ctxResident s 0 && decide (256 ≤ c.drainReason) &&
       match agentWrite s 0 c.m.saverec.toNat (saveBytes s 0 (writeLayout s) 3 c.drainStart) with
       | .ok s1 => (s1.ctx? 0).isSome
       | .error _ => false) = true ∧
    (let s : State := { traced with gangs := [], sampledAt := [(0, 32768)] }
     (traceStream s 0 0).any fun t => t.en.getLsbD 0 && s.tick % 2 ^ t.s == 0 && ((KMap.get? s.dies 0).all fun d => !d.stopped) &&
       KMap.get? s.sampledAt 0 == some s.tick && (sampleGang s 0 (s.tick / 2 ^ t.s % 32) 0).isNone) = true ∧
    (KMap.get? tState.dumps 0 = none ∧ KMap.rising tState.queues = true ∧ KMap.rising tState.tasks = true ∧ KMap.rising tState.teams = true ∧
      (tState.ctx? 0).any (fun c => c.state != .resetting) = true ∧ (tState.tasks.any fun e => e.2.ctx == 0 && e.2.stage != .waiting) = true ∧
      (({ tState with tasks := tState.tasks.map fun e => (e.1, { e.2 with stage := .waiting }) } : State).tasks.all fun e =>
        e.2.ctx != 0 || e.2.stage == .waiting) = true) := by
  refine ⟨?_, ?_, ?_, ?_, ?_, ?_, ?_, ?_, ?_, ?_, ?_⟩ <;> decide +kernel

/-- A slice at its last tick, one before, and one with no waiter of its priority; a stall; a deadline with a team resident; the end of a drain;
an admission with room, and one that drains a member. -/
theorem witness_Scheduling :
    (traced.telInterval == some 10 && traced.tick % 2 ^ 10 == 0 && traced.telPending.isEmpty && traced.telLatch.isNone &&
      (1023 : Nat) % 2 ^ 10 != 0 && refillDue traced 0 && !refillDue (refill traced 0) 0) = true ∧
    (let s := latchTick traced
     s.telLatch.isSome && match exec (.telemetryLatch 1 2) s with
       | .next t => !t.telPending.isEmpty
       | _ => false) = true ∧
    ((traceStream traced 0 0).any fun t => t.en.getLsbD 0 && traced.tick % 2 ^ t.s == 0 && ((KMap.get? traced.dies 0).all fun d => !d.stopped) &&
      (KMap.get? traced.sampledAt 0).isNone && KMap.get? { traced with sampledAt := [(0, 32768)] }.sampledAt 0 == some traced.tick &&
      (sampleGang traced 0 (traced.tick / 2 ^ 10 % 32) 0).any fun e => (traced.task? e.2.2.slot).isSome) = true ∧
    ([(5, CtxState.waiting, 3, true), (5, .waiting, 2, false), (5, .idle, 9, false)].all fun e =>
      let s := ctxState id e.2.1 e.2.2.1 e.1
      (s.ctx? 0).any fun c => !paused s 0 && !s.halted && c.state == .scheduled && c.sliceStart + c.m.slice ≤ s.tick && c.retiredAt != some s.tick &&
        (s.ctxs.any fun e => e.1 != 0 && ctxWaiter e.2 && decide (c.m.prio ≤ e.2.m.prio)) == e.2.2.2) = true ∧
    ((ctxState id .idle 0 4).ctx? 0).any (fun c => c.state == .scheduled && decide (4 < c.sliceStart + c.m.slice)) = true ∧
    ((ctxState id .idle 0 9).ctx? 0).any (fun c => c.m.stall != 0 && decide (c.progress + c.m.stall ≤ 9)) = true ∧
    (let s := ctxState (fun c => { c with state := .draining, drainDeadline := 7 }) .idle 0 7
     (s.ctx? 0).any fun c => c.state == .draining && decide (c.drainStart + c.drainDeadline ≤ s.tick) && ctxResident s 0) = true ∧
    (let s := { ctxState (fun c => { c with state := .draining, drainReason := 3 }) .idle 0 7 with teams := [], gangs := [] }
     (s.ctx? 0).any fun c => c.state == .draining && !ctxResident s 0 && decide (c.drainReason < 256) &&
       match agentWrite s 0 c.m.saverec.toNat (saveBytes s 0 (writeLayout s) c.drainReason c.drainStart) with
       | .ok s1 => (s1.ctx? 0).isSome
       | .error _ => false) = true ∧
    (let s := ctxState id .waiting 9 0
     (admitChoice s).any (fun e => e.1 == 1) && !s.halted && s.fw.activating.isNone && (s.ctxs.filter fun e => ctxMember e.2).length == 1) = true ∧
    ((admitChoice fullSet).any (fun e => e.1 == 1 && (drainChoice fullSet).any fun d => d.1 == 2 && decide (d.2.m.prio < e.2.m.prio)) &&
      (fullSet.ctxs.filter fun e => ctxMember e.2).length == 16 && fullSet.ctxs.all fun e => e.2.state != .draining) = true := by
  refine ⟨?_, ?_, ?_, ?_, ?_, ?_, ?_, ?_, ?_, ?_⟩ <;> decide +kernel

/-! ### Witnesses: queues and tasks -/

/-- A queue of sixteen packets at 0x11000 (MARKs), its tail word 20 at 0x10A00 and its head word at 0x10A08. -/
def tFields : QueueFields := { ring := 0x11000#64, log2n := 4, tailAddr := 0x10A00#64, headAddr := 0x10A08#64 }
def tQueue (act : QAct) : Queue := { ctx := 0, d := tFields, head := 0, act, arm := none, armFail := none, unmapping := false }
def marks : List (Nat × W64) := (List.range 16).map fun k => (0x11000 + 64 * k, 6#64)
/-- A module without tasks whose queue 31 has a state, with words of memory. -/
def queueing (act : QAct) (ws : List (Nat × W64)) : State :=
  { withMem (ws ++ (0x10A00, 20#64) :: marks) with gangs := [], teams := [], tasks := [], queues := [(31, tQueue act)] }
/-- A comparison of the word at 0x10100. -/
def tCmp (value : W64) (op : Nat) : CmpPacket := { addr := 0x10100#64, value, mask := 0xFF#64, op }

theorem witness_QueuePackets :
    ((actingOn (queueing .acting []) 31 true).any fun x =>
      (match agentXlat (queueing .acting []) x.ctx 0x10100 .write with
       | .ok pa _ => !memPoisoned (recallLines (queueing .acting []) pa 8 (.of x.ctx)) pa 8
       | _ => false) &&
      x.arm.isNone && (readTail (queueing .acting []) x).any (fun t => decide (x.head + 1 + 8 + 8 ≤ t)) && (match armsFetch (queueing .acting []) 31 x 16 with
       | .ok ps => let y := { x with arm := some { isElse := false, pos := 1, nThen := 8, nElse := 8, packets := ps } }
         match (y.arm.map CondArm.current).bind (decodePacket 31) with
         | some i => match queueTurn { queueing .acting [] with queues := [(31, y)] } 31 with
           | .act j _ => i == j
           | _ => false
         | none => false
       | _ => false) &&
      (readWord (queueing .acting []) x.ctx 0x10100#64).isSome &&
      match agentWrite (queueing .acting []) x.ctx x.d.headAddr.toNat (leBytes 8 (x.head + 1)) with
      | .ok _ => true
      | .error _ => false) = true ∧
    ([(19, true), (20, false)].all fun e =>
      let s : State := { queueing .blocked [] with queues := [(31, { tQueue .blocked with seen := some (0x10A00, e.1) })] }
      (s.queue? 31).any fun x => x.act == .blocked && (ownPlace s x.ctx x.d.tailAddr.toNat).any fun p => decide (memNat s p.1 8 ≠ e.1) == e.2) = true ∧
    ([(0x05#64, true), (0x04#64, false)].all fun e =>
      !ctxFrozen (queueing (.waitv (tCmp 5#64 2) none) [(0x10100, e.1)]) 0 && (readWord (queueing (.waitv (tCmp 5#64 2) none) [(0x10100, e.1)]) 0 0x10100#64).any fun v => cmpHolds (tCmp 5#64 2) v == e.2) = true ∧
    (((queueing (.waitv (tCmp 5#64 2) (some 0)) []).queue? 31).any fun x => match x.act with
      | .waitv _ (some t) => decide (t ≤ tState.tick) && !ctxFrozen (queueing (.waitv (tCmp 5#64 2) (some 0)) []) 0
      | _ => false) = true ∧
    ([0, 1].all fun k => let p : CopyPacket := { src := 0x10000#64, dst := 0x10F00#64, len := 2, sig := 0#64, dest := 0 }
      let s : State := { tState with copies := [(0, { ctx := 0, p, done := 0, fault := 0, stopped := false })] }
      (KMap.get? s.copies 0).isSome && !s.halted && !anyStop s 0 && match copyBytes s 0 p (k + 1) 0 with
        | (_, n, none) => n == k + 1
        | _ => false) = true ∧
    (match copyBytes tState 0 { src := 0x90000#64, dst := 0x10F00#64, len := 2, sig := 0#64, dest := 0 } 2 0 with
      | (_, _, some _) => true
      | _ => false) = true ∧
    (match agentXlat tState 0 0x10000 .read, agentXlat tState 0 0x10FFF .write with
      | .ok _ _, .ok _ _ => match copyByte tState 0 { src := 0x10000#64, dst := 0x10FFF#64, len := 1, sig := 0#64, dest := 0 } 0 with
        | .ok _ => true
        | _ => false
      | _, _ => false) = true := by
  refine ⟨?_, ?_, ?_, ?_, ?_, ?_, ?_⟩ <;> decide +kernel

/-- A task record at 0x10C00 with one region record at 0x10D00. -/
def recordWords : List (Nat × W64) :=
  [(0x10C00, 7#64), (0x10C08, 0x1000#64), (0x10C18, 0x0001000101004000#64), (0x10C20, 0x0000000100010001#64), (0x10C40, 0x10D00#64),
   (0x10C48, 1#64), (0x10D00, 0x10000#64), (0x10D08, 0x1000#64), (0x10D10, 3#64)]
/-- What acceptance finds for a record: whether it launches. -/
def launches (addr : W64) : Bool :=
  let s := { queueing (.task addr 0) recordWords with tick := 1 }
  ((s.queue? 31).any fun x => x.act == .task addr 0) && (freeTaskSlot s).isSome && !s.halted && s.fw.activating.isNone && s.ckptRun.isNone &&
    (s.ctx? 0).isSome && acceptTurn s 31 0 && match cleanRead s 0 addr.toNat 256 with
    | some bs => match launchCheck s 0 addr.toNat bs with
      | .ok _ => true
      | .error _ => false
    | none => false
/-- A task that waits on a COUNT of 5, with STOPERR, where the object holds a word. -/
def waitingOn (w : W64) : State :=
  let s := withMem [(0x10100, w)]
  { s with tasks := s.tasks.map fun e => (e.1, { e.2 with stage := .waiting, rec_ := { e.2.rec_ with deps := [⟨0x10100#64, 5, true⟩] } }) }
/-- What a dependence finds: 0 it stops, 1 it is met, 2 it waits. -/
def depKind (s : State) : Option Nat :=
  match s.task? 0 with
  | none => none
  | some t => match t.rec_.deps[0]? with
    | none => none
    | some d => match readWord s t.ctx d.sigaddr with
      | none => none
      | some x =>
        if t.stage != .waiting || d.sigaddr == 0#64 || BitSet.has t.depsMet 0 || paused s t.ctx then none
        else if d.stoperr && sigErr x != 0 then some 0 else if d.need ≤ sigCount x then some 1 else some 2
/-- A second task accepted before or after the waiting one, on the same pages. -/
def behind (order : Nat) : State :=
  { tState with tasks := [(0, { Task.fresh { tRecord with regions := tRecord.regions.map fun g => { g with concurrent := false } } 0 0 5 .waiting with placed := 0 }),
      (1, Task.fresh tRecord 0 0 order .running)] }
/-- A task in its end edge. -/
def ending (stage : Stage) (h : TaskRec → TaskRec) (dig : W64) : State :=
  { tState with gangs := [], teams := [], tasks := tState.tasks.map fun e => (e.1, { e.2 with stage, rec_ := h e.2.rec_, digest := dig }) }

theorem witness_TaskEdges :
    (launches 0x10C00#64 && !launches 0x10E00#64 && (cleanRead (queueing (.task 0x10E00#64 0) recordWords) 0 0x10E00 256).isSome) = true ∧
    depKind (waitingOn 0x8001000000000007#64) = some 0 ∧ depKind (waitingOn 5#64) = some 1 ∧ depKind (waitingOn 4#64) = some 2 ∧
    ([(4, false), (6, true)].all fun e => ((behind e.1).task? 0).any fun t => t.stage == .waiting && !(behind e.1).halted && !paused (behind e.1) t.ctx &&
      (depsDone t && !deferredInto (behind e.1) t && (behind e.1).tasks.all fun x => !decide (x.2.order < t.order) || !tasksConflict (behind e.1) x.2 t) == e.2) = true ∧
    ([(0, 383, true), (2, 0, false)].all fun e => ((ending (.flushing e.1 e.2.1) id 0#64).task? 0).any fun t => flushRuns (ending (.flushing e.1 e.2.1) id 0#64) t &&
      (cursorFrom t 65 e.1 e.2.1).isSome == e.2.2) = true ∧
    (l1Ok tState.l1 ∧ tState.memOk = true) ∧
    ([(false, false, 0), (true, false, 1), (true, true, 2)].all fun e =>
      let s := ending .flushed (fun r => { r with digest := e.1, refset := e.2.1 }) 5#64
      (s.task? 0).any fun t => t.stage == .flushed && !anyStop s t.ctx && (!t.rec_.digest || t.outcome.1 == 1) && !t.rerun &&
        (if e.2.2 == 0 then !t.rec_.digest else t.rec_.digest && t.rec_.refset == (e.2.2 == 2))) = true := by
  refine ⟨?_, ?_, ?_, ?_, ?_, ?_, ⟨noLines, ?_⟩, ?_⟩ <;> decide +kernel

/-- The writes of acceptance, of a record and of DONESIG; a region of a line that is private, of one that is shared, and a FORWARD one. -/
theorem witness_TaskEdges_more :
    (let s := { queueing (.task 0x10C00#64 0) recordWords with tick := 1 }
     match agentWrite s 0 (0x10C00 + 0x49) [BitVec.ofNat 8 3] with
     | .ok s1 => (match agentWrite s1 0 (0x10C00 + 0x68) (leBytes 8 1) with
       | .ok s2 => (s2.ctx? 0).isSome
       | .error _ => false)
     | .error _ => false) = true ∧
    (match agentXlat tState 0 0x10C68 .write, agentXlat tState 0 0x10100 .write with
     | .ok _ _, .ok pa _ => decide (0x10C68 % 4096 + (leBytes 8 1).length ≤ 4096) && !memPoisoned tState pa 8 && (0x10100 % 8 : Nat) == 0
     | _, _ => false) = true ∧
    ([false, true].all fun d => let t : State := { (ending (.flushing 0 0) id 0#64) with
          tasks := tState.tasks.map fun e => (e.1, { e.2 with rec_ := { e.2.rec_ with deterministic := d, addr := 0x10C00, donesig := 0x10100#64 } }) }
      (t.task? 0).any fun k => k.rec_.deterministic == d &&
        (match agentWrite (performReleased { t with tasks := KMap.del t.tasks 0 } t.deferral.length) k.ctx (k.rec_.addr + 0x68) (leBytes 8 (statusWord 1 k.outcome.1 k.fault)) with
         | .ok x => (match agentWrite x k.ctx (k.rec_.addr + 0x60) (leBytes 8 (max k.rec_.teamtime.toNat k.longest)) with
           | .ok _ => true
           | .error _ => false)
         | .error _ => false)) = true ∧
    ((ownPlace tState 0 (0x10000 + 128 * 0)).isSome = true ∧
      ((tState.tasks.map fun e => (e.2.setClass 16 .shared).classOf ((0x10000 + 128 * 0) / 4096) == .shared).all id) = true) := by
  refine ⟨?_, ?_, ?_, ?_, ?_⟩ <;> decide +kernel

/-! ### Witnesses: commands -/

/-- The module with a secure session 0 and a non-secure session 1. -/
def open2 (s : State) : State := { s with sessions := [(0, ⟨true, 0, []⟩), (1, ⟨false, 1, []⟩)] }
/-- Fields at their limits. -/
def okFields : CtxFields :=
  { secure := false, prio := 7, share := 64, troot := 0x20000#64, coremask := 1#64, slice := 2 ^ 32 - 1, stall := 2 ^ 32 - 1, deadline := 2 ^ 64 - 1,
    saverec := 64#64, errlog := 0#64 }

theorem witness_ManagementCommands :
    (let s := open2 (queueing .acting [])
     ((KMap.get? s.sessions 0).any fun x => x.secure && mayName s x 63) && ((KMap.get? s.sessions 1).any fun x => !x.secure && mayName s x 63) &&
     !s.halted && !s.fw.recovery && fieldsOk s 63 okFields && (s.ctx? 63).isNone && !fieldsOk s 63 { okFields with prio := 8 } &&
     fieldsOk { s with ctxs := s.ctxs.map fun e => (e.1, { e.2 with state := .idle }) } 0 okFields && (s.ctx? 0).any fun c => c.state != .idle &&
     c.m.secure == okFields.secure && c.m.coremask == okFields.coremask && c.m.errlog == okFields.errlog) = true ∧
    (let s : State := open2 { queueing .acting [] with queues := [], ctxs := tState.ctxs.map fun e => (e.1, { e.2 with state := .idle }) }
     ((s.ctx? 0).any fun c => c.state == .idle) && ctxQueues s 0 == [] && (s.queue? 31).isNone && descriptorOk tFields && match agentRead s 0 tFields.headAddr.toNat 8 with
      | .ok _ => s.telModule.isNone
      | .error _ => false) = true ∧
    ([QAct.blocked, .acting, .error 4].all fun a => let s := open2 (queueing a [])
      (s.queue? 31).any fun d => d.act == a && (KMap.get? s.sessions 1).any fun x => mayName s x d.ctx) = true ∧
    (let s := open2 keyed
     (KMap.get? s.keys 6).isNone && (KMap.get? s.keys 5).any fun e => (s.ctx? e.ctx).any fun c => e.secure == c.m.secure && decide (s.keys.length < 4096)) = true ∧
    (windowOk 255 ⟨0, 7, 4095, 5#32, 0#64, 2 ^ 40⟩ = true ∧ windowOk 256 ⟨0, 7, 4095, 5#32, 0#64, 2 ^ 40⟩ = false ∧ qpFree tState 4095 7 0 = true ∧
      qpFree { tState with qps := [(4095, ⟨7, 1⟩)] } 4095 7 0 = false) ∧
    (([⟨0, 2 ^ 21⟩, ⟨2 ^ 40, 2 ^ 40⟩] : List SecRange).all rangeOk && tState.teams.all fun e => e.2.halves.all fun h =>
      !(tState.secureCores ^^^ 0x8000000000000000#64).getLsbD h.core) = true := by
  refine ⟨?_, ?_, ?_, ?_, ?_, ?_⟩ <;> decide +kernel

/-- The test gang stopped by the agent of session 1; a dump at each of its cuts. -/
def agentState (h : Gang → Gang) : State :=
  { withGang (fun g => h { g with stopped := true }) with
    sessions := [(1, ⟨false, 1, []⟩)]
    ctxs := tState.ctxs.map fun e => (e.1, { e.2 with debug := some { session := 1, bp := [], dw := [], sw := [] } }) }
def dumpAt (a b c d : Bool) : State :=
  { tState with dumps := [(0, { area := 0x10E00#64, hold := false, t0 := 0, stop0 := a, stop1 := b, cut0 := c, cut1 := d, records := [], held := [], ended := false })] }

theorem witness_DebugCommands :
    ((KMap.get? (open2 tState).sessions 1).any fun x => mayName tState x 0 && (tState.ctx? 0).any fun c => (Ctx.debug c).isNone && c.state == .scheduled &&
      (KMap.get? tState.dumps 0).isNone && tState.fw.activating.isNone && (tState.ctx? 63).isNone && (KMap.get? tState.agents 63).isNone) = true ∧
    (((agentState id).ctx? 0).any fun c => (Ctx.debug c).any fun d => d.session == 1 && debugOk d (.bp 7 0) 0x1000#64 && debugOk d (.dw 3 1) 40#64) = true ∧
    ((stoppedGang (agentState id) 0 ⟨0, 0, 0⟩).any fun e => itemOk e.1 (.v 63 15) && itemOk e.1 (.s 63) && itemOk e.1 (.creg 11) && itemOk e.1 (.wait 15) &&
      !(e.1.fills.any fun f => f.writes.any fun y => y.meets (.v 63 15 0#64 0#2))) = true ∧
    stoppedGang tState 0 ⟨0, 0, 0⟩ = none ∧
    ((KMap.get? (dumpAt false false false false).dumps 0).any fun d => !d.stop0 && !d.stop1) = true ∧
    ((KMap.get? (dumpAt true true false false).dumps 0).any fun d => d.stop0 && !d.cut0 && !d.cut1 && dieQuiet (dumpAt true true false false) 0 0) = true ∧
    ((KMap.get? (dumpAt true true true false).dumps 0).any fun d => d.stop1 && !d.cut1 && d.cut0 && dieQuiet (dumpAt true true true false) 0 1) = true ∧
    ((KMap.get? (dumpAt true true false true).dumps 0).any fun d => d.stop0 && !d.cut0 && d.cut1 && dieQuiet (dumpAt true true false true) 0 0) = true ∧
    (let s : State := { engine (.cpy (fl 0 0x60C 0x678 0 0)) 0 (some [(7#8, false)]) with dumps := (dumpAt true true false false).dumps }
     (KMap.get? s.dumps 0).any fun d => d.stop0 && !dieQuiet s 0 0) = true ∧
    (tState.modLogCount == tState.modLog.length) = true := by
  refine ⟨?_, ?_, ?_, ?_, ?_, ?_, ?_, ?_, ?_, ?_⟩ <;> decide +kernel

/-- The image of the test module, and modules without contexts that may restore it. -/
def tImage : CkptImage := imageOf tState 0
def tTarget : CkptTarget := { port := 7, qp := 1, key := 5#32, base := 0#64 }
def restoring : State := { State.reset with image := some tImage, remote := [⟨[tTarget], tImage, []⟩] }
def running (chunk : Nat) (restore : Bool) : CkptRun := { targets := [tTarget], chunk, restore, held := [], t0 := 0, far := [] }

theorem witness_FirmwareCommands :
    (imgFw.config.owners[0]? = some (tKey, true) ∧ ecVerify tKey tState.challenge tSig = true ∧ ecVerify tKey tState.challenge [] = false ∧ ecOnCurve tKey = true) ∧
    ((KMap.get? (open2 tState).sessions 0).any (fun x => x.secure) && (KMap.get? (open2 tState).sessions 1).any (fun x => !x.secure) && !tState.halted &&
      !tState.fw.recovery && !tState.fw.running && tState.ckptRun.isNone && tState.fw.activating.isNone && (0x3FFF000 : Nat) % 4096 == 0 &&
      decide (0x3FFF000 + 4096 ≤ 0x4000000)) = true ∧
    (selTrial 2#64 && !selTrial 0#64) = true ∧ configAuth cfgFw (!true) = true ∧
    (slotAuth imgFw true = true ∧ imgFw.running ≠ true ∧ unlisted tState (slotLayouts imgFw true) = []) ∧
    (ckptOk tState && targetsOk [tTarget] && targetsOk (List.replicate 8 tTarget)) = true ∧
    (restoring.ckptRun.isNone && (restoring.remote.find? fun r => r.targets == [tTarget]).isSome && restoring.fw.activating.isNone && restorable restoring tImage) = true ∧
    ((running 16383 false).chunk < ckptChunks ∧ (running 16383 false).targets[(running 16383 false).chunk % 1]? = some tTarget ∧ restoring.image = some tImage ∧ (running ckptChunks false).chunk = ckptChunks ∧ (running ckptChunks false).restore = false) ∧
    l1Ok tState.l1 := by
  refine ⟨⟨rfl, key_signs, ?_, ?_⟩, ?_, ?_, config_signed, ⟨image_signed, ?_, ?_⟩, ?_, ?_, ⟨?_, ?_, rfl, ?_, ?_⟩, noLines⟩ <;> decide +kernel

/-! ### Witnesses: steps and invariants -/

/-- The module with nothing on its agenda, whose oldest gang can issue the word at its PC: one that decodes, and one that does not. -/
def stepReady (s : State) (ok : Bool) : Bool :=
  s.agenda.isEmpty && pickGang s (fun _ => true) == some ⟨0, 0, 0⟩ && (s.gang? ⟨0, 0, 0⟩).any fun g => canTry s ⟨0, 0, 0⟩ g && (boundaryTrap g).isNone &&
    (s.who ⟨0, 0, 0⟩).any fun w => (s.task? w.slot).isSome && g.chooseSet.any fun c => (s.task? w.slot).any fun k => match fetchAt s 0 k c.1 with
      | .word word _ => match decode word with
        | .ok i => ok && match exec i { s with cur := some ⟨0, 0, 0⟩ } with
          | .next _ => true
          | _ => false
        | .error _ => !ok
      | _ => false

/-- A task of order 0 that follows none. -/
def tRun : Task := Task.fresh tRecord 0 0 0 .running
theorem witness_StepRunsTheDecodedInstruction :
    stepReady placed true = true ∧ stepReady { withMem [(0x1000, 1#64)] with icache := [⟨0, 0, 0x1000, 0x100B, 1#96⟩] } false = true ∧
    (let s : State := { withMem [(0x1FF0, 0x1122334455667788#64)] with icache := [] }
     ((0x1FF4 : Nat) % 4 == 0 && decide ((0x1FF4 : Nat) % 4096 + 12 ≤ 4096) &&
       (List.range 12).all fun k => codeByte s tRun.sees (0x1FF4 + k) == (0x11223344#96).extractLsb' (8 * k) 8 && KMap.get ([] : KMap Byte) memDefault (0x1FF4 + k) ==
         (0#96).extractLsb' (8 * k) 8) = true ∧
     ∃ leaf, coreXlat s 0 0 0x1FF4 .exec = .done (.ok 0x1FF4 leaf) s) ∧
    (KMap.get tState.codeBy [] 0x1FF7 = [] ∧
      KMap.get ({ tState with codeBy := [(0x1FF7, [(1, 5#8), (0, 6#8), (2, 7#8)])] } : State).codeBy [] 0x1FF7 = [(1, 5#8)] ++ (0, 6#8) :: (2, 7#8) :: [] ∧
      tRun.sees 0 = true ∧ tRun.sees 1 = false ∧ tRun.sees 2 = false ∧
      codeByte { tState with codeBy := [(0x1FF7, [(1, 5#8), (0, 6#8), (2, 7#8)])] } tRun.sees 0x1FF7 = 7#8 ∧
      codeByte { tState with codeBy := [(0x1FF7, [(1, 5#8), (2, 7#8)])] } tRun.sees 0x1FF7 = 5#8) := by
  refine ⟨by decide +kernel, by decide +kernel, ⟨by decide +kernel, 0x1017#64, ?_⟩, by decide +kernel⟩
  exact coreXlat_hit (e := { core := 0, ctx := 0, vpage := 1, pages := 1, leaf := 0x1017#64 }) (by decide) (by decide +kernel) (by decide +kernel) (by decide +kernel)

/-- Well-formed and ill-formed instructions, assigned and unassigned words. -/
theorem witness_DecodeEncode :
    ((Instr.iadd (fl 4 1 2 0 8)).wf = false ∧ (Instr.iadd (fl 4 1 2 0 3)).wf = true ∧ (encode (.iadd (fl 4 1 2 0 3))).isSome = true) ∧
    (Instr.iadd (fl 4 1 2 0 3)).form.isSome = true ∧ ((Instr.iadd (fl 4 1 2 0 8)).form.any fun e => (e.1.refuse e.2).isSome) = true ∧
    wordUnassigned 0xFFFFFFFFFFFFFFFFFFFFFFFF#96 = true ∧ wordUnassigned 0#96 = false := by decide +kernel

theorem witness_MemoryInvariant : State.reset.Inv ∧ ∃ t, step State.reset = .next t :=
  ⟨⟨by decide, ⟨by simp [State.reset], List.Pairwise.nil⟩, by simp [State.reset], by simp [State.reset]⟩, _, rfl⟩

/-- A gang as its record makes it; the test gang; an issue without a cause to come; a record that passes its check. -/
theorem witness_MemoryInvariant_gangs : (newGang tRecord 0 0 0 0 126).ok = true ∧ tGang.ok = true ∧
    (∃ g x, Ready (.iadd (fl 4 1 2 0 3)) tState g x ∧ g.ok = true ∧ ({} : Post).after = none ∧ ({} : Post).ended &&& g.held = 0#64) ∧
    tRecord.fpctl &&& ~~~fpctlMask = 0#32 ∧
    (let s := queueing (.task 0x10C00#64 0) recordWords
     (cleanRead s 0 0x10C00 256).any fun bs => !recordBad bs (recordOf 0x10C00 bs)) = true :=
  ⟨by decide +kernel, by decide +kernel,
   ready_dec (fun g _ => g.ok = true ∧ ({} : Post).after = none ∧ ({} : Post).ended &&& g.held = 0#64) (by decide +kernel), by decide +kernel, by decide +kernel⟩

/-- A record of the greatest width. -/
theorem witness_Reset : ({ tRecord with width := 64 } : TaskRec).width ≤ 64 := by decide

/-! ### Well-formedness: a term refused by each check (R23) -/

theorem test_wf_negated_p7 : ({ fl 0 0 0 0 0 with gn := true } |> Instr.nop).wf = false := by decide +kernel
theorem test_wf_transient_of_predicate : (Instr.icmp { fl 0x641 1 2 3 0 with t := true }).wf = false := by decide +kernel
theorem test_wf_transient_of_predicate_form : (Instr.icmp { fl 4 1 2 3 0x10 with t := true }).wf = false := by decide +kernel
theorem test_wf_immediate_of_operand : (Instr.toktake (fl 0 0x679 0 1 0)).wf = false := by decide +kernel
theorem test_wf_uniformity_of_add : (Instr.iadd { fl 4 1 2 0 0 with u := true }).wf = false := by decide +kernel
theorem test_wf_hint_without_source : (Instr.not { fl 4 1 0 0 0 with fb := true }).wf = false := by decide +kernel
theorem test_wf_unused_field : (Instr.not (fl 4 1 2 0 0)).wf = false := by decide +kernel
theorem test_wf_reserved_type : (Instr.iadd (fl 4 1 2 0 8)).wf = false := by decide +kernel
theorem test_wf_reserved_variant : (Instr.iadd (fl 4 1 2 0 0x20)).wf = false := by decide +kernel
theorem test_wf_reserved_immediate : (Instr.trap (fl 0 0 0 0x3F 0)).wf = false := by decide +kernel
theorem test_wf_gang_out_of_range : (Instr.fetch ⟨64, 0, 0⟩).wf = false ∧ (Instr.fetch ⟨63, 31, 15⟩).wf = true := by decide +kernel
theorem test_wf_numbers_out_of_range : (Instr.teamPlace 128).wf = false ∧ (Instr.task 32 false 0#64).wf = false ∧ (Instr.ctxquery 0 64).wf = false ∧
    (Instr.frameDrop 8).wf = false ∧ (Instr.undefinedEncoding 0#96).wf = false := by decide +kernel

/-! ### Decoding: words written out field by field from R8 and R87 to R95 (class, op, guard, D, A, B, IMM, T, hints, U, Y, HOLD, MOD) -/

/-- A word under P7 without hints, from the bits of its class, operation, operands, immediate and modifier. -/
def word (cls : BitVec 4) (op : BitVec 6) (d a b : W12) (imm : W32) (mod : BitVec 6) : W96 :=
  cls ++ op ++ 0#1 ++ 7#3 ++ d ++ a ++ b ++ imm ++ 0#1 ++ 0#3 ++ 0#1 ++ 0#1 ++ 0#2 ++ mod

theorem test_decode_ctrl : decode (word 0#4 9#6 0x641#12 0x640#12 0#12 0#32 3#6) = .ok (.vote (fl 0x641 0x640 0 0 3)) := by decide +kernel
theorem test_decode_int : decode (word 1#4 5#6 4#12 1#12 2#12 3#32 0x12#6) = .ok (.imad (fl 4 1 2 3 0x12)) := by decide +kernel
theorem test_decode_bit : decode (word 2#4 15#6 4#12 1#12 2#12 0xCA#32 3#6) = .ok (.lop3 (fl 4 1 2 0xCA 3)) := by decide +kernel
theorem test_decode_fp : decode (word 3#4 13#6 4#12 1#12 2#12 3#32 0x2A#6) = .ok (.fdot2 (fl 4 1 2 3 0x2A)) := by decide +kernel
theorem test_decode_sfu : decode (word 4#4 7#6 4#12 1#12 0#12 0#32 8#6) = .ok (.ftanh (fl 4 1 0 0 8)) := by decide +kernel
theorem test_decode_xlane : decode (word 5#4 10#6 4#12 1#12 0#12 0#32 0x33#6) = .ok (.matchLanes (fl 4 1 0 0 0x33)) := by decide +kernel
theorem test_decode_dir : decode (word 6#4 14#6 0x65D#12 0x65B#12 0x65C#12 0#32 0#6) = .ok (.dvmul (fl 0x65D 0x65B 0x65C 0 0)) := by decide +kernel
theorem test_decode_mx : decode (word 7#4 7#6 0x65F#12 0x65E#12 0#12 0#32 0#6) = .ok (.tcvt (fl 0x65F 0x65E 0 0 0)) := by decide +kernel
theorem test_decode_chain : decode (word 8#4 1#6 4#12 1#12 2#12 3#32 1#6) = .ok (.chrun (fl 4 1 2 3 1)) := by decide +kernel
theorem test_decode_mem : decode (word 9#4 11#6 0#12 0x604#12 0#12 0#32 0#6) = .ok (.unstash (fl 0 0x604 0 0 0)) := by decide +kernel
theorem test_decode_atom : decode (word 10#4 4#6 4#12 1#12 2#12 6#32 3#6) = .ok (.atoms (fl 4 1 2 6 3)) := by decide +kernel
theorem test_decode_eng : decode (word 11#4 12#6 4#12 0x600#12 0#12 0#32 0#6) = .ok (.carve (fl 4 0x600 0 0 0)) := by decide +kernel
theorem test_decode_sys : decode (word 12#4 8#6 4#12 1#12 0#12 0#32 0#6) = .ok (.regq (fl 4 1 0 0 0)) := by decide +kernel
theorem test_decode_unassigned : decode (word 12#4 10#6 0#12 0#12 0#12 0#32 0#6) = .ok (.undefinedEncoding (word 12#4 10#6 0#12 0#12 0#12 0#32 0#6)) ∧
    decode (word 13#4 0#6 0#12 0#12 0#12 0#32 0#6) = .ok (.undefinedEncoding (word 13#4 0#6 0#12 0#12 0#12 0#32 0#6)) := by decide +kernel

/-! ### One issue each: V1 holds 0x10000 + 8·lane, V2 lane + 1, V3 two binary32 values 1.0, the lower with lane ulps more. Results by hand. -/

/-- A V register, an S register, a predicate bit and the PC of a lane after an instruction in s. -/
def vAfter (i : Instr) (k l : Nat) : W64 := (((after i tState).gang? ⟨0, 0, 0⟩).map fun g => g.vReg k l).getD 0xDEAD#64
def sAfter (i : Instr) (k : Nat) : W64 := (((after i tState).gang? ⟨0, 0, 0⟩).map fun g => KMap.get g.s 0#64 k).getD 0xDEAD#64
def pAfter (i : Instr) (k l : Nat) : Bool := (((after i tState).gang? ⟨0, 0, 0⟩).map fun g => g.predBit k l).getD false
def pcAfter (i : Instr) (s : State) (l : Nat) : W64 := (((after i s).gang? ⟨0, 0, 0⟩).map fun g => g.pcOf l).getD 0xDEAD#64
/-- The values on their way to V registers, lane by lane. -/
def fillOf (i : Instr) (s : State) : List (Nat × W64) :=
  (((after i s).gang? ⟨0, 0, 0⟩).map fun g => g.fills.flatMap fun f => f.writes.filterMap fun w => match w with
    | .v _ l x _ => some (l, x)
    | _ => none).getD []

theorem test_iadd : vAfter (.iadd (fl 4 1 2 0 3)) 4 15 = 0x10088#64 := by decide +kernel
theorem test_iadd_saturates : vAfter (.iadd (fl 4 3 3 0 0x10)) 4 1 = 0x7F0000007F000002#64 ∧ vAfter (.iadd (fl 4 3 0x67A 0 0x14)) 4 2 = 0x3F8200023F820004#64 := by
  decide +kernel
theorem test_isub_wraps : vAfter (.isub (fl 4 2 1 0 3)) 4 0 = 0xFFFFFFFFFFFF0001#64 := by decide +kernel
theorem test_imul : vAfter (.imul (fl 4 2 2 0 2)) 4 15 = 256#64 := by decide +kernel
theorem test_imulh : vAfter (.imulh (fl 4 3 3 0 3)) 4 0 = 0x0FC040001F808000#64 := by decide +kernel
theorem test_imad : vAfter (.imad (fl 4 1 2 2 3)) 4 1 = 0x20012#64 := by decide +kernel
theorem test_iaddc_carry : pAfter (.iaddc (fl 4 0x678 2 0x647 3)) 7 0 = true ∧ vAfter (.iaddc (fl 4 0x678 2 0x647 3)) 4 0 = 2#64 := by decide +kernel
theorem test_idiv_truncates : (fillOf (.idiv (fl 4 1 0x601 0 2)) tState).getD 3 (0, 0#64) = (3, 13112#64) := by decide +kernel
theorem test_irem : (fillOf (.irem (fl 4 1 0x601 0 2)) tState).getD 0 (9, 0#64) = (0, 1#64) := by decide +kernel
theorem test_lea : vAfter (.lea (fl 4 1 2 7 3)) 4 2 = 0x10190#64 := by decide +kernel
theorem test_shl : vAfter (.shl (fl 4 2 2 0 3)) 4 3 = 64#64 := by decide +kernel
theorem test_sar_sign : vAfter (.sar (fl 4 3 0x67A 0 4)) 4 15 = 0#64 := by decide +kernel
theorem test_rot : vAfter (.rot (fl 4 3 0x67A 0 3)) 4 4 = 0xF8000003F8000043#64 := by decide +kernel
theorem test_popc_clz_ctz : vAfter (.popc (fl 4 1 0 0 3)) 4 1 = 2#64 ∧ vAfter (.clz (fl 4 2 0 0 3)) 4 0 = 63#64 ∧ vAfter (.ctz (fl 4 1 0 0 3)) 4 1 = 3#64 := by
  decide +kernel
theorem test_brev : vAfter (.brev (fl 4 2 0 0 3)) 4 0 = 0x8000000000000000#64 := by decide +kernel
theorem test_bfx_signed : vAfter (.bfx (fl 4 2 0 (0 + 64 * 3) 2)) 4 6 = 0xFFFFFFFFFFFFFFFF#64 := by decide +kernel
theorem test_bfi_top_bit : vAfter (.bfi (fl 4 1 2 (63 + 64 * 1) 3)) 4 0 = 0x8000000000010000#64 := by decide +kernel
theorem test_fadd : vAfter (.fadd (fl 4 3 3 0 8)) 4 0 = 0x4000000040000000#64 := by decide +kernel
theorem test_fmul_rounds : vAfter (.fmul (fl 4 3 3 0 8)) 4 1 = 0x3F8000003F800002#64 := by decide +kernel
theorem test_fcmp_equal : pAfter (.fcmp (fl 0x641 3 3 0 8)) 1 5 = true := by decide +kernel
theorem test_elect : pAfter (.elect (fl 0x641 0 0 0 0)) 1 0 = true ∧ pAfter (.elect (fl 0x641 0 0 0 0)) 1 1 = false := by decide +kernel
theorem test_vote_count : sAfter (.vote (fl 0x61E 0x640 0 0 4)) 30 = 8#64 ∧ sAfter (.vote (fl 0x61E 0x640 0 0 5)) 30 = 0xFF#64 := by decide +kernel
theorem test_shfl_rotate : vAfter (.shfl (fl 4 1 0x679 15 0x13)) 4 0 = 0x10078#64 ∧ vAfter (.shfl (fl 4 1 0x679 15 0x13)) 4 1 = 0x10000#64 := by decide +kernel
theorem test_bcast : vAfter (.bcast (fl 4 1 0 15 3)) 4 0 = 0x10078#64 := by decide +kernel
theorem test_reda : ((((after (.reda (fl 0x61E 2 0 0 3)) tState).gang? ⟨0, 0, 0⟩).map fun g => g.fills.map Fill.writes).getD []) = [[.s 30 136#64 0#2]] := by
  decide +kernel
theorem test_bra : pcAfter (.bra { fl 0 0 0 3 0 with gp := 0#3 }) tState 7 = 0x1024#64 ∧ pcAfter (.bra { fl 0 0 0 3 0 with gp := 0#3 }) tState 8 = 0x100C#64 := by
  decide +kernel
theorem test_call : pcAfter (.call (fl 0x61E 0 0 0xFFFFFFFF 0)) tState 0 = 0xFF4#64 ∧ sAfter (.call (fl 0x61E 0 0 0xFFFFFFFF 0)) 30 = 0x100C#64 := by decide +kernel
theorem test_exit : (((after (.exit { fl 0 0 0 0 0 with gp := 0#3 }) tState).gang? ⟨0, 0, 0⟩).map Gang.live) = some 0xFF00#64 := by decide +kernel
theorem test_trap_entry : pcAfter (.trap (fl 0 0 0 0x40 0)) tState 0 = 0x1800#64 ∧
    ((after (.trap (fl 0 0 0 0x40 0)) tState).gang? ⟨0, 0, 0⟩).map (fun g => (g.cause, g.tpc, g.tmask, g.inh)) = some (0x40#8, 0x100C#64, 0xFFFF#64, true) := by
  decide +kernel
theorem test_rte : pcAfter (.rte (fl 0 0 0 0 0)) inHandler 0 = 0x1300#64 ∧ pcAfter (.rte (fl 0 0 0 0 0)) inHandler 8 = 0x1000#64 := by decide +kernel
theorem test_mtc_privilege : ((after (.mtc (fl 0 0x601 0 0 0)) tState).gang? ⟨0, 0, 0⟩).map Gang.cause = some 0x13#8 := by decide +kernel
theorem test_misaligned : ((after (.ld (fl 4 1 0 4 3)) tState).gang? ⟨0, 0, 0⟩).map (fun g => (g.cause, g.taddr)) = some (0x23#8, 0x10004#64) := by decide +kernel
theorem test_store_low_byte_first : (memByte (after (.st (fl 0 1 1 8 3)) tState) 0x1000A, memByte (after (.st (fl 0 1 1 8 3)) tState) 0x10010) = (0x01#8, 0x08#8) := by
  decide +kernel
theorem test_load : (fillOf (.ld (fl 4 0x600 0 0x100 3)) (withMem [(0x10100, 0x1122334455667788#64)])).head? = some (0, 0x1122334455667788#64) := by decide +kernel
theorem test_scratch_store : scratchByte (after (.sts (fl 0 0x611 2 7 0x17)) tState) 0 0 0xFFFF = 16#8 := by decide +kernel
theorem test_atomic_completes : memNat (after (.unclassifiedIssueComplete ⟨0, 0, 0⟩) inFlight) 0x10008 8 = 2 := by decide +kernel
/-- A copying in progress: its first element read, and written. -/
def copied (n : Nat) : State := (List.range n).foldl (fun s _ => after (.engineElement 0) s) (after (.cpy (fl 0 0x60C 0x678 0 0)) (withMem [(0x10400, 0x55#64)]))
theorem test_copy_engine : (memByte (copied 1) 0x10500, memByte (copied 2) 0x10500) = (0#8, 0x55#8) := by decide +kernel
theorem test_dvcmp_fill : (((after (.dvcmp (fl 0x641 0x65B 0x65C 0x678 0)) tState).gang? ⟨0, 0, 0⟩).map fun g => g.fills.map fun f => f.writes.take 1) =
    some [[.p 1 0 true]] := by decide +kernel
theorem test_signal_packet : memNat (after (.signal 31 false 0x10100#64 7#64 false) (queueing .acting [(0x10100, 5#64)])) 0x10100 8 = 12 := by decide +kernel
theorem test_reset_steps_a_tick : (match step State.reset with
    | .next t => t.tick
    | _ => 9) = 1 := by decide +kernel
theorem test_step_runs_word : (match step (State.reset.withFetchWord 96 (((encode (.movi (fl 4 0 0 5 3))).getD 0#96).toNat)) with
    | .next t => (t.gang? ⟨0, 0, 0⟩).map fun g => (g.vReg 4 15, g.pcOf 15)
    | _ => none) = some (5#64, 0x100C#64) := by decide +kernel

end Sys2Proof.Tests
end

/-! ## Scope: words, steps and the state after reset (O58, O59) -/

namespace Sys2Proof.Machine

/-! ### A fetch corrects the words it reads (R406) -/

/-- The marks of correctable words that a fetch of a word leaves in memory. -/
def Fetched.memCorr? : Fetched → Option BitSet
  | .word _ s => some s.memCorr
  | _ => none

/-- A module after reset whose core 0 holds the translation of the executable page 1 of context 0; an upset has left the memory word at the
page's start correctable. -/
def correctableCode : State :=
  { State.reset with
    tlb := [{ core := 0, ctx := 0, vpage := 1, pages := 1, leaf := 0x1017#64 }]
    memCorr := [(0x400, true)] }

/-- A task of context 0 whose start edge found every byte of its code at 0. -/
def codeTask : Task := Task.fresh hostRecord 0 0 0 .running

theorem coreXlat_correctableCode :
    coreXlat correctableCode 0 codeTask.ctx (0x1000#64).toNat .exec = .done (.ok 0x1000 0x1017#64) correctableCode := rfl

/-- R406: the corrected value is used and written back, so the mark of the word is gone. -/
theorem fetchAt_correctableCode_memCorr : (fetchAt correctableCode 0 codeTask 0x1000#64).memCorr? = some [] := by decide +kernel

/-- Refutes O58: its clause on the word received says that a fetch changes nothing but the instruction cache, the free counter, the counters
and the token buckets. A core that does not hold the word yet reads it from memory, where R406 has a correctable word written back: the mark
in `memCorr` is taken out too. -/
theorem not_stepRunsTheDecodedInstruction : ¬ Obligations.StepRunsTheDecodedInstruction := by
  unfold Obligations.StepRunsTheDecodedInstruction
  rintro ⟨-, hfetch, -, -⟩
  obtain ⟨w, t, hword, -, hframe, -⟩ := hfetch correctableCode correctableCode 0 0x1000 codeTask 0x1000#64 0x1017#64 0#96 0#96
    (by decide) (by decide) coreXlat_correctableCode (by decide +kernel) (by decide +kernel)
  have hkept : t.memCorr = correctableCode.memCorr := by rw [hframe]
  have hcorrected : some t.memCorr = some [] := by
    rw [← fetchAt_correctableCode_memCorr, hword]
    rfl
  rw [hkept] at hcorrected
  exact absurd hcorrected (by decide)

/-! ### The module after reset (R437) -/

theorem reset_inv : State.reset.Inv :=
  ⟨by decide, ⟨by simp [State.reset], List.Pairwise.nil⟩, by simp [State.reset], by simp [State.reset]⟩

theorem pickGang_reset : pickGang State.reset (fun _ => true) = none := rfl

theorem firstDue_reset : firstDue State.reset = none := rfl

/-- R3: no gang can issue and no happening is due, so that a tick passes. -/
theorem step_reset : step State.reset = .next { State.reset with tick := 1 } := by
  show scheduleStep State.reset = _
  unfold scheduleStep
  rw [pickGang_reset, firstDue_reset]
  rfl

theorem dies_reset {d : Nat} (hd : d < 2) : ∃ x, KMap.get? State.reset.dies d = some x ∧ x.mhz = 600 ∧ x.stopped = false := by
  obtain rfl | rfl : d = 0 ∨ d = 1 := by omega
  · exact ⟨_, rfl, rfl, rfl⟩
  · exact ⟨_, rfl, rfl, rfl⟩

/-! ### A gang at its creation (R35, R264) -/

section

variable (r : TaskRec) (team index half ix granule : Nat)

theorem newGang_pcOf {l : Nat} (hl : l < r.width) : (newGang r team index half ix granule).pcOf l = r.code :=
  KMap.get_foldl_set_mem 0#64 id (fun _ => r.code) (List.range r.width) [] l r.code ⟨l, List.mem_range.2 hl, rfl⟩ fun _ _ _ => rfl

theorem newGang_live (l : Nat) : (newGang r team index half ix granule).live.getLsbD l = (decide (l < 64) && decide (l < r.width)) :=
  maskOf_getLsbD _ l

theorem newGang_predBit {k : Nat} (hk : k < 7) (l : Nat) : (newGang r team index half ix granule).predBit k l = false := by
  simp [Gang.predBit, newGang, hk.ne]

/-- R35, R39: every register that a write can reach is full; P7 is none. -/
theorem newGang_emptyAt {w : RegWrite} (hw : ∀ l b, w ≠ .p 7 l b) : (newGang r team index half ix granule).emptyAt w = false := by
  cases w with
  | p k l b =>
    have hk : k ≠ 7 := fun h => hw l b (h ▸ rfl)
    simp [Gang.emptyAt, newGang, hk]
  | v | part | s | n => rfl

end

/-- Settles O59: each field of the state after reset is read off; the step is `step_reset`; of a new gang the lanes' PCs and the live lanes
depend on its width, and the rest is read off its definition. -/
theorem reset : Obligations.Reset := by
  unfold Obligations.Reset
  refine ⟨reset_inv, rfl, rfl, rfl, rfl, rfl, rfl, rfl, fun _ => rfl, fun _ _ => rfl, fun _ hd => dies_reset hd, step_reset,
    fun r team index half ix granule hwidth => ?_⟩
  refine ⟨fun _ _ => rfl, fun _ => rfl, fun _ l hk => newGang_predBit r team index half ix granule hk l, fun _ => rfl, fun _ => rfl, fun _ => rfl,
    fun _ hw => newGang_emptyAt r team index half ix granule hw, fun l hl => ⟨newGang_pcOf r team index half ix granule hl, ?_⟩, fun l hl => ?_,
    rfl, rfl, rfl, rfl, rfl, rfl, rfl, rfl, rfl, rfl, rfl, rfl⟩
  · simp [newGang_live, hl, hl.trans_le hwidth]
  · simp [newGang_live, hl.not_gt]

end Sys2Proof.Machine

/-! ## Scope: the instruction word (O57, O42, O44, O43, O56) -/

namespace Sys2Proof

/-! ### The fields of a word (R8) -/

/-- R8: the word of CLASS, OP and fields, its width the sum of the fields' widths. -/
def wordBits (cls op : Nat) (f : Fields) : BitVec (4 + 6 + 1 + 3 + 12 + 12 + 12 + 32 + 1 + 1 + 1 + 1 + 1 + 1 + 2 + 6) :=
  BitVec.ofNat 4 cls ++ BitVec.ofNat 6 op ++ BitVec.ofBool f.gn ++ f.gp ++ f.d ++ f.a ++ f.b ++ f.imm ++ BitVec.ofBool f.t ++
    BitVec.ofBool f.fa ++ BitVec.ofBool f.fb ++ BitVec.ofBool f.fc ++ BitVec.ofBool f.u ++ BitVec.ofBool f.y ++ f.hold ++ f.mod

theorem extractLsb'_wordOf (cls op : Nat) (f : Fields) (start len : Nat) :
    (wordOf cls op f).extractLsb' start len = (wordBits cls op f).extractLsb' start len := rfl

theorem getLsbD_wordOf (cls op : Nat) (f : Fields) (k : Nat) : (wordOf cls op f).getLsbD k = (wordBits cls op f).getLsbD k := rfl

theorem fieldsOf_wordOf (cls op : Nat) (f : Fields) : fieldsOf (wordOf cls op f) = f := by
  simp (disch := decide) only [fieldsOf, extractLsb'_wordOf, getLsbD_wordOf, wordBits, BitVec.extractLsb'_append_eq_of_le,
    BitVec.extractLsb'_append_eq_of_add_le, BitVec.getLsbD_append, Nat.reduceSub, BitVec.extractLsb'_eq_self, Nat.reduceLT, reduceIte,
    decide_true, BitVec.getLsbD_ofBool, Bool.true_and]

theorem classOf_wordOf {cls : Nat} (h : cls < 16) (op : Nat) (f : Fields) : classOf (wordOf cls op f) = cls := by
  simp (disch := decide) only [classOf, extractLsb'_wordOf, wordBits, BitVec.extractLsb'_append_eq_of_le, Nat.reduceSub,
    BitVec.extractLsb'_eq_self, BitVec.toNat_ofNat]
  exact Nat.mod_eq_of_lt h

theorem opOf_wordOf (cls : Nat) {op : Nat} (h : op < 64) (f : Fields) : opOf (wordOf cls op f) = op := by
  simp (disch := decide) only [opOf, extractLsb'_wordOf, wordBits, BitVec.extractLsb'_append_eq_of_le,
    BitVec.extractLsb'_append_eq_of_add_le, Nat.reduceSub, BitVec.extractLsb'_eq_self, BitVec.toNat_ofNat]
  exact Nat.mod_eq_of_lt h

/-- Each bit of a word is a bit of one of its fields. -/
theorem wordOf_fieldsOf (w : W96) : wordOf (classOf w) (opOf w) (fieldsOf w) = w := by
  refine BitVec.eq_of_getLsbD_eq fun k hk => ?_
  simp only [getLsbD_wordOf, wordBits, classOf, opOf, fieldsOf, BitVec.getLsbD_append, BitVec.ofNat_toNat, BitVec.setWidth_eq,
    BitVec.getLsbD_extractLsb', BitVec.getLsbD_ofBool]
  interval_cases k <;> simp

/-! ### The opcode map (R81) -/

theorem opsInClass_le (cls : Nat) : opsInClass.getD cls 0 ≤ 64 := by
  by_cases h : cls < opsInClass.length
  · exact (by decide : ∀ c < opsInClass.length, opsInClass.getD c 0 ≤ 64) cls h
  · rw [List.getD_eq_default _ _ (not_lt.1 h)]
    decide

/-- A form's CLASS and OP are assigned, and the map leads from them back to it. -/
theorem form_opcode {i : Instr} {m : Form} {f : Fields} (h : i.form = some (m, f)) :
    m.cls < 13 ∧ m.op < opsInClass.getD m.cls 0 ∧ ∃ k, formOfOpcode m.cls m.op = some k ∧ k f = i := by
  cases i
  all_goals cases h
  all_goals exact ⟨by decide, by decide, _, rfl, rfl⟩

/-- What the map leads to is a form with that CLASS and OP. -/
theorem formOfOpcode_form {cls op : Nat} {k : Fields → Instr} (h : formOfOpcode cls op = some k) (f : Fields) :
    ∃ m, (k f).form = some (m, f) ∧ m.cls = cls ∧ m.op = op := by
  unfold formOfOpcode at h
  split at h
  case h_14 => cases h
  all_goals
    simp only [formsOfClass0, formsOfClass1, formsOfClass2, formsOfClass3, formsOfClass4, formsOfClass5, formsOfClass6, formsOfClass7,
      formsOfClass8, formsOfClass9, formsOfClass10, formsOfClass11, formsOfClass12] at h
    split at h
    all_goals cases h
    all_goals exact ⟨_, rfl, rfl, rfl⟩

theorem formOfOpcode_isNone : ∀ cls < 16, ∀ op < 64, (formOfOpcode cls op).isNone = !(op < opsInClass.getD cls 0) := by decide +kernel

theorem wordUnassigned_iff (w : W96) : wordUnassigned w = true ↔ formOfOpcode (classOf w) (opOf w) = none := by
  rw [← Option.isNone_iff_eq_none, formOfOpcode_isNone _ (BitVec.isLt _) _ (BitVec.isLt _)]
  rfl

theorem wordUnassigned_eq_false_iff (w : W96) : wordUnassigned w = false ↔ ∃ k, formOfOpcode (classOf w) (opOf w) = some k := by
  rw [← Bool.not_eq_true, wordUnassigned_iff, ← ne_eq, Option.ne_none_iff_exists']

/-! ### What a word decodes to -/

theorem decode_unassigned {w : W96} (h : wordUnassigned w = true) : decode w = .ok (.undefinedEncoding w) := by
  simp only [decode, (wordUnassigned_iff w).1 h]

theorem decode_assigned {w : W96} {k : Fields → Instr} {m : Form} {f : Fields} (hk : formOfOpcode (classOf w) (opOf w) = some k)
    (hform : (k (fieldsOf w)).form = some (m, f)) : decode w = (m.refuse f).elim (.ok (k (fieldsOf w))) .error := by
  simp only [decode, hk, hform]
  cases m.refuse f <;> rfl

theorem decode_wordOf {i : Instr} {m : Form} {f : Fields} (h : i.form = some (m, f)) :
    decode (wordOf m.cls m.op f) = (m.refuse f).elim (.ok i) .error := by
  obtain ⟨hcls, hop, k, hk, rfl⟩ := form_opcode h
  have hk' : formOfOpcode (classOf (wordOf m.cls m.op f)) (opOf (wordOf m.cls m.op f)) = some k := by
    rw [classOf_wordOf (hcls.trans (by decide)), opOf_wordOf _ (hop.trans_le (opsInClass_le _)), hk]
  rw [decode_assigned hk' (by rwa [fieldsOf_wordOf]), fieldsOf_wordOf]

/-- A word with an assigned CLASS and OP is the word of a form, with the word's own fields. -/
theorem exists_form_of_assigned {w : W96} (h : wordUnassigned w = false) :
    ∃ (i : Instr) (m : Form), i.form = some (m, fieldsOf w) ∧ wordOf m.cls m.op (fieldsOf w) = w := by
  obtain ⟨k, hk⟩ := (wordUnassigned_eq_false_iff w).1 h
  obtain ⟨m, hform, hcls, hop⟩ := formOfOpcode_form hk (fieldsOf w)
  exact ⟨_, m, hform, by rw [hcls, hop, wordOf_fieldsOf]⟩

theorem encode_form {i : Instr} {m : Form} {f : Fields} (h : i.form = some (m, f)) : encode i = some (wordOf m.cls m.op f) := by
  simp only [encode, h]

theorem encode_formless {i : Instr} {w : W96} (hform : i.form = none) (h : encode i = some w) : i = .undefinedEncoding w := by
  simp only [encode, hform] at h
  cases i <;> cases h
  rfl

theorem wf_form {i : Instr} {m : Form} {f : Fields} (h : i.form = some (m, f)) : i.wf = (m.refuse f).isNone := by simp only [Instr.wf, h]

theorem decode_encode {i : Instr} (hwf : i.wf = true) {w : W96} (h : encode i = some w) : decode w = .ok i := by
  cases hform : i.form with
  | none =>
    obtain rfl := encode_formless hform h
    exact decode_unassigned hwf
  | some mf =>
    rw [encode_form hform, Option.some_inj] at h
    rw [wf_form hform, Option.isNone_iff_eq_none] at hwf
    rw [← h, decode_wordOf hform, hwf]
    rfl

theorem encode_decode {w : W96} {i : Instr} (h : decode w = .ok i) : i.wf = true ∧ encode i = some w := by
  cases hw : wordUnassigned w with
  | true =>
    rw [decode_unassigned hw] at h
    cases h
    exact ⟨hw, rfl⟩
  | false =>
    obtain ⟨j, m, hform, hword⟩ := exists_form_of_assigned hw
    rw [← hword, decode_wordOf hform] at h
    cases hr : m.refuse (fieldsOf w) with
    | some why => rw [hr] at h; cases h
    | none =>
      rw [hr] at h
      cases h
      exact ⟨by rw [wf_form hform, hr]; rfl, by rw [encode_form hform, hword]⟩

/-- Settles O57: a form's word has the form's CLASS and OP and its own fields back (`decode_wordOf`), and a word with an assigned CLASS and
OP is the word of a form (`exists_form_of_assigned`). -/
theorem decodeEncode : Obligations.DecodeEncode := by
  unfold Obligations.DecodeEncode
  refine ⟨fun i hwf w h => decode_encode hwf h, fun i m f hform => ⟨encode_form hform, fun hr => ?_⟩, fun w i h => encode_decode h,
    fun w ⟨i, m, f, h, hform⟩ => ?_, fun w h => decode_unassigned h⟩
  · obtain ⟨why, hwhy⟩ := Option.ne_none_iff_exists'.1 hr
    exact ⟨why, by rw [decode_wordOf hform, hwhy]; rfl⟩
  · by_contra hw
    rw [decode_unassigned (Bool.eq_true_of_not_eq_false hw)] at h
    cases h
    cases hform

/-- Settles O56: each worked word is decoded by evaluation. -/
theorem decodeWords : Obligations.DecodeWords := by
  unfold Obligations.DecodeWords
  decide +kernel

end Sys2Proof

namespace Sys2Proof.Machine

/-! ### An issue without Active lanes (R12) -/

/-- A form's own part leaves the state alone in an issue without an Active lane. -/
def IdleBody (body : Iss → State → Res) : Prop :=
  ∀ (x : Iss) (s : State) (g : Gang), x.active = 0#64 → body x (s.setGang x.ref g) = .ok (s.setGang x.ref g)

section

variable {x : Iss} (hx : x.active = 0#64)

include hx

theorem lanes_idle : x.lanes = [] := by
  refine List.eq_nil_iff_forall_not_mem.2 fun l hl => ?_
  have := (mem_lanesOf _ _).1 hl
  simp [hx] at this

theorem lowestLane_idle : lowestLane x.active = none := by rw [hx]; decide

theorem dWrites_idle (h : Nat → W64) : x.dWrites h = [] := by
  unfold Iss.dWrites
  split <;> simp [lanes_idle hx, lowestLane_idle hx]

theorem pWrites_idle (h : Nat → Bool) : x.pWrites h = [] := by
  unfold Iss.pWrites
  split <;> simp [lanes_idle hx]

theorem putTransients_idle (g : Gang) (h : Nat → W64) : g.putTransients x h = g := by
  unfold Gang.putTransients
  split <;> simp [lanes_idle hx, lowestLane_idle hx]

theorem putD_idle (s : State) (g : Gang) (h : Nat → W64) : x.putD (s.setGang x.ref g) h = s.setGang x.ref g := by
  rw [Iss.putD, mapGang_setGang, putTransients_idle hx, dWrites_idle hx]
  simp [Gang.writes]

theorem putP_idle (s : State) (g : Gang) (h : Nat → Bool) : x.putP (s.setGang x.ref g) h = s.setGang x.ref g := by
  rw [Iss.putP, mapGang_setGang, pWrites_idle hx]
  rfl

theorem laneFlags_idle (h : Nat → Flags) : laneFlags x h = [] := by simp [laneFlags, lanes_idle hx]

theorem uniformity_idle (target : Nat → W64) : uniformity x target = none := by
  have hd : branchDiffer x target = 0#64 := by
    unfold branchDiffer
    split
    · rfl
    · exact (maskOf_eq_zero _).2 fun l _ => by simp [branchNext, hx]
  simp [uniformity, hd]

theorem zeroDivisors_idle : zeroDivisors x = 0#64 := (maskOf_eq_zero _).2 fun l _ => by simp [hx]

end

theorem fpTrap_nil (x : Iss) (s : State) (w : Bool) : x.fpTrap s [] w = none := fpTrap_quiet (by simp [Iss.quiet, allFlags]) s w

theorem idleBody_putD (h : Iss → State → Nat → W64) : IdleBody fun x s => .ok (x.putD s (h x s)) :=
  fun _ s g hx => congrArg Res.ok (putD_idle hx s g _)

theorem idleBody_putP (h : Iss → State → Nat → Bool) : IdleBody fun x s => .ok (x.putP s (h x s)) :=
  fun _ s g hx => congrArg Res.ok (putP_idle hx s g _)

theorem idleBody_branchTo (link : Bool) (target : Iss → Nat → W64) : IdleBody (branchTo link target) := by
  intro x s g hx
  cases link <;> simp [branchTo, uniformity_idle hx, lanes_idle hx, putD_idle hx, hx, Res.ok]

theorem idleBody_division (h : Int → Int → Int) : IdleBody fun x s =>
    if zeroDivisors x ≠ 0#64 then .trap { cause := 0x31, tmask := x.active, taddr := 0#64, thit := zeroDivisors x, tpc := none } s
    else .ok (x.fill s (x.dWrites fun l => intOp2 x.f.tcode false h (x.a l) (x.b l))) := by
  intro x s g hx
  simp [zeroDivisors_idle hx, dWrites_idle hx, Iss.fill]

/-- The own part of the floating forms: FP-EXC of the flags of the Active lanes, or a result that comes with them. -/
theorem idleBody_fp (fl : Iss → Nat → Flags) (put : Iss → State → Flags → State)
    (hput : ∀ (x : Iss) (s : State) (g : Gang), x.active = 0#64 → put x (s.setGang x.ref g) 0#5 = s.setGang x.ref g) : IdleBody fun x s =>
    match x.fpTrap s (laneFlags x (fl x)) false with
    | some r => r
    | none => .ok (put x s (allFlags (laneFlags x (fl x)))) := by
  intro x s g hx
  simp only [laneFlags_idle hx, fpTrap_nil]
  exact congrArg Res.ok (hput x s g hx)

/-! #### The forms, class by class (R81)

The case `h_n` of a class is its OP n - 1; `delta exec` leads from an instruction to the execution of its form. -/

/-- An execution is the issue of an instruction whose own part leaves the state alone in an issue without an Active lane. -/
def Idles (i : Instr) (e : State → Host.Outcome State Fault Refusal) : Prop :=
  ∀ s, ∃ early body, e s = runIssueWith i early s body ∧ IdleBody body

section

variable {i : Instr} {e : State → Host.Outcome State Fault Refusal}

theorem idles_of {body : Iss → State → Res} (he : ∀ s, e s = runIssue i s body) (hb : IdleBody body) : Idles i e :=
  fun s => ⟨noEarly, body, he s, hb⟩

theorem idles_ok (he : ∀ s, e s = runIssue i s fun _ s => .ok s) : Idles i e := idles_of he fun _ _ _ _ => rfl

theorem idles_putD {h : Iss → State → Nat → W64} (he : ∀ s, e s = runIssue i s fun x s => .ok (x.putD s (h x s))) : Idles i e :=
  idles_of he (idleBody_putD h)

theorem idles_putP {h : Iss → State → Nat → Bool} (he : ∀ s, e s = runIssue i s fun x s => .ok (x.putP s (h x s))) : Idles i e :=
  idles_of he (idleBody_putP h)

theorem idles_branch {link : Bool} {target : Iss → Nat → W64} (he : ∀ s, e s = runIssue i s (branchTo link target)) : Idles i e :=
  idles_of he (idleBody_branchTo link target)

theorem idles_lane {h : Iss → Nat → W64} (he : ∀ s, e s = laneForm i s h) : Idles i e := idles_putD (h := fun x _ => h x) he

theorem idles_div {h : Int → Int → Int} (he : ∀ s, e s = divForm i s h) : Idles i e := idles_of he (idleBody_division h)

theorem idles_fp {h : Iss → Nat → W64 × Flags} (he : ∀ s, e s = fpForm i s h) : Idles i e :=
  idles_of he <| idleBody_fp (fun x l => (h x l).2) (fun x s fl => x.orStat (x.putD s fun l => (h x l).1) fl) fun x s g hx => by
    rw [putD_idle hx, orStat_zero]

theorem idles_sfu {h : Iss → Nat → W64 × Flags} (he : ∀ s, e s = sfuForm i s h) : Idles i e :=
  idles_of he <| idleBody_fp (fun x l => (h x l).2) (fun x s fl => x.fill s (x.dWrites fun l => (h x l).1) fl true) fun x s g hx => by
    simp [dWrites_idle hx, Iss.fill]

/-- A form whose own part is skipped in an issue without an Active lane. -/
theorem idles_skip {rest : Iss → State → Res} (he : ∀ s, e s = runIssue i s fun x s => if x.active = 0#64 then .ok s else rest x s) :
    Idles i e := idles_of he fun _ _ _ hx => if_pos hx

theorem idles_whole {h : Iss → (Nat → W64) × Flags} (he : ∀ s, e s = wholeForm i s h) : Idles i e := idles_of he fun _ _ _ hx => if_pos hx

theorem idles_conv (he : ∀ s, e s = convForm i s) : Idles i e := idles_of he fun _ _ _ hx => if_pos hx

theorem idles_dir {h : Iss → DVec × Flags} (he : ∀ s, e s = dirForm i s h) : Idles i e := idles_of he fun _ _ _ hx => if_pos hx

theorem idles_dirLong {h : Iss → List RegWrite × Flags} (he : ∀ s, e s = dirLong i s h) : Idles i e := idles_of he fun _ _ _ hx => if_pos hx

theorem idles_dirValue {h : Iss → W64 × Flags} (he : ∀ s, e s = dirValue i s h) : Idles i e := idles_of he fun _ _ _ hx => if_pos hx

theorem idles_eng {k : EngineKind} (he : ∀ s, e s = engForm i k s) : Idles i e := idles_of he fun _ _ _ hx => if_pos hx

theorem idles_event {barrier : Bool} {okind : Nat} {data : Iss → W64} {ws : Iss → List RegWrite}
    (he : ∀ s, e s = eventForm i s barrier okind data ws) : Idles i e := idles_of he fun _ _ _ hx => if_pos hx

theorem idles_wait {decl : Access} {barrier : Bool} {data : Iss → W64} {block : PendOp → Block}
    (he : ∀ s, e s = waitForm i s decl barrier data block) : Idles i e := idles_of he fun _ _ _ hx => if_pos hx

theorem idles_arrive {b : Nat} {waits : Bool} (he : ∀ s, e s = arriveForm i b waits s) : Idles i e := idles_of he fun _ _ _ hx => if_pos hx

/-- The same of a form with a cause of its own before its sources are read. -/
theorem idles_skipWith {early : State → Fields → Gang → Early} {rest : Iss → State → Res}
    (he : ∀ s, e s = runIssueWith i (early s) s fun x s => if x.active = 0#64 then .ok s else rest x s) : Idles i e :=
  fun s => ⟨early s, _, he s, fun _ _ _ hx => if_pos hx⟩

end

theorem idles_class0 {op : Nat} {k : Fields → Instr} (h : formsOfClass0 op = some k) (f : Fields) : Idles (k f) (exec (k f)) := by
  unfold formsOfClass0 at h
  split at h
  all_goals cases h
  all_goals delta exec; dsimp only
  -- NOP, YIELD
  case h_1 | h_8 => exact idles_ok fun _ => rfl
  -- BRA, BRI, CALL, CALLI, RET
  case h_2 | h_3 | h_4 | h_5 | h_6 => exact idles_branch fun _ => rfl
  -- EXIT
  case h_7 =>
    refine idles_of (fun _ => rfl) fun x s g hx => ?_
    rw [hx]
    rfl
  -- ELECT, PSET
  case h_9 | h_11 => exact idles_putP fun _ => rfl
  -- VOTE
  case h_10 =>
    refine idles_of (fun _ => rfl) fun x s g hx => ?_
    simp only [putP_idle hx, putD_idle hx, ite_self]
  -- PMOV
  case h_12 =>
    refine idles_of (fun _ => rfl) fun x s g hx => ?_
    simp only [putP_idle hx, putD_idle hx]
    split <;> rfl

theorem idles_class1 {op : Nat} {k : Fields → Instr} (h : formsOfClass1 op = some k) (f : Fields) : Idles (k f) (exec (k f)) := by
  unfold formsOfClass1 at h
  split at h
  all_goals cases h
  all_goals delta exec; dsimp only
  -- IADDC
  case h_3 =>
    refine idles_of (fun _ => rfl) fun x s g hx => ?_
    simp only [putD_idle hx, mapGang_setGang, lanes_idle hx, List.map_nil]
    split <;> rfl
  -- ICMP
  case h_11 => exact idles_putP fun _ => rfl
  -- IDIV, IREM
  case h_14 | h_15 => exact idles_div fun _ => rfl
  all_goals exact idles_lane fun _ => rfl

theorem idles_class2 {op : Nat} {k : Fields → Instr} (h : formsOfClass2 op = some k) (f : Fields) : Idles (k f) (exec (k f)) := by
  unfold formsOfClass2 at h
  split at h
  all_goals cases h
  all_goals delta exec; dsimp only
  all_goals exact idles_lane fun _ => rfl

theorem idles_class3 {op : Nat} {k : Fields → Instr} (h : formsOfClass3 op = some k) (f : Fields) : Idles (k f) (exec (k f)) := by
  unfold formsOfClass3 at h
  split at h
  all_goals cases h
  all_goals delta exec; dsimp only
  -- FABS, FNEG, FSEL, FCLASS
  case h_7 | h_8 | h_10 | h_11 => exact idles_putD fun _ => rfl
  -- FCMP
  case h_9 =>
    refine idles_of (fun _ => rfl) <| idleBody_fp _ (fun x s fl => x.orStat (x.putP s _) fl) fun x s g hx => ?_
    rw [putP_idle hx, orStat_zero]
  all_goals exact idles_fp fun _ => rfl

theorem idles_class4 {op : Nat} {k : Fields → Instr} (h : formsOfClass4 op = some k) (f : Fields) : Idles (k f) (exec (k f)) := by
  unfold formsOfClass4 at h
  split at h
  all_goals cases h
  all_goals delta exec; dsimp only
  all_goals exact idles_sfu fun _ => rfl

theorem idles_class5 {op : Nat} {k : Fields → Instr} (h : formsOfClass5 op = some k) (f : Fields) : Idles (k f) (exec (k f)) := by
  unfold formsOfClass5 at h
  split at h
  all_goals cases h
  all_goals delta exec; dsimp only
  -- SHFL, SWZ, BCAST, PACK, UNPACK
  case h_1 | h_2 | h_3 | h_7 | h_8 => exact idles_putD fun _ => rfl
  -- REDA, REDM, SCAN
  case h_4 | h_5 | h_6 => exact idles_whole fun _ => rfl
  -- SXPACK, SXUNP
  case h_9 | h_10 => exact idles_conv fun _ => rfl
  -- MATCH
  case h_11 => exact idles_skip fun _ => rfl

theorem idles_class6 {op : Nat} {k : Fields → Instr} (h : formsOfClass6 op = some k) (f : Fields) : Idles (k f) (exec (k f)) := by
  unfold formsOfClass6 at h
  split at h
  all_goals cases h
  all_goals delta exec; dsimp only
  -- DVMK, DVSCL, DVADD, DVAXPY, DVNEG, DVREN, DVPROJ, DVMUL
  case h_1 | h_4 | h_5 | h_6 | h_7 | h_10 | h_11 | h_15 => exact idles_dir fun _ => rfl
  -- DVDOT, DVSETN, DVCMP
  case h_3 | h_9 | h_12 => exact idles_dirLong fun _ => rfl
  -- DVNRM
  case h_8 => exact idles_dirValue fun _ => rfl
  -- DVFLAT, DVLD, DVST
  case h_2 | h_13 | h_14 => exact idles_skip fun _ => rfl

theorem idles_class7 {op : Nat} {k : Fields → Instr} (h : formsOfClass7 op = some k) (f : Fields) : Idles (k f) (exec (k f)) := by
  unfold formsOfClass7 at h
  split at h
  all_goals cases h
  all_goals delta exec; dsimp only
  -- TVGET
  case h_2 => exact idles_putD fun _ => rfl
  -- MXWAIT, TOKTAKE
  case h_4 | h_6 =>
    refine idles_of (fun _ => rfl) fun x s g hx => ?_
    simp [hx]
  -- TCVT
  case h_8 => exact idles_conv fun _ => rfl
  all_goals exact idles_skip fun _ => rfl

theorem idles_class8 {op : Nat} {k : Fields → Instr} (h : formsOfClass8 op = some k) (f : Fields) : Idles (k f) (exec (k f)) := by
  unfold formsOfClass8 at h
  split at h
  all_goals cases h
  all_goals delta exec; dsimp only
  -- CHRUN
  case h_2 => exact idles_skipWith fun _ => rfl
  -- CHQRY
  case h_3 => exact idles_putD fun _ => rfl
  all_goals exact idles_skip fun _ => rfl

theorem idles_class9 {op : Nat} {k : Fields → Instr} (h : formsOfClass9 op = some k) (f : Fields) : Idles (k f) (exec (k f)) := by
  unfold formsOfClass9 at h
  split at h
  all_goals cases h
  all_goals delta exec; dsimp only
  -- PFCH
  case h_10 =>
    refine idles_of (fun _ => rfl) fun x s g hx => ?_
    simp [lanes_idle hx]
  all_goals exact idles_skip fun _ => rfl

theorem idles_class10 {op : Nat} {k : Fields → Instr} (h : formsOfClass10 op = some k) (f : Fields) : Idles (k f) (exec (k f)) := by
  unfold formsOfClass10 at h
  split at h
  all_goals cases h
  all_goals delta exec; dsimp only
  all_goals exact idles_skip fun _ => rfl

theorem idles_class11 {op : Nat} {k : Fields → Instr} (h : formsOfClass11 op = some k) (f : Fields) : Idles (k f) (exec (k f)) := by
  unfold formsOfClass11 at h
  split at h
  all_goals cases h
  all_goals delta exec; dsimp only
  -- CPY, CPYM, GATHER, SCATA
  case h_1 | h_2 | h_3 | h_4 => exact idles_eng fun _ => rfl
  -- SIGW, BOW
  case h_5 | h_12 => exact idles_wait fun _ => rfl
  -- SIGT, SIGS, BOA
  case h_6 | h_7 | h_11 => exact idles_event fun _ => rfl
  -- BARS, BARA
  case h_8 | h_9 => exact idles_arrive fun _ => rfl
  -- BARW
  case h_10 =>
    refine idles_of (fun _ => rfl) fun x s g hx => ?_
    simp [hx]
  -- CARVE
  case h_13 => exact idles_skip fun _ => rfl

theorem idles_class12 {op : Nat} {k : Fields → Instr} (h : formsOfClass12 op = some k) (f : Fields) : Idles (k f) (exec (k f)) := by
  unfold formsOfClass12 at h
  split at h
  all_goals cases h
  all_goals delta exec; dsimp only
  -- MFC
  case h_3 =>
    refine idles_of (fun _ => rfl) fun x s g hx => ?_
    simp [hx, putD_idle hx]
  -- RDCNT, RDTIME, RDDIG, REGQ
  case h_5 | h_6 | h_8 | h_9 => exact idles_putD fun _ => rfl
  -- HALTDBG
  case h_7 =>
    refine idles_of (fun _ => rfl) fun x s g hx => ?_
    simp [hx]
  -- RTE, MTC
  case h_2 | h_4 => exact idles_skipWith fun _ => rfl
  all_goals exact idles_skip fun _ => rfl

/-- Every form is an issue whose own part leaves the state alone where no lane is Active. -/
theorem idles_form {i : Instr} {m : Form} {f : Fields} (h : i.form = some (m, f)) : Idles i (exec i) := by
  obtain ⟨-, -, k, hk, rfl⟩ := form_opcode h
  unfold formOfOpcode at hk
  split at hk
  · exact idles_class0 hk f
  · exact idles_class1 hk f
  · exact idles_class2 hk f
  · exact idles_class3 hk f
  · exact idles_class4 hk f
  · exact idles_class5 hk f
  · exact idles_class6 hk f
  · exact idles_class7 hk f
  · exact idles_class8 hk f
  · exact idles_class9 hk f
  · exact idles_class10 hk f
  · exact idles_class11 hk f
  · exact idles_class12 hk f
  · cases hk

theorem breakLanes_idle {s : State} {x : Iss} (hx : x.active = 0#64) : breakLanes s x = 0#64 := by
  unfold breakLanes
  split
  · rfl
  · split
    · rfl
    · exact foldl_keeps (· = 0#64) _ (fun _ _ hb => by simp [hb, hx]) _ _ rfl

theorem beginIssue_idle {i : Instr} {s : State} {g : Gang} {x : Iss} (h : Idle i s g x) (early : Fields → Gang → Early) :
    beginIssue s i x.m x.f x.ref g x.who x.task early = .go x := by
  obtain ⟨ref, xg, who, task, xi, m, f, pc, set, active⟩ := x
  obtain ⟨-, -, -, -, hi, -, hset, hg, ha, hz, hopcode, hoperands, hviews, hlent, hviewParity, hguardParity, hguard⟩ := h
  simp only at *
  subst hi hg
  have hactive : activeOf (g.seen set) f set = 0#64 := (hz ▸ ha).symm
  have hparity : (decide (f.gp.toNat ≠ 7) && (g.seen set).regParity (opndP f.gp.toNat)) = false := by
    rcases hguardParity with h7 | hp
    · simp [h7]
    · rw [hp, Bool.and_false]
  have hoperands' : operandsOk xi m f (g.seen set).regs = true := hoperands
  unfold beginIssue
  rw [hset]
  simp only [hopcode, hoperands', hviews, hlent, hviewParity, hparity, hguard, hactive, hz, Bool.false_eq_true, if_false, if_true, Bool.not_true,
    Bool.false_and]

theorem runIssueWith_idle {i : Instr} {s : State} {g : Gang} {x : Iss} (h : Idle i s g x) (early : Fields → Gang → Early)
    {body : Iss → State → Res} (hbody : IdleBody body) :
    runIssueWith i early s body = .next (commitIssue x (s.setGang x.ref x.g) {}) := by
  have hgo := beginIssue_idle h early
  unfold runIssueWith
  rw [h.form, h.current]
  simp only [h.present, h.party, h.task, hgo]
  rw [hbody x s x.g h.noLane, finishIssue_ok (breakLanes_idle h.noLane)]

/-! ### What a commit leaves (R303) -/

/-- A fold that changes each entry it names once. -/
theorem KMap.get_foldl_set_nodup {α : Type} [DecidableEq α] (d : α) (upd : Nat → α → α) {ls : List Nat} (hls : ls.Nodup) (m : KMap α) (l : Nat) :
    KMap.get (ls.foldl (fun m l => KMap.set m d l (upd l (KMap.get m d l))) m) d l =
      if l ∈ ls then upd l (KMap.get m d l) else KMap.get m d l := by
  induction ls generalizing m with
  | nil => rfl
  | cons a t ih =>
    obtain ⟨hat, ht⟩ := List.nodup_cons.1 hls
    rw [List.foldl_cons, ih ht, KMap.get_set]
    by_cases hla : l = a
    · subst hla; simp [hat]
    · simp [hla]

theorem lanesOf_nodup (m : LaneMask) : (lanesOf m).Nodup := List.nodup_range.filter _

/-- R271: WAIT of a lane after an issue of a lane set. -/
theorem waitOf_ageWaits {g : Gang} {l : Nat} (hl : g.runners.getLsbD l = true) (set : LaneMask) :
    KMap.get (g.ageWaits set) 0 l = if set.getLsbD l then 0 else g.waitOf l + 1 := by
  unfold Gang.ageWaits
  rw [KMap.get_foldl_set_nodup 0 (fun l n => if set.getLsbD l then 0 else n + 1) (lanesOf_nodup _), if_pos ((mem_lanesOf _ _).2 hl)]
  rfl

theorem commitIssue_falls {x : Iss} {s : State} {g : Gang} (hg : s.gang? x.ref = some g) :
    commitIssue x s {} = countIssue (s.setGang x.ref (x.fallen s g)) x.ref g.width (isSfu x.i) := by
  unfold commitIssue
  rw [hg]
  simp only [leaveHandler_none]
  rfl

/-- R12, R303: the commit of an issue without an Active lane. -/
theorem commitIssue_noResult {i : Instr} {s : State} {g : Gang} {x : Iss} (h : Idle i s g x) :
    NoResult x s (commitIssue x (s.setGang x.ref x.g) {}) (x.fallen s x.g).yielded := by
  obtain ⟨hv, hvEmpty, hs, hsEmpty, hp, hn, -, -, hfpstat⟩ := fallen_regs x s x.g
  have hx : x.g = (g.seen x.set).holding (holdOf x.m x.f x.active) := h.reads
  rw [commitIssue_plain]
  refine ⟨g, x.fallen s x.g, h.present, by rw [countIssue_gang?, setGang_self], by rw [hfpstat, hx]; rfl, rfl, ?_,
    specials_trans (reads_specials hx) (fallen_specials x s x.g), ?_, countIssue_others x s _ _ _⟩
  · constructor <;> intros <;> simp only [hv, hvEmpty, hs, hsEmpty, hp, hn] <;> rw [hx] <;> rfl
  · apply falls_of <;> rw [hx] <;> rfl

theorem exec_idle {i : Instr} {s : State} {g : Gang} {x : Iss} (h : Idle i s g x) :
    exec i s = .next (commitIssue x (s.setGang x.ref x.g) {}) := by
  obtain ⟨early, body, hexec, hbody⟩ := idles_form h.form s
  rw [hexec, runIssueWith_idle h early hbody]

/-- Settles O42: an issue without an Active lane ends as a commit of the gang as it read itself (`exec_idle`); what a commit leaves is
read off the gang it falls through to. -/
theorem issuesCommit : Obligations.IssuesCommit := by
  unfold Obligations.IssuesCommit
  refine ⟨fun i s g x h => ⟨_, exec_idle h, ?_⟩, fun x s g hg => ?_⟩
  · have hyields := commitIssue_noResult h
    rw [← h.instr]
    have hy : (x.fallen s x.g).yielded = (x.f.y || match x.i with
        | .yield _ => true
        | _ => false) := Bool.or_false _
    rw [hy] at hyields
    exact hyields
  · rw [commitIssue_falls hg]
    exact ⟨x.fallen s g, by rw [countIssue_gang?, setGang_self], fallen_accounted x s g, fallen_falls x s g, countIssue_others x s _ _ _,
      rfl, rfl, fun l hl => waitOf_ageWaits hl x.set⟩

/-! ### A word that is no instruction (R23, R24) -/

theorem beginIssue_refused {s : State} {i : Instr} {m : Form} {f : Fields} {ref : GangRef} {g : Gang} {who : Who} {task : Task}
    {early : Fields → Gang → Early} {pc : W64} {set : LaneMask} (hset : g.chooseSet = some (pc, set)) (hrefuse : m.refuse f ≠ none) :
    beginIssue s i m f ref g who task early = .trap (.plain 0x10 set) := by
  have hbad : badWord i m f (g.seen set) = true := by simp [badWord, Option.isSome_iff_ne_none, hrefuse]
  simp [beginIssue, hset, hbad]

/-- Settles O43: the word of no instruction is issued as `illegalWord`; a form with a reserved field stops at the first check of its
issue, whichever form it is. -/
theorem illegalWords : Obligations.IllegalWords := by
  unfold Obligations.IllegalWords
  refine ⟨fun w s ref g who task pc set hcur hg hwho htask hset => ?_,
    fun i m f s ref g who task pc set hform hcur hg hwho htask hset hrefuse => ?_⟩
  · show execUndefinedEncoding w s = _
    simp [execUndefinedEncoding, hcur, hg, hwho, htask, hset]
  · obtain ⟨early, body, hexec, -⟩ := idles_form hform s
    rw [hexec]
    simp [runIssueWith, hform, hcur, hg, hwho, htask, hset, beginIssue_refused hset hrefuse, TrapInfo.plain]

/-! ### What a list of writes leaves in one place -/

theorem writes_append (g : Gang) (ws ws' : List RegWrite) : g.writes (ws ++ ws') = (g.writes ws).writes ws' := List.foldl_append

theorem writes_place_kept {α : Type} {place : Gang → α} {g : Gang} {ws : List RegWrite}
    (h : ∀ g', g'.width = g.width → ∀ w ∈ ws, place (g'.write w) = place g') : place (g.writes ws) = place g := by
  induction ws generalizing g with
  | nil => rfl
  | cons w t ih =>
    have hw := Gang.write_width g w
    calc place (g.writes (w :: t))
        = place (g.write w) := ih fun g' hg' w' hw' => h g' (hg'.trans hw) w' (List.mem_cons_of_mem _ hw')
      _ = place g := h g rfl w List.mem_cons_self

theorem writes_place_stays {α : Type} {place : Gang → α} {change : α → α} {g : Gang} {ws : List RegWrite} {a : α} (ha : change a = a)
    (h : ∀ g', g'.width = g.width → ∀ w ∈ ws, place (g'.write w) = change (place g') ∨ place (g'.write w) = place g') (hg : place g = a) :
    place (g.writes ws) = a := by
  induction ws generalizing g with
  | nil => exact hg
  | cons w t ih =>
    have hw := Gang.write_width g w
    refine ih (fun g' hg' w' hw' => h g' (hg'.trans hw) w' (List.mem_cons_of_mem _ hw')) ?_
    rcases h g rfl w List.mem_cons_self with hc | hk
    · rw [hc, hg, ha]
    · rw [hk, hg]

theorem writes_place_changed {α : Type} {place : Gang → α} {change : α → α} {g : Gang} {ws : List RegWrite}
    (hidem : ∀ a, change (change a) = change a)
    (h : ∀ g', g'.width = g.width → ∀ w ∈ ws, place (g'.write w) = change (place g') ∨ place (g'.write w) = place g')
    (hex : ∃ w ∈ ws, ∀ g', g'.width = g.width → place (g'.write w) = change (place g')) : place (g.writes ws) = change (place g) := by
  induction ws generalizing g with
  | nil => obtain ⟨w, hw, -⟩ := hex; cases hw
  | cons w t ih =>
    have hw := Gang.write_width g w
    have ht : ∀ g', g'.width = (g.write w).width → ∀ w' ∈ t, place (g'.write w') = change (place g') ∨ place (g'.write w') = place g' :=
      fun g' hg' w' hw' => h g' (hg'.trans hw) w' (List.mem_cons_of_mem _ hw')
    obtain ⟨u, hu, hchange⟩ := hex
    rcases List.mem_cons.1 hu with rfl | hu
    · exact writes_place_stays (g := g.write u) (hidem _) ht (hchange g rfl)
    · have hlater := ih (g := g.write w) ht ⟨u, hu, fun g' hg' => hchange g' (hg'.trans hw)⟩
      rcases h g rfl w List.mem_cons_self with hc | hk
      · exact hlater.trans (by rw [hc, hidem])
      · exact hlater.trans (by rw [hk])

/-! ### One write in one place -/

/-- The V cell k·width + l that a write goes to. -/
def RegWrite.cell? (width : Nat) : RegWrite → Option Nat
  | .v k l _ _ | .part k l _ _ _ => some (k * width + l)
  | _ => none

theorem write_v_ne {g : Gang} {w : RegWrite} {c : Nat} (h : w.cell? g.width ≠ some c) :
    KMap.get (g.write w).v 0#64 c = KMap.get g.v 0#64 c ∧ BitSet.has (g.write w).vEmpty c = BitSet.has g.vEmpty c := by
  cases w with
  | v k l x p =>
    have hc : c ≠ k * g.width + l := fun e => h (congrArg some e.symm)
    exact ⟨KMap.get_set_ne _ _ _ hc, BitSet.has_put_ne g.vEmpty false hc⟩
  | part k l m x p =>
    have hc : c ≠ k * g.width + l := fun e => h (congrArg some e.symm)
    exact ⟨KMap.get_set_ne _ _ _ hc, BitSet.has_put_ne g.vEmpty false hc⟩
  | p k l b =>
    simp only [Gang.write]
    split <;> exact ⟨rfl, rfl⟩
  | s | n => exact ⟨rfl, rfl⟩

theorem write_vEmpty_cell {g : Gang} {w : RegWrite} {c : Nat} (h : w.cell? g.width = some c) : BitSet.has (g.write w).vEmpty c = false := by
  cases w with
  | v | part => cases h; exact BitSet.has_put_self g.vEmpty _ false
  | s | p | n => cases h

theorem write_s_ne {g : Gang} {w : RegWrite} {k : Nat} (h : ∀ x p, w ≠ .s k x p) :
    KMap.get (g.write w).s 0#64 k = KMap.get g.s 0#64 k ∧ BitSet.has (g.write w).sEmpty k = BitSet.has g.sEmpty k := by
  cases w with
  | s k' x p =>
    have hk : k ≠ k' := fun e => h x p (e ▸ rfl)
    exact ⟨KMap.get_set_ne _ _ _ hk, BitSet.has_put_ne g.sEmpty false hk⟩
  | p k' l b =>
    simp only [Gang.write]
    split <;> exact ⟨rfl, rfl⟩
  | v | part | n => exact ⟨rfl, rfl⟩

theorem write_p_ne {g : Gang} {w : RegWrite} {k l : Nat} (h : ∀ b, w ≠ .p k l b) :
    (KMap.get (g.write w).p 0#64 k).getLsbD l = (KMap.get g.p 0#64 k).getLsbD l := by
  cases w with
  | p k' l' b =>
    simp only [Gang.write]
    split
    · rfl
    · rw [KMap.get_set]
      split
      · next hk =>
        have hl : l ≠ l' := fun e => h b (hk ▸ e ▸ rfl)
        subst hk
        cases b <;> simp [hl]
        exact BitVec.lt_of_getLsbD
      · rfl
  | v | part | s | n => rfl

theorem write_n_ne {g : Gang} {w : RegWrite} {k : Nat} (h : ∀ x p, w ≠ .n k x p) :
    KMap.get (g.write w).n 0x80000000#32 k = KMap.get g.n 0x80000000#32 k := by
  cases w with
  | n k' x p => exact KMap.get_set_ne _ _ _ fun e => h x p (e ▸ rfl)
  | p k' l b =>
    simp only [Gang.write]
    split <;> rfl
  | v | part | s => rfl

/-! ### A list of writes, register file by register file -/

theorem writes_vEmpty_cell {g : Gang} {ws : List RegWrite} {w : RegWrite} {c : Nat} (hw : w ∈ ws) (hc : w.cell? g.width = some c) :
    BitSet.has (g.writes ws).vEmpty c = false := by
  refine writes_place_changed (place := fun g => BitSet.has g.vEmpty c) (change := fun _ => false) (fun _ => rfl) (fun g' hg' u _ => ?_)
    ⟨w, hw, fun g' hg' => write_vEmpty_cell (hg' ▸ hc)⟩
  by_cases hu : u.cell? g'.width = some c
  · exact .inl (write_vEmpty_cell hu)
  · exact .inr (write_v_ne hu).2

/-- R38: where every write to a V cell writes it whole, with one value, the cell holds that value. -/
theorem writes_v_whole {g : Gang} {ws : List RegWrite} {k l : Nat} {v : W64} {p : BitVec 2} (hm : .v k l v p ∈ ws)
    (hv : ∀ k' l' v' p', .v k' l' v' p' ∈ ws → k' * g.width + l' = k * g.width + l → v' = v)
    (hp : ∀ k' l' m v' p', .part k' l' m v' p' ∈ ws → ¬ k' * g.width + l' = k * g.width + l) :
    KMap.get (g.writes ws).v 0#64 (k * g.width + l) = v := by
  refine writes_place_changed (place := fun g' => KMap.get g'.v 0#64 (k * g.width + l)) (change := fun _ => v) (fun _ => rfl)
    (fun g' hg' u hu => ?_) ⟨_, hm, fun g' hg' => by rw [← hg']; exact KMap.get_set_self _ _ _ _⟩
  by_cases hc : u.cell? g'.width = some (k * g.width + l)
  · cases u with
    | v k' l' v' p' =>
      have hat : k' * g'.width + l' = k * g.width + l := Option.some.inj hc
      left
      rw [← hv _ _ _ _ hu (hg' ▸ hat), ← hat]
      exact KMap.get_set_self _ _ _ _
    | part k' l' m v' p' =>
      have hat : k' * g'.width + l' = k * g.width + l := Option.some.inj hc
      exact absurd (hg' ▸ hat) (hp k' l' m v' p' hu)
    | s | p | n => cases hc
  · exact .inr (write_v_ne hc).1

/-- R430: the same of a cell that the last of two lists writes, whatever the first does. -/
theorem writes_v_last {g : Gang} {ws ws' : List RegWrite} {k l : Nat} {v : W64} {p : BitVec 2} (hm : .v k l v p ∈ ws')
    (hv : ∀ k' l' v' p', .v k' l' v' p' ∈ ws' → k' * g.width + l' = k * g.width + l → v' = v)
    (hp : ∀ k' l' m v' p', .part k' l' m v' p' ∈ ws' → ¬ k' * g.width + l' = k * g.width + l) :
    KMap.get (g.writes (ws ++ ws')).v 0#64 (k * g.width + l) = v := by
  rw [writes_append]
  rw [← Gang.writes_width g ws] at hv hp ⊢
  exact writes_v_whole hm hv hp

/-- The value of a lane after a write of the part of it that a mask names. -/
def mergePart (m v old : W64) : W64 := (old &&& ~~~m) ||| (v &&& m)

theorem mergePart_mergePart (m v old : W64) : mergePart m v (mergePart m v old) = mergePart m v old := by
  apply BitVec.eq_of_getLsbD_eq
  intro i _
  simp only [mergePart, BitVec.getLsbD_or, BitVec.getLsbD_and]
  cases hm : m.getLsbD i <;> simp [hm]

/-- R38: where every write to a V cell writes one part of it, with one value, the cell holds that value there and keeps the rest. -/
theorem writes_v_part {g : Gang} {ws : List RegWrite} {k l : Nat} {m v : W64} {p : BitVec 2} (hm : .part k l m v p ∈ ws)
    (hv : ∀ k' l' v' p', .v k' l' v' p' ∈ ws → ¬ k' * g.width + l' = k * g.width + l)
    (hp : ∀ k' l' m' v' p', .part k' l' m' v' p' ∈ ws → k' * g.width + l' = k * g.width + l → m' = m ∧ v' = v) :
    KMap.get (g.writes ws).v 0#64 (k * g.width + l) = mergePart m v (KMap.get g.v 0#64 (k * g.width + l)) := by
  refine writes_place_changed (place := fun g' => KMap.get g'.v 0#64 (k * g.width + l)) (change := mergePart m v) (mergePart_mergePart m v)
    (fun g' hg' u hu => ?_) ⟨_, hm, fun g' hg' => by rw [← hg']; exact KMap.get_set_self _ _ _ _⟩
  by_cases hc : u.cell? g'.width = some (k * g.width + l)
  · cases u with
    | v k' l' v' p' =>
      have hat : k' * g'.width + l' = k * g.width + l := Option.some.inj hc
      exact absurd (hg' ▸ hat) (hv k' l' v' p' hu)
    | part k' l' m' v' p' =>
      have hat : k' * g'.width + l' = k * g.width + l := Option.some.inj hc
      obtain ⟨rfl, rfl⟩ := hp _ _ _ _ _ hu (hg' ▸ hat)
      left
      rw [← hat]
      exact KMap.get_set_self _ _ _ _
    | s | p | n => cases hc
  · exact .inr (write_v_ne hc).1

/-- R38: where every write to an S register has one value, the register is full and holds it. -/
theorem writes_s_value {g : Gang} {ws : List RegWrite} {k : Nat} {v : W64} {p : BitVec 2} (hm : .s k v p ∈ ws)
    (hv : ∀ v' p', .s k v' p' ∈ ws → v' = v) : KMap.get (g.writes ws).s 0#64 k = v ∧ BitSet.has (g.writes ws).sEmpty k = false := by
  have hput : ∀ g' : Gang, ∀ v' p', (KMap.get (g'.write (.s k v' p')).s 0#64 k, BitSet.has (g'.write (.s k v' p')).sEmpty k) = (v', false) :=
    fun g' v' p' => Prod.ext (KMap.get_set_self _ _ _ _) (BitSet.has_put_self g'.sEmpty k false)
  have hboth := writes_place_changed (g := g) (ws := ws) (place := fun g' => (KMap.get g'.s 0#64 k, BitSet.has g'.sEmpty k))
    (change := fun _ => (v, false)) (fun _ => rfl) (fun g' _ u hu => ?_) ⟨_, hm, fun g' _ => hput g' v p⟩
  · exact Prod.ext_iff.1 hboth
  · by_cases hk : ∃ v' p', u = .s k v' p'
    · obtain ⟨v', p', rfl⟩ := hk
      exact .inl (hv _ _ hu ▸ hput g' v' p')
    · have hkept := write_s_ne (g := g') fun x p e => hk ⟨x, p, e⟩
      exact .inr (Prod.ext hkept.1 hkept.2)

/-- R39, R47: the register files keep what no write of a list goes to. -/
theorem writes_regsKept (g : Gang) (ws : List RegWrite) : RegsKept g (g.writes ws)
    (fun c => ∃ k l, ((∃ v p, .v k l v p ∈ ws) ∨ ∃ m v p, .part k l m v p ∈ ws) ∧ c = k * g.width + l)
    (fun k => ∃ v p, .s k v p ∈ ws) (fun k l => ∃ b, .p k l b ∈ ws) (fun k => ∃ v p, .n k v p ∈ ws) := by
  have hcell : ∀ c, ¬ (∃ k l, ((∃ v p, .v k l v p ∈ ws) ∨ ∃ m v p, .part k l m v p ∈ ws) ∧ c = k * g.width + l) →
      ∀ g' : Gang, g'.width = g.width → ∀ w ∈ ws, w.cell? g'.width ≠ some c := by
    intro c hc g' hg' w hw hat
    cases w with
    | v k l x p => exact hc ⟨k, l, .inl ⟨x, p, hw⟩, hg' ▸ (Option.some.inj hat).symm⟩
    | part k l m x p => exact hc ⟨k, l, .inr ⟨m, x, p, hw⟩, hg' ▸ (Option.some.inj hat).symm⟩
    | s | p | n => cases hat
  exact {
    v := fun c hc => writes_place_kept (place := fun g => KMap.get g.v 0#64 c) fun g' hg' w hw => (write_v_ne (hcell c hc g' hg' w hw)).1
    vEmpty := fun c hc => writes_place_kept (place := fun g => BitSet.has g.vEmpty c) fun g' hg' w hw => (write_v_ne (hcell c hc g' hg' w hw)).2
    s := fun k hk => writes_place_kept (place := fun g => KMap.get g.s 0#64 k) fun g' _ w hw => (write_s_ne fun x p e => hk ⟨x, p, e ▸ hw⟩).1
    sEmpty := fun k hk => writes_place_kept (place := fun g => BitSet.has g.sEmpty k) fun g' _ w hw => (write_s_ne fun x p e => hk ⟨x, p, e ▸ hw⟩).2
    p := fun k l hk => writes_place_kept (place := fun g => (KMap.get g.p 0#64 k).getLsbD l) fun g' _ w hw => write_p_ne fun b e => hk ⟨b, e ▸ hw⟩
    n := fun k hk => writes_place_kept (place := fun g => KMap.get g.n 0x80000000#32 k) fun g' _ w hw => write_n_ne fun x p e => hk ⟨x, p, e ▸ hw⟩ }

/-! ### A fill that lands (R47, R50, R430) -/

/-- The writes that the debug agent has made to the registers of a fill in flight (R430). -/
def Gang.agentOf (g : Gang) (x : Fill) : List RegWrite := (g.agentWrites.filter fun e => e.1 == x.id).map Prod.snd

theorem landFill_eq {g : Gang} {ix : Nat} {x : Fill} (h : g.fills[ix]? = some x) :
    landFill g ix = { g.writes (x.writes ++ g.agentOf x) with
      fills := g.fills.eraseIdx ix, fpstat := orFlags g.fpstat x.flags, agentWrites := g.agentWrites.filter fun e => e.1 != x.id } := by
  simp only [landFill, h, writes_append]
  rfl

theorem exec_fillLand {s : State} {ref : GangRef} {g : Gang} {w : Who} {t : Task} (h : s.acting? ref = some (g, w, t)) {ix : Nat}
    (hr : fillReady g ix = true) : exec (.fillLand ref ix) s = .next (s.setGang ref (landFill g ix)) := by
  show execFillLand ref ix s = _
  simp [execFillLand, h, hr]

/-! ### Fetches, replays and waiting chain loads (R10, R55, R158) -/

/-- The state that a fetch leaves, where a failed one raises its cause. -/
def Fetched.settle (fault : State → State) : Fetched → State
  | .miss s => s
  | .fail s => fault s
  | .word _ s => s

theorem exec_fetch {s : State} {ref : GangRef} {g : Gang} {w : Who} {t : Task} {pc : W64} {set : LaneMask}
    (h : s.acting? ref = some (g, w, t)) (hblock : g.block = none) (hstopped : g.stopped = false) (hstops : issueStops s ref.core w.ctx = false)
    (hboundary : boundaryTrap g = none) (hset : g.chooseSet = some (pc, set)) :
    exec (.fetch ref) s = .next ((fetchAt s ref.core t pc).settle fun s' => fetchFault s' ref w t pc set) := by
  show execFetch ref s = _
  simp only [execFetch, h, hblock, hstopped, hstops, hboundary, hset, Option.isSome_none, Bool.or_self, Bool.false_eq_true, if_false]
  cases fetchAt s ref.core t pc <;> rfl

theorem fetchAt_odd {pc : W64} (h : pc.toNat % 4 ≠ 0) (s : State) (core : Nat) (t : Task) : fetchAt s core t pc = .fail s := if_pos h

theorem BitSet.has_foldl_put_false (keys : List Nat) (m : BitSet) (k : Nat) :
    BitSet.has (keys.foldl (fun b k => BitSet.put b k false) m) k = (BitSet.has m k && !keys.contains k) := by
  induction keys generalizing m with
  | nil => simp
  | cons a t ih =>
    rw [List.foldl_cons, ih]
    by_cases hk : k = a
    · subst hk; simp
    · simp [BitSet.has_put_ne m false hk, hk]

theorem exec_chldCommit {s : State} {ref : GangRef} {g : Gang} {w : Who} {t : Task} {k : Nat} {load : Option (List W32)}
    {rest : List (GangRef × Option (List W32))} (h : s.acting? ref = some (g, w, t)) (hblock : g.block = some (.chain k))
    (hwaiting : (chainSlot s (chainKey ref k)).waiting = (ref, load) :: rest) (hbusy : chainBusy s (chainKey ref k) = false) :
    exec (.chldCommit ref) s = .next ((chainCommit
      { s with chains := KMap.put s.chains (chainKey ref k) { chainSlot s (chainKey ref k) with waiting := rest } } (chainKey ref k) w.slot
      load).setGang ref { g with block := none }) := by
  show execChldCommit ref s = _
  simp [execChldCommit, h, hblock, hwaiting, hbusy]

/-- R55: the V words that the issue about to be made reads and SECDED can correct. -/
def Gang.correctable (g : Gang) (i : Instr) (m : Form) (f : Fields) (set : LaneMask) : List Nat :=
  ((wordsRead i m f (g.seen set) (activeOf (g.seen set) f set)).filter (BitSet.has g.vCorr)).eraseDups

/-- R55: a gang after the replay that corrects some of its V words. -/
def Gang.corrected (g : Gang) (keys : List Nat) : Gang :=
  { g with vCorr := keys.foldl (fun b k => BitSet.put b k false) g.vCorr, holdLatch := [], waits := none }

theorem exec_secdedReplay {s s' : State} {ref : GangRef} {g : Gang} {w : Who} {t : Task} {pc : W64} {set : LaneMask} {word : W96} {i : Instr}
    {m : Form} {f : Fields} (h : s.acting? ref = some (g, w, t)) (hwaits : g.waits = some .replay) (hstops : issueStops s ref.core w.ctx = false)
    (hset : g.chooseSet = some (pc, set)) (hword : fetchAt s ref.core t pc = .word word s') (hi : decode word = .ok i)
    (hform : i.form = some (m, f)) :
    exec (.secdedReplay ref) s = .next
      ((s'.setGang ref (g.corrected (g.correctable i m f set))).bump .ecccorr ref.core (g.correctable i m f set).length) := by
  show execSecdedReplay ref s = _
  simp only [execSecdedReplay, h, hwaits, hstops, hset, hword, hi, hform, ne_eq, not_true_eq_false]
  rfl

end Sys2Proof.Machine

namespace Sys2Proof

open Machine in
/-- Settles O44: a landing fill is its list of writes, the agent's last (`landFill_eq`), and each register file is followed through that
list; a fetch, a replay and a waiting chain load are `exec_fetch`, `exec_secdedReplay` and `exec_chldCommit`. -/
theorem gangHappenings : Obligations.GangHappenings := by
  unfold Obligations.GangHappenings
  intro s ref g w t h
  refine ⟨fun ix x hx hr => ?_, fun pc set hblock hstopped hstops hboundary hset => ?_,
    fun pc set word s' i m f hwaits hstops hset hword hi hform => ?_,
    fun k load rest hblock hwaiting hbusy => exec_chldCommit h hblock hwaiting hbusy⟩
  · intro agent ws at_
    refine ⟨_, exec_fillLand h hr, ?_⟩
    rw [landFill_eq hx]
    obtain ⟨hv, hvEmpty, hs, hsEmpty, hp, hn⟩ := writes_regsKept g ws
    exact ⟨rfl, rfl, Gang.writes_width g ws, rfl, fun k l v p hm => ⟨writes_vEmpty_cell hm rfl, writes_v_whole hm⟩,
      fun k l v p hm hv hp => writes_v_last hm hv hp, fun k l m v p hm => ⟨writes_vEmpty_cell hm rfl, writes_v_part hm⟩,
      fun k v p hm => writes_s_value hm, ⟨hv, hvEmpty, hs, hsEmpty, hp, hn⟩, by constructor <;> simp, Gang.writes_pc g ws,
      Gang.writes_live g ws, Gang.writes_inh g ws⟩
  · have hfetch := exec_fetch h hblock hstopped hstops hboundary hset
    refine ⟨fun word s' hw => ?_, fun s' hf => ?_, fun hodd => ?_⟩
    · rw [hfetch, hw, Fetched.settle]
    · rw [hfetch, hf, Fetched.settle]
    · rw [hfetch, fetchAt_odd hodd, Fetched.settle]
  · exact ⟨g.corrected (g.correctable i m f set), exec_secdedReplay h hwaits hstops hset hword hi hform, rfl,
      BitSet.has_foldl_put_false _ g.vCorr⟩

end Sys2Proof

/-! ## Scope: number formats, floating-point traps, directions and control registers (O39, O6, O8, O18) -/

namespace Sys2Proof.Machine

/-! ### A cause that a form puts before its sources (R252, R301) -/

/-- The fields of the issue of a form are the form's own. -/
theorem Ready.fields {i : Instr} {s : State} {g : Gang} {x : Iss} (h : Ready i s g x) {m : Form} {f : Fields} (hf : i.form = some (m, f)) :
    x.f = f :=
  congrArg Prod.snd (Option.some.inj (h.form.symm.trans hf))

theorem beginIssue_cause {i : Instr} {s : State} {g : Gang} {x : Iss} (h : Ready i s g x) {early : Fields → Gang → Early} {c : Nat}
    (he : early x.f (g.seen x.set) = .cause c) :
    beginIssue s i x.m x.f x.ref g x.who x.task early = .trap (.plain c x.active) := by
  have ha : activeOf (g.seen x.set) x.f x.set = x.active := by rw [h.lanes, h.reads]; rfl
  have hguard : (decide (x.f.gp.toNat ≠ 7) && (g.seen x.set).regParity (opndP x.f.gp.toNat)) = false := by
    rcases h.guardParity with h7 | hp
    · simp [h7]
    · rw [hp, Bool.and_false]
  have hoperands : operandsOk i x.m x.f (g.seen x.set).regs = true := h.operands
  unfold beginIssue
  rw [h.chosen]
  simp only [ha, hguard, hoperands, he, h.opcode, h.viewParity, h.views, h.guardFull, h.someLane, h.parity, h.clean, Option.getD_none,
    Bool.not_true, Bool.false_and, Bool.false_eq_true, if_false]

/-- R252, R301: an issue that meets no other cause takes the one that its form puts before the reads of its sources. -/
theorem runIssueWith_cause {i : Instr} {s : State} {g : Gang} {x : Iss} (h : Ready i s g x) {early : Fields → Gang → Early} {c : Nat}
    (he : early x.f (g.seen x.set) = .cause c) (body : Iss → State → Res) :
    runIssueWith i early s body = .next (trapIssue s i x.f x.ref x.who x.task x.pc x.set x.active (.plain c x.active)) := by
  unfold runIssueWith
  rw [h.form, h.current]
  simp only [h.present, h.party, h.task, beginIssue_cause h he, h.chosen]
  rfl

/-! ### Control registers (R252) -/

/-- What MFC reads of a gang is not touched by what the gang's issue sees of its transients and its operand latch. -/
theorem cregVal_reads {x : Iss} {g : Gang} (hx : x.g = (g.seen x.set).holding (holdOf x.m x.f x.active)) (c : Nat) :
    cregVal x.g c = cregVal g c := by rw [hx]; rfl

theorem mfc_does {f : Fields} {s : State} {g : Gang} {x : Iss} (h : Ready (.mfc f) s g x)
    (hland : f.imm.toNat = 0x07 → g.fills.any Fill.setsFlags = false) : DoesD (.mfc f) s x (fun _ => cregVal g f.imm.toNat) 0#5 := by
  obtain ⟨hm, -⟩ := Prod.mk.inj (Option.some.inj h.form)
  have hd := dest_vs h (by rw [← hm]) (by rw [← hm]; rfl)
  show ∃ t, execMfc f s = .next t ∧ _
  refine runIssue_D h _ _ hd ?_
  have hfills : x.g.fills = g.fills := by rw [h.reads]; rfl
  have hwait : ¬((x.active ≠ 0#64 && f.imm.toNat = 0x07 && x.g.fills.any Fill.setsFlags) = true) := by
    simp only [hfills, Bool.and_eq_true, decide_eq_true_eq, not_and, Bool.not_eq_true, and_imp]
    exact fun _ => hland
  simp only [hwait, cregVal_reads h.reads]
  rfl

/-- R252: the MTC column lets the gang write the register that IMM names. -/
def mtcMay (f : Fields) (g : Gang) : Prop := (f.imm.toNat < 5 ∧ g.inh = true) ∨ (5 ≤ f.imm.toNat ∧ f.imm.toNat < 0x0A)

theorem mtcEarly_go {f : Fields} {g : Gang} (h : mtcMay f g) : mtcEarly f g = .go := by
  unfold mtcEarly
  rcases h with ⟨hc, hi⟩ | ⟨hc, hc'⟩
  · simp [hc, hi]
  · simp [Nat.not_lt.2 hc, hc']

theorem mtcEarly_privilege {f : Fields} {g : Gang} (h : ¬mtcMay f g) : mtcEarly f g = .cause 0x13 := by
  unfold mtcEarly
  by_cases hc : f.imm.toNat < 5
  · have hi : g.inh ≠ true := fun hi => h (.inl ⟨hc, hi⟩)
    simp [hc, hi]
  · have hc' : ¬ f.imm.toNat < 0x0A := fun hc' => h (.inr ⟨Nat.not_lt.1 hc, hc'⟩)
    simp [hc, hc']

theorem mtc_does {f : Fields} {s : State} {g : Gang} {x : Iss} (h : Ready (.mtc f) s g x) (hmay : mtcMay f g) :
    DoesGang (.mtc f) s s x fun g => putCreg g x.task.rec_.privw f.imm.toNat (x.a x.low) := by
  refine ⟨_, ?_, commit_Becomes x s _ _ rfl⟩
  show execMtc f s = _
  rw [execMtc, runIssueWith_ready h (by rw [h.fields rfl]; exact mtcEarly_go hmay), if_neg h.someLane, finishIssue_ok h.unbroken,
    mapGang_setGang]

theorem mtc_privilege {f : Fields} {s : State} {g : Gang} {x : Iss} (h : Ready (.mtc f) s g x) (hmay : ¬mtcMay f g) :
    exec (.mtc f) s = .next (trapIssue s (.mtc f) f x.ref x.who x.task x.pc x.set x.active (.plain 0x13 x.active)) := by
  have hf := h.fields rfl
  show execMtc f s = _
  rw [execMtc, runIssueWith_cause h (by rw [hf]; exact mtcEarly_privilege hmay), hf]

end Sys2Proof.Machine

namespace Sys2Proof

open Machine in
/-- Settles O39: a read is `mfc_does`, a write that the MTC column allows `mtc_does`, and one that it forbids `mtc_privilege`. -/
theorem controlRegisters : Obligations.ControlRegisters := by
  unfold Obligations.ControlRegisters
  intro f s g x
  refine ⟨fun h hland => mfc_does h hland, fun h hmay => ?_, fun h hmay => mtc_privilege h hmay⟩
  refine cast (congrArg (DoesGang (.mtc f) s s x) (funext fun a => ?_)) (mtc_does h hmay)
  have hc : f.imm.toNat < 10 := by omega
  generalize f.imm.toNat = c at hc ⊢
  interval_cases c <;> rfl

end Sys2Proof

namespace Sys2Proof.Machine

/-! ### FP-EXC (R64) -/

/-- The state in which an issue ends with FP-EXC: FPSTAT takes the flags, and THIT is given. -/
def Iss.fpExc (x : Iss) (s : State) (i : Instr) (fl : Flags) (hit : LaneMask) : State :=
  trapIssue (s.setGang x.ref { x.g with fpstat := orFlags x.g.fpstat fl }) i x.f x.ref x.who x.task x.pc x.set x.active
    { cause := 0x30, tmask := x.active, taddr := 0#64, thit := hit, tpc := none }

/-- The form i ends its own part, in the issue x, as `Iss.fpTrap` says of the flags fl where it says anything. -/
def Raises (i : Instr) (x : Iss) (fl : List (Nat × Flags)) (whole : Bool) : Prop :=
  ∀ s, ∃ body, exec i s = runIssue i s body ∧ ∀ s' r, x.fpTrap s' fl whole = some r → body x s' = r

theorem Raises.traps {i : Instr} {s : State} {g : Gang} {x : Iss} {fl : List (Nat × Flags)} {whole : Bool} (h : Raises i x fl whole)
    (hr : Ready i s g x) (hloud : allFlags fl &&& fpEnables x.g.fpctl ≠ 0#5) :
    exec i s = .next (x.fpExc s i (allFlags fl) (if whole then x.active else enabledLanes (fpEnables x.g.fpctl) fl)) := by
  obtain ⟨body, he, hb⟩ := h s
  rw [he, runIssue_ready hr, hb _ _ (if_neg hloud), mapGang_setGang, ← hr.instr]
  rfl

/-! #### The forms that raise flags lane by lane -/

theorem allFlags_laneFlags (x : Iss) (h : Nat → Flags) : allFlags (laneFlags x h) = x.lanes.foldl (fun fl l => fl ||| h l) 0#5 :=
  List.foldl_map

theorem enabledLanes_laneFlags (x : Iss) (h : Nat → Flags) (en : Flags) (l : Nat) :
    (enabledLanes en (laneFlags x h)).getLsbD l = true ↔ x.has l ∧ h l &&& en ≠ 0#5 := by
  have hlane : l ∈ x.lanes ↔ x.has l := mem_lanesOf _ _
  have hlt : x.has l → l < 64 := BitVec.lt_of_getLsbD
  simp only [enabledLanes, laneFlags, maskOf_getLsbD, List.any_map, Bool.and_eq_true, decide_eq_true_eq, List.any_eq_true, Function.comp_apply,
    beq_iff_eq, bne_iff_ne]
  constructor
  · rintro ⟨-, k, hk, rfl, hen⟩
    exact ⟨hlane.1 hk, hen⟩
  · rintro ⟨hl, hen⟩
    exact ⟨hlt hl, l, hlane.2 hl, rfl, hen⟩

/-- A form whose flags are those that h gives each Active lane ends with FP-EXC where one is enabled. -/
theorem Raises.lanes_trap {i : Instr} {s : State} {g : Gang} {x : Iss} {h : Nat → Flags} (hraises : Raises i x (laneFlags x h) false)
    (hr : Ready i s g x) (hloud : x.lanes.foldl (fun fl l => fl ||| h l) 0#5 &&& fpEnables x.g.fpctl ≠ 0#5) :
    ∃ hit : LaneMask, (∀ l, hit.getLsbD l = true ↔ x.has l ∧ h l &&& fpEnables x.g.fpctl ≠ 0#5) ∧
      exec i s = .next (x.fpExc s i (x.lanes.foldl (fun fl l => fl ||| h l) 0#5) hit) := by
  rw [← allFlags_laneFlags] at hloud ⊢
  exact ⟨_, enabledLanes_laneFlags x h _, hraises.traps hr hloud⟩

/-- R128 to R140: a floating form is a fixed-latency or a long-latency form with flags, and forms the value and the flags of a lane from
the elements of its `FpSpec`. -/
def FpRuns (i : Instr) (x : Iss) (p : FpSpec) : Prop :=
  ∃ h, (∀ s, exec i s = if p.long then sfuForm i s h else fpForm i s h) ∧ p.count = 64 / p.width ∧ ∀ l, h x l = fpLanes p.width (p.elem l)

section

variable {i : Instr} {x : Iss} {w : Nat} {e : Nat → Nat → Nat × Flags} {h : Iss → Nat → W64 × Flags}

theorem fpRuns_fixed (he : ∀ s, exec i s = fpForm i s h) (hl : ∀ l, h x l = fpLanes w (e l)) : FpRuns i x ⟨w, 64 / w, e, false⟩ :=
  ⟨h, he, rfl, hl⟩

theorem fpRuns_late (he : ∀ s, exec i s = sfuForm i s h) (hl : ∀ l, h x l = fpLanes w (e l)) : FpRuns i x ⟨w, 64 / w, e, true⟩ :=
  ⟨h, he, rfl, hl⟩

end

theorem fpRuns_of_fpSpec {x : Iss} {p : FpSpec} (hp : fpSpec x = some p) (hf : x.i.form = some (x.m, x.f)) : FpRuns x.i x p := by
  unfold fpSpec at hp
  split at hp
  all_goals cases hp
  all_goals
    rename_i f hi
    rw [hi] at hf ⊢
    obtain rfl : f = x.f := congrArg Prod.snd (Option.some.inj hf)
  -- FADD, FSUB, FMUL, FFMA, FMIN, FMAX, FSCALE, FROUND, FDOT2
  case h_1 | h_2 | h_3 | h_4 | h_5 | h_6 | h_7 | h_8 | h_9 => exact fpRuns_fixed (fun _ => rfl) fun _ => rfl
  -- CVT
  case h_19 =>
    refine fpRuns_late (fun _ => rfl) fun l => ?_
    show cvtLane _ _ _ _ _ _ _ = _
    unfold cvtLane
    split
    · next hle => simp only [hle, if_true, Bool.and_eq_true, decide_eq_true_eq]
    · next hgt => simp only [hgt, if_false]
  all_goals exact fpRuns_late (fun _ => rfl) fun _ => rfl

theorem fpLanes_flags (w : Nat) (h : Nat → Nat × Flags) : (fpLanes w h).2 = (List.range (64 / w)).foldl (fun fl j => fl ||| (h j).2) 0#5 :=
  List.foldl_map

section

variable {i : Instr} {x : Iss} {h : Iss → Nat → W64 × Flags}

theorem raises_fp (he : ∀ s, exec i s = fpForm i s h) : Raises i x (laneFlags x fun l => (h x l).2) false :=
  fun s => ⟨_, he s, fun s' r hr => by simp only [hr]⟩

theorem raises_sfu (he : ∀ s, exec i s = sfuForm i s h) : Raises i x (laneFlags x fun l => (h x l).2) false :=
  fun s => ⟨_, he s, fun s' r hr => by simp only [hr]⟩

end

theorem FpRuns.raises {i : Instr} {x : Iss} {p : FpSpec} (h : FpRuns i x p) : Raises i x (laneFlags x p.laneFlags) false := by
  obtain ⟨h, he, hcount, hl⟩ := h
  have hflags : p.laneFlags = fun l => (h x l).2 := by
    funext l
    rw [hl, fpLanes_flags, FpSpec.laneFlags, hcount]
  rw [hflags]
  cases hlong : p.long
  · exact raises_fp fun s => by rw [he, hlong]; rfl
  · exact raises_sfu fun s => by rw [he, hlong]; rfl

theorem raises_fcmp (x : Iss) : Raises (.fcmp x.f) x (laneFlags x fun l => (fcmpLane x (x.a l) (x.b l)).2) false :=
  fun s => ⟨_, (rfl : _ = execFcmp x.f s), fun s' r hr => by simp only [hr]⟩

/-! #### The forms that raise their flags as a whole -/

section

variable {i : Instr} {x : Iss} {fl : Flags} (hx : x.active ≠ 0#64)

include hx

theorem raises_whole {h : Iss → (Nat → W64) × Flags} (he : ∀ s, exec i s = wholeForm i s h) (hfl : (h x).2 = fl) :
    Raises i x [(x.low, fl)] true :=
  fun s => ⟨_, he s, fun s' r hr => by simp only [if_neg hx, hfl, hr]⟩

theorem raises_conv (he : ∀ s, exec i s = convForm i s) :
    Raises i x [(x.low, (convView (x.g.wReg (wNum x.f.d)) (x.g.wReg (wNum x.f.a)) (x.g.viewVal (x.g.wReg (wNum x.f.a)))).2)] true :=
  fun s => ⟨_, he s, fun s' r hr => by simp only [if_neg hx, hr]⟩

theorem raises_dir {h : Iss → DVec × Flags} (he : ∀ s, exec i s = dirForm i s h) (hfl : (h x).2 = fl) :
    Raises i x [(x.low, fl)] true :=
  fun s => ⟨_, he s, fun s' r hr => by simp only [if_neg hx, hfl, hr]⟩

theorem raises_dirLong {h : Iss → List RegWrite × Flags} (he : ∀ s, exec i s = dirLong i s h) (hfl : (h x).2 = fl) :
    Raises i x [(x.low, fl)] true :=
  fun s => ⟨_, he s, fun s' r hr => by simp only [if_neg hx, hfl, hr]⟩

theorem raises_dirValue {h : Iss → W64 × Flags} (he : ∀ s, exec i s = dirValue i s h) (hfl : (h x).2 = fl) :
    Raises i x [(x.low, fl)] true :=
  fun s => ⟨_, he s, fun s' r hr => by simp only [if_neg hx, hfl, hr]⟩

theorem raises_dvflat : Raises (.dvflat x.f) x
    [(x.low, (flatImages (viewFmt (x.g.wReg (wNum x.f.d))) x.dirA).foldl (fun fl e => fl ||| e.2) 0#5)] true :=
  fun s => ⟨_, (rfl : _ = execDvflat x.f s), fun s' r hr => by simp only [if_neg hx, hr]⟩

theorem raises_of_wholeFlags (hfl : wholeFlags x = some fl) (hf : x.i.form = some (x.m, x.f)) : Raises x.i x [(x.low, fl)] true := by
  unfold wholeFlags at hfl
  split at hfl
  all_goals cases hfl
  all_goals
    rename_i f hi
    rw [hi] at hf ⊢
    obtain rfl : f = x.f := congrArg Prod.snd (Option.some.inj hf)
  -- REDA, REDM, SCAN
  case h_1 | h_2 | h_3 => exact raises_whole hx (fun _ => rfl) rfl
  -- SXPACK, SXUNP, TCVT
  case h_4 | h_5 | h_6 => exact raises_conv hx fun _ => rfl
  -- DVSETN, DVDOT, DVCMP
  case h_15 | h_16 | h_17 => exact raises_dirLong hx (fun _ => rfl) rfl
  -- DVNRM
  case h_18 => exact raises_dirValue hx (fun _ => rfl) rfl
  case h_19 => exact raises_dvflat hx
  all_goals exact raises_dir hx (fun _ => rfl) rfl

end

end Sys2Proof.Machine

namespace Sys2Proof

open Machine in
/-- Settles O6: each form ends as `Iss.fpTrap` says of its flags (`Raises`): those of its elements (`fpRuns_of_fpSpec`), those of the
comparisons of FCMP, or those of the issue (`raises_of_wholeFlags`). -/
theorem fpTraps : Obligations.FpTraps := by
  unfold Obligations.FpTraps
  refine ⟨fun i s g x p hp h hloud => ?_, fun f s g x h => ?_, fun i s g x fl hfl h hloud => ?_⟩
  · obtain rfl := h.instr
    exact (fpRuns_of_fpSpec hp h.form).raises.lanes_trap h hloud
  · obtain rfl := h.fields rfl
    have hlane (l : Nat) : (fcmpLane x (x.a l) (x.b l)).2 = _ := List.foldl_map
    have hraises := raises_fcmp x
    simp only [hlane] at hraises
    exact fun hloud => hraises.lanes_trap h hloud
  · obtain rfl := h.instr
    have hall : allFlags [(x.low, fl)] = fl := BitVec.zero_or
    have htraps := (raises_of_wholeFlags h.someLane hfl h.form).traps h (by rwa [hall])
    rwa [hall] at htraps

end Sys2Proof

namespace Sys2Proof.Machine

/-! ### Rounding a magnitude (R60) -/

/-- v is k and r of the 2·d equal parts of the next unit. -/
structure Parts (v : ℚ) (k r d : Nat) : Prop where
  pos : 0 < d
  lt : r < 2 * d
  value : v = k + (r : ℚ) / (2 * d)

namespace Parts

variable {v : ℚ} {k r d : Nat}

theorem le (h : Parts v k r d) : (k : ℚ) ≤ v := by
  rw [h.value]
  exact le_add_of_nonneg_right (by positivity)

theorem lt_succ (h : Parts v k r d) : v < k + 1 := by
  have hd : (0 : ℚ) < 2 * d := by exact_mod_cast Nat.mul_pos two_pos h.pos
  have hr : (r : ℚ) < 2 * d := by exact_mod_cast h.lt
  rw [h.value, add_lt_add_iff_left]
  exact (div_lt_one hd).2 hr

theorem eq_iff (h : Parts v k r d) : v = k ↔ r = 0 := by
  have hd : (2 * d : ℚ) ≠ 0 := by exact_mod_cast (Nat.mul_pos two_pos h.pos).ne'
  rw [h.value, add_eq_left, div_eq_zero_iff, or_iff_left hd, Nat.cast_eq_zero]

/-- The distance to the middle of the unit, in parts. -/
theorem sub_half (h : Parts v k r d) : v - (k + 1 / 2) = ((r : ℚ) - d) / (2 * d) := by
  have hd : (d : ℚ) ≠ 0 := by exact_mod_cast h.pos.ne'
  rw [h.value]
  field_simp
  ring

theorem half_lt_iff (h : Parts v k r d) : k + 1 / 2 < v ↔ d < r := by
  have hd : (0 : ℚ) < 2 * d := by exact_mod_cast Nat.mul_pos two_pos h.pos
  rw [← sub_pos, h.sub_half, div_pos_iff_of_pos_right hd, sub_pos, Nat.cast_lt]

theorem half_eq_iff (h : Parts v k r d) : v = k + 1 / 2 ↔ r = d := by
  have hd : (2 * d : ℚ) ≠ 0 := by exact_mod_cast (Nat.mul_pos two_pos h.pos).ne'
  rw [← sub_eq_zero, h.sub_half, div_eq_zero_iff, or_iff_left hd, sub_eq_zero, Nat.cast_inj]

/-- The units kept, or one more where parts are left. -/
theorem directed (h : Parts v k r d) {up : Bool} {c : Prop} [Decidable c] (hup : up = true ↔ ¬c ∧ v ≠ k) :
    if c then (((if up then k + 1 else k : Nat) : ℚ) ≤ v ∧ v < ((if up then k + 1 else k : Nat) : ℚ) + 1)
    else (v ≤ ((if up then k + 1 else k : Nat) : ℚ) ∧ ((if up then k + 1 else k : Nat) : ℚ) < v + 1) := by
  have hle := h.le
  have hlt := h.lt_succ
  by_cases hc : c
  · have hu : up = false := by simpa [hc] using hup
    simp [hc, hu, hle, hlt]
  · by_cases hv : v = k
    · have hu : up = false := by simpa [hv] using hup
      simp [hc, hu, hv]
    · have hu : up = true := hup.2 ⟨hc, hv⟩
      simpa [hc, hu] using ⟨hlt.le, lt_of_le_of_ne hle (Ne.symm hv)⟩

end Parts

/-- The quotient and the remainder by a power of two are the units and the parts. -/
theorem parts_divMod (M S : Nat) : Parts ((M : ℚ) / 2 ^ (S + 1)) (M / 2 ^ (S + 1)) (M % 2 ^ (S + 1)) (2 ^ S) where
  pos := by positivity
  lt := (Nat.mod_lt _ (by positivity)).trans_eq (by ring)
  value := by
    have hM : (M : ℚ) = 2 ^ (S + 1) * (M / 2 ^ (S + 1) : Nat) + (M % 2 ^ (S + 1) : Nat) := by exact_mod_cast (Nat.div_add_mod M _).symm
    rw [eq_comm, eq_div_iff (by positivity)]
    rw [hM]
    push_cast
    field_simp
    ring

/-- R60: a magnitude in multiples of 2^q is whole units and parts of a unit; rounding keeps the units or takes one more, and is inexact
just when parts are left. -/
theorem roundTo_parts (mode : Nat) (neg : Bool) (m : Nat) (e q : Int) : ∃ k r d, Parts ((m : ℚ) * 2 ^ (e - q)) k r d ∧
    roundTo mode neg m e q false = (if roundsUp mode neg k r d false then k + 1 else k, r != 0) := by
  let t := (e - q + 2).toNat
  let s := (q - (e - t)).toNat
  have hs : 1 ≤ s := by omega
  obtain ⟨S, hS⟩ : ∃ S, s = S + 1 := ⟨s - 1, by omega⟩
  refine ⟨m * 2 ^ t / 2 ^ s, m * 2 ^ t % 2 ^ s, 2 ^ (s - 1), ?_, by simp [roundTo, t, s]⟩
  have hv : (m : ℚ) * 2 ^ (e - q) = ((m * 2 ^ t : Nat) : ℚ) / 2 ^ s := by
    have he : e - q = (t : Int) - (s : Int) := by omega
    rw [he, zpow_sub₀ two_ne_zero]
    push_cast
    rw [zpow_natCast, zpow_natCast, mul_div_assoc]
  rw [hv, hS]
  exact parts_divMod _ S

theorem roundsUp_no_parts (mode : Nat) (neg : Bool) (k : Nat) {d : Nat} (hd : 0 < d) : roundsUp mode neg k 0 d false = false := by
  unfold roundsUp
  split <;> simp [hd.ne]

section

variable {v : ℚ} {k r d : Nat} (h : Parts v k r d)

include h

/-- Only a magnitude above the units kept is rounded up. -/
theorem roundsUp_pos {mode : Nat} {neg : Bool} (hup : roundsUp mode neg k r d false = true) : (k : ℚ) < v := by
  refine lt_of_le_of_ne h.le fun hv => ?_
  rw [h.eq_iff.1 hv.symm, roundsUp_no_parts mode neg k h.pos] at hup
  exact Bool.false_ne_true hup

theorem roundsUp_zero_iff (neg : Bool) : roundsUp 0 neg k r d false = true ↔ k + 1 / 2 < v ∨ v = k + 1 / 2 ∧ k % 2 = 1 := by
  rw [h.half_lt_iff, h.half_eq_iff]
  simp [roundsUp]

theorem roundsUp_two_iff (neg : Bool) : roundsUp 2 neg k r d false = true ↔ neg = false ∧ v ≠ k := by
  rw [ne_eq, h.eq_iff]
  simp [roundsUp]

theorem roundsUp_three_iff (neg : Bool) : roundsUp 3 neg k r d false = true ↔ neg = true ∧ v ≠ k := by
  rw [ne_eq, h.eq_iff]
  simp [roundsUp]

end

section

variable (mode : Nat) (neg : Bool) (m : Nat) (e q : Int)

theorem roundTo_exact_iff : (roundTo mode neg m e q false).2 = false ↔ (m : ℚ) * 2 ^ (e - q) = ((roundTo mode neg m e q false).1 : ℚ) := by
  obtain ⟨k, r, d, h, hr⟩ := roundTo_parts mode neg m e q
  rw [hr]
  by_cases hup : roundsUp mode neg k r d false = true
  · have hlt := roundsUp_pos h hup
    have hv : (m : ℚ) * 2 ^ (e - q) ≠ k := hlt.ne'
    have hr0 : r ≠ 0 := fun h0 => hv (h.eq_iff.2 h0)
    simpa [hup, hr0] using h.lt_succ.ne
  · simp [hup, h.eq_iff]

theorem roundTo_nearest : |(m : ℚ) * 2 ^ (e - q) - ((roundTo 0 neg m e q false).1 : ℚ)| ≤ 1 / 2 ∧
    (|(m : ℚ) * 2 ^ (e - q) - ((roundTo 0 neg m e q false).1 : ℚ)| = 1 / 2 → (roundTo 0 neg m e q false).1 % 2 = 0) := by
  obtain ⟨k, r, d, h, hr⟩ := roundTo_parts 0 neg m e q
  rw [hr]
  have hiff := roundsUp_zero_iff h neg
  have hle := h.le
  have hlt := h.lt_succ
  generalize (m : ℚ) * 2 ^ (e - q) = v at *
  by_cases hup : roundsUp 0 neg k r d false = true
  · have hv : k + 1 / 2 ≤ v := (hiff.1 hup).elim le_of_lt fun hv => hv.1.ge
    simp only [hup, if_true]
    push_cast
    rw [abs_of_neg (by linarith)]
    refine ⟨by linarith, fun heq => ?_⟩
    rcases hiff.1 hup with hv | ⟨-, hk⟩
    · linarith
    · omega
  · have hv := fun hc => hup (hiff.2 hc)
    have hle2 : v ≤ k + 1 / 2 := le_of_not_gt fun hc => hv (.inl hc)
    simp only [hup, if_false, Bool.false_eq_true]
    rw [abs_of_nonneg (by linarith)]
    refine ⟨by linarith, fun heq => ?_⟩
    have hk : ¬ k % 2 = 1 := fun hk => hv (.inr ⟨by linarith, hk⟩)
    omega

theorem roundTo_one : ((roundTo 1 neg m e q false).1 : ℚ) ≤ (m : ℚ) * 2 ^ (e - q) ∧
    (m : ℚ) * 2 ^ (e - q) < ((roundTo 1 neg m e q false).1 : ℚ) + 1 := by
  obtain ⟨k, r, d, h, hr⟩ := roundTo_parts 1 neg m e q
  rw [hr]
  exact ⟨h.le, h.lt_succ⟩

end

/-- A rounded magnitude stays on its side of every whole multiple. -/
theorem le_roundTo (mode : Nat) (neg : Bool) {m n : Nat} {e q : Int} (h : (n : ℚ) ≤ (m : ℚ) * 2 ^ (e - q)) :
    n ≤ (roundTo mode neg m e q false).1 := by
  obtain ⟨k, r, d, hp, hr⟩ := roundTo_parts mode neg m e q
  have hn : n < k + 1 := by exact_mod_cast h.trans_lt hp.lt_succ
  rw [hr]
  dsimp only
  split <;> omega

theorem roundTo_le (mode : Nat) (neg : Bool) {m n : Nat} {e q : Int} (h : (m : ℚ) * 2 ^ (e - q) ≤ n) :
    (roundTo mode neg m e q false).1 ≤ n := by
  obtain ⟨k, r, d, hp, hr⟩ := roundTo_parts mode neg m e q
  rw [hr]
  dsimp only
  split
  · next hup => exact_mod_cast (roundsUp_pos hp hup).trans_le h
  · exact_mod_cast hp.le.trans h

/-! ### Patterns of a format (R58) -/

section

variable {F : Fmt}

theorem signBit_eq (neg : Bool) : F.signBit neg = neg.toNat * 2 ^ F.ebits * 2 ^ F.fbits := by
  cases neg <;> simp [Fmt.signBit, Fmt.width, pow_add]

/-- R58: the value of the pattern of a sign, an exponent field that is not all ones, and a fraction. -/
theorem unpack_fields (neg : Bool) {ex frac : Nat} (hex : ex < 2 ^ F.ebits - 1) (hfrac : frac < 2 ^ F.fbits) :
    F.unpack (F.signBit neg + (ex * 2 ^ F.fbits + frac)) =
      if ex = 0 then .fin neg frac (F.emin - F.fbits) else .fin neg (2 ^ F.fbits + frac) ((ex : Int) - F.bias - F.fbits) := by
  have hx : F.signBit neg + (ex * 2 ^ F.fbits + frac) = frac + 2 ^ F.fbits * (ex + 2 ^ F.ebits * neg.toNat) := by
    rw [signBit_eq]; ring
  have hdiv : (frac + 2 ^ F.fbits * (ex + 2 ^ F.ebits * neg.toNat)) / 2 ^ F.fbits = ex + 2 ^ F.ebits * neg.toNat := by
    rw [Nat.add_mul_div_left _ _ (by positivity), Nat.div_eq_of_lt hfrac, zero_add]
  have hexlt : ex < 2 ^ F.ebits := by omega
  have hneg : (neg.toNat % 2 == 1) = neg := by cases neg <;> rfl
  have hwidth : (2 : Nat) ^ (F.width - 1) = 2 ^ F.fbits * 2 ^ F.ebits := by rw [Fmt.width, Nat.add_sub_cancel, pow_add, mul_comm]
  unfold Fmt.unpack
  rw [hx, hwidth, ← Nat.div_div_eq_div_mul, hdiv, Nat.add_mul_mod_self_left, Nat.add_mul_mod_self_left, Nat.mod_eq_of_lt hfrac,
    Nat.mod_eq_of_lt hexlt, Nat.add_mul_div_left _ _ (by positivity), Nat.div_eq_of_lt hexlt, zero_add, hneg]
  simp only [hex.ne, if_false]

theorem unpack_subnormal (hF : 2 ≤ F.ebits) (neg : Bool) {frac : Nat} (hfrac : frac < 2 ^ F.fbits) :
    F.unpack (F.signBit neg + frac) = .fin neg frac (F.emin - F.fbits) := by
  have hpow : 2 ^ 2 ≤ 2 ^ F.ebits := Nat.pow_le_pow_right two_pos hF
  have h := unpack_fields (F := F) neg (ex := 0) (by omega) hfrac
  rwa [zero_mul, zero_add, if_pos rfl] at h

/-- R58: a normal pattern, its exponent field taken from the weight 2^q of its last place. -/
theorem unpack_normal (hF : 2 ≤ F.ebits) (neg : Bool) {frac : Nat} {q : Int} (hfrac : frac < 2 ^ F.fbits) (hlow : F.emin ≤ q + F.fbits)
    (hhigh : q + F.fbits ≤ F.bias) :
    F.unpack (F.signBit neg + ((q + F.fbits + F.bias).toNat * 2 ^ F.fbits + frac)) = .fin neg (2 ^ F.fbits + frac) q := by
  have hbias : 2 ^ F.ebits = 2 * (F.bias + 1) := by
    have hpos : 0 < 2 ^ (F.ebits - 1) := by positivity
    have h2 : 2 ^ F.ebits = 2 * 2 ^ (F.ebits - 1) := by rw [← pow_succ', Nat.sub_add_cancel (by omega)]
    unfold Fmt.bias
    omega
  unfold Fmt.emin at hlow
  rw [unpack_fields neg (by omega) hfrac, if_neg (by omega)]
  congr 1
  omega

end

/-! ### A magnitude in a format (R58 to R60) -/

/-- R59: the weight of the last place of a format at a magnitude. -/
def Fmt.place (F : Fmt) (m : Nat) (e : Int) : Int := max ((Nat.log2 m : Int) + e - F.fbits) (F.emin - F.fbits)

section

variable {F : Fmt} {m : Nat}

theorem scaled_lt_pow (hm : m ≠ 0) (e : Int) : (m : ℚ) * 2 ^ (e - F.place m e) < 2 ^ (F.fbits + 1) := by
  have hlt : (m : ℚ) < 2 ^ ((Nat.log2 m : Int) + 1) := by exact_mod_cast Nat.lt_log2_self
  have hle : e - F.place m e ≤ F.fbits - Nat.log2 m := by unfold Fmt.place; omega
  calc (m : ℚ) * 2 ^ (e - F.place m e)
      ≤ m * 2 ^ ((F.fbits : Int) - Nat.log2 m) := by gcongr; norm_num
    _ < 2 ^ ((Nat.log2 m : Int) + 1) * 2 ^ ((F.fbits : Int) - Nat.log2 m) := by gcongr
    _ = 2 ^ (F.fbits + 1) := by
      rw [← zpow_add₀ two_ne_zero, ← zpow_natCast]
      congr 1
      push_cast
      ring

/-- Above the spacing of the subnormals a magnitude fills the significand. -/
theorem pow_le_scaled (hm : m ≠ 0) {e : Int} (hq : F.place m e ≠ F.emin - F.fbits) :
    ((2 ^ F.fbits : Nat) : ℚ) ≤ (m : ℚ) * 2 ^ (e - F.place m e) := by
  have hle : (2 : ℚ) ^ (Nat.log2 m : Int) ≤ m := by exact_mod_cast Nat.log2_self_le hm
  have hq' : e - F.place m e = F.fbits - Nat.log2 m := by unfold Fmt.place at hq ⊢; omega
  calc ((2 ^ F.fbits : Nat) : ℚ) = 2 ^ (Nat.log2 m : Int) * 2 ^ ((F.fbits : Int) - Nat.log2 m) := by
        rw [← zpow_add₀ two_ne_zero, add_sub_cancel, zpow_natCast]
        push_cast
        rfl
    _ ≤ m * 2 ^ ((F.fbits : Int) - Nat.log2 m) := by gcongr
    _ = _ := by rw [hq']

/-- R58: the exponent and fraction fields of a significand k of the weight 2^q. -/
def Fmt.body (F : Fmt) (k : Nat) (q : Int) : Nat :=
  if k < 2 ^ F.fbits then k
  else if k = 2 ^ (F.fbits + 1) then (q + 1 + F.fbits + F.bias).toNat * 2 ^ F.fbits
  else (q + F.fbits + F.bias).toNat * 2 ^ F.fbits + (k - 2 ^ F.fbits)

theorem roundMag_body {mode : Nat} {neg : Bool} {e : Int} {k : Nat} (hm : m ≠ 0) (hk : (roundTo mode neg m e (F.place m e) false).1 = k)
    (hfits : k = 0 ∨ (Nat.log2 k : Int) + F.place m e ≤ F.bias) :
    (F.roundMag mode neg m e false).1 = F.signBit neg + F.body k (F.place m e) := by
  subst hk
  have hover : ¬((decide ((roundTo mode neg m e (F.place m e) false).1 ≠ 0) &&
      decide ((Nat.log2 (roundTo mode neg m e (F.place m e) false).1 : Int) + F.place m e > F.bias)) = true) := by
    simp only [Bool.and_eq_true, decide_eq_true_eq, not_and, not_lt, gt_iff_lt]
    exact fun h0 => hfits.resolve_left h0
  unfold Fmt.roundMag
  rw [if_neg (by simp [hm])]
  exact congrArg Prod.fst (if_neg hover)

/-- R58: the value of a sign and the fields of a significand. -/
theorem unpack_body (hF : 2 ≤ F.ebits) (neg : Bool) {k : Nat} {q : Int} (hq : F.emin ≤ q + F.fbits) (hsub : k < 2 ^ F.fbits → q = F.emin - F.fbits)
    (hk : k ≤ 2 ^ (F.fbits + 1)) (hfits : k = 0 ∨ (Nat.log2 k : Int) + q ≤ F.bias) :
    ∃ (m' : Nat) (e' : Int), F.unpack (F.signBit neg + F.body k q) = .fin neg m' e' ∧ (m' : ℚ) * 2 ^ e' = (k : ℚ) * 2 ^ q := by
  unfold Fmt.body
  have hpow : (2 : Nat) ^ (F.fbits + 1) = 2 ^ F.fbits + 2 ^ F.fbits := by ring
  split_ifs with hlow htop
  · exact ⟨k, q, by rw [unpack_subnormal hF neg hlow, hsub hlow], rfl⟩
  · have hpos : 0 < 2 ^ F.fbits := by positivity
    have hlog : Nat.log2 k = F.fbits + 1 := by rw [htop, Nat.log2_two_pow]
    have h := unpack_normal (F := F) hF neg (frac := 0) (q := q + 1) hpos (by omega) (by omega)
    refine ⟨2 ^ F.fbits, q + 1, h, ?_⟩
    rw [htop, zpow_add_one₀ two_ne_zero]
    push_cast
    ring
  · have hlog : Nat.log2 k = F.fbits := by
      rw [Nat.log2_eq_iff (by omega)]
      omega
    refine ⟨k, q, ?_, rfl⟩
    rw [unpack_normal hF neg (by omega) hq (by omega), Nat.add_sub_cancel' (by omega)]

theorem unpack_roundMag (hF : 2 ≤ F.ebits) {mode : Nat} {neg : Bool} {e : Int} {k : Nat} (hm : m ≠ 0)
    (hk : (roundTo mode neg m e (F.place m e) false).1 = k) (hfits : k = 0 ∨ (Nat.log2 k : Int) + F.place m e ≤ F.bias) :
    ∃ (m' : Nat) (e' : Int), F.unpack (F.roundMag mode neg m e false).1 = .fin neg m' e' ∧
      (m' : ℚ) * 2 ^ e' = (k : ℚ) * 2 ^ F.place m e := by
  rw [roundMag_body hm hk hfits]
  refine unpack_body hF neg (by unfold Fmt.place; omega) (fun hlow => ?_) ?_ hfits
  · by_contra hq
    exact absurd (le_roundTo mode neg (pow_le_scaled hm hq)) (by rw [hk]; exact not_le.2 hlow)
  · rw [← hk]
    exact roundTo_le mode neg (by exact_mod_cast (scaled_lt_pow hm e).le)

end

end Sys2Proof.Machine

namespace Sys2Proof

open Machine in
/-- Settles O8: a magnitude is whole units and parts of a unit (`roundTo_parts`), and each mode keeps the units or takes one more; the
fields that the rounded significand is put into unpack to its value (`unpack_roundMag`). -/
theorem rounding : Obligations.Rounding := by
  unfold Obligations.Rounding
  refine ⟨fun mode neg m e q => ⟨roundTo_exact_iff mode neg m e q, ?_, ?_, ?_, ?_⟩, fun F mode neg m e hF hm => ?_⟩
  · rintro rfl
    exact roundTo_nearest neg m e q
  · rintro rfl
    exact roundTo_one neg m e q
  · rintro rfl
    obtain ⟨k, r, d, h, hr⟩ := roundTo_parts 2 neg m e q
    rw [hr]
    exact h.directed (c := neg = true) (by simpa using roundsUp_two_iff h neg)
  · rintro rfl
    obtain ⟨k, r, d, h, hr⟩ := roundTo_parts 3 neg m e q
    rw [hr]
    have := h.directed (c := neg = false) (by simpa using roundsUp_three_iff h neg)
    cases neg <;> exact this
  · have hebits : 2 ≤ F.ebits := by rcases hF with rfl | rfl | rfl | rfl <;> decide
    exact unpack_roundMag hebits hm rfl

end Sys2Proof

namespace Sys2Proof.Machine

/-! ### Exact values (R59) -/

/-- The value of a dyadic. -/
def Dyadic.value (d : Dyadic) : ℚ := (d.n : ℚ) * 2 ^ d.e

/-- A dyadic in multiples of a power of two that its own is one of. -/
theorem Dyadic.value_eq (d : Dyadic) {e : Int} (h : e ≤ d.e) : d.value = ((d.n * 2 ^ (d.e - e).toNat : Int) : ℚ) * 2 ^ e := by
  have he : d.e = ((d.e - e).toNat : Int) + e := by omega
  rw [Dyadic.value]
  conv_lhs => rw [he, zpow_add₀ two_ne_zero, zpow_natCast]
  push_cast
  ring

theorem Dyadic.value_add (x y : Dyadic) : (x.add y).value = x.value + y.value := by
  rw [x.value_eq (min_le_left x.e y.e), y.value_eq (min_le_right x.e y.e), ← add_mul, ← Int.cast_add]
  rfl

/-! ### The integer square root (R76) -/

theorem isqrtFrom_eq_sqrt (n : Nat) : ∀ i r : Nat, r * r ≤ n → n < (r + 2 ^ (i + 1)) * (r + 2 ^ (i + 1)) → isqrtFrom n i r = n.sqrt
  | 0, r, hle, hlt => by
    unfold isqrtFrom
    split
    · next h => exact Nat.eq_sqrt.2 ⟨h, hlt⟩
    · next h => exact Nat.eq_sqrt.2 ⟨hle, Nat.lt_of_not_le h⟩
  | i + 1, r, hle, hlt => by
    unfold isqrtFrom
    have hpow : r + 2 ^ (i + 1) + 2 ^ (i + 1) = r + 2 ^ (i + 1 + 1) := by ring
    split
    · next h => exact isqrtFrom_eq_sqrt n i _ h (by rwa [hpow])
    · next h => exact isqrtFrom_eq_sqrt n i r hle (Nat.lt_of_not_le h)

theorem isqrt_eq_sqrt (n : Nat) : isqrt n = n.sqrt := by
  refine isqrtFrom_eq_sqrt n _ 0 (Nat.zero_le n) ?_
  calc n < 2 ^ (n.log2 + 1) := Nat.lt_log2_self
    _ ≤ 2 ^ ((n.log2 / 2 + 1 + 1) + (n.log2 / 2 + 1 + 1)) := Nat.pow_le_pow_right two_pos (by omega)
    _ = _ := by rw [pow_add, zero_add]

/-! ### A component rounded to nearest even (R76) -/

/-- R76: the magnitude of a component of the integer a, s2 being the sum of the squares. -/
def nearMag (s2 a : Nat) : Nat :=
  let k := isqrt (2 ^ 28 * a * a / s2)
  if 2 ^ 30 * a * a > (2 * k + 1) * (2 * k + 1) * s2 || (2 ^ 30 * a * a == (2 * k + 1) * (2 * k + 1) * s2 && k % 2 == 1) then k + 1 else k

/-- R76: the component of the integer n. -/
def nearComp (s2 : Nat) (n : Int) : Int := if n < 0 then -(nearMag s2 n.natAbs : Int) else nearMag s2 n.natAbs

/-- 2·k is the root of l over s2, rounded to the nearest even number; of two as near, the one with an even k. -/
structure NearRoot (l s2 : ℚ) (k : Nat) : Prop where
  le : l ≤ (2 * k + 1) ^ 2 * s2
  ge : k ≠ 0 → (2 * k - 1) ^ 2 * s2 ≤ l
  tie : l = (2 * k + 1) ^ 2 * s2 ∨ k ≠ 0 ∧ l = (2 * k - 1) ^ 2 * s2 → k % 2 = 0

theorem NearRoot.scale {l s2 p : ℚ} {k : Nat} (h : NearRoot l s2 k) (hp : 0 < p) : NearRoot (l * p) (s2 * p) k where
  le := by rw [← mul_assoc]; exact mul_le_mul_of_nonneg_right h.le hp.le
  ge h0 := by rw [← mul_assoc]; exact mul_le_mul_of_nonneg_right (h.ge h0) hp.le
  tie := by
    simp only [← mul_assoc, mul_left_inj' hp.ne']
    exact h.tie

section

variable {l s2 : ℚ} {k : Nat} (hs : 0 < s2) (hle : (2 * k) ^ 2 * s2 ≤ l) (hlt : l < (2 * k + 2) ^ 2 * s2)

include hs hlt in
theorem nearRoot_up (hmid : (2 * k + 1) ^ 2 * s2 < l ∨ l = (2 * k + 1) ^ 2 * s2 ∧ k % 2 = 1) : NearRoot l s2 (k + 1) where
  le := by
    have hk : (0 : ℚ) ≤ k := Nat.cast_nonneg k
    push_cast
    nlinarith
  ge _ := by push_cast; rcases hmid with h | ⟨h, -⟩ <;> linarith
  tie h := by
    have hk : (0 : ℚ) ≤ k := Nat.cast_nonneg k
    push_cast at h
    rcases h with h | ⟨-, h⟩
    · exact absurd h (by nlinarith)
    · rcases hmid with hm | ⟨-, hodd⟩
      · linarith
      · omega

include hs hle in
theorem nearRoot_down (hmid : l < (2 * k + 1) ^ 2 * s2 ∨ l = (2 * k + 1) ^ 2 * s2 ∧ k % 2 = 0) : NearRoot l s2 k where
  le := by rcases hmid with h | ⟨h, -⟩ <;> linarith
  ge h0 := by
    have h1 : (1 : ℚ) ≤ k := by exact_mod_cast Nat.one_le_iff_ne_zero.2 h0
    nlinarith
  tie h := by
    rcases h with h | ⟨h0, h⟩
    · rcases hmid with hm | ⟨-, heven⟩
      · linarith
      · exact heven
    · have h1 : (1 : ℚ) ≤ k := by exact_mod_cast Nat.one_le_iff_ne_zero.2 h0
      nlinarith

end

theorem nearMag_spec {s2 : Nat} (hs : 0 < s2) (a : Nat) : NearRoot (2 ^ 30 * (a : ℚ) ^ 2) s2 (nearMag s2 a) := by
  unfold nearMag
  rw [isqrt_eq_sqrt]
  have hle := (Nat.le_div_iff_mul_le hs).1 (Nat.sqrt_le (2 ^ 28 * a * a / s2))
  have hlt := (Nat.div_lt_iff_lt_mul hs).1 (Nat.lt_succ_sqrt (2 ^ 28 * a * a / s2))
  generalize (2 ^ 28 * a * a / s2).sqrt = k at *
  have hl : ((2 ^ 30 * a * a : Nat) : ℚ) = 2 ^ 30 * (a : ℚ) ^ 2 := by push_cast; ring
  have hr : (((2 * k + 1) * (2 * k + 1) * s2 : Nat) : ℚ) = (2 * k + 1) ^ 2 * s2 := by push_cast; ring
  have hs' : (0 : ℚ) < s2 := by exact_mod_cast hs
  have hle' : (2 * (k : ℚ)) ^ 2 * s2 ≤ ((2 ^ 30 * a * a : Nat) : ℚ) := by
    have h : ((2 * k) ^ 2 * s2 : Nat) ≤ 2 ^ 30 * a * a := by linarith
    exact_mod_cast h
  have hlt' : ((2 ^ 30 * a * a : Nat) : ℚ) < (2 * (k : ℚ) + 2) ^ 2 * s2 := by
    have h : 2 ^ 30 * a * a < ((2 * k + 2) ^ 2 * s2 : Nat) := by rw [Nat.succ_eq_add_one] at hlt; linarith
    exact_mod_cast h
  rw [← hl]
  dsimp only
  generalize 2 ^ 30 * a * a = l at hle' hlt' ⊢
  generalize (2 * k + 1) * (2 * k + 1) * s2 = r at hr ⊢
  split
  · next hup =>
    refine nearRoot_up hs' hlt' ?_
    rw [← hr, Nat.cast_lt, Nat.cast_inj]
    simpa using hup
  · next hdown =>
    refine nearRoot_down hs' hle' ?_
    rw [← hr, Nat.cast_lt, Nat.cast_inj]
    simp only [Bool.or_eq_true, Bool.and_eq_true, decide_eq_true_eq, beq_iff_eq] at hdown
    omega

theorem natAbs_nearComp (s2 : Nat) (n : Int) : (nearComp s2 n).natAbs = nearMag s2 n.natAbs := by
  unfold nearComp
  split <;> simp

theorem nearComp_neg_iff {s2 : Nat} {n : Int} (h : nearComp s2 n ≠ 0) : nearComp s2 n < 0 ↔ n < 0 := by
  unfold nearComp at h ⊢
  split_ifs with hn
  · rw [if_pos hn] at h
    omega
  · omega

/-! ### What WriteDir writes (R76, R78, R173) -/

/-- The least exponent of the values that are not 0. -/
def dirExp (y : List FVal) : Int := (y.map FVal.dyadic).foldl (fun (acc : Int) d => if d.n = 0 then acc else min acc d.e) 100000

/-- A value in multiples of 2^e. -/
def dirInt (e : Int) (d : Dyadic) : Int := if d.n = 0 then 0 else d.n * 2 ^ (d.e - e).toNat

def dirInts (y : List FVal) : List Int := (y.map FVal.dyadic).map (dirInt (dirExp y))

/-- The sum of the squares. -/
def sumSq (l : List Int) : Nat := l.foldl (fun (acc : Nat) n => acc + n.natAbs * n.natAbs) 0

/-- R76: the components and the norm of the values y, before the norm is saturated. -/
def dirComps (y : List FVal) : List Int := (dirInts y).map (nearComp (sumSq (dirInts y)))
def dirNorm (y : List FVal) : Int := roundLog2 23 (sumSq (dirInts y) * 2 ^ 28) (sumSq (dirComps y)) + dirExp y * 2 ^ 24

theorem writeDir_eq (y : List FVal) (base : Int) : writeDir y base =
    if y.any fun v => v.isNan || v.isInf then (DVec.zero y.length, flagNV)
    else if sumSq (dirInts y) = 0 then (DVec.zero y.length, 0#5)
    else if dirNorm y > 2 ^ 31 - 1 then normWrite (dirComps y) (2 ^ 31 - 1 + base) flagOF
    else if dirNorm y ≤ normZero then (DVec.zero y.length, flagUF)
    else normWrite (dirComps y) (dirNorm y + base) 0#5 := rfl

theorem length_dirComps (y : List FVal) : (dirComps y).length = y.length := by simp [dirComps, dirInts]

/-- WriteDir writes the zero code, or the components of R76 with a norm that is saturated twice. -/
theorem writeDir_cases (y : List FVal) :
    (∃ fl, ∀ base, writeDir y base = (DVec.zero y.length, fl)) ∨ sumSq (dirInts y) ≠ 0 ∧
      ((∀ base, writeDir y base = normWrite (dirComps y) (2 ^ 31 - 1 + base) flagOF) ∨
        normZero < dirNorm y ∧ dirNorm y ≤ 2 ^ 31 - 1 ∧ ∀ base, writeDir y base = normWrite (dirComps y) (dirNorm y + base) 0#5) := by
  simp only [writeDir_eq]
  split_ifs with hnan hzero hbig hsmall
  · exact .inl ⟨_, fun _ => rfl⟩
  · exact .inl ⟨_, fun _ => rfl⟩
  · exact .inr ⟨hzero, .inl fun _ => rfl⟩
  · exact .inl ⟨_, fun _ => rfl⟩
  · exact .inr ⟨hzero, .inr ⟨not_le.1 hsmall, not_lt.1 hbig, fun _ => rfl⟩⟩

/-- Without the zero code, WriteDir writes the components of R76. -/
theorem writeDir_of_norm {y : List FVal} {base : Int} (h : (writeDir y base).1.n ≠ normZero) :
    sumSq (dirInts y) ≠ 0 ∧ ∃ n fl, writeDir y base = normWrite (dirComps y) n fl := by
  rcases writeDir_cases y with ⟨fl, hw⟩ | ⟨hs, hw | ⟨-, -, hw⟩⟩
  · exact absurd (by rw [hw]; rfl) h
  · exact ⟨hs, _, _, hw base⟩
  · exact ⟨hs, _, _, hw base⟩

theorem normWrite_of_range {c : List Int} {n : Int} {fl : Flags} (hlo : normZero < n) (hhi : n ≤ 2 ^ 31 - 1) :
    normWrite c n fl = (⟨c, n⟩, fl) := by
  rw [normWrite, if_neg (not_lt.2 hhi), if_neg (not_le.2 hlo)]

/-- R78: a norm written is in range with the components as they are, or is the zero code. -/
theorem normWrite_cases (c : List Int) (n : Int) (fl : Flags) :
    (normZero < (normWrite c n fl).1.n ∧ (normWrite c n fl).1.n ≤ 2 ^ 31 - 1 ∧ (normWrite c n fl).1.c = c) ∨
      (normWrite c n fl).1 = DVec.zero c.length := by
  unfold normWrite
  split_ifs with hbig hsmall
  · exact .inl ⟨show normZero < 2 ^ 31 - 1 by decide, le_rfl, rfl⟩
  · exact .inr rfl
  · exact .inl ⟨not_le.1 hsmall, not_lt.1 hbig, rfl⟩

theorem writeDir_range (y : List FVal) (base : Int) :
    (normZero < (writeDir y base).1.n ∧ (writeDir y base).1.n ≤ 2 ^ 31 - 1 ∧ (writeDir y base).1.c.length = y.length) ∨
      (writeDir y base).1 = DVec.zero y.length := by
  by_cases hn : (writeDir y base).1.n = normZero
  · rcases writeDir_cases y with ⟨fl, hw⟩ | ⟨-, hw | ⟨-, -, hw⟩⟩
    · exact .inr (by rw [hw])
    all_goals
      rw [hw] at hn ⊢
      exact .inr (((normWrite_cases _ _ _).resolve_left fun h => h.1.ne' hn).trans (by rw [length_dirComps]))
  · obtain ⟨-, n, fl, hw⟩ := writeDir_of_norm hn
    rw [hw] at hn ⊢
    refine (normWrite_cases _ n fl).imp (fun ⟨hlo, hhi, hc⟩ => ⟨hlo, hhi, by rw [hc, length_dirComps]⟩) fun h => ?_
    exact absurd (by rw [h]; rfl) hn

/-- R173: a base is added to the norm of a vector that is written without flags. -/
theorem writeDir_base {y : List FVal} (base : Int) (hfl : (writeDir y 0).2 = 0#5) (hn : (writeDir y 0).1.n ≠ normZero) :
    writeDir y base = normWrite (writeDir y 0).1.c ((writeDir y 0).1.n + base) 0#5 := by
  rcases writeDir_cases y with ⟨fl, hw⟩ | ⟨-, hw | ⟨hlo, hhi, hw⟩⟩
  · exact absurd (by rw [hw]; rfl) hn
  · rw [hw, normWrite_of_range (by decide) (by decide)] at hfl
    exact absurd hfl (show flagOF ≠ 0#5 by decide)
  · have h0 : writeDir y 0 = (⟨dirComps y, dirNorm y⟩, 0#5) := by rw [hw, add_zero, normWrite_of_range hlo hhi]
    rw [h0, hw]

/-! #### The components against the exact values -/

theorem foldl_min_le (l : List Dyadic) (acc : Int) :
    l.foldl (fun (acc : Int) d => if d.n = 0 then acc else min acc d.e) acc ≤ acc ∧
      ∀ d ∈ l, d.n ≠ 0 → l.foldl (fun (acc : Int) d => if d.n = 0 then acc else min acc d.e) acc ≤ d.e := by
  induction l generalizing acc with
  | nil => simp
  | cons a t ih =>
    obtain ⟨hacc, hmem⟩ := ih (if a.n = 0 then acc else min acc a.e)
    have hle : (if a.n = 0 then acc else min acc a.e) ≤ acc := by split <;> omega
    refine ⟨hacc.trans hle, fun d hd h0 => ?_⟩
    rcases List.mem_cons.1 hd with rfl | hd
    · exact hacc.trans (by rw [if_neg h0]; exact min_le_right _ _)
    · exact hmem d hd h0

/-- The exact value of y_i in multiples of the common power of two. -/
theorem value_eq_dirInt {y : List FVal} {v : FVal} (hv : v ∈ y) : v.dyadic.value = (dirInt (dirExp y) v.dyadic : ℚ) * 2 ^ dirExp y := by
  unfold dirInt
  split
  · next h0 => simp [Dyadic.value, h0]
  · next h0 => exact v.dyadic.value_eq ((foldl_min_le _ _).2 _ (List.mem_map_of_mem hv) h0)

theorem cast_sumSq (l : List Int) : (sumSq l : ℚ) = (l.map fun n : Int => (n : ℚ) ^ 2).sum := by
  have hsum : sumSq l = (l.map fun n => n.natAbs * n.natAbs).sum := by rw [List.sum_eq_foldl, List.foldl_map]; rfl
  rw [hsum, Nat.cast_list_sum, List.map_map]
  congr 1
  refine List.map_congr_left fun n _ => ?_
  show ((n.natAbs * n.natAbs : Nat) : ℚ) = _
  rw [Nat.cast_mul, Nat.cast_natAbs, Int.cast_abs, abs_mul_abs_self, sq]

/-- The sum of the squares of the exact values. -/
theorem sum_value_sq (y : List FVal) : (y.map fun v => v.dyadic.value ^ 2).sum = (sumSq (dirInts y) : ℚ) * (2 ^ dirExp y) ^ 2 := by
  rw [cast_sumSq, dirInts, List.map_map, List.map_map, ← List.sum_map_mul_right]
  congr 1
  refine List.map_congr_left fun v hv => ?_
  rw [value_eq_dirInt hv]
  exact mul_pow _ _ 2

theorem dirComps_get {y : List FVal} {i : Nat} {v : FVal} (h : y[i]? = some v) :
    (dirComps y)[i]? = some (nearComp (sumSq (dirInts y)) (dirInt (dirExp y) v.dyadic)) := by
  simp [dirComps, dirInts, h]

/-- R76: a component against the exact values: 2^14 y_i over the root of the sum of the squares, rounded to nearest, ties to even. -/
theorem nearRoot_nearComp {y : List FVal} {v : FVal} (hv : v ∈ y) (hs : sumSq (dirInts y) ≠ 0) :
    NearRoot (2 ^ 30 * v.dyadic.value ^ 2) (y.map fun v => v.dyadic.value ^ 2).sum
      (nearComp (sumSq (dirInts y)) (dirInt (dirExp y) v.dyadic)).natAbs := by
  have hscale : (0 : ℚ) < (2 ^ dirExp y) ^ 2 := by positivity
  have h := (nearMag_spec (Nat.pos_of_ne_zero hs) (dirInt (dirExp y) v.dyadic).natAbs).scale hscale
  rw [Nat.cast_natAbs, Int.cast_abs, sq_abs, mul_assoc, ← mul_pow, ← value_eq_dirInt hv] at h
  rwa [natAbs_nearComp, sum_value_sq]

theorem nearComp_neg_iff_value {y : List FVal} {v : FVal} (hv : v ∈ y)
    (h : nearComp (sumSq (dirInts y)) (dirInt (dirExp y) v.dyadic) ≠ 0) :
    nearComp (sumSq (dirInts y)) (dirInt (dirExp y) v.dyadic) < 0 ↔ v.dyadic.value < 0 := by
  have hp : (0 : ℚ) < 2 ^ dirExp y := by positivity
  rw [nearComp_neg_iff h, value_eq_dirInt hv, ← not_iff_not, not_lt, not_lt, mul_nonneg_iff_of_pos_right hp, Int.cast_nonneg_iff]

/-! ### Components negated (R173, R180, R181) -/

theorem foldl_neg16 (c : List Int) (fl : Flags) :
    c.foldl (fun fl x => fl ||| (neg16 x).2) fl = fl ||| if (-32768 : Int) ∈ c then flagOF else 0#5 := by
  induction c generalizing fl with
  | nil => simp
  | cons a t ih =>
    rw [List.foldl_cons, ih]
    by_cases ha : a = -32768
    · by_cases ht : (-32768 : Int) ∈ t <;> simp [neg16, ha, ht, BitVec.or_assoc]
    · simp [neg16, ha, Ne.symm ha]

theorem negAll_eq (c : List Int) :
    negAll c = (c.map fun c => if c = -32768 then 32767 else -c, if (-32768 : Int) ∈ c then flagOF else 0#5) := by
  unfold negAll
  rw [foldl_neg16, BitVec.zero_or]
  congr 1
  refine List.map_congr_left fun c _ => ?_
  unfold neg16
  split <;> rfl

theorem dvneg_eq {a : DVec} (h : a.n ≠ normZero) :
    dvneg a = (⟨a.c.map fun c => if c = -32768 then 32767 else -c, a.n⟩, if (-32768 : Int) ∈ a.c then flagOF else 0#5) := by
  rw [dvneg, if_neg h, negAll_eq]

/-! ### Values rounded to binary32 (R182) -/

/-- A term of `twoTerm` whose power of two is a whole one is exact. -/
theorem scaled_exact (n e : Int) {p : Int} (hp : p % 2 ^ 24 = 0) : scaled n e p = (⟨n, e + p / 2 ^ 24⟩, true) := if_pos hp

/-- The term n × 2^e × 2^(p / 2^24), 0 written with the exponent 0. -/
def wholeTerm (n e p : Int) : Dyadic := if n = 0 then ⟨0, 0⟩ else ⟨n, e + p / 2 ^ 24⟩

theorem value_wholeTerm (n e p : Int) : (wholeTerm n e p).value = (n : ℚ) * 2 ^ (e + p / 2 ^ 24) := by
  unfold wholeTerm
  split
  · next h => simp [Dyadic.value, h]
  · rfl

theorem twoTerm_exact (n e : Int) {p : Int} (m k : Int) {q : Int} (hp : p % 2 ^ 24 = 0) (hq : q % 2 ^ 24 = 0) :
    twoTerm (some (n, e, p)) (some (m, k, q)) = f32.unpack (f32.roundDy 0 false ((wholeTerm n e p).add (wholeTerm m k q))).1 := by
  unfold twoTerm wholeTerm
  simp only [scaled_exact _ _ hp, scaled_exact _ _ hq]
  by_cases hn : n = 0 <;> by_cases hm : m = 0 <;> simp [hn, hm, round32]

/-- A term alone is rounded as it is. -/
theorem roundDy_wholeTerm_left (c : Int) : f32.roundDy 0 false ((wholeTerm c (-14) 0).add ⟨0, 0⟩) = f32.roundDy 0 false ⟨c, -14⟩ := by
  by_cases hc : c = 0 <;> simp [wholeTerm, Dyadic.add, Fmt.roundDy, hc]

theorem roundDy_wholeTerm_right (c : Int) :
    f32.roundDy 0 false ((⟨0, 0⟩ : Dyadic).add (wholeTerm c (-14) 0)) = f32.roundDy 0 false ⟨c, -14⟩ := by
  by_cases hc : c = 0 <;> simp [wholeTerm, Dyadic.add, Fmt.roundDy, hc]

theorem twoTerm_left (c : Int) : twoTerm (some (c, -14, 0)) none = f32.unpack (f32.roundDy 0 false ⟨c, -14⟩).1 := by
  rw [← roundDy_wholeTerm_left]
  unfold twoTerm wholeTerm
  simp only [scaled_exact c (-14) (show (0 : Int) % 2 ^ 24 = 0 by decide)]
  by_cases hc : c = 0 <;> simp [hc, round32]

theorem twoTerm_right (c : Int) : twoTerm none (some (c, -14, 0)) = f32.unpack (f32.roundDy 0 false ⟨c, -14⟩).1 := by
  rw [← roundDy_wholeTerm_right]
  unfold twoTerm wholeTerm
  simp only [scaled_exact c (-14) (show (0 : Int) % 2 ^ 24 = 0 by decide)]
  by_cases hc : c = 0 <;> simp [hc, round32]

/-! ### The vectors that the forms write (R174, R180, R182, R183) -/

section

variable {a b : DVec} (ha : a.isZero = false) (hb : b.isZero = false)

include ha in
theorem dvren_eq : dvren a = writeDir (a.c.map fun c => .fin (c < 0) c.natAbs (-14)) a.n := by simp [dvren, ha]

include ha hb in
theorem dvmul_eq : dvmul a b =
    writeDir ((a.c.zip b.c).map fun p => f32.unpack (f32.roundDy 0 false ⟨p.1 * p.2, -28⟩).1) (a.n + b.n) := by
  simp [dvmul, ha, hb, round32]

include ha hb in
theorem dvadd_eq : dvadd a b = writeDir ((a.c.zip b.c).map fun p =>
    twoTerm (some (p.1, -14, a.n - max a.n b.n)) (some (p.2, -14, b.n - max a.n b.n))) (max a.n b.n) := by
  simp [dvadd, dvSum, ha, hb]

include ha in
theorem dvadd_zero_right {z : DVec} (hz : z.isZero = true) :
    dvadd a z = writeDir (a.c.map fun c => f32.unpack (f32.roundDy 0 false ⟨c, -14⟩).1) a.n := by
  simp [dvadd, dvSum, ha, hz, twoTerm_left]

include hb in
theorem dvadd_zero_left {z : DVec} (hz : z.isZero = true) :
    dvadd z b = writeDir (b.c.map fun c => f32.unpack (f32.roundDy 0 false ⟨c, -14⟩).1) b.n := by
  simp [dvadd, dvSum, hb, hz, twoTerm_right]

include ha hb in
theorem dvproj_eq (v : Nat) : dvproj v a b =
    if v = 0 then writeDir (b.c.map fun c => quot32 (dotInt a.c b.c * c) (dotInt b.c b.c).natAbs (-14)) a.n
    else writeDir ((a.c.zip b.c).map fun p => quot32 (p.1 * (dotInt b.c b.c).natAbs - dotInt a.c b.c * p.2) (dotInt b.c b.c).natAbs (-14)) a.n := by
  simp [dvproj, ha, hb]

include ha in
theorem dvscl_fin {v s : Nat} {neg : Bool} {m : Nat} {e : Int} (hv : v ≠ 0) (hs : f32.unpack s = .fin neg m e) (hm : m ≠ 0) :
    dvscl v a s = normWrite (if neg then a.c.map fun c => if c = -32768 then 32767 else -c else a.c)
      (a.n + (roundLog2 24 m 1 + e * 2 ^ 24)) (if neg = true ∧ (-32768 : Int) ∈ a.c then flagOF else 0#5) := by
  cases neg <;> simp [dvscl, hv, hs, hm, ha, negAll_eq]

include ha hb in
theorem dvaxpy_fin {s : Nat} {neg : Bool} {m : Nat} {e : Int} (hs : f32.unpack s = .fin neg m e) (hm : m ≠ 0) :
    let f : Int := if neg then -(m : Int) else m
    let il : Int := (Nat.log2 m : Int) + e
    let na := a.n + il * 2 ^ 24
    let M := max na b.n
    dvaxpy a b s = writeDir ((a.c.zip b.c).map fun p => twoTerm (some (f * p.1, e - il - 14, na - M)) (some (p.2, -14, b.n - M))) M := by
  simp [dvaxpy, dvSum, hs, hm, ha, hb]

end

theorem dvscl_special {v s : Nat} (a : DVec) (hv : v ≠ 0) (hs : (f32.unpack s).isNan = true ∨ (f32.unpack s).isInf = true) :
    dvscl v a s = (DVec.zero a.c.length, flagNV) := by
  cases h : f32.unpack s <;> simp_all [dvscl, FVal.isNan, FVal.isInf]

theorem dvaxpy_special {s : Nat} (a b : DVec) (hs : (f32.unpack s).isNan = true ∨ (f32.unpack s).isInf = true) :
    dvaxpy a b s = (DVec.zero a.c.length, flagNV) := by
  cases h : f32.unpack s <;> simp_all [dvaxpy, FVal.isNan, FVal.isInf]

end Sys2Proof.Machine

namespace Sys2Proof

open Machine in
/-- Settles O18: WriteDir writes the zero code or the components of R76 (`writeDir_cases`), each the nearest root of its square over
the sum of squares (`nearRoot_nearComp`); the vectors of the forms are read off, form by form. -/
theorem directionRules : Obligations.DirectionRules := by
  unfold Obligations.DirectionRules
  refine ⟨fun a h => ?_, fun a h => by simp [dvren, h], fun a b h => ?_, fun a b ha hb => by simp [dvadd, dvSum, ha, hb], writeDir_range, ?_,
    fun y h base => by rw [writeDir_eq, if_pos h], fun y base hfl hn => writeDir_base base hfl hn, fun c n fl => rfl, fun x => rfl, ?_, ?_,
    fun a e b h => if_neg h⟩
  · rw [dvneg_eq h]
    exact ⟨rfl, rfl⟩
  · rcases h with h | h <;> simp [dvmul, dvDot, h]
  · intro y base hn val N i v hv
    obtain ⟨hs, n, fl, hw⟩ := writeDir_of_norm hn
    have hc : (writeDir y base).1.c = dirComps y := by
      rw [hw] at hn ⊢
      exact ((normWrite_cases _ n fl).resolve_right fun h => hn (by rw [h]; rfl)).2.2
    have hmem := List.mem_of_getElem? hv
    obtain ⟨hle, hge, htie⟩ := nearRoot_nearComp hmem hs
    rw [ne_eq, Int.natAbs_eq_zero] at hge htie
    exact ⟨_, by rw [hc, dirComps_get hv], hle, fun h0 => ⟨hge h0, nearComp_neg_iff_value hmem h0⟩, htie⟩
  · intro a b ha hb
    refine ⟨dvren_eq ha, dvmul_eq ha hb, dvadd_eq ha hb, fun z hz => ⟨dvadd_zero_right ha hz, dvadd_zero_left hb hz, ?_, ?_, ?_⟩,
      dvproj_eq ha hb 0, dvproj_eq ha hb 1, fun s => ?_, fun v s neg m e hv hs hm => dvscl_fin ha hv hs hm,
      fun v s hv hs => ⟨dvscl_special a hv hs, dvaxpy_special a b hs⟩, fun s neg m e hs hm => dvaxpy_fin ha hb hs hm⟩
    · simp [dvproj, ha, hz]
    · simp [dvproj, ha, hz]
    · simp [dvproj, hz]
    · simp [dvscl, ha]
  · intro n e p m k q hp hq
    exact ⟨_, by rw [← value_wholeTerm, ← value_wholeTerm]; exact Dyadic.value_add _ _, twoTerm_exact n e m k hp hq⟩

end Sys2Proof

/-! ## Scope: the matrix unit and the copy engine (O46) -/

namespace Sys2Proof.Machine

/-! ### What the end of an MXOP counts (R55, R203) -/

theorem correctViews_singleton {s : State} {ref : GangRef} {g : Gang} (hg : s.gang? ref = some g) (d : W64) :
    correctViews s ref [d] = if (correctView g d).2 = 0 then s
      else (s.setGang ref (correctView g d).1).bump .ecccorr ref.core (correctView g d).2 := by
  simp [correctViews, hg]

/-- R203: each word corrected counts, also where a transient result hides it: `correctView` looks at the register file alone. -/
theorem correctViews_count {s : State} {ref : GangRef} {g : Gang} (hg : s.gang? ref = some g) (d : W64) :
    (correctViews s ref [d]).count .ecccorr ref.core = s.count .ecccorr ref.core + w64 (correctView g d).2 := by
  rw [correctViews_singleton hg]
  split
  · next h => simp [h, w64]
  · exact State.count_bump_self _ _ _ _

/-- A gang written and its matrix unit's clocks counted leave ECCCORR as it was. -/
theorem count_ecccorr_setGang_bump_mxbusy (s : State) (ref : GangRef) (g : Gang) (core n : Nat) :
    ((s.setGang ref g).bump .mxbusy core n).count .ecccorr core = s.count .ecccorr core :=
  State.count_bump_ne _ n (by simp)

/-- What follows the corrections of the incoming accumulator counts in MXBUSY alone. -/
theorem mxFinish_count_ecccorr {e : MxEntry} (hacc : mxAccIn e.params = true) (s : State) :
    (mxFinish s e).count .ecccorr e.g.core = (correctViews s e.g [e.wc]).count .ecccorr e.g.core := by
  simp only [mxFinish, hacc, if_true]
  split
  · rfl
  · exact count_ecccorr_setGang_bump_mxbusy _ _ _ _ _

/-! ### A correctable accumulator word that a transient result hides -/

/-- A block of a 16 × 16 × 16 product of the views in W0 and W1, added to the accumulator in W2. -/
def accBlock : List W64 := [0x04020100#64, 0x0000001000100010#64]

/-- A gang with BF16 views at V8 and V12 and an F32 accumulator at V16. The lower word of V16 in lane 0 holds a correctable error, and a
transient result of that register and lane hides it. -/
def hiddenGang : Gang :=
  { newGang hostRecord 0 0 0 0 0 with
    w := [(0, 0x0000000101001021#64), (1, 0x0000000101001821#64), (2, 0x0000000101002002#64)]
    vCorr := [(512, true)]
    transients := [{ reg := opndV 16, lane := 0, val := 1#64, age := 0, set := 0xFFFF#64 }] }

/-- The module with that gang in slot 0 of core 0. -/
def hiddenState : State := { State.reset with gangs := [(0, hiddenGang)] }

theorem hiddenState_gang : hiddenState.gang? ⟨0, 0, 0⟩ = some hiddenGang := rfl

/-- The entry that the gang's MXOP of the block has queued. -/
def hiddenEntry : MxEntry :=
  MxEntry.withBlock
    { g := ⟨0, 0, 0⟩, params := [], wa := 0#64, wb := 0#64, wc := 0#64, opid := 0, readDone := false, behind := none, aBytes := [], bBytes := [],
      again := none, stamp := 0, recheck := none }
    hiddenGang accBlock

/-- The block passes the checks of R195 to R198; WC has a correctable word that `viewCorr` does not see. -/
theorem hiddenGang_wc :
    mxBad hiddenGang accBlock = false ∧ hiddenGang.viewCorr hiddenEntry.wc = false ∧ (correctView hiddenGang hiddenEntry.wc).2 = 1 := by
  decide +kernel

theorem mxFinish_hidden_count : (mxFinish hiddenState hiddenEntry).count .ecccorr 0 = 1#64 := by
  obtain ⟨-, -, hwords⟩ := hiddenGang_wc
  calc (mxFinish hiddenState hiddenEntry).count .ecccorr 0
      = (correctViews hiddenState ⟨0, 0, 0⟩ [hiddenEntry.wc]).count .ecccorr 0 := mxFinish_count_ecccorr (e := hiddenEntry) rfl hiddenState
    _ = hiddenState.count .ecccorr 0 + w64 (correctView hiddenGang hiddenEntry.wc).2 := correctViews_count hiddenState_gang _
    _ = 1#64 := by rw [hwords]; rfl

end Sys2Proof.Machine

namespace Sys2Proof

open Machine in
/-- Refutes O46: its clause on the end of an MXOP says that, where `viewCorr` finds no correctable word in WC, MXBUSY alone is counted. But
`viewCorr` passes over a word that a transient result hides, while the matrix unit reads the incoming accumulator from the register file
(log entry 22): it corrects that word there and counts it in ECCCORR (R203, log entry 73), as `hiddenState` shows. -/
theorem not_unitsRun : ¬ Obligations.UnitsRun := by
  unfold Obligations.UnitsRun
  rintro ⟨-, hfinish, -⟩
  obtain ⟨-, hhidden, -⟩ := hiddenGang_wc
  obtain ⟨n, b, g', heq, -, -⟩ := hfinish hiddenState hiddenEntry hiddenGang hiddenState_gang fun _ => hhidden
  have hkept : (mxFinish hiddenState hiddenEntry).count .ecccorr 0 = 0#64 := by
    rw [heq]
    exact count_ecccorr_setGang_bump_mxbusy hiddenState ⟨0, 0, 0⟩ g' 0 n
  rw [mxFinish_hidden_count] at hkept
  exact absurd hkept (by decide)

end Sys2Proof

/-! ## Scope: integer forms, control flow and predicates (O1, O2, O3, O4, O9, O10, O11, O12) -/

namespace Sys2Proof.Machine

/-! ### Forms whose result in a lane is a function of the sources there (R112, R121) -/

/-- A form with a V or S destination whose result in a lane is v. -/
def IsLaneForm (i : Instr) (f : Fields) (v : Iss → Nat → W64) : Prop :=
  ∃ m, i.form = some (m, f) ∧ m.useD = true ∧ (operandSpec i m f).d = clsVS ∧ ∀ s, exec i s = laneForm i s v

section

variable {i : Instr} {m : Form} {f : Fields} {s : State} {g : Gang} {x : Iss} {v : Iss → Nat → W64}

theorem Ready.form_eq (h : Ready i s g x) (hf : i.form = some (m, f)) : x.m = m ∧ x.f = f :=
  Prod.mk.inj (Option.some.inj (h.form.symm.trans hf))

theorem Ready.dest (h : Ready i s g x) (hf : i.form = some (m, f)) (hu : m.useD = true) (hc : (operandSpec i m f).d = clsVS) :
    (∃ k, opnd x.f.d = .v k) ∨ ∃ k, opnd x.f.d = .s k := by
  obtain ⟨rfl, rfl⟩ := h.form_eq hf
  exact dest_vs h hu hc

theorem IsLaneForm.does (hi : IsLaneForm i f v) (h : Ready i s g x) : DoesD i s x (v x) 0#5 := by
  obtain ⟨m, hf, hu, hc, he⟩ := hi
  obtain ⟨rfl, rfl⟩ := h.form_eq hf
  unfold DoesD
  rw [he]
  exact laneForm_does h hu hc v

/-- The result is formed sub-element by sub-element, each of them of the type's width. -/
theorem IsLaneForm.elems (hi : IsLaneForm i f v) (h : Ready i s g x) {e : Nat → Nat → Nat}
    (hv : ∀ l, v x l = mapSubs (typeWidth f.tcode) (e l)) (hlt : ∀ l j, e l j < 2 ^ typeWidth f.tcode) : DoesElems i s x e := by
  refine ⟨v x, hi.does h, fun l _ => ?_⟩
  obtain ⟨m, hf, -⟩ := hi
  rw [hv, h.fields hf]
  exact mapSubs_elements _ _ (hlt l)

/-- R112: the result is the exact value of each sub-element, saturated or wrapped. -/
theorem IsLaneForm.exact (hi : IsLaneForm i f v) (h : Ready i s g x) {sat : Bool} {e : Nat → Nat → Int}
    (hv : ∀ l, v x l = intLanes f.tcode sat (e l)) : DoesElems i s x fun l j => intSpec f.tcode sat (e l j) :=
  hi.elems h hv fun _ _ => wrapInt_lt _ _

end

/-! ### Division (R114) -/

/-- A sub-element of B in a lane is 0. -/
def Iss.dividesByZero (x : Iss) (l : Nat) : Prop := ∃ j, j < 64 / typeWidth x.f.tcode ∧ elt x.f.tcode (x.b l) j = 0

theorem zeroDivisors_getLsbD (x : Iss) (l : Nat) : (zeroDivisors x).getLsbD l = true ↔ x.has l ∧ x.dividesByZero l := by
  have hlt : x.active.getLsbD l = true → l < 64 := BitVec.lt_of_getLsbD
  simp only [zeroDivisors, maskOf_getLsbD, Bool.and_eq_true, decide_eq_true_eq, List.any_eq_true, List.mem_range, beq_iff_eq, Iss.has,
    Iss.dividesByZero]
  exact ⟨fun h => h.2, fun h => ⟨hlt h.1, h⟩⟩

theorem zeroDivisors_eq_zero {x : Iss} (h : ∀ l, x.has l → ¬x.dividesByZero l) : zeroDivisors x = 0#64 :=
  BitVec.eq_of_getLsbD_eq fun l _ => by
    rw [BitVec.getLsbD_zero, Bool.eq_false_iff, Ne, zeroDivisors_getLsbD]
    exact fun ⟨hl, hz⟩ => h l hl hz

section

variable {i : Instr} {m : Form} {f : Fields} {s : State} {g : Gang} {x : Iss} {op : Int → Int → Int}

/-- A form of IDIV's kind, whose exact value is op: without a zero divisor its result comes with a fill. -/
theorem divForm_does (h : Ready i s g x) (hf : i.form = some (m, f)) (hu : m.useD = true) (hc : (operandSpec i m f).d = clsVS)
    (he : ∀ s, exec i s = divForm i s op)
    (hz : ∀ l j, x.has l → j < 64 / typeWidth f.tcode → elt f.tcode (x.b l) j ≠ 0) :
    ∃ v, DoesFill i s x .ready (x.dWrites v) 0#5 false ∧
      ∀ l, x.has l → Elements f.tcode (v l) fun j => intSpec f.tcode false (op (elt f.tcode (x.a l) j) (elt f.tcode (x.b l) j)) := by
  have hd := h.dest hf hu hc
  obtain rfl := h.fields hf
  have hnone : zeroDivisors x = 0#64 := zeroDivisors_eq_zero fun l hl ⟨j, hj, hb⟩ => hz l j hl hj hb
  refine ⟨fun l => intOp2 x.f.tcode false op (x.a l) (x.b l), ?_, fun l _ => intLanes_elements _ _ _⟩
  unfold DoesFill
  rw [he]
  refine runIssue_fill h _ .ready _ (dWrites_no_p x _) _ false ?_
  simp only [hnone, ne_eq, not_true_eq_false, if_false]
  rw [fill_eq _ _ _ _ _ (dWrites_ne_nil h.someLane hd _)]

/-- R114: with one, DIV-ZERO is taken in the state as the issue found it. -/
theorem divForm_traps (h : Ready i s g x) (he : ∀ s, exec i s = divForm i s op) {l : Nat} (hl : x.has l) (hz : x.dividesByZero l) :
    exec i s = .next (trapIssue (s.setGang x.ref x.g) i x.f x.ref x.who x.task x.pc x.set x.active
      { cause := 0x31, tmask := x.active, taddr := 0#64, thit := zeroDivisors x, tpc := none }) := by
  have hhit : zeroDivisors x ≠ 0#64 := fun h0 => by
    have := (zeroDivisors_getLsbD x l).2 ⟨hl, hz⟩
    simp [h0] at this
  rw [he, divForm, runIssue_ready h, if_pos hhit, ← h.instr]
  rfl

end

end Sys2Proof.Machine

namespace Sys2Proof

open Machine in
/-- Settles O1: the nine fixed-latency forms are `IsLaneForm.exact`, the two divisions `divForm_does`. -/
theorem intArithmetic : Obligations.IntArithmetic := by
  unfold Obligations.IntArithmetic
  intro f s g x A B C sat
  refine ⟨
    -- IADD, ISUB, IMUL, IMULH, IMAD, IMIN, IMAX
    fun h => IsLaneForm.exact ⟨_, rfl, rfl, rfl, fun _ => rfl⟩ h fun _ => rfl,
    fun h => IsLaneForm.exact ⟨_, rfl, rfl, rfl, fun _ => rfl⟩ h fun _ => rfl,
    fun h => IsLaneForm.exact ⟨_, rfl, rfl, rfl, fun _ => rfl⟩ h fun _ => rfl,
    fun h => IsLaneForm.exact ⟨_, rfl, rfl, rfl, fun _ => rfl⟩ h fun _ => rfl,
    fun h => IsLaneForm.exact ⟨_, rfl, rfl, rfl, fun _ => rfl⟩ h fun _ => rfl,
    fun h => IsLaneForm.exact ⟨_, rfl, rfl, rfl, fun _ => rfl⟩ h fun _ => rfl,
    fun h => IsLaneForm.exact ⟨_, rfl, rfl, rfl, fun _ => rfl⟩ h fun _ => rfl,
    -- IABS, INEG
    fun h => IsLaneForm.exact ⟨_, rfl, rfl, rfl, fun _ => rfl⟩ h fun l => congrArg (intLanes f.tcode sat) (funext fun j => ?_),
    fun h => IsLaneForm.exact ⟨_, rfl, rfl, rfl, fun _ => rfl⟩ h fun _ => rfl,
    -- IDIV, IREM
    fun h hz => divForm_does h rfl rfl rfl (fun _ => rfl) hz,
    fun h hz => ?_⟩
  · show ((A l j).natAbs : Int) = _
    split <;> omega
  · simp only [← Int.tmod_def]
    exact divForm_does h rfl rfl rfl (fun _ => rfl) hz

open Machine in
/-- Settles O2: `divForm_traps` and `zeroDivisors_getLsbD`. -/
theorem divideByZero : Obligations.DivideByZero := by
  unfold Obligations.DivideByZero
  rintro f s g x i hi h ⟨l, j, hl, hj, hz⟩
  obtain ⟨op, rfl, he⟩ : ∃ op, x.f = f ∧ ∀ s, exec i s = divForm i s op := by
    rcases hi with rfl | rfl
    · exact ⟨_, h.fields rfl, fun _ => rfl⟩
    · exact ⟨_, h.fields rfl, fun _ => rfl⟩
  exact ⟨zeroDivisors x, zeroDivisors_getLsbD x, divForm_traps h he hl ⟨j, hj, hz⟩⟩

end Sys2Proof

namespace Sys2Proof.Machine

/-! ### What the checks of a word leave of its modifier and its immediate (R22, R23) -/

section

variable {i : Instr} {m : Form} {f : Fields} {s : State} {g : Gang} {x : Iss}

theorem Ready.accepts (h : Ready i s g x) (hf : i.form = some (m, f)) : m.mods.accepts m.types f = true ∧ ImmRule.accepts m f = true := by
  obtain ⟨rfl, rfl⟩ := h.form_eq hf
  obtain ⟨hword, -⟩ := Bool.or_eq_false_iff.1 h.opcode
  rw [Option.isSome_eq_false_iff, Option.isNone_iff_eq_none] at hword
  simp only [Form.refuse, ite_eq_iff, reduceCtorEq, and_false, false_or, and_true, Bool.not_eq_true, Bool.not_eq_false'] at hword
  obtain ⟨-, -, -, -, -, -, hmod, himm⟩ := hword
  exact ⟨hmod, himm⟩

/-- R22: the modifier of an untyped form is one of its row's. -/
theorem Ready.modifier (h : Ready i s g x) (hf : i.form = some (m, f)) {l : List Nat} (hl : m.mods = .only l) (ht : m.types = .untyped) :
    f.mod.toNat ∈ l := by
  have hmod := (h.accepts hf).1
  rw [hl, ht] at hmod
  simpa [ModRule.accepts] using hmod

/-- R122: a bit field lies in the sub-element. -/
theorem Ready.bitField (h : Ready i s g x) (hf : i.form = some (m, f)) (hr : m.immRule = .bitField) :
    fieldPos f + fieldLen f ≤ typeWidth f.tcode := by
  have himm := (h.accepts hf).2
  unfold ImmRule.accepts at himm
  rw [hr] at himm
  simp only [Bool.and_eq_true, decide_eq_true_eq] at himm
  obtain ⟨⟨hlt, -⟩, hle⟩ := himm
  unfold fieldPos fieldLen
  omega

end

/-! ### The elements of the BIT forms (R121, R122) -/

theorem subElem_lt (v : W64) (w j : Nat) : subElem v w j < 2 ^ w := Nat.mod_lt _ (Nat.two_pow_pos w)

theorem popcElem_le (w u : Nat) : popcElem w u ≤ w := by
  simpa [popcElem] using List.length_filter_le (fun k => decide (u / 2 ^ k % 2 = 1)) (List.range w)

theorem clzElem_le (w u : Nat) : clzElem w u ≤ w := by
  unfold clzElem
  split <;> omega

theorem ctzElem_le (w u : Nat) : ctzElem w u ≤ w := by
  unfold ctzElem
  cases hfind : (List.range w).find? fun k => u / 2 ^ k % 2 = 1 with
  | none => exact le_rfl
  | some k => exact (List.mem_range.1 (List.mem_of_find?_eq_some hfind)).le

theorem bfxElem_lt {t pos len u : Nat} (hu : u < 2 ^ typeWidth t) : bfxElem t pos len u < 2 ^ typeWidth t := by
  unfold bfxElem
  simp only
  split
  · exact wrapInt_lt _ _
  · exact ((Nat.mod_le _ _).trans (Nat.div_le_self _ _)).trans_lt hu

/-- R122: the field lies below the top of the sub-element, so that what is put in its place leaves the value in range. -/
theorem bfiElem_lt {w pos len u v : Nat} (hu : u < 2 ^ w) (hw : pos + len ≤ w) : bfiElem pos len u v < 2 ^ w := by
  have hsplit : 2 ^ w = 2 ^ pos * 2 ^ len * 2 ^ (w - (pos + len)) := by rw [← Nat.pow_add, ← Nat.pow_add, Nat.add_sub_cancel' hw]
  have hhigh : u / 2 ^ pos / 2 ^ len < 2 ^ (w - (pos + len)) := by
    rw [Nat.div_div_eq_div_mul]
    exact Nat.div_lt_of_lt_mul (hsplit ▸ hu)
  have hlow := Nat.mod_lt u (Nat.two_pow_pos pos)
  have hnew := Nat.mod_lt v (Nat.two_pow_pos len)
  have hu1 := Nat.div_add_mod u (2 ^ pos)
  have hu2 := Nat.div_add_mod (u / 2 ^ pos) (2 ^ len)
  rw [bfiElem, hsplit]
  generalize u / 2 ^ pos = q at *
  generalize q / 2 ^ len = high, q % 2 ^ len = old, u % 2 ^ pos = low, v % 2 ^ len = new at *
  generalize 2 ^ pos = P, 2 ^ len = L at *
  subst hu2 hu1
  have hkept : P * (L * high + old) + low - old * P = P * L * high + low := by
    rw [Nat.mul_add, Nat.mul_comm old P, Nat.add_right_comm, Nat.add_sub_cancel, Nat.mul_assoc]
  calc P * (L * high + old) + low - old * P + new * P
      = P * L * high + (low + new * P) := by rw [hkept, Nat.add_assoc]
    _ < P * L * high + (1 + new) * P := by linarith
    _ ≤ P * L * high + P * L := by nlinarith
    _ = P * L * (high + 1) := by ring
    _ ≤ P * L * 2 ^ (w - (pos + len)) := Nat.mul_le_mul_left _ hhigh

theorem brevElem_succ (w u : Nat) : brevElem (w + 1) u = 2 * brevElem w u + u / 2 ^ w % 2 := by
  have hdouble : (List.range w).map (fun k => u / 2 ^ k % 2 * 2 ^ (w - k)) =
      (List.range w).map fun k => 2 * (u / 2 ^ k % 2 * 2 ^ (w - 1 - k)) := List.map_congr_left fun k hk => by
    obtain ⟨d, rfl⟩ := Nat.exists_eq_add_of_lt (List.mem_range.1 hk)
    rw [show k + d + 1 - k = d + 1 by omega, show k + d + 1 - 1 - k = d by omega, pow_succ]
    ring
  simp only [brevElem, List.range_succ, List.map_append, List.sum_append, Nat.add_sub_cancel, hdouble, List.sum_map_mul_left]
  simp

/-- R121: bit i of a reversed sub-element is bit w - 1 - i of the sub-element. -/
theorem brevElem_bit (u : Nat) {w i : Nat} (hi : i < w) : brevElem w u / 2 ^ i % 2 = u / 2 ^ (w - 1 - i) % 2 := by
  induction w generalizing i with
  | zero => omega
  | succ w ih =>
    rw [brevElem_succ]
    cases i with
    | zero => simp
    | succ i =>
      rw [pow_succ', ← Nat.div_div_eq_div_mul, show (2 * brevElem w u + u / 2 ^ w % 2) / 2 = brevElem w u by omega, ih (by omega),
        show w + 1 - 1 - (i + 1) = w - 1 - i by omega]

theorem brevElem_lt (w u : Nat) : brevElem w u < 2 ^ w := by
  induction w with
  | zero => simp [brevElem]
  | succ w ih =>
    rw [brevElem_succ, pow_succ]
    omega

/-- R123: bit i of a LOP3 is the entry of the truth table that the bits i of the three sources select. -/
theorem lop3_bit (imm : W32) (a b d : W64) {i : Nat} (hi : i < 64) : (lop3 (imm.toNat % 256) a b d).getLsbD i =
    imm.getLsbD ((if a.getLsbD i then 1 else 0) + (if b.getLsbD i then 2 else 0) + (if d.getLsbD i then 4 else 0)) := by
  have hentry {k : Nat} (hk : k < 8) : (imm.toNat % 2 ^ 8 / 2 ^ k % 2 == 1) = imm.getLsbD k := by
    rw [BitVec.getLsbD, beq_eq_decide, ← Nat.testBit_eq_decide_div_mod_eq, Nat.testBit_mod_two_pow, decide_eq_true hk, Bool.true_and]
  have hsel : (if a.getLsbD i then 1 else 0) + (if b.getLsbD i then 2 else 0) + (if d.getLsbD i then 4 else 0) < 8 := by
    split <;> split <;> split <;> omega
  rw [lop3, maskOf_getLsbD, decide_eq_true hi, Bool.true_and]
  exact hentry hsel

end Sys2Proof.Machine

namespace Sys2Proof

open Machine in
/-- Settles O4: each form is `IsLaneForm`; the elements that it forms are the model's own, and none of them is wider than its type. -/
theorem bitOperations : Obligations.BitOperations := by
  unfold Obligations.BitOperations
  refine ⟨?_, fun f s g x h => ⟨_, IsLaneForm.does ⟨_, rfl, rfl, rfl, fun _ => rfl⟩ h, fun l i _ hi => lop3_bit _ _ _ _ hi⟩⟩
  · intro f s g x w u v pos len
    have hw : w < 2 ^ w := Nat.lt_two_pow_self
    have hu (l j : Nat) : u l j < 2 ^ w := subElem_lt _ _ _
    refine ⟨
      -- AND, OR, XOR, NOT, ANDN
      fun h => IsLaneForm.does ⟨_, rfl, rfl, rfl, fun _ => rfl⟩ h,
      fun h => IsLaneForm.does ⟨_, rfl, rfl, rfl, fun _ => rfl⟩ h,
      fun h => IsLaneForm.does ⟨_, rfl, rfl, rfl, fun _ => rfl⟩ h,
      fun h => IsLaneForm.does ⟨_, rfl, rfl, rfl, fun _ => rfl⟩ h,
      fun h => IsLaneForm.does ⟨_, rfl, rfl, rfl, fun _ => rfl⟩ h,
      -- SHL, SHR, SAR, ROT
      fun h => IsLaneForm.elems ⟨_, rfl, rfl, rfl, fun _ => rfl⟩ h (fun _ => rfl) fun l j => ?_,
      fun h => IsLaneForm.elems ⟨_, rfl, rfl, rfl, fun _ => rfl⟩ h (fun _ => rfl) fun l j => ?_,
      fun h => IsLaneForm.elems ⟨_, rfl, rfl, rfl, fun _ => rfl⟩ h (fun _ => rfl) fun l j => wrapInt_lt _ _,
      fun h => IsLaneForm.elems ⟨_, rfl, rfl, rfl, fun _ => rfl⟩ h (fun _ => rfl) fun l j => Nat.mod_lt _ (Nat.two_pow_pos w),
      -- POPC, CLZ, CTZ
      fun h => IsLaneForm.elems ⟨_, rfl, rfl, rfl, fun _ => rfl⟩ h (fun _ => rfl) fun l j => (popcElem_le w (u l j)).trans_lt hw,
      fun h => IsLaneForm.elems ⟨_, rfl, rfl, rfl, fun _ => rfl⟩ h (fun _ => rfl) fun l j => (clzElem_le w (u l j)).trans_lt hw,
      fun h => IsLaneForm.elems ⟨_, rfl, rfl, rfl, fun _ => rfl⟩ h (fun _ => rfl) fun l j => (ctzElem_le w (u l j)).trans_lt hw,
      -- BREV
      fun h => ⟨_, IsLaneForm.does ⟨_, rfl, rfl, rfl, fun _ => rfl⟩ h, fun l j i _ hj hi => ?_⟩,
      -- BFX, BFI
      fun h => IsLaneForm.elems ⟨_, rfl, rfl, rfl, fun _ => rfl⟩ h (fun _ => rfl) fun l j => bfxElem_lt (hu l j),
      fun h => IsLaneForm.elems ⟨_, rfl, rfl, rfl, fun _ => rfl⟩ h (fun _ => rfl) fun l j => bfiElem_lt (hu l j) (h.bitField rfl rfl)⟩
    · split
      · exact Nat.two_pow_pos w
      · exact Nat.mod_lt _ (Nat.two_pow_pos w)
    · split
      · exact Nat.two_pow_pos w
      · exact (Nat.div_le_self _ _).trans_lt (hu l j)
    · show subElem (bitOp _ _ _ _) w j / 2 ^ i % 2 = _
      rw [bitOp, mapSubs_elem _ (typeWidth_cases _) _ _ hj, Nat.mod_eq_of_lt (brevElem_lt _ _)]
      exact brevElem_bit _ hi

end Sys2Proof

namespace Sys2Proof.Machine

/-! ### Truths of predicates (R39, R109) -/

section

variable {i : Instr} {m : Form} {f : Fields} {s : State} {g : Gang} {x : Iss}

/-- R14: an operand whose class is P alone names a predicate. -/
theorem opnd_p_of_operandOk {imm : Bool} {window t : Nat} {y : W12} (h : operandOk [.p] imm window t y = true) : ∃ k, opnd y = .p k := by
  unfold operandOk at h
  split at h
  case h_3 k hk => exact ⟨k, hk⟩
  all_goals simp at h

/-- R14: a source A of class P alone is a predicate, and so is a source C. -/
theorem Ready.source_p (h : Ready i s g x) (hf : i.form = some (m, f)) :
    (m.useA = true → (operandSpec i m f).a = [.p] → ∃ k, opnd x.f.a = .p k) ∧
    (m.useC = true → (operandSpec i m f).c = [.p] → ∃ k, opnd x.f.c = .p k) := by
  obtain ⟨rfl, rfl⟩ := h.form_eq hf
  have ho := h.operands
  simp only [operandsOk, Bool.and_eq_true, Bool.or_eq_true, Bool.not_eq_true'] at ho
  obtain ⟨⟨⟨⟨⟨-, ha⟩, -⟩, hc⟩, -⟩, -⟩ := ho
  exact ⟨fun hu hp => opnd_p_of_operandOk (hp ▸ ha.resolve_left (by simp [hu])),
    fun hu hp => opnd_p_of_operandOk (hp ▸ hc.resolve_left (by simp [hu]))⟩

end

theorem srcT_pred {x : Iss} {y : W12} {k : Nat} (hk : opnd y = .p k) (t l : Nat) :
    x.srcT y t l = if x.g.predBit k l then 1#64 else 0#64 := by
  rw [Iss.srcT, hk]
  simp only [Gang.regVal, hk]

theorem voteMask_getLsbD (x : Iss) (l : Nat) : (voteMask x).getLsbD l = (x.active.getLsbD l && x.a l != 0#64) := by
  rw [voteMask, maskOf_getLsbD]
  cases hl : x.active.getLsbD l
  · simp
  · simp [BitVec.lt_of_getLsbD hl]

theorem lanesOf_voteMask (x : Iss) : lanesOf (voteMask x) = x.lanes.filter fun l => x.a l != 0#64 := by
  simp only [lanesOf, Iss.lanes, List.filter_filter]
  exact List.filter_congr fun l _ => by rw [voteMask_getLsbD, Bool.and_comm]

theorem voteMask_eq_active (x : Iss) : (voteMask x == x.active) = x.lanes.all fun l => x.a l != 0#64 := by
  rw [Bool.eq_iff_iff, beq_iff_eq, List.all_eq_true]
  constructor
  · intro h l hl
    have hb := (mem_lanesOf _ _).1 hl
    rw [← h, voteMask_getLsbD, Bool.and_eq_true] at hb
    exact hb.2
  · refine fun h => BitVec.eq_of_getLsbD_eq fun l _ => ?_
    rw [voteMask_getLsbD]
    cases hl : x.active.getLsbD l
    · rfl
    · rw [h l ((mem_lanesOf _ _).2 hl), Bool.and_self]

theorem voteMask_ne_zero (x : Iss) : (voteMask x != 0#64) = x.lanes.any fun l => x.a l != 0#64 := by
  rw [Bool.eq_iff_iff, bne_iff_ne, List.any_eq_true]
  constructor
  · intro h
    obtain ⟨l, -, hl⟩ := lowestLane_isSome _ h
    rw [voteMask_getLsbD, Bool.and_eq_true] at hl
    exact ⟨l, (mem_lanesOf _ _).2 hl.1, hl.2⟩
  · rintro ⟨l, hl, ht⟩ h0
    have hb := voteMask_getLsbD x l
    rw [h0, (mem_lanesOf _ _).1 hl, ht] at hb
    simp at hb

theorem voteMask_eq_zero (x : Iss) : (voteMask x == 0#64) = x.lanes.all fun l => !(x.a l != 0#64) := by
  rw [← List.not_any_eq_all_not, ← voteMask_ne_zero, bne, Bool.not_not]

/-- R109: the truth that variants 0 to 3 of VOTE write. -/
theorem votePred_eq (x : Iss) {v : Nat} (hv : v < 4) : votePred v x.active (voteMask x) =
    let truth (l : Nat) : Bool := x.a l != 0#64
    if v = 0 then x.lanes.all truth else if v = 1 then x.lanes.any truth
    else if v = 2 then x.lanes.all truth || x.lanes.all (fun l => !truth l) else (x.lanes.filter truth).length % 2 == 1 := by
  simp only [← voteMask_eq_active, ← voteMask_ne_zero, ← voteMask_eq_zero, ← lanesOf_voteMask]
  interval_cases v <;> rfl

theorem voteCount_toNat (x : Iss) : (voteVal 4 (voteMask x)).toNat = (x.lanes.filter fun l => x.a l != 0#64).length := by
  have hle : (lanesOf (voteMask x)).length ≤ 64 := (List.length_filter_le _ _).trans (List.length_range (n := 64)).le
  rw [voteVal, if_pos rfl, w64, BitVec.toNat_ofNat, Nat.mod_eq_of_lt (by omega), lanesOf_voteMask]

/-! ### The forms of class 0x0 that write a predicate (R108 to R111) -/

section

variable {i : Instr} {f : Fields} {s : State} {g : Gang} {x : Iss}

theorem elect_does (h : Ready (.elect f) s g x) : DoesP (.elect f) s x (fun l => lowestLane x.active == some l) 0#5 := by
  refine runIssue_P h (fun x s => .ok (x.putP s fun l => l == x.low)) _ ?_
  have hlow (l : Nat) : (lowestLane x.active == some l) = (l == x.low) := by
    rw [(low_of h.someLane).1, Option.some_beq_some, BEq.comm]
  simp only [hlow]

/-- R109: a variant of VOTE is one of 0 to 5. -/
theorem vote_variant (h : Ready (.vote f) s g x) : f.mod.toNat % 8 = f.mod.toNat ∧ f.mod.toNat < 6 := by
  have := h.modifier rfl rfl rfl
  simp only [List.mem_cons, List.not_mem_nil, or_false] at this
  omega

theorem vote_truth (h : Ready (.vote f) s g x) (hv : f.mod.toNat < 4) :
    DoesP (.vote f) s x (fun _ => votePred f.mod.toNat x.active (voteMask x)) 0#5 := by
  show ∃ t, execVote f s = .next t ∧ _
  refine runIssue_P h _ _ ?_
  simp only [(vote_variant h).1, if_pos hv]

theorem vote_value (h : Ready (.vote f) s g x) (hv : 4 ≤ f.mod.toNat) :
    DoesD (.vote f) s x (fun _ => voteVal f.mod.toNat (voteMask x)) 0#5 := by
  have hm := (vote_variant h).1
  show ∃ t, execVote f s = .next t ∧ _
  refine runIssue_D h _ _ (h.dest rfl rfl ?_) ?_
  · show (if f.mod.toNat % 8 < 4 then [Cls.p] else clsVS) = clsVS
    rw [hm, if_neg (by omega)]
  · simp only [hm, if_neg (Nat.not_lt.2 hv)]

theorem pset_does (h : Ready (.pset f) s g x) :
    DoesP (.pset f) s x (fun l => psetOp f.mod.toNat (x.a l != 0#64) (x.b l != 0#64)) 0#5 := by
  have hm : f.mod.toNat % 8 = f.mod.toNat := by
    have := h.modifier rfl rfl rfl
    simp only [List.mem_cons, List.not_mem_nil, or_false] at this
    omega
  show ∃ t, execPset f s = .next t ∧ _
  refine runIssue_P h _ _ ?_
  simp only [hm]

theorem pmov_test (h : Ready (.pmov f) s g x) (hv : f.mod.toNat = 0) : DoesP (.pmov f) s x (fun l => x.a l != 0#64) 0#5 := by
  show ∃ t, execPmov f s = .next t ∧ _
  refine runIssue_P h _ _ ?_
  simp only [hv]

/-- R111: the operands of a PMOV that writes a register. -/
theorem pmov_operands (h : Ready (.pmov f) s g x) (hv : f.mod.toNat ≠ 0) :
    ((∃ k, opnd x.f.d = .v k) ∨ ∃ k, opnd x.f.d = .s k) ∧ ∃ k, opnd x.f.a = .p k := by
  have hspec (m : Form) (hm : m.cls = 0) : operandSpec (.pmov f) m f = { d := clsVS, a := [.p] } := by
    unfold operandSpec
    rw [hm]
    exact if_neg hv
  exact ⟨h.dest rfl rfl (congrArg OpSpec.d (hspec _ rfl)), (h.source_p rfl).1 rfl (congrArg OpSpec.a (hspec _ rfl))⟩

theorem pmov_number (h : Ready (.pmov f) s g x) (hv : f.mod.toNat = 1) :
    DoesD (.pmov f) s x (fun l => if x.a l != 0#64 then 1#64 else 0#64) 0#5 := by
  obtain ⟨hd, k, hk⟩ := pmov_operands h (by omega)
  have hbit (l : Nat) : (if x.a l != 0#64 then 1#64 else 0#64) = x.a l := by
    rw [Iss.a, srcT_pred hk]
    cases x.g.predBit k _ <;> rfl
  show ∃ t, execPmov f s = .next t ∧ _
  refine runIssue_D h _ _ hd ?_
  simp only [hv, hbit]

theorem pmov_mask (h : Ready (.pmov f) s g x) (hv : f.mod.toNat = 2) :
    DoesD (.pmov f) s x (fun l => if x.a l != 0#64 then BitVec.allOnes 64 else 0#64) 0#5 := by
  show ∃ t, execPmov f s = .next t ∧ _
  refine runIssue_D h _ _ (pmov_operands h (by omega)).1 ?_
  simp only [hv]

end

end Sys2Proof.Machine

namespace Sys2Proof

open Machine in
/-- Settles O12: one lemma for each form and what it writes. -/
theorem predicates : Obligations.Predicates := by
  unfold Obligations.Predicates
  intro f s g x op truth other
  refine ⟨elect_does, fun h hv => ?_, fun h hv => ?_, pset_does, pmov_test, pmov_number, pmov_mask⟩
  · have hvote := vote_truth h hv
    rwa [votePred_eq x hv] at hvote
  · refine ⟨_, vote_value h hv, fun hop => ?_, fun hop l hl => ?_⟩
    · rw [show f.mod.toNat = 4 from hop, voteCount_toNat]
    · rw [show f.mod.toNat = 5 from hop]
      exact voteMask_getLsbD x l

end Sys2Proof

namespace Sys2Proof.Machine

/-! ### Register files kept by one change after another -/

/-- Every register is as before. -/
abbrev AllRegsKept (a b : Gang) : Prop := RegsKept a b (fun _ => False) (fun _ => False) (fun _ _ => False) (fun _ => False)

section

variable {a b c : Gang} {vs vs' ss ss' : Nat → Prop} {ps ps' : Nat → Nat → Prop} {ns ns' : Nat → Prop}

theorem RegsKept.refl (a : Gang) : RegsKept a a vs ss ps ns := by constructor <;> intros <;> rfl

theorem RegsKept.trans (h : RegsKept a b vs ss ps ns) (h' : RegsKept b c vs ss ps ns) : RegsKept a c vs ss ps ns where
  v k hk := (h'.v k hk).trans (h.v k hk)
  vEmpty k hk := (h'.vEmpty k hk).trans (h.vEmpty k hk)
  s k hk := (h'.s k hk).trans (h.s k hk)
  sEmpty k hk := (h'.sEmpty k hk).trans (h.sEmpty k hk)
  p k l hk := (h'.p k l hk).trans (h.p k l hk)
  n k hk := (h'.n k hk).trans (h.n k hk)

theorem RegsKept.mono (h : RegsKept a b vs ss ps ns) (hv : ∀ k, vs k → vs' k) (hs : ∀ k, ss k → ss' k) (hp : ∀ k l, ps k l → ps' k l)
    (hn : ∀ k, ns k → ns' k) : RegsKept a b vs' ss' ps' ns' where
  v k hk := h.v k (mt (hv k) hk)
  vEmpty k hk := h.vEmpty k (mt (hv k) hk)
  s k hk := h.s k (mt (hs k) hk)
  sEmpty k hk := h.sEmpty k (mt (hs k) hk)
  p k l hk := h.p k l (mt (hp k l) hk)
  n k hk := h.n k (mt (hn k) hk)

theorem AllRegsKept.mono (h : AllRegsKept a b) : RegsKept a b vs ss ps ns := RegsKept.mono h nofun nofun nofun nofun

end

section

variable {x : Iss} {g a : Gang}

theorem reads_regs (hx : x.g = (g.seen x.set).holding (holdOf x.m x.f x.active)) : AllRegsKept g x.g := by
  rw [hx]
  constructor <;> intros <;> rfl

theorem fallen_allRegs (x : Iss) (s : State) (a : Gang) : AllRegsKept a (x.fallen s a) := by
  obtain ⟨hv, hvEmpty, hs, hsEmpty, hp, hn, -⟩ := fallen_regs x s a
  constructor <;> intros <;> simp only [hv, hvEmpty, hs, hsEmpty, hp, hn]

/-- What an issue makes of the gang as it reads itself, seen from the gang as it stood, when the issue falls through. -/
theorem RegsKept.fallen {vs ss : Nat → Prop} {ps : Nat → Nat → Prop} {ns : Nat → Prop} (h : RegsKept x.g a vs ss ps ns)
    (hx : x.g = (g.seen x.set).holding (holdOf x.m x.f x.active)) (s : State) : RegsKept g (x.fallen s a) vs ss ps ns :=
  ((AllRegsKept.mono (reads_regs hx)).trans h).trans (AllRegsKept.mono (fallen_allRegs x s a))

theorem SpecialsKept.fallen (h : SpecialsKept x.g a) (hx : x.g = (g.seen x.set).holding (holdOf x.m x.f x.active)) (s : State) :
    SpecialsKept g (x.fallen s a) :=
  specials_trans (reads_specials hx) (specials_trans h (fallen_specials x s a))

/-! A form without a result leaves the gang as the issue read it. -/

theorem reads_falls (hx : x.g = (g.seen x.set).holding (holdOf x.m x.f x.active)) (s : State) : FallsThrough x g (x.fallen s x.g) := by
  apply falls_of <;> rw [hx] <;> rfl

theorem reads_fpstat (hx : x.g = (g.seen x.set).holding (holdOf x.m x.f x.active)) (s : State) : (x.fallen s x.g).fpstat = g.fpstat := by
  show x.g.fpstat = _
  rw [hx]
  rfl

theorem reads_specialsKept (hx : x.g = (g.seen x.set).holding (holdOf x.m x.f x.active)) (s : State) : SpecialsKept g (x.fallen s x.g) :=
  specials_trans (reads_specials hx) (fallen_specials x s x.g)

theorem reads_regsKept (hx : x.g = (g.seen x.set).holding (holdOf x.m x.f x.active)) (s : State) : AllRegsKept g (x.fallen s x.g) :=
  (reads_regs hx).trans (fallen_allRegs x s x.g)

/-- What a later issue reads of a V or S register depends on the two files and on the transient results. -/
theorem regVal_congr {b : Gang} {d : W12} (hd : (∃ k, opnd d = .v k) ∨ ∃ k, opnd d = .s k) (ht : b.transients = a.transients) (hv : b.v = a.v)
    (hs : b.s = a.s) (hw : b.width = a.width) (set : LaneMask) (l : Nat) : (b.seen set).regVal d l = (a.seen set).regVal d l := by
  rcases hd with ⟨k, hk⟩ | ⟨k, hk⟩ <;> simp only [Gang.regVal, hk, Gang.transient?, Gang.seen, Gang.vReg, ht, hv, hs, hw]

end

/-! ### Writes to the lanes of one predicate (R39) -/

section

variable (g : Gang) (k : Nat) (ls : List Nat) (c : Nat → Bool)

/-- The writes of the truths c to the lanes ls of a predicate. -/
def predWrites (k : Nat) (ls : List Nat) (c : Nat → Bool) : List RegWrite := ls.map fun l => .p k l (c l)

/-- What no write to a predicate touches. -/
theorem predWrites_field {α : Type} (F : Gang → α) (hF : ∀ a p e y h, F { a with p := p, pEmpty := e, parity := y, holdLatch := h } = F a) :
    F (g.writes (predWrites k ls c)) = F g := by
  refine writes_place_kept (place := F) fun g' _ w hw => ?_
  obtain ⟨l, -, rfl⟩ := List.mem_map.1 hw
  simp only [Gang.write]
  split
  · rfl
  · exact hF g' _ _ _ _

/-- P7 takes no write. -/
theorem predWrites_seven : g.writes (predWrites 7 ls c) = g :=
  writes_place_kept (place := id) fun g' _ w hw => by
    obtain ⟨l, -, rfl⟩ := List.mem_map.1 hw
    simp [Gang.write]

theorem predWrites_regsKept : RegsKept g (g.writes (predWrites k ls c)) (fun _ => False) (fun _ => False)
    (fun k' l => k' = k ∧ k ≠ 7 ∧ l ∈ ls) (fun _ => False) := by
  by_cases hk : k = 7
  · subst hk
    rw [predWrites_seven]
    exact .refl g
  · refine (writes_regsKept g (predWrites k ls c)).mono ?_ ?_ ?_ ?_ <;> simp [predWrites, hk]
    rintro k' l hl rfl
    exact ⟨rfl, hl⟩

theorem predWrites_specials : SpecialsKept g (g.writes (predWrites k ls c)) := by constructor <;> simp

end

/-! ### ICMP (R115) -/

theorem combine_eq (v n : Nat) (h : Nat → Bool) :
    combine v n h = if v = 0 then (List.range n).all h else if v = 1 then (List.range n).any h else h 0 := by
  match v with
  | 0 | 1 | _ + 2 => rfl

/-! ### IADDC (R117) -/

section

variable {f : Fields} {s : State} {g : Gang} {x : Iss}

/-- The sum and the carry of a lane of IADDC. -/
def Iss.sumCarry (x : Iss) (l : Nat) : W64 × Bool := addCarry (x.a l) (x.b l) (x.c l != 0#64)

theorem sumCarry_eq (x : Iss) (l : Nat) : x.sumCarry l =
    (BitVec.ofNat 64 ((x.a l).toNat + (x.b l).toNat + if x.c l = 0#64 then 0 else 1),
      decide (2 ^ 64 ≤ (x.a l).toNat + (x.b l).toNat + if x.c l = 0#64 then 0 else 1)) := by
  by_cases hc : x.c l = 0#64 <;> simp [Iss.sumCarry, addCarry, w64, hc]

/-- The gang that IADDC leaves before the end of its issue, with the carries in predicate k. -/
def Iss.withSum (x : Iss) (k : Nat) : Gang := (x.withD fun l => (x.sumCarry l).1).writes (predWrites k x.lanes fun l => (x.sumCarry l).2)

theorem exec_iaddc (h : Ready (.iaddc f) s g x) {k : Nat} (hk : opnd x.f.c = .p k) : exec (.iaddc f) s =
    .next (countIssue (s.setGang x.ref (x.fallen s (x.withSum k))) x.ref (x.withSum k).width (isSfu x.i)) := by
  obtain rfl := h.fields rfl
  show execIaddc x.f s = _
  rw [execIaddc, runIssue_ready h]
  simp only [putD_eq, mapGang_setGang, hk]
  rw [finishIssue_ok h.unbroken, commitIssue_plain]
  rfl

theorem iaddc_does (h : Ready (.iaddc f) s g x) : ∃ t g', exec (.iaddc f) s = .next t ∧ t.gang? x.ref = some g' ∧
    (∀ l, x.has l → (g'.seen x.set).regVal f.d l = (x.sumCarry (x.dLane l)).1) ∧
    (∀ k l, opnd f.c = .p k → k ≠ 7 → x.has l → g'.predBit k l = (x.sumCarry l).2) ∧
    g'.fpstat = g.fpstat ∧ RegsKept g g' x.dCell x.dScalar (fun k l => opnd f.c = .p k ∧ k ≠ 7 ∧ x.has l) (fun _ => False) ∧
    SpecialsKept g g' ∧ FallsThrough x g g' ∧ OthersKept x s t := by
  obtain ⟨k, hk⟩ := (h.source_p rfl).2 rfl rfl
  have hd := h.dest rfl rfl rfl
  obtain rfl := h.fields rfl
  obtain ⟨hread, -, -, hregs⟩ := withD_regs x (fun l => (x.sumCarry l).1) h.someLane hd
  obtain ⟨hv, -, hs, -, hp, -, ht, hw, hst⟩ := fallen_regs x s (x.withSum k)
  have hlane (l : Nat) : l ∈ x.lanes ↔ x.has l := mem_lanesOf _ _
  -- the writes to the carry predicate leave everything else as the sum does
  have hfield {α : Type} (F : Gang → α) (hF : ∀ a p e y h, F { a with p := p, pEmpty := e, parity := y, holdLatch := h } = F a) :
      F (x.withSum k) = F (x.withD fun l => (x.sumCarry l).1) := predWrites_field _ _ _ _ F hF
  have hcontrol {α : Type} (F : Gang → α) (hW : ∀ g w, F (Gang.write g w) = F g)
      (hT : ∀ a t l, F { a with transients := t, holdLatch := l } = F a) : F (x.withSum k) = F x.g :=
    (Gang.writes_field F hW _ _).trans (withD_field F hW hT _ _)
  refine ⟨_, x.fallen s (x.withSum k), exec_iaddc h hk, by rw [countIssue_gang?, setGang_self], fun l hl => ?_, fun k' l hk' h7 hl => ?_, ?_, ?_, ?_, ?_,
    countIssue_others x s _ _ _⟩
  · rw [← hread l hl]
    refine regVal_congr hd (ht.trans ?_) (hv.trans ?_) (hs.trans ?_) (hw.trans ?_) _ _ <;> exact hfield _ fun _ _ _ _ _ => rfl
  · obtain rfl : k = k' := Opnd.p.inj (hk.symm.trans hk')
    rw [Gang.predBit, hp, beq_eq_false_iff_ne.2 h7, Bool.false_or]
    exact (writes_p _ k h7 x.lanes (fun l hl => BitVec.lt_of_getLsbD ((hlane l).1 hl)) _).1 l ((hlane l).2 hl)
  · rw [hst, hcontrol _ Gang.write_fpstat fun _ _ _ => rfl, h.reads]
    rfl
  · have hcarry := predWrites_regsKept (x.withD fun l => (x.sumCarry l).1) k x.lanes fun l => (x.sumCarry l).2
    refine ((hregs.mono (fun _ => id) (fun _ => id) nofun nofun).trans (hcarry.mono nofun nofun ?_ nofun)).fallen h.reads s
    rintro k' l ⟨rfl, h7, hl⟩
    exact ⟨hk, h7, (hlane l).1 hl⟩
  · exact (specials_trans (withD_specials x _) (predWrites_specials _ _ _ _)).fallen h.reads s
  · apply falls_of
    · rw [hcontrol _ Gang.write_pc fun _ _ _ => rfl, h.reads]; rfl
    · rw [hcontrol _ Gang.write_live fun _ _ _ => rfl, h.reads]; rfl
    · rw [hcontrol _ Gang.write_inh fun _ _ _ => rfl, h.reads]; rfl

end

end Sys2Proof.Machine

namespace Sys2Proof

open Machine in
/-- Settles O3: the forms with one result are lane forms, and IADDC is `iaddc_does`. -/
theorem intMoves : Obligations.IntMoves := by
  unfold Obligations.IntMoves
  intro f s g x
  refine ⟨fun h => ?_, fun h => ?_, fun h => IsLaneForm.does ⟨_, rfl, rfl, rfl, fun _ => rfl⟩ h,
    fun h => IsLaneForm.does ⟨_, rfl, rfl, rfl, fun _ => rfl⟩ h, fun h => ?_,
    fun h => ⟨_, IsLaneForm.does ⟨_, rfl, rfl, rfl, fun _ => rfl⟩ h, fun l _ => intLanes_elements _ _ _⟩, fun h => ?_⟩
  -- ICMP
  · simp only [← combine_eq]
    show ∃ t, execIcmp f s = .next t ∧ _
    exact runIssue_P h _ _ rfl
  -- ISEL
  · have hsel := IsLaneForm.does ⟨_, rfl, rfl, rfl, fun _ => rfl⟩ h
    simpa only [bne_iff_ne] using hsel
  -- MOVI
  · have hhigh : f.imm.zeroExtend 64 <<< 32 = BitVec.ofNat 64 (f.imm.toNat * 2 ^ 32) := by
      apply BitVec.eq_of_toNat_eq
      rw [BitVec.toNat_shiftLeft, BitVec.toNat_setWidth, BitVec.toNat_ofNat, Nat.shiftLeft_eq,
        Nat.mod_eq_of_lt (f.imm.isLt.trans (by decide))]
    rw [← hhigh]
    exact IsLaneForm.does ⟨_, rfl, rfl, rfl, fun _ => rfl⟩ h
  -- IADDC
  · simpa only [sumCarry_eq] using iaddc_does h

end Sys2Proof

namespace Sys2Proof.Machine

/-! ### Next PCs of a commit (R303) -/

theorem pcOf_advance (g : Gang) (set : LaneMask) (pc : W64) (next : List (Nat × W64)) (l : Nat) :
    KMap.get (g.advance set pc next) 0#64 l =
      if set.getLsbD l then ((next.find? fun e => e.1 == l).map Prod.snd).getD (pc + 12#64) else g.pcOf l := by
  unfold Gang.advance
  rw [KMap.get_foldl_set_nodup 0#64 (fun l _ => ((next.find? fun e => e.1 == l).map Prod.snd).getD (pc + 12#64)) (lanesOf_nodup set)]
  simp only [mem_lanesOf]
  rfl

/-- R101: the next PCs that a branch gives its Active lanes. -/
theorem nextPc_eq (x : Iss) (target : Nat → W64) (l : Nat) :
    (((x.lanes.map fun l => (l, target l)).find? fun e => e.1 == l).map Prod.snd).getD (x.pc + 12#64) = branchNext x target l := by
  have hfind (ls : List Nat) : (((ls.map fun l => (l, target l)).find? fun e => e.1 == l).map Prod.snd).getD (x.pc + 12#64) =
      if l ∈ ls then target l else x.pc + 12#64 := by
    induction ls with
    | nil => rfl
    | cons a t ih =>
      by_cases ha : a = l
      · simp [ha]
      · rw [List.map_cons, List.find?_cons_of_neg (by simpa using ha), ih]
        simp [Ne.symm ha]
  rw [hfind, branchNext]
  simp only [Iss.lanes, mem_lanesOf]

/-! ### Branches (R100 to R104) -/

section

variable {x : Iss} {target : Nat → W64}

theorem branchDiffer_getLsbD {k : Nat} (hk : lowestLane x.set = some k) (l : Nat) :
    (branchDiffer x target).getLsbD l = true ↔ x.set.getLsbD l = true ∧ branchNext x target l ≠ branchNext x target k := by
  have hlt : x.set.getLsbD l = true → l < 64 := BitVec.lt_of_getLsbD
  rw [branchDiffer, hk]
  simp only [maskOf_getLsbD, Bool.and_eq_true, decide_eq_true_eq, bne_iff_ne]
  exact ⟨fun h => h.2, fun h => ⟨hlt h.1, h⟩⟩

theorem uniformity_none (h : x.f.u = true → ∀ l k, x.set.getLsbD l = true → x.set.getLsbD k = true → branchNext x target l = branchNext x target k) :
    uniformity x target = none := by
  cases hu : x.f.u
  · simp [uniformity, hu]
  · have hd : branchDiffer x target = 0#64 := by
      cases hk : lowestLane x.set with
      | none => rw [branchDiffer, hk]
      | some k =>
        have hkset : x.set.getLsbD k = true := List.find?_some hk
        refine BitVec.eq_of_getLsbD_eq fun l _ => ?_
        rw [BitVec.getLsbD_zero, Bool.eq_false_iff, Ne, branchDiffer_getLsbD hk]
        exact fun ⟨hl, hne⟩ => hne (h hu l k hl hkset)
    simp [uniformity, hd]

theorem uniformity_some (hu : x.f.u = true) {k l : Nat} (hk : lowestLane x.set = some k) (hl : x.set.getLsbD l = true)
    (hne : branchNext x target l ≠ branchNext x target k) :
    uniformity x target = some { cause := 0x18, tmask := x.set, taddr := 0#64, thit := branchDiffer x target, tpc := none } := by
  have hd : branchDiffer x target ≠ 0#64 := fun h0 => by
    have hbit := (branchDiffer_getLsbD hk l).2 ⟨hl, hne⟩
    simp [h0] at hbit
  simp [uniformity, hu, hd]

end

section

variable {i : Instr} {f : Fields} {s : State} {g : Gang} {x : Iss} {link : Bool} {target : Iss → Nat → W64}

/-- A form that branches to a target per lane; with link it has a V or S destination and writes its return address there. -/
def IsBranch (i : Instr) (f : Fields) (link : Bool) (target : Iss → Nat → W64) : Prop :=
  ∃ m, i.form = some (m, f) ∧ (link = true → m.useD = true ∧ (operandSpec i m f).d = clsVS) ∧ ∀ s, exec i s = runIssue i s (branchTo link target)

theorem isBranch_bra (f : Fields) : IsBranch (.bra f) f false dispTarget := ⟨_, rfl, nofun, fun _ => rfl⟩
theorem isBranch_call (f : Fields) : IsBranch (.call f) f true dispTarget := ⟨_, rfl, fun _ => ⟨rfl, rfl⟩, fun _ => rfl⟩
theorem isBranch_bri (f : Fields) : IsBranch (.bri f) f false regTarget := ⟨_, rfl, nofun, fun _ => rfl⟩
theorem isBranch_ret (f : Fields) : IsBranch (.ret f) f false regTarget := ⟨_, rfl, nofun, fun _ => rfl⟩
theorem isBranch_calli (f : Fields) : IsBranch (.calli f) f true regTarget := ⟨_, rfl, fun _ => ⟨rfl, rfl⟩, fun _ => rfl⟩

/-- The gang a branch leaves: its commit sends each lane of the issue group to its next PC. -/
def Iss.branched (x : Iss) (s : State) (a : Gang) (target : Nat → W64) : Gang :=
  { x.fallen s a with pc := a.advance x.set x.pc (x.lanes.map fun l => (l, target l)) }

/-- The gang after the link of a branch is written. -/
def Iss.withLink (x : Iss) (link : Bool) : Gang := if link then x.withD fun _ => x.pc + 12#64 else x.g

theorem trace_gang? (s : State) (ctx die : Nat) (mask : BitVec 4) (r : TraceRec) (q : GangRef) : (trace s ctx die mask r).gang? q = s.gang? q := by
  unfold trace
  split
  · rfl
  · split <;> rfl

theorem commitIssue_branch (x : Iss) (s : State) (a : Gang) (target : Nat → W64) (b : Bool) (r : GangRef) :
    (commitIssue x (s.setGang x.ref a) { next := x.lanes.map fun l => (l, target l), branch := b }).gang? r =
      (s.setGang x.ref (x.branched s a target)).gang? r := by
  unfold commitIssue
  rw [setGang_self]
  simp only [setGang_setGang, leaveHandler_none, Bool.false_eq_true, if_false]
  cases b
  · rfl
  · exact trace_gang? _ _ _ _ _ r

theorem withLink_specials (x : Iss) (link : Bool) : SpecialsKept x.g (x.withLink link) := by
  cases link
  · constructor <;> rfl
  · exact withD_specials x _

/-- What no write to a register touches is as the issue read it. -/
theorem withLink_field {α : Type} (F : Gang → α) (hw : ∀ g w, F (Gang.write g w) = F g)
    (ht : ∀ g t l, F { g with transients := t, holdLatch := l } = F g) (x : Iss) (link : Bool) : F (x.withLink link) = F x.g := by
  cases link
  · rfl
  · exact withD_field F hw ht x _

theorem exec_branch (h : Ready i s g x) (he : ∀ s, exec i s = runIssue i s (branchTo link target)) (hu : uniformity x (target x) = none) :
    exec i s = .next (commitIssue x (s.setGang x.ref (x.withLink link))
      { next := x.lanes.map fun l => (l, target x l), branch := x.active != 0#64 }) := by
  have hput : (if link then x.putD (s.setGang x.ref x.g) fun _ => x.pc + 12#64 else s.setGang x.ref x.g) = s.setGang x.ref (x.withLink link) := by
    cases link
    · rfl
    · exact putD_eq x s _
  rw [he, runIssue_ready h, branchTo, hu]
  simp only [hput]
  rw [finishIssue_done h.unbroken]

theorem IsBranch.does (hi : IsBranch i f link target) (h : Ready i s g x) (hu : uniformity x (target x) = none) :
    ∃ t g', exec i s = .next t ∧ t.gang? x.ref = some g' ∧
      (∀ l, x.set.getLsbD l = true → g'.pcOf l = branchNext x (target x) l) ∧ (∀ l, x.set.getLsbD l = false → g'.pcOf l = g.pcOf l) ∧
      (link = true → ∀ l, x.has l → (g'.seen x.set).regVal f.d l = x.pc + 12#64) ∧
      RegsKept g g' (fun c => link = true ∧ x.dCell c) (fun k => link = true ∧ x.dScalar k) (fun _ _ => False) (fun _ => False) ∧
      g'.live = g.live ∧ g'.fpstat = g.fpstat ∧ SpecialsKept g g' ∧ ∀ r, gangNum r ≠ gangNum x.ref → t.gang? r = s.gang? r := by
  obtain ⟨m, hf, hlinks, he⟩ := hi
  obtain ⟨rfl, rfl⟩ := h.form_eq hf
  have hd (hlink : link = true) := dest_vs h (hlinks hlink).1 (hlinks hlink).2
  have hpc (l : Nat) := pcOf_advance (x.withLink link) x.set x.pc (x.lanes.map fun l => (l, target x l)) l
  simp only [nextPc_eq] at hpc
  obtain ⟨hv, -, hs, -, -, -, ht, hw, hst⟩ := fallen_regs x s (x.withLink link)
  have hspecials := (withLink_specials x link).fallen h.reads s
  have hregs : RegsKept x.g (x.withLink link) (fun c => link = true ∧ x.dCell c) (fun k => link = true ∧ x.dScalar k) (fun _ _ => False)
      (fun _ => False) := by
    cases link
    · exact .refl _
    · obtain ⟨-, -, -, hkept⟩ := withD_regs x (fun _ => x.pc + 12#64) h.someLane (hd rfl)
      exact hkept.mono (fun _ hc => ⟨rfl, hc⟩) (fun _ hk => ⟨rfl, hk⟩) (fun _ _ => id) fun _ => id
  have hkept := hregs.fallen h.reads s
  refine ⟨_, x.branched s (x.withLink link) (target x), exec_branch h he hu, by rw [commitIssue_branch, setGang_self], fun l hl => ?_, fun l hl => ?_,
    fun hlink l hl => ?_, ⟨hkept.v, hkept.vEmpty, hkept.s, hkept.sEmpty, hkept.p, hkept.n⟩, ?_, ?_,
    specials_trans hspecials (by constructor <;> rfl), fun r hr => by rw [commitIssue_branch, setGang_ne _ _ hr]⟩
  · exact (hpc l).trans (if_pos hl)
  · refine (hpc l).trans ((if_neg (by simp [hl])).trans ?_)
    rw [Gang.pcOf, withLink_field _ Gang.write_pc fun _ _ _ => rfl, h.reads]
    rfl
  · subst hlink
    obtain ⟨hread, -⟩ := withD_regs x (fun _ => x.pc + 12#64) h.someLane (hd rfl)
    rw [← hread l hl]
    exact regVal_congr (hd rfl) ht hv hs hw _ _
  · exact (fallen_falls x s (x.withLink link)).live.trans (by rw [withLink_field _ Gang.write_live fun _ _ _ => rfl, h.reads]; rfl)
  · exact hst.trans (by rw [withLink_field _ Gang.write_fpstat fun _ _ _ => rfl, h.reads]; rfl)

theorem IsBranch.fields (hi : IsBranch i f link target) (h : Ready i s g x) : x.f = f := by
  obtain ⟨m, hf, -⟩ := hi
  exact h.fields hf

theorem IsBranch.traps (hi : IsBranch i f link target) (h : Ready i s g x) {t : TrapInfo} (hu : uniformity x (target x) = some t) :
    exec i s = .next (trapIssue (s.setGang x.ref x.g) i f x.ref x.who x.task x.pc x.set x.active t) := by
  obtain ⟨m, hf, -, he⟩ := hi
  obtain ⟨rfl, rfl⟩ := h.form_eq hf
  rw [he, runIssue_ready h, branchTo, hu, ← h.instr]
  rfl

end

end Sys2Proof.Machine

namespace Sys2Proof

open Machine in
/-- Settles O11: the five forms are branches (`IsBranch`) to the target of R100; `uniformity` says whether they go there. -/
theorem branches : Obligations.Branches := by
  unfold Obligations.Branches
  refine ⟨?_, ?_⟩
  · intro i f s g x target link hi h next hsame
    obtain ⟨branch, hb, rfl⟩ : ∃ branch, IsBranch i f link branch ∧ branch x = target := by
      rcases hi with ⟨rfl, rfl, rfl⟩ | ⟨rfl, rfl, rfl⟩ | ⟨rfl | rfl, rfl, rfl⟩ | ⟨rfl, rfl, rfl⟩
      · exact ⟨_, isBranch_bra f, by rw [← h.fields rfl]; rfl⟩
      · exact ⟨_, isBranch_call f, by rw [← h.fields rfl]; rfl⟩
      · exact ⟨_, isBranch_bri f, rfl⟩
      · exact ⟨_, isBranch_ret f, rfl⟩
      · exact ⟨_, isBranch_calli f, rfl⟩
    exact hb.does h (uniformity_none (hb.fields h ▸ hsame))
  · intro i f s g x target hi h hu next k hk ⟨l, hl, hne⟩
    obtain ⟨link, branch, hb, rfl⟩ : ∃ link branch, IsBranch i f link branch ∧ branch x = target := by
      rcases hi with ⟨rfl | rfl, rfl⟩ | ⟨rfl | rfl | rfl, rfl⟩
      · exact ⟨_, _, isBranch_bra f, by rw [← h.fields rfl]; rfl⟩
      · exact ⟨_, _, isBranch_call f, by rw [← h.fields rfl]; rfl⟩
      · exact ⟨_, _, isBranch_bri f, rfl⟩
      · exact ⟨_, _, isBranch_ret f, rfl⟩
      · exact ⟨_, _, isBranch_calli f, rfl⟩
    exact ⟨_, branchDiffer_getLsbD hk, hb.traps h (uniformity_some (hb.fields h ▸ hu) hk hl hne)⟩

end Sys2Proof

namespace Sys2Proof.Machine

/-! ### Lanes that end, and the handler they leave (R107, R308) -/

/-- R308: an RTE with an empty TMASK resumes no lane. -/
theorem resume_none (g : Gang) : g.resume 0#64 0#64 = { g with wait := [], held := 0#64, inh := false, transients := [] } := by
  rw [Gang.resume, show lanesOf 0#64 = [] by decide, and_not_zero, BitVec.or_zero]
  rfl

/-- R308: the handler is left when every lane of TMASK has ended, and then no lane is held and none has waited. -/
theorem leaveHandler_handler (g : Gang) {ended : LaneMask} (h : ended ≠ 0#64) :
    (g.leaveHandler ended).inh = (g.inh && g.tmask &&& g.live != 0#64) ∧
    (g.inh = true → g.tmask &&& g.live = 0#64 → (g.leaveHandler ended).held = 0#64 ∧
      (g.leaveHandler ended).runners = (g.leaveHandler ended).live ∧ ∀ l, (g.leaveHandler ended).waitOf l = 0) ∧
    (g.inh = false ∨ g.tmask &&& g.live ≠ 0#64 → (g.leaveHandler ended).held = g.held) := by
  by_cases hleft : g.inh = true ∧ g.tmask &&& g.live = 0#64
  · obtain ⟨hi, ht⟩ := hleft
    have hleave : g.leaveHandler ended = { g with wait := [], held := 0#64, inh := false, transients := [] } := by
      simp [Gang.leaveHandler, resume_none, h, hi, ht]
    rw [hleave]
    exact ⟨by simp [ht], fun _ _ => ⟨rfl, and_not_zero _, fun _ => rfl⟩, fun hstay => by simp [hi, ht] at hstay⟩
  · have hleave : g.leaveHandler ended = g := by
      simp only [Gang.leaveHandler, Bool.and_eq_true, beq_iff_eq]
      exact if_neg fun ⟨⟨hi, _⟩, ht⟩ => hleft ⟨hi, ht⟩
    rw [hleave]
    refine ⟨?_, fun hi ht => absurd ⟨hi, ht⟩ hleft, fun _ => rfl⟩
    cases hi : g.inh
    · rfl
    · simpa [hi] using hleft

/-- What leaving a handler keeps. -/
theorem leaveHandler_keeps (g : Gang) (ended : LaneMask) :
    (g.leaveHandler ended).pc = g.pc ∧ (g.leaveHandler ended).live = g.live ∧ (g.leaveHandler ended).fpstat = g.fpstat ∧
    AllRegsKept g (g.leaveHandler ended) ∧ SpecialsKept g (g.leaveHandler ended) := by
  unfold Gang.leaveHandler
  split
  · rw [resume_none]
    exact ⟨rfl, rfl, rfl, by constructor <;> intros <;> rfl, by constructor <;> rfl⟩
  · exact ⟨rfl, rfl, rfl, .refl g, by constructor <;> rfl⟩

/-- The gang after an issue that ends its Active lanes, before a handler is left. -/
def Iss.without (x : Iss) (s : State) : Gang := { x.fallen s x.g with live := x.g.live &&& ~~~x.active }

section

variable {f : Fields} {s : State} {g : Gang} {x : Iss}

theorem exec_exit (h : Ready (.exit f) s g x) : exec (.exit f) s =
    .next (countIssue (s.setGang x.ref ((x.without s).leaveHandler x.active)) x.ref x.g.width (isSfu x.i)) := by
  show execExit f s = _
  rw [execExit, runIssue_ready h, finishIssue_done h.unbroken, commitIssue, setGang_self]
  simp only [setGang_setGang]
  rfl

theorem exit_does (h : Ready (.exit f) s g x) : ∃ t g', exec (.exit f) s = .next t ∧ t.gang? x.ref = some g' ∧
    (∀ l, g'.live.getLsbD l = (g.live.getLsbD l && !x.active.getLsbD l)) ∧
    (∀ l, x.set.getLsbD l = true → x.active.getLsbD l = false → g'.pcOf l = x.pc + 12#64) ∧
    (∀ l, x.set.getLsbD l = false → g'.pcOf l = g.pcOf l) ∧
    g'.inh = (g.inh && g.tmask &&& g'.live != 0#64) ∧
    (g.inh = true → g.tmask &&& g'.live = 0#64 → g'.held = 0#64 ∧ g'.runners = g'.live ∧ ∀ l, g'.waitOf l = 0) ∧
    (g.inh = false ∨ g.tmask &&& g'.live ≠ 0#64 → g'.held = g.held) ∧ g'.fpstat = g.fpstat ∧
    RegsKept g g' (fun _ => False) (fun _ => False) (fun _ _ => False) (fun _ => False) ∧ SpecialsKept g g' ∧ OthersKept x s t := by
  have hfalls := reads_falls h.reads s
  have hlive : (x.without s).live = g.live &&& ~~~x.active := by rw [Iss.without, h.reads]; rfl
  have hinh : (x.without s).inh = g.inh := hfalls.inh
  have htmask : (x.without s).tmask = g.tmask := by rw [Iss.without, h.reads]; rfl
  have hheld : (x.without s).held = g.held := by rw [Iss.without, h.reads]; rfl
  have hregs : AllRegsKept g (x.without s) :=
    (reads_regsKept h.reads s).trans (by constructor <;> intros <;> rfl)
  have hspecials : SpecialsKept g (x.without s) :=
    specials_trans (reads_specialsKept h.reads s) (by constructor <;> rfl)
  obtain ⟨hpc', hlive', hfpstat', hregs', hspecials'⟩ := leaveHandler_keeps (x.without s) x.active
  have hhandler := leaveHandler_handler (x.without s) h.someLane
  rw [hinh, htmask, hheld, ← hlive'] at hhandler
  obtain ⟨hleft, hreleased, hstays⟩ := hhandler
  refine ⟨_, _, exec_exit h, by rw [countIssue_gang?, setGang_self], fun l => ?_, fun l hl _ => ?_, fun l hl => ?_, hleft, hreleased, hstays, ?_,
    hregs.trans hregs', specials_trans hspecials hspecials', countIssue_others x s _ _ _⟩
  · rw [hlive', hlive]
    cases hl : g.live.getLsbD l
    · simp [hl]
    · simp [hl, BitVec.lt_of_getLsbD hl]
  · rw [Gang.pcOf, hpc']
    exact hfalls.pc l hl
  · rw [Gang.pcOf, hpc']
    exact hfalls.otherPc l hl
  · exact hfpstat'.trans (reads_fpstat h.reads s)

end

end Sys2Proof.Machine

namespace Sys2Proof

open Machine in
/-- Settles O10: `exit_does`. -/
theorem exitEnds : Obligations.ExitEnds := by
  unfold Obligations.ExitEnds
  exact fun f s g x h => exit_does h

end Sys2Proof

namespace Sys2Proof.Machine

/-! ### Forms without a result (R105, R106, R242) -/

section

variable {i : Instr} {f : Fields} {s : State} {g : Gang} {x : Iss}

/-- A form whose own part leaves the state as the issue found it. -/
theorem noResult_does (h : Ready i s g x) (he : exec i s = .next (finishIssue s x (.ok (s.setGang x.ref x.g)))) {y : Bool}
    (hy : (x.fallen s x.g).yielded = y) : ∃ t, exec i s = .next t ∧ NoResult x s t y := by
  rw [finishIssue_ok h.unbroken, commitIssue_plain] at he
  exact ⟨_, he, g, x.fallen s x.g, h.present, by rw [countIssue_gang?, setGang_self], reads_fpstat h.reads s, hy, reads_regsKept h.reads s,
    reads_specialsKept h.reads s, reads_falls h.reads s, countIssue_others x s _ _ _⟩

theorem barw_idle (h : Ready (.barw f) s g x) (ha : arrived s x (f.imm.toNat % 16) = false) :
    exec (.barw f) s = .next (finishIssue s x (.ok (s.setGang x.ref x.g))) := by
  have ha' : arrived (s.setGang x.ref x.g) x (f.imm.toNat % 16) = false := ha
  show execBarw f s = _
  rw [execBarw, runIssue_ready h, ha', Bool.and_false]
  rfl

end

/-! ### What a prefetch keeps (R220) -/

/-- From s to t the bytes of memory, the teams, the tasks and the gangs are kept, where the lines that cores hold are as they should be. -/
structure BytesKept (s t : State) : Prop where
  lines : l1Ok s.l1 → l1Ok t.l1
  bytes : l1Ok s.l1 → ∀ pa, memByte t pa = memByte s pa
  rest : (t.teams, t.tasks, t.gangs) = (s.teams, s.tasks, s.gangs)

namespace BytesKept

theorem refl (s : State) : BytesKept s s := ⟨id, fun _ _ => rfl, rfl⟩

theorem trans {a b c : State} (h : BytesKept a b) (h' : BytesKept b c) : BytesKept a c where
  lines ha := h'.lines (h.lines ha)
  bytes ha pa := (h'.bytes (h.lines ha) pa).trans (h.bytes ha pa)
  rest := h'.rest.trans h.rest

theorem foldl {α : Type} {step : State → α → State} (h : ∀ s a, BytesKept s (step s a)) (l : List α) (s : State) : BytesKept s (l.foldl step s) :=
  foldl_keeps (BytesKept s) step (fun t a ht => ht.trans (h t a)) l s (refl s)

theorem teams {s t : State} (h : BytesKept s t) : t.teams = s.teams := congrArg (fun r => r.1) h.rest
theorem tasks {s t : State} (h : BytesKept s t) : t.tasks = s.tasks := congrArg (fun r => r.2.1) h.rest
theorem gangs {s t : State} (h : BytesKept s t) : t.gangs = s.gangs := congrArg (fun r => r.2.2) h.rest

/-- A change of neither the lines nor memory. -/
theorem of_same {s t : State} (hl : t.l1 = s.l1) (hm : t.mem = s.mem)
    (hr : (t.teams, t.tasks, t.gangs) = (s.teams, s.tasks, s.gangs)) : BytesKept s t :=
  ⟨fun h => hl ▸ h, fun _ pa => by simp only [memByte, homeByte, hl, hm], hr⟩

end BytesKept

theorem correctMem_bytesKept (s : State) (die pa n : Nat) : BytesKept s (correctMem s die pa n) := by
  unfold correctMem
  simp only
  split <;> exact .of_same rfl rfl rfl

theorem clusterWalk_bytesKept (s : State) (cluster ctx va : Nat) : BytesKept s (clusterWalk s cluster ctx va).2 := by
  have hcorrect (cached : Nat → Nat → Option W64) : BytesKept s (correctWalk s cached ctx va) := by
    unfold correctWalk
    split
    · exact .refl s
    · exact .foldl (fun s a => correctMem_bytesKept s _ a 8) _ s
  unfold clusterWalk
  split
  · exact .refl s
  · split
    · exact .refl s
    · exact (hcorrect _).trans (.of_same rfl rfl rfl)

theorem prefetchPlace_bytesKept (s : State) (x : Iss) (l : Nat) : BytesKept s (prefetchPlace s x l).2 := by
  unfold prefetchPlace
  simp only
  split
  · exact .refl s
  · next leaf size s' hfound =>
    have hs' : BytesKept s s' := by
      split at hfound
      · obtain ⟨-, rfl⟩ := Prod.mk.inj hfound
        exact .refl s
      · have hwalk := clusterWalk_bytesKept s (x.who.core / 8) x.who.ctx (x.addr l)
        rwa [hfound] at hwalk
    have hput (keep : Bool) (pa : Nat) (leaf : W64) : BytesKept s
        (if keep then (some (pa, leaf), tlbPut s' x.who.core x.who.ctx (x.addr l) leaf size) else (none, s)).2 := by
      split
      · exact hs'.trans (.of_same rfl rfl rfl)
      · exact .refl s
    split
    · exact hput _ _ _
    · exact .refl s

theorem staleLine_bytesKept (s : State) (core slot line : Nat) (gen : W16) : BytesKept s (staleLine s core slot line gen) where
  lines h := (staleLine_spec s core slot line gen h).1
  bytes h := (staleLine_spec s core slot line gen h).2
  rest := by unfold staleLine; split <;> rfl

theorem crossFill_bytesKept (s : State) (w : Who) (line : Nat) : BytesKept s (crossFill s w line) := by
  unfold crossFill
  split <;> exact .of_same rfl rfl rfl

theorem fillLine_bytesKept (s : State) (core slot : Nat) (team : Option Nat) (line : Nat) (gen : W16) (tracked : Bool) :
    BytesKept s (fillLine s core slot team line gen tracked) where
  lines := l1Ok_fillLine core slot team line gen tracked
  bytes _ := memByte_fillLine s core slot team line gen tracked
  rest := by unfold fillLine; split <;> rfl

theorem tagLine_bytesKept (s : State) (core slot line : Nat) (team : Option Nat) : BytesKept s (tagLine s core slot line team) where
  lines h := (tagLine_spec s core slot line team h).1
  bytes h := (tagLine_spec s core slot line team h).2
  rest := by unfold tagLine; split <;> rfl

theorem fillOne_bytesKept (s : State) (w : Who) (tag : Option Nat × Bool) (unc : Bool) (leaf : W64) (pa line : Nat) :
    BytesKept s (fillOne s w tag unc leaf pa line) := by
  have hcross (s : State) : BytesKept s (if unc then s else crossFill s w line) := by
    split
    · exact .refl s
    · exact crossFill_bytesKept s w line
  have hgrant (s : State) (b : Bool) (die : Nat) : BytesKept s (if b then grantLine s w.core die line false else s) := by
    split <;> exact .of_same rfl rfl rfl
  exact ((((staleLine_bytesKept s _ _ _ _).trans (hcross _)).trans (fillLine_bytesKept _ _ _ _ _ _ _)).trans
    (tagLine_bytesKept _ _ _ _ _)).trans (hgrant _ _ _)

theorem fillAccs_bytesKept (s : State) (w : Who) (unc : Bool) (claims : List Nat) (accs : List LaneAcc) :
    BytesKept s (fillAccs s w unc claims accs) := by
  refine .foldl (fun s a => ?_) accs s
  split
  · exact .refl s
  · split
    · exact .refl s
    · exact .foldl (fun s j => fillOne_bytesKept s _ _ _ _ _ _) _ s

theorem putDieLine_bytesKept (s : State) (die line : Nat) : BytesKept s (putDieLine s die line) := by
  unfold putDieLine
  split <;> exact .of_same rfl rfl rfl

theorem prefetchLine_bytesKept (x : Iss) (l pa : Nat) (leaf : W64) (s : State) : BytesKept s (prefetchLine x l pa leaf s) := by
  unfold prefetchLine
  split
  · exact fillAccs_bytesKept _ _ _ _ _
  · exact putDieLine_bytesKept _ _ _

/-- R220: the prefetch of one lane. -/
def prefetchLane (x : Iss) (s : State) (l : Nat) : State :=
  match prefetchPlace s x l with
  | (some (pa, leaf), s) => prefetchLine x l pa leaf s
  | (none, s) => s

theorem prefetchLane_bytesKept (x : Iss) (s : State) (l : Nat) : BytesKept s (prefetchLane x s l) := by
  have hplace := prefetchPlace_bytesKept s x l
  unfold prefetchLane
  split
  · next hp => 
    rw [hp] at hplace
    exact hplace.trans (prefetchLine_bytesKept x l _ _ _)
  · next hp =>
    rw [hp] at hplace
    exact hplace

/-! ### The line that a prefetch brings (R220, R342) -/

theorem holdsLine_fillLine (s : State) (core slot : Nat) (team : Option Nat) (line : Nat) (gen : W16) (tracked : Bool) :
    holdsLine (fillLine s core slot team line gen tracked) core slot line = true := by
  unfold fillLine
  split
  · assumption
  · simp [holdsLine]

theorem holdsLine_tagLine (s : State) (core slot line : Nat) (team : Option Nat) (core' slot' line' : Nat) :
    holdsLine (tagLine s core slot line team) core' slot' line' = holdsLine s core' slot' line' := by
  unfold tagLine
  split
  · rfl
  · simp only [holdsLine, List.any_map]
    congr 1
    funext l
    simp only [Function.comp_apply]
    split <;> rfl

theorem holdsLine_fillOne (s : State) (w : Who) (tag : Option Nat × Bool) (unc : Bool) (leaf : W64) (pa line : Nat) :
    holdsLine (fillOne s w tag unc leaf pa line) w.core w.slot line = true := by
  have hgrant (s : State) (b : Bool) (die : Nat) :
      holdsLine (if b then grantLine s w.core die line false else s) w.core w.slot line = holdsLine s w.core w.slot line := by
    split <;> rfl
  unfold fillOne
  simp only [hgrant, holdsLine_tagLine]
  exact holdsLine_fillLine _ _ _ _ _ _ _

theorem prefetchLine_holdsLine {x : Iss} (hv : x.f.variant = 0) (l pa : Nat) (leaf : W64) (s : State) :
    holdsLine (prefetchLine x l pa leaf s) x.who.core x.who.slot (pa / 128) = true := by
  rw [prefetchLine, if_pos hv, fillAccs]
  simp [holdsLine_fillOne]

theorem prefetchLine_dieCache {x : Iss} (hv : x.f.variant ≠ 0) (l pa : Nat) (leaf : W64) (s : State) :
    BitSet.has (prefetchLine x l pa leaf s).dieCache (2 * (pa / 128) + x.who.core / 32) = true := by
  rw [prefetchLine, if_neg hv, putDieLine]
  split
  · assumption
  · exact BitSet.has_put_self s.dieCache (2 * (pa / 128) + x.who.core / 32) true

section

variable {f : Fields} {s : State} {g : Gang} {x : Iss}

/-- The state after the prefetches of an issue's lanes. -/
def Iss.prefetched (x : Iss) (s : State) : State := x.lanes.foldl (prefetchLane x) (x.start s)

theorem prefetched_bytesKept (x : Iss) (s : State) : BytesKept (x.start s) (x.prefetched s) := .foldl (prefetchLane_bytesKept x) _ _

theorem prefetched_one (hl : x.lanes = [x.low]) {pa : Nat} {leaf : W64} {s1 : State}
    (hp : prefetchPlace (x.start s) x x.low = (some (pa, leaf), s1)) : x.prefetched s = prefetchLine x x.low pa leaf s1 := by
  rw [Iss.prefetched, hl, List.foldl_cons, List.foldl_nil, prefetchLane, hp]

theorem exec_pfch (h : Ready (.pfch f) s g x) : exec (.pfch f) s =
    .next (countIssue ((x.prefetched s).setGang x.ref (x.fallen (x.prefetched s) x.g)) x.ref x.g.width (isSfu x.i)) := by
  have hgang : (x.prefetched s).gang? x.ref = some x.g := by
    rw [State.gang?, (prefetched_bytesKept x s).gangs]
    exact setGang_self s x.ref x.g
  rw [← commitIssue_falls hgang, ← finishIssue_ok h.unbroken]
  show execPfch f s = _
  exact runIssue_ready h _

theorem pfch_does (h : Ready (.pfch f) s g x) (hl : l1Ok s.l1) : ∃ t g', exec (.pfch f) s = .next t ∧ t.gang? x.ref = some g' ∧
    FallsThrough x g g' ∧ SpecialsKept g g' ∧ g'.fpstat = g.fpstat ∧ AllRegsKept g g' ∧ (∀ pa, memByte t pa = memByte s pa) ∧
    t.teams = s.teams ∧ t.tasks = s.tasks ∧ (∀ r, gangNum r ≠ gangNum x.ref → t.gang? r = s.gang? r) ∧
    ∀ pa leaf s1, x.lanes = [x.low] → prefetchPlace (x.start s) x x.low = (some (pa, leaf), s1) →
      (f.variant = 0 → holdsLine t x.who.core x.who.slot (pa / 128) = true) ∧
      (f.variant ≠ 0 → BitSet.has t.dieCache (2 * (pa / 128) + x.who.core / 32) = true) := by
  have hkept := prefetched_bytesKept x s
  refine ⟨_, x.fallen (x.prefetched s) x.g, exec_pfch h, by rw [countIssue_gang?, setGang_self], reads_falls h.reads _, reads_specialsKept h.reads _,
    reads_fpstat h.reads _, reads_regsKept h.reads _, hkept.bytes hl, hkept.teams, hkept.tasks, fun r hr => ?_, fun pa leaf s1 hone hp => ?_⟩
  · rw [countIssue_gang?, setGang_ne _ _ hr, State.gang?, hkept.gangs]
    exact setGang_ne s x.g hr
  · obtain rfl := h.fields rfl
    have hstate := prefetched_one hone hp
    exact ⟨fun hv => (congrArg (holdsLine · _ _ _) hstate).trans (prefetchLine_holdsLine hv _ _ _ _),
      fun hv => (congrArg (fun t : State => BitSet.has t.dieCache _) hstate).trans (prefetchLine_dieCache hv _ _ _ _)⟩

end

end Sys2Proof.Machine

namespace Sys2Proof

open Machine in
/-- Settles O9: NOP, YIELD and BARW commit the gang as the issue read it (`noResult_does`); PFCH is `pfch_does`. -/
theorem noEffect : Obligations.NoEffect := by
  unfold Obligations.NoEffect
  intro f s g x
  refine ⟨fun h => noResult_does h (runIssue_ready h _) ?_, fun h => noResult_does h (runIssue_ready h _) ?_, pfch_does,
    fun h ha => noResult_does h (barw_idle h ha) ?_⟩
  all_goals simp [Iss.fallen, Gang.account, h.instr, h.fields rfl]

end Sys2Proof

/-! ## Scope: floating forms (O5, O7) -/

namespace Sys2Proof.Machine

/-! ### Results of the floating forms, element by element (R128 to R140) -/

theorem fpLanes_elem (w : Nat) (e : Nat → Nat × Flags) : (fpLanes w e).1 = mapSubs w fun j => (e j).1 := by
  simp only [fpLanes, mapSubs, List.map_map, Function.comp_def]

/-- The element widths of the floating forms are those of the types. -/
theorem fpSpec_width {x : Iss} {p : FpSpec} (hp : fpSpec x = some p) : ∃ t, p.width = typeWidth t := by
  unfold fpSpec at hp
  split at hp
  all_goals cases hp
  -- FDOT2 forms binary32 sums
  case h_9 => exact ⟨8, rfl⟩
  all_goals exact ⟨_, rfl⟩

/-- R14: the floating forms write a V or an S register. -/
theorem fpSpec_dest {x : Iss} {p : FpSpec} (hp : fpSpec x = some p) (hf : x.i.form = some (x.m, x.f)) :
    x.m.useD = true ∧ (operandSpec x.i x.m x.f).d = clsVS := by
  unfold fpSpec at hp
  split at hp
  all_goals cases hp
  all_goals
    rename_i f hi
    rw [hi] at hf ⊢
    obtain ⟨hm, -⟩ := Prod.mk.inj (Option.some.inj hf)
    rw [← hm]
    exact ⟨rfl, rfl⟩

/-- The lane function of a floating form gives each lane the flags of its elements, and their results. -/
theorem laneFlags_of_fpLanes {p : FpSpec} {v : Nat → W64 × Flags} (hcount : p.count = 64 / p.width)
    (hl : ∀ l, v l = fpLanes p.width (p.elem l)) : (fun l => (v l).2) = p.laneFlags := by
  funext l
  rw [hl, fpLanes_flags, FpSpec.laneFlags, hcount]

theorem holds_of_fpLanes {x : Iss} {p : FpSpec} {v : Nat → W64 × Flags} {t : Nat} (hw : p.width = typeWidth t)
    (hcount : p.count = 64 / p.width) (hl : ∀ l, v l = fpLanes p.width (p.elem l)) : p.holds x fun l => (v l).1 := by
  intro l j _ hj
  simp only [hl, fpLanes_elem]
  exact mapSubs_elem _ (hw ▸ typeWidth_cases t) _ j (hcount ▸ hj)

/-- R64: a floating form none of whose raised flags is enabled completes with the results and the flags of its elements, at once or with
a fill. -/
theorem FpRuns.does {i : Instr} {s : State} {g : Gang} {x : Iss} {p : FpSpec} (hruns : FpRuns i x p) (hr : Ready i s g x)
    (hu : x.m.useD = true) (hc : (operandSpec i x.m x.f).d = clsVS) {t : Nat} (hw : p.width = typeWidth t)
    (hquiet : p.flags x &&& fpEnables x.g.fpctl = 0#5) :
    ∃ h, p.holds x h ∧ if p.long then DoesFill i s x .ready (x.dWrites h) (p.flags x) true else DoesD i s x h (p.flags x) := by
  obtain ⟨v, he, hcount, hl⟩ := hruns
  have hflags : allFlags (laneFlags x fun l => (v x l).2) = p.flags x := by
    rw [laneFlags_of_fpLanes hcount hl, allFlags_laneFlags, FpSpec.flags]
  have hq : x.quiet (laneFlags x fun l => (v x l).2) := by rwa [Iss.quiet, hflags]
  refine ⟨fun l => (v x l).1, holds_of_fpLanes hw hcount hl, ?_⟩
  simp only [DoesFill, DoesD, he, ← hflags]
  cases p.long
  · exact fpForm_does hr hu hc v hq
  · exact sfuForm_does hr hu hc v hq

end Sys2Proof.Machine

namespace Sys2Proof

open Machine in
/-- Settles O5: a floating form runs as its `FpSpec` says (`fpRuns_of_fpSpec`), and completes so (`FpRuns.does`). -/
theorem fpResults : Obligations.FpResults := by
  unfold Obligations.FpResults
  intro i s g x p hp h hquiet
  obtain rfl := h.instr
  obtain ⟨hu, hc⟩ := fpSpec_dest hp h.form
  obtain ⟨t, hw⟩ := fpSpec_width hp
  exact (fpRuns_of_fpSpec hp h.form).does h hu hc hw hquiet

end Sys2Proof

namespace Sys2Proof.Machine

/-! ### Sign bits (R132) -/

theorem typeWidth_pos (t : Nat) : 0 < typeWidth t := by
  have := typeWidth_cases t
  omega

section

variable {w u : Nat} (hu : u < 2 ^ w)

include hu

theorem absElem_lt : absElem w u < 2 ^ w := (Nat.mod_le _ _).trans_lt hu

variable (hw : 0 < w)

include hw

theorem absElem_eq : absElem w u = if u < 2 ^ (w - 1) then u else u - 2 ^ (w - 1) := by
  have htwice : 2 * 2 ^ (w - 1) = 2 ^ w := mul_pow_sub_one hw.ne' 2
  unfold absElem
  split
  · next hpos => exact Nat.mod_eq_of_lt hpos
  · next hneg => rw [Nat.mod_eq_sub_mod (not_lt.1 hneg), Nat.mod_eq_of_lt (by omega)]

theorem negElem_eq : negElem w u = if u < 2 ^ (w - 1) then u + 2 ^ (w - 1) else u - 2 ^ (w - 1) := by
  have htwice : 2 * 2 ^ (w - 1) = 2 ^ w := mul_pow_sub_one hw.ne' 2
  have habs := absElem_eq hu hw
  unfold absElem at habs
  rw [negElem, habs]
  split
  · next hpos => rw [Nat.div_eq_of_lt hpos]; omega
  · next hneg => rw [Nat.div_eq_of_lt_le (k := 1) (by omega) (by omega)]; omega

theorem negElem_lt : negElem w u < 2 ^ w := by
  have htwice : 2 * 2 ^ (w - 1) = 2 ^ w := mul_pow_sub_one hw.ne' 2
  rw [negElem_eq hu hw]
  split <;> omega

end

/-! ### FSEL (R132) -/

theorem fsel_does {f : Fields} {s : State} {g : Gang} {x : Iss} (h : Ready (.fsel f) s g x) :
    let w := typeWidth f.tcode
    DoesElems (.fsel f) s x fun l j =>
      if geZero (fmtOf f.tcode) (subElem (x.c l) w j) then subElem (x.a l) w j else subElem (x.b l) w j := by
  refine IsLaneForm.elems ⟨_, rfl, rfl, rfl, fun _ => rfl⟩ h (fun _ => rfl) fun l j => ?_
  split <;> exact subElem_lt _ _ _

/-! ### FCMP (R133) -/

theorem fcmpLane_flags (x : Iss) (a b : W64) : (fcmpLane x a b).2 =
    (List.range (if x.f.variant = 2 then 1 else 64 / typeWidth x.f.tcode)).foldl (fun fl j =>
      fl ||| (fcmpElem (x.f.imm.toNat % 8) (x.fpElt x.f.tcode a j) (x.fpElt x.f.tcode b j)).2) 0#5 :=
  List.foldl_map

theorem fcmpLane_truth (x : Iss) (a b : W64) : (fcmpLane x a b).1 =
    let holds (j : Nat) : Bool := (fcmpElem (x.f.imm.toNat % 8) (x.fpElt x.f.tcode a j) (x.fpElt x.f.tcode b j)).1
    let n := if x.f.variant = 2 then 1 else 64 / typeWidth x.f.tcode
    if x.f.variant = 0 then (List.range n).all holds else (List.range n).any holds := by
  simp only [fcmpLane, fcmpLane.combineBits, List.map_map, List.all_map, List.any_map, Function.comp_def, id_eq]

theorem fcmp_does {f : Fields} {s : State} {g : Gang} {x : Iss} (h : Ready (.fcmp f) s g x)
    (hq : x.quiet (laneFlags x fun l => (fcmpLane x (x.a l) (x.b l)).2)) :
    DoesP (.fcmp f) s x (fun l => (fcmpLane x (x.a l) (x.b l)).1) (allFlags (laneFlags x fun l => (fcmpLane x (x.a l) (x.b l)).2)) := by
  refine ⟨_, ?_, commit_PResult h.present h.reads _ _⟩
  show execFcmp f s = _
  rw [execFcmp, runIssue_ready h]
  simp only [fpTrap_quiet hq]
  rw [finishIssue_ok h.unbroken]

end Sys2Proof.Machine

namespace Sys2Proof

open Machine in
/-- Settles O7: FABS, FNEG, FSEL and FCLASS are lane forms, whose elements are the model's own (`absElem_eq`, `negElem_eq`); FCMP is
`fcmp_does`. -/
theorem fpBits : Obligations.FpBits := by
  unfold Obligations.FpBits
  intro f s g x t w u
  have hw : 0 < w := typeWidth_pos t
  have hu (l j : Nat) : u l j < 2 ^ w := subElem_lt _ _ _
  refine ⟨fun h => ?_, fun h => ?_, fun h => ?_, fun h => ?_, fun h => ?_⟩
  -- FABS, FNEG
  · simp only [← absElem_eq (hu _ _) hw]
    exact IsLaneForm.elems ⟨_, rfl, rfl, rfl, fun _ => rfl⟩ h (fun _ => rfl) fun l j => absElem_lt (hu l j)
  · simp only [← negElem_eq (hu _ _) hw]
    exact IsLaneForm.elems ⟨_, rfl, rfl, rfl, fun _ => rfl⟩ h (fun _ => rfl) fun l j => negElem_lt (hu l j) hw
  -- FSEL
  · refine cast (congrArg (DoesElems (.fsel f) s x) (funext₂ fun l j => ?_)) (fsel_does h)
    unfold geZero
    cases (fmtOf t).unpack (subElem (x.c l) w j) with
    | nan => rfl
    | inf neg => cases neg <;> rfl
    | fin neg m => cases neg <;> cases m <;> rfl
  -- FCLASS
  · obtain rfl := h.fields rfl
    exact ⟨_, IsLaneForm.does ⟨_, rfl, rfl, rfl, fun _ => rfl⟩ h, fun l _ j hj => mapSubs_elem _ (typeWidth_cases _) _ j hj⟩
  -- FCMP
  · intro r n flags hquiet
    obtain rfl := h.fields rfl
    have hlane : (fun l => (fcmpLane x (x.a l) (x.b l)).2) = fun l => (List.range n).foldl (fun fl j => fl ||| (r l j).2) 0#5 :=
      funext fun l => fcmpLane_flags x _ _
    have hflags : allFlags (laneFlags x fun l => (fcmpLane x (x.a l) (x.b l)).2) = flags := by rw [hlane, allFlags_laneFlags]
    have hdoes := fcmp_does h (by rwa [Iss.quiet, hflags])
    simp only [hflags, fcmpLane_truth] at hdoes
    exact hdoes

end Sys2Proof

/-! ## Scope: lanes exchanged, combined and converted, and chains (O13, O14, O15, O21, O22) -/

namespace Sys2Proof.Machine

/-! ### Operands that name registers (R14) -/

theorem opnd_special {y : W12} {n : Nat} (h : opnd y = .special n) : n = y.toNat := by
  unfold opnd at h
  simp only at h
  repeat' split at h
  all_goals cases h
  rfl

/-- R14: an operand whose class is V alone names a V register. -/
theorem opnd_v_of_operandOk {imm : Bool} {window t : Nat} {y : W12} (h : operandOk [.v] imm window t y = true) : ∃ k, opnd y = .v k := by
  unfold operandOk at h
  split at h
  case h_1 k hk => exact ⟨k, hk⟩
  all_goals simp at h

section

variable {i : Instr} {m : Form} {f : Fields} {s : State} {g : Gang} {x : Iss}

/-- R14: a source A of class V alone is a V register. -/
theorem Ready.source_v (h : Ready i s g x) (hf : i.form = some (m, f)) (hu : m.useA = true) (hc : (operandSpec i m f).a = [.v]) :
    ∃ k, opnd f.a = .v k := by
  obtain ⟨rfl, rfl⟩ := h.form_eq hf
  have ho := h.operands
  simp only [operandsOk, Bool.and_eq_true, Bool.or_eq_true, Bool.not_eq_true'] at ho
  obtain ⟨⟨⟨⟨⟨-, ha⟩, -⟩, -⟩, -⟩, -⟩ := ho
  exact opnd_v_of_operandOk (hc ▸ ha.resolve_left (by simp [hu]))

end

theorem srcT_v {x : Iss} {y : W12} {k : Nat} (hk : opnd y = .v k) (t l : Nat) : x.srcT y t l = x.g.regVal y l := by
  rw [Iss.srcT, hk]

/-! ### Lanes read across (R144, R145) -/

section

variable {f : Fields} {s : State} {g : Gang} {x : Iss}

/-- R144: the lane that a variant of SHFL reads on behalf of lane l in a gang of W lanes, b its number. -/
def shflSource (variant W b l : Nat) : Nat :=
  let start := if b = 0 then 0 else l - l % b
  match variant with
  | 0 => if b < W then b else l
  | 1 => (l + b) % W
  | 2 => if b = 0 ∨ W ≤ start + b - 1 then l else start + (b - 1 - l % b)
  | _ => if l ^^^ b < W then l ^^^ b else l

/-- R144: the number that SHFL takes from B: the immediate whole, or the register's value. -/
def shflArg (f : Fields) (g : Gang) (l : Nat) : Nat :=
  match opnd f.b with
  | .special 0x679 => f.imm.toNat
  | _ => (g.regVal f.b l).toNat

theorem srcLane_shfl (f : Fields) (g : Gang) (active : LaneMask) (l : Nat) :
    srcLane (.shfl f) f g active l = shflSource f.variant g.width (shflArg f g l) l := by
  unfold srcLane shflSource
  generalize f.variant = v
  rcases v with _ | _ | _ | v
  case succ.succ.zero =>
    show (if shflArg f g l = 0 || l - l % shflArg f g l + shflArg f g l > g.width then l
      else l - l % shflArg f g l + (shflArg f g l - 1 - l % shflArg f g l)) = _
    generalize shflArg f g l = b
    by_cases h0 : b = 0
    · simp [h0]
    · simp only [h0, if_false, decide_false, Bool.false_or, decide_eq_true_eq, false_or]
      exact if_congr (by omega) rfl rfl
  all_goals rfl

/-- R144: B of SHFL is a V or an S register or 0, which all read as registers do, or the immediate. -/
theorem shflArg_eq (h : Ready (.shfl f) s g x) (l : Nat) :
    shflArg x.f x.g l = if x.f.b = 0x679#12 then x.f.imm.toNat else (x.b l).toNat := by
  obtain ⟨hm, -⟩ := h.form_eq rfl
  have ho := h.operands
  simp only [operandsOk, Bool.and_eq_true, Bool.or_eq_true, Bool.not_eq_true'] at ho
  obtain ⟨⟨⟨⟨-, hb⟩, -⟩, -⟩, -⟩ := ho
  have hb := hb.resolve_left (by simp [hm])
  have hclass : (operandSpec (.shfl f) x.m x.f).b = [.v, .s, .zero, .imm] := by rw [hm]; rfl
  rw [hclass] at hb
  unfold operandOk at hb
  have hreg (hy : ∀ n, opnd x.f.b ≠ .special n) : x.f.b ≠ 0x679#12 := fun he => hy 0x679 (by rw [he]; decide)
  unfold shflArg Iss.b Iss.srcT
  cases hy : opnd x.f.b with
  | special y =>
    obtain rfl := opnd_special hy
    simp only [hy] at hb
    by_cases himm : x.f.b = 0x679#12
    · simp [himm]
    · have hz : x.f.b.toNat = 0x678 := by
        by_contra hz
        have hi : x.f.b.toNat ≠ 0x679 := fun hi => himm (BitVec.eq_of_toNat_eq hi)
        simp [hz, hi] at hb
      simp [hz, himm, Gang.regVal, hy, specialVal]
  | v k => simp [hreg (by simp [hy])]
  | s k => simp [hreg (by simp [hy])]
  | p k | n k | w k | reserved => simp [hy] at hb

theorem shfl_does (h : Ready (.shfl f) s g x) : DoesD (.shfl f) s x
    (fun l => x.g.regVal f.a (shflSource f.variant g.width (if f.b = 0x679#12 then f.imm.toNat else (x.b l).toNat) l)) 0#5 := by
  have hdoes := IsLaneForm.does (v := Iss.a) ⟨_, rfl, rfl, rfl, fun _ => rfl⟩ h
  obtain ⟨k, hk⟩ := h.source_v rfl rfl rfl
  obtain rfl := h.fields rfl
  have hwidth : x.g.width = g.width := by rw [h.reads]; rfl
  refine cast (congrArg (DoesD _ s x · 0#5) (funext fun l => ?_)) hdoes
  rw [Iss.a, srcT_v hk, h.instr, if_pos (by rfl), srcLane_shfl, shflArg_eq h, hwidth]

/-- R145: the immediate of BCAST is a lane number. -/
theorem bcast_lane_lt (h : Ready (.bcast f) s g x) (hv : f.variant = 0) : f.imm.toNat < 64 := by
  have himm := (h.accepts rfl).2
  simpa [ImmRule.accepts, hv] using himm

theorem bcast_does (h : Ready (.bcast f) s g x) :
    DoesD (.bcast f) s x (fun _ => x.g.regVal f.a (if f.variant = 0 then f.imm.toNat else x.low)) 0#5 := by
  have hdoes := IsLaneForm.does (v := Iss.a) ⟨_, rfl, rfl, rfl, fun _ => rfl⟩ h
  obtain ⟨k, hk⟩ := h.source_v rfl rfl rfl
  have hlt := bcast_lane_lt h
  obtain rfl := h.fields rfl
  refine cast (congrArg (DoesD _ s x · 0#5) (funext fun l => ?_)) hdoes
  rw [Iss.a, srcT_v hk, h.instr, if_pos (by rfl)]
  simp only [srcLane, (low_of h.someLane).1, Option.getD_some]
  split
  · next hv => rw [Nat.mod_eq_of_lt (hlt hv)]
  · rfl

/-! ### Sub-elements moved within a lane (R146, R151) -/

end

section

variable {t : Nat}

theorem packLane_whole (hc : 64 / typeWidth t = 1) (hi : Bool) (a b : W64) : packLane t hi a b = if hi then b else a := by
  simp only [packLane, hc, if_true]

theorem packLane_parts (hc : 64 / typeWidth t ≠ 1) (hi : Bool) (a b : W64) : packLane t hi a b =
    mapSubs (typeWidth t) fun j => subElem (if j % 2 = 0 then a else b) (typeWidth t) (if hi then 64 / typeWidth t / 2 + j / 2 else j / 2) := by
  simp only [packLane, hc, if_false]
  cases hi
  · rfl
  · simp only [if_true, Nat.add_comm]

theorem unpackLane_whole (hc : 64 / typeWidth t = 1) (a : W64) : unpackLane t a = a := by simp only [unpackLane, hc, if_true]

theorem unpackLane_parts (hc : 64 / typeWidth t ≠ 1) (a : W64) : unpackLane t a =
    mapSubs (typeWidth t) fun j => subElem a (typeWidth t) (if j < 64 / typeWidth t / 2 then 2 * j else 2 * (j - 64 / typeWidth t / 2) + 1) := by
  simp only [unpackLane, hc, if_false, apply_ite]

end
end Sys2Proof.Machine

namespace Sys2Proof

open Machine in
/-- Settles O13: each form is `IsLaneForm`; SHFL and BCAST read A in the lane of `srcLane_shfl` and `bcast_does`, and the elements of the
others are the model's own. -/
theorem laneMoves : Obligations.LaneMoves := by
  unfold Obligations.LaneMoves
  intro f s g x W w c sub
  refine ⟨shfl_does, bcast_does, fun h => ?_, fun h hc => ?_, fun h hc => ?_, fun h hc => ?_, fun h hc => ?_⟩
  -- SWZ
  · exact IsLaneForm.elems ⟨_, rfl, rfl, rfl, fun _ => rfl⟩ h (fun _ => rfl) fun l j => subElem_lt _ _ _
  -- PACK
  · refine cast (congrArg (DoesD (.pack f) s x · 0#5) (funext fun l => ?_)) (IsLaneForm.does ⟨_, rfl, rfl, rfl, fun _ => rfl⟩ h)
    rw [packLane_whole hc]
    exact if_congr beq_iff_eq rfl rfl
  · refine IsLaneForm.elems ⟨_, rfl, rfl, rfl, fun _ => rfl⟩ h (fun l => ?_) fun l j => subElem_lt _ _ _
    rw [packLane_parts hc]
    simp only [beq_iff_eq, c, w, sub]
  -- UNPACK
  · refine cast (congrArg (DoesD (.unpack f) s x · 0#5) (funext fun l => ?_)) (IsLaneForm.does ⟨_, rfl, rfl, rfl, fun _ => rfl⟩ h)
    exact unpackLane_whole hc _
  · exact IsLaneForm.elems ⟨_, rfl, rfl, rfl, fun _ => rfl⟩ h (fun l => unpackLane_parts hc _) fun l j => subElem_lt _ _ _

end Sys2Proof

namespace Sys2Proof.Machine

/-! ### Reductions: one lane value for every Active lane, with flags of the issue (R64, R147 to R149) -/

/-- The flags that n elements raise. -/
def flagsOver (n : Nat) (e : Nat → Flags) : Flags := (List.range n).foldl (fun fl j => fl ||| e j) 0#5

theorem flagsOver_zero {n : Nat} {e : Nat → Flags} (h : ∀ j, e j = 0#5) : flagsOver n e = 0#5 := by
  simp [flagsOver, h]

/-- A form whose flags belong to the issue, with a V or S destination: its lane values and its flags are h's. -/
def IsWholeForm (i : Instr) (f : Fields) (h : Iss → (Nat → W64) × Flags) : Prop :=
  ∃ m, i.form = some (m, f) ∧ m.useD = true ∧ (operandSpec i m f).d = clsVS ∧ ∀ s, exec i s = wholeForm i s h

section

variable {i : Instr} {f : Fields} {s : State} {g : Gang} {x : Iss}

theorem IsWholeForm.does {h : Iss → (Nat → W64) × Flags} (hi : IsWholeForm i f h) (hr : Ready i s g x)
    (hq : (h x).2 &&& fpEnables x.g.fpctl = 0#5) : DoesFill i s x .ready (x.dWrites (h x).1) (h x).2 true := by
  obtain ⟨m, hf, hu, hc, he⟩ := hi
  obtain ⟨rfl, rfl⟩ := hr.form_eq hf
  unfold DoesFill
  rw [he]
  exact wholeForm_does hr hu hc h (by simpa [Iss.quiet, allFlags] using hq)

/-- A reduction forms each sub-element e j with its flags. -/
theorem IsWholeForm.reduces {e : Iss → Nat → Nat × Flags} (hi : IsWholeForm i f fun x => reduceForm x e) (hr : Ready i s g x) {fl : Flags}
    (hfl : flagsOver (64 / typeWidth f.tcode) (fun j => (e x j).2) = fl) (hq : fl &&& fpEnables x.g.fpctl = 0#5) :
    ∃ v, DoesFill i s x .ready (x.dWrites fun _ => v) fl true ∧ Elements f.tcode v fun j => (e x j).1 % 2 ^ typeWidth f.tcode := by
  obtain rfl := hr.fields hi.choose_spec.1
  have hflags : (reduceForm x e).2 = fl := (fpLanes_flags _ _).trans hfl
  refine ⟨(reduceForm x e).1 0, ?_, fun j hj => ?_⟩
  · have hdoes := hi.does hr (by rw [hflags]; exact hq)
    rw [hflags] at hdoes
    exact hdoes
  · simp only [reduceForm, fpLanes_elem]
    exact mapSubs_elem _ (typeWidth_cases _) _ j hj

theorem isWholeForm_reda (f : Fields) : IsWholeForm (.reda f) f fun x => reduceForm x redaElem := ⟨_, rfl, rfl, rfl, fun _ => rfl⟩
theorem isWholeForm_redm (f : Fields) : IsWholeForm (.redm f) f fun x => reduceForm x redmElem := ⟨_, rfl, rfl, rfl, fun _ => rfl⟩
theorem isWholeForm_scan (f : Fields) : IsWholeForm (.scan f) f scanLanes := ⟨_, rfl, rfl, rfl, fun _ => rfl⟩

end

/-! ### REDA (R147) -/

theorem redaElem_int {x : Iss} (ht : typeIsFloat x.f.tcode = false) (j : Nat) :
    redaElem x j = (intSpec x.f.tcode (x.f.variant == 1) (x.lanes.map fun l => elt x.f.tcode (x.a l) j).sum, 0#5) := by
  simp [redaElem, ht, intSpec]

/-- A sum of two halves of which one may be missing. -/
def halves {α : Type} (add : α → α → α) : Option α → Option α → Option α
  | some a, some b => some (add a b)
  | some a, none => some a
  | none, y => y

theorem treeAt_succ {α : Type} (add : α → α → α) (leaf : Nat → Option α) (k l : Nat) :
    treeAt add leaf (k + 1) l = halves add (treeAt add leaf k l) (treeAt add leaf k (l + 2 ^ k)) := by
  simp only [treeAt]
  cases treeAt add leaf k l <;> cases treeAt add leaf k (l + 2 ^ k) <;> rfl

/-- The tree over the leaves is the tree over their pairs. -/
theorem treeAt_pairs {α : Type} (add : α → α → α) (leaf : Nat → Option α) (k l : Nat) :
    treeAt add leaf (k + 1) (2 * l) = treeAt add (fun i => halves add (leaf (2 * i)) (leaf (2 * i + 1))) k l := by
  induction k generalizing l with
  | zero => exact treeAt_succ add leaf 0 (2 * l)
  | succ k ih => rw [treeAt_succ, treeAt_succ _ _ k l, ← ih, ← ih, pow_succ', Nat.mul_add]

section

variable (F : Fmt) (ftz : Bool) (mode : Nat)

/-- R147: the sum of two halves of a node, with the flags of both and its own. -/
def nodeSum (a b : FVal × Flags) : FVal × Flags :=
  let r := F.sum ftz mode [a.1, b.1]
  (F.unpack r.1, a.2 ||| b.2 ||| r.2)

theorem treeNode_eq (a b : Option (FVal × Flags)) : treeNode F ftz mode a b = halves (nodeSum F ftz mode) a b := by
  cases a <;> cases b <;> rfl

theorem treeLevel_range (leaf : Nat → Option (FVal × Flags)) (n : Nat) : treeLevel F ftz mode ((List.range (2 * n)).map leaf) =
    (List.range n).map fun i => halves (nodeSum F ftz mode) (leaf (2 * i)) (leaf (2 * i + 1)) := by
  induction n generalizing leaf with
  | zero => rfl
  | succ n ih =>
    have hpair : (List.range (2 * (n + 1))).map leaf = leaf 0 :: leaf 1 :: (List.range (2 * n)).map fun l => leaf (l + 2) := by
      simp [Nat.mul_add, List.range_succ_eq_map, Function.comp_def]
    rw [hpair, treeLevel, treeNode_eq, ih, List.range_succ_eq_map, List.map_cons, List.map_map]
    rfl

theorem treeSum_range (leaf : Nat → Option (FVal × Flags)) (k : Nat) :
    treeSum F ftz mode k ((List.range (2 ^ k)).map leaf) = treeAt (nodeSum F ftz mode) leaf k 0 := by
  induction k generalizing leaf with
  | zero => rfl
  | succ k ih => rw [treeSum, pow_succ', treeLevel_range, ih]; exact (treeAt_pairs _ leaf k 0).symm

end

theorem redaElem_float {x : Iss} (ht : typeIsFloat x.f.tcode = true) {levels : Nat} (hw : x.g.width = 2 ^ levels) (j : Nat) :
    let F := fmtOf x.f.tcode
    let sum := (treeAt (nodeSum F x.ftz x.mode) (fun l => if x.active.getLsbD l then some (x.fpElt x.f.tcode (x.a l) j) else none) levels 0).getD
      (.fin false 0 0, 0#5)
    redaElem x j = (F.image sum.1, sum.2) := by
  intro F sum
  unfold redaElem
  simp only [ht, if_true, hw, Nat.log2_two_pow, treeSum_range, sum]
  split
  · next r hr => rw [hr]; rfl
  · next hr => rw [hr]; rfl

/-! ### REDM (R148) -/

/-- A fold that keeps the better of two keeps one of the list, and none of the list is better. -/
theorem foldl_best {α : Type} (le : α → α → Prop) (pick : α → α → α) (hle : ∀ a, le a a) (htrans : ∀ {a b c}, le a b → le b c → le a c)
    (hpick : ∀ a b, (pick a b = a ∨ pick a b = b) ∧ le (pick a b) a ∧ le (pick a b) b) (es : List α) (e : α) :
    es.foldl pick e ∈ e :: es ∧ ∀ a ∈ e :: es, le (es.foldl pick e) a := by
  induction es generalizing e with
  | nil => simp [hle]
  | cons b es ih =>
    obtain ⟨hmem, hbest⟩ := ih (pick e b)
    obtain ⟨hone, hea, heb⟩ := hpick e b
    have hkept : le (es.foldl pick (pick e b)) (pick e b) := hbest _ List.mem_cons_self
    rw [List.foldl_cons]
    refine ⟨?_, fun a ha => ?_⟩
    · rcases List.mem_cons.1 hmem with h | h
      · rw [h]
        rcases hone with h | h <;> simp [h]
      · simp [h]
    · rcases List.mem_cons.1 ha with rfl | ha
      · exact htrans hkept hea
      · rcases List.mem_cons.1 ha with rfl | ha
        · exact htrans hkept heb
        · exact hbest a (List.mem_cons_of_mem _ ha)

section

variable {t v : Nat}

/-- R148: an integer sub-element a is as good as b for the minimum (v = 0) or the maximum. -/
def RedmLe (t v a b : Nat) : Prop := if v = 0 then intElem t a ≤ intElem t b else intElem t b ≤ intElem t a

/-- R148: the better of two sub-elements. -/
def redmPick (t v r b : Nat) : Nat := if (v % 2 == 1) == decide (intElem t r < intElem t b) then b else r

theorem RedmLe.refl (a : Nat) : RedmLe t v a a := by
  unfold RedmLe
  split <;> exact le_rfl

theorem RedmLe.trans {a b c : Nat} (h : RedmLe t v a b) (h' : RedmLe t v b c) : RedmLe t v a c := by
  unfold RedmLe at *
  by_cases h0 : v = 0
  · simp only [h0, if_true] at *
    exact h.trans h'
  · simp only [h0, if_false] at *
    exact h'.trans h

theorem redmPick_spec (hv : v < 2) (a b : Nat) :
    (redmPick t v a b = a ∨ redmPick t v a b = b) ∧ RedmLe t v (redmPick t v a b) a ∧ RedmLe t v (redmPick t v a b) b := by
  unfold redmPick RedmLe
  obtain rfl | rfl : v = 0 ∨ v = 1 := by omega
  all_goals
    by_cases hlt : intElem t a < intElem t b
    · simp [hlt, hlt.le]
    · simp [hlt, not_lt.1 hlt]

end

section

variable {f : Fields} {s : State} {g : Gang} {x : Iss}

/-- R148: an integer REDM takes the minimum or the maximum. -/
theorem redm_int_variant (h : Ready (.redm f) s g x) (ht : typeIsFloat f.tcode = false) : f.variant < 2 := by
  have hmod := (h.accepts rfl).1
  simpa [ModRule.accepts, ht] using hmod

/-- R148: of an integer type, the sub-element is that of an Active lane, and none of an Active lane is better. -/
theorem redmElem_int (ht : typeIsFloat x.f.tcode = false) (hx : x.active ≠ 0#64) (hv : x.f.variant < 2) (j : Nat) :
    (redmElem x j).2 = 0#5 ∧ (∃ l, x.has l ∧ (redmElem x j).1 = subElem (x.a l) (typeWidth x.f.tcode) j) ∧
    ∀ l, x.has l → RedmLe x.f.tcode x.f.variant (redmElem x j).1 (subElem (x.a l) (typeWidth x.f.tcode) j) := by
  obtain ⟨e, es, hes⟩ := List.exists_cons_of_ne_nil
    (mt List.map_eq_nil_iff.1 (lanes_ne_nil hx) : x.lanes.map (fun l => subElem (x.a l) (typeWidth x.f.tcode) j) ≠ [])
  have hmem {a : Nat} : a ∈ e :: es ↔ ∃ l, x.has l ∧ a = subElem (x.a l) (typeWidth x.f.tcode) j := by
    rw [← hes]
    simp only [List.mem_map, Iss.lanes, mem_lanesOf, Iss.has, eq_comm]
  have hr : redmElem x j = (es.foldl (redmPick x.f.tcode x.f.variant) e, 0#5) := by
    simp only [redmElem, hes, ht, Bool.false_eq_true, if_false]
    rfl
  obtain ⟨hone, hbest⟩ := foldl_best (RedmLe x.f.tcode x.f.variant) (redmPick x.f.tcode x.f.variant) .refl .trans (redmPick_spec hv) es e
  rw [hr]
  exact ⟨rfl, hmem.1 hone, fun l hl => hbest _ (hmem.2 ⟨l, hl, rfl⟩)⟩

end

/-! ### SCAN (R149) -/

section

variable (x : Iss) (j : Nat)

/-- R149: sub-element j of a lane as a scan reads it, with its flags. -/
def scanRead (l : Nat) : Nat × Flags :=
  if typeIsFloat x.f.tcode then ((fmtOf x.f.tcode).image (x.fpElt x.f.tcode (x.a l) j).1, (x.fpElt x.f.tcode (x.a l) j).2)
  else (subElem (x.a l) (typeWidth x.f.tcode) j, 0#5)

/-- R149: one step of a scan from the sum so far. -/
def scanPlus (r a : Nat) : Nat × Flags :=
  if typeIsFloat x.f.tcode then
    (fmtOf x.f.tcode).sum x.ftz (fpRM x.g.fpctl) [(fmtOf x.f.tcode).unpack r, (fmtOf x.f.tcode).unpack a]
  else ((r + a) % 2 ^ typeWidth x.f.tcode, 0#5)

/-- R149: the same with the flags of all that went into it. -/
def scanAdd (r a : Nat × Flags) : Nat × Flags := ((scanPlus x r.1 a.1).1, r.2 ||| a.2 ||| (scanPlus x r.1 a.1).2)

/-- R149: the running sum at the Active lane of rank k. -/
def scanRun : Nat → Nat × Flags := scanAt (scanAdd x) fun k => scanRead x j (x.lanes.getD k 0)

/-- R149: what a scan writes at the Active lane of rank k: the running sum there, or for `.EX` the one before it. -/
def scanOut (k : Nat) : Nat := if x.f.variant = 1 then if k = 0 then 0 else (scanRun x j (k - 1)).1 else (scanRun x j k).1

/-- R149: the scan of a lane, from the lanes written, the running sum and the flags so far. -/
def scanStep (acc : List (Nat × Nat) × Option Nat × Flags) (l : Nat) : List (Nat × Nat) × Option Nat × Flags :=
  let a := scanRead x j l
  let q := match acc.2.1 with
    | none => (a.1, 0#5)
    | some r => scanPlus x r a.1
  (acc.1 ++ [(l, if x.f.variant = 1 then acc.2.1.getD 0 else q.1)], some q.1, acc.2.2 ||| a.2 ||| q.2)

theorem scanElem_eq_foldl : scanElem x j =
    ((x.lanes.foldl (scanStep x j) ([], none, 0#5)).1, (x.lanes.foldl (scanStep x j) ([], none, 0#5)).2.2) := by
  cases ht : typeIsFloat x.f.tcode
  all_goals
    unfold scanElem scanStep scanRead scanPlus
    simp only [ht] <;> rfl

/-- R149: the scan after the lanes of ranks 0 to k. -/
theorem foldl_scanStep (k : Nat) : ((List.range (k + 1)).map (x.lanes.getD · 0)).foldl (scanStep x j) ([], none, 0#5) =
    ((List.range (k + 1)).map fun i => (x.lanes.getD i 0, scanOut x j i), some (scanRun x j k).1, (scanRun x j k).2) := by
  induction k with
  | zero => simp [scanStep, scanOut, scanRun, scanAt]
  | succ k ih =>
    rw [List.range_succ, List.map_append, List.foldl_append, ih, List.map_append]
    simp [scanStep, scanOut, scanRun, scanAt, scanAdd]

theorem map_getD_range (ls : List Nat) {n : Nat} (hn : n ≤ ls.length) : (List.range n).map (ls.getD · 0) = ls.take n := by
  refine List.ext_getElem (by simp [hn]) fun i hi _ => ?_
  simp only [List.length_map, List.length_range] at hi
  simp [List.getD_eq_getElem?_getD, hi.trans_le hn]

variable {x} in
theorem scanElem_eq (hx : x.active ≠ 0#64) : scanElem x j =
    ((List.range x.lanes.length).map fun i => (x.lanes.getD i 0, scanOut x j i), (scanRun x j (x.lanes.length - 1)).2) := by
  obtain ⟨n, hn⟩ : ∃ n, x.lanes.length = n + 1 := Nat.exists_eq_succ_of_ne_zero (mt List.length_eq_zero_iff.1 (lanes_ne_nil hx))
  have hlanes : (List.range (n + 1)).map (x.lanes.getD · 0) = x.lanes := by rw [map_getD_range _ hn.ge, ← hn, List.take_length]
  have hfold := foldl_scanStep x j n
  rw [hlanes] at hfold
  rw [scanElem_eq_foldl, hfold, hn]
  rfl

/-- The Active lanes in order. -/
theorem lanes_sorted : x.lanes.Pairwise (· < ·) := List.pairwise_lt_range.filter _

variable {x} {j} in
/-- R149: the value that a scan found at a rank is the lane's there. -/
theorem scanElem_find (hx : x.active ≠ 0#64) {k l : Nat} (hk : x.lanes[k]? = some l) :
    (((scanElem x j).1.find? fun p => p.1 == l).map Prod.snd).getD 0 = scanOut x j k := by
  have hlt : k < x.lanes.length := (List.getElem?_eq_some_iff.1 hk).1
  have hrank : (List.range x.lanes.length).find? ((fun p : Nat × Nat => p.1 == l) ∘ fun i => (x.lanes.getD i 0, scanOut x j i)) = some k := by
    rw [List.find?_range_eq_some]
    refine ⟨by simp [hk], by simpa using hlt, fun i hi => ?_⟩
    obtain ⟨-, rfl⟩ := List.getElem?_eq_some_iff.1 hk
    simpa [hi.trans hlt] using (List.pairwise_iff_getElem.1 (lanes_sorted x) i k (hi.trans hlt) hlt hi).ne
  rw [scanElem_eq j hx, List.find?_map, hrank]
  rfl

end

section

variable {f : Fields} {s : State} {g : Gang} {x : Iss}

theorem scanLanes_fst (x : Iss) (l : Nat) : (scanLanes x).1 l = mapSubs (typeWidth x.f.tcode) fun j =>
    (((scanElem x j).1.find? fun p => p.1 == l).map Prod.snd).getD 0 := by
  simp only [scanLanes, mapSubs, List.map_map, Function.comp_def]

theorem scanLanes_snd (x : Iss) : (scanLanes x).2 = flagsOver (64 / typeWidth x.f.tcode) fun j => (scanElem x j).2 := List.foldl_map

/-- R149: a SCAN writes `scanOut` of each sub-element in every Active lane. -/
theorem scan_does (h : Ready (.scan f) s g x) {fl : Flags}
    (hfl : flagsOver (64 / typeWidth f.tcode) (fun j => (scanRun x j (x.lanes.length - 1)).2) = fl) (hq : fl &&& fpEnables x.g.fpctl = 0#5) :
    ∃ v, DoesFill (.scan f) s x .ready (x.dWrites v) fl true ∧
      ∀ k l, x.lanes[k]? = some l → Elements f.tcode (v l) fun j => scanOut x j k % 2 ^ typeWidth f.tcode := by
  obtain rfl := h.fields rfl
  have hflags : (scanLanes x).2 = fl := by rw [scanLanes_snd, ← hfl]; simp only [scanElem_eq _ h.someLane]
  refine ⟨(scanLanes x).1, ?_, fun k l hk j hj => ?_⟩
  · have hdoes := (isWholeForm_scan _).does h (by rw [hflags]; exact hq)
    rwa [hflags] at hdoes
  · rw [scanLanes_fst, mapSubs_elem _ (typeWidth_cases _) _ j hj, scanElem_find h.someLane hk]

/-- R149: the running sum of an integer scan. -/
theorem scanRun_int (ht : typeIsFloat x.f.tcode = false) (j k : Nat) : scanRun x j k =
    (((List.range (k + 1)).map fun i => subElem (x.a (x.lanes.getD i 0)) (typeWidth x.f.tcode) j).sum % 2 ^ typeWidth x.f.tcode, 0#5) := by
  induction k with
  | zero => simp [scanRun, scanAt, scanRead, ht, Nat.mod_eq_of_lt (subElem_lt _ _ _)]
  | succ k ih =>
    unfold scanRun at *
    rw [scanAt, ih, List.range_succ (n := k + 1), List.map_append, List.sum_append]
    simp only [scanAdd, scanPlus, scanRead, ht, Bool.false_eq_true, if_false, Nat.mod_add_mod, List.map_cons, List.map_nil, List.sum_singleton,
      BitVec.or_self]

end

/-- In a rising list, the members up to that of rank k are the first k + 1, and those below it the first k. -/
theorem filter_rank {ls : List Nat} (hs : ls.Pairwise (· < ·)) {k l : Nat} (hk : ls[k]? = some l) :
    ls.filter (· ≤ l) = ls.take (k + 1) ∧ ls.filter (· < l) = ls.take k := by
  induction ls generalizing k with
  | nil => simp at hk
  | cons a ls ih =>
    obtain ⟨ha, hs⟩ := List.pairwise_cons.1 hs
    cases k with
    | zero =>
      obtain rfl : a = l := by simpa using hk
      have hnone : ls.filter (· ≤ a) = [] ∧ ls.filter (· < a) = [] := by
        simp only [List.filter_eq_nil_iff, decide_eq_true_eq, not_le, not_lt]
        exact ⟨ha, fun b hb => (ha b hb).le⟩
      simp [hnone]
    | succ k =>
      rw [List.getElem?_cons_succ] at hk
      have hl := ha l (List.mem_of_getElem? hk)
      simp [ih hs hk, hl, hl.le]

/-- R149: an integer scan sums the Active lanes up to the lane, or for `.EX` those below it. -/
theorem scanOut_int {x : Iss} (ht : typeIsFloat x.f.tcode = false) (j : Nat) {k l : Nat} (hk : x.lanes[k]? = some l) : scanOut x j k =
    ((x.lanes.filter fun k => if x.f.variant = 1 then k < l else k ≤ l).map fun k => subElem (x.a k) (typeWidth x.f.tcode) j).sum %
      2 ^ typeWidth x.f.tcode := by
  obtain ⟨hle, hlt⟩ := filter_rank (lanes_sorted x) hk
  have hlen : k < x.lanes.length := (List.getElem?_eq_some_iff.1 hk).1
  have hrun {n : Nat} (hn : n < x.lanes.length) : (scanRun x j n).1 =
      ((x.lanes.take (n + 1)).map fun k => subElem (x.a k) (typeWidth x.f.tcode) j).sum % 2 ^ typeWidth x.f.tcode := by
    rw [scanRun_int ht, ← map_getD_range _ hn, List.map_map]
    rfl
  unfold scanOut
  by_cases hv : x.f.variant = 1
  · simp only [hv, if_true, hlt]
    cases k with
    | zero => simp
    | succ k => exact hrun (Nat.lt_of_succ_lt hlen)
  · simp only [hv, if_false, hle]
    exact hrun hlen

/-! ### MATCH (R150) -/

section

variable {f : Fields} {s : State} {g : Gang} {x : Iss}

theorem match_does (h : Ready (.matchLanes f) s g x) : DoesFill (.matchLanes f) s x .ready (x.dWrites (matchVal x)) 0#5 false := by
  show ∃ t, execMatchLanes f s = .next t ∧ _
  refine runIssue_fill h _ .ready _ (dWrites_no_p x _) _ false ?_
  simp only [if_neg h.someLane]
  rw [fill_eq _ _ _ _ _ (dWrites_ne_nil h.someLane (h.dest rfl rfl rfl) _)]

/-- R150: the Active lanes whose whole value of A is that of lane l. -/
def Iss.alike (x : Iss) (l : Nat) : List Nat := x.lanes.filter fun k => x.a k == x.a l

theorem lanes_lt {l : Nat} (hl : l ∈ x.lanes) : l < 64 := BitVec.lt_of_getLsbD ((mem_lanesOf _ _).1 hl)

theorem w64_toNat {n : Nat} (hn : n ≤ 64) : (w64 n).toNat = n := by
  rw [w64, BitVec.toNat_ofNat, Nat.mod_eq_of_lt (by omega)]

/-- A part of the Active lanes has no more than 64 members. -/
theorem length_filter_lanes (p : Nat → Bool) : (x.lanes.filter p).length ≤ 64 := by
  have hlanes : x.lanes.length ≤ 64 := (List.length_filter_le _ _).trans (List.length_range (n := 64)).le
  exact (List.length_filter_le _ _).trans hlanes

theorem matchVal_mask (hv : x.f.variant = 0) (l : Nat) {k : Nat} (hk : k < 64) :
    (matchVal x l).getLsbD k = (x.active.getLsbD k && x.a k == x.a l) := by
  have hval : matchVal x l = maskOf fun k => (x.alike l).contains k := by
    unfold matchVal
    simp only [hv]
    rfl
  have hlane : k ∈ x.lanes ↔ x.active.getLsbD k = true := mem_lanesOf _ _
  rw [hval, maskOf_getLsbD, decide_eq_true hk, Bool.true_and, Bool.eq_iff_iff, List.contains_iff_mem, Iss.alike, List.mem_filter, hlane,
    Bool.and_eq_true]

theorem matchVal_first (hv : x.f.variant = 1) {l : Nat} (hl : x.has l) : some (matchVal x l).toNat = (x.alike l).head? := by
  have hmem : l ∈ x.alike l := List.mem_filter.2 ⟨(mem_lanesOf _ _).2 hl, beq_self_eq_true _⟩
  have hval : matchVal x l = w64 ((x.alike l).headD 0) := by
    unfold matchVal
    simp only [hv]
    rfl
  obtain ⟨k, ks, hks⟩ := List.exists_cons_of_ne_nil (List.ne_nil_of_mem hmem)
  have hk : k ∈ x.lanes := (List.mem_filter.1 (hks ▸ List.mem_cons_self : k ∈ x.alike l)).1
  rw [hval, hks, List.headD_cons, w64_toNat (lanes_lt hk).le, List.head?_cons]

theorem matchVal_rank (hv : x.f.variant = 2) (l : Nat) : (matchVal x l).toNat = ((x.alike l).filter fun k => k < l).length := by
  unfold matchVal
  simp only [hv]
  exact w64_toNat ((List.length_filter_le _ _).trans (length_filter_lanes _))

theorem matchVal_count (h0 : x.f.variant ≠ 0) (h1 : x.f.variant ≠ 1) (h2 : x.f.variant ≠ 2) (l : Nat) :
    (matchVal x l).toNat = (x.alike l).length := by
  unfold matchVal
  split
  case h_4 => exact w64_toNat (length_filter_lanes _)
  all_goals contradiction

end

end Sys2Proof.Machine

namespace Sys2Proof

open Machine in
/-- Settles O14: REDA and REDM are `IsWholeForm.reduces` with the elements of `redaElem_int`, `redaElem_float` and `redmElem_int`, SCAN is
`scan_does` with `scanOut_int`, and MATCH is `match_does`. -/
theorem reductions : Obligations.Reductions := by
  unfold Obligations.Reductions
  intro f s g x t w n val quiet
  refine ⟨fun h ht => ?_, fun h ht => ?_, fun h ht => ?_, ?_⟩
  -- REDA, REDM and SCAN of an integer type
  · obtain rfl := h.fields rfl
    obtain ⟨v, hfill, hv⟩ := (isWholeForm_reda _).reduces h (flagsOver_zero fun j => by rw [redaElem_int ht]) BitVec.zero_and
    refine ⟨v, hfill, fun j hj => ?_⟩
    have hj := hv j hj
    simp only [redaElem_int ht] at hj
    exact hj.trans (Nat.mod_eq_of_lt (wrapInt_lt _ _))
  · have hvariant := redm_int_variant h ht
    obtain rfl := h.fields rfl
    have hspec := redmElem_int ht h.someLane hvariant
    obtain ⟨v, hfill, hv⟩ := (isWholeForm_redm _).reduces h (flagsOver_zero fun j => (hspec j).1) BitVec.zero_and
    refine ⟨v, hfill, fun j hj => ?_⟩
    obtain ⟨-, ⟨l, hl, he⟩, hbest⟩ := hspec j
    have hsub : subElem v w j = (redmElem x j).1 :=
      (hv j hj).trans (Nat.mod_eq_of_lt (by rw [he]; exact subElem_lt _ _ _))
    refine ⟨⟨l, hl, hsub.trans he⟩, fun l hl => ?_⟩
    have hb := hbest l hl
    rw [← hsub] at hb
    exact hb
  · obtain rfl := h.fields rfl
    obtain ⟨v, hfill, hv⟩ := scan_does h (flagsOver_zero fun j => by rw [scanRun_int ht]) BitVec.zero_and
    refine ⟨v, hfill, fun l hl j hj => ?_⟩
    obtain ⟨k, hk⟩ := List.mem_iff_getElem?.1 ((mem_lanesOf x.active l).2 hl)
    have hj := hv k l hk j hj
    simp only [scanOut_int ht j hk, Nat.mod_mod] at hj
    exact hj
  intro F read flagsOf
  refine ⟨?_, ?_, ?_, fun h => ?_⟩
  -- REDA, REDM and SCAN of a floating type
  · intro levels h ht hwidth add sum fl hq
    obtain rfl := h.fields rfl
    have helem (j : Nat) : redaElem x j = (F.image (sum j).1, (sum j).2) := redaElem_float ht hwidth j
    obtain ⟨v, hfill, hv⟩ := (isWholeForm_reda _).reduces h (fl := fl) (by simp only [helem]; rfl) hq
    simp only [helem] at hv
    exact ⟨v, hfill, hv⟩
  · intro h ht pick of fl hq
    obtain rfl := h.fields rfl
    have hfloat : typeIsFloat x.f.tcode = true := ht
    have helem (j : Nat) : redmElem x j = of j := by simp only [redmElem, hfloat, if_true]; rfl
    obtain ⟨v, hfill, hv⟩ := (isWholeForm_redm _).reduces h (fl := fl) (by simp only [helem]; rfl) hq
    simp only [helem] at hv
    exact ⟨v, hfill, hv⟩
  · intro h ht add run fl hq
    obtain rfl := h.fields rfl
    have hrun (j k : Nat) : scanRun x j k = run j k := by
      have hfloat : typeIsFloat x.f.tcode = true := ht
      unfold scanRun scanAdd scanPlus scanRead
      simp only [hfloat, if_true]
      rfl
    obtain ⟨v, hfill, hv⟩ := scan_does h (fl := fl) (by simp only [hrun]; rfl) hq
    simp only [scanOut, hrun] at hv
    exact ⟨v, hfill, hv⟩
  -- MATCH
  · obtain rfl := h.fields rfl
    refine ⟨_, match_does h, fun l hl => ?_⟩
    intro same
    split
    · next hv => exact fun k hk => matchVal_mask hv l hk
    · next hv => exact matchVal_first hv hl
    · next hv => exact matchVal_rank hv l
    · next h0 h1 h2 => exact matchVal_count h0 h1 h2 l

end Sys2Proof

namespace Sys2Proof.Machine

/-! ### The start of an issue whose form may refuse it unread (R159) -/

section

variable {i : Instr} {s : State} {g : Gang} {x : Iss} {early : Fields → Gang → Early} {c : Nat}

theorem beginIssue_unread (h : Ready i s g x) (he : early x.f (g.seen x.set) = .unread c) :
    beginIssue s i x.m x.f x.ref g x.who x.task early = .trap (.plain c x.active) := by
  have ha : activeOf (g.seen x.set) x.f x.set = x.active := by rw [h.lanes, h.reads]; rfl
  have hguard : (decide (x.f.gp.toNat ≠ 7) && (g.seen x.set).regParity (opndP x.f.gp.toNat)) = false := by
    rcases h.guardParity with h7 | hp
    · simp [h7]
    · rw [hp, Bool.and_false]
  have hoperands : operandsOk i x.m x.f (g.seen x.set).regs = true := h.operands
  unfold beginIssue
  rw [h.chosen]
  simp only [ha, hguard, hoperands, he, h.opcode, h.viewParity, h.views, h.guardFull, h.someLane, h.unlent, Bool.not_true, Bool.false_and,
    Bool.false_eq_true, if_false]

/-- R301: an issue that meets no other cause takes the one that its form has before it reads anything. -/
theorem runIssueWith_unread (h : Ready i s g x) (he : early x.f (g.seen x.set) = .unread c) (body : Iss → State → Res) :
    runIssueWith i early s body = .next (trapIssue s i x.f x.ref x.who x.task x.pc x.set x.active (.plain c x.active)) := by
  unfold runIssueWith
  rw [h.form, h.current]
  simp only [h.present, h.party, h.task, beginIssue_unread h he, h.chosen]
  rfl

end

/-! ### CHRUN (R159) -/

section

variable {f : Fields} {s : State} {g : Gang} {x : Iss}

/-- What an issue sees of a chain slot is what the state holds. -/
theorem chainSlot_start (x : Iss) (s : State) (key : Nat) : chainSlot (x.start s) key = chainSlot s key := by
  rw [chainSlot, Iss.start, State.setGang_chains, chainSlot]

/-- R159: a run of a slot with nothing waiting may begin where the slot is valid and the task's own. -/
theorem chrunEarly_eq (h : Ready (.chrun f) s g x) (g' : Gang) (hw : (chainSlot s (chainKey x.ref (f.mod.toNat % 2))).waiting = []) :
    chrunEarly s f g' =
      let c := chainSlot s (chainKey x.ref (f.mod.toNat % 2))
      if c.valid && c.owner == x.who.slot then .go else .unread 0x1B := by
  unfold chrunEarly
  simp only [h.current, h.party, hw, Option.any_some]
  rfl

theorem chrun_does (h : Ready (.chrun f) s g x) {c : ChainSlot} (hc : chainSlot s (chainKey x.ref (f.mod.toNat % 2)) = c)
    (hw : c.waiting = []) (hv : c.valid = true) (ho : c.owner = x.who.slot) :
    DoesFill (.chrun f) s x (.chain (f.mod.toNat % 2)) (x.dWrites (chrunVal x c)) 0#5 false := by
  subst hc
  obtain rfl := h.fields rfl
  have hgo : chrunEarly s x.f (g.seen x.set) = .go := by simp [chrunEarly_eq h _ hw, hv, ho]
  unfold DoesFill
  rw [show exec (.chrun x.f) s = execChrun x.f s from rfl, execChrun, runIssueWith_ready h hgo]
  refine ⟨_, rfl, ?_⟩
  simp only [if_neg h.someLane]
  rw [finishIssue_ok h.unbroken]
  exact commit_FillResult h.present h.reads _ _ (dWrites_no_p x _) _ _

theorem chrun_traps (h : Ready (.chrun f) s g x) {c : ChainSlot} (hc : chainSlot s (chainKey x.ref (f.mod.toNat % 2)) = c)
    (hw : c.waiting = []) (hv : c.valid = false ∨ c.owner ≠ x.who.slot) : Traps (.chrun f) s x s (.plain 0x1B x.active) := by
  subst hc
  obtain rfl := h.fields rfl
  have hunread : chrunEarly s x.f (g.seen x.set) = .unread 0x1B := by
    rw [chrunEarly_eq h _ hw]
    rcases hv with hv | hv <;> simp [hv]
  unfold Traps
  rw [show exec (.chrun x.f) s = execChrun x.f s from rfl, execChrun, runIssueWith_unread h hunread]

end

/-! ### Micro-operations of an integer type (R156) -/

section

variable {t : Nat}

theorem intOp_elements {v : W64} {h : Nat → Int} (hv : v = intLanes t false h) : Elements t v fun j => wrapInt (h j) (typeWidth t) :=
  hv ▸ intLanes_elements t false h

/-- R156: a select takes each sub-element whole from one of two values. -/
theorem select_elements (t : Nat) (x y z : W64) :
    let w := typeWidth t
    let pick (j : Nat) : Nat := if subElem z w j ≠ 0 then subElem x w j else subElem y w j
    Elements t (mapSubs w pick) pick :=
  mapSubs_elements t _ fun _ => by split <;> exact subElem_lt _ _ _

end

end Sys2Proof.Machine

namespace Sys2Proof

open Machine in
/-- Settles O22: CHRUN by what it may begin with (`chrunEarly_eq`), and each micro-operation of an integer type by its function of the
sub-elements. -/
theorem chainRuns : Obligations.ChainRuns := by
  unfold Obligations.ChainRuns
  refine ⟨?_, ?_⟩
  · intro f s g x h k c hw
    have hc : chainSlot s (chainKey x.ref (f.mod.toNat % 2)) = c := (chainSlot_start x s _).symm
    exact ⟨chrun_does h hc hw, chrun_traps h hc hw⟩
  · intro t aux x y z ht e w
    have hfloat : typeIsFloat t = false := by simp [typeIsFloat]; omega
    unfold chainOp
    simp only [hfloat, Bool.false_eq_true, if_false]
    refine ⟨trivial, intOp_elements rfl, intOp_elements rfl, intOp_elements rfl, intOp_elements rfl, intOp_elements rfl, intOp_elements rfl,
      ?_, intOp_elements rfl, select_elements t x y z, trivial, trivial, trivial⟩
    refine intOp_elements (congrArg (intLanes t false) (funext fun j => ?_))
    show ((e x j).natAbs : Int) = if e x j < 0 then -e x j else e x j
    split <;> omega

end Sys2Proof

namespace Sys2Proof.Machine

/-! ### Issues of a given state -/

/-- The issue of a form by a gang, its lane set given. -/
def Gang.issue (g : Gang) (who : Who) (task : Task) (i : Instr) (m : Form) (f : Fields) (pc : W64) (set : LaneMask) : Iss :=
  let active := activeOf (g.seen set) f set
  { ref := who.g, g := (g.seen set).holding (holdOf m f active), who, task, i, m, f, pc, set, active }

/-- None of the checks of `Ready` finds anything. -/
abbrev Iss.Unhindered (x : Iss) (s : State) (g : Gang) : Prop :=
  let q := g.seen x.set
  x.active ≠ 0#64 ∧ badWord x.i x.m x.f q = false ∧ operandsOk x.i x.m x.f g.regs = true ∧ badViews x.i x.f q = false ∧
  lentTouched x.i x.m x.f q = none ∧ viewParity x.i x.f q = false ∧ (x.f.gp.toNat = 7 ∨ q.regParity (opndP x.f.gp.toNat) = false) ∧
  sourceParity x.i x.m x.f q = false ∧ guardEmpty q x.f x.set = false ∧ (∀ hint, emptySource x.i x.m x.f q x.active hint = false) ∧
  (poisonTrap x.i x.m x.f q x.active).isNone = true ∧ correctable x.i x.m x.f q x.active = false ∧
  emptyDest x.i x.m x.f q x.active = false ∧ ((viewUses x.i x.f).any fun v => v.dst && !q.viewReady (g.wReg v.w)) = false ∧
  heldByMxop s x.ref x.i x.m x.f q = false ∧ breakLanes s x = 0#64

theorem Gang.issue_ready {s : State} {g : Gang} {who : Who} {task : Task} {i : Instr} {m : Form} {f : Fields} {pc : W64} {set : LaneMask}
    (hcur : s.cur = some who.g) (hgang : s.gang? who.g = some g) (hwho : s.who who.g = some who) (htask : s.task? who.slot = some task)
    (hform : i.form = some (m, f)) (hset : g.chooseSet = some (pc, set)) (hclear : (g.issue who task i m f pc set).Unhindered s g) :
    Ready i s g (g.issue who task i m f pc set) := by
  obtain ⟨hactive, hword, hoperands, hviews, hlent, hviewParity, hguardParity, hparity, hguard, hsources, hpoison, hcorr, hdest, hdestViews,
    hheld, hbreak⟩ := hclear
  exact ⟨hcur, hgang, hwho, htask, rfl, hform, hset, rfl, rfl, hactive, hword, hoperands, hviews, hlent, hviewParity, hguardParity, hparity,
    hguard, hsources, Option.isNone_iff_eq_none.1 hpoison, hcorr, hdest, hdestViews, hheld, hbreak⟩

/-- The module with a word at its gang's PC, as the gang issues it, with a gang table given. -/
def issuing (gangs : KMap Gang) : State := { placeWord State.reset 0#96 with cur := some ⟨0, 0, 0⟩, gangs }

/-- The gang of that module: slot 0 of partition 0 of core 0, of task slot 0. -/
def issuingWho : Who := { g := ⟨0, 0, 0⟩, core := 0, ctx := 0, slot := 0, team := 0, index := 0, half := 0 }
def issuingTask : Task := { codeTask with placed := 1, codeBase := putBytes [] 0x1000 (bytesOfWord 0#96) }

theorem issuing_gang (g : Gang) (gs : KMap Gang) : (issuing ((0, g) :: gs)).gang? issuingWho.g = some g := by
  show KMap.get? ((0, g) :: gs) 0 = some g
  rfl

/-- The fields of a form under P7, without hints. -/
def formFields (d a : W12) : Fields := ⟨false, 7#3, d, a, 0#12, 0#32, false, false, false, false, false, false, 0#2, 0#6⟩

/-! ### CHQRY (R160) -/

section

variable {f : Fields} {s : State} {g : Gang} {x : Iss}

theorem chqry_does (h : Ready (.chqry f) s g x) :
    DoesD (.chqry f) s x (fun _ => chqryVal (x.start s) (chainKey x.ref (f.mod.toNat % 2)) x.who.slot) 0#5 := by
  obtain ⟨hm, -⟩ := Prod.mk.inj (Option.some.inj h.form)
  show ∃ t, execChqry f s = .next t ∧ _
  exact runIssue_D h _ _ (dest_vs h (by rw [← hm]) (by rw [← hm]; rfl)) rfl

/-- A result in D is one value. -/
theorem DResult.value_eq {t : State} {u v : W64} {fl fl' : Flags} (hz : x.active ≠ 0#64) (hu : DResult x s t (fun _ => u) fl)
    (hv : DResult x s t (fun _ => v) fl') : u = v := by
  obtain ⟨-, g', -, hg', hu, -⟩ := hu
  obtain ⟨-, g'', -, hg'', hv, -⟩ := hv
  obtain rfl : g' = g'' := Option.some.inj (hg'.symm.trans hg'')
  obtain ⟨_, hl⟩ := low_of hz
  exact (hu x.low hl).symm.trans (hv x.low hl)

end

/-! ### A gang table that lists a slot twice -/

def onceGang : Gang := newGang hostRecord 0 0 0 0 126
/-- The same gang with a chain run of slot 0 in flight. -/
def runningGang : Gang := { onceGang with fills := [{ id := 0, kind := .chain 0, writes := [], flags := 0#5, setsFlags := false }] }
/-- A gang table whose first entry is the one that a lookup finds, and whose second is gone once the slot is written. -/
def twiceState : State := issuing [(0, onceGang), (0, runningGang)]

def queryFields : Fields := formFields 0#12 0#12
def queryForm : Form := ((Instr.chqry queryFields).form.map Prod.fst).get rfl
def queryIss : Iss := onceGang.issue issuingWho issuingTask (.chqry queryFields) queryForm queryFields 0x1000#64 0xFFFF#64

theorem query_ready : Ready (.chqry queryFields) twiceState onceGang queryIss :=
  Gang.issue_ready rfl (issuing_gang _ _) rfl rfl rfl (by decide +kernel) (by decide +kernel)

/-- The table tells of the run, and CHQRY does not see it: it looks after its gang's own entry has been written. -/
theorem query_busy : chainBusy twiceState (chainKey queryIss.ref 0) = true ∧
    (chqryVal (queryIss.start twiceState) (chainKey queryIss.ref 0) queryIss.who.slot).getLsbD 23 = false := by decide +kernel

end Sys2Proof.Machine

namespace Sys2Proof

open Machine in
/-- Refutes O21: its CHQRY clause reads BUSY in the state before the issue, the model in the state with the gang's entry written. They
differ where the gang table, which `State` leaves free, lists a slot twice: in `twiceState` the second entry of slot 0 has a run in flight,
and CHQRY returns a clear bit 23. -/
theorem not_chainSlots : ¬ Obligations.ChainSlots := by
  unfold Obligations.ChainSlots
  intro h
  obtain ⟨-, -, -, -, hquery⟩ := h queryFields twiceState twiceState onceGang queryIss []
  obtain ⟨t, v, hexec, hv, -, -, -, -, hbusy⟩ := hquery query_ready
  obtain ⟨t', hexec', hval⟩ := chqry_does query_ready
  obtain rfl : t' = t := Host.Outcome.next.inj (hexec'.symm.trans hexec)
  obtain ⟨hrun, hclear⟩ := query_busy
  have hbit : v.getLsbD 23 = false := hval.value_eq query_ready.someLane hv ▸ hclear
  rw [hbit] at hbusy
  exact Bool.false_ne_true (hbusy.trans (Bool.or_eq_true_iff.2 (.inl hrun)))

end Sys2Proof

namespace Sys2Proof.Machine

/-! ### Conversions between views (R152) -/

section

variable {i : Instr} {f : Fields} {s : State} {g : Gang} {x : Iss}

/-- What a conversion of view A into view D gives, for an issue that names them. -/
def Iss.conv (x : Iss) : Nat × Flags :=
  let A := x.g.wReg (wNum x.f.a)
  convView (x.g.wReg (wNum x.f.d)) A (x.g.viewVal A)

/-- A TCVT that has neither a register nor a flag to write starts no fill. -/
theorem tcvt_nothing (h : Ready (.tcvt f) s g x) (hflags : x.conv.2 = 0#5) (hnone : viewNumWrites x.g (x.g.wReg (wNum x.f.d)) x.conv.1 = []) :
    exec (.tcvt f) s = .next (commitIssue x (x.start s) {}) := by
  have hquiet (s : State) (l : Nat) : x.fpTrap s [(l, 0#5)] true = none := fpTrap_quiet (by simp [Iss.quiet, allFlags]) s true
  rw [Iss.conv] at hflags hnone
  show convForm (.tcvt f) s = _
  rw [convForm, runIssue_ready h]
  simp only [if_neg h.someLane, hflags, hnone, hquiet]
  exact congrArg _ (finishIssue_ok h.unbroken _)

/-- An issue with no effect of its own leaves no fill. -/
theorem not_fillResult_start (h : Ready i s g x) {kind : FillKind} {ws : List RegWrite} {fl : Flags} {sets : Bool} :
    ¬ FillResult x s (commitIssue x (x.start s) {}) kind ws fl sets := by
  rintro ⟨g0, g', hg, hg', hfills, -⟩
  obtain rfl : g0 = g := Option.some.inj (hg.symm.trans h.present)
  rw [Iss.start, commitIssue_plain, countIssue_gang?, setGang_self] at hg'
  have hkept : (x.fallen s x.g).fills = g0.fills :=
    (fallen_same x s x.g _ (fun _ _ _ _ _ _ => rfl) fun _ _ _ _ => rfl).trans (by rw [h.reads]; rfl)
  rw [← Option.some.inj hg', hkept] at hfills
  exact absurd (congrArg List.length hfills) (by simp)

end

/-! ### A conversion of views in a gang of no lanes (R152) -/

/-- An F32 tile of one element at V register 0 (R43). -/
def oneElement : W64 := 0x10100001#64
/-- A gang of width 0 with lane 0 live, and that tile in W0 and W1. -/
def widthlessGang : Gang := { newGang hostRecord 0 0 0 0 126 with width := 0, live := 1#64, w := [(0, oneElement), (1, oneElement)] }
def widthlessState : State := issuing [(0, widthlessGang)]

def convertFields : Fields := formFields 0x658#12 0x659#12
def convertForm : Form := ((Instr.tcvt convertFields).form.map Prod.fst).get rfl
def convertIss : Iss := widthlessGang.issue issuingWho issuingTask (.tcvt convertFields) convertForm convertFields 0x1000#64 1#64

theorem convert_ready : Ready (.tcvt convertFields) widthlessState widthlessGang convertIss :=
  Gang.issue_ready rfl (issuing_gang _ _) rfl rfl rfl (by decide +kernel) (by decide +kernel)

/-- A view holds no register of a gang without lanes. -/
theorem convert_nothing : convertIss.conv.2 = 0#5 ∧ viewNumWrites convertIss.g (convertIss.g.wReg (wNum convertIss.f.d)) convertIss.conv.1 = [] := by
  decide +kernel

end Sys2Proof.Machine

namespace Sys2Proof

open Machine in
/-- Refutes O15: its first clause has a fill in flight after every conversion, and the model starts none where nothing is to be written.
That is so in a gang of width 0, which `Ready` allows and no task record gives: in `widthlessState` the tile of D takes no register, and
the TCVT of one exact F32 element sets no flag. -/
theorem not_viewConversion : ¬ Obligations.ViewConversion := by
  unfold Obligations.ViewConversion
  intro h
  obtain ⟨hfill, -⟩ := h (.tcvt convertFields) convertFields widthlessState widthlessGang convertIss (.inr (.inr rfl)) convert_ready
  obtain ⟨hflags, hnone⟩ := convert_nothing
  have hquiet : convertIss.conv.2 &&& fpEnables convertIss.g.fpctl = 0#5 := by rw [hflags, BitVec.zero_and]
  obtain ⟨t, hexec, hresult⟩ := hfill hquiet
  obtain rfl := Host.Outcome.next.inj (hexec.symm.trans (tcvt_nothing convert_ready hflags hnone))
  exact not_fillResult_start convert_ready hresult

end Sys2Proof

/-! ## Scope: directional vectors (O16, O17) -/

namespace Sys2Proof.Machine

/-! ### Directional forms whose issue goes through (R163, R170) -/

/-- R64: an issue with one set of flags is quiet where none of them is enabled. -/
theorem quiet_whole {x : Iss} {fl : Flags} (h : fl &&& fpEnables x.g.fpctl = 0#5) : x.quiet [(x.low, fl)] := by
  simpa [Iss.quiet, allFlags] using h

section

variable {i : Instr} {m : Form} {f : Fields} {s : State} {g : Gang} {x : Iss}

/-- R163: a form of Lat L that writes a view leaves a fill of every component and the norm entry. -/
theorem dirForm_fills {v : Iss → DVec × Flags} {r : DVec × Flags} (h : Ready i s g x) (hf : i.form = some (m, f))
    (he : ∀ s, exec i s = dirForm i s v) (hv : v x = r) (hq : r.2 &&& fpEnables x.g.fpctl = 0#5) :
    DoesFill i s x .ready (dirWrites x.g (x.g.wReg (wNum f.d)) r.1) r.2 true := by
  obtain rfl := h.fields hf
  subst hv
  unfold DoesFill
  rw [he]
  exact dirForm_does h v (quiet_whole hq)

/-- R163: a form of Lat L with writes of its own leaves a fill of them, unless it has neither a write nor a flag. -/
theorem dirLong_fills {v : Iss → List RegWrite × Flags} {ws : List RegWrite} {fl : Flags} (h : Ready i s g x)
    (he : ∀ s, exec i s = dirLong i s v) (hv : v x = (ws, fl)) (hq : fl &&& fpEnables x.g.fpctl = 0#5)
    (hl : ∀ k l b, RegWrite.p k l b ∈ ws → l < 64) (hn : ws ≠ [] ∨ fl ≠ 0#5) : DoesFill i s x .ready ws fl true := by
  obtain ⟨rfl, rfl⟩ := Prod.mk.inj hv
  unfold DoesFill
  rw [he]
  exact dirLong_does h v hl (quiet_whole hq) hn

/-- With neither, it leaves the state as the issue found it. -/
theorem dirLong_nothing {v : Iss → List RegWrite × Flags} (h : Ready i s g x) (he : ∀ s, exec i s = dirLong i s v) (hv : v x = ([], 0#5)) :
    exec i s = .next (finishIssue s x (.ok (s.setGang x.ref x.g))) := by
  rw [he, dirLong, runIssue_ready h]
  simp [h.someLane, hv, fpTrap_quiet (quiet_whole BitVec.zero_and), Iss.fill]

/-- R14: a destination of class P alone is a predicate. -/
theorem Ready.dest_p (h : Ready i s g x) (hf : i.form = some (m, f)) (hu : m.useD = true) (hp : (operandSpec i m f).d = [.p]) :
    ∃ k, opnd x.f.d = .p k := by
  obtain ⟨rfl, rfl⟩ := h.form_eq hf
  have ho := h.operands
  simp only [operandsOk, Bool.and_eq_true, Bool.or_eq_true, Bool.not_eq_true'] at ho
  obtain ⟨⟨⟨⟨⟨hd, -⟩, -⟩, -⟩, -⟩, -⟩ := ho
  exact opnd_p_of_operandOk (hp ▸ hd.resolve_left (by simp [hu]))

/-- R39: P7 takes no write. -/
theorem pWrites_p7 (hd : opnd x.f.d = .p 7) (b : Nat → Bool) : x.pWrites b = [] := by
  simp [Iss.pWrites, hd]

theorem pWrites_ne_nil (hz : x.active ≠ 0#64) (hd : ∃ k, opnd x.f.d = .p k) (h7 : opnd x.f.d ≠ .p 7) (b : Nat → Bool) : x.pWrites b ≠ [] := by
  obtain ⟨k, hk⟩ := hd
  have hk7 : k ≠ 7 := fun e => h7 (e ▸ hk)
  simp [Iss.pWrites, hk, hk7, lanes_ne_nil hz]

end

/-! ### DVSETN (R179) -/

theorem setNorm_zero (g : Gang) (d : W64) : setNorm g d normZero = dirWrites g d (DVec.zero (16 * viewCols d)) := if_pos rfl

theorem setNorm_ne_nil (g : Gang) (d : W64) (n : Int) : setNorm g d n ≠ [] := by
  unfold setNorm
  split
  · simp [dirWrites]
  · simp

theorem setNorm_no_p (g : Gang) (d : W64) (n : Int) : ∀ k l b, RegWrite.p k l b ∈ setNorm g d n → l < 64 := by
  unfold setNorm
  split
  · exact dirWrites_no_p g d _
  · simp

theorem setNorm_norm {g : Gang} {d : W64} {n : Int} (hn : n ≠ normZero) :
    setNorm g d n = (List.range (viewRegs d g.width * g.width)).map (fun c =>
      RegWrite.part (viewBase d + c / g.width) (c % g.width) 0#64 0#64 0#2) ++ [.n (viewNidx d) (BitVec.ofInt 32 n) false] := if_neg hn

theorem dvsetn_does {f : Fields} {s : State} {g : Gang} {x : Iss} (h : Ready (.dvsetn f) s g x)
    (hq : (dvsetnVal (f.mod.toNat % 4) (scalar32 (x.a x.low))).2 &&& fpEnables x.g.fpctl = 0#5) :
    DoesFill (.dvsetn f) s x .ready (setNorm x.g (x.g.wReg (wNum f.d)) (dvsetnVal (f.mod.toNat % 4) (scalar32 (x.a x.low))).1)
      (dvsetnVal (f.mod.toNat % 4) (scalar32 (x.a x.low))).2 true :=
  dirLong_fills h (fun _ => rfl) rfl hq (setNorm_no_p _ _ _) (.inl (setNorm_ne_nil _ _ _))

/-! ### DVCMP (R177) -/

theorem FVal.fin_cmp_num {neg : Bool} {m : Nat} {e : Int} {b : FVal} (hb : b.isNan = false) : ∃ c, (FVal.fin neg m e).cmp b = some c := by
  cases b with
  | nan => cases hb
  | inf => exact ⟨_, rfl⟩
  | fin => exact ⟨_, rfl⟩

theorem FVal.fin_cmp_nan {neg : Bool} {m : Nat} {e : Int} {b : FVal} (hb : b.isNan = true) : (FVal.fin neg m e).cmp b = none := by
  cases b with
  | nan => rfl
  | inf => cases hb
  | fin => cases hb

theorem dvcmpVal_nan (v : Nat) (a b : DVec) {t : Nat} (ht : (f32.unpack t).isNan = true) : dvcmpVal v a b t = (false, flagNV) := by
  rw [dvcmpVal, FVal.fin_cmp_nan ht]

section

variable {f : Fields} {s : State} {g : Gang} {x : Iss} {b : Bool} {fl : Flags}

theorem dvcmp_fills (h : Ready (.dvcmp f) s g x) (hv : dvcmpVal (f.mod.toNat % 4) x.dirA x.dirB (scalar32 (x.c x.low)) = (b, fl))
    (hq : fl &&& fpEnables x.g.fpctl = 0#5) (hn : x.pWrites (fun _ => b) ≠ [] ∨ fl ≠ 0#5) :
    DoesFill (.dvcmp f) s x .ready (x.pWrites fun _ => b) fl true :=
  dirLong_fills h (fun _ => rfl) (by rw [hv]) hq (pWrites_no_p x _) hn

/-- R39: a comparison without flags whose truth P7 would take has no result. -/
theorem dvcmp_p7 (h : Ready (.dvcmp f) s g x) (hv : dvcmpVal (f.mod.toNat % 4) x.dirA x.dirB (scalar32 (x.c x.low)) = (b, 0#5))
    (hd : opnd f.d = .p 7) : ∃ t, exec (.dvcmp f) s = .next t ∧ NoResult x s t f.y := by
  obtain rfl := h.fields rfl
  refine noResult_does h (dirLong_nothing h (fun _ => rfl) ?_) ?_
  · rw [hv]
    exact Prod.ext (pWrites_p7 hd _) rfl
  · simp [Iss.fallen, Gang.account, h.instr]

end

/-! ### DVDOT, DVNRM and DVFLAT (R175, R176, R178) -/

section

variable {f : Fields} {s : State} {g : Gang} {x : Iss}

theorem dvdot_does (h : Ready (.dvdot f) s g x) (hq : (dvdotVal (f.mod.toNat % 4) x.dirA x.dirB).2 &&& fpEnables x.g.fpctl = 0#5) :
    DoesFill (.dvdot f) s x .ready (x.dWrites fun _ => (dvdotVal (f.mod.toNat % 4) x.dirA x.dirB).1)
      (dvdotVal (f.mod.toNat % 4) x.dirA x.dirB).2 true :=
  dirLong_fills h (fun _ => rfl) rfl hq (dWrites_no_p x _) (.inl (dWrites_ne_nil h.someLane (h.dest rfl rfl rfl) _))

theorem dvnrm_does (h : Ready (.dvnrm f) s g x) (hq : (dvnrmVal (f.mod.toNat % 4) (normOf x.g f.a)).2 &&& fpEnables x.g.fpctl = 0#5) :
    DoesD (.dvnrm f) s x (fun _ => (dvnrmVal (f.mod.toNat % 4) (normOf x.g f.a)).1) (dvnrmVal (f.mod.toNat % 4) (normOf x.g f.a)).2 := by
  obtain ⟨hm, -⟩ := h.form_eq rfl
  show ∃ t, execDvnrm f s = .next t ∧ _
  exact dirValue_does h (by rw [hm]) (by rw [hm]; rfl) _ (quiet_whole hq)

/-- R175: the elements of a zero vector are zeros and raise no flag. -/
theorem flatImages_zero {v : DVec} (hv : v.isZero = true) (fmt : Nat) : ∀ e ∈ flatImages fmt v, e = (0, 0#5) := by
  simp [flatImages, hv]

/-- The images that DVFLAT writes into the tile D, and their flags. -/
def Iss.flatA (x : Iss) : List (Nat × Flags) := flatImages (viewFmt (x.g.wReg (wNum x.f.d))) x.dirA
def Iss.flatFlags (x : Iss) : Flags := x.flatA.foldl (fun fl e => fl ||| e.2) 0#5

theorem dvflat_does (h : Ready (.dvflat f) s g x) (hq : x.flatFlags &&& fpEnables x.g.fpctl = 0#5) : DoesGang (.dvflat f) s s x fun g =>
    let D := x.g.wReg (wNum x.f.d)
    let g' := g.writes (viewNumWrites x.g D (ofSubs (plainBits (viewFmt D)) (x.flatA.map Prod.fst)))
    { g' with fpstat := orFlags g'.fpstat x.flatFlags } := by
  obtain rfl := h.fields rfl
  show ∃ t, execDvflat x.f s = .next t ∧ _
  refine runIssue_gang h _ s _ ?_
  have hnone := fpTrap_quiet (quiet_whole hq) (s.setGang x.ref x.g) true
  rw [Iss.flatFlags, Iss.flatA] at hnone
  simp only [if_neg h.someLane, hnone, mapGang_setGang, orStat_eq]
  rfl

end

end Sys2Proof.Machine

namespace Sys2Proof

open Machine in
/-- Settles O16: each of the eight forms is a `dirForm` of its vector (`dirForm_fills`); DVSETN leaves a fill of the writes of `setNorm`, which are
those of the zero vector or of the norm alone. -/
theorem directionalForms : Obligations.DirectionalForms := by
  unfold Obligations.DirectionalForms
  refine ⟨?_, ?_⟩
  · intro i f s g x r v hi h hq
    obtain ⟨u, m, hf, he, hv⟩ : ∃ u m, i.form = some (m, f) ∧ (∀ s, exec i s = dirForm i s u) ∧ u x = r := by
      rcases hi with ⟨rfl, rfl⟩ | ⟨rfl, rfl⟩ | ⟨rfl, rfl⟩ | ⟨rfl, rfl⟩ | ⟨rfl, rfl⟩ | ⟨rfl, rfl⟩ | ⟨rfl, rfl⟩ | ⟨rfl, rfl⟩
      all_goals exact ⟨_, _, rfl, fun _ => rfl, rfl⟩
    exact dirForm_fills h hf he hv hq
  · intro f s g x D r h hq
    have hfill := dvsetn_does h hq
    refine ⟨fun hz => ?_, fun hz => ?_⟩
    · rwa [show (dvsetnVal _ _).1 = normZero from hz, setNorm_zero] at hfill
    · have hwidth : x.g.width = g.width := by rw [h.reads]; rfl
      rwa [setNorm_norm hz, hwidth] at hfill

open Machine in
/-- Settles O17: one lemma for each form and what it leaves; the truth of DVCMP is that of `dvcmpVal`, since the cosine compares with every
threshold but a NaN (`FVal.fin_cmp_num`). -/
theorem directionalValues : Obligations.DirectionalValues := by
  unfold Obligations.DirectionalValues
  refine ⟨?_, ?_⟩
  · intro f s g x v D n c quiet
    refine ⟨dvdot_does, fun hv => ?_, fun hv => ?_, dvnrm_does, fun hv => ?_, ?_⟩
    · rw [hv]; rfl
    · rw [hv]; rfl
    · rw [hv]; rfl
    · intro holds
      have hnum (hc : c.isNan = false) : dvcmpVal v x.dirA x.dirB (scalar32 (x.c x.low)) = (holds, 0#5) := by
        obtain ⟨k, hk⟩ : ∃ k, (FVal.fin (D < 0) D.natAbs (-28)).cmp c = some k := FVal.fin_cmp_num hc
        simp only [D, c] at hk
        simp only [dvcmpVal, holds, D, c, hk] <;> rfl
      refine ⟨fun h hc hd => ?_, fun h hc hd => dvcmp_p7 h (hnum hc) hd, fun h hc hq => ?_⟩
      · obtain rfl := h.fields rfl
        exact dvcmp_fills h (hnum hc) BitVec.zero_and (.inl (pWrites_ne_nil h.someLane (h.dest_p rfl rfl rfl) hd _))
      · exact dvcmp_fills h (dvcmpVal_nan v _ _ hc) hq (.inr (by decide))
  · intro f s g x h D r fl hq
    obtain rfl := h.fields rfl
    exact ⟨dvflat_does h hq, fun hz => flatImages_zero hz _⟩

end Sys2Proof

/-! ## Scope: views, tokens and the matrix queue (O19, O20) -/

namespace Sys2Proof.Machine

/-! ### An issue that waits, and one that changes its gang alone (R270, R303) -/

/-- R270: the form waits; the mark of that on the gang is all it leaves. -/
def DoesWait (i : Instr) (s : State) (g : Gang) (x : Iss) (why : Wait) : Prop :=
  ∃ t, exec i s = .next t ∧ t = { s with gangs := t.gangs } ∧ t.gang? x.ref = some { g with waits := some why }

section

variable {i : Instr} {s : State} {g : Gang} {x : Iss} {body : Iss → State → Res}

/-- A wait undoes what the issue's reading made of the transient results and of the reuse latch. -/
theorem finishIssue_wait (h : Ready i s g x) (why : Wait) :
    finishIssue s x (.wait why (s.setGang x.ref x.g)) = s.setGang x.ref { g with waits := some why } := by
  have hmarked : { x.g with transients := g.transients, holdLatch := g.holdLatch, waits := some why } = { g with waits := some why } := by
    rw [h.reads]; rfl
  simp [finishIssue, h.unbroken, h.present, waitIssue, hmarked]

theorem doesWait_of (h : Ready i s g x) (he : ∀ s, exec i s = runIssue i s body) {why : Wait}
    (hb : body x (s.setGang x.ref x.g) = .wait why (s.setGang x.ref x.g)) : DoesWait i s g x why := by
  refine ⟨s.setGang x.ref { g with waits := some why }, ?_, rfl, setGang_self ..⟩
  rw [he, runIssue_ready h, hb, finishIssue_wait h]

theorem doesGang_of (h : Ready i s g x) (he : ∀ s, exec i s = runIssue i s body) {k : Gang → Gang}
    (hb : body x (s.setGang x.ref x.g) = .ok (s.setGang x.ref (k x.g))) : DoesGang i s s x k := by
  unfold DoesGang
  rw [he]
  exact runIssue_gang h body s k hb

/-- The shape of the forms of a view that wait for nothing. -/
theorem gangForm_does (h : Ready i s g x) (k : Iss → Gang → Gang)
    (he : ∀ s, exec i s = runIssue i s fun x s => if x.active = 0#64 then .ok s else .ok (x.mapGang s (k x))) : DoesGang i s s x (k x) :=
  doesGang_of h he ((if_neg h.someLane).trans (congrArg Res.ok (mapGang_setGang ..)))

end

/-! ### View registers and tokens (R188, R189, R191, R192, R205) -/

/-- The queued MXOPs of a gang that write the view of W register k. -/
def viewWriters (s : State) (ref : GangRef) (k : Nat) : List MxEntry := (mxOf s ref).filter fun e => mxWC e.params == k

section

variable {f : Fields} {s : State} {g : Gang} {x : Iss}

@[simp] theorem mxOf_setGang (s : State) (r : GangRef) (g : Gang) (ref : GangRef) : mxOf (s.setGang r g) ref = mxOf s ref := by
  rw [mxOf, State.setGang_mxq, mxOf]

theorem any_writes_view (s : State) (ref : GangRef) (k : Nat) :
    ((mxOf s ref).any fun e => mxWC e.params == k) = decide (viewWriters s ref k ≠ []) := by
  rw [Bool.eq_iff_iff, decide_eq_true_iff, viewWriters, ne_eq, List.filter_eq_nil_iff]
  simp

theorem tvset_does (h : Ready (.tvset f) s g x) : DoesGang (.tvset f) s s x fun g => g.putW (wNum f.d) (x.a x.low) :=
  gangForm_does h (fun x g => g.putW (wNum f.d) (x.a x.low)) fun _ => rfl

theorem tokgive_does (h : Ready (.tokgive f) s g x) :
    DoesGang (.tokgive f) s s x fun g => { g with lent := BitSet.put g.lent (wNum f.a) true } :=
  gangForm_does h (fun _ g => { g with lent := BitSet.put g.lent (wNum f.a) true }) fun _ => rfl

theorem tzero_does (h : Ready (.tzero f) s g x) :
    DoesGang (.tzero f) s s x fun g => g.writes (viewNumWrites x.g (x.g.wReg (wNum f.d)) 0) :=
  gangForm_does h (fun x g => g.writes (viewNumWrites x.g (x.g.wReg (wNum f.d)) 0)) fun _ => rfl

theorem tvget_does (h : Ready (.tvget f) s g x) : DoesD (.tvget f) s x (fun _ => tvgetVal x s) 0#5 := by
  show ∃ t, execTvget f s = .next t ∧ _
  exact runIssue_D h _ _ (h.dest rfl rfl rfl) rfl

theorem toktake_unlent (h : Ready (.toktake f) s g x) (hl : BitSet.has x.g.lent (wNum f.a) = false) : DoesGang (.toktake f) s s x id := by
  refine doesGang_of h (fun _ => (rfl : execToktake f _ = _)) ?_
  simp [hl]

theorem toktake_takes (h : Ready (.toktake f) s g x) (hl : BitSet.has x.g.lent (wNum f.a) = true) (hq : viewWriters s x.ref (wNum f.a) = []) :
    DoesGang (.toktake f) s s x fun g => { g with lent := BitSet.put g.lent (wNum f.a) false } := by
  refine doesGang_of h (fun _ => (rfl : execToktake f _ = _)) ?_
  simp [h.someLane, hl, any_writes_view, hq]

theorem toktake_waits (h : Ready (.toktake f) s g x) (hl : BitSet.has x.g.lent (wNum f.a) = true) (hq : viewWriters s x.ref (wNum f.a) ≠ []) :
    DoesWait (.toktake f) s g x .token := by
  refine doesWait_of h (fun _ => (rfl : execToktake f _ = _)) ?_
  simp [h.someLane, hl, any_writes_view, hq]

end

/-! ### MXOP and MXWAIT (R194, R204) -/

section

variable {f : Fields} {s s1 s2 : State} {g : Gang} {x : Iss} {p : List W64} {again : Option Nat}

/-- The entry of the matrix queue that an MXOP makes of its block (R195, R200). -/
def Iss.matrixEntry (x : Iss) (s : State) (p : List W64) (again : Option Nat) : MxEntry :=
  { g := x.ref, params := p, wa := if mxASrc p then 0#64 else x.g.wReg (mxWA p), wb := if mxBSrc p then 0#64 else x.g.wReg (mxWB p),
    wc := x.g.wReg (mxWC p), opid := mxField p 0 32 8, readDone := false, behind := behindOf s x.ref,
    aBytes := if mxASrc p then [] else viewRead x.g (x.g.wReg (mxWA p)), bBytes := if mxBSrc p then [] else viewRead x.g (x.g.wReg (mxWB p)),
    again := again.map fun n => (n, (x.a x.low).toNat, x.g), stamp := s.issueCtr, recheck := none }

/-- A streamed operand has no descriptor and no bytes in an entry; a view has the gang's. -/
theorem MxEntry.withBlock_eq (e : MxEntry) (g : Gang) (p : List W64) : e.withBlock g p =
    { e with params := p, wa := if mxASrc p then 0#64 else g.wReg (mxWA p), wb := if mxBSrc p then 0#64 else g.wReg (mxWB p),
             wc := g.wReg (mxWC p), opid := mxField p 0 32 8, aBytes := if mxASrc p then [] else viewRead g (g.wReg (mxWA p)),
             bBytes := if mxBSrc p then [] else viewRead g (g.wReg (mxWB p)) } := by
  unfold MxEntry.withBlock
  cases mxASrc p <;> cases mxBSrc p <;> rfl

/-- The state with an entry at the end of its partition's matrix queue. -/
def enqueueMx (x : Iss) (s : State) (e : MxEntry) : State :=
  { s with mxq := KMap.put s.mxq (mxKey x.ref) (KMap.get s.mxq [] (mxKey x.ref) ++ [e]) }

theorem mxUnready_false (ha : mxASrc p = false → g.viewReady (g.wReg (mxWA p)) = true)
    (hb : mxBSrc p = false → g.viewReady (g.wReg (mxWB p)) = true) : mxUnready g p = false := by
  simp only [mxUnready, Bool.or_eq_false_iff, Bool.and_eq_false_imp, Bool.not_eq_true', Bool.not_eq_false']
  exact ⟨ha, hb⟩

/-- R194: the MXOP of a block that breaks no rule and whose partition's queue has room. -/
theorem mxIssue_queues (hparity : mxParity x.g p = false) (hbad : mxBad x.g p = false) (hfull : mxFullParity x.g p = false)
    (hlent : mxLent x.g p = none) (hstream : streamChecks s1 x p = (some none, s2)) (hready : mxUnready x.g p = false)
    (hroom : (KMap.get s2.mxq [] (mxKey x.ref)).length < 16) :
    mxIssue x s1 p again = .ok (countBlock x (enqueueMx x s2 (x.matrixEntry s2 p again)) (x.a x.low).toNat again) := by
  simp only [mxIssue, hparity, hbad, hfull, hlent, hstream, hready, Bool.false_eq_true, if_false, if_neg (Nat.not_le.2 hroom),
    MxEntry.withBlock_eq]
  rfl

theorem mxop_commits (h : Ready (.mxop f) s g x) (hread : readBlock x (x.start s) (x.a x.low).toNat = .ok p again s1)
    (hissue : mxIssue x s1 p again = .ok s2) : Commits (.mxop f) s x s2 := by
  show execMxop f s = _
  rw [execMxop, runIssue_ready h]
  unfold Iss.start at hread
  simp only [if_neg h.someLane, hread, hissue]
  exact congrArg _ (finishIssue_ok h.unbroken s2)

/-- R204: MXWAIT waits for an entry with its operation number, or for any with IMM 8. -/
theorem any_mxWaits (f : Fields) (es : List MxEntry) :
    es.any (mxWaits f) = true ↔ ∃ e ∈ es, f.imm.getLsbD 8 = true ∨ e.opid = f.imm.toNat % 256 := by
  simp [mxWaits]

theorem mxwait_does (h : Ready (.mxwait f) s g x) (hq : ∀ e ∈ mxOf s x.ref, f.imm.getLsbD 8 = false ∧ e.opid ≠ f.imm.toNat % 256) :
    DoesGang (.mxwait f) s s x id := by
  have hnone : (mxOf s x.ref).any (mxWaits f) = false := by
    rw [Bool.eq_false_iff, ne_eq, any_mxWaits]
    rintro ⟨e, he, hall | hid⟩
    · exact absurd hall (by rw [(hq e he).1]; decide)
    · exact (hq e he).2 hid
  refine doesGang_of h (fun _ => (rfl : execMxwait f _ = _)) ?_
  simp only [mxOf_setGang, hnone, Bool.and_false, Bool.false_eq_true, if_false, id]

theorem mxwait_waits (h : Ready (.mxwait f) s g x) (hq : ∃ e ∈ mxOf s x.ref, f.imm.getLsbD 8 = true ∨ e.opid = f.imm.toNat % 256) :
    DoesWait (.mxwait f) s g x .mxwait := by
  have hsome : (mxOf s x.ref).any (mxWaits f) = true := (any_mxWaits f _).2 hq
  refine doesWait_of h (fun _ => (rfl : execMxwait f _ = _)) ?_
  simp only [mxOf_setGang, hsome, h.someLane, ne_eq, not_false_eq_true, decide_true, Bool.and_true, if_true]

end

end Sys2Proof.Machine

namespace Sys2Proof

open Machine in
/-- Settles O19: one lemma for each form; TOKTAKE by whether the view is lent and by the MXOPs that write it (`any_writes_view`). -/
theorem viewRegisters : Obligations.ViewRegisters := by
  unfold Obligations.ViewRegisters
  intro f s g x queued
  refine ⟨tvset_does, fun h hv => ?_, fun h hv => ?_, tokgive_does, toktake_unlent, toktake_takes, toktake_waits, tzero_does⟩
  · obtain rfl := h.fields rfl
    have hget := tvget_does h
    rwa [tvgetVal, if_neg hv] at hget
  · obtain rfl := h.fields rfl
    have hget := tvget_does h
    rwa [tvgetVal, if_pos hv] at hget

open Machine in
/-- Settles O20: MXOP commits the state with its entry in the queue (`mxIssue_queues`); MXWAIT goes on or waits by `any_mxWaits`. -/
theorem matrixQueue : Obligations.MatrixQueue := by
  unfold Obligations.MatrixQueue
  intro f s s1 s2 g x p again off
  refine ⟨fun h hread hparity hbad hfull hlent hstream ha hb hroom => ?_, mxwait_does, mxwait_waits⟩
  exact mxop_commits h hread (mxIssue_queues hparity hbad hfull hlent hstream (mxUnready_false ha hb) hroom)

end Sys2Proof

/-! ## Scope: memory (O29, O25, O24, O23, O31, O28, O26, O27) -/

namespace Sys2Proof.Machine

/-! ### Events at a home (R223, R285) -/

theorem memNat_recallLines {s : State} (h : l1Ok s.l1) (pa n pb k : Nat) (pay : Charge) :
    memNat (recallLines s pa n pay) pb k = memNat s pb k := by
  simp only [memNat, memBytes, recallLines, memByte_dropLines _ _ _ h]

/-- R223, R285: an event at a home finds the bytes of the last stores, and stores its word where the old one is not poisoned. -/
theorem homeEvent_spec {s : State} (hl : l1Ok s.l1) (pa n : Nat) (h : Nat → Nat) (pay : Charge) :
    (homeEvent s pa n h pay).1 = memNat s pa n ∧ (homeEvent s pa n h pay).2.1 = memPoisoned s pa n ∧
    ∀ q, memByte (homeEvent s pa n h pay).2.2 q =
      if memPoisoned s pa n = false ∧ pa ≤ q ∧ q < pa + n then (leBytes n (h (memNat s pa n))).getD (q - pa) 0#8 else memByte s q := by
  have hrecalled (q : Nat) : memByte (recallLines s pa n pay) q = memByte s q := memByte_dropLines s _ q hl
  simp only [homeEvent, memPoisoned_recallLines, memNat_recallLines hl]
  cases hp : memPoisoned s pa n with
  | true => exact ⟨rfl, rfl, fun q => by simpa using hrecalled q⟩
  | false =>
    refine ⟨rfl, rfl, fun q => ?_⟩
    simp only [Bool.false_eq_true, if_false, true_and]
    rw [memByte_homeStore (recallLines s pa n pay) pa _ (fun _ => false) q (l1Ok_dropLines _ hl), leBytes_length, hrecalled]

/-! ### What an event makes of a word (R223, R237, R240, R245) -/

/-- R223: the integer atomics. -/
theorem atomNew_int {t : Nat} (ht : t < 8) (op old b : Nat) : atomNew t op old b = atomInt t op old b := if_neg (by omega)

theorem intElem_atomMin (t old b : Nat) : intElem t (atomInt t 1 old b) = min (intElem t old) (intElem t b) := by
  simp only [atomInt]
  split <;> omega

theorem intElem_atomMax (t old b : Nat) : intElem t (atomInt t 2 old b) = max (intElem t old) (intElem t b) := by
  simp only [atomInt]
  split <;> omega

/-- R239: SIGT takes COUNT down where it reaches and no error stands. -/
theorem sigtNew_eq (b w : Nat) : sigtNew b w = if sigErr w = 0 ∧ b ≤ sigCount w then w - b else w := by
  simp [sigtNew]

/-- R240: SIGS ADD counts modulo 2^48 and leaves ERR. -/
theorem sigsNew_add (b w : Nat) :
    sigCount (sigsNew false b w) = (sigCount w + b) % 2 ^ 48 ∧ sigErr (sigsNew false b w) = sigErr w := by
  simp only [sigsNew, sigCount, sigErr, Bool.false_eq_true, if_false]
  omega

/-- R245, R246: the fields of a barrier object's word are what BOA looks at. -/
theorem boaNew_fields {pending expect phase : Nat} (hp : pending < 2 ^ 32) (he : expect < 2 ^ 31) :
    boaNew (pending + 2 ^ 32 * expect + 2 ^ 63 * phase) =
      if expect = 0 ∨ pending = 0 then none
      else if pending = 1 then some (expect + 2 ^ 32 * expect + 2 ^ 63 * (1 - phase))
      else some (pending - 1 + 2 ^ 32 * expect + 2 ^ 63 * phase) := by
  have hphase : (pending + 2 ^ 32 * expect + 2 ^ 63 * phase) / 2 ^ 63 = phase := by omega
  have hexpect : (pending + 2 ^ 32 * expect + 2 ^ 63 * phase) / 2 ^ 32 % 2 ^ 31 = expect := by omega
  have hpending : (pending + 2 ^ 32 * expect + 2 ^ 63 * phase) % 2 ^ 32 = pending := by omega
  simp only [boaNew, hphase, hexpect, hpending, Bool.or_eq_true, decide_eq_true_eq]

end Sys2Proof.Machine

namespace Sys2Proof

open Machine in
/-- Settles O29: the event is `homeEvent_spec`; one lemma for each operation on its word. -/
theorem atomics : Obligations.Atomics := by
  unfold Obligations.Atomics
  refine ⟨fun s pa n h pay hl _ => homeEvent_spec hl pa n h pay, fun t old b ht _ _ => ?_, fun b w _ => sigtNew_eq b w, fun b w _ => ?_,
    fun pending expect phase hp he _ => boaNew_fields hp he⟩
  · simp only [atomNew_int ht]
    exact ⟨rfl, intElem_atomMin t old b, intElem_atomMax t old b, rfl, rfl, rfl, rfl⟩
  · exact ⟨(sigsNew_add b w).1, (sigsNew_add b w).2, rfl⟩

end Sys2Proof

namespace Sys2Proof.Machine

/-! ### The checks of one access (R213, R216, R221) -/

theorem pagePieces_one {va n : Nat} (hn : n ≠ 0) (hpage : va % 4096 + n ≤ 4096) : pagePieces va n = [(va, n)] := by
  have hfirst : min n (4096 - va % 4096) = n := by omega
  simp [pagePieces, hn, hfirst]

theorem xlatPieces_one (s : State) (core ctx : Nat) (acc : Access) (sp : Space) (lane va : Nat) (data data2 : List Byte) (p : Nat × Nat) :
    xlatPieces s core ctx acc sp lane va data data2 [p] = xlatPiece core ctx acc sp lane va data data2 p s := by
  simp only [xlatPieces, List.foldl_cons, List.foldl_nil, joinChk]
  cases xlatPiece core ctx acc sp lane va data data2 p s <;> simp

/-- The one access of a request within a page, of its frame. -/
def AccReq.inFrame (q : AccReq) (pa : Nat) (leaf : W64) : LaneAcc :=
  { lane := q.lane, space := .global, va := q.va, pa, size := q.size, peer := none, data := q.data.take q.size, data2 := q.data2.take q.size, leaf }

/-- Whether the bytes of a request are declared (R333). -/
def AccReq.declared (q : AccReq) (s : State) (ctx : Nat) (r : TaskRec) (va : Nat) : Bool :=
  if q.kind = .read then mayRead s ctx r va q.size else mayWrite s ctx r va q.size

/-- R213: the checks of a global access within one page whose translation the core holds, in their order. -/
theorem globalCheck_onePage {s : State} (g : Gang) {w : Who} (r : TaskRec) {q : AccReq} {pa : Nat} {leaf : W64} (hn : q.size ≠ 0)
    (hpage : q.va % 4096 + q.size ≤ 4096)
    (hx : coreXlat s w.core w.ctx q.va (if q.kind = .read then .read else .write) = .done (.ok pa leaf) s) :
    globalCheck s g w r q =
      if q.declared s w.ctx r q.va = false then .fail 0x22 (w64 q.va) s
      else if q.va % q.align ≠ 0 then .fail 0x23 (w64 q.va) s
      else if watchHit s g w.ctx q.lane q.va q.size q.kind = true then .fail 0x28 (w64 q.va) s
      else .ok [q.inFrame pa leaf] s := by
  simp only [globalCheck, pagePieces_one hn hpage, xlatPieces_one, xlatPiece, hx, AccReq.declared, AccReq.inFrame, Nat.sub_self, List.drop_zero,
    List.any_cons, List.any_nil, Option.isSome_none, Bool.or_self, Bool.and_false, Bool.false_eq_true, if_false, Bool.not_eq_true']
  rfl

/-- The access of a scratchpad request. -/
def AccReq.inScratch (q : AccReq) (half : Nat) : LaneAcc :=
  { lane := q.lane, space := .scratch half, va := q.va, pa := 0, size := q.size, peer := none, data := q.data, data2 := q.data2, leaf := 0#64 }

@[simp] theorem AccReq.inScratch_space (q : AccReq) (half : Nat) : (q.inScratch half).space = .scratch half := rfl
@[simp] theorem AccReq.inScratch_va (q : AccReq) (half : Nat) : (q.inScratch half).va = q.va := rfl
@[simp] theorem AccReq.inScratch_size (q : AccReq) (half : Nat) : (q.inScratch half).size = q.size := rfl
@[simp] theorem AccReq.inScratch_lane (q : AccReq) (half : Nat) : (q.inScratch half).lane = q.lane := rfl

section

variable {s : State} {w : Who} {r : TaskRec} {g : Option Gang} {half : Nat} {q : AccReq} {k : Nat} {m : Stash} {va : Nat}

/-- R213: a scratchpad access beyond its half, or in a team that may not make it. -/
theorem localCheck_outside {may : Bool} (h : may = false ∨ ¬ q.va + q.size ≤ scratchSize s w.team half) :
    localCheck s w r g half may q = .fail 0x21 (w64 q.va) s := by
  have hout : (!may || decide (q.va + q.size > scratchSize s w.team half)) = true := by
    rcases h with rfl | h
    · rfl
    · simp only [gt_iff_lt, Nat.not_le.1 h, decide_true, Bool.or_true]
  simp only [localCheck, scratchCheck, hout, if_true]

/-- R213: one within its half is checked where it meets the stash. -/
theorem localCheck_inside (h : q.va + q.size ≤ scratchSize s w.team half) :
    localCheck s w r g half true q = stashLane s w r g q (q.inScratch half) := by
  have hin : (!true || decide (q.va + q.size > scratchSize s w.team half)) = false := by
    simp only [gt_iff_lt, Nat.not_lt.2 h, decide_false, Bool.not_true, Bool.or_self]
  simp only [localCheck, scratchCheck, hin, Bool.false_eq_true, if_false]
  rfl

/-- R219, R221: one that meets no mapped line is an access of the scratchpad. -/
theorem stashLane_unmapped (h : stashPlace s w (q.inScratch half) = none) :
    stashLane s w r g q (q.inScratch half) = alignCheck q (q.inScratch half) q.va s := by
  simp only [stashLane, AccReq.inScratch_space, h, AccReq.inScratch_va]

/-- R221: so is one of a filled line. -/
theorem stashLane_filled (h : stashPlace s w (q.inScratch half) = some (k, m, va)) (hshared : pageShared s w.slot (va / 4096) = false)
    (hfilled : BitSet.has m.filled ((q.va - m.off) / 128) = true) :
    stashLane s w r g q (q.inScratch half) = alignCheck q (q.inScratch half) q.va s := by
  simp only [stashLane, AccReq.inScratch_space, AccReq.inScratch_va, h, hshared, hfilled, Bool.not_false, Bool.and_self, if_true,
    Bool.false_eq_true, if_false]

/-- R221, R427: one of a line whose page became shared is an access of the global bytes, with their declaration and watchpoints. -/
theorem stashLane_shared {pa : Nat} {leaf : W64} (h : stashPlace s w (q.inScratch half) = some (k, m, va))
    (hshared : pageShared s w.slot (va / 4096) = true)
    (hx : coreXlat s w.core w.ctx va (if q.kind = .read then .read else .write) = .done (.ok pa leaf) s) :
    stashLane s w r g q (q.inScratch half) =
      if q.declared s w.ctx r va = false then .fail 0x22 (w64 va) s
      else if q.va % q.align = 0 ∧ (g.any fun g => watchHit s g w.ctx q.lane va q.size q.kind) = true then .fail 0x28 (w64 va) s
      else alignCheck q { q.inScratch half with space := .global, va, pa, leaf } va s := by
  simp only [stashLane, AccReq.inScratch_space, AccReq.inScratch_size, AccReq.inScratch_lane, h, hshared, Bool.not_true, Bool.false_and,
    Bool.false_eq_true, if_false, if_true, Bool.true_and, bne_iff_ne, ne_eq, ite_not, hx, AccReq.declared, Bool.not_eq_true', Bool.and_eq_true,
    decide_eq_true_eq]
  rfl

end

end Sys2Proof.Machine

namespace Sys2Proof

open Machine in
/-- Settles O25: a global access by `globalCheck_onePage`, one of the scratchpad by the lemmas of `localCheck` and `stashLane`. -/
theorem accessChecks : Obligations.AccessChecks := by
  unfold Obligations.AccessChecks
  refine ⟨fun s g w r q pa leaf hn hpage _ hx => ?_, fun s w r g half may q => ?_, fun s g w q word k h => ?_⟩
  · intro declared fails
    have hcheck := globalCheck_onePage g r hn hpage hx
    have hdecl : q.declared s w.ctx r q.va = declared := rfl
    rw [hdecl] at hcheck
    refine ⟨fun hd => ?_, fun hd ha => ?_, fun hd ha hw => ?_, fun hd ha hw hl hl2 => ?_⟩
    · simp only [fails, hcheck, hd, if_true]
    · simp only [fails, hcheck, hd, ha, Bool.true_eq_false, if_false, ne_eq, not_false_eq_true, if_true]
    · simp only [fails, hcheck, hd, ha, hw, Bool.true_eq_false, if_false, ne_eq, not_true_eq_false, if_true]
    · rw [hcheck, hd, hw, ha]
      simp [AccReq.inFrame, List.take_of_length_le hl, List.take_of_length_le hl2]
  · intro within a check plain
    refine ⟨localCheck_outside, fun hmay hin => ?_⟩
    have hcheck : check = stashLane s w r g q (q.inScratch half) := by
      simp only [check, hmay]
      exact localCheck_inside hin
    have hplain (h : stashLane s w r g q (q.inScratch half) = alignCheck q (q.inScratch half) q.va s) : plain := by
      simp only [plain, hcheck, h, alignCheck]
      exact ⟨fun ha => if_pos ha, fun ha => if_neg (by simp [ha])⟩
    refine ⟨fun h => hplain (stashLane_unmapped h), fun k m va h hs hf => hplain (stashLane_filled h hs hf), fun k m va pa leaf h hs hx => ?_⟩
    intro declared hit
    have hlane := hcheck.trans (stashLane_shared (r := r) (g := g) h hs hx)
    have hdecl : q.declared s w.ctx r va = declared := rfl
    rw [hdecl] at hlane
    refine ⟨fun hd => ?_, fun hd ha => ?_, fun hd ha hw => ?_, fun hd ha hw => ?_⟩
    · rw [hlane, if_pos hd]
    · rw [hlane, if_neg (by simp [hd]), if_neg (fun h => ha h.1), alignCheck, if_pos ha]
    · rw [hlane, if_neg (by simp [hd]), if_pos ⟨ha, hw⟩]
    · have hw' : (g.any fun g => watchHit s g w.ctx q.lane va q.size q.kind) = false := hw
      rw [hlane, if_neg (by simp [hd]), if_neg (by simp [hw']), alignCheck, if_neg (by simp [ha])]
      rfl
  · have hout : (decide (word < 0) || decide (word + k > g.stklim.toNat)) = true := by
      simpa [or_comm] using h
    rw [privCheck, if_pos hout]

end Sys2Proof

namespace Sys2Proof.Machine

/-! ### The choice among the failing lanes (R214) -/

theorem foldl_min_spec {α : Type} (c : α → Nat) (l : List α) (k : Nat) :
    l.foldl (fun m a => min m (c a)) k ≤ k ∧ (∀ a ∈ l, l.foldl (fun m a => min m (c a)) k ≤ c a) ∧
    (l.foldl (fun m a => min m (c a)) k = k ∨ ∃ a ∈ l, l.foldl (fun m a => min m (c a)) k = c a) := by
  induction l generalizing k with
  | nil => exact ⟨Nat.le_refl k, nofun, .inl rfl⟩
  | cons a t ih =>
    obtain ⟨hk, ht, hmem⟩ := ih (min k (c a))
    rw [List.foldl_cons]
    refine ⟨hk.trans (Nat.min_le_left _ _), fun b hb => ?_, ?_⟩
    · rcases List.mem_cons.1 hb with rfl | hb
      · exact hk.trans (Nat.min_le_right _ _)
      · exact ht b hb
    · rcases hmem with h | ⟨b, hb, h⟩
      · rcases Nat.le_total k (c a) with hle | hle
        · exact .inl (h.trans (Nat.min_eq_left hle))
        · exact .inr ⟨a, List.mem_cons_self, h.trans (Nat.min_eq_right hle)⟩
      · exact .inr ⟨b, List.mem_cons_of_mem a hb, h⟩

theorem chooseFail_spec {active : LaneMask} {fails : List (Nat × Nat × W64)} {t : TrapInfo} (hlanes : ∀ e ∈ fails, e.1 < 64)
    (h : chooseFail active fails = some t) :
    t.tmask = active ∧ t.tpc = none ∧ (∀ e ∈ fails, t.cause ≤ e.2.1) ∧ (∃ e ∈ fails, e.2.1 = t.cause) ∧
    (∀ l, t.thit.getLsbD l = true ↔ ∃ e ∈ fails, e.1 = l ∧ e.2.1 = t.cause) ∧
    ∃ e, fails.find? (fun e => e.2.1 == t.cause) = some e ∧ t.taddr = e.2.2 := by
  cases fails with
  | nil => cases h
  | cons f fs =>
    obtain ⟨hf, hfs, hmem⟩ := foldl_min_spec (fun e : Nat × Nat × W64 => e.2.1) fs f.2.1
    rw [chooseFail] at h
    generalize fs.foldl (fun m e => min m e.2.1) f.2.1 = c at hf hfs hmem h
    obtain rfl := Option.some.inj h
    have hex : ∃ e ∈ f :: fs, e.2.1 = c := by
      rcases hmem with hc | ⟨e, he, hc⟩
      · exact ⟨f, List.mem_cons_self, hc.symm⟩
      · exact ⟨e, List.mem_cons_of_mem f he, hc.symm⟩
    refine ⟨rfl, rfl, fun e he => ?_, hex, fun l => ?_, ?_⟩
    · rcases List.mem_cons.1 he with rfl | he
      · exact hf
      · exact hfs e he
    · simp only [maskOf_getLsbD, Bool.and_eq_true, decide_eq_true_eq, List.any_eq_true, List.mem_filter, beq_iff_eq]
      constructor
      · rintro ⟨-, e, ⟨he, hc⟩, hl⟩
        exact ⟨e, he, hl, hc⟩
      · rintro ⟨e, he, rfl, hc⟩
        exact ⟨hlanes e he, e, ⟨he, hc⟩, rfl⟩
    · obtain ⟨e, he, hc⟩ := hex
      obtain ⟨e', he'⟩ := Option.isSome_iff_exists.1 (List.find?_isSome (p := fun e => e.2.1 == c) |>.2 ⟨e, he, beq_iff_eq.2 hc⟩)
      exact ⟨e', he', by simp only [List.head?_filter, he', Option.map_some, Option.getD_some]⟩

/-! ### From a form to its accesses (R213 to R215) -/

section

variable {i : Instr} {s : State} {g : Gang} {x : Iss} {m : MemSpec}

/-- The issue of a form, from the form's own part. -/
theorem Ready.runs (h : Ready i s g x) {body : Iss → State → Res} {r : Res} (he : exec i s = runIssue i s body) (hr : body x (x.start s) = r) :
    exec i s = .next (finishIssue s x r) := by
  rw [he, runIssue_ready h, ← hr]
  rfl

/-- R215: each form that reaches memory makes its accesses as its `MemSpec` says. -/
theorem exec_memSpec (h : Ready i s g x) (hm : memSpec x = some m) :
    exec i s = .next (finishIssue s x (memForm x (x.start s) m.force m.write m.lanes m.chk m.empties)) := by
  have hi := h.instr
  unfold memSpec at hm
  simp only at hm
  split at hm
  case h_16 => cases hm
  all_goals
    rename_i f hf
    obtain rfl := Option.some.inj hm
    obtain rfl := hi.symm.trans hf
    obtain rfl := h.fields rfl
  case h_1 => exact h.runs (rfl : execLd _ _ = _) rfl
  case h_2 => exact h.runs (rfl : execSt _ _ = _) rfl
  case h_3 => exact h.runs (rfl : execLds _ _ = _) rfl
  case h_4 => exact h.runs (rfl : execSts _ _ = _) rfl
  case h_5 => exact h.runs (rfl : execLdx _ _ = _) rfl
  case h_6 => exact h.runs (rfl : execStx _ _ = _) rfl
  case h_7 => exact h.runs (rfl : execLdp _ _ = _) rfl
  case h_8 => exact h.runs (rfl : execStp _ _ = _) rfl
  case h_9 => exact h.runs (rfl : execDvld _ _ = _) rfl
  case h_10 => exact h.runs (rfl : execDvst _ _ = _) rfl
  case h_11 => exact h.runs (rfl : execAtom _ _ = _) rfl
  case h_12 => exact h.runs (rfl : execAcas _ _ = _) rfl
  case h_13 => exact h.runs (rfl : execAtoms _ _ = _) rfl
  case h_14 => exact h.runs (rfl : execRowadd _ _ = _) rfl
  case h_15 => exact h.runs (rfl : execRowld _ _ = _) rfl

/-- R214: an issue with a failing lane takes the cause that its checks choose. -/
theorem exec_checkLanes_trap (h : Ready i s g x) (hm : memSpec x = some m) (hu : x.g.unclass = none) {t : TrapInfo} {s' : State}
    (hc : checkLanes (x.start s) x.active m.lanes m.chk = .trap t s') : Traps i s x s' t := by
  have hbusy : (((x.start s).gang? x.ref).bind Gang.unclass).isSome = false := by simp [Iss.start, hu]
  rw [Traps, exec_memSpec h hm, memForm, if_neg h.someLane, hbusy, Bool.and_false, if_neg Bool.false_ne_true, hc, ← h.instr]
  rfl

end

end Sys2Proof.Machine

namespace Sys2Proof

open Machine in
/-- Settles O24: a form's issue ends with the trap of its checks (`exec_checkLanes_trap`), which is `chooseFail_spec`'s. -/
theorem accessTraps : Obligations.AccessTraps := by
  unfold Obligations.AccessTraps
  exact ⟨fun i m s s' g x t h hm hu hc => exec_checkLanes_trap h hm hu hc, fun active fails t hl h => chooseFail_spec hl h⟩

end Sys2Proof

namespace Sys2Proof.Machine

/-! ### What the digest of an issue changes (R368, R369) -/

theorem mapGang_of {x : Iss} {s : State} {g : Gang} (hg : s.gang? x.ref = some g) (k : Gang → Gang) : x.mapGang s k = s.setGang x.ref (k g) := by
  rw [Iss.mapGang, hg]

/-- R368: the digest takes the terms of one lane and counts them. -/
def foldStep (x : Iss) (s : State) (e : Nat × List (Nat × Nat × Nat × W64)) : State :=
  let seq := (Option.map (fun g : Gang => g.seq.get 0 e.1) (s.gang? x.ref)).getD 0
  x.mapGang (foldTerms s x.who (x.g.index * x.g.width + e.1) seq e.2) fun g => { g with seq := g.seq.set 0 e.1 (seq + 1) }

/-- R368: the digest of an issue is that of its lanes that have a term. -/
theorem foldIssue_fold (s : State) (x : Iss) (accs : List LaneAcc) :
    ∃ l : List (Nat × List (Nat × Nat × Nat × W64)), (∀ e ∈ l, ∃ a va, accTerms x.i a va ≠ []) ∧ foldIssue s x accs = l.foldl (foldStep x) s := by
  unfold foldIssue
  split
  · exact ⟨[], nofun, rfl⟩
  · refine ⟨_, fun e he => ?_, rfl⟩
    obtain ⟨l, -, hl⟩ := List.mem_filterMap.1 he
    dsimp only at hl
    split at hl
    · cases hl
    · next hne =>
      by_contra! hno
      refine hne (List.isEmpty_iff.2 (List.flatMap_eq_nil_iff.2 fun a _ => ?_))
      split
      · exact hno a _
      · rfl

/-- Teams differ in their digests and the issue's gang in its lanes' sequence numbers. -/
structure DigestOnly (x : Iss) (s t : State) : Prop where
  keeps : t = { s with teams := t.teams, gangs := t.gangs }
  team : ∀ k, (t.team? k).map (fun m => { m with digest := 0#64 }) = (s.team? k).map fun m => { m with digest := 0#64 }
  gang : ∀ g, s.gang? x.ref = some g → ∃ q, t.gang? x.ref = some { g with seq := q }
  others : ∀ r, gangNum r ≠ gangNum x.ref → t.gang? r = s.gang? r

theorem foldTerms_digestOnly (x : Iss) (s : State) (thr seq : Nat) (ts : List (Nat × Nat × Nat × W64)) : DigestOnly x s (foldTerms s x.who thr seq ts) where
  keeps := by unfold foldTerms; split <;> rfl
  team k := by
    unfold foldTerms
    split
    · rfl
    · next m hm =>
      rw [team?_setTeam]
      split
      · next hk =>
        rw [hk, hm]
        rfl
      · rfl
  gang g hg := ⟨g.seq, by unfold foldTerms; split <;> exact hg⟩
  others r _ := by unfold foldTerms; split <;> rfl

theorem mapSeq_digestOnly (x : Iss) (s : State) (k : KMap Nat → KMap Nat) : DigestOnly x s (x.mapGang s fun g => { g with seq := k g.seq }) where
  keeps := by unfold Iss.mapGang; split <;> rfl
  team _ := by unfold Iss.mapGang; split <;> rfl
  gang g hg := ⟨k g.seq, by rw [mapGang_of hg, setGang_self]⟩
  others r hr := by
    unfold Iss.mapGang
    split
    · exact setGang_ne s _ hr
    · rfl

theorem scratchByte_eq (s : State) (team half off : Nat) :
    scratchByte s team half off = (((s.team? team).bind (·.half? half)).map fun h => h.bytes.get 0#8 off).getD 0#8 := by
  unfold scratchByte
  cases s.team? team with
  | none => rfl
  | some m =>
    simp only [Option.bind_some]
    cases m.half? half <;> rfl

namespace DigestOnly

variable {x : Iss} {a b c s t : State}

theorem refl (x : Iss) (s : State) : DigestOnly x s s := ⟨rfl, fun _ => rfl, fun g hg => ⟨g.seq, hg⟩, fun _ _ => rfl⟩

theorem trans (h : DigestOnly x a b) (h' : DigestOnly x b c) : DigestOnly x a c where
  keeps := by rw [h'.keeps, h.keeps]
  team k := (h'.team k).trans (h.team k)
  gang g hg := by
    obtain ⟨q, hq⟩ := h.gang g hg
    obtain ⟨q', hq'⟩ := h'.gang _ hq
    exact ⟨q', hq'⟩
  others r hr := (h'.others r hr).trans (h.others r hr)

/-- What is read of a team beside its digest. -/
theorem of_team (h : DigestOnly x s t) {α : Type} (F : Team → Option α) (hF : ∀ m : Team, F { m with digest := 0#64 } = F m) (k : Nat) :
    (t.team? k).bind F = (s.team? k).bind F := by
  have hbind := congrArg (Option.bind · F) (h.team k)
  simpa only [Option.bind_map, Function.comp_def, hF] using hbind

theorem halves (h : DigestOnly x s t) (k half : Nat) : (t.team? k).bind (·.half? half) = (s.team? k).bind (·.half? half) :=
  h.of_team _ (fun _ => rfl) k

theorem stashes (h : DigestOnly x s t) (k half va : Nat) : (t.team? k).bind (stashAt · half va) = (s.team? k).bind (stashAt · half va) :=
  h.of_team _ (fun _ => rfl) k

theorem scratchByte (h : DigestOnly x s t) (k half off : Nat) : scratchByte t k half off = scratchByte s k half off := by
  simp only [scratchByte_eq, h.halves]

theorem scratchSize (h : DigestOnly x s t) (k half : Nat) : scratchSize t k half = scratchSize s k half := by
  simp only [Machine.scratchSize, h.halves]

theorem stashPlace (h : DigestOnly x s t) (w : Who) (a : LaneAcc) : stashPlace t w a = stashPlace s w a := by
  simp only [Machine.stashPlace, h.stashes]

theorem memByte (h : DigestOnly x s t) (pa : Nat) : memByte t pa = memByte s pa := by
  rw [h.keeps]
  rfl

theorem l1 (h : DigestOnly x s t) : t.l1 = s.l1 := by
  rw [h.keeps]

end DigestOnly

theorem foldIssue_digestOnly (s : State) (x : Iss) (accs : List LaneAcc) : DigestOnly x s (foldIssue s x accs) := by
  obtain ⟨l, -, hl⟩ := foldIssue_fold s x accs
  rw [hl]
  exact foldl_keeps (DigestOnly x s) _ (fun t e ht =>
    (ht.trans (foldTerms_digestOnly x t _ _ _)).trans (mapSeq_digestOnly x _ fun q => q.set 0 e.1 _)) _ _ (.refl x s)

/-! ### The issue of accesses that passed their checks (R287, R289) -/

section

variable {x : Iss} {s s0 s' : State} {force write late : Bool} {lanes claims : List Nat} {chk : State → Nat → LaneChk} {accs : List LaneAcc}

/-- The state after the checks has the gangs, the number of the issue and the turn of the agenda as before. -/
theorem Reaches.frame (hr : Reaches x s0 force write lanes chk accs late claims s') (hc : ∀ s l, ChecksKeep s (chk s l).state) :
    s'.gangs = s0.gangs ∧ s'.teams = s0.teams ∧ s'.issueCtr = s0.issueCtr ∧ s'.split = s0.split ∧ s'.dumps = s0.dumps := by
  rw [hr.keeps hc]
  exact ⟨rfl, rfl, rfl, rfl, rfl⟩

/-- R276, R289: the issue of accesses that passed their checks, of a gang without an unclassified issue. -/
theorem memForm_reaches (hz : x.active ≠ 0#64) (hg : s0.gang? x.ref = some x.g) (hr : Reaches x s0 force write lanes chk accs late claims s')
    (hc : ∀ s l, ChecksKeep s (chk s l).state) (ws : List LaneAcc → List RegWrite) :
    memForm x s0 force write lanes chk ws = .ok (if late then x.mapGang (foldIssue s' x accs) (Gang.inFlight (x.op accs claims s0.issueCtr) (ws accs))
      else classified x (foldIssue s' x accs) (x.op accs claims s0.issueCtr) false write (ws accs)) := by
  obtain ⟨s1, hchk, htouch⟩ := hr.checked
  have hkeep := checkLanes_keeps s0 x.active lanes chk hc
  rw [hchk] at hkeep
  have hkeep' : s1 = { s0 with tlb := s1.tlb, walks := s1.walks, counters := s1.counters } := hkeep
  have hg1 : s1.gang? x.ref = some x.g := by rw [hkeep']; exact hg
  have hctr : s1.issueCtr = s0.issueCtr := by rw [hkeep']
  have hpeer : accs.any (·.peer.isSome) = false := by
    simp only [List.any_eq_false, Bool.not_eq_true, Option.isSome_eq_false_iff, Option.isNone_iff_eq_none]
    exact hr.atHome
  simp only [memForm, issueAccs, if_neg hz, hg, hg1, hr.alone.1, hchk, hpeer, hctr, htouch, Option.bind_some, Option.isSome_none, Bool.and_false,
    Bool.false_and, Bool.false_eq_true, if_false]
  cases late <;> rfl

theorem crossHeld_split (s : State) (ctx : Nat) (op : PendOp) (b : Bool) : crossHeld s ctx { op with split := b } = crossHeld s ctx op := rfl

/-- R287, R432: a classified issue is taken apart by the agenda or by a cut that holds its accesses. -/
theorem classified_apart {op : PendOp} (ha : s.split = true ∨ crossHeld s x.who.ctx op = true) (ws : List RegWrite) :
    classified x s op false write ws = x.mapGang s fun g => { g.startOp .awaits ws with late := some { op with split := s.split } } := by
  have hor : (s.split || crossHeld s x.who.ctx op) = true := by simpa using ha
  simp only [classified, crossHeld_split, hor, Bool.false_and, Bool.false_eq_true, if_false, if_true]

/-- R287: else it is performed at once, lane after lane. -/
theorem classified_whole {op : PendOp} (hs : s.split = false) (hh : crossHeld s x.who.ctx op = false) (ws : List RegWrite) :
    classified x s op false write ws =
      x.mapGang (performOp (restash s x.who { op with split := s.split }).2 x.who (restash s x.who { op with split := s.split }).1).s
        fun g => g.startOp .ready (performOp (restash s x.who { op with split := s.split }).2 x.who
          (restash s x.who { op with split := s.split }).1).writes := by
  simp only [classified, crossHeld_split, hs, hh, Bool.false_and, Bool.or_self, Bool.false_eq_true, if_false]

theorem startOp_nil (kind : FillKind) (g : Gang) : g.startOp kind [] = g.takeNumber := rfl

theorem startOp_of {ws : List RegWrite} (h : ws ≠ []) (kind : FillKind) (g : Gang) : g.startOp kind ws = g.startFill kind ws 0#5 false := by
  rw [Gang.startOp, if_neg (by simpa using h)]

end

section

variable {i : Instr} {s s' : State} {g : Gang} {x : Iss} {m : MemSpec} {accs : List LaneAcc} {late : Bool} {claims : List Nat}

@[simp] theorem start_gang? (x : Iss) (s : State) : (x.start s).gang? x.ref = some x.g := setGang_self s x.ref x.g

/-- R213, R276: a form whose accesses pass their checks commits their issue. -/
theorem exec_reaches (h : Ready i s g x) (hm : memSpec x = some m)
    (hr : Reaches x (x.start s) m.force m.write m.lanes m.chk accs late claims s') :
    Commits i s x (if late then x.mapGang (foldIssue s' x accs) (Gang.inFlight (x.op accs claims s.issueCtr) (m.empties accs))
      else classified x (foldIssue s' x accs) (x.op accs claims s.issueCtr) false m.write (m.empties accs)) := by
  rw [Commits, exec_memSpec h hm, memForm_reaches h.someLane (start_gang? x s) hr (memSpec_keeps hm), finishIssue_ok h.unbroken]
  rfl

end

end Sys2Proof.Machine

namespace Sys2Proof

open Machine in
/-- Settles O23: the issue is `exec_reaches`; a classified one is `classified_whole` or `classified_apart`. -/
theorem memoryIssues : Obligations.MemoryIssues := by
  unfold Obligations.MemoryIssues
  intro i m s s' g x accs late claims h hm hr s2 op ws p r apart
  have hexec := exec_reaches h hm hr
  obtain ⟨-, -, -, hsplit, -⟩ := hr.frame (memSpec_keeps hm)
  have hsplit2 : s2.split = s.split := (congrArg State.split (foldIssue_digestOnly s' x accs).keeps).trans hsplit
  have hop : op = { x.op accs claims s.issueCtr with split := s2.split } := by simp only [op, hsplit2]
  have hwhole (hl : late = false) (ha : ¬apart) : Commits i s x (x.mapGang r.s fun g => g.startOp .ready r.writes) := by
    have hns : s2.split = false := by
      rw [hsplit2, ← Bool.not_eq_true]
      exact fun hs => ha (.inl hs)
    have hnh : crossHeld s2 x.who.ctx (x.op accs claims s.issueCtr) = false := by
      rw [← Bool.not_eq_true]
      exact fun hh => ha (.inr hh)
    rw [hl, if_neg Bool.false_ne_true, classified_whole hns hnh, ← hop] at hexec
    exact hexec
  refine ⟨fun hl ha hn => ?_, fun hl ha hn => ?_, fun hl ha => ?_, fun hl => ?_⟩
  · have hnone : (fun g : Gang => g.startOp .ready r.writes) = Gang.takeNumber := by simp only [hn, startOp_nil]
    exact hnone ▸ hwhole hl ha
  · have hsome : (fun g : Gang => g.startOp .ready r.writes) = fun g => g.startFill .ready r.writes 0#5 false := by simp only [startOp_of hn]
    exact hsome ▸ hwhole hl ha
  · have ha2 : s2.split = true ∨ crossHeld s2 x.who.ctx (x.op accs claims s.issueCtr) = true := ha.imp hsplit2.trans id
    rw [hl, if_neg Bool.false_ne_true, classified_apart ha2, ← hop] at hexec
    exact hexec
  · rw [hl, if_pos rfl] at hexec
    exact hexec

end Sys2Proof

namespace Sys2Proof.Machine

/-! ### STASH and UNSTASH (R221, R222) -/

/-- The state after the checks of a mapping. -/
def StashChk.state : StashChk → State
  | .wait s => s
  | .fail _ s => s
  | .ok s => s

theorem stashCheck_keeps (s : State) (x : Iss) (base off len : Nat) : ChecksKeep s (stashCheck s x base off len).state := by
  have hk := xlatPieces_keeps s x.who.core x.who.ctx .read .global 0 base [] [] (pagePieces base len)
  unfold stashCheck
  simp only
  split
  · exact .refl s
  · split
    · next h => rw [h] at hk; exact hk
    · next h => rw [h] at hk; exact hk
    · next h =>
      rw [h] at hk
      repeat' split
      all_goals exact hk

section

variable {f : Fields} {s s1 s2 : State} {g : Gang} {x : Iss} {t t' : Team} {u : Bool} {cs : List Nat} {m : Stash}

/-- R221: the mapping that a STASH of the issue makes. -/
def Iss.mapping (x : Iss) (s : State) : Stash :=
  { half := x.who.half, base := (x.a x.low).toNat, off := (x.b x.low).toNat % 2 ^ 32, len := (x.b x.low).toNat / 2 ^ 32, filled := [], dirty := [],
    since := s.issueCtr }

/-- R222: whether a mapping begins at the offset that an UNSTASH names. -/
def Iss.unmaps (x : Iss) (m : Stash) : Bool := m.half == x.who.half && m.off == (x.a x.low).toNat

theorem stash_commits (h : Ready (.stash f) s g x)
    (hchk : stashCheck (x.start s) x (x.mapping s).base (x.mapping s).off (x.mapping s).len = .ok s1)
    (htouch : touchPages s1 x.who.slot x.who.index x.who.owner false false x.g.unclass.isSome
      ((pagePieces (x.mapping s).base (x.mapping s).len).map fun p => p.1 / 4096) = .go u cs s2)
    (ht : s2.team? x.who.team = some t) :
    let s3 := s2.setTeam x.who.team { t with stashes := t.stashes ++ [x.mapping s] }
    Commits (.stash f) s x (if u then x.mapGang s3 countUnclass else s3) := by
  intro s3
  have hkeep := stashCheck_keeps (x.start s) x (x.mapping s).base (x.mapping s).off (x.mapping s).len
  rw [hchk] at hkeep
  have hkeep' : s1 = { x.start s with tlb := s1.tlb, walks := s1.walks, counters := s1.counters } := hkeep
  have hg1 : s1.gang? x.ref = some x.g := by rw [hkeep']; exact start_gang? x s
  have hctr : s2.issueCtr = s.issueCtr := by
    rw [touchPages_keeps _ _ _ _ _ _ _ _ _ _ _ htouch, hkeep']
    rfl
  rw [Commits, h.runs (rfl : execStash f s = _) rfl, ← finishIssue_ok h.unbroken]
  unfold Iss.mapping at hchk htouch
  simp only [if_neg h.someLane, hchk, hg1, Option.bind_some, htouch, ht, hctr]
  rfl

theorem unstash_traps (h : Ready (.unstash f) s g x) (ht : s.team? x.who.team = some t) (hm : t.stashes.find? x.unmaps = none) :
    Traps (.unstash f) s x (x.start s)
      { cause := 0x21, tmask := x.active, taddr := w64 (x.a x.low).toNat, thit := x.lowMask, tpc := none } := by
  have ht' : (x.start s).team? x.who.team = some t := ht
  unfold Iss.unmaps at hm
  rw [Traps, h.runs (rfl : execUnstash f s = _) rfl, ← h.instr]
  simp only [if_neg h.someLane, ht', hm]
  rfl

theorem unstash_commits (h : Ready (.unstash f) s g x) (ht : s.team? x.who.team = some t) (hm : t.stashes.find? x.unmaps = some m)
    (hw : unstashWaits (x.start s) x m = false)
    (htouch : touchPages (x.start s) x.who.slot x.who.index x.who.owner true false x.g.unclass.isSome (stashPages (x.start s) x.who.slot m) =
      .go u cs s2) (ht' : (stashWriteBack s2 x.who.team t m).team? x.who.team = some t') :
    Commits (.unstash f) s x ((stashWriteBack s2 x.who.team t m).setTeam x.who.team
      { t' with stashes := t'.stashes.filter fun m => !x.unmaps m }) := by
  have hteam : (x.start s).team? x.who.team = some t := ht
  unfold Iss.unmaps at hm ⊢
  rw [Commits, h.runs (rfl : execUnstash f s = _) rfl, ← finishIssue_ok h.unbroken]
  simp only [if_neg h.someLane, hteam, hm, hw, Bool.false_eq_true, if_false, start_gang?, Option.bind_some, htouch, ht']

end

end Sys2Proof.Machine

namespace Sys2Proof

open Machine in
/-- Settles O31: one lemma for each outcome. -/
theorem stashes : Obligations.Stashes := by
  unfold Obligations.Stashes
  intro f s s1 s2 g x t u cs base off len map isAt busy
  exact ⟨stash_commits, unstash_traps, fun h ht m hm hw htouch t' ht' => unstash_commits h ht hm hw htouch ht'⟩

end Sys2Proof

namespace Sys2Proof.Machine

/-! ### What accesses read (R211, R217, R311) -/

/-- From s to t the gangs and everything that an access reads of memory and scratchpad are kept. -/
structure ReadsKept (s t : State) : Prop where
  lines : l1Ok s.l1 → l1Ok t.l1
  mem : ∀ pa, memByte t pa = memByte s pa
  poison : ∀ word, wordPoisoned t word = wordPoisoned s word
  copies : ∀ core slot pa, copyPoisoned t core slot pa = copyPoisoned s core slot pa
  scratch : ∀ team half off, scratchByte t team half off = scratchByte s team half off ∧
    scratchPoisoned t team half off = scratchPoisoned s team half off ∧ scratchSize t team half = scratchSize s team half
  gangs : t.gangs = s.gangs

namespace ReadsKept

theorem refl (s : State) : ReadsKept s s := ⟨id, fun _ => rfl, fun _ => rfl, fun _ _ _ => rfl, fun _ _ _ => ⟨rfl, rfl, rfl⟩, rfl⟩

theorem trans {a b c : State} (h : ReadsKept a b) (h' : ReadsKept b c) : ReadsKept a c where
  lines ha := h'.lines (h.lines ha)
  mem pa := (h'.mem pa).trans (h.mem pa)
  poison w := (h'.poison w).trans (h.poison w)
  copies core slot pa := (h'.copies core slot pa).trans (h.copies core slot pa)
  scratch team half off :=
    ⟨(h'.scratch team half off).1.trans (h.scratch team half off).1, (h'.scratch team half off).2.1.trans (h.scratch team half off).2.1,
      (h'.scratch team half off).2.2.trans (h.scratch team half off).2.2⟩
  gangs := h'.gangs.trans h.gangs

theorem foldl {α : Type} {step : State → α → State} (h : ∀ s a, ReadsKept s (step s a)) (l : List α) (s : State) : ReadsKept s (l.foldl step s) :=
  foldl_keeps (ReadsKept s) step (fun t a ht => ht.trans (h t a)) l s (refl s)

/-- A change of none of the fields that accesses read. -/
theorem of_same {s t : State} (h : (t.l1, t.mem, t.memPoison, t.teams, t.gangs) = (s.l1, s.mem, s.memPoison, s.teams, s.gangs)) : ReadsKept s t := by
  obtain ⟨hl, hm, hp, ht, hg⟩ : t.l1 = s.l1 ∧ t.mem = s.mem ∧ t.memPoison = s.memPoison ∧ t.teams = s.teams ∧ t.gangs = s.gangs := by
    simpa only [Prod.mk.injEq] using h
  refine ⟨fun h => hl ▸ h, fun pa => ?_, fun w => ?_, fun core slot pa => ?_, fun team half off => ⟨?_, ?_, ?_⟩, hg⟩
  · simp only [memByte, homeByte, hl, hm]
  · simp only [wordPoisoned, hl, hp]
  · simp only [copyPoisoned, hl]
  · simp only [scratchByte, State.team?, ht]
  · simp only [scratchPoisoned, State.team?, ht]
  · simp only [scratchSize, State.team?, ht]

/-- A change of the lines that leaves their places, their dirty bytes and their poison. -/
theorem of_lines {s t : State} {k : L1Line → L1Line} (hk : ∀ l, (k l).core = l.core ∧ (k l).slot = l.slot ∧ (k l).line = l.line ∧
    (k l).dirty = l.dirty ∧ (k l).poison = l.poison) (hl : t.l1 = s.l1.map k)
    (h : (t.mem, t.memPoison, t.teams, t.gangs) = (s.mem, s.memPoison, s.teams, s.gangs)) : ReadsKept s t := by
  obtain ⟨hm, hp, ht, hg⟩ : t.mem = s.mem ∧ t.memPoison = s.memPoison ∧ t.teams = s.teams ∧ t.gangs = s.gangs := by
    simpa only [Prod.mk.injEq] using h
  have hlines := map_lines_spec k (fun l => let ⟨h1, h2, h3, h4, _⟩ := hk l; ⟨h1, h2, h3, h4⟩) s.l1
  refine ⟨fun h => hl ▸ hlines.1 h, fun pa => ?_, fun w => ?_, fun core slot pa => ?_, fun team half off => ⟨?_, ?_, ?_⟩, hg⟩
  · simp only [memByte, homeByte, hl, hm, hlines.2]
  · simp only [wordPoisoned, hl, hp, List.any_map, Function.comp_def, (hk _).2.2.2.1, (hk _).2.2.2.2]
  · simp only [copyPoisoned, hl, List.any_map, Function.comp_def, (hk _).1, (hk _).2.1, (hk _).2.2.1, (hk _).2.2.2.2]
  · simp only [scratchByte, State.team?, ht]
  · simp only [scratchPoisoned, State.team?, ht]
  · simp only [scratchSize, State.team?, ht]

theorem gang? {s t : State} (h : ReadsKept s t) (r : GangRef) : t.gang? r = s.gang? r := by
  simp only [State.gang?, h.gangs]

end ReadsKept

/-- What an access reads depends on the gang's held stores beside memory and scratchpad. -/
theorem readAcc_congr {s t : State} {w : Who} (h : ReadsKept s t) (n : Nat) : readAcc t w n = readAcc s w n := by
  funext a
  simp only [readAcc, h.gang?, h.mem, h.poison, h.copies, h.scratch]

/-! ### Correctable errors of the words that an access reads (R55, R406) -/

theorem correctMem_readsKept (s : State) (die pa n : Nat) : ReadsKept s (correctMem s die pa n) := by
  unfold correctMem
  simp only
  split <;> exact .of_same rfl

theorem correctDie_readsKept (s : State) (core slot pa n : Nat) : ReadsKept s (correctDie s core slot pa n) := by
  unfold correctDie
  simp only
  split <;> exact .of_same rfl

theorem correctCopy_readsKept (s : State) (core slot pa n : Nat) : ReadsKept s (correctCopy s core slot pa n) := by
  unfold correctCopy
  simp only
  split
  · exact .refl s
  · refine .of_lines (fun l => ?_) rfl rfl
    split <;> exact ⟨rfl, rfl, rfl, rfl, rfl⟩

theorem half?_setHalf {t : Team} {half : Nat} {h : Half} (hh : t.half? half = some h) (h' : Half) (half' : Nat) :
    (t.setHalf half h').half? half' = if half' = half then some h' else t.half? half' := by
  have hlt : half < t.halves.length := (List.getElem?_eq_some_iff.1 (show t.halves[half]? = some h from hh)).1
  unfold Team.half? Team.setHalf
  split
  · next hq => subst hq; simp [hlt]
  · next hq => exact List.getElem?_set_ne (Ne.symm hq)

/-- A half changed in what no access reads of it. -/
theorem setHalf_readsKept {s : State} {team half : Nat} {t : Team} {h h' : Half} (ht : s.team? team = some t) (hh : t.half? half = some h)
    (hsame : h'.bytes = h.bytes ∧ h'.poison = h.poison ∧ h'.scratchUnits = h.scratchUnits) : ReadsKept s (s.setTeam team (t.setHalf half h')) := by
  obtain ⟨hb, hp, hu⟩ := hsame
  have hkept (team' half' off : Nat) : scratchByte (s.setTeam team (t.setHalf half h')) team' half' off = scratchByte s team' half' off ∧
      scratchPoisoned (s.setTeam team (t.setHalf half h')) team' half' off = scratchPoisoned s team' half' off ∧
      scratchSize (s.setTeam team (t.setHalf half h')) team' half' = scratchSize s team' half' := by
    unfold scratchByte scratchPoisoned scratchSize
    rw [team?_setTeam]
    by_cases hk : team' = team
    · subst hk
      simp only [if_true, ht, Option.bind_some, half?_setHalf hh]
      by_cases hq : half' = half
      · subst hq
        simp only [if_true, hh, hb, hp, Option.map_some, hu, and_self]
      · simp only [if_neg hq, and_self]
    · simp only [if_neg hk, and_self]
  exact ⟨id, fun _ => rfl, fun _ => rfl, fun _ _ _ => rfl, hkept, rfl⟩

theorem correctScratch_readsKept (s : State) (core team half off n : Nat) : ReadsKept s (correctScratch s core team half off n) := by
  unfold correctScratch
  split
  · exact .refl s
  · next t ht =>
    split
    · exact .refl s
    · next h hh =>
      simp only
      split
      · exact .refl s
      · have hset := setHalf_readsKept (h' := { h with corr := (correctWords h.corr off n).1 }) ht hh ⟨rfl, rfl, rfl⟩
        exact hset.trans (.of_same rfl)

theorem correctAcc_readsKept (s : State) (w : Who) (a : LaneAcc) : ReadsKept s (correctAcc s w a) := by
  have hmem : ReadsKept s (correctMem (correctDie (correctCopy s w.core w.slot a.pa a.size) w.core w.slot a.pa a.size)
      (homeDie a.pa (pteBit a.leaf 8)) a.pa a.size) :=
    ((correctCopy_readsKept s _ _ _ _).trans (correctDie_readsKept _ _ _ _ _)).trans (correctMem_readsKept _ _ _ _)
  unfold correctAcc
  split
  · exact .refl s
  · split
    · exact correctScratch_readsKept s _ _ _ _ _
    · exact hmem

theorem noteStore_readsKept (s : State) (slot pa n : Nat) : ReadsKept s (noteStore s slot pa n) := by
  unfold noteStore
  split <;> exact .of_same rfl

/-- R11, R406: what the accesses of an issue meet changes nothing that they read. -/
theorem meetAccs_readsKept (s : State) (w : Who) (op : PendOp) : ReadsKept s (meetAccs s w op) := by
  refine .foldl (fun s a => ?_) op.accs s
  have hfirst : ReadsKept s (if onlyWrites op.i = true then s else correctAcc s w a) := by
    split
    · exact .refl s
    · exact correctAcc_readsKept s w a
  simp only
  split
  · exact hfirst
  · split
    · exact hfirst
    · exact hfirst.trans (noteStore_readsKept _ _ _ _)

/-- R213, R295: so do its checks and the touches of its pages. -/
theorem Reaches.readsKept {x : Iss} {s0 s' : State} {force write late : Bool} {lanes claims : List Nat} {chk : State → Nat → LaneChk}
    {accs : List LaneAcc} (hr : Reaches x s0 force write lanes chk accs late claims s') (hc : ∀ s l, ChecksKeep s (chk s l).state) :
    ReadsKept s0 s' := by
  rw [hr.keeps hc]
  exact .of_same rfl

theorem ChecksKeep.readsKept {s t : State} (h : ChecksKeep s t) : ReadsKept s t := by
  rw [show t = _ from h]
  exact .of_same rfl

end Sys2Proof.Machine

namespace Sys2Proof.Machine

/-! ### Issues that no digest and no stash line meets (R221, R368) -/

/-- R368: forms without a term leave the digest as it is. -/
theorem foldIssue_noTerms {x : Iss} (h : ∀ a va, accTerms x.i a va = []) (s : State) (accs : List LaneAcc) : foldIssue s x accs = s := by
  obtain ⟨l, hl, hfold⟩ := foldIssue_fold s x accs
  have hnil : l = [] := List.eq_nil_iff_forall_not_mem.2 fun e he => let ⟨a, va, hne⟩ := hl e he; hne (h a va)
  rw [hfold, hnil]
  rfl

theorem stashAccess_unmapped {s : State} {w : Who} {a : LaneAcc} (h : stashPlace s w a = none) (write : Bool) (issue : Option Nat) :
    stashAccess s w write a issue = (a, s) := by
  unfold stashAccess
  rw [h]
  split
  · next hsome => cases hsome
  · rfl

/-- R221: accesses that meet no mapped line stay as they are. -/
theorem restash_unmapped {s : State} {w : Who} {op : PendOp} (h : ∀ a ∈ op.accs, stashPlace s w a = none) : restash s w op = (op, s) := by
  have hall (accs pre : List LaneAcc) (h : ∀ a ∈ accs, stashPlace s w a = none) :
      accs.foldl (fun (r : List LaneAcc × State) a =>
        let p := stashAccess r.2 w (!onlyReads op.i) a (some op.stamp)
        (r.1 ++ [p.1], p.2)) (pre, s) = (pre ++ accs, s) := by
    induction accs generalizing pre with
    | nil => rw [List.append_nil]; rfl
    | cons a t ih =>
      rw [List.foldl_cons, stashAccess_unmapped (h a List.mem_cons_self), ih _ fun b hb => h b (List.mem_cons_of_mem a hb)]
      simp only [List.append_assoc, List.singleton_append]
  unfold restash stashAll
  rw [hall op.accs [] h]
  rfl

theorem stashPlace_congr {s t : State} (h : t.teams = s.teams) (w : Who) (a : LaneAcc) : stashPlace t w a = stashPlace s w a := by
  simp only [stashPlace, State.team?, h]

theorem crossHeld_congr {s t : State} (h : t.dumps = s.dumps) (ctx : Nat) (op : PendOp) : crossHeld t ctx op = crossHeld s ctx op := by
  simp only [crossHeld, h]

/-- R287: a classified issue performed at once, which no stash line meets. -/
theorem classified_performs {x : Iss} {s : State} {op : PendOp} {write : Bool} {ws : List RegWrite} (hop : op.split = false) (hs : s.split = false)
    (hh : crossHeld s x.who.ctx op = false) (hu : ∀ a ∈ op.accs, stashPlace s x.who a = none) :
    classified x s op false write ws = x.mapGang (performOp s x.who op).s fun g => g.startOp .ready (performOp s x.who op).writes := by
  have hsame : { op with split := s.split } = op := by rw [hs, ← hop]
  rw [classified_whole hs hh, hsame, restash_unmapped hu]

/-! ### The accesses of a lane that passed its checks -/

theorem joinChk_ok {r : LaneChk} {next : State → LaneChk} {accs : List LaneAcc} {s : State} (h : joinChk r next = .ok accs s) :
    ∃ first s1 more, r = .ok first s1 ∧ next s1 = .ok more s ∧ accs = first ++ more := by
  cases r with
  | miss s1 => cases h
  | ok first s1 =>
    simp only [joinChk] at h
    split at h
    · next more s2 hn =>
      cases h
      exact ⟨first, s1, more, rfl, hn, rfl⟩
    · next hn => exact absurd h (hn _ _)
  | fail c a s1 =>
    simp only [joinChk] at h
    repeat' split at h
    all_goals cases h

theorem xlatPiece_ok {core ctx : Nat} {acc : Access} {sp : Space} {lane va : Nat} {d d2 : List Byte} {p : Nat × Nat} {s t : State}
    {accs : List LaneAcc} (h : xlatPiece core ctx acc sp lane va d d2 p s = .ok accs t) : ∃ a : LaneAcc, accs = [a] ∧ a.space = sp := by
  unfold xlatPiece at h
  simp only at h
  split at h
  · cases h
  · cases h
  · cases h
    exact ⟨_, rfl, rfl⟩
  · cases h
    exact ⟨_, rfl, rfl⟩

/-- What passes the checks of a list of pieces is what passed the check of one of them. -/
theorem joinAll_ok {α : Type} {f : α → State → LaneChk} {ps : List α} {s t : State} {accs : List LaneAcc}
    (h : ps.foldl (fun r p => joinChk r (f p)) (.ok [] s) = .ok accs t) :
    (∀ a ∈ accs, ∃ p ∈ ps, ∃ u part v, f p u = .ok part v ∧ a ∈ part) ∧
      (ps ≠ [] → (∀ p u part v, f p u = .ok part v → part ≠ []) → accs ≠ []) := by
  induction ps using List.reverseRecOn generalizing accs t with
  | nil =>
    cases h
    exact ⟨nofun, fun hne => absurd rfl hne⟩
  | append_singleton ps p ih =>
    rw [List.foldl_append, List.foldl_cons, List.foldl_nil] at h
    obtain ⟨first, u, more, hfirst, hmore, rfl⟩ := joinChk_ok h
    refine ⟨fun a ha => ?_, fun _ hne => List.append_ne_nil_of_right_ne_nil _ (hne p u more t hmore)⟩
    rcases List.mem_append.1 ha with ha | ha
    · obtain ⟨p', hp', hpart⟩ := (ih hfirst).1 a ha
      exact ⟨p', List.mem_append_left _ hp', hpart⟩
    · exact ⟨p, List.mem_append_right _ (List.mem_singleton.2 rfl), u, more, t, hmore, ha⟩

theorem pagePieces_ne_nil {n : Nat} (h : n ≠ 0) (va : Nat) : pagePieces va n ≠ [] := by
  simp [pagePieces, h]

/-- R213: an access has a part in each of its pages, in its space. -/
theorem xlatPieces_ok {core ctx : Nat} {acc : Access} {sp : Space} {lane va : Nat} {d d2 : List Byte} {ps : List (Nat × Nat)} {s t : State}
    {accs : List LaneAcc} (h : xlatPieces s core ctx acc sp lane va d d2 ps = .ok accs t) :
    (ps ≠ [] → accs ≠ []) ∧ ∀ a ∈ accs, a.space = sp := by
  obtain ⟨hmem, hne⟩ := joinAll_ok h
  refine ⟨fun hps => hne hps fun p u part v hp => ?_, fun a ha => ?_⟩
  · obtain ⟨b, rfl, -⟩ := xlatPiece_ok hp
    exact List.cons_ne_nil b []
  · obtain ⟨p, -, u, part, v, hp, hpart⟩ := hmem a ha
    obtain ⟨b, rfl, hb⟩ := xlatPiece_ok hp
    rw [List.mem_singleton.1 hpart]
    exact hb

section

variable {s t : State} {g : Gang} {w : Who} {r : TaskRec} {q : AccReq} {accs : List LaneAcc}

/-- R213: the accesses that pass a global check are of global bytes. -/
theorem globalCheck_ok {byteAddr : Bool} (h : globalCheck s g w r q byteAddr = .ok accs t) :
    (q.size ≠ 0 → accs ≠ []) ∧ ∀ a ∈ accs, a.space = .global := by
  unfold globalCheck at h
  dsimp only at h
  split at h
  · cases h
  · cases h
  · next hx =>
    split_ifs at h
    all_goals
      cases h
      exact ⟨fun hn => (xlatPieces_ok hx).1 (pagePieces_ne_nil hn _), (xlatPieces_ok hx).2⟩

theorem alignCheck_ok {a : LaneAcc} {taddr : Nat} (h : alignCheck q a taddr s = .ok accs t) : accs = [a] := by
  unfold alignCheck at h
  split at h
  · cases h
  · cases h
    rfl

/-- R219, R221: a scratchpad access that passes stays one, or is one of the bytes of a shared page. -/
theorem stashLane_ok {g : Option Gang} {a : LaneAcc} (h : stashLane s w r g q a = .ok accs t) : ∃ b, accs = [b] ∧ (b = a ∨ b.space = .global) := by
  unfold stashLane at h
  dsimp only at h
  split at h
  · split at h
    · exact ⟨a, alignCheck_ok h, .inl rfl⟩
    · split at h
      · cases h
      · cases h
      · cases h
      · generalize (if q.kind = .read then _ else _ : Bool) = declared at h
        generalize (if pageShared s w.slot _ = true then _ else _ : Nat) = taddr at h
        split_ifs at h
        · exact ⟨a, alignCheck_ok h, .inl rfl⟩
        · exact ⟨_, alignCheck_ok h, .inr rfl⟩
  · exact ⟨a, alignCheck_ok h, .inl rfl⟩

/-- R213, R219: it is within its half. -/
theorem localCheck_ok {g : Option Gang} {half : Nat} {may : Bool} (h : localCheck s w r g half may q = .ok accs t) :
    ∃ b, accs = [b] ∧ (b = q.inScratch half ∧ q.va + q.size ≤ scratchSize s w.team half ∨ b.space = .global) := by
  by_cases hin : may = false ∨ ¬ q.va + q.size ≤ scratchSize s w.team half
  · rw [localCheck_outside hin] at h
    cases h
  · obtain ⟨hmay, hin⟩ := not_or.1 hin
    rw [Bool.not_eq_false] at hmay
    rw [hmay, localCheck_inside (not_not.1 hin)] at h
    obtain ⟨b, rfl, hb⟩ := stashLane_ok h
    exact ⟨b, rfl, hb.imp_left fun hb => ⟨hb, not_not.1 hin⟩⟩

theorem privWord_ok {va : Nat} {data : List Byte} (h : privWord g w q va data s = .ok accs t) : accs ≠ [] ∧ ∀ a ∈ accs, a.space = .priv := by
  unfold privWord at h
  dsimp only at h
  split at h
  · cases h
  · cases h
  · next hx =>
    split_ifs at h
    cases h
    exact ⟨(xlatPieces_ok hx).1 (pagePieces_ne_nil (by decide) _), (xlatPieces_ok hx).2⟩

/-- R216: the accesses that pass the check of private words are of the private area. -/
theorem privCheck_ok {word : Int} {k : Nat} (h : privCheck s g w q word k = .ok accs t) : (k ≠ 0 → accs ≠ []) ∧ ∀ a ∈ accs, a.space = .priv := by
  unfold privCheck at h
  split at h
  · cases h
  · obtain ⟨hmem, hne⟩ := joinAll_ok h
    refine ⟨fun hk => hne (by simpa using hk) fun j u part v hj => (privWord_ok hj).1, fun a ha => ?_⟩
    obtain ⟨j, -, u, part, v, hj, hpart⟩ := hmem a ha
    exact (privWord_ok hj).2 a hpart

end

/-- The lanes of an issue pass their checks one after the other: those of each lane from the state that the one before left. -/
inductive LanesPass (chk : State → Nat → LaneChk) : State → List Nat → List LaneAcc → State → Prop
  | nil (s : State) : LanesPass chk s [] [] s
  | cons {s t u : State} {l : Nat} {ls : List Nat} {first rest : List LaneAcc} :
      chk s l = .ok first t → LanesPass chk t ls rest u → LanesPass chk s (l :: ls) (first ++ rest) u

/-- One lane's checks among those of an issue: the state, the accesses, the failures, and whether a walk is waited for. -/
def laneStep (chk : State → Nat → LaneChk) (r : State × List LaneAcc × List (Nat × Nat × W64) × Bool) (l : Nat) :
    State × List LaneAcc × List (Nat × Nat × W64) × Bool :=
  match chk r.1 l with
  | .miss s => (s, r.2.1, r.2.2.1, true)
  | .fail c a s => (s, r.2.1, r.2.2.1 ++ [(l, c, a)], r.2.2.2)
  | .ok accs s => (s, r.2.1 ++ accs, r.2.2.1, r.2.2.2)

theorem laneStep_fold {chk : State → Nat → LaneChk} {ls : List Nat} {s u : State} {before accs : List LaneAcc} {fails : List (Nat × Nat × W64)} {b : Bool}
    (h : ls.foldl (laneStep chk) (s, before, fails, b) = (u, accs, [], false)) :
    fails = [] ∧ b = false ∧ ∃ rest, accs = before ++ rest ∧ LanesPass chk s ls rest u := by
  induction ls generalizing s before fails b with
  | nil =>
    cases h
    exact ⟨rfl, rfl, [], (List.append_nil _).symm, .nil u⟩
  | cons l ls ih =>
    rw [List.foldl_cons] at h
    unfold laneStep at h
    cases hc : chk s l with
    | miss t =>
      simp only [hc] at h
      cases (ih h).2.1
    | fail c a t =>
      simp only [hc] at h
      exact absurd (ih h).1 (by simp)
    | ok first t =>
      simp only [hc] at h
      obtain ⟨hf, hb, rest, rfl, hpass⟩ := ih h
      exact ⟨hf, hb, first ++ rest, List.append_assoc _ _ _, .cons hc hpass⟩

theorem checkLanes_ok {s u : State} {active : LaneMask} {lanes : List Nat} {chk : State → Nat → LaneChk} {accs : List LaneAcc}
    (h : checkLanes s active lanes chk = .ok accs u) : LanesPass chk s lanes accs u := by
  obtain ⟨t, found, fails, b, hr⟩ : ∃ t found fails b, lanes.foldl (laneStep chk) (s, [], [], false) = (t, found, fails, b) := ⟨_, _, _, _, rfl⟩
  have hdef : checkLanes s active lanes chk = (let r := lanes.foldl (laneStep chk) (s, [], [], false)
      if r.2.2.2 then .wait r.1 else match chooseFail active r.2.2.1 with
        | some i => .trap i r.1
        | none => .ok r.2.1 r.1) := rfl
  rw [hr] at hdef
  rw [hdef] at h
  cases b with
  | true => cases h
  | false =>
    cases fails with
    | cons e es => cases h
    | nil =>
      cases h
      obtain ⟨-, -, rest, rfl, hpass⟩ := laneStep_fold hr
      exact hpass

section

variable {chk : State → Nat → LaneChk} {s u : State} {ls : List Nat} {accs : List LaneAcc}

/-- Every access is one of a lane, checked in a state that the checks before it left. -/
theorem LanesPass.mem (h : LanesPass chk s ls accs u) (hc : ∀ s l, ChecksKeep s (chk s l).state) {a : LaneAcc} (ha : a ∈ accs) :
    ∃ t l part v, ChecksKeep s t ∧ chk t l = .ok part v ∧ a ∈ part := by
  induction h with
  | nil => cases ha
  | @cons s t u l ls first rest hl hpass ih =>
    rcases List.mem_append.1 ha with ha | ha
    · exact ⟨s, l, first, t, .refl s, hl, ha⟩
    · obtain ⟨t', l', part, v, hkeep, hpart⟩ := ih ha
      have hk := hc s l
      rw [hl] at hk
      exact ⟨t', l', part, v, hk.trans hkeep, hpart⟩

theorem LanesPass.ne_nil (h : LanesPass chk s ls accs u) (hls : ls ≠ []) (hc : ∀ s l part v, chk s l = .ok part v → part ≠ []) : accs ≠ [] := by
  cases h with
  | nil => exact absurd rfl hls
  | cons hl _ => simp [hc _ _ _ _ hl]

end

end Sys2Proof.Machine

namespace Sys2Proof.Machine

/-! ### The register image of a lane's bytes (R211) -/

theorem loadImage_ne_nil (i : Instr) (f : Fields) (bs : List (Byte × Bool)) : loadImage i f bs ≠ [] := by
  unfold loadImage
  dsimp only
  split_ifs
  all_goals exact List.cons_ne_nil _ _

theorem destWrites_ne_nil (i : Instr) (f : Fields) (lane : Nat) (bs : List (Byte × Bool)) : destWrites i f lane bs ≠ [] := by
  simp [destWrites, loadImage_ne_nil]

/-- R210: an S destination has no lane. -/
theorem destWrites_lane {f : Fields} (h : ¬ f.d.toNat < 0x600) (i : Instr) (l l' : Nat) (bs : List (Byte × Bool)) :
    destWrites i f l bs = destWrites i f l' bs := by
  simp only [destWrites, if_neg h]

section

variable {i : Instr} {f : Fields} (h : i = .ld f ∨ i = .lds f ∨ i = .ldx f)

include h

theorem loadImage_double (hv : f.variant = 0) (bs : List (Byte × Bool)) :
    (loadImage i f bs).map Prod.fst = [w64 (leVal ((bs.take 8).map Prod.fst))] := by
  rcases h with rfl | rfl | rfl <;> simp [loadImage, hv]

theorem loadImage_pair (hv : f.variant = 2) (bs : List (Byte × Bool)) :
    (loadImage i f bs).map Prod.fst = [w64 (leVal ((bs.take 8).map Prod.fst)), w64 (leVal (((bs.drop 8).take 8).map Prod.fst))] := by
  rcases h with rfl | rfl | rfl <;> simp [loadImage, hv]

theorem loadImage_sized (hv : f.variant = 1) (bs : List (Byte × Bool)) :
    (loadImage i f bs).map Prod.fst = [if typeIsSigned f.tcode then BitVec.ofInt 64 (signExt (leVal (bs.map Prod.fst)) (typeWidth f.tcode))
      else w64 (leVal (bs.map Prod.fst))] := by
  rcases h with rfl | rfl | rfl <;> simp [loadImage, hv]

end

/-! ### LDK (R218) -/

theorem fetchBytes_keeps (s : State) (core ctx va n : Nat) : ChecksKeep s (fetchBytes s core ctx va n).2 := by
  refine foldl_keeps (fun r : Except (Option Nat) (List Nat) × State => ChecksKeep s r.2) _ (fun r p hr => ?_) _ _ (.refl s)
  have hk := hr.trans (coreXlat_keeps r.2 core ctx p.1 .exec)
  split
  · exact hr
  · split
    all_goals
      next h =>
        rw [h] at hk
        exact hk

theorem portCross_gangs (s : State) (core ctx : Nat) : (portCross s core ctx).gangs = s.gangs := rfl

theorem crossFetch_gangs (s : State) (core : Nat) (task : Task) (pas : List Nat) : (crossFetch s core task pas).gangs = s.gangs := by
  refine foldl_keeps (fun t : State => t.gangs = s.gangs) _ (fun t line ht => ?_) _ _ rfl
  split
  · exact ht
  · exact ht

theorem correctBytes_gangs (s : State) (pas : List Nat) : (correctBytes s pas).gangs = s.gangs :=
  foldl_keeps (fun t : State => t.gangs = s.gangs) _ (fun t pa ht => (correctMem_bytesKept t _ pa 1).gangs.trans ht) _ _ rfl

/-- A word that the fetch path reads leaves the gangs. -/
theorem fetchWord32_gangs (s : State) (core : Nat) (task : Task) (pas : List Nat) : (fetchWord32 s core task pas).2.2.gangs = s.gangs := by
  have hkeep (t : State) (c : Bool) (l : List ICacheEntry) :
      (if c then t else { crossFetch (correctBytes t pas) core task pas with icache := l }).gangs = t.gangs := by
    split
    · rfl
    · exact (crossFetch_gangs _ core task pas).trans (correctBytes_gangs t pas)
  unfold fetchWord32 fetchWordOf
  dsimp only
  split
  · exact hkeep s _ _
  · exact hkeep _ _ _

/-- R218: the bytes that the fetch path gives from a physical address on, with their poison, and the state after them. -/
def Iss.fetched (x : Iss) (s : State) (pa n : Nat) : List (Byte × Bool) × State :=
  (List.range ((n + 3) / 4)).foldl (fun (acc : List (Byte × Bool) × State) k =>
    let q := fetchWord32 acc.2 x.who.core x.task ((List.range 4).map (pa / 4 * 4 + 4 * k + ·))
    (acc.1 ++ (leBytes 4 q.1.toNat).map (·, q.2.1), q.2.2)) ([], s)

theorem fetched_gangs (x : Iss) (s : State) (pa n : Nat) : (x.fetched s pa n).2.gangs = s.gangs :=
  foldl_keeps (fun r : List (Byte × Bool) × State => r.2.gangs = s.gangs) _ (fun r _ hr => (fetchWord32_gangs r.2 _ _ _).trans hr) _ _ rfl

section

variable {f : Fields} {s s0 : State} {g : Gang} {x : Iss} {a : LaneAcc} {claims : List Nat}

theorem ldkWrites_ne_nil (h : x.active ≠ 0#64) (bs : List (Byte × Bool)) : ldkWrites x bs ≠ [] := by
  unfold ldkWrites
  split
  · obtain ⟨l, ls, hl⟩ := List.exists_cons_of_ne_nil (lanes_ne_nil h)
    simp [hl, destWrites_ne_nil]
  · exact destWrites_ne_nil _ _ _ _

/-- R218: the one access of an LDK gives its result to every Active lane. -/
theorem performOp_ldk (hi : x.i = .ldk f) (hf : x.f = f) (s : State) (n : Nat) :
    performOp s x.who (x.op [a] claims n) = ⟨ldkWrites x (readAcc s x.who x.g.nextFill a),
      fillAccs (meetAccs s x.who (x.op [a] claims n)) x.who false claims [a]⟩ := by
  have hread := readAcc_congr (w := x.who) (meetAccs_readsKept s x.who (x.op [a] claims n)) x.g.nextFill
  simp only [performOp, Iss.op, hi] at hread ⊢
  simp only [hread, List.flatMap_cons, List.flatMap_nil, List.append_nil, ldkWrites, hi, hf]
  split
  · rfl
  · next hd => rw [destWrites_lane hd _ a.lane x.low]

/-- R218: an LDK along the fetch path: the trap of the check that its address fails, or its bytes. -/
def ldkFetch (x : Iss) (s : State) (pa n : Nat) : Res :=
  let va := x.addr x.low
  if meetsPriv s x.who.ctx x.task.rec_ va n then .trap { cause := 0x22, tmask := x.active, taddr := w64 va, thit := x.lowMask, tpc := none } s
  else if va % n ≠ 0 then .trap { cause := 0x23, tmask := x.active, taddr := w64 va, thit := x.lowMask, tpc := none } s
  else if watchHit s x.g x.who.ctx x.low va n .read then
    .trap { cause := 0x28, tmask := x.active, taddr := w64 va, thit := x.lowMask, tpc := none } s
  else .ok (x.fill (x.fetched s pa n).2 (ldkWrites x (((x.fetched s pa n).1.drop (pa % 4)).take n)))

/-- R218: the accesses that pass the check of an LDK are of global bytes. -/
theorem ldkCheck_ok {s t : State} {l : Nat} {accs : List LaneAcc} (h : ldkCheck x s l = .ok accs t) : ∀ a ∈ accs, a.space = .global := by
  unfold ldkCheck at h
  dsimp only at h
  split at h
  · next hx =>
    split_ifs at h
    cases h
    exact (xlatPieces_ok hx).2
  · cases h
  · next hno _ => exact absurd h (hno _ _)

/-- R218: an LDK whose pages are not all executable reads its lowest lane's bytes as an access. -/
theorem exec_ldk_access (h : Ready (.ldk f) s g x) {e : Nat}
    (hp : fetchBytes (x.start s) x.who.core x.who.ctx (x.addr x.low) (accSize f) = (.error (some e), s0)) :
    exec (.ldk f) s = .next (finishIssue s x (memForm x s0 false false [x.low] (ldkCheck x) fun accs =>
      ldkWrites x (accs.flatMap fun a => tagBytes a.size 0 false))) := by
  refine h.runs (rfl : execLdk f s = _) ?_
  simp only [if_neg h.someLane, hp]

/-- R218: one whose pages are executable goes along the fetch path. -/
theorem exec_ldk_fetch (h : Ready (.ldk f) s g x) {pas : List Nat}
    (hp : fetchBytes (x.start s) x.who.core x.who.ctx (x.addr x.low) (accSize f) = (.ok pas, s0)) :
    exec (.ldk f) s = .next (finishIssue s x (ldkFetch x s0 (pas.headD 0) (accSize f))) := by
  refine h.runs (rfl : execLdk f s = _) ?_
  simp only [if_neg h.someLane, hp]
  rfl

theorem fetchBytes_start (x : Iss) {r : Except (Option Nat) (List Nat)} {core ctx va n : Nat}
    (hp : fetchBytes (x.start s) core ctx va n = (r, s0)) : ChecksKeep (x.start s) s0 ∧ s0.gang? x.ref = some x.g := by
  have hk := fetchBytes_keeps (x.start s) core ctx va n
  rw [hp] at hk
  have hg := hk.readsKept.gang? x.ref
  exact ⟨hk, hg.trans (start_gang? x s)⟩

/-- A commit of a change of the gang alone. -/
theorem mapGang_Becomes (hg : s.gang? x.ref = some x.g) (k : Gang → Gang) : Becomes x s (commitIssue x (x.mapGang s k) {}) k :=
  commit_Becomes x s _ k (mapGang_of hg k)

/-- R218: what an LDK reads as an access. -/
theorem ldk_access (h : Ready (.ldk f) s g x) (hl : l1Ok s.l1) {e : Nat} {s' : State}
    (hp : fetchBytes (x.start s) x.who.core x.who.ctx (x.addr x.low) (accSize f) = (.error (some e), s0))
    (hr : Reaches x s0 false false [x.low] (ldkCheck x) [a] false claims s') (hs : s.split = false)
    (hh : crossHeld s x.who.ctx (x.op [a] claims s.issueCtr) = false) :
    DoesGang (.ldk f) s (performOp s' x.who (x.op [a] claims s.issueCtr)).s x
        (fun g => g.startFill .ready (ldkWrites x (readAcc s' x.who x.g.nextFill a)) 0#5 false) ∧
      ∀ q, memByte (performOp s' x.who (x.op [a] claims s.issueCtr)).s q = memByte s q := by
  obtain ⟨hk, hg⟩ := fetchBytes_start x hp
  have hf : x.f = f := h.fields rfl
  have hkeep : s0 = _ := hk
  have hctr : s0.issueCtr = s.issueCtr := by rw [hkeep]; rfl
  have hsplit : s0.split = s.split := by rw [hkeep]; rfl
  have hdumps : s0.dumps = s.dumps := by rw [hkeep]; rfl
  obtain ⟨hgangs, -, -, hsplit', hdumps'⟩ := hr.frame (ldkCheck_keeps x)
  have hnoTerms (a : LaneAcc) (va : Nat) : accTerms x.i a va = [] := by rw [h.instr]; rfl
  have hglobal : a.space = .global := by
    obtain ⟨s1, hchk, -⟩ := hr.checked
    obtain ⟨t, l, part, v, -, hpart, ha⟩ := (checkLanes_ok hchk).mem (ldkCheck_keeps x) (List.mem_singleton.2 rfl)
    exact ldkCheck_ok hpart a ha
  have hunmapped : ∀ b ∈ (x.op [a] claims s.issueCtr).accs, stashPlace s' x.who b = none := by
    intro b hb
    rw [List.mem_singleton.1 hb, stashPlace, hglobal]
  have hread := (hk.readsKept.trans (hr.readsKept (ldkCheck_keeps x))).trans (meetAccs_readsKept s' x.who (x.op [a] claims s.issueCtr))
  have hfill := fillAccs_spec (meetAccs s' x.who (x.op [a] claims s.issueCtr)) x.who false claims [a] (hread.lines hl)
  have hops := performOp_ldk (a := a) (claims := claims) h.instr hf s' s.issueCtr
  have hgang : (performOp s' x.who (x.op [a] claims s.issueCtr)).s.gang? x.ref = some x.g := by
    rw [hops, State.gang?, (fillAccs_bytesKept _ _ _ _ _).gangs]
    exact (hread.gang? x.ref).trans (start_gang? x s)
  refine ⟨⟨_, ?_, mapGang_Becomes hgang _⟩, fun q => ?_⟩
  · rw [exec_ldk_access h hp, memForm_reaches h.someLane hg hr (ldkCheck_keeps x), finishIssue_ok h.unbroken, hctr, foldIssue_noTerms hnoTerms,
      if_neg Bool.false_ne_true, classified_performs rfl ((hsplit'.trans hsplit).trans hs)
        ((crossHeld_congr (hdumps'.trans hdumps) _ _).trans hh) hunmapped]
    simp only [hops, startOp_of (ldkWrites_ne_nil h.someLane _)]
  · rw [hops, hfill.2]
    exact hread.mem q

/-- R218, R217: what it reads along the fetch path. -/
theorem ldk_fetch (h : Ready (.ldk f) s g x) {pas : List Nat}
    (hp : fetchBytes (x.start s) x.who.core x.who.ctx (x.addr x.low) (accSize f) = (.ok pas, s0))
    (hpriv : meetsPriv s0 x.who.ctx x.task.rec_ (x.addr x.low) (accSize f) = false) (halign : x.addr x.low % accSize f = 0)
    (hw : watchHit s0 x.g x.who.ctx x.low (x.addr x.low) (accSize f) .read = false) :
    DoesGang (.ldk f) s (x.fetched s0 (pas.headD 0) (accSize f)).2 x fun g =>
      g.startFill .ready (ldkWrites x (((x.fetched s0 (pas.headD 0) (accSize f)).1.drop (pas.headD 0 % 4)).take (accSize f))) 0#5 false := by
  have hgang : (x.fetched s0 (pas.headD 0) (accSize f)).2.gang? x.ref = some x.g := by
    rw [State.gang?, fetched_gangs]
    exact (fetchBytes_start x hp).2
  refine ⟨_, ?_, mapGang_Becomes hgang _⟩
  rw [exec_ldk_fetch h hp, ldkFetch, hpriv, halign, hw]
  simp only [Bool.false_eq_true, ne_eq, not_true_eq_false, if_false, fill_eq _ _ _ _ _ (ldkWrites_ne_nil h.someLane _), finishIssue_ok h.unbroken]

end

end Sys2Proof.Machine

namespace Sys2Proof

open Machine in
/-- Settles O28: the images are `loadImage`'s lemmas; LDK is `ldk_access` and `ldk_fetch`. -/
theorem loadResults : Obligations.LoadResults := by
  unfold Obligations.LoadResults
  refine ⟨fun i f bs h => ?_, fun f s s0 g x hl h => ?_⟩
  · refine ⟨fun hv => loadImage_double h hv bs, fun hv => loadImage_pair h hv bs, fun hv ht => ?_, fun hv ht => ?_⟩
    · rw [loadImage_sized h hv bs, if_pos ht]
    · rw [loadImage_sized h hv bs, ht]
      rfl
  · intro n va path fails
    refine ⟨fun e a claims s' hp hr hs hh => ldk_access h hl hp hr hs hh, fun pas hp hpriv ha hw => ldk_fetch h hp hpriv ha hw,
      fun pas hp hpriv => ?_, fun pas hp hpriv ha => ?_⟩
    · simp only [fails, Traps]
      rw [exec_ldk_fetch h hp, ldkFetch, hpriv, ← h.instr]
      rfl
    · simp only [fails, Traps]
      rw [exec_ldk_fetch h hp, ldkFetch, hpriv, if_neg Bool.false_ne_true, if_pos ha, ← h.instr]
      rfl

end Sys2Proof

namespace Sys2Proof.Machine

/-! ### Loads (R210, R211, R217) -/

theorem accSize_ne_zero (f : Fields) : accSize f ≠ 0 := by
  unfold accSize
  rcases typeWidth_cases f.tcode with hw | hw | hw | hw
  all_goals
    rw [hw]
    split_ifs <;> decide

theorem who_g {s : State} {r : GangRef} {w : Who} (h : s.who r = some w) : w.g = r := by
  unfold State.who at h
  split at h
  · cases h
  · split at h <;> cases h
    rfl

theorem byLane_ne_nil {accs : List LaneAcc} (h : accs ≠ []) (r : LaneAcc → List (Byte × Bool)) : byLane accs r ≠ [] := by
  obtain ⟨t, a, rfl⟩ := (List.eq_nil_or_concat accs).resolve_left h
  rw [byLane, List.concat_eq_append, List.foldl_append, List.foldl_cons, List.foldl_nil]
  split
  · split <;> exact List.append_ne_nil_of_right_ne_nil _ (List.cons_ne_nil _ _)
  · exact List.cons_ne_nil _ _

theorem loadLanes_ne_nil {x : Iss} (h : x.active ≠ 0#64) : loadLanes x ≠ [] := by
  unfold loadLanes
  split
  · exact lanes_ne_nil h
  · exact List.cons_ne_nil _ _

/-- What a load writes: V and S registers alone, and for DVLD an N. -/
theorem destWrites_noP {i : Instr} {f : Fields} {l k l' : Nat} {b : Bool} {bs : List (Byte × Bool)} : RegWrite.p k l' b ∉ destWrites i f l bs := by
  intro h
  obtain ⟨j, -, hj⟩ := List.mem_map.1 h
  split at hj <;> cases hj

theorem viewWrites_noP {g : Gang} {d : W64} {k l : Nat} {b : Bool} {bs : List (Byte × Bool)} : RegWrite.p k l b ∉ viewWrites g d bs := by
  intro h
  obtain ⟨c, -, hc⟩ := List.mem_map.1 h
  dsimp only at hc
  split at hc <;> cases hc

theorem dvldWrites_noP {g : Gang} {d : W64} {k l : Nat} {b : Bool} {bs : List (Byte × Bool)} : RegWrite.p k l b ∉ dvldWrites g d bs := by
  intro h
  rcases List.mem_append.1 h with h | h
  · exact viewWrites_noP h
  · cases List.mem_singleton.1 h

theorem scratchByte_congr {s t : State} (h : t.teams = s.teams) (team half off : Nat) : scratchByte t team half off = scratchByte s team half off := by
  simp only [scratchByte, State.team?, h]

section

variable {i : Instr} {f : Fields} {s s' u : State} {g : Gang} {x : Iss} {m : MemSpec} {accs : List LaneAcc} {claims : List Nat}

/-- The gang as its issue reads it has its held stores. -/
theorem readAcc_start (h : Ready i s g x) (n : Nat) : readAcc (x.start s) x.who n = readAcc s x.who n := by
  have hheld : x.g.heldStores = g.heldStores := by rw [h.reads, Gang.holding_heldStores, Gang.seen_heldStores]
  funext a
  simp only [readAcc, who_g h.party, start_gang?, h.present, Option.map_some, hheld]
  rfl

theorem Ready.reads_start (h : Ready i s g x) (hk : ReadsKept (x.start s) s') (n : Nat) : readAcc s' x.who n = readAcc s x.who n :=
  (readAcc_congr hk n).trans (readAcc_start h n)

/-- A fill left by an issue that keeps the gangs otherwise. -/
theorem fill_commit (h : Ready i s g x) (hu : u.gangs = (x.start s).gangs) {ws : List RegWrite} (hws : ∀ k l b, RegWrite.p k l b ∉ ws) :
    ∃ t g', commitIssue x (x.mapGang u fun g => g.startFill .ready ws 0#5 false) {} = t ∧ t.gang? x.ref = some g' ∧
      g'.fills = g.fills ++ [{ id := g.nextFill, kind := .ready, writes := ws, flags := 0#5, setsFlags := false }] ∧
      (∀ w ∈ ws, g'.emptyAt w = true) ∧ g'.v = g.v ∧ g'.s = g.s ∧ g'.p = g.p ∧ g'.n = g.n ∧ g'.fpstat = g.fpstat ∧
      SpecialsKept g g' ∧ FallsThrough x g g' ∧ (∀ r, gangNum r ≠ gangNum x.ref → t.gang? r = s.gang? r) ∧
      (∀ pa, memByte t pa = memByte u pa) ∧ ∀ team h off, scratchByte t team h off = scratchByte u team h off := by
  have hug (r : GangRef) : u.gang? r = (x.start s).gang? r := by simp only [State.gang?, hu]
  have hset (k : Gang → Gang) : x.mapGang u k = x.mapGang ((u.setGang x.ref g).setGang x.ref x.g) k := by
    rw [mapGang_of ((hug x.ref).trans (start_gang? x s)), mapGang_setGang, setGang_setGang]
  obtain ⟨g0, g', hg0, ht, hfills, hempty, hv, hs, hp, hn, hfp, -, -, hspecials, hfalls, hothers⟩ :=
    commit_FillResult (setGang_self u x.ref g) h.reads .ready ws (fun k l b hb => absurd hb (hws k l b)) 0#5 false
  rw [setGang_self] at hg0
  obtain rfl := Option.some.inj hg0
  rw [← hset] at ht hothers
  refine ⟨_, g', rfl, ht, hfills, hempty, hv, hs, hp, hn, hfp, hspecials, hfalls, fun r hr => ?_, hothers.mem, fun team half off => ?_⟩
  · rw [hothers.gangs r hr, setGang_ne u g hr, hug, Iss.start, setGang_ne s x.g hr]
  · rw [hothers.rest]
    rfl

/-- R210, R211: a load's results are what it reads, by lane. -/
theorem performOp_load (hi : x.i = .ld f ∨ x.i = .lds f ∨ x.i = .ldx f ∨ x.i = .ldp f) (s : State) (n : Nat) :
    performOp s x.who (x.op accs claims n) = ⟨(byLane accs (readAcc s x.who x.g.nextFill)).flatMap fun p => destWrites x.i f p.1 p.2,
      fillAccs (meetAccs s x.who (x.op accs claims n)) x.who false claims accs⟩ := by
  rw [← readAcc_congr (w := x.who) (meetAccs_readsKept s x.who (x.op accs claims n)) x.g.nextFill]
  rcases hi with hi | hi | hi | hi <;> simp only [performOp, Iss.op, hi]

/-- R186: those of DVLD are its record. -/
theorem performOp_dvld (hi : x.i = .dvld f) {s : State} (hg : s.gang? x.who.g = some x.g) (n : Nat) :
    performOp s x.who (x.op accs claims n) = ⟨dvldWrites x.g (x.g.wReg (wNum f.d)) (accs.flatMap (readAcc s x.who x.g.nextFill)),
      fillAccs (meetAccs s x.who (x.op accs claims n)) x.who false claims accs⟩ := by
  have hmeet := meetAccs_readsKept s x.who (x.op accs claims n)
  have hgang : (meetAccs s x.who (x.op accs claims n)).gang? x.who.g = some x.g := (hmeet.gang? _).trans hg
  rw [← readAcc_congr (w := x.who) hmeet x.g.nextFill]
  simp only [Iss.op, hi, opDesc] at hgang ⊢
  simp only [performOp, hgang]

/-- R210: a load makes an access. -/
theorem load_accs_ne_nil (h : Ready i s g x) (hi : i = .ld f ∨ i = .lds f ∨ i = .ldx f ∨ i = .ldp f) (hm : memSpec x = some m)
    {late : Bool} (hr : Reaches x (x.start s) m.force m.write m.lanes m.chk accs late claims s') : accs ≠ [] := by
  obtain ⟨s1, hchk, -⟩ := hr.checked
  have hxi := h.instr
  have hglobal {u v : State} {w : Who} {r : TaskRec} {q : AccReq} {part : List LaneAcc} (hq : q.size = accSize x.f)
      (hp : globalCheck u x.g w r q = .ok part v) : part ≠ [] := (globalCheck_ok hp).1 (hq ▸ accSize_ne_zero x.f)
  have hlocal {u v : State} {w : Who} {r : TaskRec} {q : AccReq} {half : Nat} {may : Bool} {part : List LaneAcc}
      (hp : localCheck u w r (some x.g) half may q = .ok part v) : part ≠ [] := by
    obtain ⟨b, rfl, -⟩ := localCheck_ok hp
    exact List.cons_ne_nil b []
  have hk : privWords x.f ≠ 0 := by
    unfold privWords
    split <;> decide
  have hlanes := loadLanes_ne_nil h.someLane
  rcases hi with rfl | rfl | rfl | rfl
  all_goals
    simp only [memSpec, hxi] at hm
    obtain rfl := Option.some.inj hm
  · exact (checkLanes_ok hchk).ne_nil hlanes fun u l part v hp => hglobal rfl hp
  · exact (checkLanes_ok hchk).ne_nil hlanes fun u l part v hp => hlocal hp
  · exact (checkLanes_ok hchk).ne_nil hlanes fun u l part v hp => hlocal hp
  · exact (checkLanes_ok hchk).ne_nil hlanes fun u l part v hp => (privCheck_ok hp).1 hk

/-- R276: the issue of a load whose accesses pass and meet no stash line, and which is not taken apart. -/
theorem load_issue (h : Ready i s g x) (hm : memSpec x = some m) (hterms : ∀ a va, accTerms x.i a va = [])
    (hr : Reaches x (x.start s) m.force m.write m.lanes m.chk accs false claims s') (hs : s.split = false)
    (hh : crossHeld s x.who.ctx (x.op accs claims s.issueCtr) = false) (hu : Unmapped x s accs) {ws : List RegWrite} (hws : ws ≠ [])
    (hp : performOp s' x.who (x.op accs claims s.issueCtr) =
      ⟨ws, fillAccs (meetAccs s' x.who (x.op accs claims s.issueCtr)) x.who false claims accs⟩) :
    Commits i s x (x.mapGang (fillAccs (meetAccs s' x.who (x.op accs claims s.issueCtr)) x.who false claims accs)
      fun g => g.startFill .ready ws 0#5 false) := by
  obtain ⟨-, hteams, -, hsplit, hdumps⟩ := hr.frame (memSpec_keeps hm)
  have hunmapped : ∀ a ∈ (x.op accs claims s.issueCtr).accs, stashPlace s' x.who a = none := fun a ha =>
    (stashPlace_congr hteams x.who a).trans (hu a ha)
  have hexec := exec_reaches h hm hr
  rw [foldIssue_noTerms hterms, if_neg Bool.false_ne_true,
    classified_performs rfl (hsplit.trans hs) ((crossHeld_congr hdumps _ _).trans hh) hunmapped, hp] at hexec
  simpa only [startOp_of hws] using hexec

/-- R211, R217: what such a load leaves. -/
theorem load_result (h : Ready i s g x) (hl : l1Ok s.l1) (hm : memSpec x = some m) (hterms : ∀ a va, accTerms x.i a va = [])
    (hr : Reaches x (x.start s) m.force m.write m.lanes m.chk accs false claims s') (hs : s.split = false)
    (hh : crossHeld s x.who.ctx (x.op accs claims s.issueCtr) = false) (hu : Unmapped x s accs) {ws : List RegWrite} (hws : ws ≠ [])
    (hnoP : ∀ k l b, RegWrite.p k l b ∉ ws)
    (hp : performOp s' x.who (x.op accs claims s.issueCtr) =
      ⟨ws, fillAccs (meetAccs s' x.who (x.op accs claims s.issueCtr)) x.who false claims accs⟩) :
    ∃ t g', exec i s = .next t ∧ t.gang? x.ref = some g' ∧
      g'.fills = g.fills ++ [{ id := g.nextFill, kind := .ready, writes := ws, flags := 0#5, setsFlags := false }] ∧
      (∀ w ∈ ws, g'.emptyAt w = true) ∧ g'.v = g.v ∧ g'.s = g.s ∧ g'.p = g.p ∧ g'.n = g.n ∧ g'.fpstat = g.fpstat ∧
      SpecialsKept g g' ∧ FallsThrough x g g' ∧ (∀ r, gangNum r ≠ gangNum x.ref → t.gang? r = s.gang? r) ∧
      (∀ pa, memByte t pa = memByte s pa) ∧ ∀ team h off, scratchByte t team h off = scratchByte s team h off := by
  have hkept : ReadsKept (x.start s) (meetAccs s' x.who (x.op accs claims s.issueCtr)) :=
    (hr.readsKept (memSpec_keeps hm)).trans (meetAccs_readsKept s' x.who _)
  have hfill := fillAccs_bytesKept (meetAccs s' x.who (x.op accs claims s.issueCtr)) x.who false claims accs
  obtain ⟨t, g', ht, hg', hfills, hempty, hv, hsv, hpv, hn, hfp, hspecials, hfalls, hothers, hmem, hscratch⟩ :=
    fill_commit h (hfill.gangs.trans hkept.gangs) hnoP
  refine ⟨t, g', (load_issue h hm hterms hr hs hh hu hws hp).trans (congrArg _ ht), hg', hfills, hempty, hv, hsv, hpv, hn, hfp, hspecials, hfalls,
    hothers, fun pa => ?_, fun team half off => ?_⟩
  · exact ((hmem pa).trans (hfill.bytes (hkept.lines hl) pa)).trans (hkept.mem pa)
  · rw [hscratch, scratchByte_congr hfill.teams]
    exact (hkept.scratch team half off).1

end

end Sys2Proof.Machine

namespace Sys2Proof

open Machine in
/-- Settles O26: each load by `load_result`, with the results of `performOp_load` or `performOp_dvld`. -/
theorem loads : Obligations.Loads := by
  unfold Obligations.Loads
  intro i f m s s' g x accs claims hi hl h hm hr hs hh hu
  have hread := h.reads_start (hr.readsKept (memSpec_keeps hm)) x.g.nextFill
  have hterms (a : LaneAcc) (va : Nat) : accTerms x.i a va = [] := by
    rw [h.instr]
    rcases hi with rfl | rfl | rfl | rfl | rfl <;> rfl
  by_cases hd : i = .dvld f
  · have hgang : s'.gang? x.who.g = some x.g := by
      rw [who_g h.party]
      exact ((hr.readsKept (memSpec_keeps hm)).gang? x.ref).trans (start_gang? x s)
    have hop := performOp_dvld (accs := accs) (claims := claims) (h.instr.trans hd) hgang s.issueCtr
    rw [hread] at hop
    simp only [if_pos hd]
    exact load_result h hl hm hterms hr hs hh hu (List.append_ne_nil_of_right_ne_nil _ (List.cons_ne_nil _ _)) (fun _ _ _ => dvldWrites_noP) hop
  · have hi' : i = .ld f ∨ i = .lds f ∨ i = .ldx f ∨ i = .ldp f := by simpa [hd] using hi
    have hop := performOp_load (accs := accs) (claims := claims) (h.instr ▸ hi') s' s.issueCtr
    rw [hread, h.instr] at hop
    simp only [if_neg hd]
    have hws : ((byLane accs (readAcc s x.who x.g.nextFill)).flatMap fun p => destWrites i f p.1 p.2) ≠ [] := by
      obtain ⟨e, es, he⟩ := List.exists_cons_of_ne_nil (byLane_ne_nil (load_accs_ne_nil h hi' hm hr) (readAcc s x.who x.g.nextFill))
      simp [he, destWrites_ne_nil]
    refine load_result h hl hm hterms hr hs hh hu hws (fun k l b hb => ?_) hop
    obtain ⟨e, -, he⟩ := List.mem_flatMap.1 hb
    exact destWrites_noP he

end Sys2Proof

namespace Sys2Proof.Machine

/-! ### Stores (R211, R217) -/

theorem storeLine_gangs (s : State) (w : Who) (tag : Option Nat × Bool) (unc : Bool) (leaf : W64) (pa : Nat) (bs : List Byte) :
    (storeLine s w tag unc leaf pa bs).gangs = s.gangs := by
  have hcross (s : State) (line : Nat) : (if unc then s else crossFill s w line).gangs = s.gangs := by
    split
    · rfl
    · exact (crossFill_bytesKept s w line).gangs
  have hgrant (s : State) (die line : Nat) : (if tag.2 then grantLine s w.core die line true else s).gangs = s.gangs := by split <;> rfl
  have hstore (s : State) (gen : W16) : (lineStore s w.core w.slot tag.1 gen tag.2 pa bs (pay := .of w.ctx)).gangs = s.gangs :=
    (fillLine_bytesKept (dropLines s _ _) w.core w.slot tag.1 (pa / 128) gen tag.2).gangs
  simp only [storeLine, hgrant, (tagLine_bytesKept _ _ _ _ _).gangs, hstore, hcross, (staleLine_bytesKept _ _ _ _ _).gangs]

theorem storeAcc_gangs (s : State) (w : Who) (unc : Bool) (claims : List Nat) (a : LaneAcc) : (storeAcc s w unc claims a).gangs = s.gangs := by
  unfold storeAcc
  split
  · rfl
  · split
    · unfold scratchStore
      split
      · rfl
      · split <;> rfl
    · exact foldl_keeps (fun t : State => t.gangs = s.gangs) _ (fun t j ht => (storeLine_gangs t _ _ _ _ _ _).trans ht) _ _ rfl

section

variable {i : Instr} {f : Fields} {s s' u : State} {g : Gang} {x : Iss} {m : MemSpec} {accs : List LaneAcc} {claims : List Nat}

theorem performOp_store (hi : x.i = .st f ∨ x.i = .sts f ∨ x.i = .stx f ∨ x.i = .stp f ∨ x.i = .dvst f) (s : State) (n : Nat) :
    performOp s x.who (x.op accs claims n) =
      ⟨[], accs.foldl (fun s a => storeAcc s x.who false claims a) (meetAccs s x.who (x.op accs claims n))⟩ := by
  rcases hi with hi | hi | hi | hi | hi <;> simp only [performOp, Iss.op, hi]

theorem storeBytes_length (x : Iss) (l : Nat) : (x.storeBytes l).length = accSize x.f := by
  unfold Iss.storeBytes
  split
  · next hv => simp [accSize, hv, leBytes_length]
  · exact leBytes_length _ _

/-- R213: a store to the scratchpad is within its half. -/
theorem store_within (h : Ready i s g x) (hi : i = .st f ∨ i = .sts f ∨ i = .stx f ∨ i = .stp f ∨ i = .dvst f) (hm : memSpec x = some m)
    {late : Bool} (hr : Reaches x (x.start s) m.force m.write m.lanes m.chk accs late claims s') :
    ∀ a ∈ accs, ∀ half, a.space = .scratch half → a.va + a.data.length ≤ scratchSize s x.who.team half := by
  intro a ha half hspace
  obtain ⟨s1, hchk, -⟩ := hr.checked
  obtain ⟨u, l, part, v, hkeep, hpart, hmem⟩ := (checkLanes_ok hchk).mem (memSpec_keeps hm) ha
  have hsize (half : Nat) : scratchSize u x.who.team half = scratchSize s x.who.team half := (hkeep.readsKept.scratch _ half 0).2.2
  have hlocal {may : Bool} {half' : Nat} (hp : localCheck u x.who x.task.rec_ (some x.g) half' may (scratchReq x l .write (x.storeBytes l)) = .ok part v) :
      a.va + a.data.length ≤ scratchSize s x.who.team half := by
    obtain ⟨b, rfl, hb⟩ := localCheck_ok hp
    obtain rfl := List.mem_singleton.1 hmem
    rcases hb with ⟨rfl, hin⟩ | hb
    · obtain rfl := Space.scratch.inj hspace
      rw [← hsize, show ((scratchReq x l .write (x.storeBytes l)).inScratch half').data.length = accSize x.f from storeBytes_length x l]
      exact hin
    · cases hb.symm.trans hspace
  have hglobal {q : AccReq} {byteAddr : Bool} (hp : globalCheck u x.g x.who x.task.rec_ q byteAddr = .ok part v) :
      a.va + a.data.length ≤ scratchSize s x.who.team half := by
    cases ((globalCheck_ok hp).2 a hmem).symm.trans hspace
  have hxi := h.instr
  rcases hi with rfl | rfl | rfl | rfl | rfl
  all_goals
    simp only [memSpec, hxi] at hm
    obtain rfl := Option.some.inj hm
  · exact hglobal hpart
  · exact hlocal hpart
  · exact hlocal hpart
  · cases ((privCheck_ok hpart).2 a hmem).symm.trans hspace
  · exact hglobal hpart

/-- R276: the issue of a store whose accesses pass and meet no stash line, and which is not taken apart. -/
theorem store_issue (h : Ready i s g x) (hi : i = .st f ∨ i = .sts f ∨ i = .stx f ∨ i = .stp f ∨ i = .dvst f) (hm : memSpec x = some m)
    (hr : Reaches x (x.start s) m.force m.write m.lanes m.chk accs false claims s') (hs : s.split = false)
    (hh : crossHeld s x.who.ctx (x.op accs claims s.issueCtr) = false) (hu : Unmapped x s accs) :
    Commits i s x (x.mapGang (accs.foldl (fun s a => storeAcc s x.who false claims a)
      (meetAccs (foldIssue s' x accs) x.who (x.op accs claims s.issueCtr))) Gang.takeNumber) := by
  obtain ⟨-, hteams, -, hsplit, hdumps⟩ := hr.frame (memSpec_keeps hm)
  have hdigest := foldIssue_digestOnly s' x accs
  have hsplit' : (foldIssue s' x accs).split = false := by
    rw [hdigest.keeps]
    exact hsplit.trans hs
  have hdumps' : (foldIssue s' x accs).dumps = s.dumps := by
    rw [hdigest.keeps]
    exact hdumps
  have hunmapped : ∀ a ∈ (x.op accs claims s.issueCtr).accs, stashPlace (foldIssue s' x accs) x.who a = none := fun a ha =>
    ((hdigest.stashPlace x.who a).trans (stashPlace_congr hteams x.who a)).trans (hu a ha)
  have hexec := exec_reaches h hm hr
  rw [if_neg Bool.false_ne_true, classified_performs rfl hsplit' ((crossHeld_congr hdumps' _ _).trans hh) hunmapped,
    performOp_store (h.instr ▸ hi)] at hexec
  exact hexec

/-- A commit of an issue that takes a number, and has counted its lanes' terms. -/
theorem number_commit (h : Ready i s g x) {q : KMap Nat} (hu : u.gang? x.ref = some { x.g with seq := q })
    (hothers : ∀ r, gangNum r ≠ gangNum x.ref → u.gang? r = s.gang? r) :
    ∃ t g', commitIssue x (x.mapGang u Gang.takeNumber) {} = t ∧ t.gang? x.ref = some g' ∧ g'.fills = g.fills ∧ g'.fpstat = g.fpstat ∧
      AllRegsKept g g' ∧ SpecialsKept g g' ∧ FallsThrough x g g' ∧ (∀ r, gangNum r ≠ gangNum x.ref → t.gang? r = s.gang? r) ∧
      (∀ pa, memByte t pa = memByte u pa) ∧ ∀ team half off, scratchByte t team half off = scratchByte u team half off := by
  generalize ha : Gang.takeNumber { x.g with seq := q } = a
  have hregs : AllRegsKept x.g a := by subst ha; constructor <;> intros <;> rfl
  have hspecials : SpecialsKept x.g a := by subst ha; constructor <;> rfl
  have hfills : a.fills = g.fills := by subst ha; rw [h.reads]; rfl
  have hfpstat : a.fpstat = g.fpstat := by subst ha; rw [h.reads]; rfl
  have hfalls : FallsThrough x g (x.fallen u a) := by
    apply falls_of
    all_goals
      subst ha
      rw [h.reads]
      rfl
  have hkept := countIssue_others x u (x.fallen u a) a.width (isSfu x.i)
  refine ⟨_, x.fallen u a, rfl, ?_⟩
  rw [mapGang_of hu, ha, commitIssue_plain]
  refine ⟨(countIssue_gang? _ _ _ _ _).trans (setGang_self _ _ _), hfills, hfpstat, hregs.fallen h.reads u, hspecials.fallen h.reads u, hfalls,
    fun r hr => (hkept.gangs r hr).trans (hothers r hr), hkept.mem, fun team half off => rfl⟩

end

end Sys2Proof.Machine

namespace Sys2Proof

open Machine in
/-- Settles O27: `store_issue` says what is stored, `memByte_stores` and `scratchByte_stores` what bytes that leaves. -/
theorem stores : Obligations.Stores := by
  unfold Obligations.Stores
  intro i f m s s' g x accs claims hi hl h hm hr hs hh hu
  have hchecks := hr.readsKept (memSpec_keeps hm)
  have hdigest := foldIssue_digestOnly s' x accs
  have hmeet := meetAccs_readsKept (foldIssue s' x accs) x.who (x.op accs claims s.issueCtr)
  have hissue := store_issue h hi hm hr hs hh hu
  generalize hv : meetAccs (foldIssue s' x accs) x.who (x.op accs claims s.issueCtr) = v at hmeet hissue
  have hlines : l1Ok v.l1 := hmeet.lines (hdigest.l1 ▸ hchecks.lines hl)
  have hgangs : (accs.foldl (fun s a => storeAcc s x.who false claims a) v).gangs = v.gangs :=
    foldl_keeps (fun t : State => t.gangs = v.gangs) _ (fun t a ht => (storeAcc_gangs t _ _ _ a).trans ht) _ _ rfl
  have hgang? (r : GangRef) : (accs.foldl (fun s a => storeAcc s x.who false claims a) v).gang? r = (foldIssue s' x accs).gang? r := by
    rw [← hmeet.gang? r]
    simp only [State.gang?, hgangs]
  obtain ⟨q, hq⟩ := hdigest.gang x.g ((hchecks.gang? x.ref).trans (start_gang? x s))
  obtain ⟨t, g', ht, hg', hfills, hfpstat, hregs, hspecials, hfalls, hothers, hmem, hscratch⟩ :=
    number_commit h ((hgang? x.ref).trans hq) fun r hr =>
      ((hgang? r).trans (hdigest.others r hr)).trans ((hchecks.gang? r).trans (setGang_ne s x.g hr))
  have hbyte (pa : Nat) : memByte v pa = memByte s pa := ((hmeet.mem pa).trans (hdigest.memByte pa)).trans (hchecks.mem pa)
  have hoff (team half off : Nat) : scratchByte v team half off = scratchByte s team half off :=
    ((hmeet.scratch team half off).1.trans (hdigest.scratchByte team half off)).trans (hchecks.scratch team half off).1
  have hsize (half : Nat) : scratchSize v x.who.team half = scratchSize s x.who.team half :=
    ((hmeet.scratch x.who.team half 0).2.2.trans (hdigest.scratchSize x.who.team half)).trans (hchecks.scratch x.who.team half 0).2.2
  have hstored := scratchByte_stores x.who false claims accs v fun a ha half hspace =>
    (store_within h hi hm hr a ha half hspace).trans_eq (hsize half).symm
  refine ⟨t, g', hissue.trans (congrArg _ ht), hg', hfills, hfpstat, hregs, hspecials, hfalls, hothers, fun pa => ?_, fun half off => ?_,
    fun team half off hne => ?_⟩
  · rw [hmem, (memByte_stores x.who false claims accs v hlines).2, hbyte]
  · rw [hscratch, (hstored _ half off).1, if_pos rfl, hoff]
  · rw [hscratch, (hstored team half off).1, if_neg hne, hoff]
    rfl

end Sys2Proof

/-! ## Scope: engines, synchronization and system forms (O32, O33, O34, O35, O36, O38, O40, O41) -/

namespace Sys2Proof.Machine

/-! ### Counters, time, digest and page queries (R253 to R256) -/

section

variable {i : Instr} {m : Form} {f : Fields} {s : State} {g : Gang} {x : Iss}

/-- The shape of the forms whose result in D is read off the state in which the issue acts. -/
theorem stateForm_does {v : Iss → State → Nat → W64} (h : Ready i s g x) (hf : i.form = some (m, f)) (hu : m.useD = true)
    (hc : (operandSpec i m f).d = clsVS) (he : ∀ s, exec i s = runIssue i s fun x s => .ok (x.putD s (v x s))) :
    DoesD i s x (v x (x.start s)) 0#5 := by
  unfold DoesD
  rw [he]
  exact runIssue_D h _ _ (h.dest hf hu hc) rfl

/-- The counters of R253 as the issue reads them are those of the gang and of the state that it found. -/
theorem counterVal_start (h : Ready i s g x) (c : Nat) : counterVal x (x.start s) c = counterVal { x with g } s c := by
  simp only [counterVal, h.reads]
  rfl

theorem rdcnt_does (h : Ready (.rdcnt f) s g x) : DoesD (.rdcnt f) s x (fun _ => counterVal { x with g } s f.imm.toNat) 0#5 := by
  simpa only [counterVal_start h] using
    stateForm_does (v := fun x s _ => counterVal x s f.imm.toNat) h rfl rfl rfl fun _ => (rfl : execRdcnt f _ = _)

theorem rddig_does (h : Ready (.rddig f) s g x) {t : Team} (ht : s.team? x.who.team = some t) :
    DoesD (.rddig f) s x (fun _ => if x.task.rec_.digest then t.digest else 0#64) 0#5 := by
  show ∃ r, execRddig f s = .next r ∧ _
  refine runIssue_D h _ _ (h.dest rfl rfl rfl) ?_
  have hteam : (s.setGang x.ref x.g).team? x.who.team = some t := ht
  simp only [hteam, Option.map_some, Option.getD_some]

theorem walkFrom_start (x : Iss) (s : State) (va fuel level table : Nat) :
    walkFrom (x.start s) va fuel level table = walkFrom s va fuel level table := by
  induction fuel generalizing level table with
  | zero => rfl
  | succ fuel ih => simp only [walkFrom, ih]; rfl

theorem walk_start (x : Iss) (s : State) (ctx va : Nat) : walk (x.start s) ctx va = walk s ctx va := by
  simp only [walk, walkFrom_start]
  rfl

/-- R256: the description of a page does not depend on the gangs' records. -/
theorem regqVal_start (x : Iss) (s : State) (va : Nat) : regqVal (x.start s) x va = regqVal s x va := by
  simp only [regqVal, walk_start]
  rfl

theorem rdtime_does (h : Ready (.rdtime f) s g x) : DoesD (.rdtime f) s x (fun _ => w64 s.tick) 0#5 :=
  stateForm_does (v := fun _ s _ => w64 s.tick) h rfl rfl rfl fun _ => rfl

theorem regq_does (h : Ready (.regq f) s g x) : DoesD (.regq f) s x (fun l => regqVal s x (x.a l).toNat) 0#5 := by
  simpa only [regqVal_start] using stateForm_does (v := fun x s l => regqVal s x (x.a l).toNat) h rfl rfl rfl fun _ => rfl

end

end Sys2Proof.Machine

namespace Sys2Proof

open Machine in
/-- Settles O40: one lemma for each form; what an issue reads of a counter or of a page does not depend on its gang's record
(`counterVal_start`, `regqVal_start`). -/
theorem countersAndQueries : Obligations.CountersAndQueries := by
  unfold Obligations.CountersAndQueries
  intro f s g x busy
  exact ⟨rdcnt_does, rdtime_does, fun h t ht => rddig_does h ht, regq_does⟩

end Sys2Proof

namespace Sys2Proof.Machine

/-! ### SLEEP and HALTDBG (R257, R258) -/

section

variable {f : Fields} {s : State} {g : Gang} {x : Iss}

/-- R257: SLEEP with no time commits its gang as yielding. -/
theorem commitIssue_yields (x : Iss) (s : State) (a : Gang) :
    commitIssue x (s.setGang x.ref a) { yields := true } =
      countIssue (s.setGang x.ref { x.fallen s a with yielded := true }) x.ref a.width (isSfu x.i) := by
  unfold commitIssue
  rw [setGang_self]
  simp only [setGang_setGang, leaveHandler_none, Bool.or_true]
  rfl

theorem sleep_does (h : Ready (.sleep f) s g x) (hn : (x.a x.low).toNat % 2 ^ 32 ≠ 0) :
    DoesGang (.sleep f) s s x fun g => { g with block := some (.sleep (s.tick + (x.a x.low).toNat % 2 ^ 32)) } := by
  refine doesGang_of h (fun _ => (rfl : execSleep f _ = _)) ?_
  simp only [if_neg h.someLane, if_neg hn, mapGang_setGang, State.setGang_tick]

theorem sleep_yields (h : Ready (.sleep f) s g x) (hn : (x.a x.low).toNat % 2 ^ 32 = 0) :
    ∃ t, exec (.sleep f) s = .next t ∧ NoResult x s t true := by
  have hexec : exec (.sleep f) s = .next (finishIssue s x (.done (x.start s) { yields := true })) := by
    refine h.runs (rfl : execSleep f s = _) ?_
    simp only [if_neg h.someLane, hn, if_true]
  rw [finishIssue_done h.unbroken, Iss.start, commitIssue_yields] at hexec
  refine ⟨_, hexec, g, { x.fallen s x.g with yielded := true }, h.present, by rw [countIssue_gang?, setGang_self], reads_fpstat h.reads s, rfl,
    ?_, ?_, ?_, countIssue_others x s _ _ _⟩
  · exact (reads_regsKept h.reads s).trans (by constructor <;> intros <;> rfl)
  · exact specials_trans (reads_specialsKept h.reads s) (by constructor <;> rfl)
  · have hfalls := reads_falls h.reads s
    exact ⟨hfalls.pc, hfalls.otherPc, hfalls.live, hfalls.inh⟩

theorem haltdbg_passes (h : Ready (.haltdbg f) s g x) (he : x.active &&& ~~~x.g.exempt = 0#64) : DoesGang (.haltdbg f) s s x id :=
  doesGang_of h (fun _ => (rfl : execHaltdbg f _ = _)) (if_pos he)

/-- A form's own part that takes a cause. -/
theorem Ready.takes {i : Instr} {s' : State} {t : TrapInfo} {body : Iss → State → Res} (h : Ready i s g x) (he : exec i s = runIssue i s body)
    (hb : body x (x.start s) = .trap t s') : Traps i s x s' t := by
  rw [Traps, h.runs he hb, ← h.instr]
  rfl

theorem haltdbg_traps (h : Ready (.haltdbg f) s g x) (he : x.active &&& ~~~x.g.exempt ≠ 0#64) :
    Traps (.haltdbg f) s x (x.start s) (.plain 0xF1 x.active) :=
  h.takes (rfl : execHaltdbg f s = _) (if_neg he)

/-- R257: a sleep ends at the tick for which it was set, and not before. -/
theorem sleepWake_eq {ref : GangRef} {n : Nat} (hg : s.gang? ref = some g) (hb : g.block = some (.sleep n)) :
    exec (.sleepWake ref) s = .next (if n ≤ s.tick then s.setGang ref { g with block := none } else s) := by
  show execSleepWake ref s = _
  simp only [execSleepWake, hg, hb]

end

end Sys2Proof.Machine

namespace Sys2Proof

open Machine in
/-- Settles O41: one lemma for each outcome; the end of a sleep is `sleepWake_eq`. -/
theorem sleepAndHalt : Obligations.SleepAndHalt := by
  unfold Obligations.SleepAndHalt
  intro f s g x n
  refine ⟨sleep_does, sleep_yields, haltdbg_passes, haltdbg_traps, fun ref n hg hb => ⟨fun hn => ?_, fun hn => ?_⟩⟩
  · rw [sleepWake_eq hg hb, if_pos hn]
  · rw [sleepWake_eq hg hb, if_neg (Nat.not_le.2 hn)]

end Sys2Proof

namespace Sys2Proof.Machine

/-! ### TRAP and RTE (R250, R251, R304, R307) -/

/-- The PCs once some lanes have been sent to one address. -/
theorem pcs_sent (m : KMap W64) (lanes : LaneMask) (v : W64) (l : Nat) :
    KMap.get ((lanesOf lanes).foldl (fun m l => KMap.set m 0#64 l v) m) 0#64 l = if lanes.getLsbD l then v else KMap.get m 0#64 l := by
  simp only [KMap.get_foldl_set_nodup 0#64 (fun _ _ => v) (lanesOf_nodup lanes), mem_lanesOf]

/-- R304: the lanes of TMASK are sent to THND, the others keep their PC. -/
theorem enterHandler_pcOf (g : Gang) (t : TrapInfo) (tpc : W64) (l : Nat) :
    (g.enterHandler t tpc).pcOf l = if g.live.getLsbD l && t.tmask.getLsbD l then g.thnd else g.pcOf l := by
  rw [← BitVec.getLsbD_and]
  exact pcs_sent g.pc (g.live &&& t.tmask) g.thnd l

/-- R251: the lanes of TMASK are sent to TPC, the others keep their PC. -/
theorem returnFromTrap_pcOf (g : Gang) (l : Nat) :
    (g.returnFromTrap).pcOf l = if g.live.getLsbD l && g.tmask.getLsbD l then g.tpc else g.pcOf l := by
  rw [← BitVec.getLsbD_and]
  exact pcs_sent g.pc (g.live &&& g.tmask) g.tpc l

section

variable {f : Fields} {s : State} {g : Gang} {x : Iss}

/-- R303: a cause that follows the effect is taken from the committed issue. -/
theorem commitIssue_after (x : Iss) (s : State) (t : TrapInfo) :
    commitIssue x s { after := some t } = takeTrap (commitIssue x s {}) x.ref x.who x.task x.pc t := by
  unfold commitIssue
  split
  · next hnone => simp only [takeTrap, hnone]
  · rfl

/-- R304: a cause that is no machine check, no poison and no debug stop enters the handler of a gang that has one and is outside it. -/
theorem takeTrap_handler {ref : GangRef} {who : Who} {task : Task} {pc : W64} {t : TrapInfo} (hg : s.gang? ref = some g)
    (hi : g.inh = false) (hh : g.thnd ≠ 0#64) (hlow : 2 < t.cause) (hhigh : t.cause < 0xF0) :
    takeTrap s ref who task pc t =
      s.setGang ref (({ g with transients := [], holdLatch := [] } : Gang).enterHandler t (t.tpc.getD pc)) := by
  have hne : ∀ n, n ≤ 2 ∨ 0xF0 ≤ n → t.cause ≠ n := fun n hn => by omega
  simp only [takeTrap, hg, logTrap, hne 0x02 (by omega), hne 0x01 (by omega), hne 0xF0 (by omega), hne 0xF1 (by omega), hi, hh, if_false,
    decide_false, Bool.or_self, Bool.and_false, Bool.false_and, Bool.false_eq_true, setGang_setGang]

/-- What TRAP raises. -/
def Iss.trapped (x : Iss) (cause : Nat) : TrapInfo :=
  { cause, tmask := x.active, taddr := 0#64, thit := x.active, tpc := some (x.pc + 12#64) }

/-- The gang in its handler after a TRAP. -/
def Iss.handled (x : Iss) (s : State) (cause : Nat) : Gang :=
  ({ x.fallen s x.g with transients := [], holdLatch := [] } : Gang).enterHandler (x.trapped cause) (x.pc + 12#64)

theorem exec_trap (h : Ready (.trap f) s g x) (hi : g.inh = false) (hh : g.thnd ≠ 0#64) (hlow : 2 < f.imm.toNat % 256)
    (hhigh : f.imm.toNat % 256 < 0xF0) : exec (.trap f) s =
      .next ((countIssue s x.ref x.g.width (isSfu x.i)).setGang x.ref (x.handled s (f.imm.toNat % 256))) := by
  have hexec : exec (.trap f) s = .next (finishIssue s x (.done (x.start s) { after := some (x.trapped (f.imm.toNat % 256)) })) :=
    h.runs (rfl : execTrap f s = _) (if_neg h.someLane)
  rw [hexec, finishIssue_done h.unbroken, commitIssue_after, Iss.start, commitIssue_plain,
    takeTrap_handler (by rw [countIssue_gang?, setGang_self]) ((reads_falls h.reads s).inh.trans hi)
      ((reads_specialsKept h.reads s).thnd.symm ▸ hh) hlow hhigh]
  congr 1
  exact setGang_setGang (countIssue s x.ref x.g.width (isSfu x.i)) _ _ _

theorem trap_does (h : Ready (.trap f) s g x) (hi : g.inh = false) (hh : g.thnd ≠ 0#64) (hlow : 2 < f.imm.toNat % 256)
    (hhigh : f.imm.toNat % 256 < 0xF0) :
    ∃ t g', exec (.trap f) s = .next t ∧ t.gang? x.ref = some g' ∧ g'.cause = BitVec.ofNat 8 (f.imm.toNat % 256) ∧
      g'.tpc = x.pc + 12#64 ∧ g'.tmask = x.active ∧ g'.thit = x.active ∧ g'.taddr = 0#64 ∧ g'.inh = true ∧
      (∀ l, x.active.getLsbD l = true → g.live.getLsbD l = true → g'.pcOf l = g.thnd) ∧
      (∀ l, x.set.getLsbD l = true → x.active.getLsbD l = false → g'.pcOf l = x.pc + 12#64) ∧
      g'.held = g.live &&& ~~~x.active ∧ g'.issues = g.issues + 1#64 ∧
      RegsKept g g' (fun _ => False) (fun _ => False) (fun _ _ => False) (fun _ => False) ∧ ∀ pa, memByte t pa = memByte s pa := by
  have hfalls := reads_falls h.reads s
  have hthnd := (reads_specialsKept h.reads s).thnd
  have hpcOf : ∀ l, (x.handled s (f.imm.toNat % 256)).pcOf l =
      if (x.fallen s x.g).live.getLsbD l && x.active.getLsbD l then (x.fallen s x.g).thnd else (x.fallen s x.g).pcOf l :=
    enterHandler_pcOf _ _ _
  have hissues : (x.fallen s x.g).issues = g.issues + 1#64 := by
    show x.g.issues + 1#64 = _
    rw [h.reads]
    rfl
  refine ⟨_, _, exec_trap h hi hh hlow hhigh, setGang_self .., rfl, rfl, rfl, rfl, rfl, rfl, fun l ha hl => ?_, fun l hs ha => ?_, ?_,
    hissues, ?_, fun _ => rfl⟩
  · rw [hpcOf, hfalls.live, hl, ha, hthnd]
    rfl
  · rw [hpcOf, ha, Bool.and_false]
    exact hfalls.pc l hs
  · rw [← hfalls.live]
    rfl
  · exact (reads_regsKept h.reads s).trans (by constructor <;> intros <;> rfl)

/-! RTE -/

theorem exec_rte (h : Ready (.rte f) s g x) (hi : g.inh = true) : exec (.rte f) s =
    .next (countIssue (s.setGang x.ref (x.fallen s x.g).returnFromTrap) x.ref x.g.width (isSfu x.i)) := by
  show execRte f s = _
  rw [execRte, runIssueWith_ready h (show rteEarly x.f (g.seen x.set) = .go from if_pos hi)]
  simp only [if_neg h.someLane]
  rw [finishIssue_done h.unbroken, commitIssue, setGang_self]
  simp only [setGang_setGang, if_true, Bool.or_false]
  simp only [Iss.fallen, Bool.or_false]
  rfl

theorem rte_does (h : Ready (.rte f) s g x) (hi : g.inh = true) : ∃ t g', exec (.rte f) s = .next t ∧ t.gang? x.ref = some g' ∧
    (∀ l, g.live.getLsbD l = true → g.tmask.getLsbD l = true → g'.pcOf l = g.tpc) ∧
    (∀ l, g.live.getLsbD l && g.tmask.getLsbD l = false → x.set.getLsbD l = false → g'.pcOf l = g.pcOf l) ∧
    g'.held = 0#64 ∧ g'.inh = false ∧ (∀ l, g'.waitOf l = 0) ∧ g'.live = g.live ∧
    (g'.exempt = (g.exempt &&& ~~~x.set &&& ~~~(g.live &&& g.tmask)) |||
      if g.cause = 0x28#8 ∨ g.cause = 0xF1#8 then g.live &&& g.tmask else 0#64) ∧
    RegsKept g g' (fun _ => False) (fun _ => False) (fun _ _ => False) (fun _ => False) ∧ SpecialsKept g g' ∧ g'.fpstat = g.fpstat ∧
    OthersKept x s t := by
  have hfalls := reads_falls h.reads s
  have hkept := reads_specialsKept h.reads s
  have hexempt : (x.fallen s x.g).exempt = g.exempt &&& ~~~x.set := by
    show x.g.exempt &&& ~~~x.set = _
    rw [h.reads]
    rfl
  refine ⟨_, (x.fallen s x.g).returnFromTrap, exec_rte h hi, by rw [countIssue_gang?, setGang_self], fun l hl ht => ?_, fun l hb hs => ?_,
    rfl, rfl, fun _ => rfl, hfalls.live, ?_, ?_, ?_, reads_fpstat h.reads s, countIssue_others x s _ _ _⟩
  · rw [returnFromTrap_pcOf, hfalls.live, hkept.tmask, hl, ht, hkept.tpc]
    rfl
  · obtain ⟨-, ht⟩ := Bool.and_eq_true_iff.1 hb
    rw [returnFromTrap_pcOf, hkept.tmask, of_decide_eq_true ht, Bool.and_false]
    exact hfalls.otherPc l hs
  · simp only [Gang.returnFromTrap, Gang.resume, hfalls.live, hkept.tmask, hkept.cause, hexempt, Bool.or_eq_true, decide_eq_true_eq]
  · exact (reads_regsKept h.reads s).trans (by constructor <;> intros <;> rfl)
  · exact specials_trans hkept (by constructor <;> rfl)

theorem rte_privilege (h : Ready (.rte f) s g x) (hi : g.inh = false) :
    exec (.rte f) s = .next (trapIssue s (.rte f) f x.ref x.who x.task x.pc x.set x.active (.plain 0x13 x.active)) := by
  have hearly : rteEarly x.f (g.seen x.set) = .cause 0x13 := if_neg (by rw [show (g.seen x.set).inh = false from hi]; decide)
  show execRte f s = _
  rw [execRte, runIssueWith_cause h hearly, h.fields rfl]

end

end Sys2Proof.Machine

namespace Sys2Proof

open Machine in
/-- Settles O38: one lemma for each outcome; where the lanes go is `enterHandler_pcOf` and `returnFromTrap_pcOf`. -/
theorem trapAndReturn : Obligations.TrapAndReturn := by
  unfold Obligations.TrapAndReturn
  exact fun f s g x => ⟨trap_does, rte_does, rte_privilege⟩

end Sys2Proof

namespace Sys2Proof.Machine

/-! ### CARVE (R244) -/

theorem setGang_setTeam (s : State) (r : GangRef) (a : Gang) (k : Nat) (t : Team) :
    (s.setGang r a).setTeam k t = (s.setTeam k t).setGang r a := rfl

section

variable {f : Fields} {s : State} {g : Gang} {x : Iss} {t : Team}

/-- R244: a request that is malformed, or asks for more than a half's units. -/
def Iss.carveIllegal (x : Iss) : Prop :=
  bits (x.a x.low).toNat 32 32 ≠ 0 ∨ bits (x.a x.low).toNat 16 16 = 0 ∨
    256 < x.task.rec_.regu + bits (x.a x.low).toNat 0 16 + bits (x.a x.low).toNat 16 16

theorem carveIllegal_iff (x : Iss) : x.carveIllegal ↔ (bits (x.a x.low).toNat 32 32 ≠ 0 || bits (x.a x.low).toNat 16 16 = 0 ||
    x.task.rec_.regu + bits (x.a x.low).toNat 0 16 + bits (x.a x.low).toNat 16 16 > 256) = true := by
  simp only [Iss.carveIllegal, Bool.or_eq_true, decide_eq_true_eq, or_assoc]

/-- R244: the answer of a CARVE that is not taken up. -/
def carveAnswer (t : Team) (st : Nat) : W64 :=
  let h := t.halves.headD ⟨0, [], [], [], [], []⟩
  carveStatus h.l1Units.length h.scratchUnits.length st

theorem carve_answers (h : Ready (.carve f) s g x) (ht : s.team? x.who.team = some t) {st : Nat}
    (hst : t.carve ≠ none ∧ st = 2 ∨ t.carve = none ∧ x.carveIllegal ∧ st = 3) :
    DoesFill (.carve f) s x .ready (x.dWrites fun _ => carveAnswer t st) 0#5 false := by
  have hteam : (s.setGang x.ref x.g).team? x.who.team = some t := ht
  show ∃ u, execCarve f s = .next u ∧ _
  refine runIssue_fill h _ .ready _ (dWrites_no_p x _) _ _ ?_
  rw [if_neg h.someLane, hteam, ← fill_eq _ _ _ _ _ (dWrites_ne_nil h.someLane (h.dest rfl rfl rfl) _)]
  rcases hst with ⟨hc, rfl⟩ | ⟨hc, hi, rfl⟩
  · exact if_pos (Option.isSome_iff_ne_none.2 hc)
  · simp only [hc, Option.isSome_none, Bool.false_eq_true, if_false]
    exact if_pos ((carveIllegal_iff x).1 hi)

theorem carve_asks (h : Ready (.carve f) s g x) (ht : s.team? x.who.team = some t) (hc : t.carve = none) (hi : ¬ x.carveIllegal) :
    DoesGang (.carve f) s (s.setTeam x.who.team { t with carve := some (CarveReq.mk x.ref x.g.nextFill
      (bits (x.a x.low).toNat 0 16) (bits (x.a x.low).toNat 16 16)) }) x fun g => g.startFill .awaits (x.dWrites fun _ => 0#64) 0#5 false := by
  have hteam : (s.setGang x.ref x.g).team? x.who.team = some t := ht
  show ∃ u, execCarve f s = .next u ∧ _
  refine runIssue_gang h _ _ _ ?_
  rw [if_neg h.someLane, hteam]
  simp only [hc, Option.isSome_none, Bool.false_eq_true, if_false]
  rw [if_neg (mt (carveIllegal_iff x).2 hi)]
  simp only [setGang_self, Option.map_some, Option.getD_some, setGang_setTeam, mapGang_setGang]

end

end Sys2Proof.Machine

namespace Sys2Proof

open Machine in
/-- Settles O36: one lemma for the answers at once, one for the request that waits. -/
theorem carveOut : Obligations.CarveOut := by
  unfold Obligations.CarveOut
  intro f s g x t h ht
  exact ⟨fun hc => carve_answers h ht (.inl ⟨hc, rfl⟩), fun hc hi => carve_answers h ht (.inr ⟨hc, hi, rfl⟩), carve_asks h ht⟩

end Sys2Proof

namespace Sys2Proof.Machine

/-! ### Copy-engine forms (R230 to R234) -/

theorem plainCheck_keeps (s : State) (w : Who) (r : TaskRec) (lane va n align : Nat) (perm decl : Access) (peerOk : Bool) :
    ChecksKeep s (plainCheck s w r lane va n align perm decl peerOk).state := by
  have hk := xlatPieces_keeps s w.core w.ctx perm .global lane va [] [] (pagePieces va n)
  unfold plainCheck
  split
  · next h => rw [h] at hk; exact hk
  · next h => rw [h] at hk; exact hk
  · next h =>
    rw [h] at hk
    repeat' split
    all_goals exact hk

section

variable {i : Instr} {s s1 s2 : State} {g : Gang} {x : Iss} {kind : EngineKind} {d : List W64} {again : Option Nat}

/-- R289: a block that is to be read again has changed nothing outside the task's pages and what checks change. -/
theorem readBlock_gangs {off n : Nat} (hr : readBlock x s off = .ok d (some n) s2) : s2.gangs = s.gangs := by
  unfold readBlock at hr
  simp only at hr
  split at hr
  · cases hr
  · cases hr
  · next accs s1 hlocal =>
    have hchecks : s1.gangs = s.gangs := by
      have hkept := localCheck_keeps s x.who x.task.rec_ none x.who.half true
        { lane := x.low, va := off, size := 64, kind := .read, align := 64, peerOk := false }
      rw [hlocal] at hkept
      exact (ChecksKeep.readsKept hkept).gangs
    split at hr
    · cases hr
    · next unclass claims s3 htouch =>
      have htouched : s3.gangs = s1.gangs := by rw [touchPages_keeps _ _ _ _ _ _ _ _ _ _ _ htouch]
      repeat' split at hr
      all_goals cases hr
      exact htouched.trans hchecks

/-- R232: the object that an engine form is to update. -/
def Iss.engSig (x : Iss) : Option Nat := if x.f.b.toNat = 0x678 then none else some (x.b x.low).toNat

/-- R234: the signal may be written, as the checks that turn s into s1 find. -/
def Iss.sigPasses (x : Iss) (s s1 : State) : Prop :=
  match x.engSig with
  | none => s1 = s
  | some a => ∃ accs, plainCheck s x.who x.task.rec_ x.low a 8 8 .write .write false = .ok accs s1

theorem sigPasses_gangs (h : x.sigPasses s s1) : s1.gangs = s.gangs := by
  unfold Iss.sigPasses at h
  split at h
  · rw [h]
  · next a _ =>
    obtain ⟨accs, hcheck⟩ := h
    have hkept := plainCheck_keeps s x.who x.task.rec_ x.low a 8 8 .write .write false
    rw [hcheck] at hkept
    exact (ChecksKeep.readsKept hkept).gangs

/-- R230: what an engine form queues. -/
def Iss.engineOp (x : Iss) (kind : EngineKind) (s : State) (d : List W64) (again : Option Nat) : EngineOp :=
  { kind, core := x.ref.core, team := x.who.team, half := x.who.half, g := x.ref, ctx := x.who.ctx, slot := x.who.slot, index := x.who.index,
    desc := d, sig := x.engSig, behind := behindOf s x.ref, elem := 0, fault := 0, faultAddr := 0,
    thr := 2 ^ 31 + x.g.index * x.g.width + x.low, seq := KMap.get x.g.seq 0 x.low, stopped := false, peerWait := false, buf := none,
    touched := false, claims := [], stamp := s.issueCtr, again := again.map fun n => (n, (x.a x.low).toNat), recheck := none }

/-- R230, R369: the state once it is queued. -/
def Iss.queued (x : Iss) (kind : EngineKind) (s : State) (d : List W64) (again : Option Nat) : State :=
  countBlock x (x.mapGang { s with engine := KMap.put s.engine s.nextEngine (x.engineOp kind s d again), nextEngine := s.nextEngine + 1 }
    fun g => { g with seq := x.lanes.foldl (fun m l => KMap.set m 0 l (KMap.get m 0 l + 1)) g.seq }) (x.a x.low).toNat again

/-- R230, R234: an engine form whose signal may be written and whose descriptor is read. -/
theorem exec_engForm (h : Ready i s g x) (he : exec i s = engForm i kind s) (hsig : x.sigPasses (x.start s) s1)
    (hread : readBlock x s1 (x.a x.low).toNat = .ok d again s2) :
    exec i s = .next (finishIssue s x (
      if cpyBad kind d then settledTrap again (.plain 0x11 x.set (x.a x.low)) s2
      else if 1024 ≤ (s2.engine.filter fun e => e.2.core == x.ref.core).length then .wait .engineFull s2
      else .ok (x.queued kind s2 d again))) := by
  refine h.runs (he.trans rfl) ?_
  have hoff : w64 (x.a x.low).toNat = x.a x.low := by rw [w64, BitVec.ofNat_toNat, BitVec.setWidth_eq]
  rw [if_neg h.someLane]
  unfold Iss.sigPasses at hsig
  split at hsig
  · next hnone =>
    subst hsig
    rw [Iss.engSig] at hnone
    simp only [hnone, hread, hoff, Iss.queued, Iss.engineOp, Iss.engSig]
  · next a hsome =>
    obtain ⟨accs, hcheck⟩ := hsig
    rw [Iss.engSig] at hsome
    simp only [hsome, hcheck, hread, hoff, Iss.queued, Iss.engineOp, Iss.engSig]

/-- R270: a wait gives back what the issue's reading made of the transient results and of the reuse latch. -/
theorem finishIssue_waits (h : Ready i s g x) {a : Gang} (ha : s2.gang? x.ref = some a) (why : Wait) :
    finishIssue s x (.wait why s2) =
      s2.setGang x.ref { a with transients := g.transients, holdLatch := g.holdLatch, waits := some why } := by
  simp only [finishIssue, h.unbroken, ne_eq, not_true, decide_false, Bool.and_false, Bool.false_eq_true, if_false, h.present, Option.map_some,
    Option.getD_some, mapGang_of ha, waitIssue, setGang_self, setGang_setGang]

/-- The gang as its issue reads it, once a wait has marked it. -/
theorem reads_waits (h : Ready i s g x) (why : Wait) :
    { x.g with transients := g.transients, holdLatch := g.holdLatch, waits := some why } = { g with waits := some why } := by
  rw [h.reads]
  rfl

theorem engForm_settles (h : Ready i s g x) (he : exec i s = engForm i kind s) (hsig : x.sigPasses (x.start s) s1)
    (hread : readBlock x s1 (x.a x.low).toNat = .ok d again s2) :
    (cpyBad kind d = true → again = none → Traps i s x s2 (.plain 0x11 x.set (x.a x.low))) ∧
    (cpyBad kind d = true → again ≠ none → ∃ t, exec i s = .next t ∧ t.gang? x.ref = some { g with waits := some .unclassified }) ∧
    (cpyBad kind d = false → (s2.engine.filter fun e => e.2.core == x.ref.core).length < 1024 → Commits i s x (x.queued kind s2 d again)) := by
  have hexec := exec_engForm h he hsig hread
  refine ⟨fun hbad hone => ?_, fun hbad hagain => ?_, fun hgood hfree => ?_⟩
  · rw [Traps, hexec, if_pos hbad, hone, ← h.instr]
    rfl
  · obtain ⟨n, rfl⟩ := Option.ne_none_iff_exists'.1 hagain
    rw [if_pos hbad] at hexec
    have hgangs : s2.gangs = (x.start s).gangs := (readBlock_gangs hread).trans (sigPasses_gangs hsig)
    have hg : s2.gang? x.ref = some x.g := (congrArg (KMap.get? · _) hgangs).trans (start_gang? x s)
    refine ⟨_, hexec, ?_⟩
    rw [settledTrap, Option.isSome_some, if_pos rfl, finishIssue_waits h hg, setGang_self, reads_waits h]
  · rw [Commits, hexec, if_neg (by rw [hgood]; decide), if_neg (Nat.not_le.2 hfree), finishIssue_ok h.unbroken]

end

end Sys2Proof.Machine

namespace Sys2Proof

open Machine in
/-- Settles O32: the four forms are `engForm_settles`. -/
theorem engineForms : Obligations.EngineForms := by
  unfold Obligations.EngineForms
  intro i f kind s s1 s2 g x d again hi h off sig hsig hread
  have hf : x.f = f := by
    rcases hi with ⟨rfl, -⟩ | ⟨rfl, -⟩ | ⟨rfl, -⟩ | ⟨rfl, -⟩
    all_goals exact h.fields rfl
  have he : exec i s = engForm i kind s := by
    rcases hi with ⟨rfl, rfl⟩ | ⟨rfl, rfl⟩ | ⟨rfl, rfl⟩ | ⟨rfl, rfl⟩
    all_goals rfl
  subst hf
  exact engForm_settles h he hsig hread

end Sys2Proof

namespace Sys2Proof.Machine

/-! ### The reads of waiting forms (R238, R247, R249) -/

theorem againIss_ref {s : State} {ref : GangRef} {i : Instr} {active : LaneMask} {x : Iss} (h : againIss s ref i active = some x) : x.ref = ref := by
  unfold againIss at h
  repeat' split at h
  all_goals cases h
  rfl

theorem crossAccs_ctxs (s : State) (w : Who) (accs : List LaneAcc) : (crossAccs s w accs).ctxs = s.ctxs := by
  refine foldl_keeps (fun t : State => t.ctxs = s.ctxs) _ (fun t a ht => ?_) accs s rfl
  split
  · exact ht
  · split
    · exact ht
    · exact foldl_keeps (fun t : State => t.ctxs = s.ctxs) (fun t _ => portCross t w.core w.ctx) (fun _ _ h => h) _ t ht

theorem correctMem_ctxs (s : State) (die pa n : Nat) : (correctMem s die pa n).ctxs = s.ctxs := by
  unfold correctMem
  simp only
  split
  all_goals rfl

/-- R453: memory as the read of a waiting form finds it. -/
def objectState (s : State) (w : Who) (op : PendOp) (a : LaneAcc) : State :=
  correctMem (recallLines (crossAccs s w op.accs) a.pa 8 (.of w.ctx)) (homeDie a.pa (pteBit a.leaf 8)) a.pa 8

theorem objectState_ctxs (s : State) (w : Who) (op : PendOp) (a : LaneAcc) : (objectState s w op a).ctxs = s.ctxs :=
  (correctMem_ctxs _ _ _ _).trans (crossAccs_ctxs s w op.accs)

/-- R428: with no agent on the context nothing is watched. -/
theorem syncWatch_none {s : State} {ctx : Nat} (h : (KMap.get? s.ctxs ctx).bind Ctx.debug = none) (okind cond : Nat) (obj : W64)
    (last : Nat → Bool) : syncWatch s ctx okind cond obj last = false := by
  simp only [syncWatch, h]

section

variable {s : State} {ref : GangRef} {g : Gang} {w : Who} {op : PendOp} {a : LaneAcc} {rest : List LaneAcc} {x : Iss}

/-- R249: what follows the completing read of a waiting form: WATCH-SYNC where an armed FLIP watchpoint is met. -/
def flipCause (x : Iss) (s : State) (g : Gang) (ctx okind : Nat) (a : LaneAcc) (meets : Bool) : Post :=
  { after := if !g.inh && meets && syncWatch s ctx okind 2 (w64 a.va) (fun _ => true) then some (watchSync x (w64 a.va)) else none }

/-- R238, R247, R453: the read of a waiting form whose issue is as it was. -/
theorem objectRead_eq (hg : s.gang? ref = some g) (hw : s.who ref = some w) (hop : op.accs = a :: rest) (hstops : issueStops s ref.core w.ctx = false)
    (hheld : crossHeld s w.ctx op = false)
    (hagain : againIss ((objectState s w op a).setGang ref { g with block := none, unclass := none }) ref op.i op.active = some x)
    (hclean : memPoisoned (objectState s w op a) a.pa 8 = false) (okind : Nat) (done flip : Nat → Bool) (keep : Gang → Gang) :
    objectRead s ref op okind done flip keep =
      if done (memNat (objectState s w op a) a.pa 8) then
        commitIssue x (x.mapGang ((objectState s w op a).setGang ref x.g) keep)
          (flipCause x (objectState s w op a) g w.ctx okind a (flip (memNat (objectState s w op a) a.pa 8)))
      else s := by
  unfold objectRead
  rw [hop, hg, hw]
  simp only [hstops, hheld, Bool.or_self, Bool.false_eq_true, if_false]
  rw [← hop]
  unfold objectState at hagain hclean
  simp only [hagain, hclean, Bool.false_eq_true, if_false]
  rfl

theorem sigwComplete_eq (hg : s.gang? ref = some g) (hb : g.block = some (.signal op)) (hop : op.accs = a :: rest) :
    exec (.sigwComplete ref) s =
      .next (objectRead s ref op 3 (fun v => sigErr v ≠ 0 || leVal a.data % 2 ^ 48 ≤ sigCount v) (fun _ => true) id) := by
  show execSigwComplete ref s = _
  simp only [execSigwComplete, hg, Option.bind_some, hb, hop, List.head?_cons, Option.map_some, Option.getD_some]

theorem bowComplete_eq (hg : s.gang? ref = some g) (hb : g.block = some (.object op)) (hop : op.accs = a :: rest) :
    exec (.bowComplete ref) s = .next (objectRead s ref op 2
      (fun v => (g.arrivals.find? fun r => r.1 == w64 a.va).all fun r => (v / 2 ^ 63 == 1) != r.2)
      (fun v => (g.arrivals.find? fun r => r.1 == w64 a.va).any fun r => (v / 2 ^ 63 == 1) != r.2)
      fun g => { g with arrivals := g.arrivals.filter fun r => r.1 ≠ w64 a.va }) := by
  show execBowComplete ref s = _
  simp only [execBowComplete, hg, Option.bind_some, hb, hop, List.head?_cons, Option.map_some, Option.getD_some]
  cases g.arrivals.find? fun r => r.1 == w64 a.va
  all_goals rfl

/-- R249: where no agent is attached nothing follows the commit. -/
theorem flipCause_none (hctx : (KMap.get? s.ctxs w.ctx).bind Ctx.debug = none) (okind : Nat) (meets : Bool) :
    (flipCause x (objectState s w op a) g w.ctx okind a meets).after = none := by
  rw [flipCause, syncWatch_none (by rw [objectState_ctxs]; exact hctx), Bool.and_false]
  rfl

end

/-- A record that meets a condition, or is not there, meets it where it is there. -/
theorem any_of_all {α : Type} {r : Option α} {p : α → Bool} (h : r.all p = true) : r.any p = r.isSome := by
  cases r with
  | none => rfl
  | some v => exact h

end Sys2Proof.Machine

namespace Sys2Proof

open Machine in
/-- Settles O34: both completions are `objectRead_eq`. -/
theorem objectWaits : Obligations.ObjectWaits := by
  unfold Obligations.ObjectWaits
  intro s ref g w op a rest x hg hw hop hstops hheld s1 free v first done cause sync hagain hclean
  have hread := objectRead_eq hg hw hop hstops hheld hagain hclean
  obtain rfl : x.ref = ref := againIss_ref hagain
  refine ⟨fun hb hdone => ?_, fun hb hcount herr => ?_, fun hb hdone => ?_, fun hctx kind meets => flipCause_none hctx kind meets,
    fun hb hdone => ?_⟩
  · have hd : (decide (sigErr v ≠ 0) || decide (leVal a.data % 2 ^ 48 ≤ sigCount v)) = true := by
      simpa only [Bool.or_eq_true, decide_eq_true_eq] using hdone.symm
    rw [sigwComplete_eq hg hb hop, hread]
    exact congrArg _ (if_pos hd)
  · have hd : ¬(decide (sigErr v ≠ 0) || decide (leVal a.data % 2 ^ 48 ≤ sigCount v)) = true := by
      simpa only [Bool.or_eq_true, decide_eq_true_eq, not_or, not_not, Nat.not_le] using ⟨herr, hcount⟩
    rw [sigwComplete_eq hg hb hop, hread]
    exact congrArg _ (if_neg hd)
  · rw [bowComplete_eq hg hb hop, hread]
    exact congrArg _ ((if_pos hdone).trans
      (congrArg (fun meets => commitIssue x _ (flipCause x s1 g w.ctx 2 a meets)) (any_of_all hdone)))
  · rw [bowComplete_eq hg hb hop, hread]
    exact congrArg _ (if_neg (Bool.eq_false_iff.1 hdone))

end Sys2Proof

namespace Sys2Proof.Machine

/-! ### Forms on signal and barrier objects (R237 to R240, R245 to R249) -/

/-- R213: accesses that pass the checks of a form that reaches no peer window are at home. -/
theorem plainCheck_home {s t : State} {w : Who} {r : TaskRec} {lane va n align : Nat} {perm decl : Access} {accs : List LaneAcc}
    (h : plainCheck s w r lane va n align perm decl false = .ok accs t) : accs.any (·.peer.isSome) = false := by
  unfold plainCheck at h
  split at h
  · cases h
  · cases h
  · next found s1 hfound =>
    by_cases hp : found.any (·.peer.isSome) = true
    · rw [if_pos (by rw [hp]; rfl)] at h
      cases h
    · repeat' split at h
      all_goals cases h
      all_goals exact Bool.eq_false_iff.2 hp

/-- R276: a form that is unclassified whatever it touches is so. -/
theorem touchPages_force {s t : State} {slot index owner : Nat} {write busy u : Bool} {pages cs : List Nat}
    (h : touchPages s slot index owner write true busy pages = .go u cs t) : u = true := by
  unfold touchPages at h
  split at h
  · cases h; rfl
  · simp only [Bool.true_or, Bool.true_and] at h
    repeat' split at h
    all_goals cases h
    all_goals rfl

/-- Accesses with the value that they carry. -/
def withData (accs : List LaneAcc) (v : W64) : List LaneAcc := accs.map fun a => { a with data := leBytes 8 v.toNat }

theorem withData_home {accs : List LaneAcc} (v : W64) : (withData accs v).any (·.peer.isSome) = accs.any (·.peer.isSome) := by
  rw [withData, List.any_map]
  rfl

section

variable {i : Instr} {s s1 s2 : State} {g : Gang} {x : Iss} {accs0 : List LaneAcc} {perm decl : Access} {barrier u : Bool} {cs : List Nat}

/-- R238, R248: what the checks of an object's address leave alone, and that its access is at home. -/
theorem objCheck_ok (h : objCheck x s perm decl barrier = .ok accs0 s1) : ChecksKeep s s1 ∧ accs0.any (·.peer.isSome) = false := by
  have hkept := plainCheck_keeps s x.who x.task.rec_ x.low (x.a x.low).toNat 8 8 perm decl false
  unfold objCheck at h
  simp only at h
  split at h
  · cases h
  · split at h
    all_goals cases h
  · next hcheck =>
    split at h
    all_goals cases h
    rw [hcheck] at hkept
    exact ⟨hkept, plainCheck_home hcheck⟩

/-- The state after the checks and touches of an object's access. -/
theorem object_reached {write busy : Bool} {pages : List Nat} (hc : objCheck x s perm decl barrier = .ok accs0 s1)
    (ht : touchPages s1 x.who.slot x.who.index x.who.owner write true busy pages = .go u cs s2) :
    s2 = { s with tlb := s1.tlb, walks := s1.walks, counters := s1.counters, tasks := s2.tasks } := by
  rw [touchPages_keeps _ _ _ _ _ _ _ _ _ _ _ ht]
  rw [show s1 = { s with tlb := s1.tlb, walks := s1.walks, counters := s1.counters } from (objCheck_ok hc).1]

/-- R239, R240, R246: an event on an object that no watchpoint names goes in flight. -/
theorem event_flies {okind : Nat} {data : Iss → W64} {ws : Iss → List RegWrite} (h : Ready i s g x)
    (he : exec i s = eventForm i s barrier okind data ws) (hlocal : isLocal i = false) (hu : x.g.unclass = none)
    (hc : objCheck x (x.start s) .write .write barrier = .ok accs0 s1)
    (hplain : watched s1 x.who.ctx okind (x.a x.low) = false ∨ x.g.inh = true)
    (ht : touchPages s1 x.who.slot x.who.index x.who.owner true true false (globalPages (withData accs0 (data x))) = .go u cs s2) :
    Commits i s x (x.mapGang (foldIssue s2 x (withData accs0 (data x)))
      (Gang.inFlight (x.op (withData accs0 (data x)) cs s.issueCtr) (ws x))) := by
  obtain ⟨hkept, hhome⟩ := objCheck_ok hc
  have hgang : s1.gang? x.ref = some x.g := (hkept.readsKept.gang? x.ref).trans (start_gang? x s)
  have hctr : s1.issueCtr = s.issueCtr := by rw [show s1 = _ from hkept]; rfl
  have hwatch : ¬(watched s1 x.who.ctx okind (x.a x.low) && !x.g.inh) = true := by
    rcases hplain with hw | hi
    · simp [hw]
    · simp [hi]
  have hexec : exec i s = .next (finishIssue s x (issueAccs x s1 true true (withData accs0 (data x)) (ws x))) := by
    refine h.runs (he.trans rfl) ?_
    simp only [if_neg h.someLane, start_gang?, Option.bind_some, hu, Option.isSome_none, Bool.false_eq_true, if_false, hc, if_neg hwatch]
    rfl
  have hissue : issueAccs x s1 true true (withData accs0 (data x)) (ws x) =
      .ok (x.mapGang (foldIssue s2 x (withData accs0 (data x))) (Gang.inFlight (x.op (withData accs0 (data x)) cs s.issueCtr) (ws x))) := by
    simp only [issueAccs, withData_home, hhome, hgang, hu, hctr, h.instr, hlocal, Option.bind_some, Option.isSome_none, Bool.false_and,
      Bool.or_false, Bool.false_eq_true, if_false, ht, touchPages_force ht, if_true]
    rw [← h.instr]
    rfl
  rw [Commits, hexec, hissue, finishIssue_ok h.unbroken]

/-- The accesses of a form that fills no view, as they are performed. -/
theorem op_plain (hi : x.i = i) (hdesc : opDesc x = 0#64) (accs : List LaneAcc) (claims : List Nat) (stamp : Nat) :
    ({ i, active := x.active, accs, got := [], desc := 0#64, fill := x.g.nextFill, claims, stamp } : PendOp) = x.op accs claims stamp := by
  rw [Iss.op, hi, hdesc]

/-- The event on a watched object, made before the gang goes on. -/
def Iss.made (x : Iss) (s : State) (accs : List LaneAcc) (cs : List Nat) : Performed :=
  performOp (crossAccs s x.who accs) x.who (x.op accs cs s.issueCtr) true

/-- R249, R428: an event on a watched object is made, and then WATCH-SYNC is taken where it meets the watchpoint's condition. -/
theorem event_syncs {okind : Nat} {data : Iss → W64} {ws : Iss → List RegWrite} {a : LaneAcc} {meets : Nat → Nat → Bool} (h : Ready i s g x)
    (he : exec i s = eventForm i s barrier okind data ws) (hdesc : opDesc x = 0#64) (hu : x.g.unclass = none)
    (hc : objCheck x (x.start s) .write .write barrier = .ok accs0 s1)
    (hwatched : ¬(watched s1 x.who.ctx okind (x.a x.low) = false ∨ x.g.inh = true))
    (ht : touchPages s1 x.who.slot x.who.index x.who.owner true true false (globalPages (withData accs0 (data x))) = .go u cs s2)
    (hheld : crossHeld s1 x.who.ctx (x.op (withData accs0 (data x)) [] 0) = false) (ha : accs0 = [a])
    (hmeets : eventHit s2 x (x.a x.low) = meets) :
    exec i s = .next (commitIssue x (x.mapGang (x.made s2 (withData accs0 (data x)) cs).s fun g =>
        countUnclass (g.startOp .ready (x.made s2 (withData accs0 (data x)) cs).writes))
      { after := if memPoisoned s2 a.pa 8 = false ∧
            meets (memNat s2 a.pa 8) (memNat (x.made s2 (withData accs0 (data x)) cs).s a.pa 8) = true
          then some (watchSync x (x.a x.low)) else none }) := by
  have hwatch : (watched s1 x.who.ctx okind (x.a x.low) && !x.g.inh) = true := by
    simpa only [not_or, Bool.not_eq_false, Bool.not_eq_true, Bool.and_eq_true, Bool.not_eq_true'] using hwatched
  have hfree : crossHeld s1 x.who.ctx { i, active := x.active, accs := withData accs0 (data x), got := [], desc := 0#64, fill := 0 } = false := hheld
  have hexec := h.runs (r := .done _ _) (he.trans rfl) (by
    simp only [if_neg h.someLane, start_gang?, Option.bind_some, hu, Option.isSome_none, Bool.false_eq_true, if_false, hc, hwatch, if_true]
    rw [← withData]
    simp only [hfree, Bool.false_eq_true, if_false, ht, op_plain h.instr hdesc]
    rfl)
  rw [hexec, finishIssue_done h.unbroken, ← hmeets, ha]
  simp only [← Bool.not_eq_true', ← Bool.and_eq_true]
  rfl

/-- R238, R247: a form that waits at an object holds its gang, its issue in flight. -/
theorem wait_holds {data : Iss → W64} {block : PendOp → Block} (h : Ready i s g x)
    (he : exec i s = waitForm i s decl barrier data block) (hdesc : opDesc x = 0#64) (hu : x.g.unclass = none)
    (hc : objCheck x (x.start s) .read decl barrier = .ok accs0 s1)
    (ht : touchPages s1 x.who.slot x.who.index x.who.owner false true false (globalPages (withData accs0 (data x))) = .go u cs s2) :
    exec i s = .next (s2.setGang x.ref { g with
      unclass := some (x.op (withData accs0 (data x)) [] s.issueCtr), block := some (block (x.op (withData accs0 (data x)) [] s.issueCtr)),
      unclassCount := g.unclassCount + 1#64, waits := some .fills }) := by
  have hs2 := object_reached hc ht
  have hgang : s2.gang? x.ref = some x.g := by rw [hs2]; exact start_gang? x s
  have hctr : s2.issueCtr = s.issueCtr := by rw [hs2]; rfl
  have hbreak : breakLanes s2 x = 0#64 := by rw [hs2]; exact h.unbroken
  have hexec := h.runs (r := .wait .fills (s2.setGang x.ref (countUnclass { x.g with
      unclass := some (x.op (withData accs0 (data x)) [] s.issueCtr), block := some (block (x.op (withData accs0 (data x)) [] s.issueCtr)) })))
    (he.trans rfl) (by
      simp only [if_neg h.someLane, start_gang?, Option.bind_some, hu, Option.isSome_none, Bool.false_eq_true, if_false, hc]
      rw [← withData]
      simp only [ht, hbreak, ne_eq, not_true, if_false, hctr, op_plain h.instr hdesc, mapGang_of hgang])
  rw [hexec, finishIssue_waits h (setGang_self ..), setGang_setGang]
  congr 2
  rw [h.reads]
  rfl

/-- What a form that waits at an object leaves of its gang and of memory. -/
theorem wait_keeps {data : Iss → W64} {block : PendOp → Block} (h : Ready i s g x)
    (he : exec i s = waitForm i s decl barrier data block) (hdesc : opDesc x = 0#64) (hu : x.g.unclass = none)
    (hc : objCheck x (x.start s) .read decl barrier = .ok accs0 s1)
    (ht : touchPages s1 x.who.slot x.who.index x.who.owner false true false (globalPages (withData accs0 (data x))) = .go u cs s2) :
    let op := x.op (withData accs0 (data x)) [] s.issueCtr
    ∃ t g', exec i s = .next t ∧ t.gang? x.ref = some g' ∧ g'.pc = g.pc ∧ g'.v = g.v ∧ g'.s = g.s ∧ g'.block = some (block op) ∧
      g'.unclass = some op ∧ g'.unclassCount = g.unclassCount + 1#64 ∧ ∀ pa, memByte t pa = memByte s pa := by
  refine ⟨_, _, wait_holds h he hdesc hu hc ht, setGang_self .., rfl, rfl, rfl, rfl, rfl, rfl, fun pa => ?_⟩
  rw [object_reached hc ht]
  rfl

end

/-- R428: the conditions that the event of each form can meet. -/
theorem eventHit_sigt {f : Fields} {x : Iss} (h : x.i = .sigt f) (s : State) (obj : W64) : eventHit s x obj = fun old new =>
    (sigCount old ≠ sigCount new && syncWatch s x.who.ctx 3 0 obj fun _ => true) ||
      syncWatch s x.who.ctx 3 1 obj fun t => sigCount old < t && t ≤ sigCount new := by
  funext old new
  rw [eventHit, h]

theorem eventHit_sigs {f : Fields} {x : Iss} (h : x.i = .sigs f) (s : State) (obj : W64) : eventHit s x obj = fun old new =>
    (syncWatch s x.who.ctx 3 0 obj fun _ => true) || syncWatch s x.who.ctx 3 1 obj fun t => sigCount old < t && t ≤ sigCount new := by
  funext old new
  rw [eventHit, h]

theorem eventHit_boa {f : Fields} {x : Iss} (h : x.i = .boa f) (s : State) (obj : W64) : eventHit s x obj = fun old _ =>
    (syncWatch s x.who.ctx 2 0 obj fun _ => true) ||
      (boaNew old).any fun n => n / 2 ^ 63 ≠ old / 2 ^ 63 && syncWatch s x.who.ctx 2 1 obj fun _ => true := by
  funext old new
  rw [eventHit, h]

theorem exec_sigt (f : Fields) (s : State) :
    exec (.sigt f) s = eventForm (.sigt f) s false 3 (fun x => x.b x.low) fun x => x.dWrites fun _ => 0#64 := rfl
theorem exec_sigs (f : Fields) (s : State) : exec (.sigs f) s = eventForm (.sigs f) s false 3 (fun x => x.b x.low) fun _ => [] := rfl
theorem exec_boa (f : Fields) (s : State) : exec (.boa f) s = eventForm (.boa f) s true 2 (fun _ => 0#64) fun _ => [] := rfl
theorem exec_sigw (f : Fields) (s : State) : exec (.sigw f) s = waitForm (.sigw f) s .read false (fun x => x.b x.low) .signal := rfl
theorem exec_bow (f : Fields) (s : State) : exec (.bow f) s = waitForm (.bow f) s .write true (fun _ => 0#64) .object := rfl

end Sys2Proof.Machine

namespace Sys2Proof

open Machine in
/-- Settles O33: an event that no watchpoint names is `event_flies`, a watched one `event_syncs`, a wait `wait_keeps`. -/
theorem objectForms : Obligations.ObjectForms := by
  unfold Obligations.ObjectForms
  intro f s s1 s2 g x accs0 u cs obj accs checked touched plain flies syncs arms crosses holds hu
  refine ⟨fun h hc => ⟨fun hp ht => ?_, fun hp ht hh a ha => ?_⟩, fun h hc => ⟨fun hp ht => ?_, fun hp ht hh a ha => ?_⟩,
    fun h hc => ⟨fun hp ht => ?_, fun hp ht hh a ha => ?_⟩, fun h hc ht => ?_, fun h hc ht => ?_⟩
  -- each lemma is elaborated before it meets the statement's own form: the unifier would unfold both
  · exact (event_flies h (exec_sigt f s) rfl hu hc hp ht :)
  · exact (event_syncs h (exec_sigt f s) (by rw [opDesc, h.instr]) hu hc hp ht hh ha (eventHit_sigt h.instr s2 obj) :)
  · exact (event_flies h (exec_sigs f s) rfl hu hc hp ht :)
  · exact (event_syncs h (exec_sigs f s) (by rw [opDesc, h.instr]) hu hc hp ht hh ha (eventHit_sigs h.instr s2 obj) :)
  · exact (event_flies h (exec_boa f s) rfl hu hc hp ht :)
  · exact (event_syncs h (exec_boa f s) (by rw [opDesc, h.instr]) hu hc hp ht hh ha (eventHit_boa h.instr s2 obj) :)
  · exact (wait_keeps h (exec_sigw f s) (by rw [opDesc, h.instr]) hu hc ht :)
  · exact (wait_keeps h (exec_bow f s) (by rw [opDesc, h.instr]) hu hc ht :)

end Sys2Proof

namespace Sys2Proof.Machine

/-! ### Team barriers (R241 to R243, R278) -/

/-- A gang changed where it is there and meets a condition. -/
def State.changeGang (s : State) (r : GangRef) (c : Gang → Bool) (k : Gang → Gang) : State :=
  match s.gang? r with
  | none => s
  | some g => if c g then s.setGang r (k g) else s

theorem changeGang_gang? (s : State) (r q : GangRef) (c : Gang → Bool) (k : Gang → Gang) :
    (s.changeGang r c k).gang? q = (s.gang? q).map fun y => if gangNum r = gangNum q ∧ c y = true then k y else y := by
  unfold State.changeGang
  by_cases hq : gangNum r = gangNum q
  · have hsame : ∀ t : State, t.gang? q = t.gang? r := fun t => congrArg (KMap.get? t.gangs) hq.symm
    simp only [hsame, hq, true_and]
    split
    · next hnone => rw [hnone]; rfl
    · next g hg =>
      rw [hg, Option.map_some]
      split
      · exact setGang_self s r (k g)
      · exact hg
  · have hid : (s.gang? q).map (fun y => if gangNum r = gangNum q ∧ c y = true then k y else y) = s.gang? q := by
      simp only [hq, false_and, if_false, Option.map_id']
    rw [hid]
    split
    · rfl
    · split
      · exact setGang_ne s _ (Ne.symm hq)
      · rfl

theorem changeGang_teams (s : State) (r : GangRef) (c : Gang → Bool) (k : Gang → Gang) : (s.changeGang r c k).teams = s.teams := by
  unfold State.changeGang
  repeat' split
  all_goals rfl

section

variable {s : State} {k b : Nat} {t : Team}

/-- Whether a gang waits at a barrier of its team. -/
def Gang.waitsAt (k b : Nat) (y : Gang) : Bool := y.team = k && y.block = some (.barrier b)

/-- R241, R428: a gang that goes on. -/
def Gang.passes (b : Nat) (flip : Bool) (y : Gang) : Gang :=
  let next := KMap.get y.pc 0#64 ((lowestLane y.lastActive).getD 0)
  { y with block := none, syncDue := if flip && !y.inh then some (w64 b, next, y.lastActive) else y.syncDue }

/-- R426, R428: whether an armed FLIP watchpoint names a team's barrier. -/
def flipWatched (s : State) (t : Team) (b : Nat) : Bool :=
  syncWatch s t.ctx 1 2 (barrierObj (((s.task? t.slot).map fun t => t.rec_.taskid).getD 0#32) b) fun _ => true

theorem releaseBarrier_eq (s : State) (k : Nat) (t : Team) (b : Nat) : releaseBarrier s k t b =
    t.gangs.foldl (fun u r => u.changeGang r (Gang.waitsAt k b) (Gang.passes b (flipWatched s t b))) s := rfl

/-- R241: the gangs of the list that wait at the barrier go on, and no other gang changes. -/
theorem release_gang? (flip : Bool) (rs : List GangRef) (s : State) (q : GangRef) :
    (rs.foldl (fun u r => u.changeGang r (Gang.waitsAt k b) (Gang.passes b flip)) s).gang? q =
      (s.gang? q).map fun y => if (∃ r ∈ rs, gangNum r = gangNum q) ∧ y.waitsAt k b = true then y.passes b flip else y := by
  induction rs generalizing s with
  | nil => simp
  | cons r rs ih =>
    rw [List.foldl_cons, ih, changeGang_gang?, Option.map_map]
    congr 1
    funext y
    have hover : (y.passes b flip).waitsAt k b = false := by simp [Gang.waitsAt, Gang.passes]
    by_cases hr : gangNum r = gangNum q ∧ y.waitsAt k b = true
    · simp [hr, hover]
    · have hiff : (∃ r' ∈ r :: rs, gangNum r' = gangNum q) ∧ y.waitsAt k b = true ↔
          (∃ r' ∈ rs, gangNum r' = gangNum q) ∧ y.waitsAt k b = true := by
        rw [List.exists_mem_cons_iff]
        exact ⟨fun ⟨hex, hw⟩ => ⟨hex.resolve_left fun hq => hr ⟨hq, hw⟩, hw⟩, fun ⟨hex, hw⟩ => ⟨.inr hex, hw⟩⟩
      simp only [Function.comp_apply, if_neg hr, hiff]

theorem releaseBarrier_teams (s : State) (k : Nat) (t : Team) (b : Nat) : (releaseBarrier s k t b).teams = s.teams :=
  foldl_keeps (fun u : State => u.teams = s.teams) _ (fun u r h => (changeGang_teams u r _ _).trans h) _ _ rfl

/-- R244: whether a carve request is granted: every stash mapping stays inside the scratchpad and every core has room. -/
def carveGranted (s : State) (t : Team) (c : CarveReq) : Bool :=
  (t.stashes.all fun m => m.off + m.len ≤ c.spu * 65536) && (t.halves.map fun h => splitHalf s h c.spu c.l1u).all Option.isSome

/-- R244, R278: the team once its request is decided, and the answer. -/
def carvedTeam (s : State) (t : Team) (c : CarveReq) : Team :=
  { t with carve := none,
           halves := if carveGranted s t c then (t.halves.map fun h => splitHalf s h c.spu c.l1u).filterMap id else t.halves }
def carvedStatus (s : State) (t : Team) (c : CarveReq) : W64 :=
  if carveGranted s t c then carveStatus c.l1u c.spu 0 else carveAnswer t 1

theorem decideCarve_eq (ht : s.team? k = some t) {c : CarveReq} (hc : t.carve = some c) :
    decideCarve s k = (s.setTeam k (carvedTeam s t c)).changeGang c.g (fun y => y.team = k) fun y => setFill y c.fill (carvedStatus s t c) := by
  simp only [decideCarve, ht, hc, State.changeGang, decide_eq_true_eq]
  rfl

theorem decideCarve_none (ht : s.team? k = some t) (hc : t.carve = none) : decideCarve s k = s := by
  simp only [decideCarve, ht, hc]

/-- R241: the team of a completed barrier, every ARR bit of it cleared. -/
def clearedTeam (t : Team) (b : Nat) : Team := { t with arr := KMap.del t.arr b }

/-- The state as the pending request finds it. -/
def clearedState (s : State) (k b : Nat) (t : Team) : State := s.setTeam k (clearedTeam t b)

theorem clearedState_team (s : State) (k b : Nat) (t : Team) : (clearedState s k b t).team? k = some (clearedTeam t b) :=
  (team?_setTeam ..).trans (if_pos rfl)

theorem clearedTeam_arr (t : Team) (b : Nat) : KMap.get (clearedTeam t b).arr 0#128 b = 0#128 ∧
    ∀ c, c ≠ b → KMap.get (clearedTeam t b).arr 0#128 c = KMap.get t.arr 0#128 c := by
  refine ⟨?_, fun c hc => ?_⟩
  · simp only [clearedTeam, KMap.get, KMap.get?_del_self, Option.getD_none]
  · simp only [clearedTeam, KMap.get, KMap.get?_del_ne _ hc]

theorem checkBarrier_eq (ht : s.team? k = some t) (hfull : barrierComplete t b = true) :
    checkBarrier s k b = releaseBarrier (decideCarve (clearedState s k b t) k) k t b := by
  simp only [checkBarrier, ht, hfull, if_true]
  rfl

/-- R241: what the completion makes of a gang, once the pending request is decided. -/
theorem checkBarrier_gang? (ht : s.team? k = some t) (hfull : barrierComplete t b = true) (q : GangRef) : ∃ flip,
    (checkBarrier s k b).gang? q = ((decideCarve (clearedState s k b t) k).gang? q).map fun y =>
      if (∃ r ∈ t.gangs, gangNum r = gangNum q) ∧ y.waitsAt k b = true then y.passes b flip else y := by
  rw [checkBarrier_eq ht hfull, releaseBarrier_eq]
  exact ⟨_, release_gang? _ _ _ _⟩

theorem checkBarrier_team (ht : s.team? k = some t) (hfull : barrierComplete t b = true) :
    (checkBarrier s k b).team? k = (decideCarve (clearedState s k b t) k).team? k := by
  rw [checkBarrier_eq ht hfull]
  exact congrArg (KMap.get? · k) (releaseBarrier_teams _ k t b)

/-- R244: the decision changes no gang but the one that asked, and of that the answer alone. -/
theorem decideCarve_gang? (hteam : s.team? k = some t) (q : GangRef) {y : Gang} (hy : s.gang? q = some y) :
    (t.carve = none → (decideCarve s k).gang? q = some y) ∧
    ∀ c, t.carve = some c → (decideCarve s k).gang? q =
      some (if gangNum c.g = gangNum q ∧ y.team = k then setFill y c.fill (carvedStatus s t c) else y) := by
  refine ⟨fun hc => by rw [decideCarve_none hteam hc, hy], fun c hc => ?_⟩
  rw [decideCarve_eq hteam hc, changeGang_gang?, show (s.setTeam k (carvedTeam s t c)).gang? q = some y from hy]
  simp only [Option.map_some, decide_eq_true_eq]

theorem decideCarve_team (hteam : s.team? k = some t) :
    (t.carve = none → (decideCarve s k).team? k = some t) ∧ ∀ c, t.carve = some c → (decideCarve s k).team? k = some (carvedTeam s t c) := by
  refine ⟨fun hc => by rw [decideCarve_none hteam hc, hteam], fun c hc => ?_⟩
  rw [decideCarve_eq hteam hc]
  exact (congrArg (KMap.get? · k) (changeGang_teams ..)).trans ((team?_setTeam ..).trans (if_pos rfl))

/-- R244: when a request is granted. -/
theorem carveGranted_iff (s : State) (t : Team) (c : CarveReq) : carveGranted s t c = true ↔
    (∀ m ∈ t.stashes, m.off + m.len ≤ c.spu * 65536) ∧ ∀ p ∈ t.halves.map fun h => splitHalf s h c.spu c.l1u, p ≠ none := by
  simp only [carveGranted, Bool.and_eq_true, List.all_eq_true, decide_eq_true_eq, Option.isSome_iff_ne_none]

theorem map_some_filterMap_id {α : Type} {l : List (Option α)} (h : ∀ p ∈ l, p ≠ none) : (l.filterMap id).map some = l := by
  induction l with
  | nil => rfl
  | cons p l ih =>
    obtain ⟨hp, hl⟩ := List.forall_mem_cons.1 h
    obtain ⟨v, rfl⟩ := Option.ne_none_iff_exists'.1 hp
    exact congrArg (some v :: ·) (ih hl)

theorem carvedTeam_halves (s : State) (t : Team) (c : CarveReq) :
    (carveGranted s t c = true → (carvedTeam s t c).halves.map some = t.halves.map fun h => splitHalf s h c.spu c.l1u) ∧
    (carveGranted s t c = false → (carvedTeam s t c).halves = t.halves) := by
  refine ⟨fun hgranted => ?_, fun hrefused => if_neg (Bool.eq_false_iff.1 hrefused)⟩
  rw [show (carvedTeam s t c).halves = _ from if_pos hgranted]
  exact map_some_filterMap_id ((carveGranted_iff s t c).1 hgranted).2

/-- R244: the gang that asked receives the answer. -/
theorem checkBarrier_answers (ht : s.team? k = some t) (hfull : barrierComplete t b = true) {c : CarveReq} (hc : t.carve = some c) {y : Gang}
    (hy : s.gang? c.g = some y) (hk : y.team = k) : ∃ y', (checkBarrier s k b).gang? c.g = some y' ∧
      y'.fills = (setFill y c.fill (carvedStatus (clearedState s k b t) (clearedTeam t b) c)).fills := by
  obtain ⟨flip, hgang⟩ := checkBarrier_gang? ht hfull c.g
  have hdecided := (decideCarve_gang? (clearedState_team s k b t) c.g (y := y) hy).2 c hc
  rw [if_pos ⟨rfl, hk⟩] at hdecided
  rw [hdecided, Option.map_some] at hgang
  refine ⟨_, hgang, ?_⟩
  split
  all_goals rfl

/-- R241: a gang of the team that waits there goes on. -/
theorem checkBarrier_releases (ht : s.team? k = some t) (hfull : barrierComplete t b = true) {r : GangRef} (hr : r ∈ t.gangs) {y : Gang}
    (hy : s.gang? r = some y) (hk : y.team = k) (hb : y.block = some (.barrier b)) :
    ∃ y', (checkBarrier s k b).gang? r = some y' ∧ y' = { y with block := none, fills := y'.fills, syncDue := y'.syncDue } := by
  obtain ⟨flip, hgang⟩ := checkBarrier_gang? ht hfull r
  have hdecided : ∃ fills, (decideCarve (clearedState s k b t) k).gang? r = some { y with fills } := by
    obtain ⟨hnone, hsome⟩ := decideCarve_gang? (clearedState_team s k b t) r (y := y) hy
    cases hc : t.carve with
    | none => exact ⟨y.fills, hnone hc⟩
    | some c =>
      rw [hsome c hc]
      split
      · exact ⟨_, rfl⟩
      · exact ⟨y.fills, rfl⟩
  obtain ⟨fills, hdecided⟩ := hdecided
  have hwaits : Gang.waitsAt k b { y with fills } = true := by simp [Gang.waitsAt, hk, hb]
  rw [hdecided, Option.map_some, if_pos ⟨⟨r, hr, rfl⟩, hwaits⟩] at hgang
  exact ⟨_, hgang, rfl⟩

/-- R241: no other gang changes. -/
theorem checkBarrier_others (ht : s.team? k = some t) (hfull : barrierComplete t b = true) {r : GangRef}
    (hr : ∀ q ∈ t.gangs, gangNum q ≠ gangNum r) (hc : ∀ c, t.carve = some c → gangNum c.g ≠ gangNum r) :
    (checkBarrier s k b).gang? r = s.gang? r := by
  obtain ⟨flip, hgang⟩ := checkBarrier_gang? ht hfull r
  have hnotIn : ¬∃ q ∈ t.gangs, gangNum q = gangNum r := fun ⟨q, hq, he⟩ => hr q hq he
  simp only [hnotIn, false_and, if_false, Option.map_id'] at hgang
  rw [hgang]
  have hteam := clearedState_team s k b t
  cases hcarve : t.carve with
  | none => rw [decideCarve_none hteam hcarve]; rfl
  | some c =>
    rw [decideCarve_eq hteam hcarve, changeGang_gang?]
    simp only [hc c hcarve, false_and, if_false, Option.map_id']
    rfl

end

end Sys2Proof.Machine

namespace Sys2Proof.Machine

/-! ### Arrivals at team barriers (R241, R242) -/

section

variable {i : Instr} {f : Fields} {s : State} {g : Gang} {x : Iss} {t : Team} {b : Nat} {waits : Bool}

/-- R241: the team once the gang's ARR bit is set. -/
def Iss.arrival (x : Iss) (t : Team) (b : Nat) : Team :=
  { t with arr := KMap.set t.arr 0#128 b (KMap.get t.arr 0#128 b ||| BitVec.ofNat 128 (2 ^ x.g.index)) }

/-- Whether the gang's ARR bit is set already. -/
def Iss.mine (x : Iss) (t : Team) (b : Nat) : Bool := (KMap.get t.arr 0#128 b).getLsbD x.g.index

/-- R249, R428: whether a watchpoint of the barrier is met, under a condition. -/
def Iss.barrierHit (x : Iss) (s : State) (b cond : Nat) : Bool :=
  !x.g.inh && syncWatch s x.who.ctx 1 cond (barrierObj x.task.rec_.taskid b) fun _ => true

theorem barrierHit_unwatched (h : x.unwatched s) (cond : Nat) : x.barrierHit s b cond = false := by
  rw [Iss.barrierHit, syncWatch_none h, Bool.and_false]

theorem arrived_eq (ht : s.team? x.who.team = some t) : arrived (x.start s) x b = x.mine t b := by
  have hteam : (x.start s).team? x.who.team = some t := ht
  simp only [arrived, hteam]
  rfl

theorem setArr_eq (ht : s.team? x.who.team = some t) : setArr (x.start s) x b = (x.start s).setTeam x.who.team (x.arrival t b) := by
  have hteam : (x.start s).team? x.who.team = some t := ht
  simp only [setArr, hteam]
  rfl

theorem exec_bara (f : Fields) (s : State) : exec (.bara f) s = arriveForm (.bara f) (f.imm.toNat % 16) false s := rfl
theorem exec_bars (f : Fields) (s : State) : exec (.bars f) s = arriveForm (.bars f) (f.imm.toNat % 16) true s := rfl

/-- R241: an arrival while the gang's own bit is set waits. -/
theorem arrive_again (h : Ready i s g x) (he : ∀ s, exec i s = arriveForm i b waits s) (ht : s.team? x.who.team = some t)
    (hm : x.mine t b = true) : DoesWait i s g x .barrier := by
  refine doesWait_of h (fun s => (he s).trans rfl) ?_
  have harrived : arrived (s.setGang x.ref x.g) x b = true := (arrived_eq ht).trans hm
  simp only [if_neg h.someLane, harrived, if_true]

/-- R276: an arrival behind the gang's unclassified issue waits. -/
theorem arrive_behind (h : Ready i s g x) (he : ∀ s, exec i s = arriveForm i b waits s) (ht : s.team? x.who.team = some t)
    (hm : x.mine t b = false) (hu : x.g.unclass ≠ none) : DoesWait i s g x .unclassified := by
  refine doesWait_of h (fun s => (he s).trans rfl) ?_
  have harrived : arrived (s.setGang x.ref x.g) x b = false := (arrived_eq ht).trans hm
  simp only [if_neg h.someLane, harrived, setGang_self, Option.bind_some, Option.isSome_iff_ne_none.2 hu, Bool.false_eq_true, if_false, if_true]

/-- R241, R242, R278: what a new arrival comes to. -/
def Iss.arrivalRes (x : Iss) (s : State) (t : Team) (b : Nat) (waits : Bool) : Res :=
  let s' := (x.start s).setTeam x.who.team (x.arrival t b)
  let due (meets : Bool) : Post := { after := if meets = true then some (watchSync x (w64 b)) else none }
  if barrierComplete (x.arrival t b) b then
    .done (checkBarrier s' x.who.team b) (due (x.barrierHit s b 0 || x.barrierHit s b 1 || (waits && x.barrierHit s b 2)))
  else if waits then
    .ok (x.mapGang s' fun g => { g with
      block := some (.barrier b),
      syncDue := if x.barrierHit s b 0 = true then some (w64 b, x.pc + 12#64, x.active) else none })
  else .done s' (due (x.barrierHit s b 0))

theorem exec_arrives (h : Ready i s g x) (he : ∀ s, exec i s = arriveForm i b waits s) (ht : s.team? x.who.team = some t)
    (hu : x.g.unclass = none) (hm : x.mine t b = false) : exec i s = .next (finishIssue s x (x.arrivalRes s t b waits)) := by
  have hteam : ((x.start s).setTeam x.who.team (x.arrival t b)).team? x.who.team = some (x.arrival t b) := (team?_setTeam ..).trans (if_pos rfl)
  refine h.runs ((he s).trans rfl) ?_
  simp only [if_neg h.someLane, arrived_eq ht, hm, start_gang?, Option.bind_some, hu, Option.isSome_none, Bool.false_eq_true, if_false,
    setArr_eq ht, hteam]
  rfl

/-- R241: an arrival that completes the barrier. -/
theorem arrive_completes (h : Ready i s g x) (he : ∀ s, exec i s = arriveForm i b waits s) (ht : s.team? x.who.team = some t)
    (hu : x.g.unclass = none) (hm : x.mine t b = false) (hfull : barrierComplete (x.arrival t b) b = true) :
    exec i s = .next (commitIssue x (checkBarrier ((x.start s).setTeam x.who.team (x.arrival t b)) x.who.team b)
      { after := if (x.barrierHit s b 0 || x.barrierHit s b 1 || (waits && x.barrierHit s b 2)) = true
          then some (watchSync x (w64 b)) else none }) := by
  rw [exec_arrives h he ht hu hm, Iss.arrivalRes, if_pos hfull, finishIssue_done h.unbroken]

/-- R242: BARA goes on where it does not complete the barrier. -/
theorem bara_goes (h : Ready (.bara f) s g x) (ht : s.team? x.who.team = some t) (hu : x.g.unclass = none)
    (hm : x.mine t (f.imm.toNat % 16) = false) (hopen : barrierComplete (x.arrival t (f.imm.toNat % 16)) (f.imm.toNat % 16) = false) :
    exec (.bara f) s = .next (commitIssue x ((x.start s).setTeam x.who.team (x.arrival t (f.imm.toNat % 16)))
      { after := if x.barrierHit s (f.imm.toNat % 16) 0 = true then some (watchSync x (w64 (f.imm.toNat % 16))) else none }) := by
  rw [exec_arrives h (exec_bara f) ht hu hm, Iss.arrivalRes, if_neg (Bool.eq_false_iff.1 hopen), if_neg Bool.false_ne_true,
    finishIssue_done h.unbroken]

theorem bara_unwatched (h : Ready (.bara f) s g x) (ht : s.team? x.who.team = some t) (hu : x.g.unclass = none)
    (hm : x.mine t (f.imm.toNat % 16) = false) (hopen : barrierComplete (x.arrival t (f.imm.toNat % 16)) (f.imm.toNat % 16) = false)
    (hw : x.unwatched s) : DoesGang (.bara f) s (s.setTeam x.who.team (x.arrival t (f.imm.toNat % 16))) x id := by
  have hexec := bara_goes h ht hu hm hopen
  rw [barrierHit_unwatched hw, if_neg Bool.false_ne_true] at hexec
  exact ⟨_, hexec, commit_Becomes x _ _ id rfl⟩

/-- R242: BARS waits where it does not complete the barrier. -/
theorem bars_waits (h : Ready (.bars f) s g x) (ht : s.team? x.who.team = some t) (hu : x.g.unclass = none)
    (hm : x.mine t (f.imm.toNat % 16) = false) (hopen : barrierComplete (x.arrival t (f.imm.toNat % 16)) (f.imm.toNat % 16) = false) :
    Commits (.bars f) s x (x.mapGang ((x.start s).setTeam x.who.team (x.arrival t (f.imm.toNat % 16))) fun g => { g with
      block := some (.barrier (f.imm.toNat % 16)),
      syncDue := if x.barrierHit s (f.imm.toNat % 16) 0 = true then some (w64 (f.imm.toNat % 16), x.pc + 12#64, x.active) else none }) := by
  rw [Commits, exec_arrives h (exec_bars f) ht hu hm, Iss.arrivalRes, if_neg (Bool.eq_false_iff.1 hopen), if_pos rfl, finishIssue_ok h.unbroken]

theorem bars_unwatched (h : Ready (.bars f) s g x) (ht : s.team? x.who.team = some t) (hu : x.g.unclass = none)
    (hm : x.mine t (f.imm.toNat % 16) = false) (hopen : barrierComplete (x.arrival t (f.imm.toNat % 16)) (f.imm.toNat % 16) = false)
    (hw : x.unwatched s) : DoesGang (.bars f) s (s.setTeam x.who.team (x.arrival t (f.imm.toNat % 16))) x
      fun g => { g with block := some (.barrier (f.imm.toNat % 16)), syncDue := none } := by
  have hexec := bars_waits h ht hu hm hopen
  simp only [barrierHit_unwatched hw, Bool.false_eq_true, if_false] at hexec
  exact ⟨_, hexec, commit_Becomes x _ _ _ (mapGang_setGang x (s.setTeam x.who.team (x.arrival t (f.imm.toNat % 16))) x.g _)⟩

/-- R242: BARW waits while the gang's own bit is set. -/
theorem barw_waits (h : Ready (.barw f) s g x) (ht : s.team? x.who.team = some t) (hm : x.mine t (f.imm.toNat % 16) = true) :
    DoesGang (.barw f) s s x fun g => { g with block := some (.barrier (f.imm.toNat % 16)) } := by
  refine doesGang_of h (fun _ => (rfl : execBarw f _ = _)) ?_
  have harrived : arrived (s.setGang x.ref x.g) x (f.imm.toNat % 16) = true := (arrived_eq ht).trans hm
  simp only [harrived, ne_eq, h.someLane, not_false_eq_true, decide_true, Bool.and_self, if_true, mapGang_setGang]

end

end Sys2Proof.Machine

namespace Sys2Proof

open Machine in
/-- Settles O35: what an arrival does is `exec_arrives`, what the completion of a barrier does `checkBarrier_team` and `checkBarrier_gang?`. -/
theorem teamBarriers : Obligations.TeamBarriers := by
  unfold Obligations.TeamBarriers
  refine ⟨?_, ?_⟩
  · intro f s g x t b bit t' mine s' obj hit sync arrived due ht
    refine ⟨?_, ?_, fun hu hm hopen => ⟨fun h => ⟨bara_goes h ht hu hm hopen, bara_unwatched h ht hu hm hopen⟩,
        fun h => ⟨bars_waits h ht hu hm hopen, bars_unwatched h ht hu hm hopen⟩⟩,
      fun hu hm hfull => ⟨fun h => ?_, fun h => ?_⟩, fun h hm => barw_waits h ht hm⟩
    · rintro i (rfl | rfl) h hm
      · exact arrive_again h (exec_bara f) ht hm
      · exact arrive_again h (exec_bars f) ht hm
    · rintro i (rfl | rfl) h hm hu
      · exact arrive_behind h (exec_bara f) ht hm hu
      · exact arrive_behind h (exec_bars f) ht hm hu
    · have hexec := arrive_completes h (exec_bara f) ht hu hm hfull
      rw [Bool.false_and, Bool.or_false] at hexec
      exact hexec
    · exact arrive_completes h (exec_bars f) ht hu hm hfull
  · intro s k b t ht hfull s' cleared
    refine ⟨?_, fun r hr y hy hk hb => checkBarrier_releases ht hfull hr hy hk hb, fun r hr hc => checkBarrier_others ht hfull hr hc⟩
    obtain ⟨hundecided, hdecided⟩ := decideCarve_team (clearedState_team s k b t)
    rw [← checkBarrier_team ht hfull] at hundecided hdecided
    obtain ⟨hclear, hothers⟩ := clearedTeam_arr t b
    cases hc : t.carve with
    | none => exact ⟨_, hundecided hc, hclear, hothers, hc, fun _ => rfl, nofun⟩
    | some c =>
      refine ⟨_, hdecided c hc, hclear, hothers, rfl, nofun, ?_⟩
      rintro c' ⟨⟩ parts granted h
      have hiff : carveGranted (clearedState s k b t) (clearedTeam t b) c = true ↔ granted := carveGranted_iff ..
      obtain ⟨hgrant, hrefuse⟩ := carvedTeam_halves (clearedState s k b t) (clearedTeam t b) c
      refine ⟨fun hg => hgrant (hiff.2 hg), fun hn => hrefuse (Bool.eq_false_iff.2 (mt hiff.1 hn)), fun y hy hk => ?_⟩
      obtain ⟨y', hy', hfills⟩ := checkBarrier_answers ht hfull hc hy hk
      refine ⟨y', hy', fun hg => ?_, fun hn => ?_⟩
      · rw [hfills, carvedStatus, if_pos (hiff.2 hg)]
      · rw [hfills, carvedStatus, if_neg (mt hiff.1 hn)]
        rfl

end Sys2Proof

/-! ## Scope: what every step keeps (O60) -/

namespace Sys2Proof.Machine

/-! ### The invariant of memory: its rules -/

/-- What changes none of the five fields that the invariant speaks of keeps it. Stated on the constructor, so that it meets an update of any
other fields as it stands. -/
theorem State.Inv.upd {s : State} {agenda cur split freeCtr replies tick issueCtr gangs teams nextTeam chains mxq engine nextEngine icache
    codeBy ended tlb walkCache walks directory filters memPoison memCorr gens absent dieCache dieCorr tasks nextOrder ctxs queues copies
    nextCopy migrations keys windows qps peers nextPeer deferral ports secure secureCores buckets bucketWindow counters issueClocks dies
    retraining failedRetrains telInterval telModule telLatch telPending sampledAt traceBuf modLog modLogCount dumps sessions agents
    challenge fw ckptStatus halted}
    (h : s.Inv) : State.Inv ⟨agenda, cur, split, freeCtr, replies, tick, issueCtr, gangs, teams, nextTeam, chains, mxq, engine,
      nextEngine, icache, codeBy, ended, tlb, walkCache, walks, s.l1, directory, filters, s.mem, memPoison, memCorr, gens, absent,
      dieCache, dieCorr, tasks, nextOrder, ctxs, queues, copies, nextCopy, migrations, keys, windows, qps, peers, nextPeer, deferral,
      ports, secure, secureCores, buckets, bucketWindow, counters, issueClocks, dies, retraining, failedRetrains, telInterval, telModule,
      telLatch, telPending, sampledAt, traceBuf, modLog, modLogCount, dumps, sessions, agents, challenge, fw, s.image, ckptStatus,
      s.ckptRun, s.remote, halted⟩ :=
  h.same rfl rfl rfl rfl rfl

/-- What changes, of those five, the images and the checkpoint that is sent alone keeps it where their memory is in its form. -/
theorem State.Inv.withImages {s : State} {agenda cur split freeCtr replies tick issueCtr gangs teams nextTeam chains mxq engine nextEngine
    icache codeBy ended tlb walkCache walks directory filters memPoison memCorr gens absent dieCache dieCorr tasks nextOrder ctxs queues
    copies nextCopy migrations keys windows qps peers nextPeer deferral ports secure secureCores buckets bucketWindow counters issueClocks
    dies retraining failedRetrains telInterval telModule telLatch telPending sampledAt traceBuf modLog modLogCount dumps sessions agents
    challenge fw ckptStatus halted image remote ckptRun}
    (h : s.Inv) (hi : ∀ i, image = some i → Memory.wf i.near = true) (hr : ∀ r ∈ remote, Memory.wf r.image.near = true ∧ Memory.wf r.far =
      true)
    (hc : ∀ r, ckptRun = some r → Memory.wf r.far = true) : State.Inv ⟨agenda, cur, split, freeCtr, replies, tick, issueCtr, gangs, teams,
      nextTeam, chains, mxq, engine, nextEngine, icache, codeBy, ended, tlb, walkCache, walks, s.l1, directory, filters, s.mem, memPoison,
      memCorr, gens, absent, dieCache, dieCorr, tasks, nextOrder, ctxs, queues, copies, nextCopy, migrations, keys, windows, qps, peers,
      nextPeer, deferral, ports, secure, secureCores, buckets, bucketWindow, counters, issueClocks, dies, retraining, failedRetrains,
      telInterval, telModule, telLatch, telPending, sampledAt, traceBuf, modLog, modLogCount, dumps, sessions, agents, challenge, fw,
      image, ckptStatus, ckptRun, remote, halted⟩ :=
  ⟨h.mem, h.lines, hi, hr, hc⟩

theorem State.Inv.foldl {α : Type} {f : State → α → State} {l : List α} {s : State} (h : s.Inv) (hf : ∀ s a, s.Inv → (f s a).Inv) :
    (l.foldl f s).Inv :=
  foldl_keeps State.Inv f (fun b a hb => hf b a hb) l s h

theorem State.Inv.ite {c : Prop} [Decidable c] {a b : State} (ha : a.Inv) (hb : b.Inv) : (if c then a else b).Inv := by
  split
  · exact ha
  · exact hb

/-- The state that goes with a value. -/
theorem State.Inv.snd {α : Type} {p : α × State} (h : p.2.Inv) {a : α} {t : State} (e : p = (a, t)) : t.Inv := by
  rw [e] at h
  exact h

theorem State.Inv.fst {α : Type} {p : State × α} (h : p.1.Inv) {a : α} {t : State} (e : p = (t, a)) : t.Inv := by
  rw [e] at h
  exact h

theorem State.Inv.thd {α β : Type} {p : α × β × State} (h : p.2.2.Inv) {a : α} {b : β} {t : State} (e : p = (a, b, t)) : t.Inv := by
  rw [e] at h
  exact h

theorem State.Inv.foldlSnd {α β : Type} {f : β × State → α → β × State} {l : List α} {p : β × State} (h : p.2.Inv)
    (hf : ∀ r a, r.2.Inv → (f r a).2.Inv) : (l.foldl f p).2.Inv :=
  foldl_keeps (fun r => r.2.Inv) f hf l p h

theorem State.Inv.foldlFst {α β : Type} {f : State × β → α → State × β} {l : List α} {p : State × β} (h : p.1.Inv)
    (hf : ∀ r a, r.1.Inv → (f r a).1.Inv) : (l.foldl f p).1.Inv :=
  foldl_keeps (fun r => r.1.Inv) f hf l p h

theorem State.Inv.foldlPerf {α : Type} {f : Performed → α → Performed} {l : List α} {p : Performed} (h : p.s.Inv)
    (hf : ∀ r a, r.s.Inv → (f r a).s.Inv) : (l.foldl f p).s.Inv :=
  foldl_keeps (fun r => r.s.Inv) f hf l p h

/-- The state that comes with the answer meets the invariant. -/
def CoreXlat.Inv : CoreXlat → Prop
  | .miss s | .done _ s => s.Inv
theorem CoreXlat.Inv.miss {r : CoreXlat} {t : State} (h : r.Inv) (e : r = .miss t) : t.Inv := by
  rw [e] at h
  exact h
theorem CoreXlat.Inv.done {a} {r : CoreXlat} {t : State} (h : r.Inv) (e : r = .done a t) : t.Inv := by
  rw [e] at h
  exact h

/-- The state that comes with the answer meets the invariant. -/
def LaneChk.Inv : LaneChk → Prop
  | .miss s | .fail _ _ s | .ok _ s => s.Inv
theorem LaneChk.Inv.miss {r : LaneChk} {t : State} (h : r.Inv) (e : r = .miss t) : t.Inv := by
  rw [e] at h
  exact h
theorem LaneChk.Inv.fail {a b} {r : LaneChk} {t : State} (h : r.Inv) (e : r = .fail a b t) : t.Inv := by
  rw [e] at h
  exact h
theorem LaneChk.Inv.ok {a} {r : LaneChk} {t : State} (h : r.Inv) (e : r = .ok a t) : t.Inv := by
  rw [e] at h
  exact h

/-- The state that comes with the answer meets the invariant. -/
def Checked.Inv : Checked → Prop
  | .wait s | .trap _ s | .ok _ s => s.Inv
theorem Checked.Inv.wait {r : Checked} {t : State} (h : r.Inv) (e : r = .wait t) : t.Inv := by
  rw [e] at h
  exact h
theorem Checked.Inv.trap {a} {r : Checked} {t : State} (h : r.Inv) (e : r = .trap a t) : t.Inv := by
  rw [e] at h
  exact h
theorem Checked.Inv.ok {a} {r : Checked} {t : State} (h : r.Inv) (e : r = .ok a t) : t.Inv := by
  rw [e] at h
  exact h

/-- The state that comes with the answer meets the invariant. -/
def Touched.Inv : Touched → Prop
  | .wait _ s | .go _ _ s => s.Inv
theorem Touched.Inv.wait {a} {r : Touched} {t : State} (h : r.Inv) (e : r = .wait a t) : t.Inv := by
  rw [e] at h
  exact h
theorem Touched.Inv.go {a b} {r : Touched} {t : State} (h : r.Inv) (e : r = .go a b t) : t.Inv := by
  rw [e] at h
  exact h

/-- The state that comes with the answer meets the invariant. -/
def Res.Inv : Res → Prop
  | .wait _ s | .trap _ s | .done s _ => s.Inv
theorem Res.Inv.wait {a} {r : Res} {t : State} (h : r.Inv) (e : r = .wait a t) : t.Inv := by
  rw [e] at h
  exact h
theorem Res.Inv.trap {a} {r : Res} {t : State} (h : r.Inv) (e : r = .trap a t) : t.Inv := by
  rw [e] at h
  exact h
theorem Res.Inv.done {a} {r : Res} {t : State} (h : r.Inv) (e : r = .done t a) : t.Inv := by
  rw [e] at h
  exact h

/-- The state that comes with the answer meets the invariant. -/
def Fetched.Inv : Fetched → Prop
  | .miss s | .fail s | .word _ s => s.Inv
theorem Fetched.Inv.miss {r : Fetched} {t : State} (h : r.Inv) (e : r = .miss t) : t.Inv := by
  rw [e] at h
  exact h
theorem Fetched.Inv.fail {r : Fetched} {t : State} (h : r.Inv) (e : r = .fail t) : t.Inv := by
  rw [e] at h
  exact h
theorem Fetched.Inv.word {a} {r : Fetched} {t : State} (h : r.Inv) (e : r = .word a t) : t.Inv := by
  rw [e] at h
  exact h

/-- The state that comes with the answer meets the invariant. -/
def BlockRead.Inv : BlockRead → Prop
  | .wait _ s | .trap _ s | .ok _ _ s => s.Inv
theorem BlockRead.Inv.wait {a} {r : BlockRead} {t : State} (h : r.Inv) (e : r = .wait a t) : t.Inv := by
  rw [e] at h
  exact h
theorem BlockRead.Inv.trap {a} {r : BlockRead} {t : State} (h : r.Inv) (e : r = .trap a t) : t.Inv := by
  rw [e] at h
  exact h
theorem BlockRead.Inv.ok {a b} {r : BlockRead} {t : State} (h : r.Inv) (e : r = .ok a b t) : t.Inv := by
  rw [e] at h
  exact h

/-- The state that comes with the answer meets the invariant. -/
def UopLoad.Inv : UopLoad → Prop
  | .miss s | .fail _ _ s | .ok _ s => s.Inv
theorem UopLoad.Inv.miss {r : UopLoad} {t : State} (h : r.Inv) (e : r = .miss t) : t.Inv := by
  rw [e] at h
  exact h
theorem UopLoad.Inv.fail {a b} {r : UopLoad} {t : State} (h : r.Inv) (e : r = .fail a b t) : t.Inv := by
  rw [e] at h
  exact h
theorem UopLoad.Inv.ok {a} {r : UopLoad} {t : State} (h : r.Inv) (e : r = .ok a t) : t.Inv := by
  rw [e] at h
  exact h

/-- The state that comes with the answer meets the invariant. -/
def LineRead.Inv : LineRead → Prop
  | .wait s | .kill _ _ s | .ok _ s => s.Inv
theorem LineRead.Inv.wait {r : LineRead} {t : State} (h : r.Inv) (e : r = .wait t) : t.Inv := by
  rw [e] at h
  exact h
theorem LineRead.Inv.kill {a b} {r : LineRead} {t : State} (h : r.Inv) (e : r = .kill a b t) : t.Inv := by
  rw [e] at h
  exact h
theorem LineRead.Inv.ok {a} {r : LineRead} {t : State} (h : r.Inv) (e : r = .ok a t) : t.Inv := by
  rw [e] at h
  exact h

/-- The state that comes with the answer meets the invariant. -/
def ElemChk.Inv : ElemChk → Prop
  | .wait s | .fail _ _ s | .ok _ _ s => s.Inv
theorem ElemChk.Inv.wait {r : ElemChk} {t : State} (h : r.Inv) (e : r = .wait t) : t.Inv := by
  rw [e] at h
  exact h
theorem ElemChk.Inv.fail {a b} {r : ElemChk} {t : State} (h : r.Inv) (e : r = .fail a b t) : t.Inv := by
  rw [e] at h
  exact h
theorem ElemChk.Inv.ok {a b} {r : ElemChk} {t : State} (h : r.Inv) (e : r = .ok a b t) : t.Inv := by
  rw [e] at h
  exact h

/-- The state that comes with the answer meets the invariant. -/
def QueueTurn.Inv : QueueTurn → Prop
  | .to s | .act _ s => s.Inv
theorem QueueTurn.Inv.to {r : QueueTurn} {t : State} (h : r.Inv) (e : r = .to t) : t.Inv := by
  rw [e] at h
  exact h
theorem QueueTurn.Inv.act {a} {r : QueueTurn} {t : State} (h : r.Inv) (e : r = .act a t) : t.Inv := by
  rw [e] at h
  exact h

/-- The state that comes with the answer meets the invariant. -/
def StashChk.Inv : StashChk → Prop
  | .wait s | .fail _ s | .ok s => s.Inv
theorem StashChk.Inv.wait {r : StashChk} {t : State} (h : r.Inv) (e : r = .wait t) : t.Inv := by
  rw [e] at h
  exact h
theorem StashChk.Inv.fail {a} {r : StashChk} {t : State} (h : r.Inv) (e : r = .fail a t) : t.Inv := by
  rw [e] at h
  exact h
theorem StashChk.Inv.ok {r : StashChk} {t : State} (h : r.Inv) (e : r = .ok t) : t.Inv := by
  rw [e] at h
  exact h

/-- The state that an outcome goes on with, where it has one, meets the invariant. -/
def NextInv : Host.Outcome State Fault Refusal → Prop
  | .next t => t.Inv
  | _ => True

theorem NextInv.next {o : Host.Outcome State Fault Refusal} {t : State} (h : NextInv o) (e : o = .next t) : t.Inv := by
  rw [e] at h
  exact h

/-! ### The invariant of memory: the state's own operations, translations and walks -/

theorem State.Inv.setGang {s : State} {g x} (h : s.Inv) : (s.setGang g x).Inv := h.upd

theorem State.Inv.bump {s : State} {c ix n} (h : s.Inv) : (s.bump c ix n).Inv := h.upd

theorem State.Inv.portCross {s : State} {core ctx} (h : s.Inv) : (Machine.portCross s core ctx).Inv := by
  unfold Machine.portCross
  extract_lets s1
  have hs1 : s1.Inv := h.bump
  exact hs1.upd

theorem State.Inv.staleLine {s : State} {core slot line gen} (h : s.Inv) : (Machine.staleLine s core slot line gen).Inv := .ite
    (h.dropLines _) h

theorem State.Inv.tagLine {s : State} {a b c d} (h : s.Inv) : (Machine.tagLine s a b c d).Inv := by
  refine ⟨?_, (tagLine_spec s a b c d h.lines).1, ?_⟩
  · rw [State.memOk, tagLine_mem]; exact h.mem
  · unfold Machine.tagLine imagesOk
    split <;> exact h.images

theorem State.Inv.grantLine {s : State} {core die line own} (h : s.Inv) : (Machine.grantLine s core die line own).Inv := by
  unfold Machine.grantLine
  extract_lets cl d f
  exact h.upd

theorem State.Inv.correctMem {s : State} {die pa n} (h : s.Inv) : (Machine.correctMem s die pa n).Inv := by
  unfold Machine.correctMem
  extract_lets r
  exact .ite h h.upd.bump

theorem State.Inv.correctBytes {s : State} {pas} (h : s.Inv) : (Machine.correctBytes s pas).Inv := h.foldl fun _ _ h => h.correctMem

theorem State.Inv.correctWalk {s : State} {cached ctx va} (h : s.Inv) : (Machine.correctWalk s cached ctx va).Inv := by
  unfold Machine.correctWalk
  split
  · exact h
  · exact h.foldl fun _ _ h => h.correctMem

theorem State.Inv.clusterWalk {s : State} {cluster ctx va} (h : s.Inv) : (Machine.clusterWalk s cluster ctx va).2.Inv := by
  unfold Machine.clusterWalk
  extract_lets cached x
  have hx : x.Inv := h.correctWalk
  split
  · exact h
  · split
    · exact h
    · extract_lets r
      exact hx.upd

theorem State.Inv.corePlace {s : State} {core ctx va} (h : s.Inv) : (Machine.corePlace s core ctx va).2.Inv := by
  unfold Machine.corePlace
  split
  · split
    · exact h.bump
    · exact h
  · exact h

theorem State.Inv.tlbPut {s : State} {core ctx va leaf size} (h : s.Inv) : (Machine.tlbPut s core ctx va leaf size).Inv := by
  unfold Machine.tlbPut
  extract_lets keep
  exact h.upd

theorem State.Inv.askWalk {s : State} {core ctx va} (h : s.Inv) : (Machine.askWalk s core ctx va).Inv := by
  unfold Machine.askWalk
  extract_lets w
  exact .ite h h.upd

theorem State.Inv.coreXlat {s : State} {core ctx va acc} (h : s.Inv) : (Machine.coreXlat s core ctx va acc).Inv := by
  unfold Machine.coreXlat
  extract_lets failed s1 s2
  have hs1 : s1.Inv := h.upd
  have hs2 : s2.Inv := h.bump
  split
  · exact h
  · split
    · split
      · split
        · exact h
        · exact hs1.askWalk
      · exact h.askWalk
    · extract_lets s3
      have hs3 : s3.Inv := hs2.upd
      split
      · split
        · split
          · exact hs3
          · split
            · exact hs3
            · split
              · split
                · exact hs3
                · exact hs3.tlbPut
              · exact hs3.tlbPut
        · exact h
      · exact h

theorem State.Inv.walkCorrect {s : State} {ctx va} (h : s.Inv) : (Machine.walkCorrect s ctx va).Inv := h.correctWalk

theorem State.Inv.correctAt {s : State} {ctx va pa leaf n} (h : s.Inv) : (Machine.correctAt s ctx va pa leaf n).Inv :=
    h.walkCorrect.correctMem

theorem State.Inv.agentWrite {s t : State} {a b c d} (h : s.Inv) (e : Machine.agentWrite s a b c d = .ok t) : t.Inv := by
  unfold Machine.agentWrite at e
  split at e
  · cases e
  · split at e
    · cases e
      exact h
    · cases e
      exact State.Inv.upd (State.Inv.foldlFst h fun r a h => h.walkCorrect.homeStore _ _ _)

theorem State.Inv.putUnits {a} (l : List (Nat × List Byte)) {s : State} (h : s.Inv) : (Machine.putUnits s a l).1.Inv := by
  induction l generalizing s with
  | nil => exact h
  | cons u l ih =>
    unfold Machine.putUnits
    split
    · next e => exact ih (h.agentWrite e)
    · exact h

theorem State.Inv.ringDrop {s : State} {ctx r} (h : s.Inv) : (Machine.ringDrop s ctx r).s.Inv := by
  unfold Machine.ringDrop
  extract_lets r1
  split
  · rename_i t e
    have ht : t.Inv := h.agentWrite e
    exact ht
  · exact h

theorem State.Inv.ringOffer {s : State} {ctx z r rec_} (h : s.Inv) : (Machine.ringOffer s ctx z r rec_).s.Inv := by
  unfold Machine.ringOffer
  extract_lets u
  split
  · exact h
  · split
    · exact h
    · extract_lets read
      split
      · exact h
      · split
        · exact h.ringDrop
        · split
          · rename_i t t1 e
            have ht1 : t1.Inv := State.Inv.fst (h.putUnits _) e
            exact ht1
          · rename_i t t1 e
            have ht1 : t1.Inv := State.Inv.fst (h.putUnits _) e
            split
            · exact ht1
            · rename_i t2 e1
              have ht2 : t2.Inv := ht1.agentWrite e1
              exact ht2

theorem State.Inv.logModule {s : State} {a} (h : s.Inv) : (Machine.logModule s a).Inv := by
  unfold Machine.logModule
  extract_lets l s1
  have hs1 : s1.Inv := h.upd
  exact .ite hs1.upd.bump hs1.upd

theorem State.Inv.ringFault {s : State} {ctx header kind die} (h : s.Inv) : (Machine.ringFault s ctx header kind die).Inv := h.logModule

theorem State.Inv.logCtx {s : State} {ctx es} (h : s.Inv) : (Machine.logCtx s ctx es).Inv := by
  unfold Machine.logCtx
  split
  · exact h
  · split
    · exact h
    · extract_lets out x s1 s2
      have hout : out.s.Inv := h.ringOffer
      have hx : x.Inv := hout
      have hs1 : s1.Inv := hx.upd
      have hs2 : s2.Inv := .ite hs1.bump hs1
      exact .ite hs2.ringFault hs2

theorem State.Inv.poisonNew {s : State} {word structureCode die} (h : s.Inv) : (Machine.poisonNew s word structureCode die).Inv := by
  unfold Machine.poisonNew
  extract_lets s1 s2 x
  have hs1 : s1.Inv := h.upd
  have hs2 : s2.Inv := hs1.bump
  exact hs2.logModule

theorem State.Inv.setTask {s : State} {slot b} (h : s.Inv) : (s.setTask slot b).Inv := h.upd

theorem State.Inv.setTeam {s : State} {k b} (h : s.Inv) : (s.setTeam k b).Inv := h.upd

/-! ### The invariant of memory: accesses at their coherence points -/

theorem State.Inv.scratchStore {s : State} {team half off bs src} (h : s.Inv) : (Machine.scratchStore s team half off bs src).Inv := by
  unfold Machine.scratchStore
  split
  · exact h
  · split
    · exact h
    · extract_lets bs1
      exact h.setTeam

theorem State.Inv.correctCopy {s : State} {a b c d} (h : s.Inv) : (Machine.correctCopy s a b c d).Inv := by
  unfold Machine.correctCopy
  extract_lets mine k
  split
  · exact h
  · refine State.Inv.bump ⟨h.mem, (map_lines_spec _ (fun l => ?_) s.l1).1 h.lines, h.images⟩
    split <;> exact ⟨rfl, rfl, rfl, rfl⟩

theorem State.Inv.correctScratch {s : State} {core team half off n} (h : s.Inv) : (Machine.correctScratch s core team half off n).Inv := by
  unfold Machine.correctScratch
  split
  · exact h
  · split
    · exact h
    · extract_lets r
      exact .ite h h.setTeam.bump

theorem State.Inv.correctDie {s : State} {core slot pa n} (h : s.Inv) : (Machine.correctDie s core slot pa n).Inv := by
  unfold Machine.correctDie
  extract_lets die ws
  exact .ite h h.upd.bump

theorem State.Inv.putDieLine {s : State} {die line} (h : s.Inv) : (Machine.putDieLine s die line).Inv := .ite h h.upd

theorem State.Inv.correctAcc {s : State} {w a} (h : s.Inv) : (Machine.correctAcc s w a).Inv := by
  unfold Machine.correctAcc
  split
  · exact h
  · split
    · exact h.correctScratch
    · exact h.correctCopy.correctDie.correctMem

theorem State.Inv.noteStore {s : State} {slot pa n} (h : s.Inv) : (Machine.noteStore s slot pa n).Inv := by
  unfold Machine.noteStore
  split
  · exact h
  · exact h.upd

theorem State.Inv.crossFill {s : State} {w line} (h : s.Inv) : (Machine.crossFill s w line).Inv := .ite h h.portCross

theorem State.Inv.storeLine {s : State} {a b c d p bs} (h : s.Inv) (hb : ∀ q, p ≤ q → q < p + bs.length → q / 128 = p / 128) :
    (Machine.storeLine s a b c d p bs).Inv := by
  unfold Machine.storeLine
  extract_lets s1 s2 s3 s4
  have h1 : s1.Inv := h.staleLine
  have h2 : s2.Inv := .ite h1 h1.crossFill
  have h4 : s4.Inv := (h2.lineStore _ _ _ _ _ _ _ _ hb).tagLine
  exact .ite h4.grantLine h4

theorem State.Inv.storeAccess {s : State} {a b c d} (h : s.Inv) : (Machine.storeAcc s a b c d).Inv := by
  unfold Machine.storeAcc
  split
  · exact h
  · split
    · exact h.scratchStore
    · refine h.foldl fun s j h => h.storeLine fun q h1 h2 => ?_
      exact ((linePart_spec d.pa d.size d.data _ (Nat.le_add_right _ _) q).2 h1 h2).2

theorem State.Inv.scratchEvent {s : State} {team half off n f} (h : s.Inv) : (Machine.scratchEvent s team half off n f).2.2.Inv := by
  unfold Machine.scratchEvent
  extract_lets old
  split
  · exact h
  · exact h.scratchStore

theorem State.Inv.rowAddEvent {s : State} {a b c d} (h : s.Inv) : (Machine.rowAddEvent s a b c d).2.2.Inv := by
  unfold Machine.rowAddEvent
  extract_lets n s1 bad anyBad s2 s3
  have h1 : s1.Inv := (h.recallLines _ _).recallLines _ _
  have h2 : s2.Inv := h1.foldl fun _ _ h => .ite h (h.putBytes _ _)
  exact .ite h2 (.ite ((h2.putBytes c _).same rfl rfl rfl rfl rfl) (h2.putBytes _ _))

theorem State.Inv.rowPoison {s : State} {ctx slot addr core} (h : s.Inv) : (Machine.rowPoison s ctx slot addr core).Inv := h.logCtx

theorem State.Inv.fillOne {s : State} {w tag unc leaf pa line} (h : s.Inv) : (Machine.fillOne s w tag unc leaf pa line).Inv := by
  unfold Machine.fillOne
  extract_lets s1 s2 s3 s4
  have hs1 : s1.Inv := h.staleLine
  have hs2 : s2.Inv := .ite hs1 hs1.crossFill
  have hs3 : s3.Inv := hs2.fillLine _ _ _ _ _ _
  have hs4 : s4.Inv := hs3.tagLine
  exact .ite hs4.grantLine hs4

theorem State.Inv.fillAccs {s : State} {w unc claims accs} (h : s.Inv) : (Machine.fillAccs s w unc claims accs).Inv := by
  unfold Machine.fillAccs
  refine h.foldl fun s a h => ?_
  split
  · exact h
  · split
    · exact h
    · exact h.foldl fun _ _ h => h.fillOne

theorem State.Inv.meetAccs {s : State} {w op} (h : s.Inv) : (Machine.meetAccs s w op).Inv := by
  unfold Machine.meetAccs
  refine h.foldl fun s a h => ?_
  extract_lets s1
  have hs1 : s1.Inv := .ite h h.correctAcc
  split
  · exact hs1
  · split
    · exact hs1
    · exact hs1.noteStore

theorem State.Inv.performOp {s : State} {a b c} (h : s.Inv) : (Machine.performOp s a b c).s.Inv := by
  unfold Machine.performOp
  extract_lets s1 gang loads stores atoms
  have h1 : s1.Inv := h.meetAccs
  have hl : ∀ f, (loads f).s.Inv := fun _ => h1.fillAccs
  have hs : stores.s.Inv := h1.foldl fun _ _ h => h.storeAccess
  have ha : ∀ f new, (atoms f new).s.Inv := fun f new => by
    refine h1.foldlPerf fun r a h => ?_
    extract_lets ev keep
    have he : ev.2.2.Inv := by
      unfold ev
      split
      · exact h
      · split
        · exact h.scratchEvent
        · exact h.homeEvent _ _ _
    exact he
  clear_value gang
  split
  case h_1 | h_2 | h_3 | h_4 => exact hl _
  case h_5 =>
    split
    · exact h1.fillAccs
    · exact h1
  case h_6 | h_7 | h_8 | h_9 | h_10 => exact hs
  case h_11 =>
    split
    · exact h1
    · exact h1.fillAccs
  case h_12 | h_13 | h_14 => exact ha _ _
  case h_15 =>
    split
    · extract_lets xs
      split
      next t e =>
        have ht : t.Inv := State.Inv.thd h1.rowAddEvent e
        extract_lets s2
        have h2 : s2.Inv := .ite ht.rowPoison ht
        exact .ite h2.rowPoison h2
    · exact h1
  case h_16 =>
    split
    · extract_lets s2 vp stale s3
      have h2 : s2.Inv := (h1.recallLines _ _).recallLines _ _
      exact .ite h2.bump h2
    · exact h1
  case h_17 =>
    split
    · exact h1.homeEvent _ _ _
    · exact h1
  case h_18 =>
    split
    · extract_lets ev
      have he : ev.2.2.Inv := h1.homeEvent _ _ _
      exact .ite he.rowPoison he
    · exact h1
  case h_19 =>
    split
    · extract_lets ev
      have he : ev.2.2.Inv := h1.homeEvent _ _ _
      split
      · exact he.rowPoison
      · split
        · exact he.bump
        · split
          · exact he
          · exact he.setGang
    · exact h1
  case h_20 => exact h1

/-! ### The invariant of memory: stashes and unclassified issues -/

theorem State.Inv.stashFill {s : State} {w half m line} (h : s.Inv) : (Machine.stashFill s w half m line).2.Inv := by
  unfold Machine.stashFill
  split
  · exact h
  · split
    · rename_i t t1 e
      have ht1 : t1.Inv := State.Inv.snd h.corePlace e
      exact ht1
    · rename_i t _ _ t1 e
      have ht1 : t1.Inv := State.Inv.snd h.corePlace e
      extract_lets s1
      have hs1 : s1.Inv := ht1.correctMem
      exact hs1.portCross.scratchStore

theorem State.Inv.stashAccess {s : State} {w write a issue} (h : s.Inv) : (Machine.stashAccess s w write a issue).2.Inv := by
  unfold Machine.stashAccess
  split
  · extract_lets line r m'
    have hr : r.2.Inv := h.stashFill
    split
    · split
      · exact h
      · exact h
    · split
      · split
        · rename_i t _ _ t1 e
          have ht1 : t1.Inv := State.Inv.snd h.corePlace e
          exact ht1
        · rename_i t t1 e
          have ht1 : t1.Inv := State.Inv.snd h.corePlace e
          exact ht1
      · split
        · exact hr.setTeam
        · exact hr
  · exact h

theorem State.Inv.stashAll {s : State} {w write accs issue} (h : s.Inv) : (Machine.stashAll s w write accs issue).2.Inv := by
  unfold Machine.stashAll
  refine h.foldlSnd fun r a h => ?_
  extract_lets p
  have hp : p.2.Inv := h.stashAccess
  exact hp

theorem State.Inv.sendPeer {s : State} {r} (h : s.Inv) : (Machine.sendPeer s r).Inv := h.upd

theorem State.Inv.restash {s : State} {w op} (h : s.Inv) : (Machine.restash s w op).2.Inv := by
  unfold Machine.restash
  extract_lets r
  have hr : r.2.Inv := h.stashAll
  exact hr

theorem State.Inv.settleOp {s : State} {w op} (h : s.Inv) : (Machine.settleOp w s op).Inv := by
  unfold Machine.settleOp
  split
  · exact h
  · extract_lets g p r
    have hp : p.2.Inv := h.setGang.restash
    have hr : r.s.Inv := hp.performOp
    split
    · exact h.setGang
    · split
      · exact hr
      · exact hr.setGang

theorem State.Inv.rereadBlock {s : State} {w n off stamp} (h : s.Inv) : (Machine.rereadBlock w s n off stamp).Inv := by
  unfold Machine.rereadBlock
  extract_lets r s1 bs ws bad
  have hr : r.2.Inv := h.stashAll
  have hs1 : s1.Inv := hr.foldl fun _ _ h => h.correctAcc
  exact hs1.upd

theorem State.Inv.settleBehind {s : State} {w} (h : s.Inv) : (Machine.settleBehind s w).Inv := by
  unfold Machine.settleBehind
  split
  · exact h
  · refine h.foldl fun s a h => ?_
    split
    · exact h
    · split
      · exact h.settleOp
      · exact h.rereadBlock

theorem State.Inv.crossAccs {s : State} {w accs} (h : s.Inv) : (Machine.crossAccs s w accs).Inv := by
  unfold Machine.crossAccs
  refine h.foldl fun s a h => ?_
  split
  · exact h.portCross
  · split
    · exact h
    · exact h.foldl fun _ _ h => h.portCross

theorem State.Inv.completeUnclass {s : State} {g} (h : s.Inv) : (Machine.completeUnclass s g).Inv := by
  unfold Machine.completeUnclass
  split
  · split
    · exact h
    · split
      · rename_i t _ t1 e
        have ht1 : t1.Inv := State.Inv.snd h.restash e
        extract_lets r s1
        have hr : r.s.Inv := ht1.crossAccs.performOp
        have hs1 : s1.Inv := by
          unfold s1
          split
          · exact hr
          · exact hr.setGang
        exact hs1.settleBehind
  · exact h

theorem State.Inv.lateLane {s : State} {ref l} (h : s.Inv) : (Machine.lateLane ref s l).Inv := by
  unfold Machine.lateLane
  split
  · extract_lets mine rest p r
    have hp : p.2.Inv := h.restash
    have hr : r.s.Inv := hp.performOp
    split
    · exact h
    · split
      · exact hr
      · extract_lets s1
        have hs1 : s1.Inv := hr.setGang
        exact .ite hs1.settleBehind hs1
  · exact h

theorem State.Inv.finishOne {s : State} {ref} (h : s.Inv) : (Machine.finishOne s ref).Inv := by
  unfold Machine.finishOne
  split
  · exact h
  · exact h.foldl fun _ _ h => h.lateLane

theorem State.Inv.finishLate {s : State} {ref} (h : s.Inv) : (Machine.finishLate s ref).Inv := by
  unfold Machine.finishLate
  split
  · exact h
  · exact h.foldl fun _ _ h => h.finishOne

/-! ### The invariant of memory: records of the trace and telemetry streams -/

theorem State.Inv.setTraceRing {s : State} {ctx die r} (h : s.Inv) : (Machine.setTraceRing s ctx die r).Inv := h.upd

theorem State.Inv.traceOffer {s : State} {ctx die bs stamp time} (h : s.Inv) : (Machine.traceOffer s ctx die bs stamp time).Inv := by
  unfold Machine.traceOffer
  split
  · exact h
  · extract_lets out x r s1 s2
    have hout : out.s.Inv := h.ringOffer
    have hs1 : s1.Inv := hout.setTraceRing
    have hs2 : s2.Inv := .ite hs1.bump hs1
    exact .ite hs2.ringFault hs2

theorem State.Inv.traceTimeAt {s : State} {ctx die stamp} (h : s.Inv) : (Machine.traceTimeAt s ctx die stamp).Inv := by
  unfold Machine.traceTimeAt
  split
  · exact h
  · extract_lets needs
    exact .ite h.traceOffer h

theorem State.Inv.traceTime {s : State} {ctx die} (h : s.Inv) : (Machine.traceTime s ctx die).Inv := .ite h h.traceTimeAt

theorem State.Inv.traceDrops {s : State} {ctx die stamp} (h : s.Inv) : (Machine.traceDrops s ctx die stamp).Inv := by
  unfold Machine.traceDrops
  split
  · exact h
  · exact .ite h h.traceOffer

theorem State.Inv.traceWrite {s : State} {ctx die r} (h : s.Inv) : (Machine.traceWrite s ctx die r).Inv := by
  unfold Machine.traceWrite
  extract_lets s1 prev
  have hs1 : s1.Inv := h.traceTimeAt.traceDrops
  exact hs1.traceOffer

theorem State.Inv.trace {s : State} {ctx die mask r} (h : s.Inv) : (Machine.trace s ctx die mask r).Inv := by
  unfold Machine.trace
  split
  · exact h
  · exact .ite h h.upd

theorem State.Inv.flushStreams {s : State} {which} (h : s.Inv) : (Machine.flushStreams s which).Inv := by
  unfold Machine.flushStreams
  extract_lets due rest
  exact h.upd.foldl fun _ _ h => h.traceWrite

theorem State.Inv.flushEarly {s : State} {which} (h : s.Inv) : (Machine.flushEarly s which).Inv := h.upd.flushStreams

theorem State.Inv.flushTraces {s : State} (h : s.Inv) : (Machine.flushTraces s).Inv := h.flushStreams

theorem State.Inv.traceAbs {s : State} {ctx die r stamp} (h : s.Inv) : (Machine.traceAbs s ctx die r stamp).Inv := h.traceOffer

theorem State.Inv.traceAll {s : State} {d f} (h : s.Inv) (hf : ∀ s c, s.Inv → (f s c).Inv) : (Machine.traceAll s d f).Inv :=
  h.foldl fun _ _ h => .ite (hf _ _ h) h

theorem State.Inv.traceTask {s : State} {ctx die taskid event index core} (h : s.Inv) : (Machine.traceTask s ctx die taskid event index
    core).Inv := h.trace

theorem State.Inv.telKeep {ctx header} {out : RingOut} (h : out.s.Inv) : (Machine.telKeep ctx header out).Inv := by
  unfold Machine.telKeep
  extract_lets src s1 s2
  have h1 : s1.Inv := h.upd
  have h2 : s2.Inv := .ite h1.bump h1
  exact .ite h2.ringFault h2

theorem State.Inv.telOffer {s : State} {ctx bs} (h : s.Inv) : (Machine.telOffer s ctx bs).Inv := by
  unfold Machine.telOffer
  split
  · exact h
  · exact h.ringOffer.telKeep

theorem State.Inv.telDrop {s : State} {ctx} (h : s.Inv) : (Machine.telDrop s ctx).Inv := by
  unfold Machine.telDrop
  split
  · exact h
  · exact .ite h h.ringDrop.telKeep

theorem State.Inv.dieRecord {s : State} {die r stamp} (h : s.Inv) : (Machine.dieRecord s die r stamp).Inv := by
  unfold Machine.dieRecord
  extract_lets at_
  refine h.traceAll fun s c h => ?_
  extract_lets before s1
  have hs1 : s1.Inv := .ite h.traceTimeAt.traceDrops h
  exact hs1.traceAbs

/-! ### The invariant of memory: teams, fills and page classes -/

theorem State.Inv.createHalf {s : State} {r team teamIx half first p} (h : s.Inv) : (Machine.createHalf s r team teamIx half first
    p).1.Inv := by
  unfold Machine.createHalf
  refine h.foldlFst fun r a h => ?_
  extract_lets sp g
  exact h.setGang

theorem State.Inv.createTeam {s : State} {a b c d} (h : s.Inv) : (Machine.createTeam s a b c d).Inv := by
  unfold Machine.createTeam
  extract_lets k r
  split
  next e =>
    refine State.Inv.upd (State.Inv.fst (State.Inv.foldlFst h fun r a h => ?_) e)
    exact h.createHalf

theorem State.Inv.recordWrite {s : State} {slot ctx taskid addr bs} (h : s.Inv) : (Machine.recordWrite s slot ctx taskid addr bs).Inv := by
  unfold Machine.recordWrite
  extract_lets x
  split
  · rename_i t e
    have ht : t.Inv := h.agentWrite e
    exact ht
  · exact h.logCtx

theorem State.Inv.writeCursor {s : State} {slot b phase region line} (h : s.Inv) : (Machine.writeCursor s slot b phase region line).Inv :=
    h.recordWrite

theorem State.Inv.beginFlush {s : State} {slot b} (h : s.Inv) : (Machine.beginFlush s slot b).Inv := by
  unfold Machine.beginFlush
  split
  · exact h.setTask.writeCursor
  · exact h.setTask.writeCursor

theorem State.Inv.tryEnd {s : State} {slot} (h : s.Inv) : (Machine.tryEnd s slot).Inv := by
  unfold Machine.tryEnd
  split
  · exact h
  · extract_lets total
    exact .ite h.beginFlush h

theorem State.Inv.decideCarve {s : State} {k} (h : s.Inv) : (Machine.decideCarve s k).Inv := by
  unfold Machine.decideCarve
  split
  · exact h
  · extract_lets cur
    split
    · exact h
    · extract_lets fits halves granted t' st s1
      have hs1 : s1.Inv := h.setTeam
      split
      · exact hs1
      · exact .ite hs1.setGang hs1

theorem State.Inv.releaseBarrier {s : State} {k b c} (h : s.Inv) : (Machine.releaseBarrier s k b c).Inv := by
  unfold Machine.releaseBarrier
  extract_lets taskid flip
  refine h.foldl fun s a h => ?_
  split
  · exact h
  · extract_lets next
    exact .ite h.setGang h

theorem State.Inv.checkBarrier {s : State} {k b} (h : s.Inv) : (Machine.checkBarrier s k b).Inv := by
  unfold Machine.checkBarrier
  split
  · exact h
  · extract_lets s1
    have hs1 : s1.Inv := h.setTeam.decideCarve
    exact .ite hs1.releaseBarrier h

theorem State.Inv.stashPut {s : State} {k b m line} (h : s.Inv) : (Machine.stashPut s k b m line).Inv := by
  unfold Machine.stashPut
  extract_lets off core
  split
  · rename_i t _ _ t1 e
    have ht1 : t1.Inv := State.Inv.snd h.corePlace e
    exact ht1.noteStore.portCross.homeStore _ _ _
  · rename_i t t1 e
    have ht1 : t1.Inv := State.Inv.snd h.corePlace e
    exact ht1

theorem State.Inv.dropStashPage {s : State} {k page} (h : s.Inv) : (Machine.dropStashPage s k page).Inv := by
  unfold Machine.dropStashPage
  split
  · exact h
  · refine h.foldl fun s a h => ?_
    split
    · exact h
    · extract_lets mine s1 m'
      have hs1 : s1.Inv := h.foldl fun _ _ h => h.stashPut
      split
      · exact hs1
      · exact hs1.setTeam

theorem State.Inv.collectPage {s : State} {slot ctx page} (h : s.Inv) : (Machine.collectPage s slot ctx page).Inv := by
  unfold Machine.collectPage
  extract_lets s1
  have hs1 : s1.Inv := h.foldl fun _ _ h => .ite h.dropStashPage h
  split
  · exact hs1.dropLines _
  · exact hs1

theorem State.Inv.drainPage {s : State} {slot page} (h : s.Inv) : (Machine.drainPage s slot page).Inv := by
  unfold Machine.drainPage
  refine h.foldl fun s a h => ?_
  extract_lets ref
  split
  · extract_lets s1
    have hs1 : s1.Inv := .ite h.finishLate h
    exact .ite h (.ite hs1.completeUnclass hs1)
  · exact h

theorem State.Inv.makeShared {s : State} {slot page} (h : s.Inv) : (Machine.makeShared s slot page).Inv := by
  unfold Machine.makeShared
  split
  · exact h
  · extract_lets s1
    have hs1 : s1.Inv := h.drainPage.collectPage
    split
    · exact hs1
    · extract_lets t
      exact hs1.setTask

theorem State.Inv.touchPages {s : State} {slot index owner write force busy pages} (h : s.Inv) : (Machine.touchPages s slot index owner
    write force busy pages).Inv := by
  unfold Machine.touchPages
  split
  · exact h
  · extract_lets kinds drains unclass claims
    split
    · exact h
    · split
      · exact h
      · split
        · exact h
        · split
          · exact h.setTask
          · exact h.setTask

theorem State.Inv.stashWriteBack {s : State} {k b m} (h : s.Inv) : (Machine.stashWriteBack s k b m).Inv := h.foldl fun _ _ h => h.stashPut

theorem State.Inv.dropChains {s : State} {core part slot} (h : s.Inv) : (Machine.dropChains s core part slot).Inv := by
  unfold Machine.dropChains
  extract_lets still
  exact .ite h h.upd

/-! ### The invariant of memory: gangs and teams that retire or are killed -/

theorem State.Inv.removeGang {s : State} {g slot} (h : s.Inv) : (Machine.removeGang s g slot).Inv := by
  unfold Machine.removeGang
  extract_lets s1
  have hs1 : s1.Inv := h.upd
  exact hs1.dropChains

theorem State.Inv.engineFinish {s : State} {a b c} (h : s.Inv) : (Machine.engineFinish s a b c).Inv := by
  unfold Machine.engineFinish
  extract_lets taskid src entry own
  have ho : ∀ s : State, s.Inv → (own s).Inv := fun _ h => .ite h h.logCtx
  split
  · exact ho _ (.ite h h.bump)
  · split
    · exact (ho _ h.bump).logCtx
    · have h1 : (if a.slot = 128 then s else Machine.portCross s a.core a.ctx).Inv := .ite h h.portCross
      split
      next t e =>
        have ht : t.Inv := State.Inv.thd (h1.correctAt.noteStore.homeEvent _ _ _) e
        extract_lets
        split
        · exact .ite (ho _ ht.bump).rowPoison.logCtx (ho _ ht.bump).rowPoison
        · exact ho _ (.ite ht ht.bump)

theorem State.Inv.noteProgress {s : State} {ctx} (h : s.Inv) : (Machine.noteProgress s ctx).Inv := h.upd

theorem State.Inv.dropTeam {s : State} {k b} (h : s.Inv) : (Machine.dropTeam s k b).Inv := by
  unfold Machine.dropTeam
  extract_lets s1 s2
  have hs1 : s1.Inv := h.foldl fun _ _ h => h.stashWriteBack
  have hs2 : s2.Inv := hs1.dropLines _
  exact hs2.upd

theorem State.Inv.stashTouch {s : State} {a} (h : s.Inv) : (Machine.stashTouch s a).Inv := h.touchPages

theorem State.Inv.retireStopped {s : State} {k} (h : s.Inv) : (Machine.retireStopped s k).Inv := by
  unfold Machine.retireStopped
  split
  · exact h
  · split
    · exact h
    · split
      · rename_i t _ t1 e
        have ht1 : t1.Inv := h.stashTouch.wait e
        exact ht1
      · rename_i t _ _ t1 e
        have ht1 : t1.Inv := h.stashTouch.go e
        exact ht1.dropTeam

theorem State.Inv.tryRetireTeam {s : State} {k} (h : s.Inv) : (Machine.tryRetireTeam s k).Inv := by
  unfold Machine.tryRetireTeam
  split
  · exact h
  · split
    · exact h.retireStopped.tryEnd
    · split
      · exact h
      · split
        · rename_i t _ t1 e
          have ht1 : t1.Inv := h.stashTouch.wait e
          exact ht1
        · rename_i t _ _ t1 e
          have ht1 : t1.Inv := h.stashTouch.go e
          extract_lets s1 s2 s3
          have hs1 : s1.Inv := ht1.dropTeam
          have hs2 : s2.Inv := by
            unfold s2
            split
            · exact hs1
            · exact hs1.setTask
          have hs3 : s3.Inv := hs2.noteProgress
          exact hs3.upd.tryEnd

theorem State.Inv.retireReady {s : State} {slot} (h : s.Inv) : (Machine.retireReady s slot).Inv := by
  unfold Machine.retireReady
  extract_lets mine
  exact h.foldl fun _ _ h => h.tryRetireTeam

theorem State.Inv.leaveGang {s : State} {slot g} (h : s.Inv) : (Machine.leaveGang s slot g).Inv := by
  unfold Machine.leaveGang
  split
  · exact h.setTask.removeGang
  · exact h.removeGang

theorem State.Inv.killGang {s : State} {slot g} (h : s.Inv) : (Machine.killGang s slot g).Inv := by
  unfold Machine.killGang
  split
  · exact h
  · extract_lets x s1
    have hx : x.Inv := h.setGang
    have hs1 : s1.Inv := hx.upd
    split
    · exact hs1
    · exact hs1.leaveGang
    · exact hs1.leaveGang
    · exact hs1.finishLate.completeUnclass.leaveGang

theorem State.Inv.stopTeam {s : State} {k err} (h : s.Inv) : (Machine.stopTeam s k err).Inv := by
  unfold Machine.stopTeam
  extract_lets stop left s1
  have hs1 : s1.Inv := h.upd
  split
  · exact h
  · extract_lets s2 mine
    have hs2 : s2.Inv := hs1.setTeam
    exact .ite h ((hs2.foldl fun _ _ h => h.killGang).retireStopped)

theorem State.Inv.reportKill {s : State} {a taskid cause addr again} (h : s.Inv) : (Machine.reportKill s a taskid cause addr again).Inv :=
    h.logCtx.traceTask

theorem State.Inv.killTeam {s : State} {k cause addr} (h : s.Inv) : (Machine.killTeam s k cause addr).Inv := by
  unfold Machine.killTeam
  extract_lets s1
  have hs1 : s1.Inv := h.stopTeam
  split
  · exact h
  · split
    · exact h
    · split
      · exact h.stopTeam
      · extract_lets used again s2
        have hs2 : s2.Inv := (State.Inv.ite hs1.bump hs1).reportKill
        split
        · exact hs2
        · extract_lets s3 rest s4
          have hs3 : s3.Inv := hs2.setTask
          have hs4 : s4.Inv := hs3.foldl fun _ _ h => h.stopTeam.reportKill
          exact .ite hs2.setTask hs4.retireReady.tryEnd

/-! ### The invariant of memory: issues: their traps, waits and commits -/

theorem State.Inv.mapGang {s : State} {x b} (h : s.Inv) : (Iss.mapGang x s b).Inv := by
  unfold Iss.mapGang
  split
  · exact h.setGang
  · exact h

theorem State.Inv.putD {s : State} {x vals} (h : s.Inv) : (Iss.putD x s vals).Inv := h.mapGang

theorem State.Inv.putP {s : State} {x vals} (h : s.Inv) : (Iss.putP x s vals).Inv := h.mapGang

theorem State.Inv.fill {s : State} {x ws fl setsFlags} (h : s.Inv) : (Iss.fill x s ws fl setsFlags).Inv := .ite h h.mapGang

theorem State.Inv.fpTrap {s : State} {x : Iss} {a b} {r : Res} (h : s.Inv) (e : x.fpTrap s a b = some r) : r.Inv := by
  unfold Iss.fpTrap at e
  extract_lets en all s1 at e
  have h1 : s1.Inv := h.mapGang
  split at e
  · cases e
  · cases e
    exact h1

theorem State.Inv.orStat {s : State} {x fl} (h : s.Inv) : (Iss.orStat x s fl).Inv := h.mapGang

theorem State.Inv.reportStop {s : State} {ctx ref cause tpc} (h : s.Inv) : (Machine.reportStop s ctx ref cause tpc).Inv := h.upd

theorem State.Inv.logTrap {s : State} {ref who task d} (h : s.Inv) : (Machine.logTrap s ref who task d).Inv := by
  unfold Machine.logTrap
  extract_lets x e
  exact .ite h.logCtx (.ite h.logCtx h)

theorem State.Inv.takeTrap {s : State} {ref who task pc i} (h : s.Inv) : (Machine.takeTrap s ref who task pc i).Inv := by
  unfold Machine.takeTrap
  extract_lets tpc
  split
  · exact h
  · extract_lets g s1
    have hs1 : s1.Inv := h.setGang.logTrap
    exact .ite hs1.setGang.reportStop (.ite hs1.killTeam hs1.setGang)

theorem State.Inv.countIssue {s : State} {ref width sfu} (h : s.Inv) : (Machine.countIssue s ref width sfu).Inv := by
  unfold Machine.countIssue
  extract_lets n p
  exact h.upd.bump.bump

theorem State.Inv.traceBranch {s : State} {x g} (h : s.Inv) : (Machine.traceBranch s x g).Inv := by
  unfold Machine.traceBranch
  extract_lets nx off differ
  exact h.trace

theorem State.Inv.commitIssue {s : State} {x p} (h : s.Inv) : (Machine.commitIssue x s p).Inv := by
  unfold Machine.commitIssue
  split
  · exact h
  · extract_lets g1 g2 g3 s1 s2
    have hs1 : s1.Inv := h.setGang.countIssue
    have hs2 : s2.Inv := .ite hs1.traceBranch hs1
    split
    · exact hs2
    · exact hs2.takeTrap

theorem State.Inv.trapIssue {s : State} {i f ref who task pc set active n} (h : s.Inv) : (Machine.trapIssue s i f ref who task pc set
    active n).Inv := by
  unfold Machine.trapIssue
  split
  · exact h
  · extract_lets g1
    exact h.setGang.countIssue.takeTrap

theorem State.Inv.waitIssue {s : State} {ref why} (h : s.Inv) : (Machine.waitIssue s ref why).Inv := by
  unfold Machine.waitIssue
  split
  · exact h
  · exact h.setGang

theorem State.Inv.finishIssue {s : State} {x} {r : Res} (h : s.Inv) (hr : r.Inv) : (Machine.finishIssue s x r).Inv := by
  unfold Machine.finishIssue
  extract_lets hit breaks
  have hb : breaks.Inv := h.trapIssue
  split
  · have ht := hr.wait rfl
    exact .ite hb ht.mapGang.waitIssue
  · exact (hr.trap rfl).trapIssue
  · exact .ite hb (hr.done rfl).commitIssue

theorem State.Inv.runIssueWith {s : State} {i early body} (h : s.Inv) (hb : ∀ x t, t.Inv → (body x t).Inv) :
    NextInv (Machine.runIssueWith i early s body) := by
  unfold Machine.runIssueWith
  split
  · split
    · split
      · split
        · exact h.waitIssue
        · split
          · exact h.trapIssue
          · exact h
        · exact h.finishIssue (hb _ _ h.setGang)
      · trivial
    · trivial
  · trivial

theorem State.Inv.runIssue {s : State} {i body} (h : s.Inv) (hb : ∀ x t, t.Inv → (body x t).Inv) : NextInv (Machine.runIssue i s body) :=
  h.runIssueWith hb

theorem State.Inv.ok {s : State} (h : s.Inv) : (Res.ok s).Inv := h

theorem State.Inv.fetchBytes {s : State} {core ctx va n} (h : s.Inv) : (Machine.fetchBytes s core ctx va n).2.Inv := by
  unfold Machine.fetchBytes
  refine h.foldlSnd fun r a h => ?_
  split
  · exact h
  · split
    · rename_i t t1 e
      have ht1 : t1.Inv := h.coreXlat.miss e
      exact ht1
    · rename_i t _ _ t1 e
      have ht1 : t1.Inv := h.coreXlat.done e
      exact ht1
    · rename_i t _ _ _ t1 e
      have ht1 : t1.Inv := h.coreXlat.done e
      exact ht1
    · rename_i t _ t1 e
      have ht1 : t1.Inv := h.coreXlat.done e
      exact ht1

theorem State.Inv.crossFetch {s : State} {core task pas} (h : s.Inv) : (Machine.crossFetch s core task pas).Inv := h.foldl fun _ _ h =>
    .ite h h.portCross

theorem State.Inv.fetchWordOf {s : State} {a b c d e} (h : s.Inv) : (Machine.fetchWordOf s a b c d e).2.Inv := by
  unfold Machine.fetchWordOf
  extract_lets entry keep
  have hk : ∀ (s : State) w, s.Inv → (keep s w).Inv := fun _ _ h => .ite h h.correctBytes.crossFetch.upd
  split
  · exact hk _ _ h
  · exact hk _ _ h.upd

theorem State.Inv.fetchAt {s : State} {core task pc} (h : s.Inv) : (Machine.fetchAt s core task pc).Inv := by
  unfold Machine.fetchAt
  split
  · exact h
  · split
    · rename_i t t1 e
      have ht1 : t1.Inv := State.Inv.snd h.fetchBytes e
      exact ht1
    · rename_i t _ t1 e
      have ht1 : t1.Inv := State.Inv.snd h.fetchBytes e
      exact ht1
    · rename_i t _ t1 e
      have ht1 : t1.Inv := State.Inv.snd h.fetchBytes e
      split
      · extract_lets r
        have hr : r.2.Inv := ht1.fetchWordOf
        exact hr
      · exact ht1

theorem State.Inv.fetchFault {s : State} {ref who task pc set} (h : s.Inv) : (Machine.fetchFault s ref who task pc set).Inv := h.trapIssue

theorem State.Inv.illegalWord {s : State} {ref who task pc set} (h : s.Inv) : (Machine.illegalWord s ref who task pc set).Inv := h.trapIssue

theorem State.Inv.takeBoundary {s : State} {ref who task d} (h : s.Inv) : (Machine.takeBoundary s ref who task d).Inv := by
  unfold Machine.takeBoundary
  split
  · exact h
  · extract_lets s1
    have hs1 : s1.Inv := h.setGang
    exact hs1.takeTrap

/-! ### The invariant of memory: forms on registers -/

theorem State.Inv.fpForm {s : State} {i b} (h : s.Inv) : NextInv (Machine.fpForm i s b) := by
  unfold Machine.fpForm
  refine h.runIssue fun x s h => ?_
  extract_lets fl
  split
  · rename_i t e
    have ht : t.Inv := h.fpTrap e
    exact ht
  · exact h.putD.orStat.ok

theorem State.Inv.sfuForm {s : State} {i b} (h : s.Inv) : NextInv (Machine.sfuForm i s b) := by
  unfold Machine.sfuForm
  refine h.runIssue fun x s h => ?_
  extract_lets fl
  split
  · rename_i t e
    have ht : t.Inv := h.fpTrap e
    exact ht
  · exact h.fill.ok

theorem State.Inv.execFabs {s : State} {f} (h : s.Inv) : NextInv (Machine.execFabs f s) := by
  unfold Machine.execFabs
  refine h.runIssue fun x s h => ?_
  exact h.putD.ok

theorem State.Inv.execFneg {s : State} {f} (h : s.Inv) : NextInv (Machine.execFneg f s) := by
  unfold Machine.execFneg
  refine h.runIssue fun x s h => ?_
  exact h.putD.ok

theorem State.Inv.execFcmp {s : State} {f} (h : s.Inv) : NextInv (Machine.execFcmp f s) := by
  unfold Machine.execFcmp
  refine h.runIssue fun x s h => ?_
  extract_lets r fl
  split
  · rename_i t e
    have ht : t.Inv := h.fpTrap e
    exact ht
  · exact h.putP.orStat.ok

theorem State.Inv.execFsel {s : State} {f} (h : s.Inv) : NextInv (Machine.execFsel f s) := by
  unfold Machine.execFsel
  refine h.runIssue fun x s h => ?_
  exact h.putD.ok

theorem State.Inv.execFclass {s : State} {f} (h : s.Inv) : NextInv (Machine.execFclass f s) := by
  unfold Machine.execFclass
  refine h.runIssue fun x s h => ?_
  exact h.putD.ok

theorem State.Inv.laneForm {s : State} {i b} (h : s.Inv) : NextInv (Machine.laneForm i s b) := by
  unfold Machine.laneForm
  refine h.runIssue fun x s h => ?_
  exact h.putD.ok

theorem State.Inv.execIcmp {s : State} {f} (h : s.Inv) : NextInv (Machine.execIcmp f s) := by
  unfold Machine.execIcmp
  refine h.runIssue fun x s h => ?_
  exact h.putP.ok

theorem State.Inv.execIaddc {s : State} {f} (h : s.Inv) : NextInv (Machine.execIaddc f s) := by
  unfold Machine.execIaddc
  refine h.runIssue fun x s h => ?_
  extract_lets r s1
  have hs1 : s1.Inv := h.putD
  exact hs1.mapGang.ok

theorem State.Inv.divForm {s : State} {i b} (h : s.Inv) : NextInv (Machine.divForm i s b) := by
  unfold Machine.divForm
  refine h.runIssue fun x s h => ?_
  split
  · exact h
  · exact h.fill.ok

/-! ### The invariant of memory: the checks of accesses -/

/-- The checks of two parts of an access, one after the other. -/
theorem LaneChk.Inv.joinChk {r : LaneChk} {next} (h : r.Inv) (hn : ∀ t, t.Inv → (next t).Inv) : (Machine.joinChk r next).Inv := by
  unfold Machine.joinChk
  split
  · exact h
  · split
    · next e => exact (hn _ h).ok e
    · exact hn _ h
  · split
    · next e => exact (hn _ h).miss e
    · next e => exact (hn _ h).ok e
    · next e =>
      split
      · exact (hn _ h).fail e
      · exact (hn _ h).fail e

theorem LaneChk.Inv.foldl {α : Type} {f : LaneChk → α → LaneChk} {l : List α} {r : LaneChk} (h : r.Inv) (hf : ∀ r a, r.Inv → (f r a).Inv) :
    (l.foldl f r).Inv :=
  foldl_keeps LaneChk.Inv f hf l r h

theorem State.Inv.xlatPiece {s : State} {core ctx acc sp lane va data data2 p} (h : s.Inv) : (Machine.xlatPiece core ctx acc sp lane va
    data data2 p s).Inv := by
  unfold Machine.xlatPiece
  extract_lets part one
  split
  · rename_i t t1 e
    have ht1 : t1.Inv := h.coreXlat.miss e
    exact ht1
  · rename_i t _ t1 e
    have ht1 : t1.Inv := h.coreXlat.done e
    exact ht1
  · rename_i t _ _ t1 e
    have ht1 : t1.Inv := h.coreXlat.done e
    exact ht1
  · rename_i t _ _ _ t1 e
    have ht1 : t1.Inv := h.coreXlat.done e
    exact ht1

theorem State.Inv.xlatPieces {s : State} {a b c d i j k l m} (h : s.Inv) : (Machine.xlatPieces s a b c d i j k l m).Inv :=
  LaneChk.Inv.foldl (r := .ok [] s) h fun _ _ h => h.joinChk fun _ h => h.xlatPiece

theorem State.Inv.globalCheck {s : State} {g w r q byteAddr} (h : s.Inv) : (Machine.globalCheck s g w r q byteAddr).Inv := by
  unfold Machine.globalCheck
  extract_lets acc firstBad
  split
  · rename_i t t1 e
    have ht1 : t1.Inv := h.xlatPieces.miss e
    exact ht1
  · rename_i t _ _ t1 e
    have ht1 : t1.Inv := h.xlatPieces.fail e
    exact ht1
  · rename_i t _ t1 e
    have ht1 : t1.Inv := h.xlatPieces.ok e
    extract_lets decl
    split
    · exact ht1
    · split
      · exact ht1
      · split
        · exact ht1
        · split
          · exact ht1
          · exact ht1

theorem State.Inv.scratchCheck {s : State} {w half allowed q} (h : s.Inv) : (Machine.scratchCheck s w half allowed q).Inv := by
  unfold Machine.scratchCheck
  split
  · exact h
  · exact h

theorem State.Inv.alignCheck {s : State} {q a taddr} (h : s.Inv) : (Machine.alignCheck q a taddr s).Inv := by
  unfold Machine.alignCheck
  split
  · exact h
  · exact h

theorem State.Inv.stashLane {s : State} {w r g q a} (h : s.Inv) : (Machine.stashLane s w r g q a).Inv := by
  unfold Machine.stashLane
  split
  · extract_lets shared taddr
    split
    · exact h.alignCheck
    · split
      · rename_i t t1 e
        have ht1 : t1.Inv := h.coreXlat.miss e
        exact ht1
      · rename_i t _ t1 e
        have ht1 : t1.Inv := h.coreXlat.done e
        exact ht1
      · rename_i t _ _ _ t1 e
        have ht1 : t1.Inv := h.coreXlat.done e
        exact ht1
      · rename_i t _ _ t1 e
        have ht1 : t1.Inv := h.coreXlat.done e
        split
        · exact ht1.alignCheck
        · split
          · split
            · exact ht1
            · split
              · exact ht1
              · exact ht1.alignCheck
          · split
            · exact ht1
            · split
              · exact ht1
              · exact ht1.alignCheck
  · exact h.alignCheck

theorem State.Inv.localCheck {s : State} {w r g half allowed q} (h : s.Inv) : (Machine.localCheck s w r g half allowed q).Inv := by
  unfold Machine.localCheck
  split
  · rename_i t _ _ t1 e
    have ht1 : t1.Inv := h.scratchCheck.ok e
    exact ht1.stashLane
  · exact h.scratchCheck

theorem State.Inv.privWord {s : State} {g w q va data} (h : s.Inv) : (Machine.privWord g w q va data s).Inv := by
  unfold Machine.privWord
  extract_lets acc
  split
  · rename_i t t1 e
    have ht1 : t1.Inv := h.xlatPieces.miss e
    exact ht1
  · rename_i t _ _ t1 e
    have ht1 : t1.Inv := h.xlatPieces.fail e
    exact ht1
  · rename_i t _ t1 e
    have ht1 : t1.Inv := h.xlatPieces.ok e
    split
    · exact ht1
    · split
      · exact ht1
      · exact ht1

theorem State.Inv.privCheck {s : State} {a b c d i} (h : s.Inv) : (Machine.privCheck s a b c d i).Inv := by
  unfold Machine.privCheck
  split
  · exact h
  · exact LaneChk.Inv.foldl (r := .ok [] s) h fun _ _ h => h.joinChk fun _ h => h.privWord

theorem State.Inv.checkLanes {s : State} {a b chk} (h : s.Inv) (hc : ∀ t l, t.Inv → (chk t l).Inv) : (Machine.checkLanes s a b chk).Inv :=
    by
  unfold Machine.checkLanes
  extract_lets r
  have hr : r.1.Inv := by
    refine h.foldlFst fun r l h => ?_
    split
    · next e => exact (hc _ _ h).miss e
    · next e => exact (hc _ _ h).fail e
    · next e => exact (hc _ _ h).ok e
  split
  · exact hr
  · split
    · exact hr
    · exact hr

theorem State.Inv.foldTerms {s : State} {w thr seq terms} (h : s.Inv) : (Machine.foldTerms s w thr seq terms).Inv := by
  unfold Machine.foldTerms
  split
  · exact h
  · exact h.setTeam

theorem State.Inv.foldIssue {s : State} {x accs} (h : s.Inv) : (Machine.foldIssue s x accs).Inv := by
  unfold Machine.foldIssue
  extract_lets addr perLane
  split
  · exact h
  · refine h.foldl fun s a h => ?_
    extract_lets seq s1
    have hs1 : s1.Inv := h.foldTerms
    exact hs1.mapGang

theorem State.Inv.beginPeer {s : State} {x op} (h : s.Inv) : (Machine.beginPeer x s op).Inv := by
  unfold Machine.beginPeer
  extract_lets s1
  have hs1 : s1.Inv := h.mapGang
  split
  · exact hs1.sendPeer
  · exact hs1

theorem State.Inv.classified {s : State} {x op busy write ws} (h : s.Inv) : (Machine.classified x s op busy write ws).Inv := by
  unfold Machine.classified
  extract_lets op1 r p r1
  have hr : r.s.Inv := h.performOp
  have hp : p.2.Inv := h.restash
  have hr1 : r1.s.Inv := hp.performOp
  exact .ite h.mapGang (.ite hr.mapGang (.ite h.mapGang hr1.mapGang))

theorem State.Inv.issueAccs {s : State} {x force write accs ws} (h : s.Inv) : (Machine.issueAccs x s force write accs ws).Inv := by
  unfold Machine.issueAccs
  extract_lets busy op became
  split
  · split
    · exact h
    · split
      · exact h.ok
      · exact h.beginPeer
  · split
    · exact h
    · split
      · rename_i t _ t1 e
        have ht1 : t1.Inv := h.touchPages.wait e
        exact ht1
      · rename_i t _ _ t1 e
        have ht1 : t1.Inv := h.touchPages.go e
        extract_lets s1
        have hs1 : s1.Inv := ht1.foldIssue
        split
        · exact hs1.mapGang.ok
        · exact hs1.classified.ok

theorem State.Inv.memForm {s : State} {x force write lanes chk ws} (h : s.Inv) (hc : ∀ t l, t.Inv → (chk t l).Inv) :
    (Machine.memForm x s force write lanes chk ws).Inv := by
  unfold Machine.memForm
  split
  · exact h
  · split
    · exact h
    · split
      · next e => exact (h.checkLanes hc).wait e
      · next e => exact (h.checkLanes hc).trap e
      · next e => exact ((h.checkLanes hc).ok e).issueAccs

theorem State.Inv.plainCheck {s : State} {w r lane va n align perm decl peerOk} (h : s.Inv) : (Machine.plainCheck s w r lane va n align
    perm decl peerOk).Inv := by
  unfold Machine.plainCheck
  split
  · rename_i t t1 e
    have ht1 : t1.Inv := h.xlatPieces.miss e
    exact ht1
  · rename_i t _ _ t1 e
    have ht1 : t1.Inv := h.xlatPieces.fail e
    exact ht1
  · rename_i t _ t1 e
    have ht1 : t1.Inv := h.xlatPieces.ok e
    split
    · exact ht1
    · split
      · split
        · exact ht1
        · split
          · exact ht1
          · exact ht1
      · split
        · exact ht1
        · split
          · exact ht1
          · exact ht1

theorem State.Inv.countBlock {s : State} {x off again} (h : s.Inv) : (Machine.countBlock x s off again).Inv := by
  unfold Machine.countBlock
  extract_lets s1
  have hs1 : s1.Inv := .ite h.mapGang h
  exact .ite hs1.mapGang hs1

theorem State.Inv.readBlock {s : State} {x off} (h : s.Inv) : (Machine.readBlock x s off).Inv := by
  unfold Machine.readBlock
  extract_lets low busy q
  split
  · rename_i t t1 e
    have ht1 : t1.Inv := h.localCheck.miss e
    exact ht1
  · rename_i t _ _ t1 e
    have ht1 : t1.Inv := h.localCheck.fail e
    exact ht1
  · rename_i t _ t1 e
    have ht1 : t1.Inv := h.localCheck.ok e
    extract_lets became
    split
    · rename_i t2 _ t3 e1
      have ht3 : t3.Inv := ht1.touchPages.wait e1
      exact ht3
    · rename_i t2 _ _ t3 e1
      have ht3 : t3.Inv := ht1.touchPages.go e1
      extract_lets r read bs bad
      have hr : r.2.Inv := ht3.stashAll
      have hread : read.Inv := hr.foldl fun _ _ h => h.correctAcc
      split
      · split
        · exact ht3
        · exact ht3
      · split
        · exact hread
        · exact hread

theorem State.Inv.settledTrap {s : State} {again b} (h : s.Inv) : (Machine.settledTrap again b s).Inv := by
  unfold Machine.settledTrap
  split
  · exact h
  · exact h

theorem State.Inv.chainCommit {s : State} {key owner load} (h : s.Inv) : (Machine.chainCommit s key owner load).Inv := by
  unfold Machine.chainCommit
  extract_lets c c'
  exact h.upd

theorem State.Inv.chainChange {s : State} {x load} (h : s.Inv) : (Machine.chainChange x s load).Inv := by
  unfold Machine.chainChange
  extract_lets k key c s1
  have hs1 : s1.Inv := h.upd
  split
  · exact hs1.mapGang.ok
  · exact h.chainCommit.ok

theorem State.Inv.fetchWord32 {s : State} {core task pas} (h : s.Inv) : (Machine.fetchWord32 s core task pas).2.2.Inv := by
  unfold Machine.fetchWord32
  extract_lets now base old r
  have hr : r.2.Inv := h.fetchWordOf
  exact hr

theorem State.Inv.loadUops {s : State} {core task va count} (h : s.Inv) : (Machine.loadUops s core task va count).Inv := by
  unfold Machine.loadUops
  split
  · rename_i t t1 e
    have ht1 : t1.Inv := h.xlatPieces.miss e
    exact ht1
  · rename_i t _ _ t1 e
    have ht1 : t1.Inv := h.xlatPieces.fail e
    exact ht1
  · rename_i t _ t1 e
    have ht1 : t1.Inv := h.xlatPieces.ok e
    extract_lets pas ws
    have hws : ws.2.Inv := by
      unfold ws
      refine ht1.foldlSnd fun r a h => ?_
      extract_lets w
      have hw : w.2.2.Inv := h.fetchWord32
      exact hw
    split
    · exact ht1
    · split
      · exact ht1
      · split
        · exact hws
        · exact hws

/-! ### The invariant of memory: chains, handlers and control registers -/

theorem State.Inv.execChld {s : State} {f} (h : s.Inv) : NextInv (Machine.execChld f s) := by
  unfold Machine.execChld
  refine h.runIssue fun x s h => ?_
  split
  · exact h.ok
  · split
    · rename_i t t1 e
      have ht1 : t1.Inv := h.loadUops.miss e
      exact ht1
    · rename_i t _ _ t1 e
      have ht1 : t1.Inv := h.loadUops.fail e
      exact ht1
    · rename_i t _ t1 e
      have ht1 : t1.Inv := h.loadUops.ok e
      exact ht1.chainChange

theorem State.Inv.execChrun {s : State} {f} (h : s.Inv) : NextInv (Machine.execChrun f s) := by
  unfold Machine.execChrun
  extract_lets k
  refine h.runIssueWith fun x s h => ?_
  split
  · exact h.ok
  · exact h.mapGang.ok

theorem State.Inv.execChqry {s : State} {f} (h : s.Inv) : NextInv (Machine.execChqry f s) := by
  unfold Machine.execChqry
  refine h.runIssue fun x s h => ?_
  exact h.putD.ok

theorem State.Inv.execChinv {s : State} {f} (h : s.Inv) : NextInv (Machine.execChinv f s) := by
  unfold Machine.execChinv
  refine h.runIssue fun x s h => ?_
  split
  · exact h.ok
  · exact h.chainChange

theorem State.Inv.execTrap {s : State} {f} (h : s.Inv) : NextInv (Machine.execTrap f s) := by
  unfold Machine.execTrap
  refine h.runIssue fun x s h => ?_
  split
  · exact h.ok
  · exact h

theorem State.Inv.execRte {s : State} {f} (h : s.Inv) : NextInv (Machine.execRte f s) := by
  unfold Machine.execRte
  refine h.runIssueWith fun x s h => ?_
  split
  · exact h.ok
  · exact h

theorem State.Inv.execMfc {s : State} {f} (h : s.Inv) : NextInv (Machine.execMfc f s) := by
  unfold Machine.execMfc
  refine h.runIssue fun x s h => ?_
  split
  · exact h
  · exact h.putD.ok

theorem State.Inv.execMtc {s : State} {f} (h : s.Inv) : NextInv (Machine.execMtc f s) := by
  unfold Machine.execMtc
  refine h.runIssueWith fun x s h => ?_
  split
  · exact h.ok
  · exact h.mapGang.ok

theorem State.Inv.execRdcnt {s : State} {f} (h : s.Inv) : NextInv (Machine.execRdcnt f s) := by
  unfold Machine.execRdcnt
  refine h.runIssue fun x s h => ?_
  exact h.putD.ok

theorem State.Inv.execRdtime {s : State} {f} (h : s.Inv) : NextInv (Machine.execRdtime f s) := by
  unfold Machine.execRdtime
  refine h.runIssue fun x s h => ?_
  exact h.putD.ok

theorem State.Inv.execHaltdbg {s : State} {f} (h : s.Inv) : NextInv (Machine.execHaltdbg f s) := by
  unfold Machine.execHaltdbg
  refine h.runIssue fun x s h => ?_
  split
  · exact h.ok
  · exact h

theorem State.Inv.execRddig {s : State} {f} (h : s.Inv) : NextInv (Machine.execRddig f s) := by
  unfold Machine.execRddig
  refine h.runIssue fun x s h => ?_
  exact h.putD.ok

theorem State.Inv.execRegq {s : State} {f} (h : s.Inv) : NextInv (Machine.execRegq f s) := by
  unfold Machine.execRegq
  refine h.runIssue fun x s h => ?_
  exact h.putD.ok

theorem State.Inv.execSleep {s : State} {f} (h : s.Inv) : NextInv (Machine.execSleep f s) := by
  unfold Machine.execSleep
  refine h.runIssue fun x s h => ?_
  extract_lets n
  split
  · exact h.ok
  · split
    · exact h
    · exact h.mapGang.ok

theorem State.Inv.execSleepWake {s : State} {ref} (h : s.Inv) : NextInv (Machine.execSleepWake ref s) := by
  unfold Machine.execSleepWake
  split
  · split
    · exact .ite h.setGang h
    · exact h
  · exact h

theorem State.Inv.execUndefinedEncoding {s : State} {_w} (h : s.Inv) : NextInv (Machine.execUndefinedEncoding _w s) := by
  unfold Machine.execUndefinedEncoding
  split
  · trivial
  · split
    · split
      · exact h.illegalWord
      · trivial
    · trivial

theorem State.Inv.execShfl {s : State} {f} (h : s.Inv) : NextInv (Machine.execShfl f s) := by
  unfold Machine.execShfl
  refine h.runIssue fun x s h => ?_
  exact h.putD.ok

theorem State.Inv.execBcast {s : State} {f} (h : s.Inv) : NextInv (Machine.execBcast f s) := by
  unfold Machine.execBcast
  refine h.runIssue fun x s h => ?_
  exact h.putD.ok

theorem State.Inv.execSwz {s : State} {f} (h : s.Inv) : NextInv (Machine.execSwz f s) := by
  unfold Machine.execSwz
  refine h.runIssue fun x s h => ?_
  exact h.putD.ok

theorem State.Inv.wholeForm {s : State} {i b} (h : s.Inv) : NextInv (Machine.wholeForm i s b) := by
  unfold Machine.wholeForm
  refine h.runIssue fun x s h => ?_
  extract_lets r
  split
  · exact h.ok
  · split
    · rename_i t e
      have ht : t.Inv := h.fpTrap e
      exact ht
    · exact h.fill.ok

theorem State.Inv.execMatchLanes {s : State} {f} (h : s.Inv) : NextInv (Machine.execMatchLanes f s) := by
  unfold Machine.execMatchLanes
  refine h.runIssue fun x s h => ?_
  split
  · exact h.ok
  · exact h.fill.ok

theorem State.Inv.execPack {s : State} {f} (h : s.Inv) : NextInv (Machine.execPack f s) := by
  unfold Machine.execPack
  refine h.runIssue fun x s h => ?_
  exact h.putD.ok

theorem State.Inv.execUnpack {s : State} {f} (h : s.Inv) : NextInv (Machine.execUnpack f s) := by
  unfold Machine.execUnpack
  refine h.runIssue fun x s h => ?_
  exact h.putD.ok

theorem State.Inv.convForm {s : State} {i} (h : s.Inv) : NextInv (Machine.convForm i s) := by
  unfold Machine.convForm
  refine h.runIssue fun x s h => ?_
  extract_lets D A r
  split
  · exact h.ok
  · split
    · rename_i t e
      have ht : t.Inv := h.fpTrap e
      exact ht
    · exact h.fill.ok

theorem State.Inv.execTvset {s : State} {f} (h : s.Inv) : NextInv (Machine.execTvset f s) := by
  unfold Machine.execTvset
  refine h.runIssue fun x s h => ?_
  split
  · exact h.ok
  · exact h.mapGang.ok

theorem State.Inv.execTvget {s : State} {f} (h : s.Inv) : NextInv (Machine.execTvget f s) := by
  unfold Machine.execTvget
  refine h.runIssue fun x s h => ?_
  exact h.putD.ok

theorem State.Inv.execTokgive {s : State} {f} (h : s.Inv) : NextInv (Machine.execTokgive f s) := by
  unfold Machine.execTokgive
  refine h.runIssue fun x s h => ?_
  split
  · exact h.ok
  · exact h.mapGang.ok

theorem State.Inv.execToktake {s : State} {f} (h : s.Inv) : NextInv (Machine.execToktake f s) := by
  unfold Machine.execToktake
  refine h.runIssue fun x s h => ?_
  split
  · exact h.ok
  · split
    · exact h
    · exact h.mapGang.ok

theorem State.Inv.execMxwait {s : State} {f} (h : s.Inv) : NextInv (Machine.execMxwait f s) := by
  unfold Machine.execMxwait
  refine h.runIssue fun x s h => ?_
  split
  · exact h
  · exact h.ok

theorem State.Inv.execTzero {s : State} {f} (h : s.Inv) : NextInv (Machine.execTzero f s) := by
  unfold Machine.execTzero
  refine h.runIssue fun x s h => ?_
  split
  · exact h.ok
  · exact h.mapGang.ok

/-! ### The invariant of memory: matrix operations -/

theorem State.Inv.streamCheck {s : State} {x va} (h : s.Inv) : (Machine.streamCheck s x va).2.Inv := by
  unfold Machine.streamCheck
  split
  · rename_i t t1 e
    have ht1 : t1.Inv := h.coreXlat.miss e
    exact ht1
  · rename_i t _ t1 e
    have ht1 : t1.Inv := h.coreXlat.done e
    exact ht1
  · rename_i t _ _ _ t1 e
    have ht1 : t1.Inv := h.coreXlat.done e
    exact ht1
  · rename_i t _ _ t1 e
    have ht1 : t1.Inv := h.coreXlat.done e
    exact ht1

theorem State.Inv.streamChecks {s : State} {x p} (h : s.Inv) : (Machine.streamChecks s x p).2.Inv := by
  unfold Machine.streamChecks
  extract_lets tiles
  refine h.foldlSnd fun r a h => ?_
  split
  · rename_i t _ t1 _ e
    have ht1 : t1.Inv := State.Inv.snd h.streamCheck e
    exact ht1
  · rename_i t t1 e _
    have ht1 : t1.Inv := State.Inv.snd h.streamCheck e
    exact ht1
  · rename_i t _ _ t1 _ e
    have ht1 : t1.Inv := State.Inv.snd h.streamCheck e
    exact ht1

theorem State.Inv.mxIssue {s : State} {x p again} (h : s.Inv) : (Machine.mxIssue x s p again).Inv := by
  unfold Machine.mxIssue
  extract_lets off low trap
  have ht : ∀ t s, s.Inv → (trap t s).Inv := fun _ _ h => h.settledTrap
  split
  · exact ht _ _ h
  · split
    · exact ht _ _ h
    · split
      · exact ht _ _ h
      · split
        · exact ht _ _ h
        · split
          · next e => exact State.Inv.snd h.streamChecks e
          · next e => exact ht _ _ (State.Inv.snd h.streamChecks e)
          · next t e =>
            have hs : t.Inv := State.Inv.snd h.streamChecks e
            extract_lets q
            split
            · exact hs
            · split
              · exact hs
              · exact hs.upd.countBlock

theorem State.Inv.execMxop {s : State} {f} (h : s.Inv) : NextInv (Machine.execMxop f s) := by
  unfold Machine.execMxop
  refine h.runIssue fun x s h => ?_
  split
  · exact h.ok
  · split
    · rename_i t _ t1 e
      have ht1 : t1.Inv := h.readBlock.wait e
      exact ht1
    · rename_i t _ t1 e
      have ht1 : t1.Inv := h.readBlock.trap e
      exact ht1
    · rename_i t _ _ t1 e
      have ht1 : t1.Inv := h.readBlock.ok e
      exact ht1.mxIssue

theorem State.Inv.correctViews {s : State} {ref ds} (h : s.Inv) : (Machine.correctViews s ref ds).Inv := by
  unfold Machine.correctViews
  split
  · exact h
  · extract_lets r
    exact .ite h h.setGang.bump

theorem State.Inv.mxFinish {s : State} {a} (h : s.Inv) : (Machine.mxFinish s a).Inv := by
  unfold Machine.mxFinish
  extract_lets s1 A B r
  have hs1 : s1.Inv := .ite h.correctViews h
  split
  · exact hs1
  · extract_lets g bad n s2
    have hs2 : s2.Inv := hs1.setGang
    exact hs2.bump

theorem State.Inv.streamLine {s : State} {w r va n} (h : s.Inv) : (Machine.streamLine s w r va n).Inv := by
  unfold Machine.streamLine
  split
  · rename_i t t1 e
    have ht1 : t1.Inv := h.plainCheck.miss e
    exact ht1
  · rename_i t _ _ t1 e
    have ht1 : t1.Inv := h.plainCheck.fail e
    exact ht1
  · rename_i t _ t1 e
    have ht1 : t1.Inv := h.plainCheck.ok e
    split
    · rename_i t2 _ t3 e1
      have ht3 : t3.Inv := ht1.touchPages.wait e1
      exact ht3
    · rename_i t2 _ _ t3 e1
      have ht3 : t3.Inv := ht1.touchPages.go e1
      extract_lets s1 bs
      have hs1 : s1.Inv := (State.Inv.ite ht3.crossAccs ht3).foldl fun _ _ h => h.correctAcc
      split
      · exact hs1
      · exact hs1.fillAccs

theorem State.Inv.mxReadViews {s : State} {a} (h : s.Inv) : (Machine.mxReadViews s a).2.Inv := by
  unfold Machine.mxReadViews
  split
  · exact h
  · exact h.correctViews

theorem State.Inv.mxSetHead {s : State} {key b} (h : s.Inv) : (Machine.mxSetHead s key b).Inv := by
  unfold Machine.mxSetHead
  extract_lets rest
  exact h.upd

theorem State.Inv.mxDone {s : State} {key b} (h : s.Inv) : (Machine.mxDone s key b).Inv := by
  unfold Machine.mxDone
  split
  · exact h.mxSetHead
  · exact h.mxFinish.mxSetHead

theorem State.Inv.mxRecheck {s : State} {key b w c off g} (h : s.Inv) : (Machine.mxRecheck s key b w c off g).Inv := by
  unfold Machine.mxRecheck
  extract_lets x
  split
  · exact h.killTeam
  · exact h.mxSetHead

theorem State.Inv.mxServeReady {s : State} {key e0 w r} (h : s.Inv) : (Machine.mxServeReady s key e0 w r).Inv := by
  unfold Machine.mxServeReady
  split
  · rename_i t _ t1 e
    have ht1 : t1.Inv := State.Inv.snd h.mxReadViews e
    extract_lets s1
    have hs1 : s1.Inv := ht1.mxSetHead
    split
    · exact ht1.mxFinish.mxSetHead
    · split
      · exact hs1
      · split
        · rename_i t2 t3 e1
          have ht3 : t3.Inv := hs1.streamLine.wait e1
          exact ht3
        · rename_i t2 _ _ t3 e1
          have ht3 : t3.Inv := hs1.streamLine.kill e1
          exact ht3.killTeam
        · rename_i t2 _ t3 e1
          have ht3 : t3.Inv := hs1.streamLine.ok e1
          exact ht3.mxDone

theorem State.Inv.mxServe {s : State} {key b w r} (h : s.Inv) : (Machine.mxServe s key b w r).Inv := by
  unfold Machine.mxServe
  split
  · exact h
  · split
    · exact h.mxRecheck
    · exact h.mxServeReady

theorem State.Inv.execMxopRun {s : State} {core part} (h : s.Inv) : NextInv (Machine.execMxopRun core part s) := by
  unfold Machine.execMxopRun
  split
  · exact h
  · split
    · exact h.mxSetHead
    · split
      · exact h
      · exact .ite h h.mxServe

/-! ### The invariant of memory: happenings of a gang -/

theorem State.Inv.execFetch {s : State} {ref} (h : s.Inv) : NextInv (Machine.execFetch ref s) := by
  unfold Machine.execFetch
  split
  · exact h
  · split
    · exact h
    · split
      · exact h
      · split
        · rename_i t t1 e
          have ht1 : t1.Inv := h.fetchAt.miss e
          exact ht1
        · rename_i t t1 e
          have ht1 : t1.Inv := h.fetchAt.fail e
          exact ht1.fetchFault
        · rename_i t _ t1 e
          have ht1 : t1.Inv := h.fetchAt.word e
          exact ht1

theorem State.Inv.execSecdedReplay {s : State} {ref} (h : s.Inv) : NextInv (Machine.execSecdedReplay ref s) := by
  unfold Machine.execSecdedReplay
  split
  · exact h
  · split
    · exact h
    · split
      · exact h
      · extract_lets x
        split
        · rename_i t _ t1 e
          have ht1 : t1.Inv := h.fetchAt.word e
          split
          · split
            · extract_lets keys g'
              exact ht1.setGang.bump
            · exact ht1
          · exact ht1
        · rename_i t t1 e
          have ht1 : t1.Inv := h.fetchAt.miss e
          exact ht1
        · rename_i t t1 e
          have ht1 : t1.Inv := h.fetchAt.fail e
          exact ht1

theorem State.Inv.execFillLand {s : State} {ref ix} (h : s.Inv) : NextInv (Machine.execFillLand ref ix s) := by
  unfold Machine.execFillLand
  split
  · exact h
  · exact .ite h.setGang h

theorem State.Inv.execChldCommit {s : State} {ref} (h : s.Inv) : NextInv (Machine.execChldCommit ref s) := by
  unfold Machine.execChldCommit
  split
  · split
    · extract_lets key c
      split
      · extract_lets s1
        have hs1 : s1.Inv := h.upd
        split
        · exact hs1.chainCommit.setGang
        · exact h
      · exact h
    · exact h
  · exact h

theorem State.Inv.placeAll {slot t} (l : List Nat) {s r : State} (h : s.Inv) (e : Machine.placeAll s slot t l = some r) : r.Inv := by
  induction l generalizing s with
  | nil => cases e; exact h
  | cons i l ih =>
    unfold Machine.placeAll at e
    split at e
    · cases e
    · exact ih h.createTeam e

theorem State.Inv.placeNext {s : State} {slot t} (h : s.Inv) : (Machine.placeNext s slot t).Inv := by
  unfold Machine.placeNext
  extract_lets r again next
  clear_value next
  split
  · split
    · exact h
    · next e => exact (State.Inv.placeAll _ h e).setTask.noteProgress
  · split
    · exact h
    · split
      · exact h
      · split
        · exact h
        · exact h.createTeam.setTask.noteProgress

theorem State.Inv.execTeamPlace {s : State} {slot} (h : s.Inv) : NextInv (Machine.execTeamPlace slot s) := by
  unfold Machine.execTeamPlace
  split
  · exact h
  · exact .ite h.placeNext h

theorem State.Inv.execGangRetire {s : State} {ref} (h : s.Inv) : NextInv (Machine.execGangRetire ref s) := by
  unfold Machine.execGangRetire
  split
  · exact h
  · extract_lets s1 s2 s3 s4
    have hs1 : s1.Inv := h.setTask
    have hs2 : s2.Inv := hs1.removeGang
    have hs3 : s3.Inv := by
      unfold s3
      split
      · exact hs2.setTeam
      · exact hs2
    have hs4 : s4.Inv := hs3.foldl fun _ _ h => h.checkBarrier
    split
    · exact h
    · exact hs4.tryRetireTeam.retireReady

/-! ### The invariant of memory: the copy engine -/

theorem State.Inv.engForm {i k} {s : State} (h : s.Inv) : NextInv (Machine.engForm i k s) := by
  refine h.runIssue fun x s h => ?_
  split
  · exact h
  · extract_lets off low sig chk
    clear_value sig
    have hc : chk.Inv := by
      unfold chk
      split
      · exact h
      · exact h.plainCheck
    clear_value chk
    split
    · exact hc
    · extract_lets u
      have hr : (Machine.readBlock x _ off).Inv := State.Inv.readBlock hc
      split
      · next e => exact hr.wait e
      · next e => exact hr.trap e
      · next e => exact (hr.ok e).settledTrap
    · have hr : (Machine.readBlock x _ off).Inv := State.Inv.readBlock hc
      split
      · next e => exact hr.wait e
      · next e => exact hr.trap e
      · next u e =>
        have hu : u.Inv := hr.ok e
        split
        · exact hu.settledTrap
        · split
          · exact hu
          · exact hu.upd.mapGang.countBlock

theorem State.Inv.engCheck {s : State} {w r scratch va n align acc peerOk} (h : s.Inv) : (Machine.engCheck s w r scratch va n align acc
    peerOk).Inv := by
  unfold Machine.engCheck
  split
  · exact h.localCheck
  · exact h.plainCheck

theorem State.Inv.elemCheck {s : State} {op w r src dst n peerOk} (h : s.Inv) : (Machine.elemCheck s op w r src dst n peerOk).Inv := by
  unfold Machine.elemCheck
  split
  · rename_i t t1 e
    have ht1 : t1.Inv := h.engCheck.miss e
    exact ht1
  · rename_i t _ _ t1 e
    have ht1 : t1.Inv := h.engCheck.fail e
    exact ht1
  · rename_i t _ t1 e
    have ht1 : t1.Inv := h.engCheck.ok e
    split
    · rename_i t2 t3 e1
      have ht3 : t3.Inv := ht1.engCheck.miss e1
      exact ht3
    · rename_i t2 _ _ t3 e1
      have ht3 : t3.Inv := ht1.engCheck.fail e1
      exact ht3
    · rename_i t2 _ t3 e1
      have ht3 : t3.Inv := ht1.engCheck.ok e1
      exact ht3

theorem State.Inv.elemTouch {s : State} {w write force scratch accs} (h : s.Inv) : (Machine.elemTouch s w write force scratch accs).2.Inv
    := by
  unfold Machine.elemTouch
  extract_lets became
  split
  · rename_i t _ t1 e
    have ht1 : t1.Inv := h.touchPages.wait e
    exact ht1
  · rename_i t _ _ t1 e
    have ht1 : t1.Inv := h.touchPages.go e
    exact ht1

theorem State.Inv.taintAcc {s : State} {w a bad} (h : s.Inv) : (Machine.taintAcc s w a bad).Inv := by
  unfold Machine.taintAcc
  refine h.foldl fun s a h => ?_
  split
  · exact h
  · split
    · split
      · split
        · exact h.setTeam
        · exact h
      · exact h
    · exact .ite h h.upd

theorem State.Inv.foldElem {s : State} {op w r a size kind val} (h : s.Inv) : (Machine.foldElem s op w r a size kind val).Inv := by
  unfold Machine.foldElem
  split
  · exact h
  · split
    · exact h.foldTerms
    · exact h

theorem State.Inv.nextStamp {s : State} (h : s.Inv) : (s.nextStamp).Inv := h.upd

theorem State.Inv.setEngine {s : State} {id op} (h : s.Inv) : (Machine.setEngine s id op).Inv := h.upd

theorem State.Inv.engLines {s : State} {op dst} (h : s.Inv) : (Machine.engLines s op dst).Inv := .ite h.bump h

theorem State.Inv.elemFail {s : State} {id op c a} (h : s.Inv) : (Machine.elemFail s id op c a).Inv := h.setEngine

theorem State.Inv.elemNext {s : State} {id op} (h : s.Inv) : (Machine.elemNext s id op).Inv := h.setEngine

theorem State.Inv.elemCross {s : State} {w unc accs} (h : s.Inv) : (Machine.elemCross s w unc accs).Inv := .ite h.crossAccs h

theorem State.Inv.elemRead {s : State} {w unc claims accs0} (h : s.Inv) : (Machine.elemRead s w unc claims accs0).2.Inv := by
  unfold Machine.elemRead
  extract_lets r s1
  have hr : r.2.Inv := h.stashAll
  have hs1 : s1.Inv := hr.elemCross.foldl fun _ _ h => h.correctAcc
  exact hs1.fillAccs

theorem State.Inv.elemReadIndex {s : State} {id op r} (h : s.Inv) : (Machine.elemReadIndex s id op r).Inv := by
  unfold Machine.elemReadIndex
  extract_lets w ia op1
  split
  · rename_i t t1 e
    have ht1 : t1.Inv := h.plainCheck.miss e
    exact ht1
  · rename_i t _ _ t1 e
    have ht1 : t1.Inv := h.plainCheck.fail e
    exact ht1.elemFail
  · rename_i t _ t1 e
    have ht1 : t1.Inv := h.plainCheck.ok e
    split
    · rename_i t2 t3 e1
      have ht3 : t3.Inv := State.Inv.snd ht1.elemTouch e1
      exact ht3
    · rename_i t2 _ t3 e1
      have ht3 : t3.Inv := State.Inv.snd ht1.elemTouch e1
      extract_lets b
      have hb : b.2.Inv := ht3.elemRead
      exact .ite hb.elemFail hb.nextStamp.setEngine

theorem State.Inv.elemReadSrc {s : State} {id op r pre} (h : s.Inv) : (Machine.elemReadSrc s id op r pre).Inv := by
  unfold Machine.elemReadSrc
  extract_lets w p
  split
  · rename_i t t1 e
    have ht1 : t1.Inv := h.elemCheck.wait e
    exact ht1
  · rename_i t _ _ t1 e
    have ht1 : t1.Inv := h.elemCheck.fail e
    exact ht1.elemFail
  · rename_i t _ _ t1 e
    have ht1 : t1.Inv := h.elemCheck.ok e
    split
    · rename_i t2 t3 e1
      have ht3 : t3.Inv := State.Inv.snd ht1.elemTouch e1
      exact ht3
    · rename_i t2 _ t3 e1
      have ht3 : t3.Inv := State.Inv.snd ht1.elemTouch e1
      split
      · rename_i t4 t5 e2
        have ht5 : t5.Inv := State.Inv.snd ht3.elemTouch e2
        exact ht5
      · rename_i t4 _ t5 e2
        have ht5 : t5.Inv := State.Inv.snd ht3.elemTouch e2
        extract_lets op1 b
        have hb : b.2.Inv := ht5.elemRead
        split
        · exact ht5.elemCross.setEngine.sendPeer
        · exact hb.nextStamp.setEngine

theorem State.Inv.elemPut {s : State} {id op w r unc a bs} (h : s.Inv) : (Machine.elemPut s id op w r unc a bs).Inv := by
  unfold Machine.elemPut
  extract_lets s1 s2 s3 s4 s5
  have hs1 : s1.Inv := h.elemCross
  have hs2 : s2.Inv := hs1.engLines
  have hs3 : s3.Inv := by
    unfold s3
    split
    · exact hs2
    · exact hs2.noteStore
  have hs4 : s4.Inv := hs3.storeAccess
  have hs5 : s5.Inv := hs4.taintAcc
  split
  · exact hs1.setEngine.sendPeer
  · exact hs5.foldElem.elemNext

theorem State.Inv.elemAdd {s : State} {id op w r a bs} (h : s.Inv) : (Machine.elemAdd s id op w r a bs).Inv := by
  unfold Machine.elemAdd
  extract_lets n x s1 ev s2
  have hs1 : s1.Inv := h.elemCross.engLines.correctAcc
  have hev : ev.2.2.Inv := by
    unfold ev
    split
    · exact hs1.scratchEvent
    · exact hs1.noteStore.homeEvent _ _ _
  have hs2 : s2.Inv := .ite ((hs1.recallLines _ _).taintAcc) (.ite hev.rowPoison hev)
  exact hs2.foldElem.elemNext

theorem State.Inv.elemWrite {s : State} {id op r b} (h : s.Inv) : (Machine.elemWrite s id op r b).Inv := by
  unfold Machine.elemWrite
  extract_lets w p
  split
  · rename_i t t1 e
    have ht1 : t1.Inv := h.engCheck.miss e
    exact ht1
  · rename_i t _ _ t1 e
    have ht1 : t1.Inv := h.engCheck.fail e
    exact ht1.elemFail
  · rename_i t _ t1 e
    have ht1 : t1.Inv := h.engCheck.ok e
    extract_lets t2
    have ht2 : t2.2.Inv := ht1.stashAll
    split
    · exact ht1
    · extract_lets shared
      exact .ite ht2.elemAdd ht2.elemPut

theorem State.Inv.engStep {s : State} {id op r} (h : s.Inv) : (Machine.engStep s id op r).Inv := by
  unfold Machine.engStep
  split
  · exact .ite h.elemFail h.setEngine
  · exact .ite h.elemReadIndex h.elemReadSrc
  · exact .ite h.elemReadSrc h.elemWrite

theorem State.Inv.execEngineElement {s : State} {id} (h : s.Inv) : NextInv (Machine.execEngineElement id s) := by
  unfold Machine.execEngineElement
  split
  · exact h
  · extract_lets stops
    split
    · exact h
    · exact .ite h h.engStep

theorem State.Inv.signalTouch {s : State} {op} (h : s.Inv) : (Machine.signalTouch s op).Inv := by
  unfold Machine.signalTouch
  split
  · exact h
  · split
    · exact h.touchPages
    · split
      · exact h
      · exact h

theorem State.Inv.execEngineSignalUpdate {s : State} {id} (h : s.Inv) : NextInv (Machine.execEngineSignalUpdate id s) := by
  unfold Machine.execEngineSignalUpdate
  split
  · exact h
  · extract_lets holds
    split
    · exact h
    · split
      · rename_i t _ t1 e
        have ht1 : t1.Inv := h.signalTouch.wait e
        exact ht1
      · rename_i t _ _ t1 e
        have ht1 : t1.Inv := h.signalTouch.go e
        extract_lets s1
        have hs1 : s1.Inv := ht1.engineFinish
        exact hs1.upd.retireReady.tryEnd

/-! ### The invariant of memory: signal words and barriers -/

theorem State.Inv.objCheck {s : State} {x perm decl barrier} (h : s.Inv) : (Machine.objCheck x s perm decl barrier).Inv := by
  unfold Machine.objCheck
  extract_lets a
  split
  · rename_i t t1 e
    have ht1 : t1.Inv := h.plainCheck.miss e
    exact ht1
  · rename_i t _ _ t1 e
    have ht1 : t1.Inv := h.plainCheck.fail e
    split
    · exact ht1
    · exact ht1
  · rename_i t _ t1 e
    have ht1 : t1.Inv := h.plainCheck.ok e
    split
    · exact ht1
    · exact ht1

theorem State.Inv.eventForm {s : State} {i barrier okind data ws} (h : s.Inv) : NextInv (Machine.eventForm i s barrier okind data ws) := by
  unfold Machine.eventForm
  refine h.runIssue fun x s h => ?_
  extract_lets obj
  split
  · exact h.ok
  · split
    · exact h
    · split
      · rename_i t t1 e
        have ht1 : t1.Inv := h.objCheck.miss e
        exact ht1
      · rename_i t _ _ t1 e
        have ht1 : t1.Inv := h.objCheck.fail e
        exact ht1
      · rename_i t _ t1 e
        have ht1 : t1.Inv := h.objCheck.ok e
        extract_lets accs pa
        split
        · split
          · exact ht1
          · split
            · rename_i t2 _ t3 e1
              have ht3 : t3.Inv := ht1.touchPages.wait e1
              exact ht3
            · rename_i t2 _ _ t3 e1
              have ht3 : t3.Inv := ht1.touchPages.go e1
              extract_lets old op r new s'
              have hr : r.s.Inv := ht3.crossAccs.performOp
              have hs' : s'.Inv := hr.mapGang
              exact hs'
        · exact ht1.issueAccs

theorem State.Inv.waitForm {s : State} {i decl barrier data block} (h : s.Inv) : NextInv (Machine.waitForm i s decl barrier data block) :=
    by
  unfold Machine.waitForm
  refine h.runIssue fun x s h => ?_
  split
  · exact h.ok
  · split
    · exact h
    · split
      · rename_i t t1 e
        have ht1 : t1.Inv := h.objCheck.miss e
        exact ht1
      · rename_i t _ _ t1 e
        have ht1 : t1.Inv := h.objCheck.fail e
        exact ht1
      · rename_i t _ t1 e
        have ht1 : t1.Inv := h.objCheck.ok e
        extract_lets accs
        split
        · rename_i t2 _ t3 e1
          have ht3 : t3.Inv := ht1.touchPages.wait e1
          exact ht3
        · rename_i t2 _ _ t3 e1
          have ht3 : t3.Inv := ht1.touchPages.go e1
          extract_lets op
          split
          · exact ht3.ok
          · exact ht3.mapGang

theorem State.Inv.objectRead {s : State} {ref op okind done flip keep} (h : s.Inv) : (Machine.objectRead s ref op okind done flip
    keep).Inv := by
  unfold Machine.objectRead
  split
  · extract_lets s1 g0 v hit
    have hs1 : s1.Inv := (h.crossAccs.recallLines _ _).correctMem
    split
    · exact h
    · split
      · exact h
      · extract_lets free
        have hfree : free.Inv := hs1.setGang
        exact .ite hfree.trapIssue (.ite hfree.mapGang.commitIssue h)
  · exact h

theorem State.Inv.execSigwComplete {s : State} {ref} (h : s.Inv) : NextInv (Machine.execSigwComplete ref s) := by
  unfold Machine.execSigwComplete
  split
  · extract_lets b
    exact h.objectRead
  · exact h

theorem State.Inv.execBowComplete {s : State} {ref} (h : s.Inv) : NextInv (Machine.execBowComplete ref s) := by
  unfold Machine.execBowComplete
  split
  · extract_lets a rec_ changed
    exact h.objectRead
  · exact h

theorem State.Inv.setArr {s : State} {x b} (h : s.Inv) : (Machine.setArr s x b).Inv := by
  unfold Machine.setArr
  split
  · exact h.setTeam
  · exact h

theorem State.Inv.arriveForm {s : State} {i b waits} (h : s.Inv) : NextInv (Machine.arriveForm i b waits s) := by
  unfold Machine.arriveForm
  refine h.runIssue fun x s h => ?_
  extract_lets s1 full obj hit t
  have hs1 : s1.Inv := h.setArr
  split
  · exact h.ok
  · split
    · exact h
    · split
      · exact h
      · split
        · exact hs1.checkBarrier
        · split
          · exact hs1.mapGang.ok
          · exact hs1

theorem State.Inv.execBarw {s : State} {f} (h : s.Inv) : NextInv (Machine.execBarw f s) := by
  unfold Machine.execBarw
  refine h.runIssue fun x s h => ?_
  split
  · exact h.mapGang.ok
  · exact h.ok

theorem State.Inv.execCarve {s : State} {f} (h : s.Inv) : NextInv (Machine.execCarve f s) := by
  refine h.runIssue fun x s h => ?_
  split
  · exact h
  · split
    · exact h
    · extract_lets a spu l1u half now id s1
      have hn : ∀ st, (now st).Inv := fun _ => h.fill
      split
      · exact hn _
      · split
        · exact hn _
        · exact h.setTeam.mapGang

/-! ### The invariant of memory: page events, peer answers and migrations -/

theorem State.Inv.execPageReclassify {s : State} {slot page} (h : s.Inv) : NextInv (Machine.execPageReclassify slot page s) := by
  unfold Machine.execPageReclassify
  split
  · exact h
  · extract_lets priv
    exact .ite h.makeShared h

theorem State.Inv.execReadonlyToShared {s : State} {slot page} (h : s.Inv) : NextInv (Machine.execReadonlyToShared slot page s) := by
  unfold Machine.execReadonlyToShared
  split
  · exact h
  · exact .ite h.makeShared.retireReady h

theorem State.Inv.peerLeave {s : State} {ref w op} (h : s.Inv) : (Machine.peerLeave s ref w op).Inv := by
  unfold Machine.peerLeave
  extract_lets mine
  exact h.crossAccs.performOp.leaveGang

theorem State.Inv.peerCommit {s : State} {ref g w op} (h : s.Inv) : (Machine.peerCommit s ref g w op).Inv := by
  unfold Machine.peerCommit
  extract_lets g0
  split
  · exact h.peerLeave
  · split
    · exact h.setGang
    · extract_lets s1 r
      have hs1 : s1.Inv := h.setGang.foldIssue.crossAccs
      have hr : r.s.Inv := hs1.performOp
      exact hr.mapGang.commitIssue

theorem State.Inv.peerFinish {s : State} {ref} (h : s.Inv) : (Machine.peerFinish s ref).Inv := by
  unfold Machine.peerFinish
  split
  · split
    · split
      · exact h
      · split
        · split
          · exact h
          · split
            · exact h.sendPeer
            · exact h
        · split
          · exact h
          · split
            · rename_i t _ t1 e
              have ht1 : t1.Inv := h.touchPages.wait e
              exact ht1
            · rename_i t _ _ t1 e
              have ht1 : t1.Inv := h.touchPages.go e
              exact ht1.peerCommit
    · exact h
  · exact h

theorem State.Inv.accTrap {s : State} {ref g op cause a} (h : s.Inv) : (Machine.accTrap s ref g op cause a).Inv := by
  unfold Machine.accTrap
  extract_lets free
  have hfree : free.Inv := h.setGang
  split
  · split
    · exact hfree.leaveGang
    · split
      · exact h.setGang.trapIssue
      · exact hfree
  · exact hfree

theorem State.Inv.peerTrap {s : State} {ref g op} (h : s.Inv) : (Machine.peerTrap s ref g op).Inv := by
  unfold Machine.peerTrap
  split
  · exact h.accTrap
  · exact h.setGang

theorem State.Inv.peerGang {s : State} {ref r ans data} (h : s.Inv) : (Machine.peerGang s ref r ans data).Inv := by
  unfold Machine.peerGang
  split
  · split
    · extract_lets op
      exact .ite h.peerTrap h.setGang.peerFinish
    · exact h
  · exact h

theorem State.Inv.peerEngine {s : State} {id r ans data} (h : s.Inv) : (Machine.peerEngine s id r ans data).Inv := by
  unfold Machine.peerEngine
  split
  · exact h
  · extract_lets p s1 s2
    have hs1 : s1.Inv := h.engLines
    have hs2 : s2.Inv := by
      unfold s2
      split
      · exact .ite hs1.foldTerms hs1
      · exact hs1
    exact .ite h.elemFail (.ite h.nextStamp.setEngine hs2.elemNext)

theorem State.Inv.execUnclassifiedIssueComplete {s : State} {ref} (h : s.Inv) : NextInv (Machine.execUnclassifiedIssueComplete ref s) := by
  unfold Machine.execUnclassifiedIssueComplete
  split
  · split
    · exact h
    · exact .ite h.peerFinish.retireReady (.ite h h.completeUnclass)
  · exact h

theorem State.Inv.execPeerAccessComplete {s : State} {id ans data} (h : s.Inv) : NextInv (Machine.execPeerAccessComplete id ans data s) :=
    by
  unfold Machine.execPeerAccessComplete
  extract_lets s1
  have hs1 : s1.Inv := h.upd
  split
  · exact h
  · split
    · exact h
    · split
      · split
        · exact hs1.peerGang.retireReady
        · exact hs1
      · exact hs1.peerEngine
      · exact hs1

theorem State.Inv.execWalkComplete {s : State} {cluster ix} (h : s.Inv) : NextInv (Machine.execWalkComplete cluster ix s) := by
  unfold Machine.execWalkComplete
  split
  · exact h
  · split
    · rename_i t _ _ t1 e
      have ht1 : t1.Inv := State.Inv.snd h.clusterWalk e
      exact ht1.upd.tlbPut
    · rename_i t t1 e
      have ht1 : t1.Inv := State.Inv.snd h.clusterWalk e
      exact ht1.upd

theorem State.Inv.copyFinish {s : State} {ctx sig fault addr} (h : s.Inv) : (Machine.copyFinish s ctx sig fault addr).Inv := h.engineFinish

theorem State.Inv.newGens {s : State} {old new n oldDie newDie gen} (h : s.Inv) : (Machine.newGens s old new n oldDie newDie gen).Inv := by
  unfold Machine.newGens
  refine h.foldl fun s a h => ?_
  extract_lets o k s1 s2
  have hs1 : s1.Inv := .ite h.upd h.upd
  have hs2 : s2.Inv := hs1.upd
  exact .ite hs2.upd hs2

theorem State.Inv.newLeaves {s : State} {entry leaf count new hdie gen} (h : s.Inv) : (Machine.newLeaves s entry leaf count new hdie
    gen).Inv :=
  h.foldl fun _ _ h => h.homeStore _ _ _

theorem State.Inv.countRefused {s : State} {ctx old n} (h : s.Inv) : (Machine.countRefused s ctx old n).Inv := h.foldl fun _ _ h => .ite
    h.bump h

theorem State.Inv.drainOthers {s : State} {ctx old n} (h : s.Inv) : (Machine.drainOthers s ctx old n).Inv := by
  unfold Machine.drainOthers
  refine h.foldl fun s a h => ?_
  extract_lets ref
  exact .ite h.finishLate.completeUnclass h

theorem State.Inv.refuseOthers {s : State} {ctx old n} (h : s.Inv) : (Machine.refuseOthers s ctx old n).Inv := by
  unfold Machine.refuseOthers
  refine h.foldl fun s a h => ?_
  extract_lets ref s1
  have hs1 : s1.Inv := h.upd
  split
  · split
    · exact .ite h hs1.bump.accTrap
    · exact h
  · exact h

theorem State.Inv.collectStash {s : State} {old size} (h : s.Inv) : (Machine.collectStash s old size).Inv := by
  unfold Machine.collectStash
  refine h.foldl fun s a h => ?_
  extract_lets pages
  refine h.foldl fun s a h => ?_
  split
  · exact .ite h.dropStashPage h
  · exact h

theorem State.Inv.migrateLeaf {s : State} {ctx va old new size entry leaf hdie} (h : s.Inv) : (Machine.migrateLeaf s ctx va old new size
    entry leaf hdie).Inv := by
  unfold Machine.migrateLeaf
  extract_lets gen s1 s2
  have hs1 : s1.Inv := h.newGens
  have hs2 : s2.Inv := hs1.newLeaves.countRefused
  exact hs2.upd

theorem State.Inv.migrate {s : State} {m va old size entry leaf} (h : s.Inv) : (Machine.migrate s m va old size entry leaf).Inv := by
  unfold Machine.migrate
  extract_lets new hdie pages s1 s2 s3 s4
  have hs1 : s1.Inv := h.foldl fun _ _ h => .ite (h.foldl fun _ _ h => h.drainPage) h
  have hs2 : s2.Inv := hs1.drainOthers
  have hs3 : s3.Inv := hs2.collectStash.recallLines _ _
  have hs4 : s4.Inv := .ite hs3 ((hs3.recallLines _ _).moveFrames _ _ _)
  exact hs4.migrateLeaf.refuseOthers.bump

theorem State.Inv.migrationEnd {s : State} {m fault addr} (h : s.Inv) : (Machine.migrationEnd s m fault addr).Inv := .ite h h.copyFinish

theorem State.Inv.execPageMigration {s : State} {id} (h : s.Inv) : NextInv (Machine.execPageMigration id s) := by
  unfold Machine.execPageMigration
  extract_lets done
  have hdone : done.Inv := h.upd
  split
  · exact h
  · extract_lets src dst die
    split
    · exact h
    · split
      · extract_lets size bad
        split
        · exact hdone.migrationEnd
        · split
          · exact hdone.migrationEnd
          · split
            · exact h
            · split
              · exact hdone.migrationEnd
              · exact hdone.migrate.migrationEnd
      · exact hdone.migrationEnd

/-! ### The invariant of memory: network requests -/

theorem State.Inv.answer {s : State} {a} (h : s.Inv) : (Machine.answer s a).Inv := h.upd

theorem State.Inv.netRefuse {s : State} {port ctx k} (h : s.Inv) : (Machine.netRefuse s port ctx k).Inv := by
  unfold Machine.netRefuse
  extract_lets s1
  have hs1 : s1.Inv := h.bump
  refine State.Inv.answer ?_
  split
  · exact hs1.bump
  · exact hs1

theorem State.Inv.agentCorrect {s : State} {ctx va n} (h : s.Inv) : (Machine.agentCorrect s ctx va n).Inv := by
  unfold Machine.agentCorrect
  extract_lets s1
  have hs1 : s1.Inv := h.foldl fun _ _ h => h.walkCorrect
  split
  · exact hs1.correctBytes
  · exact hs1

theorem State.Inv.forgetStores {s : State} {pa n} (h : s.Inv) : (Machine.forgetStores s pa n).Inv := h.upd

theorem State.Inv.netAtomic {s : State} {pa f} (h : s.Inv) : (Machine.netAtomic s pa f).Inv := by
  unfold Machine.netAtomic
  extract_lets ev
  have hev : ev.2.2.Inv := h.correctMem.homeEvent _ _ _
  exact (State.Inv.ite hev hev.forgetStores).answer

theorem State.Inv.netPerform {s : State} {k r ctx} (h : s.Inv) : (Machine.netPerform s k r ctx).Inv := by
  unfold Machine.netPerform
  extract_lets n acc
  split
  · exact h.netRefuse
  · extract_lets pa bs bad
    split
    · split
      · rename_i t e
        have ht : t.Inv := h.agentWrite e
        exact ht.bump.answer
      · exact h.netRefuse
    · exact h.correctBytes.bump.answer
    · exact h.netAtomic
    · exact h.netAtomic

theorem State.Inv.defer {s : State} {k r ctx} (h : s.Inv) : (Machine.defer s k r ctx).Inv := .ite h.bump.bump.answer h.upd.bump

theorem State.Inv.portHeld {s t : State} {d} (h : s.Inv) (e : Machine.portHeld s d = some t) : t.Inv := by
  unfold Machine.portHeld at e
  obtain ⟨hi, hr, hc⟩ := h.images
  split at e
  · cases e; exact h.upd
  · next hs =>
    have hf := hc _ hs
    cases e
    refine h.withImages hi hr fun r e => ?_
    rw [← Option.some.inj e]
    exact hf
  · cases e

theorem State.Inv.netRequest {s : State} {k r} (h : s.Inv) : (Machine.netRequest s k r).Inv := by
  unfold Machine.netRequest
  split
  · exact h
  · split
    · exact h.netRefuse
    · extract_lets s1
      have hs1 : s1.Inv := .ite h.upd h
      split
      · rename_i t e
        have ht : t.Inv := hs1.portHeld e
        exact ht
      · exact .ite hs1.defer hs1.netPerform

theorem State.Inv.performDeferred {s : State} {ix} (h : s.Inv) : (Machine.performDeferred s ix).Inv := by
  unfold Machine.performDeferred
  split
  · exact h
  · exact .ite h.upd.netPerform h

theorem State.Inv.execDeferredRequestPerform {s : State} {ix} (h : s.Inv) : NextInv (Machine.execDeferredRequestPerform ix s) := .ite h
    h.performDeferred

theorem State.Inv.performReleased (n : Nat) {s : State} (h : s.Inv) : (Machine.performReleased s n).Inv := by
  induction n generalizing s with
  | zero => exact h
  | succ n ih =>
    unfold Machine.performReleased
    split
    · exact h
    · exact ih h.performDeferred

theorem State.Inv.execFrameDrop {s : State} {port} (h : s.Inv) : NextInv (Machine.execFrameDrop port s) := .ite h.bump h

theorem State.Inv.execCongestionNotification {s : State} {port} (h : s.Inv) : NextInv (Machine.execCongestionNotification port s) := by
  unfold Machine.execCongestionNotification
  extract_lets p
  exact .ite h.upd.bump h

theorem State.Inv.execPfcPause {s : State} {port prio ticks} (h : s.Inv) : NextInv (Machine.execPfcPause port prio ticks s) := by
  unfold Machine.execPfcPause
  extract_lets p old new s1
  have hs1 : s1.Inv := h.upd
  split
  · exact h
  · exact hs1.upd

/-! ### The invariant of memory: queues and the copy unit -/

theorem State.Inv.setQueue {s : State} {q x} (h : s.Inv) : (s.setQueue q x).Inv := h.upd

theorem State.Inv.settle {s : State} {q} (h : s.Inv) : (Machine.settle s q).Inv := by
  unfold Machine.settle
  split
  · exact .ite h.upd h
  · exact h

theorem State.Inv.queueError {s : State} {q code} (h : s.Inv) : (Machine.queueError s q code).Inv := by
  unfold Machine.queueError
  split
  · exact h
  · extract_lets s1 x s2
    have hs1 : s1.Inv := h.setQueue
    have hs2 : s2.Inv := hs1.logCtx
    exact hs2.settle

theorem State.Inv.advanceHead {s : State} {q n} (h : s.Inv) : (Machine.advanceHead s q n).Inv := by
  unfold Machine.advanceHead
  split
  · exact h
  · extract_lets x'
    split
    · rename_i t e
      have ht : t.Inv := h.agentWrite e
      exact ht.setQueue
    · exact h.setQueue.queueError

theorem State.Inv.packetDone {s : State} {q} (h : s.Inv) : (Machine.packetDone s q).Inv := by
  unfold Machine.packetDone
  split
  · exact h
  · split
    · exact h.advanceHead
    · exact .ite h.advanceHead h.setQueue

theorem State.Inv.queueCorrect {s : State} {x j n} (h : s.Inv) : (Machine.queueCorrect s x j n).Inv := h.agentCorrect.foldl fun _ _ h =>
    h.agentCorrect

theorem State.Inv.blockQueue {s : State} {q x} (h : s.Inv) : (Machine.blockQueue s q x).Inv := h.setQueue.settle

theorem State.Inv.queueTurn {s : State} {q} (h : s.Inv) : (Machine.queueTurn s q).Inv := by
  unfold Machine.queueTurn
  split
  · exact h
  · split
    · exact h
    · extract_lets go
      have hg : ∀ words s, s.Inv → (go words s).Inv := by
        intro words s h
        unfold go
        split
        · exact h.queueError
        · split
          · exact h.queueError
          · exact h
      clear_value go
      split
      · exact hg _ _ h
      · split
        · exact h.queueError
        · split
          · exact h.queueCorrect.queueError
          · split
            · exact h.queueCorrect.blockQueue
            · split
              · exact h
              · exact hg _ _ h.queueCorrect

theorem State.Inv.execQueueWake {s : State} {q} (h : s.Inv) : NextInv (Machine.execQueueWake q s) := by
  unfold Machine.execQueueWake
  split
  · exact .ite h.setQueue h
  · exact h

theorem State.Inv.execTask {s : State} {q after record} (h : s.Inv) : NextInv (Machine.execTask q after record s) := by
  unfold Machine.execTask
  split
  · exact h
  · exact .ite h.queueError h.setQueue

theorem State.Inv.execWaitv {s : State} {q after p timeout} (h : s.Inv) : NextInv (Machine.execWaitv q after p timeout s) := by
  unfold Machine.execWaitv
  split
  · exact h
  · exact .ite h.queueError h.setQueue

theorem State.Inv.execWaitvSatisfied {s : State} {q} (h : s.Inv) : NextInv (Machine.execWaitvSatisfied q s) := by
  unfold Machine.execWaitvSatisfied
  split
  · split
    · extract_lets s1
      have hs1 : s1.Inv := h.agentCorrect
      split
      · exact h
      · split
        · exact h.queueError
        · exact .ite hs1.packetDone hs1
    · exact h
  · exact h

theorem State.Inv.execWaitvTimeout {s : State} {q} (h : s.Inv) : NextInv (Machine.execWaitvTimeout q s) := by
  unfold Machine.execWaitvTimeout
  split
  · split
    · exact .ite h.queueError h
    · exact h
  · exact h

theorem State.Inv.packetSignal {s t : State} {a b c d} (h : s.Inv) (e : Machine.packetSignal s a b c d = some t) : t.Inv := by
  unfold Machine.packetSignal at e
  split at e
  · extract_lets ev at e
    have he : ev.2.2.Inv := h.correctAt.homeEvent _ _ _
    cases e
    exact .ite he.rowPoison he
  · cases e

theorem State.Inv.execSignal {s : State} {q after addr value set} (h : s.Inv) : NextInv (Machine.execSignal q after addr value set s) := by
  unfold Machine.execSignal
  split
  · exact h
  · split
    · exact h.queueError
    · split
      · exact h.queueError
      · rename_i t e
        have ht : t.Inv := h.packetSignal e
        exact ht.packetDone

theorem State.Inv.execCond {s : State} {q after p nThen nElse} (h : s.Inv) : NextInv (Machine.execCond q after p nThen nElse s) := by
  unfold Machine.execCond
  split
  · exact h
  · extract_lets s1
    have hs1 : s1.Inv := h.queueCorrect.agentCorrect
    split
    · exact h.queueError
    · split
      · exact h.queueError
      · split
        · exact h.blockQueue
        · split
          · exact h.queueError
          · split
            · exact h.queueError
            · extract_lets isElse
              exact .ite hs1.advanceHead hs1.setQueue

theorem State.Inv.markSignal {s : State} {q ctx sig} (h : s.Inv) : (Machine.markSignal s q ctx sig).Inv := by
  unfold Machine.markSignal
  split
  · exact h.packetDone
  · split
    · exact h.queueError
    · rename_i t e
      have ht : t.Inv := h.packetSignal e
      exact ht.packetDone

theorem State.Inv.execMarkTrace {s : State} {q after tag sig} (h : s.Inv) : NextInv (Machine.execMarkTrace q after tag sig s) := by
  unfold Machine.execMarkTrace
  split
  · exact h
  · exact .ite h.queueError h.trace.markSignal

theorem State.Inv.purgeCtx {s : State} {ctx} (h : s.Inv) : (Machine.purgeCtx s ctx).Inv := h.upd

theorem State.Inv.renewGang {s : State} {ctx ref} (h : s.Inv) : (Machine.renewGang s ctx ref).Inv := by
  unfold Machine.renewGang
  extract_lets s1
  have hs1 : s1.Inv := h.finishLate
  split
  · exact hs1
  · split
    · split
      · exact hs1.setGang
      · exact hs1.accTrap
    · split
      · exact hs1.setGang
      · exact hs1.accTrap
    · exact hs1
    · exact hs1.completeUnclass

theorem State.Inv.invalidate {s : State} {ctx} (h : s.Inv) : (Machine.invalidate s ctx).Inv := h.purgeCtx.foldl fun _ _ h => h.renewGang

theorem State.Inv.execMarkInvalidate {s : State} {q after _tag sig} (h : s.Inv) : NextInv (Machine.execMarkInvalidate q after _tag sig s)
    := by
  unfold Machine.execMarkInvalidate
  split
  · exact h
  · exact .ite h.queueError (.ite h h.invalidate.markSignal)

theorem State.Inv.execCopy {s : State} {q after p} (h : s.Inv) : NextInv (Machine.execCopy q after p s) := by
  unfold Machine.execCopy
  split
  · exact h
  · exact .ite h.queueError h.upd.packetDone

theorem State.Inv.execCopyMigrate {s : State} {q after p} (h : s.Inv) : NextInv (Machine.execCopyMigrate q after p s) := by
  unfold Machine.execCopyMigrate
  split
  · exact h
  · exact .ite h.queueError h.upd.packetDone

theorem State.Inv.copyByte {s t : State} {a b c} (h : s.Inv) (e : Machine.copyByte s a b c = .ok t) : t.Inv := by
  unfold Machine.copyByte at e
  extract_lets src dst at e
  split at e
  case h_5 =>
    split at e
    · cases e
    · extract_lets bad s1 s2 at e
      have h2 : s2.Inv := (h.walkCorrect.correctAt.homeStore _ _ _).forgetStores
      cases e
      exact .ite h2.upd h2
  all_goals cases e

theorem State.Inv.copyBytes {ctx p} (n k : Nat) {s : State} (h : s.Inv) : (Machine.copyBytes s ctx p n k).1.Inv := by
  induction n generalizing s k with
  | zero => exact h
  | succ n ih =>
    unfold Machine.copyBytes
    split
    · exact h
    · split
      · exact h
      · exact h
      · next e => exact ih _ (h.copyByte e)

theorem State.Inv.execCopyTransfer {s : State} {id count} (h : s.Inv) : NextInv (Machine.execCopyTransfer id count s) := by
  unfold Machine.execCopyTransfer
  split
  · exact h
  · extract_lets r x gone
    have hr : r.1.Inv := h.copyBytes _ _
    have hx : x.Inv := hr
    have hgone : gone.Inv := hx.upd
    split
    · exact h
    · split
      · exact hgone.copyFinish
      · split
        · exact hgone.copyFinish
        · exact hx.upd

/-! ### The invariant of memory: contexts: resets, slices and drains -/

theorem State.Inv.setCtx {s : State} {n c} (h : s.Inv) : (s.setCtx n c).Inv := h.upd

theorem State.Inv.doneSignal {s : State} {a b c d i} (h : s.Inv) : (Machine.doneSignal s a b c d i).Inv := by
  unfold Machine.doneSignal
  extract_lets sig fault
  have hf : ∀ s : State, s.Inv → (fault s).Inv := fun _ h => h.logCtx
  split
  · exact h
  · split
    · exact hf _ h
    · split
      · extract_lets ev
        have he : ev.2.2.Inv := h.correctAt.homeEvent _ _ _
        exact .ite (hf _ he) he
      · exact hf _ h

theorem State.Inv.finishReset {s : State} {n} (h : s.Inv) : (Machine.finishReset s n).Inv := by
  unfold Machine.finishReset
  split
  · exact h
  · extract_lets s1 x
    have hs1 : s1.Inv := h.purgeCtx.setCtx
    exact hs1.bump.logCtx

theorem State.Inv.settleCtx {s : State} {n} (h : s.Inv) : (Machine.settleCtx s n).Inv := by
  unfold Machine.settleCtx
  split
  · exact h
  · exact .ite (.ite h h.finishReset) (.ite h h.setCtx)

theorem State.Inv.freeSlot {s : State} {slot} (h : s.Inv) : (Machine.freeSlot s slot).Inv := by
  unfold Machine.freeSlot
  split
  · exact h
  · exact h.upd.noteProgress.settleCtx

theorem State.Inv.endWithoutEdges {s : State} {slot estat err} (h : s.Inv) : (Machine.endWithoutEdges s slot estat err).Inv := by
  unfold Machine.endWithoutEdges
  split
  · exact h
  · extract_lets s1
    have hs1 : s1.Inv := h.recordWrite
    exact hs1.doneSignal.freeSlot

theorem State.Inv.flushDone {s : State} {slot b} (h : s.Inv) : (Machine.flushDone s slot b).Inv := h.setTask.writeCursor

theorem State.Inv.stopFlush {s : State} {slot b} (h : s.Inv) : (Machine.stopFlush s slot b).Inv := by
  unfold Machine.stopFlush
  split
  · split
    · exact h
    · split
      · exact h.setTask.writeCursor
      · exact h.flushDone
  · exact h

theorem State.Inv.leftBy {s : State} {r} (h : s.Inv) (hr : NextInv r) : (Machine.leftBy s r).Inv := by
  unfold Machine.leftBy
  split
  · exact hr
  · exact h

theorem State.Inv.performHeld {s : State} {p} (h : s.Inv) : (Machine.performHeld s p).Inv := by
  unfold Machine.performHeld
  split
  · refine h.leftBy ?_
    exact h.execEngineElement
  · split
    · refine h.leftBy ?_
      exact h.execSigwComplete
    · refine h.leftBy ?_
      exact h.execBowComplete
    · exact h.peerFinish.retireReady
    · exact h.finishLate.completeUnclass

theorem State.Inv.letGo {s : State} {held} (h : s.Inv) : (Machine.letGo s held).Inv := h.foldl fun _ _ h => h.performHeld

theorem State.Inv.endHold {s : State} {ctx d} (h : s.Inv) : (Machine.endHold s ctx d).Inv := by
  unfold Machine.endHold
  extract_lets s'
  have hs' : s'.Inv := h.upd
  exact hs'.letGo.foldl fun _ _ h => h.netRequest

theorem State.Inv.dumpRelease {s : State} {ctx} (h : s.Inv) : (Machine.dumpRelease s ctx).Inv := by
  unfold Machine.dumpRelease
  split
  · exact .ite h (.ite h.upd.letGo h.endHold)
  · exact h

theorem State.Inv.dropHold {s : State} {ctx} (h : s.Inv) : (Machine.dropHold s ctx).Inv := by
  unfold Machine.dropHold
  split
  · exact .ite h.endHold h
  · exact h

theorem State.Inv.stopCopies {s : State} {n} (h : s.Inv) : (Machine.stopCopies s n).Inv := by
  unfold Machine.stopCopies
  extract_lets cs ms s1 s2
  have hs1 : s1.Inv := h.upd
  have hs2 : s2.Inv := hs1.foldl fun _ _ h => h.copyFinish
  exact hs2.foldl fun _ _ h => h.copyFinish

theorem State.Inv.endTasks {s : State} {n estat err lost} (h : s.Inv) : (Machine.endTasks s n estat err lost).Inv := by
  unfold Machine.endTasks
  extract_lets slots s1
  have hs1 : s1.Inv := h.upd
  refine hs1.foldl fun s a h => ?_
  split
  · exact h
  · split
    · exact h.endWithoutEdges
    · exact h.tryEnd
    · exact h

theorem State.Inv.forceReset {s : State} {n reason} (h : s.Inv) : (Machine.forceReset s n reason).Inv := by
  unfold Machine.forceReset
  split
  · exact h
  · extract_lets s1 s2 s3 s4 s5
    have hs1 : s1.Inv := h.setCtx
    have hs2 : s2.Inv := hs1.foldl fun _ _ h => h.queueError
    have hs3 : s3.Inv := hs2.foldl fun _ _ h => h.stopTeam
    have hs4 : s4.Inv := hs3.stopCopies.endTasks
    have hs5 : s5.Inv := hs4.dropHold.foldl fun _ _ h => h.retireReady
    split
    · exact h
    · split
      · exact .ite hs5.finishReset hs5
      · exact hs5

theorem State.Inv.loseContext {s : State} {n} (h : s.Inv) : (Machine.loseContext s n).Inv := by
  unfold Machine.loseContext
  extract_lets s1 s2 x
  have hs1 : s1.Inv := h.foldl fun _ _ h => h.queueError
  have hs2 : s2.Inv := hs1.endTasks.dropHold
  split
  · exact hs2
  · exact hs2.setCtx.logCtx

theorem State.Inv.startDrain {s : State} {n reason} (h : s.Inv) : (Machine.startDrain s n reason).Inv := by
  unfold Machine.startDrain
  split
  · exact h
  · extract_lets limit again s1
    have hs1 : s1.Inv := h.setCtx
    refine hs1.foldl fun s a h => ?_
    split
    · exact h.stopFlush
    · exact h

theorem State.Inv.execContextAdmit {s : State} (h : s.Inv) : NextInv (Machine.execContextAdmit s) := by
  unfold Machine.execContextAdmit
  split
  · exact h
  · split
    · exact h
    · split
      · exact h.setCtx
      · split
        · exact .ite h.startDrain h
        · exact h

theorem State.Inv.leaveSet {s : State} {ctx c} (h : s.Inv) : (Machine.leaveSet s ctx c).Inv := h.setCtx

theorem State.Inv.execSliceExpiry {s : State} {ctx} (h : s.Inv) : NextInv (Machine.execSliceExpiry ctx s) := by
  unfold Machine.execSliceExpiry
  split
  · exact h
  · split
    · exact h
    · split
      · exact h.leaveSet
      · split
        · exact h.startDrain
        · exact h.setCtx

theorem State.Inv.execStallExpiry {s : State} {ctx} (h : s.Inv) : NextInv (Machine.execStallExpiry ctx s) := by
  unfold Machine.execStallExpiry
  split
  · exact h
  · exact .ite h h.startDrain

theorem State.Inv.execDeadlineExpiry {s : State} {ctx} (h : s.Inv) : NextInv (Machine.execDeadlineExpiry ctx s) := by
  unfold Machine.execDeadlineExpiry
  split
  · exact h
  · exact .ite h h.forceReset

theorem State.Inv.execDrainEnd {s : State} {ctx} (h : s.Inv) : NextInv (Machine.execDrainEnd ctx s) := by
  unfold Machine.execDrainEnd
  extract_lets layout x
  split
  · exact h
  · extract_lets again reason s1
    have hs1 : s1.Inv := by
      unfold s1
      split
      · rename_i t e
        have ht : t.Inv := h.agentWrite e
        exact ht
      · exact h.logCtx
    split
    · exact h
    · split
      · exact h.leaveSet
      · split
        · exact hs1
        · extract_lets s2
          have hs2 : s2.Inv := hs1.setCtx.bump
          exact .ite hs2.forceReset hs2

theorem State.Inv.execContextFatalError {s : State} {slot} (h : s.Inv) : NextInv (Machine.execContextFatalError slot s) := by
  unfold Machine.execContextFatalError
  split
  · exact h
  · exact h.forceReset

/-! ### The invariant of memory: tasks: acceptance and edges -/

theorem State.Inv.recordCorrect {s : State} {ctx addr bs} (h : s.Inv) : (Machine.recordCorrect s ctx addr bs).Inv := by
  unfold Machine.recordCorrect
  extract_lets s1
  have hs1 : s1.Inv := h.agentCorrect
  exact .ite hs1 hs1.agentCorrect

theorem State.Inv.accept {s : State} {q slot ctx r} (h : s.Inv) : (Machine.accept s q slot ctx r).Inv := by
  unfold Machine.accept
  extract_lets s1 s2 x s3 s4
  have hs1 : s1.Inv := h.recordWrite
  have hs2 : s2.Inv := hs1.recordWrite
  have hx : x.Inv := hs2.setTask
  have hs3 : s3.Inv := hx.upd
  have hs4 : s4.Inv := hs3.noteProgress
  exact hs4.upd

theorem State.Inv.execTaskAccept {s : State} {q} (h : s.Inv) : NextInv (Machine.execTaskAccept q s) := by
  unfold Machine.execTaskAccept
  split
  · exact h
  · extract_lets held
    split
    · split
      · exact h
      · split
        · exact h.queueError
        · extract_lets s1 r
          have hs1 : s1.Inv := h.recordCorrect
          split
          · exact hs1.accept.packetDone
          · extract_lets s2
            have hs2 : s2.Inv := hs1.recordWrite
            exact hs2.doneSignal.packetDone
    · exact h

theorem State.Inv.execDependenceRead {s : State} {slot dep} (h : s.Inv) : NextInv (Machine.execDependenceRead slot dep s) := by
  unfold Machine.execDependenceRead
  split
  · exact h
  · split
    · exact h
    · extract_lets s1
      have hs1 : s1.Inv := h.agentCorrect
      split
      · exact h
      · split
        · exact h.endWithoutEdges
        · exact .ite hs1.endWithoutEdges (.ite hs1.setTask hs1)

theorem State.Inv.execStartEdge {s : State} {slot} (h : s.Inv) : NextInv (Machine.execStartEdge slot s) := by
  unfold Machine.execStartEdge
  split
  · exact h
  · extract_lets follows x s1
    have hx : x.Inv := h.setTask
    have hs1 : s1.Inv := hx.upd
    split
    · exact h
    · exact hs1.traceTask

theorem State.Inv.writeBackOwned {s : State} {a b} (h : s.Inv) : (Machine.writeBackOwned s a b).Inv := by
  unfold Machine.writeBackOwned
  extract_lets mine out s1 l1 s2
  have h1 : s1.Inv := h.foldl fun _ _ h => h.portCross
  have h2 : s2.Inv := ⟨writeDirtyAll_wf _ _ h1.mem, l1Ok_clean mine h1.lines, h1.images⟩
  exact .ite h2 h2.noteProgress

theorem State.Inv.flushAct {s : State} {a g line} (h : s.Inv) : (Machine.flushAct s a g line).Inv := by
  unfold Machine.flushAct
  extract_lets va
  split
  · extract_lets s1
    have hs1 : s1.Inv := .ite h.writeBackOwned h
    split
    · exact hs1
    · split
      · exact hs1.putDieLine
      · exact hs1.putDieLine
      · exact hs1.putDieLine.putDieLine
  · exact h

theorem State.Inv.execFlushLine {s : State} {slot} (h : s.Inv) : NextInv (Machine.execFlushLine slot s) := by
  unfold Machine.execFlushLine
  split
  · exact h
  · split
    · split
      · exact h
      · split
        · exact h.flushDone
        · split
          · exact h
          · extract_lets s1
            have hs1 : s1.Inv := h.flushAct
            split
            · exact hs1.flushDone
            · exact hs1.setTask
    · exact h

theorem State.Inv.logMismatch {s : State} {slot b} (h : s.Inv) : (Machine.logMismatch s slot b).Inv := by
  unfold Machine.logMismatch
  extract_lets e
  exact h.bump.logCtx

theorem State.Inv.rerunTask {s : State} {slot b} (h : s.Inv) : (Machine.rerunTask s slot b).Inv := h.logMismatch.setTask

theorem State.Inv.writeDigref {s : State} {slot b} (h : s.Inv) : (Machine.writeDigref s slot b).Inv := by
  unfold Machine.writeDigref
  extract_lets s1
  have hs1 : s1.Inv := h.recordWrite
  exact .ite hs1 hs1.recordWrite

theorem State.Inv.taskEnd {s : State} {slot estat c} (h : s.Inv) : (Machine.taskEnd s slot estat c).Inv := by
  unfold Machine.taskEnd
  split
  · exact h
  · exact h.telOffer

theorem State.Inv.noteEnded {s : State} {a} (h : s.Inv) : (Machine.noteEnded s a).Inv := by
  unfold Machine.noteEnded
  extract_lets place
  exact h.upd

theorem State.Inv.release {s : State} {a b} (h : s.Inv) : (Machine.release s a b).Inv := by
  unfold Machine.release
  extract_lets o s1 s2 w s3 s4 s5 s6
  have h3 : s3.Inv := (h.upd.performReleased _).recordWrite
  have h4 : s4.Inv := .ite h3.recordWrite h3
  have h6 : s6.Inv := h4.taskEnd.traceTask.noteEnded.doneSignal
  exact h6.noteProgress.settleCtx

theorem State.Inv.execEndEdgeFinish {s : State} {slot} (h : s.Inv) : NextInv (Machine.execEndEdgeFinish slot s) := by
  unfold Machine.execEndEdgeFinish
  extract_lets s1
  have hs1 : s1.Inv := h.dropLines _
  split
  · exact h
  · split
    · exact h
    · split
      · split
        · exact hs1.writeDigref.bump.release
        · split
          · exact hs1.writeDigref.release
          · split
            · exact hs1.release
            · split
              · exact hs1.logMismatch.release
              · exact hs1.rerunTask
      · exact hs1.release

/-! ### The invariant of memory: commands -/

theorem State.Inv.accepted {s : State} (h : s.Inv) : NextInv (Machine.accepted s) := h.answer

theorem State.Inv.refusedWith {s : State} {why} (h : s.Inv) : NextInv (Machine.refusedWith s why) := h.answer

theorem State.Inv.command {s : State} {n f} (h : s.Inv) (hf : ∀ x, NextInv (f x)) : NextInv (Machine.command s n f) := by
  unfold Machine.command
  split
  · exact h.refusedWith
  · split
    · exact h.refusedWith
    · exact hf _

theorem State.Inv.anyCommand {s : State} {n f} (h : s.Inv) (hf : ∀ x, NextInv (f x)) : NextInv (Machine.anyCommand s n f) := by
  unfold Machine.anyCommand
  split
  · exact h.refusedWith
  · exact hf _

theorem State.Inv.ctxCommand {s : State} {n c f} (h : s.Inv) (hf : ∀ x, NextInv (f x)) : NextInv (Machine.ctxCommand s n c f) := by
  refine h.command fun x => ?_
  split
  · exact hf _
  · exact h.refusedWith

theorem State.Inv.setRing {s : State} {ctx header kind die} (h : s.Inv) : (Machine.setRing s ctx header kind die).2.Inv := by
  unfold Machine.setRing
  extract_lets r bad
  have hbad : bad.2.Inv := h.ringFault
  split
  · exact hbad
  · extract_lets n
    split
    · exact hbad
    · split
      · exact hbad
      · rename_i t e
        have ht : t.Inv := h.agentWrite e
        split
        · exact ht.ringFault
        · rename_i t1 e1
          have ht1 : t1.Inv := ht.agentWrite e1
          exact ht1

theorem State.Inv.setErrRing {s : State} {ctx header} (h : s.Inv) : (Machine.setErrRing s ctx header).Inv := by
  unfold Machine.setErrRing
  extract_lets r x
  have hr : r.2.Inv := h.setRing
  have hx : x.Inv := hr
  exact hx.upd

theorem State.Inv.execCtxset {s : State} {session ctx fields} (h : s.Inv) : NextInv (Machine.execCtxset session ctx fields s) := by
  unfold Machine.execCtxset
  extract_lets s1
  have hs1 : s1.Inv := h.upd
  refine h.command fun x => ?_
  split
  · exact h.refusedWith
  · extract_lets x1 c
    split
    · exact h.refusedWith
    · split
      · exact h.refusedWith
      · split
        · exact hs1.upd.setCtx.setErrRing.accepted
        · extract_lets s2
          have hs2 : s2.Inv := h.setCtx
          split
          · exact h.refusedWith
          · exact (State.Inv.ite hs2 hs2.setErrRing).accepted

theorem State.Inv.execCtxreset {s : State} {session ctx} (h : s.Inv) : NextInv (Machine.execCtxreset session ctx s) := by
  unfold Machine.execCtxreset
  refine h.ctxCommand fun x => ?_
  split
  · exact h.refusedWith
  · exact h.forceReset.accepted

theorem State.Inv.execCtxclear {s : State} {session ctx} (h : s.Inv) : NextInv (Machine.execCtxclear session ctx s) := by
  unfold Machine.execCtxclear
  refine h.ctxCommand fun x => ?_
  split
  · exact h.refusedWith
  · split
    · exact h.refusedWith
    · exact h.upd.accepted

theorem State.Inv.execCtxquery {s : State} {session ctx} (h : s.Inv) : NextInv (Machine.execCtxquery session ctx s) := by
  unfold Machine.execCtxquery
  refine h.command fun x => ?_
  exact h.answer

theorem State.Inv.execQmap {s : State} {session q ctx p} (h : s.Inv) : NextInv (Machine.execQmap session q ctx p s) := by
  unfold Machine.execQmap
  refine h.ctxCommand fun x => ?_
  split
  · exact h.refusedWith
  · split
    · exact h.refusedWith
    · split
      · exact h.refusedWith
      · split
        · exact h.refusedWith
        · exact h.setQueue.accepted

theorem State.Inv.execQunmap {s : State} {session q} (h : s.Inv) : NextInv (Machine.execQunmap session q s) := by
  unfold Machine.execQunmap
  refine h.command fun x => ?_
  split
  · exact h.refusedWith
  · extract_lets now
    split
    · exact h.refusedWith
    · exact (State.Inv.ite h.upd h.setQueue).accepted

theorem State.Inv.execQresume {s : State} {session q skip} (h : s.Inv) : NextInv (Machine.execQresume session q skip s) := by
  unfold Machine.execQresume
  refine h.command fun x => ?_
  split
  · exact h.refusedWith
  · extract_lets s1
    have hs1 : s1.Inv := h.setQueue
    split
    · exact h.refusedWith
    · split
      · exact (State.Inv.ite hs1.packetDone hs1).accepted
      · exact h.refusedWith

theorem State.Inv.execKeyset {s : State} {session key entry} (h : s.Inv) : NextInv (Machine.execKeyset session key entry s) := by
  unfold Machine.execKeyset
  extract_lets old
  refine h.command fun x => ?_
  split
  · exact h.refusedWith
  · split
    · exact h.upd.accepted
    · split
      · exact h.refusedWith
      · split
        · exact h.refusedWith
        · split
          · exact h.refusedWith
          · exact h.upd.accepted

theorem State.Inv.execWinset {s : State} {session window entry} (h : s.Inv) : NextInv (Machine.execWinset session window entry s) := by
  unfold Machine.execWinset
  refine h.command fun x => ?_
  extract_lets named
  split
  · exact h.refusedWith
  · split
    · exact h.refusedWith
    · split
      · exact h.upd.accepted
      · split
        · exact h.refusedWith
        · split
          · exact h.refusedWith
          · exact h.upd.accepted

theorem State.Inv.execSecset {s : State} {session ranges cores} (h : s.Inv) : NextInv (Machine.execSecset session ranges cores s) := by
  unfold Machine.execSecset
  extract_lets moved
  refine h.command fun x => ?_
  split
  · exact h.refusedWith
  · split
    · exact h.refusedWith
    · split
      · exact h.refusedWith
      · exact h.upd.accepted

theorem State.Inv.execTelset {s : State} {session k ctx ring mods} (h : s.Inv) : NextInv (Machine.execTelset session k ctx ring mods s) :=
    by
  unfold Machine.execTelset
  extract_lets r s1
  have hr : r.2.Inv := h.setRing
  have hs1 : s1.Inv := hr
  refine h.ctxCommand fun x => ?_
  split
  · exact h.refusedWith
  · split
    · exact h.refusedWith
    · split
      · exact h.refusedWith
      · exact hs1.upd.accepted

theorem State.Inv.traceReady {s : State} {ctx die} (h : s.Inv) : (Machine.traceReady s ctx die).Inv := by
  unfold Machine.traceReady
  extract_lets s1
  have hs1 : s1.Inv := h.flushEarly
  exact hs1.upd

theorem State.Inv.execTraceset {s : State} {session ctx die ring en iv} (h : s.Inv) : NextInv (Machine.execTraceset session ctx die ring
    en iv s) := by
  unfold Machine.execTraceset
  extract_lets r x s1
  have hr : r.2.Inv := h.traceReady.setRing
  have hx : x.Inv := hr
  have hs1 : s1.Inv := hx.upd
  refine h.ctxCommand fun x => ?_
  split
  · exact h.refusedWith
  · split
    · exact h.refusedWith
    · exact hs1.traceTime.accepted

theorem State.Inv.execTelemetryLatch {s : State} {energy tempMax} (h : s.Inv) : NextInv (Machine.execTelemetryLatch energy tempMax s) := by
  unfold Machine.execTelemetryLatch
  split
  · exact h.upd
  · exact h

theorem State.Inv.offerNext {s : State} (h : s.Inv) : (Machine.offerNext s).Inv := by
  unfold Machine.offerNext
  split
  · exact h
  · exact h.upd.telOffer

theorem State.Inv.latchTick {s : State} (h : s.Inv) : (Machine.latchTick s).Inv := by
  unfold Machine.latchTick
  extract_lets left
  split
  · exact h
  · exact .ite h (h.upd.foldl fun _ _ h => h.telDrop)

theorem State.Inv.dropSample {s : State} {core ctx} (h : s.Inv) : (Machine.dropSample s core ctx).Inv := .ite h.upd h

theorem State.Inv.putSample {s : State} {core ctx r} (h : s.Inv) : (Machine.putSample s core ctx r).Inv := h.upd.trace

theorem State.Inv.sampleCore {s : State} {core ctx} (h : s.Inv) : (Machine.sampleCore s core ctx).Inv := by
  unfold Machine.sampleCore
  extract_lets s1
  have hs1 : s1.Inv := h.dropSample
  split
  · exact h
  · split
    · exact h
    · split
      · exact hs1
      · split
        · exact hs1
        · exact hs1.putSample

theorem State.Inv.sampleAll {s : State} (h : s.Inv) : (Machine.sampleAll s).Inv := h.foldl fun _ _ h => h.foldl fun _ _ h => h.sampleCore

theorem State.Inv.passTick (n : Nat) {s : State} (h : s.Inv) : (Machine.passTick n s).Inv := by
  induction n generalizing s with
  | zero => exact h
  | succ n ih => exact ih h.sampleAll.flushTraces.upd.latchTick

theorem State.Inv.refill {s : State} {core} (h : s.Inv) : (Machine.refill s core).Inv := by
  unfold Machine.refill
  extract_lets share
  exact h.upd

theorem State.Inv.execBucketRefill {s : State} {core} (h : s.Inv) : NextInv (Machine.execBucketRefill core s) := .ite h.refill h

/-! ### The invariant of memory: the debug agent and dumps -/

theorem State.Inv.setAgent {s : State} {ctx d} (h : s.Inv) : (Machine.setAgent s ctx d).Inv := by
  unfold Machine.setAgent
  split
  · exact h.setCtx
  · exact h.upd

theorem State.Inv.execDbgattach {s : State} {session ctx} (h : s.Inv) : NextInv (Machine.execDbgattach session ctx s) := by
  unfold Machine.execDbgattach
  refine h.ctxCommand fun x => ?_
  split
  · exact h.refusedWith
  · split
    · exact h.refusedWith
    · exact h.setAgent.accepted

theorem State.Inv.releaseAll {s : State} {ctx} (h : s.Inv) : (Machine.releaseAll s ctx).Inv := h.upd

theorem State.Inv.execDbgdetach {s : State} {session ctx} (h : s.Inv) : NextInv (Machine.execDbgdetach session ctx s) := by
  unfold Machine.execDbgdetach
  refine h.ctxCommand fun x => ?_
  split
  · exact h.setAgent.releaseAll.dumpRelease.accepted
  · exact h.refusedWith

theorem State.Inv.execDbgset {s : State} {session ctx item value} (h : s.Inv) : NextInv (Machine.execDbgset session ctx item value s) := by
  unfold Machine.execDbgset
  refine h.ctxCommand fun x => ?_
  split
  · exact h.refusedWith
  · split
    · exact h.refusedWith
    · split
      · exact h.refusedWith
      · exact h.setAgent.accepted

theorem State.Inv.execGstate {s : State} {session ctx ref item} (h : s.Inv) : NextInv (Machine.execGstate session ctx ref item s) := by
  unfold Machine.execGstate
  refine h.ctxCommand fun x => ?_
  split
  · exact h.refusedWith
  · split
    · exact h.answer
    · exact h.refusedWith

theorem State.Inv.execGset {s : State} {session ctx ref item value} (h : s.Inv) : NextInv (Machine.execGset session ctx ref item value s)
    := by
  unfold Machine.execGset
  refine h.ctxCommand fun x => ?_
  split
  · exact h.refusedWith
  · split
    · exact h.setGang.accepted
    · exact h.refusedWith

theorem State.Inv.execGrelease {s : State} {session ctx ref step} (h : s.Inv) : NextInv (Machine.execGrelease session ctx ref step s) := by
  unfold Machine.execGrelease
  refine h.ctxCommand fun x => ?_
  split
  · exact h.refusedWith
  · exact h.setGang.dumpRelease.accepted

theorem State.Inv.beginDump {s : State} {ctx d} (h : s.Inv) : (Machine.beginDump s ctx d).Inv := by
  unfold Machine.beginDump
  extract_lets until_
  split
  · exact h.upd
  · exact h.upd

theorem State.Inv.execDump {s : State} {session ctx area hold} (h : s.Inv) : NextInv (Machine.execDump session ctx area hold s) := by
  unfold Machine.execDump
  refine h.ctxCommand fun x => ?_
  split
  · exact h.refusedWith
  · extract_lets ok
    split
    · exact h.refusedWith
    · exact h.beginDump.accepted

theorem State.Inv.tryWrite {s : State} {ctx va bs} (h : s.Inv) : (Machine.tryWrite s ctx va bs).Inv := by
  unfold Machine.tryWrite
  split
  · rename_i t e
    have ht : t.Inv := h.agentWrite e
    exact ht
  · exact h

theorem State.Inv.writeDump {s : State} {ctx d} (h : s.Inv) : (Machine.writeDump s ctx d).Inv := by
  unfold Machine.writeDump
  extract_lets recs area room s1
  have hs1 : s1.Inv := h.tryWrite
  exact hs1.tryWrite

theorem State.Inv.endDump {s : State} {ctx d} (h : s.Inv) : (Machine.endDump s ctx d).Inv := by
  unfold Machine.endDump
  extract_lets s1 kept
  have hs1 : s1.Inv := h.writeDump
  exact .ite hs1.upd hs1.endHold

theorem State.Inv.execDumpDieCut {s : State} {a b} (h : s.Inv) : NextInv (Machine.execDumpDieCut a b s) := by
  unfold Machine.execDumpDieCut
  split
  · exact h
  · extract_lets put stopped cut d1 d2
    have hp : ∀ d, (put d).Inv := fun _ => h.upd
    split
    · exact h
    · split
      · exact hp _
      · split
        · exact h
        · exact State.Inv.ite (hp _).endDump (hp _)

theorem State.Inv.execLogread {s : State} {session n} (h : s.Inv) : NextInv (Machine.execLogread session n s) := by
  unfold Machine.execLogread
  extract_lets first
  refine h.anyCommand fun x => ?_
  exact h.answer

theorem l1Ok_nil : l1Ok [] := ⟨fun _ hl => absurd hl List.not_mem_nil, List.Pairwise.nil⟩

/-! ### The invariant of memory: resets, sessions and activation -/

theorem State.Inv.resetKeep {s : State} {a} (h : s.Inv) : (Machine.resetKeep s a).Inv := by
  obtain ⟨hi, hr, -⟩ := h.images
  exact ⟨KMap.filter_wf _ h.mem, l1Ok_nil, hi, hr, fun _ e => nomatch e⟩

theorem State.Inv.moduleReset {s : State} (h : s.Inv) : (Machine.moduleReset s).Inv := by
  unfold Machine.moduleReset
  extract_lets fw s' copy1
  have hs' : s'.Inv := h.resetKeep
  exact .ite hs' hs'.upd

theorem State.Inv.execPowerLoss {s : State} (h : s.Inv) : NextInv (Machine.execPowerLoss s) := by
  unfold Machine.execPowerLoss
  extract_lets src fw s1
  have h1 : s1.Inv := h.resetKeep
  obtain ⟨-, hr, hc⟩ := h1.images
  exact (h1.withMem [] rfl).withImages (fun _ e => nomatch e) hr hc

theorem State.Inv.execSessionOpen {s : State} {session ownerKey challengeSig hello} (h : s.Inv) : NextInv (Machine.execSessionOpen session
    ownerKey challengeSig hello s) := by
  unfold Machine.execSessionOpen
  extract_lets c d s1
  have hs1 : s1.Inv := h.upd
  split
  · exact hs1.refusedWith
  · split
    · exact hs1.upd.answer
    · exact hs1.refusedWith

theorem State.Inv.secureCommand {s : State} {n o} (h : s.Inv) (ho : NextInv o) : NextInv (Machine.secureCommand s n o) := by
  refine h.command fun x => ?_
  split
  · exact ho
  · exact h.refusedWith

theorem State.Inv.execSlotwrite {s : State} {session slotB offset bytes} (h : s.Inv) : NextInv (Machine.execSlotwrite session slotB offset
    bytes s) := by
  unfold Machine.execSlotwrite
  extract_lets b x fw
  refine h.anyCommand fun x => ?_
  split
  · exact h.refusedWith
  · split
    · exact h.refusedWith
    · split
      · exact h.refusedWith
      · exact h.upd.accepted

theorem State.Inv.execCommit {s : State} {session} (h : s.Inv) : NextInv (Machine.execCommit session s) := by
  unfold Machine.execCommit
  extract_lets v x
  refine h.secureCommand ?_
  split
  · exact h.refusedWith
  · exact h.upd.accepted

theorem State.Inv.execReset {s : State} {session} (h : s.Inv) : NextInv (Machine.execReset session s) := by
  unfold Machine.execReset
  refine h.anyCommand fun x => ?_
  split
  · exact h.answer.moduleReset
  · exact h.refusedWith

theorem State.Inv.execCfgwrite {s : State} {session copy1 bytes} (h : s.Inv) : NextInv (Machine.execCfgwrite session copy1 bytes s) := by
  unfold Machine.execCfgwrite
  extract_lets b x
  refine h.secureCommand ?_
  split
  · exact h.refusedWith
  · split
    · exact h.refusedWith
    · exact h.upd.accepted

theorem State.Inv.execIdent {s : State} {session} (h : s.Inv) : NextInv (Machine.execIdent session s) := by
  unfold Machine.execIdent
  refine h.anyCommand fun x => ?_
  exact h.answer

theorem State.Inv.execStatus {s : State} {session} (h : s.Inv) : NextInv (Machine.execStatus session s) := by
  unfold Machine.execStatus
  extract_lets b nrsv t
  refine h.anyCommand fun x => ?_
  exact h.answer

theorem State.Inv.execAttest {s : State} {session nonce} (h : s.Inv) : NextInv (Machine.execAttest session nonce s) := by
  unfold Machine.execAttest
  extract_lets r
  refine h.command fun x => ?_
  split
  · exact h.refusedWith
  · exact h.answer

theorem State.Inv.drainAll {s : State} (h : s.Inv) : (Machine.drainAll s).Inv := h.foldl fun _ _ h => h.startDrain

theorem State.Inv.execActivate {s : State} {session slotB force} (h : s.Inv) : NextInv (Machine.execActivate session slotB force s) := by
  unfold Machine.execActivate
  extract_lets bad x s1
  have hs1 : s1.Inv := h.upd
  refine h.secureCommand ?_
  split
  · exact h.refusedWith
  · split
    · exact h.refusedWith
    · split
      · exact h.answer
      · exact hs1.drainAll.accepted

theorem State.Inv.execActivateSwitch {s : State} (h : s.Inv) : NextInv (Machine.execActivateSwitch s) := by
  unfold Machine.execActivateSwitch
  split
  · exact h
  · split
    · exact h
    · extract_lets layouts s1 image
      have h1 : s1.Inv := .ite (h.foldl fun _ _ h => h.loseContext) h
      obtain ⟨hi, hr, hc⟩ := h1.images
      refine h1.withImages (fun i e => ?_) hr hc
      obtain ⟨j, hj, rfl⟩ := Option.map_eq_some_iff.1 e
      split <;> exact hi j hj

theorem State.Inv.mxTurn {s : State} (h : s.Inv) : (Machine.mxTurn s).Inv := by
  unfold Machine.mxTurn
  extract_lets s1 s2
  have hs1 : s1.Inv := by
    unfold s1
    refine h.foldl fun s a h => ?_
    refine h.leftBy ?_
    exact h.execMxopRun
  have hs2 : s2.Inv := by
    unfold s2
    refine hs1.foldl fun s a h => ?_
    refine h.foldl fun s a h => ?_
    refine h.leftBy ?_
    exact h.execWalkComplete
  refine hs2.foldl fun s a h => ?_
  refine h.foldl fun s a h => ?_
  extract_lets s3
  have hs3 : s3.Inv := by
    unfold s3
    refine h.leftBy ?_
    exact h.execPageReclassify
  refine hs3.leftBy ?_
  exact hs3.execReadonlyToShared

theorem State.Inv.mxTurns (n : Nat) {s : State} (h : s.Inv) : (Machine.mxTurns n s).Inv := by
  induction n generalizing s with
  | zero => exact h
  | succ n ih =>
    unfold Machine.mxTurns
    split
    · exact h
    · exact ih h.mxTurn

/-! ### The invariant of memory: checkpoints -/

theorem State.Inv.ckptCut {s : State} (h : s.Inv) : (Machine.ckptCut s).Inv := by
  unfold Machine.ckptCut
  extract_lets s1 s2
  have hs1 : s1.Inv := by
    unfold s1
    refine h.foldl fun s a h => ?_
    split
    · exact .ite h h.finishLate.completeUnclass
    · exact h
  have hs2 : s2.Inv := by
    unfold s2
    refine hs1.foldl fun s a h => ?_
    refine h.foldl fun s a h => ?_
    split
    · refine h.leftBy ?_
      exact h.execEngineElement
    · exact h
  exact hs2.mxTurns _

theorem State.Inv.collect {s : State} (h : s.Inv) : (Machine.collect s).Inv := by
  unfold Machine.collect
  extract_lets x
  have hx : x.Inv := h.dropLines _
  exact hx.upd

/-- The near memory of an image is in its form (R448). -/
theorem imageOf_wf {s : State} {t : Nat} (h : s.memOk = true) : Memory.wf (imageOf s t).near = true :=
  KMap.filter_wf _ h

theorem State.Inv.ckptMarks {s : State} (h : s.Inv) : (Machine.ckptMarks s).Inv := by
  unfold Machine.ckptMarks
  refine h.foldl fun s a h => ?_
  refine h.traceAll fun s c h => ?_
  exact h.trace

theorem State.Inv.execCkptLocal {s : State} {a} (h : s.Inv) : NextInv (Machine.execCkptLocal a s) := by
  refine h.secureCommand ?_
  split
  · exact h.refusedWith
  · extract_lets s1
    have h1 : s1.Inv := h.ckptMarks.ckptCut.collect
    obtain ⟨-, hr, hc⟩ := h1.images
    refine State.Inv.accepted (h1.withImages (fun i e => ?_) hr hc)
    rw [← Option.some.inj e]
    exact imageOf_wf h1.mem

theorem State.Inv.sendChunk {s : State} (h : s.Inv) : (Machine.sendChunk s).Inv := by
  unfold Machine.sendChunk
  split
  · exact h
  · exact h.foldl fun _ _ h => h.answer

theorem State.Inv.execCkptRemote {s : State} {a b} (h : s.Inv) : NextInv (Machine.execCkptRemote a b s) := by
  refine h.secureCommand ?_
  split
  · exact h.refusedWith
  · split
    · exact h.refusedWith
    · extract_lets s1 image
      have h1 : s1.Inv := h.ckptMarks.ckptCut.collect
      obtain ⟨-, hr, -⟩ := h1.images
      refine State.Inv.accepted (State.Inv.sendChunk (h1.withImages (fun i e => ?_) (fun r hm => hr r (List.mem_filter.1 hm).1) fun r e =>
        ?_))
      · rw [← Option.some.inj e]
        exact imageOf_wf h1.mem
      · rw [← Option.some.inj e]
        exact KMap.filter_wf _ h1.mem

theorem State.Inv.ckptResume {s : State} {a b} (h : s.Inv) : (Machine.ckptResume s a b).Inv := by
  obtain ⟨hi, hr, -⟩ := h.images
  exact State.Inv.foldl (h.withImages hi hr fun _ e => nomatch e) fun _ _ h => h.netRequest

theorem State.Inv.linkEntry {s : State} {info die} (h : s.Inv) : (Machine.linkEntry s info die).Inv := h.logModule

theorem State.Inv.ckptAbandon {s : State} {r port} (h : s.Inv) : (Machine.ckptAbandon s r port).Inv := h.linkEntry.ckptResume

theorem State.Inv.failPeer {s : State} {id} (h : s.Inv) : (Machine.failPeer s id).Inv := by
  unfold Machine.failPeer
  extract_lets s1
  have hs1 : s1.Inv := h.upd
  split
  · exact h
  · split
    · split
      · exact hs1.peerGang.retireReady
      · exact hs1
    · exact hs1.peerEngine
    · exact hs1

theorem State.Inv.loadCkpt {s : State} {i far p} (h : s.Inv) (hn : Memory.wf i.near = true) (hf : Memory.wf far = true) :
    (Machine.loadCkpt s i far p).Inv := by
  unfold Machine.loadCkpt
  extract_lets n s1 src gap s2 s3 s4
  have h1 : s1.Inv := ⟨joined_wf _ _ hn hf, l1Ok_nil, h.images⟩
  have h2 : s2.Inv := h1.foldl fun _ _ h => h.dieRecord
  have h3 : s3.Inv := h2.foldl fun _ _ h => h.failPeer
  have h4 : s4.Inv := h3.foldl fun _ _ h => h.netRequest
  exact .ite h4.drainAll h4

theorem State.Inv.execCkrestoreLocal {s : State} {a} (h : s.Inv) : NextInv (Machine.execCkrestoreLocal a s) := by
  obtain ⟨hi, -, -⟩ := h.images
  refine h.secureCommand ?_
  split
  · exact h.refusedWith
  · next i e =>
    split
    · exact h.refusedWith
    · exact State.Inv.accepted (h.loadCkpt (hi i e) (KMap.filter_wf _ h.mem))

theorem State.Inv.execCkrestoreRemote {s : State} {a b} (h : s.Inv) : NextInv (Machine.execCkrestoreRemote a b s) := by
  obtain ⟨hi, hr, -⟩ := h.images
  refine h.secureCommand ?_
  split
  · exact h.refusedWith
  · split
    · exact h.refusedWith
    · split
      · exact h.refusedWith
      · refine State.Inv.accepted (State.Inv.sendChunk (h.withImages hi hr fun r e => ?_))
        rw [← Option.some.inj e]
        rfl

theorem State.Inv.ckptEnd {s : State} {r} (h : s.Inv) (hf : Memory.wf r.far = true) : (Machine.ckptEnd s r).Inv := by
  obtain ⟨hi, hr, hc⟩ := h.images
  unfold Machine.ckptEnd
  split
  · split
    · next m hm =>
      obtain ⟨hn, hm⟩ := hr m (List.mem_of_find?_eq_some hm)
      split
      · have h1 : (Machine.ckptResume s r 2).Inv := h.ckptResume
        obtain ⟨-, hr, hc⟩ := h1.images
        refine State.Inv.loadCkpt (h1.withImages (fun i e => ?_) hr hc) hn hm
        rw [← Option.some.inj e]
        exact hn
      · exact h.ckptResume
    · exact h.ckptResume
  · extract_lets image
    have him : ∀ i, image = some i → Memory.wf i.near = true := fun i e => by
      obtain ⟨j, hj, rfl⟩ := Option.map_eq_some_iff.1 e
      exact hi j hj
    refine State.Inv.ckptResume (h.withImages him (fun m hm => ?_) hc)
    rcases List.mem_append.1 hm with hm | hm
    · exact hr m hm
    · obtain ⟨i, e, rfl⟩ := Option.map_eq_some_iff.1 (Option.mem_toList.1 hm)
      exact ⟨him i e, hf⟩

theorem State.Inv.execCkptChunkResponse {s : State} {a} (h : s.Inv) : NextInv (Machine.execCkptChunkResponse a s) := by
  unfold Machine.execCkptChunkResponse
  split
  · exact h
  · next r hs =>
    have hf : Memory.wf r.far = true := h.images.2.2 r hs
    split
    · exact h.ckptAbandon
    · extract_lets n s1
      have h1 : s1.Inv := .ite h.bump h.bump
      split
      · obtain ⟨hi, hr, -⟩ := h1.images
        refine State.Inv.sendChunk (h1.withImages hi hr fun q e => ?_)
        rw [← Option.some.inj e]
        exact hf
      · exact h1.ckptEnd hf

theorem State.Inv.execQpTransportFailure {s : State} {a} (h : s.Inv) : NextInv (Machine.execQpTransportFailure a s) := by
  unfold Machine.execQpTransportFailure
  extract_lets mine port s1 s2
  have h1 : s1.Inv := by
    unfold s1
    clear_value port
    split
    · exact h.linkEntry
    · exact h
  have h2 : s2.Inv := h1.foldl fun _ _ h => h.failPeer
  split
  · split
    · exact h2.ckptAbandon
    · exact h2
  · exact h2

/-! ### The invariant of memory: branches and direction vectors -/

theorem State.Inv.branchTo {s : State} {link target x} (h : s.Inv) : (Machine.branchTo link target x s).Inv := by
  unfold Machine.branchTo
  split
  · exact h
  · exact .ite h.putD h

theorem State.Inv.execNop {s : State} {f} (h : s.Inv) : NextInv (Machine.execNop f s) := by
  unfold Machine.execNop
  refine h.runIssue fun x s h => ?_
  exact h.ok

theorem State.Inv.execBra {s : State} {f} (h : s.Inv) : NextInv (Machine.execBra f s) := by
  unfold Machine.execBra
  refine h.runIssue fun x s h => ?_
  exact h.branchTo

theorem State.Inv.execBri {s : State} {f} (h : s.Inv) : NextInv (Machine.execBri f s) := by
  unfold Machine.execBri
  refine h.runIssue fun x s h => ?_
  exact h.branchTo

theorem State.Inv.execCall {s : State} {f} (h : s.Inv) : NextInv (Machine.execCall f s) := by
  unfold Machine.execCall
  refine h.runIssue fun x s h => ?_
  exact h.branchTo

theorem State.Inv.execCalli {s : State} {f} (h : s.Inv) : NextInv (Machine.execCalli f s) := by
  unfold Machine.execCalli
  refine h.runIssue fun x s h => ?_
  exact h.branchTo

theorem State.Inv.execRet {s : State} {f} (h : s.Inv) : NextInv (Machine.execRet f s) := by
  unfold Machine.execRet
  refine h.runIssue fun x s h => ?_
  exact h.branchTo

theorem State.Inv.execExit {s : State} {f} (h : s.Inv) : NextInv (Machine.execExit f s) := by
  unfold Machine.execExit
  refine h.runIssue fun x s h => ?_
  exact h

theorem State.Inv.execYield {s : State} {f} (h : s.Inv) : NextInv (Machine.execYield f s) := by
  unfold Machine.execYield
  refine h.runIssue fun x s h => ?_
  exact h.ok

theorem State.Inv.execElect {s : State} {f} (h : s.Inv) : NextInv (Machine.execElect f s) := by
  unfold Machine.execElect
  refine h.runIssue fun x s h => ?_
  exact h.putP.ok

theorem State.Inv.execVote {s : State} {f} (h : s.Inv) : NextInv (Machine.execVote f s) := by
  unfold Machine.execVote
  extract_lets v
  refine h.runIssue fun x s h => ?_
  split
  · exact h.putP.ok
  · exact h.putD.ok

theorem State.Inv.execPset {s : State} {f} (h : s.Inv) : NextInv (Machine.execPset f s) := by
  unfold Machine.execPset
  refine h.runIssue fun x s h => ?_
  exact h.putP.ok

theorem State.Inv.execPmov {s : State} {f} (h : s.Inv) : NextInv (Machine.execPmov f s) := by
  unfold Machine.execPmov
  refine h.runIssue fun x s h => ?_
  split
  · exact h.putP.ok
  · exact h.putD.ok
  · exact h.putD.ok

theorem State.Inv.dirForm {s : State} {i b} (h : s.Inv) : NextInv (Machine.dirForm i s b) := by
  unfold Machine.dirForm
  refine h.runIssue fun x s h => ?_
  extract_lets r
  split
  · exact h.ok
  · split
    · rename_i t e
      have ht : t.Inv := h.fpTrap e
      exact ht
    · exact h.fill.ok

theorem State.Inv.dirLong {s : State} {i b} (h : s.Inv) : NextInv (Machine.dirLong i s b) := by
  unfold Machine.dirLong
  refine h.runIssue fun x s h => ?_
  extract_lets r
  split
  · exact h.ok
  · split
    · rename_i t e
      have ht : t.Inv := h.fpTrap e
      exact ht
    · exact h.fill.ok

theorem State.Inv.dirValue {s : State} {i b} (h : s.Inv) : NextInv (Machine.dirValue i s b) := by
  unfold Machine.dirValue
  refine h.runIssue fun x s h => ?_
  extract_lets r
  split
  · exact h.ok
  · split
    · rename_i t e
      have ht : t.Inv := h.fpTrap e
      exact ht
    · exact h.putD.orStat.ok

theorem State.Inv.execDvflat {s : State} {f} (h : s.Inv) : NextInv (Machine.execDvflat f s) := by
  unfold Machine.execDvflat
  refine h.runIssue fun x s h => ?_
  extract_lets D r fl
  split
  · exact h.ok
  · split
    · rename_i t e
      have ht : t.Inv := h.fpTrap e
      exact ht
    · exact h.mapGang.orStat.ok

/-! ### The invariant of memory: memory forms -/

theorem State.Inv.execLd {s : State} {f} (h : s.Inv) : NextInv (Machine.execLd f s) := by
  unfold Machine.execLd
  refine h.runIssue fun x s h => ?_
  refine h.memForm fun s l h => ?_
  exact h.globalCheck

theorem State.Inv.execSt {s : State} {f} (h : s.Inv) : NextInv (Machine.execSt f s) := by
  unfold Machine.execSt
  refine h.runIssue fun x s h => ?_
  refine h.memForm fun s l h => ?_
  exact h.globalCheck

theorem State.Inv.execLds {s : State} {f} (h : s.Inv) : NextInv (Machine.execLds f s) := by
  unfold Machine.execLds
  refine h.runIssue fun x s h => ?_
  refine h.memForm fun s l h => ?_
  exact h.localCheck

theorem State.Inv.execSts {s : State} {f} (h : s.Inv) : NextInv (Machine.execSts f s) := by
  unfold Machine.execSts
  refine h.runIssue fun x s h => ?_
  refine h.memForm fun s l h => ?_
  exact h.localCheck

theorem State.Inv.execLdx {s : State} {f} (h : s.Inv) : NextInv (Machine.execLdx f s) := by
  unfold Machine.execLdx
  refine h.runIssue fun x s h => ?_
  refine h.memForm fun s l h => ?_
  exact h.localCheck

theorem State.Inv.execStx {s : State} {f} (h : s.Inv) : NextInv (Machine.execStx f s) := by
  unfold Machine.execStx
  refine h.runIssue fun x s h => ?_
  refine h.memForm fun s l h => ?_
  exact h.localCheck

theorem State.Inv.execLdp {s : State} {f} (h : s.Inv) : NextInv (Machine.execLdp f s) := by
  unfold Machine.execLdp
  refine h.runIssue fun x s h => ?_
  refine h.memForm fun s l h => ?_
  exact h.privCheck

theorem State.Inv.execStp {s : State} {f} (h : s.Inv) : NextInv (Machine.execStp f s) := by
  unfold Machine.execStp
  refine h.runIssue fun x s h => ?_
  refine h.memForm fun s l h => ?_
  exact h.privCheck

theorem State.Inv.ldkCheck {s : State} {x l} (h : s.Inv) : (Machine.ldkCheck x s l).Inv := by
  unfold Machine.ldkCheck
  extract_lets va n
  split
  · rename_i t _ t1 e
    have ht1 : t1.Inv := h.xlatPieces.ok e
    split
    · exact ht1
    · split
      · exact ht1
      · split
        · exact ht1
        · split
          · exact ht1
          · exact ht1
  · rename_i t _ _ t1 e
    have ht1 : t1.Inv := h.xlatPieces.fail e
    exact ht1
  · exact h.xlatPieces

theorem State.Inv.execLdk {s : State} {f} (h : s.Inv) : NextInv (Machine.execLdk f s) := by
  unfold Machine.execLdk
  extract_lets n
  refine h.runIssue fun x s h => ?_
  extract_lets va low
  split
  · exact h.ok
  · split
    · rename_i t t1 e
      have ht1 : t1.Inv := State.Inv.snd h.fetchBytes e
      exact ht1
    · rename_i t _ t1 e
      have ht1 : t1.Inv := State.Inv.snd h.fetchBytes e
      extract_lets r
      have hr : r.2.Inv := by
        unfold r
        refine ht1.foldlSnd fun r a h => ?_
        extract_lets q
        have hq : q.2.2.Inv := h.fetchWord32
        exact hq
      split
      · exact ht1
      · split
        · exact ht1
        · split
          · exact ht1
          · exact hr.fill.ok
    · rename_i t _ t1 e
      have ht1 : t1.Inv := State.Inv.snd h.fetchBytes e
      refine ht1.memForm fun s l h => ?_
      exact h.ldkCheck

theorem State.Inv.prefetchPlace {s : State} {a b} (h : s.Inv) : (Machine.prefetchPlace s a b).2.Inv := by
  unfold Machine.prefetchPlace
  extract_lets va found keep
  have hf : found.2.Inv := by
    unfold found
    split
    · exact h
    · exact h.clusterWalk
  clear_value found
  split
  · exact h
  · split
    · split
      · exact State.Inv.tlbPut hf
      · exact h
    · exact h

theorem State.Inv.prefetchLine {s : State} {x l pa leaf} (h : s.Inv) : (Machine.prefetchLine x l pa leaf s).Inv := .ite h.fillAccs
    h.putDieLine

theorem State.Inv.execPfch {s : State} {f} (h : s.Inv) : NextInv (Machine.execPfch f s) := by
  unfold Machine.execPfch
  refine h.runIssue fun x s h => ?_
  refine State.Inv.ok ?_
  refine h.foldl fun s a h => ?_
  split
  · rename_i t _ _ t1 e
    have ht1 : t1.Inv := State.Inv.snd h.prefetchPlace e
    exact ht1.prefetchLine
  · rename_i t t1 e
    have ht1 : t1.Inv := State.Inv.snd h.prefetchPlace e
    exact ht1

theorem State.Inv.stashCheck {s : State} {x g o n} (h : s.Inv) : (Machine.stashCheck s x g o n).Inv := by
  unfold Machine.stashCheck
  extract_lets pages inStash
  split
  · exact h
  · split
    · rename_i t t1 e
      have ht1 : t1.Inv := h.xlatPieces.miss e
      exact ht1
    · rename_i t _ _ t1 e
      have ht1 : t1.Inv := h.xlatPieces.fail e
      exact ht1
    · rename_i t _ t1 e
      have ht1 : t1.Inv := h.xlatPieces.ok e
      extract_lets task ok
      split
      · exact ht1
      · split
        · exact ht1
        · exact ht1

theorem State.Inv.execStash {s : State} {f} (h : s.Inv) : NextInv (Machine.execStash f s) := by
  unfold Machine.execStash
  refine h.runIssue fun x s h => ?_
  extract_lets g o n
  split
  · exact h.ok
  · split
    · rename_i t t1 e
      have ht1 : t1.Inv := h.stashCheck.wait e
      exact ht1
    · rename_i t _ t1 e
      have ht1 : t1.Inv := h.stashCheck.fail e
      exact ht1
    · rename_i t t1 e
      have ht1 : t1.Inv := h.stashCheck.ok e
      split
      · rename_i t2 _ t3 e1
        have ht3 : t3.Inv := ht1.touchPages.wait e1
        exact ht3
      · rename_i t2 _ _ t3 e1
        have ht3 : t3.Inv := ht1.touchPages.go e1
        extract_lets s1
        have hs1 : s1.Inv := by
          unfold s1
          split
          · exact ht3.setTeam
          · exact ht3
        exact (State.Inv.ite hs1.mapGang hs1).ok

theorem State.Inv.execUnstash {s : State} {f} (h : s.Inv) : NextInv (Machine.execUnstash f s) := by
  unfold Machine.execUnstash
  refine h.runIssue fun x s h => ?_
  extract_lets o
  split
  · exact h.ok
  · split
    · exact h.ok
    · split
      · exact h
      · split
        · exact h
        · split
          · rename_i t _ t1 e
            have ht1 : t1.Inv := h.touchPages.wait e
            exact ht1
          · rename_i t _ _ t1 e
            have ht1 : t1.Inv := h.touchPages.go e
            extract_lets s1
            have hs1 : s1.Inv := ht1.stashWriteBack
            split
            · exact hs1.setTeam.ok
            · exact hs1.ok

theorem State.Inv.execAtom {s : State} {f} (h : s.Inv) : NextInv (Machine.execAtom f s) := by
  unfold Machine.execAtom
  refine h.runIssue fun x s h => ?_
  refine h.memForm fun s l h => ?_
  exact h.globalCheck

theorem State.Inv.execAcas {s : State} {f} (h : s.Inv) : NextInv (Machine.execAcas f s) := by
  unfold Machine.execAcas
  refine h.runIssue fun x s h => ?_
  refine h.memForm fun s l h => ?_
  exact h.globalCheck

theorem State.Inv.execAtoms {s : State} {f} (h : s.Inv) : NextInv (Machine.execAtoms f s) := by
  unfold Machine.execAtoms
  refine h.runIssue fun x s h => ?_
  refine h.memForm fun s l h => ?_
  exact h.localCheck

theorem State.Inv.rowCheck {s : State} {a b c d i j} (h : s.Inv) : (Machine.rowCheck a b c d i s j).Inv := by
  unfold Machine.rowCheck
  extract_lets u v B n q misaligned
  refine (h.globalCheck.joinChk fun _ h => h.globalCheck).joinChk fun _ h => ?_
  split
  · exact h
  · exact h

theorem State.Inv.execRowadd {s : State} {f} (h : s.Inv) : NextInv (Machine.execRowadd f s) := by
  unfold Machine.execRowadd
  refine h.runIssue fun x s h => ?_
  extract_lets B
  refine h.memForm fun s l h => ?_
  exact h.rowCheck

theorem State.Inv.execRowld {s : State} {f} (h : s.Inv) : NextInv (Machine.execRowld f s) := by
  unfold Machine.execRowld
  refine h.runIssue fun x s h => ?_
  extract_lets B
  refine h.memForm fun s l h => ?_
  exact h.rowCheck

theorem State.Inv.execDvld {s : State} {f} (h : s.Inv) : NextInv (Machine.execDvld f s) := by
  unfold Machine.execDvld
  refine h.runIssue fun x s h => ?_
  extract_lets D
  refine h.memForm fun s l h => ?_
  exact h.globalCheck

theorem State.Inv.execDvst {s : State} {f} (h : s.Inv) : NextInv (Machine.execDvst f s) := by
  unfold Machine.execDvst
  refine h.runIssue fun x s h => ?_
  extract_lets B data
  refine h.memForm fun s l h => ?_
  exact h.globalCheck

/-! ### The invariant of memory: module events -/

theorem State.Inv.fatal {s : State} {a b} (h : s.Inv) : (Machine.fatal s a b).Inv := by
  unfold Machine.fatal
  extract_lets src s1 s2 src2 s3 s4
  have h1 : s1.Inv := h.logModule
  have h2 : s2.Inv := by
    unfold s2
    split
    · obtain ⟨hi, hr, -⟩ := h1.images
      exact h1.withImages hi hr fun _ e => nomatch e
    · exact h1
  have h4 : s4.Inv := State.Inv.foldl (s := s3) h2.upd fun _ _ h => h.forceReset
  exact h4.upd

theorem State.Inv.execModuleFatal {s : State} {structureCode} (h : s.Inv) : NextInv (Machine.execModuleFatal structureCode s) := .ite h
    h.fatal

theorem State.Inv.execViaductFlitReceive {s : State} {die crcOk} (h : s.Inv) : NextInv (Machine.execViaductFlitReceive die crcOk s) := by
  unfold Machine.execViaductFlitReceive
  split
  · exact h
  · split
    · exact h
    · split
      · exact h.upd.bump
      · exact h.upd.bump

theorem State.Inv.execLinkRetrain {s : State} (h : s.Inv) : NextInv (Machine.execLinkRetrain s) := by
  unfold Machine.execLinkRetrain
  split
  · extract_lets s1
    have hs1 : s1.Inv := h.upd
    split
    · exact h
    · exact hs1.bump.linkEntry
  · exact h

theorem State.Inv.execRetrainComplete {s : State} {ok} (h : s.Inv) : NextInv (Machine.execRetrainComplete ok s) := by
  unfold Machine.execRetrainComplete
  split
  · exact h
  · split
    · exact h.upd
    · split
      · exact h.upd.fatal
      · exact h.upd.bump.linkEntry

theorem State.Inv.arrayPoison {s : State} {core slot scrub code addr} (h : s.Inv) : (Machine.arrayPoison s core slot scrub code addr).Inv
    := by
  unfold Machine.arrayPoison
  extract_lets s1 x e
  have hs1 : s1.Inv := h.bump
  split
  · extract_lets e1
    exact hs1.logModule.logCtx
  · exact hs1.logModule

theorem State.Inv.windowWord {s : State} {r half found mark} (h : s.Inv) : (Machine.windowWord s r half found mark).Inv := by
  unfold Machine.windowWord
  split
  · exact h
  · extract_lets s1
    have hs1 : s1.Inv := h.setGang
    split
    · exact h
    · split
      · exact h
      · exact .ite hs1 hs1.bump
      · exact h.setGang.arrayPoison

theorem State.Inv.scratchWord {s : State} {a b c d i} (h : s.Inv) : (Machine.scratchWord s a b c d i).Inv := by
  unfold Machine.scratchWord
  split
  · exact h
  · split
    · exact h
    · extract_lets put
      have hp : ∀ y, (put y).Inv := fun _ => h.setTeam
      split
      · exact h
      · split
        · exact h
        · exact .ite (hp _) (hp _).bump
        · exact (hp _).arrayPoison

theorem State.Inv.copyWord {s : State} {a b c d i} (h : s.Inv) : (Machine.copyWord s a b c d i).Inv := by
  unfold Machine.copyWord
  extract_lets mine put
  have hp : ∀ f : L1Line → L1Line, (∀ l, (f l).core = l.core ∧ (f l).slot = l.slot ∧ (f l).line = l.line ∧ (f l).dirty = l.dirty) →
      (put f).Inv := fun f hf => by
    refine ⟨h.mem, (map_lines_spec _ (fun l => ?_) s.l1).1 h.lines, h.images⟩
    split
    · exact hf l
    · exact ⟨rfl, rfl, rfl, rfl⟩
  split
  · exact h
  · split
    · exact h
    · have h1 := hp (fun l => { l with corr := BitSet.put l.corr c i }) fun _ => ⟨rfl, rfl, rfl, rfl⟩
      exact .ite h1 h1.bump
    · refine State.Inv.arrayPoison (hp _ fun _ => ?_)
      exact ⟨rfl, rfl, rfl, rfl⟩

theorem State.Inv.memoryWord {s : State} {die word found mark} (h : s.Inv) : (Machine.memoryWord s die word found mark).Inv := by
  unfold Machine.memoryWord
  extract_lets s1
  have hs1 : s1.Inv := h.upd
  split
  · exact h
  · split
    · exact h
    · exact .ite hs1 hs1.bump
    · exact h.upd.poisonNew

theorem State.Inv.dieCacheWord {s : State} {die word found mark} (h : s.Inv) : (Machine.dieCacheWord s die word found mark).Inv := by
  unfold Machine.dieCacheWord
  extract_lets s1
  have hs1 : s1.Inv := h.upd
  split
  · exact h
  · split
    · exact h
    · exact .ite hs1 hs1.bump
    · exact h.upd.poisonNew

theorem State.Inv.execPatrolScrub {s : State} {w found} (h : s.Inv) : NextInv (Machine.execPatrolScrub w found s) := by
  unfold Machine.execPatrolScrub
  split
  · exact h.windowWord
  · exact .ite h.scratchWord h
  · exact h.copyWord
  · exact h.memoryWord
  · exact h.dieCacheWord

theorem State.Inv.loseTracked {s : State} {a} (h : s.Inv) : (Machine.loseTracked s a).Inv := by
  unfold Machine.loseTracked
  extract_lets mine owned l1 filters
  exact State.Inv.foldl ⟨h.mem, l1Ok_filter _ h.lines, h.images⟩ fun _ _ h => h.foldl fun _ _ h => h.poisonNew

theorem State.Inv.entryError {s : State} {die correctable which} (h : s.Inv) : (Machine.entryError s die correctable which).Inv := .ite
    h.bump h.loseTracked

theorem State.Inv.dropCached {s : State} {x} (h : s.Inv) : (Machine.dropCached s x).Inv := by
  unfold Machine.dropCached
  split
  · split
    · exact h.upd.bump
    · exact h
  · split
    · exact h.upd.bump
    · exact h
  · exact h

theorem State.Inv.slotError {s : State} {slot correctable} (h : s.Inv) : (Machine.slotError s slot correctable).Inv := by
  unfold Machine.slotError
  split
  · exact h
  · split
    · exact h.bump
    · refine h.leftBy ?_
      exact h.execContextFatalError

theorem State.Inv.upset {s : State} {x correctable} (h : s.Inv) : (Machine.upset s x correctable).Inv := by
  unfold Machine.upset
  extract_lets found
  split
  · exact h.windowWord
  · exact h.scratchWord
  · exact h.copyWord
  · exact h.memoryWord
  · exact h.dieCacheWord
  · split
    · exact h.setGang
    · exact h
  · split
    · exact h.entryError
    · exact h
  · split
    · exact h.entryError
    · exact h
  · exact h.slotError
  · exact h.slotError
  · exact .ite h.bump (.ite h h.fatal)
  · exact h.dropCached
  · exact h.dropCached

theorem State.Inv.recallTracked {s : State} {die ctx which} (h : s.Inv) : (Machine.recallTracked s die ctx which).Inv := (h.dropLines
    _).bump

theorem State.Inv.recallDirectory {s : State} {die ctx} (h : s.Inv) : (Machine.recallDirectory s die ctx).Inv := by
  unfold Machine.recallDirectory
  split
  · exact h.recallTracked
  · exact h

theorem State.Inv.recallFilter {s : State} {cluster ctx} (h : s.Inv) : (Machine.recallFilter s cluster ctx).Inv := by
  unfold Machine.recallFilter
  split
  · exact h.recallTracked
  · exact h

theorem State.Inv.makeRoom {s : State} {x} (h : s.Inv) : (Machine.makeRoom s x).Inv := by
  unfold Machine.makeRoom
  split
  · exact h.upd
  · exact h.upd
  · split
    · exact .ite h (h.dropLines _)
    · exact h
  · split
    · exact h.upd
    · exact h
  · exact h.recallDirectory
  · exact h.recallFilter

/-! ### The invariant of memory: clocks -/

theorem State.Inv.setClock {s : State} {die mhz d} (h : s.Inv) : (Machine.setClock s die mhz d).Inv := by
  unfold Machine.setClock
  extract_lets x r
  exact h.upd.dieRecord

theorem State.Inv.execClockStep {s : State} {die powerMilliW tempMilliC} (h : s.Inv) : NextInv (Machine.execClockStep die powerMilliW
    tempMilliC s) := by
  unfold Machine.execClockStep
  split
  · exact h
  · split
    · exact h
    · split
      · exact .ite h.setClock h
      · split
        · exact .ite h.setClock h
        · exact h

theorem State.Inv.execThermalStop {s : State} {die tempMilliC} (h : s.Inv) : NextInv (Machine.execThermalStop die tempMilliC s) := by
  unfold Machine.execThermalStop
  extract_lets s1
  have hs1 : s1.Inv := h.flushEarly
  split
  · exact h
  · exact .ite h hs1.upd

theorem State.Inv.execThermalRestart {s : State} {die tempMilliC} (h : s.Inv) : NextInv (Machine.execThermalRestart die tempMilliC s) := by
  unfold Machine.execThermalRestart
  split
  · exact h
  · extract_lets x r
    split
    · exact h
    · exact h.upd.dieRecord

theorem State.Inv.execSensorFailure {s : State} {die} (h : s.Inv) : NextInv (Machine.execSensorFailure die s) := .ite h h.fatal

/-! ### The invariant of memory: a step -/

theorem State.Inv.exec {s : State} {i} (h : s.Inv) : NextInv (Machine.exec i s) := by
  unfold Machine.exec
  split
  · exact h.execNop
  · exact h.execBra
  · exact h.execBri
  · exact h.execCall
  · exact h.execCalli
  · exact h.execRet
  · exact h.execExit
  · exact h.execYield
  · exact h.execElect
  · exact h.execVote
  · exact h.execPset
  · exact h.execPmov
  · exact h.laneForm
  · exact h.laneForm
  · exact h.execIaddc
  · exact h.laneForm
  · exact h.laneForm
  · exact h.laneForm
  · exact h.laneForm
  · exact h.laneForm
  · exact h.laneForm
  · exact h.laneForm
  · exact h.execIcmp
  · exact h.laneForm
  · exact h.laneForm
  · exact h.divForm
  · exact h.divForm
  · exact h.laneForm
  · exact h.laneForm
  · exact h.laneForm
  · exact h.laneForm
  · exact h.laneForm
  · exact h.laneForm
  · exact h.laneForm
  · exact h.laneForm
  · exact h.laneForm
  · exact h.laneForm
  · exact h.laneForm
  · exact h.laneForm
  · exact h.laneForm
  · exact h.laneForm
  · exact h.laneForm
  · exact h.laneForm
  · exact h.laneForm
  · exact h.laneForm
  · exact h.laneForm
  · exact h.fpForm
  · exact h.fpForm
  · exact h.fpForm
  · exact h.fpForm
  · exact h.fpForm
  · exact h.fpForm
  · exact h.execFabs
  · exact h.execFneg
  · exact h.execFcmp
  · exact h.execFsel
  · exact h.execFclass
  · exact h.fpForm
  · exact h.fpForm
  · exact h.fpForm
  · exact h.sfuForm
  · exact h.sfuForm
  · exact h.sfuForm
  · exact h.sfuForm
  · exact h.sfuForm
  · exact h.sfuForm
  · exact h.sfuForm
  · exact h.sfuForm
  · exact h.sfuForm
  · exact h.sfuForm
  · exact h.execShfl
  · exact h.execSwz
  · exact h.execBcast
  · exact h.wholeForm
  · exact h.wholeForm
  · exact h.wholeForm
  · exact h.execPack
  · exact h.execUnpack
  · exact h.convForm
  · exact h.convForm
  · exact h.execMatchLanes
  · exact h.dirForm
  · exact h.execDvflat
  · exact h.dirLong
  · exact h.dirForm
  · exact h.dirForm
  · exact h.dirForm
  · exact h.dirForm
  · exact h.dirValue
  · exact h.dirLong
  · exact h.dirForm
  · exact h.dirForm
  · exact h.dirLong
  · exact h.execDvld
  · exact h.execDvst
  · exact h.dirForm
  · exact h.execTvset
  · exact h.execTvget
  · exact h.execMxop
  · exact h.execMxwait
  · exact h.execTokgive
  · exact h.execToktake
  · exact h.execTzero
  · exact h.convForm
  · exact h.execChld
  · exact h.execChrun
  · exact h.execChqry
  · exact h.execChinv
  · exact h.execLd
  · exact h.execSt
  · exact h.execLds
  · exact h.execSts
  · exact h.execLdx
  · exact h.execStx
  · exact h.execLdp
  · exact h.execStp
  · exact h.execLdk
  · exact h.execPfch
  · exact h.execStash
  · exact h.execUnstash
  · exact h.execAtom
  · exact h.execAcas
  · exact h.execRowadd
  · exact h.execRowld
  · exact h.execAtoms
  · exact h.engForm
  · exact h.engForm
  · exact h.engForm
  · exact h.engForm
  · exact h.waitForm
  · exact h.eventForm
  · exact h.eventForm
  · exact h.arriveForm
  · exact h.arriveForm
  · exact h.execBarw
  · exact h.eventForm
  · exact h.waitForm
  · exact h.execCarve
  · exact h.execTrap
  · exact h.execRte
  · exact h.execMfc
  · exact h.execMtc
  · exact h.execRdcnt
  · exact h.execRdtime
  · exact h.execHaltdbg
  · exact h.execRddig
  · exact h.execRegq
  · exact h.execSleep
  · exact h.execChldCommit
  · exact h.execSigwComplete
  · exact h.execBowComplete
  · exact h.execSleepWake
  · exact h.execFetch
  · exact h.execSecdedReplay
  · exact h.execFillLand
  · exact h.execTeamPlace
  · exact h.execGangRetire
  · exact h.execMxopRun
  · exact h.execEngineElement
  · exact h.execEngineSignalUpdate
  · exact h.execUnclassifiedIssueComplete
  · exact h.execPageReclassify
  · exact h.execReadonlyToShared
  · exact h.execPeerAccessComplete
  · exact h.execWalkComplete
  · exact h.execPageMigration
  · exact h.netRequest
  · exact h.netRequest
  · exact h.netRequest
  · exact h.netRequest
  · exact h.execDeferredRequestPerform
  · exact h.execFrameDrop
  · exact h.execCongestionNotification
  · exact h.execPfcPause
  · exact h.execQpTransportFailure
  · exact h.execViaductFlitReceive
  · exact h.execRetrainComplete
  · exact h.execModuleFatal
  · exact h.execContextFatalError
  · exact h.execPatrolScrub
  · exact h.execBucketRefill
  · exact h.execTelemetryLatch
  · exact h.sampleCore
  · exact h.execSliceExpiry
  · exact h.execStallExpiry
  · exact h.execDeadlineExpiry
  · exact h.execDrainEnd
  · exact h.execClockStep
  · exact h.execThermalStop
  · exact h.execThermalRestart
  · exact h.execSensorFailure
  · exact h.execQueueWake
  · exact h.execTask
  · exact h.execTaskAccept
  · exact h.execWaitv
  · exact h.execWaitvSatisfied
  · exact h.execWaitvTimeout
  · exact h.execSignal
  · exact h.execCond
  · exact h.execCopy
  · exact h.execCopyTransfer
  · exact h.execCopyMigrate
  · exact h.execMarkTrace
  · exact h.execMarkInvalidate
  · exact h.execDependenceRead
  · exact h.execStartEdge
  · exact h.execFlushLine
  · exact h.execEndEdgeFinish
  · exact h.execCtxset
  · exact h.execCtxreset
  · exact h.execCtxclear
  · exact h.execCtxquery
  · exact h.execQmap
  · exact h.execQunmap
  · exact h.execQresume
  · exact h.execKeyset
  · exact h.execWinset
  · exact h.execSecset
  · exact h.execTelset
  · exact h.execTraceset
  · exact h.execDbgattach
  · exact h.execDbgdetach
  · exact h.execDbgset
  · exact h.execGstate
  · exact h.execGset
  · exact h.execGrelease
  · exact h.execDump
  · exact h.execDumpDieCut
  · exact h.execLogread
  · exact h.execSessionOpen
  · exact h.execSlotwrite
  · exact h.execActivate
  · exact h.execCommit
  · exact h.execReset
  · exact h.execIdent
  · exact h.execStatus
  · exact h.execAttest
  · exact h.execCfgwrite
  · exact h.execCkptLocal
  · exact h.execCkptRemote
  · exact h.execCkptChunkResponse
  · exact h.execCkrestoreLocal
  · exact h.execCkrestoreRemote
  · exact h.execUndefinedEncoding
  · exact h.execLinkRetrain
  · exact h.execContextAdmit
  · exact h.execPowerLoss
  · exact h.moduleReset
  · exact h.execActivateSwitch

theorem State.Inv.clearWaits {s : State} (h : s.Inv) : (Machine.clearWaits s).Inv := h.upd

theorem State.Inv.afterTry {s : State} {ref} (h : s.Inv) : (Machine.afterTry ref s).Inv := by
  unfold Machine.afterTry
  split
  · exact .ite h h.clearWaits
  · exact h.clearWaits

theorem State.Inv.issueTurn {s : State} {ref} (h : s.Inv) : NextInv (Machine.issueTurn s ref) := by
  unfold Machine.issueTurn
  split
  · split
    · trivial
    · split
      · exact h.takeBoundary.clearWaits
      · split
        · exact h.waitIssue
        · split
          · rename_i t t1 e
            have ht1 : t1.Inv := h.fetchAt.miss e
            exact ht1.waitIssue
          · rename_i t t1 e
            have ht1 : t1.Inv := h.fetchAt.fail e
            exact ht1.fetchFault.clearWaits
          · rename_i t _ t1 e
            have ht1 : t1.Inv := h.fetchAt.word e
            split
            · exact ht1.illegalWord.clearWaits
            · split
              · rename_i t2 e1
                have ht2 : t2.Inv := ht1.upd.exec.next e1
                exact ht2.afterTry
              · exact ht1.upd.exec
  · trivial

theorem State.Inv.passTicks {s : State} {n} (h : s.Inv) : (Machine.passTicks s n).Inv := (State.Inv.ite (h.passTick _) h.upd).clearWaits

theorem State.Inv.queueStep {s : State} {q} (h : s.Inv) : NextInv (Machine.queueStep s q) := by
  unfold Machine.queueStep
  split
  · rename_i t t1 e
    have ht1 : t1.Inv := h.queueTurn.to e
    exact ht1
  · rename_i t _ t1 e
    have ht1 : t1.Inv := h.queueTurn.act e
    exact ht1.exec

theorem State.Inv.lateTurn {s : State} {ref} (h : s.Inv) : (Machine.lateTurn s ref).Inv := by
  unfold Machine.lateTurn
  split
  · exact .ite h h.finishLate
  · exact h

theorem State.Inv.laneTurn {s : State} {ref l} (h : s.Inv) : (Machine.laneTurn s ref l).Inv := by
  unfold Machine.laneTurn
  split
  · exact .ite h h.lateLane
  · exact h

theorem State.Inv.splitTurn {s : State} {ref} (h : s.Inv) : NextInv (Machine.splitTurn s ref) := by
  unfold Machine.splitTurn
  split
  · rename_i t e
    have ht : t.Inv := h.upd.issueTurn.next e
    exact ht.upd
  · exact h.upd.issueTurn

theorem State.Inv.passPart {s : State} {core part n} (h : s.Inv) : (Machine.passPart s core part n).Inv := by
  unfold Machine.passPart
  extract_lets taken s'
  have hs' : s'.Inv := h.bump
  exact hs'.upd

theorem State.Inv.passCore {s : State} {core n} (h : s.Inv) : (Machine.passCore s core n).Inv := by
  unfold Machine.passCore
  extract_lets s1
  have hs1 : s1.Inv := h.bump.foldl fun _ _ h => h.passPart
  exact .ite hs1.refill hs1

theorem State.Inv.passClocks {s : State} {die n} (h : s.Inv) : (Machine.passClocks s die n).Inv := .ite h (h.foldl fun _ _ h => h.passCore)

theorem State.Inv.askRepair {s : State} {ctx p} (h : s.Inv) : (Machine.askRepair s ctx p).Inv := h.upd

theorem NextInv.changes {s : State} {o r : Host.Outcome State Fault Refusal} (h : NextInv o) (e : Machine.changes s o = some r) : NextInv
    r := by
  unfold Machine.changes at e
  split at e
  · split at e
    · cases e
    · cases e
      exact State.Inv.clearWaits h
  · cases e
    exact h

/-- The first of the happenings that a state allows keeps the invariant. -/
theorem State.Inv.firstDue {s : State} {r} (h : s.Inv) (e : Machine.firstDue s = some r) : NextInv r := by
  unfold Machine.firstDue at e
  split at e
  · next hr =>
    cases e
    obtain ⟨_, -, ha⟩ := List.exists_of_findSome?_eq_some hr
    exact NextInv.changes (o := .next _) h.lateTurn ha
  · split at e
    · next hr =>
      cases e
      obtain ⟨_, -, ha⟩ := List.exists_of_findSome?_eq_some hr
      exact NextInv.changes h.exec ha
    · split at e
      · next hr =>
        cases e
        obtain ⟨_, -, ha⟩ := List.exists_of_findSome?_eq_some hr
        exact NextInv.changes h.queueStep ha
      · exact NextInv.changes (o := .next _) h.offerNext e

theorem State.Inv.scheduleStep {s : State} (h : s.Inv) : NextInv (Machine.scheduleStep s) := by
  unfold Machine.scheduleStep
  split
  · split
    · exact h.upd
    · exact h.upd.issueTurn
  · split
    · exact h.upd
    · exact h.upd.splitTurn
  · exact h.upd.laneTurn.clearWaits
  · split
    · exact h.upd
    · split
      · next e => exact (h.upd.exec.next e).clearWaits
      · exact h.upd.exec
  · exact h.upd.passTicks
  · split
    · next e => exact (h.upd.queueStep.next e).clearWaits
    · exact h.upd.queueStep
  · exact h.upd.passClocks
  · exact h.upd.upset.clearWaits
  · exact h.upd.makeRoom.clearWaits
  · exact h.upd.offerNext
  · exact h.upd.askRepair
  · split
    · exact h.issueTurn
    · split
      · next e => exact h.firstDue e
      · exact h.passTicks

theorem State.Inv.step {s : State} (h : s.Inv) : NextInv (Machine.step s) := h.scheduleStep

/-! ### The form of a gang, kept by every operation -/

/-- What `Gang.ok` says, part by part. -/
theorem Gang.ok_iff {g : Gang} : g.ok = true ↔ g.wf = true ∧ g.fpReservedZero = true ∧ g.heldOk = true := by
  simp only [Gang.ok, Bool.and_eq_true, and_assoc]

/-- What changes none of the registers and lane masks that `Gang.ok` reads keeps it. -/
theorem Gang.ok_of_regs {g g' : Gang} (h : g.ok = true) (hw : g'.wf = g.wf) (hf : g'.fpReservedZero = g.fpReservedZero) (hh : g'.heldOk =
    g.heldOk) :
    g'.ok = true := by
  unfold Gang.ok
  rw [hw, hf, hh]
  exact h

/-- What writes the general registers alone leaves the control registers and the lane masks. -/
structure Gang.SameControl (g g' : Gang) : Prop where
  fpctl : g'.fpctl = g.fpctl
  fpstat : g'.fpstat = g.fpstat
  inh : g'.inh = g.inh
  held : g'.held = g.held
  live : g'.live = g.live

theorem Gang.SameControl.refl (g : Gang) : g.SameControl g := ⟨rfl, rfl, rfl, rfl, rfl⟩

theorem Gang.SameControl.trans {a b c : Gang} (h : a.SameControl b) (k : b.SameControl c) : a.SameControl c :=
  ⟨k.fpctl.trans h.fpctl, k.fpstat.trans h.fpstat, k.inh.trans h.inh, k.held.trans h.held, k.live.trans h.live⟩

theorem Gang.ok_of_sameControl {g g' : Gang} (h : g.ok = true) (hc : g.SameControl g') (hw : g'.wf = true) : g'.ok = true := by
  obtain ⟨-, hf, hh⟩ := Gang.ok_iff.1 h
  refine Gang.ok_iff.2 ⟨hw, ?_, ?_⟩
  · rw [Gang.fpReservedZero, hc.fpctl, hc.fpstat]
    exact hf
  · rw [Gang.heldOk, hc.inh, hc.held, hc.live]
    exact hh

/-- The parts of the form of the register maps (R35). -/
theorem Gang.wf_iff {g : Gang} : g.wf = true ↔ KMap.wf g.v 0#64 = true ∧ KMap.wf g.s 0#64 = true ∧ KMap.wf g.n 0x80000000#32 = true ∧
    KMap.wf g.vEmpty false = true ∧ KMap.wf g.sEmpty false = true ∧ KMap.wf g.nEmpty false = true ∧ KMap.get g.p 0#64 7 = 0#64 ∧
    KMap.get g.pEmpty 0#64 7 = 0#64 := by
  simp only [Gang.wf, Bool.and_eq_true, beq_iff_eq, and_assoc]

theorem Gang.write_sameControl (g : Gang) (w : RegWrite) : g.SameControl (g.write w) := by
  unfold Gang.write
  split
  case h_4 =>
    split
    · exact .refl g
    · exact ⟨rfl, rfl, rfl, rfl, rfl⟩
  all_goals exact ⟨rfl, rfl, rfl, rfl, rfl⟩

/-- R34, R35: a write keeps the maps in their form, and P7 without a stored value. -/
theorem Gang.write_wf {g : Gang} (w : RegWrite) (h : g.wf = true) : (g.write w).wf = true := by
  obtain ⟨hv, hs, hn, hve, hse, hne, hp, hpe⟩ := Gang.wf_iff.1 h
  unfold Gang.write
  split
  · exact Gang.wf_iff.2 ⟨KMap.set_wf _ _ hv, hs, hn, KMap.set_wf _ false hve, hse, hne, hp, hpe⟩
  · exact Gang.wf_iff.2 ⟨KMap.set_wf _ _ hv, hs, hn, KMap.set_wf _ false hve, hse, hne, hp, hpe⟩
  · exact Gang.wf_iff.2 ⟨hv, KMap.set_wf _ _ hs, hn, hve, KMap.set_wf _ false hse, hne, hp, hpe⟩
  · split
    · exact h
    · next hk =>
      refine Gang.wf_iff.2 ⟨hv, hs, hn, hve, hse, hne, ?_, ?_⟩
      · rw [KMap.get_set_ne _ _ _ (Ne.symm hk)]; exact hp
      · rw [KMap.get_set_ne _ _ _ (Ne.symm hk)]; exact hpe
  · exact Gang.wf_iff.2 ⟨hv, hs, KMap.set_wf _ _ hn, hve, hse, KMap.set_wf _ false hne, hp, hpe⟩

theorem Gang.write_ok {g : Gang} (w : RegWrite) (h : g.ok = true) : (g.write w).ok = true :=
  Gang.ok_of_sameControl h (g.write_sameControl w) (Gang.write_wf w (Gang.ok_iff.1 h).1)

theorem Gang.writes_ok {g : Gang} (ws : List RegWrite) (h : g.ok = true) : (g.writes ws).ok = true :=
  foldl_keeps (fun g : Gang => g.ok = true) Gang.write (fun _ w h => Gang.write_ok w h) ws g h

theorem Gang.writes_sameControl (g : Gang) (ws : List RegWrite) : g.SameControl (g.writes ws) :=
  foldl_keeps g.SameControl Gang.write (fun b w h => h.trans (b.write_sameControl w)) ws g (.refl g)

/-- The bits outside a mask, of a word under the mask. -/
theorem and_mask_reserved {n : Nat} (a m : BitVec n) : a &&& m &&& ~~~m = 0#n := by
  rw [BitVec.and_assoc, BitVec.and_not_self]
  exact BitVec.and_zero

/-- R41: a register emptied while its fill is in flight. -/
theorem Gang.empty_ok {g : Gang} (w : RegWrite) (h : g.ok = true) : (g.empty w).ok = true := by
  obtain ⟨hv, hs, hn, hve, hse, hne, hp, hpe⟩ := Gang.wf_iff.1 (Gang.ok_iff.1 h).1
  unfold Gang.empty
  split
  · exact Gang.ok_of_sameControl h ⟨rfl, rfl, rfl, rfl, rfl⟩ (Gang.wf_iff.2 ⟨hv, hs, hn, KMap.set_wf _ true hve, hse, hne, hp, hpe⟩)
  · exact Gang.ok_of_sameControl h ⟨rfl, rfl, rfl, rfl, rfl⟩ (Gang.wf_iff.2 ⟨hv, hs, hn, KMap.set_wf _ true hve, hse, hne, hp, hpe⟩)
  · exact Gang.ok_of_sameControl h ⟨rfl, rfl, rfl, rfl, rfl⟩ (Gang.wf_iff.2 ⟨hv, hs, hn, hve, KMap.set_wf _ true hse, hne, hp, hpe⟩)
  · split
    · exact h
    · next hk =>
      refine Gang.ok_of_sameControl h ⟨rfl, rfl, rfl, rfl, rfl⟩ (Gang.wf_iff.2 ⟨hv, hs, hn, hve, hse, hne, hp, ?_⟩)
      rw [KMap.get_set_ne _ _ _ (Ne.symm hk)]
      exact hpe
  · exact Gang.ok_of_sameControl h ⟨rfl, rfl, rfl, rfl, rfl⟩ (Gang.wf_iff.2 ⟨hv, hs, hn, hve, hse, KMap.set_wf _ true hne, hp, hpe⟩)

theorem Gang.empties_ok {g : Gang} (ws : List RegWrite) (h : g.ok = true) : (ws.foldl Gang.empty g).ok = true :=
  foldl_keeps (fun g : Gang => g.ok = true) Gang.empty (fun _ w h => Gang.empty_ok w h) ws g h

theorem Gang.rewrite_ok {g : Gang} (ws : List RegWrite) (h : g.ok = true) : (g.rewrite ws).ok = true := by
  have hws := Gang.writes_ok ws h
  obtain ⟨hv, hs, hn, -, hse, hne, hp, hpe⟩ := Gang.wf_iff.1 (Gang.ok_iff.1 hws).1
  obtain ⟨-, -, -, hve, -⟩ := Gang.wf_iff.1 (Gang.ok_iff.1 h).1
  exact Gang.ok_of_sameControl hws ⟨rfl, rfl, rfl, rfl, rfl⟩ (Gang.wf_iff.2 ⟨hv, hs, hn, hve, hse, hne, hp, hpe⟩)

theorem Gang.startFill_ok {g : Gang} (kind ws fl sets) (h : g.ok = true) : (g.startFill kind ws fl sets).ok = true :=
  Gang.ok_of_regs (Gang.empties_ok ws h) rfl rfl rfl

/-- R63: flags raised leave the reserved bits of FPSTAT 0. -/
theorem orFlags_reserved {fpstat : W32} (fl : Flags) (h : fpstat &&& ~~~fpstatMask = 0#32) : orFlags fpstat fl &&& ~~~fpstatMask = 0#32 :=
    by
  have hfl : fl.zeroExtend 32 &&& ~~~fpstatMask = 0#32 := (by decide : ∀ fl : Flags, fl.zeroExtend 32 &&& ~~~fpstatMask = 0#32) fl
  rw [orFlags, BitVec.and_or_distrib_right, h, hfl]
  rfl

theorem Gang.orFlags_ok {g : Gang} (fl : Flags) (h : g.ok = true) : ({ g with fpstat := orFlags g.fpstat fl } : Gang).ok = true := by
  obtain ⟨hw, hf, hh⟩ := Gang.ok_iff.1 h
  simp only [Gang.fpReservedZero, Bool.and_eq_true, beq_iff_eq] at hf
  refine Gang.ok_iff.2 ⟨hw, ?_, hh⟩
  simp only [Gang.fpReservedZero, Bool.and_eq_true, beq_iff_eq]
  exact ⟨hf.1, orFlags_reserved fl hf.2⟩

theorem landFill_ok {g : Gang} (ix : Nat) (h : g.ok = true) : (landFill g ix).ok = true := by
  unfold landFill
  split
  · next x _ =>
    extract_lets g'
    have hg : g'.ok = true := Gang.writes_ok _ (Gang.writes_ok _ h)
    have hstat : g'.fpstat = g.fpstat := (Gang.writes_sameControl _ _).fpstat.trans (Gang.writes_sameControl _ _).fpstat
    rw [← hstat]
    exact Gang.ok_of_regs (Gang.orFlags_ok x.flags hg) rfl rfl rfl
  · exact h

/-- R62, R63, R252: what MTC and the debug agent write into a control register. -/
theorem putCreg_ok {g : Gang} (P c : Nat) (a : W64) (h : g.ok = true) : (putCreg g P c a).ok = true := by
  obtain ⟨hw, hf, hh⟩ := Gang.ok_iff.1 h
  simp only [Gang.fpReservedZero, Bool.and_eq_true, beq_iff_eq] at hf
  obtain ⟨hctl, hstat⟩ := hf
  unfold putCreg
  split
  case h_7 =>
    refine Gang.ok_iff.2 ⟨hw, ?_, hh⟩
    simp only [Gang.fpReservedZero, Bool.and_eq_true, beq_iff_eq]
    exact ⟨and_mask_reserved _ _, hstat⟩
  case h_8 =>
    refine Gang.ok_iff.2 ⟨hw, ?_, hh⟩
    simp only [Gang.fpReservedZero, Bool.and_eq_true, beq_iff_eq]
    exact ⟨hctl, and_mask_reserved _ _⟩
  all_goals exact Gang.ok_of_regs h rfl rfl rfl

theorem Gang.agentSet_ok {g : Gang} (P : Nat) (item : GangItem) (v : W64) (h : g.ok = true) : (g.agentSet P item v).ok = true := by
  unfold Gang.agentSet
  split
  · unfold Gang.setItem
    split
    · exact Gang.ok_of_regs h rfl rfl rfl
    · split
      · exact Gang.ok_of_regs h rfl rfl rfl
      · exact putCreg_ok _ _ _ h
    · exact Gang.ok_of_regs h rfl rfl rfl
    · exact Gang.ok_of_regs h rfl rfl rfl
    · exact h
  · split
    · exact Gang.ok_of_regs h rfl rfl rfl
    · exact Gang.write_ok _ h

/-! ### Handlers and held lanes -/

theorem Gang.heldOk_iff {g : Gang} : g.heldOk = true ↔ (g.inh = true ∨ g.held = 0#64) ∧ g.held &&& ~~~g.live = 0#64 := by
  simp only [Gang.heldOk, Bool.and_eq_true, Bool.or_eq_true, beq_iff_eq]

theorem Gang.enterHandler_ok {g : Gang} (t : TrapInfo) (tpc : W64) (h : g.ok = true) : (g.enterHandler t tpc).ok = true := by
  obtain ⟨hw, hf, -⟩ := Gang.ok_iff.1 h
  refine Gang.ok_iff.2 ⟨hw, hf, Gang.heldOk_iff.2 ⟨.inl rfl, ?_⟩⟩
  change g.live &&& ~~~t.tmask &&& ~~~g.live = 0#64
  rw [BitVec.and_comm g.live, BitVec.and_assoc, BitVec.and_not_self]
  exact BitVec.and_zero

/-- R428: a gang that stops for its agent. -/
theorem Gang.stopFor_ok {g : Gang} (t : TrapInfo) (tpc : W64) (h : g.ok = true) : (g.stopFor t tpc).ok = true :=
  Gang.ok_of_regs h rfl rfl rfl

theorem Gang.resume_ok {g : Gang} (back exempt : LaneMask) (h : g.ok = true) : (g.resume back exempt).ok = true := by
  obtain ⟨hw, hf, -⟩ := Gang.ok_iff.1 h
  exact Gang.ok_iff.2 ⟨hw, hf, Gang.heldOk_iff.2 ⟨.inr rfl, BitVec.zero_and⟩⟩

theorem Gang.leaveHandler_ok {g : Gang} (ended : LaneMask) (h : g.ok = true) : (g.leaveHandler ended).ok = true := by
  unfold Gang.leaveHandler
  split
  · exact Gang.resume_ok _ _ h
  · exact h

/-- R271: the lanes of a set that may issue are not held. -/
theorem Gang.lanesAt_disjoint_held (g : Gang) (pc : W64) : g.lanesAt g.runners pc &&& g.held = 0#64 := by
  apply BitVec.eq_of_getLsbD_eq
  intro l hl
  simp only [Gang.lanesAt, Gang.runners, BitVec.getLsbD_and, maskOf_getLsbD, BitVec.getLsbD_not]
  cases g.held.getLsbD l <;> simp

theorem Gang.runs_disjoint_held {g : Gang} {r : Nat × LaneMask × Nat} (h : r ∈ g.runs) : r.2.1 &&& g.held = 0#64 := by
  obtain ⟨e, -, rfl⟩ := List.mem_map.1 h
  exact g.lanesAt_disjoint_held _

/-- The oldest of the sets that may issue is one of them. -/
theorem oldest_mem (r : Nat × LaneMask × Nat) (rs : List (Nat × LaneMask × Nat)) :
    rs.foldl (fun b x => if x.2.2 > b.2.2 then x else b) r ∈ r :: rs := by
  induction rs generalizing r with
  | nil => exact List.mem_cons_self
  | cons x rs ih =>
    rcases List.mem_cons.1 (ih (if x.2.2 > r.2.2 then x else r)) with e | hm
    · rw [List.foldl_cons, e]
      split
      · exact List.mem_cons_of_mem _ List.mem_cons_self
      · exact List.mem_cons_self
    · exact List.mem_cons_of_mem _ (List.mem_cons_of_mem _ hm)

theorem Gang.chooseSet_disjoint_held {g : Gang} {pc : W64} {set : LaneMask} (h : g.chooseSet = some (pc, set)) : set &&& g.held = 0#64 := by
  unfold Gang.chooseSet at h
  split at h
  · cases h
  · next r rs hr =>
    obtain ⟨-, hset⟩ := Prod.mk.inj (Option.some.inj h)
    rw [← hset]
    refine Gang.runs_disjoint_held ?_
    rw [hr]
    split
    · exact oldest_mem r rs
    · exact List.mem_cons_self

/-- R307: a commit whose lanes that end are not held leaves the lanes that are held live. -/
theorem Gang.ended_ok {g : Gang} {ended : LaneMask} (h : g.ok = true) (he : ended &&& g.held = 0#64) :
    ({ g with live := g.live &&& ~~~ended } : Gang).ok = true := by
  obtain ⟨hw, hf, hh⟩ := Gang.ok_iff.1 h
  obtain ⟨hi, hl⟩ := Gang.heldOk_iff.1 hh
  refine Gang.ok_iff.2 ⟨hw, hf, Gang.heldOk_iff.2 ⟨hi, ?_⟩⟩
  change g.held &&& ~~~(g.live &&& ~~~ended) = 0#64
  rw [BitVec.not_and, BitVec.not_not, BitVec.and_or_distrib_left, hl, BitVec.and_comm, he]
  rfl

/-- The gang that a commit leaves (R24, R106, R271, R307). -/
def Iss.committed (x : Iss) (s : State) (g : Gang) (p : Post) : Gang :=
  let g1 := g.account x.i x.f x.set x.active s.issueCtr
  let g2 := { g1 with pc := g1.advance x.set x.pc p.next, live := g1.live &&& ~~~p.ended, yielded := g1.yielded || p.yields }
  if p.rte then g2.returnFromTrap else g2.leaveHandler p.ended

theorem Iss.committed_ok {x : Iss} {s : State} {g : Gang} {p : Post} (h : g.ok = true) (he : p.ended &&& g.held = 0#64) :
    (x.committed s g p).ok = true := by
  unfold Iss.committed
  extract_lets g1 g2
  have h2 : g2.ok = true := Gang.ok_of_regs (Gang.ended_ok h he) rfl rfl rfl
  split
  · exact Gang.resume_ok _ _ h2
  · exact Gang.leaveHandler_ok _ h2

theorem commitIssue_ok {x : Iss} {s : State} {p : Post} {g : Gang} (hg : s.gang? x.ref = some g) (h : g.ok = true) (ha : p.after = none)
    (he : p.ended &&& g.held = 0#64) : ∃ g', (commitIssue x s p).gang? x.ref = some g' ∧ g'.ok = true := by
  have hb : commitIssue x s p = (let g3 := x.committed s g p
      let s1 := countIssue (s.setGang x.ref g3) x.ref g.width (isSfu x.i)
      if p.branch then traceBranch s1 x g3 else s1) := by
    unfold commitIssue
    rw [hg, ha]
    rfl
  extract_lets g3 s1 at hb
  have h1 : s1.gang? x.ref = some g3 := by rw [countIssue_gang?, setGang_self]
  refine ⟨g3, ?_, Iss.committed_ok h he⟩
  rw [hb]
  split
  · rw [traceBranch, trace_gang?, h1]
  · exact h1

/-! ### Gangs made, and the check of a record -/

theorem newGang_ok {r : TaskRec} (team index half ix granule : Nat) (h : r.fpctl &&& ~~~fpctlMask = 0#32) : (newGang r team index half ix
    granule).ok = true := by
  refine Gang.ok_iff.2 ⟨rfl, ?_, Gang.heldOk_iff.2 ⟨.inr rfl, BitVec.zero_and⟩⟩
  simp only [Gang.fpReservedZero, Bool.and_eq_true, beq_iff_eq]
  exact ⟨h, BitVec.zero_and⟩

/-- A field that reads 0 has no bit set. -/
theorem testBit_of_bits_zero {x lo n k : Nat} (h : bits x lo n = 0) (h1 : lo ≤ k) (h2 : k < lo + n) : x.testBit k = false := by
  have : (x / 2 ^ lo % 2 ^ n).testBit (k - lo) = x.testBit k := by
    rw [Nat.testBit_mod_two_pow, Nat.testBit_div_two_pow]
    simp [show k - lo < n by omega, show k - lo + lo = k by omega]
  rw [← this]
  unfold bits at h
  rw [h, Nat.zero_testBit]

/-- R63, R329: a record that passes its check names an FPCTL without reserved bits. -/
theorem fpctl_of_not_recordBad {bs : List Byte} {addr : Nat} (h : recordBad bs (recordOf addr bs) = false) :
    (recordOf addr bs).fpctl &&& ~~~fpctlMask = 0#32 := by
  have hr : recordReserved bs = false := by
    simp only [recordBad, Bool.or_eq_false_iff] at h
    tauto
  have hb : recField bs 0x30 45 19 = 0 ∧ recField bs 0x30 35 5 = 0 := by
    simp only [recordReserved, Bool.or_eq_false_iff, decide_eq_false_iff_not, not_not] at hr
    tauto
  obtain ⟨hhigh, hlow⟩ := hb
  ext k hk
  have hm : fpctlMask.getLsbD k = false → 3 ≤ k ∧ k < 8 ∨ 13 ≤ k :=
    (by decide : ∀ k < 32, fpctlMask.getLsbD k = false → 3 ≤ k ∧ k < 8 ∨ 13 ≤ k) k hk
  have hbit : (recordOf addr bs).fpctl.getLsbD k = (leVal ((bs.drop 0x30).take 8)).testBit (32 + k) := by
    change (BitVec.ofNat 32 (bits (leVal ((bs.drop 0x30).take 8)) 32 32)).getLsbD k = _
    simp only [BitVec.getLsbD_ofNat, bits, Nat.testBit_mod_two_pow, Nat.testBit_div_two_pow, hk, decide_true, Bool.true_and, Nat.add_comm]
  rw [← BitVec.getLsbD_eq_getElem, BitVec.getLsbD_and, BitVec.getLsbD_not, hbit]
  cases hf : fpctlMask.getLsbD k with
  | true => simp
  | false =>
    rcases hm hf with ⟨h1, h2⟩ | h1
    · rw [testBit_of_bits_zero hlow (by omega) (by omega)]; simp
    · rw [testBit_of_bits_zero hhigh (by omega) (by omega)]; simp

end Sys2Proof.Machine

namespace Sys2Proof

open Machine in
/-- Settles O60: every function that a step calls keeps the invariant of memory, so `State.Inv.step`; what writes a gang keeps `Gang.ok`. -/
theorem memoryInvariant : Obligations.MemoryInvariant := by
  unfold Obligations.MemoryInvariant
  refine ⟨fun s t h e => (State.Inv.step h).next e, fun g h => ?_, fun x s p g hg h ha he => commitIssue_ok hg h ha he, fun x s fl g hg
    h => ?_,
    fun r team index half ix granule h => newGang_ok team index half ix granule h, fun bs addr h => fpctl_of_not_recordBad h⟩
  · exact ⟨fun ws => ⟨Gang.writes_ok ws h, Gang.empties_ok ws h, Gang.rewrite_ok ws h⟩,
      fun kind ws fl sets ix => ⟨Gang.startFill_ok kind ws fl sets h, landFill_ok ix h⟩,
      fun P c item v => ⟨putCreg_ok P c v h, Gang.agentSet_ok P item v h⟩,
      fun t tpc => ⟨Gang.enterHandler_ok t tpc h, Gang.stopFor_ok t tpc h⟩, Gang.resume_ok _ _ h, fun pc set e =>
        Gang.chooseSet_disjoint_held e⟩
  · refine ⟨{ g with fpstat := orFlags g.fpstat (allFlags fl) }, ?_, Gang.orFlags_ok _ h⟩
    rw [Iss.orStat, mapGang_of hg, setGang_self]

end Sys2Proof

/-! ## Scope: an unclassified issue completes (O30) -/

namespace Sys2Proof.Machine

/-- A gang whose end is not its block's own, and does not wait for a peer. -/
theorem ownEnd_eq_false {g : Gang} (ho : ∀ o, g.block ≠ some (.signal o) ∧ g.block ≠ some (.object o)) (hp : g.block ≠ some .peer) :
    g.ownEnd = false := by
  unfold Gang.ownEnd
  split
  · next o e => exact absurd e (ho o).1
  · next o e => exact absurd e (ho o).2
  · next e => exact absurd e hp
  · rfl

/-- R277, R432: an unclassified issue that no cut holds completes. -/
theorem execUnclassifiedIssueComplete_free {s : State} {ref : GangRef} {g : Gang} {w : Who} {op : PendOp} (hg : s.gang? ref = some g)
    (hw : s.who ref = some w) (hu : g.unclass = some op) (ho : ∀ o, g.block ≠ some (.signal o) ∧ g.block ≠ some (.object o))
    (hp : g.block ≠ some .peer) (hst : standsStill s ref.core w.ctx = false) (hc : crossHeld s w.ctx op = false) :
    execUnclassifiedIssueComplete ref s = .next (completeUnclass s ref) := by
  have hstill : peerStill s ref w = false := by
    unfold peerStill
    rw [hst, ite_self]
  simp [execUnclassifiedIssueComplete, hg, hw, hu, hstill, hc, hp, ownEnd_eq_false ho hp]

/-- R289: nothing waits behind a gang without held stores and without loads to be read again. -/
theorem waitingOps_nil {g : Gang} (hs : g.heldStores = []) (hf : ∀ e ∈ g.fills, ∀ o, e.kind ≠ .revalidate o) : waitingOps g = [] := by
  unfold waitingOps
  extract_lets loads
  have hl : loads = [] := by
    refine List.filterMap_eq_nil_iff.2 fun e he => ?_
    split
    · next o ho => exact absurd ho (hf e he o)
    · rfl
  rw [hs, hl]
  rfl

theorem settleBehind_nil {s : State} {w : Who} {g : Gang} (hg : s.gang? w.g = some g) (hw : waitingOps g = []) (hb : blocksAgain s w.g = []) :
    settleBehind s w = s := by
  unfold settleBehind
  rw [hg]
  simp only [settleList, hw, hb]
  rfl

/-- A fill that becomes ready is no load to be read again. -/
theorem readyFill_revalidate {g : Gang} (id : Nat) (ws : List RegWrite) (h : ∀ e ∈ g.fills, ∀ o, e.kind ≠ .revalidate o) :
    ∀ e ∈ (readyFill g id ws).fills, ∀ o, e.kind ≠ .revalidate o := by
  intro e he o
  obtain ⟨x, hx, rfl⟩ := List.mem_map.1 he
  split
  · exact FillKind.noConfusion
  · exact h x hx o

/-- R289: with nothing behind it, the completion of an issue is the issue performed and its fill ready. -/
theorem completeUnclass_alone {s : State} {ref : GangRef} {g y : Gang} {w : Who} {op : PendOp} (hg : s.gang? ref = some g)
    (hw : s.who ref = some w) (hu : g.unclass = some op) {r : Performed} {p : PendOp × State} (hp : restash s w op = p)
    (hr : performOp (crossAccs p.2 w p.1.accs) w p.1 true = r) (hy : r.s.gang? ref = some y) (hs : y.heldStores = [])
    (hf : ∀ e ∈ y.fills, ∀ o, e.kind ≠ .revalidate o) (hb : blocksAgain r.s ref = []) :
    completeUnclass s ref = r.s.setGang ref (readyFill { y with unclass := none } p.1.fill r.writes) := by
  have hwg : w.g = ref := who_g hw
  unfold completeUnclass
  simp only [hg, hw, hu, hp, hr, hy]
  refine settleBehind_nil (g := readyFill { y with unclass := none } p.1.fill r.writes) ?_ (waitingOps_nil hs (readyFill_revalidate _ _ hf)) ?_
  · rw [hwg, setGang_self]
  · rw [hwg]
    exact hb

end Sys2Proof.Machine

namespace Sys2Proof

open Machine in
/-- Settles O30. -/
theorem unclassifiedCompletes : Obligations.UnclassifiedCompletes := by
  unfold Obligations.UnclassifiedCompletes
  intro s ref g w op hg hw hu ho hp hst hc p r
  refine ⟨execUnclassifiedIssueComplete_free hg hw hu ho hp hst hc, fun _ hrev y hy hfills hheld hb => ?_⟩
  have hf : ∀ e ∈ y.fills, ∀ o, e.kind ≠ .revalidate o := by rw [hfills]; exact hrev
  rw [completeUnclass_alone hg hw hu rfl rfl hy hheld hf hb, setGang_self]
  exact ⟨rfl, fun pa => rfl⟩

end Sys2Proof

/-! ## Scope: requests of the network (O48) -/

namespace Sys2Proof.Machine

section

variable {s : State} {k : NetKind} {r : NetReq} {ctx : Nat}

/-- The state in which a queue pair that is not bound yet is bound to the port and the context of its first request (log entry 60). -/
def bound (s : State) (r : NetReq) (ctx : Nat) : State :=
  if (KMap.get? s.qps r.qp).isNone then { s with qps := KMap.put s.qps r.qp ⟨r.port, ctx⟩ } else s

/-- R394: a request whose key or pages do not allow it. -/
theorem netRequest_refused {c : Option Nat} (hh : s.halted = false) (hf : s.fw.recovery = false) (hp : portExists r = true)
    (hk : keyAllows s k r = .error c) : netRequest s k r = netRefuse s r.port c k := by
  simp [netRequest, hh, hf, hp, hk]

/-- R394: what becomes of a request that its key allows: held at its port by a cut, deferred behind a task or another request, or performed. -/
theorem netRequest_allowed (hh : s.halted = false) (hf : s.fw.recovery = false) (hp : portExists r = true) (hk : keyAllows s k r = .ok ctx) :
    netRequest s k r = match portHeld (bound s r ctx) ⟨k, r, ctx⟩ with
      | some t => t
      | none =>
        if ((bound s r ctx).deferral.any fun d => d.req.qp == r.qp) || heldConflict (bound s r ctx) ctx r.va (reqLen k r) (reqWrites k) then
          defer (bound s r ctx) k r ctx
        else netPerform (bound s r ctx) k r ctx := by
  have hc : (s.halted || s.fw.recovery || !portExists r) = false := by rw [hh, hf, hp]; rfl
  unfold netRequest
  rw [hc, hk]
  rfl

theorem netRequest_held {t : State} (hh : s.halted = false) (hf : s.fw.recovery = false) (hp : portExists r = true)
    (hk : keyAllows s k r = .ok ctx) (hport : portHeld (bound s r ctx) ⟨k, r, ctx⟩ = some t) : netRequest s k r = t := by
  rw [netRequest_allowed hh hf hp hk, hport]

theorem netRequest_deferred (hh : s.halted = false) (hf : s.fw.recovery = false) (hp : portExists r = true) (hk : keyAllows s k r = .ok ctx)
    (hport : portHeld (bound s r ctx) ⟨k, r, ctx⟩ = none)
    (hb : (∃ d ∈ (bound s r ctx).deferral, d.req.qp = r.qp) ∨ heldConflict (bound s r ctx) ctx r.va (reqLen k r) (reqWrites k) = true) :
    netRequest s k r = defer (bound s r ctx) k r ctx := by
  rw [netRequest_allowed hh hf hp hk, hport]
  exact if_pos (by simpa using hb)

theorem netRequest_performed (hh : s.halted = false) (hf : s.fw.recovery = false) (hp : portExists r = true) (hk : keyAllows s k r = .ok ctx)
    (hport : portHeld (bound s r ctx) ⟨k, r, ctx⟩ = none)
    (hb : ¬ ((∃ d ∈ (bound s r ctx).deferral, d.req.qp = r.qp) ∨ heldConflict (bound s r ctx) ctx r.va (reqLen k r) (reqWrites k) = true)) :
    netRequest s k r = netPerform (bound s r ctx) k r ctx := by
  rw [netRequest_allowed hh hf hp hk, hport]
  exact if_neg (by simpa using hb)

/-! ### Requests performed (R293, R394, R395) -/

/-- An agent stores only at addresses that its context may write. -/
theorem agentBytes_of_agentWrite {s t : State} {ctx va : Nat} {bs : List Byte} {pay : Charge} (h : agentWrite s ctx va bs pay = .ok t) :
    ∃ l, agentBytes s ctx va bs.length .write = .ok l := by
  unfold agentWrite at h
  split at h
  · cases h
  · next l e => exact ⟨l, e⟩

theorem netPerform_write {t : State} (h : agentWrite s ctx r.va r.data .agent = .ok t) :
    netPerform s .write r ctx = answer (t.bump .rxbytes r.port r.data.length) .ack := by
  obtain ⟨l, hl⟩ := agentBytes_of_agentWrite h
  have hb : agentBytes s ctx r.va (reqLen .write r) (if reqWrites .write then .write else .read) = .ok l := hl
  simp only [netPerform, hb, h]
  rfl

/-- R406: a read answers the bytes and corrects the words that it reads. -/
theorem netPerform_read {pas : List Nat} (h : agentBytes s ctx r.va r.len .read = .ok pas) (hclean : ∀ a ∈ pas, wordPoisoned s (a / 4) = false) :
    netPerform s .read r ctx = answer ((correctBytes s pas).bump .txbytes r.port r.len) (.bytes (pas.map (memByte s))) := by
  have hb : agentBytes s ctx r.va (reqLen .read r) (if reqWrites .read then .write else .read) = .ok pas := h
  have hnone : (pas.any fun a => wordPoisoned s (a / 4)) = false := List.any_eq_false.2 fun a ha => by simp [hclean a ha]
  simp only [netPerform, hb, hnone]
  rfl

/-- R285, R395: an atomic is one event at the home and answers the old word. -/
theorem netAtomic_clean {pa : Nat} {f : Nat → Nat} {t : State} (ht : recallLines (correctMem s (homeOf s pa) pa 8) pa 8 .agent = t)
    (hclean : memPoisoned t pa 8 = false) :
    netAtomic s pa f = answer (forgetStores (homeStore t pa (leBytes 8 (f (memNat t pa 8)))) pa 8) (.words [w64 (memNat t pa 8)]) := by
  simp [netAtomic, homeEvent, ht, hclean]

theorem netPerform_atomic {pa : Nat} {rest : List Nat} (hk : k = .fetchAdd ∨ k = .cmpSwap) (h : agentBytes s ctx r.va 8 .write = .ok (pa :: rest)) :
    netPerform s k r ctx = netAtomic s pa fun old =>
      if k = .fetchAdd then (old + r.value.toNat) % 2 ^ 64 else if old = r.compare.toNat then r.value.toNat else old := by
  rcases hk with rfl | rfl
  · have hb : agentBytes s ctx r.va (reqLen .fetchAdd r) (if reqWrites .fetchAdd then .write else .read) = .ok (pa :: rest) := h
    simp only [netPerform, hb]
    rfl
  · have hb : agentBytes s ctx r.va (reqLen .cmpSwap r) (if reqWrites .cmpSwap then .write else .read) = .ok (pa :: rest) := h
    simp only [netPerform, hb]
    rfl

end

theorem exec_netRequest {s : State} {i : Instr} {k : NetKind} {r : NetReq} (hi : (i = .netRdmaWrite r ∧ k = .write) ∨
    (i = .netRdmaRead r ∧ k = .read) ∨ (i = .netAtomicFetchAdd r ∧ k = .fetchAdd) ∨ (i = .netAtomicCmpSwap r ∧ k = .cmpSwap)) :
    exec i s = .next (netRequest s k r) := by
  rcases hi with ⟨rfl, rfl⟩ | ⟨rfl, rfl⟩ | ⟨rfl, rfl⟩ | ⟨rfl, rfl⟩ <;> rfl

/-- R347, R394: a deferred request that nothing holds any more. -/
theorem execDeferredRequestPerform_released {s : State} {ix : Nat} {d : Deferred} (hd : s.deferral[ix]? = some d) (hh : s.halted = false)
    (hr : released s ix = true) :
    exec (.deferredRequestPerform ix) s = .next (netPerform { s with deferral := s.deferral.eraseIdx ix } d.kind d.req d.ctx) := by
  change execDeferredRequestPerform ix s = _
  simp [execDeferredRequestPerform, performDeferred, hh, hd, hr]

end Sys2Proof.Machine

namespace Sys2Proof

open Machine in
/-- Settles O48. -/
theorem networkRequests : Obligations.NetworkRequests := by
  unfold Obligations.NetworkRequests
  refine ⟨fun s i k r ctx hi hh hf hp => ⟨fun c hk => ?_, fun hk => ?_⟩, fun s ix d hd hh hr => execDeferredRequestPerform_released hd hh hr⟩
  · rw [exec_netRequest hi, netRequest_refused hh hf hp hk]
  · rw [exec_netRequest hi]
    refine ⟨fun t ht => congrArg _ (netRequest_held hh hf hp hk ht), fun hport => ⟨fun hb => congrArg _ (netRequest_deferred hh hf hp hk hport hb), fun hb => ?_⟩⟩
    rw [netRequest_performed hh hf hp hk hport hb]
    refine ⟨fun t hw ht => ?_, fun pas hw hpas hclean => ?_, fun pa rest hw hpas hclean => ?_⟩
    · subst hw
      exact congrArg _ (netPerform_write ht)
    · subst hw
      exact congrArg _ (netPerform_read hpas hclean)
    · exact congrArg _ ((netPerform_atomic hw hpas).trans (netAtomic_clean rfl hclean))

end Sys2Proof

/-! ## Scope: the commands of the host (O53, O54, O55) -/

namespace Sys2Proof.Machine

/-! ### A command of an open session (R374, R438, R439) -/

section

variable {s : State} {n : Nat} {x : Session}

theorem command_open (hx : KMap.get? s.sessions n = some x) (hh : s.halted = false) (hf : s.fw.recovery = false)
    (f : Session → Host.Outcome State Fault Refusal) : command s n f = f x := by
  have hc : (s.halted || s.fw.recovery) = false := by rw [hh, hf]; rfl
  unfold command
  rw [hx, hc]
  rfl

theorem anyCommand_open (hx : KMap.get? s.sessions n = some x) (f : Session → Host.Outcome State Fault Refusal) : anyCommand s n f = f x := by
  unfold anyCommand
  rw [hx]

variable (hx : KMap.get? s.sessions n = some x) (hh : s.halted = false) (hf : s.fw.recovery = false)
include hx hh hf

theorem ctxCommand_open {ctx : Nat} (hn : mayName s x ctx = true) (f : Option Ctx → Host.Outcome State Fault Refusal) :
    ctxCommand s n ctx f = f (s.ctx? ctx) := by
  rw [ctxCommand, command_open hx hh hf, if_pos hn]

theorem secureCommand_open (hs : x.secure = true) (o : Host.Outcome State Fault Refusal) : secureCommand s n o = o := by
  rw [secureCommand, command_open hx hh hf, if_pos hs]

theorem secureCommand_world (hs : x.secure = false) (o : Host.Outcome State Fault Refusal) : secureCommand s n o = refusedWith s "WORLD" := by
  rw [secureCommand, command_open hx hh hf, hs]
  rfl

/-! ### Contexts (R373, R374) -/

section

variable {ctx : Nat} {p : CtxFields}

/-- R374: what CTXSET does once the session may set those fields and they keep their limits. -/
theorem execCtxset_allowed (hn : mayName s x ctx = true) (hw : p.secure = true → x.secure = true) (hok : fieldsOk s ctx p = true) :
    execCtxset n ctx (some p) s = match s.ctx? ctx with
      | none => accepted (setErrRing ({ s with
          agents := KMap.del s.agents ctx
          counters := ctxCounters.foldl (fun m (c : Counter) => KMap.del m (c.key ctx)) s.counters }.setCtx ctx
            { Ctx.fresh .idle p s.tick with debug := KMap.get? s.agents ctx }) ctx p.errlog.toNat)
      | some c =>
        if c.state ≠ .idle && (p.secure ≠ c.m.secure || p.coremask ≠ c.m.coremask) then refusedWith s "STATE"
        else accepted (if p.errlog = c.m.errlog then s.setCtx ctx { c with m := p } else setErrRing (s.setCtx ctx { c with m := p }) ctx p.errlog.toNat) := by
  have h1 : (!mayName s x ctx || (p.secure && !x.secure)) = false := by
    rw [hn]
    cases hp : p.secure with
    | false => rfl
    | true => rw [hw hp]; rfl
  unfold execCtxset
  rw [command_open hx hh hf]
  simp only [h1, hok]
  rfl

theorem execCtxset_new (hn : mayName s x ctx = true) (hw : p.secure = true → x.secure = true) (hok : fieldsOk s ctx p = true)
    (hc : s.ctx? ctx = none) :
    execCtxset n ctx (some p) s = accepted (setErrRing ({ s with
        agents := KMap.del s.agents ctx
        counters := ctxCounters.foldl (fun m (c : Counter) => KMap.del m (c.key ctx)) s.counters }.setCtx ctx
          { Ctx.fresh .idle p s.tick with debug := KMap.get? s.agents ctx }) ctx p.errlog.toNat) := by
  rw [execCtxset_allowed hx hh hf hn hw hok, hc]

theorem execCtxset_changed {c : Ctx} (hn : mayName s x ctx = true) (hw : p.secure = true → x.secure = true) (hok : fieldsOk s ctx p = true)
    (hc : s.ctx? ctx = some c) (hst : c.state = .idle ∨ (p.secure = c.m.secure ∧ p.coremask = c.m.coremask)) (he : p.errlog = c.m.errlog) :
    execCtxset n ctx (some p) s = accepted (s.setCtx ctx { c with m := p }) := by
  have h1 : (c.state ≠ .idle && (p.secure ≠ c.m.secure || p.coremask ≠ c.m.coremask)) = false := by
    rcases hst with h | ⟨h, h'⟩
    · simp [h]
    · simp [h, h']
  rw [execCtxset_allowed hx hh hf hn hw hok, hc]
  simp only [h1, if_pos he]
  rfl

theorem execCtxset_limit (hn : mayName s x ctx = true) (hw : p.secure = true → x.secure = true) (hok : fieldsOk s ctx p = false) :
    execCtxset n ctx (some p) s = refusedWith s "LIMIT" := by
  have h1 : (!mayName s x ctx || (p.secure && !x.secure)) = false := by
    rw [hn]
    cases hp : p.secure with
    | false => rfl
    | true => rw [hw hp]; rfl
  unfold execCtxset
  rw [command_open hx hh hf]
  simp only [h1, hok]
  rfl

theorem execCtxset_world (hp : p.secure = true) (hs : x.secure = false) : execCtxset n ctx (some p) s = refusedWith s "WORLD" := by
  unfold execCtxset
  rw [command_open hx hh hf]
  simp [hp, hs]

theorem execCtxreset_set {c : Ctx} (hn : mayName s x ctx = true) (hc : s.ctx? ctx = some c) :
    execCtxreset n ctx s = accepted (forceReset s ctx 3) := by
  rw [execCtxreset, ctxCommand_open hx hh hf hn, hc]
  rfl

theorem execCtxclear_idle {c : Ctx} (hn : mayName s x ctx = true) (hc : s.ctx? ctx = some c) (hi : c.state = .idle) (hq : ctxQueues s ctx = []) :
    execCtxclear n ctx s = accepted { s with
        ctxs := KMap.del s.ctxs ctx
        agents := match Ctx.debug c with
          | some d => KMap.put s.agents ctx d
          | none => s.agents
        keys := s.keys.filter fun e => e.2.ctx != ctx
        windows := s.windows.filter fun e => e.2.ctx != ctx
        qps := s.qps.filter fun e => e.2.ctx != ctx
        telModule := if s.telModule = some ctx then none else s.telModule } := by
  rw [execCtxclear, ctxCommand_open hx hh hf hn, hc]
  exact if_neg (by simp [hi, hq])

theorem execCtxclear_busy {c : Ctx} (hn : mayName s x ctx = true) (hc : s.ctx? ctx = some c) (hb : c.state ≠ .idle ∨ ctxQueues s ctx ≠ []) :
    execCtxclear n ctx s = refusedWith s "STATE" := by
  rw [execCtxclear, ctxCommand_open hx hh hf hn, hc]
  exact if_pos (by simpa using hb)

end

/-! ### Queues (R374, R386, R387, R390, R393) -/

theorem execQmap_free {ctx q : Nat} {p : QueueFields} {bs : List Byte} {c : Ctx} (hn : mayName s x ctx = true) (hc : s.ctx? ctx = some c)
    (hq : q < 32) (hfree : s.queue? q = none) (hd : descriptorOk p = true) (hr : agentRead s ctx p.headAddr.toNat 8 = .ok bs) :
    execQmap n q ctx p s =
      accepted (s.setQueue q { ctx, d := p, head := leVal bs, act := .acting, arm := none, armFail := none, unmapping := false }) := by
  rw [execQmap, ctxCommand_open hx hh hf hn, hc]
  simp [hfree, hd, hr, Nat.not_le.2 hq]

section

variable {q : Nat} {d : Queue} (hq : s.queue? q = some d) (hn : mayName s x d.ctx = true)
include hq hn

theorem execQunmap_still (ha : d.act = .blocked ∨ ∃ e, d.act = .error e) : execQunmap n q s = accepted { s with queues := KMap.del s.queues q } := by
  rw [execQunmap, command_open hx hh hf]
  rcases ha with ha | ⟨e, ha⟩ <;> simp [hq, hn, ha]

theorem execQunmap_acting (ha : d.act = .acting) : execQunmap n q s = accepted (s.setQueue q { d with unmapping := true }) := by
  rw [execQunmap, command_open hx hh hf]
  simp [hq, hn, ha]

theorem execQresume_error {e : Nat} (ha : d.act = .error e) (skip : Bool) :
    execQresume n q skip s = accepted (if skip then packetDone (s.setQueue q { d with act := .acting, armFail := none }) q
      else s.setQueue q { d with act := .acting, armFail := none }) := by
  rw [execQresume, command_open hx hh hf]
  simp [hq, hn, ha]

theorem execQresume_state (ha : d.act = .acting ∨ d.act = .blocked) (skip : Bool) : execQresume n q skip s = refusedWith s "STATE" := by
  rw [execQresume, command_open hx hh hf]
  rcases ha with ha | ha <;> simp [hq, hn, ha]

end

/-! ### Rings (R405, R414, R415, R420, R423) -/

theorem execTelset_within {ctx k : Nat} {ring : W64} {mods : Bool} {c : Ctx} (hn : mayName s x ctx = true) (hc : s.ctx? ctx = some c)
    (hlo : 10 ≤ k) (hhi : k ≤ 24) (hr : ring.toNat % 64 = 0) (hm : mods = true → s.telModule = none ∨ s.telModule = some ctx) :
    execTelset n k ctx ring mods s = accepted { (setRing s ctx ring.toNat 1).2 with
        ctxs := KMap.modify (setRing s ctx ring.toNat 1).2.ctxs ctx fun c => { c with telRing := some (setRing s ctx ring.toNat 1).1, telMods := mods }
        telInterval := some k
        telModule := if mods then some ctx else if (setRing s ctx ring.toNat 1).2.telModule = some ctx then none
          else (setRing s ctx ring.toNat 1).2.telModule } := by
  have h1 : ¬ (k < 10 || 24 < k || ring.toNat % 64 ≠ 0) = true := by simp [hr, Nat.not_lt.2 hlo, Nat.not_lt.2 hhi]
  have h2 : ¬ (mods && s.telModule.isSome && s.telModule ≠ some ctx) = true := by
    cases mods with
    | false => simp
    | true => rcases hm rfl with h | h <;> rw [h] <;> simp
  rw [execTelset, ctxCommand_open hx hh hf hn, hc]
  refine (if_neg (by simp)).trans ?_
  rw [if_neg h1, if_neg h2]

theorem execTraceset_within {ctx die iv : Nat} {ring : W64} {en : BitVec 4} {c : Ctx} (hn : mayName s x ctx = true) (hc : s.ctx? ctx = some c)
    (hd : die < 2) (hlo : 10 ≤ iv) (hhi : iv ≤ 24) (hr : ring.toNat % 64 = 0) :
    execTraceset n ctx die ring en iv s = accepted (traceTime { (setRing (traceReady s ctx die) ctx ring.toNat 2 die).2 with
      ctxs := KMap.modify (setRing (traceReady s ctx die) ctx ring.toNat 2 die).2.ctxs ctx fun c =>
        { c with trace := KMap.put c.trace die ⟨(setRing (traceReady s ctx die) ctx ring.toNat 2 die).1, en, iv⟩ } } ctx die) := by
  have h1 : ¬ (iv < 10 || 24 < iv || 2 ≤ die || ring.toNat % 64 ≠ 0) = true := by
    simp [hr, Nat.not_lt.2 hlo, Nat.not_lt.2 hhi, Nat.not_le.2 hd]
  rw [execTraceset, ctxCommand_open hx hh hf hn, hc]
  refine (if_neg (by simp)).trans ?_
  rw [if_neg h1]

/-! ### Keys, windows and worlds (R396, R397, R399, R400) -/

theorem execKeyset_new {key : W32} {e : KeyEntry} {c : Ctx} (hk : KMap.get? s.keys key.toNat = none) (hc : s.ctx? e.ctx = some c)
    (hn : mayName s x e.ctx = true) (hw : e.secure = c.m.secure) (hl : s.keys.length < 4096) :
    execKeyset n key (some e) s = accepted { s with keys := KMap.put s.keys key.toNat e } := by
  rw [execKeyset, command_open hx hh hf]
  simp [hk, hc, hn, hw, Nat.not_le.2 hl]

theorem execKeyset_removed {key : W32} {e : KeyEntry} (hk : KMap.get? s.keys key.toNat = some e) (hn : mayName s x e.ctx = true) :
    execKeyset n key none s = accepted { s with keys := KMap.del s.keys key.toNat } := by
  rw [execKeyset, command_open hx hh hf]
  simp [hk, hn]

section

variable {w : Nat} (ho : ∀ o, KMap.get? s.windows w = some o → mayName s x o.ctx = true) (hp : ∀ p ∈ s.peers, p.2.window ≠ w)
include ho hp

omit hx hh hf in
/-- R397: WINSET passes its checks where the session may name the contexts of the entry before and after, and no access is in flight
through the window. -/
theorem winset_checks (entry : Option WindowEntry) (he : ∀ e, entry = some e → mayName s x e.ctx = true) :
    (!((KMap.get? s.windows w).map fun e => mayName s x e.ctx).getD true || !(entry.map fun e => mayName s x e.ctx).getD true) = false ∧
      (s.peers.any fun e => e.2.window == w) = false := by
  have named : ∀ m : Option WindowEntry, (∀ e, m = some e → mayName s x e.ctx = true) → (m.map fun e => mayName s x e.ctx).getD true = true := by
    intro m hm
    cases m with
    | none => rfl
    | some e => exact hm e rfl
  refine ⟨?_, List.any_eq_false.2 fun p hm => by simpa using hp p hm⟩
  rw [named _ ho, named _ he]
  rfl

theorem execWinset_none : execWinset n w none s = accepted { s with windows := KMap.del s.windows w } := by
  obtain ⟨h1, h2⟩ := winset_checks ho hp none (fun _ h => nomatch h)
  unfold execWinset
  rw [command_open hx hh hf]
  exact (if_neg (by rw [h1]; decide)).trans (if_neg (by rw [h2]; decide))

theorem execWinset_some {e : WindowEntry} (he : mayName s x e.ctx = true) :
    execWinset n w (some e) s =
      if !windowOk w e then refusedWith s "LIMIT"
      else if !qpFree s e.qp e.port e.ctx then refusedWith s "BOUND"
      else accepted { s with windows := KMap.put s.windows w e, qps := KMap.put s.qps e.qp ⟨e.port, e.ctx⟩ } := by
  obtain ⟨h1, h2⟩ := winset_checks ho hp (some e) (fun o h => by rw [← Option.some.inj h]; exact he)
  unfold execWinset
  rw [command_open hx hh hf]
  exact (if_neg (by rw [h1]; decide)).trans (if_neg (by rw [h2]; decide))

end

theorem execSecset_open {rs : List SecRange} {cores : LaneMask} (hs : x.secure = true) (hl : rs.length ≤ 16) (hr : rs.all rangeOk = true)
    (ht : ∀ e ∈ s.teams, ∀ h ∈ e.2.halves, (s.secureCores ^^^ cores).getLsbD h.core = false) :
    execSecset n rs cores s = accepted { s with secure := rs, secureCores := cores } := by
  have h1 : ¬ (s.teams.any fun e => e.2.halves.any fun h => (s.secureCores ^^^ cores).getLsbD h.core) = true := by
    simp only [List.any_eq_true, not_exists, not_and, Bool.not_eq_true]
    exact ht
  rw [execSecset, command_open hx hh hf]
  refine (if_neg (by simp [hs])).trans ((if_neg (by simp [hr, Nat.not_lt.2 hl])).trans (if_neg h1))

theorem execSecset_world {rs : List SecRange} {cores : LaneMask} (hs : x.secure = false) : execSecset n rs cores s = refusedWith s "WORLD" := by
  rw [execSecset, command_open hx hh hf]
  exact if_pos (by simp [hs])

end

end Sys2Proof.Machine

namespace Sys2Proof

open Machine in
/-- Settles O53. -/
theorem managementCommands : Obligations.ManagementCommands := by
  unfold Obligations.ManagementCommands
  intro s n x hx hh hf ok no
  refine ⟨fun ctx p hn hw hok => ⟨fun hc => execCtxset_new hx hh hf hn hw hok hc, fun c hc hst he => execCtxset_changed hx hh hf hn hw hok hc hst he⟩,
    fun ctx p hn hw hok => execCtxset_limit hx hh hf hn hw hok, fun ctx p hp hs => execCtxset_world hx hh hf hp hs,
    fun ctx => command_open hx hh hf _, fun ctx c hn hc => ⟨execCtxreset_set hx hh hf hn hc, fun hi hq => execCtxclear_idle hx hh hf hn hc hi hq,
      fun hb => execCtxclear_busy hx hh hf hn hc hb, fun q p bs hq hfree hd hr => execQmap_free hx hh hf hn hc hq hfree hd hr,
      fun k ring mods hlo hhi hr hm => execTelset_within hx hh hf hn hc hlo hhi hr hm,
      fun die ring en iv hd hlo hhi hr => execTraceset_within hx hh hf hn hc hd hlo hhi hr⟩,
    fun ctx => command_open hx hh hf _, fun q d hq hn => ⟨fun ha => execQunmap_still hx hh hf hq hn ha, fun ha => execQunmap_acting hx hh hf hq hn ha,
      fun e ha => ⟨execQresume_error hx hh hf hq hn ha false, execQresume_error hx hh hf hq hn ha true⟩, fun ha b => execQresume_state hx hh hf hq hn ha b⟩,
    fun key e c hk hc hn hw hl => execKeyset_new hx hh hf hk hc hn hw hl, fun key e hk hn => execKeyset_removed hx hh hf hk hn,
    fun w e ho hn hp => ?_, fun rs cores hs hl hr ht => execSecset_open hx hh hf hs hl hr ht, fun rs cores hs => execSecset_world hx hh hf hs⟩
  have hset := execWinset_some hx hh hf ho hp hn
  refine ⟨fun hw hq => ?_, fun hw hq => ?_, fun hw => ?_, execWinset_none hx hh hf ho hp⟩
  · exact hset.trans ((if_neg (by simp [hw])).trans (if_neg (by simp [hq])))
  · exact hset.trans ((if_neg (by simp [hw])).trans (if_pos (by simp [hq])))
  · exact hset.trans (if_pos (by simp [hw]))

end Sys2Proof

/-! ## Scope: the debug agent, dumps and LOGREAD (O54) -/

namespace Sys2Proof.Machine

/-! ### The agent of a context (R425, R426) -/

theorem agentOf_ctx {s : State} {ctx : Nat} {c : Ctx} (hc : s.ctx? ctx = some c) : agentOf s ctx = c.debug := by
  rw [agentOf, hc]

theorem agentOf_free {s : State} {ctx : Nat} (hc : s.ctx? ctx = none) : agentOf s ctx = KMap.get? s.agents ctx := by
  rw [agentOf, hc]

theorem setAgent_ctx {s : State} {ctx : Nat} {c : Ctx} (hc : s.ctx? ctx = some c) (d : Option DebugRegs) :
    setAgent s ctx d = s.setCtx ctx { c with debug := d } := by
  unfold setAgent
  rw [hc]

theorem setAgent_free {s : State} {ctx : Nat} (hc : s.ctx? ctx = none) (d : DebugRegs) :
    setAgent s ctx (some d) = { s with agents := KMap.put s.agents ctx d } := by
  unfold setAgent
  rw [hc]

section

variable {s : State} {n ctx : Nat} {x : Session} (hx : KMap.get? s.sessions n = some x) (hh : s.halted = false) (hf : s.fw.recovery = false)
  (hn : mayName s x ctx = true)
include hx hh hf hn

theorem execDbgattach_without (hl : ctx < 64) (ha : agentOf s ctx = none) :
    execDbgattach n ctx s = accepted (setAgent s ctx (some { session := n, bp := [], dw := [], sw := [] })) := by
  rw [execDbgattach, ctxCommand_open hx hh hf hn, if_neg (Nat.not_le.2 hl), ha]
  rfl

theorem execDbgattach_taken (hl : ctx < 64) (ha : agentOf s ctx ≠ none) : execDbgattach n ctx s = refusedWith s "AGENT" := by
  rw [execDbgattach, ctxCommand_open hx hh hf hn, if_neg (Nat.not_le.2 hl), if_pos (Option.isSome_iff_ne_none.2 ha)]

section

variable {d : DebugRegs} (ha : agentOf s ctx = some d) (hd : d.session = n)
include ha hd

theorem execDbgdetach_agent : execDbgdetach n ctx s = accepted (dumpRelease (releaseAll (setAgent s ctx none) ctx) ctx) := by
  rw [execDbgdetach, ctxCommand_open hx hh hf hn, if_pos]
  rw [isAgent, ha]
  exact beq_iff_eq.2 hd

theorem execDbgset_agent {item : DebugItem} {v : W64} (hv : debugOk d item v = true) :
    execDbgset n ctx item v s = accepted (setAgent s ctx (some (setDebug d item v))) := by
  rw [execDbgset, ctxCommand_open hx hh hf hn, ha]
  simp only [hd, hv, ne_eq, not_true_eq_false, if_false, Bool.not_true, Bool.false_eq_true]

end

/-! ### A stopped gang (R429 to R431) -/

theorem execGstate_running {ref : GangRef} (hg : stoppedGang s ctx ref = none) (item : GangItem) :
    execGstate n ctx ref item s = refusedWith s "RUNNING" := by
  rw [execGstate, ctxCommand_open hx hh hf hn, hg]

section

variable {ref : GangRef} {g : Gang} {p : Nat} (hg : stoppedGang s ctx ref = some (g, p))
include hg

theorem execGstate_stopped {item : GangItem} (hi : itemOk g item = true) :
    execGstate n ctx ref item s = .next (answer s (.words (itemRead g item))) := by
  rw [execGstate, ctxCommand_open hx hh hf hn, hg]
  exact if_pos hi

theorem execGset_stopped {item : GangItem} {v : W64} (hi : itemSettable g item v = true) :
    execGset n ctx ref item v s = accepted (s.setGang ref (g.agentSet p item v)) := by
  rw [execGset, ctxCommand_open hx hh hf hn, hg]
  exact if_pos hi

theorem execGset_limit {item : GangItem} {v : W64} (hi : itemSettable g item v = false) :
    execGset n ctx ref item v s = refusedWith s "LIMIT" := by
  rw [execGset, ctxCommand_open hx hh hf hn, hg]
  exact if_neg (by simp [hi])

theorem execGrelease_stopped (step : Bool) :
    execGrelease n ctx ref step s = accepted (dumpRelease (s.setGang ref (g.released step)) ctx) := by
  rw [execGrelease, ctxCommand_open hx hh hf hn, hg]

end

/-! ### A dump begins (R414, R432) -/

theorem execDump_begins {c : Ctx} {area : W64} {hold : Bool} (hc : s.ctx? ctx = some c)
    (hst : c.state = .scheduled ∨ c.state = .draining ∨ c.state = .preempted) (he : ∀ e, KMap.get? s.dumps ctx = some e → e.ended = true)
    (hact : s.fw.activating = none) :
    execDump n ctx area hold s = accepted (beginDump s ctx {
      area, hold, t0 := s.tick, stop0 := false, stop1 := false, cut0 := false, cut1 := false, records := [], held := [], ended := false }) := by
  have hok : (c.state == .scheduled || c.state == .draining || c.state == .preempted) = true := by
    rcases hst with h | h | h <;> simp [h]
  have hended : (KMap.get? s.dumps ctx).any (!·.ended) = false := by
    cases hd : KMap.get? s.dumps ctx with
    | none => rfl
    | some e => simp [he e hd]
  rw [execDump, ctxCommand_open hx hh hf hn, hc]
  exact if_neg (by simp [hok, hended, hact])

end

theorem beginDump_first {s : State} {ctx : Nat} (h : KMap.get? s.dumps ctx = none) (d : Dump) :
    beginDump s ctx d = { s with dumps := KMap.put s.dumps ctx d } := by
  rw [beginDump, h]

/-! ### GSET of a register that no fill writes (R430) -/

theorem agentSet_noFill {g : Gang} {item : GangItem} {x : W64} {w : RegWrite} (hw : itemWrite item x = some w)
    (hf : (g.fills.any fun f => f.writes.any fun y => y.meets w) = false) (P : Nat) : g.agentSet P item x = g.write w := by
  have hnone : (g.fills.filter fun f => f.writes.any fun y => y.meets w) = [] :=
    List.filter_eq_nil_iff.2 fun f hm => by simpa using List.any_eq_false.1 hf f hm
  simp only [Gang.agentSet, hw, hnone]
  rfl

theorem writeV_regsKept (g : Gang) (k l : Nat) (x : W64) (p : BitVec 2) : RegsKept g (g.write (.v k l x p)) (fun c => c = k * g.width + l)
    (fun _ => False) (fun _ _ => False) (fun _ => False) := by
  refine RegsKept.mono (writes_regsKept g [.v k l x p]) ?_ ?_ ?_ ?_
  · rintro c ⟨k', l', ⟨v, q, h⟩ | ⟨m, v, q, h⟩, rfl⟩
    · cases List.mem_singleton.1 h
      rfl
    · cases List.mem_singleton.1 h
  · rintro k' ⟨v, q, h⟩
    cases List.mem_singleton.1 h
  · rintro k' l' ⟨b, h⟩
    cases List.mem_singleton.1 h
  · rintro k' ⟨v, q, h⟩
    cases List.mem_singleton.1 h

theorem write_specialsKept (g : Gang) (w : RegWrite) : SpecialsKept g (g.write w) := by constructor <;> simp

/-! ### The cuts of a dump (R432) -/

section

variable {s : State} {ctx : Nat} {d : Dump} (hd : KMap.get? s.dumps ctx = some d)
include hd

theorem execDumpDieCut_marker0 (h : d.stop0 = false) :
    execDumpDieCut ctx 0 s = .next { s with dumps := KMap.put s.dumps ctx { d with stop0 := true } } := by
  simp [execDumpDieCut, hd, h]

theorem execDumpDieCut_marker1 (h : d.stop1 = false) :
    execDumpDieCut ctx 1 s = .next { s with dumps := KMap.put s.dumps ctx { d with stop1 := true } } := by
  simp [execDumpDieCut, hd, h]

theorem execDumpDieCut_busy {die : Nat} (hl : die < 2) (hs : (if die = 0 then d.stop0 else d.stop1) = true) (hq : dieQuiet s ctx die = false) :
    execDumpDieCut ctx die s = .next s := by
  simp [execDumpDieCut, hd, hs, hq, Nat.not_le.2 hl]

theorem execDumpDieCut_cut0 (hs : d.stop0 = true) (hc : d.cut0 = false) (hq : dieQuiet s ctx 0 = true) :
    let d' := { d with records := d.records ++ dieRecords s ctx 0, cut0 := true }
    let s' : State := { s with dumps := KMap.put s.dumps ctx d' }
    execDumpDieCut ctx 0 s = .next (if d.cut1 then endDump s' ctx d' else s') := by
  simp [execDumpDieCut, hd, hs, hc, hq]

theorem execDumpDieCut_cut1 (hs : d.stop1 = true) (hc : d.cut1 = false) (hq : dieQuiet s ctx 1 = true) :
    let d' := { d with records := d.records ++ dieRecords s ctx 1, cut1 := true }
    let s' : State := { s with dumps := KMap.put s.dumps ctx d' }
    execDumpDieCut ctx 1 s = .next (if d.cut0 then endDump s' ctx d' else s') := by
  simp [execDumpDieCut, hd, hs, hc, hq]

end

/-! ### The module log (R412) -/

theorem execLogread_whole {s : State} {n : Nat} {x : Session} (hx : KMap.get? s.sessions n = some x) (hl : s.modLogCount = s.modLog.length) (k : Nat) :
    execLogread n k s = .next (answer s (.bytes ((s.modLog.drop k).flatMap LogEntry.bytes))) := by
  simp only [execLogread, anyCommand_open hx, hl, Nat.sub_self, Nat.sub_zero]

end Sys2Proof.Machine

namespace Sys2Proof

open Machine in
/-- Settles O54. -/
theorem debugCommands : Obligations.DebugCommands := by
  unfold Obligations.DebugCommands
  refine ⟨?_, ?_, ?_, fun s n k x hx hl => execLogread_whole hx hl k⟩
  · intro s n ctx x c hx hh hf hn hc ok
    have ha := agentOf_ctx hc
    have hset := setAgent_ctx hc
    refine ⟨fun hd hl => ?_, fun hd hl => execDbgattach_taken hx hh hf hn hl (ha ▸ hd), fun d hd hs => ⟨?_, fun item v hv => ?_⟩,
      fun ref g p hg => ⟨fun item hi => execGstate_stopped hx hh hf hn hg hi, fun k l v hk hl hfill => ⟨g.write (.v k l v 0#2), ?_,
        KMap.get_set_self _ _ _ _, writeV_regsKept g k l v 0#2, write_specialsKept g _, Gang.write_pc g _⟩, fun l v hl hv => ?_, fun k v hk => ?_,
        fun step => execGrelease_stopped hx hh hf hn hg step⟩,
      fun ref item hg => execGstate_running hx hh hf hn hg item,
      fun area hold hst he hact => ⟨execDump_begins hx hh hf hn hc hst he hact, fun hnone => beginDump_first hnone _⟩⟩
    · exact (execDbgattach_without hx hh hf hn hl (ha.trans hd)).trans (congrArg accepted (hset _))
    · exact (execDbgdetach_agent hx hh hf hn (ha.trans hd) hs).trans
        (congrArg (fun t => accepted (dumpRelease (releaseAll t ctx) ctx)) (hset none))
    · exact (execDbgset_agent hx hh hf hn (ha.trans hd) hs hv).trans (congrArg accepted (hset _))
    · exact (execGset_stopped hx hh hf hn hg (by simp [itemSettable, itemOk, hk, hl])).trans
        (congrArg (fun a => accepted (s.setGang ref a)) (agentSet_noFill rfl hfill p))
    · exact execGset_stopped hx hh hf hn hg (by simp [itemSettable, itemOk, hl, hv])
    · exact execGset_limit hx hh hf hn hg (by simp [itemSettable])
  · intro s n ctx x hx hh hf hc hl ha
    have hn : mayName s x ctx = true := by simp [mayName, hc]
    exact (execDbgattach_without hx hh hf hn hl ((agentOf_free hc).trans ha)).trans (congrArg accepted (setAgent_free hc _))
  · intro s ctx d hd
    exact ⟨execDumpDieCut_marker0 hd, execDumpDieCut_marker1 hd, execDumpDieCut_cut0 hd, execDumpDieCut_cut1 hd,
      fun die hl hs hq => execDumpDieCut_busy hd hl hs hq⟩

end Sys2Proof

/-! ## Scope: sessions, slots, activation, attestation and checkpoints (O55) -/

namespace Sys2Proof.Machine

/-! ### The slot selector and flash (R435) -/

theorem selPref_selWith (w : W64) (p trial tried : Bool) : selPref (selWith w p trial tried) = p := by
  cases p <;> cases trial <;> cases tried <;> simp [selPref, selWith]

theorem selTrial_selWith (w : W64) (p trial tried : Bool) : selTrial (selWith w p trial tried) = trial := by
  cases p <;> cases trial <;> cases tried <;> simp [selTrial, selWith]

theorem selTried_selWith (w : W64) (p trial tried : Bool) : selTried (selWith w p trial tried) = tried := by
  cases p <;> cases trial <;> cases tried <;> simp [selTried, selWith]

theorem toNat_raised (floor v : W32) : (if floor.toNat < v.toNat then v else floor).toNat = max floor.toNat v.toNat := by
  split <;> omega

/-! ### Sessions (R439) -/

section

variable {s : State} {n k : Nat} {key sig host hostKey : List Byte} {secure : Bool} (ho : s.fw.config.owners[k]? = some (key, secure))
include ho

theorem execSessionOpen_signed (hn : n < 16) (hfree : KMap.get? s.sessions n = none) (hsig : ecVerify key s.challenge sig = true)
    (hkey : ecOnCurve hostKey = true) :
    execSessionOpen n k sig ⟨host, hostKey⟩ s = .next (answer { s with
        challenge := Config.challenge s.freeCtr
        freeCtr := s.freeCtr + 1
        sessions := KMap.put s.sessions n
          { secure, ownerKey := k, keys := sessionKeys (ecSecret (Config.ephemeral s.freeCtr)) hostKey } }
      (.bytes (identitySign host ++ ecPublic (ecSecret (Config.ephemeral s.freeCtr))))) := by
  have hc : (n < 16 && (KMap.get? s.sessions n).isNone && ecVerify key s.challenge sig && ecOnCurve hostKey) = true := by
    simp [hn, hfree, hsig, hkey]
  unfold execSessionOpen
  simp only [ho]
  exact if_pos hc

theorem execSessionOpen_unsigned (hbad : ecVerify key s.challenge sig = false ∨ ecOnCurve hostKey = false) :
    execSessionOpen n k sig ⟨host, hostKey⟩ s =
      refusedWith { s with challenge := Config.challenge s.freeCtr, freeCtr := s.freeCtr + 1 } "OWNER" := by
  have hc : ¬ (n < 16 && (KMap.get? s.sessions n).isNone && ecVerify key s.challenge sig && ecOnCurve hostKey) = true := by
    rcases hbad with h | h <;> simp [h]
  unfold execSessionOpen
  simp only [ho]
  exact if_neg hc

end

section

variable {s : State} {n : Nat} {x : Session} (hx : KMap.get? s.sessions n = some x)
include hx

theorem execIdent_open : execIdent n s = .next (answer s (.bytes (identityKey ++ Config.identityCert))) := anyCommand_open hx _

theorem execStatus_open : ∃ l, execStatus n s = .next (answer s (.words l)) ∧ l.length = 10 ∧ l.getD 3 0#64 = s.fw.selector ∧
    l.getD 5 0#64 = w64 s.ckptStatus :=
  ⟨_, anyCommand_open hx _, rfl, rfl, rfl⟩

theorem execReset_secure (hs : x.secure = true) : execReset n s = .next (moduleReset (answer s .ok)) := by
  rw [execReset, anyCommand_open hx, if_pos hs]

theorem execReset_world (hs : x.secure = false) : execReset n s = refusedWith s "WORLD" := by
  rw [execReset, anyCommand_open hx, hs]
  rfl

/-! ### Slots and the configuration (R439) -/

theorem execSlotwrite_open {slotB : Bool} {off : Nat} {bs : List Byte} (hs : x.secure = true)
    (hrun : s.fw.running = slotB → s.fw.recovery = true) (hck : s.ckptRun = none) (hact : s.fw.activating = none) (ho : off % 4096 = 0)
    (hl : off + bs.length ≤ 0x4000000) :
    execSlotwrite n slotB off bs s = accepted { s with fw := flashPut (if off = 0 then { s.fw with
        flash := s.fw.flash.filter fun e => !(slotBase slotB ≤ e.1 && e.1 < slotBase slotB + 0x4000000) } else s.fw) (slotBase slotB + off) bs } := by
  have hfree : ¬ ((s.fw.running == slotB && !s.fw.recovery) || s.ckptRun.isSome || s.fw.activating.isSome) = true := by
    simpa [hck, hact] using hrun
  have hlimit : ¬ (off % 4096 ≠ 0 || 0x4000000 < off + bs.length) = true := by simp [ho, Nat.not_lt.2 hl]
  rw [execSlotwrite, anyCommand_open hx]
  exact (if_neg (by simp [hs])).trans ((if_neg hfree).trans (if_neg hlimit))

variable (hh : s.halted = false) (hf : s.fw.recovery = false)
include hh hf

theorem execAttest_open {nonce : List Byte} (hl : nonce.length = 32) :
    execAttest n nonce s = .next (answer s (.bytes (attestReport s nonce ++ identitySign (attestReport s nonce)))) := by
  rw [execAttest, command_open hx hh hf]
  exact if_neg (by simp [hl])

variable (hs : x.secure = true)
include hs

theorem execCommit_trial (ht : selTrial s.fw.selector = true) :
    execCommit n s = accepted { s with fw := { s.fw with
      selector := selWith s.fw.selector (selPref s.fw.selector) false false
      floor := if s.fw.floor.toNat < s.fw.header.version.toNat then s.fw.header.version else s.fw.floor } } := by
  rw [execCommit, secureCommand_open hx hh hf hs]
  exact if_neg (by simp [ht])

theorem execCommit_noTrial (ht : selTrial s.fw.selector = false) : execCommit n s = refusedWith s "TRIAL" := by
  rw [execCommit, secureCommand_open hx hh hf hs]
  exact if_pos (by simp [ht])

theorem execCfgwrite_other {copy1 : Bool} {bs : List Byte} (ha : configAuth s.fw (!copy1) = true) (hl : bs.length ≤ 0x100000) :
    execCfgwrite n copy1 bs s = accepted { s with fw := flashPut { s.fw with
      flash := s.fw.flash.filter fun e => !(configBase copy1 ≤ e.1 && e.1 < configBase copy1 + 0x100000) } (configBase copy1) bs } := by
  rw [execCfgwrite, secureCommand_open hx hh hf hs]
  exact (if_neg (by simp [ha])).trans (if_neg (Nat.not_lt.2 hl))

/-! ### Activation (R440) -/

theorem execActivate_listed {slotB : Bool} (ha : slotAuth s.fw slotB = true) (hr : s.fw.running ≠ slotB) (hck : s.ckptRun = none)
    (hu : unlisted s (slotLayouts s.fw slotB) = []) :
    execActivate n slotB false s = accepted (drainAll { s with fw := { s.fw with activating := some (slotB, false) } }) := by
  rw [execActivate, secureCommand_open hx hh hf hs]
  exact (if_neg (by simp [ha])).trans ((if_neg (by simp [hr, hck])).trans (if_neg (by simp [hu])))

/-! ### Checkpoints and restores (R447 to R450) -/

theorem execCkptLocal_ok (hok : ckptOk s = true) :
    execCkptLocal n s = accepted { collect (ckptCut (ckptMarks s)) with
      image := some (imageOf (collect (ckptCut (ckptMarks s))) (collect (ckptCut (ckptMarks s))).tick), ckptStatus := 2 } := by
  rw [execCkptLocal, secureCommand_open hx hh hf hs]
  exact if_neg (by simp [hok])

theorem execCkptRemote_ok {ts : List CkptTarget} (hts : targetsOk ts = true) (hok : ckptOk s = true) :
    let s1 := collect (ckptCut (ckptMarks s))
    execCkptRemote n ts s = accepted (sendChunk { s1 with
      image := some (imageOf s1 s1.tick)
      ckptStatus := 1
      remote := s1.remote.filter fun r => !r.targets.any ts.contains
      ctxs := s1.ctxs.map fun e => (e.1, { e.2 with frozen := true })
      ckptRun := some { targets := ts, chunk := 0, restore := false, held := [], t0 := s1.tick, far := s1.mem.filter fun e => isFar e.1 } }) := by
  rw [execCkptRemote, secureCommand_open hx hh hf hs]
  exact (if_neg (by simp [hts])).trans (if_neg (by simp [hok]))

theorem execCkrestoreLocal_ok {i : CkptImage} (hi : s.image = some i) (hr : restorable s i = true) :
    execCkrestoreLocal n s = accepted (loadCkpt s i (s.mem.filter fun e => isFar e.1) (s.memPoison.filter fun e => isFar (4 * e.1))) := by
  rw [execCkrestoreLocal, secureCommand_open hx hh hf hs, hi]
  exact if_neg (by simp [hr])

theorem execCkrestoreRemote_ok {m : RemoteImage} {ts : List CkptTarget} (hm : (s.remote.find? fun r => r.targets == ts) = some m)
    (hts : targetsOk ts = true) (hr : restorable s m.image = true) :
    execCkrestoreRemote n ts s = accepted (sendChunk { s with
      ckptStatus := 1
      ckptRun := some { targets := ts, chunk := 0, restore := true, held := (s.ckptRun.map CkptRun.held).getD [], t0 := s.tick, far := [] } }) := by
  rw [execCkrestoreRemote, secureCommand_open hx hh hf hs, hm]
  exact (if_neg (by simp [hts])).trans (if_neg (by simp [hr]))

end

/-! ### The answers to the chunks of a remote checkpoint (R449) -/

section

variable {s : State} {r : CkptRun} (hr : s.ckptRun = some r)
include hr

theorem execCkptChunkResponse_refused : execCkptChunkResponse false s = .next (ckptAbandon s r (chunkPort r)) := by
  rw [execCkptChunkResponse, hr]
  rfl

theorem execCkptChunkResponse_chunk (hc : r.chunk < ckptChunks) :
    execCkptChunkResponse true s = .next (sendChunk
      { s.bump (if r.restore then .rxbytes else .txbytes) (chunkPort r) (66 * 2 ^ 20) with ckptRun := some { r with chunk := r.chunk + 1 } }) := by
  unfold execCkptChunkResponse
  simp only [hr, if_pos hc, if_neg (Nat.ne_of_lt hc)]
  cases r.restore <;> rfl

theorem execCkptChunkResponse_header (hc : r.chunk = ckptChunks) (hk : r.restore = false) :
    execCkptChunkResponse true s = .next (ckptEnd (s.bump .txbytes (chunkPort r) 4096) r) := by
  unfold execCkptChunkResponse
  simp only [hr, hc, hk]
  rfl

end

/-! ### The operations of a chunk (R449, R450) -/

theorem foldl_answer_rdma (l : List RdmaOp) (s : State) :
    l.foldl (fun s o => answer s (.rdma o)) s = { s with replies := s.replies ++ l.map Reply.rdma } := by
  induction l generalizing s with
  | nil => simp
  | cons o l ih => rw [List.foldl_cons, ih]; simp [answer]

theorem sendChunk_run {s : State} {r : CkptRun} (hr : s.ckptRun = some r) :
    sendChunk s = { s with replies := s.replies ++ (chunkOps r ((s.image.map CkptImage.poison).getD [])).map Reply.rdma } := by
  unfold sendChunk
  split
  · next h => exact absurd (hr.symm.trans h) nofun
  · next r' h =>
    obtain rfl := Option.some.inj (hr.symm.trans h)
    exact foldl_answer_rdma _ s

theorem mem_chunkOps {r : CkptRun} {t : CkptTarget} (ht : chunkTarget r = some t) {poison : BitSet} {o : RdmaOp} (ho : o ∈ chunkOps r poison) :
    o.write = !r.restore ∧ o.port = t.port ∧ o.qp = t.qp ∧ o.key = t.key ∧ (r.restore = true → o.bytes = []) := by
  unfold chunkOps at ho
  simp only [ht] at ho
  split at ho
  · obtain rfl := List.mem_singleton.1 ho
    exact ⟨rfl, rfl, rfl, rfl, fun h => if_pos h⟩
  · rcases List.mem_pair.1 ho with rfl | rfl
    · exact ⟨rfl, rfl, rfl, rfl, fun h => if_pos h⟩
    · exact ⟨rfl, rfl, rfl, rfl, fun h => if_pos h⟩

theorem get?_filter_map_key {α : Type} (m : KMap α) (p : Nat → Bool) (f : Nat → Nat) {a b : Nat} (hb : p b = true ∧ f b = a)
    (hinj : ∀ c, p c = true → f c = a → c = b) : KMap.get? ((m.filter fun e => p e.1).map fun e => (f e.1, e.2)) a = KMap.get? m b := by
  induction m with
  | nil => rfl
  | cons e m ih =>
    obtain ⟨c, v⟩ := e
    by_cases hc : c = b
    · subst hc
      simp [hb.1, hb.2, KMap.get?]
    · have hcb : KMap.get? ((c, v) :: m) b = KMap.get? m b := by simp [KMap.get?, Ne.symm hc]
      by_cases hp : p c = true
      · have hne : f c ≠ a := fun h => hc (hinj c hp h)
        simp [hp, KMap.get?, Ne.symm hne, Ne.symm hc, ← ih]
      · simp [hp, hcb, ← ih]

/-- R449: the bytes of a chunk are those of far memory. -/
theorem get_chunkBytes (far : List Host.Cell) (j : Nat) {k : Nat} (hk : k < 2 ^ 26) :
    KMap.get (chunkBytes far j) memDefault k = KMap.get far memDefault (2 ^ 40 + 2 ^ 26 * j + k) := by
  have h := get?_filter_map_key far (fun a => a / 2 ^ 26 == 2 ^ 14 + j) (fun a => a % 2 ^ 26) (a := k) (b := 2 ^ 40 + 2 ^ 26 * j + k)
    ⟨beq_iff_eq.2 (by omega), by omega⟩ fun c hc hm => by
      have := beq_iff_eq.1 hc
      omega
  exact congrArg (Option.getD · memDefault) h

theorem getLsbD_twoPow8 {i : Nat} (hi : i < 8) (j : Nat) : (BitVec.ofNat 8 (2 ^ i)).getLsbD j = decide (j = i) := by
  rw [BitVec.getLsbD_ofNat, Nat.testBit_two_pow]
  by_cases h : i = j
  · simp [h ▸ hi, h]
  · simp [h, Ne.symm h]

/-- R449: one word of the poison map of a chunk marked. -/
def markPoison (m : List Host.Cell) (k : Nat) : List Host.Cell :=
  KMap.set m 0#8 (k / 8) (KMap.get m 0#8 (k / 8) ||| BitVec.ofNat 8 (2 ^ (k % 8)))

/-- The bit of a word in a poison map. -/
def poisonBit (m : List Host.Cell) (k : Nat) : Bool := (KMap.get m 0#8 (k / 8)).getLsbD (k % 8)

theorem poisonBit_markPoison (m : List Host.Cell) (j k : Nat) : poisonBit (markPoison m j) k = (poisonBit m k || decide (j = k)) := by
  unfold poisonBit markPoison
  by_cases h : k / 8 = j / 8
  · rw [h, KMap.get_set_self, BitVec.getLsbD_or, getLsbD_twoPow8 (Nat.mod_lt _ (by decide))]
    have he : k % 8 = j % 8 ↔ j = k := by omega
    rw [decide_eq_decide.2 he]
  · have hne : j ≠ k := fun e => h (e ▸ rfl)
    rw [KMap.get_set_ne _ _ _ h, decide_eq_false hne, Bool.or_false]

theorem poisonBit_foldl_markPoison (ks : List Nat) (m : List Host.Cell) (k : Nat) :
    poisonBit (ks.foldl markPoison m) k = (poisonBit m k || decide (k ∈ ks)) := by
  induction ks generalizing m with
  | nil => simp
  | cons j ks ih => simp [ih, poisonBit_markPoison, Bool.or_assoc, eq_comm]

theorem mem_of_has {m : BitSet} {a : Nat} (h : BitSet.has m a = true) : ∃ e ∈ m, e.1 = a := by
  cases hg : KMap.get? m a with
  | none => simp [BitSet.has, KMap.get, hg] at h
  | some v => exact ⟨_, KMap.mem_of_get? hg, rfl⟩

/-- R449: the poison map of a chunk has a bit for each of its words, in address order. -/
theorem poisonBit_chunkPoison (poison : BitSet) (j : Nat) {k : Nat} (hk : k < 2 ^ 24) :
    poisonBit (chunkPoison poison j) k = BitSet.has poison (2 ^ 38 + 2 ^ 24 * j + k) := by
  have hfold : chunkPoison poison j =
      ((poison.filter fun e => BitSet.has poison e.1 && e.1 / 2 ^ 24 == 2 ^ 14 + j).map fun e => e.1 % 2 ^ 24).foldl markPoison [] := by
    rw [List.foldl_map]
    rfl
  have hnil : poisonBit [] k = false := by simp [poisonBit]
  rw [hfold, poisonBit_foldl_markPoison, hnil, Bool.false_or, Bool.eq_iff_iff, decide_eq_true_iff, List.mem_map]
  constructor
  · rintro ⟨e, he, hek⟩
    obtain ⟨-, hp⟩ := List.mem_filter.1 he
    obtain ⟨hhas, hj⟩ := Bool.and_eq_true_iff.1 hp
    have hj' := beq_iff_eq.1 hj
    have : e.1 = 2 ^ 38 + 2 ^ 24 * j + k := by omega
    exact this ▸ hhas
  · intro h
    obtain ⟨e, he, hek⟩ := mem_of_has h
    exact ⟨e, List.mem_filter.2 ⟨he, Bool.and_eq_true_iff.2 ⟨hek ▸ h, beq_iff_eq.2 (by omega)⟩⟩, by omega⟩

theorem chunkOps_header {r : CkptRun} {t : CkptTarget} (hc : r.chunk = ckptChunks) (ht : r.targets[0]? = some t) (poison : BitSet) :
    ∃ o, chunkOps r poison = [o] ∧ o.addr = t.base - 4096#64 ∧ o.size = 4096 := by
  have htarget : chunkTarget r = some t := by rw [chunkTarget, if_pos hc, ht]
  unfold chunkOps
  simp only [htarget, if_pos hc]
  refine ⟨_, rfl, ?_, rfl⟩
  rw [chunkAddr, if_pos hc]
  exact BitVec.add_zero _

theorem chunkOps_chunk {r : CkptRun} {t : CkptTarget} (hc : r.chunk < ckptChunks) (ht : r.targets[r.chunk % r.targets.length]? = some t)
    (poison : BitSet) :
    let base := t.base + w64 (66 * 2 ^ 20 * (r.chunk / r.targets.length))
    ∃ a b, chunkOps r poison = [a, b] ∧ a.addr = base ∧ a.size = 2 ^ 26 ∧ b.addr = base + w64 (2 ^ 26) ∧ b.size = 2 ^ 21 ∧
      (r.restore = false → a.bytes = chunkBytes r.far r.chunk ∧ b.bytes = chunkPoison poison r.chunk) := by
  have hne := Nat.ne_of_lt hc
  have htarget : chunkTarget r = some t := by rw [chunkTarget, if_neg hne, ht]
  unfold chunkOps
  simp only [htarget, if_neg hne, chunkAddr]
  exact ⟨_, _, rfl, BitVec.add_zero _, rfl, rfl, rfl, fun h => ⟨if_neg (by simp [h]), if_neg (by simp [h])⟩⟩

/-! ### A checkpoint collects every line (R448) -/

theorem memByte_collect (s : State) (pa : Nat) (h : l1Ok s.l1) : memByte (collect s) pa = memByte s pa :=
  memByte_dropLines s (fun _ => true) (pay := .own) pa h

theorem collect_l1 (s : State) : (collect s).l1 = [] := by
  simp [collect, dropLines]

end Sys2Proof.Machine

namespace Sys2Proof

open Machine in
/-- Settles O55. -/
theorem firmwareCommands : Obligations.FirmwareCommands := by
  unfold Obligations.FirmwareCommands
  refine ⟨?_, ?_, ?_, ?_, fun s pa h => ⟨memByte_collect s pa h, collect_l1 s⟩⟩
  · intro s n k key sig host hostKey secure ho hn hfree s1 d
    exact ⟨fun hsig hkey => execSessionOpen_signed ho hn hfree hsig hkey, fun hbad => execSessionOpen_unsigned ho hbad⟩
  · intro s n x hx ok
    refine ⟨execIdent_open hx, execStatus_open hx, execReset_secure hx, execReset_world hx, ?_, ?_, fun hh hf =>
      ⟨fun nonce hl => execAttest_open hx hh hf hl, fun hs => ⟨fun ht => ⟨_, execCommit_trial hx hh hf hs ht, rfl, selTrial_selWith _ _ _ _,
        selTried_selWith _ _ _ _, selPref_selWith _ _ _ _, toNat_raised _ _⟩, execCommit_noTrial hx hh hf hs,
        fun copy1 bs ha hl => ⟨_, execCfgwrite_other hx hh hf hs ha hl, rfl, rfl, rfl⟩,
        fun slotB ha hr hck hu => execActivate_listed hx hh hf hs ha hr hck hu,
        fun hok => ⟨execCkptLocal_ok hx hh hf hs hok, fun ts hts => execCkptRemote_ok hx hh hf hs hts hok⟩,
        fun i hi hr => execCkrestoreLocal_ok hx hh hf hs hi hr, fun m ts hm hts hr => execCkrestoreRemote_ok hx hh hf hs hm hts hr⟩⟩⟩
    · intro slotB off bs hs hrun hck hact ho h0 hl
      exact (execSlotwrite_open hx hs hrun hck hact ho hl).trans (by rw [if_neg h0]; rfl)
    · intro slotB bs hs hrun hck hact hl
      exact execSlotwrite_open hx hs hrun hck hact rfl (by simpa using hl)
  · intro s r hr
    exact ⟨execCkptChunkResponse_refused hr, execCkptChunkResponse_chunk hr, execCkptChunkResponse_header hr⟩
  · intro s r t hr hchunk hheader hle
    have hsent := sendChunk_run hr
    have htarget : chunkTarget r = some t := by
      unfold chunkTarget
      split
      · exact hheader ‹_›
      · exact hchunk (by omega)
    refine ⟨chunkOps r ((s.image.map CkptImage.poison).getD []), congrArg State.replies hsent, by rw [hsent], fun o ho => mem_chunkOps htarget ho,
      fun hc => chunkOps_header hc (hheader hc) _, fun hc => ?_⟩
    obtain ⟨a, b, hl, haddr, hsize, hbaddr, hbsize, hbytes⟩ := chunkOps_chunk hc (hchunk hc) ((s.image.map CkptImage.poison).getD [])
    refine ⟨a, b, hl, haddr, hsize, hbaddr, hbsize, fun hrestore => ?_⟩
    obtain ⟨ha, hb⟩ := hbytes hrestore
    refine ⟨fun k hk => by rw [ha]; exact get_chunkBytes _ _ hk, fun i k hi hk => ?_⟩
    rw [hb, hi]
    exact poisonBit_chunkPoison i.poison r.chunk hk

end Sys2Proof

/-! ## Scope: placement and retirement (O45) -/

namespace Sys2Proof.Machine

/-! ### The dispatcher's turn (R261, R263, R314, R315, R364) -/

/-- The team at a number of a task's dispatch order. -/
def Task.teamAt (t : Task) (n : Nat) : Nat := if t.rerun then n else nthTeam t.rec_ n

section

variable {s : State} {slot : Nat} {t : Task} (ht : s.task? slot = some t) (hm : mayPlace s t = true)
include ht hm

theorem execTeamPlace_may : execTeamPlace slot s = .next (placeNext s slot t) := by
  rw [execTeamPlace, ht]
  exact congrArg _ (if_pos hm)

theorem execTeamPlace_coresident (hc : t.rec_.coresident = true) (hp : t.placed = 0) :
    execTeamPlace slot s = .next (match placeAll s slot t ((List.range t.rec_.total).map (nthTeam t.rec_)) with
      | none => s
      | some s' => noteProgress (s'.setTask slot { t with placed := t.rec_.total }) t.ctx) := by
  refine (execTeamPlace_may ht hm).trans (congrArg _ ?_)
  unfold placeNext
  exact if_pos (by simp [hc, hp])

end

/-- The first team of the dispatch order that waits to be placed again (R314). -/
theorem find?_relaunch {t : Task} {n : Nat} (hn : n < t.placed) (hi : t.teamAt n ∈ t.relaunch) (hfirst : ∀ m, m < n → t.teamAt m ∉ t.relaunch) :
    ((List.range t.placed).map t.teamAt).find? t.relaunch.contains = some (t.teamAt n) := by
  have hfind : (List.range t.placed).find? (t.relaunch.contains ∘ t.teamAt) = some n :=
    List.find?_range_eq_some.2 ⟨by simpa using hi, List.mem_range.2 hn, fun m hm => by simpa using hfirst m hm⟩
  rw [List.find?_map, hfind]
  rfl

section

variable {s : State} {slot : Nat} {t : Task} (hc : t.rec_.coresident = false)
include hc

theorem placeNext_done (hr : t.relaunch = []) (hp : t.rec_.total ≤ t.placed) : placeNext s slot t = s := by
  unfold placeNext
  simp [hc, hr, Nat.not_lt.2 hp]

/-- What the dispatcher does with the team that comes next. -/
def placeTeam (s : State) (slot : Nat) (t : Task) (i : Nat) (t' : Task) : State :=
  if (t.rerun && slotResident s slot) || s.teams.any fun e => e.2.slot == slot && e.2.index == i then s
  else match planTeam s t.ctx t.rec_ with
    | none => s
    | some p => noteProgress ((createTeam s slot i t p).setTask slot t') t.ctx

theorem placeNext_relaunch {i : Nat} (hi : ((List.range t.placed).map t.teamAt).find? t.relaunch.contains = some i) :
    placeNext s slot t = placeTeam s slot t i { t with relaunch := t.relaunch.erase i } := by
  have hsome : t.relaunch.isEmpty = false := by
    cases hr : t.relaunch with
    | nil => simp [hr] at hi
    | cons a l => rfl
  have hi' : ((List.range t.placed).map fun n => if t.rerun then n else nthTeam t.rec_ n).find? t.relaunch.contains = some i := hi
  unfold placeNext
  simp only [hc, hsome, hi', Bool.false_and, Bool.false_eq_true, if_false]
  rfl

theorem placeNext_first (hr : t.relaunch = []) (hp : t.placed < t.rec_.total) :
    placeNext s slot t = placeTeam s slot t (t.teamAt t.placed) { t with placed := t.placed + 1 } := by
  unfold placeNext
  simp only [hc, hr, hp, Bool.false_and, Bool.false_eq_true, if_false, if_true, List.isEmpty_nil]
  rfl

end

section

variable {s : State} {slot : Nat} {t : Task} {i : Nat}

theorem placeTeam_left {t' : Task} (h : ∃ k m, (k, m) ∈ s.teams ∧ m.slot = slot ∧ m.index = i) : placeTeam s slot t i t' = s := by
  obtain ⟨k, m, hm, hs, hi⟩ := h
  refine if_pos (Bool.or_eq_true_iff.2 (.inr (List.any_eq_true.2 ⟨_, hm, ?_⟩)))
  simp [hs, hi]

theorem placeTeam_room {t' : Task} (hrerun : t.rerun = false ∨ slotResident s slot = false)
    (h : ¬ ∃ k m, (k, m) ∈ s.teams ∧ m.slot = slot ∧ m.index = i) :
    placeTeam s slot t i t' = match planTeam s t.ctx t.rec_ with
      | none => s
      | some p => noteProgress ((createTeam s slot i t p).setTask slot t') t.ctx := by
  have h1 : (t.rerun && slotResident s slot) = false := by rcases hrerun with h | h <;> simp [h]
  have h2 : (s.teams.any fun e => e.2.slot == slot && e.2.index == i) = false :=
    List.any_eq_false.2 fun e he hb => h ⟨e.1, e.2, he, by simpa using hb⟩
  exact if_neg (by rw [h1, h2]; decide)

end

/-! ### A gang retires (R107, R241, R266) -/

@[simp] theorem dropChains_gangs (s : State) (core part slot : Nat) : (dropChains s core part slot).gangs = s.gangs := by
  unfold dropChains
  extract_lets still
  split <;> rfl

@[simp] theorem dropChains_teams (s : State) (core part slot : Nat) : (dropChains s core part slot).teams = s.teams := by
  unfold dropChains
  extract_lets still
  split <;> rfl

theorem removeGang_gangs (s : State) (ref : GangRef) (slot : Nat) : (removeGang s ref slot).gangs = KMap.del s.gangs (gangNum ref) := by
  rw [removeGang, dropChains_gangs]

theorem removeGang_gang?_self (s : State) (ref : GangRef) (slot : Nat) : (removeGang s ref slot).gang? ref = none := by
  rw [State.gang?, removeGang_gangs]
  exact KMap.get?_del_self _ _

theorem removeGang_gang?_ne (s : State) {ref r : GangRef} (slot : Nat) (hr : gangNum r ≠ gangNum ref) :
    (removeGang s ref slot).gang? r = s.gang? r := by
  rw [State.gang?, removeGang_gangs]
  exact KMap.get?_del_ne _ hr

theorem removeGang_team? (s : State) (ref : GangRef) (slot k : Nat) : (removeGang s ref slot).team? k = s.team? k := by
  simp only [State.team?, removeGang, dropChains_teams]

theorem execGangRetire_ready {s : State} {ref : GangRef} {g : Gang} {w : Who} {t : Task} {m : Team} (ha : s.acting? ref = some (g, w, t))
    (hm : s.team? w.team = some m) (hr : retirable s ref g = true) (hs : anyStop s w.ctx = false) :
    let s1 := removeGang (s.setTask w.slot { t with sumIssues := t.sumIssues + g.issues, sumUnclass := t.sumUnclass + g.unclassCount }) ref w.slot
    execGangRetire ref s = .next (retireReady (tryRetireTeam ((List.range 16).foldl (fun s b => checkBarrier s w.team b)
      (s1.setTeam w.team { m with retired := BitSet.put m.retired g.index true })) w.team) w.slot) := by
  intro s1
  have hm1 : s1.team? w.team = some m := (removeGang_team? _ ref w.slot w.team).trans hm
  have hgo : ¬ (!retirable s ref g || anyStop s w.ctx) = true := by simp [hr, hs]
  unfold execGangRetire
  rw [ha]
  refine (if_neg hgo).trans ?_
  show Host.Outcome.next (retireReady (tryRetireTeam ((List.range 16).foldl (fun s b => checkBarrier s w.team b)
    (match s1.team? w.team with
      | some m => s1.setTeam w.team { m with retired := BitSet.put m.retired g.index true }
      | none => s1)) w.team) w.slot) = _
  rw [hm1]

end Sys2Proof.Machine

namespace Sys2Proof

open Machine in
/-- Settles O45. -/
theorem placementAndRetirement : Obligations.PlacementAndRetirement := by
  unfold Obligations.PlacementAndRetirement
  refine ⟨?_, fun s ref g w t m ha hm hr hs => ⟨removeGang_gang?_self _ _ _, fun r hne => removeGang_gang?_ne _ _ hne,
    execGangRetire_ready ha hm hr hs⟩⟩
  intro s slot t ht hm r pos left next
  have hrun := execTeamPlace_may ht hm
  refine ⟨fun hc hrerun => ?_, fun hc hp => ?_⟩
  · have hnext : ∀ i t', placeNext s slot t = placeTeam s slot t i t' → next i t' := by
      intro i t' hplace
      have hexec : exec (.teamPlace slot) s = .next (placeTeam s slot t i t') := hrun.trans (congrArg _ hplace)
      refine ⟨fun hl => hexec.trans (congrArg _ (placeTeam_left hl)), fun hl => ?_⟩
      have hroom := placeTeam_room (t' := t') hrerun hl
      split
      · next hplan => exact hexec.trans (congrArg _ (hroom.trans (by rw [hplan])))
      · next p hplan => exact hexec.trans (congrArg _ (hroom.trans (by rw [hplan])))
    exact ⟨fun n hn hi hfirst => hnext _ _ (placeNext_relaunch hc (find?_relaunch hn hi hfirst)),
      fun hr hp => hnext _ _ (placeNext_first hc hr hp), fun hr hp => hrun.trans (congrArg _ (placeNext_done hc hr hp))⟩
  · have hall := execTeamPlace_coresident ht hm hc hp
    split
    · next hplan => exact hall.trans (by rw [hplan])
    · next s' hplan => exact hall.trans (by rw [hplan])

end Sys2Proof

/-! ## Scope: a read-only page that becomes shared lets a team retire (O47) -/

namespace Sys2Proof.Machine

/-! The counterexample: a task with a read-only page that is becoming shared, and a team with nothing left that has waited for it. -/

def sharingTask : Task := { Task.fresh hostRecord 0 0 0 .running with classes := [(0, .readOnly)], reclassing := [0] }

def emptyTeam : Team where
  slot := 0
  index := 0
  ctx := 0
  order := 0
  placedAt := 0
  gangs := []
  spots := []
  retired := []
  halves := []
  arr := []
  carve := none
  stashes := []
  digest := 0#64
  dying := false

def sharingState : State := { State.reset with tasks := [(0, sharingTask)], teams := [(0, emptyTeam)] }

/-- What the reclassification of the page makes of the task alone. -/
def sharedState : State :=
  (collectPage (drainPage sharingState 0 0) 0 0 0).setTask 0
    { sharingTask.setClass 0 .shared with reclassing := sharingTask.reclassing.filter (· ≠ 0) }

theorem sharedState_teams : sharedState.teams.length = 1 := by decide

/-- R266, R298: the team retires with the reclassification. -/
theorem exec_readonlyToShared_sharingState :
    (match exec (.readonlyToShared 0 0) sharingState with
      | .next t => t.teams.length
      | _ => 1) = 0 := by
  decide

end Sys2Proof.Machine

namespace Sys2Proof

open Machine in
/-- Refutes O47: once the page is shared, READONLY_TO_SHARED also retires the teams of the task that nothing holds any more, so the state
after it is not always the one with the new class alone. -/
theorem not_pageEvents : ¬ Obligations.PageEvents := by
  unfold Obligations.PageEvents
  intro ⟨hclass, _⟩
  obtain ⟨-, hshared, -⟩ := hclass sharingState 0 0 sharingTask sharingTask rfl rfl rfl rfl rfl
  have hexec : exec (.readonlyToShared 0 0) sharingState = .next sharedState := hshared rfl
  have hteams := exec_readonlyToShared_sharingState
  rw [hexec] at hteams
  exact absurd (sharedState_teams.symm.trans hteams) (by decide)

end Sys2Proof

/-! ## Scope: the happenings of the module (O49) -/

namespace Sys2Proof.Machine

/-! ### The viaduct (R409) -/

section

variable {s : State} {die : Nat} {d : Die} (hd : KMap.get? s.dies die = some d)
include hd

section

variable (hr : s.retraining = none)
include hr

theorem execViaductFlitReceive_good (hf : flitStuck d = false) :
    execViaductFlitReceive die true s =
      .next (({ s with dies := KMap.put s.dies die { d with flitReplays := 0 } } : State).bump .viaflits die) := by
  rw [execViaductFlitReceive, hd]
  exact (if_neg (by simp [hr, hf])).trans (if_pos rfl)

theorem execViaductFlitReceive_bad (hf : flitStuck d = false) :
    execViaductFlitReceive die false s =
      .next (({ s with dies := KMap.put s.dies die { d with flitReplays := d.flitReplays + 1 } } : State).bump .viareplay die) := by
  rw [execViaductFlitReceive, hd]
  exact (if_neg (by simp [hr, hf])).trans (if_neg (by decide))

omit hr in
theorem execViaductFlitReceive_stuck (ok : Bool) (hf : flitStuck d = true) : execViaductFlitReceive die ok s = .next s := by
  rw [execViaductFlitReceive, hd]
  exact if_pos (by simp [hf])

omit hd in
theorem execLinkRetrain_stuck (hs : stuckDie s = some die) :
    execLinkRetrain s = .next (linkEntry (({ s with
      retraining := some die, dies := KMap.modify s.dies die fun x => { x with flitReplays := 0 } } : State).bump .viaretrain die) 8 die) := by
  rw [execLinkRetrain, hs]
  exact if_neg (by simp [hr])

end

/-! ### Clocks and heat (R452) -/

section

variable {p t : Nat} (hs : d.stopped = false)
include hs

theorem execClockStep_hot (h : 1900000 < p ∨ 100000 ≤ t) :
    execClockStep die p t s = .next (if 300 < d.mhz then setClock s die (d.mhz - 25) d else s) := by
  rw [execClockStep, hd]
  exact (if_neg (by simp [hs])).trans (if_pos (by simpa using h))

theorem execClockStep_cool (hp : p < 1800000) (ht : t < 95000) :
    execClockStep die p t s = .next (if d.mhz < 600 then setClock s die (d.mhz + 25) d else s) := by
  rw [execClockStep, hd]
  exact (if_neg (by simp [hs])).trans ((if_neg (by simp; omega)).trans (if_pos (by simp [hp, ht])))

theorem execClockStep_between (h : 1800000 ≤ p ∨ 95000 ≤ t) (hp : p ≤ 1900000) (ht : t < 100000) : execClockStep die p t s = .next s := by
  rw [execClockStep, hd]
  exact (if_neg (by simp [hs])).trans ((if_neg (by simp; omega)).trans (if_neg (by simp; omega)))

theorem execThermalStop_hot (h : 110000 ≤ t) :
    let s1 := flushEarly s fun _ d => d == die
    execThermalStop die t s = .next { s1 with dies := KMap.put s1.dies die { d with stopped := true, stoppedAt := s1.tick } } := by
  rw [execThermalStop, hd]
  exact congrArg _ (if_neg (by simp [hs, Nat.not_lt.2 h]))

end

theorem execThermalRestart_cool {t : Nat} (hs : d.stopped = true) (ht : t ≤ 95000) :
    execThermalRestart die t s = .next (dieRecord { s with dies := KMap.put s.dies die { d with stopped := false } } die
      { TraceRec.plain 3 (w64 d.stoppedAt) with more := [w64 s.tick, 0#64] } s.tick) := by
  rw [execThermalRestart, hd]
  exact if_neg (by simp [hs, Nat.not_lt.2 ht])

end

/-! ### Retraining and module-fatal errors (R408, R409, R411) -/

theorem fatal_halted (s : State) (code die : Nat) : (fatal s code die).halted = true := rfl

section

variable {s : State} {d : Nat} (hr : s.retraining = some d)
include hr

theorem execRetrainComplete_done : execRetrainComplete true s = .next { s with retraining := none, failedRetrains := 0 } := by
  rw [execRetrainComplete, hr]
  rfl

theorem execRetrainComplete_again (hf : s.failedRetrains < 2) :
    execRetrainComplete false s = .next (linkEntry (({ s with failedRetrains := s.failedRetrains + 1 } : State).bump .viaretrain d) 8 d) := by
  rw [execRetrainComplete, hr]
  exact (if_neg (by decide)).trans (if_neg (Nat.not_le.2 hf))

theorem execRetrainComplete_fatal (hf : 2 ≤ s.failedRetrains) :
    execRetrainComplete false s = .next (fatal { s with retraining := none, failedRetrains := 0 } (Config.openInfo 1) d) := by
  rw [execRetrainComplete, hr]
  exact (if_neg (by decide)).trans (if_pos hf)

end

theorem execModuleFatal_running {s : State} (hh : s.halted = false) (code : Nat) : execModuleFatal code s = .next (fatal s code) := by
  rw [execModuleFatal, if_neg (by simp [hh])]

theorem execSensorFailure_running {s : State} (hh : s.halted = false) (die : Nat) :
    execSensorFailure die s = .next (fatal s (Config.openInfo 2) die) := by
  rw [execSensorFailure, if_neg (by simp [hh])]

theorem execContextFatalError_task {s : State} {slot : Nat} {t : Task} (ht : s.task? slot = some t) :
    execContextFatalError slot s = .next (forceReset s t.ctx (Config.openInfo 0)) := by
  rw [execContextFatalError, ht]

/-! ### The scrubber (R413) -/

section

variable {s : State} {die word : Nat}

theorem memoryWord_home (h : isFar (4 * word) = true ∨ die = homeDie (4 * word) false) (found : ScrubFinding) :
    memoryWord s die word found false = match found with
      | .clean => s
      | .corrected => ({ s with memCorr := BitSet.put s.memCorr word false } : State).bump .diecorr die
      | .uncorrectable => poisonNew { s with memCorr := BitSet.put s.memCorr word false } word (if isFar (4 * word) then 4 else 3) die := by
  have hc : ¬ (!isFar (4 * word) && die ≠ homeDie (4 * word) false) = true := by rcases h with h | h <;> simp [h]
  unfold memoryWord
  rw [if_neg hc]
  rfl

theorem dieCacheWord_held (h : BitSet.has s.dieCache (2 * (word / 32) + die) = true) (found : ScrubFinding) :
    dieCacheWord s die word found false = match found with
      | .clean => s
      | .corrected => ({ s with dieCorr := BitSet.put s.dieCorr (2 * word + die) false } : State).bump .diecorr die
      | .uncorrectable => poisonNew { s with dieCorr := BitSet.put s.dieCorr (2 * word + die) false } word 2 die := by
  unfold dieCacheWord
  rw [if_neg (by simp [h])]
  rfl

theorem copyWord_uncorrectable {core slot : Nat} (h : (s.l1.any fun l => l.core == core && l.slot == slot && l.line == word / 32) = true) :
    copyWord s core slot word .uncorrectable false =
      arrayPoison { s with l1 := s.l1.map fun l => if l.core == core && l.slot == slot && l.line == word / 32
        then { l with poison := BitSet.put l.poison word true, corr := BitSet.put l.corr word false } else l } core slot true 1 (4 * word) := by
  unfold copyWord
  exact if_neg (by simp only [h]; decide)

theorem windowWord_held {r : GangRef} {g : Gang} {half : Nat} (hg : s.gang? r = some g) (hh : half < 2 * g.regs * g.width) (found : ScrubFinding) :
    windowWord s r half found false = match found with
      | .clean => s
      | .corrected => (s.setGang r { g with vCorr := BitSet.put g.vCorr half false }).bump .ecccorr r.core
      | .uncorrectable => arrayPoison (s.setGang r { g with vPoison := BitSet.put g.vPoison half true, vCorr := BitSet.put g.vCorr half false })
          r.core (((s.team? g.team).map Team.slot).getD 128) true := by
  unfold windowWord
  rw [hg]
  exact (if_neg (Nat.not_le.2 hh)).trans (by cases found <;> rfl)

end

/-! ### Room made in caches and directories (R363) -/

theorem memByte_recallTracked {s : State} (die ctx : Nat) (which : L1Line → Bool) (h : l1Ok s.l1) (pa : Nat) :
    memByte (recallTracked s die ctx which) pa = memByte s pa :=
  memByte_dropLines s _ (pay := .of ctx) pa h

theorem memByte_makeRoom {s : State} (h : l1Ok s.l1) (x : Evict) (pa : Nat) : memByte (makeRoom s x) pa = memByte s pa := by
  cases x with
  | translation ix => rfl
  | walker ix => rfl
  | line ix =>
    unfold makeRoom
    simp only
    split
    · split
      · rfl
      · exact memByte_dropLines s _ pa h
    · rfl
  | dieCache ix =>
    unfold makeRoom
    simp only
    split <;> rfl
  | directory die ctx =>
    unfold makeRoom recallDirectory
    simp only
    split
    · exact memByte_recallTracked _ _ _ h pa
    · rfl
  | filter cluster ctx =>
    unfold makeRoom recallFilter
    simp only
    split
    · exact memByte_recallTracked _ _ _ h pa
    · rfl

/-! ### Ports (R394, R408) -/

section

variable {s : State} {port : Nat} (hp : port < 8)
include hp

theorem execFrameDrop_port : execFrameDrop port s = .next (s.bump .retrans port) := by
  rw [execFrameDrop, if_pos hp]

theorem execCongestionNotification_port : execCongestionNotification port s =
    .next (({ s with ports := KMap.put s.ports port { portOf s port with rateCuts := (portOf s port).rateCuts + 1 } } : State).bump .cnprx port) := by
  unfold execCongestionNotification
  exact congrArg _ (if_pos hp)

/-- R394: what a PFC frame does to the pause of a priority and to PFCTICKS. -/
def pfcPaused (s : State) (port prio ticks : Nat) : State :=
  { s with
    ports := KMap.put s.ports port { portOf s port with
      pausedUntil := KMap.set (portOf s port).pausedUntil 0 prio (if ticks = 0 then 0 else s.tick + ticks) }
    counters := KMap.set s.counters 0#64 (Counter.pfcticks.key port)
      (s.count .pfcticks port + w64 (s.tick + ticks) - w64 (max s.tick (KMap.get (portOf s port).pausedUntil 0 prio))) }

theorem execPfcPause_port {prio : Nat} (hq : prio < 8) (ticks : Nat) : execPfcPause port prio ticks s = .next (pfcPaused s port prio ticks) := by
  unfold execPfcPause
  exact if_neg (by simp [Nat.not_le.2 hp, Nat.not_le.2 hq])

end

@[simp] theorem portOf_put (s : State) (port : Nat) (p : Port) : portOf { s with ports := KMap.put s.ports port p } port = p :=
  KMap.get_put_self _ _ _ _

theorem logModule_ckptRun (s : State) (e : LogEntry) : (logModule s e).ckptRun = s.ckptRun := by
  unfold logModule
  extract_lets l s'
  split <;> rfl

theorem execQpTransportFailure_bound {s : State} {qp : Nat} {b : QueuePair} (hb : KMap.get? s.qps qp = some b) (hck : s.ckptRun = none)
    (hpeers : ∀ e ∈ s.peers, ∀ w, KMap.get? s.windows e.2.window = some w → w.qp ≠ qp) :
    execQpTransportFailure qp s = .next (linkEntry s b.port) := by
  have hmine : (s.peers.filter fun e => ((KMap.get? s.windows e.2.window).map fun w => w.qp == qp).getD false) = [] := by
    refine List.filter_eq_nil_iff.2 fun e he => ?_
    cases hw : KMap.get? s.windows e.2.window with
    | none => simp
    | some w => simpa using hpeers e he w hw
  have hrun : (linkEntry s b.port).ckptRun = none := (logModule_ckptRun _ _).trans hck
  unfold execQpTransportFailure
  simp only [hmine, hb, List.map_nil, List.foldl_nil, hrun]

/-! ### Loss of power, module reset and the switch (R355, R437, R440, R442) -/

theorem memByte_noLines {s : State} (h : s.l1 = []) (pa : Nat) : memByte s pa = KMap.get s.mem memDefault pa := by
  simp [memByte, h, dirtyByte, homeByte]

theorem get_filter_key {α : Type} (m : KMap α) (d : α) (p : Nat → Bool) (a : Nat) :
    KMap.get (m.filter fun e => p e.1) d a = if p a then KMap.get m d a else d := by
  induction m with
  | nil => simp
  | cons e m ih =>
    obtain ⟨c, v⟩ := e
    by_cases hc : p c = true
    · by_cases ha : a = c
      · subst ha
        simp [hc, KMap.get, KMap.get?]
      · simpa [hc, KMap.get, KMap.get?, ha] using ih
    · by_cases ha : a = c
      · subst ha
        simpa [hc] using ih
      · simpa [hc, KMap.get, KMap.get?, ha] using ih

/-- R355, R437: what a module reset leaves, with or without a configuration that authenticates. -/
theorem moduleReset_eq (s : State) : moduleReset s = { resetKeep s (boot s.fw) with dies := (moduleReset s).dies } := by
  unfold moduleReset
  extract_lets fw s' copy1
  split <;> rfl

theorem moduleReset_dies {s : State} {copy1 : Bool} {d : Nat} (ha : configAuth s.fw copy1 = true) (hc : copy1 = true → configAuth s.fw false = false)
    (hd : d < 2) : KMap.get? (moduleReset s).dies d = some (Die.reset (configNrsv (boot s.fw) copy1 d)) := by
  have hcopy : (!configAuth s.fw false) = copy1 := by
    cases copy1 with
    | false => rw [ha]; rfl
    | true => rw [hc rfl]; rfl
  have hauth : ¬ (!configAuth s.fw false && !configAuth s.fw true) = true := by
    cases copy1 with
    | false => simp [ha]
    | true => simp [ha]
  have hdies : (moduleReset s).dies =
      [(0, Die.reset (configNrsv (boot s.fw) (!configAuth s.fw false) 0)), (1, Die.reset (configNrsv (boot s.fw) (!configAuth s.fw false) 1))] :=
    congrArg State.dies (if_neg hauth)
  rw [hdies, hcopy]
  obtain rfl | rfl : d = 0 ∨ d = 1 := by omega
  · rfl
  · rfl

theorem memByte_moduleReset (s : State) (pa : Nat) :
    memByte (moduleReset s) pa = if isFar pa then KMap.get s.mem memDefault pa else memDefault := by
  rw [moduleReset_eq]
  exact (memByte_noLines rfl pa).trans (get_filter_key s.mem memDefault isFar pa)

theorem execActivateSwitch_ready {s : State} {slotB : Bool} (ha : s.fw.activating = some (slotB, false)) (hr : activationReady s = true)
    (hh : s.halted = false) : execActivateSwitch s = .next { s with fw := { s.fw with
      activating := none, running := slotB, header := readHeader s.fw slotB, selector := selWith s.fw.selector slotB true true } } := by
  have himage : (s.image.map fun i => if false && !(slotLayouts s.fw slotB).contains i.layout then { i with valid := false } else i) = s.image := by
    cases s.image <;> rfl
  have hgo : ¬ (!activationReady s || s.halted) = true := by simp [hr, hh]
  unfold execActivateSwitch
  rw [ha]
  refine (if_neg hgo).trans ?_
  simp only [himage, Bool.false_eq_true, if_false]

end Sys2Proof.Machine

namespace Sys2Proof

open Machine in
/-- Settles O49. -/
theorem moduleEvents : Obligations.ModuleEvents := by
  unfold Obligations.ModuleEvents
  refine ⟨fun s die d hd => ⟨fun hr hf => ⟨execViaductFlitReceive_good hd hr hf, execViaductFlitReceive_bad hd hr hf⟩,
      fun hr ok hf => execViaductFlitReceive_stuck hd ok hf, fun hr hs => execLinkRetrain_stuck hr hs,
      fun p t hs => ⟨execClockStep_hot hd hs, execClockStep_cool hd hs, execClockStep_between hd hs, execThermalStop_hot hd hs⟩,
      fun t hs ht => execThermalRestart_cool hd hs ht⟩,
    fun s d hr => ⟨execRetrainComplete_done hr, execRetrainComplete_again hr, fun hf => ⟨_, execRetrainComplete_fatal hr hf, rfl⟩⟩,
    fun s code die hh => ⟨⟨_, execModuleFatal_running hh code, rfl, rfl⟩, ⟨_, execSensorFailure_running hh die, rfl⟩⟩,
    fun s slot t ht => execContextFatalError_task ht,
    fun s die word h => ⟨congrArg _ (memoryWord_home h .clean), congrArg _ (memoryWord_home h .corrected),
      congrArg _ (memoryWord_home h .uncorrectable)⟩,
    fun s core slot word h => ⟨_, congrArg _ (copyWord_uncorrectable h), rfl⟩,
    fun s die word h => ⟨congrArg _ (dieCacheWord_held h .corrected), congrArg _ (dieCacheWord_held h .uncorrectable)⟩,
    fun s x _ h pa => memByte_makeRoom h x pa,
    fun s r g half hg hh => ⟨congrArg _ (windowWord_held hg hh .clean), congrArg _ (windowWord_held hg hh .corrected),
      congrArg _ (windowWord_held hg hh .uncorrectable)⟩,
    fun s core slot code addr => ⟨_, rfl, rfl⟩, ?_, ?_⟩
  · intro s port prio ticks hp hq
    refine ⟨execFrameDrop_port hp, ⟨_, execCongestionNotification_port hp, ?_, State.count_bump_self _ _ _ _, rfl⟩,
      ⟨_, execPfcPause_port hp hq ticks, ?_, fun hpaused => ?_, rfl⟩, fun qp b hb hck hpeers => execQpTransportFailure_bound hb hck hpeers⟩
    · exact congrArg Port.rateCuts (KMap.get_put_self _ _ _ _)
    · have hport : portOf (pfcPaused s port prio ticks) port = { portOf s port with
          pausedUntil := KMap.set (portOf s port).pausedUntil 0 prio (if ticks = 0 then 0 else s.tick + ticks) } := KMap.get_put_self _ _ _ _
      rw [hport]
      exact KMap.get_set_self _ _ _ _
    · have hcount : (pfcPaused s port prio ticks).count .pfcticks port = s.count .pfcticks port + w64 (s.tick + ticks) -
          w64 (max s.tick (KMap.get (portOf s port).pausedUntil 0 prio)) := KMap.get_set_self _ _ _ _
      rw [hcount, Nat.max_eq_left hpaused]
  · intro s
    refine ⟨⟨_, rfl, rfl, rfl, rfl, rfl, rfl, rfl, rfl, rfl, fun pa => (memByte_noLines rfl pa).trans (KMap.get_nil _ _)⟩,
      ⟨moduleReset s, rfl, ?_, ?_, ?_, ?_, ?_, ?_, ?_, ?_, ?_, fun _ => memByte_moduleReset s,
        fun copy1 d ha hc hd => moduleReset_dies ha hc hd⟩, fun slotB ha hr hh => execActivateSwitch_ready ha hr hh⟩ <;>
      (rw [moduleReset_eq]; rfl)

end Sys2Proof

/-! ## Scope: packets of the queues and the copy unit (O51) -/

namespace Sys2Proof.Machine

/-! ### The comparison of WAITV and COND (R388) -/

theorem cmpHolds_iff (p : CmpPacket) (v : Nat) : cmpHolds p v = true ↔
    (p.op % 4 = 0 ∧ v &&& p.mask.toNat = p.value.toNat) ∨ (p.op % 4 = 1 ∧ v &&& p.mask.toNat ≠ p.value.toNat) ∨
    (p.op % 4 = 2 ∧ p.value.toNat ≤ v &&& p.mask.toNat) ∨ (p.op % 4 = 3 ∧ v &&& p.mask.toNat < p.value.toNat) := by
  unfold cmpHolds
  have hop : p.op % 4 = 0 ∨ p.op % 4 = 1 ∨ p.op % 4 = 2 ∨ p.op % 4 = 3 := by omega
  rcases hop with h | h | h | h <;> simp [h]

/-! ### What each packet does (R387 to R390) -/

section

variable {s : State} {q : Nat} {after : Bool} {x : Queue} (hx : actingOn s q after = some x)
include hx

theorem actingOn_spec : s.halted = false ∧ s.queue? q = some x ∧ x.act = .acting ∧ ctxFrozen s x.ctx = false := by
  unfold actingOn at hx
  split at hx
  · cases hx
  · next hgo =>
    obtain ⟨y, hy, hyx⟩ := Option.bind_eq_some_iff.1 hx
    split at hyx
    · next hact =>
      obtain rfl := Option.some.inj hyx
      simp only [Bool.and_eq_true, decide_eq_true_eq, Bool.not_eq_true'] at hact
      simp only [Bool.or_eq_true, not_or, Bool.not_eq_true] at hgo
      exact ⟨hgo.1, hy, hact.1, hact.2⟩
    · cases hyx

theorem execTask_acting {record : W64} (hr : record.toNat % 8 = 0) :
    execTask q after record s = .next (s.setQueue q { x with act := .task record s.tick }) := by
  rw [execTask, hx]
  exact congrArg _ (if_neg (by simp [hr]))

theorem execWaitv_acting {p : CmpPacket} (hp : p.addr.toNat % 8 = 0) (timeout : W64) :
    execWaitv q after p timeout s = .next (s.setQueue q { x with
      act := .waitv p (if timeout = 0#64 then none else some (s.tick + timeout.toNat)) }) := by
  rw [execWaitv, hx]
  exact congrArg _ (if_neg (by simp [hp]))

theorem execSignal_acting {addr value : W64} {set : Bool} {pa : Nat} {leaf : W64} (ha : addr.toNat % 8 = 0)
    (hpa : agentXlat s x.ctx addr.toNat .write = .ok pa leaf) :
    let s1 := recallLines (correctAt s x.ctx addr.toNat pa leaf 8) pa 8 (.of x.ctx)
    memPoisoned s1 pa 8 = false → execSignal q after addr value set s =
      .next (packetDone (homeStore s1 pa (leBytes 8 (sigsNew set value.toNat (memNat s1 pa 8)))) q) := by
  intro s1 hclean
  rw [execSignal, hx]
  refine congrArg _ ((if_neg (by simp [ha])).trans ?_)
  simp only [packetSignal, hpa, homeEvent, hclean, Bool.false_eq_true, if_false, s1]

/-- R390: COND, once it has its tail word, its arms' packets and the compared word. -/
theorem execCond_acting {p : CmpPacket} {n m t v : Nat} {packets : List (List Nat)} (hp : p.addr.toNat % 8 = 0) (hn : n ≤ 8) (hm : m ≤ 8)
    (harm : x.arm = none) (ht : readTail s x = some t) (hroom : x.head + 1 + n + m ≤ t) (hfetch : armsFetch s q x (n + m) = .ok packets)
    (hv : readWord s x.ctx p.addr = some v) :
    let s1 := agentCorrect (queueCorrect s x (x.head + 1) (n + m)) x.ctx p.addr.toNat 8
    execCond q after p n m s = .next (if (if !cmpHolds p v then m else n) = 0 then advanceHead s1 q (1 + n + m)
      else s1.setQueue q { x with arm := some { isElse := !cmpHolds p v, pos := 1, nThen := n, nElse := m, packets } }) := by
  have hgo : ¬ (p.addr.toNat % 8 ≠ 0 || 8 < n || 8 < m || x.arm.isSome) = true := by simp [hp, harm, hn, hm]
  rw [execCond, hx]
  refine (if_neg hgo).trans ?_
  rw [ht]
  refine (if_neg (Nat.not_lt.2 hroom)).trans ?_
  rw [hfetch, hv]

theorem queueTurn_arm {a : CondArm} {i : Instr} (ha : x.arm = some a) (hi : decodePacket q a.current = some i) : queueTurn s q = .act i s := by
  obtain ⟨hh, hq, hact, hfrozen⟩ := actingOn_spec hx
  unfold queueTurn
  rw [hq]
  refine (if_neg (by simp [hact, hh, hfrozen])).trans ?_
  rw [ha]
  simp only [hi]

section

variable {p : CopyPacket} (hp : p.sig.toNat % 8 = 0)
include hp

theorem execCopy_acting : execCopy q after p s = .next (packetDone { s with
    copies := KMap.put s.copies s.nextCopy { ctx := x.ctx, p, done := 0, fault := 0, stopped := false }, nextCopy := s.nextCopy + 1 } q) := by
  rw [execCopy, hx]
  exact congrArg _ (if_neg (by simp [hp]))

theorem execCopyMigrate_acting : execCopyMigrate q after p s = .next (packetDone { s with
    migrations := KMap.put s.migrations s.nextCopy ⟨x.ctx, p, false⟩, nextCopy := s.nextCopy + 1 } q) := by
  rw [execCopyMigrate, hx]
  exact congrArg _ (if_neg (by simp [hp]))

end

theorem execMarkTrace_acting (tag : W32) : execMarkTrace q after tag 0#64 s =
    .next (packetDone (trace s x.ctx 0 8#4 (TraceRec.plain 4 (w64 (tag.toNat + 2 ^ 32 * q)))) q) := by
  rw [execMarkTrace, hx]
  rfl

theorem execMarkInvalidate_held (tag : W32) (hheld : purgeHeld s x.ctx = true) : execMarkInvalidate q after tag 0#64 s = .next s := by
  rw [execMarkInvalidate, hx]
  exact congrArg _ (if_pos hheld)

theorem execMarkInvalidate_free (tag : W32) (hfree : purgeHeld s x.ctx = false) :
    execMarkInvalidate q after tag 0#64 s = .next (packetDone (invalidate s x.ctx) q) := by
  rw [execMarkInvalidate, hx]
  exact congrArg _ (if_neg (Bool.eq_false_iff.1 hfree))

end

/-! ### An invalidation with no issue in flight (R357) -/

theorem finishLate_none {s : State} {ref : GangRef} (h : ∀ g, s.gang? ref = some g → g.late = none) : finishLate s ref = s := by
  have hone : finishOne s ref = s := by
    unfold finishOne
    cases hg : s.gang? ref with
    | none => rfl
    | some g => rw [Option.bind_some, h g hg]
  unfold finishLate
  cases s.gang? ref with
  | none => rfl
  | some g => exact foldl_keeps (fun t => t = s) _ (fun t _ ht => by rw [ht, hone]) _ s rfl

theorem completeUnclass_none {s : State} {ref : GangRef} (h : ∀ g, s.gang? ref = some g → g.unclass = none) : completeUnclass s ref = s := by
  unfold completeUnclass
  split
  · next g w hg hw => rw [h g hg]
  · rfl

theorem renewGang_idle {s : State} {ctx : Nat} {ref : GangRef}
    (h : ∀ g, s.gang? ref = some g → g.unclass = none ∧ g.late = none ∧ g.block = none) : renewGang s ctx ref = s := by
  have hlate := finishLate_none fun g hg => (h g hg).2.1
  have hunclass := completeUnclass_none fun g hg => (h g hg).1
  unfold renewGang
  simp only [hlate]
  cases hg : s.gang? ref with
  | none => rfl
  | some g =>
    obtain ⟨-, -, hblock⟩ := h g hg
    simp only [hblock]
    exact hunclass

theorem invalidate_idle {s : State} {ctx : Nat}
    (h : ∀ ref ∈ gangsOf s ctx, ∀ g, s.gang? ref = some g → g.unclass = none ∧ g.late = none ∧ g.block = none) :
    invalidate s ctx = purgeCtx s ctx := by
  unfold invalidate
  suffices hfold : ∀ l : List GangRef, (∀ r ∈ l, r ∈ gangsOf s ctx) → l.foldl (fun t r => renewGang t ctx r) (purgeCtx s ctx) = purgeCtx s ctx from
    hfold _ fun _ hr => hr
  intro l
  induction l with
  | nil => intro _; rfl
  | cons r l ih =>
    intro hl
    have hr : renewGang (purgeCtx s ctx) ctx r = purgeCtx s ctx := renewGang_idle fun g hg => h r (hl r (List.mem_cons_self ..)) g hg
    rw [List.foldl_cons, hr]
    exact ih fun r' hr' => hl r' (List.mem_cons_of_mem _ hr')

/-! ### A queue that waits or is blocked (R387, R389) -/

section

variable {s : State} {q : Nat} {x : Queue} (hx : s.queue? q = some x)
include hx

theorem execQueueWake_blocked {at_ pa v : Nat} {leaf : W64} (hb : x.act = .blocked) (hseen : x.seen = some (at_, v))
    (hpa : ownPlace s x.ctx x.d.tailAddr.toNat = some (pa, leaf)) :
    execQueueWake q s = .next (if memNat s pa 8 ≠ v then s.setQueue q { x with act := .acting } else s) := by
  have hwritten : (decide (x.act = .blocked) && tailWritten s x) = (memNat s pa 8 != v) := by simp [hb, tailWritten, hseen, hpa]
  rw [execQueueWake, hx]
  simp only [hwritten, bne_iff_ne]

theorem execWaitvSatisfied_read {p : CmpPacket} {lim : Option Nat} {v : Nat} (hw : x.act = .waitv p lim) (hf : ctxFrozen s x.ctx = false)
    (hv : readWord s x.ctx p.addr = some v) :
    execWaitvSatisfied q s =
      .next (if cmpHolds p v then packetDone (agentCorrect s x.ctx p.addr.toNat 8) q else agentCorrect s x.ctx p.addr.toNat 8) := by
  rw [execWaitvSatisfied, hx]
  simp only [hw, hf, hv, Bool.false_eq_true, if_false]

theorem execWaitvTimeout_waiting {p : CmpPacket} {t : Nat} (hw : x.act = .waitv p (some t)) :
    execWaitvTimeout q s = .next (if t ≤ s.tick && !ctxFrozen s x.ctx then queueError s q 0x03 else s) := by
  rw [execWaitvTimeout, hx]
  simp only [hw]

theorem packetDone_ring {s' : State} (ha : x.arm = none) (hw : agentWrite s x.ctx x.d.headAddr.toNat (leBytes 8 (x.head + 1)) = .ok s') :
    packetDone s q = s'.setQueue q { x with head := x.head + 1, arm := none, armFail := none, act := .acting } := by
  simp only [packetDone, hx, ha, advanceHead, hw]

end

/-! ### The copy unit (R391) -/

section

variable {s s1 : State} {id count k : Nat} {c : CopyOp} (hc : KMap.get? s.copies id = some c) (hh : s.halted = false)
  (ha : anyStop s c.ctx = false)
include hc hh ha

theorem execCopyTransfer_moved (hm : copyBytes s c.ctx c.p count c.done = (s1, k, none)) :
    execCopyTransfer id count s = if c.p.len ≤ k then .next (copyFinish { s1 with copies := KMap.del s1.copies id } c.ctx c.p.sig 0 0)
      else .next { s1 with copies := KMap.put s1.copies id { c with done := k } } := by
  rw [execCopyTransfer, hc]
  refine (if_neg (by simp [hh, ha])).trans ?_
  rw [hm]

theorem execCopyTransfer_fault {cause addr : Nat} (hm : copyBytes s c.ctx c.p count c.done = (s1, k, some (cause, addr))) :
    execCopyTransfer id count s = .next (copyFinish { s1 with copies := KMap.del s1.copies id } c.ctx c.p.sig cause addr) := by
  rw [execCopyTransfer, hc]
  refine (if_neg (by simp [hh, ha])).trans ?_
  rw [hm]

end

theorem walkCorrect_bytesKept (s : State) (ctx va : Nat) : BytesKept s (walkCorrect s ctx va) := by
  unfold walkCorrect correctWalk
  split
  · exact .refl s
  · exact .foldl (fun s a => correctMem_bytesKept s _ a 8) _ s

theorem correctAt_bytesKept (s : State) (ctx va pa : Nat) (leaf : W64) (n : Nat) : BytesKept s (correctAt s ctx va pa leaf n) :=
  (walkCorrect_bytesKept s ctx va).trans (correctMem_bytesKept _ _ pa n)

/-- R391: a byte of a copy goes to its destination, and no other byte changes. -/
theorem memByte_copyByte {s s1 : State} {ctx : Nat} {p : CopyPacket} {k a b : Nat} {la lb : W64} (h : l1Ok s.l1)
    (hsrc : agentXlat s ctx ((p.src.toNat + k) % 2 ^ 64) .read = .ok a la) (hdst : agentXlat s ctx ((p.dst.toNat + k) % 2 ^ 64) .write = .ok b lb)
    (hcopy : copyByte s ctx p k = .ok s1) (pa : Nat) : memByte s1 pa = if pa = b then memByte s a else memByte s pa := by
  have hkept := (walkCorrect_bytesKept s ctx ((p.dst.toNat + k) % 2 ^ 64)).trans (correctAt_bytesKept _ ctx ((p.src.toNat + k) % 2 ^ 64) a la 1)
  unfold copyByte at hcopy
  simp only [hsrc, hdst] at hcopy
  split at hcopy
  · cases hcopy
  · obtain rfl := CopyByte.ok.inj hcopy
    generalize correctAt (walkCorrect s ctx ((p.dst.toNat + k) % 2 ^ 64)) ctx ((p.src.toNat + k) % 2 ^ 64) a la 1 = t at hkept
    have hstore : memByte (homeStore t b [memByte t a] (pay := .of ctx)) pa = if pa = b then memByte s a else memByte s pa := by
      rw [memByte_homeStore _ _ _ _ _ (hkept.lines h), hkept.bytes h, hkept.bytes h]
      by_cases hb : pa = b
      · rw [if_pos hb, if_pos (by simp [hb]), hb, Nat.sub_self]
        rfl
      · rw [if_neg hb, if_neg (by simp; omega)]
    split <;> exact hstore

end Sys2Proof.Machine

namespace Sys2Proof

open Machine in
/-- Settles O51. -/
theorem queuePackets : Obligations.QueuePackets := by
  unfold Obligations.QueuePackets
  refine ⟨⟨?_, ?_, cmpHolds_iff, fun s q x hx ha s' hw => packetDone_ring hx ha hw⟩, ?_,
    fun s s1 ctx p k a b la lb h hsrc hdst hcopy pa => memByte_copyByte h hsrc hdst hcopy pa⟩
  · intro s q after x hx
    refine ⟨fun record hr => execTask_acting hx hr, fun p timeout hp => execWaitv_acting hx hp timeout,
      fun addr value set pa leaf ha hpa => execSignal_acting hx ha hpa, ?_, fun a i ha hi => queueTurn_arm hx ha hi,
      fun p hp => ⟨execCopy_acting hx hp, execCopyMigrate_acting hx hp⟩, fun tag => ⟨execMarkTrace_acting hx tag,
        execMarkInvalidate_held hx tag, fun hfree => ⟨execMarkInvalidate_free hx tag hfree, fun hidle => ?_⟩⟩⟩
    · intro p n m t v packets hp hn hm harm ht hroom hfetch hv isElse len s1
      have hcond := execCond_acting hx hp hn hm harm ht hroom hfetch hv
      exact ⟨fun hlen => hcond.trans (congrArg _ (if_pos hlen)), fun hlen => hcond.trans (congrArg _ (if_neg hlen))⟩
    · rw [invalidate_idle hidle]
      exact ⟨rfl, fun e => by simp [purgeCtx], fun e => by simp [purgeCtx]⟩
  · intro s q x hx
    refine ⟨fun at_ pa leaf v hb hseen hpa => execQueueWake_blocked hx hb hseen hpa, fun p lim v hw hf hv => ?_, fun p t hw => ?_⟩
    · have hread := execWaitvSatisfied_read hx hw hf hv
      exact ⟨fun hc => hread.trans (congrArg _ (if_pos hc)), fun hc => hread.trans (congrArg _ (if_neg (by simp [hc])))⟩
    · have htime := execWaitvTimeout_waiting hx hw
      exact ⟨fun ht hf => htime.trans (congrArg _ (if_pos (by simp [ht, hf]))),
        fun ht => htime.trans (congrArg _ (if_neg (by simp [Nat.not_le.2 ht])))⟩
  · intro s id count c hc hh ha
    exact ⟨fun s1 k hm hk => (execCopyTransfer_moved hc hh ha hm).trans (if_neg (Nat.not_le.2 hk)),
      fun s1 k hm hk => (execCopyTransfer_moved hc hh ha hm).trans (if_pos hk),
      fun s1 k cause addr hm => execCopyTransfer_fault hc hh ha hm⟩

end Sys2Proof

/-! ## Scope: acceptance, dependences, edges and the flush of tasks (O52) -/

namespace Sys2Proof.Machine

/-! ### Stores of agents (R293, R348) -/

theorem get?_modify {α : Type} (m : KMap α) (a : Nat) (f : α → α) : KMap.get? (KMap.modify m a f) a = (KMap.get? m a).map f := by
  induction m with
  | nil => rfl
  | cons e m ih =>
    obtain ⟨c, v⟩ := e
    by_cases hc : a = c
    · subst hc
      simp [KMap.modify, KMap.get?]
    · have hne : ¬ c = a := fun h => hc h.symm
      simpa [KMap.modify, KMap.get?, hc, hne] using ih

theorem get?_modify_ne {α : Type} (m : KMap α) {a b : Nat} (f : α → α) (h : b ≠ a) : KMap.get? (KMap.modify m a f) b = KMap.get? m b := by
  induction m with
  | nil => rfl
  | cons e m ih =>
    obtain ⟨c, v⟩ := e
    by_cases hc : c = a
    · subst hc
      simpa [KMap.modify, KMap.get?, h] using ih
    · by_cases hb : b = c
      · simp [KMap.modify, KMap.get?, hc, hb]
      · simpa [KMap.modify, KMap.get?, hc, hb] using ih

theorem agentBytes_onePage {s : State} {ctx va n pa : Nat} {acc : Access} {leaf : W64} (ha : agentXlat s ctx va acc = .ok pa leaf)
    (hn : n ≠ 0) (hpage : va % 4096 + n ≤ 4096) : agentBytes s ctx va n acc = .ok ((List.range n).map (pa + ·)) := by
  simp [agentBytes, pagePieces_one hn hpage, ha]

/-- A write of an agent within one page stores its bytes, and changes no other. -/
theorem agentWrite_onePage {s : State} {ctx va pa : Nat} {bs : List Byte} {leaf : W64} (h : l1Ok s.l1) (ha : agentXlat s ctx va .write = .ok pa leaf)
    (hpage : va % 4096 + bs.length ≤ 4096) (hbs : bs ≠ []) : ∃ t, agentWrite s ctx va bs = .ok t ∧
      ∀ a, memByte t a = if pa ≤ a ∧ a < pa + bs.length then bs.getD (a - pa) 0#8 else memByte s a := by
  have hn : bs.length ≠ 0 := fun e => hbs (List.length_eq_zero_iff.1 e)
  obtain ⟨m, hm⟩ := Nat.exists_eq_succ_of_ne_zero hn
  have hbytes : agentBytes s ctx va bs.length .write = .ok ((List.range bs.length).map (pa + ·)) := agentBytes_onePage ha hn hpage
  have hcons : (List.range bs.length).map (pa + ·) = pa :: (List.range m).map (pa + · + 1) := by
    simp [hm, List.range_succ_eq_map, Function.comp_def, Nat.add_assoc]
  have hkept := walkCorrect_bytesKept s ctx va
  rw [hcons] at hbytes
  refine ⟨_, by simp only [agentWrite, hbytes]; rfl, fun a => ?_⟩
  simp only [pagePieces_one hn hpage, List.foldl_cons, List.foldl_nil, List.drop_zero, List.take_length, List.getD_cons_zero]
  show memByte (homeStore (walkCorrect s ctx va) pa bs (pay := .of ctx)) a = _
  rw [memByte_homeStore _ _ _ _ _ (hkept.lines h), hkept.bytes h]

theorem recordWrite_ok {s t : State} {slot ctx addr : Nat} {taskid : W32} {bs : List Byte} (h : agentWrite s ctx addr bs = .ok t) :
    recordWrite s slot ctx taskid addr bs = t := by
  simp only [recordWrite, h]

/-! ### Acceptance (R330, R331, R334) -/

section

variable {s : State} {q slot since : Nat} {x : Queue} {addr : W64} {bs : List Byte} (hx : s.queue? q = some x) (hact : x.act = .task addr since)
  (hslot : freeTaskSlot s = some slot) (hh : s.halted = false) (hf : s.fw.activating = none) (hck : s.ckptRun = none)
  (hctx : ∃ c, s.ctx? x.ctx = some c) (hturn : acceptTurn s q since = true) (hread : cleanRead s x.ctx addr.toNat 256 = some bs)
include hx hact hslot hh hf hck hctx hturn hread

theorem execTaskAccept_turn :
    execTaskAccept q s = match launchCheck (recordCorrect s x.ctx addr.toNat bs) x.ctx addr.toNat bs with
      | .ok r => .next (packetDone (accept (recordCorrect s x.ctx addr.toNat bs) q slot x.ctx r) q)
      | .error st => .next (packetDone (doneSignal (recordWrite (recordCorrect s x.ctx addr.toNat bs) 0 x.ctx (recordOf addr.toNat bs).taskid
          (addr.toNat + 0x68) (leBytes 8 (statusWord st 0 none))) x.ctx (recordOf addr.toNat bs) 0 0xFC true) q) := by
  obtain ⟨c, hc⟩ := hctx
  have hgo : ¬ ((s.halted || s.fw.activating.isSome || s.ckptRun.isSome || (s.ctx? x.ctx).isNone) || !acceptTurn s q since) = true := by
    simp [hh, hf, hck, hc, hturn]
  unfold execTaskAccept
  simp only [hx, hact, hslot, if_neg hgo, hread] <;> rfl

end

/-- What acceptance leaves where SLOT and STATUS of the record could be written. -/
theorem accept_written {s s1 s2 : State} {q slot ctx : Nat} {r : TaskRec} (h1 : agentWrite s ctx (r.addr + 0x49) [BitVec.ofNat 8 slot] = .ok s1)
    (h2 : agentWrite s1 ctx (r.addr + 0x68) (leBytes 8 1) = .ok s2) :
    accept s q slot ctx r = { s2 with
      tasks := KMap.put s2.tasks slot (Task.fresh r ctx q s2.nextOrder .waiting)
      nextOrder := s2.nextOrder + 1
      ctxs := KMap.modify (KMap.modify s2.ctxs ctx fun c => { c with progress := s2.tick, stallDrained := false }) ctx fun c =>
        if c.state = .idle then { c with state := .waiting, waitSince := s2.tick } else c } := by
  have hw2 : recordWrite s1 slot ctx r.taskid (r.addr + 0x68) (leBytes 8 (statusWord 1 0 none)) = s2 := recordWrite_ok h2
  unfold accept
  simp only [recordWrite_ok h1, hw2]
  rfl

/-! ### DONESIG (R348, R349) -/

theorem leVal_leBytes (n v : Nat) : leVal (leBytes n v) = v % 256 ^ n := by
  induction n generalizing v with
  | zero => simp [leBytes, leVal, Nat.mod_one]
  | succ n ih =>
    have hb : (BitVec.ofNat 8 v).toNat = v % 256 := BitVec.toNat_ofNat ..
    rw [leBytes, leVal, ih, hb, Nat.pow_succ', Nat.mod_mul]

theorem leVal_lt (bs : List Byte) : leVal bs < 256 ^ bs.length := by
  induction bs with
  | nil => simp [leVal]
  | cons b bs ih =>
    have hb := b.isLt
    simp only [leVal, List.length_cons, Nat.pow_succ]
    omega

theorem memNat_lt (s : State) (pa : Nat) : memNat s pa 8 < 2 ^ 64 := by
  have h := leVal_lt (memBytes s pa 8)
  simpa [memNat, memBytes] using h

/-- A word stored at its home reads as it was stored. -/
theorem memNat_stored {s : State} {pa n v : Nat} (h : ∀ q, pa ≤ q → q < pa + n → memByte s q = (leBytes n v).getD (q - pa) 0#8) :
    memNat s pa n = v % 256 ^ n := by
  have hbytes : memBytes s pa n = leBytes n v := by
    refine List.ext_getElem (by simp [memBytes]) fun i hi hi' => ?_
    have hlt : i < n := by simpa [memBytes] using hi
    have hget := h (pa + i) (Nat.le_add_right ..) (by omega)
    simp only [memBytes, List.getElem_map, List.getElem_range]
    rw [hget, Nat.add_sub_cancel_left, List.getD_eq_getElem?_getD, List.getElem?_eq_getElem hi', Option.getD_some]
  rw [memNat, hbytes, leVal_leBytes]

theorem sigUpdate_lt {err x : Nat} (he : err < 256) (hx : x < 2 ^ 64) (set : Bool) : sigUpdate err x set < 2 ^ 64 := by
  have hsig : sigErr x < 256 := Nat.mod_lt _ (by decide)
  unfold sigUpdate sigCount
  simp only
  split <;> omega

theorem memPoisoned_correctAt (s : State) (ctx va pb : Nat) (leaf : W64) (m pa n : Nat) :
    memPoisoned (correctAt s ctx va pb leaf m) pa n = memPoisoned s pa n := by
  have hmem : ∀ (t : State) (die pb m : Nat), wordPoisoned (correctMem t die pb m) = wordPoisoned t := fun t die pb m =>
    funext fun w => (correctMem_readsKept t die pb m).poison w
  have hwalk : wordPoisoned (walkCorrect s ctx va) = wordPoisoned s := by
    unfold walkCorrect correctWalk
    split
    · rfl
    · exact foldl_keeps (fun t => wordPoisoned t = wordPoisoned s) _ (fun t a ht => (hmem t _ a 8).trans ht) _ s rfl
  simp only [memPoisoned, correctAt, hmem, hwalk]

/-- R348, R349: the DONESIG update adds 1 to its word, which takes the error, and changes no other byte. -/
theorem doneSignal_update {s : State} {ctx info err pa : Nat} {r : TaskRec} {set : Bool} {leaf : W64} (h : l1Ok s.l1) (hsig : r.donesig ≠ 0#64)
    (hal : r.donesig.toNat % 8 = 0) (ha : agentXlat s ctx r.donesig.toNat .write = .ok pa leaf) (hclean : memPoisoned s pa 8 = false) (herr : err < 256) :
    memNat (doneSignal s ctx r info err set) pa 8 = sigUpdate err (memNat s pa 8) set ∧
      ∀ a, a < pa ∨ pa + 8 ≤ a → memByte (doneSignal s ctx r info err set) a = memByte s a := by
  have hkept := correctAt_bytesKept s ctx r.donesig.toNat pa leaf 8
  have hclean' := (memPoisoned_correctAt s ctx r.donesig.toNat pa leaf 8 pa 8).trans hclean
  have hnat : memNat (correctAt s ctx r.donesig.toNat pa leaf 8) pa 8 = memNat s pa 8 := by simp only [memNat, memBytes, hkept.bytes h]
  obtain ⟨-, hbad, hbytes⟩ := homeEvent_spec (hkept.lines h) pa 8 (fun x => sigUpdate err x set) (.of ctx)
  have hnonzero : ¬ r.donesig.toNat = 0 := fun e => hsig (BitVec.eq_of_toNat_eq e)
  have hdone : doneSignal s ctx r info err set =
      (homeEvent (correctAt s ctx r.donesig.toNat pa leaf 8) pa 8 (fun x => sigUpdate err x set) (.of ctx)).2.2 := by
    unfold doneSignal
    simp only [if_neg hnonzero, hal, ne_eq, not_true_eq_false, if_false, ha, hbad, hclean', Bool.false_eq_true]
  rw [hdone]
  refine ⟨?_, fun a hout => ?_⟩
  · have hword := memNat_stored (n := 8) (v := sigUpdate err (memNat s pa 8) set) fun q hlo hhi => by
      rw [hbytes q, if_pos ⟨hclean', hlo, hhi⟩, hnat]
    rw [hword]
    exact Nat.mod_eq_of_lt (sigUpdate_lt herr (memNat_lt s pa) set)
  · rw [hbytes a, if_neg (by omega), hkept.bytes h]

/-! ### Deferred requests that are free are performed (R293) -/

theorem correctMem_deferral (s : State) (die pa n : Nat) : (correctMem s die pa n).deferral = s.deferral := by
  unfold correctMem
  extract_lets r
  split <;> rfl

theorem walkCorrect_deferral (s : State) (ctx va : Nat) : (walkCorrect s ctx va).deferral = s.deferral := by
  unfold walkCorrect correctWalk
  split
  · rfl
  · exact foldl_keeps (fun t => t.deferral = s.deferral) _ (fun t a ht => (correctMem_deferral t _ a 8).trans ht) _ s rfl

theorem agentWrite_deferral {s t : State} {ctx va : Nat} {bs : List Byte} {pay : Charge} (h : agentWrite s ctx va bs pay = .ok t) :
    t.deferral = s.deferral := by
  unfold agentWrite at h
  split at h
  · cases h
  · split at h
    · rw [← Except.ok.inj h]
    · rw [← Except.ok.inj h]
      exact foldl_keeps (fun a : State × Nat => a.1.deferral = s.deferral) _ (fun a p ha => (walkCorrect_deferral a.1 ctx p.1).trans ha) _ (s, 0) rfl

theorem homeEvent_deferral (s : State) (pa n : Nat) (f : Nat → Nat) (pay : Charge) : (homeEvent s pa n f pay).2.2.deferral = s.deferral := by
  unfold homeEvent
  extract_lets s' old
  split <;> rfl

theorem netRefuse_deferral (s : State) (port : Nat) (ctx : Option Nat) (k : NetKind) : (netRefuse s port ctx k).deferral = s.deferral := by
  cases ctx <;> rfl

theorem netAtomic_deferral (s : State) (pa : Nat) (f : Nat → Nat) : (netAtomic s pa f).deferral = s.deferral := by
  have h := (homeEvent_deferral (correctMem s (homeOf s pa) pa 8) pa 8 f .agent).trans (correctMem_deferral s (homeOf s pa) pa 8)
  unfold netAtomic
  extract_lets ev
  show (if ev.2.1 then ev.2.2 else forgetStores ev.2.2 pa 8).deferral = s.deferral
  split
  · exact h
  · exact h

theorem netPerform_deferral (s : State) (k : NetKind) (r : NetReq) (ctx : Nat) : (netPerform s k r ctx).deferral = s.deferral := by
  unfold netPerform
  extract_lets n acc
  split
  · exact netRefuse_deferral ..
  · next pas hpas =>
    extract_lets pa
    cases k with
    | write =>
      simp only
      split
      · next t ht =>
        show t.deferral = s.deferral
        exact agentWrite_deferral ht
      · exact netRefuse_deferral ..
    | read => exact foldl_keeps (fun t : State => t.deferral = s.deferral) _ (fun t a ht => (correctMem_deferral t _ a 1).trans ht) pas s rfl
    | fetchAdd => exact netAtomic_deferral ..
    | cmpSwap => exact netAtomic_deferral ..

theorem performDeferred_length {s : State} {ix : Nat} (h : released s ix = true) :
    (performDeferred s ix).deferral.length + 1 = s.deferral.length := by
  have hix : ix < s.deferral.length := by
    unfold released at h
    split at h
    · cases h
    · next d hd => exact (List.getElem?_eq_some_iff.1 hd).1
  unfold performDeferred
  rw [List.getElem?_eq_getElem hix]
  simp only [h, if_true, netPerform_deferral, List.length_eraseIdx, hix]
  omega

/-- With as many turns as there are deferred requests, none that is free is left. -/
theorem released_performReleased (n : Nat) (s : State) (hn : s.deferral.length ≤ n) (ix : Nat) : released (performReleased s n) ix = false := by
  have hout : ∀ t : State, t.deferral.length ≤ ix → released t ix = false := by
    intro t ht
    simp [released, List.getElem?_eq_none ht]
  induction n generalizing s with
  | zero => exact hout s (by omega)
  | succ n ih =>
    unfold performReleased
    split
    · next hnone =>
      by_cases hix : s.deferral.length ≤ ix
      · exact hout s hix
      · exact Bool.eq_false_iff.2 fun hr => List.find?_eq_none.1 hnone ix (List.mem_range.2 (by omega)) hr
    · next j hj =>
      have hlen := performDeferred_length (List.find?_some hj)
      exact ih _ (by omega)

/-! ### The flush (R345, R346) -/

theorem dirtyByte_cleaned (ls : List L1Line) (mine : L1Line → Bool) (q : Nat) :
    dirtyByte (ls.map fun l => if mine l then { l with owned := false, dirty := [] } else l) q = dirtyByte (ls.filter fun l => !mine l) q := by
  induction ls with
  | nil => rfl
  | cons l ls ih =>
    cases hm : mine l with
    | true => simpa [hm, dirtyByte, KMap.get?] using ih
    | false => simp [hm, dirtyByte, ih]

theorem foldl_portCross (ls : List L1Line) (s : State) (ctx : Nat) :
    (ls.foldl (fun s l => portCross s l.core ctx) s).mem = s.mem ∧ (ls.foldl (fun s l => portCross s l.core ctx) s).l1 = s.l1 := by
  induction ls generalizing s with
  | nil => exact ⟨rfl, rfl⟩
  | cons l ls ih =>
    obtain ⟨hmem, hl1⟩ := ih (portCross s l.core ctx)
    exact ⟨hmem.trans rfl, hl1.trans rfl⟩

/-- R345: what a line written back leaves, but for the copies and memory: a crossing of each copy's port. -/
theorem writeBackOwned_eq (s : State) (ctx line : Nat) :
    (writeBackOwned s ctx line).l1 = s.l1.map (fun l => if l.line == line && l.owned then { l with owned := false, dirty := [] } else l) ∧
      (writeBackOwned s ctx line).mem = (s.l1.filter fun l => l.line == line && l.owned).foldl (fun m l => writeDirty m l.dirty) s.mem := by
  obtain ⟨hmem, hl1⟩ := foldl_portCross (s.l1.filter fun l => l.line == line && l.owned) s ctx
  unfold writeBackOwned
  simp only
  rw [hmem, hl1]
  split <;> exact ⟨rfl, rfl⟩

/-- R345: a line written back reads as before. -/
theorem memByte_writeBackOwned {s : State} (h : l1Ok s.l1) (ctx line pa : Nat) : memByte (writeBackOwned s ctx line) pa = memByte s pa := by
  obtain ⟨hl1, hmem⟩ := writeBackOwned_eq s ctx line
  rw [memByte, homeByte, hl1, hmem, dirtyByte_cleaned]
  exact dropLines_lines s.l1 (fun l => l.line == line && l.owned) s.mem pa h

theorem writeBackOwned_owned {s : State} {ctx line : Nat} : ∀ l ∈ (writeBackOwned s ctx line).l1, l.line = line → l.owned = false := by
  rw [(writeBackOwned_eq s ctx line).1]
  intro l hl hline
  obtain ⟨l', -, rfl⟩ := List.mem_map.1 hl
  split at hline
  · next hm => rw [if_pos hm]
  · next hm =>
    rw [if_neg hm]
    simpa [hline] using hm

theorem putDieLine_eq (s : State) (die line : Nat) :
    putDieLine s die line = { s with dieCache := (putDieLine s die line).dieCache, dieCorr := (putDieLine s die line).dieCorr } := by
  unfold putDieLine
  split <;> rfl

theorem putDieLine_l1 (s : State) (die line : Nat) : (putDieLine s die line).l1 = s.l1 := by rw [putDieLine_eq]

theorem memByte_putDieLine (s : State) (die line pa : Nat) : memByte (putDieLine s die line) pa = memByte s pa := by rw [putDieLine_eq]; rfl

theorem has_putDieLine (s : State) (die line : Nat) : BitSet.has (putDieLine s die line).dieCache (2 * line + die) = true := by
  unfold putDieLine
  split
  · assumption
  · exact BitSet.has_put_self s.dieCache (2 * line + die) true

theorem has_putDieLine_kept {s : State} {die line k : Nat} (h : BitSet.has s.dieCache k = true) : BitSet.has (putDieLine s die line).dieCache k = true := by
  unfold putDieLine
  split
  · exact h
  · by_cases hk : k = 2 * line + die
    · rw [hk]
      exact BitSet.has_put_self s.dieCache (2 * line + die) true
    · rwa [BitSet.has_put_ne _ _ hk]

/-- R346: a line of a FORWARD region enters the die-level caches that FWDDIE names. -/
def forwardTo (s : State) (fwddie line : Nat) : State :=
  match fwddie with
  | 0 => putDieLine s 0 line
  | 1 => putDieLine s 1 line
  | _ => putDieLine (putDieLine s 0 line) 1 line

theorem memByte_forwardTo (s : State) (f line pa : Nat) : memByte (forwardTo s f line) pa = memByte s pa := by
  unfold forwardTo
  split
  · exact memByte_putDieLine ..
  · exact memByte_putDieLine ..
  · exact (memByte_putDieLine ..).trans (memByte_putDieLine ..)

theorem forwardTo_l1 (s : State) (f line : Nat) : (forwardTo s f line).l1 = s.l1 := by
  unfold forwardTo
  split
  · exact putDieLine_l1 ..
  · exact putDieLine_l1 ..
  · exact (putDieLine_l1 ..).trans (putDieLine_l1 ..)

theorem has_forwardTo (s : State) {f line d : Nat} (hd : d < 2) (hf : f = d ∨ 2 ≤ f) : BitSet.has (forwardTo s f line).dieCache (2 * line + d) = true := by
  unfold forwardTo
  split
  · obtain rfl : d = 0 := by omega
    exact has_putDieLine ..
  · obtain rfl : d = 1 := by omega
    exact has_putDieLine ..
  · obtain rfl | rfl : d = 0 ∨ d = 1 := by omega
    · exact has_putDieLine_kept (has_putDieLine ..)
    · exact has_putDieLine ..

/-- R345: the write-back of an owned copy that the flush of a line of a shared page makes. -/
def flushBack (s : State) (t : Task) (page line : Nat) : State := if t.classOf page = .shared then writeBackOwned s t.ctx line else s

theorem memByte_flushBack {s : State} (h : l1Ok s.l1) (t : Task) (page line pa : Nat) : memByte (flushBack s t page line) pa = memByte s pa := by
  unfold flushBack
  split
  · exact memByte_writeBackOwned h ..
  · rfl

section

variable {s : State} {t : Task} {g : Region} {line pa : Nat} {leaf : W64} (hpa : ownPlace s t.ctx (g.base + 128 * line) = some (pa, leaf))
include hpa

theorem flushAct_place : flushAct s t g line =
    if g.forward then forwardTo (flushBack s t ((g.base + 128 * line) / 4096) (pa / 128)) g.fwddie (pa / 128)
    else flushBack s t ((g.base + 128 * line) / 4096) (pa / 128) := by
  unfold flushAct
  simp only [hpa]
  cases g.forward <;> rfl

theorem memByte_flushAct (h : l1Ok s.l1) (a : Nat) : memByte (flushAct s t g line) a = memByte s a := by
  rw [flushAct_place hpa]
  split
  · exact (memByte_forwardTo ..).trans (memByte_flushBack h ..)
  · exact memByte_flushBack h ..

theorem flushAct_owned (hs : t.classOf ((g.base + 128 * line) / 4096) = .shared) :
    ∀ l ∈ (flushAct s t g line).l1, l.line = pa / 128 → l.owned = false := by
  have hback : flushBack s t ((g.base + 128 * line) / 4096) (pa / 128) = writeBackOwned s t.ctx (pa / 128) := if_pos hs
  rw [flushAct_place hpa, hback]
  split
  · rw [forwardTo_l1]
    exact writeBackOwned_owned
  · exact writeBackOwned_owned

theorem has_flushAct (hf : g.forward = true) {d : Nat} (hd : d < 2) (hdie : g.fwddie = d ∨ 2 ≤ g.fwddie) :
    BitSet.has (flushAct s t g line).dieCache (2 * (pa / 128) + d) = true := by
  rw [flushAct_place hpa, if_pos hf]
  exact has_forwardTo _ hd hdie

end

/-! ### Dependences, the start edge, the flush walk and the end edge (R336 to R340, R344 to R347) -/

section

variable {s : State} {slot : Nat} {t : Task} (ht : s.task? slot = some t)
include ht

theorem execDependenceRead_read {dep x : Nat} {d : Dep} (hdep : t.rec_.deps[dep]? = some d) (hst : t.stage = .waiting) (hsig : d.sigaddr ≠ 0#64)
    (hmet : BitSet.has t.depsMet dep = false) (hp : paused s t.ctx = false) (hx : readWord s t.ctx d.sigaddr = some x) :
    let s1 := agentCorrect s t.ctx d.sigaddr.toNat 8
    execDependenceRead slot dep s = .next (if d.stoperr && sigErr x ≠ 0 then endWithoutEdges s1 slot 3 0xFD
      else if d.need ≤ sigCount x then s1.setTask slot { t with depsMet := BitSet.put t.depsMet dep true } else s1) := by
  have hgo : ¬ (t.stage ≠ .waiting || d.sigaddr = 0#64 || BitSet.has t.depsMet dep || paused s t.ctx) = true := by simp [hst, hsig, hmet, hp]
  unfold execDependenceRead
  simp only [ht, hdep, if_neg hgo, hx]

theorem execStartEdge_waiting (hst : t.stage = .waiting) (hh : s.halted = false) (hp : paused s t.ctx = false) :
    execStartEdge slot s = if !depsDone t || arbitrated s t || deferredInto s t then .next s
      else .next (traceTask { s.setTask slot { t with
        stage := .running, classes := [], follows := followsOf s t, codeBase := codeBaseOf s (followsOf s t) } with icache := [] }
        t.ctx 0 t.rec_.taskid 0 0) := by
  have hc : (t.stage ≠ .waiting || !depsDone t || s.halted || paused s t.ctx || arbitrated s t || deferredInto s t) =
      (!depsDone t || arbitrated s t || deferredInto s t) := by simp [hst, hh, hp]
  unfold execStartEdge
  simp only [ht, hc]

omit ht in
theorem arbitrated_false_iff : arbitrated s t = false ↔ ∀ e ∈ s.tasks, e.2.order < t.order → tasksConflict s e.2 t = false := by
  simp [arbitrated, List.any_eq_false]

section

variable {k l : Nat} (hst : t.stage = .flushing k l) (hr : flushRuns s t = true)
include hst hr

theorem execFlushLine_done (hc : cursorFrom t 65 k l = none) : execFlushLine slot s = .next (flushDone s slot t) := by
  simp only [execFlushLine, ht, hst, hr, hc, Bool.not_true, Bool.false_eq_true, if_false]

theorem execFlushLine_line {j m : Nat} {g : Region} (hc : cursorFrom t 65 k l = some (j, m)) (hg : t.rec_.regions[j]? = some g) :
    execFlushLine slot s = .next (match cursorFrom t 65 j (m + 1) with
      | none => flushDone (flushAct s t g m) slot t
      | some (j', m') => (flushAct s t g m).setTask slot { t with stage := .flushing j' m', flushStopped := false }) := by
  simp only [execFlushLine, ht, hst, hr, hc, hg, Bool.not_true, Bool.false_eq_true, if_false]
  cases cursorFrom t 65 j (m + 1) <;> rfl

end

theorem execEndEdgeFinish_flushed (hst : t.stage = .flushed) (ha : anyStop s t.ctx = false) :
    let s1 := dropLines s fun l => l.slot == slot
    execEndEdgeFinish slot s = .next (if t.rec_.digest && t.outcome.1 = 1 then
        if t.rerun then release ((writeDigref s1 slot t).bump .reexec t.ctx) slot t
        else if !t.rec_.refset then release (writeDigref s1 slot t) slot t
        else if t.digest = t.rec_.digref then release s1 slot t
        else if t.forced then release (logMismatch s1 slot t) slot t
        else rerunTask s1 slot t
      else release s1 slot t) := by
  have hgo : ¬ (t.stage ≠ .flushed || anyStop s t.ctx) = true := by simp [hst, ha]
  unfold execEndEdgeFinish
  simp only [ht, if_neg hgo]
  repeat' split
  all_goals rfl

end

end Sys2Proof.Machine

namespace Sys2Proof

open Machine in
/-- Settles O52. -/
theorem taskEdges : Obligations.TaskEdges := by
  unfold Obligations.TaskEdges
  refine ⟨?_, ?_, fun s ctx va pa bs leaf h ha hpage hbs => agentWrite_onePage h ha hpage hbs,
    fun s ctx info err pa r set leaf h hsig hal ha hclean herr => doneSignal_update h hsig hal ha hclean herr, ?_,
    fun s ix => released_performReleased _ s (Nat.le_refl _) ix, ?_, ?_, ?_, ?_, fun s ctx line h _ pa => memByte_writeBackOwned h ctx line pa, ?_⟩
  · intro s q slot since x addr bs hx hact hslot hh hf hck hctx hturn hread s1
    have hturned := execTaskAccept_turn hx hact hslot hh hf hck hctx hturn hread
    exact ⟨fun r hr => hturned.trans (by rw [hr]), fun st hst => ⟨_, hturned.trans (by rw [hst]), rfl⟩⟩
  · intro s s1 s2 q slot ctx r h1 h2
    rw [accept_written h1 h2]
    refine ⟨fun _ => rfl, KMap.get?_put_self _ _ _, rfl, fun k hk => KMap.get?_put_ne _ _ hk, fun c hc => ?_⟩
    have hget : KMap.get? s2.ctxs ctx = some c := hc
    simp only [State.ctx?, get?_modify, hget, Option.map_some]
    refine ⟨_, rfl, ?_⟩
    split <;> rfl
  · intro s slot t
    let s1 := performReleased { s with tasks := KMap.del s.tasks slot } s.deferral.length
    let s2 := recordWrite s1 slot t.ctx t.rec_.taskid (t.rec_.addr + 0x68) (leBytes 8 (statusWord 1 t.outcome.1 t.fault))
    let s3 := if t.rec_.deterministic then
        recordWrite s2 slot t.ctx t.rec_.taskid (t.rec_.addr + 0x60) (leBytes 8 (max t.rec_.teamtime.toNat t.longest))
      else s2
    refine ⟨s1, s3, _, rfl, fun x hx y hdet hy => ?_, fun x hx hdet => ?_, rfl, rfl⟩
    · have hs2 : s2 = x := recordWrite_ok hx
      rw [← hs2] at hy
      exact (if_pos hdet).trans (recordWrite_ok hy)
    · exact (if_neg (by simp [hdet])).trans (recordWrite_ok hx)
  · intro s t g line pa leaf _ h hpa
    exact ⟨memByte_flushAct hpa h, flushAct_owned hpa, fun hforward d hd hdie => has_flushAct hpa hforward hd hdie⟩
  · intro s slot dep t d x ht hdep hst hsig hmet hp hx stops s1
    have hread := execDependenceRead_read ht hdep hst hsig hmet hp hx
    refine ⟨fun hs => hread.trans (congrArg _ (if_pos (by simpa using hs))), fun hs hn => ?_, fun hs hn => ?_⟩
    · exact hread.trans (congrArg _ ((if_neg (by simpa [stops] using hs)).trans (if_pos hn)))
    · exact hread.trans (congrArg _ ((if_neg (by simpa [stops] using hs)).trans (if_neg (Nat.not_le.2 hn))))
  · intro s slot t ht hst hh hp ready
    have hedge := execStartEdge_waiting ht hst hh hp
    have hready : ready ↔ (!depsDone t || arbitrated s t || deferredInto s t) = false := by
      simp only [ready, ← arbitrated_false_iff, Bool.or_eq_false_iff, Bool.not_eq_false']
      tauto
    exact ⟨fun h => hedge.trans (if_neg (by rw [hready.1 h]; decide)),
      fun h => hedge.trans (if_pos (by simpa only [Bool.not_eq_false] using mt hready.2 h))⟩
  · intro s slot k l t ht hst hr
    exact ⟨execFlushLine_done ht hst hr, fun j m g hc hg => (execFlushLine_line ht hst hr hc hg).trans (by cases cursorFrom t 65 j (m + 1) <;> rfl)⟩
  · intro s slot t ht hst ha s1 digest
    have hend := execEndEdgeFinish_flushed ht hst ha
    have hdigest : digest ↔ (t.rec_.digest && decide (t.outcome.1 = 1)) = true := by simp [digest]
    refine ⟨fun hd => ?_, fun hd hr => ?_, fun hd hr hs => ?_, fun hd hr hs => ?_⟩
    · exact hend.trans (congrArg _ (if_neg (mt hdigest.2 hd)))
    · exact hend.trans (congrArg _ ((if_pos (hdigest.1 hd)).trans (if_pos hr)))
    · exact hend.trans (congrArg _ ((if_pos (hdigest.1 hd)).trans ((if_neg (by simp [hr])).trans (if_pos (by simp [hs])))))
    · exact hend.trans (congrArg _ ((if_pos (hdigest.1 hd)).trans ((if_neg (by simp [hr])).trans (if_neg (by simp [hs])))))

end Sys2Proof

/-! ## Scope: what stopping and retiring teams spares (O50, O37) -/

namespace Sys2Proof.Machine

/-! ### The relation and its rules -/

/-- What of a task the stop of its teams and the retirement of its teams leave as they are. -/
def Task.fate (t : Task) : Nat × Option (Nat × Nat) × List Nat × Bool × Nat × Nat × Bool :=
  (t.ctx, t.fault, t.relaunch, t.forced, t.estat, t.errCode, decide (t.stage = .waiting))

/-- How far a task has come. -/
def Task.step (t : Task) : Stage × W64 := (t.stage, t.teamsRetired)

/-- A context without its progress and without the place of its error ring. -/
def Ctx.calm (c : Ctx) : Ctx := { c with progress := 0, stallDrained := false, errRing := none, retiredAt := none }

/-- The same team, and stopped where it was. -/
structure Team.Stays (m m' : Team) : Prop where
  slot : m'.slot = m.slot
  ctx : m'.ctx = m.ctx
  dying : m.dying = true → m'.dying = true

/-- What may be at work between two states: teams, the slots of tasks, and whether tasks may go on to their end. -/
structure Scope where
  team : Nat → Prop
  slot : Nat → Prop
  ends : Prop

/-- From s to t only teams of the scope, their gangs and the tasks of its slots were at work, on their way to an end: queues, copies,
contexts and all else that a reset acts on are as they were, no team, gang or engine operation is new, and no task changed its fate. -/
structure Spares (P : Scope) (s t : State) : Prop where
  queues : t.queues = s.queues
  copies : t.copies = s.copies
  migrations : t.migrations = s.migrations
  dumps : t.dumps = s.dumps
  tlb : t.tlb = s.tlb
  resets : ∀ n, KMap.get t.counters 0#64 (Counter.key .resets n) = KMap.get s.counters 0#64 (Counter.key .resets n)
  ctxs : ∀ n, (KMap.get? t.ctxs n).map Ctx.calm = (KMap.get? s.ctxs n).map Ctx.calm
  rising : KMap.rising s.tasks = true → KMap.rising t.tasks = true
  fates : ∀ n, (KMap.get? t.tasks n).map Task.fate = (KMap.get? s.tasks n).map Task.fate
  steps : ¬ P.ends → ∀ n, (KMap.get? t.tasks n).map Task.step = (KMap.get? s.tasks n).map Task.step
  tasks : ∀ n, ¬ P.slot n → KMap.get? t.tasks n = KMap.get? s.tasks n
  stays : ∀ k m', KMap.get? t.teams k = some m' → ∃ m, KMap.get? s.teams k = some m ∧ m.Stays m'
  teams : ∀ k, ¬ P.team k → KMap.get? t.teams k = KMap.get? s.teams k
  owned : ∀ n g', KMap.get? t.gangs n = some g' → ∃ g, KMap.get? s.gangs n = some g ∧ g'.team = g.team
  gangs : ∀ n g, KMap.get? s.gangs n = some g → ¬ P.team g.team → KMap.get? t.gangs n = some g
  engine : ∀ e' ∈ t.engine, ∃ e ∈ s.engine, e'.2.team = e.2.team ∧ e'.2.touched = e.2.touched

theorem Team.Stays.refl (m : Team) : m.Stays m := ⟨rfl, rfl, id⟩

theorem Team.Stays.trans {a b c : Team} (h : a.Stays b) (h' : b.Stays c) : a.Stays c :=
  ⟨h'.slot.trans h.slot, h'.ctx.trans h.ctx, fun hd => h'.dying (h.dying hd)⟩

theorem Spares.refl (P : Scope) (s : State) : Spares P s s :=
  ⟨rfl, rfl, rfl, rfl, rfl, fun _ => rfl, fun _ => rfl, id, fun _ => rfl, fun _ _ => rfl, fun _ _ => rfl,
    fun _ m h => ⟨m, h, .refl m⟩, fun _ _ => rfl,
    fun _ g h => ⟨g, h, rfl⟩, fun _ _ h _ => h, fun e h => ⟨e, h, rfl, rfl⟩⟩

theorem Spares.trans {P : Scope} {a b c : State} (h : Spares P a b) (h' : Spares P b c) : Spares P a c where
  queues := h'.queues.trans h.queues
  copies := h'.copies.trans h.copies
  migrations := h'.migrations.trans h.migrations
  dumps := h'.dumps.trans h.dumps
  tlb := h'.tlb.trans h.tlb
  resets n := (h'.resets n).trans (h.resets n)
  ctxs n := (h'.ctxs n).trans (h.ctxs n)
  rising := h'.rising ∘ h.rising
  fates n := (h'.fates n).trans (h.fates n)
  steps he n := (h'.steps he n).trans (h.steps he n)
  tasks n hn := (h'.tasks n hn).trans (h.tasks n hn)
  stays k m' hm' := by
    obtain ⟨m, hm, hs⟩ := h'.stays k m' hm'
    obtain ⟨m0, hm0, hs0⟩ := h.stays k m hm
    exact ⟨m0, hm0, hs0.trans hs⟩
  teams k hk := (h'.teams k hk).trans (h.teams k hk)
  owned n g' hg' := by
    obtain ⟨g, hg, he⟩ := h'.owned n g' hg'
    obtain ⟨g0, hg0, he0⟩ := h.owned n g hg
    exact ⟨g0, hg0, he.trans he0⟩
  gangs n g hg hT := h'.gangs n g (h.gangs n g hg hT) hT
  engine e' he' := by
    obtain ⟨e, he, h1, h2⟩ := h'.engine e' he'
    obtain ⟨e0, he0, h3, h4⟩ := h.engine e he
    exact ⟨e0, he0, h1.trans h3, h2.trans h4⟩

section
variable {P : Scope} {s0 s : State}

/-- What changes nothing that the relation speaks of, but counters other than RESETS, keeps it. Stated on the constructor, so that it meets an
update of any other fields as it stands. -/
theorem Spares.updCounters {agenda cur split freeCtr replies tick issueCtr nextTeam chains mxq nextEngine icache codeBy ended walkCache walks
    l1 directory filters mem memPoison memCorr gens absent dieCache dieCorr nextOrder nextCopy keys windows qps peers nextPeer deferral ports
    secure secureCores buckets bucketWindow counters issueClocks dies retraining failedRetrains telInterval telModule telLatch telPending
    sampledAt traceBuf modLog modLogCount sessions agents challenge fw image ckptStatus ckptRun remote halted} (h : Spares P s0 s)
    (hc : ∀ n, KMap.get counters 0#64 (Counter.key .resets n) = KMap.get s0.counters 0#64 (Counter.key .resets n)) :
    Spares P s0 ⟨agenda, cur, split, freeCtr, replies, tick, issueCtr, s.gangs, s.teams, nextTeam, chains, mxq, s.engine, nextEngine, icache,
      codeBy, ended, s.tlb, walkCache, walks, l1, directory, filters, mem, memPoison, memCorr, gens, absent, dieCache, dieCorr, s.tasks,
      nextOrder, s.ctxs, s.queues, s.copies, nextCopy, s.migrations, keys, windows, qps, peers, nextPeer, deferral, ports, secure, secureCores,
      buckets, bucketWindow, counters, issueClocks, dies, retraining, failedRetrains, telInterval, telModule, telLatch, telPending, sampledAt,
      traceBuf, modLog, modLogCount, s.dumps, sessions, agents, challenge, fw, image, ckptStatus, ckptRun, remote, halted⟩ :=
  ⟨h.queues, h.copies, h.migrations, h.dumps, h.tlb, hc, h.ctxs, h.rising, h.fates, h.steps, h.tasks, h.stays, h.teams, h.owned, h.gangs,
    h.engine⟩

theorem Spares.upd {agenda cur split freeCtr replies tick issueCtr nextTeam chains mxq nextEngine icache codeBy ended walkCache walks
    l1 directory filters mem memPoison memCorr gens absent dieCache dieCorr nextOrder nextCopy keys windows qps peers nextPeer deferral ports
    secure secureCores buckets bucketWindow issueClocks dies retraining failedRetrains telInterval telModule telLatch telPending
    sampledAt traceBuf modLog modLogCount sessions agents challenge fw image ckptStatus ckptRun remote halted} (h : Spares P s0 s) :
    Spares P s0 ⟨agenda, cur, split, freeCtr, replies, tick, issueCtr, s.gangs, s.teams, nextTeam, chains, mxq, s.engine, nextEngine, icache,
      codeBy, ended, s.tlb, walkCache, walks, l1, directory, filters, mem, memPoison, memCorr, gens, absent, dieCache, dieCorr, s.tasks,
      nextOrder, s.ctxs, s.queues, s.copies, nextCopy, s.migrations, keys, windows, qps, peers, nextPeer, deferral, ports, secure, secureCores,
      buckets, bucketWindow, s.counters, issueClocks, dies, retraining, failedRetrains, telInterval, telModule, telLatch, telPending, sampledAt,
      traceBuf, modLog, modLogCount, s.dumps, sessions, agents, challenge, fw, image, ckptStatus, ckptRun, remote, halted⟩ :=
  h.updCounters h.resets

theorem Spares.foldl {α : Type} {f : State → α → State} {l : List α} (h : Spares P s0 s)
    (hf : ∀ s a, Spares P s0 s → Spares P s0 (f s a)) : Spares P s0 (l.foldl f s) :=
  foldl_keeps (Spares P s0) f hf l s h

theorem Spares.ite {c : Prop} [Decidable c] {a b : State} (ha : Spares P s0 a) (hb : Spares P s0 b) :
    Spares P s0 (if c then a else b) := by
  split
  · exact ha
  · exact hb

/-- The state that goes with a value. -/
theorem Spares.snd {α : Type} {p : α × State} (h : Spares P s0 p.2) {a : α} {t : State} (e : p = (a, t)) : Spares P s0 t := by
  rw [e] at h
  exact h

theorem Spares.fst {α : Type} {p : State × α} (h : Spares P s0 p.1) {a : α} {t : State} (e : p = (t, a)) : Spares P s0 t := by
  rw [e] at h
  exact h

theorem Spares.thd {α β : Type} {p : α × β × State} (h : Spares P s0 p.2.2) {a : α} {b : β} {t : State} (e : p = (a, b, t)) :
    Spares P s0 t := by
  rw [e] at h
  exact h

/-- The state that comes with an answer to a touch. -/
def Touched.after : Touched → State
  | .wait _ s | .go _ _ s => s

theorem Spares.wait {r : Touched} {t : State} {w : Wait} (h : Spares P s0 r.after) (e : r = .wait w t) : Spares P s0 t := by
  rw [e] at h
  exact h

theorem Spares.go {r : Touched} {t : State} {late : Bool} {claims : List Nat} (h : Spares P s0 r.after) (e : r = .go late claims t) :
    Spares P s0 t := by
  rw [e] at h
  exact h

/-! ### Which of the relation's own fields an operation may write -/

/-- A task of the scope that keeps its fate. -/
theorem Spares.setTask {n : Nat} {t t' : Task} (h : Spares P s0 s) (e : s.task? n = some t) (hS : P.slot n) (hf : t'.fate = t.fate)
    (hs : ¬ P.ends → t'.step = t.step) : Spares P s0 (s.setTask n t') :=
  { h with
    rising := fun hr => KMap.put_rising _ _ _ (h.rising hr)
    fates := fun k => by
      rw [← h.fates k]
      by_cases hk : k = n
      · subst hk
        exact (congrArg (Option.map Task.fate) (KMap.get?_put_self _ _ _)).trans
          ((congrArg some hf).trans (congrArg (Option.map Task.fate) e).symm)
      · exact congrArg (Option.map Task.fate) (KMap.get?_put_ne _ _ hk)
    steps := fun he k => by
      rw [← h.steps he k]
      by_cases hk : k = n
      · subst hk
        exact (congrArg (Option.map Task.step) (KMap.get?_put_self _ _ _)).trans
          ((congrArg some (hs he)).trans (congrArg (Option.map Task.step) e).symm)
      · exact congrArg (Option.map Task.step) (KMap.get?_put_ne _ _ hk)
    tasks := fun k hk => by
      rw [← h.tasks k hk]
      exact KMap.get?_put_ne _ _ fun hn => hk (hn ▸ hS) }

/-- A team of the scope that stays the team it is. -/
theorem Spares.setTeam {n : Nat} {m m' : Team} (h : Spares P s0 s) (e : s.team? n = some m) (hT : P.team n) (hm : m.Stays m') :
    Spares P s0 (s.setTeam n m') :=
  { h with
    stays := fun k y hy => by
      by_cases hk : k = n
      · subst hk
        obtain rfl : m' = y := Option.some.inj ((KMap.get?_put_self _ _ _).symm.trans hy)
        obtain ⟨m0, hm0, hs0⟩ := h.stays k m e
        exact ⟨m0, hm0, hs0.trans hm⟩
      · exact h.stays k y ((KMap.get?_put_ne _ _ hk).symm.trans hy)
    teams := fun k hk => by
      rw [← h.teams k hk]
      exact KMap.get?_put_ne _ _ fun hn => hk (hn ▸ hT) }

/-- The end of a team of the scope. -/
theorem Spares.delTeam {n : Nat} (h : Spares P s0 s) (hT : P.team n) : Spares P s0 { s with teams := KMap.del s.teams n } :=
  { h with
    stays := fun k y hy => by
      by_cases hk : k = n
      · subst hk
        exact absurd ((KMap.get?_del_self _ _).symm.trans hy) nofun
      · exact h.stays k y ((KMap.get?_del_ne _ hk).symm.trans hy)
    teams := fun k hk => by
      rw [← h.teams k hk]
      exact KMap.get?_del_ne _ fun hn => hk (hn ▸ hT) }

/-- A gang of a team of the scope that stays in its team. -/
theorem Spares.setGang {r : GangRef} {g g' : Gang} (h : Spares P s0 s) (e : s.gang? r = some g) (hT : P.team g.team) (hg : g'.team = g.team) :
    Spares P s0 (s.setGang r g') :=
  { h with
    owned := fun n y hy => by
      by_cases hn : n = gangNum r
      · subst hn
        obtain rfl : g' = y := Option.some.inj ((KMap.get?_put_self _ _ _).symm.trans hy)
        obtain ⟨g0, hg0, he0⟩ := h.owned _ g e
        exact ⟨g0, hg0, hg.trans he0⟩
      · exact h.owned n y ((KMap.get?_put_ne _ _ hn).symm.trans hy)
    gangs := fun n y hy hy' => by
      have hs := h.gangs n y hy hy'
      by_cases hn : n = gangNum r
      · subst hn
        exact absurd (Option.some.inj (e.symm.trans hs) ▸ hT) hy'
      · exact (KMap.get?_put_ne _ _ hn).trans hs }

/-- The end of a gang of a team of the scope. -/
theorem Spares.delGang {r : GangRef} (h : Spares P s0 s) (hT : ∀ g, s0.gang? r = some g → P.team g.team) :
    Spares P s0 { s with gangs := KMap.del s.gangs (gangNum r) } :=
  { h with
    owned := fun n y hy => by
      by_cases hn : n = gangNum r
      · subst hn
        exact absurd ((KMap.get?_del_self _ _).symm.trans hy) nofun
      · exact h.owned n y ((KMap.get?_del_ne _ hn).symm.trans hy)
    gangs := fun n y hy hy' => by
      by_cases hn : n = gangNum r
      · subst hn
        exact absurd (hT y hy) hy'
      · exact (KMap.get?_del_ne _ hn).trans (h.gangs n y hy hy') }

/-- Engine operations of which some end and none changes its team or has an access more. -/
theorem Spares.setEngine {engine : KMap EngineOp} (h : Spares P s0 s)
    (he : ∀ e' ∈ engine, ∃ e ∈ s.engine, e'.2.team = e.2.team ∧ e'.2.touched = e.2.touched) : Spares P s0 { s with engine } :=
  { h with
    engine := fun e' he' => by
      obtain ⟨e, hm, h1, h2⟩ := he e' he'
      obtain ⟨e0, hm0, h3, h4⟩ := h.engine e hm
      exact ⟨e0, hm0, h1.trans h3, h2.trans h4⟩ }

/-- A context that differs in what the relation leaves open. -/
theorem Spares.modifyCtx {n : Nat} {f : Ctx → Ctx} (h : Spares P s0 s) (hf : ∀ c, (f c).calm = c.calm) :
    Spares P s0 { s with ctxs := KMap.modify s.ctxs n f } :=
  { h with
    ctxs := fun k => by
      rw [← h.ctxs k]
      by_cases hk : k = n
      · subst hk
        refine (congrArg (Option.map Ctx.calm) (get?_modify s.ctxs k f)).trans ?_
        rw [Option.map_map]
        exact congrArg (fun F => Option.map F (KMap.get? s.ctxs k)) (funext hf)
      · exact congrArg (Option.map Ctx.calm) (get?_modify_ne s.ctxs f hk) }

theorem Spares.bump {c : Counter} {ix n : Nat} (h : Spares P s0 s) (hc : c ≠ .resets := by decide) : Spares P s0 (s.bump c ix n) :=
  h.updCounters fun k => by
    rw [← h.resets k]
    exact KMap.get_set_ne _ _ _ fun hk => hc (Counter.key_inj hk).1.symm

/-! ### Memory, logs and streams -/

theorem Spares.portCross {core ctx} (h : Spares P s0 s) : Spares P s0 (Machine.portCross s core ctx) := by
  unfold Machine.portCross
  extract_lets s1
  have hs1 : Spares P s0 s1 := h.bump
  exact hs1.upd

theorem Spares.crossLine {pay l} (h : Spares P s0 s) : Spares P s0 (Machine.crossLine pay s l) := by
  unfold Machine.crossLine
  split
  · exact h.portCross
  · exact h.bump
  · split
    · exact h.portCross
    · exact h.bump

theorem Spares.dropLines {which pay} (h : Spares P s0 s) : Spares P s0 (Machine.dropLines s which pay) := by
  unfold Machine.dropLines
  extract_lets out l1 filters c
  have hc : Spares P s0 c := h.foldl fun _ _ h => h.crossLine
  exact h.updCounters hc.resets

theorem Spares.recallLines {pa n pay} (h : Spares P s0 s) : Spares P s0 (Machine.recallLines s pa n pay) := h.dropLines

theorem Spares.homeStore {pa bs src pay} (h : Spares P s0 s) : Spares P s0 (Machine.homeStore s pa bs src pay) := by
  unfold Machine.homeStore
  extract_lets s1
  have hs1 : Spares P s0 s1 := h.recallLines
  exact hs1.upd

theorem Spares.homeEvent {pa n f pay} (h : Spares P s0 s) : Spares P s0 (Machine.homeEvent s pa n f pay).2.2 := by
  unfold Machine.homeEvent
  extract_lets s1 old
  have hs1 : Spares P s0 s1 := h.recallLines
  split
  · exact hs1
  · exact hs1.homeStore

theorem Spares.staleLine {core slot line gen} (h : Spares P s0 s) : Spares P s0 (Machine.staleLine s core slot line gen) :=
  .ite h.dropLines h

theorem Spares.tagLine {core slot line team} (h : Spares P s0 s) : Spares P s0 (Machine.tagLine s core slot line team) := by
  unfold Machine.tagLine
  split
  · exact h
  · exact h.upd

theorem Spares.grantLine {core die line own} (h : Spares P s0 s) : Spares P s0 (Machine.grantLine s core die line own) := by
  unfold Machine.grantLine
  extract_lets cl d f
  exact h.upd

theorem Spares.fillLine {core slot team line gen tracked} (h : Spares P s0 s) :
    Spares P s0 (Machine.fillLine s core slot team line gen tracked) := .ite h h.upd

theorem Spares.lineStore {core slot team gen tracked pa bs src pay} (h : Spares P s0 s) :
    Spares P s0 (Machine.lineStore s core slot team gen tracked pa bs src pay) := by
  unfold Machine.lineStore
  extract_lets line s1 s2
  have hs2 : Spares P s0 s2 := h.dropLines.fillLine
  exact hs2.upd

theorem Spares.correctMem {die pa n} (h : Spares P s0 s) : Spares P s0 (Machine.correctMem s die pa n) := by
  unfold Machine.correctMem
  extract_lets r
  exact .ite h h.upd.bump

theorem Spares.walkCorrect {ctx va} (h : Spares P s0 s) : Spares P s0 (Machine.walkCorrect s ctx va) := by
  unfold Machine.walkCorrect Machine.correctWalk
  split
  · exact h
  · exact h.foldl fun _ _ h => h.correctMem

theorem Spares.correctAt {ctx va pa leaf n} (h : Spares P s0 s) : Spares P s0 (Machine.correctAt s ctx va pa leaf n) :=
  h.walkCorrect.correctMem

theorem Spares.corePlace {core ctx va} (h : Spares P s0 s) : Spares P s0 (Machine.corePlace s core ctx va).2 := by
  unfold Machine.corePlace
  split
  · split
    · exact h.bump
    · exact h
  · exact h

theorem Spares.agentWrite {ctx va bs pay t} (h : Spares P s0 s) (e : Machine.agentWrite s ctx va bs pay = .ok t) : Spares P s0 t := by
  unfold Machine.agentWrite at e
  split at e
  · cases e
  · split at e
    · cases e
      exact h
    · cases e
      exact Spares.upd (foldl_keeps (fun r : State × Nat => Spares P s0 r.1) _ (fun _ _ h => h.walkCorrect.homeStore) _ (s, 0) h)

theorem Spares.putUnits {ctx} (l : List (Nat × List Byte)) {s : State} (h : Spares P s0 s) : Spares P s0 (Machine.putUnits s ctx l).1 := by
  induction l generalizing s with
  | nil => exact h
  | cons u l ih =>
    unfold Machine.putUnits
    split
    · next e => exact ih (h.agentWrite e)
    · exact h

theorem Spares.ringDrop {ctx r} (h : Spares P s0 s) : Spares P s0 (Machine.ringDrop s ctx r).s := by
  unfold Machine.ringDrop
  extract_lets r1
  split
  · next e => exact h.agentWrite e
  · exact h

theorem Spares.ringOffer {ctx z r bs} (h : Spares P s0 s) : Spares P s0 (Machine.ringOffer s ctx z r bs).s := by
  unfold Machine.ringOffer
  extract_lets u
  split
  · exact h
  · split
    · exact h
    · extract_lets read
      split
      · exact h
      · split
        · exact h.ringDrop
        · split
          · next e => exact Spares.fst (h.putUnits _) e
          · next e =>
            have ht := Spares.fst (h.putUnits _) e
            split
            · exact ht
            · next e => exact ht.agentWrite e

theorem Spares.logModule {entry} (h : Spares P s0 s) : Spares P s0 (Machine.logModule s entry) := by
  unfold Machine.logModule
  extract_lets l s1
  have hs1 : Spares P s0 s1 := h.upd
  exact .ite hs1.upd.bump hs1.upd

theorem Spares.logCtx {ctx es} (h : Spares P s0 s) : Spares P s0 (Machine.logCtx s ctx es) := by
  unfold Machine.logCtx
  split
  · exact h
  · split
    · exact h
    · extract_lets out s1 s2 s3
      have hout : Spares P s0 out.s := h.ringOffer
      have hs2 : Spares P s0 s2 := hout.modifyCtx fun _ => rfl
      have hs3 : Spares P s0 s3 := .ite hs2.bump hs2
      exact .ite hs3.logModule hs3

theorem Spares.rowPoison {ctx slot addr core} (h : Spares P s0 s) : Spares P s0 (Machine.rowPoison s ctx slot addr core) := h.logCtx

theorem Spares.traceTask {ctx die taskid event index core} (h : Spares P s0 s) :
    Spares P s0 (Machine.traceTask s ctx die taskid event index core) := by
  unfold Machine.traceTask Machine.trace
  split
  · exact h
  · exact .ite h h.upd

theorem Spares.recordWrite {slot ctx taskid addr bs} (h : Spares P s0 s) :
    Spares P s0 (Machine.recordWrite s slot ctx taskid addr bs) := by
  unfold Machine.recordWrite
  split
  · next e => exact h.agentWrite e
  · exact h.logCtx

theorem Spares.doneSignal {ctx r info err set} (h : Spares P s0 s) : Spares P s0 (Machine.doneSignal s ctx r info err set) := by
  unfold Machine.doneSignal
  extract_lets sig fault
  have hf : ∀ s, Spares P s0 s → Spares P s0 (fault s) := fun _ h => h.logCtx
  split
  · exact h
  · split
    · exact hf _ h
    · split
      · extract_lets ev
        have he : Spares P s0 ev.2.2 := h.correctAt.homeEvent
        exact .ite (hf _ he) he
      · exact hf _ h

theorem Spares.noteStore {slot pa n} (h : Spares P s0 s) : Spares P s0 (Machine.noteStore s slot pa n) := by
  unfold Machine.noteStore
  split
  · exact h
  · exact h.upd

theorem Spares.engineFinish {op fault addr} (h : Spares P s0 s) : Spares P s0 (Machine.engineFinish s op fault addr) := by
  unfold Machine.engineFinish
  extract_lets taskid src entry own
  have ho : ∀ s, Spares P s0 s → Spares P s0 (own s) := fun _ h => .ite h h.logCtx
  split
  · exact ho _ (.ite h h.bump)
  · split
    · exact (ho _ h.bump).logCtx
    · have h1 : Spares P s0 (if op.slot = 128 then s else Machine.portCross s op.core op.ctx) := .ite h h.portCross
      split
      next e =>
        have ht := Spares.thd (h1.correctAt.noteStore.homeEvent) e
        split
        · exact .ite (ho _ ht.bump).rowPoison.logCtx (ho _ ht.bump).rowPoison
        · exact ho _ (.ite ht ht.bump)

theorem Spares.noteProgress {ctx} (h : Spares P s0 s) : Spares P s0 (Machine.noteProgress s ctx) := h.modifyCtx fun _ => rfl

/-! ### Accesses of a gang of the scope -/

/-- The gang and its team are of the scope. -/
structure Who.Within (w : Who) (P : Scope) (s0 : State) : Prop where
  team : P.team w.team
  slot : P.slot w.slot
  gang : ∀ g, s0.gang? w.g = some g → P.team g.team

theorem Spares.gangTeam {r : GangRef} {g : Gang} (h : Spares P s0 s) (hr : ∀ g, s0.gang? r = some g → P.team g.team) (e : s.gang? r = some g) :
    P.team g.team := by
  obtain ⟨g0, hg0, he⟩ := h.owned _ g e
  exact he ▸ hr g0 hg0

theorem Spares.putGang {r : GangRef} {g g' : Gang} (h : Spares P s0 s) (hr : ∀ g, s0.gang? r = some g → P.team g.team)
    (e : s.gang? r = some g) (hg : g'.team = g.team) : Spares P s0 (s.setGang r g') :=
  h.setGang e (h.gangTeam hr e) hg

theorem Spares.scratchStore {team half off bs src} (h : Spares P s0 s) (hT : P.team team) :
    Spares P s0 (Machine.scratchStore s team half off bs src) := by
  unfold Machine.scratchStore
  split
  · exact h
  · next e =>
    split
    · exact h
    · exact h.setTeam e hT ⟨rfl, rfl, id⟩

theorem Spares.correctScratch {core team half off n} (h : Spares P s0 s) (hT : P.team team) :
    Spares P s0 (Machine.correctScratch s core team half off n) := by
  unfold Machine.correctScratch
  split
  · exact h
  · next e =>
    split
    · exact h
    · extract_lets r
      exact .ite h (h.setTeam e hT (by exact ⟨rfl, rfl, id⟩)).bump

theorem Spares.correctCopy {core slot pa n} (h : Spares P s0 s) : Spares P s0 (Machine.correctCopy s core slot pa n) := by
  unfold Machine.correctCopy
  extract_lets mine k
  exact .ite h h.upd.bump

theorem Spares.correctDie {core slot pa n} (h : Spares P s0 s) : Spares P s0 (Machine.correctDie s core slot pa n) := by
  unfold Machine.correctDie
  extract_lets die ws
  exact .ite h h.upd.bump

theorem Spares.correctAcc {w : Who} {a} (h : Spares P s0 s) (hT : P.team w.team) : Spares P s0 (Machine.correctAcc s w a) := by
  unfold Machine.correctAcc
  split
  · exact h
  · split
    · exact h.correctScratch hT
    · exact h.correctCopy.correctDie.correctMem

theorem Spares.meetAccs {w : Who} {op} (h : Spares P s0 s) (hT : P.team w.team) : Spares P s0 (Machine.meetAccs s w op) := by
  unfold Machine.meetAccs
  refine h.foldl fun s a h => ?_
  extract_lets s1
  have hs1 : Spares P s0 s1 := .ite h (h.correctAcc hT)
  split
  · exact hs1
  · split
    · exact hs1
    · exact hs1.noteStore

theorem Spares.crossFill {w line} (h : Spares P s0 s) : Spares P s0 (Machine.crossFill s w line) := .ite h h.portCross

theorem Spares.fillOne {w tag unc leaf pa line} (h : Spares P s0 s) : Spares P s0 (Machine.fillOne s w tag unc leaf pa line) := by
  unfold Machine.fillOne
  extract_lets s1 s2 s3 s4
  have hs1 : Spares P s0 s1 := h.staleLine
  have hs2 : Spares P s0 s2 := .ite hs1 hs1.crossFill
  have hs4 : Spares P s0 s4 := hs2.fillLine.tagLine
  exact .ite hs4.grantLine hs4

theorem Spares.fillAccs {w unc claims accs} (h : Spares P s0 s) : Spares P s0 (Machine.fillAccs s w unc claims accs) := by
  unfold Machine.fillAccs
  refine h.foldl fun s a h => ?_
  split
  · exact h
  · split
    · exact h
    · exact h.foldl fun _ _ h => h.fillOne

theorem Spares.storeLine {w tag unc leaf pa bs} (h : Spares P s0 s) : Spares P s0 (Machine.storeLine s w tag unc leaf pa bs) := by
  unfold Machine.storeLine
  extract_lets s1 s2 s3 s4
  have hs1 : Spares P s0 s1 := h.staleLine
  have hs2 : Spares P s0 s2 := .ite hs1 hs1.crossFill
  have hs4 : Spares P s0 s4 := hs2.lineStore.tagLine
  exact .ite hs4.grantLine hs4

theorem Spares.storeAcc {w : Who} {unc claims a} (h : Spares P s0 s) (hT : P.team w.team) :
    Spares P s0 (Machine.storeAcc s w unc claims a) := by
  unfold Machine.storeAcc
  split
  · exact h
  · split
    · exact h.scratchStore hT
    · exact h.foldl fun _ _ h => h.storeLine

theorem Spares.scratchEvent {team half off n f} (h : Spares P s0 s) (hT : P.team team) :
    Spares P s0 (Machine.scratchEvent s team half off n f).2.2 := by
  unfold Machine.scratchEvent
  extract_lets old
  split
  · exact h
  · exact h.scratchStore hT

theorem Spares.rowAddEvent {pa xs vpa pay} (h : Spares P s0 s) : Spares P s0 (Machine.rowAddEvent s pa xs vpa pay).2.2 := by
  unfold Machine.rowAddEvent
  extract_lets n s1 bad anyBad s2 s3
  have h1 : Spares P s0 s1 := h.recallLines.recallLines
  have h2 : Spares P s0 s2 := h1.foldl fun _ _ h => .ite h h.upd
  exact .ite h2 (.ite h2.upd h2.upd)

theorem Spares.performOp {w : Who} {op unc} (h : Spares P s0 s) (hw : w.Within P s0) :
    Spares P s0 (Machine.performOp s w op unc).s := by
  unfold Machine.performOp
  extract_lets s1 gang loads stores atoms
  have h1 : Spares P s0 s1 := h.meetAccs hw.team
  have hl : ∀ f, Spares P s0 (loads f).s := fun _ => h1.fillAccs
  have hs : Spares P s0 stores.s := h1.foldl fun _ _ h => h.storeAcc hw.team
  have ha : ∀ f new, Spares P s0 (atoms f new).s := fun f new => by
    refine foldl_keeps (fun r : Performed => Spares P s0 r.s) _ (fun r a h => ?_) _ _ h1
    extract_lets ev keep
    have he : Spares P s0 ev.2.2 := by
      unfold ev
      split
      · exact h
      · split
        · exact h.scratchEvent hw.team
        · exact h.homeEvent
    exact he
  clear_value gang
  split
  case h_1 | h_2 | h_3 | h_4 => exact hl _
  case h_5 =>
    split
    · exact h1.fillAccs
    · exact h1
  case h_6 | h_7 | h_8 | h_9 | h_10 => exact hs
  case h_11 =>
    split
    · exact h1
    · exact h1.fillAccs
  case h_12 | h_13 | h_14 => exact ha _ _
  case h_15 =>
    split
    · extract_lets xs
      split
      next e =>
        have ht := Spares.thd h1.rowAddEvent e
        extract_lets s2
        have h2 : Spares P s0 s2 := .ite ht.rowPoison ht
        exact .ite h2.rowPoison h2
    · exact h1
  case h_16 =>
    split
    · extract_lets s2 vp stale s3
      have h2 : Spares P s0 s2 := h1.recallLines.recallLines
      exact .ite h2.bump h2
    · exact h1
  case h_17 =>
    split
    · exact h1.homeEvent
    · exact h1
  case h_18 =>
    split
    · extract_lets ev
      have he : Spares P s0 ev.2.2 := h1.homeEvent
      exact .ite he.rowPoison he
    · exact h1
  case h_19 =>
    split
    · extract_lets ev
      have he : Spares P s0 ev.2.2 := h1.homeEvent
      split
      · exact he.rowPoison
      · split
        · exact he.bump
        · split
          · exact he
          · next e => exact he.putGang hw.gang e rfl
    · exact h1
  case h_20 => exact h1

/-! ### Stashes and unclassified issues -/

theorem Spares.stashFill {w : Who} {half m line} (h : Spares P s0 s) (hT : P.team w.team) :
    Spares P s0 (Machine.stashFill s w half m line).2 := by
  unfold Machine.stashFill
  split
  · exact h
  · split
    · next e => exact Spares.snd h.corePlace e
    · next e =>
      extract_lets s1
      have hs1 : Spares P s0 s1 := (Spares.snd h.corePlace e).correctMem
      exact hs1.portCross.scratchStore hT

theorem Spares.stashAccess {w : Who} {write a issue} (h : Spares P s0 s) (hT : P.team w.team) :
    Spares P s0 (Machine.stashAccess s w write a issue).2 := by
  unfold Machine.stashAccess
  split
  · extract_lets line r m'
    have hr : Spares P s0 r.2 := h.stashFill hT
    split
    · split
      · exact h
      · exact h
    · split
      · split
        · next e => exact Spares.snd h.corePlace e
        · next e => exact Spares.snd h.corePlace e
      · split
        · next e => exact hr.setTeam e hT ⟨rfl, rfl, id⟩
        · exact hr
  · exact h

theorem Spares.stashAll {w : Who} {write accs issue} (h : Spares P s0 s) (hT : P.team w.team) :
    Spares P s0 (Machine.stashAll s w write accs issue).2 :=
  foldl_keeps (fun r : List LaneAcc × State => Spares P s0 r.2) _ (fun _ _ h => h.stashAccess hT) _ ([], s) h

theorem Spares.restash {w : Who} {op} (h : Spares P s0 s) (hT : P.team w.team) : Spares P s0 (Machine.restash s w op).2 := h.stashAll hT

theorem readyFill_team (g : Gang) (n : Nat) (ws : List RegWrite) : (readyFill g n ws).team = g.team := rfl

theorem Spares.settleOp {w : Who} {op} (h : Spares P s0 s) (hw : w.Within P s0) : Spares P s0 (Machine.settleOp w s op) := by
  unfold Machine.settleOp
  split
  · exact h
  · next e =>
    extract_lets g p r
    have hp : Spares P s0 p.2 := (h.putGang (g' := g) hw.gang e rfl).restash hw.team
    have hr : Spares P s0 r.s := hp.performOp hw
    split
    · exact h.putGang hw.gang e rfl
    · split
      · exact hr
      · next e => exact hr.putGang hw.gang e (readyFill_team _ _ _)

theorem Spares.rereadBlock {w : Who} {n off stamp} (h : Spares P s0 s) (hT : P.team w.team) :
    Spares P s0 (Machine.rereadBlock w s n off stamp) := by
  unfold Machine.rereadBlock
  extract_lets r s1 bs ws bad
  have hr : Spares P s0 r.2 := h.stashAll hT
  have hs1 : Spares P s0 s1 := hr.foldl fun _ _ h => h.correctAcc hT
  refine { hs1 with engine := fun e' he' => ?_ }
  obtain ⟨e, he, rfl⟩ := List.mem_map.1 he'
  obtain ⟨e0, h0, hk, ht⟩ := hs1.engine e he
  refine ⟨e0, h0, ?_⟩
  split
  · split
    · exact ⟨hk, ht⟩
    · split <;> exact ⟨hk, ht⟩
  · exact ⟨hk, ht⟩

theorem Spares.settleBehind {w : Who} (h : Spares P s0 s) (hw : w.Within P s0) : Spares P s0 (Machine.settleBehind s w) := by
  unfold Machine.settleBehind
  split
  · exact h
  · refine h.foldl fun s a h => ?_
    split
    · exact h
    · split
      · exact h.settleOp hw
      · exact h.rereadBlock hw.team

theorem Spares.crossAccs {w accs} (h : Spares P s0 s) : Spares P s0 (Machine.crossAccs s w accs) := by
  unfold Machine.crossAccs
  refine h.foldl fun s a h => ?_
  split
  · exact h.portCross
  · split
    · exact h
    · exact h.foldl fun _ _ h => h.portCross

/-- The slot of every team of the scope is of it. -/
def Closed (P : Scope) (s0 : State) : Prop := ∀ k m, P.team k → s0.team? k = some m → P.slot m.slot

theorem Spares.teamSlot {k : Nat} {m : Team} (h : Spares P s0 s) (hc : Closed P s0) (hT : P.team k) (e : s.team? k = some m) :
    P.slot m.slot := by
  obtain ⟨m0, hm0, hs⟩ := h.stays k m e
  exact hs.slot ▸ hc k m0 hT hm0

theorem Spares.who {r : GangRef} {w : Who} (h : Spares P s0 s) (hc : Closed P s0) (hr : ∀ g, s0.gang? r = some g → P.team g.team)
    (e : s.who r = some w) : w.g = r ∧ w.Within P s0 := by
  unfold State.who at e
  split at e
  · cases e
  · next hg =>
    split at e
    · cases e
    · next hm =>
      cases e
      have hT := h.gangTeam hr hg
      exact ⟨rfl, hT, h.teamSlot hc hT hm, hr⟩

theorem Spares.completeUnclass {r : GangRef} (h : Spares P s0 s) (hc : Closed P s0) (hr : ∀ g, s0.gang? r = some g → P.team g.team) :
    Spares P s0 (Machine.completeUnclass s r) := by
  unfold Machine.completeUnclass
  split
  · next hg hw =>
    have hw := (h.who hc hr hw).2
    split
    · exact h
    · split
      next e =>
      have ht := Spares.snd (h.restash hw.team) e
      extract_lets p s1
      have hp : Spares P s0 p.s := ht.crossAccs.performOp hw
      have hs1 : Spares P s0 s1 := by
        unfold s1
        split
        · exact hp
        · next e => exact hp.putGang hr e (readyFill_team _ _ _)
      exact hs1.settleBehind hw
  · exact h

theorem lateFill_team (g : Gang) (n : Nat) (ws : List RegWrite) (last : Bool) : (lateFill g n ws last).team = g.team := rfl

theorem Spares.lateLane {r : GangRef} {l} (h : Spares P s0 s) (hc : Closed P s0) (hr : ∀ g, s0.gang? r = some g → P.team g.team) :
    Spares P s0 (Machine.lateLane r s l) := by
  unfold Machine.lateLane
  split
  · next hg hw =>
    have hw := (h.who hc hr hw).2
    extract_lets mine rest p q
    have hp : Spares P s0 p.2 := h.restash hw.team
    have hq : Spares P s0 q.s := hp.performOp hw
    split
    · exact h
    · split
      · exact hq
      · next e =>
        extract_lets s1
        have hs1 : Spares P s0 s1 := hq.putGang hr e (lateFill_team _ _ _ _)
        exact .ite (hs1.settleBehind hw) hs1
  · exact h

theorem Spares.finishLate {r : GangRef} (h : Spares P s0 s) (hc : Closed P s0) (hr : ∀ g, s0.gang? r = some g → P.team g.team) :
    Spares P s0 (Machine.finishLate s r) := by
  unfold Machine.finishLate
  split
  · exact h
  · refine h.foldl fun s _ h => ?_
    unfold Machine.finishOne
    split
    · exact h
    · exact h.foldl fun _ _ h => h.lateLane hc hr

/-! ### Gangs and teams that retire or are stopped -/

theorem setClasses_fate (c : PageClass) (ps : List Nat) (t : Task) :
    (ps.foldl (fun t p => t.setClass p c) t).fate = t.fate ∧ (ps.foldl (fun t p => t.setClass p c) t).step = t.step :=
  foldl_keeps (fun x : Task => x.fate = t.fate ∧ x.step = t.step) (fun x p => x.setClass p c)
    (fun _ _ hx => hx) ps t ⟨rfl, rfl⟩

theorem Spares.touchPages {slot index owner write force busy pages} (h : Spares P s0 s) (hS : P.slot slot) :
    Spares P s0 (Machine.touchPages s slot index owner write force busy pages).after := by
  unfold Machine.touchPages
  split
  · exact h
  · next e =>
    extract_lets kinds drains unclass claims
    split
    · exact h
    · split
      · exact h
      · split
        · exact h
        · split
          · exact h.setTask e hS rfl fun _ => rfl
          · exact h.setTask e hS (setClasses_fate _ _ _).1 fun _ => (setClasses_fate _ _ _).2

theorem Spares.stashPut {k t m line} (h : Spares P s0 s) : Spares P s0 (Machine.stashPut s k t m line) := by
  unfold Machine.stashPut
  extract_lets off core
  split
  · next e => exact (Spares.snd h.corePlace e).noteStore.portCross.homeStore
  · next e => exact Spares.snd h.corePlace e

theorem Spares.dropTeam {k t} (h : Spares P s0 s) (hT : P.team k) : Spares P s0 (Machine.dropTeam s k t) := by
  unfold Machine.dropTeam
  extract_lets s1 s2
  have hs1 : Spares P s0 s1 := h.foldl fun _ _ h => h.foldl fun _ _ h => h.stashPut
  have hs2 : Spares P s0 s2 := hs1.dropLines
  exact hs2.delTeam hT

theorem Spares.retireStopped {k} (h : Spares P s0 s) (hc : Closed P s0) (hT : P.team k) : Spares P s0 (Machine.retireStopped s k) := by
  unfold Machine.retireStopped
  split
  · exact h
  · next e =>
    have hS := h.teamSlot hc hT e
    split
    · exact h
    · split
      · next e => exact (h.touchPages hS).wait e
      · next e => exact ((h.touchPages hS).go e).dropTeam hT

theorem Spares.writeCursor {slot t phase region line} (h : Spares P s0 s) : Spares P s0 (Machine.writeCursor s slot t phase region line) :=
  h.recordWrite

/-- A task that has been running keeps its fate at the later stages. -/
theorem fate_stage {t : Task} {stage : Stage} (flushStopped : Bool) (h : t.stage ≠ .waiting) (h' : stage ≠ .waiting) :
    ({ t with stage, flushStopped } : Task).fate = t.fate := by
  simp [Task.fate, h, h']

theorem Spares.tryEnd {slot} (h : Spares P s0 s) (hS : P.slot slot) (hE : P.ends) : Spares P s0 (Machine.tryEnd s slot) := by
  unfold Machine.tryEnd
  split
  · exact h
  · next t e =>
    extract_lets total
    split
    · next hc =>
      simp only [Bool.and_eq_true, decide_eq_true_eq] at hc
      have hw : t.stage ≠ .waiting := by simp [hc.1.1]
      unfold Machine.beginFlush
      split
      · exact (h.setTask e hS (fate_stage t.flushStopped hw (by simp)) (absurd hE)).writeCursor
      · exact (h.setTask e hS (fate_stage t.flushStopped hw (by simp)) (absurd hE)).writeCursor
    · exact h

theorem Spares.tryRetireTeam {k} (h : Spares P s0 s) (hc : Closed P s0) (hT : P.team k) (hE : P.ends) :
    Spares P s0 (Machine.tryRetireTeam s k) := by
  unfold Machine.tryRetireTeam
  split
  · exact h
  · next e =>
    have hS := h.teamSlot hc hT e
    split
    · exact (h.retireStopped hc hT).tryEnd hS hE
    · split
      · exact h
      · split
        · next e => exact (h.touchPages hS).wait e
        · next e =>
          extract_lets s1 s2 s3
          have hs1 : Spares P s0 s1 := ((h.touchPages hS).go e).dropTeam hT
          have hs2 : Spares P s0 s2 := by
            unfold s2
            split
            · exact hs1
            · next e => exact hs1.setTask e hS rfl (absurd hE)
          have hs3 : Spares P s0 s3 := hs2.noteProgress
          exact (hs3.modifyCtx (by exact fun _ => rfl)).tryEnd hS hE

theorem Spares.retireReady {slot} (h : Spares P s0 s) (hc : Closed P s0) (hT : ∀ k, P.team k) (hE : P.ends) :
    Spares P s0 (Machine.retireReady s slot) := by
  unfold Machine.retireReady
  extract_lets mine
  exact h.foldl fun _ _ h => h.tryRetireTeam hc (hT _) hE

theorem Spares.removeGang {r : GangRef} {slot} (h : Spares P s0 s) (hr : ∀ g, s0.gang? r = some g → P.team g.team) :
    Spares P s0 (Machine.removeGang s r slot) := by
  unfold Machine.removeGang Machine.dropChains
  extract_lets s1 still
  have hs1 : Spares P s0 s1 := (h.delGang hr).upd
  exact .ite hs1 hs1.upd

theorem Spares.leaveGang {r : GangRef} {slot} (h : Spares P s0 s) (hS : P.slot slot) (hr : ∀ g, s0.gang? r = some g → P.team g.team) :
    Spares P s0 (Machine.leaveGang s slot r) := by
  unfold Machine.leaveGang
  split
  · next e => exact (h.setTask e hS (by rfl) (by exact fun _ => rfl)).removeGang hr
  · exact h.removeGang hr

theorem Spares.killGang {r : GangRef} {slot} (h : Spares P s0 s) (hc : Closed P s0) (hS : P.slot slot)
    (hr : ∀ g, s0.gang? r = some g → P.team g.team) : Spares P s0 (Machine.killGang s slot r) := by
  unfold Machine.killGang
  split
  · exact h
  · next e =>
    extract_lets x s1
    have hx : Spares P s0 x := h.putGang hr e (by rfl)
    have hs1 : Spares P s0 s1 := hx.upd
    split
    · exact hs1
    · exact hs1.leaveGang hS hr
    · exact hs1.leaveGang hS hr
    · exact ((hs1.finishLate hc hr).completeUnclass hc hr).leaveGang hS hr

theorem Spares.stopTeam {k err} (h : Spares P s0 s) (hc : Closed P s0) (hT : P.team k) : Spares P s0 (Machine.stopTeam s k err) := by
  unfold Machine.stopTeam
  extract_lets stop left s1
  split
  · exact h
  · next t e =>
    extract_lets s2 mine
    have hS := h.teamSlot hc hT e
    have hs1 : Spares P s0 s1 := h.setEngine fun e' he' => by
      obtain ⟨e, he, rfl⟩ := List.mem_map.1 he'
      refine ⟨e, (List.mem_filter.1 he).1, ?_⟩
      split <;> exact ⟨rfl, rfl⟩
    have hs2 : Spares P s0 s2 := hs1.setTeam e hT ⟨rfl, rfl, fun _ => rfl⟩
    have hr : ∀ r ∈ mine, ∀ g, s0.gang? r = some g → P.team g.team := fun r hm g hg => by
      obtain ⟨x, hx, hk⟩ := (Option.any_eq_true _ _).1 (List.mem_filter.1 hm).2
      obtain ⟨g0, hg0, he⟩ := h.owned _ x hx
      obtain rfl : g0 = g := Option.some.inj (hg0.symm.trans hg)
      exact he ▸ of_decide_eq_true hk ▸ hT
    exact .ite h ((List.foldlRecOn mine _ hs2 fun _ h r hm => h.killGang hc hS (hr r hm)).retireStopped hc hT)

theorem Spares.reportKill {t taskid cause addr again} (h : Spares P s0 s) :
    Spares P s0 (Machine.reportKill s t taskid cause addr again) := h.logCtx.traceTask

end

end Sys2Proof.Machine

/-! ## Scope: the forced reset and the scheduler (O50) -/

namespace Sys2Proof.Machine

/-! ### Maps -/

theorem mem_get? {α : Type} {m : KMap α} (h : KMap.rising m = true) {a : Nat} {v : α} (he : (a, v) ∈ m) : KMap.get? m a = some v := by
  rw [KMap.rising_iff] at h
  induction m with
  | nil => exact absurd he (List.not_mem_nil)
  | cons e m ih =>
    obtain ⟨hlt, hm⟩ := List.pairwise_cons.1 h
    obtain rfl | hmem := List.mem_cons.1 he
    · exact if_pos rfl
    · have hne : a ≠ e.1 := Nat.ne_of_gt (hlt _ hmem)
      exact (if_neg hne).trans (ih hm hmem)

theorem get?_map {α β : Type} (f : α → β) (m : KMap α) (a : Nat) : KMap.get? (m.map fun e => (e.1, f e.2)) a = (KMap.get? m a).map f := by
  induction m with
  | nil => rfl
  | cons e m ih =>
    rw [List.map_cons, KMap.get?, KMap.get?]
    split
    · rfl
    · exact ih

theorem rising_map {α β : Type} (f : α → β) {m : KMap α} (h : KMap.rising m = true) :
    KMap.rising (m.map fun e => (e.1, f e.2)) = true := by
  rw [KMap.rising_iff] at h ⊢
  exact List.pairwise_map.2 h

theorem rising_del {α : Type} {m : KMap α} (a : Nat) (h : KMap.rising m = true) : KMap.rising (KMap.del m a) = true := by
  rw [KMap.rising_iff] at h ⊢
  exact h.filter _

/-! ### Queues that stop with an error -/

/-- A reset touches every team and every slot, and ends no task itself. -/
def Scope.all : Scope := ⟨fun _ => True, fun _ => True, False⟩

theorem closed_all (s : State) : Closed .all s := fun _ _ _ _ => trivial

theorem Spares.withQueues {P : Scope} {s t : State} (h : Spares P s t) (queues : KMap Queue) :
    Spares P { s with queues } { t with queues } := { h with queues := rfl }

/-- A queue as its error leaves it. -/
def Queue.failed (x : Queue) (code : Nat) : Queue := { x with act := .error code, armFail := x.arm.map fun a => (a.pos, a.isElse) }

theorem queueError_eq {s : State} {q : Nat} {x : Queue} (code : Nat) (hx : s.queue? q = some x) :
    ∃ t, (∀ P, Spares P (s.setQueue q (x.failed code)) t) ∧ queueError s q code = settle t q := by
  unfold queueError
  rw [hx]
  exact ⟨_, fun P => Spares.logCtx (.refl P _), rfl⟩

theorem queueError_none {s : State} {q : Nat} (code : Nat) (hx : s.queue? q = none) : queueError s q code = s := by
  unfold queueError
  rw [hx]

theorem settle_queues (s : State) (q : Nat) : settle s q = { s with queues := (settle s q).queues } := by
  unfold settle
  split
  · split <;> rfl
  · rfl

theorem settle_queue_ne (s : State) {p q : Nat} (h : p ≠ q) : (settle s q).queue? p = s.queue? p := by
  unfold settle
  split
  · split
    · exact KMap.get?_del_ne _ h
    · rfl
  · rfl

theorem settle_queue_self {s : State} {q : Nat} {x : Queue} (hx : s.queue? q = some x) (hu : x.unmapping = false) : settle s q = s := by
  unfold settle
  rw [hx]
  exact if_neg (by simp [hu])

/-- A queue's error changes nothing but the queues. -/
theorem queueError_spares (P : Scope) (s : State) (q code : Nat) :
    Spares P { s with queues := (queueError s q code).queues } (queueError s q code) := by
  cases hx : s.queue? q with
  | none => rw [queueError_none code hx]; exact .refl P s
  | some x =>
    obtain ⟨t, ht, he⟩ := queueError_eq code hx
    rw [he, settle_queues]
    exact (ht P).withQueues _

theorem queueErrors_spares (P : Scope) (code : Nat) (l : List Nat) (s : State) :
    let t := l.foldl (fun s q => queueError s q code) s
    Spares P { s with queues := t.queues } t := by
  induction l generalizing s with
  | nil => exact .refl P s
  | cons q l ih => exact ((queueError_spares P s q code).withQueues _).trans (ih _)

theorem queueError_queue_ne (s : State) {q p : Nat} (code : Nat) (h : p ≠ q) : (queueError s q code).queue? p = s.queue? p := by
  cases hx : s.queue? q with
  | none => rw [queueError_none code hx]
  | some x =>
    obtain ⟨t, ht, he⟩ := queueError_eq code hx
    rw [he, settle_queue_ne t h, State.queue?, (ht .all).queues]
    exact KMap.get?_put_ne _ _ h

theorem queueError_queue_self {s : State} {q : Nat} {x : Queue} (code : Nat) (hx : s.queue? q = some x) (hu : x.unmapping = false) :
    (queueError s q code).queue? q = some (x.failed code) := by
  obtain ⟨t, ht, he⟩ := queueError_eq code hx
  have hq : t.queue? q = some (x.failed code) := by
    rw [State.queue?, (ht .all).queues]
    exact KMap.get?_put_self _ _ _
  rw [he, settle_queue_self hq hu]
  exact hq

theorem queueErrors_other {code p : Nat} (l : List Nat) (s : State) (h : p ∉ l) :
    (l.foldl (fun s q => queueError s q code) s).queue? p = s.queue? p := by
  induction l generalizing s with
  | nil => rfl
  | cons q l ih =>
    obtain ⟨hq, hl⟩ := not_or.1 (List.mem_cons.not.1 h)
    exact (ih _ hl).trans (queueError_queue_ne _ code hq)

/-- A queue whose turn comes, or has come, stands with the error. -/
theorem queueErrors_queue {code q : Nat} {x : Queue} (hu : x.unmapping = false) (l : List Nat) (s : State) (hx : s.queue? q = some x)
    (h : q ∈ l ∨ x.act = .error code) : ∃ armFail, (l.foldl (fun s q => queueError s q code) s).queue? q =
      some { x with act := .error code, armFail } := by
  induction l generalizing s x with
  | nil =>
    obtain h | h := h
    · exact absurd h List.not_mem_nil
    · exact ⟨x.armFail, by rw [← h]; exact hx⟩
  | cons p l ih =>
    by_cases hp : q = p
    · subst hp
      exact ih (x := x.failed code) hu _ (queueError_queue_self code hx hu) (.inr rfl)
    · refine ih hu _ ((queueError_queue_ne _ code hp).trans hx) ?_
      exact h.imp_left fun hm => (List.mem_cons.1 hm).resolve_left hp

/-! ### Teams that are stopped -/

theorem stopTeam_dying {s : State} {k err : Nat} {m : Team} (h : (stopTeam s k err).team? k = some m) : m.dying = true := by
  unfold stopTeam at h
  extract_lets stop left s1 at h
  split at h
  · next e => exact absurd (e.symm.trans h) nofun
  · next t e =>
    extract_lets s2 mine at h
    split at h
    · next hd =>
      obtain rfl : t = m := Option.some.inj (e.symm.trans h)
      exact hd
    · have h2 : s2.team? k = some { t with carve := none, arr := [], dying := true } := KMap.get?_put_self _ _ _
      have hs : Spares .all s2 (retireStopped (mine.foldl (fun s g => killGang s t.slot g) s2) k) :=
        ((Spares.refl .all s2).foldl fun _ _ h => h.killGang (closed_all _) trivial fun _ _ => trivial).retireStopped (closed_all _) trivial
      obtain ⟨m2, hm2, hst⟩ := hs.stays k m h
      obtain rfl := Option.some.inj (h2.symm.trans hm2)
      exact hst.dying rfl

theorem stopTeams_spares (l : List (Nat × Team)) (err : Nat) (s : State) : Spares .all s (l.foldl (fun s e => stopTeam s e.1 err) s) :=
  (Spares.refl .all s).foldl fun _ _ h => h.stopTeam (closed_all _) trivial

theorem stopTeams_dying {k : Nat} {m : Team} (l : List (Nat × Team)) (err : Nat) (s : State) (hk : k ∈ l.map Prod.fst)
    (h : (l.foldl (fun s e => stopTeam s e.1 err) s).team? k = some m) : m.dying = true := by
  induction l generalizing s with
  | nil => exact absurd hk List.not_mem_nil
  | cons e l ih =>
    by_cases hl : k ∈ l.map Prod.fst
    · exact ih _ hl h
    · obtain rfl := (List.mem_cons.1 hk).resolve_right hl
      obtain ⟨m1, hm1, hst⟩ := (stopTeams_spares l err (stopTeam s e.1 err)).stays _ m h
      exact hst.dying (stopTeam_dying hm1)

/-! ### Copies that are stopped -/

theorem stopCopies_spares (P : Scope) (s : State) (n : Nat) :
    Spares P { s with copies := s.copies.filter fun e => e.2.ctx != n, migrations := s.migrations.filter fun e => e.2.ctx != n || e.2.repair }
      (stopCopies s n) :=
  ((Spares.refl P _).foldl fun _ _ h => h.engineFinish).foldl fun _ _ h => h.engineFinish

/-! ### Tasks that a reset ends -/

/-- From s to t the waiting tasks of a context may be gone; every other task kept its fate. -/
structure Ends (n : Nat) (s t : State) : Prop where
  queues : t.queues = s.queues
  copies : t.copies = s.copies
  migrations : t.migrations = s.migrations
  dumps : t.dumps = s.dumps
  rising : KMap.rising s.tasks = true → KMap.rising t.tasks = true
  stays : ∀ k m', t.team? k = some m' → ∃ m, s.team? k = some m ∧ m.Stays m'
  fates : ∀ slot, (t.task? slot).map Task.fate = (s.task? slot).map Task.fate ∨
    t.task? slot = none ∧ ∃ k, s.task? slot = some k ∧ k.ctx = n ∧ k.stage = .waiting

theorem Spares.ends {P : Scope} {s t : State} (h : Spares P s t) (n : Nat) : Ends n s t :=
  ⟨h.queues, h.copies, h.migrations, h.dumps, h.rising, h.stays, fun slot => .inl (h.fates slot)⟩

/-- What a fate says of its task. -/
theorem fate_eq_iff {k k' : Task} : k'.fate = k.fate ↔ k'.ctx = k.ctx ∧ k'.fault = k.fault ∧ k'.relaunch = k.relaunch ∧ k'.forced = k.forced ∧
    k'.estat = k.estat ∧ k'.errCode = k.errCode ∧ (k'.stage = .waiting ↔ k.stage = .waiting) := by
  simp only [Task.fate, Prod.mk.injEq, decide_eq_decide]

/-- A task of the later state had its fate before. -/
theorem task_of_fates {a b : Option Task} {k' : Task} (h : b.map Task.fate = a.map Task.fate) (hk : b = some k') :
    ∃ k, a = some k ∧ k'.fate = k.fate := by
  subst hk
  cases a with
  | none => exact absurd h nofun
  | some k => exact ⟨k, rfl, Option.some.inj h⟩

theorem Ends.trans {n : Nat} {a b c : State} (h : Ends n a b) (h' : Ends n b c) : Ends n a c where
  queues := h'.queues.trans h.queues
  copies := h'.copies.trans h.copies
  migrations := h'.migrations.trans h.migrations
  dumps := h'.dumps.trans h.dumps
  rising := h'.rising ∘ h.rising
  stays k m' hm' := by
    obtain ⟨m, hm, hs⟩ := h'.stays k m' hm'
    obtain ⟨m0, hm0, hs0⟩ := h.stays k m hm
    exact ⟨m0, hm0, hs0.trans hs⟩
  fates slot := by
    obtain he' | ⟨hn, k, hk, hc, hw⟩ := h'.fates slot
    · obtain he | ⟨hn, hk⟩ := h.fates slot
      · exact .inl (he'.trans he)
      · rw [hn] at he'
        exact .inr ⟨Option.map_eq_none_iff.1 he', hk⟩
    · obtain he | ⟨hb, _⟩ := h.fates slot
      · obtain ⟨k0, hk0, hf⟩ := task_of_fates he hk
        obtain ⟨hctx, -, -, -, -, -, hst⟩ := fate_eq_iff.1 hf
        exact .inr ⟨hn, k0, hk0, hctx ▸ hc, hst.1 hw⟩
      · exact absurd (hb.symm.trans hk) nofun

/-- The reset of a context is over, and no forced task of the context is left. -/
structure ResetEnded (n : Nat) (r0 : W64) (s : State) : Prop where
  ctx : ∃ c, s.ctx? n = some c ∧ (c.state = .idle ∨ c.state = .waiting) ∧ c.saved = none
  count : s.count .resets n = r0 + 1#64
  tlb : ∀ e ∈ s.tlb, e.ctx ≠ n
  left : ∀ slot k, s.task? slot = some k → k.ctx = n → k.forced = false

/-- How far the reset of a context is: on its way, or over. -/
inductive ResetTurn (n reason : Nat) (r0 : W64) (s : State) : Prop
  | going (c : Ctx) (hc : s.ctx? n = some c) (state : c.state = .resetting) (reason : c.drainReason = reason) (count : s.count .resets n = r0)
  | ended (h : ResetEnded n r0 s)

/-- A context that waits has a task. -/
def WaitsForTask (n : Nat) (s : State) : Prop :=
  ∀ c, s.ctx? n = some c → c.state = .waiting → ∃ slot k, s.task? slot = some k ∧ k.ctx = n

/-- A calm context is in its state as it was, for its reason, with its saved state. -/
theorem Spares.ctx {P : Scope} {s t : State} (h : Spares P s t) {n : Nat} {c : Ctx} (hc : s.ctx? n = some c) :
    ∃ c', t.ctx? n = some c' ∧ c'.calm = c.calm := by
  have he := h.ctxs n
  rw [show KMap.get? s.ctxs n = some c from hc, Option.map_some] at he
  exact Option.map_eq_some_iff.1 he

theorem calm_state {c c' : Ctx} (h : c'.calm = c.calm) : c'.state = c.state := (congrArg Ctx.state h : c'.calm.state = c.calm.state)
theorem calm_reason {c c' : Ctx} (h : c'.calm = c.calm) : c'.drainReason = c.drainReason :=
  (congrArg Ctx.drainReason h : c'.calm.drainReason = c.calm.drainReason)
theorem calm_saved {c c' : Ctx} (h : c'.calm = c.calm) : c'.saved = c.saved := (congrArg Ctx.saved h : c'.calm.saved = c.calm.saved)

theorem ResetEnded.spares {P : Scope} {n : Nat} {r0 : W64} {s t : State} (h : ResetEnded n r0 s) (hs : Spares P s t) :
    ResetEnded n r0 t where
  ctx := by
    obtain ⟨c, hc, hst, hsv⟩ := h.ctx
    obtain ⟨c', hc', he⟩ := hs.ctx hc
    exact ⟨c', hc', calm_state he ▸ hst, (calm_saved he).trans hsv⟩
  count := (hs.resets n).trans h.count
  tlb := hs.tlb ▸ h.tlb
  left slot k' hk' hn := by
    obtain ⟨k, hk, hf⟩ := task_of_fates (hs.fates slot) hk'
    obtain ⟨hctx, -, -, hforced, -⟩ := fate_eq_iff.1 hf
    exact hforced.trans (h.left slot k hk (hctx ▸ hn))

theorem ResetTurn.spares {P : Scope} {n reason : Nat} {r0 : W64} {s t : State} (h : ResetTurn n reason r0 s) (hs : Spares P s t) :
    ResetTurn n reason r0 t := by
  cases h with
  | going c hc state reason count =>
    obtain ⟨c', hc', he⟩ := hs.ctx hc
    exact .going c' hc' ((calm_state he).trans state) ((calm_reason he).trans reason) ((hs.resets n).trans count)
  | ended h => exact .ended (h.spares hs)

theorem WaitsForTask.spares {P : Scope} {n : Nat} {s t : State} (h : WaitsForTask n s) (hs : Spares P s t) : WaitsForTask n t := by
  intro c' hc' hw
  obtain ⟨c, hc, he⟩ := Option.map_eq_some_iff.1 ((hs.ctxs n).symm.trans (congrArg (Option.map Ctx.calm) hc'))
  obtain ⟨slot, k, hk, hn⟩ := h c hc ((calm_state he).trans hw)
  obtain ⟨k', hk', hf⟩ := task_of_fates (hs.fates slot).symm hk
  exact ⟨slot, k', hk', (fate_eq_iff.1 hf).1.symm.trans hn⟩

/-! ### The end of a reset -/

theorem runnable_iff {s : State} {n : Nat} (h : KMap.rising s.tasks = true) :
    runnable s n = true ↔ ∃ slot k, s.task? slot = some k ∧ k.ctx = n := by
  simp only [runnable, List.any_eq_true, beq_iff_eq]
  constructor
  · rintro ⟨⟨slot, k⟩, he, hn⟩
    exact ⟨slot, k, mem_get? h he, hn⟩
  · rintro ⟨slot, k, hk, hn⟩
    exact ⟨(slot, k), KMap.mem_of_get? hk, hn⟩

theorem forcedLeft_iff {s : State} {n : Nat} (h : KMap.rising s.tasks = true) :
    forcedLeft s n = true ↔ ∃ slot k, s.task? slot = some k ∧ k.ctx = n ∧ k.forced = true := by
  simp only [forcedLeft, List.any_eq_true, Bool.and_eq_true, beq_iff_eq]
  constructor
  · rintro ⟨⟨slot, k⟩, he, hn, hf⟩
    exact ⟨slot, k, mem_get? h he, hn, hf⟩
  · rintro ⟨slot, k, hk, hn, hf⟩
    exact ⟨(slot, k), KMap.mem_of_get? hk, hn, hf⟩

theorem not_forcedLeft {s : State} {n : Nat} (h : KMap.rising s.tasks = true) (hf : forcedLeft s n = false) :
    ∀ slot k, s.task? slot = some k → k.ctx = n → k.forced = false := by
  intro slot k hk hn
  by_contra hc
  exact Bool.eq_false_iff.1 hf ((forcedLeft_iff h).2 ⟨slot, k, hk, hn, Bool.not_eq_false _ ▸ hc⟩)

/-- A context's own entry, written and then left alone. -/
def State.resetDone (s : State) (n : Nat) (c : Ctx) : State :=
  ((purgeCtx s n).setCtx n { c with state := if runnable (purgeCtx s n) n then .waiting else .idle, saved := none, stallDrained := false,
                                    waitSince := s.tick }).bump .resets n

theorem finishReset_eq {s : State} {n : Nat} {c : Ctx} (hc : s.ctx? n = some c) :
    ∃ es, finishReset s n = logCtx (s.resetDone n c) n es := by
  unfold finishReset
  rw [hc]
  exact ⟨_, rfl⟩

/-- The end of a reset takes no task, so that no queue, copy or team changes with it. -/
theorem finishReset_ends {s : State} {n : Nat} : Ends n s (finishReset s n) := by
  cases hc : s.ctx? n with
  | none => rw [finishReset, hc]; exact (Spares.refl .all s).ends n
  | some c =>
    obtain ⟨es, he⟩ := finishReset_eq hc
    rw [he]
    have h := Spares.logCtx (ctx := n) (es := es) (.refl .all (s.resetDone n c))
    exact ⟨h.queues, h.copies, h.migrations, h.dumps, h.rising, h.stays, fun slot => .inl (h.fates slot)⟩

theorem finishReset_ended {s : State} {n : Nat} {r0 : W64} {c : Ctx} (hr : KMap.rising s.tasks = true) (hc : s.ctx? n = some c)
    (hcount : s.count .resets n = r0) (hf : forcedLeft s n = false) :
    ResetEnded n r0 (finishReset s n) ∧ WaitsForTask n (finishReset s n) := by
  obtain ⟨es, he⟩ := finishReset_eq hc
  have h := Spares.logCtx (ctx := n) (es := es) (.refl .all (s.resetDone n c))
  have hctx : (s.resetDone n c).ctx? n = some { c with
      state := if runnable (purgeCtx s n) n then .waiting else .idle, saved := none, stallDrained := false, waitSince := s.tick } :=
    KMap.get?_put_self _ _ _
  have hcnt : (s.resetDone n c).count .resets n = r0 + 1#64 := by
    rw [State.resetDone, State.count_bump_self]
    exact congrArg (· + 1#64) hcount
  rw [he]
  constructor
  · refine ResetEnded.spares ⟨⟨_, hctx, ?_, rfl⟩, hcnt, ?_, not_forcedLeft hr hf⟩ h
    · by_cases hrun : runnable (purgeCtx s n) n = true
      · exact .inr (if_pos hrun)
      · exact .inl (if_neg hrun)
    · intro e hmem
      exact bne_iff_ne.1 (List.mem_filter.1 hmem).2
  · refine WaitsForTask.spares (fun c' hc' hw => ?_) h
    obtain rfl := Option.some.inj (hctx.symm.trans hc')
    refine (runnable_iff (s := purgeCtx s n) hr).1 ?_
    by_contra hrun
    exact absurd ((if_neg hrun).symm.trans hw) nofun

/-- A context whose task has left: a reset that is due is over, and one that waits has another task. -/
theorem settleCtx_turn {s : State} {n reason : Nat} {r0 : W64} (hr : KMap.rising s.tasks = true) (h : ResetTurn n reason r0 s) :
    ResetTurn n reason r0 (settleCtx s n) ∧ WaitsForTask n (settleCtx s n) := by
  unfold settleCtx
  cases h with
  | going c hc state reason count =>
    rw [hc]
    simp only [state, if_true]
    split
    · exact ⟨.going c hc state reason count, fun c' hc' hw => by
        rw [Option.some.inj (hc'.symm.trans hc), state] at hw
        exact absurd hw nofun⟩
    · next hf =>
      have hend := finishReset_ended hr hc count (Bool.not_eq_true _ ▸ hf)
      exact ⟨.ended hend.1, hend.2⟩
  | ended h =>
    obtain ⟨c, hc, state, saved⟩ := h.ctx
    rw [hc]
    have hne : c.state ≠ .resetting := by
      obtain h | h := state
      · rw [h]; exact nofun
      · rw [h]; exact nofun
    simp only [hne, if_false]
    split
    · next hrun => exact ⟨.ended h, fun _ _ _ => (runnable_iff hr).1 hrun⟩
    · have hput : (s.setCtx n { c with state := .idle }).ctx? n = some { c with state := .idle } := KMap.get?_put_self _ _ _
      exact ⟨.ended ⟨⟨_, hput, .inl rfl, saved⟩, h.count, h.tlb, h.left⟩, fun c' hc' hw => by
        rw [Option.some.inj (hc'.symm.trans hput)] at hw
        exact absurd hw nofun⟩

theorem settleCtx_ends (s : State) (n : Nat) : Ends n s (settleCtx s n) := by
  unfold settleCtx
  split
  · exact (Spares.refl .all s).ends n
  · split
    · split
      · exact (Spares.refl .all s).ends n
      · exact finishReset_ends
    · split
      · exact (Spares.refl .all s).ends n
      · have h := (Spares.refl .all s).ends n
        exact ⟨rfl, rfl, rfl, rfl, h.rising, h.stays, h.fates⟩

/-! ### A waiting task ends without its edges -/

theorem delTask_ends {s : State} {slot n : Nat} {k : Task} (hk : s.task? slot = some k) (hn : k.ctx = n) (hw : k.stage = .waiting) :
    Ends n s { s with tasks := KMap.del s.tasks slot } where
  queues := rfl
  copies := rfl
  migrations := rfl
  dumps := rfl
  rising := rising_del slot
  stays := ((Spares.refl .all s).ends n).stays
  fates j := by
    by_cases hj : j = slot
    · subst hj
      exact .inr ⟨KMap.get?_del_self _ _, k, hk, hn, hw⟩
    · exact .inl (congrArg (Option.map Task.fate) (KMap.get?_del_ne _ hj))

theorem delTask_turn {s : State} {slot n reason : Nat} {r0 : W64} (h : ResetTurn n reason r0 s) :
    ResetTurn n reason r0 { s with tasks := KMap.del s.tasks slot } := by
  cases h with
  | going c hc state reason count => exact .going c hc state reason count
  | ended h =>
    refine .ended ⟨h.ctx, h.count, h.tlb, fun j k hk => ?_⟩
    by_cases hj : j = slot
    · subst hj
      exact absurd ((KMap.get?_del_self _ _).symm.trans hk) nofun
    · exact h.left j k ((KMap.get?_del_ne _ hj).symm.trans hk)

/-- What the end of one task leaves of a reset. -/
structure EndStep (n reason : Nat) (r0 : W64) (s t : State) : Prop where
  ends : Ends n s t
  turn : ResetTurn n reason r0 t
  waits : WaitsForTask n t

theorem freeSlot_step {s : State} {slot n reason : Nat} {r0 : W64} {k : Task} (hr : KMap.rising s.tasks = true) (h : ResetTurn n reason r0 s)
    (hk : s.task? slot = some k) (hn : k.ctx = n) (hw : k.stage = .waiting) :
    EndStep n reason r0 s (freeSlot s slot) ∧ (freeSlot s slot).task? slot = none := by
  have h1 : Spares .all { s with tasks := KMap.del s.tasks slot } (noteProgress { s with tasks := KMap.del s.tasks slot } n) :=
    (Spares.refl _ _).noteProgress
  have he : freeSlot s slot = settleCtx (noteProgress { s with tasks := KMap.del s.tasks slot } n) n := by
    rw [freeSlot, hk, ← hn]
  have hd := (delTask_ends hk hn hw).trans (h1.ends n)
  have h2 := settleCtx_ends (noteProgress { s with tasks := KMap.del s.tasks slot } n) n
  have ht := settleCtx_turn (hd.rising hr) ((delTask_turn (slot := slot) h).spares h1)
  rw [he]
  refine ⟨⟨hd.trans h2, ht.1, ht.2⟩, ?_⟩
  have hgone : (noteProgress { s with tasks := KMap.del s.tasks slot } n).task? slot = none := KMap.get?_del_self _ _
  obtain hf | ⟨hf, -⟩ := h2.fates slot
  · rw [hgone] at hf
    exact Option.map_eq_none_iff.1 hf
  · exact hf

theorem endWithoutEdges_step {s : State} {slot n reason estat err : Nat} {r0 : W64} {k : Task} (hr : KMap.rising s.tasks = true)
    (h : ResetTurn n reason r0 s) (hk : s.task? slot = some k) (hn : k.ctx = n) (hw : k.stage = .waiting) :
    EndStep n reason r0 s (endWithoutEdges s slot estat err) ∧ (endWithoutEdges s slot estat err).task? slot = none := by
  have hs : Spares .all s (doneSignal (recordWrite s slot k.ctx k.rec_.taskid (k.rec_.addr + 0x68) (leBytes 8 (statusWord 1 estat none)))
      k.ctx k.rec_ slot err true) := (Spares.refl _ _).recordWrite.doneSignal
  obtain ⟨k', hk', hf⟩ := task_of_fates (hs.fates slot).symm hk
  obtain ⟨hctx, -, -, -, -, -, hst⟩ := fate_eq_iff.1 hf
  have hstep := freeSlot_step (hs.rising hr) (h.spares hs) hk' (hctx.symm.trans hn) (hst.1 hw)
  have he : endWithoutEdges s slot estat err = freeSlot (doneSignal (recordWrite s slot k.ctx k.rec_.taskid (k.rec_.addr + 0x68)
      (leBytes 8 (statusWord 1 estat none))) k.ctx k.rec_ slot err true) slot := by
    rw [endWithoutEdges, hk]
  rw [he]
  exact ⟨⟨(hs.ends n).trans hstep.1.ends, hstep.1.turn, hstep.1.waits⟩, hstep.2⟩

/-! ### The tasks of the context, one by one -/

/-- A reset's turn to one of the tasks. -/
def endTask (estat err : Nat) (s : State) (slot : Nat) : State :=
  match s.task? slot with
  | none => s
  | some t => match t.stage with
    | .waiting => endWithoutEdges s slot estat err
    | .running => tryEnd s slot
    | _ => s

/-- The tasks of a context as its reset has told them to end. -/
def State.forceTasks (s : State) (n estat err : Nat) (lost : Bool) : State :=
  { s with tasks := s.tasks.map fun e => (e.1, if e.2.ctx == n then e.2.force estat err lost else e.2) }

theorem endTasks_eq (s : State) (n estat err : Nat) (lost : Bool) :
    endTasks s n estat err lost = (ctxSlots s n).foldl (endTask estat err) (s.forceTasks n estat err lost) := by
  unfold endTasks State.forceTasks
  extract_lets slots s1
  congr 1

/-- The scope in which tasks may begin their flush. -/
def Scope.ending : Scope := ⟨fun _ => True, fun _ => True, True⟩

theorem closed_ending (s : State) : Closed .ending s := fun _ _ _ _ => trivial

theorem EndStep.spares {P : Scope} {n reason : Nat} {r0 : W64} {s t : State} (h : ResetTurn n reason r0 s) (hw : WaitsForTask n s)
    (hs : Spares P s t) : EndStep n reason r0 s t := ⟨hs.ends n, h.spares hs, hw.spares hs⟩

theorem endTask_free {s : State} {slot : Nat} (estat err : Nat) (hk : s.task? slot = none) : endTask estat err s slot = s := by
  unfold endTask
  rw [hk]

theorem endTask_waiting {s : State} {slot : Nat} {k : Task} (estat err : Nat) (hk : s.task? slot = some k) (hst : k.stage = .waiting) :
    endTask estat err s slot = endWithoutEdges s slot estat err := by
  unfold endTask
  simp only [hk, hst]

theorem endTask_begun {s : State} {slot : Nat} {k : Task} (estat err : Nat) (hk : s.task? slot = some k) (hst : k.stage ≠ .waiting) :
    Spares .ending s (endTask estat err s slot) := by
  unfold endTask
  simp only [hk]
  split
  · next e => exact absurd e hst
  · exact (Spares.refl .ending s).tryEnd trivial trivial
  · exact .refl .ending s

theorem endTask_step {s : State} {slot n reason estat err : Nat} {r0 : W64} (hr : KMap.rising s.tasks = true)
    (h : ResetTurn n reason r0 s) (hw : WaitsForTask n s) (hn : ∀ k, s.task? slot = some k → k.ctx = n) :
    EndStep n reason r0 s (endTask estat err s slot) ∧
      ∀ k, s.task? slot = some k → k.stage = .waiting → (endTask estat err s slot).task? slot = none := by
  cases hk : s.task? slot with
  | none =>
    rw [endTask_free estat err hk]
    exact ⟨.spares h hw (Spares.refl .all s), fun _ _ _ => hk⟩
  | some k =>
    by_cases hst : k.stage = .waiting
    · rw [endTask_waiting estat err hk hst]
      have hstep := endWithoutEdges_step (estat := estat) (err := err) hr h hk (hn k hk) hst
      exact ⟨hstep.1, fun _ _ _ => hstep.2⟩
    · exact ⟨.spares h hw (endTask_begun estat err hk hst), fun k' hk' hw' => absurd (Option.some.inj hk' ▸ hw') hst⟩

/-- A slot that is free in s is free in every state that comes after. -/
theorem Ends.free {n slot : Nat} {s t : State} (h : Ends n s t) (hs : s.task? slot = none) : t.task? slot = none := by
  obtain he | ⟨ht, -⟩ := h.fates slot
  · rw [hs] at he
    exact Option.map_eq_none_iff.1 he
  · exact ht

/-- A task of a later state was there before, of the same context and at the same side of its start. -/
theorem Ends.task {n slot : Nat} {s t : State} {k' : Task} (h : Ends n s t) (hk : t.task? slot = some k') :
    ∃ k, s.task? slot = some k ∧ k'.fate = k.fate := by
  obtain he | ⟨ht, -⟩ := h.fates slot
  · exact task_of_fates he hk
  · exact absurd (ht.symm.trans hk) nofun

theorem endTasks_fold {n reason estat err : Nat} {r0 : W64} (l : List Nat) {s : State} (hr : KMap.rising s.tasks = true)
    (h : ResetTurn n reason r0 s) (hw : WaitsForTask n s) (hn : ∀ slot ∈ l, ∀ k, s.task? slot = some k → k.ctx = n) :
    EndStep n reason r0 s (l.foldl (endTask estat err) s) ∧
      ∀ slot ∈ l, ∀ k, s.task? slot = some k → k.stage = .waiting → (l.foldl (endTask estat err) s).task? slot = none := by
  induction l generalizing s with
  | nil => exact ⟨.spares h hw (Spares.refl .all s), fun _ h => absurd h List.not_mem_nil⟩
  | cons a l ih =>
    obtain ⟨hstep, hgone⟩ := endTask_step (estat := estat) (err := err) hr h hw (hn a List.mem_cons_self)
    obtain ⟨hrest, hrest'⟩ := ih (hstep.ends.rising hr) hstep.turn hstep.waits fun slot hs k' hk' => by
      obtain ⟨k, hk, hf⟩ := hstep.ends.task hk'
      exact (fate_eq_iff.1 hf).1.trans (hn slot (List.mem_cons_of_mem _ hs) k hk)
    refine ⟨⟨hstep.ends.trans hrest.ends, hrest.turn, hrest.waits⟩, fun slot hs k hk hwait => ?_⟩
    cases hk' : (endTask estat err s a).task? slot with
    | none => exact hrest.ends.free hk'
    | some k' =>
      obtain ⟨k0, hk0, hf⟩ := hstep.ends.task hk'
      obtain rfl := Option.some.inj (hk.symm.trans hk0)
      obtain rfl | hl := List.mem_cons.1 hs
      · exact absurd ((hgone k hk hwait).symm.trans hk') nofun
      · exact hrest' slot hl k' hk' ((fate_eq_iff.1 hf).2.2.2.2.2.2.2 hwait)

/-! ### The parts of a forced reset -/

/-- The state once queues, teams and copies of the context have been stopped. -/
def State.resetStopped (s : State) (n reason : Nat) (c : Ctx) : State :=
  let s := s.setCtx n { c with state := .resetting, drainReason := reason }
  let s := (ctxQueues s n).foldl (fun s q => queueError s q 0x06) s
  let s := (s.teams.filter fun e => e.2.ctx == n).foldl (fun s e => stopTeam s e.1 0xFB) s
  stopCopies s n

/-- The last part of a reset. -/
def State.resetLast (s : State) (n : Nat) : State :=
  match s.ctx? n with
  | some c => if c.state = .resetting && !forcedLeft s n then finishReset s n else s
  | none => s

theorem forceReset_eq {s : State} {n reason : Nat} {c : Ctx} (hc : s.ctx? n = some c) (hne : c.state ≠ .resetting) :
    forceReset s n reason =
      ((ctxSlots (endTasks (s.resetStopped n reason c) n 4 0xFB false) n).foldl (fun s k => retireReady s k)
        (dropHold (endTasks (s.resetStopped n reason c) n 4 0xFB false) n)).resetLast n := by
  unfold forceReset
  split
  · next e => exact absurd (e.symm.trans hc) nofun
  · next c' e =>
    obtain rfl := Option.some.inj (e.symm.trans hc)
    rw [if_neg hne]
    extract_lets s1 s2 s3 s4 s5
    have h4 : endTasks (s.resetStopped n reason c') n 4 0xFB false = s4 := by
      dsimp only [State.resetStopped, s4, s3, s2, s1]
    rw [h4]
    change _ = s5.resetLast n
    clear_value s5
    unfold State.resetLast
    cases s5.ctx? n
    · rfl
    · rfl

theorem Spares.withCopies {P : Scope} {s t : State} (h : Spares P s t) (copies : KMap CopyOp) (migrations : KMap Migration) :
    Spares P { s with copies, migrations } { t with copies, migrations } := { h with copies := rfl, migrations := rfl }

/-- What the first half of a reset leaves: it has stopped the context's queues, teams and copies, and no task has changed its stage. -/
structure StopsOf (s : State) (n reason : Nat) (t : State) : Prop where
  queue : ∀ q x, s.queue? q = some x → x.ctx = n → x.unmapping = false →
    ∃ armFail, t.queue? q = some { x with act := .error 6, armFail }
  other : KMap.rising s.queues = true → ∀ q x, s.queue? q = some x → x.ctx ≠ n → t.queue? q = some x
  copies : ∀ e ∈ t.copies, e.2.ctx ≠ n
  migrations : ∀ e ∈ t.migrations, e.2.ctx ≠ n ∨ e.2.repair = true
  stays : ∀ k m', t.team? k = some m' → ∃ m, s.team? k = some m ∧ m.Stays m'
  dying : ∀ k m m', s.team? k = some m → m.ctx = n → t.team? k = some m' → m'.dying = true
  dumps : t.dumps = s.dumps
  rising : KMap.rising s.tasks = true → KMap.rising t.tasks = true
  fates : ∀ slot, (t.task? slot).map Task.fate = (s.task? slot).map Task.fate
  steps : ∀ slot, (t.task? slot).map Task.step = (s.task? slot).map Task.step
  count : t.count .resets n = s.count .resets n
  going : ∃ c, t.ctx? n = some c ∧ c.state = .resetting ∧ c.drainReason = reason

/-- The scope of what touches no team and no task. -/
def Scope.none : Scope := ⟨fun _ => False, fun _ => False, False⟩

theorem resetStopped_spec {s : State} {n reason : Nat} {c : Ctx} : StopsOf s n reason (s.resetStopped n reason c) := by
  unfold State.resetStopped
  extract_lets s1 s2 s3
  have h12 : ∀ P, Spares P { s1 with queues := s2.queues } s2 := fun P => queueErrors_spares P 6 _ s1
  have h23 : Spares .all s2 s3 := stopTeams_spares _ _ s2
  have h13 := (h12 .all).trans h23
  have h34 := stopCopies_spares .all s3 n
  have h14 := (h13.withCopies (s3.copies.filter fun e => e.2.ctx != n) (s3.migrations.filter fun e => e.2.ctx != n || e.2.repair)).trans h34
  have hteams : ∀ k, s2.team? k = s.team? k := fun k => (h12 .none).teams k id
  have hq : (stopCopies s3 n).queues = s2.queues := h14.queues
  refine ⟨fun q x hx hn hu => ?_, fun hr q x hx hn => ?_, fun e he => ?_, fun e he => ?_, h14.stays, fun k m m' hm hn hm' => ?_, h14.dumps,
    h14.rising, h14.fates, h14.steps id, h14.resets n, ?_⟩
  · rw [State.queue?, hq]
    refine queueErrors_queue hu (ctxQueues s1 n) s1 hx (.inl ?_)
    exact List.mem_map.2 ⟨(q, x), List.mem_filter.2 ⟨KMap.mem_of_get? hx, beq_iff_eq.2 hn⟩, rfl⟩
  · rw [State.queue?, hq]
    refine (queueErrors_other (ctxQueues s1 n) s1 fun hmem => ?_).trans hx
    obtain ⟨⟨p, y⟩, hy, rfl⟩ := List.mem_map.1 hmem
    obtain ⟨hy, hyn⟩ := List.mem_filter.1 hy
    obtain rfl := Option.some.inj (hx.symm.trans (mem_get? hr hy))
    exact hn (beq_iff_eq.1 hyn)
  · rw [h34.copies] at he
    exact bne_iff_ne.1 (List.mem_filter.1 he).2
  · rw [h34.migrations] at he
    simpa using (List.mem_filter.1 he).2
  · obtain ⟨m3, hm3, hst⟩ := h34.stays k m' hm'
    refine hst.dying (stopTeams_dying _ 0xFB s2 ?_ hm3)
    exact List.mem_map.2 ⟨(k, m), List.mem_filter.2 ⟨KMap.mem_of_get? ((hteams k).trans hm), beq_iff_eq.2 hn⟩, rfl⟩
  · obtain ⟨c', hc', he⟩ := h14.ctx (KMap.get?_put_self s.ctxs n { c with state := .resetting, drainReason := reason })
    exact ⟨c', hc', calm_state he, calm_reason he⟩

/-! ### What a forced reset does -/

theorem force_ctx (k : Task) (estat err : Nat) (lost : Bool) : (k.force estat err lost).ctx = k.ctx := by
  unfold Task.force
  split
  · rfl
  · rfl
  · split <;> rfl

theorem force_stage (k : Task) (estat err : Nat) (lost : Bool) : (k.force estat err lost).stage = k.stage := by
  unfold Task.force
  split
  · rfl
  · rfl
  · split <;> rfl

theorem force_forced {k : Task} (estat err : Nat) (lost : Bool) (h : k.stage ≠ .waiting) : (k.force estat err lost).forced = true := by
  unfold Task.force
  split
  · next e => exact absurd e h
  · rfl
  · split <;> rfl

theorem force_running {k : Task} (estat err : Nat) (lost : Bool) (h : k.stage = .running) :
    k.force estat err lost = { k with estat, errCode := err, fault := none, relaunch := [], forced := true } := by
  unfold Task.force
  simp only [h]

theorem forceTasks_task (s : State) (n estat err : Nat) (lost : Bool) (slot : Nat) :
    (s.forceTasks n estat err lost).task? slot = (s.task? slot).map fun k => if k.ctx == n then k.force estat err lost else k :=
  get?_map (fun k : Task => if k.ctx == n then k.force estat err lost else k) s.tasks slot

theorem retireAll_spares (l : List Nat) (s : State) : Spares .ending s (l.foldl (fun s k => retireReady s k) s) :=
  (Spares.refl .ending s).foldl fun _ _ h => h.retireReady (closed_ending _) (fun _ => trivial) trivial

theorem dropHold_none {s : State} {n : Nat} (h : KMap.get? s.dumps n = none) : dropHold s n = s := by
  unfold dropHold
  rw [h]

theorem resetLast_ends (s : State) (n : Nat) : Ends n s (s.resetLast n) := by
  unfold State.resetLast
  split
  · split
    · exact finishReset_ends
    · exact (Spares.refl .all s).ends n
  · exact (Spares.refl .all s).ends n

/-- The last part ends a reset of which no task is left. -/
theorem resetLast_ended {s : State} {n reason : Nat} {r0 : W64} (hr : KMap.rising s.tasks = true) (h : ResetTurn n reason r0 s)
    (hw : WaitsForTask n s) (hnone : ∀ slot k, s.task? slot = some k → k.ctx ≠ n) :
    (∃ c, (s.resetLast n).ctx? n = some c ∧ c.state = .idle ∧ c.saved = none) ∧ (s.resetLast n).count .resets n = r0 + 1#64 ∧
      ∀ e ∈ (s.resetLast n).tlb, e.ctx ≠ n := by
  have hend : ResetEnded n r0 (s.resetLast n) ∧ WaitsForTask n (s.resetLast n) := by
    unfold State.resetLast
    cases h with
    | going c hc state reason count =>
      have hf : forcedLeft s n = false := by
        by_contra hf
        obtain ⟨slot, k, hk, hn, -⟩ := (forcedLeft_iff hr).1 (Bool.not_eq_false _ ▸ hf)
        exact hnone slot k hk hn
      rw [hc]
      simp only [state, hf, decide_true, Bool.not_false, Bool.and_self, if_true]
      exact finishReset_ended hr hc count hf
    | ended h =>
      obtain ⟨c, hc, state, -⟩ := h.ctx
      have hne : c.state ≠ .resetting := by
        obtain h | h := state
        · rw [h]; exact nofun
        · rw [h]; exact nofun
      rw [hc]
      simp only [hne, decide_false, Bool.false_and, Bool.false_eq_true, if_false]
      exact ⟨h, hw⟩
  obtain ⟨c, hc, state, saved⟩ := hend.1.ctx
  refine ⟨⟨c, hc, state.resolve_right fun hwait => ?_, saved⟩, hend.1.count, hend.1.tlb⟩
  obtain ⟨slot, k', hk', hn⟩ := hend.2 c hc hwait
  obtain ⟨k, hk, hf⟩ := (resetLast_ends s n).task hk'
  exact hnone slot k hk ((fate_eq_iff.1 hf).1.symm.trans hn)

/-- The last part lets a reset be that waits for a forced task. -/
theorem resetLast_going {s : State} {n reason : Nat} {r0 : W64} (hr : KMap.rising s.tasks = true) (h : ResetTurn n reason r0 s)
    {slot : Nat} {k : Task} (hk : s.task? slot = some k) (hn : k.ctx = n) (hf : k.forced = true) :
    ∃ c, (s.resetLast n).ctx? n = some c ∧ c.state = .resetting ∧ c.drainReason = reason := by
  cases h with
  | going c hc state reason count =>
    have hleft : forcedLeft s n = true := (forcedLeft_iff hr).2 ⟨slot, k, hk, hn, hf⟩
    refine ⟨c, ?_, state, reason⟩
    unfold State.resetLast
    rw [hc]
    simp only [hleft, Bool.not_true, Bool.and_false, Bool.false_eq_true, if_false]
    exact hc
  | ended h => exact absurd (hf.symm.trans (h.left slot k hk hn)) nofun

/-! ### A forced reset as a whole -/

section
variable {s : State} {n reason : Nat} {c : Ctx}

theorem resetTasks_spec {u : State} (hst : StopsOf s n reason u) (hr : KMap.rising s.tasks = true) :
    EndStep n reason (s.count .resets n) (u.forceTasks n 4 0xFB false) (endTasks u n 4 0xFB false) ∧
      ∀ slot k, s.task? slot = some k → k.ctx = n → k.stage = .waiting → (endTasks u n 4 0xFB false).task? slot = none := by
  obtain ⟨c, hc, hstate, hreason⟩ := hst.going
  have hru : KMap.rising (u.forceTasks n 4 0xFB false).tasks = true :=
    rising_map (fun k : Task => if k.ctx == n then k.force 4 0xFB false else k) (hst.rising hr)
  have hwaits : WaitsForTask n (u.forceTasks n 4 0xFB false) := fun c' hc' hw => by
    obtain rfl := Option.some.inj (hc.symm.trans hc')
    exact absurd (hstate.symm.trans hw) (by simp)
  rw [endTasks_eq]
  obtain ⟨hstep, hgone⟩ := endTasks_fold (estat := 4) (err := 0xFB) (ctxSlots u n) hru (.going c hc hstate hreason hst.count) hwaits
    fun slot hs k hk => by
      obtain ⟨⟨j, y⟩, hy, rfl⟩ := List.mem_map.1 hs
      obtain ⟨hy, hn⟩ := List.mem_filter.1 hy
      rw [forceTasks_task, show u.task? (j, y).1 = some y from mem_get? (hst.rising hr) hy, Option.map_some, if_pos hn] at hk
      rw [← Option.some.inj hk, force_ctx]
      exact beq_iff_eq.1 hn
  refine ⟨hstep, fun slot k hk hn hw => ?_⟩
  obtain ⟨k1, hk1, hf⟩ := task_of_fates (hst.fates slot).symm hk
  obtain ⟨hctx, -, -, -, -, -, hs⟩ := fate_eq_iff.1 hf
  have hn1 : k1.ctx = n := hctx.symm.trans hn
  have hforced : (u.forceTasks n 4 0xFB false).task? slot = some (k1.force 4 0xFB false) := by
    rw [forceTasks_task, hk1, Option.map_some, if_pos (beq_iff_eq.2 hn1)]
  refine hgone slot ?_ _ hforced ((force_stage _ _ _ _).trans (hs.1 hw))
  exact List.mem_map.2 ⟨(slot, k1), List.mem_filter.2 ⟨KMap.mem_of_get? hk1, beq_iff_eq.2 hn1⟩, rfl⟩

/-- A forced reset: what it stops, leading to u; the ends of the tasks, leading to t; and its last part. -/
structure ResetBy (s : State) (n reason : Nat) (u t : State) : Prop where
  stops : StopsOf s n reason u
  ends : Ends n (u.forceTasks n 4 0xFB false) t
  turn : ResetTurn n reason (s.count .resets n) t
  waits : WaitsForTask n t
  gone : ∀ slot k, s.task? slot = some k → k.ctx = n → k.stage = .waiting → t.task? slot = none
  last : forceReset s n reason = t.resetLast n

theorem forceReset_spec (hc : s.ctx? n = some c) (hne : c.state ≠ .resetting) (hd : KMap.get? s.dumps n = none)
    (hr : KMap.rising s.tasks = true) : ∃ u t, ResetBy s n reason u t := by
  have hst := resetStopped_spec (s := s) (n := n) (reason := reason) (c := c)
  obtain ⟨hstep, hgone⟩ := resetTasks_spec hst hr
  have hretire := retireAll_spares (ctxSlots (endTasks (s.resetStopped n reason c) n 4 0xFB false) n)
    (endTasks (s.resetStopped n reason c) n 4 0xFB false)
  refine ⟨_, _, hst, hstep.ends.trans (hretire.ends n), hstep.turn.spares hretire, hstep.waits.spares hretire,
    fun slot k hk hn hw => (hretire.ends n).free (hgone slot k hk hn hw), ?_⟩
  rw [forceReset_eq hc hne, dropHold_none (n := n)]
  rw [hstep.ends.dumps]
  exact (congrArg (KMap.get? · n) hst.dumps).trans hd

/-- A task that had begun is there at the end, told to end as it is. -/
theorem ResetBy.begun {u t : State} (h : ResetBy s n reason u t) {slot : Nat} {k : Task} (hk : s.task? slot = some k) (hn : k.ctx = n)
    (hw : k.stage ≠ .waiting) : ∃ k', t.task? slot = some k' ∧ k'.ctx = n ∧ k'.stage ≠ .waiting ∧ k'.forced = true ∧
      (k.stage = .running → k'.estat = 4 ∧ k'.errCode = 0xFB ∧ k'.fault = none ∧ k'.relaunch = []) := by
  obtain ⟨k1, hk1, hf⟩ := task_of_fates (h.stops.fates slot).symm hk
  have hn1 : k1.ctx = n := (fate_eq_iff.1 hf).1.symm.trans hn
  have hs1 : k1.stage = k.stage := by
    have hs := h.stops.steps slot
    rw [hk, hk1] at hs
    exact (congrArg Prod.fst (Option.some.inj hs) :)
  have hk2 : (u.forceTasks n 4 0xFB false).task? slot = some (k1.force 4 0xFB false) := by
    rw [forceTasks_task, hk1, Option.map_some, if_pos (beq_iff_eq.2 hn1)]
  have hw2 : (k1.force 4 0xFB false).stage ≠ .waiting := by
    rw [force_stage, hs1]
    exact hw
  obtain he | ⟨-, k3, hk3, -, hw3⟩ := h.ends.fates slot
  · obtain ⟨k', hk', hf'⟩ := task_of_fates he.symm hk2
    obtain ⟨hctx, hfault, hrel, hforced, hestat, herr, hst⟩ := fate_eq_iff.1 hf'
    refine ⟨k', hk', hctx.symm.trans ((force_ctx _ _ _ _).trans hn1), fun hw' => hw2 (hst.2 hw'),
      hforced.symm.trans (force_forced _ _ _ (hs1 ▸ hw)), fun hrun => ?_⟩
    rw [force_running _ _ _ (hs1.trans hrun)] at hestat herr hfault hrel
    exact ⟨hestat.symm, herr.symm, hfault.symm, hrel.symm⟩
  · rw [hk2] at hk3
    exact absurd (Option.some.inj hk3 ▸ hw3) hw2

/-- Where every task of the context waits none of them is left. -/
theorem ResetBy.none_left {u t : State} (h : ResetBy s n reason u t) (hall : ∀ slot k, s.task? slot = some k → k.ctx = n → k.stage = .waiting) :
    ∀ slot k, t.task? slot = some k → k.ctx ≠ n := by
  intro slot k' hk' hn'
  obtain ⟨k2, hk2, hf⟩ := h.ends.task hk'
  rw [forceTasks_task] at hk2
  obtain ⟨k1, hk1, he⟩ := Option.map_eq_some_iff.1 hk2
  have hn1 : k1.ctx = n := by
    have hn2 : k2.ctx = n := (fate_eq_iff.1 hf).1.symm.trans hn'
    by_cases hb : (k1.ctx == n) = true
    · exact beq_iff_eq.1 hb
    · rw [if_neg hb] at he
      exact he ▸ hn2
  obtain ⟨k, hk, hf1⟩ := task_of_fates (h.stops.fates slot) hk1
  have hn : k.ctx = n := (fate_eq_iff.1 hf1).1.symm.trans hn1
  exact absurd ((h.gone slot k hk hn (hall slot k hk hn)).symm.trans hk') (by simp)

end

section
variable {s : State} {n reason : Nat} {c : Ctx}

/-- What a forced reset does to the context's queues, copies and teams. -/
theorem ResetBy.stopped {u t : State} (h : ResetBy s n reason u t) (hq : KMap.rising s.queues = true) :
    (∀ q x, s.queue? q = some x → x.ctx = n → x.unmapping = false →
      ∃ y, (forceReset s n reason).queue? q = some y ∧ y = { x with act := .error 6, armFail := y.armFail }) ∧
    (∀ q x, s.queue? q = some x → x.ctx ≠ n → (forceReset s n reason).queue? q = some x) ∧
    (∀ e ∈ (forceReset s n reason).copies, e.2.ctx ≠ n) ∧
    (∀ e ∈ (forceReset s n reason).migrations, e.2.ctx ≠ n ∨ e.2.repair = true) ∧
    (∀ k m m', s.team? k = some m → m.ctx = n → (forceReset s n reason).team? k = some m' → m'.dying = true) := by
  have hend := h.ends.trans (resetLast_ends t n)
  rw [h.last]
  refine ⟨fun q x hx hn hu => ?_, fun q x hx hn => ?_, ?_, ?_, fun k m m' hm hn hm' => ?_⟩
  · obtain ⟨a, ha⟩ := h.stops.queue q x hx hn hu
    exact ⟨_, (congrArg (KMap.get? · q) hend.queues).trans ha, rfl⟩
  · exact (congrArg (KMap.get? · q) hend.queues).trans (h.stops.other hq q x hx hn)
  · rw [hend.copies]
    exact h.stops.copies
  · rw [hend.migrations]
    exact h.stops.migrations
  · obtain ⟨m1, hm1, hs⟩ := hend.stays k m' hm'
    exact hs.dying (h.stops.dying k m m1 hm hn hm1)

/-- What becomes of a context's tasks in a forced reset. -/
theorem ResetBy.tasks {u t : State} (h : ResetBy s n reason u t) :
    (∀ slot k, s.task? slot = some k → k.ctx = n → k.stage = .waiting → (forceReset s n reason).task? slot = none) ∧
    (∀ slot k, s.task? slot = some k → k.ctx = n → k.stage ≠ .waiting → ∃ k', (forceReset s n reason).task? slot = some k' ∧
      k'.forced = true ∧ (k.stage = .running → k'.estat = 4 ∧ k'.errCode = 0xFB ∧ k'.fault = none ∧ k'.relaunch = [])) := by
  have hlast := resetLast_ends t n
  rw [h.last]
  refine ⟨fun slot k hk hn hw => hlast.free (h.gone slot k hk hn hw), fun slot k hk hn hw => ?_⟩
  obtain ⟨k1, hk1, -, hw1, hf1, hrun⟩ := h.begun hk hn hw
  obtain he | ⟨-, k2, hk2, -, hw2⟩ := hlast.fates slot
  · obtain ⟨k', hk', hf⟩ := task_of_fates he.symm hk1
    obtain ⟨-, hfault, hrel, hforced, hestat, herr, -⟩ := fate_eq_iff.1 hf
    refine ⟨k', hk', hforced.symm.trans hf1, fun h => ?_⟩
    obtain ⟨h1, h2, h3, h4⟩ := hrun h
    exact ⟨hestat.symm.trans h1, herr.symm.trans h2, hfault.symm.trans h3, hrel.symm.trans h4⟩
  · obtain rfl := Option.some.inj (hk1.symm.trans hk2)
    exact absurd hw2 hw1

/-- Where the context stands after a forced reset. -/
theorem ResetBy.context {u t : State} (h : ResetBy s n reason u t) (hr : KMap.rising s.tasks = true) :
    ((∃ e ∈ s.tasks, e.2.ctx = n ∧ e.2.stage ≠ .waiting) →
      ∃ c', (forceReset s n reason).ctx? n = some c' ∧ c'.state = .resetting ∧ c'.drainReason = reason) ∧
    ((∀ e ∈ s.tasks, e.2.ctx = n → e.2.stage = .waiting) →
      (∃ c', (forceReset s n reason).ctx? n = some c' ∧ c'.state = .idle ∧ c'.saved = none) ∧
      (forceReset s n reason).count .resets n = s.count .resets n + 1#64 ∧ ∀ e ∈ (forceReset s n reason).tlb, e.ctx ≠ n) := by
  have hrt : KMap.rising t.tasks = true :=
    h.ends.rising (rising_map (fun k : Task => if k.ctx == n then k.force 4 0xFB false else k) (h.stops.rising hr))
  rw [h.last]
  constructor
  · rintro ⟨⟨slot, k⟩, he, hn, hw⟩
    obtain ⟨k', hk', hn', -, hf, -⟩ := h.begun (mem_get? hr he) hn hw
    exact resetLast_going hrt h.turn hk' hn' hf
  · intro hall
    exact resetLast_ended hrt h.turn h.waits (h.none_left fun slot k hk hn => hall (slot, k) (KMap.mem_of_get? hk) hn)

/-! ### The start of a drain -/

theorem Spares.stopFlush {P : Scope} {s0 s : State} {slot : Nat} {t : Task} (h : Spares P s0 s) (e : s.task? slot = some t)
    (hS : P.slot slot) (hE : P.ends) : Spares P s0 (Machine.stopFlush s slot t) := by
  unfold Machine.stopFlush
  split
  · next k l hst =>
    have hw : t.stage ≠ .waiting := by simp [hst]
    split
    · exact h
    · split
      · exact (h.setTask e hS (fate_stage true hw (by simp)) (absurd hE)).writeCursor
      · exact (h.setTask e hS (fate_stage false hw (by simp)) (absurd hE)).writeCursor
  · exact h

theorem startDrain_ctx (hc : s.ctx? n = some c) : ∃ c', (startDrain s n reason).ctx? n = some c' ∧ c'.state = .draining ∧
    c'.drainStart = s.tick ∧ c.m.deadline ≤ c'.drainDeadline ∧
    c'.drainReason = reason + if reason = 3 ∧ c.stallDrained = true then 256 else 0 := by
  unfold startDrain
  split
  · next e => exact absurd (e.symm.trans hc) (by simp)
  · next c0 e =>
    obtain rfl := Option.some.inj (e.symm.trans hc)
    extract_lets limit again s1
    have hput : s1.ctx? n = some { c0 with state := .draining, drainStart := s.tick, drainReason := reason + again, drainDeadline := limit } :=
      KMap.get?_put_self _ _ _
    have hlimit : c0.m.deadline ≤ limit := by
      refine foldl_keeps (fun d : Nat => c0.m.deadline ≤ d) _ (fun d e hd => ?_) s.teams c0.m.deadline le_rfl
      split
      · split
        · exact le_trans hd (le_max_left _ _)
        · exact hd
      · exact hd
    suffices h : ∀ u, Spares .ending s1 u → ∃ c', u.ctx? n = some c' ∧ c'.state = .draining ∧ c'.drainStart = s.tick ∧
        c0.m.deadline ≤ c'.drainDeadline ∧ c'.drainReason = reason + if reason = 3 ∧ c0.stallDrained = true then 256 else 0 by
      refine h _ ((Spares.refl .ending s1).foldl fun _ _ h => ?_)
      split
      · next e => exact h.stopFlush e trivial trivial
      · exact h
    intro u hs
    obtain ⟨c', hc', he⟩ := hs.ctx hput
    refine ⟨c', hc', calm_state he, (congrArg Ctx.drainStart he :), ?_, (calm_reason he).trans ?_⟩
    · exact hlimit.trans_eq (congrArg Ctx.drainDeadline he : c'.calm.drainDeadline = limit).symm
    · simp [again]

end

/-! ### Buckets, latches and samples -/

section
variable {s : State}

theorem bucketRefill_spec {core : Nat} (h : refillDue s core = true) : ∃ t, exec (.bucketRefill core) s = .next t ∧
    t = { s with buckets := t.buckets, bucketWindow := t.bucketWindow } ∧ refillDue t core = false ∧
    (∀ c, c < 64 → KMap.get t.buckets 0 (core * 64 + c) = 64 * ((s.ctx? c).map fun x => x.m.share).getD 0) ∧
    ∀ k, k / 64 ≠ core → KMap.get t.buckets 0 k = KMap.get s.buckets 0 k := by
  refine ⟨refill s core, congrArg Host.Outcome.next (if_pos h), rfl, ?_, fun c hc => ?_, fun k hk => ?_⟩
  · have hw : KMap.get? (refill s core).bucketWindow core = some (windowOf s core) := KMap.get?_put_self _ _ _
    simp only [refillDue, hw]
    exact bne_self_eq_false _
  · unfold refill
    extract_lets share
    refine KMap.get_foldl_set_mem 0 (fun c => core * 64 + c) (fun c => 64 * share c) (List.range 64) s.buckets _ _
      ⟨c, List.mem_range.2 hc, rfl⟩ fun y _ hy => ?_
    obtain rfl : y = c := by omega
    rfl
  · unfold refill
    extract_lets share
    exact KMap.get_foldl_set_ne 0 (fun c => core * 64 + c) (fun _ c => 64 * share c) (List.range 64) s.buckets k fun c hc => by
      rw [List.mem_range] at hc
      omega

theorem latchTick_spec {k : Nat} (h : s.telInterval = some k) : (s.tick % 2 ^ k ≠ 0 → latchTick s = s) ∧
    (s.tick % 2 ^ k = 0 → s.telPending = [] → s.telLatch = none → latchTick s = { s with telLatch := some ⟨k, s.tick, s.counters, s.dies⟩ }) := by
  unfold latchTick
  refine ⟨fun ht => ?_, fun ht hp hl => ?_⟩
  · simp only [h, if_pos ht]
  · simp only [h, hp, hl, ht, ne_eq, not_true_eq_false, if_false]
    rfl

theorem telemetry_spec (energy temp : Nat) :
    (s.telLatch = none → exec (.telemetryLatch energy temp) s = .next s) ∧
    (∀ l, s.telLatch = some l → exec (.telemetryLatch energy temp) s = .next { s with
      counters := putSensors s.counters energy temp, telLatch := none,
      telPending := latchRecords s { l with counters := putSensors l.counters energy temp } }) ∧
    (∀ c r rest, s.telPending = (c, r) :: rest → offerNext s = telOffer { s with telPending := rest } c r) := by
  have he : exec (.telemetryLatch energy temp) s = execTelemetryLatch energy temp s := rfl
  rw [he]
  refine ⟨fun h => ?_, fun l h => ?_, fun c r rest h => ?_⟩
  · rw [execTelemetryLatch, h]
  · rw [execTelemetryLatch, h]
  · rw [offerNext, h]

/-! ### Samples -/

theorem dropSample_first {core ctx : Nat} (h : KMap.get? s.sampledAt (core * 64 + ctx) ≠ some s.tick) : dropSample s core ctx = s :=
  if_neg fun he => h (beq_iff_eq.1 he)

theorem dropSample_again {core ctx : Nat} (h : KMap.get? s.sampledAt (core * 64 + ctx) = some s.tick) : dropSample s core ctx =
    { s with traceBuf := s.traceBuf.filter fun e => !(e.1 == ctx && e.2.2.type == 5 && e.2.2.core == core) } :=
  if_pos (beq_iff_eq.2 h)

theorem dropSample_buf (core ctx : Nat) : ∃ traceBuf, dropSample s core ctx = { s with traceBuf } := by
  unfold dropSample
  split
  · exact ⟨_, rfl⟩
  · exact ⟨s.traceBuf, rfl⟩

/-- A context's stream takes a sample of a core at this tick. -/
structure SampleDue (s : State) (core ctx : Nat) (t : TraceStream) : Prop where
  stream : traceStream s ctx (core / 32) = some t
  on : t.en.getLsbD 0 = true
  tick : s.tick % 2 ^ t.s = 0
  die : ∀ d, KMap.get? s.dies (core / 32) = some d → d.stopped = false

theorem SampleDue.running {core ctx : Nat} {t : TraceStream} (h : SampleDue s core ctx t) : dieStopped s (core / 32) = false := by
  unfold dieStopped
  cases hd : KMap.get? s.dies (core / 32) with
  | none => rfl
  | some d => exact h.die d hd

theorem sampleCore_none {core ctx : Nat} {t : TraceStream} (h : SampleDue s core ctx t)
    (hg : sampleGang s core (s.tick / 2 ^ t.s % 32) ctx = none) : sampleCore s core ctx = dropSample s core ctx := by
  obtain ⟨buf, hbuf⟩ := dropSample_buf (s := s) core ctx
  have hg' : sampleGang { s with traceBuf := buf } core (s.tick / 2 ^ t.s % 32) ctx = none := hg
  unfold sampleCore
  rw [h.stream]
  simp only [h.on, h.tick, h.running, hbuf, hg', Bool.not_true, ne_eq, not_true_eq_false, decide_false, Bool.or_self, Bool.false_eq_true,
    if_false]

theorem sampleCore_some {core ctx : Nat} {t : TraceStream} {r : GangRef} {g : Gang} {w : Who} {k : Task} (h : SampleDue s core ctx t)
    (hg : sampleGang s core (s.tick / 2 ^ t.s % 32) ctx = some (r, g, w)) (hk : s.task? w.slot = some k) :
    sampleCore s core ctx = putSample (dropSample s core ctx) core ctx (sampleRec r g w.index k.rec_.taskid.toNat k.rec_.code) := by
  obtain ⟨buf, hbuf⟩ := dropSample_buf (s := s) core ctx
  have hg' : sampleGang { s with traceBuf := buf } core (s.tick / 2 ^ t.s % 32) ctx = some (r, g, w) := hg
  have hk' : ({ s with traceBuf := buf } : State).task? w.slot = some k := hk
  unfold sampleCore
  rw [h.stream]
  simp only [h.on, h.tick, h.running, hbuf, hg', hk', Bool.not_true, ne_eq, not_true_eq_false, decide_false, Bool.or_self,
    Bool.false_eq_true, if_false]

end

/-! ### Slices, stalls, deadlines and drains -/

/-- A drain for a slice that expired in the tick of the last retirement. -/
theorem retiredFirst_iff {s : State} {n : Nat} {c : Ctx} :
    retiredFirst s n c = true ↔ c.drainReason = 1 ∧ c.retiredAt = some c.drainStart ∧ ctxFlushing s n = false := by
  simp [retiredFirst, and_assoc]

section
variable {s : State} {n : Nat} {c : Ctx} (hc : s.ctx? n = some c) (hp : paused s n = false)
include hc hp

theorem sliceExpiry_spec (hh : s.halted = false) (hst : c.state = .scheduled) :
    (c.sliceStart + c.m.slice ≤ s.tick → c.retiredAt = some s.tick → ctxResident s n = false → ctxFlushing s n = false →
      exec (.sliceExpiry n) s = .next (s.setCtx n { c with state := if runnable s n then .waiting else .idle, waitSince := s.tick })) ∧
    (c.sliceStart + c.m.slice ≤ s.tick → c.retiredAt ≠ some s.tick ∨ ctxResident s n = true ∨ ctxFlushing s n = true →
      ((∃ e ∈ s.ctxs, e.1 ≠ n ∧ ctxWaiter e.2 = true ∧ c.m.prio ≤ e.2.m.prio) → exec (.sliceExpiry n) s = .next (startDrain s n 1)) ∧
      (¬ (∃ e ∈ s.ctxs, e.1 ≠ n ∧ ctxWaiter e.2 = true ∧ c.m.prio ≤ e.2.m.prio) →
        exec (.sliceExpiry n) s = .next (s.setCtx n { c with sliceStart := s.tick }))) ∧
    (s.tick < c.sliceStart + c.m.slice → exec (.sliceExpiry n) s = .next s) := by
  have he : exec (.sliceExpiry n) s = execSliceExpiry n s := rfl
  rw [he]
  unfold execSliceExpiry
  rw [hc]
  simp only [hst, hp, hh, ne_eq, not_true_eq_false, decide_false, Bool.or_false, Bool.false_or, decide_eq_true_eq]
  refine ⟨fun hle hr hres hfl => ?_, fun hle hor => ⟨fun hw => ?_, fun hw => ?_⟩, fun hlt => if_pos hlt⟩
  · rw [if_neg (Nat.not_lt.2 hle), if_pos (by simp [hr, hres, hfl])]
    rfl
  all_goals
    rw [if_neg (Nat.not_lt.2 hle), if_neg (by simpa [or_iff_not_imp_left] using hor)]
  · exact if_pos (by simpa [and_assoc] using hw)
  · exact if_neg (by simpa [and_assoc] using hw)

theorem stallExpiry_due (hh : s.halted = false) (hst : c.state = .scheduled) (h0 : c.m.stall ≠ 0) (hle : c.progress + c.m.stall ≤ s.tick) :
    exec (.stallExpiry n) s = .next (startDrain s n 3) := by
  have he : exec (.stallExpiry n) s = execStallExpiry n s := rfl
  rw [he]
  unfold execStallExpiry
  rw [hc]
  exact congrArg Host.Outcome.next (if_neg (by simp [hst, hp, hh, h0, Nat.not_lt.2 hle]))

theorem deadlineExpiry_due (hst : c.state = .draining) (hle : c.drainStart + c.drainDeadline ≤ s.tick) (hr : ctxResident s n = true) :
    exec (.deadlineExpiry n) s = .next (forceReset s n 1) := by
  have he : exec (.deadlineExpiry n) s = execDeadlineExpiry n s := rfl
  rw [he]
  unfold execDeadlineExpiry
  rw [hc]
  exact congrArg Host.Outcome.next (if_neg (by simp [hst, hp, hr, Nat.not_lt.2 hle]))

theorem drainEnd_first (hst : c.state = .draining) (hr : ctxResident s n = false) (hf : retiredFirst s n c = true) :
    exec (.drainEnd n) s = .next (s.setCtx n { c with state := if runnable s n then .waiting else .idle, waitSince := s.tick }) := by
  have he : exec (.drainEnd n) s = execDrainEnd n s := rfl
  rw [he]
  unfold execDrainEnd
  rw [hc]
  simp only [hst, hp, hr, hf, ne_eq, not_true_eq_false, decide_false, Bool.or_self, Bool.false_eq_true, if_false, if_true]
  rfl

theorem drainEnd_saves {s1 : State} {c1 : Ctx} (hst : c.state = .draining) (hr : ctxResident s n = false) (hf : retiredFirst s n c = false)
    (hw : agentWrite s n c.m.saverec.toNat (saveBytes s n (writeLayout s) (c.drainReason % 256) c.drainStart) = .ok s1)
    (hc1 : s1.ctx? n = some c1) :
    let s2 := (s1.setCtx n { c1 with state := .preempted, saved := some (writeLayout s, c.drainReason % 256), waitSince := s1.tick,
                                     stallDrained := c1.stallDrained || c.drainReason % 256 == 3 }).bump .preempts n
    exec (.drainEnd n) s = .next (if 256 ≤ c.drainReason then forceReset s2 n 2 else s2) := by
  have he : exec (.drainEnd n) s = execDrainEnd n s := rfl
  rw [he]
  unfold execDrainEnd
  rw [hc]
  simp only [hst, hp, hr, hf, hw, hc1, ne_eq, not_true_eq_false, decide_false, Bool.or_self, Bool.false_eq_true, if_false]

end

/-! ### Admission -/

theorem contextAdmit_spec {s : State} {n : Nat} {c : Ctx} (ha : admitChoice s = some (n, c)) (hh : s.halted = false)
    (hf : s.fw.activating = none) :
    ((s.ctxs.filter fun e => ctxMember e.2).length < 16 →
      exec .contextAdmit s = .next (s.setCtx n { c with state := .scheduled, sliceStart := s.tick, progress := s.tick, saved := none })) ∧
    (∀ m d, 16 ≤ (s.ctxs.filter fun e => ctxMember e.2).length → drainChoice s = some (m, d) → d.m.prio < c.m.prio →
      (∀ e ∈ s.ctxs, e.2.state ≠ .draining) → exec .contextAdmit s = .next (startDrain s m 2)) := by
  have he : exec .contextAdmit s = execContextAdmit s := rfl
  rw [he]
  unfold execContextAdmit
  rw [ha]
  simp only [hh, hf, Option.isSome_none, Bool.or_self, Bool.false_eq_true, if_false]
  refine ⟨fun h => if_pos h, fun m d h hd hlt hno => ?_⟩
  rw [if_neg (Nat.not_lt.2 h), hd]
  have hany : (s.ctxs.any fun e => e.2.state == .draining) = false := by
    rw [List.any_eq_false]
    exact fun e he => by simp [hno e he]
  exact congrArg Host.Outcome.next (if_pos (by simp [hlt, hany]))

end Sys2Proof.Machine

namespace Sys2Proof

open Machine in
/-- Settles O50: each expiry, latch and sample by its branches, a drain by what spares its context, and a forced reset by following what it
stops, the ends of the tasks and whether a forced one is left. -/
theorem scheduling : Obligations.Scheduling := by
  unfold Obligations.Scheduling
  refine ⟨fun s core h => congrArg Host.Outcome.next (if_neg (by simp [h])), fun s core h => bucketRefill_spec h,
    fun s k h => latchTick_spec h, fun s energy temp => telemetry_spec energy temp,
    fun s core ctx t r g w k ht hen htick hdie hg hk => ?_, fun s core ctx t ht hen htick hdie hg hat => ?_,
    fun s n c hc hp hh => ⟨?_, ?_, ?_, fun hst h0 hle => stallExpiry_due hc hp hh hst h0 hle,
      fun hst hle hr => deadlineExpiry_due hc hp hst hle hr, fun hst hr => ⟨fun hf => ?_, fun s1 c1 hf hw hc1 => ?_⟩⟩,
    fun s n reason c hc => startDrain_ctx hc, fun s n reason c hc => ⟨fun hst => ?_, fun hne hd hq hr _ => ?_⟩,
    fun s n c ha hh hf => contextAdmit_spec ha hh hf⟩
  · have he := sampleCore_some ⟨ht, hen, htick, hdie⟩ hg hk
    refine ⟨fun hat => ?_, fun hat => ?_⟩
    · rw [dropSample_first hat] at he
      exact congrArg Host.Outcome.next he
    · rw [dropSample_again hat] at he
      exact congrArg Host.Outcome.next he
  · have he := sampleCore_none ⟨ht, hen, htick, hdie⟩ hg
    rw [dropSample_again hat] at he
    exact congrArg Host.Outcome.next he
  · exact fun hst => (sliceExpiry_spec hc hp hh hst).1
  · exact fun hst => (sliceExpiry_spec hc hp hh hst).2.1
  · exact fun hst => (sliceExpiry_spec hc hp hh hst).2.2
  · exact drainEnd_first hc hp hst hr (retiredFirst_iff.2 hf)
  · exact drainEnd_saves hc hp hst hr (Bool.eq_false_iff.2 fun h => hf (retiredFirst_iff.1 h)) hw hc1
  · unfold forceReset
    rw [hc]
    exact if_pos hst
  · obtain ⟨u, t, h⟩ := forceReset_spec (reason := reason) hc hne hd hr
    obtain ⟨h1, h2, h3, h4, h5⟩ := h.stopped hq
    obtain ⟨h6, h7⟩ := h.tasks
    obtain ⟨h8, h9⟩ := h.context hr
    exact ⟨h1, h2, h3, h4, h5, h6, h7, h8, h9⟩

end Sys2Proof

/-! ## Scope: taking an exception (O37) -/

namespace Sys2Proof.Machine

/-! ### Entering the handler, stopping for the agent, killing the team -/

section
variable {s : State} {ref : GangRef} {who : Who} {task : Task} {pc : W64} {t : TrapInfo} {g : Gang}

/-- The gang that a trap is taken from: it has no transient left and holds no operand (R21). -/
def Gang.still (g : Gang) : Gang := { g with transients := [], holdLatch := [] }

/-- The causes that an agent takes from the handler. -/
def TrapInfo.forAgent (t : TrapInfo) (s : State) (ctx : Nat) : Prop := (t.cause = 0xF0 ∨ t.cause = 0xF1) ∧ agentAttached s ctx = true

theorem logTrap_plain (s : State) (ref : GangRef) (who : Who) (task : Task) (h1 : t.cause ≠ 1) (h2 : t.cause ≠ 2) :
    logTrap s ref who task t = s := by
  unfold logTrap
  extract_lets e
  rw [if_neg h2, if_neg h1]

/-- Only a machine check or poison writes the log, and neither is the agent's. -/
theorem agentTaken_iff : ((t.cause = 0xF0 || t.cause = 0xF1) && agentAttached (logTrap (s.setGang ref g.still) ref who task t) who.ctx) = true ↔
    t.forAgent s who.ctx := by
  unfold TrapInfo.forAgent
  by_cases hc : t.cause = 0xF0 ∨ t.cause = 0xF1
  · have h1 : t.cause ≠ 1 := by omega
    have h2 : t.cause ≠ 2 := by omega
    rw [logTrap_plain _ _ _ _ h1 h2]
    simp only [Bool.and_eq_true, Bool.or_eq_true, decide_eq_true_eq]
    exact Iff.rfl
  · simp [hc]

theorem takeTrap_agent (hg : s.gang? ref = some g) (h : t.forAgent s who.ctx) : takeTrap s ref who task pc t =
    reportStop (s.setGang ref { g with transients := [], holdLatch := [], cause := BitVec.ofNat 8 t.cause, tpc := t.tpc.getD pc,
                                       tmask := t.tmask, thit := t.thit, stopped := true }) who.ctx ref t.cause (t.tpc.getD pc) := by
  have hc := h.1
  unfold takeTrap
  rw [hg]
  refine (if_pos (agentTaken_iff.2 h)).trans ?_
  rw [logTrap_plain _ _ _ _ (by omega) (by omega), setGang_setGang]
  rfl

theorem takeTrap_kills (hg : s.gang? ref = some g) (h : ¬ t.forAgent s who.ctx)
    (hk : g.inh = true ∨ g.thnd = 0#64 ∨ task.rec_.restartable = true ∧ (t.cause = 1 ∨ t.cause = 2)) : takeTrap s ref who task pc t =
      killTeam (logTrap (s.setGang ref g.still) ref who task t) who.team t.cause t.taddr.toNat := by
  unfold takeTrap
  rw [hg]
  refine (if_neg (mt agentTaken_iff.1 h)).trans (if_pos ?_)
  simp only [Bool.or_eq_true, Bool.and_eq_true, decide_eq_true_eq]
  obtain hk | hk | hk := hk
  · exact .inl (.inl hk)
  · exact .inr hk
  · exact .inl (.inr hk)

theorem takeTrap_enters (hg : s.gang? ref = some g) (h : ¬ t.forAgent s who.ctx) (hi : g.inh = false) (hh : g.thnd ≠ 0#64)
    (hr : ¬ (task.rec_.restartable = true ∧ (t.cause = 1 ∨ t.cause = 2))) : takeTrap s ref who task pc t =
      (logTrap (s.setGang ref g.still) ref who task t).setGang ref (g.still.enterHandler t (t.tpc.getD pc)) := by
  unfold takeTrap
  rw [hg]
  refine (if_neg (mt agentTaken_iff.1 h)).trans (if_neg ?_)
  simp only [Bool.or_eq_true, Bool.and_eq_true, decide_eq_true_eq]
  rintro ((hk | hk) | hk)
  · exact absurd (hi.symm.trans hk) (by simp)
  · exact hr hk
  · exact hh hk

/-- R304: the lanes of TMASK enter the handler with WAIT 0. -/
theorem enterHandler_waitOf (g : Gang) (t : TrapInfo) (tpc : W64) {l : Nat} (hl : g.live.getLsbD l = true) (ht : t.tmask.getLsbD l = true) :
    (g.enterHandler t tpc).waitOf l = 0 := by
  have hm : l ∈ lanesOf (g.live &&& t.tmask) := (mem_lanesOf _ _).2 (by rw [BitVec.getLsbD_and, hl, ht]; rfl)
  exact KMap.get_foldl_set_mem 0 id (fun _ => 0) _ g.wait l 0 ⟨l, hm, rfl⟩ fun _ _ _ => rfl

end

/-! ### A team with nothing in flight is stopped at once -/

/-- What of TeamQuiet concerns the team alone. -/
structure AtRest (s : State) (k : Nat) (t : Team) : Prop where
  engine : ∀ e ∈ s.engine, e.2.team = k → e.2.touched = false
  stash : ∀ m ∈ t.stashes, m.dirty = []
  gangs : ∀ r ∈ t.gangs, ∀ g, s.gang? r = some g → g.team = k → g.unclass = none ∧ g.late = none ∧ g.block ≠ some .peer

theorem TeamQuiet.atRest {s : State} {k : Nat} {t : Team} (h : TeamQuiet s k t) : AtRest s k t := ⟨h.engine, h.stash, h.gangs⟩

theorem removeGang_gone (s : State) (r : GangRef) (slot : Nat) : (removeGang s r slot).gang? r = none := by
  unfold removeGang dropChains
  extract_lets s1 still
  have h1 : s1.gang? r = none := KMap.get?_del_self _ _
  split
  · exact h1
  · exact h1

theorem removeGang_keeps (s : State) (r : GangRef) (slot : Nat) : (removeGang s r slot).teams = s.teams ∧
    (removeGang s r slot).engine = s.engine ∧ ∀ q, gangNum q ≠ gangNum r → (removeGang s r slot).gang? q = s.gang? q := by
  unfold removeGang dropChains
  extract_lets s1 still
  have h1 : ∀ q, gangNum q ≠ gangNum r → s1.gang? q = s.gang? q := fun q hq => KMap.get?_del_ne _ hq
  split
  · exact ⟨rfl, rfl, h1⟩
  · exact ⟨rfl, rfl, h1⟩

theorem leaveGang_gone (s : State) (slot : Nat) (r : GangRef) : (leaveGang s slot r).gang? r = none := by
  unfold leaveGang
  split
  · exact removeGang_gone _ r slot
  · exact removeGang_gone _ r slot

theorem leaveGang_keeps (s : State) (slot : Nat) (r : GangRef) : (leaveGang s slot r).teams = s.teams ∧
    (leaveGang s slot r).engine = s.engine ∧ ∀ q, gangNum q ≠ gangNum r → (leaveGang s slot r).gang? q = s.gang? q := by
  unfold leaveGang
  split
  · exact removeGang_keeps _ r slot
  · exact removeGang_keeps _ r slot

/-- The state in which a gang that is killed leaves: its held stores and its fills are lost. -/
def State.cutGang (s : State) (r : GangRef) (x : Gang) : State :=
  { s.setGang r { x with heldStores := [], fills := [], stopped := false } with
    mxq := s.mxq.map fun e => (e.1, e.2.filter fun m => m.g ≠ r) }

theorem killGang_idle {s : State} {r : GangRef} {x : Gang} (slot : Nat) (hx : s.gang? r = some x) (hu : x.unclass = none)
    (hl : x.late = none) (hb : x.block ≠ some .peer) : killGang s slot r = leaveGang (s.cutGang r x) slot r := by
  have hcut : ∀ g, (s.cutGang r x).gang? r = some g → g.unclass = none ∧ g.late = none := fun g hg => by
    obtain rfl := Option.some.inj ((setGang_self s r _).symm.trans hg)
    exact ⟨hu, hl⟩
  have hlate := finishLate_none fun g hg => (hcut g hg).2
  have hun := completeUnclass_none fun g hg => (hcut g hg).1
  unfold killGang
  split
  · next e => exact absurd (e.symm.trans hx) (by simp)
  · next y e =>
    obtain rfl := Option.some.inj (e.symm.trans hx)
    extract_lets s1 s2
    have h2 : s2 = s.cutGang r y := rfl
    clear_value s2
    subst h2
    split
    · next h => exact absurd h hb
    · rfl
    · rfl
    · rw [hlate, hun]

/-- What the kill of gangs with nothing in flight leaves. -/
structure GangsGone (l : List GangRef) (s t : State) : Prop where
  teams : t.teams = s.teams
  engine : t.engine = s.engine
  others : ∀ r, t.gang? r = s.gang? r ∨ t.gang? r = none
  gone : ∀ r ∈ l, t.gang? r = none

theorem killGang_gone {s : State} {r : GangRef} {slot : Nat}
    (h : ∀ x, s.gang? r = some x → x.unclass = none ∧ x.late = none ∧ x.block ≠ some .peer) : GangsGone [r] s (killGang s slot r) := by
  cases hx : s.gang? r with
  | none =>
    have he : killGang s slot r = s := by rw [killGang, hx]
    rw [he]
    exact ⟨rfl, rfl, fun _ => .inl rfl, fun q hq => List.mem_singleton.1 hq ▸ hx⟩
  | some x =>
    obtain ⟨hu, hl, hb⟩ := h x hx
    rw [killGang_idle slot hx hu hl hb]
    obtain ⟨ht, he, hg⟩ := leaveGang_keeps (s.cutGang r x) slot r
    refine ⟨ht, he, fun q => ?_, fun q hq => ?_⟩
    · by_cases hq : gangNum q = gangNum r
      · exact .inr ((congrArg (KMap.get? _) hq).trans (leaveGang_gone _ slot r))
      · exact .inl ((hg q hq).trans (setGang_ne s _ hq))
    · obtain rfl := List.mem_singleton.1 hq
      exact leaveGang_gone _ slot q

theorem killGangs_gone {slot : Nat} (l : List GangRef) {s : State}
    (h : ∀ r ∈ l, ∀ x, s.gang? r = some x → x.unclass = none ∧ x.late = none ∧ x.block ≠ some .peer) :
    GangsGone l s (l.foldl (fun s g => killGang s slot g) s) := by
  induction l generalizing s with
  | nil => exact ⟨rfl, rfl, fun _ => .inl rfl, fun _ h => absurd h List.not_mem_nil⟩
  | cons r l ih =>
    have h1 := killGang_gone (slot := slot) (h r List.mem_cons_self)
    have h2 := ih fun q hq x hx => (h1.others q).elim (fun he => h q (List.mem_cons_of_mem _ hq) x (he.symm.trans hx))
      fun hn => absurd (hn.symm.trans hx) (by simp)
    refine ⟨h2.teams.trans h1.teams, h2.engine.trans h1.engine, fun q => ?_, fun q hq => ?_⟩
    · obtain he | hn := h2.others q
      · exact (h1.others q).imp he.trans he.trans
      · exact .inr hn
    · obtain rfl | hl := List.mem_cons.1 hq
      · obtain he | hn := h2.others q
        · exact he.trans (h1.gone q List.mem_cons_self)
        · exact hn
      · exact h2.gone q hl

theorem touchPages_nil (s : State) (slot index owner : Nat) (write : Bool) :
    ∃ u, touchPages s slot index owner write false false [] = .go false [] u ∧ u.teams = s.teams := by
  unfold touchPages
  cases s.task? slot with
  | none => exact ⟨s, rfl, rfl⟩
  | some t => exact ⟨s.setTask slot t, rfl, rfl⟩

theorem stashTouch_clean (s : State) {t : Team} (h : ∀ m ∈ t.stashes, m.dirty = []) :
    ∃ u, stashTouch s t = .go false [] u ∧ u.teams = s.teams := by
  have hpages : t.stashes.flatMap (stashPages s t.slot) = [] :=
    List.flatMap_eq_nil_iff.2 fun m hm => by simp [stashPages, h m hm]
  unfold stashTouch
  rw [hpages]
  exact touchPages_nil s t.slot t.index _ true

theorem dropTeam_gone (s : State) (k : Nat) (t : Team) : (dropTeam s k t).team? k = none := KMap.get?_del_self _ _

theorem retireStopped_gone {s : State} {k : Nat} {t : Team} (ht : s.team? k = some t) (hd : t.dying = true) (hb : teamBusy s k t = false)
    (hs : ∀ m ∈ t.stashes, m.dirty = []) : (retireStopped s k).team? k = none := by
  obtain ⟨u, hu, -⟩ := stashTouch_clean s hs
  unfold retireStopped
  rw [ht]
  simp only [hd, hb, hu, Bool.not_true, Bool.or_self, Bool.false_eq_true, if_false]
  exact dropTeam_gone u k t

/-- A team and its gangs in s are gone in t. -/
def TeamGone (s t : State) (k : Nat) (m : Team) : Prop :=
  t.team? k = none ∧ ∀ r ∈ m.gangs, ∀ g, s.gang? r = some g → g.team = k → t.gang? r = none

/-- The scope of one team. -/
def Scope.one (k slot : Nat) : Scope := ⟨(· = k), (· = slot), False⟩

theorem closed_one {s : State} {k : Nat} {t : Team} (ht : s.team? k = some t) : Closed (.one k t.slot) s := by
  rintro j m rfl hm
  obtain rfl := Option.some.inj (ht.symm.trans hm)
  rfl

theorem stopTeam_spares {s : State} {k : Nat} {t : Team} (err : Nat) (ht : s.team? k = some t) :
    Spares (.one k t.slot) s (stopTeam s k err) := (Spares.refl _ s).stopTeam (closed_one ht) rfl

theorem stopTeam_gone {s : State} {k : Nat} {t : Team} (err : Nat) (ht : s.team? k = some t) (hd : t.dying = false) (h : AtRest s k t) :
    TeamGone s (stopTeam s k err) k t := by
  unfold stopTeam
  split
  · next e => exact absurd (e.symm.trans ht) (by simp)
  · next t0 e =>
    obtain rfl := Option.some.inj (e.symm.trans ht)
    rw [if_neg (by simp [hd])]
    extract_lets stop left s1 s2 mine
    have hteam : s2.team? k = some { t0 with carve := none, arr := [], dying := true } := KMap.get?_put_self _ _ _
    have hmine : ∀ r ∈ mine, ∀ x, s2.gang? r = some x → x.unclass = none ∧ x.late = none ∧ x.block ≠ some .peer := fun r hr x hx => by
      obtain ⟨hr, hx'⟩ := List.mem_filter.1 hr
      obtain ⟨y, hy, hk⟩ := (Option.any_eq_true _ _).1 hx'
      obtain rfl := Option.some.inj (hx.symm.trans hy)
      exact h.gangs r hr x hx (of_decide_eq_true hk)
    have hgone := killGangs_gone (slot := t0.slot) mine hmine
    generalize mine.foldl (fun s g => killGang s t0.slot g) s2 = u at hgone
    have hgangs : ∀ r ∈ t0.gangs, ∀ g, s.gang? r = some g → g.team = k → u.gang? r = none := fun r hr g hg hk => by
      exact hgone.gone r (List.mem_filter.2 ⟨hr, (Option.any_eq_true _ _).2 ⟨g, hg, decide_eq_true hk⟩⟩)
    have hbusy : teamBusy u k { t0 with carve := none, arr := [], dying := true } = false := by
      rw [teamBusy, Bool.or_eq_false_iff]
      constructor
      · refine List.any_eq_false.2 fun r hr hany => ?_
        obtain ⟨g, hg, hk⟩ := (Option.any_eq_true _ _).1 hany
        obtain he | hn := hgone.others r
        · exact absurd ((hgangs r hr g (he.symm.trans hg) (of_decide_eq_true hk)).symm.trans hg) (by simp)
        · exact absurd (hn.symm.trans hg) (by simp)
      · rw [teamOps, hgone.engine]
        have hnone : s2.engine.filter (fun e => e.2.team = k) = [] := List.filter_eq_nil_iff.2 fun e' he' hk => by
          obtain ⟨e, hm, rfl⟩ := List.mem_map.1 he'
          obtain ⟨hm, hleft⟩ := List.mem_filter.1 hm
          have hke : e.2.team = k := by
            by_cases hke : e.2.team = k
            · exact hke
            · rw [if_neg hke] at hk
              exact of_decide_eq_true hk
          simp [hke, h.engine e hm hke] at hleft
        rw [hnone]
        rfl
    refine ⟨retireStopped_gone ((congrArg (KMap.get? · k) hgone.teams).trans hteam) rfl hbusy h.stash, fun r hr g hg hk => ?_⟩
    have hspare : Spares .ending u (retireStopped u k) := (Spares.refl _ u).retireStopped (closed_ending u) trivial
    cases hx : (retireStopped u k).gang? r with
    | none => rfl
    | some x =>
      obtain ⟨y, hy, -⟩ := hspare.owned _ x hx
      exact absurd ((hgangs r hr g hg hk).symm.trans hy) (by simp)

/-! ### A team that is killed -/

theorem TeamGone.spares {P : Scope} {a b c : State} {k : Nat} {m : Team} (h : TeamGone a b k m) (hs : Spares P b c) : TeamGone a c k m := by
  refine ⟨?_, fun r hr g hg hk => ?_⟩
  · cases hm : c.team? k with
    | none => rfl
    | some m' =>
      obtain ⟨m0, hm0, -⟩ := hs.stays k m' hm
      exact absurd (h.1.symm.trans hm0) (by simp)
  · cases hx : c.gang? r with
    | none => rfl
    | some x =>
      obtain ⟨y, hy, -⟩ := hs.owned _ x hx
      exact absurd ((h.2 r hr g hg hk).symm.trans hy) (by simp)

/-- A team at rest is as it was, and its gangs with it, while others are at work. -/
structure RestsOn (s t : State) (k : Nat) (m : Team) : Prop where
  team : t.team? k = some m
  rest : AtRest t k m
  gangs : ∀ r g, s.gang? r = some g → g.team = k → t.gang? r = some g

theorem Spares.restsOn {P : Scope} {s t : State} {k : Nat} {m : Team} (h : Spares P s t) (hk : ¬ P.team k) (hm : s.team? k = some m)
    (hr : AtRest s k m) : RestsOn s t k m where
  team := (h.teams k hk).trans hm
  rest := by
    refine ⟨fun e' he' hk' => ?_, hr.stash, fun r hmem g' hg' hk' => ?_⟩
    · obtain ⟨e, he, ht, htouched⟩ := h.engine e' he'
      exact htouched.trans (hr.engine e he (ht.symm.trans hk'))
    · obtain ⟨g, hg, ht⟩ := h.owned _ g' hg'
      have hgk : g.team = k := ht.symm.trans hk'
      obtain rfl := Option.some.inj ((h.gangs _ g hg (hgk ▸ hk)).symm.trans hg')
      exact hr.gangs r hmem g hg hgk
  gangs r g hg hgk := h.gangs _ g hg (hgk ▸ hk)

theorem RestsOn.gone {a b c : State} {k : Nat} {m : Team} (h : RestsOn a b k m) (hg : TeamGone b c k m) : TeamGone a c k m :=
  ⟨hg.1, fun r hr g hga hk => hg.2 r hr g (h.gangs r g hga hk) hk⟩

/-- A kill of the teams of a list, each reported. -/
def stopReported (taskid : W32) (cause : Nat) (s : State) (e : Nat × Team) : State :=
  reportKill (stopTeam s e.1 cause) e.2 taskid cause 0 false

theorem stopReported_spares (taskid : W32) (cause : Nat) (l : List (Nat × Team)) (s : State) :
    Spares .all s (l.foldl (stopReported taskid cause) s) :=
  (Spares.refl .all s).foldl fun _ _ h => (h.stopTeam (closed_all _) trivial).reportKill

theorem stopReported_gone {k : Nat} {m : Team} (taskid : W32) (cause : Nat) (l : List (Nat × Team)) {s : State} (hk : k ∈ l.map Prod.fst)
    (hm : s.team? k = some m) (hd : m.dying = false) (hr : AtRest s k m) : TeamGone s (l.foldl (stopReported taskid cause) s) k m := by
  induction l generalizing s with
  | nil => exact absurd hk List.not_mem_nil
  | cons e l ih =>
    by_cases he : e.1 = k
    · subst he
      have hg := stopTeam_gone cause hm hd hr
      have hrep : Spares .all (stopTeam s e.1 cause) (stopReported taskid cause s e) := (Spares.refl .all _).reportKill
      exact (hg.spares hrep).spares (stopReported_spares taskid cause l _)
    · have hin : k ∈ l.map Prod.fst := (List.mem_cons.1 hk).resolve_left fun h => he h.symm
      have hrests : RestsOn s (stopReported taskid cause s e) k m := by
        cases ht : s.team? e.1 with
        | none =>
          have hid : stopTeam s e.1 cause = s := by rw [stopTeam, ht]
          have hrep : Spares .none s (stopReported taskid cause s e) := by
            rw [stopReported, hid]
            exact (Spares.refl .none s).reportKill
          exact hrep.restsOn id hm hr
        | some u =>
          have hsp : Spares (.one e.1 u.slot) s (stopReported taskid cause s e) := (stopTeam_spares cause ht).reportKill
          exact hsp.restsOn (fun h : k = e.1 => he h.symm) hm hr
      exact hrests.gone (ih hin hrests.team hrests.rest)

section
variable {s : State} {k cause addr : Nat} {t : Team} {task : Task} (ht : s.team? k = some t) (hd : t.dying = false)
  (htask : s.task? t.slot = some task) (hq : AtRest s k t)

/-- R315: whether a killed team is to be placed again. -/
def placedAgain (task : Task) (t : Team) : Bool :=
  task.rec_.restartable && KMap.get task.relaunches 0 t.index < 3 && task.fault.isNone

theorem placedAgain_iff (task : Task) (t : Team) : placedAgain task t = true ↔
    task.rec_.restartable = true ∧ KMap.get task.relaunches 0 t.index < 3 ∧ task.fault = none := by
  simp [placedAgain, and_assoc]

/-- The state once the team has been stopped and its kill reported. -/
def killedState (s : State) (k cause addr : Nat) (t : Team) (task : Task) : State :=
  reportKill (if placedAgain task t then (stopTeam s k cause).bump .relaunch t.ctx else stopTeam s k cause) t task.rec_.taskid cause addr
    (placedAgain task t)

/-- What a kill leaves of the team's task, where the team is to be placed again. -/
def Task.withRelaunch (task task1 : Task) (t : Team) : Task :=
  { task1 with relaunches := KMap.set task1.relaunches 0 t.index (KMap.get task.relaunches 0 t.index + 1),
               relaunch := task1.relaunch ++ [t.index],
               teamsRetired := task1.teamsRetired + 1#64 }

theorem killedState_spares (P : Scope) : Spares P (stopTeam s k cause) (killedState s k cause addr t task) :=
  Spares.reportKill (.ite (Spares.refl P _).bump (Spares.refl P _))

include ht in
theorem killedState_one : Spares (.one k t.slot) s (killedState s k cause addr t task) :=
  (stopTeam_spares cause ht).trans (killedState_spares _)

/-- The other resident teams of a task that is stopped. -/
def State.restOf (s : State) (slot : Nat) : List (Nat × Team) := s.teams.filter fun e => e.2.slot = slot && !e.2.dying

include ht hd htask in
theorem killTeam_eq {task1 : Task} (h1 : (killedState s k cause addr t task).task? t.slot = some task1) : killTeam s k cause addr =
    if placedAgain task t then (killedState s k cause addr t task).setTask t.slot (task.withRelaunch task1 t)
    else
      let s1 := (killedState s k cause addr t task).setTask t.slot { task1 with fault := some (cause, t.index) }
      tryEnd (retireReady ((s1.restOf t.slot).foldl (stopReported task1.rec_.taskid cause) s1) t.slot) t.slot := by
  unfold killTeam
  split
  · next e => exact absurd (e.symm.trans ht) (by simp)
  · next t0 e =>
    obtain rfl := Option.some.inj (e.symm.trans ht)
    rw [if_neg (by simp [hd])]
    split
    · next e => exact absurd (e.symm.trans htask) (by simp)
    · next task0 e =>
      obtain rfl := Option.some.inj (e.symm.trans htask)
      extract_lets used again s1 s2
      have h2 : s2 = killedState s k cause addr t0 task0 := rfl
      have ha : again = placedAgain task0 t0 := rfl
      clear_value s2 again
      subst h2 ha
      split
      · next e => exact absurd (e.symm.trans h1) (by simp)
      · next task2 e =>
        obtain rfl := Option.some.inj (e.symm.trans h1)
        rfl

include ht htask in
/-- The task once the team has been stopped: its fate and its count of retired teams are as they were. -/
theorem killedState_task : ∃ task1, (killedState s k cause addr t task).task? t.slot = some task1 ∧ task1.fate = task.fate ∧
    task1.teamsRetired = task.teamsRetired := by
  have h := killedState_one (cause := cause) (addr := addr) (task := task) ht
  obtain ⟨task1, h1, hf⟩ := task_of_fates (h.fates t.slot).symm htask
  have hs := h.steps id t.slot
  rw [show KMap.get? (killedState s k cause addr t task).tasks t.slot = some task1 from h1,
    show KMap.get? s.tasks t.slot = some task from htask] at hs
  exact ⟨task1, h1, hf.symm, (congrArg Prod.snd (Option.some.inj hs) :)⟩

include ht hd hq in
theorem killedState_gone : TeamGone s (killedState s k cause addr t task) k t :=
  (stopTeam_gone cause ht hd hq).spares (killedState_spares .none)

include ht hd htask hq in
/-- R315: the kill of a team that is to be placed again. -/
theorem killTeam_again (ha : placedAgain task t = true) : TeamGone s (killTeam s k cause addr) k t ∧
    (∀ r g, s.gang? r = some g → g.team ≠ k → (killTeam s k cause addr).gang? r = some g) ∧
    ∃ task', (killTeam s k cause addr).task? t.slot = some task' ∧ task'.relaunch = task.relaunch ++ [t.index] ∧
      KMap.get task'.relaunches 0 t.index = KMap.get task.relaunches 0 t.index + 1 ∧ task'.fault = none ∧
      task'.teamsRetired = task.teamsRetired + 1#64 := by
  obtain ⟨task1, h1, hf, hret⟩ := killedState_task (cause := cause) (addr := addr) ht htask
  obtain ⟨-, hfault, hrel, -⟩ := fate_eq_iff.1 hf
  rw [killTeam_eq ht hd htask h1, if_pos ha]
  have hused : KMap.get (task.withRelaunch task1 t).relaunches 0 t.index = KMap.get task.relaunches 0 t.index + 1 :=
    KMap.get_set_self task1.relaunches 0 t.index (KMap.get task.relaunches 0 t.index + 1)
  refine ⟨killedState_gone ht hd hq, fun r g hg hk => (killedState_one ht).gangs _ g hg hk, task.withRelaunch task1 t,
    KMap.get?_put_self _ _ _, congrArg (· ++ [t.index]) hrel, hused, hfault.trans ((placedAgain_iff task t).1 ha).2.2, congrArg (· + 1#64) hret⟩

include ht hd htask hq in
/-- R315: the kill of a team that ends its task with a fault. -/
theorem killTeam_faults (ha : placedAgain task t = false) : TeamGone s (killTeam s k cause addr) k t ∧
    ((∀ j u, s.team? j = some u → u.slot = t.slot → u.dying = false ∧ AtRest s j u) →
      (∀ j u, s.team? j = some u → u.slot = t.slot → TeamGone s (killTeam s k cause addr) j u) ∧
      ∃ task', (killTeam s k cause addr).task? t.slot = some task' ∧ task'.fault = some (cause, t.index) ∧ task'.relaunch = task.relaunch) := by
  obtain ⟨task1, h1, hf, -⟩ := killedState_task (cause := cause) (addr := addr) ht htask
  obtain ⟨-, -, hrel, -⟩ := fate_eq_iff.1 hf
  rw [killTeam_eq ht hd htask h1, if_neg (by simp [ha])]
  extract_lets s1
  have hgone : TeamGone s s1 k t := killedState_gone ht hd hq
  have hrest := stopReported_spares task1.rec_.taskid cause (s1.restOf t.slot) s1
  have hend : ∀ u : State, Spares .ending u (tryEnd (retireReady u t.slot) t.slot) := fun u =>
    ((Spares.refl .ending u).retireReady (closed_ending _) (fun _ => trivial) trivial).tryEnd trivial trivial
  refine ⟨(hgone.spares hrest).spares (hend _), fun hall => ⟨fun j u hj hslot => ?_, ?_⟩⟩
  · by_cases hjk : j = k
    · subst hjk
      obtain rfl := Option.some.inj (ht.symm.trans hj)
      exact (hgone.spares hrest).spares (hend _)
    · obtain ⟨hdu, hru⟩ := hall j u hj hslot
      have hon : RestsOn s s1 j u := by
        have h := (killedState_one (cause := cause) (addr := addr) (task := task) ht).restsOn (k := j) hjk hj hru
        exact ⟨h.team, ⟨h.rest.engine, h.rest.stash, h.rest.gangs⟩, h.gangs⟩
      have hin : j ∈ (s1.restOf t.slot).map Prod.fst :=
        List.mem_map.2 ⟨(j, u), List.mem_filter.2 ⟨KMap.mem_of_get? hon.team, by simp [hslot, hdu]⟩, rfl⟩
      exact (hon.gone (stopReported_gone _ cause _ hin hon.team hdu hon.rest)).spares (hend _)
  · have hput : s1.task? t.slot = some { task1 with fault := some (cause, t.index) } := KMap.get?_put_self _ _ _
    obtain ⟨task2, h2, hf2⟩ := task_of_fates (hrest.fates t.slot).symm hput
    obtain ⟨task', h', hf'⟩ := task_of_fates ((hend _).fates t.slot).symm h2
    obtain ⟨-, hfault, hrel', -⟩ := fate_eq_iff.1 (hf2.trans hf')
    exact ⟨task', h', hfault.symm, hrel'.symm.trans hrel⟩

end

end Sys2Proof.Machine

namespace Sys2Proof

open Machine in
/-- Settles O37: a cause goes to the agent, to the kill of the team or to the handler; a team with nothing in flight leaves at its kill, and so
does every team of its task where the task ends. -/
theorem exceptionEntry : Obligations.ExceptionEntry := by
  unfold Obligations.ExceptionEntry
  refine ⟨fun s ref who task pc t g hg => ⟨logTrap_plain _ ref who task, fun ha hi hh hr => ?_, takeTrap_kills hg, takeTrap_agent hg⟩,
    fun s k cause addr t task ht hd htask hq => ?_⟩
  · refine ⟨_, takeTrap_enters hg ha hi hh hr, rfl, rfl, rfl, rfl, rfl, rfl, enterHandler_pcOf _ t _,
      fun l => enterHandler_waitOf g.still t (t.tpc.getD pc), rfl, rfl,
      rfl, rfl, rfl, ?_, rfl, rfl, rfl, rfl, rfl⟩
    constructor <;> intros <;> rfl
  · by_cases ha : placedAgain task t = true
    · obtain ⟨hgone, hrest⟩ := killTeam_again (cause := cause) (addr := addr) ht hd htask hq.atRest ha
      exact ⟨hgone, fun _ => hrest, fun hn => absurd ((placedAgain_iff task t).1 ha) hn⟩
    · obtain ⟨hgone, hrest⟩ := killTeam_faults (cause := cause) (addr := addr) ht hd htask hq.atRest (Bool.not_eq_true _ ▸ ha)
      exact ⟨hgone, fun hy => absurd ((placedAgain_iff task t).2 hy) ha,
        fun _ hall => hrest fun j u hj hslot => (hall j u hj hslot).imp_right TeamQuiet.atRest⟩

end Sys2Proof
